-- ==== Sys2Proof/Word.lean ====
section
/-! DEFINITION. Word.lean: the word types of the Fjarond N9 and sparse tables keyed by numbers (R6, R7, R56). -/

namespace Sys2Proof

/-- A 64-bit register value (R56). -/
abbrev Word := BitVec 64
/-- A 128-bit instruction word or header slot (R131, R143). -/
abbrev Word128 := BitVec 128
/-- One bit per thread of a warp, bit `t` for thread `t`. -/
abbrev Mask := BitVec 32
/-- A byte. -/
abbrev Byte := BitVec 8

/-- A table keyed by numbers: keys strictly rising, no entry equal to the default an unlisted key reads as. -/
abbrev Sparse (α : Type) := List (Nat × α)

namespace Sparse

/-- The value at a key, or the default. -/
def get {α : Type} (dflt : α) : Sparse α → Nat → α
  | [], _ => dflt
  | (k, v) :: rest, a => if a = k then v else get dflt rest a

/-- Remove a key. -/
def erase {α : Type} : Sparse α → Nat → Sparse α
  | [], _ => []
  | (k, v) :: rest, a => if a = k then erase rest a else (k, v) :: erase rest a

/-- Insert or replace a key. -/
def put {α : Type} : Sparse α → Nat → α → Sparse α
  | [], a, x => [(a, x)]
  | (k, v) :: rest, a, x =>
    if a = k then (a, x) :: rest else if a < k then (a, x) :: (k, v) :: rest else (k, v) :: put rest a x

/-- Write a value, keeping the canonical form: writing the default removes the entry. -/
def set {α : Type} [DecidableEq α] (dflt : α) (s : Sparse α) (a : Nat) (x : α) : Sparse α :=
  if x = dflt then erase s a else put s a x

/-- The entry at a key, when it is listed. -/
def find {α : Type} : Sparse α → Nat → Option α
  | [], _ => none
  | (k, v) :: rest, a => if a = k then some v else find rest a

end Sparse

/-- Bit `i` of a mask. -/
def Mask.has (m : Mask) (t : Nat) : Bool := m.getLsbD t

/-- The mask of the threads that satisfy a test. -/
def Mask.ofPred (f : Nat → Bool) : Mask :=
  (List.range 32).foldl (fun m t => if f t then m ||| BitVec.ofNat 32 (2 ^ t) else m) 0

/-- The threads of a mask in ascending order. -/
def Mask.threads (m : Mask) : List Nat := (List.range 32).filter (fun t => m.getLsbD t)

/-- The lowest thread of a mask. -/
def Mask.lowest (m : Mask) : Option Nat := (Mask.threads m).head?

end Sys2Proof
end

