-- ==== Sys2Proof/Syntax.lean ====
section
/-! DEFINITION. Syntax.lean: instructions of the Fjarond N9, one constructor per row of spec/opcode_table.json. -/

namespace Sys2Proof

/-- Element types in the order of Table 6.1 (R56, R159). -/
inductive ETy where
  | i8x8 | n8x8 | i16x4 | n16x4 | i32x2 | n32x2 | i64 | n64
  | bf16x4 | f16x4 | f32x2 | f64 | e4m3x8 | e5m2x8 | e2m1x16
  deriving DecidableEq, Repr

/-- Floating-point types of form F (Table 12.1). -/
inductive FTy where | bf16x4 | f16x4 | f32x2 | f64
  deriving DecidableEq, Repr

/-- Rounding modes 0-5 (Table 6.5). -/
inductive RMode where | rne | rz | ru | rd | rna | rs
  deriving DecidableEq, Repr

/-- Conditions of forms C and W. -/
inductive Cond where | eq | ne | lt | le | gt | ge
  deriving DecidableEq, Repr

/-- Conditions of FCMP. -/
inductive FCond where | eq | ne | lt | le | gt | ge | un
  deriving DecidableEq, Repr

/-- Reduction types of form Y. -/
inductive RTy where | i32x2 | n32x2 | i64 | n64 | bf16x4 | f16x4 | f32x2 | f64
  deriving DecidableEq, Repr

/-- Reduction operations of form Y. -/
inductive ROp where | add | min | max | and | or | xor
  deriving DecidableEq, Repr

/-- VOTE operations (R186). -/
inductive VOp where | and | or | eq | bits | cnt | lead
  deriving DecidableEq, Repr

/-- SHFL modes (R183). -/
inductive ShMode where | at | below | above | flip
  deriving DecidableEq, Repr

/-- PLOP operations (R188). -/
inductive PLogic where | and | or | xor | andn
  deriving DecidableEq, Repr

/-- Address spaces of forms M and A (R88). -/
inductive Space where | g | s | k
  deriving DecidableEq, Repr

/-- Memory access types (Table 14.1). -/
inductive MTy where | i8 | n8 | i16 | n16 | i32 | n32 | i64 | n64
  deriving DecidableEq, Repr

/-- Atomic types (Table 14.1, form A). -/
inductive ATy where | i32 | n32 | i64 | n64 | f32 | f64 | bf16 | f16
  deriving DecidableEq, Repr

/-- Atomic operations (Table 14.6). -/
inductive AOp where | add | min | max | and | or | xor | exch | cas
  deriving DecidableEq, Repr

/-- Ordering forms. -/
inductive Ord where | none | rel | acq | acqrel
  deriving DecidableEq, Repr

/-- Scopes (Table 8.6). -/
inductive Scope where | core | team | package | domain | system
  deriving DecidableEq, Repr

/-- Queue ports in the order of Table 10.2. -/
inductive Port where | cp | mx | ep | ga | cj | sp | bd | xs
  deriving DecidableEq, Repr

/-- Special registers (Table 10.9). -/
inductive Special where
  | tid | wid | bid | core | team | lane | time | status | slim | sp | restart | rnd | part | params | weight | fault
  deriving DecidableEq, Repr

/-- The immediate forms 0xC0 to 0xC4 (R134). -/
inductive ImmKind where | asIs | sext | zext | high | rep
  deriving DecidableEq, Repr

/-- An operand specifier byte (Table 10.2). -/
inductive Spec where
  | d (i : Fin 64) | w (i : Fin 32) | p (i : Fin 8) | q (i : Fin 4) | n (i : Fin 4) | m (i : Fin 8)
  | port (p : Port) | special (s : Special) | small (v : Fin 32) | imm (k : ImmKind) | none
  deriving DecidableEq, Repr

/-- A predicate index: `p0`-`p7` per thread or `q0`-`q3` per warp (Table 10.3). -/
inductive Pred where | p (i : Fin 8) | q (i : Fin 4)
  deriving DecidableEq, Repr

/-- A guard field (Table 10.3). -/
structure Guard where
  neg  : Bool
  pred : Pred
  deriving DecidableEq, Repr

/-- Cache hints (Table 8.4). -/
inductive Hint where | normal | streaming | keep | bypass | nollc | lastuse
  deriving DecidableEq, Repr

/-- The scheduling control field (Table 10.7). -/
structure Sched where
  yield : Bool
  stall : Fin 8
  boost : Bool
  deriving DecidableEq, Repr

/-- The sequencing field (Table 10.4, R139, R140). -/
inductive Seq where
  | seq
  | go (t : BitVec 13) | goInd (w : Fin 32)
  | ifT (p : Pred) (t : BitVec 13) | ifN (p : Pred) (t : BitVec 13)
  | call (t : BitVec 13) | callInd (w : Fin 32)
  | ret | loop (n : Fin 4) (t : BitVec 13) | fin
  deriving DecidableEq, Repr

/-- The fields every word carries besides its operation and operands (Table 10.1). -/
structure Ctl where
  g1    : Guard
  g2    : Guard
  hint  : Hint
  sched : Sched
  seq   : Seq
  deriving DecidableEq, Repr

/-- The five operand slots and the immediate they may name; `imm` is 0 where the entry uses `imm32` as a field. -/
structure Slots where
  a : Spec
  b : Spec
  c : Spec
  d : Spec
  e : Spec
  imm : BitVec 32
  deriving DecidableEq, Repr

/-- Form I (Table 12.1). -/
structure IMod where
  ty  : ETy
  sat : Bool
  var : Bool
  deriving DecidableEq, Repr

/-- Form C. -/
structure CMod where
  ty   : ETy
  cond : Cond
  deriving DecidableEq, Repr

/-- Form F. -/
structure FMod where
  fty : FTy
  rm  : RMode
  deriving DecidableEq, Repr

/-- Form F of FCMP. -/
structure FCMod where
  fty  : FTy
  cond : FCond
  deriving DecidableEq, Repr

/-- CVT: form X and Table 12.10. -/
structure CvtMod where
  dty  : ETy
  sty  : ETy
  rm   : RMode
  part : Fin 16
  sat  : Bool
  deriving DecidableEq, Repr

/-- SHFL's modifier (R183). -/
structure ShMod where
  ty   : ETy
  mode : ShMode
  deriving DecidableEq, Repr

/-- Form Y. -/
structure YMod where
  rty : RTy
  op  : ROp
  deriving DecidableEq, Repr

/-- Form M with the `off` field of `imm32` (R191). -/
structure MMod where
  sp  : Space
  mt  : MTy
  off : BitVec 32
  deriving DecidableEq, Repr

/-- LDH and CHK: access type, table index and 28-bit offset (R201). -/
structure HMod where
  mt  : MTy
  idx : Fin 16
  off : BitVec 28
  deriving DecidableEq, Repr

/-- Form A with Table 14.6. -/
structure AMod where
  sp    : Space
  aty   : ATy
  op    : AOp
  ord   : Ord
  scope : Scope
  deriving DecidableEq, Repr

/-- XST: access type and the receiver's coordinates (R213). -/
structure XMod where
  mt  : MTy
  col : Byte
  row : Byte
  deriving DecidableEq, Repr

/-- Form S. -/
structure SMod where
  ord   : Ord
  scope : Scope
  deriving DecidableEq, Repr

/-- Form W. -/
structure WMod where
  cond : Cond
  sgn  : Bool
  any  : Bool
  acq  : Bool
  deriving DecidableEq, Repr

/-- BAR operations (R224). -/
inductive BarOp where | join | pass | hold
  deriving DecidableEq, Repr

/-- ARRV operations (R221). -/
inductive ArrvOp where | init | add | expect | clrerr
  deriving DecidableEq, Repr

/-- CFLUSH operations (R207). -/
inductive FlushOp where | wb | inv | wbinv | vault
  deriving DecidableEq, Repr

/-- Source spaces of copies (Table 18.3). -/
inductive SSp where | g | s
  deriving DecidableEq, Repr

/-- Destination spaces of copies (Table 18.3). -/
inductive DSp where | g | s | b0 | b1
  deriving DecidableEq, Repr

/-- CPY, CPYT and CPYM (Table 18.3). -/
structure CpyMod where
  ssp : SSp
  dsp : DSp
  cw  : Bool
  rcd : Bool
  deriving DecidableEq, Repr

/-- CPYG (Table 18.3). -/
structure CpygMod where
  dsp : SSp
  cw  : Bool
  rcd : Bool
  esz : Fin 4
  pw  : BitVec 10
  ph  : BitVec 10
  deriving DecidableEq, Repr

/-- GTH (destination space) and SCT (source space). -/
structure GthMod where
  sp  : SSp
  cw  : Bool
  rcd : Bool
  deriving DecidableEq, Repr

/-- BOARD (Table 18.3). -/
structure BoardMod where
  cw   : Bool
  rcd  : Bool
  bank : Bool
  slot : Fin 16
  deriving DecidableEq, Repr

/-- WLD (Table 16.9); `ck` is 0 to 2. -/
structure WldMod where
  fmt  : Fin 32
  cw   : Bool
  bank : Bool
  rcd  : Bool
  ck   : Fin 3
  deriving DecidableEq, Repr

/-- MMA and MMS (Table 16.9). -/
structure MmaMod where
  fmt    : Fin 32
  cw     : Bool
  g      : Byte
  rcd    : Bool
  stride : BitVec 12
  deriving DecidableEq, Repr

/-- MMR (Table 16.9). -/
structure MmrMod where
  fmt : Fin 32
  cw  : Bool
  g   : Byte
  rcd : Bool
  grp : Fin 4
  deriving DecidableEq, Repr

/-- ACLR (Table 16.9). -/
structure AclrMod where
  long : Bool
  g    : Byte
  deriving DecidableEq, Repr

/-- EPI (Table 16.9). -/
structure EpiMod where
  cw  : Bool
  g   : Byte
  rcd : Bool
  deriving DecidableEq, Repr

/-- RELABEL operations (Table 22.5). -/
inductive RelOp where | addI | addF | minI | maxI | minF | maxF | count
  deriving DecidableEq, Repr

/-- RELABEL (Table 22.5); `first` is `imm32`. -/
structure RelMod where
  op    : RelOp
  cw    : Bool
  rcd   : Bool
  first : BitVec 32
  deriving DecidableEq, Repr

/-- FSNAP operations (Table 22.5). -/
inductive SnapOp where | openS | closeS | initS
  deriving DecidableEq, Repr

/-- RFT forms (R318). -/
inductive RftOp where | retry | next | to
  deriving DecidableEq, Repr

/-- System control registers (Table 10.11). -/
inductive CtlReg where
  | tvec | ptroot | stkbase | stksize | restorewait | ilbase | ilsize | rclass | rcsel | repways
  | fepoch | fmin | fpool | ringrate | dwell
  deriving DecidableEq, Repr

/-- What a write of the host to the memory window carries: which of the eight bytes it writes, and their values (R343). -/
structure HostBytes where
  enables : BitVec 8
  value   : Word
  deriving DecidableEq, Repr, Inhabited

/-- What an ageing sample finds: cores to be marked, and slices whose margin cannot be restored (R358). -/
structure Margins where
  cores  : List Nat
  slices : List Nat
  deriving DecidableEq, Repr, Inhabited

/-- A split of a resident warp: core, lane, warp slot on the lane, and the split's number in its warp. -/
structure Ref where
  core  : Nat
  lane  : Nat
  slot  : Nat
  split : Nat
  deriving DecidableEq, Repr

/-- Units with event counters (R359). -/
inductive CUnit where | core | slice | dome
  deriving DecidableEq, Repr

/-- Operations a Bexset request carries to a home slice (R346). `reduce` is the far reduction of a RELABEL, whose value is
exact until it has met the output slot; `op` is the number of Table 22.5 and `xs` its inputs (R338). -/
inductive BexOp where
  | read | write (bytes : BitVec 8) (v : Word) | atomic (aty : ATy) (op : AOp) (c : Word) (d : Word)
  | reduce (op : Nat) (xs : List Nat)
  deriving DecidableEq, Repr

/-- One constructor per row of spec/opcode_table.json. A constructor with `Ctl` and `Slots` is an instruction word;
the others are the table's steps of engines, the driver and the outside world, with the data that names them. -/
inductive Instr where
  -- class 000
  | ill
  | iadd (x : Ctl) (m : IMod) (o : Slots) | isub (x : Ctl) (m : IMod) (o : Slots)
  | iaddc (x : Ctl) (o : Slots)
  | imul (x : Ctl) (m : IMod) (o : Slots) | imulh (x : Ctl) (m : IMod) (o : Slots)
  | imad (x : Ctl) (m : IMod) (o : Slots) | idiv (x : Ctl) (m : IMod) (o : Slots)
  | irem (x : Ctl) (m : IMod) (o : Slots) | ineg (x : Ctl) (m : IMod) (o : Slots)
  | iabs (x : Ctl) (m : IMod) (o : Slots) | imin (x : Ctl) (m : IMod) (o : Slots)
  | imax (x : Ctl) (m : IMod) (o : Slots) | andL (x : Ctl) (m : IMod) (o : Slots)
  | orL (x : Ctl) (m : IMod) (o : Slots) | xorL (x : Ctl) (m : IMod) (o : Slots)
  | andn (x : Ctl) (m : IMod) (o : Slots) | shl (x : Ctl) (m : IMod) (o : Slots)
  | shr (x : Ctl) (m : IMod) (o : Slots) | sar (x : Ctl) (m : IMod) (o : Slots)
  | rol (x : Ctl) (m : IMod) (o : Slots) | clz (x : Ctl) (m : IMod) (o : Slots)
  | ctz (x : Ctl) (m : IMod) (o : Slots) | popc (x : Ctl) (m : IMod) (o : Slots)
  | brev (x : Ctl) (m : IMod) (o : Slots) | bfx (x : Ctl) (m : IMod) (o : Slots)
  | bfi (x : Ctl) (m : IMod) (o : Slots) | sel (x : Ctl) (m : IMod) (o : Slots)
  | mov (x : Ctl) (m : IMod) (o : Slots) | lea (x : Ctl) (m : IMod) (o : Slots)
  | icmp (x : Ctl) (m : CMod) (o : Slots)
  -- class 001
  | padd (x : Ctl) (m : IMod) (o : Slots) | psub (x : Ctl) (m : IMod) (o : Slots)
  | pmul (x : Ctl) (m : IMod) (o : Slots) | pmad (x : Ctl) (m : IMod) (o : Slots)
  | pmin (x : Ctl) (m : IMod) (o : Slots) | pmax (x : Ctl) (m : IMod) (o : Slots)
  | pabs (x : Ctl) (m : IMod) (o : Slots) | pavg (x : Ctl) (m : IMod) (o : Slots)
  | psad (x : Ctl) (m : IMod) (o : Slots) | pdot (x : Ctl) (m : IMod) (o : Slots)
  | pcmp (x : Ctl) (m : CMod) (o : Slots)
  | pshl (x : Ctl) (m : IMod) (o : Slots) | pshr (x : Ctl) (m : IMod) (o : Slots)
  | fadd (x : Ctl) (m : FMod) (o : Slots) | fsub (x : Ctl) (m : FMod) (o : Slots)
  | fmul (x : Ctl) (m : FMod) (o : Slots) | fma (x : Ctl) (m : FMod) (o : Slots)
  | fmin (x : Ctl) (m : FMod) (o : Slots) | fmax (x : Ctl) (m : FMod) (o : Slots)
  | fabs (x : Ctl) (m : FMod) (o : Slots) | fneg (x : Ctl) (m : FMod) (o : Slots)
  | fcmp (x : Ctl) (m : FCMod) (o : Slots)
  | fclass (x : Ctl) (m : FMod) (o : Slots) | fdot2 (x : Ctl) (m : FMod) (o : Slots)
  | fscale (x : Ctl) (m : FMod) (o : Slots)
  -- class 010
  | frcp (x : Ctl) (m : FMod) (o : Slots) | frsq (x : Ctl) (m : FMod) (o : Slots)
  | fsqrt (x : Ctl) (m : FMod) (o : Slots) | fexp2 (x : Ctl) (m : FMod) (o : Slots)
  | flog2 (x : Ctl) (m : FMod) (o : Slots) | fsin (x : Ctl) (m : FMod) (o : Slots)
  | fcos (x : Ctl) (m : FMod) (o : Slots) | ftanh (x : Ctl) (m : FMod) (o : Slots)
  | fdiv (x : Ctl) (m : FMod) (o : Slots)
  | cvt (x : Ctl) (m : CvtMod) (o : Slots)
  | pack (x : Ctl) (m : IMod) (o : Slots) | unpack (x : Ctl) (m : IMod) (o : Slots)
  | swz (x : Ctl) (m : IMod) (o : Slots)
  -- class 011
  | shfl (x : Ctl) (m : ShMod) (o : Slots) | bcast (x : Ctl) (m : IMod) (o : Slots)
  | wred (x : Ctl) (m : YMod) (o : Slots) | wscan (x : Ctl) (m : YMod) (o : Slots)
  | vote (x : Ctl) (m : VOp) (o : Slots) | matchW (x : Ctl) (o : Slots)
  | wset (x : Ctl) (o : Slots) | first (x : Ctl) (o : Slots)
  | pset (x : Ctl) (o : Slots) | plop (x : Ctl) (m : PLogic) (inv : Bool) (o : Slots)
  | pmov (x : Ctl) (o : Slots) | pmovScatter (x : Ctl) (o : Slots)
  -- class 100
  | ld (x : Ctl) (m : MMod) (o : Slots) | st (x : Ctl) (m : MMod) (o : Slots)
  | ldu (x : Ctl) (m : MMod) (o : Slots) | stu (x : Ctl) (m : MMod) (o : Slots)
  | ldh (x : Ctl) (m : HMod) (o : Slots) | chk (x : Ctl) (m : HMod) (o : Slots)
  | ldm (x : Ctl) (m : MMod) (o : Slots)
  | pref (x : Ctl) (llc : Bool) (off : BitVec 32) (o : Slots)
  | locq (x : Ctl) (o : Slots) | dcf (x : Ctl) (o : Slots)
  | cflush (x : Ctl) (op : FlushOp) (off : BitVec 32) (o : Slots)
  | atom (x : Ctl) (m : AMod) (o : Slots) | atomc (x : Ctl) (m : AMod) (o : Slots)
  | red (x : Ctl) (m : AMod) (o : Slots)
  | xst (x : Ctl) (m : XMod) (o : Slots)
  | xstReceiverResident (r : Ref)
  -- class 101
  | phase (x : Ctl) (m : SMod) (o : Slots) | fence (x : Ctl) (m : SMod) (o : Slots)
  | bar (x : Ctl) (op : BarOp) (o : Slots) | tbar (x : Ctl) (pass : Bool) (swap : Bool) (o : Slots)
  | wait (x : Ctl) (m : WMod) (o : Slots)
  | waitTimeout (id : Nat) | wakeUp (id : Nat)
  | await (x : Ctl) (o : Slots) | arrv (x : Ctl) (op : ArrvOp) (o : Slots)
  | txb (x : Ctl) (o : Slots) | txc (x : Ctl) (o : Slots) | txa (x : Ctl) (o : Slots) | txs (x : Ctl) (o : Slots)
  | yieldW (x : Ctl) (o : Slots)
  | coalescingWindowClose (core lane slot line : Nat) (store : Bool)
  -- class 110, copies and gathers
  | cpy (x : Ctl) (m : CpyMod) (o : Slots) | cpyt (x : Ctl) (m : CpyMod) (o : Slots)
  | cpym (x : Ctl) (m : CpyMod) (o : Slots) | cpyg (x : Ctl) (m : CpygMod) (o : Slots)
  | gth (x : Ctl) (m : GthMod) (o : Slots) | sct (x : Ctl) (m : GthMod) (o : Slots)
  | qfence (x : Ctl) (qset : BitVec 6) (o : Slots)
  | engineQueuePush (r : Ref)
  | copyLanding (cmd : Nat) (line : Nat) | commandCompletion (cmd : Nat)
  | gatherWindow (cmd : Nat) | scatterPosition (cmd : Nat) (j : Nat)
  -- matrix engine
  | wld (x : Ctl) (m : WldMod) (o : Slots)
  | wldFillStart (core : Nat) | weightExchange (core : Nat)
  | mma (x : Ctl) (m : MmaMod) (o : Slots) | mms (x : Ctl) (m : MmaMod) (o : Slots)
  | mmr (x : Ctl) (m : MmrMod) (o : Slots)
  | collectorDelivery (core lane : Nat)
  | aclr (x : Ctl) (m : AclrMod) (o : Slots)
  | matrixCommandStart (core : Nat) | rowRetire (core cmd : Nat) | matrixCommandComplete (core cmd : Nat)
  | epi (x : Ctl) (m : EpiMod) (o : Slots) | epiDrain (core : Nat)
  | board (x : Ctl) (m : BoardMod) (o : Slots)
  -- conjunction engine
  | unite (x : Ctl) (nc : Bool) (o : Slots) | find (x : Ctl) (nc : Bool) (o : Slots)
  | fsize (x : Ctl) (nc : Bool) (o : Slots) | relabel (x : Ctl) (m : RelMod) (o : Slots)
  | fsnap (x : Ctl) (op : SnapOp) (rcd : Bool) (o : Slots) | fundo (x : Ctl) (rcd : Bool) (o : Slots)
  -- staged launches and class 111
  | spawn (x : Ctl) (rcd : Bool) (o : Slots)
  | trap (x : Ctl) (code : BitVec 16) (o : Slots) | sysc (x : Ctl) (code : BitVec 16) (o : Slots)
  | brk (x : Ctl) (code : BitVec 16) (o : Slots)
  | rft (x : Ctl) (op : RftOp) (o : Slots)
  | srd (x : Ctl) (sel : CtlReg) (o : Slots) | swr (x : Ctl) (sel : CtlReg) (o : Slots)
  | rstl (x : Ctl) (o : Slots) | launch (x : Ctl) (o : Slots)
  | perf (x : Ctl) (slice : Bool) (o : Slots)
  | halt (x : Ctl) (code : BitVec 16) (o : Slots) | nop (x : Ctl) (o : Slots)
  -- launches
  | launchQueueDoorbell (q : Fin 8) (tail : Word) | launchAcceptance | guardRead (l : Nat)
  | blockAdmission (l : Nat) (core : Nat) | blockEnd (b : Nat)
  | packerTimeout (l : Nat) (stage : Nat) | formedWarpStart (l : Nat) (b : Nat)
  | terminationRound (l : Nat)
  -- fault queue, translation, pre-emption
  | faultRecordPost (k : Nat)
  | fqReplyReplay (seq : BitVec 32) | fqReplyFatal (seq : BitVec 32) | fqReplyResume (seq : BitVec 32)
  | tinv (v : Word) | icinv
  | preEmptCore (core : Byte) | preEmptLaunch | cancelLaunch
  | restoreQueue (core : Byte) | restore (k : Nat) | restcap (k : Nat)
  -- control window
  | ctlHostWrite (sel : CtlReg) (v : Word) | ctlerrClear
  | controlWindowWrite (off : Nat) (v : Word)
  | hostMemoryWrite (off : Nat) (v : HostBytes) | hostMemoryRead (off : Nat)
  | snextArm (v : Word) | snextDisarm | rstatClear
  | ringStep | followEpoch
  | towerReset (d : Fin 16) (force : Bool) | towerResetEnd (d : Nat)
  | pcap (v : Word) | checkpointSave (a : Word) | checkpointRestore (a : Word) | checkpointDone
  | counterSelectWrite (u : CUnit) (unit : Nat) (i : Fin 8) (v : Word)
  | moduleReset (images : List (Bool × Word)) (failedTower : Option (Fin 9)) (transitOk : Bool) (badCores : List Nat)
  | getVersion (port : Bool) | getCapabilities (port : Bool) | negotiateAlgorithms (port : Bool)
  | getDigests (port : Bool) | getCertificate (port : Bool)
  | challenge (port : Bool) | getMeasurements (port : Bool)
  | bexsetRequest (dome : Fin 9) (source : BitVec 16) (tag : BitVec 16) (seq : BitVec 32) (addr : Nat) (op : BexOp)
  | bexsetRetransmit (tag : Nat) | bexsetResponse (tag : Nat) (v : Word)
  | bexsetAck (dome : Fin 9) (source : BitVec 16) (tag : BitVec 16) (seq : BitVec 32)
  | ucieLinkRetry (dome : Fin 9)
  | timeCorrection (offset : Int) | ageingSample (marked : Margins) | coreRetirement (core : Nat)
  -- engine steps the table lists last
  | wldFillComplete (core : Nat) | aclrStart (core : Nat) | aclrClearComplete (core cmd : Nat)
  | patchGather (cmd : Nat) | conjunctionOperation (slice : Nat) (op : Nat)
  | tinvComplete | icinvComplete | pstateChange (v : Fin 3)
  deriving DecidableEq, Repr

end Sys2Proof
end

