-- ==== Sys2Proof/WellFormed.lean ====
section
/-! DEFINITION. WellFormed.lean: which instruction words the entries accept (R134, R137, R149, R157, R159, R190, R255,
R272, R316, R335): the role of every slot and the modifier values of every entry. -/

namespace Sys2Proof

/-- The code of an element type in the order of Table 6.1 (R156). -/
def ETy.code : ETy → Nat
  | .i8x8 => 0 | .n8x8 => 1 | .i16x4 => 2 | .n16x4 => 3 | .i32x2 => 4 | .n32x2 => 5 | .i64 => 6 | .n64 => 7
  | .bf16x4 => 8 | .f16x4 => 9 | .f32x2 => 10 | .f64 => 11 | .e4m3x8 => 12 | .e5m2x8 => 13 | .e2m1x16 => 14

/-- The width of a sub-element in bits (Table 6.1). -/
def ETy.width : ETy → Nat
  | .i8x8 | .n8x8 | .e4m3x8 | .e5m2x8 => 8
  | .i16x4 | .n16x4 | .bf16x4 | .f16x4 => 16
  | .i32x2 | .n32x2 | .f32x2 => 32
  | .i64 | .n64 | .f64 => 64
  | .e2m1x16 => 4

/-- The number of sub-elements of a register (Table 6.1). -/
def ETy.count (t : ETy) : Nat := 64 / t.width

/-- Whether a type is an integer type (Table 6.1). -/
def ETy.isInt (t : ETy) : Bool := t.code < 8

/-- Whether an integer type is signed (Table 6.1). -/
def ETy.signed : ETy → Bool
  | .i8x8 | .i16x4 | .i32x2 | .i64 => true
  | _ => false

/-- A form-F type as an element type. -/
def FTy.ety : FTy → ETy
  | .bf16x4 => .bf16x4 | .f16x4 => .f16x4 | .f32x2 => .f32x2 | .f64 => .f64

/-- A form-Y type as an element type. -/
def RTy.ety : RTy → ETy
  | .i32x2 => .i32x2 | .n32x2 => .n32x2 | .i64 => .i64 | .n64 => .n64
  | .bf16x4 => .bf16x4 | .f16x4 => .f16x4 | .f32x2 => .f32x2 | .f64 => .f64

/-- The I-set of R159. -/
def ETy.inI (t : ETy) : Bool := 4 ≤ t.code && t.code ≤ 7
/-- The L-set of R159. -/
def ETy.inL (t : ETy) : Bool := t.code ≤ 7
/-- The P-set of R159. -/
def ETy.inP (t : ETy) : Bool := t.code ≤ 5

/-- Kinds of specifier a slot can name (Table 10.2). -/
inductive Kind where
  | d | w | p | q | n | m | port | special (uniform writable : Bool) | small | imm (k : ImmKind) | none
  deriving DecidableEq, Repr

/-- A special register that is one value per warp (Table 10.9). -/
def Special.perWarp : Special → Bool
  | .tid | .status | .rnd | .weight => false
  | _ => true

/-- A special register a word may write (Table 10.9). -/
def Special.writable : Special → Bool
  | .status | .slim | .sp | .rnd => true
  | _ => false

/-- The kind of a specifier. -/
def Spec.kind : Spec → Kind
  | .d _ => .d | .w _ => .w | .p _ => .p | .q _ => .q | .n _ => .n | .m _ => .m
  | .port _ => .port | .special s => .special s.perWarp s.writable
  | .small _ => .small | .imm k => .imm k | .none => .none

/-- The role an entry gives a slot. -/
inductive Role where
  /-- The slot is unused and holds 0xFF (R137). -/
  | unused
  /-- A destination of any kind (R160). -/
  | dst
  /-- An optional destination of any kind. -/
  | dstOpt
  /-- A d register or a per-warp register (LD, R197). -/
  | dstReg
  /-- A d or p register or a per-warp register (LDU, R198). -/
  | dstRegP
  /-- A d destination (LDH, CHK; R201). -/
  | dstD
  /-- A d or w destination (R319, R322, R323, R336). -/
  | dstDW
  /-- An optional d or w destination (SWR, R319). -/
  | dstDWOpt
  /-- A d, w or m destination (SRD, R319). -/
  | dstDWM
  /-- A w, n, m or q destination (WSET, R187). -/
  | dstUni
  /-- A predicate destination. -/
  | dstPred
  /-- The first m register of LDM (R199). -/
  | dstM
  /-- A source of any kind with no element type of 4- to 32-bit sub-elements. -/
  | src
  /-- A source of any kind read under 4- to 32-bit sub-elements (R134). -/
  | srcE
  /-- A source of any kind that is 32 bits wide (R134). -/
  | src32
  /-- A predicate source (R160). -/
  | pred
  /-- A uniform source (R163). -/
  | uni
  /-- A uniform source 32 bits wide. -/
  | uni32
  /-- The uniform address of LDU, STU and LDM (R198). -/
  | uaddr
  /-- The uniform data of STU (R198). -/
  | udata
  /-- The small immediate of LDM (R199). -/
  | smallOnly
  /-- An engine operand (R250, R266). -/
  | eng
  /-- An optional engine operand. -/
  | engOpt
  /-- The count operand of R267 with `cw` = 0: registers only. -/
  | engCount
  /-- A d register named as the first of several (MMR, SPAWN). -/
  | dReg
  /-- A w register (RFT). -/
  | wReg
  /-- A w register or a small immediate (RSTL, R320). -/
  | wSmall
  /-- A w, n or m register or a small immediate (SWR, R319). -/
  | ctlSrc
  deriving DecidableEq, Repr

/-- Whether a slot may be left at 0xFF. -/
def Role.optional : Role → Bool
  | .unused | .dstOpt | .dstDWOpt | .engOpt => true
  | _ => false

/-- Whether a slot is a destination. -/
def Role.isDst : Role → Bool
  | .dst | .dstOpt | .dstReg | .dstRegP | .dstD | .dstDW | .dstDWOpt | .dstDWM | .dstUni | .dstPred | .dstM => true
  | _ => false

/-- The kinds a role accepts besides 0xFF; `fld` says that the entry uses `imm32` as a field (R134, R137). -/
def Role.accepts (fld : Bool) (r : Role) (k : Kind) : Bool :=
  match r with
  | .unused => false
  | .dst | .dstOpt =>
    match k with
    | .d | .w | .p | .q | .n | .m | .special _ true => true
    | _ => false
  | .dstReg => k = .d || k = .w || k = .q || k = .n || k = .m
  | .dstRegP => k = .d || k = .w || k = .q || k = .n || k = .m || k = .p
  | .dstD | .dReg => k = .d
  | .dstDW | .dstDWOpt => k = .d || k = .w
  | .dstDWM => k = .d || k = .w || k = .m
  | .dstUni => k = .w || k = .n || k = .m || k = .q
  | .dstPred | .pred => k = .p || k = .q
  | .dstM => k = .m
  | .src =>
    match k with
    | .none => false
    | .imm i => !fld && i ≠ .asIs && i ≠ .rep
    | _ => true
  | .srcE =>
    match k with
    | .none => false
    | .imm i => !fld && i ≠ .asIs
    | _ => true
  | .src32 =>
    match k with
    | .none => false
    | .imm i => !fld && i ≠ .rep
    | _ => true
  | .uni =>
    match k with
    | .w | .q | .n | .m | .small | .special true _ => true
    | .imm i => !fld && i ≠ .asIs && i ≠ .rep
    | _ => false
  | .uni32 =>
    match k with
    | .w | .q | .n | .m | .small | .special true _ => true
    | .imm i => !fld && i ≠ .rep
    | _ => false
  | .uaddr =>
    match k with
    | .w | .n | .m | .special true _ => true
    | _ => false
  | .udata =>
    match k with
    | .w | .n | .m | .small | .special true _ => true
    | _ => false
  | .smallOnly => k = .small
  | .eng | .engOpt =>
    match k with
    | .d | .w | .n | .m | .small | .special _ _ => true
    | .imm i => !fld && i ≠ .asIs && i ≠ .rep
    | _ => false
  | .engCount =>
    match k with
    | .d | .w | .n | .m | .special _ _ => true
    | _ => false
  | .wReg => k = .w
  | .wSmall => k = .w || k = .small
  | .ctlSrc => k = .w || k = .n || k = .m || k = .small

/-- Whether a slot's specifier fits its role (R137). -/
def Role.fits (fld : Bool) (r : Role) (s : Spec) : Bool :=
  if s = .none then r.optional else r.accepts fld s.kind

/-- The roles of the five slots of an entry. -/
structure Roles where
  a : Role := .unused
  b : Role := .unused
  c : Role := .unused
  d : Role := .unused
  e : Role := .unused
  deriving DecidableEq, Repr

/-- The role of a source read under an element type. -/
def ETy.role (t : ETy) : Role := if t.width = 64 then .src else .srcE

/-- What an entry makes of a word: its opcode, modifier, `imm32` field when it has one, whether it accepts a hint, and
the roles of its slots. `modOk` says that the modifier and field values are among those the entry lists. -/
structure Entry where
  op    : Nat
  mod   : Nat
  field : Option (BitVec 32)
  hint  : Bool := false
  roles : Roles
  modOk : Bool := true
  x     : Ctl
  o     : Slots

/-- Bit value of a flag. -/
def bit (b : Bool) : Nat := if b then 1 else 0

def RMode.code : RMode → Nat
  | .rne => 0 | .rz => 1 | .ru => 2 | .rd => 3 | .rna => 4 | .rs => 5
def Cond.code : Cond → Nat
  | .eq => 0 | .ne => 1 | .lt => 2 | .le => 3 | .gt => 4 | .ge => 5
def FCond.code : FCond → Nat
  | .eq => 0 | .ne => 1 | .lt => 2 | .le => 3 | .gt => 4 | .ge => 5 | .un => 6
def FTy.code : FTy → Nat
  | .bf16x4 => 0 | .f16x4 => 1 | .f32x2 => 2 | .f64 => 3
def RTy.code : RTy → Nat
  | .i32x2 => 0 | .n32x2 => 1 | .i64 => 2 | .n64 => 3 | .bf16x4 => 4 | .f16x4 => 5 | .f32x2 => 6 | .f64 => 7
def ROp.code : ROp → Nat
  | .add => 0 | .min => 1 | .max => 2 | .and => 3 | .or => 4 | .xor => 5
def VOp.code : VOp → Nat
  | .and => 0 | .or => 1 | .eq => 2 | .bits => 3 | .cnt => 4 | .lead => 5
def ShMode.code : ShMode → Nat
  | .at => 0 | .below => 1 | .above => 2 | .flip => 3
def PLogic.code : PLogic → Nat
  | .and => 0 | .or => 1 | .xor => 2 | .andn => 3
def Space.code : Space → Nat
  | .g => 0 | .s => 1 | .k => 2
def MTy.code : MTy → Nat
  | .i8 => 0 | .n8 => 1 | .i16 => 2 | .n16 => 3 | .i32 => 4 | .n32 => 5 | .i64 => 6 | .n64 => 7
def ATy.code : ATy → Nat
  | .i32 => 0 | .n32 => 1 | .i64 => 2 | .n64 => 3 | .f32 => 4 | .f64 => 5 | .bf16 => 6 | .f16 => 7
def AOp.code : AOp → Nat
  | .add => 0 | .min => 1 | .max => 2 | .and => 3 | .or => 4 | .xor => 5 | .exch => 6 | .cas => 7
def Ord.code : Ord → Nat
  | .none => 0 | .rel => 1 | .acq => 2 | .acqrel => 3
def Scope.code : Scope → Nat
  | .core => 0 | .team => 1 | .package => 2 | .domain => 3 | .system => 4
def BarOp.code : BarOp → Nat
  | .join => 0 | .pass => 1 | .hold => 2
def ArrvOp.code : ArrvOp → Nat
  | .init => 0 | .add => 1 | .expect => 2 | .clrerr => 3
def FlushOp.code : FlushOp → Nat
  | .wb => 0 | .inv => 1 | .wbinv => 2 | .vault => 3
def SSp.code : SSp → Nat
  | .g => 0 | .s => 1
def DSp.code : DSp → Nat
  | .g => 0 | .s => 1 | .b0 => 2 | .b1 => 3
def RelOp.code : RelOp → Nat
  | .addI => 0 | .addF => 1 | .minI => 2 | .maxI => 3 | .minF => 4 | .maxF => 5 | .count => 6
def SnapOp.code : SnapOp → Nat
  | .openS => 0 | .closeS => 1 | .initS => 2
def RftOp.code : RftOp → Nat
  | .retry => 0 | .next => 1 | .to => 2
/-- The selector of a system control register (Table 10.11). -/
def CtlReg.code : CtlReg → Nat
  | .tvec => 0x0001 | .ptroot => 0x0002 | .stkbase => 0x0003 | .stksize => 0x0004 | .restorewait => 0x0005
  | .ilbase => 0x0010 | .ilsize => 0x0011 | .rclass => 0x0012 | .rcsel => 0x0013 | .repways => 0x0014
  | .fepoch => 0x0015 | .fmin => 0x0016 | .fpool => 0x0017 | .ringrate => 0x0020 | .dwell => 0x0021

/-- Access width in bytes (R192). -/
def MTy.bytes : MTy → Nat
  | .i8 | .n8 => 1 | .i16 | .n16 => 2 | .i32 | .n32 => 4 | .i64 | .n64 => 8
/-- Whether a load sign-extends (R192). -/
def MTy.signed : MTy → Bool
  | .i8 | .i16 | .i32 | .i64 => true
  | _ => false
/-- Width of an atomic type in bytes. -/
def ATy.bytes : ATy → Nat
  | .i32 | .n32 | .f32 => 4 | .i64 | .n64 | .f64 => 8 | .bf16 | .f16 => 2
/-- Whether an atomic type is an integer type. -/
def ATy.isInt : ATy → Bool
  | .i32 | .n32 | .i64 | .n64 => true
  | _ => false

/-- The code of form I. -/
def IMod.code (m : IMod) : Nat := m.ty.code * 4 + bit m.sat * 2 + bit m.var
/-- The code of form C. -/
def CMod.code (m : CMod) : Nat := m.ty.code * 8 + m.cond.code
/-- The code of form F. -/
def FMod.code (m : FMod) : Nat := m.fty.code * 16 + m.rm.code * 2
/-- The code of form F of FCMP. -/
def FCMod.code (m : FCMod) : Nat := m.fty.code * 16 + m.cond.code * 2
/-- The code of form Y. -/
def YMod.code (m : YMod) : Nat := m.rty.code * 8 + m.op.code
/-- The code of form M, with the variant bit. -/
def MMod.code (m : MMod) (var : Bool) : Nat := m.sp.code * 16 + m.mt.code * 2 + bit var
/-- The code of form S. -/
def SMod.code (m : SMod) : Nat := m.ord.code * 16 + m.scope.code
/-- The code of form W. -/
def WMod.code (m : WMod) : Nat := m.cond.code * 8 + bit m.sgn * 4 + bit m.any * 2 + bit m.acq

/-- CVT's `imm32` (Table 12.10). -/
def CvtMod.field (m : CvtMod) : BitVec 32 :=
  BitVec.ofNat 32 (bit m.sat * 2048 + m.part.val * 128 + m.rm.code * 16 + m.sty.code)
/-- The conditions of R178 and R179. -/
def CvtMod.ok (m : CvtMod) : Bool :=
  (!m.sat || (m.dty.isInt && m.sty.isInt)) &&
  decide (m.part.val < max m.sty.count m.dty.count / min m.sty.count m.dty.count)
/-- LDH's and CHK's `imm32` (R201). -/
def HMod.field (m : HMod) : BitVec 32 := BitVec.ofNat 4 m.idx.val ++ m.off
/-- Table 14.6. -/
def AMod.field (m : AMod) : BitVec 32 :=
  BitVec.ofNat 32 (m.op.code * 256 + m.ord.code * 8 + m.scope.code)
/-- The space and order conditions of Tables 14.6 and 14.7. -/
def AMod.base (m : AMod) : Bool :=
  decide (m.sp ≠ .k) && (decide (m.ord ≠ .none) || decide (m.scope = .core)) &&
  (decide (m.sp = .g) || decide (m.ord = .none))
/-- Floating-point operations of Table 14.7. -/
def AOp.fpOk : AOp → Bool
  | .add | .min | .max => true
  | _ => false
/-- ATOM's row of Table 14.7. -/
def AMod.atomOk (m : AMod) : Bool :=
  m.base && decide (m.op ≠ .cas) && (m.aty.isInt || m.op.fpOk || decide (m.op = .exch))
/-- ATOMC's row of Table 14.7. -/
def AMod.atomcOk (m : AMod) : Bool := m.base && decide (m.op = .cas) && m.aty.isInt
/-- RED's row of Table 14.7. -/
def AMod.redOk (m : AMod) : Bool :=
  m.base && decide (m.ord = .none) && decide (m.op ≠ .cas) && decide (m.op ≠ .exch) && (m.aty.isInt || m.op.fpOk)

/-- WLD's `imm32` (Table 16.9). -/
def WldMod.field (m : WldMod) : BitVec 32 :=
  BitVec.ofNat 32 (bit m.bank * 2 ^ 24 + bit m.rcd * 2 ^ 23 + m.ck.val)
/-- MMA's and MMS's `imm32` (Table 16.9). -/
def MmaMod.field (m : MmaMod) : BitVec 32 :=
  m.g ++ BitVec.ofNat 1 (bit m.rcd) ++ m.stride ++ (0 : BitVec 11)
/-- MMR's `imm32` (Table 16.9). -/
def MmrMod.field (m : MmrMod) : BitVec 32 :=
  m.g ++ BitVec.ofNat 1 (bit m.rcd) ++ (0 : BitVec 21) ++ BitVec.ofNat 2 m.grp.val
/-- EPI's `imm32` (Table 16.9). -/
def EpiMod.field (m : EpiMod) : BitVec 32 := m.g ++ BitVec.ofNat 1 (bit m.rcd) ++ (0 : BitVec 23)
/-- CPYG's `imm32` (Table 18.3). -/
def CpygMod.field (m : CpygMod) : BitVec 32 := BitVec.ofNat 2 m.esz.val ++ m.pw ++ m.ph ++ (0 : BitVec 10)
/-- BOARD's `imm32` (Table 18.3). -/
def BoardMod.field (m : BoardMod) : BitVec 32 := BitVec.ofNat 32 (bit m.bank * 2 ^ 24 + m.slot.val)
/-- The formats that are MX A formats (codes 14-20 of Table 6.9). -/
def isMX (fmt : Nat) : Bool := 14 ≤ fmt && fmt ≤ 20

/-- The count slot of R267. -/
def countRole (cw : Bool) : Role := if cw then .eng else .engCount

/-- Destination A and one source. -/
def Roles.r2 (b : Role) : Roles := { a := .dst, b := b }
/-- Destination A and two sources. -/
def Roles.r3 (b c : Role) : Roles := { a := .dst, b := b, c := c }
/-- Destination A and three sources. -/
def Roles.r4 (b c d : Role) : Roles := { a := .dst, b := b, c := c, d := d }

/-- An entry of form I: the types it accepts, and whether `.sat` and the variant bit are accepted (R159). -/
def entI (op : Nat) (m : IMod) (types : ETy → Bool) (sat var : Bool) (r : Roles) (x : Ctl) (o : Slots) : Entry :=
  {
    op := op, mod := m.code, field := none, roles := r, x := x, o := o,
    modOk := types m.ty && (sat || !m.sat) && (var || !m.var) && !(m.sat && m.var) }
/-- A two-operand member of class 000 or 001. -/
def ent2 (op : Nat) (m : IMod) (types : ETy → Bool) (sat : Bool) (x : Ctl) (o : Slots) : Entry :=
  entI op m types sat false (.r2 m.ty.role) x o
/-- A three-operand member. -/
def ent3 (op : Nat) (m : IMod) (types : ETy → Bool) (sat : Bool) (x : Ctl) (o : Slots) : Entry :=
  entI op m types sat false (.r3 m.ty.role m.ty.role) x o
/-- A four-operand member. -/
def ent4 (op : Nat) (m : IMod) (types : ETy → Bool) (sat : Bool) (x : Ctl) (o : Slots) : Entry :=
  entI op m types sat false (.r4 m.ty.role m.ty.role m.ty.role) x o
/-- An entry of form C. -/
def entC (op : Nat) (m : CMod) (types : ETy → Bool) (x : Ctl) (o : Slots) : Entry :=
  {
    op := op, mod := m.code, field := none, roles := .r3 m.ty.role m.ty.role, x := x, o := o,
    modOk := types m.ty }
/-- An entry of form F; `modes` says that every rounding mode is accepted, otherwise only RNE. -/
def entF (op : Nat) (m : FMod) (modes : Bool) (r : Roles) (x : Ctl) (o : Slots) : Entry :=
  {
    op := op, mod := m.code, field := none, roles := r, x := x, o := o, modOk := modes || decide (m.rm = .rne) }
/-- An entry of form Z (Tables 12.1, 14.1). -/
def entZ (op : Nat) (code : Nat) (r : Roles) (x : Ctl) (o : Slots) : Entry :=
  {
    op := op, mod := code, field := none, roles := r, x := x, o := o }
/-- An entry of form Z that uses `imm32` as a field (R316). -/
def entZF (op : Nat) (code : Nat) (f : BitVec 32) (r : Roles) (x : Ctl) (o : Slots) : Entry :=
  {
    op := op, mod := code, field := some f, roles := r, x := x, o := o }
/-- An entry of form Y (R185). -/
def entY (op : Nat) (m : YMod) (x : Ctl) (o : Slots) : Entry :=
  {
    op := op, mod := m.code, field := none, roles := .r3 m.rty.ety.role .src32, x := x, o := o,
    modOk := m.rty.ety.isInt || m.op = .add || m.op = .min || m.op = .max }
/-- An entry of form M (R190). -/
def entM (op : Nat) (m : MMod) (r : Roles) (x : Ctl) (o : Slots) : Entry :=
  {
    op := op, mod := m.code false, field := some m.off, hint := true, roles := r, x := x, o := o }
/-- An entry of form A (R209). -/
def entA (op : Nat) (m : AMod) (ok : Bool) (r : Roles) (x : Ctl) (o : Slots) : Entry :=
  {
    op := op, mod := m.sp.code * 16 + m.aty.code, field := some m.field, hint := true, roles := r, x := x, o := o,
    modOk := ok }
/-- A matrix command (Table 16.9). -/
def entX (op : Nat) (mod : Nat) (f : BitVec 32) (hint : Bool) (r : Roles) (x : Ctl) (o : Slots) : Entry :=
  {
    op := op, mod := mod, field := some f, hint := hint, roles := r, x := x, o := o }

def r2F (m : FMod) : Roles := .r2 m.fty.ety.role
def r3F (m : FMod) : Roles := .r3 m.fty.ety.role m.fty.ety.role
def r4F (m : FMod) : Roles := .r4 m.fty.ety.role m.fty.ety.role m.fty.ety.role

def cpyCode (m : CpyMod) : Nat := m.ssp.code * 16 + m.dsp.code * 4 + bit m.cw * 2 + bit m.rcd
def gthCode (m : GthMod) : Nat := m.sp.code * 4 + bit m.cw * 2 + bit m.rcd

/-- Every type. -/
def anyTy : ETy → Bool := fun _ => true

/-- What the entry of a word makes of it; `none` for the rows of the table that are no words. -/
def Instr.entry : Instr → Option Entry
  | .ill => none
  | .iadd x m o => some (ent3 0x001 m ETy.inI true x o)
  | .isub x m o => some (ent3 0x002 m ETy.inI true x o)
  | .iaddc x o => some {
      op := 0x003, mod := 28, field := none, x := x, o := o,
      roles := { a := .dst, b := .src, c := .src, d := .pred, e := .dstPred } }
  | .imul x m o => some (ent3 0x004 m ETy.inI true x o)
  | .imulh x m o => some (ent3 0x005 m ETy.inI false x o)
  | .imad x m o => some (ent4 0x006 m ETy.inI true x o)
  | .idiv x m o => some (ent3 0x007 m ETy.inI true x o)
  | .irem x m o => some (ent3 0x008 m ETy.inI false x o)
  | .ineg x m o => some (ent2 0x009 m ETy.inI true x o)
  | .iabs x m o => some (ent2 0x00A m ETy.inI true x o)
  | .imin x m o => some (ent3 0x00B m ETy.inI false x o)
  | .imax x m o => some (ent3 0x00C m ETy.inI false x o)
  | .andL x m o => some (ent3 0x00D m ETy.inL false x o)
  | .orL x m o => some (ent3 0x00E m ETy.inL false x o)
  | .xorL x m o => some (ent3 0x00F m ETy.inL false x o)
  | .andn x m o => some (ent3 0x010 m ETy.inL false x o)
  | .shl x m o => some (ent3 0x011 m ETy.inI false x o)
  | .shr x m o => some (ent3 0x012 m ETy.inI false x o)
  | .sar x m o => some (ent3 0x013 m ETy.inI false x o)
  | .rol x m o => some (ent3 0x014 m ETy.inI false x o)
  | .clz x m o => some (ent2 0x015 m ETy.inI false x o)
  | .ctz x m o => some (ent2 0x016 m ETy.inI false x o)
  | .popc x m o => some (ent2 0x017 m ETy.inI false x o)
  | .brev x m o => some (ent2 0x018 m ETy.inI false x o)
  | .bfx x m o => some (ent4 0x019 m ETy.inI false x o)
  | .bfi x m o => some (entI 0x01A m ETy.inI false false
      { a := .dst, b := m.ty.role, c := m.ty.role, d := m.ty.role, e := m.ty.role } x o)
  | .sel x m o => some (entI 0x01B m anyTy false false (.r4 m.ty.role m.ty.role .pred) x o)
  | .mov x m o => some (ent2 0x01C m anyTy false x o)
  | .lea x m o => some (ent4 0x01D m ETy.inI false x o)
  | .icmp x m o => some (entC 0x01E m ETy.inL x o)
  | .padd x m o => some (ent3 0x080 m ETy.inP true x o)
  | .psub x m o => some (ent3 0x081 m ETy.inP true x o)
  | .pmul x m o => some (entI 0x082 m ETy.inP true true (.r3 m.ty.role m.ty.role) x o)
  | .pmad x m o => some (ent4 0x083 m ETy.inP true x o)
  | .pmin x m o => some (ent3 0x084 m ETy.inP false x o)
  | .pmax x m o => some (ent3 0x085 m ETy.inP false x o)
  | .pabs x m o => some (ent2 0x086 m ETy.inP true x o)
  | .pavg x m o => some (ent3 0x087 m ETy.inP false x o)
  | .psad x m o => some (entI 0x088 m ETy.inP false false (.r4 m.ty.role m.ty.role .src) x o)
  | .pdot x m o => some (entI 0x089 m ETy.inP true false (.r4 m.ty.role m.ty.role .src) x o)
  | .pcmp x m o => some (entC 0x08A m ETy.inP x o)
  | .pshl x m o => some (ent3 0x08B m ETy.inP false x o)
  | .pshr x m o => some (ent3 0x08C m ETy.inP false x o)
  | .fadd x m o => some (entF 0x08D m true (r3F m) x o)
  | .fsub x m o => some (entF 0x08E m true (r3F m) x o)
  | .fmul x m o => some (entF 0x08F m true (r3F m) x o)
  | .fma x m o => some (entF 0x090 m true (r4F m) x o)
  | .fmin x m o => some (entF 0x091 m false (r3F m) x o)
  | .fmax x m o => some (entF 0x092 m false (r3F m) x o)
  | .fabs x m o => some (entF 0x093 m false (r2F m) x o)
  | .fneg x m o => some (entF 0x094 m false (r2F m) x o)
  | .fcmp x m o => some {
      op := 0x095, mod := m.code, field := none, x := x, o := o,
      roles := .r3 m.fty.ety.role m.fty.ety.role }
  | .fclass x m o => some (entF 0x096 m false (r2F m) x o)
  | .fdot2 x m o => some { entF 0x097 m true (.r4 m.fty.ety.role m.fty.ety.role .srcE) x o with
      modOk := m.fty = .bf16x4 || m.fty = .f16x4 }
  | .fscale x m o => some (entF 0x098 m true (r3F m) x o)
  | .frcp x m o => some (entF 0x100 m true (r2F m) x o)
  | .frsq x m o => some (entF 0x101 m true (r2F m) x o)
  | .fsqrt x m o => some (entF 0x102 m true (r2F m) x o)
  | .fexp2 x m o => some (entF 0x103 m false (r2F m) x o)
  | .flog2 x m o => some (entF 0x104 m false (r2F m) x o)
  | .fsin x m o => some (entF 0x105 m false (r2F m) x o)
  | .fcos x m o => some (entF 0x106 m false (r2F m) x o)
  | .ftanh x m o => some (entF 0x107 m false (r2F m) x o)
  | .fdiv x m o => some (entF 0x108 m true (r3F m) x o)
  | .cvt x m o => some {
      op := 0x109, mod := m.dty.code * 4, field := some m.field, x := x, o := o,
      roles := .r2 m.sty.role, modOk := m.ok }
  | .pack x m o => some (entI 0x10A m anyTy false true (.r3 m.ty.role m.ty.role) x o)
  | .unpack x m o => some (entI 0x10B m anyTy false true (.r3 m.ty.role m.ty.role) x o)
  | .swz x m o => some (entI 0x10C m anyTy false false (.r3 m.ty.role .src) x o)
  | .shfl x m o => some {
      op := 0x180, mod := m.ty.code * 4 + m.mode.code, field := none, x := x, o := o,
      roles := .r4 m.ty.role .src .src32 }
  | .bcast x m o => some (entI 0x181 m anyTy false false (.r4 m.ty.role .src .src32) x o)
  | .wred x m o => some (entY 0x182 m x o)
  | .wscan x m o => some (entY 0x183 m x o)
  | .vote x m o => some (entZ 0x184 m.code (.r3 .src .src32) x o)
  | .matchW x o => some (entZ 0x185 0 (.r3 .src .src32) x o)
  | .wset x o => some (entZ 0x186 0 { a := .dstUni, b := .src, c := .uni32 } x o)
  | .first x o => some (entZ 0x187 0 (.r2 .src) x o)
  | .pset x o => some (entZ 0x188 0 { a := .dstPred, b := .src } x o)
  | .plop x m inv o => some (entZ 0x189 (m.code + 4 * bit inv) { a := .dstPred, b := .pred, c := .pred } x o)
  | .pmov x o => some (entZ 0x18A 0 { a := .dst } x o)
  | .pmovScatter x o => some (entZ 0x18A 1 { b := .src } x o)
  | .ld x m o => some (entM 0x200 m { a := .dstReg, b := .src } x o)
  | .st x m o => some (entM 0x201 m { b := .src, c := .src } x o)
  | .ldu x m o => some (entM 0x202 m { a := .dstRegP, b := .uaddr } x o)
  | .stu x m o => some (entM 0x203 m { b := .uaddr, c := .udata } x o)
  | .ldh x m o => some {
      op := 0x204, mod := m.mt.code * 2, field := some m.field, hint := true, x := x, o := o,
      roles := { a := .dstD, b := .src } }
  | .chk x m o => some {
      op := 0x205, mod := m.mt.code * 2, field := some m.field, hint := true, x := x, o := o,
      roles := { a := .dstD, b := .src } }
  | .ldm x m o => some { entM 0x206 m { a := .dstM, b := .uaddr, c := .smallOnly } x o with
      modOk := m.sp ≠ .k && m.mt = .i8 }
  | .pref x llc off o => some {
      op := 0x207, mod := bit llc, field := some off, hint := true, x := x, o := o,
      roles := { b := .src } }
  | .locq x o => some (entZ 0x208 0 (.r2 .src) x o)
  | .dcf x o => some { entZ 0x209 0 { b := .uni, c := .uni32 } x o with hint := true }
  | .cflush x op off o => some { entZF 0x20A op.code off { b := .src } x o with hint := true }
  | .atom x m o => some (entA 0x20B m m.atomOk (.r3 .src .src) x o)
  | .atomc x m o => some (entA 0x20C m m.atomcOk (.r4 .src .src .src) x o)
  | .red x m o => some (entA 0x20D m m.redOk { b := .src, c := .src } x o)
  | .xst x m o => some {
      op := 0x20E, mod := m.mt.code * 2,
      field := some ((0 : BitVec 16) ++ m.row ++ m.col), hint := true, x := x, o := o,
      roles := { b := .src, c := .src } }
  | .phase x m o => some {
      op := 0x280, mod := m.code, field := none, x := x, o := o, roles := {},
      modOk := m.ord ≠ .none }
  | .fence x m o => some {
      op := 0x281, mod := m.code, field := none, x := x, o := o, roles := {},
      modOk := m.ord ≠ .none || m.scope = .core }
  | .bar x op o => some { entZ 0x282 op.code { b := .uni, c := .uni } x o with
      modOk := op ≠ .hold || o.c = .small 16 }
  | .tbar x pass swap o => some (entZ 0x283 (bit pass + 2 * bit swap) { b := .uni32, c := .uni } x o)
  | .wait x m o => some {
      op := 0x284, mod := m.code, field := none, hint := true, x := x, o := o,
      roles := .r4 .src .src .uni32 }
  | .await x o => some (entZ 0x285 0 { a := .dstOpt, b := .uni, c := .src } x o)
  | .arrv x op o => some (entZ 0x286 op.code { a := .dstOpt, b := .src, c := .src32 } x o)
  | .txb x o => some (entZ 0x287 0 {} x o)
  | .txc x o => some (entZ 0x288 0 { a := .dst } x o)
  | .txa x o => some (entZ 0x289 0 {} x o)
  | .txs x o => some (entZ 0x28A 0 { a := .dst } x o)
  | .yieldW x o => some (entZ 0x28B 0 {} x o)
  | .cpy x m o => some {
      op := 0x300, mod := cpyCode m, field := none, hint := true, x := x, o := o,
      roles := { a := .eng, b := .eng, c := countRole m.cw, d := .engOpt } }
  | .cpyt x m o => some {
      op := 0x301, mod := cpyCode m, field := none, hint := true, x := x, o := o,
      roles := { a := .eng, b := .eng, c := .eng, d := countRole m.cw, e := .engOpt } }
  | .cpym x m o => some {
      op := 0x303, mod := cpyCode m, field := none, hint := true, x := x, o := o,
      roles := { a := .eng, b := .eng, c := countRole m.cw, d := .engOpt, e := .eng } }
  | .cpyg x m o => some {
      op := 0x302, mod := m.dsp.code * 4 + bit m.cw * 2 + bit m.rcd, field := some m.field,
      hint := true, x := x, o := o, modOk := m.pw ≠ 0 && m.ph ≠ 0,
      roles := { a := .eng, b := .eng, c := countRole m.cw, d := .eng, e := .engOpt } }
  | .gth x m o => some {
      op := 0x30C, mod := gthCode m, field := none, hint := true, x := x, o := o,
      roles := { a := .eng, b := .eng, c := countRole m.cw, d := .engOpt } }
  | .sct x m o => some {
      op := 0x30D, mod := gthCode m, field := none, hint := true, x := x, o := o,
      roles := { a := .eng, b := .eng, c := countRole m.cw, d := .engOpt } }
  | .qfence x q o => some {
      op := 0x30B, mod := q.toNat, field := some 0, x := x, o := o, roles := {},
      modOk := q ≠ 0 }
  | .wld x m o => some (entX 0x304 (m.fmt.val * 2 + bit m.cw) m.field false
      { a := .eng, b := .eng, c := .engOpt, d := .engOpt } x o)
  | .mma x m o => some (entX 0x306 (m.fmt.val * 2 + bit m.cw) m.field false
      { a := .eng, b := .eng, c := .engOpt, d := .engOpt } x o)
  | .mms x m o => some (entX 0x308 (m.fmt.val * 2 + bit m.cw) m.field false
      { a := .eng, b := .eng, c := .engOpt, d := .engOpt } x o)
  | .mmr x m o => some (entX 0x307 (m.fmt.val * 2 + bit m.cw) m.field false
      { a := .dReg, b := .eng, c := .engOpt, d := if isMX m.fmt.val then .eng else .unused } x o)
  | .aclr x m o => some (entX 0x309 (bit m.long) (m.g ++ (0 : BitVec 24)) false {} x o)
  | .epi x m o => some (entX 0x30A (bit m.cw) m.field true { a := .eng, b := .eng, c := .eng, d := .engOpt } x o)
  | .board x m o => some {
      op := 0x305, mod := bit m.cw * 2 + bit m.rcd, field := some m.field, x := x, o := o,
      roles := { a := .eng, b := .eng, c := countRole m.cw, d := .engOpt, e := .engOpt } }
  | .unite x nc o => some {
      op := 0x30E, mod := bit nc, field := none, hint := true, x := x, o := o,
      roles := { a := .dstDW, b := .eng, c := .eng, d := .eng } }
  | .find x nc o => some {
      op := 0x30F, mod := bit nc, field := none, hint := true, x := x, o := o,
      roles := { a := .dstDW, b := .eng, c := .eng } }
  | .fsize x nc o => some {
      op := 0x313, mod := bit nc, field := none, hint := true, x := x, o := o,
      roles := { a := .dstDW, b := .eng, c := .eng } }
  | .relabel x m o => some {
      op := 0x310, mod := m.op.code * 8 + bit m.cw * 2 + bit m.rcd, field := some m.first,
      hint := true, x := x, o := o, 
      roles := { a := .eng, b := if m.op = .count then .unused else .eng, c := .eng, d := countRole m.cw,
                 e := .engOpt } }
  | .fsnap x op rcd o => some {
      op := 0x311, mod := op.code * 2 + bit rcd, field := some 0, hint := true, x := x,
      o := o, roles := { a := .eng, b := .engOpt } }
  | .fundo x rcd o => some {
      op := 0x312, mod := bit rcd, field := some 0, hint := true, x := x,
      o := o, roles := { a := .eng, b := .engOpt } }
  | .spawn x rcd o => some { entZ 0x314 (bit rcd) { a := .uni, b := .dReg } x o with hint := true }
  | .trap x code o => some (entZF 0x380 0 (code.setWidth 32) {} x o)
  | .sysc x code o => some (entZF 0x381 0 (code.setWidth 32) {} x o)
  | .brk x code o => some (entZF 0x388 0 (code.setWidth 32) {} x o)
  | .rft x op o => some { entZF 0x382 op.code 0 { a := if op = .to then .wReg else .unused } x o with
      modOk := x.seq = .seq }
  | .srd x cr o => some (entZF 0x383 0 (BitVec.ofNat 32 cr.code) { a := .dstDWM } x o)
  | .swr x cr o => some (entZF 0x384 0 (BitVec.ofNat 32 cr.code) { a := .dstDWOpt, b := .ctlSrc } x o)
  | .rstl x o => some { entZ 0x385 0 { a := .wSmall } x o with
      modOk := o.a.kind ≠ .small || o.a = .small 16 }
  | .launch x o => some (entZ 0x386 0 { a := .dstDW, b := .uni } x o)
  | .perf x slice o => some (entZ 0x387 (bit slice) { a := .dstDW, b := .uni } x o)
  | .halt x code o => some (entZF 0x389 0 (code.setWidth 32) {} x o)
  | .nop x o => some (entZF 0x38A 0 0 {} x o)
  | _ => none

/-- Whether a sequencing form takes its target from slot E (R140). -/
def Seq.indirect : Seq → Bool
  | .goInd _ | .callInd _ => true
  | _ => false

/-- Names of the conditions of Table 10.13 that a word can meet whatever block it stands in. -/
inductive Reject where
  | opcode | modifier | field | specifier | slot | twoDestinations | guard | sequencing | indirect | sched | hint
  deriving DecidableEq, Repr

/-- The value of a small immediate specifier (Table 10.2): the specifier less 0xB0. -/
def smallVal (v : Fin 32) : Int := (v.val : Int) - 16

/-- LDM's register range (R199): 1 to 8 registers that end at `m7`. -/
def ldmOk (o : Slots) : Bool :=
  match o.a, o.c with
  | .m j, .small c => 1 ≤ smallVal c && (j.val : Int) + smallVal c ≤ 8
  | _, _ => true

/-- Checks of Table 10.13 that need no block: `none` when the word is well formed. -/
def Entry.check (n : Entry) : Option Reject :=
  if n.modOk = false then some .modifier
  else if n.field.isSome && n.o.imm ≠ 0 then some .field
  else if n.hint = false && n.x.hint ≠ .normal then some .hint
  else if n.x.seq.indirect && n.roles.e ≠ .unused then some .indirect
  else if !(n.roles.a.fits n.field.isSome n.o.a && n.roles.b.fits n.field.isSome n.o.b &&
      n.roles.c.fits n.field.isSome n.o.c && n.roles.d.fits n.field.isSome n.o.d &&
      n.roles.e.fits n.field.isSome n.o.e) then some .slot
  else if n.roles.a.isDst && n.roles.e.isDst && n.o.a = n.o.e then some .twoDestinations
  else none

/-- Why an instruction is not well formed, if it is not. Steps that are no words are always well formed. -/
def Instr.check (i : Instr) : Option Reject :=
  match i.entry with
  | some n =>
    match i with
    | .ldm _ _ o => if ldmOk o then n.check else some .slot
    | _ => n.check
  | none => none

/-- A well-formed instruction (R157, R137). -/
def Instr.wf (i : Instr) : Bool := i.check.isNone

/-- Whether a row of the table is an instruction word. -/
def Instr.isWord (i : Instr) : Bool := i.entry.isSome || i = .ill

end Sys2Proof
end

