-- ==== Sys2Proof/Decode.lean ====
section
/-! DEFINITION. Decode.lean: the decoder of instruction words, total on any 128 bits and refusing by name (R131-R157),
the encoder written from the same tables, and block headers (R143, R144). -/

namespace Sys2Proof

/-- The fields of Table 10.1. -/
structure Fields where
  op    : BitVec 10
  mod   : BitVec 6
  a     : Byte
  b     : Byte
  c     : Byte
  d     : Byte
  e     : Byte
  g1    : BitVec 5
  g2    : BitVec 5
  hint  : BitVec 3
  sched : BitVec 7
  seq   : BitVec 20
  imm   : BitVec 32
  deriving DecidableEq, Repr

/-- The word that holds the fields (Table 10.1). -/
def Fields.word (f : Fields) : Word128 :=
  f.op ++ f.mod ++ f.a ++ f.b ++ f.c ++ f.d ++ f.e ++ f.g1 ++ f.g2 ++ f.hint ++ f.sched ++ f.seq ++ f.imm

/-- The fields of a word (Table 10.1). -/
def Fields.ofWord (w : Word128) : Fields :=
  { op := w.extractLsb' 118 10, mod := w.extractLsb' 112 6, a := w.extractLsb' 104 8, b := w.extractLsb' 96 8,
    c := w.extractLsb' 88 8, d := w.extractLsb' 80 8, e := w.extractLsb' 72 8, g1 := w.extractLsb' 67 5,
    g2 := w.extractLsb' 62 5, hint := w.extractLsb' 59 3, sched := w.extractLsb' 52 7, seq := w.extractLsb' 32 20,
    imm := w.extractLsb' 0 32 }

/-- The code of a queue port in the order of Table 10.2. -/
def Port.code : Port → Nat
  | .cp => 0 | .mx => 1 | .ep => 2 | .ga => 3 | .cj => 4 | .sp => 5 | .bd => 6 | .xs => 7
def Port.ofCode : Nat → Option Port
  | 0 => some .cp | 1 => some .mx | 2 => some .ep | 3 => some .ga | 4 => some .cj | 5 => some .sp | 6 => some .bd
  | 7 => some .xs | _ => none
/-- The code of a special register (Table 10.9). -/
def Special.code : Special → Nat
  | .tid => 0 | .wid => 1 | .bid => 2 | .core => 3 | .team => 4 | .lane => 5 | .time => 6 | .status => 7
  | .slim => 8 | .sp => 9 | .restart => 10 | .rnd => 11 | .part => 12 | .params => 13 | .weight => 14 | .fault => 15
def Special.ofCode : Nat → Option Special
  | 0 => some .tid | 1 => some .wid | 2 => some .bid | 3 => some .core | 4 => some .team | 5 => some .lane
  | 6 => some .time | 7 => some .status | 8 => some .slim | 9 => some .sp | 10 => some .restart | 11 => some .rnd
  | 12 => some .part | 13 => some .params | 14 => some .weight | 15 => some .fault | _ => none
/-- The code of an immediate form (Table 10.2). -/
def ImmKind.code : ImmKind → Nat
  | .asIs => 0 | .sext => 1 | .zext => 2 | .high => 3 | .rep => 4
def ImmKind.ofCode : Nat → Option ImmKind
  | 0 => some .asIs | 1 => some .sext | 2 => some .zext | 3 => some .high | 4 => some .rep | _ => none

/-- The specifier byte (Table 10.2). -/
def Spec.code : Spec → Nat
  | .d i => i.val
  | .w i => 0x40 + i.val
  | .p i => 0x60 + i.val
  | .q i => 0x68 + i.val
  | .n i => 0x6C + i.val
  | .m i => 0x70 + i.val
  | .port r => 0x78 + r.code
  | .special r => 0x80 + r.code
  | .small v => 0xA0 + v.val
  | .imm k => 0xC0 + k.code
  | .none => 0xFF

/-- Read a specifier byte; `none` for the reserved values 0x90-0x9F and 0xC5-0xFE (Table 10.2, R152). -/
def Spec.ofCode (n : Nat) : Option Spec :=
  if h : n < 0x40 then some (.d ⟨n, h⟩)
  else if n < 0x60 then some (.w (Fin.ofNat 32 (n - 0x40)))
  else if n < 0x68 then some (.p (Fin.ofNat 8 (n - 0x60)))
  else if n < 0x6C then some (.q (Fin.ofNat 4 (n - 0x68)))
  else if n < 0x70 then some (.n (Fin.ofNat 4 (n - 0x6C)))
  else if n < 0x78 then some (.m (Fin.ofNat 8 (n - 0x70)))
  else if n < 0x80 then (Port.ofCode (n - 0x78)).map .port
  else if n < 0x90 then (Special.ofCode (n - 0x80)).map .special
  else if n < 0xA0 then Option.none
  else if n < 0xC0 then some (.small (Fin.ofNat 32 (n - 0xA0)))
  else if n < 0xC5 then (ImmKind.ofCode (n - 0xC0)).map .imm
  else if n = 0xFF then some .none
  else Option.none

/-- The code of a predicate index (Table 10.3). -/
def Pred.code : Pred → Nat
  | .p i => i.val
  | .q i => 8 + i.val
def Pred.ofCode (n : Nat) : Option Pred :=
  if h : n < 8 then some (.p ⟨n, h⟩) else if n < 12 then some (.q (Fin.ofNat 4 (n - 8))) else none
/-- The code of a guard field (Table 10.3). -/
def Guard.code (g : Guard) : Nat := bit g.neg * 16 + g.pred.code
def Guard.ofCode (n : Nat) : Option Guard :=
  (Pred.ofCode (n % 16)).map (fun p => { neg := decide (n / 16 = 1), pred := p })
/-- The code of a cache hint (Table 8.4). -/
def Hint.code : Hint → Nat
  | .normal => 0 | .streaming => 1 | .keep => 2 | .bypass => 3 | .nollc => 4 | .lastuse => 5
def Hint.ofCode : Nat → Option Hint
  | 0 => some .normal | 1 => some .streaming | 2 => some .keep | 3 => some .bypass | 4 => some .nollc
  | 5 => some .lastuse | _ => none
/-- The code of the scheduling control (Table 10.7). -/
def Sched.code (s : Sched) : Nat := bit s.yield * 64 + s.stall.val * 8 + bit s.boost * 4
def Sched.ofCode (n : Nat) : Option Sched :=
  if n % 4 = 0 then
    some { yield := decide (n / 64 = 1), stall := Fin.ofNat 8 (n / 8), boost := decide (n / 4 % 2 = 1) }
  else none

/-- The `seq` field: selector, condition and target (Table 10.4). -/
def Seq.code : Seq → Nat
  | .seq => 0
  | .go t => 1 * 2 ^ 17 + t.toNat
  | .goInd _ => 1 * 2 ^ 17 + 0xF * 2 ^ 13
  | .ifT p t => 2 * 2 ^ 17 + p.code * 2 ^ 13 + t.toNat
  | .ifN p t => 3 * 2 ^ 17 + p.code * 2 ^ 13 + t.toNat
  | .call t => 4 * 2 ^ 17 + t.toNat
  | .callInd _ => 4 * 2 ^ 17 + 0xF * 2 ^ 13
  | .ret => 5 * 2 ^ 17
  | .loop n t => 6 * 2 ^ 17 + n.val * 2 ^ 13 + t.toNat
  | .fin => 7 * 2 ^ 17

/-- The register of an indirect target (R140). -/
def Seq.indReg : Seq → Option (Fin 32)
  | .goInd w | .callInd w => some w
  | _ => none

/-- Read the `seq` field; `e` is the specifier in slot E (R139, R140). -/
def Seq.ofCode (n : Nat) (e : Spec) : Except Reject Seq :=
  let sel := n / 2 ^ 17
  let cond := n / 2 ^ 13 % 16
  let t := BitVec.ofNat 13 n
  let plain (s : Seq) : Except Reject Seq := if cond = 0 then .ok s else .error .sequencing
  let bare (s : Seq) : Except Reject Seq := if cond = 0 && t = 0 then .ok s else .error .sequencing
  let ind (k : Fin 32 → Seq) : Except Reject Seq :=
    if t ≠ 0 then .error .sequencing
    else match e with
      | .w i => .ok (k i)
      | _ => .error .indirect
  match sel with
  | 0 => bare .seq
  | 1 => if cond = 0xF then ind .goInd else plain (.go t)
  | 2 =>
    match Pred.ofCode cond with
    | some p => .ok (.ifT p t)
    | none => .error .sequencing
  | 3 =>
    match Pred.ofCode cond with
    | some p => .ok (.ifN p t)
    | none => .error .sequencing
  | 4 => if cond = 0xF then ind .callInd else plain (.call t)
  | 5 => bare .ret
  | 6 => if cond < 4 then .ok (.loop (Fin.ofNat 4 cond) t) else .error .sequencing
  | _ => bare .fin

def ETy.ofCode : Nat → Option ETy
  | 0 => some .i8x8 | 1 => some .n8x8 | 2 => some .i16x4 | 3 => some .n16x4 | 4 => some .i32x2 | 5 => some .n32x2
  | 6 => some .i64 | 7 => some .n64 | 8 => some .bf16x4 | 9 => some .f16x4 | 10 => some .f32x2 | 11 => some .f64
  | 12 => some .e4m3x8 | 13 => some .e5m2x8 | 14 => some .e2m1x16 | _ => none
def FTy.ofCode : Nat → Option FTy
  | 0 => some .bf16x4 | 1 => some .f16x4 | 2 => some .f32x2 | 3 => some .f64 | _ => none
def RMode.ofCode : Nat → Option RMode
  | 0 => some .rne | 1 => some .rz | 2 => some .ru | 3 => some .rd | 4 => some .rna | 5 => some .rs | _ => none
def Cond.ofCode : Nat → Option Cond
  | 0 => some .eq | 1 => some .ne | 2 => some .lt | 3 => some .le | 4 => some .gt | 5 => some .ge | _ => none
def FCond.ofCode : Nat → Option FCond
  | 0 => some .eq | 1 => some .ne | 2 => some .lt | 3 => some .le | 4 => some .gt | 5 => some .ge | 6 => some .un
  | _ => none
def RTy.ofCode : Nat → Option RTy
  | 0 => some .i32x2 | 1 => some .n32x2 | 2 => some .i64 | 3 => some .n64 | 4 => some .bf16x4 | 5 => some .f16x4
  | 6 => some .f32x2 | 7 => some .f64 | _ => none
def ROp.ofCode : Nat → Option ROp
  | 0 => some .add | 1 => some .min | 2 => some .max | 3 => some .and | 4 => some .or | 5 => some .xor | _ => none
def VOp.ofCode : Nat → Option VOp
  | 0 => some .and | 1 => some .or | 2 => some .eq | 3 => some .bits | 4 => some .cnt | 5 => some .lead | _ => none
def ShMode.ofCode : Nat → Option ShMode
  | 0 => some .at | 1 => some .below | 2 => some .above | 3 => some .flip | _ => none
def PLogic.ofCode : Nat → Option PLogic
  | 0 => some .and | 1 => some .or | 2 => some .xor | 3 => some .andn | _ => none
def Space.ofCode : Nat → Option Space
  | 0 => some .g | 1 => some .s | 2 => some .k | _ => none
def MTy.ofCode : Nat → Option MTy
  | 0 => some .i8 | 1 => some .n8 | 2 => some .i16 | 3 => some .n16 | 4 => some .i32 | 5 => some .n32
  | 6 => some .i64 | 7 => some .n64 | _ => none
def ATy.ofCode : Nat → Option ATy
  | 0 => some .i32 | 1 => some .n32 | 2 => some .i64 | 3 => some .n64 | 4 => some .f32 | 5 => some .f64
  | 6 => some .bf16 | 7 => some .f16 | _ => none
def AOp.ofCode : Nat → Option AOp
  | 0 => some .add | 1 => some .min | 2 => some .max | 3 => some .and | 4 => some .or | 5 => some .xor
  | 6 => some .exch | 7 => some .cas | _ => none
def Ord.ofCode : Nat → Option Ord
  | 0 => some .none | 1 => some .rel | 2 => some .acq | 3 => some .acqrel | _ => Option.none
def Scope.ofCode : Nat → Option Scope
  | 0 => some .core | 1 => some .team | 2 => some .package | 3 => some .domain | 4 => some .system | _ => none
def BarOp.ofCode : Nat → Option BarOp
  | 0 => some .join | 1 => some .pass | 2 => some .hold | _ => none
def ArrvOp.ofCode : Nat → Option ArrvOp
  | 0 => some .init | 1 => some .add | 2 => some .expect | 3 => some .clrerr | _ => none
def FlushOp.ofCode : Nat → Option FlushOp
  | 0 => some .wb | 1 => some .inv | 2 => some .wbinv | 3 => some .vault | _ => none
def SSp.ofCode : Nat → Option SSp
  | 0 => some .g | 1 => some .s | _ => none
def DSp.ofCode : Nat → Option DSp
  | 0 => some .g | 1 => some .s | 2 => some .b0 | 3 => some .b1 | _ => none
def RelOp.ofCode : Nat → Option RelOp
  | 0 => some .addI | 1 => some .addF | 2 => some .minI | 3 => some .maxI | 4 => some .minF | 5 => some .maxF
  | 6 => some .count | _ => none
def SnapOp.ofCode : Nat → Option SnapOp
  | 0 => some .openS | 1 => some .closeS | 2 => some .initS | _ => none
def RftOp.ofCode : Nat → Option RftOp
  | 0 => some .retry | 1 => some .next | 2 => some .to | _ => none
def CtlReg.ofCode : Nat → Option CtlReg
  | 0x0001 => some .tvec | 0x0002 => some .ptroot | 0x0003 => some .stkbase | 0x0004 => some .stksize
  | 0x0005 => some .restorewait | 0x0010 => some .ilbase | 0x0011 => some .ilsize | 0x0012 => some .rclass
  | 0x0013 => some .rcsel | 0x0014 => some .repways | 0x0015 => some .fepoch | 0x0016 => some .fmin
  | 0x0017 => some .fpool | 0x0020 => some .ringrate | 0x0021 => some .dwell | _ => none

/-- Bit `i` of a modifier or field. -/
def nbit (n i : Nat) : Bool := n / 2 ^ i % 2 = 1

def IMod.ofCode (n : Nat) : Option IMod :=
  (ETy.ofCode (n / 4)).map (fun t => { ty := t, sat := nbit n 1, var := nbit n 0 })
def CMod.ofCode (n : Nat) : Option CMod :=
  match ETy.ofCode (n / 8), Cond.ofCode (n % 8) with
  | some t, some c => some { ty := t, cond := c }
  | _, _ => none
def FMod.ofCode (n : Nat) : Option FMod :=
  match FTy.ofCode (n / 16), RMode.ofCode (n / 2 % 8) with
  | some t, some r => if n % 2 = 0 then some { fty := t, rm := r } else none
  | _, _ => none
def FCMod.ofCode (n : Nat) : Option FCMod :=
  match FTy.ofCode (n / 16), FCond.ofCode (n / 2 % 8) with
  | some t, some c => if n % 2 = 0 then some { fty := t, cond := c } else none
  | _, _ => none
def YMod.ofCode (n : Nat) : Option YMod :=
  match RTy.ofCode (n / 8), ROp.ofCode (n % 8) with
  | some t, some c => some { rty := t, op := c }
  | _, _ => none
def ShMod.ofCode (n : Nat) : Option ShMod :=
  match ETy.ofCode (n / 4), ShMode.ofCode (n % 4) with
  | some t, some c => some { ty := t, mode := c }
  | _, _ => none
def SMod.ofCode (n : Nat) : Option SMod :=
  match Ord.ofCode (n / 16), Scope.ofCode (n % 16) with
  | some t, some c => some { ord := t, scope := c }
  | _, _ => none
def WMod.ofCode (n : Nat) : Option WMod :=
  (Cond.ofCode (n / 8)).map (fun c => { cond := c, sgn := nbit n 2, any := nbit n 1, acq := nbit n 0 })
def MMod.ofCode (n : Nat) (f : BitVec 32) : Option MMod :=
  match Space.ofCode (n / 16), MTy.ofCode (n / 2 % 8) with
  | some a, some t => if n % 2 = 0 then some { sp := a, mt := t, off := f } else none
  | _, _ => none
def HMod.ofCode (n : Nat) (f : BitVec 32) : Option HMod :=
  if n < 16 && n % 2 = 0 then
    (MTy.ofCode (n / 2)).map (fun t => { mt := t, idx := (f.extractLsb' 28 4).toFin, off := f.extractLsb' 0 28 })
  else none
def AMod.ofCode (n : Nat) (f : BitVec 32) : Option AMod :=
  match Space.ofCode (n / 16), ATy.ofCode (n % 16), AOp.ofCode (f.toNat / 256), Ord.ofCode (f.toNat / 8 % 32),
    Scope.ofCode (f.toNat % 8) with
  | some a, some t, some o, some r, some sc => some { sp := a, aty := t, op := o, ord := r, scope := sc }
  | _, _, _, _, _ => none
def XMod.ofCode (n : Nat) (f : BitVec 32) : Option XMod :=
  if n < 16 && n % 2 = 0 && f.extractLsb' 16 16 = 0 then
    (MTy.ofCode (n / 2)).map (fun t => { mt := t, col := f.extractLsb' 0 8, row := f.extractLsb' 8 8 })
  else none
def CvtMod.ofCode (n : Nat) (f : BitVec 32) : Option CvtMod :=
  let g := f.toNat
  match ETy.ofCode (n / 4), ETy.ofCode (g % 16), RMode.ofCode (g / 16 % 8) with
  | some d, some s, some r =>
    if n % 4 = 0 && g < 4096 then
      some { dty := d, sty := s, rm := r, part := Fin.ofNat 16 (g / 128), sat := nbit g 11 }
    else none
  | _, _, _ => none
def CpyMod.ofCode (n : Nat) : Option CpyMod :=
  match SSp.ofCode (n / 16), DSp.ofCode (n / 4 % 4) with
  | some a, some d => some { ssp := a, dsp := d, cw := nbit n 1, rcd := nbit n 0 }
  | _, _ => none
def GthMod.ofCode (n : Nat) : Option GthMod :=
  (SSp.ofCode (n / 4)).map (fun a => { sp := a, cw := nbit n 1, rcd := nbit n 0 })
def CpygMod.ofCode (n : Nat) (f : BitVec 32) : Option CpygMod :=
  if f.extractLsb' 0 10 = 0 then
    (SSp.ofCode (n / 4)).map (fun a => {
      dsp := a, cw := nbit n 1, rcd := nbit n 0,
      esz := (f.extractLsb' 30 2).toFin, pw := f.extractLsb' 20 10, ph := f.extractLsb' 10 10 })
  else none
def BoardMod.ofCode (n : Nat) (f : BitVec 32) : Option BoardMod :=
  let m : BoardMod := {
    cw := nbit n 1, rcd := nbit n 0, bank := nbit f.toNat 24, slot := Fin.ofNat 16 f.toNat }
  if n < 4 && m.field = f then some m else none
def WldMod.ofCode (n : Nat) (f : BitVec 32) : Option WldMod :=
  let m : WldMod := {
    fmt := Fin.ofNat 32 (n / 2), cw := nbit n 0, bank := nbit f.toNat 24,
    rcd := nbit f.toNat 23, ck := Fin.ofNat 3 (f.toNat % 4) }
  if m.field = f then some m else none
def MmaMod.ofCode (n : Nat) (f : BitVec 32) : Option MmaMod :=
  if f.extractLsb' 0 11 = 0 then
    some { fmt := Fin.ofNat 32 (n / 2), cw := nbit n 0, g := f.extractLsb' 24 8, rcd := nbit f.toNat 23,
           stride := f.extractLsb' 11 12 }
  else none
def MmrMod.ofCode (n : Nat) (f : BitVec 32) : Option MmrMod :=
  if f.extractLsb' 2 21 = 0 then
    some { fmt := Fin.ofNat 32 (n / 2), cw := nbit n 0, g := f.extractLsb' 24 8, rcd := nbit f.toNat 23,
           grp := (f.extractLsb' 0 2).toFin }
  else none
def AclrMod.ofCode (n : Nat) (f : BitVec 32) : Option AclrMod :=
  if n < 2 && f.extractLsb' 0 24 = 0 then some { long := nbit n 0, g := f.extractLsb' 24 8 } else none
def EpiMod.ofCode (n : Nat) (f : BitVec 32) : Option EpiMod :=
  if n < 2 && f.extractLsb' 0 23 = 0 then
    some { cw := nbit n 0, g := f.extractLsb' 24 8, rcd := nbit f.toNat 23 }
  else none
def RelMod.ofCode (n : Nat) (f : BitVec 32) : Option RelMod :=
  if nbit n 2 then none
  else (RelOp.ofCode (n / 8)).map (fun o => { op := o, cw := nbit n 1, rcd := nbit n 0, first := f })

/-- A flag modifier in bit 0 with every other bit zero. -/
def flagOf (n : Nat) : Option Bool :=
  match n with
  | 0 => some false
  | 1 => some true
  | _ => none
/-- A modifier that must be zero. -/
def zeroOf (n : Nat) : Option Unit := if n = 0 then some () else none
/-- A 16-bit code in `imm32` (R316). -/
def codeOf (n : Nat) (f : BitVec 32) : Option (BitVec 16) :=
  if n = 0 && f.extractLsb' 16 16 = 0 then some (f.extractLsb' 0 16) else none
/-- A control-register selector in `imm32` (R319). -/
def selOf (n : Nat) (f : BitVec 32) : Option CtlReg := if n = 0 then CtlReg.ofCode f.toNat else none
/-- An entry whose modifier and `imm32` are zero. -/
def zeroF (n : Nat) (f : BitVec 32) : Option Unit := if n = 0 && f = 0 then some () else none

/-- The slots of an entry that uses `imm32` as a field. -/
def Slots.fld (o : Slots) : Slots := { o with imm := 0 }

/-- The instruction of an opcode with its modifier, `imm32` and operands; `none` when the opcode is unassigned
(Table 10.12) or a modifier or field has a value its layout does not have. -/
def build (op n : Nat) (f : BitVec 32) (x : Ctl) (o : Slots) : Option Instr :=
  match op with
  | 0x001 => (IMod.ofCode n).map (.iadd x · o)
  | 0x002 => (IMod.ofCode n).map (.isub x · o)
  | 0x003 => if n = 28 then some (.iaddc x o) else none
  | 0x004 => (IMod.ofCode n).map (.imul x · o)
  | 0x005 => (IMod.ofCode n).map (.imulh x · o)
  | 0x006 => (IMod.ofCode n).map (.imad x · o)
  | 0x007 => (IMod.ofCode n).map (.idiv x · o)
  | 0x008 => (IMod.ofCode n).map (.irem x · o)
  | 0x009 => (IMod.ofCode n).map (.ineg x · o)
  | 0x00A => (IMod.ofCode n).map (.iabs x · o)
  | 0x00B => (IMod.ofCode n).map (.imin x · o)
  | 0x00C => (IMod.ofCode n).map (.imax x · o)
  | 0x00D => (IMod.ofCode n).map (.andL x · o)
  | 0x00E => (IMod.ofCode n).map (.orL x · o)
  | 0x00F => (IMod.ofCode n).map (.xorL x · o)
  | 0x010 => (IMod.ofCode n).map (.andn x · o)
  | 0x011 => (IMod.ofCode n).map (.shl x · o)
  | 0x012 => (IMod.ofCode n).map (.shr x · o)
  | 0x013 => (IMod.ofCode n).map (.sar x · o)
  | 0x014 => (IMod.ofCode n).map (.rol x · o)
  | 0x015 => (IMod.ofCode n).map (.clz x · o)
  | 0x016 => (IMod.ofCode n).map (.ctz x · o)
  | 0x017 => (IMod.ofCode n).map (.popc x · o)
  | 0x018 => (IMod.ofCode n).map (.brev x · o)
  | 0x019 => (IMod.ofCode n).map (.bfx x · o)
  | 0x01A => (IMod.ofCode n).map (.bfi x · o)
  | 0x01B => (IMod.ofCode n).map (.sel x · o)
  | 0x01C => (IMod.ofCode n).map (.mov x · o)
  | 0x01D => (IMod.ofCode n).map (.lea x · o)
  | 0x01E => (CMod.ofCode n).map (.icmp x · o)
  | 0x080 => (IMod.ofCode n).map (.padd x · o)
  | 0x081 => (IMod.ofCode n).map (.psub x · o)
  | 0x082 => (IMod.ofCode n).map (.pmul x · o)
  | 0x083 => (IMod.ofCode n).map (.pmad x · o)
  | 0x084 => (IMod.ofCode n).map (.pmin x · o)
  | 0x085 => (IMod.ofCode n).map (.pmax x · o)
  | 0x086 => (IMod.ofCode n).map (.pabs x · o)
  | 0x087 => (IMod.ofCode n).map (.pavg x · o)
  | 0x088 => (IMod.ofCode n).map (.psad x · o)
  | 0x089 => (IMod.ofCode n).map (.pdot x · o)
  | 0x08A => (CMod.ofCode n).map (.pcmp x · o)
  | 0x08B => (IMod.ofCode n).map (.pshl x · o)
  | 0x08C => (IMod.ofCode n).map (.pshr x · o)
  | 0x08D => (FMod.ofCode n).map (.fadd x · o)
  | 0x08E => (FMod.ofCode n).map (.fsub x · o)
  | 0x08F => (FMod.ofCode n).map (.fmul x · o)
  | 0x090 => (FMod.ofCode n).map (.fma x · o)
  | 0x091 => (FMod.ofCode n).map (.fmin x · o)
  | 0x092 => (FMod.ofCode n).map (.fmax x · o)
  | 0x093 => (FMod.ofCode n).map (.fabs x · o)
  | 0x094 => (FMod.ofCode n).map (.fneg x · o)
  | 0x095 => (FCMod.ofCode n).map (.fcmp x · o)
  | 0x096 => (FMod.ofCode n).map (.fclass x · o)
  | 0x097 => (FMod.ofCode n).map (.fdot2 x · o)
  | 0x098 => (FMod.ofCode n).map (.fscale x · o)
  | 0x100 => (FMod.ofCode n).map (.frcp x · o)
  | 0x101 => (FMod.ofCode n).map (.frsq x · o)
  | 0x102 => (FMod.ofCode n).map (.fsqrt x · o)
  | 0x103 => (FMod.ofCode n).map (.fexp2 x · o)
  | 0x104 => (FMod.ofCode n).map (.flog2 x · o)
  | 0x105 => (FMod.ofCode n).map (.fsin x · o)
  | 0x106 => (FMod.ofCode n).map (.fcos x · o)
  | 0x107 => (FMod.ofCode n).map (.ftanh x · o)
  | 0x108 => (FMod.ofCode n).map (.fdiv x · o)
  | 0x109 => (CvtMod.ofCode n f).map (.cvt x · o.fld)
  | 0x10A => (IMod.ofCode n).map (.pack x · o)
  | 0x10B => (IMod.ofCode n).map (.unpack x · o)
  | 0x10C => (IMod.ofCode n).map (.swz x · o)
  | 0x180 => (ShMod.ofCode n).map (.shfl x · o)
  | 0x181 => (IMod.ofCode n).map (.bcast x · o)
  | 0x182 => (YMod.ofCode n).map (.wred x · o)
  | 0x183 => (YMod.ofCode n).map (.wscan x · o)
  | 0x184 => (VOp.ofCode n).map (.vote x · o)
  | 0x185 => (zeroOf n).map (fun _ => .matchW x o)
  | 0x186 => (zeroOf n).map (fun _ => .wset x o)
  | 0x187 => (zeroOf n).map (fun _ => .first x o)
  | 0x188 => (zeroOf n).map (fun _ => .pset x o)
  | 0x189 => if n < 8 then (PLogic.ofCode (n % 4)).map (.plop x · (nbit n 2) o) else none
  | 0x18A => (flagOf n).map (fun s => if s then .pmovScatter x o else .pmov x o)
  | 0x200 => (MMod.ofCode n f).map (.ld x · o.fld)
  | 0x201 => (MMod.ofCode n f).map (.st x · o.fld)
  | 0x202 => (MMod.ofCode n f).map (.ldu x · o.fld)
  | 0x203 => (MMod.ofCode n f).map (.stu x · o.fld)
  | 0x204 => (HMod.ofCode n f).map (.ldh x · o.fld)
  | 0x205 => (HMod.ofCode n f).map (.chk x · o.fld)
  | 0x206 => (MMod.ofCode n f).map (.ldm x · o.fld)
  | 0x207 => (flagOf n).map (.pref x · f o.fld)
  | 0x208 => (zeroOf n).map (fun _ => .locq x o)
  | 0x209 => (zeroOf n).map (fun _ => .dcf x o)
  | 0x20A => (FlushOp.ofCode n).map (.cflush x · f o.fld)
  | 0x20B => (AMod.ofCode n f).map (.atom x · o.fld)
  | 0x20C => (AMod.ofCode n f).map (.atomc x · o.fld)
  | 0x20D => (AMod.ofCode n f).map (.red x · o.fld)
  | 0x20E => (XMod.ofCode n f).map (.xst x · o.fld)
  | 0x280 => (SMod.ofCode n).map (.phase x · o)
  | 0x281 => (SMod.ofCode n).map (.fence x · o)
  | 0x282 => (BarOp.ofCode n).map (.bar x · o)
  | 0x283 => if n < 4 then some (.tbar x (nbit n 0) (nbit n 1) o) else none
  | 0x284 => (WMod.ofCode n).map (.wait x · o)
  | 0x285 => (zeroOf n).map (fun _ => .await x o)
  | 0x286 => (ArrvOp.ofCode n).map (.arrv x · o)
  | 0x287 => (zeroOf n).map (fun _ => .txb x o)
  | 0x288 => (zeroOf n).map (fun _ => .txc x o)
  | 0x289 => (zeroOf n).map (fun _ => .txa x o)
  | 0x28A => (zeroOf n).map (fun _ => .txs x o)
  | 0x28B => (zeroOf n).map (fun _ => .yieldW x o)
  | 0x300 => (CpyMod.ofCode n).map (.cpy x · o)
  | 0x301 => (CpyMod.ofCode n).map (.cpyt x · o)
  | 0x302 => (CpygMod.ofCode n f).map (.cpyg x · o.fld)
  | 0x303 => (CpyMod.ofCode n).map (.cpym x · o)
  | 0x304 => (WldMod.ofCode n f).map (.wld x · o.fld)
  | 0x305 => (BoardMod.ofCode n f).map (.board x · o.fld)
  | 0x306 => (MmaMod.ofCode n f).map (.mma x · o.fld)
  | 0x307 => (MmrMod.ofCode n f).map (.mmr x · o.fld)
  | 0x308 => (MmaMod.ofCode n f).map (.mms x · o.fld)
  | 0x309 => (AclrMod.ofCode n f).map (.aclr x · o.fld)
  | 0x30A => (EpiMod.ofCode n f).map (.epi x · o.fld)
  | 0x30B => if f = 0 then some (.qfence x (BitVec.ofNat 6 n) o.fld) else none
  | 0x30C => (GthMod.ofCode n).map (.gth x · o)
  | 0x30D => (GthMod.ofCode n).map (.sct x · o)
  | 0x30E => (flagOf n).map (.unite x · o)
  | 0x30F => (flagOf n).map (.find x · o)
  | 0x310 => (RelMod.ofCode n f).map (.relabel x · o.fld)
  | 0x311 => if n < 8 && f = 0 then (SnapOp.ofCode (n / 2)).map (.fsnap x · (nbit n 0) o.fld) else none
  | 0x312 => if f = 0 then (flagOf n).map (.fundo x · o.fld) else none
  | 0x313 => (flagOf n).map (.fsize x · o)
  | 0x314 => (flagOf n).map (.spawn x · o)
  | 0x380 => (codeOf n f).map (.trap x · o.fld)
  | 0x381 => (codeOf n f).map (.sysc x · o.fld)
  | 0x382 => if f = 0 then (RftOp.ofCode n).map (.rft x · o.fld) else none
  | 0x383 => (selOf n f).map (.srd x · o.fld)
  | 0x384 => (selOf n f).map (.swr x · o.fld)
  | 0x385 => (zeroOf n).map (fun _ => .rstl x o)
  | 0x386 => (zeroOf n).map (fun _ => .launch x o)
  | 0x387 => (flagOf n).map (.perf x · o)
  | 0x388 => (codeOf n f).map (.brk x · o.fld)
  | 0x389 => (codeOf n f).map (.halt x · o.fld)
  | 0x38A => (zeroF n f).map (fun _ => .nop x o.fld)
  | _ => none

/-- Whether an opcode is assigned (Table 10.12). -/
def assigned (op : Nat) : Bool :=
  (0x001 ≤ op && op ≤ 0x01E) || (0x080 ≤ op && op ≤ 0x098) || (0x100 ≤ op && op ≤ 0x10C) ||
  (0x180 ≤ op && op ≤ 0x18A) || (0x200 ≤ op && op ≤ 0x20E) || (0x280 ≤ op && op ≤ 0x28B) ||
  (0x300 ≤ op && op ≤ 0x314) || (0x380 ≤ op && op ≤ 0x38A)

/-- The common fields of a word: guards, hint, scheduling, sequencing and slots. With an indirect form slot E belongs
to the sequencing field and the operand slot reads as unused (R137, R140). -/
def Fields.common (f : Fields) : Except Reject (Ctl × Slots) :=
  match Guard.ofCode f.g1.toNat, Guard.ofCode f.g2.toNat with
  | some g1, some g2 =>
    match Spec.ofCode f.a.toNat, Spec.ofCode f.b.toNat, Spec.ofCode f.c.toNat, Spec.ofCode f.d.toNat,
      Spec.ofCode f.e.toNat with
    | some a, some b, some c, some d, some e =>
      match Hint.ofCode f.hint.toNat, Sched.ofCode f.sched.toNat with
      | some h, some sc =>
        match Seq.ofCode f.seq.toNat e with
        | .ok q =>
          .ok ({ g1 := g1, g2 := g2, hint := h, sched := sc, seq := q },
               { a := a, b := b, c := c, d := d, e := if q.indirect then .none else e, imm := f.imm })
        | .error r => .error r
      | none, _ => .error .hint
      | _, none => .error .sched
    | _, _, _, _, _ => .error .specifier
  | _, _ => .error .guard

/-- Decode a word: an instruction, or the name of the condition of Table 10.13 it meets (R157). The two conditions
that depend on the block, the live counts and the last word, are checked where the word is issued. -/
def decode (w : Word128) : Except Reject Instr :=
  let f := Fields.ofWord w
  let op := f.op.toNat
  if op = 0x000 || op = 0x3FF then .ok .ill
  else if !assigned op then .error .opcode
  else
    match f.common with
    | .error r => .error r
    | .ok (x, o) =>
      match build op f.mod.toNat f.imm x o with
      | none => .error .modifier
      | some i =>
        match i.check with
        | some r => .error r
        | none => .ok i

/-- The fields of a word from its entry. -/
def Entry.fields (n : Entry) : Fields :=
  { op := BitVec.ofNat 10 n.op, mod := BitVec.ofNat 6 n.mod,
    a := BitVec.ofNat 8 n.o.a.code, b := BitVec.ofNat 8 n.o.b.code, c := BitVec.ofNat 8 n.o.c.code,
    d := BitVec.ofNat 8 n.o.d.code,
    e := match n.x.seq.indReg with
      | some w => BitVec.ofNat 8 (Spec.w w).code
      | none => BitVec.ofNat 8 n.o.e.code,
    g1 := BitVec.ofNat 5 n.x.g1.code, g2 := BitVec.ofNat 5 n.x.g2.code, hint := BitVec.ofNat 3 n.x.hint.code,
    sched := BitVec.ofNat 7 n.x.sched.code, seq := BitVec.ofNat 20 n.x.seq.code,
    imm := match n.field with
      | some f => f
      | none => n.o.imm }

/-- Encode an instruction word; `none` for a row of the table that is no word. ILL is the all-zero word (R325). -/
def encode (i : Instr) : Option Word128 :=
  match i.entry with
  | some n => some n.fields.word
  | none => if i = .ill then some 0 else none

/-- The instruction of an opcode-table row: the table gives the rows no bits, and a word is 16 bytes, so the bits above
`nbits` are zero and the word is `w` itself. -/
def decodeTableWord (_nbits w : Nat) : Option Instr :=
  match decode (BitVec.ofNat 128 w) with
  | .ok i => some i
  | .error _ => none

/-- A block header (Tables 10.5, 10.6). -/
structure Header where
  tag    : BitVec 4
  length : BitVec 6
  dlive  : BitVec 7
  wlive  : BitVec 5
  reconv : BitVec 20
  pfk    : BitVec 2
  pfd    : BitVec 6
  idem   : Bool
  rstok  : Bool
  stage  : Bool
  func   : Bool
  trap   : Bool
  resv   : Bool
  check  : Byte
  region : BitVec 16
  frame  : BitVec 16
  resa   : BitVec 32
  sum    : Byte
  deriving DecidableEq, Repr

/-- Read a header slot (R143); `sum` is the byte sum of bytes 7 down to 1 modulo 256 (R144). -/
def Header.ofSlot (w : Word128) : Header :=
  { tag := w.extractLsb' 60 4, length := w.extractLsb' 54 6, dlive := w.extractLsb' 47 7,
    wlive := w.extractLsb' 42 5, reconv := w.extractLsb' 22 20, pfk := w.extractLsb' 20 2,
    pfd := w.extractLsb' 14 6, idem := w.getLsbD 13, rstok := w.getLsbD 12, stage := w.getLsbD 11,
    func := w.getLsbD 10, trap := w.getLsbD 9, resv := w.getLsbD 8, check := w.extractLsb' 0 8,
    region := w.extractLsb' 112 16, frame := w.extractLsb' 96 16, resa := w.extractLsb' 64 32,
    sum := w.extractLsb' 56 8 + w.extractLsb' 48 8 + w.extractLsb' 40 8 + w.extractLsb' 32 8 +
      w.extractLsb' 24 8 + w.extractLsb' 16 8 + w.extractLsb' 8 8 }

/-- A valid header (R144); `entering` says that trap entry is entering it. -/
def Header.valid (h : Header) (entering : Bool) : Bool :=
  h.tag = 0b1011#4 && h.check = ~~~ h.sum && h.length ≠ 0 && h.dlive.toNat ≤ 64 && h.pfk ≠ 3 && !h.resv &&
  h.resa = 0 && (entering || !h.trap)

/-- The live w-register count (Table 10.5): 31 stands for all 32. -/
def Header.wcount (h : Header) : Nat := if h.wlive = 31 then 32 else h.wlive.toNat

end Sys2Proof
end

