-- ==== Sys2Proof/Config.lean ====
section
/-! DEFINITION. Config.lean: what one machine fixes, the agenda of turns, and the values the spec leaves open, which are
opaque constants with no body. -/

namespace Sys2Proof

/-- What a step of the model does. The hardware's agents run at the same time; a turn says which one moves next. An
agenda of turns in the state is taken first; where it is empty the free choice `Config.freeTurn` decides. -/
inductive Turn where
  /-- A lane issues one word of the split that R48 chooses. -/
  | issue (core lane : Nat)
  /-- A stopped split looks at what it waits for. -/
  | resume (r : Ref)
  /-- A row of the table that is no word: an engine, the driver or the outside world. -/
  | event (e : Instr)
  /-- A core's L1 drops the clean bytes of a line (R98, R99 give no rule for when). -/
  | dropClean (core line : Nat)
  /-- An 8-byte group that the release of a split's word publishes is published before the rest (R107); the same for the
  release of a pre-emption (R309). -/
  | publishPart (r : Ref) (group : Nat)
  | savePart (core group : Nat)
  /-- A dome's replica drains the dirty bytes of an 8-byte group to its home (R114). -/
  | drainReplica (dome group : Nat)
  /-- A dome's replica drops the clean bytes of a line. -/
  | dropReplica (dome line : Nat)
  /-- A slice drops a line of a view that it holds (R105), or a proxy slice a clean line of host memory. -/
  | dropView (line : Nat)
  | dropHost (line : Nat)
  /-- A proxy slice sends on what it holds of an 8-byte group of host or peer memory (R346). -/
  | proxyDrain (group : Nat)
  /-- An L1 fills a line ahead of a load that needs it (R380). -/
  | fillLine (core line : Nat)
  /-- A TLB entry, a translation-cache entry or a block in an instruction cache is lost (R306, R307). -/
  | dropTlb (core key : Nat)
  | dropWalk (dome key : Nat)
  | dropCode (core key : Nat)
  /-- A page is translated ahead of need; nothing is performed with it (R96, R306). -/
  | fillTlb (core : Nat) (va : Word)
  /-- A lane issues a memory word whose accesses are performed later, and one piece of such an access is performed
  (R193, R380). -/
  | issueLate (core lane : Nat)
  | land (id thread group : Nat)
  /-- The reductions that a slice has accepted for a line are applied (R116). -/
  | applyReds (line : Nat)
  /-- The commits of a split that stands at TXC set out (R122). -/
  | commitStart (r : Ref)
  /-- An event that no step of the model shows is counted (R359). -/
  | bump (u : CUnit) (unit event lane prio : Nat)
  /-- The driver cancels the registrations of a swapped-out context (R125, R126). -/
  | cancelWaits (ctx : Nat)
  /-- The host reads the control window, or sets the size of a window (R342). -/
  | windowRead (off bytes : Nat)
  | resizeBar (memory : Bool) (log : Nat)
  /-- The power reading is renewed (R356). -/
  | powerSample
  /-- An uncorrectable error damages a line of memory, a scratchpad byte or a register (R304). -/
  | damageLine (line : Nat)
  | damageScratch (blk off : Nat)
  | damageReg (warp reg : Nat)
  /-- A ring tile is corrupted in flight (R295). -/
  | corruptTile (index : Nat) (bit : Nat)
  /-- A copy engine reads the source of one destination line ahead of its landing (R129). -/
  | readAhead (cmd line : Nat)
  /-- A pre-emption under way goes on with its blocks (R309). -/
  | saveGo
  /-- A party outside the module writes a byte of host or peer memory (R345, R346). -/
  | outsideWrite (addr : Nat) (v : Byte)
  /-- Nothing happens but time. -/
  | idle
  deriving DecidableEq, Repr, Inhabited

namespace Config

/-- Cores, slices and vaults of the nine-tower module (R3, R13). -/
def cores : Nat := 144
/-- Lanes of a core and warp slots of a lane (R20, R152). -/
def lanes : Nat := 64
def slotsPerLane : Nat := 4
/-- Bytes of a vault (R91). -/
def vaultBytes : Nat := 0x180000000
/-- The reset state of `$rnd` mixed with the thread's place (R68). -/
def rndSeed : Word := 0x9E3779B97F4A7C15

/-- FREE VALUE: the turn taken when the agenda is empty, for each value of a counter. -/
opaque freeTurn : Nat → Turn
/-- FREE VALUE: nanoseconds that pass in a step (R355). -/
opaque freeNs : Nat → BitVec 16
/-- FREE VALUE: a choice of the hardware among the results the spec allows, as a function of a tag and the operand:
which neighbour a faithful function returns (R175), and which value within 2 ulp FSIN, FCOS and FTANH return (R87,
R175). The functions are deterministic (R175), so the choice depends on the input alone. -/
opaque freePick : Nat → Nat → Nat → Nat
/-- FREE VALUE: a 64-bit value no rule fixes: a power reading (R356), bytes of an SPDM response (R353), a field of a record
that has no meaning there (Table 20.3). -/
opaque freeWord : Nat → Word
/-- FREE VALUE: a number with no rule, for each value of a counter: which of several enabled choices the hardware
takes. -/
opaque freeNat : Nat → Nat
/-- FREE VALUE: the set of a slice that a line falls into (R98 gives 16 ways of a set and no index). -/
opaque llcSet : Nat → Nat
/-- FREE VALUE: this module's own Bexset node id, which no register gives (R347). -/
opaque nodeId : BitVec 16

end Config
end Sys2Proof
end

