-- ==== Sys2Proof/Machine/State.lean ====
section
/-! DEFINITION. State.lean: everything the spec gives the machine, as plain data, with its value at reset. -/

namespace Sys2Proof.Machine

/-! ## Faults and refusals -/

/-- Why the model stops. -/
inductive Fault where
  /-- Raised by the meaning of an instruction word executed while the state names no issuing split: no behaviour of the
  hardware, since a word is executed only as the word of a split. Safe. -/
  | noIssuer
  deriving DecidableEq, Repr

/-- Instructions with no meaning. -/
inductive Refusal where
  /-- An instruction the model gives no meaning; raised by no arm of `exec`. Safe. -/
  | notModelled (mnemonic : String)
  deriving DecidableEq, Repr

/-! ## Registers of a warp (R150-R153) -/

/-- The tag of a d-register value (R151). -/
inductive Tag where
  | general
  | uniform
  | affine (base stride : Word)
  deriving DecidableEq, Repr

/-- Operand values of one word, one entry per thread, captured when the word was issued (R132 step 3). -/
structure Opnds where
  a : List Word := []
  b : List Word := []
  c : List Word := []
  d : List Word := []
  e : List Word := []
  deriving DecidableEq, Repr

/-- A trap raised and not yet taken (R298, R382). -/
structure Trap where
  cause : Nat
  mask  : Mask
  addr  : Word
  code  : BitVec 16 := 0
  deriving DecidableEq, Repr

/-- A word that has been issued and has not finished. `T` is its active threads, `todo` the threads still to be
performed, `vals` the results so far by thread, `held` the traps held under R382, `prog` counts the commands already
pushed (R265). -/
structure Pend where
  i    : Instr
  T    : Mask
  todo : Mask := 0
  ops  : Opnds
  vals : Sparse Word := []
  held : List Trap := []
  prog : Nat := 0
  deriving DecidableEq, Repr

/-- Why a split is stopped (R47). -/
inductive Stop where
  /-- A translation fault waits for the reply to its record (R302, R303). -/
  | replay (rcd : Nat) (w : Pend)
  /-- The sequencing act waits for the replay of a faulted fetch of a header. -/
  | refetch (rcd : Nat) (q : Seq)
  /-- The fetch of the split's own header or word waits for the replay. -/
  | refetchWord (rcd : Nat)
  /-- A NESTED record was posted: only the fatal reply follows (R299, R303). -/
  | nested
  /-- WAIT (R229). -/
  | wait (id : Nat) (w : Pend)
  /-- AWAIT at a scratchpad offset for a phase (R222). -/
  | await (w : Pend)
  /-- BAR: parked before arrival, or waiting for a generation (R224). -/
  | bar (id gen : Nat) (hold : Bool) (w : Pend)
  /-- TBAR (R225). -/
  | tbar (key gen : Nat) (w : Pend)
  /-- A push to a full queue, or the wait for room in `qcj` (R250, R265, R336). -/
  | push (w : Pend)
  /-- The results of UNITE, FIND or FSIZE (R336). -/
  | conj (w : Pend)
  /-- MMR participation (R246, R247). -/
  | mmr (w : Pend)
  /-- LAUNCH (R322). -/
  | launch (sub : Nat) (w : Pend)
  /-- An XST whose receiver is saved (R314). -/
  | xst (w : Pend)
  /-- SPAWN to a full queue (R51). -/
  | spawn (w : Pend)
  /-- A word that has been issued and whose release is not complete, or whose answer a peer has not given (R47, R110,
  R346). -/
  | underway (i : Instr)
  deriving DecidableEq, Repr

/-- A live or stacked split (R45). The PC is slot `idx` of the block whose header stands at `hdr`: slot 0 is the header
itself, words are 1 to `length` (R143). `hw` is the header slot as it was read when the split entered the block. -/
structure Split where
  id        : Nat
  mask      : Mask
  hdr       : Word
  hw        : Word128
  idx       : Nat
  rcd       : Nat
  calls     : List Nat
  stop      : Option Stop
  readyAt   : Nat
  overtaken : Nat
  boosted   : Bool
  yieldFor  : List Nat
  deriving DecidableEq, Repr

/-- A reconvergence record (R45); `join` is `none` for "at exit", `hw` the join's header slot as it was checked. -/
structure RRec where
  id      : Nat
  join    : Option Word
  hw      : Word128
  parent  : Option Nat
  members : Nat
  parked  : Mask
  calls   : List Nat
  deriving DecidableEq, Repr

/-- A call entry (R142). -/
structure CallE where
  id  : Nat
  ret : Word
  rcd : Nat
  sp  : Word
  deriving DecidableEq, Repr

/-- An open or aborted transaction of a thread (R120-R123). Sets are keyed by physical byte address. `started` says that its
commit is on its way to the slices, where it may meet another (R122). -/
structure Txn where
  isOpen  : Bool
  code    : Nat
  age     : Option Word
  rset    : Sparse Byte
  wset    : Sparse Byte
  rlines  : List Nat
  wlines  : List Nat
  started : Bool
  deriving DecidableEq, Repr

/-- An entry of the hoisted-load table (R201): the threads' addresses, the width and the destination. -/
structure Hoist where
  width : Nat
  dst   : Fin 64
  addrs : Sparse Word
  lines : List Nat
  deriving DecidableEq, Repr

/-- A QFENCE: the queues it names and the commands that must complete first (R282). -/
structure QFen where
  qset   : BitVec 6
  before : List Nat
  deriving DecidableEq, Repr

/-- A warp. It is keyed in the state by 256·core + 4·lane + slot (R152). `handler` is the split that took the trap, and
`held` are the splits the warp had besides it, which wait for the handler's return (R299). `frames` are the lines of its
stack region that the slot's share of the stack cache holds (R21, R45). `noFrame` says that the header it restarts at has not
been read, and `$sp` not been lowered by its frame (R311). -/
structure Warp where
  blk      : Nat
  wid      : Nat
  exited   : Mask
  d        : Sparse Word
  tags     : Sparse Tag
  w        : Sparse Word
  p        : Sparse Mask
  q        : BitVec 4
  n        : Sparse (BitVec 32)
  m        : Sparse Word
  status   : Sparse (BitVec 9)
  rnd      : Sparse Word
  weight   : Sparse Word
  slim     : Nat
  sp       : Word
  restart  : Word
  fault    : Word
  handler  : Option Nat
  held     : List Nat
  trapBlk  : Word × Word128
  splits   : List Split
  stacked  : List Split
  recs     : List RRec
  calls    : List CallE
  nextId   : Nat
  ports    : List (Port × Word)
  lostSp   : Nat
  lostXs   : Nat
  hoist    : Sparse (Option Hoist)
  txn      : Sparse (Option Txn)
  windows  : List (Nat × Bool)
  frames   : List Nat
  fences   : List QFen
  regions  : List (BitVec 16)
  damaged  : List Nat
  badFrame : Bool
  noFrame  : Bool
  deriving DecidableEq, Repr

/-! ## Blocks and launches -/

/-- An element of an accumulator tile (R83, R84). A short element uses `val` alone, with the three special codes. -/
structure Elem where
  val  : Int := 0
  nan  : Bool := false
  pinf : Bool := false
  ninf : Bool := false
  ovf  : Bool := false
  satn : Nat := 0
  deriving DecidableEq, Repr

/-- The states of Table 16.5 apart from FREE. -/
inductive TileSt where | isOpen | closing | draining
  deriving DecidableEq, Repr

/-- A tile that is not FREE (R248, R249). -/
structure Tile where
  g       : Nat
  long    : Bool
  st      : TileSt
  writers : List Nat
  elems   : Sparse Elem
  deriving DecidableEq, Repr

/-- A BAR id of a block (R224): generation, the count its first arrival gave, the arrived warps by `$wid` (1000 more
once they have exited), the threads of each warp that have executed the barrier, and the count each warp gave. -/
structure Bar where
  gen     : Nat := 0
  count   : Option Nat := none
  arrived : List Nat := []
  parts   : Sparse Mask := []
  want    : Sparse Nat := []
  deriving DecidableEq, Repr

/-- A resident block. `bankUsed` says that a weight-buffer bank holds bytes written for it (R311); `regions` are those that
its exited warps entered (R310). -/
structure Block where
  launch   : Nat
  core     : Nat
  pos      : Nat × Nat
  k        : Nat
  bid      : BitVec 32
  ehw      : Word128
  live     : Sparse Byte
  shadow   : Sparse Byte
  tiles    : List Tile
  bars     : Sparse Bar
  halted   : Bool
  bankUsed : Bool
  regions  : List (BitVec 16)
  deriving DecidableEq, Repr

/-- A stage of a STAGED launch (R50): its descriptor and queue. `items` are the queued items from slot `head` on, with
the time each arrived and its header; their bytes are in memory. `formed` are the sizes of the warps the packer has formed
of the oldest of them. -/
structure Stage where
  sentry : Word
  ehw    : Word128
  qbase  : Word
  init   : Word
  ninit  : Nat
  qlog   : Nat
  isize  : Nat
  ptime  : Nat
  head   : Nat
  items  : List (Word × Word)
  formed : List Nat
  deriving DecidableEq, Repr

/-- Termination control of a STAGED launch (R54): the current tag, which is the tag of the current round; how many rounds
in a row have found zero and clear; the tags whose dirty bit is set somewhere. -/
structure Term where
  cur    : Nat
  streak : Nat
  dirty  : List Nat
  deriving DecidableEq, Repr

/-- How far a launch has come (R30-R43). -/
inductive LState where | accepted | running
  deriving DecidableEq, Repr

/-- A TBAR generation of a group of a launch (R225); warps are named by block and `$wid`. `swaps` are the warps that have
executed `.swap` since they last arrived, and `swap` says that one that has arrived in this generation had. -/
structure TBar where
  id      : Nat
  spec    : Nat
  origin  : Nat × Nat
  size    : Nat × Nat
  gen     : Nat
  swap    : Bool
  swaps   : List (Nat × Nat)
  arrived : List (Nat × Nat)
  parts   : List ((Nat × Nat) × Mask)
  deriving DecidableEq, Repr

/-- An accepted, unfinished launch: its record as read at acceptance and what has become of it. `toAdmit` are its blocks
not yet admitted, by block id with the core each goes to. -/
structure Launch where
  addr    : Word
  lctl    : BitVec 32
  part    : BitVec 32
  warps   : Nat
  bpc     : Nat
  tw      : Nat
  th      : Nat
  ox      : Nat
  oy      : Nat
  entry   : Word
  ehw     : Word128
  params  : Word
  abase   : Word
  astride : Word
  afield  : Nat
  nblocks : Nat
  start   : Word
  guard   : Word
  lstat   : Word
  wword   : Word
  stab    : Word
  st      : LState
  bound   : Option Nat
  origin  : Nat × Nat
  toAdmit : List (Nat × Nat)
  stages  : List Stage
  term    : Term
  tbars   : List TBar
  deriving DecidableEq, Repr

/-- Where a submission came from (R30): the physical address of its launch queue's entry, or the word that made it. -/
inductive SubSrc where
  | queue (entry : Nat)
  | word (warp split : Nat)
  deriving DecidableEq, Repr

/-- A submission waiting for acceptance (R30). -/
structure Sub where
  id   : Nat
  addr : Word
  src  : SubSrc
  deriving DecidableEq, Repr

/-! ## Engine commands -/

/-- Shape record of CPYT (Table 18.5). -/
structure Shape where
  esz  : Nat
  rank : Nat
  n    : List Nat
  ss   : List Int
  ds   : List Int
  deriving DecidableEq, Repr

/-- Follow-on record (Table 18.6). -/
structure Follow where
  kind   : Nat
  fmt    : Nat
  g      : Nat
  rcd    : Bool
  cw     : Bool
  ck     : Nat
  bank   : Nat
  aoff   : Nat
  cnt    : Nat
  stride : Nat
  arr    : Option Nat
  rel    : Option Nat
  da     : Int
  dg     : Int
  deriving DecidableEq, Repr

/-- Index record of GTH and SCT (Table 18.7). -/
structure Index where
  tbase   : Word
  ilist   : Word
  jrnl    : Word
  tstride : Nat
  rowb    : Nat
  op      : Nat
  aty     : Nat
  imax    : Nat
  deriving DecidableEq, Repr

/-- A participant of a collector command (R246): its lane and split, the first register, its active threads, what it
named, and the registers once delivered, by register and thread. -/
structure Part where
  lane  : Nat
  warp  : Nat
  split : Nat
  reg   : Nat
  mask  : Mask
  g     : Nat
  fmt   : Nat
  c     : Nat
  row   : Option (List Word)
  deriving DecidableEq, Repr

/-- The bytes a copy moves (R273, R274). -/
inductive Moves where
  | run (dst src : Int) (n : Nat)
  | tensor (dst src : Int) (sh : Shape) (c : Nat)
  deriving DecidableEq, Repr

/-- A board (R291-R293): what it asked for, the lap it boards, the next tile of its range, laps missed, and the indexes of
corrupted tiles. `sizes` are the tiles' sizes at registration. `owed` are the landed tiles whose pushes wait for room in the
matrix queue, each with the header's `fmt`, `ck` and `kw`, and `unread` says that the follow-on record could not be read or is
invalid, so that the declared bytes cannot be known (R384). -/
structure Board where
  bank   : Nat
  slot   : Nat
  layer  : Nat
  f      : Nat
  n      : Nat
  fol    : Option Follow
  reg    : Bool
  lap    : Nat
  k      : Nat
  missed : Nat
  bad    : List Nat
  sizes  : List Nat
  owed   : List (Nat × Nat × Nat × Nat)
  unread : Bool
  deriving DecidableEq, Repr

/-- What a command does. Spaces are numbered as in Table 18.3. Of a copy, `pre` holds source bytes already read, by
destination, and `unpub` the source pages that did not translate when it was issued (R129). Of a CPYG, `org` is the patch
whose origin has been read, and `carry` the bytes read of what comes next. `part` says how much of the window of a GTH, or of
which position of an SCT, has been written, with its bytes: an access that faulted is where the command goes on (R270).
`unread` is a command whose record or count word is damaged and awaits the reply to its record (R304): the word, its operands
and thread, what it captured at push, and whether it has been spilled, so that it pushes no follow-on (R264, R283). -/
inductive CmdK where
  | copy (ssp dsp : Nat) (mv : Moves) (fol : Option Follow) (pre : Sparse Byte) (unpub : List Nat)
  | patch (dsp esz pw ph : Nat) (dst : Int) (list : Word) (c : Nat) (pitch : Word) (org : Option (Nat × Nat)) (carry : List Byte)
  | gather (dsp : Nat) (dst : Int) (ix : Index) (c : Nat) (part : Option (Nat × List Byte))
  | scatter (ssp : Nat) (src : Int) (ix : Index) (c : Nat) (part : Option (Nat × Nat × Nat × List Byte))
  | wld (fmt ck bank off kw : Nat)
  | mma (sparse : Bool) (fmt stride aoff c : Nat) (mets : List Word)
  | mmr (fmt c : Nat) (scales : Nat) (parts : List Part)
  | aclr (long : Bool)
  | epi (desc : List Byte) (dst : Int) (c : Nat)
  | board (b : Board)
  | conjOp (op : Nat) (nc : Bool) (thread : Nat) (frec x y : Word)
  | relabel (op : Nat) (frec inp out : Word) (first c : Nat)
  | fsnap (op : Nat) (frec : Word)
  | fundo (frec : Word)
  | unread (i : Instr) (v : Opnds) (t : Nat) (k : CmdK) (spilled : Bool)
  deriving DecidableEq, Repr

/-- A weight set (R238): format, Kw, element codes at 256·k + n and scale bytes at 256·j + n. -/
structure WSet where
  wld    : Nat
  fmt    : Nat
  kw     : Nat
  elems  : Sparse Nat
  scales : Sparse Nat
  deriving DecidableEq, Repr

/-- A walk in progress (R330): the element it stands at, the elements passed, and whether it has found its root and is
compressing them. -/
structure Walk where
  y     : Nat
  path  : List Nat
  found : Bool
  deriving DecidableEq, Repr

/-- How far an operation at a conjunction engine has come (R328-R338): the record as it was read at the start, the walk under
way, the roots found, and, of a RELABEL's window, the elements with their roots, the roots that still have to be reduced and
the inputs read so far for the first of these. -/
structure CjPos where
  rcd   : List Byte := []
  walk  : Option Walk := none
  ra    : Option Nat := none
  rb    : Option Nat := none
  roots : List (Nat × Nat) := []
  todo  : Option (List Nat) := none
  ins   : List Nat := []
  deriving DecidableEq, Repr

/-- A command in an engine queue or in flight, in push order. `g` is its tile, `writes` says that it counts among the
tile's writers, `decl` are its declared bytes where they are known (R252, R384), `row` how far it has come, `landed` the
lines or positions done, `signalled` the bytes signalled, `fault` the record it waits for, `after` the commands that
must complete first (R282), `wset` the weights a multiply entered with, `hint` the word's cache hint
(R149), `cj` the progress of an operation at a conjunction engine. -/
structure Cmd where
  id      : Nat
  core    : Nat
  blk     : Nat
  warp    : Nat
  split   : Nat
  port    : Port
  op      : Nat
  rcd     : Bool
  arr     : Option Nat
  rel     : Option Nat
  unit    : Nat
  g       : Nat
  writes  : Bool
  decl    : Option Nat
  k       : CmdK
  status  : Option Nat
  started : Bool
  row     : Nat
  landed  : List Nat
  signalled : Nat
  flags   : Nat
  fault   : Option Nat
  after   : List Nat
  fences  : List QFen
  wset    : Option WSet
  hint    : Hint
  cj      : CjPos
  deriving DecidableEq, Repr

/-- A collector command that has not been pushed (R246). -/
structure Form where
  blk    : Nat
  grp    : Nat
  op     : Option Cmd
  c      : Nat
  parts  : List Part
  deriving DecidableEq, Repr

/-- A core's matrix engine and weight buffer (R238-R240): the owning launch, the weight sets, the WLD being filled, the
bytes of both banks at 2^20·bank + offset, and the collector's commands that have not been pushed. -/
structure Matrix where
  owner   : Option Nat := none
  active  : Option WSet := none
  standby : Option WSet := none
  filling : Option Nat := none
  banks   : Sparse Byte := []
  forms   : List Form := []
  deriving DecidableEq, Repr

/-! ## Lantern -/

/-- One entry of a WAIT at a home slice (R229, Table 8.8). -/
structure WEnt where
  slice   : Nat
  addr    : Nat
  threads : Mask
  spilled : Bool
  deriving DecidableEq, Repr

/-- A WAIT registered and not finished, or finished and not yet delivered. -/
structure Wait where
  id      : Nat
  warp    : Nat
  split   : Nat
  ctx     : Option Nat
  cond    : Cond
  sgn     : Bool
  any     : Bool
  T       : Mask
  vals    : List Word
  sat     : Mask
  ents    : List WEnt
  deadline : Nat
  result  : Option Nat
  deriving DecidableEq, Repr

/-! ## Caches and translation -/

/-- A cached leaf (R305, R306): page base, page size in bits, and the entry. -/
structure Tlb where
  page  : Nat
  bits  : Nat
  entry : Word
  addr  : Nat
  wrote : Bool
  deriving DecidableEq, Repr

/-- What a core keeps besides its warps. `dirty` is keyed by physical byte address (held copies included, R107), and
`owner` gives one more than the launch that stored such a byte last (R43); `clean` is keyed by line, with the bytes of the
line that are present, a line of an uncompressed view above them (R105). `code` holds the slots of each block the
instruction cache has fetched, keyed by the physical address of its header (R307). -/
structure Core where
  dirty  : Sparse (Option Byte) := []
  owner  : Sparse Nat := []
  clean  : Sparse (List (Option Byte)) := []
  tlb    : List Tlb := []
  code   : Sparse (List (Option Word128)) := []
  matrix : Matrix := {}
  deriving DecidableEq, Repr

/-- What a dome keeps: its translation cache of walk entries and its replica lines (R114, R306). -/
structure Dome where
  walks  : Sparse (Option Word) := []
  clean  : Sparse (List (Option Byte)) := []
  dirty  : Sparse (Option Byte) := []
  deriving DecidableEq, Repr

/-- A line held in a way of a slice of the last-level cache, with its age (R98). -/
structure LWay where
  line : Nat
  age  : Nat
  deriving DecidableEq, Repr

/-! ## System control registers and the control window -/

/-- A replacement-class entry (Table 8.3). -/
structure RClass where
  ways : BitVec 16
  wpol : BitVec 2
  age  : BitVec 3
  deriving DecidableEq, Repr

/-- The system control registers (Table 10.11). -/
structure Regs where
  tvec        : Word
  ptroot      : Word
  stkbase     : Word
  stksize     : Word
  restorewait : Word
  ilbase      : Word
  ilsize      : Word
  rclass      : List RClass
  rcsel       : Word
  repways     : Word
  fepoch      : Word
  fmin        : Word
  fpool       : Word
  ringrate    : Word
  dwell       : Word
  deriving DecidableEq, Repr

/-- A fault-queue record without its number (Table 20.3). -/
structure FRec where
  faddr  : Word
  fpc    : Word
  flrec  : Word
  fcore  : Nat
  floc   : Nat
  fcause : Nat
  facc   : Nat
  ftmask : Mask
  fbid   : BitVec 32
  fdet   : Nat
  deriving DecidableEq, Repr

/-- Who waits for the reply to a record. -/
inductive Owner where
  | split (warp split : Nat)
  | cmd (id : Nat)
  | block (id : Nat)
  | context (id : Nat)
  | copyBack (ctx : Nat)
  | nobody
  deriving DecidableEq, Repr

/-- A record to be posted, or posted and not yet replied to: `seq` is its number once posted. -/
structure FPost where
  id    : Nat
  r     : FRec
  owner : Owner
  launch : Option Nat
  seq   : Option (BitVec 32)
  deriving DecidableEq, Repr

/-- A block that a pre-emption is taking off its core (R309): its save areas, whether it is idempotent, whether it has lost
matrix state, and the commands handed to the spill engine. -/
structure Saving where
  blk   : Nat
  areas : List Word
  idem  : Bool
  lost  : Bool
  cmds  : List Cmd
  deriving DecidableEq, Repr

/-- The system block of the control window (Table 20.4) and `ctlerr` (R155). `cancel` is a cancellation under way: its launch
and the blocks it stopped (R315). -/
structure Sys where
  fqbase : Word
  fqsize : Word
  fqhead : Word
  fqtail : Word
  fseq   : BitVec 32
  tinv   : Option Word
  icinv  : Bool
  pbusy  : Bool
  pcount : BitVec 16
  pres   : BitVec 8
  plaunch : Word
  parea  : Word
  rarea  : Word
  posts  : List FPost
  saving : List Saving
  cancel : Option (Nat × Nat)
  ctlerr : Bool
  deriving DecidableEq, Repr

/-- The identity block (Table 24.1), and the sizes of the control and the memory window that the host has set through the
Resizable BAR capability (R342). -/
structure Ident where
  state  : Nat
  towers : BitVec 9
  mwbase : Word
  fwver  : Word
  bar0   : Nat
  bar2   : Nat
  deriving DecidableEq, Repr

/-- The controller's replay-protected flash partition: the highest accepted security version, how many signatures its
key has given, the cores that failed the latest self-test, and the slices whose margin could not be restored
(R350, R351, R358). -/
structure Flash where
  secver : Word
  sigs   : Nat
  failed : List Nat
  worn   : List Nat
  deriving DecidableEq, Repr

/-- A ring tile in flight (R285, R289). `entry` names its layer and its index, as 65536·layer + index. -/
structure RTile where
  home  : Nat
  t     : Nat
  lap   : Nat
  entry : Nat
  hdr   : List Byte
  body  : List Byte
  deriving DecidableEq, Repr

/-- A body read ahead of its injection (R289): the read may not have ended yet. -/
structure RBody where
  lap   : Nat
  entry : Nat
  vault : Nat
  home  : Nat
  hdr   : List Byte
  body  : List Byte
  ready : Bool
  deriving DecidableEq, Repr

/-- The ring (R284-R296). A schedule is pending while `snext` is not 0. `t` numbers the steps, `next` is the entry of the
next injection, `lastAt` the step, home and vault of the last one; `domeLap` and `seen` (dome, lap, layer and index) are
what the taps have been given; `held` names boards, and the tiles they are due, for which the ring holds its step. -/
structure Ring where
  snext    : Word
  sact     : Word
  nent     : Nat
  lapc     : Word
  refused  : Bool
  reason   : Nat
  t        : Nat
  next     : Nat
  injecting : Bool
  lastAt   : Option (Nat × Nat × Nat)
  bodies   : List RBody
  tiles    : List RTile
  domeLap  : Sparse Nat
  seen     : List (Nat × Nat × Nat)
  held     : List (Nat × RTile)
  deriving DecidableEq, Repr

/-- A host launch queue (Table 24.2). -/
structure HostQ where
  qbase : Word
  qlog  : Word
  qtail : Word
  qhead : Word
  deriving DecidableEq, Repr

/-- An event counter (Table 24.5). -/
structure Counter where
  sel : BitVec 32
  val : BitVec 48
  deriving DecidableEq, Repr

/-- An outgoing Bexset request that no response has ended (R347): source and target node, tag, sequence number, physical
address, operation, and the turn that waits for its result and the number of its request (nobody for a write, or once the
step has been taken without it). -/
structure BexOut where
  tag     : BitVec 16
  source  : BitVec 16
  node    : BitVec 16
  seq     : BitVec 32
  addr    : Nat
  op      : BexOp
  who     : Option (Turn × Nat)
  retries : Nat
  deriving DecidableEq, Repr

/-- The answer to a request that its access has not taken up yet: the value, or none after eight unanswered
retransmissions, which is an uncorrectable error (R347). -/
structure BexAns where
  addr   : Nat
  op     : BexOp
  who    : Turn × Nat
  result : Option Word
  deriving DecidableEq, Repr

/-- What a step cannot be taken without: the end of a tower's reset (R354), a peer's answer, or, for a release by a core, the
completion of the writes sent to peers (R113, R346). -/
inductive Want where
  | tower (dome : Nat)
  | peer (who : Turn × Nat) (addr : Nat) (op : BexOp)
  | acks (core : Nat)
  deriving DecidableEq, Repr

/-- A part of a word's access that has been issued and not all performed (R193, R380): the warp, the thread, the word, the
captured operands, the keys of its bytes, and the bytes read so far, by place in the access. -/
structure Late where
  id    : Nat
  key   : Nat
  t     : Nat
  pend  : Pend
  keys  : List Nat
  todo  : List Nat
  got   : Sparse Byte
  deriving DecidableEq, Repr

/-- A reduction that a slice's memory-port write queue has accepted and not applied (R115, R116, R211): the warp and thread that
made it, its aligned address, type, operation and operand. -/
structure Pending where
  key : Nat
  t   : Nat
  a   : Nat
  aty : ATy
  op  : AOp
  c   : Word
  deriving DecidableEq, Repr

/-- A replay-filter entry (R348). -/
structure BexIn where
  dome   : Fin 9
  source : BitVec 16
  tag    : BitVec 16
  seq    : BitVec 32
  result : Word
  deriving DecidableEq, Repr

/-- An SPDM response sent (R353): the port, which request, and words of the answer. -/
structure Spdm where
  port : Bool
  what : Nat
  body : List Word
  deriving DecidableEq, Repr

/-- An answer to an access of the host (R342, R343): the window it was made to, the offset, and the value, or none for
Unsupported Request. -/
structure HostAns where
  bar   : Nat
  off   : Nat
  value : Option Word
  deriving DecidableEq, Repr

/-- Time, power, tower reset and checkpoint (R354-R357). -/
structure Power where
  pnow    : Nat
  pcap    : Nat
  pstate  : Nat
  trefused : Bool
  inReset : List Nat
  ckaddr  : Word
  ckst    : Nat
  ckcmd   : Nat
  deriving DecidableEq, Repr

/-! ## Saved contexts -/

/-- A saved context (R309-R313). `image` is what the context's areas held when they had been written, without `ready`; `base`
and `size` are the stack registers of that moment; `areas` is empty once the context can no longer be restored. -/
structure Saved where
  id     : Nat
  blk    : Block
  blkId  : Nat
  warps  : List (Nat × Warp)
  cmds   : List Cmd
  areas  : List Word
  image  : List Host.Cell
  idem   : Bool
  lost   : Bool
  core   : Nat
  lrec   : Word
  stk    : Nat
  nbars  : Nat
  base   : Word
  size   : Word
  time   : Word
  alive  : Bool
  deriving DecidableEq, Repr

/-- A queued restore (R313). -/
structure Rest where
  rarea  : Word
  target : Nat
  ctx    : Option Nat
  since  : Word
  capped : Bool
  copying : Bool
  deriving DecidableEq, Repr

/-- The state of the machine. `views` are the lines of uncompressed views that the slices hold (R105), keyed as the cores'
are; `llc` the ways of a set of a slice, at 2^14·slice + set (R98); `proxy` the bytes of host and peer memory that are
published and have not reached their true home, and `hostClean` the lines of host memory the proxy slices hold (R346,
Table 8.6). `follow` counts requests by leaf and core since `epoch` (R101). `asker` names
the step that asks peers, and with `wants`, which is empty between steps, is the model's own. -/
structure State where
  ctl      : Regs
  sys      : Sys
  ident    : Ident
  ring     : Ring
  hostq    : List HostQ
  lastq    : Nat
  peers    : Sparse Word
  power    : Power
  time     : Word
  counters : Sparse Counter
  retired  : List Nat
  marked   : List Nat
  mem      : List Host.Cell
  bad      : Sparse (List Nat)
  badS     : List (Nat × Nat)
  cores    : Sparse Core
  domes    : Sparse Dome
  follow   : List (Nat × Nat × Nat)
  epoch    : Word
  subs     : List Sub
  launches : Sparse (Option Launch)
  blocks   : Sparse (Option Block)
  warps    : Sparse (Option Warp)
  cmds     : List Cmd
  waits    : List Wait
  saved    : List Saved
  rests    : List Rest
  views    : Sparse (List Byte)
  llc      : Sparse (List (Option LWay))
  proxy    : Sparse (Option Byte)
  hostClean : Sparse (List (Option Byte))
  flash    : Flash
  late     : List Late
  reds     : List Pending
  asker    : Turn
  wants    : List Want
  bexOut   : List BexOut
  bexDone  : List BexAns
  bexIn    : List BexIn
  bexSeq   : Sparse (BitVec 32)
  spdm     : List Spdm
  hostRead : List HostAns
  turns    : List Turn
  freeCtr  : Nat
  nextUid  : Nat
  issuer   : Option Ref
  deriving DecidableEq, Repr

/-- The replacement-class entries after module reset (R97). -/
def RClass.reset : RClass := { ways := 0xFFFF, wpol := 0, age := 3 }

/-- The system control registers after module reset (Table 10.14). -/
def Regs.reset : Regs :=
  { tvec := 0, ptroot := 0, stkbase := 0, stksize := 0, restorewait := 1000000000, ilbase := 0, ilsize := 0,
    rclass := List.replicate 8 RClass.reset, rcsel := 0, repways := 0x000F, fepoch := 0, fmin := 64, fpool := 0,
    ringrate := 81, dwell := 0 }

/-- The system block after module reset: `fqbase` 0 and no records (Table 20.4, R302); the rest as log entry 1 says. -/
def Sys.reset : Sys :=
  { fqbase := 0, fqsize := 0, fqhead := 0, fqtail := 0, fseq := 0, tinv := none, icinv := false, pbusy := false,
    pcount := 0, pres := 0, plaunch := 0, parea := 0, rarea := 0, posts := [], saving := [], cancel := none,
    ctlerr := false }

/-- The identity block of a module that came up with nine towers in service (R350-R352, log entry 2). -/
def Ident.reset : Ident := { state := 1, towers := 0x1FF, mwbase := 0, fwver := 0, bar0 := 0x10000, bar2 := 2 ^ 40 }

/-- The flash of a module that has never refused an image (log entry 2). -/
def Flash.reset : Flash := { secver := 0, sigs := 0, failed := [], worn := [] }

/-- The ring after module reset: no schedule, no lap begun (R287, R292). -/
def Ring.reset : Ring :=
  { snext := 0, sact := 0, nent := 0, lapc := 0, refused := false, reason := 0, t := 0, next := 0, injecting := false,
    lastAt := none, bodies := [], tiles := [], domeLap := [], seen := [], held := [] }

/-- A launch queue after module reset (log entry 1). -/
def HostQ.reset : HostQ := { qbase := 0, qlog := 0, qtail := 0, qhead := 0 }

/-- Power and checkpoint registers after module reset (log entry 1). -/
def Power.reset : Power :=
  { pnow := 0, pcap := 4200, pstate := 0, trefused := false, inReset := [], ckaddr := 0, ckst := 0, ckcmd := 0 }

/-- The machine right after module reset. -/
def State.reset : State :=
  { ctl := Regs.reset, sys := Sys.reset, ident := Ident.reset, ring := Ring.reset,
    hostq := List.replicate 8 HostQ.reset, lastq := 0, peers := [], power := Power.reset, time := 0, counters := [],
    retired := [], marked := [], mem := [], bad := [], badS := [], cores := [], domes := [], follow := [], epoch := 0, subs := [],
    launches := [], blocks := [], warps := [], cmds := [], waits := [], saved := [], rests := [], views := [], llc := [],
    proxy := [], hostClean := [], flash := Flash.reset, late := [], reds := [], asker := .idle, wants := [], bexOut := [], bexDone := [], bexIn := [], bexSeq := [], spdm := [], hostRead := [], turns := [], freeCtr := 0, nextUid := 0, issuer := none }

end Sys2Proof.Machine
end

