-- ==== Sys2Proof/Machine/Flags.lean ====
section
/-! DEFINITION. Flags.lean: the bits of `$status` (Tables 6.8 and 10.10) and how they are set. -/

namespace Sys2Proof.Machine

/-- A set of `$status` bits. -/
abbrev Flags := BitVec 9

/-- A NaN was created, or a conversion met an unrepresentable value. -/
def fInvalid : Flags := 0x001
/-- Division by zero. -/
def fDivZero : Flags := 0x002
/-- A result overflowed under R66. -/
def fOverflow : Flags := 0x004
/-- A tiny inexact result, or a flushed result. -/
def fUnderflow : Flags := 0x008
/-- A rounding changed a value, or a result was flushed. -/
def fInexact : Flags := 0x010
/-- An integer result was clamped by `.sat`. -/
def fSaturate : Flags := 0x020
/-- A subnormal input or result was flushed to zero. -/
def fFlush : Flags := 0x040
/-- FSIN or FCOS met a finite argument outside its reduction range. -/
def fReduce : Flags := 0x080
/-- A cross-thread read named an exited thread. -/
def fAbsent : Flags := 0x100

/-- Flags when a condition holds. -/
def flagIf (b : Bool) (f : Flags) : Flags := if b then f else 0

/-- A thread's `$status` (R153). -/
def Warp.statusOf (w : Warp) (t : Nat) : Flags := Sparse.get 0 w.status t

/-- Set flags of a thread: the bits are sticky (R75, R153). -/
def Warp.setFlags (w : Warp) (t : Nat) (f : Flags) : Warp :=
  { w with status := Sparse.set 0 w.status t (w.statusOf t ||| f) }

/-- A write of `$status` stores bits [8:0] (R153). -/
def Warp.writeStatus (w : Warp) (t : Nat) (v : Word) : Warp :=
  { w with status := Sparse.set 0 w.status t (v.setWidth 9) }

end Sys2Proof.Machine
end

