-- ==== Sys2Proof/Machine/Numbers.lean ====
section
/-! DEFINITION. Numbers.lean: sub-elements, integers, floating-point formats, rounding and exact arithmetic
(chapter 6: R56-R87). -/

namespace Sys2Proof.Machine

/-! ## Sub-elements and integers (R56, R58) -/

/-- Sub-element `k` of width `w` of a register value, as a bit pattern. -/
def elemBits (w : Nat) (v : Word) (k : Nat) : Nat := v.toNat / 2 ^ (w * k) % 2 ^ w

/-- A register value from the bit patterns of its sub-elements, element 0 lowest. -/
def packElems (w : Nat) (xs : List Nat) : Word :=
  BitVec.ofNat 64 (xs.foldr (fun x acc => x % 2 ^ w + 2 ^ w * acc) 0)

/-- A bit pattern of width `w` as an integer of a signedness (R58). -/
def toInt (signed : Bool) (w : Nat) (x : Nat) : Int :=
  if signed && 2 ^ (w - 1) ≤ x % 2 ^ w then (x % 2 ^ w : Nat) - (2 ^ w : Nat) else (x % 2 ^ w : Nat)

/-- An integer wrapped into `w` bits (R58). -/
def ofInt (w : Nat) (x : Int) : Nat := (x % (2 ^ w : Nat)).toNat

/-- The range of an integer type (R58). -/
def intLo (signed : Bool) (w : Nat) : Int := if signed then -(2 ^ (w - 1) : Nat) else 0
def intHi (signed : Bool) (w : Nat) : Int := if signed then (2 ^ (w - 1) : Nat) - 1 else (2 ^ w : Nat) - 1

/-- An exact result brought into an integer type: clamped with SATURATE under `.sat`, otherwise wrapped (R58, R161). -/
def narrowInt (signed : Bool) (w : Nat) (sat : Bool) (x : Int) : Nat × Flags :=
  if sat then
    if x < intLo signed w then (ofInt w (intLo signed w), fSaturate)
    else if intHi signed w < x then (ofInt w (intHi signed w), fSaturate)
    else (ofInt w x, 0)
  else (ofInt w x, 0)

/-- Integer division truncated toward zero, with the cases of Table 6.2. -/
def intDiv (signed : Bool) (w : Nat) (b c : Int) : Int × Flags :=
  if c = 0 then (if b < 0 then intLo signed w else intHi signed w, fDivZero)
  else (Int.tdiv b c, 0)

/-- Integer remainder with the sign of the dividend (R59, Table 6.2). -/
def intRem (b c : Int) : Int × Flags :=
  if c = 0 then (b, fDivZero) else (Int.tmod b c, 0)

/-! ## Floating-point formats (Tables 6.3, 6.4) -/

/-- A floating-point format: exponent and significand widths, bias, the greatest finite value, and its special
encodings. -/
structure FFmt where
  ew     : Nat
  pw     : Nat
  bias   : Nat
  hasInf : Bool
  hasNan : Bool
  maxB   : Nat
  nan    : Nat
  deriving DecidableEq, Repr

def FFmt.width (f : FFmt) : Nat := 1 + f.ew + f.pw

def fp64 : FFmt := ⟨11, 52, 1023, true, true, 0x7FEFFFFFFFFFFFFF, 0x7FF8000000000000⟩
def fp32 : FFmt := ⟨8, 23, 127, true, true, 0x7F7FFFFF, 0x7FC00000⟩
def bf16 : FFmt := ⟨8, 7, 127, true, true, 0x7F7F, 0x7FC0⟩
def fp16 : FFmt := ⟨5, 10, 15, true, true, 0x7BFF, 0x7E00⟩
def e4m3 : FFmt := ⟨4, 3, 7, false, true, 0x7E, 0x7F⟩
def e5m2 : FFmt := ⟨5, 2, 15, true, true, 0x7B, 0x7E⟩
def e3m2 : FFmt := ⟨3, 2, 3, false, false, 0x1F, 0⟩
def e2m3 : FFmt := ⟨2, 3, 1, false, false, 0x1F, 0⟩
def e2m1 : FFmt := ⟨2, 1, 1, false, false, 0x7, 0⟩

/-- The format of an element type; integer types have none. -/
def ETy.fmt : ETy → Option FFmt
  | .bf16x4 => some bf16 | .f16x4 => some fp16 | .f32x2 => some fp32 | .f64 => some fp64
  | .e4m3x8 => some e4m3 | .e5m2x8 => some e5m2 | .e2m1x16 => some e2m1
  | _ => none

/-- The format of a form-F type. -/
def FTy.fmt : FTy → FFmt
  | .bf16x4 => bf16 | .f16x4 => fp16 | .f32x2 => fp32 | .f64 => fp64

/-- The two arithmetic formats that flush (R71). -/
def FTy.flushes : FTy → Bool
  | .bf16x4 | .f16x4 => true
  | _ => false

/-- A value: NaN, an infinity, or (-1)^neg · m · 2^e. -/
inductive FVal where
  | nan
  | inf (neg : Bool)
  | fin (neg : Bool) (m : Nat) (e : Int)
  deriving DecidableEq, Repr

/-- The sign bit of an encoding. -/
def FFmt.sign (f : FFmt) (x : Nat) : Bool := x / 2 ^ (f.ew + f.pw) % 2 = 1

/-- The value of an encoding (R60, R61). -/
def FFmt.value (f : FFmt) (x : Nat) : FVal :=
  let neg := f.sign x
  let e := x / 2 ^ f.pw % 2 ^ f.ew
  let m := x % 2 ^ f.pw
  if e = 2 ^ f.ew - 1 && f.hasInf then (if m = 0 then .inf neg else .nan)
  else if e = 2 ^ f.ew - 1 && f.hasNan && m = 2 ^ f.pw - 1 then .nan
  else if e = 0 then .fin neg m (1 - (f.bias : Int) - f.pw)
  else .fin neg (2 ^ f.pw + m) ((e : Int) - f.bias - f.pw)

/-- A subnormal encoding. -/
def FFmt.subnormal (f : FFmt) (x : Nat) : Bool := x / 2 ^ f.pw % 2 ^ f.ew = 0 && x % 2 ^ f.pw ≠ 0

/-- The encoding of a zero. -/
def FFmt.zero (f : FFmt) (neg : Bool) : Nat := if neg then 2 ^ (f.ew + f.pw) else 0
/-- The encoding of an infinity. -/
def FFmt.inf (f : FFmt) (neg : Bool) : Nat := f.zero neg + (2 ^ f.ew - 1) * 2 ^ f.pw
/-- The encoding of the greatest finite value with a sign. -/
def FFmt.maxFin (f : FFmt) (neg : Bool) : Nat := f.zero neg + f.maxB

/-- An operand flushed when it is a subnormal of a flushing format (R71). -/
def FFmt.operand (f : FFmt) (flush : Bool) (x : Nat) : FVal × Flags :=
  if flush && f.subnormal x then (.fin (f.sign x) 0 0, fFlush) else (f.value x, 0)

/-- A rounding decision: a mode with its 32-bit draw, a neighbour chosen by the hardware (faithful results), or an
offset in units of the last place (results within 2 ulp). -/
inductive Dec where
  | mode (rm : RMode) (r : Nat)
  | pick (up : Bool)
  | near (k : Nat)
  deriving DecidableEq, Repr

/-- The overflow result of Table 6.6. -/
def FFmt.overflow (f : FFmt) (neg : Bool) (rm : RMode) : Nat :=
  if !f.hasInf then f.maxFin neg
  else match rm with
    | .rz => f.maxFin neg
    | .ru => if neg then f.maxFin neg else f.inf neg
    | .rd => if neg then f.inf neg else f.maxFin neg
    | _ => f.inf neg

/-- The mode an overflow is judged in. -/
def Dec.rm : Dec → RMode
  | .mode rm _ => rm
  | _ => .rne

/-- How many units of the last place to add to the truncated significand `n`, given the discarded part `rem` of
`2^sh` and whether more lies below (Table 6.5, R67, R175, R87). -/
def Dec.inc (d : Dec) (neg : Bool) (n rem sh : Nat) (sticky : Bool) : Int :=
  if rem = 0 && !sticky then
    match d with
    | .near k => (k : Int) - 2
    | _ => 0
  else
    match d with
    | .mode .rne _ =>
      if 2 * rem < 2 ^ sh then 0
      else if 2 * rem = 2 ^ sh && !sticky then (if n % 2 = 0 then 0 else 1)
      else 1
    | .mode .rna _ => if 2 * rem < 2 ^ sh then 0 else 1
    | .mode .rz _ => 0
    | .mode .ru _ => if neg then 0 else 1
    | .mode .rd _ => if neg then 1 else 0
    | .mode .rs r => if r < rem * 2 ^ 32 / 2 ^ sh then 1 else 0
    | .pick up => if up then 1 else 0
    | .near k => (k : Int) - 1

/-- The encoding of `n · 2^q` where it is representable. -/
def FFmt.encode (f : FFmt) (neg : Bool) (n : Nat) (q : Int) : Nat :=
  if n = 0 then f.zero neg
  else
    -- bring the significand to at most pw + 1 bits; trailing zeros only are dropped
    let top := Nat.log2 n
    let (n, q) := if f.pw < top then (n / 2 ^ (top - f.pw), q + (top - f.pw : Nat)) else (n, q)
    let emin : Int := 1 - (f.bias : Int) - f.pw
    -- widen the significand down to the format's grid
    let lift := Nat.min (f.pw - Nat.log2 n) (q - emin).toNat
    let n := n * 2 ^ lift
    let q := q - lift
    if n < 2 ^ f.pw then f.zero neg + n
    else f.zero neg + (q - emin + 1).toNat * 2 ^ f.pw + (n - 2 ^ f.pw)

/-- Whether `n · 2^q` exceeds the greatest finite value. -/
def FFmt.exceeds (f : FFmt) (n : Nat) (q : Int) : Bool :=
  match f.value f.maxB with
  | .fin _ m e => if e ≤ q then m < n * 2 ^ (q - e).toNat else m * 2 ^ (e - q).toNat < n
  | _ => false

/-- Whether `n · 2^q` lies below the least normal value. -/
def FFmt.tiny (f : FFmt) (n : Nat) (q : Int) : Bool :=
  let emin : Int := 1 - (f.bias : Int)
  if emin ≤ q then n = 0 else n < 2 ^ (emin - q).toNat

/-- Round a magnitude `m · 2^e`, with more below it when `sticky`, to a format (R65-R72). `flush` is R71's treatment of
results: rounding with unbounded exponent, then a flush below the least normal value. -/
def FFmt.round (f : FFmt) (flush : Bool) (d : Dec) (neg : Bool) (m : Nat) (e : Int) (sticky : Bool) : Nat × Flags :=
  if m = 0 && !sticky then (f.zero neg, 0)
  else
    let q0 := e + (Nat.log2 m : Nat) - f.pw
    let q := if flush then q0 else max q0 (1 - (f.bias : Int) - f.pw)
    let sh := (q - e).toNat
    let n := if e ≤ q then m / 2 ^ sh else m * 2 ^ (e - q).toNat
    let rem := if e ≤ q then m % 2 ^ sh else 0
    let inc := d.inc neg n rem sh sticky
    let n' := ((n : Int) + inc).toNat
    let inexact := rem ≠ 0 || sticky || inc ≠ 0
    if f.exceeds n' q then (f.overflow neg d.rm, fOverflow ||| fInexact)
    else if flush && f.tiny n' q && n' ≠ 0 then (f.zero neg, fFlush ||| fUnderflow ||| fInexact)
    else
      (f.encode neg n' q,
        flagIf inexact fInexact ||| flagIf (inexact && n' ≠ 0 && f.tiny n' q) fUnderflow)

/-! ## Exact sums and products -/

/-- A signed dyadic m · 2^e. -/
structure Dy where
  m : Int
  e : Int
  deriving DecidableEq, Repr

def Dy.add (a b : Dy) : Dy :=
  if a.e ≤ b.e then ⟨a.m + b.m * (2 ^ (b.e - a.e).toNat : Nat), a.e⟩
  else ⟨a.m * (2 ^ (a.e - b.e).toNat : Nat) + b.m, b.e⟩

def Dy.mul (a b : Dy) : Dy := ⟨a.m * b.m, a.e + b.e⟩

def Dy.ofFin (neg : Bool) (m : Nat) (e : Int) : Dy := ⟨if neg then -(m : Int) else m, e⟩

/-- Compare two dyadics: whether the first is less. -/
def Dy.lt (a b : Dy) : Bool := (Dy.add a ⟨-b.m, b.e⟩).m < 0

/-- A term of an exact sum: a value and the sign its zero carries. -/
inductive Term1 where
  | nan
  | inf (neg : Bool)
  | fin (neg : Bool) (v : Dy)
  deriving DecidableEq, Repr

def FVal.term : FVal → Term1
  | .nan => .nan
  | .inf n => .inf n
  | .fin n m e => .fin n (.ofFin n m e)

/-- The exact product of two values; the flag says that a NaN was created (R62). -/
def FVal.mul (a b : FVal) : Term1 × Bool :=
  match a, b with
  | .nan, _ => (.nan, false)
  | _, .nan => (.nan, false)
  | .inf s, .inf t => (.inf (s != t), false)
  | .inf s, .fin t m _ => if m = 0 then (.nan, true) else (.inf (s != t), false)
  | .fin s m _, .inf t => if m = 0 then (.nan, true) else (.inf (s != t), false)
  | .fin s m e, .fin t n g => (.fin (s != t) (.ofFin (s != t) (m * n) (e + g)), false)

def Term1.isNan : Term1 → Bool
  | .nan => true
  | _ => false
def Term1.infSign : Term1 → Option Bool
  | .inf n => some n
  | _ => none
def Term1.dy : Term1 → Dy
  | .fin _ v => v
  | _ => ⟨0, 0⟩
def Term1.neg1 : Term1 → Bool
  | .fin n _ => n
  | .inf n => n
  | .nan => false

/-- Round the exact sum of terms once (R62, R63, R65-R71). `created` says that a factor already created a NaN and no
input was NaN. -/
def FFmt.sum (f : FFmt) (flush : Bool) (rm : RMode) (r : Nat) (created : Bool) (ts : List Term1) : Nat × Flags :=
  if ts.any Term1.isNan then (f.nan, flagIf created fInvalid)
  else
    let infs := ts.filterMap Term1.infSign
    match infs with
    | s :: rest => if rest.any (· != s) then (f.nan, fInvalid) else (f.inf s, 0)
    | [] =>
      let v := ts.foldl (fun acc t => Dy.add acc t.dy) ⟨0, 0⟩
      if v.m = 0 then
        let neg := if ts.all (fun t => t.neg1 && t.dy.m = 0) then true
          else if ts.all (fun t => !t.neg1 && t.dy.m = 0) then false
          else decide (rm = .rd)
        (f.zero neg, 0)
      else f.round flush (.mode rm r) (decide (v.m < 0)) v.m.natAbs v.e false

/-- Negate a value. -/
def FVal.negate : FVal → FVal
  | .nan => .nan
  | .inf n => .inf (!n)
  | .fin n m e => .fin (!n) m e

/-- Round one value into a format: an infinity into a format without one gives the greatest finite value and OVERFLOW
(R66), a NaN the canonical NaN, or +0 with INVALID where there is none (R73). -/
def FFmt.ofVal (f : FFmt) (flush : Bool) (d : Dec) (v : FVal) : Nat × Flags :=
  match v with
  | .nan => if f.hasNan then (f.nan, 0) else (0, fInvalid)
  | .inf n => if f.hasInf then (f.inf n, 0) else (f.maxFin n, fOverflow)
  | .fin n m e => f.round flush d n m e false

/-! ## Order of values (R172) -/

/-- Less-than with -0 below +0, both not NaN. -/
def FVal.ltZ (a b : FVal) : Bool :=
  match a, b with
  | .inf true, .inf true => false
  | .inf true, _ => true
  | _, .inf true => false
  | .inf false, _ => false
  | _, .inf false => true
  | .fin s m e, .fin t n g =>
    if m = 0 && n = 0 then s && !t else Dy.lt (.ofFin s m e) (.ofFin t n g)
  | _, _ => false

/-- Less-than with -0 equal to +0, both not NaN (FCMP). -/
def FVal.lt (a b : FVal) : Bool :=
  match a, b with
  | .fin s m e, .fin t n g => Dy.lt (.ofFin s m e) (.ofFin t n g)
  | _, _ => FVal.ltZ a b

/-- FMIN and FMAX (R172): the encodings of the results come from the operands after a flush. -/
def FFmt.minmax (f : FFmt) (flush : Bool) (isMax : Bool) (x y : Nat) : Nat × Flags :=
  let (a, fa) := f.operand flush x
  let (b, fb) := f.operand flush y
  let ex := if fa ≠ 0 then f.zero (f.sign x) else x
  let ey := if fb ≠ 0 then f.zero (f.sign y) else y
  let fl := fa ||| fb
  match a, b with
  | .nan, .nan => (f.nan, fl)
  | .nan, _ => (ey, fl)
  | _, .nan => (ex, fl)
  | _, _ => if (if isMax then FVal.ltZ a b else FVal.ltZ b a) then (ey, fl) else (ex, fl)

/-! ## Quotients and roots with a sticky bit -/

/-- Bits of precision kept below the leading bit of a quotient or root: enough for any significand and the 32 bits of
R67. -/
def guardBits : Nat := 160

/-- The magnitude of m·2^e divided by n·2^g, n ≠ 0: a truncated significand, exponent and sticky bit. -/
def divMag (m : Nat) (e : Int) (n : Nat) (g : Int) : Nat × Int × Bool :=
  let sh := guardBits + Nat.log2 n + 1
  let q := m * 2 ^ sh / n
  (q, e - g - sh, m * 2 ^ sh % n ≠ 0)

/-- Integer square root by bits: `k` bits of the root remain to be decided. -/
def isqrtGo (n : Nat) : Nat → Nat → Nat
  | 0, r => r
  | k + 1, r => isqrtGo n k (if (r + 2 ^ k) * (r + 2 ^ k) ≤ n then r + 2 ^ k else r)

def isqrt (n : Nat) : Nat := isqrtGo n (Nat.log2 n / 2 + 1) 0

/-- The magnitude of the square root of m·2^e. -/
def sqrtMag (m : Nat) (e : Int) : Nat × Int × Bool :=
  let sh := 2 * guardBits + (if e % 2 = 0 then 0 else 1)
  let x := m * 2 ^ sh
  let r := isqrt x
  (r, (e - sh) / 2, r * r ≠ x)

/-! ## Elementary functions by truncated series

Each returns a truncated magnitude with a sticky bit: the exact value is irrational, so it never lies on a grid point.
-/

/-- Fixed-point fraction bits. -/
def fixP : Nat := 384

/-- ln 2 and π in units of 2^-384, truncated. -/
def fixLn2 : Nat :=
  0xb17217f7d1cf79abc9e3b39803f2f6af40f343267298b62d8a0d175b8baafa2be7b876206debac98559552fb4afa1b10
def fixPi : Nat :=
  0x3243f6a8885a308d313198a2e03707344a4093822299f31d0082efa98ec4e6c89452821e638d01377be5466cf34e90c6c

/-- Terms y^k/k! of the exponential series, in units of 2^-fixP. -/
def expGo (y : Nat) : Nat → Nat → Nat → Nat → Nat
  | 0, _, _, acc => acc
  | n + 1, k, t, acc =>
    let t' := t * y / 2 ^ fixP / k
    expGo y n (k + 1) t' (acc + t')

/-- e^y for 0 ≤ y < 1 in units of 2^-fixP. -/
def fixExp (y : Nat) : Nat := expGo y 80 1 (2 ^ fixP) (2 ^ fixP)

/-- 2^(m·2^e): a significand in units of 2^-fixP and an integral exponent. -/
def exp2Mag (neg : Bool) (m : Nat) (e : Int) : Nat × Int :=
  -- x in units of 2^-fixP, rounded down
  let sh := (-(e + fixP)).toNat
  let ax : Nat := if 0 ≤ e + fixP then m * 2 ^ (e + fixP).toNat else m / 2 ^ sh
  let up : Nat := if neg && e + fixP < 0 && m % 2 ^ sh ≠ 0 then 1 else 0
  let x : Int := if neg then -((ax + up : Nat) : Int) else ax
  let k := x / (2 ^ fixP : Nat)
  let fr := (x % (2 ^ fixP : Nat)).toNat
  (fixExp (fr * fixLn2 / 2 ^ fixP), k - fixP)

/-- Terms z^(2k+1)/(2k+1) of the inverse hyperbolic tangent. -/
def atanhGo (z2 : Nat) : Nat → Nat → Nat → Nat → Nat
  | 0, _, _, acc => acc
  | n + 1, k, t, acc => atanhGo z2 n (k + 2) (t * z2 / 2 ^ fixP) (acc + t / k)

/-- log2 of m·2^e, m ≠ 0, in units of 2^-fixP, signed. -/
def log2Fix (m : Nat) (e : Int) : Int :=
  let k := Nat.log2 m
  let f : Nat := if k ≤ fixP then m * 2 ^ (fixP - k) else m / 2 ^ (k - fixP)
  let z := (f - 2 ^ fixP) * 2 ^ fixP / (f + 2 ^ fixP)
  let ln := 2 * atanhGo (z * z / 2 ^ fixP) 125 1 z 0
  (e + k) * (2 ^ fixP : Nat) + (ln * 2 ^ fixP / fixLn2 : Nat)

/-- Alternating terms of the sine and cosine series. -/
def trigGo (y2 : Nat) : Nat → Nat → Int → Int → Int
  | 0, _, _, acc => acc
  | n + 1, k, t, acc =>
    let t' := -(t * y2 / (2 ^ fixP : Nat) / (k * (k + 1) : Nat))
    trigGo y2 n (k + 2) t' (acc + t')

/-- sin y and cos y for 0 ≤ y < 2π in units of 2^-fixP. -/
def fixSin (y : Nat) : Int := trigGo (y * y / 2 ^ fixP) 90 2 y y
def fixCos (y : Nat) : Int := trigGo (y * y / 2 ^ fixP) 90 1 (2 ^ fixP : Nat) (2 ^ fixP : Nat)

/-- Whether a magnitude is small enough for the first terms of a series to decide the result. -/
def smallArg (m : Nat) (e : Int) : Bool := (Nat.log2 m : Int) + e < -64

/-- x - x³/d for a small m·2^e: significand and exponent with 200 more bits than the operand. -/
def smallCubic (m : Nat) (e : Int) (d : Nat) : Nat × Int :=
  -- exact x·2^200 less x³/d, in units of 2^(e - 200)
  let cube := m * m * m
  let sh := 200 + 2 * e
  let t := if 0 ≤ sh then cube * 2 ^ sh.toNat / d else cube / 2 ^ (-sh).toNat / d
  (m * 2 ^ 200 - t - 1, e - 200)

/-- sin or cos of (-1)^neg · m·2^e, m ≠ 0, |x| < 2^20: sign, significand and exponent. -/
def trigMag (isCos : Bool) (neg : Bool) (m : Nat) (e : Int) : Bool × Nat × Int :=
  if smallArg m e then
    if isCos then (false, 2 ^ fixP - 1, -(fixP : Int))
    else let (n, g) := smallCubic m e 6; (neg, n, g)
  else
    let ax : Nat := if 0 ≤ e + fixP then m * 2 ^ (e + fixP).toNat else m / 2 ^ (-(e + fixP)).toNat
    let r := ax % (2 * fixPi)
    let v := if isCos then fixCos r else fixSin r
    ((decide (v < 0)) != (!isCos && neg), v.natAbs, -(fixP : Int))

/-- tanh of m·2^e, m ≠ 0: significand and exponent. -/
def tanhMag (m : Nat) (e : Int) : Nat × Int :=
  if smallArg m e then smallCubic m e 3
  else if 9 ≤ (Nat.log2 m : Int) + e then (2 ^ fixP - 1, -(fixP : Int))
  else
    -- e^(2x) = 2^(2x / ln 2)
    let ax : Nat := if 0 ≤ e + fixP then m * 2 ^ (e + fixP).toNat else m / 2 ^ (-(e + fixP)).toNat
    let y := 2 * ax * 2 ^ fixP / fixLn2
    let k := y / 2 ^ fixP
    let f := fixExp (y % 2 ^ fixP * fixLn2 / 2 ^ fixP)
    let ex := f * 2 ^ k
    ((ex - 2 ^ fixP) * 2 ^ fixP / (ex + 2 ^ fixP), -(fixP : Int))

/-! ## Conversion (R72-R74) -/

/-- A floating-point value rounded to an integer in a mode: the integer and whether it changed. -/
def roundInt (rm : RMode) (r : Nat) (neg : Bool) (m : Nat) (e : Int) : Int × Bool :=
  let n := if 0 ≤ e then m * 2 ^ e.toNat else m / 2 ^ (-e).toNat
  let rem := if 0 ≤ e then 0 else m % 2 ^ (-e).toNat
  let n' := (n : Int) + Dec.inc (.mode rm r) neg n rem (-e).toNat false
  (if neg then -n' else n', rem ≠ 0)

/-- Floating point to integer: rounds in the mode, where a changed value is INEXACT (R69), then saturates, which is INVALID;
NaN gives 0 (R74). -/
def floatToInt (rm : RMode) (r : Nat) (signed : Bool) (w : Nat) (v : FVal) : Nat × Flags :=
  match v with
  | .nan => (0, fInvalid)
  | .inf n => (ofInt w (if n then intLo signed w else intHi signed w), fInvalid)
  | .fin n m e =>
    let (x, inexact) := roundInt rm r n m e
    let fl := flagIf inexact fInexact
    if x < intLo signed w then (ofInt w (intLo signed w), fInvalid ||| fl)
    else if intHi signed w < x then (ofInt w (intHi signed w), fInvalid ||| fl)
    else (ofInt w x, fl)

/-- xorshift64 (R68). -/
def rndStep (s : Word) : Word :=
  let a := s ^^^ (s <<< 13)
  let b := a ^^^ (a >>> 7)
  b ^^^ (b <<< 17)

/-! ## Atomics (R115, R210) -/

/-- The format of a floating-point atomic type. -/
def ATy.fmt : ATy → Option FFmt
  | .f32 => some fp32 | .f64 => some fp64 | .bf16 => some bf16 | .f16 => some fp16
  | _ => none

/-- The signed integer types. -/
def ATy.signed : ATy → Bool
  | .i32 | .i64 => true
  | _ => false

/-- The new value of an atomic from the old value, C and D, with its flags (R210). -/
def atomNew (a : ATy) (op : AOp) (old c d : Nat) : Nat × Flags :=
  let w := 8 * a.bytes
  let c := c % 2 ^ w
  let d := d % 2 ^ w
  match op with
  | .exch => (c, 0)
  | .cas => (if old = c then d else old, 0)
  | .and => (Nat.land old c, 0)
  | .or => (Nat.lor old c, 0)
  | .xor => (Nat.xor old c, 0)
  | .add | .min | .max =>
    match ATy.fmt a with
    | none =>
      let i (v : Nat) : Int := toInt (ATy.signed a) w v
      match op with
      | .add => ((old + c) % 2 ^ w, 0)
      | .min => (if i old ≤ i c then old else c, 0)
      | _ => (if i old ≤ i c then c else old, 0)
    | some f =>
      let fl := a = .bf16 || a = .f16
      match op with
      | .add =>
        let x := f.operand fl old
        let y := f.operand fl c
        let r := f.sum fl .rne 0 false [x.1.term, y.1.term]
        (r.1, r.2 ||| x.2 ||| y.2)
      | .min => f.minmax fl false old c
      | _ => f.minmax fl true old c

end Sys2Proof.Machine
end

