-- ==== Sys2Proof/Machine/Ops.lean ====
section
/-! DEFINITION. Ops.lean: the named operations over memory, caches, translation, registers, the fault queue and traps. -/

namespace Sys2Proof.Machine

/-! ## Places (R15-R17, R26, R91-R93) -/

/-- The column, row and dome of a stop (R16, R17). -/
def colOf (n : Nat) : Nat := n % 12
def rowOf (n : Nat) : Nat := n / 12
def domeOf (n : Nat) : Nat := 3 * (rowOf n / 4) + colOf n / 4

/-- A tower is in service (R352). -/
def State.towerOn (s : State) (d : Nat) : Bool := s.ident.towers.getLsbD d
/-- A vault is in service: its tower is (R352). -/
def State.vaultOn (s : State) (v : Nat) : Bool := v < 144 && s.towerOn (domeOf v)
/-- A core is in service: not retired and its tower in service (R351, R352, R358). -/
def State.coreOn (s : State) (c : Nat) : Bool := c < 144 && s.towerOn (domeOf c) && !s.retired.contains c
/-- The in-service vaults in ascending order (R92). -/
def State.vaults (s : State) : List Nat := (List.range 144).filter s.vaultOn

/-- Memory bytes of the module (R342): 96 GiB a tower. -/
def State.memBytes (s : State) : Nat := s.vaults.length * Config.vaultBytes

/-- The place of interleaved chunk `k` at offset `coff` (R92), as a direct physical address; `none` where the chunk
does not exist. -/
def State.chunkPlace (s : State) (k coff : Nat) : Option Nat :=
  let l := s.vaults
  let n := l.length
  if n = 0 then none
  else if n * s.ctl.ilsize.toNat / 4096 ≤ k then none
  else
    let q := k / n
    match l[(k % n + 37 * q) % n]? with
    | some v => some (v * 2 ^ 33 + (s.ctl.ilbase.toNat + 4096 * q + coff))
    | none => none

/-- Fields of a physical address (Table 8.1). -/
def paApt (pa : Nat) : Nat := pa / 2 ^ 42 % 1024
def paIl (pa : Nat) : Bool := pa / 2 ^ 41 % 2 = 1
def paVault (pa : Nat) : Nat := pa / 2 ^ 33 % 256
def paOff (pa : Nat) : Nat := pa % 2 ^ 33

/-- The key under which a physical byte is held: interleaved addresses name the place they lie at, and both host apertures
the one host memory, so that aliases of one byte are one byte (R92, R104, R345). -/
def State.key (s : State) (pa : Nat) : Option Nat :=
  if paApt pa = 0 && paIl pa then s.chunkPlace (pa % 2 ^ 41 / 4096) (pa % 4096)
  else if paApt pa = 2 then some (2 ^ 42 + pa % 2 ^ 42)
  else some pa

/-- A direct local address lies in an in-service vault (R95). A value above the 52 bits of an address names no byte. -/
def State.localOk (s : State) (pa n : Nat) : Bool :=
  decide (pa < 2 ^ 52) && paApt pa = 0 && !paIl pa && s.vaultOn (paVault pa) && paOff pa + n ≤ Config.vaultBytes

/-- The home slice of a byte (R93, R345). -/
def State.homeSlice (s : State) (key : Nat) : Nat :=
  if paApt key = 0 then paVault key
  else
    let l := s.vaults
    match l[key % 2 ^ 42 / 4096 % (if l.length = 0 then 1 else l.length)]? with
    | some v => v
    | none => 0

/-- The number of slots of a ring whose register holds its logarithm in bits [3:0]; a field of 0 denotes 16, the one value of
the range 4 or 6 to 16 that four bits do not hold (log entry 3). -/
def ringLen (v : Word) : Nat := if v.toNat % 16 = 0 then 2 ^ 16 else 2 ^ (v.toNat % 16)

/-! ## Warps, cores, domes, blocks -/

/-- The key of a warp slot (R152). -/
def warpKey (core lane slot : Nat) : Nat := 256 * core + 4 * lane + slot
def keyCore (k : Nat) : Nat := k / 256
def keyLane (k : Nat) : Nat := k / 4 % 64
def keySlot (k : Nat) : Nat := k % 4

def State.warpAt (s : State) (k : Nat) : Option Warp := Sparse.get none s.warps k
def State.putWarp (s : State) (k : Nat) (w : Warp) : State := { s with warps := Sparse.put s.warps k (some w) }
/-- The key of a reference to a split. -/
def refKey (r : Ref) : Nat := warpKey r.core r.lane r.slot

/-- Answers of peers that a test of their asker selects will not be taken up. -/
def State.forgetAsker (s : State) (f : Turn → Bool) : State :=
  { s with
    bexDone := s.bexDone.filter (fun x => !f x.who.1)
    bexOut := s.bexOut.map (fun r => match r.who with
      | some q => if f q.1 then { r with who := none } else r
      | none => r) }

/-- A turn of a split of a warp. -/
def Turn.ofWarp (k : Nat) (t : Turn) : Bool := match t with | .resume r => refKey r = k | _ => false

/-- A warp leaves its slot; what its words asked peers for, and accesses of them still under way, go with it. -/
def State.dropWarp (s : State) (k : Nat) : State :=
  { s.forgetAsker (Turn.ofWarp k) with warps := Sparse.erase s.warps k, late := s.late.filter (fun y => y.key ≠ k) }
def State.blockAt (s : State) (b : Nat) : Option Block := Sparse.get none s.blocks b
def State.putBlock (s : State) (b : Nat) (x : Block) : State := { s with blocks := Sparse.put s.blocks b (some x) }
def State.dropBlock (s : State) (b : Nat) : State := { s with blocks := Sparse.erase s.blocks b }
def State.launchAt (s : State) (l : Nat) : Option Launch := Sparse.get none s.launches l
def State.putLaunch (s : State) (l : Nat) (x : Launch) : State :=
  { s with launches := Sparse.put s.launches l (some x) }
def State.dropLaunch (s : State) (l : Nat) : State := { s with launches := Sparse.erase s.launches l }
def State.coreAt (s : State) (c : Nat) : Core := Sparse.get {} s.cores c
def State.putCore (s : State) (c : Nat) (x : Core) : State := { s with cores := Sparse.put s.cores c x }
def State.domeAt (s : State) (d : Nat) : Dome := Sparse.get {} s.domes d
def State.putDome (s : State) (d : Nat) (x : Dome) : State := { s with domes := Sparse.put s.domes d x }

/-- A fresh name for a launch, a block, a command or a wait (the model's own). -/
def State.fresh (s : State) : Nat × State := (s.nextUid, { s with nextUid := s.nextUid + 1 })

/-- The resident warps of a block with their keys. -/
def State.blockWarps (s : State) (b : Nat) : List (Nat × Warp) :=
  s.warps.filterMap (fun e => match e.2 with | some w => if w.blk = b then some (e.1, w) else none | none => none)
/-- The resident blocks of a launch. -/
def State.launchBlocks (s : State) (l : Nat) : List (Nat × Block) :=
  s.blocks.filterMap (fun e => match e.2 with | some b => if b.launch = l then some (e.1, b) else none | none => none)
/-- The resident blocks of a core. -/
def State.coreBlocks (s : State) (c : Nat) : List (Nat × Block) :=
  s.blocks.filterMap (fun e => match e.2 with | some b => if b.core = c then some (e.1, b) else none | none => none)

/-- Change every resident warp of a core. -/
def State.mapCoreWarps (s : State) (c : Nat) (f : Warp → Warp) : State :=
  { s with warps := s.warps.map (fun e => if keyCore e.1 = c then (e.1, e.2.map f) else e) }

/-- Invalidate the hoisted-load entries of every warp of a core that a test selects (R202). -/
def State.dropHoists (s : State) (core : Nat) (f : Hoist → Bool) : State :=
  s.mapCoreWarps core (fun w => { w with hoist := w.hoist.filter (fun e =>
    match e.2 with
    | some h => !f h
    | none => false) })

/-- Whether a hoisted access covers a physical byte: its lines are kept as physical byte keys. -/
def Hoist.covers (h : Hoist) (key : Nat) : Bool := h.lines.contains key
/-- Whether a hoisted access lies on a physical line. -/
def Hoist.onLine (h : Hoist) (line : Nat) : Bool := h.lines.any (fun k => k / 64 = line)

/-- An engine's write ends every hoisted load that covers one of its lines (R202). -/
def State.endHoists (s : State) (lines : List Nat) : State :=
  { s with warps := s.warps.map (fun e => (e.1, e.2.map (fun w => { w with hoist := w.hoist.filter (fun h =>
      match h.2 with
      | some y => !lines.any y.onLine
      | none => false) }))) }

/-- Replace an element of a list of splits by its id. -/
def putSplit (l : List Split) (x : Split) : List Split := l.map (fun y => if y.id = x.id then x else y)
def Warp.splitAt (w : Warp) (i : Nat) : Option Split := w.splits.find? (fun x => x.id = i)
def Warp.putSplit (w : Warp) (x : Split) : Warp := { w with splits := Sys2Proof.Machine.putSplit w.splits x }

/-- A split's PC: slot `idx` of its block (R143). -/
def Split.pc (p : Split) : Word := p.hdr + BitVec.ofNat 64 (16 * p.idx)

/-! ## Registers (R133, R135, R150) -/

def Warp.dGet (w : Warp) (i t : Nat) : Word := Sparse.get 0 w.d (32 * i + t)
def Warp.dSet (w : Warp) (i t : Nat) (v : Word) : Warp := { w with d := Sparse.set 0 w.d (32 * i + t) v }
def Warp.wGet (w : Warp) (i : Nat) : Word := Sparse.get 0 w.w i
def Warp.wSet (w : Warp) (i : Nat) (v : Word) : Warp := { w with w := Sparse.set 0 w.w i v }
def Warp.nGet (w : Warp) (i : Nat) : BitVec 32 := Sparse.get 0 w.n i
def Warp.nSet (w : Warp) (i : Nat) (v : BitVec 32) : Warp := { w with n := Sparse.set 0 w.n i v }
def Warp.mGet (w : Warp) (i : Nat) : Word := Sparse.get 0 w.m i
def Warp.mSet (w : Warp) (i : Nat) (v : Word) : Warp := { w with m := Sparse.set 0 w.m i v }
/-- `p7` reads true (R138). -/
def Warp.pGet (w : Warp) (i t : Nat) : Bool := i = 7 || (Sparse.get 0 w.p i).getLsbD t
/-- A write to `p7` is discarded (R135). -/
def Warp.pSet (w : Warp) (i t : Nat) (b : Bool) : Warp :=
  if i = 7 then w
  else
    let m : Mask := Sparse.get 0 w.p i
    let bitv : Mask := BitVec.ofNat 32 (2 ^ t)
    { w with p := Sparse.set 0 w.p i (if b then m ||| bitv else m &&& ~~~ bitv) }
/-- `q3` reads true (R138). -/
def Warp.qGet (w : Warp) (i : Nat) : Bool := i = 3 || w.q.getLsbD i
/-- A write to `q3` is discarded (R135). -/
def Warp.qSet (w : Warp) (i : Nat) (b : Bool) : Warp :=
  if i = 3 then w
  else
    let bitv : BitVec 4 := BitVec.ofNat 4 (2 ^ i)
    { w with q := if b then w.q ||| bitv else w.q &&& ~~~ bitv }
def Warp.rndOf (w : Warp) (t : Nat) : Word := Sparse.get 0 w.rnd t
/-- A write of zero to `$rnd` stores the seed constant (R68). -/
def Warp.rndSet (w : Warp) (t : Nat) (v : Word) : Warp :=
  { w with rnd := Sparse.put w.rnd t (if v = 0 then Config.rndSeed else v) }
def Warp.weightOf (w : Warp) (t : Nat) : Word := Sparse.get 0 w.weight t
def Warp.weightSet (w : Warp) (t : Nat) (v : Word) : Warp := { w with weight := Sparse.set 0 w.weight t v }

/-- Names of registers for damage: d and p registers by thread, and the per-warp ones (R304). -/
def regD (i t : Nat) : Nat := 32 * i + t
def regW (i : Nat) : Nat := 2048 + i
def regQ (i : Nat) : Nat := 2088 + i
def regN (i : Nat) : Nat := 2092 + i
def regM (i : Nat) : Nat := 2096 + i
def regP (i t : Nat) : Nat := 4096 + 32 * i + t

/-- A written register is no longer damaged (R304). -/
def Warp.mend (w : Warp) (r : Nat) : Warp := { w with damaged := w.damaged.filter (· ≠ r) }

/-! ## Home memory (R106, R109, R117) -/

/-- What a byte of memory that nothing has written reads as (log entry 4). -/
def memUnlisted : Byte := 0

/-- A byte at home. -/
def readMem (m : List Host.Cell) (a : Nat) : Byte := Sparse.get memUnlisted m a
/-- Write a byte at home, keeping the canonical form. -/
def writeMem (m : List Host.Cell) (a : Nat) (v : Byte) : List Host.Cell := Sparse.set memUnlisted m a v

/-- `n` bytes at home from a key. -/
def readBytes (m : List Host.Cell) (a n : Nat) : List Byte := (List.range n).map (fun i => readMem m (a + i))

/-- A little-endian number (R7). -/
def leNat (bs : List Byte) : Nat := bs.foldr (fun b acc => b.toNat + 256 * acc) 0
/-- The `n` bytes of a number, little-endian (R7). -/
def leBytes (n : Nat) (v : Nat) : List Byte := (List.range n).map (fun i => BitVec.ofNat 8 (v / 256 ^ i))

/-! ## Uncompressed views (R105, Table 16.1) -/

/-- Element width in bits of a matrix format code (Table 6.9). -/
def mfBits (f : Nat) : Nat :=
  match f with
  | 0 | 1 => 16
  | 2 | 3 | 7 | 8 | 14 | 15 | 19 | 22 => 8
  | 4 | 5 | 16 | 17 => 6
  | 6 | 9 | 10 | 18 | 20 | 23 => 4
  | 11 | 12 | 21 => 2
  | 13 => 1
  | _ => 0

/-- The greatest Kw of a B format (R243, R244): 128 times the rate of its width class. -/
def mfMaxK (f : Nat) : Nat :=
  match f with
  | 0 | 1 => 128
  | 6 | 9 | 10 | 18 | 20 | 23 => 512
  | 11 | 12 | 13 | 21 => 1024
  | _ => if f < 24 then 256 else 0

/-- A format and Kw that R243 and R244 accept for B. -/
def mfKwOk (f kw : Nat) : Bool := f < 24 && 32 ≤ kw && kw % 32 = 0 && kw ≤ mfMaxK f

/-- Bit `b` of a little-endian bit stream (R64) read by byte. -/
def streamBits (rd : Nat → Nat) (b w : Nat) : Nat :=
  (List.range w).foldl (fun acc i => acc + (rd ((b + i) / 8) / 2 ^ ((b + i) % 8) % 2) * 2 ^ i) 0

/-- Element (k, n) of a compressed tile read by byte offset (Table 16.1); positions not stored are zero. A nibble of an S24 tile
whose two indexes are equal, which METADATA refuses only in a WLD (R242), names one element twice: behind an uncompressed
view the first of the two stored values stands there (DESIGN CHOICE, log entry 117). -/
def tileElem (rd : Nat → Nat) (fmt ck kw k n : Nat) : Nat :=
  let b := mfBits fmt
  match ck with
  | 0 => streamBits rd (b * (256 * k + n)) b
  | 1 =>
    let j := k / 4
    let nib := rd (kw / 2 * 32 * b + (256 * j + n) / 2) / 16 ^ (n % 2) % 16
    let i0 := nib % 4
    let i1 := nib / 4
    if k % 4 = i0 then streamBits rd (b * (256 * (2 * j) + n)) b
    else if k % 4 = i1 then streamBits rd (b * (256 * (2 * j + 1) + n)) b
    else 0
  | _ =>
    let kb := k / 16
    let nb := n / 16
    let idx := 16 * kb + nb
    if rd (idx / 8) / 2 ^ (idx % 8) % 2 = 1 then
      let before := (List.range idx).foldl (fun acc i => acc + rd (i / 8) / 2 ^ (i % 8) % 2) 0
      let base := (kw + 511) / 512 * 64 + 32 * b * before
      streamBits rd (8 * base + b * (16 * (k % 16) + n % 16)) b
    else 0

/-- Bytes of a tile before its scale section (Table 16.1). -/
def tileBytes (rd : Nat → Nat) (fmt ck kw : Nat) : Nat :=
  let b := mfBits fmt
  match ck with
  | 0 => kw * 32 * b
  | 1 => kw / 2 * 32 * b + 32 * kw
  | _ => (kw + 511) / 512 * 64 + 32 * b *
      (List.range (kw / 16 * 16)).foldl (fun acc i => acc + rd (i / 8) / 2 ^ (i % 8) % 2) 0

/-- Bytes of a tile with its scale section (R242). -/
def tileSize (rd : Nat → Nat) (fmt ck kw : Nat) : Nat :=
  tileBytes rd fmt ck kw + (if isMX fmt then kw / 32 * 256 else 0)

/-- The view header of a compressed-view page is usable (R105). A `size` of 0 or above 65,536, which Table 8.11 does not
allow, counts as one that cannot be used (DESIGN CHOICE, log entry 86: R105's list does not name it). -/
def State.viewOk (s : State) (frame : Nat) : Bool :=
  let h := readBytes s.mem frame 64
  let size := leNat ((h.drop 4).take 4)
  h.getD 1 0 = 0 && (h.drop 8).all (· = 0) &&
  mfKwOk (h.getD 0 0).toNat (leNat ((h.drop 2).take 2)) && 1 ≤ size && size ≤ 65536 &&
  decide (paOff frame + 64 + size ≤ Config.vaultBytes)

/-- Byte `o` of the expansion of the tile behind a view page (R105). -/
def State.viewByte (s : State) (frame vkind o : Nat) : Byte :=
  let h := readBytes s.mem frame 64
  let fmt := (h.getD 0 0).toNat
  let kw := leNat ((h.drop 2).take 2)
  let b := mfBits fmt
  let rd (i : Nat) : Nat := (readMem s.mem (frame + 64 + i)).toNat
  if kw * 32 * b ≤ o then 0
  else
    BitVec.ofNat 8 ((List.range 8).foldl (fun acc i =>
      let pos := 8 * o + i
      let e := pos / b
      acc + tileElem rd fmt vkind kw (e / 256) (e % 256) / 2 ^ (pos % b) % 2 * 2 ^ i) 0)

/-- The frame behind a key of an uncompressed view. -/
def viewFrame (key : Nat) : Nat := key % 2 ^ 52 / 2 ^ 16 * 2 ^ 16

/-- The key of a byte of a peer's memory. -/
def peerKey (key : Nat) : Bool := 0x100 * 2 ^ 42 ≤ key && key < 2 ^ 52

/-- The key of a byte of host or peer memory. -/
def farKey (key : Nat) : Bool := 2 ^ 42 ≤ key && key < 2 ^ 52

/-- A peer's answer to the step that is being taken, to its read of an aligned 8-byte group (R346). -/
def State.peerWord (s : State) (a : Nat) : Option (Option Word) :=
  (s.bexDone.find? (fun x => x.addr = a && x.op = .read && x.who.1 = s.asker)).map (·.result)

/-- The value of a byte at its home slice: what a view line that a slice holds says, or the view's expansion (R105); for a
byte of host or peer memory what its proxy slice holds of it, or its true home (R345, R346). -/
def State.homeByte (s : State) (key : Nat) : Byte :=
  if 2 ^ 52 ≤ key then
    match Sparse.get [] s.views (key / 64) with
    | [] => s.viewByte (viewFrame key) (key / 2 ^ 52) (key % 2 ^ 16)
    | l => l.getD (key % 64) 0
  else if farKey key then
    match Sparse.get none s.proxy key with
    | some b => b
    | none =>
      if peerKey key then
        match s.peerWord (key / 8 * 8) with
        | some (some v) => BitVec.ofNat 8 (v.toNat / 256 ^ (key % 8))
        | _ => 0
      else
        match (Sparse.get [] s.hostClean (key / 64)).getD (key % 64) none with
        | some b => b
        | none => readMem s.mem key
  else readMem s.mem key

/-- `n` bytes at home from a key. -/
def State.homeBytes (s : State) (a n : Nat) : List Byte := (List.range n).map (fun i => s.homeByte (a + i))

/-- A slice holds a line of a view once its decompressor has made it (R105). -/
def State.fillView (s : State) (line : Nat) : State :=
  if 2 ^ 52 ≤ 64 * line && Sparse.get [] s.views line = [] then
    { s with views := Sparse.put s.views line (s.homeBytes (64 * line) 64) }
  else s

/-- An aligned 8-byte word at home. -/
def State.homeWord (s : State) (a : Nat) : Word := BitVec.ofNat 64 (leNat (s.homeBytes a 8))

/-- Whether a line holds an uncorrectable error: bytes of it not yet rewritten (R304). -/
def State.lineBad (s : State) (a : Nat) : Bool := Sparse.get [] s.bad (a / 64) ≠ []
/-- A byte written at home since the error no longer counts (R304). -/
def State.mendByte (s : State) (a : Nat) : State :=
  match Sparse.get [] s.bad (a / 64) with
  | [] => s
  | l => { s with bad := Sparse.set [] s.bad (a / 64) (l.filter (· ≠ a % 64)) }

/-- Compare two 64-bit values under a WAIT condition (R228). -/
def condHolds (c : Cond) (sgn : Bool) (x y : Word) : Bool :=
  match c with
  | .eq => x = y
  | .ne => x ≠ y
  | .lt => if sgn then x.slt y else x.ult y
  | .le => if sgn then x.sle y else x.ule y
  | .gt => if sgn then y.slt x else y.ult x
  | .ge => if sgn then y.sle x else y.ule x

/-- Evaluate one WAIT against a word that has just been written (R126): the threads whose condition now holds are
satisfied. Under `.all` an entry all of whose threads are satisfied fires and is freed, and the last of them decides MET.
Under `.any` the first firing decides MET and frees the WAIT's entries at its slice; until the WAIT completes, entries at
other slices may still fire (R229, Table 8.8). -/
def Wait.evaluate (x : Wait) (a : Nat) (v : Word) : Wait :=
  let hit := Mask.ofPred (fun t => !x.sat.has t && x.ents.any (fun e => e.addr = a && e.threads.has t) &&
    condHolds x.cond x.sgn v (x.vals.getD t 0))
  if hit = 0 then x
  else
    let sat := x.sat ||| hit
    if x.any then
      let fired := (x.ents.filter (fun e => e.addr = a && (e.threads &&& hit) ≠ 0)).map (·.slice)
      { x with sat := sat, ents := x.ents.filter (fun e => !fired.contains e.slice), result := some (x.result.getD 0) }
    else
      let ents := x.ents.filter (fun e => !(e.addr = a && (e.threads &&& ~~~ sat) = 0))
      { x with sat := sat, ents := ents, result := if (x.T &&& ~~~ sat) = 0 then some (x.result.getD 0) else x.result }

/-- Move the oldest spilled entry of a slice into a free place of its table (R230). -/
def refillOne (ws : List Wait) (slice : Nat) : List Wait :=
  let all := ws.flatMap (fun x => x.ents.filter (fun e => e.slice = slice))
  if (all.filter (fun e => !e.spilled)).length < 4096 then
    match ws.find? (fun x => x.ents.any (fun e => e.slice = slice && e.spilled)) with
    | none => ws
    | some x =>
      ws.map (fun y => if y.id = x.id then
        { y with ents := (y.ents.foldl (fun (acc : List WEnt × Bool) e =>
            if !acc.2 && e.slice = slice && e.spilled then (acc.1 ++ [{ e with spilled := false }], true)
            else (acc.1 ++ [e], acc.2)) ([], false)).1 } else y)
  else ws

/-- The spilled entries of a slice. -/
def spilledAt (ws : List Wait) (slice : Nat) : Nat :=
  (ws.flatMap (fun x => x.ents.filter (fun e => e.slice = slice && e.spilled))).length

/-- Every place that has become free in a slice's table takes the oldest spilled entry (R230). -/
def refillLantern (ws : List Wait) (slice : Nat) : List Wait :=
  (List.range (spilledAt ws slice)).foldl (fun l _ => refillOne l slice) ws

/-- The same for every slice that has spilled entries. -/
def refillAll (ws : List Wait) : List Wait :=
  ((ws.flatMap (fun x => (x.ents.filter (·.spilled)).map (·.slice))).eraseDups).foldl refillLantern ws

/-- The saved contexts an entry of whose WAITs has fired in an evaluation. -/
def firedContexts : List Wait → List Wait → List Nat
  | x :: xs, y :: ys =>
    (match x.ctx with
     | some c => if y.ents.length < x.ents.length then [c] else []
     | none => []) ++ firedContexts xs ys
  | _, _ => []

/-! ## Host and peer memory behind their proxy slices (R345-R347) -/

/-- The key of a byte of a block's scratchpad, or of the part of it that an XST reaches from another core, for accesses under
way; memory has no such keys (log entry 21). -/
def scratchKey (blk off : Nat) : Nat := 2 ^ 64 * (2 * blk + 2) + off
def shadowKey (blk off : Nat) : Nat := 2 ^ 64 * (2 * blk + 3) + off
/-- The block such a key belongs to, and the offset. -/
def keyBlock (k : Nat) : Option Nat := if k < 2 ^ 64 then none else some ((k / 2 ^ 64 - 2) / 2)
def keyOff (k : Nat) : Nat := k % 2 ^ 64

/-- A step cannot be taken yet for a reason. -/
def State.want (s : State) (x : Want) : State := if s.wants.contains x then s else { s with wants := s.wants ++ [x] }

/-- The answer to an operation at a peer's home slice, the `n`-th of its step, which is asked for once (R346). -/
def State.peerAsk (s : State) (n a : Nat) (op : BexOp) : State × Option (Option Word) :=
  match s.bexDone.find? (fun x => x.addr = a && x.op = op && x.who = (s.asker, n)) with
  | some x => (s, some x.result)
  | none => (s.want (.peer (s.asker, n) a op), none)

/-- A turn has asked a peer for something and has not been taken since. -/
def State.asked (s : State) (t : Turn) : Bool :=
  s.bexOut.any (fun r => r.who.any (fun w => w.1 = t)) || s.bexDone.any (fun r => r.who.1 = t)

/-- Send a request to a peer, with a tag no outstanding request has and the next sequence number of its source and target
(R347). -/
def State.bexSend (s : State) (who : Option (Turn × Nat)) (addr : Nat) (op : BexOp) : State :=
  let node := (Sparse.get 0 s.peers (paApt addr - 0x100)).extractLsb' 36 16
  let q := Sparse.get 0 s.bexSeq node.toNat
  let tag (i : Nat) : BitVec 16 := BitVec.ofNat 16 (s.nextUid + i)
  let i := ((List.range (s.bexOut.length + 1)).find? (fun i => !s.bexOut.any (fun r => r.tag = tag i))).getD 0
  { s with
    nextUid := s.nextUid + i + 1
    bexSeq := Sparse.set 0 s.bexSeq node.toNat (q + 1)
    bexOut := s.bexOut ++ [{ tag := tag i, source := Config.nodeId, node := node, seq := q, addr := addr, op := op,
                             who := who, retries := 0 }] }

/-- The bytes of a group that a list of cells writes, as the byte enables and the word of a write. -/
def groupWrite (cells : List (Nat × Byte)) (g : Nat) : BitVec 8 × Word :=
  let at_ (i : Nat) : Option Byte := (cells.find? (fun c => c.1 = 8 * g + i)).map Prod.snd
  (BitVec.ofNat 8 ((List.range 8).foldl (fun acc i => if (at_ i).isSome then acc + 2 ^ i else acc) 0),
   BitVec.ofNat 64 (leNat ((List.range 8).map (fun i => (at_ i).getD 0))))

/-- Write the bytes of one group of host or peer memory at their true home (R346): host memory takes them, a peer is sent
a request. -/
def State.farWrite (s : State) (cells : List (Nat × Byte)) (g : Nat) : State :=
  if peerKey (8 * g) then
    let r := groupWrite cells g
    s.bexSend none (8 * g) (.write r.1 r.2)
  else
    cells.foldl (fun (x : State) c =>
      { x with
        mem := writeMem x.mem c.1 c.2
        hostClean := match Sparse.get [] x.hostClean (c.1 / 64) with
          | [] => x.hostClean
          | l => Sparse.put x.hostClean (c.1 / 64) (l.set (c.1 % 64) (some c.2)) }) s

/-- The bytes of a group that a proxy slice holds. -/
def State.proxyCells (s : State) (g : Nat) : List (Nat × Byte) :=
  (List.range 8).filterMap (fun i => (Sparse.get none s.proxy (8 * g + i)).map (fun b => (8 * g + i, b)))

/-- A proxy slice sends the bytes it holds of a group to their true home. -/
def State.proxyGo (s : State) (g : Nat) : State :=
  match s.proxyCells g with
  | [] => s
  | cs => { s with proxy := s.proxy.filter (fun e => e.1 / 8 ≠ g) }.farWrite cs g

/-- Every byte the proxies hold that a test selects is sent (R113). -/
def State.proxyFlush (s : State) (f : Nat → Bool) : State :=
  (((s.proxy.map Prod.fst).filter (fun k => farKey k && f k)).map (· / 8)).eraseDups.foldl State.proxyGo s

/-- A synchronising access to a line of host or peer memory is performed at its true home, after what its proxy slice holds
of the line (R345, R346). -/
def State.atHome (s : State) (g : Nat) : State :=
  if farKey (8 * g) then
    let s1 := s.proxyFlush (fun k => k / 64 = g / 8)
    { s1 with hostClean := Sparse.erase s1.hostClean (g / 8) }
  else s

/-! ## Writes at home (R106, R109, R130) -/

/-- An access to a line homed in a tower that is in reset is held (R14, R354): the step waits. -/
def State.gate (s : State) (keys : List Nat) : State :=
  if s.power.inReset = [] then s
  else (keys.map (fun k => domeOf (s.homeSlice k))).foldl (fun x d =>
    if x.power.inReset.contains d then x.want (.tower d) else x) s

/-- Write bytes of the aligned 8-byte group `g` at home, with the error marks (R109, R304). -/
def State.putCells (s : State) (cells : List (Nat × Byte)) (g : Nat) : State :=
  let s0 := (s.gate [8 * g]).atHome g
  if farKey (8 * g) then s0.farWrite cells g
  else cells.foldl (fun (x : State) c => ({ x with mem := writeMem x.mem c.1 c.2 }).mendByte c.1) s0

/-- The word that the waiters of a written group are evaluated against: of a peer's memory only a whole write tells it. -/
def State.groupWord (s : State) (cells : List (Nat × Byte)) (g : Nat) : Option Word :=
  if peerKey (8 * g) then
    let r := groupWrite cells g
    if r.1 = 0xFF then some r.2 else none
  else some (s.homeWord (8 * g))

/-- Evaluate the entries registered on a word after a write to it has given it a value (R126), and the saved contexts of
which an entry has fired. -/
def State.evalWord (s : State) (a : Nat) (v : Word) : State × List Nat :=
  if s.waits.any (fun x => x.ents.any (fun e => e.addr = a)) then
    let ws := s.waits.map (fun x => if x.ents.any (fun e => e.addr = a) then x.evaluate a v else x)
    ({ s with waits := refillLantern ws (s.homeSlice a) }, firedContexts s.waits ws)
  else (s, [])

/-- The key of the word `ready` of a saved context (Table 20.8). -/
def State.readyKey (s : State) (ctx : Nat) : Option Nat :=
  ((s.saved.find? (fun v => v.id = ctx)).bind (fun v => v.areas.head?)).bind (fun a => s.key (a.toNat + 0x24))

/-- Set `ready` of saved contexts, a WAIT of each of which has fired or timed out (R230, R314, Table 20.8). It is a write at
home, which waiters see in their turn; each firing uses up an entry, so `fuel` is the number of entries. -/
def State.readyAll : Nat → State → List Nat → State
  | 0, s, _ => s
  | _, s, [] => s
  | fuel + 1, s, c :: cs =>
    match s.readyKey c with
    | none => State.readyAll fuel s cs
    | some k =>
      let cells := (List.range 4).map (fun i => (k + i, if i = 0 then (1 : Byte) else 0))
      let s1 := s.putCells cells (k / 8)
      match s1.groupWord cells (k / 8) with
      | none => State.readyAll fuel s1 cs
      | some v =>
        let r := s1.evalWord (k / 8 * 8) v
        State.readyAll fuel r.1 (cs ++ r.2)

/-- The entries registered at the slices. -/
def State.waitEnts (s : State) : Nat := (s.waits.map (fun x => x.ents.length)).sum

/-- A WAIT of a saved context has fired or timed out. -/
def State.markReady (s : State) (ctx : Nat) : State := State.readyAll (s.waitEnts + 1) s [ctx]

/-- Evaluate the entries registered on a word, and set `ready` of the saved contexts of which one has fired (R126, R230). -/
def State.evalWaits (s : State) (a : Nat) (v : Word) : State :=
  let r := s.evalWord a v
  State.readyAll (s.waitEnts + 1) r.1 r.2

/-- One write at home with the waiters that see it (R109, R126). -/
def State.writeCells (s : State) (cells : List (Nat × Byte)) (g : Nat) : State :=
  let s1 := s.putCells cells g
  match s1.groupWord cells g with
  | some v => s1.evalWaits (8 * g) v
  | none => s1

/-- Apply a reduction that a slice has accepted: one write at home, performed for the core that made it (R116, R202). -/
def State.applyRed (s : State) (x : Pending) : State :=
  let n := x.aty.bytes
  let v := (atomNew x.aty x.op (leNat (s.homeBytes x.a n)) x.c.toNat 0).1
  let bs := leBytes n v
  (s.writeCells ((List.range n).map (fun i => (x.a + i, bs.getD i 0))) (x.a / 8)).dropHoists (keyCore x.key)
    (fun h => (List.range n).any (fun i => h.covers (x.a + i)))

/-- The reductions that a slice has accepted for a line pass to the array, in the order they entered its queue: at any time
(turn applyReds), and before anything else is performed there that is synchronising (R116, R211). -/
def State.applyReds (s : State) (line : Nat) : State :=
  (s.reds.filter (fun x => x.a / 64 = line)).foldl State.applyRed
    { s with reds := s.reds.filter (fun x => x.a / 64 ≠ line) }

/-- One synchronising write of bytes of the aligned 8-byte group `g`: the bytes, the error marks and the waiters
(R109, R126), after the reductions its slice has accepted. -/
def State.writeGroup (s : State) (cells : List (Nat × Byte)) (g : Nat) : State := (s.applyReds (g / 8)).writeCells cells g

/-- One write of bytes within one 8-byte group at home. -/
def State.homeWrite (s : State) (a : Nat) (bs : List Byte) : State :=
  s.writeGroup ((List.range bs.length).map (fun i => (a + i, bs.getD i 0))) (a / 8)

/-- Split a run of bytes at 8-byte boundaries: pieces of address and bytes. -/
def groupsOf : Nat → Nat → List Byte → List (Nat × List Byte)
  | 0, _, _ => []
  | fuel + 1, a, bs =>
    if bs = [] then []
    else
      let n := 8 - a % 8
      (a, bs.take n) :: groupsOf fuel (a + n) (bs.drop n)

/-- A synchronising write of each naturally aligned 8-byte group of a run (R106, R130). -/
def State.syncWrite (s : State) (a : Nat) (bs : List Byte) : State :=
  (groupsOf (bs.length / 8 + 2) a bs).foldl (fun x g => x.homeWrite g.1 g.2) s

/-- A synchronising write of each naturally aligned 8-byte group among keys and their bytes. -/
def State.syncWriteAt (s : State) (keys : List Nat) (bs : List Byte) : State :=
  let cells := keys.zip bs
  (cells.map (fun c => c.1 / 8)).eraseDups.foldl (fun x g => x.writeGroup (cells.filter (fun c => c.1 / 8 = g)) g) s

/-- A publication of each 8-byte group among keys and their bytes (R107): at home, or at the proxy slice of host and peer
memory (R346), where the waiters of the slice see it too. -/
def State.publishAt (s : State) (keys : List Nat) (bs : List Byte) : State :=
  let cells := keys.zip bs
  (cells.map (fun c => c.1 / 8)).eraseDups.foldl (fun x g =>
    let cs := cells.filter (fun c => c.1 / 8 = g)
    if farKey (8 * g) then
      let x1 : State := { x.gate [8 * g] with proxy := cs.foldl (fun acc c => Sparse.put acc c.1 (some c.2)) x.proxy }
      match x1.groupWord cs g with
      | some v => x1.evalWaits (8 * g) v
      | none => x1
    else x.writeGroup cs g) s

/-! ## Counters (R359) -/

/-- The counter keys of a unit. -/
def counterKey (u : CUnit) (unit i : Nat) : Nat :=
  (match u with | .core => 0 | .slice => 2000 | .dome => 4000) + 8 * unit + i

/-- Whether a filter lets an event through: `$lane`, launch priority and queue port of the event, where it has them. -/
def filterOk (sel : BitVec 32) (lane prio port : Option Nat) : Bool :=
  let v := (sel.extractLsb' 10 16).toNat
  match (sel.extractLsb' 26 4).toNat with
  | 0 => true
  | 1 => lane = some v
  | 2 => match prio with | some p => v ≤ p | none => false
  | 3 => port = some v
  | _ => false

/-- Count an event of a unit: every counter that selects it and is enabled advances and wraps at 2^48, setting `ovf`. -/
def State.count (s : State) (u : CUnit) (unit event : Nat) (lane prio port : Option Nat) : State :=
  let up (c : Counter) : Counter :=
    { sel := if c.val = 0xFFFFFFFFFFFF then c.sel ||| 0x40000000 else c.sel, val := c.val + 1 }
  { s with counters := s.counters.map (fun e =>
      if counterKey u unit 0 ≤ e.1 && e.1 < counterKey u unit 8 &&
         (e.2.sel.getLsbD 31 && (e.2.sel.extractLsb' 0 10).toNat = event && filterOk e.2.sel lane prio port) then
        (e.1, up e.2)
      else e) }

/-! ## The last-level cache (R24, R97-R99) -/

/-- An entry leaves a table that holds more than its hardware does; which one, no rule says (FREE VALUE). The entry just
made stays. -/
def evictOne {α : Type} (l : Sparse α) (cap keep n : Nat) : Sparse α :=
  if l.length ≤ cap then l
  else
    let o := Sparse.erase l keep
    match o[Config.freeNat n % o.length]? with
    | some e => Sparse.erase l e.1
    | none => l

/-- As many entries leave as the table holds too many of. -/
def evictMany {α : Type} (l : Sparse α) (cap keep n : Nat) : Sparse α :=
  (List.range (l.length - cap)).foldl (fun acc i => evictOne acc cap keep (n + i)) l

/-- The 16 ways of the set of a line in a slice; which set a line falls into no rule says (FREE VALUE). -/
def llcSet (slice line : Nat) : Nat := 2 ^ 14 * slice + Config.llcSet line % 2 ^ 14

/-- The victim among the permitted ways, with the ages at which it was found (R98): the set ages until a permitted way is
invalid or of age 7. `fuel` is 8: no age lies above 7. -/
def llcVictim (mask : BitVec 16) : Nat → List (Option LWay) → List (Option LWay) × Option Nat
  | 0, l => (l, none)
  | fuel + 1, l =>
    let free := (List.range 16).find? (fun i => mask.getLsbD i && (l.getD i none).isNone)
    let old := (List.range 16).find? (fun i => mask.getLsbD i && (match l.getD i none with | some y => y.age = 7 | none => false))
    match free, old with
    | some i, _ => (l, some i)
    | none, some i => (l, some i)
    | none, none =>
      llcVictim mask fuel (l.map (fun y => y.map (fun z => { z with age := Nat.min 7 (z.age + 1) })))

/-- An access to a line reaches its home slice: a hit makes the line young; a miss fills it under its class and hint
(R98, R99). The slice counts it. -/
def State.llcTouch (s : State) (line cls : Nat) (h : Hint) : State :=
  let slice := s.homeSlice (64 * line)
  let k := llcSet slice line
  let l := match Sparse.get [] s.llc k with | [] => List.replicate 16 none | y => y
  let c := s.ctl.rclass.getD cls RClass.reset
  let isLine (y : Option LWay) : Bool := match y with | some z => z.line = line | none => false
  let hit := l.any isLine
  let mask := c.ways &&& ~~~ (s.ctl.repways.setWidth 16)
  let r := llcVictim mask 9 l
  let age := match h with | .streaming => 6 | .keep => 0 | .lastuse => 7 | _ => c.age.toNat
  { s.count .slice slice (if hit then 0x101 else 0x102) none none none with
    llc :=
      if hit then
        Sparse.put s.llc k (l.map (fun y => if isLine y then some { line := line, age := if h = .lastuse then 7 else 0 } else y))
      else if h = .nollc || mask = 0 then s.llc
      else match r.2 with
        | some i => Sparse.put s.llc k (r.1.set i (some { line := line, age := age }))
        | none => s.llc }

/-! ## Translation (R88, R94-R96, R305-R307) -/

/-- Kinds of access for the permission checks (R95). -/
inductive Acc where | read | write | fetch
  deriving DecidableEq, Repr

/-- Causes of fault-queue records and what else an access can meet. -/
inductive MemErr where
  /-- NOTMAPPED 0x20, PROTECTION 0x21, BADPTE 0x22 at a virtual address; the flag says that a walk read met it. -/
  | page (cause : Nat) (va : Word) (walk : Bool)
  /-- An uncorrectable error (R304). -/
  | uce (va : Word)
  /-- A trap of Table 20.1. -/
  | trap (cause : Nat) (va : Word)
  deriving DecidableEq, Repr

def causeNOTMAPPED : Nat := 0x20
def causePROTECTION : Nat := 0x21
def causeBADPTE : Nat := 0x22
def causeUCE : Nat := 0x23

/-- Canonical form of a virtual address (R88). -/
def canonical (va : Word) : Bool := va.extractLsb' 56 8 = 0 || va.extractLsb' 56 8 = 0xFF

/-- Fields of a leaf entry (Table 8.2). -/
def leafV (e : Word) : Bool := e.getLsbD 0
def leafW (e : Word) : Bool := e.getLsbD 1
def leafX (e : Word) : Bool := e.getLsbD 2
def leafSize (e : Word) : Nat := (e.extractLsb' 4 2).toNat
def leafFrame (e : Word) : Nat := (e.extractLsb' 16 36).toNat * 2 ^ 16
def leafVkind (e : Word) : Nat := (e.extractLsb' 56 3).toNat
def leafPlace (e : Word) : Nat := (e.extractLsb' 59 2).toNat

/-- Bits of a page of a size code (R90). -/
def pageBits (size : Nat) : Nat := if size = 0 then 16 else if size = 1 then 21 else 30

/-- A peer's entry (Table 24.3). -/
def State.peerValid (s : State) (p : Nat) : Bool := (Sparse.get 0 s.peers p).getLsbD 63

/-- An aperture value that a leaf may name (R95, R345). -/
def State.aptOk (s : State) (apt : Nat) : Bool :=
  apt = 0 || apt = 1 || apt = 2 || (0x100 ≤ apt && apt < 0x100 + 768 && s.peerValid (apt - 0x100))

/-- The BADPTE conditions of R95 on a leaf found at a level of leaf size `lv`. -/
def State.leafBad (s : State) (lv : Nat) (e : Word) : Bool :=
  let fr := leafFrame e
  let apt := paApt fr
  let il := paIl fr
  let sz := leafSize e
  let place := leafPlace e
  e.extractLsb' 52 4 ≠ 0 || e.extractLsb' 8 8 ≠ 0 || e.getLsbD 3 ||
  sz = 3 || place = 3 || 3 ≤ leafVkind e ||
  sz ≠ lv || fr % 2 ^ pageBits sz ≠ 0 ||
  (apt = 0 && !il && !s.localOk fr (2 ^ 16)) ||
  ((place = 0 || place = 1) && apt = 0 && il) ||
  (place = 2 && (apt ≠ 0 || !il)) ||
  (place = 2 && apt = 0 && il &&
    decide (s.vaults.length * s.ctl.ilsize.toNat / 4096 < fr % 2 ^ 41 / 4096 + 2 ^ pageBits sz / 4096)) ||
  (apt ≠ 0 && (place ≠ 0 || !s.aptOk apt)) ||
  (place = 1 && sz ≠ 0) ||
  (leafVkind e ≠ 0 && !(sz = 0 && place = 0 && apt = 0 && !leafW e))

/-- The index of a virtual address at a walk level, the level's table size and alignment in bytes (Table 20.5). -/
def levelIndex (lv : Nat) (va : Word) : Nat :=
  match lv with
  | 0 => (va.extractLsb' 39 18).toNat
  | 1 => (va.extractLsb' 30 9).toNat
  | 2 => (va.extractLsb' 21 9).toNat
  | _ => (va.extractLsb' 16 5).toNat
def levelBytes (lv : Nat) : Nat := match lv with | 0 => 2 ^ 21 | 1 => 4096 | 2 => 4096 | _ => 256

/-- A table can be read (R305). -/
def State.tableOk (s : State) (lv t : Nat) : Bool := t % levelBytes lv = 0 && s.localOk t (levelBytes lv)

/-- The result of a walk: the leaf, the leaf's address and the page bits. -/
structure Leaf where
  entry : Word
  addr  : Nat
  bits  : Nat
  deriving DecidableEq, Repr

/-- Read a walk entry through the dome's translation cache of 16,384 entries, filling it (R306). `none` when the line is
damaged. -/
def State.readEntry (s : State) (dome a : Nat) : State × Option Word :=
  match Sparse.get none (s.domeAt dome).walks a with
  | some e => (s, some e)
  | none =>
    let s := s.gate [a]
    if s.lineBad a then (s, none)
    else
      let e := s.homeWord a
      if e.getLsbD 0 then
        let d := s.domeAt dome
        let walks := evictOne (Sparse.put d.walks a (some e)) 16384 a (s.freeCtr + 2 ^ 61 + a)
        (s.putDome dome { d with walks := walks }, some e)
      else (s, some e)

/-- A faulting entry is cached nowhere (R306). -/
def State.forget (s : State) (dome a : Nat) : State :=
  let d := s.domeAt dome
  s.putDome dome { d with walks := Sparse.erase d.walks a }

/-- Walk from a table of a level (R305); `fuel` counts the levels left. -/
def State.walkFrom (s : State) (dome : Nat) (va : Word) : Nat → Nat → Nat → State × Except (Nat × Bool) Leaf
  | 0, _, _ => (s, .error (causeBADPTE, false))
  | fuel + 1, lv, table =>
    if !s.tableOk lv table then (s, .error (causeBADPTE, false))
    else
      let a := table + 8 * levelIndex lv va
      match s.readEntry dome a with
      | (s1, none) => (s1, .error (causeUCE, true))
      | (s1, some e) =>
        if !e.getLsbD 0 then (s1, .error (causeNOTMAPPED, false))
        else if e.getLsbD 3 then
          -- a pointer entry (Table 20.6)
          if lv = 3 || e.extractLsb' 52 12 ≠ 0 || e.extractLsb' 4 4 ≠ 0 || e.extractLsb' 1 2 ≠ 0 then
            (s1.forget dome a, .error (causeBADPTE, false))
          else s1.walkFrom dome va fuel (lv + 1) ((e.extractLsb' 8 44).toNat * 256)
        else if lv = 0 || s1.leafBad (3 - lv) e then (s1.forget dome a, .error (causeBADPTE, false))
        else (s1, .ok { entry := e, addr := a, bits := pageBits (leafSize e) })

/-- Walk the page table of `ctl.ptroot` (R305), which the dome counts (R359). A value of 0 means no table. -/
def State.walk (s : State) (dome : Nat) (va : Word) : State × Except (Nat × Bool) Leaf :=
  if s.ctl.ptroot = 0 then (s, .error (causeNOTMAPPED, false))
  else (s.count .dome dome 0x205 none none none).walkFrom dome va 4 0 s.ctl.ptroot.toNat

/-- The TLB entry that covers an address. -/
def tlbFind (l : List Tlb) (va : Word) : Option Tlb := l.find? (fun x => va.toNat % 2 ^ 57 / 2 ^ x.bits = x.page)

/-- Set bits of an entry at its home (R96). -/
def State.setEntry (s0 : State) (a : Nat) (bits : Word) : State :=
  let s := s0.applyReds (a / 64)
  let e := s.homeWord a
  if e ||| bits = e then s else s.homeWrite a (leBytes 8 (e ||| bits).toNat)

/-- A core has translated an address of a FOLLOW page: its requests to the page are counted by leaf and core (R101). -/
def State.noteAccess (s : State) (core : Nat) (e : Word) (leaf : Nat) : State :=
  if leafPlace e = 1 && !s.follow.any (fun y => y.1 = leaf && y.2.1 = core) then
    { s with follow := s.follow ++ [(leaf, core, 0)] }
  else s

/-- A request of a core for a line reaches the line's home slice: it counts for the line's page, if that is a FOLLOW page
(R101). -/
def State.noteRequest (s : State) (core line : Nat) : State :=
  if s.follow = [] then s
  else { s with follow := s.follow.map (fun y =>
    if y.2.1 = core && leafFrame (s.homeWord y.1) = 65536 * (line / 1024) then (y.1, y.2.1, y.2.2 + 1) else y) }

/-- An access of a core reaches the home slice of a line (R98, R101). -/
def State.reach (s : State) (core line cls : Nat) (h : Hint) : State := (s.llcTouch line cls h).noteRequest core line

/-- A core's translation of a virtual address: the leaf it is made through. Sets `a` and `d` (R96); faults of R95 in
its order. -/
def State.translate (s : State) (core : Nat) (acc : Acc) (va : Word) : State × Except MemErr (Word × Nat) :=
  if !canonical va then (s, .error (.trap 0x07 va))
  else
    let dome := domeOf core
    let perm (s : State) (x : Tlb) (fill : Bool) : State × Except MemErr (Word × Nat) :=
      if (acc = .write && !leafW x.entry) || (acc = .fetch && !leafX x.entry) then
        -- a translation fault is cached nowhere (R306)
        (if fill then s.forget dome x.addr else s, .error (.page causePROTECTION va false))
      else
        let s1 := if fill then s.setEntry x.addr 0x40 else s
        let s2 := if acc = .write && !x.wrote then s1.setEntry x.addr 0x80 else s1
        let c := s2.coreAt core
        let x' := { x with wrote := x.wrote || acc = .write }
        let tlb := if fill then (c.tlb ++ [x']).drop (c.tlb.length + 1 - 256)
          else c.tlb.map (fun y => if y.page = x.page && y.bits = x.bits then x' else y)
        ((s2.putCore core { c with tlb := tlb }).noteAccess core x.entry x.addr, .ok (x.entry, x.bits))
    match tlbFind (s.coreAt core).tlb va with
    | some x => perm s x false
    | none =>
      match s.walk dome va with
      | (s1, .error (c, w)) => (s1, .error (if c = causeUCE then .page causeUCE va w else .page c va w))
      | (s1, .ok lf) =>
        perm s1 { page := va.toNat % 2 ^ 57 / 2 ^ lf.bits, bits := lf.bits, entry := lf.entry, addr := lf.addr,
                  wrote := lf.entry.getLsbD 7 } true

/-- The key of a byte through a leaf; a byte of an uncompressed view is keyed above physical addresses (R105). -/
def State.leafKey (s : State) (e : Word) (bits : Nat) (va : Word) : Nat :=
  let pa := leafFrame e + va.toNat % 2 ^ bits
  match s.key pa with
  | some k => k + leafVkind e * 2 ^ 52
  | none => pa

/-- Translate the `n` bytes at an address on every page they touch before any is accessed (R193): their keys, or the
fault, which names the first byte on the page that faults. -/
def State.translateRun (s : State) (core : Nat) (acc : Acc) (va : Word) (n : Nat) :
    State × Except MemErr (List Nat) :=
  match s.translate core acc va with
  | (s1, .error e) => (s1, .error e)
  | (s1, .ok (e, b)) =>
    let room := 2 ^ 16 - va.toNat % 2 ^ 16
    if n ≤ room then
      let keys := (List.range n).map (fun i => s1.leafKey e b (va + BitVec.ofNat 64 i))
      (s1.gate keys, .ok keys)
    else
      let va2 := va + BitVec.ofNat 64 room
      match s1.translate core acc va2 with
      | (s2, .error er) => (s2, .error er)
      | (s2, .ok (e2, b2)) =>
        let keys := (List.range n).map (fun i =>
          if i < room then s2.leafKey e b (va + BitVec.ofNat 64 i) else s2.leafKey e2 b2 (va + BitVec.ofNat 64 i))
        (s2.gate keys, .ok keys)

/-- The replacement class of the page a core's TLB holds for an address (Table 8.2). -/
def State.classOf (s : State) (core : Nat) (va : Word) : Nat :=
  match tlbFind (s.coreAt core).tlb va with
  | some x => (x.entry.extractLsb' 61 3).toNat
  | none => 0

/-! ## The L1 and the replicas (R107, R108, R114) -/

/-- A line is homed in a dome. -/
def State.homedIn (s : State) (dome key : Nat) : Bool := domeOf (s.homeSlice key) = dome

/-- Replicas serve a line (R114): they exist and the line is homed outside the dome. -/
def State.replicated (s : State) (dome key : Nat) : Bool := s.ctl.repways ≠ 0 && !s.homedIn dome key

/-- A byte needs no read of its home: the core, or its dome's replica, holds it. What has been written to a replica and has
not drained is served by it wherever the line is homed now (R108, R111). -/
def State.cached (s : State) (core key : Nat) : Bool :=
  (Sparse.get none (s.coreAt core).dirty key).isSome ||
  ((Sparse.get [] (s.coreAt core).clean (key / 64)).getD (key % 64) none).isSome ||
  (Sparse.get none (s.domeAt (domeOf core)).dirty key).isSome ||
  (s.replicated (domeOf core) key &&
    ((Sparse.get [] (s.domeAt (domeOf core)).clean (key / 64)).getD (key % 64) none).isSome)

/-- The aligned groups of peer memory among keys whose value has to be asked for (R346). -/
def State.askPeers (s : State) (core : Nat) (keys : List Nat) (own : Bool) : State :=
  if keys.all (fun k => !peerKey k) then s
  else
    let gs := ((keys.filter (fun k => peerKey k && !(own && s.cached core k))).map (· / 8)).eraseDups
    (gs.filter (fun g => (s.peerWord (8 * g)).isNone)).foldl (fun x g => x.want (.peer (s.asker, 0) (8 * g) .read)) s

/-- A peer has not answered in time: the access is an uncorrectable error (R347). -/
def State.peerFailed (s : State) (keys : List Nat) : Bool :=
  keys.any (fun k => peerKey k && decide (s.peerWord (k / 8 * 8) = some none))

/-- A byte as a miss of a core of a dome fills it: the replica where it holds the byte, else its home. -/
def State.fillByte (s : State) (dome key : Nat) : Byte :=
  match Sparse.get none (s.domeAt dome).dirty key with
  | some b => b
  | none =>
    if s.replicated dome key then
      match (Sparse.get [] (s.domeAt dome).clean (key / 64)).getD (key % 64) none with
      | some b => b
      | none => s.homeByte key
    else s.homeByte key

/-- A byte of a line that a fill has a value for: of peer memory, only what the peer has answered. -/
def State.known (s : State) (key : Nat) : Bool :=
  !peerKey key || (Sparse.get none s.proxy key).isSome || (match s.peerWord (key / 8 * 8) with | some (some _) => true | _ => false)

/-- Lines an L1 of 256 KiB holds (R21), and lines the replica region of a dome holds: 16,384 sets of 16 slices (R24, R114). -/
def l1Lines : Nat := 4096
def State.replicaLines (s : State) : Nat :=
  262144 * ((List.range 16).filter (fun i => s.ctl.repways.getLsbD i)).length

/-- Fill the bytes of a line the core does not hold; the slice keeps the line of a view (R105) or of host memory
(Table 8.6), and the replica may allocate the line as it passes (R114). -/
def State.fillLine (s : State) (core line : Nat) : State :=
  let dome := domeOf core
  let s0 := s.fillView line
  let s1 := if farKey (64 * line) && !peerKey (64 * line) then
      { s0 with hostClean := Sparse.put s0.hostClean line ((List.range 64).map (fun i => some (s0.homeByte (64 * line + i)))) }
    else s0
  let c := s1.coreAt core
  let old := Sparse.get [] c.clean line
  let new := (List.range 64).map (fun i =>
    match old.getD i none with
    | some b => some b
    | none => if s1.known (64 * line + i) then some (s1.fillByte dome (64 * line + i)) else none)
  let s2 :=
    if s1.replicated dome (64 * line) then
      let d := s1.domeAt dome
      let oldR := Sparse.get [] d.clean line
      let clean := Sparse.put d.clean line ((List.range 64).map (fun i =>
        match oldR.getD i none with
        | some b => some b
        | none => if s1.known (64 * line + i) then some (s1.homeByte (64 * line + i)) else none))
      s1.putDome dome { d with clean := evictOne clean s.replicaLines line (s.freeCtr + 2 ^ 62 + line) }
    else s1
  let clean := evictOne (Sparse.put c.clean line new) l1Lines line (s.freeCtr + 2 ^ 63 + line)
  s2.putCore core { c with clean := clean }

/-- A plain load of one byte by a core (R107, R108), filling the line on a miss. `alloc` is false under the bypass hint
(R99). -/
def State.loadByte (s : State) (core key : Nat) (alloc : Bool) : State × Byte :=
  let c := s.coreAt core
  match Sparse.get none c.dirty key with
  | some b => (s, b)
  | none =>
    match (Sparse.get [] c.clean (key / 64)).getD (key % 64) none with
    | some b => (s, b)
    | none =>
      let s0 := s.fillView (key / 64)
      let b := s0.fillByte (domeOf core) key
      (if alloc then s0.fillLine core (key / 64) else s0, b)

/-- Load a list of bytes. -/
def State.loadKeys (s : State) (core : Nat) (alloc : Bool) : List Nat → State × List Byte
  | [] => (s, [])
  | k :: ks =>
    let (s1, b) := s.loadByte core k alloc
    let (s2, bs) := s1.loadKeys core alloc ks
    (s2, b :: bs)

/-- Drop the clean bytes of a line from a core's L1. -/
def State.dropCleanLine (s : State) (core line : Nat) : State :=
  let c := s.coreAt core
  s.putCore core { c with clean := Sparse.erase c.clean line }

/-- The launch of a warp, as a name of its dirty bytes: 0 for none. -/
def State.ownerOf (s : State) (k : Nat) : Nat :=
  match (s.warpAt k).bind (fun w => s.blockAt w.blk) with
  | some b => b.launch + 1
  | none => 0

/-- A plain store of bytes by a warp of a core (R107): the bytes become dirty, and hoisted entries they overlap become
invalid (R202). -/
def State.storeKeys (s : State) (k : Nat) (keys : List Nat) (bs : List Byte) : State :=
  let core := keyCore k
  let c := s.coreAt core
  let dirty := (keys.zip bs).foldl (fun acc kb => Sparse.put acc kb.1 (some kb.2)) c.dirty
  let owner := keys.foldl (fun acc a => Sparse.put acc a (s.ownerOf k)) c.owner
  (s.putCore core { c with dirty := dirty, owner := owner }).dropHoists core (fun h => keys.any h.covers)

/-- The lines of a warp's stack region that its slot's share of the stack cache holds: 1 KiB less what the divergence stack
takes (R21, R45), the latest first. -/
def State.noteFrame (s : State) (k : Nat) (keys : List Nat) : State :=
  match s.warpAt k with
  | none => s
  | some w =>
    let new := (keys.map (· / 64)).eraseDups
    s.putWarp k { w with frames := (new ++ w.frames.filter (fun l => !new.contains l)).take ((1024 - 16 * w.slim) / 64) }

/-- Keep published bytes as clean bytes of the line. -/
def keepClean (cl : Sparse (List (Option Byte))) (key : Nat) (b : Byte) : Sparse (List (Option Byte)) :=
  let old := Sparse.get [] cl (key / 64)
  Sparse.put cl (key / 64) ((List.range 64).map (fun i => if i = key % 64 then some b else old.getD i none))

/-- The dirty bytes that a test selects, each once. -/
def dirtyBytes (d : Sparse (Option Byte)) (f : Nat → Bool) : List (Nat × Byte) :=
  (d.map Prod.fst).eraseDups.filterMap (fun k => if f k then (Sparse.get none d k).map (fun b => (k, b)) else none)

/-- Drain the dirty replica bytes of a dome that a test selects to their homes (R114). -/
def State.drain (s : State) (dome : Nat) (f : Nat → Bool) : State :=
  let d := s.domeAt dome
  let out := dirtyBytes d.dirty f
  let rest := d.dirty.filter (fun e => !f e.1)
  let clean := evictMany (out.foldl (fun acc e => keepClean acc e.1 e.2) d.clean) s.replicaLines (2 ^ 62) (s.freeCtr + 2 ^ 62 + 2 ^ 60)
  (s.putDome dome { d with dirty := rest, clean := clean }).publishAt (out.map Prod.fst) (out.map Prod.snd)

/-- Publish the dirty bytes of a core that a test selects, to their homes, one write per 8-byte group (R107). The
bytes stay in the core as clean bytes. An older value of such a byte that the dome's replica holds dirty drains first,
so that it is not written over the newer one, and the replica takes the newer one, so that the core's later loads
return none earlier (R108, R114). -/
def State.publish (s : State) (core : Nat) (f : Nat → Bool) : State :=
  let c := s.coreAt core
  let out := dirtyBytes c.dirty f
  let rest := c.dirty.filter (fun e => !f e.1)
  let clean := evictMany (out.foldl (fun acc e => keepClean acc e.1 e.2) c.clean) l1Lines (2 ^ 62) (s.freeCtr + 2 ^ 63 + 2 ^ 60)
  let s1 := s.drain (domeOf core) (fun k => out.any (fun e => e.1 = k))
  let d := s1.domeAt (domeOf core)
  let seen := out.foldl (fun acc e => if s.replicated (domeOf core) e.1 then keepClean acc e.1 e.2 else acc) d.clean
  let seen := evictMany seen s.replicaLines (2 ^ 62) (s.freeCtr + 2 ^ 62 + 2 ^ 61)
  (((out.map (fun e => e.1 / 64)).eraseDups.foldl (fun (x : State) l => x.noteRequest core l)
    ((s1.putCore core { c with dirty := rest, clean := clean }).putDome (domeOf core) { d with clean := seen }))).publishAt
    (out.map Prod.fst) (out.map Prod.snd)

/-- Publish the dirty bytes a test selects to the dome's replica (team scope in one dome, R107). -/
def State.publishReplica (s : State) (core : Nat) (f : Nat → Bool) : State :=
  let c := s.coreAt core
  let d := s.domeAt (domeOf core)
  let out := dirtyBytes c.dirty f
  let rest := c.dirty.filter (fun e => !f e.1)
  let clean := evictMany (out.foldl (fun acc e => keepClean acc e.1 e.2) c.clean) l1Lines (2 ^ 62) (s.freeCtr + 2 ^ 63 + 2 ^ 60)
  let dirty := out.foldl (fun acc e => Sparse.put acc e.1 (some e.2)) d.dirty
  (s.putCore core { c with dirty := rest, clean := clean }).putDome (domeOf core) { d with dirty := dirty }

/-- Kinds of launch (Table 4.2). -/
def Launch.kind (l : Launch) : Nat := (l.lctl.extractLsb' 0 2).toNat

/-- The team of a launch lies in one dome (R113). -/
def Launch.oneDome (l : Launch) : Bool :=
  l.kind = 0 && decide (l.origin.1 / 4 = (l.origin.1 + l.tw - 1) / 4 ∧ l.origin.2 / 4 = (l.origin.2 + l.th - 1) / 4)

/-- What a scope means for a launch (R113, R114): team scope acts as package scope in an AFFINITY or STAGED launch, in
a team that does not lie in one dome, and with no replica ways. -/
def State.teamLocal (s : State) (l : Option Launch) : Bool :=
  match l with
  | some x => x.oneDome && s.ctl.repways ≠ 0
  | none => false

/-- The writes sent to peers have been completed: the step waits for their answers (R113, R346). -/
def State.awaitAcks (s : State) (core : Nat) : State :=
  if s.bexOut.any (fun r => match r.op with | .write _ _ => true | _ => false) then s.want (.acks core) else s

/-- A release by a core at a scope (R110, R113): at domain scope what the proxies hold for peers is completed at the peers'
home slices, at system scope also what they hold for the host. -/
def State.release (s : State) (core : Nat) (l : Option Launch) (sc : Scope) : State :=
  let all (s : State) : State := (s.publish core (fun _ => true)).drain (domeOf core) (fun _ => true)
  match sc with
  | .core => s
  | .team =>
    if s.teamLocal l then
      (s.publish core (fun k => s.homedIn (domeOf core) k)).publishReplica core (fun _ => true)
    else all s
  | .package => all s
  | .domain => ((all s).proxyFlush peerKey).awaitAcks core
  | .system => ((all s).proxyFlush (fun _ => true)).awaitAcks core

/-- Answers to reads of peer memory that splits of a core asked for, other than the step's own, are as bytes an L1 has filled:
an acquire that ends those ends them (R110, R346). -/
def State.dropAnswers (s : State) (core : Nat) : State :=
  let mine (t : Turn) : Bool := match t with | .resume r => r.core = core && t ≠ s.asker | _ => false
  { s with
    bexDone := s.bexDone.filter (fun x => !(mine x.who.1 && x.op = .read))
    bexOut := s.bexOut.map (fun r => if r.who.any (fun w => mine w.1) && r.op = .read then { r with who := none } else r) }

/-- An acquire by a core at a scope (R110, R113); any acquire of the core ends its hoisted loads (R202). In a team that does
not lie in one dome, team scope acts as package scope, for an acquire as for a release (R111, R113). -/
def State.acquire (s : State) (core : Nat) (l : Option Launch) (sc : Scope) : State :=
  let s1 := s.dropHoists core (fun _ => true)
  let l1 (s : State) : State := (s.putCore core { s.coreAt core with clean := [] }).dropAnswers core
  let rep (s : State) : State := s.putDome (domeOf core) { s.domeAt (domeOf core) with clean := [] }
  match sc with
  | .core => s1
  | .team => if s.teamLocal l then l1 s1 else rep (l1 s1)
  | .package | .domain => rep (l1 s1)
  | .system => { rep (l1 s1) with hostClean := [] }

/-! ## Stack regions (R88, R152) -/

/-- The warp's stack region: first address and the address past its end. -/
def State.stackLo (s : State) (k : Nat) : Nat := (s.ctl.stkbase.toNat + k * s.ctl.stksize.toNat)
def State.stackHi (s : State) (k : Nat) : Nat := (s.ctl.stkbase.toNat + (k + 1) * s.ctl.stksize.toNat)

/-- An access lies in the warp's stack region (R88, R191). -/
def State.inStack (s : State) (k : Nat) (va : Word) (n : Nat) : Bool :=
  s.stackLo k ≤ va.toNat && va.toNat + n ≤ s.stackHi k

/-! ## Fault queue (R302) -/

/-- A pre-emption is taking a block off its core (R309). -/
def State.stopping (s : State) (b : Nat) : Bool := s.sys.saving.any (fun v => v.blk = b)

/-- The launch of a block, and its record's address. -/
def State.launchOf (s : State) (b : Nat) : Option Launch :=
  match s.blockAt b with
  | some x => s.launchAt x.launch
  | none => none

/-- Put a record in line for the fault queue; it is posted by FAULT_RECORD_POST, in the order detected (R302). -/
def State.post (s : State) (r : FRec) (owner : Owner) (launch : Option Nat) : Nat × State :=
  let (u, s1) := s.fresh
  let x : FPost := { id := u, r := r, owner := owner, launch := launch, seq := none }
  (u, { s1 with sys := { s1.sys with posts := s1.sys.posts ++ [x] } })

/-- A record of a warp's split (R302). -/
def State.warpRec (s : State) (k : Nat) (w : Warp) (p : Split) (cause facc : Nat) (va : Word) (m : Mask) (det : Nat) :
    FRec :=
  { faddr := va, fpc := p.pc, flrec := match s.launchOf w.blk with | some l => l.addr | none => 0,
    fcore := keyCore k, floc := keyLane k + 64 * keySlot k, fcause := cause, facc := facc, ftmask := m,
    fbid := match s.blockAt w.blk with | some b => b.bid | none => 0, fdet := det }

/-! ## Taking a trap and returning from one (R298-R301, R318) -/

/-- Trap cause codes (Table 20.1). -/
def tUNDEFINED : Nat := 0x01
def tILLEGAL : Nat := 0x02
def tSEQUENCE : Nat := 0x03
def tDIVSTACK : Nat := 0x04
def tSTACK : Nat := 0x05
def tMEMBER : Nat := 0x06
def tNONCANONICAL : Nat := 0x07
def tSCRATCH : Nat := 0x08
def tMISALIGN : Nat := 0x09
def tNORECV : Nat := 0x0A
def tTEAMGROUP : Nat := 0x0B
def tNOXBANK : Nat := 0x0C
def tPRIVILEGE : Nat := 0x0D
def tNOSTAGE : Nat := 0x0E
def tUCE : Nat := 0x0F
def tTRAP : Nat := 0x10
def tSYSC : Nat := 0x11
def tBREAK : Nat := 0x12

/-- Abort the open transactions of threads with a code (R123, R299, Table 8.7). Their lists of lines stay: TXS goes on reporting
them in `wl` and `rl` while such a transaction is open, for which no rule says what it reports (DESIGN CHOICE, log entry 107);
the 64 lines of R123 count without them. -/
def Warp.abortTxns (w : Warp) (m : Mask) (code : Nat) : Warp :=
  { w with txn := w.txn.map (fun e =>
      match e.2 with
      | some x => if m.has e.1 && x.isOpen && x.code = 0 then (e.1, some { x with code := code, wset := [], rset := [] })
                  else e
      | none => e) }

/-- The physical key of the 16-byte slot of code at an address (R131). A damaged line of the page table is an uncorrectable
error of the fetch (R304, R382). -/
def State.codeKey (s : State) (core : Nat) (va : Word) : State × Except MemErr Nat :=
  match s.translateRun core .fetch va 16 with
  | (s1, .error (.page c a w)) => (s1, .error (if c = causeUCE then .uce a else .page c a w))
  | (s1, .error e) => (s1, .error e)
  | (s1, .ok []) => (s1, .error (.page causeNOTMAPPED va false))
  | (s1, .ok (k :: _)) => (s1, .ok k)

/-- A slot of code as home holds it. -/
def State.homeSlot (s : State) (k : Nat) : Word128 :=
  BitVec.ofNat 128 (leNat ((List.range 16).map (fun i => s.homeByte (k + i))))

/-- A slot of code at home cannot be read: its line is damaged (R304), or its peer has not answered (R347). -/
def State.slotBad (s : State) (k : Nat) : Bool := s.lineBad k || s.peerFailed [k, k + 8]

/-- The keys of `n` slots of code from an address on one page, where the page translates; reads of them are held or asked for
as any access is (R14, R346). -/
def State.slotKeys (s : State) (core : Nat) (va : Word) (n : Nat) : State × List (Option Nat) :=
  match s.translate core .fetch va with
  | (s1, .ok (e, b)) =>
    let ks := (List.range n).map (fun i => s1.leafKey e b (va + BitVec.ofNat 64 (16 * i)))
    ((s1.gate ks).askPeers core (ks ++ ks.map (· + 8)) false, ks.map some)
  | (s1, .error _) => (s1, List.replicate n none)

/-- The slots of a block, as a fetch reads all of them at once (R307): those whose page translates, and that can be read. `k` is
the key of the header at `va`. -/
def State.blockSlots (s : State) (core : Nat) (va : Word) (k : Nat) : State × List (Option Word128) :=
  let n := (Header.ofSlot (s.homeSlot k)).length.toNat + 1
  let room := (2 ^ 16 - va.toNat % 2 ^ 16) / 16
  let r := s.slotKeys core va (Nat.min n room)
  let q := if n ≤ room then (r.1, []) else r.1.slotKeys core (va + BitVec.ofNat 64 (16 * room)) (n - room)
  (q.1, (r.2 ++ q.2).map (fun a => a.bind (fun a => if q.1.slotBad a then none else some (q.1.homeSlot a))))

/-- Slots a block had keep what was fetched of them; those it lacked are filled in. -/
def joinSlots : List (Option Word128) → List (Option Word128) → List (Option Word128)
  | [], new => new
  | old, [] => old
  | o :: old, n :: new => (o <|> n) :: joinSlots old new

/-- The slots an instruction cache of 128 KiB holds (R21). -/
def codeSlots : Nat := 8192

/-- A split of a core stands in the block of code whose header has a key: the block runs its old words, or its new ones
(R307). -/
def State.standsIn (s : State) (core a : Nat) : Bool :=
  s.warps.any (fun e => keyCore e.1 = core && e.2.any (fun w =>
    (w.splits ++ w.stacked).any (fun p => decide (1 ≤ p.idx) && decide (p.hdr.toNat % 2 ^ 16 = a % 2 ^ 16))))

/-- Blocks leave an instruction cache that is full, until what it holds fits: which ones, no rule says (FREE VALUE). One that
`stay` selects does not. `fuel` is the number of blocks. -/
def evictCode (stay : Nat → Bool) : Nat → Nat → Sparse (List (Option Word128)) → Sparse (List (Option Word128))
  | 0, _, code => code
  | fuel + 1, n, code =>
    if code.foldl (fun a e => a + e.2.length) 0 ≤ codeSlots then code
    else
      let l := code.filter (fun e => !stay e.1)
      match l[Config.freeNat n % l.length]? with
      | some e => evictCode stay fuel (n + 1) (Sparse.erase code e.1)
      | none => code

/-- A block fetched into a core's instruction cache; where the cache is full others leave it (R21). -/
def State.cacheBlock (s : State) (core k : Nat) (l : List (Option Word128)) : State :=
  let c := s.coreAt core
  let code := Sparse.put c.code k l
  s.putCore core { c with code := evictCode (fun a => a = k || s.standsIn core a) code.length (s.freeCtr + 2 ^ 60) code }

/-- Read slot `i` of the block at `va`, 0 for its header, through a core's instruction cache, which fetches the block
whole (R131, R307): every word it gives of the block is of one reading of it. -/
def State.fetchSlot (s : State) (core : Nat) (va : Word) (i : Nat) : State × Except MemErr Word128 :=
  let wva := va + BitVec.ofNat 64 (16 * i)
  match s.codeKey core wva with
  | (s1, .error e) => (s1, .error e)
  | (s1, .ok kw) =>
    match s1.codeKey core va with
    | (s2, .error _) =>
      let s3 := s2.askPeers core [kw, kw + 8] false
      (s3, if s3.slotBad kw then .error (.uce va) else .ok (s3.homeSlot kw))
    | (s2, .ok k) =>
      let old := Sparse.get [] (s2.coreAt core).code k
      match old.getD i none with
      | some v => (s2, .ok v)
      | none =>
        let s3 := s2.askPeers core [kw, kw + 8, k, k + 8] false
        if s3.slotBad kw then (s3, .error (.uce va))
        else
          let r := s3.blockSlots core va k
          let l := joinSlots old r.2
          (r.1.cacheBlock core k l, .ok ((l.getD i none).getD (r.1.homeSlot kw)))

/-- What entering a header finds (R141, R144). -/
inductive HdrRes where
  | ok (hw : Word128)
  | invalid
  | err (e : MemErr)
  deriving DecidableEq, Repr

/-- Fetch and check the header at an address; a misaligned address holds none (R143). `entering` is trap entry. -/
def State.fetchHeader (s : State) (core : Nat) (va : Word) (entering : Bool) : State × HdrRes :=
  if va.toNat % 16 ≠ 0 || !canonical va then (s, .invalid)
  else
    match s.fetchSlot core va 0 with
    | (s1, .error e) => (s1, .err e)
    | (s1, .ok hw) =>
      let h := Header.ofSlot hw
      if h.valid entering && (!entering || h.trap) then (s1, .ok hw) else (s1, .invalid)

/-- The bytes of a trap frame (Table 20.2). -/
def trapFrame (tpc taddr tsp : Word) (tmask smask : Mask) (cause code : Nat) : List Byte :=
  leBytes 8 tpc.toNat ++ leBytes 8 taddr.toNat ++ leBytes 4 tmask.toNat ++ leBytes 4 smask.toNat ++
  leBytes 1 cause ++ leBytes 3 0 ++ leBytes 4 code ++ leBytes 8 tsp.toNat ++ leBytes 24 0

/-- The address `$fault` reads in handler mode (R301). -/
def faultValue (tr : Trap) (tpc : Word) : Word := if tr.cause = tSEQUENCE then tr.addr else tpc

/-- Post a NESTED record: the trap is not taken and the warp is descheduled (R299, R303). No access faulted, so Table 20.3
gives `faddr` and `ftmask` no value: FREE VALUES (log entry 65). -/
def State.nested (s : State) (k : Nat) (w : Warp) (p : Split) : State :=
  let s1 := s.putWarp k (w.putSplit { p with stop := some .nested })
  (s1.post (s1.warpRec k w p 0x24 0 (Config.freeWord s.freeCtr) ((Config.freeWord (s.freeCtr + 1)).setWidth 32) 0)
    (.split k p.id) ((s1.blockAt w.blk).map (·.launch))).2

/-- TAKING A TRAP (R299). The open transactions of the split's threads abort, the other splits are held, the trap frame
is written at `$sp` - 64 with plain stores, and the split continues at the header of `ctl.tvec` in handler mode. Where
the warp is already in handler mode, `ctl.tvec` is 0 (Table 10.14) or names no valid trap header, or the frame does not
fit, NESTED is posted instead, and so it is where the header or the translation of the frame meets an uncorrectable error,
for which no rule says what trap entry does (DESIGN CHOICE, log entry 110). A fault of the frame's stores goes to the fault
queue and the trap waits for the replay. -/
def State.takeTrap (s : State) (k : Nat) (pid : Nat) (tr : Trap) : State :=
  match s.warpAt k with
  | none => s
  | some w0 =>
    match w0.splitAt pid with
    | none => s
    | some p =>
      let w := w0.abortTxns p.mask 5
      if w.handler.isSome || s.ctl.tvec = 0 then s.nested k w p
      else
        match s.fetchHeader (keyCore k) s.ctl.tvec true with
        | (s1, .ok hw) =>
          let fsp := w.sp - 64
          if w.sp.toNat < s.stackLo k + 64 || s.stackHi k < w.sp.toNat then s1.nested k w p
          else
            match s1.translateRun (keyCore k) .write fsp 64 with
            | (s2, .ok keys) =>
              let frame := trapFrame p.pc tr.addr w.sp tr.mask p.mask tr.cause tr.code.toNat
              let w1 := {
                w with
                sp := fsp, fault := faultValue tr p.pc, handler := some p.id, trapBlk := (p.hdr, p.hw)
                held := (w.splits.map Split.id ++ w.stacked.map Split.id).filter (fun i => i ≠ p.id)
                regions := if w.regions.contains (Header.ofSlot hw).region then w.regions else (Header.ofSlot hw).region :: w.regions }
              let w2 := w1.putSplit { p with hdr := s1.ctl.tvec, hw := hw, idx := 1, stop := none }
              ((s2.putWarp k w2).storeKeys k keys frame).noteFrame k keys
            | (s2, .error (.page c va wk)) =>
              if c = causeUCE then s2.nested k w p
              else
                let (u, s3) := s2.post (s2.warpRec k w p c (1 + if wk then 8 else 0) va p.mask 0) (.split k p.id)
                  ((s2.blockAt w.blk).map (·.launch))
                s3.putWarp k (w.putSplit { p with stop := some (.replay u { i := .ill, T := 0, ops := {}, held := [tr] }) })
            | (s2, .error _) => s2.nested k w p
        | (s1, _) => s1.nested k w p

/-- The trap a word takes when several were raised: the lowest cause code, with the threads that raised it and the
address of the lowest-numbered of them (R382). -/
def pickTrap (ts : List Trap) : Option Trap :=
  match ts with
  | [] => none
  | x :: rest =>
    let c := rest.foldl (fun a y => Nat.min a y.cause) x.cause
    let same := ts.filter (fun y => y.cause = c)
    let m := same.foldl (fun (a : Mask) y => a ||| y.mask) 0
    let low := same.foldl (fun (a : Trap) y =>
      if (Mask.lowest y.mask).getD 32 < (Mask.lowest a.mask).getD 32 then y else a) (same.getD 0 x)
    some { cause := c, mask := m, addr := low.addr, code := low.code }

end Sys2Proof.Machine
end

