-- ==== Sys2Proof/Machine/Operands.lean ====
section
/-! DEFINITION. Operands.lean: guards, every operand form and every destination form (R132-R138, R152, R160). -/

namespace Sys2Proof.Machine

/-- How a source slot is read (R134, R160). -/
inductive OTy where
  /-- A 64-bit or bit operand. -/
  | bits
  /-- Sub-elements of a width; a format where they are floating-point numbers. -/
  | elems (w : Nat) (f : Option FFmt)
  deriving DecidableEq, Repr

/-- How a slot with an element type is read. The three conversion-only types are bit patterns (R57). -/
def ETy.otyOf (t : ETy) : OTy :=
  match t with
  | .e4m3x8 | .e5m2x8 | .e2m1x16 => .elems t.width none
  | _ => .elems t.width (ETy.fmt t)

/-- How CVT's source is read: its three conversion-only types are floating-point numbers there (R178). -/
def ETy.otyCvt (t : ETy) : OTy := .elems t.width (ETy.fmt t)

/-- A small immediate converted exactly to a format (R134). -16 to 15 is exact in every format that has arithmetic; a
value that the format does not hold, possible only as a source of CVT in E5M2 and E2M1, is a FREE VALUE (log entry 7). -/
def smallFloat (f : FFmt) (v : Int) : Nat :=
  let r := f.round false (.mode .rne 0) (decide (v < 0)) v.natAbs 0 false
  if r.2 = 0 then r.1 else Config.freePick 1 f.maxB (ofInt 8 v) % 2 ^ f.width

/-- The value of a small immediate (R134). -/
def smallWord (ty : OTy) (v : Fin 32) : Word :=
  match ty with
  | .bits => BitVec.ofInt 64 (smallVal v)
  | .elems w (some f) => packElems w (List.replicate (64 / w) (smallFloat f (smallVal v)))
  | .elems w none => packElems w (List.replicate (64 / w) (ofInt w (smallVal v)))

/-- The value of an `imm32` specifier (R134). -/
def immWord (ty : OTy) (k : ImmKind) (imm : BitVec 32) : Word :=
  match k with
  | .asIs | .zext => imm.setWidth 64
  | .sext => imm.signExtend 64
  | .high => imm.setWidth 64 <<< 32
  | .rep =>
    match ty with
    | .elems w _ => packElems w (List.replicate (64 / w) (imm.toNat % 2 ^ w))
    | .bits => imm.setWidth 64

/-- What a word's execution needs besides the registers of its warp: where it runs, its split, its block and launch, its lowest
active thread, the special registers that are read from elsewhere, and the counter of the free values. -/
structure WCtx where
  key    : Nat
  split  : Split
  blk    : Nat
  block  : Option Block
  launch : Option Launch
  time   : Word
  stackLo : Nat
  stackHi : Nat
  lead    : Option Nat := none
  free    : Nat := 0

/-- `$core` (Table 10.9). -/
def coreWord (c : Nat) : Word :=
  BitVec.ofNat 64 (c + colOf c * 2 ^ 8 + rowOf c * 2 ^ 16 + domeOf c * 2 ^ 24)

/-- `$team` (R36). -/
def teamWord (b : Option Block) (l : Option Launch) : Word :=
  match b, l with
  | some x, some y =>
    if y.kind = 0 then BitVec.ofNat 64 (x.pos.1 + x.pos.2 * 2 ^ 8 + y.tw * 2 ^ 16 + y.th * 2 ^ 24) else 0xFFFFFFFF
  | _, _ => 0xFFFFFFFF

/-- Read a special register (Table 10.9); `$sp` reads 0 while there are no stack regions (Table 10.14). -/
def readSpecial (c : WCtx) (w : Warp) (r : Special) (t : Nat) : Word :=
  match r with
  | .tid => BitVec.ofNat 64 t
  | .wid => BitVec.ofNat 64 w.wid
  | .bid => match c.block with | some b => b.bid.setWidth 64 | none => 0
  | .core => coreWord (keyCore c.key)
  | .team => teamWord c.block c.launch
  | .lane => BitVec.ofNat 64 (keyLane c.key)
  | .time => c.time
  | .status => (w.statusOf t).setWidth 64
  | .slim => BitVec.ofNat 64 w.slim
  | .sp => if c.stackLo = c.stackHi then 0 else w.sp
  | .restart => w.restart
  | .rnd => w.rndOf t
  | .part => match c.launch with | some l => l.part.setWidth 64 | none => 0
  | .params => match c.launch with | some l => l.params | none => 0
  | .weight => w.weightOf t
  | .fault => w.fault

/-- Read a source for a thread (Table 10.2); `pv` is the record popped for a queue-port slot (R135). -/
def readSrc (c : WCtx) (w : Warp) (ty : OTy) (imm : BitVec 32) (pv : Word) (x : Spec) (t : Nat) : Word :=
  match x with
  | .d i => w.dGet i t
  | .w i => w.wGet i
  | .p i => if w.pGet i t then 1 else 0
  | .q i => if w.qGet i then 1 else 0
  | .n i => (w.nGet i).setWidth 64
  | .m i => w.mGet i
  | .port _ => pv
  | .special r => readSpecial c w r t
  | .small v => smallWord ty v
  | .imm k => immWord ty k imm
  | .none => 0

/-- Read a predicate slot (R160). -/
def readPred (w : Warp) (x : Spec) (t : Nat) : Bool :=
  match x with
  | .p i => w.pGet i t
  | .q i => w.qGet i
  | _ => false

/-- Whether a guard holds for a thread (R138, Table 10.3). -/
def Guard.holds (g : Guard) (w : Warp) (t : Nat) : Bool :=
  (match g.pred with | .p i => w.pGet i t | .q i => w.qGet i) != g.neg

/-- A thread reads a damaged register through a source (R304). `p7` and `q3` are constants. -/
def damagedBy (w : Warp) (x : Spec) (t : Nat) : Bool :=
  match x with
  | .d i => w.damaged.contains (regD i t)
  | .w i => w.damaged.contains (regW i)
  | .p i => i.val ≠ 7 && w.damaged.contains (regP i t)
  | .q i => i.val ≠ 3 && w.damaged.contains (regQ i)
  | .n i => w.damaged.contains (regN i)
  | .m i => w.damaged.contains (regM i)
  | _ => false

/-- A predicate as a source. -/
def predSpec : Pred → Spec
  | .p i => .p i
  | .q i => .q i

/-- The predicates that a word's guards read. -/
def guards (x : Ctl) : List Spec := [predSpec x.g1.pred, predSpec x.g2.pred]

/-- The active threads of a word: threads of the split for which both guards hold (R138), and those whose guard cannot be
read, for which the word raises UCE and does nothing else (`uceMask`, R304). -/
def activeMask (w : Warp) (p : Split) (x : Ctl) : Mask :=
  Mask.ofPred (fun t => p.mask.has t && ((!w.damaged.isEmpty && (guards x).any (fun y => damagedBy w y t)) ||
    (Guard.holds x.g1 w t && Guard.holds x.g2 w t)))

/-- Pop the records of the queue-port sources in slot order; `none` when one is missing (R135). -/
def popPort (ps : List (Port × Word)) (x : Spec) : Option (List (Port × Word) × Word) :=
  match x with
  | .port q =>
    match ps.find? (fun e => e.1 = q) with
    | some e => some (ps.erase e, e.2)
    | none => none
  | _ => some (ps, 0)

/-- Records popped for the five slots. -/
structure Pops where
  a : Word := 0
  b : Word := 0
  c : Word := 0
  d : Word := 0
  e : Word := 0
  deriving DecidableEq, Repr

def popAll (ps : List (Port × Word)) (o : Slots) : Option (List (Port × Word) × Pops) :=
  match popPort ps o.a with
  | none => none
  | some (p1, a) =>
    match popPort p1 o.b with
    | none => none
    | some (p2, b) =>
      match popPort p2 o.c with
      | none => none
      | some (p3, c) =>
        match popPort p3 o.d with
        | none => none
        | some (p4, d) =>
          match popPort p4 o.e with
          | none => none
          | some (p5, e) => some (p5, { a := a, b := b, c := c, d := d, e := e })

/-- How the five slots of an entry are read. -/
structure OTys where
  a : OTy := .bits
  b : OTy := .bits
  c : OTy := .bits
  d : OTy := .bits
  e : OTy := .bits

/-- Read every slot for every thread of the warp (R132 step 3). A destination slot reads its register's old value. -/
def readOps (c : WCtx) (w : Warp) (ty : OTys) (o : Slots) (pv : Pops) : Opnds :=
  { a := (List.range 32).map (readSrc c w ty.a o.imm pv.a o.a),
    b := (List.range 32).map (readSrc c w ty.b o.imm pv.b o.b),
    c := (List.range 32).map (readSrc c w ty.c o.imm pv.c o.c),
    d := (List.range 32).map (readSrc c w ty.d o.imm pv.d o.d),
    e := (List.range 32).map (readSrc c w ty.e o.imm pv.e o.e) }

def Opnds.ga (o : Opnds) (t : Nat) : Word := o.a.getD t 0
def Opnds.gb (o : Opnds) (t : Nat) : Word := o.b.getD t 0
def Opnds.gc (o : Opnds) (t : Nat) : Word := o.c.getD t 0
def Opnds.gd (o : Opnds) (t : Nat) : Word := o.d.getD t 0
def Opnds.ge (o : Opnds) (t : Nat) : Word := o.e.getD t 0

/-- The active threads that consume an uncorrectable error in a register. -/
def uceMask (w : Warp) (srcs : List Spec) (T : Mask) : Mask :=
  if w.damaged = [] then 0 else Mask.ofPred (fun t => T.has t && srcs.any (fun x => damagedBy w x t))

/-- The address a `$sp` write must meet (R152). -/
def spOk (c : WCtx) (v : Word) : Bool :=
  v.toNat % 16 = 0 && c.stackLo ≤ v.toNat && v.toNat ≤ c.stackHi

/-- Whether the divergence stack holds no entry (R45). -/
def Warp.depth (w : Warp) : Nat :=
  (w.recs.filter (fun r => r.parent.isSome)).length + w.stacked.length + w.calls.length

/-- The trap that a write of `$slim` or `$sp` raises (R45, R152). -/
def dstTrap (c : WCtx) (w : Warp) (T : Mask) (x : Spec) (v : Word) : Option Trap :=
  match x with
  | .special .slim =>
    if w.depth = 0 && 4 ≤ v.toNat && v.toNat ≤ 56 then none
    else some { cause := tDIVSTACK, mask := T, addr := 0 }
  | .special .sp =>
    if spOk c v then none else some { cause := tSTACK, mask := T, addr := v }
  | _ => none

/-- Write one register of a word's destination for a thread (per-thread kinds). -/
def writeThread (w : Warp) (x : Spec) (t : Nat) (v : Word) : Warp :=
  match x with
  | .d i => (w.dSet i t v).mend (regD i t)
  | .p i => (w.pSet i t (v.getLsbD 0)).mend (regP i t)
  | .special .status => w.writeStatus t v
  | .special .rnd => w.rndSet t v
  | _ => w

/-- Write a per-warp destination (R135). -/
def writeWarp (w : Warp) (x : Spec) (v : Word) : Warp :=
  match x with
  | .w i => (w.wSet i v).mend (regW i)
  | .q i => (w.qSet i (v.getLsbD 0)).mend (regQ i)
  | .n i => (w.nSet i (v.setWidth 32)).mend (regN i)
  | .m i => (w.mSet i v).mend (regM i)
  | .special .slim => { w with slim := v.toNat }
  | .special .sp => { w with sp := v }
  | _ => w

/-- A destination that is one register for the warp. -/
def isWarpDst : Spec → Bool
  | .w _ | .q _ | .n _ | .m _ | .special .slim | .special .sp => true
  | _ => false

/-- The tag a destination takes (R151, R163): general unless the word says otherwise and every thread of the warp that
has not exited takes part. -/
def Warp.setTag (w : Warp) (x : Spec) (T : Mask) (tag : Tag) : Warp :=
  match x with
  | .d i => { w with tags := Sparse.set .general w.tags i (if T = ~~~ w.exited then tag else .general) }
  | _ => w

/-- Write a destination for the threads of `T` (R132 step 5, R135): per-thread kinds for each, a per-warp kind from the
lowest-numbered thread of `T`. -/
def writeDst (w : Warp) (x : Spec) (T : Mask) (tag : Tag) (val : Nat → Word) : Warp :=
  if T = 0 then w
  else if isWarpDst x then
    match T.lowest with
    | some t => writeWarp w x (val t)
    | none => w
  else (T.threads.foldl (fun acc t => writeThread acc x t (val t)) w).setTag x T tag

/-- The specifiers an operand slot with a live count names (R137, R146). -/
def specLive (h : Header) : Spec → Bool
  | .d i => i.val < h.dlive.toNat
  | .w i => i.val < h.wcount
  | _ => true

/-- The two conditions of Table 10.13 that depend on the block: live counts, and a selector other than SEQ only in the
last word; RFT stands only in the last word (R137, R141, R146, R318). -/
def wordFits (h : Header) (idx : Nat) (i : Instr) : Bool :=
  match i.entry with
  | none => true
  | some n =>
    specLive h n.o.a && specLive h n.o.b && specLive h n.o.c && specLive h n.o.d && specLive h n.o.e &&
    (match n.x.seq.indReg with | some r => specLive h (.w r) | none => true) &&
    (decide (n.x.seq = .seq) || decide (idx = h.length.toNat)) &&
    (match i with | .rft .. => decide (idx = h.length.toNat) | _ => true)

end Sys2Proof.Machine
end

