-- ==== Sys2Proof/Machine/Barriers.lean ====
section
/-! DEFINITION. Barriers.lean: arrival and completion of block barriers and team barriers (R119, R224-R226). -/

namespace Sys2Proof.Machine

/-- What an exited warp's arrival is renamed to, so that a later warp in its slot is another warp (R226). -/
def goneWid (wid : Nat) : Nat := wid + 1000

/-! ## BAR (R224) -/

def Block.barAt (b : Block) (id : Nat) : Bar := Sparse.get {} b.bars id
def Block.putBar (b : Block) (id : Nat) (x : Bar) : Block := { b with bars := Sparse.put b.bars id x }

/-- A warp is stopped in `.hold` on an id. -/
def Warp.holding (w : Warp) (id : Nat) : Bool :=
  w.splits.any (fun p => match p.stop with | some (.bar i _ true _) => i = id | _ => false)

/-- A warp all of whose non-exited threads have executed the barrier arrives; the first arrival's count governs. What its
threads have executed is used up by the arrival: what they execute after it counts toward the next generation. -/
def barArrive (x : Bar) (w : Warp) : Bar :=
  let m : Mask := Sparse.get 0 x.parts w.wid
  if m ≠ 0 && !x.arrived.contains w.wid && ((~~~ w.exited) &&& ~~~ m) = 0 then
    { x with
      arrived := x.arrived ++ [w.wid], count := some (x.count.getD (Sparse.get 0 x.want w.wid))
      parts := Sparse.erase x.parts w.wid, want := Sparse.erase x.want w.wid }
  else x

/-- Completion: the arrived warps reach the count, or under count 0 every warp that has not exited has arrived or holds. -/
def barComplete (x : Bar) (id : Nat) (ws : List Warp) : Bool :=
  match x.count with
  | none => false
  | some 0 => ws.all (fun w => x.arrived.contains w.wid || w.holding id)
  | some n => n ≤ x.arrived.length

/-- Bring a barrier id of a block up to date. A warp that has not arrived when a generation completes is one of the next:
its parked splits stay parked. -/
def State.barUpdate (s : State) (blk id : Nat) : State :=
  match s.blockAt blk with
  | none => s
  | some b =>
    let ws := (s.blockWarps blk).map Prod.snd
    let x := ws.foldl barArrive (b.barAt id)
    let x1 := if barComplete x id ws then { x with gen := x.gen + 1, count := none, arrived := [] } else x
    if x1 = b.barAt id then s else s.putBlock blk (b.putBar id x1)

/-! ## TBAR (R225) -/

/-- Whether a team position lies in a group. -/
def TBar.inside (x : TBar) (pos : Nat × Nat) : Bool :=
  x.origin.1 ≤ pos.1 && pos.1 < x.origin.1 + x.size.1 && x.origin.2 ≤ pos.2 && pos.2 < x.origin.2 + x.size.2

/-- The warps that take part: every non-exited warp of the group's blocks, saved blocks among them. -/
def State.tbarWarps (s : State) (l : Nat) (x : TBar) : List (Nat × Warp) :=
  (s.launchBlocks l).flatMap (fun b => if x.inside b.2.pos then (s.blockWarps b.1).map (fun e => (b.1, e.2)) else []) ++
  s.saved.flatMap (fun v =>
    if v.alive && v.blk.launch = l && x.inside v.blk.pos then v.warps.map (fun e => (v.blkId, e.2)) else [])

/-- Exchange the banks of the participating blocks (R119). -/
def State.swapBanks (s : State) (l : Nat) (x : TBar) : State :=
  let sw (b : Block) : Block := { b with live := b.shadow, shadow := b.live }
  let s1 := (s.launchBlocks l).foldl (fun st b => if x.inside b.2.pos then st.putBlock b.1 (sw b.2) else st) s
  { s1 with saved := s1.saved.map (fun v =>
      if v.alive && v.blk.launch = l && x.inside v.blk.pos then { v with blk := sw v.blk } else v) }

/-- The threads of a warp that have executed a team barrier. -/
def TBar.part (x : TBar) (key : Nat × Nat) : Mask :=
  match x.parts.find? (fun e => e.1 = key) with
  | some e => e.2
  | none => 0
def TBar.addPart (x : TBar) (key : Nat × Nat) (m : Mask) (swap : Bool) : TBar :=
  let old := x.part key
  { x with
    parts := x.parts.filter (fun e => e.1 ≠ key) ++ [(key, old ||| m)]
    swaps := if swap && !x.swaps.contains key then key :: x.swaps else x.swaps }

/-- Put back a team barrier of a launch. -/
def State.putTBar (s : State) (l : Nat) (x : TBar) : State :=
  match s.launchAt l with
  | none => s
  | some y =>
    s.putLaunch l { y with tbars := y.tbars.map (fun z =>
      if z.id = x.id && z.spec = x.spec && z.origin = x.origin then x else z) }

/-- Bring a team barrier up to date: arrivals release at team scope, and bring the `.swap` their threads have executed into
the generation they arrive in; the last one completes it. -/
def State.tbarUpdate (s : State) (l : Nat) (x : TBar) : State :=
  let ws := s.tbarWarps l x
  let new := ws.filter (fun e =>
    let key := (e.1, e.2.wid)
    x.part key ≠ 0 && !x.arrived.contains key && ((~~~ e.2.exited) &&& ~~~ x.part key) = 0)
  let keys := new.map (fun e => (e.1, e.2.wid))
  let x1 := { x with
    arrived := x.arrived ++ keys, parts := x.parts.filter (fun e => !keys.contains e.1)
    swap := x.swap || keys.any x.swaps.contains, swaps := x.swaps.filter (fun e => !keys.contains e) }
  let s1 := new.foldl (fun st e =>
    match st.blockAt e.1 with
    | some b => st.release b.core (st.launchAt l) .team
    | none => st) s
  if x1.arrived ≠ [] && ws.all (fun e => x1.arrived.contains (e.1, e.2.wid)) then
    let s2 := if x1.swap then s1.swapBanks l x1 else s1
    s2.putTBar l { x1 with gen := x1.gen + 1, arrived := [], swap := false }
  else s1.putTBar l x1

/-! ## Exits (R226) -/

/-- A warp that exits leaves every barrier it has not arrived at. It is called once the warp is gone. -/
def State.leaveBarriers (s : State) (blk wid : Nat) : State :=
  match s.blockAt blk with
  | none => s
  | some b =>
    let ren (x : Nat) : Nat := if x = wid then goneWid wid else x
    let s1 := s.putBlock blk { b with bars := b.bars.map (fun e =>
      (e.1, { e.2 with arrived := e.2.arrived.map ren, parts := Sparse.erase e.2.parts wid })) }
    let s2 := b.bars.foldl (fun st e => st.barUpdate blk e.1) s1
    match s2.launchAt b.launch with
    | none => s2
    | some l =>
      let ren2 (x : Nat × Nat) : Nat × Nat := if x = (blk, wid) then (blk, goneWid wid) else x
      let tb := l.tbars.map (fun z => { z with
        arrived := z.arrived.map ren2, parts := z.parts.filter (fun e => e.1 ≠ (blk, wid))
        swaps := z.swaps.filter (fun e => e ≠ (blk, wid)) })
      let s3 := if tb = l.tbars then s2 else s2.putLaunch b.launch { l with tbars := tb }
      tb.foldl (fun st z => st.tbarUpdate b.launch z) s3

end Sys2Proof.Machine
end

