-- ==== Sys2Proof/Machine/Sequence.lean ====
section
/-! DEFINITION. Sequence.lean: transfers, divergence, reconvergence, calls and the sequencing act of a word (R45, R46,
R139-R142), and the frame every instruction word is executed in (R132). -/

namespace Sys2Proof.Machine

/-! ## Splits and records of a warp (R45) -/

def Warp.recAt (w : Warp) (i : Nat) : Option RRec := w.recs.find? (fun r => r.id = i)
def Warp.putRec (w : Warp) (r : RRec) : Warp := { w with recs := w.recs.map (fun y => if y.id = r.id then r else y) }
def Warp.dropRec (w : Warp) (i : Nat) : Warp := { w with recs := w.recs.filter (fun r => r.id ≠ i) }
def Warp.dropSplit (w : Warp) (i : Nat) : Warp := { w with splits := w.splits.filter (fun x => x.id ≠ i) }

/-- A call entry is freed once no split shares it (R142). -/
def Warp.pruneCalls (w : Warp) : Warp :=
  { w with calls := w.calls.filter (fun c => w.splits.any (fun x => x.calls.contains c.id) ||
      w.stacked.any (fun x => x.calls.contains c.id) || w.recs.any (fun r => r.calls.contains c.id)) }

/-- Note the region of a header a warp enters (R310). -/
def Warp.noteRegion (w : Warp) (hw : Word128) : Warp :=
  let r := (Header.ofSlot hw).region
  if w.regions.contains r then w else { w with regions := r :: w.regions }

/-- A split enters the block at its header: it is live there, at the block's first word. -/
def Warp.enter (w : Warp) (x : Split) : Warp :=
  let x' := { x with idx := 1, stop := none }
  (if w.splits.any (fun y => y.id = x.id) then w.putSplit x' else { w with splits := w.splits ++ [x'] }).noteRegion x.hw

/-- A number that names no split, record or call entry of the warp. -/
def Warp.freshId (w : Warp) : Nat :=
  (w.splits.map (·.id) ++ w.stacked.map (·.id) ++ w.recs.map (·.id) ++ w.calls.map (·.id)).foldl
    (fun a i => Nat.max a (i + 1)) w.nextId

/-- A merged, parked or removed split's record loses a member; at zero the record merges (R45). `fuel` bounds the
nesting. The split of a merge reaches the header of the join, and parks at once where its parent names the same join. -/
def Warp.merge : Nat → Warp → Nat → Warp
  | 0, w, _ => w
  | fuel + 1, w, n =>
    match w.recAt n with
    | none => w
    | some r =>
      match r.parent with
      | none => { w with splits := [], stacked := [], recs := [] }
      | some pr =>
        let w1 := w.dropRec n
        match w1.recAt pr with
        | none => w1
        | some q =>
          if r.parked = 0 then
            let q' := { q with members := q.members - 1 }
            let w2 := w1.putRec q'
            if q'.members = 0 then Warp.merge fuel w2 pr else w2
          else
            match r.join with
            | none => w1
            | some j =>
              if q.join = some j then
                let q' := { q with members := q.members - 1, parked := q.parked ||| r.parked }
                let w2 := w1.putRec q'
                if q'.members = 0 then Warp.merge fuel w2 pr else w2
              else
                let x : Split := {
                  id := w1.freshId, mask := r.parked, hdr := j, hw := r.hw, idx := 1, rcd := pr, calls := r.calls,
                  stop := none, readyAt := 0, overtaken := 0, boosted := false, yieldFor := [] }
                ({ w1 with nextId := w1.freshId + 1 }).enter x

/-- A live split leaves its record, parking its mask there or not (R45). -/
def Warp.leave (w : Warp) (x : Split) (park : Bool) : Warp :=
  let w1 := w.dropSplit x.id
  match w1.recAt x.rcd with
  | none => w1
  | some r =>
    let r' := { r with members := r.members - 1, parked := if park then r.parked ||| x.mask else r.parked }
    let w2 := w1.putRec r'
    if r'.members = 0 then w2.merge (w2.recs.length + 1) x.rcd else w2

/-- A split reaches the header its PC names: it parks where its record joins there, otherwise it enters (R45). -/
def Warp.reach (w : Warp) (x : Split) : Warp :=
  match w.recAt x.rcd with
  | none => w.enter x
  | some r => if r.join = some x.hdr then w.leave x true else w.enter x

/-- Pop stacked splits into free live places (R45), where they become ready (R48). -/
def Warp.refill : Nat → Warp → Warp
  | 0, w => w
  | fuel + 1, w =>
    if w.splits.length < 4 then
      match w.stacked with
      | [] => w
      | x :: rest => Warp.refill fuel (({ w with stacked := rest }).reach { x with readyAt := 0, overtaken := 0 })
    else w

/-- Refill and free call entries nothing shares. -/
def Warp.settle (w : Warp) : Warp := (w.refill (w.stacked.length + 1)).pruneCalls

/-- Every thread of a split has executed END (R45). -/
def Warp.endSplit (w : Warp) (x : Split) : Warp :=
  (({ w with exited := w.exited ||| x.mask }).leave x false).settle

/-- Transfer a split to a checked header (R141). -/
def Warp.goTo (w : Warp) (x : Split) (va : Word) (hw : Word128) : Warp :=
  (w.reach { x with hdr := va, hw := hw }).settle

/-- Divide a split: `taken` goes to the target, the rest to the fall-through (R45). Both carry the boost bit of the word that
divides them, and the new one becomes ready now (R48). -/
def Warp.diverge (w : Warp) (x : Split) (taken : Mask) (join : Option (Word × Word128)) (tgt : Word) (thw : Word128)
    (nxt : Word) (nhw : Word128) : Warp :=
  let u := w.freshId
  let n : RRec := {
    id := u, join := join.map Prod.fst, hw := match join with | some j => j.2 | none => 0,
    parent := some x.rcd, members := 2, parked := 0, calls := x.calls }
  let s1 : Split := { x with mask := taken, hdr := tgt, hw := thw, rcd := n.id }
  let f : Split := {
    x with
    id := u + 1, mask := x.mask &&& ~~~ taken, hdr := nxt, hw := nhw, idx := 1, rcd := n.id, stop := none,
    readyAt := 0, overtaken := 0, yieldFor := [] }
  let live := w.splits.length < 4
  let w1 := { w with nextId := u + 2, recs := w.recs ++ [n] }
  let w2 := if live then { w1 with splits := w1.splits ++ [f] } else { w1 with stacked := f :: w1.stacked }
  let w3 := w2.reach s1
  (if live then w3.reach f else w3).settle

/-- Whether a record lies strictly below another among its descendants: it was created after it (R142). -/
def Warp.below (w : Warp) : Nat → Nat → Nat → Bool
  | 0, _, _ => false
  | fuel + 1, r, top =>
    match w.recAt r with
    | none => false
    | some x =>
      match x.parent with
      | none => false
      | some q => q = top || w.below fuel q top

/-! ## The sequencing act (R139-R142) -/

/-- The frame a word is executed in: the issuing warp, split and what it reads from elsewhere. -/
def State.context (s : State) : Option (WCtx × Warp × Split) :=
  match s.issuer with
  | none => none
  | some r =>
    let k := warpKey r.core r.lane r.slot
    match s.warpAt k with
    | none => none
    | some w =>
      match w.splitAt r.split with
      | none => none
      | some p =>
        some ({ key := k, split := p, blk := w.blk, block := s.blockAt w.blk, launch := s.launchOf w.blk,
                time := s.time, stackLo := s.stackLo k, stackHi := s.stackHi k, free := s.freeCtr }, w, p)

/-- A direct target (R140): a signed count of 16-byte units from the block's header. -/
def Split.target (p : Split) (t : BitVec 13) : Word := p.hdr + (t.signExtend 64) * 16
/-- The word after the calling word (R142). -/
def Split.nextVa (p : Split) : Word := p.hdr + BitVec.ofNat 64 (16 * (p.idx + 1))

/-- The units of weight a `$weight` value denotes: 0 where `tagged` is set, 2^32 for a field of 0 otherwise (R53). The
threads of a formed warp that hold no item carry a set `tagged` bit, which nothing can read since they start exited. -/
def weightUnits (x : Word) : Nat :=
  if x.getLsbD 33 then 0 else if x.extractLsb' 0 32 = 0 then 2 ^ 32 else (x.extractLsb' 0 32).toNat

/-- The memory side of a warp's exit (R53): in a STAGED launch the core publishes at package scope and the threads'
remaining weight goes to the weight word by one far reduction. Where the weight word does not translate the weight is
dropped, and nothing reports it: R53 names no fault for it (DESIGN CHOICE, log entry 93). -/
def State.returnWeight (s : State) (k : Nat) (w : Warp) : State :=
  match s.launchOf w.blk with
  | none => s
  | some l =>
    if l.kind = 2 then
      let s1 := s.release (keyCore k) (some l) .package
      let sum := (List.range 32).foldl (fun acc t =>
        acc + weightUnits (w.weightOf t)) 0
      match s1.translateRun (keyCore k) .write l.wword 8 with
      | (s2, .ok (a :: _)) =>
        -- at a peer's home slice, where it is asked for once (R346)
        if peerKey a then (s2.peerAsk 0 a (.atomic .n64 .add (BitVec.ofNat 64 sum) 0)).1
        else
          let s3 := s2.applyReds (a / 64)
          s3.homeWrite a (leBytes 8 (s3.homeWord a + BitVec.ofNat 64 sum).toNat)
      | (s2, _) => s2
    else s

/-- Commands outlive the warp that pushed them: they keep its place under a key no warp has, with its QFENCEs, which what they
push still obeys (R275, R282), and have no port to deliver a record to (R43, R254, R269). -/
def State.orphan (s : State) (k : Nat) : State :=
  let fences := match s.warpAt k with | some w => w.fences | none => []
  { s with cmds := s.cmds.map (fun c => if c.warp = k then { c with rcd := false, warp := k + 2 ^ 20, fences := fences } else c) }

/-- Put a warp back after a sequencing act; a warp whose last split is gone exits and frees its slot (R43, R45). -/
def State.settleWarp (s : State) (k : Nat) (w : Warp) : State :=
  if w.splits = [] && w.stacked = [] then
    let s1 := match s.blockAt w.blk with
      | some b => s.putBlock w.blk { b with regions := (b.regions ++ w.regions).eraseDups }
      | none => s
    (((s1.returnWeight k w).orphan k).dropWarp k).leaveBarriers w.blk w.wid
  else s.putWarp k w

/-- Take a trap raised by the sequencing act; the split's PC names the word (R141). -/
def State.seqTrap (s : State) (k pid : Nat) (p : Split) (cause : Nat) (va : Word) : State :=
  s.takeTrap k pid { cause := cause, mask := p.mask, addr := va }

/-- A warp of a STAGED launch, which the packer formed (R52). -/
def State.packed (s : State) (w : Warp) : Bool :=
  match s.launchOf w.blk with
  | some l => l.kind = 2
  | none => false

/-- Fetch and check the header a warp's transfer names: one with `stage` set is entered only by a packed warp (R144). -/
def State.fetchEntry (s : State) (k : Nat) (w : Warp) (va : Word) : State × HdrRes :=
  match s.fetchHeader (keyCore k) va false with
  | (s1, .ok hw) => (s1, if (Header.ofSlot hw).stage && !s.packed w then .invalid else .ok hw)
  | r => r

/-- A faulted fetch of a header: the record names the word, the act is repeated at the replay (R302, R303); an
uncorrectable error is raised with `tpc` naming the header (R304). -/
def State.fetchErr (s : State) (k : Nat) (w : Warp) (p : Split) (q : Seq) (va : Word) (e : MemErr) : State :=
  match e with
  | .page c a wk =>
    let (u, s1) := s.post (s.warpRec k w p c (2 + if wk then 8 else 0) a p.mask 0) (.split k p.id)
      ((s.blockAt w.blk).map (·.launch))
    s1.putWarp k (w.putSplit { p with stop := some (.refetch u q) })
  | .uce _ => (s.putWarp k (w.putSplit { p with hdr := va, idx := 0 })).takeTrap k p.id
      { cause := tUCE, mask := p.mask, addr := va }
  | .trap _ a => s.seqTrap k p.id p tSEQUENCE a

/-- Transfer the whole split to a header; `f` changes the warp once the transfer is known to be valid (R141). -/
def State.transfer (s : State) (k : Nat) (w : Warp) (p : Split) (q : Seq) (va : Word)
    (f : Warp → Split → Warp × Split) : State :=
  match s.fetchEntry k w va with
  | (s1, .invalid) => s1.seqTrap k p.id p tSEQUENCE va
  | (s1, .err e) => s1.fetchErr k w p q va e
  | (s1, .ok hw) =>
    let (w1, p1) := f w p
    s1.settleWarp k (w1.goTo p1 va hw)

/-- An IF or IFN (R45, R46, R140). -/
def State.branch (s : State) (k : Nat) (w : Warp) (p : Split) (q : Seq) (taken : Mask) (tgt : Word) : State :=
  if taken = p.mask then s.transfer k w p q tgt Prod.mk
  else if taken = 0 then s.transfer k w p q p.nextVa Prod.mk
  else
    let h := Header.ofSlot p.hw
    let jva := p.hdr + (h.reconv.signExtend 64) * 16
    let j : State × HdrRes := if h.reconv = 0 then (s, .ok 0) else s.fetchEntry k w jva
    match j with
    | (s1, .invalid) => s1.seqTrap k p.id p tSEQUENCE jva
    | (s1, .err e) => s1.fetchErr k w p q jva e
    | (s1, .ok jhw) =>
      let need := if w.splits.length < 4 then 1 else 2
      if w.slim < w.depth + need then s1.seqTrap k p.id p tDIVSTACK 0
      else
        match s1.fetchEntry k w tgt with
        | (s2, .invalid) => s2.seqTrap k p.id p tSEQUENCE tgt
        | (s2, .err e) => s2.fetchErr k w p q tgt e
        | (s2, .ok thw) =>
          match s2.fetchEntry k w p.nextVa with
          | (s3, .invalid) => s3.seqTrap k p.id p tSEQUENCE p.nextVa
          | (s3, .err e) => s3.fetchErr k w p q p.nextVa e
          | (s3, .ok nhw) =>
            s3.settleWarp k (w.diverge p taken (if h.reconv = 0 then none else some (jva, jhw)) tgt thw p.nextVa nhw)

/-- CALL (R142): a valid function header, room on the divergence stack, room for the frame, and then the transfer. The
header comes first: SEQUENCE has the lower cause code (log entry 59). -/
def State.callTo (s : State) (k : Nat) (w : Warp) (p : Split) (q : Seq) (tgt : Word) : State :=
  match s.fetchEntry k w tgt with
  | (s1, .invalid) => s1.seqTrap k p.id p tSEQUENCE tgt
  | (s1, .err e) => s1.fetchErr k w p q tgt e
  | (s1, .ok hw) =>
    let h := Header.ofSlot hw
    if !h.func then s1.seqTrap k p.id p tSEQUENCE tgt
    else if w.slim < w.depth + 1 then s1.seqTrap k p.id p tDIVSTACK 0
    else if w.sp.toNat < s.stackLo k + 16 * h.frame.toNat then
      s1.seqTrap k p.id p tSTACK (w.sp - BitVec.ofNat 64 (16 * h.frame.toNat))
    else
      let c : CallE := { id := w.freshId, ret := p.nextVa, sp := w.sp, rcd := p.rcd }
      let w1 := {
        w with
        nextId := w.freshId + 1, calls := w.calls ++ [c], sp := w.sp - BitVec.ofNat 64 (16 * h.frame.toNat) }
      s1.settleWarp k (w1.goTo { p with calls := c.id :: p.calls } tgt hw)

/-- RET (R142). Table 20.2 asks for the failing target of a SEQUENCE trap: a RET that has no call entry to return by names
none, and the trap has the PC of the RET word (DESIGN CHOICE, log entry 105). -/
def State.retFrom (s : State) (k : Nat) (w : Warp) (p : Split) (q : Seq) : State :=
  match p.calls with
  | [] => s.seqTrap k p.id p tSEQUENCE p.pc
  | i :: rest =>
    match w.calls.find? (fun c => c.id = i) with
    | none => s.seqTrap k p.id p tSEQUENCE p.pc
    | some c =>
      if w.below (w.recs.length + 1) p.rcd c.rcd then s.seqTrap k p.id p tSEQUENCE p.pc
      else s.transfer k w p q c.ret (fun w1 p1 => ({ w1 with sp := c.sp }, { p1 with calls := rest }))

/-- The threads of a split that read a damaged register in a sequencing act (R304): a condition is read for each thread, an
indirect target and a count for the split. -/
def seqUce (w : Warp) (m : Mask) (q : Seq) : Mask :=
  let of (x : Spec) : Mask := if w.damaged.isEmpty then 0 else Mask.ofPred (fun t => m.has t && damagedBy w x t)
  match q with
  | .ifT i _ | .ifN i _ => of (predSpec i)
  | .goInd i | .callInd i => of (.w i)
  | .loop n _ => of (.n n)
  | .seq | .go _ | .call _ | .ret | .fin => 0

/-- The sequencing act of a word of a split (R132 step 6, R139). It comes after the word's writes (step 5), and so does its read
of the w-register of an indirect target: R132 says so of the condition alone, and R140 gives no time (DESIGN CHOICE, log
entry 104). -/
def State.seqAct (s : State) (k pid : Nat) (q : Seq) : State :=
  match s.warpAt k with
  | none => s
  | some w =>
    match w.splitAt pid with
    | none => s
    | some p0 =>
      let p := { p0 with stop := none, readyAt := if p0.stop.isSome then 0 else p0.readyAt }
      let w := w.putSplit p
      let h := Header.ofSlot p.hw
      let pm (i : Pred) (neg : Bool) : Mask :=
        match i with
        | .p j => Mask.ofPred (fun t => p.mask.has t && (w.pGet j t != neg))
        | .q j => if w.qGet j != neg then p.mask else 0
      if seqUce w p.mask q ≠ 0 then s.takeTrap k pid { cause := tUCE, mask := seqUce w p.mask q, addr := 0 }
      else
      match q with
      | .seq =>
        if p.idx < h.length.toNat then s.putWarp k (w.putSplit { p with idx := p.idx + 1 })
        else s.transfer k w p q p.nextVa Prod.mk
      | .go t => s.transfer k w p q (p.target t) Prod.mk
      | .goInd i => s.transfer k w p q (w.wGet i) Prod.mk
      | .ifT i t => s.branch k w p q (pm i false) (p.target t)
      | .ifN i t => s.branch k w p q (pm i true) (p.target t)
      | .call t => s.callTo k w p q (p.target t)
      | .callInd i => s.callTo k w p q (w.wGet i)
      | .ret => s.retFrom k w p q
      | .loop n t =>
        let v := w.nGet n - 1
        s.transfer k w p q (if v ≠ 0 then p.target t else p.nextVa) (fun w1 p1 => (w1.nSet n v, p1))
      | .fin => s.settleWarp k (w.endSplit p)

/-- The end of a word: the trap it raised, or its sequencing act (R132, R382). -/
def State.finish (s : State) (k pid : Nat) (q : Seq) (ts : List Trap) : State :=
  match pickTrap ts with
  | some tr => s.takeTrap k pid tr
  | none => s.seqAct k pid q

/-! ## Words that touch nothing but the registers of their warp (classes 000 to 011) -/

/-- What such a word does once its operands are read: from its frame, its warp, its active threads and operands, the
warp after it and the traps raised. -/
abbrev RegFn := WCtx → Warp → Mask → Opnds → Warp × List Trap

/-- Execute a register word (R132, R138, R168): guards, sources, effect, destinations, sequencing. A queue port with no
record blocks the split before any effect (R135), and threads that read a damaged register raise UCE (R304). -/
def regWord (x : Ctl) (ty : OTys) (srcs : List Spec) (o : Slots) (f : RegFn) (s : State) :
    Host.Outcome State Fault Refusal :=
  match s.context with
  | none => .fault .noIssuer
  | some (c, w, p) =>
    let T := activeMask w p x
    if T = 0 then .next (s.seqAct c.key p.id x.seq)
    else
      match popAll w.ports o with
      | none => .next s
      | some (ports, pv) =>
        let w1 := { w with ports := ports }
        let ops := readOps c w ty o pv
        let u := uceMask w (srcs ++ guards x) T
        let (w2, ts) := f { c with lead := T.lowest } w1 (T &&& ~~~ u) ops
        let us := if u = 0 then [] else [{ cause := tUCE, mask := u, addr := 0 }]
        .next ((s.putWarp c.key w2).finish c.key p.id x.seq (ts ++ us))

end Sys2Proof.Machine
end

