-- ==== Sys2Proof/Machine/Elements.lean ====
section
/-! DEFINITION. Elements.lean: the shared forms of the compute classes: element-wise integer, bit and floating-point
calculation, flags, draws, result tags and destinations (R158-R163, R171). -/

namespace Sys2Proof.Machine

/-! ## Destinations, flags and tags -/

/-- Write a destination after its effect. A refused write of `$slim` or `$sp` traps, and nothing of the word stands: the
warp is left as `w0` (R45, R152, Table 20.1). A per-warp destination takes the value of the word's lowest active thread, and
none where that thread raised a trap (R135, R298). -/
def putDst (c : WCtx) (w0 w : Warp) (x : Spec) (T : Mask) (tag : Tag) (val : Nat → Word) : Warp × List Trap :=
  match T.lowest with
  | none => (w, [])
  | some t =>
    if isWarpDst x && (match c.lead with | some l => l ≠ t | none => false) then (w, [])
    else
    match dstTrap c w T x (val t) with
    | some tr => (w0, [tr])
    | none => (writeDst w x T tag val, [])

/-- Flags of every thread of a mask (R75). -/
def Warp.flagAll (w : Warp) (T : Mask) (f : Nat → Flags) : Warp := T.threads.foldl (fun acc t => acc.setFlags t (f t)) w

/-- The tag a source carries (R151, R163). -/
def srcTag (w : Warp) (x : Spec) : Tag :=
  match x with
  | .d i => Sparse.get .general w.tags i
  | .p _ => .general
  | .port _ => .general
  | .special .tid => .affine 0 1
  | .special .status => .general
  | .special .rnd => .general
  | .special .weight => .general
  | _ => .uniform

/-- The result tag where every source is uniform (R163). -/
def uniTag (w : Warp) (srcs : List Spec) : Tag := if srcs.all (fun x => srcTag w x = .uniform) then .uniform else .general

/-- Base and stride of a uniform or affine source; a uniform operand has stride 0 (Table 12.3). -/
def tagParts (w : Warp) (x : Spec) (v : Word) : Option (Word × Word) :=
  match srcTag w x with
  | .general => none
  | .uniform => some (v, 0)
  | .affine b s => some (b, s)

/-- The result tag of an affine instruction (Table 12.3): base and stride are combined alike. `v` and `u` are the values
of the two sources, which matter where they are uniform. -/
def affTag (w : Warp) (x y : Spec) (v u : Word) (f : Word → Word → Word) : Tag :=
  if srcTag w x = .uniform && srcTag w y = .uniform then .uniform
  else
    match tagParts w x v, tagParts w y u with
    | some (b1, s1), some (b2, s2) => .affine (f b1 b2) (f s1 s2)
    | _, _ => .general

/-- A calculation with no draw: the value and flags of a thread. -/
abbrev Calc := Nat → Word × Flags
/-- A calculation that may draw from `$rnd`: value, flags and the state after. -/
abbrev DrawCalc := Nat → Word → Word × Flags × Word

/-- Perform a calculation for the active threads and write its destination (R132 steps 4 and 5). -/
def runCalc (dst : Spec) (tag : Tag) (f : Calc) (c : WCtx) (w : Warp) (T : Mask) : Warp × List Trap :=
  putDst c w (w.flagAll T (fun t => (f t).2)) dst T tag (fun t => (f t).1)

/-- The same for a calculation that draws (R67): each active thread's `$rnd` advances by its draws. -/
def runDraw (dst : Spec) (tag : Tag) (f : DrawCalc) (c : WCtx) (w : Warp) (T : Mask) : Warp × List Trap :=
  let g (t : Nat) := f t (w.rndOf t)
  let w1 := T.threads.foldl (fun acc t =>
    if (g t).2.2 = w.rndOf t then acc else acc.rndSet t (g t).2.2) w
  putDst c w (w1.flagAll T (fun t => (g t).2.1)) dst T tag (fun t => (g t).1)

/-! ## Element-wise integer calculation (R161) -/

/-- Sub-element `k` as an integer of the type. -/
def elemInt (ty : ETy) (v : Word) (k : Nat) : Int := toInt ty.signed ty.width (elemBits ty.width v k)

/-- Element-wise results packed, with their flags joined. -/
def packFlags (w n : Nat) (f : Nat → Nat × Flags) : Word × Flags :=
  (packElems w ((List.range n).map (fun k => (f k).1)), (List.range n).foldl (fun a k => a ||| (f k).2) 0)

/-- An element-wise integer result: the exact value of each sub-element narrowed (R58, R161). -/
def intMap (ty : ETy) (sat : Bool) (f : Nat → Int × Flags) : Word × Flags :=
  packFlags ty.width ty.count (fun k =>
    let x := f k
    let r := narrowInt ty.signed ty.width sat x.1
    (r.1, r.2 ||| x.2))

/-- An element-wise result on bit patterns. -/
def bitMap (ty : ETy) (f : Nat → Nat) : Word × Flags := packFlags ty.width ty.count (fun k => (f k, 0))

/-- Operand types of an entry whose sources share one element type. -/
def tys (t : ETy) : OTys := { b := ETy.otyOf t, c := ETy.otyOf t, d := ETy.otyOf t, e := ETy.otyOf t }
/-- The same with D read as a plain word. -/
def tysD (t : ETy) : OTys := { b := ETy.otyOf t, c := ETy.otyOf t }
/-- The same with C and D read as plain words. -/
def tysB (t : ETy) : OTys := { b := ETy.otyOf t }

/-- An exact integer function of the sub-elements of B, C and D, as a register word. -/
def intWord (x : Ctl) (m : IMod) (o : Slots) (srcs : List Spec) (f : Int → Int → Int → Int) :
    State → Host.Outcome State Fault Refusal :=
  regWord x (tys m.ty) srcs o (fun c w T v => runCalc o.a (uniTag w srcs) (fun t =>
    intMap m.ty m.sat (fun k => (f (elemInt m.ty (v.gb t) k) (elemInt m.ty (v.gc t) k) (elemInt m.ty (v.gd t) k), 0))) c w T)

/-- A function of the bit patterns of the sub-elements of B, C, D and E, with the width. -/
def bitWord (x : Ctl) (m : IMod) (o : Slots) (srcs : List Spec) (f : Nat → Nat → Nat → Nat → Nat → Nat) :
    State → Host.Outcome State Fault Refusal :=
  regWord x (tys m.ty) srcs o (fun c w T v => runCalc o.a (uniTag w srcs) (fun t =>
    bitMap m.ty (fun k => f m.ty.width (elemBits m.ty.width (v.gb t) k) (elemBits m.ty.width (v.gc t) k)
      (elemBits m.ty.width (v.gd t) k) (elemBits m.ty.width (v.ge t) k))) c w T)

/-- A comparison (R167). -/
def condInt (c : Cond) (b d : Int) : Bool :=
  match c with
  | .eq => b = d | .ne => b ≠ d | .lt => b < d | .le => b ≤ d | .gt => d < b | .ge => d ≤ b

/-- All ones or zero. -/
def allOnes (w : Nat) (b : Bool) : Nat := if b then 2 ^ w - 1 else 0

/-- ICMP and PCMP (R167, R169). -/
def cmpWord (x : Ctl) (m : CMod) (o : Slots) : State → Host.Outcome State Fault Refusal :=
  regWord x (tys m.ty) [o.b, o.c] o (fun c w T v => runCalc o.a (uniTag w [o.b, o.c]) (fun t =>
    bitMap m.ty (fun k => allOnes m.ty.width (condInt m.cond (elemInt m.ty (v.gb t) k) (elemInt m.ty (v.gc t) k)))) c w T)

/-! ## Element-wise floating point (R171) -/

/-- Results of sub-elements in ascending order, each given the draw it may take (R67): `draws k` says whether
sub-element `k` is a rounding, which under RS draws once. -/
def drawFold (rs : Bool) (draws : Nat → Bool) (f : Nat → Nat → Nat × Flags) : List Nat → Word → List Nat × Flags × Word
  | [], r => ([], 0, r)
  | k :: ks, r =>
    let r1 := if rs && draws k then rndStep r else r
    let y := f k (if rs && draws k then r1.toNat / 2 ^ 32 else 0)
    let rest := drawFold rs draws f ks r1
    (y.1 :: rest.1, y.2 ||| rest.2.1, rest.2.2)

/-- An element-wise floating-point result. -/
def fltMap (w n : Nat) (rs : Bool) (draws : Nat → Bool) (f : Nat → Nat → Nat × Flags) (r : Word) : Word × Flags × Word :=
  let y := drawFold rs draws f (List.range n) r
  (packElems w y.1, y.2.1, y.2.2)

/-- A result tag; nothing rounded stochastically is scalarised (R163). -/
def fltTag (w : Warp) (rm : RMode) (srcs : List Spec) : Tag := if rm = .rs then .general else uniTag w srcs

/-- A floating-point function of the sub-elements' encodings B, C and D, given the draw. -/
def fltWord (x : Ctl) (m : FMod) (ty : OTys) (o : Slots) (srcs : List Spec) (draws : Nat → Nat → Bool)
    (f : Nat → Nat → Nat → Nat → Nat × Flags) : State → Host.Outcome State Fault Refusal :=
  let e := m.fty.ety
  regWord x ty srcs o (fun c w T v => runDraw o.a (fltTag w m.rm srcs) (fun t r =>
    fltMap e.width e.count (decide (m.rm = .rs)) (fun k => draws (elemBits e.width (v.gb t) k) (elemBits e.width (v.gc t) k))
      (fun k d => f d (elemBits e.width (v.gb t) k) (elemBits e.width (v.gc t) k) (elemBits e.width (v.gd t) k)) r) c w T)

/-- An encoding as an operand of arithmetic: flushed in the 16-bit types (R71). -/
def FTy.opnd (f : FTy) (x : Nat) : FVal × Flags := (FTy.fmt f).operand (FTy.flushes f) x

/-- A floating-point result that is neither a NaN operand's nor drawn. -/
def FVal.isNan : FVal → Bool
  | .nan => true
  | _ => false

end Sys2Proof.Machine
end

