-- ==== Sys2Proof/Machine/IntLogic.lean ====
section
/-! DEFINITION. IntLogic.lean: opcode class 000, integer and logic (R164-R167, Table 12.4). -/

namespace Sys2Proof.Machine

/-- ILL raises ILLEGAL for the whole split, whatever its other fields (R157). -/
def execIll (s : State) : Host.Outcome State Fault Refusal :=
  match s.context with
  | none => .fault .noIssuer
  | some (c, _, p) => .next (s.takeTrap c.key p.id { cause := tILLEGAL, mask := p.mask, addr := 0 })

/-- The affine form of an IADD or ISUB in a 64-bit type (R163). -/
def affWord (x : Ctl) (m : IMod) (o : Slots) (f : Int → Int → Int) (g : Word → Word → Word) :
    State → Host.Outcome State Fault Refusal :=
  regWord x (tys m.ty) [o.b, o.c] o (fun c w T v =>
    let t0 := T.lowest.getD 0
    runCalc o.a (if m.ty.width = 64 then affTag w o.b o.c (v.gb t0) (v.gc t0) g else uniTag w [o.b, o.c]) (fun t =>
      intMap m.ty m.sat (fun k => (f (elemInt m.ty (v.gb t) k) (elemInt m.ty (v.gc t) k), 0))) c w T)

/-- IADD: b + c. -/
def execIadd (x : Ctl) (m : IMod) (o : Slots) (s : State) : Host.Outcome State Fault Refusal :=
  affWord x m o (fun b c => b + c) (fun b c => b + c) s
/-- ISUB: b - c. -/
def execIsub (x : Ctl) (m : IMod) (o : Slots) (s : State) : Host.Outcome State Fault Refusal :=
  affWord x m o (fun b c => b - c) (fun b c => b - c) s

/-- IADDC: 64-bit addition with carry in from D and carry out to E (R165). -/
def execIaddc (x : Ctl) (o : Slots) (s : State) : Host.Outcome State Fault Refusal :=
  regWord x {} [o.b, o.c, o.d] o (fun c w T v =>
    let sum (t : Nat) : Nat := (v.gb t).toNat + (v.gc t).toNat + (v.gd t).toNat % 2
    let tag := uniTag w [o.b, o.c, o.d]
    let r1 := putDst c w w o.a T tag (fun t => BitVec.ofNat 64 (sum t))
    -- where A's write is refused the word has no effect, the carry included (Table 20.1)
    if r1.2 ≠ [] then (w, r1.2)
    else putDst c r1.1 r1.1 o.e T tag (fun t => if 2 ^ 64 ≤ sum t then 1 else 0)) s

/-- IMUL: b·c. -/
def execImul (x : Ctl) (m : IMod) (o : Slots) (s : State) : Host.Outcome State Fault Refusal :=
  intWord x m o [o.b, o.c] (fun b c _ => b * c) s
/-- IMULH: the upper half of the product. -/
def execImulh (x : Ctl) (m : IMod) (o : Slots) (s : State) : Host.Outcome State Fault Refusal :=
  intWord x m o [o.b, o.c] (fun b c _ => b * c / (2 ^ m.ty.width : Nat)) s
/-- IMAD: b·c + d. -/
def execImad (x : Ctl) (m : IMod) (o : Slots) (s : State) : Host.Outcome State Fault Refusal :=
  intWord x m o [o.b, o.c, o.d] (fun b c d => b * c + d) s

/-- Division and remainder, whose corner cases set DIVZERO (R59, Table 6.2). -/
def divWord (x : Ctl) (m : IMod) (o : Slots) (f : Int → Int → Int × Flags) : State → Host.Outcome State Fault Refusal :=
  regWord x (tys m.ty) [o.b, o.c] o (fun c w T v => runCalc o.a (uniTag w [o.b, o.c]) (fun t =>
    intMap m.ty m.sat (fun k => f (elemInt m.ty (v.gb t) k) (elemInt m.ty (v.gc t) k))) c w T)

/-- IDIV: the quotient truncated toward zero. -/
def execIdiv (x : Ctl) (m : IMod) (o : Slots) (s : State) : Host.Outcome State Fault Refusal :=
  divWord x m o (intDiv m.ty.signed m.ty.width) s
/-- IREM: the remainder with the sign of b. -/
def execIrem (x : Ctl) (m : IMod) (o : Slots) (s : State) : Host.Outcome State Fault Refusal :=
  divWord x m o intRem s

/-- INEG: -b. -/
def execIneg (x : Ctl) (m : IMod) (o : Slots) (s : State) : Host.Outcome State Fault Refusal :=
  intWord x m o [o.b] (fun b _ _ => -b) s
/-- IABS: |b|. -/
def execIabs (x : Ctl) (m : IMod) (o : Slots) (s : State) : Host.Outcome State Fault Refusal :=
  intWord x m o [o.b] (fun b _ _ => b.natAbs) s
/-- IMIN: the lesser. -/
def execImin (x : Ctl) (m : IMod) (o : Slots) (s : State) : Host.Outcome State Fault Refusal :=
  intWord x m o [o.b, o.c] (fun b c _ => if b ≤ c then b else c) s
/-- IMAX: the greater. -/
def execImax (x : Ctl) (m : IMod) (o : Slots) (s : State) : Host.Outcome State Fault Refusal :=
  intWord x m o [o.b, o.c] (fun b c _ => if b ≤ c then c else b) s

/-- AND. -/
def execAnd (x : Ctl) (m : IMod) (o : Slots) (s : State) : Host.Outcome State Fault Refusal :=
  bitWord x m o [o.b, o.c] (fun _ b c _ _ => Nat.land b c) s
/-- OR. -/
def execOr (x : Ctl) (m : IMod) (o : Slots) (s : State) : Host.Outcome State Fault Refusal :=
  bitWord x m o [o.b, o.c] (fun _ b c _ _ => Nat.lor b c) s
/-- XOR. -/
def execXor (x : Ctl) (m : IMod) (o : Slots) (s : State) : Host.Outcome State Fault Refusal :=
  bitWord x m o [o.b, o.c] (fun _ b c _ _ => Nat.xor b c) s
/-- ANDN: b AND NOT c. -/
def execAndn (x : Ctl) (m : IMod) (o : Slots) (s : State) : Host.Outcome State Fault Refusal :=
  bitWord x m o [o.b, o.c] (fun w b c _ _ => Nat.land b (2 ^ w - 1 - c)) s

/-- A left shift of a pattern of width `w`; 0 at and above the width. -/
def shlBits (w b c : Nat) : Nat := if w ≤ c then 0 else b * 2 ^ c % 2 ^ w
/-- A logical right shift. -/
def shrBits (w b c : Nat) : Nat := if w ≤ c then 0 else b / 2 ^ c
/-- An arithmetic right shift; all sign bits at and above the width. -/
def sarBits (w b c : Nat) : Nat := ofInt w (toInt true w b / (2 ^ (if w ≤ c then w else c) : Nat))

/-- SHL: its result stays affine where C is uniform (Table 12.3). -/
def execShl (x : Ctl) (m : IMod) (o : Slots) (s : State) : Host.Outcome State Fault Refusal :=
  regWord x (tys m.ty) [o.b, o.c] o (fun c w T v =>
    let t0 := T.lowest.getD 0
    let cnt := (v.gc t0).toNat
    let tag := if m.ty.width = 64 && srcTag w o.c = .uniform then
        affTag w o.b .none (v.gb t0) 0 (fun b _ => BitVec.ofNat 64 (shlBits 64 b.toNat cnt))
      else uniTag w [o.b, o.c]
    runCalc o.a tag (fun t => bitMap m.ty (fun k =>
      shlBits m.ty.width (elemBits m.ty.width (v.gb t) k) (elemBits m.ty.width (v.gc t) k))) c w T) s
/-- SHR: logical. -/
def execShr (x : Ctl) (m : IMod) (o : Slots) (s : State) : Host.Outcome State Fault Refusal :=
  bitWord x m o [o.b, o.c] (fun w b c _ _ => shrBits w b c) s
/-- SAR: arithmetic in the signed types, logical in the unsigned ones. -/
def execSar (x : Ctl) (m : IMod) (o : Slots) (s : State) : Host.Outcome State Fault Refusal :=
  bitWord x m o [o.b, o.c] (fun w b c _ _ => if m.ty.signed then sarBits w b c else shrBits w b c) s
/-- ROL: rotated left by c mod w. -/
def execRol (x : Ctl) (m : IMod) (o : Slots) (s : State) : Host.Outcome State Fault Refusal :=
  bitWord x m o [o.b, o.c] (fun w b c _ _ => b * 2 ^ (c % w) % 2 ^ w + b / 2 ^ (w - c % w)) s

/-- CLZ: leading zero bits. -/
def execClz (x : Ctl) (m : IMod) (o : Slots) (s : State) : Host.Outcome State Fault Refusal :=
  bitWord x m o [o.b] (fun w b _ _ _ => if b = 0 then w else w - 1 - Nat.log2 b) s
/-- CTZ: trailing zero bits. -/
def execCtz (x : Ctl) (m : IMod) (o : Slots) (s : State) : Host.Outcome State Fault Refusal :=
  bitWord x m o [o.b] (fun w b _ _ _ => ((List.range w).find? (fun i => b.testBit i)).getD w) s
/-- POPC: one bits. -/
def execPopc (x : Ctl) (m : IMod) (o : Slots) (s : State) : Host.Outcome State Fault Refusal :=
  bitWord x m o [o.b] (fun w b _ _ _ => (List.range w).foldl (fun a i => a + b / 2 ^ i % 2) 0) s
/-- BREV: bits reversed. -/
def execBrev (x : Ctl) (m : IMod) (o : Slots) (s : State) : Host.Outcome State Fault Refusal :=
  bitWord x m o [o.b] (fun w b _ _ _ => (List.range w).foldl (fun a i => a + b / 2 ^ i % 2 * 2 ^ (w - 1 - i)) 0) s

/-- The length a field takes (R166). -/
def fieldLen (w pos len : Nat) : Nat := if len = 0 || w ≤ pos then 0 else Nat.min len (w - pos)

/-- BFX: extract the field at C of length D, sign-extended in the signed types (R166). -/
def execBfx (x : Ctl) (m : IMod) (o : Slots) (s : State) : Host.Outcome State Fault Refusal :=
  bitWord x m o [o.b, o.c, o.d] (fun w b c d _ =>
    let l := fieldLen w c d
    if l = 0 then 0
    else
      let f := b / 2 ^ c % 2 ^ l
      if m.ty.signed then ofInt w (toInt true l f) else f) s
/-- BFI: c with the field at D of length E replaced from b (R166). -/
def execBfi (x : Ctl) (m : IMod) (o : Slots) (s : State) : Host.Outcome State Fault Refusal :=
  bitWord x m o [o.b, o.c, o.d, o.e] (fun w b c d e =>
    let l := fieldLen w d e
    if l = 0 then c else c % 2 ^ d + b % 2 ^ l * 2 ^ d + c / 2 ^ (d + l) * 2 ^ (d + l)) s

/-- SEL: b where D holds, else c, as bit patterns. -/
def execSel (x : Ctl) (m : IMod) (o : Slots) (s : State) : Host.Outcome State Fault Refusal :=
  regWord x (tysD m.ty) [o.b, o.c, o.d] o (fun c w T v => runCalc o.a (uniTag w [o.b, o.c, o.d]) (fun t =>
    (if (v.gd t).getLsbD 0 then v.gb t else v.gc t, 0)) c w T) s
/-- MOV: b as a bit pattern; a 64-bit integer MOV keeps an affine tag. -/
def execMov (x : Ctl) (m : IMod) (o : Slots) (s : State) : Host.Outcome State Fault Refusal :=
  regWord x (tys m.ty) [o.b] o (fun c w T v =>
    let t0 := T.lowest.getD 0
    let tag := if m.ty = .i64 || m.ty = .n64 then affTag w o.b .none (v.gb t0) 0 (fun b _ => b) else uniTag w [o.b]
    runCalc o.a tag (fun t => (v.gb t, 0)) c w T) s
/-- LEA: b + (c << (d mod w)), wrapping. -/
def execLea (x : Ctl) (m : IMod) (o : Slots) (s : State) : Host.Outcome State Fault Refusal :=
  regWord x (tys m.ty) [o.b, o.c, o.d] o (fun c w T v =>
    let t0 := T.lowest.getD 0
    let d := (v.gd t0).toNat % 64
    let tag := if m.ty.width = 64 && srcTag w o.d = .uniform then
        affTag w o.b o.c (v.gb t0) (v.gc t0) (fun b c => b + c <<< d)
      else uniTag w [o.b, o.c, o.d]
    runCalc o.a tag (fun t => bitMap m.ty (fun k =>
      let e := m.ty.width
      (elemBits e (v.gb t) k + elemBits e (v.gc t) k * 2 ^ (elemBits e (v.gd t) k % e)) % 2 ^ e)) c w T) s
/-- ICMP (R167). -/
def execIcmp (x : Ctl) (m : CMod) (o : Slots) (s : State) : Host.Outcome State Fault Refusal := cmpWord x m o s

end Sys2Proof.Machine
end

