-- ==== Sys2Proof/Machine/Packed.lean ====
section
/-! DEFINITION. Packed.lean: the packed integer instructions of class 001 (R169, R170, Table 12.5). -/

namespace Sys2Proof.Machine

/-- PADD: b + c. -/
def execPadd (x : Ctl) (m : IMod) (o : Slots) (s : State) : Host.Outcome State Fault Refusal :=
  intWord x m o [o.b, o.c] (fun b c _ => b + c) s
/-- PSUB: b - c. -/
def execPsub (x : Ctl) (m : IMod) (o : Slots) (s : State) : Host.Outcome State Fault Refusal :=
  intWord x m o [o.b, o.c] (fun b c _ => b - c) s
/-- PMUL: b·c, or its upper half with `.hi`. -/
def execPmul (x : Ctl) (m : IMod) (o : Slots) (s : State) : Host.Outcome State Fault Refusal :=
  intWord x m o [o.b, o.c] (fun b c _ => if m.var then b * c / (2 ^ m.ty.width : Nat) else b * c) s
/-- PMAD: b·c + d. -/
def execPmad (x : Ctl) (m : IMod) (o : Slots) (s : State) : Host.Outcome State Fault Refusal :=
  intWord x m o [o.b, o.c, o.d] (fun b c d => b * c + d) s
/-- PMIN: the lesser. -/
def execPmin (x : Ctl) (m : IMod) (o : Slots) (s : State) : Host.Outcome State Fault Refusal :=
  intWord x m o [o.b, o.c] (fun b c _ => if b ≤ c then b else c) s
/-- PMAX: the greater. -/
def execPmax (x : Ctl) (m : IMod) (o : Slots) (s : State) : Host.Outcome State Fault Refusal :=
  intWord x m o [o.b, o.c] (fun b c _ => if b ≤ c then c else b) s
/-- PABS: |b|. -/
def execPabs (x : Ctl) (m : IMod) (o : Slots) (s : State) : Host.Outcome State Fault Refusal :=
  intWord x m o [o.b] (fun b _ _ => b.natAbs) s
/-- PAVG: (b + c + 1) / 2 rounded down. -/
def execPavg (x : Ctl) (m : IMod) (o : Slots) (s : State) : Host.Outcome State Fault Refusal :=
  intWord x m o [o.b, o.c] (fun b c _ => (b + c + 1) / 2) s

/-- PSAD and PDOT: a sum over the sub-elements added to D, as whole 64-bit integers (R170). -/
def reduceWord (x : Ctl) (m : IMod) (o : Slots) (f : Int → Int → Int) : State → Host.Outcome State Fault Refusal :=
  regWord x (tysD m.ty) [o.b, o.c, o.d] o (fun c w T v => runCalc o.a (uniTag w [o.b, o.c, o.d]) (fun t =>
    let sum := (List.range m.ty.count).foldl (fun acc k => acc + f (elemInt m.ty (v.gb t) k) (elemInt m.ty (v.gc t) k))
      (toInt m.ty.signed 64 (v.gd t).toNat)
    let r := narrowInt m.ty.signed 64 m.sat sum
    (BitVec.ofNat 64 r.1, r.2)) c w T)

/-- PSAD: D plus the sum of |b - c|. -/
def execPsad (x : Ctl) (m : IMod) (o : Slots) (s : State) : Host.Outcome State Fault Refusal :=
  reduceWord x m o (fun b c => (b - c).natAbs) s
/-- PDOT: D plus the sum of b·c. -/
def execPdot (x : Ctl) (m : IMod) (o : Slots) (s : State) : Host.Outcome State Fault Refusal :=
  reduceWord x m o (fun b c => b * c) s
/-- PCMP: as ICMP. -/
def execPcmp (x : Ctl) (m : CMod) (o : Slots) (s : State) : Host.Outcome State Fault Refusal := cmpWord x m o s
/-- PSHL: 0 at and above the width. -/
def execPshl (x : Ctl) (m : IMod) (o : Slots) (s : State) : Host.Outcome State Fault Refusal :=
  bitWord x m o [o.b, o.c] (fun w b c _ _ => shlBits w b c) s
/-- PSHR: arithmetic in the signed types, logical in the unsigned ones. -/
def execPshr (x : Ctl) (m : IMod) (o : Slots) (s : State) : Host.Outcome State Fault Refusal :=
  bitWord x m o [o.b, o.c] (fun w b c _ _ => if m.ty.signed then sarBits w b c else shrBits w b c) s

end Sys2Proof.Machine
end

