-- ==== Sys2Proof/Machine/FloatOps.lean ====
section
/-! DEFINITION. FloatOps.lean: the floating-point instructions of class 001 (R171-R174, Table 12.6). -/

namespace Sys2Proof.Machine

/-- A rounded exact sum of b and c, where `f` gives the second term. -/
def sumWord (x : Ctl) (m : FMod) (o : Slots) (f : FVal → FVal) : State → Host.Outcome State Fault Refusal :=
  fltWord x m (tys m.fty.ety) o [o.b, o.c] (fun _ _ => true) (fun r b c _ =>
    let u := FTy.opnd m.fty b
    let v := FTy.opnd m.fty c
    let y := (FTy.fmt m.fty).sum (FTy.flushes m.fty) m.rm r false [u.1.term, (f v.1).term]
    (y.1, y.2 ||| u.2 ||| v.2))

/-- FADD: round(b + c). -/
def execFadd (x : Ctl) (m : FMod) (o : Slots) (s : State) : Host.Outcome State Fault Refusal := sumWord x m o id s
/-- FSUB: round(b - c). -/
def execFsub (x : Ctl) (m : FMod) (o : Slots) (s : State) : Host.Outcome State Fault Refusal :=
  sumWord x m o FVal.negate s
/-- FMUL: round(b × c). -/
def execFmul (x : Ctl) (m : FMod) (o : Slots) (s : State) : Host.Outcome State Fault Refusal :=
  fltWord x m (tys m.fty.ety) o [o.b, o.c] (fun _ _ => true) (fun r b c _ =>
    let u := FTy.opnd m.fty b
    let v := FTy.opnd m.fty c
    let p := FVal.mul u.1 v.1
    let y := (FTy.fmt m.fty).sum (FTy.flushes m.fty) m.rm r p.2 [p.1]
    (y.1, y.2 ||| u.2 ||| v.2)) s
/-- FMA: round(b × c + d), rounded once; INVALID for ∞ × 0 only where no input is NaN. -/
def execFma (x : Ctl) (m : FMod) (o : Slots) (s : State) : Host.Outcome State Fault Refusal :=
  fltWord x m (tys m.fty.ety) o [o.b, o.c, o.d] (fun _ _ => true) (fun r b c d =>
    let u := FTy.opnd m.fty b
    let v := FTy.opnd m.fty c
    let z := FTy.opnd m.fty d
    let p := FVal.mul u.1 v.1
    let y := (FTy.fmt m.fty).sum (FTy.flushes m.fty) m.rm r (p.2 && !z.1.isNan) [p.1, z.1.term]
    (y.1, y.2 ||| u.2 ||| v.2 ||| z.2)) s

/-- A floating-point function of encodings that rounds nothing and draws nothing. -/
def plainF (x : Ctl) (m : FMod) (o : Slots) (srcs : List Spec) (f : Nat → Nat → Nat × Flags) :
    State → Host.Outcome State Fault Refusal :=
  let e := m.fty.ety
  regWord x (tys e) srcs o (fun c w T v => runCalc o.a (uniTag w srcs) (fun t =>
    packFlags e.width e.count (fun k => f (elemBits e.width (v.gb t) k) (elemBits e.width (v.gc t) k))) c w T)

/-- FMIN (R172). -/
def execFmin (x : Ctl) (m : FMod) (o : Slots) (s : State) : Host.Outcome State Fault Refusal :=
  plainF x m o [o.b, o.c] (fun b c => (FTy.fmt m.fty).minmax (FTy.flushes m.fty) false b c) s
/-- FMAX (R172). -/
def execFmax (x : Ctl) (m : FMod) (o : Slots) (s : State) : Host.Outcome State Fault Refusal :=
  plainF x m o [o.b, o.c] (fun b c => (FTy.fmt m.fty).minmax (FTy.flushes m.fty) true b c) s

/-- The encoding of an operand with a given sign: a flushed subnormal is a zero, a NaN the canonical one. -/
def signed (f : FTy) (b : Nat) (neg : Bool) : Nat × Flags :=
  let u := FTy.opnd f b
  let g := FTy.fmt f
  if u.1.isNan then (g.nan, u.2)
  else if u.2 ≠ 0 then (g.zero neg, u.2)
  else (b % 2 ^ (g.ew + g.pw) + g.zero neg, u.2)

/-- FABS: the sign cleared. -/
def execFabs (x : Ctl) (m : FMod) (o : Slots) (s : State) : Host.Outcome State Fault Refusal :=
  plainF x m o [o.b] (fun b _ => signed m.fty b false) s
/-- FNEG: the sign inverted. -/
def execFneg (x : Ctl) (m : FMod) (o : Slots) (s : State) : Host.Outcome State Fault Refusal :=
  plainF x m o [o.b] (fun b _ => signed m.fty b (!(FTy.fmt m.fty).sign b)) s

/-- A floating-point condition (R172). -/
def condFlt (c : FCond) (b d : FVal) : Bool :=
  if b.isNan || d.isNan then decide (c = .ne) || decide (c = .un)
  else
    match c with
    | .eq => !FVal.lt b d && !FVal.lt d b
    | .ne => FVal.lt b d || FVal.lt d b
    | .lt => FVal.lt b d
    | .le => !FVal.lt d b
    | .gt => FVal.lt d b
    | .ge => !FVal.lt b d
    | .un => false

/-- FCMP (R172). -/
def execFcmp (x : Ctl) (m : FCMod) (o : Slots) (s : State) : Host.Outcome State Fault Refusal :=
  let e := m.fty.ety
  regWord x (tys e) [o.b, o.c] o (fun c w T v => runCalc o.a (uniTag w [o.b, o.c]) (fun t =>
    packFlags e.width e.count (fun k =>
      let b := FTy.opnd m.fty (elemBits e.width (v.gb t) k)
      let d := FTy.opnd m.fty (elemBits e.width (v.gc t) k)
      (allOnes e.width (condFlt m.cond b.1 d.1), b.2 ||| d.2))) c w T) s

/-- FCLASS's result (Table 12.7). -/
def classOf (f : FFmt) (b : Nat) : Nat :=
  match f.value b with
  | .nan => 256
  | .inf n => if n then 1 else 128
  | .fin n m _ => if m = 0 then (if n then 8 else 16) else if f.subnormal b then (if n then 4 else 32)
                  else (if n then 2 else 64)

/-- FCLASS: the input is not flushed, and no flag is set (R173). -/
def execFclass (x : Ctl) (m : FMod) (o : Slots) (s : State) : Host.Outcome State Fault Refusal :=
  plainF x m o [o.b] (fun b _ => (classOf (FTy.fmt m.fty) b, 0)) s

/-- FDOT2: two products and an FP32 addend, exact, rounded once to FP32 (R174). -/
def execFdot2 (x : Ctl) (m : FMod) (o : Slots) (s : State) : Host.Outcome State Fault Refusal :=
  let e := m.fty.ety
  let srcs := [o.b, o.c, o.d]
  regWord x { b := ETy.otyOf e, c := ETy.otyOf e, d := ETy.otyOf .f32x2 } srcs o (fun c w T v =>
    runDraw o.a (fltTag w m.rm srcs) (fun t r => fltMap 32 2 (decide (m.rm = .rs)) (fun _ => true) (fun j dr =>
      let b0 := FTy.opnd m.fty (elemBits 16 (v.gb t) (2 * j))
      let c0 := FTy.opnd m.fty (elemBits 16 (v.gc t) (2 * j))
      let b1 := FTy.opnd m.fty (elemBits 16 (v.gb t) (2 * j + 1))
      let c1 := FTy.opnd m.fty (elemBits 16 (v.gc t) (2 * j + 1))
      let d := fp32.value (elemBits 32 (v.gd t) j)
      let p0 := FVal.mul b0.1 c0.1
      let p1 := FVal.mul b1.1 c1.1
      let clean := !(b0.1.isNan || c0.1.isNan || b1.1.isNan || c1.1.isNan || d.isNan)
      let y := fp32.sum false m.rm dr ((p0.2 || p1.2) && clean) [p0.1, p1.1, d.term]
      (y.1, y.2 ||| b0.2 ||| c0.2 ||| b1.2 ||| c1.2)) r) c w T) s

/-- A scale beyond this turns every finite value of every format into an overflow or into nothing. -/
def scaleClamp (c : Int) : Int := if c < -5000 then -5000 else if 5000 < c then 5000 else c

/-- FSCALE: round(b × 2^c), with c a signed integer of the sub-element's width; special operands pass with no flag and
are no rounding (R174). -/
def execFscale (x : Ctl) (m : FMod) (o : Slots) (s : State) : Host.Outcome State Fault Refusal :=
  let e := m.fty.ety
  let f := FTy.fmt m.fty
  let fl := FTy.flushes m.fty
  fltWord x m { b := ETy.otyOf e, c := .elems e.width none } o [o.b, o.c]
    (fun b _ => match (FTy.opnd m.fty b).1 with | .fin _ n _ => n ≠ 0 | _ => false)
    (fun r b c _ =>
      let u := FTy.opnd m.fty b
      match u.1 with
      | .nan => (f.nan, u.2)
      | .inf n => (f.inf n, u.2)
      | .fin n k g =>
        if k = 0 then (f.zero n, u.2)
        else f.round fl (.mode m.rm r) n k (g + scaleClamp (toInt true e.width c)) false) s

end Sys2Proof.Machine
end

