-- ==== Sys2Proof/Machine/SpecialFns.lean ====
section
/-! DEFINITION. SpecialFns.lean: the special functions of class 010 (R87, R175-R177, Tables 12.8, 12.9). -/

namespace Sys2Proof.Machine

/-- A function whose results are correctly rounded in the word's mode: `f` gives its result for an operand value, the
mode and the draw. -/
def roundedFn (x : Ctl) (m : FMod) (o : Slots) (f : FVal → Nat → Nat × Flags) : State → Host.Outcome State Fault Refusal :=
  fltWord x m (tys m.fty.ety) o [o.b] (fun _ _ => true) (fun r b _ _ =>
    let u := FTy.opnd m.fty b
    let y := f u.1 r
    (y.1, y.2 ||| u.2))

/-- FRCP: 1 / b. -/
def execFrcp (x : Ctl) (m : FMod) (o : Slots) (s : State) : Host.Outcome State Fault Refusal :=
  let f := FTy.fmt m.fty
  roundedFn x m o (fun v r =>
    match v with
    | .nan => (f.nan, 0)
    | .inf n => (f.zero n, 0)
    | .fin n k e =>
      if k = 0 then (f.inf n, fDivZero)
      else
        let q := divMag 1 0 k e
        f.round (FTy.flushes m.fty) (.mode m.rm r) n q.1 q.2.1 q.2.2) s

/-- FSQRT: the square root. -/
def execFsqrt (x : Ctl) (m : FMod) (o : Slots) (s : State) : Host.Outcome State Fault Refusal :=
  let f := FTy.fmt m.fty
  roundedFn x m o (fun v r =>
    match v with
    | .nan => (f.nan, 0)
    | .inf n => if n then (f.nan, fInvalid) else (f.inf false, 0)
    | .fin n k e =>
      if k = 0 then (f.zero n, 0)
      else if n then (f.nan, fInvalid)
      else
        let q := sqrtMag k e
        f.round (FTy.flushes m.fty) (.mode m.rm r) false q.1 q.2.1 q.2.2) s

/-- The magnitude of 1 / √(m·2^e), m ≠ 0: the root of the truncated reciprocal, with a sticky bit. -/
def rsqrtMag (m : Nat) (e : Int) : Nat × Int × Bool :=
  let k := if e % 2 = 0 then m else 2 * m
  let h := (if e % 2 = 0 then e else e - 1) / 2
  let p := guardBits + Nat.log2 k
  let r := isqrt (2 ^ (2 * p) / k)
  (r, -h - p, r * r * k ≠ 2 ^ (2 * p))

/-- FRSQ: 1 / √b. -/
def execFrsq (x : Ctl) (m : FMod) (o : Slots) (s : State) : Host.Outcome State Fault Refusal :=
  let f := FTy.fmt m.fty
  roundedFn x m o (fun v r =>
    match v with
    | .nan => (f.nan, 0)
    | .inf n => if n then (f.nan, fInvalid) else (f.zero false, 0)
    | .fin n k e =>
      if k = 0 then (f.inf n, fDivZero)
      else if n then (f.nan, fInvalid)
      else
        let q := rsqrtMag k e
        f.round (FTy.flushes m.fty) (.mode m.rm r) false q.1 q.2.1 q.2.2) s

/-- FDIV: b / c (R177). -/
def execFdiv (x : Ctl) (m : FMod) (o : Slots) (s : State) : Host.Outcome State Fault Refusal :=
  let f := FTy.fmt m.fty
  fltWord x m (tys m.fty.ety) o [o.b, o.c] (fun _ _ => true) (fun r b c _ =>
    let u := FTy.opnd m.fty b
    let v := FTy.opnd m.fty c
    let y : Nat × Flags :=
      match u.1, v.1 with
      | .nan, _ => (f.nan, 0)
      | _, .nan => (f.nan, 0)
      | .inf _, .inf _ => (f.nan, fInvalid)
      | .inf n, .fin k _ _ => (f.inf (n != k), 0)
      | .fin n _ _, .inf k => (f.zero (n != k), 0)
      | .fin n i e, .fin k j g =>
        if j = 0 then (if i = 0 then (f.nan, fInvalid) else (f.inf (n != k), fDivZero))
        else if i = 0 then (f.zero (n != k), 0)
        else
          let q := divMag i e j g
          f.round (FTy.flushes m.fty) (.mode m.rm r) (n != k) q.1 q.2.1 q.2.2
    (y.1, y.2 ||| u.2 ||| v.2)) s

/-- A function whose results are not correctly rounded. It is deterministic (R175): the hardware's choice among the
allowed results is the free value `Config.freePick` of the function, the type and the operand. -/
def freeFn (tag : Nat) (x : Ctl) (m : FMod) (o : Slots) (f : FVal → Nat → Nat × Flags) :
    State → Host.Outcome State Fault Refusal :=
  plainF x m o [o.b] (fun b _ =>
    let u := FTy.opnd m.fty b
    let y := f u.1 (Config.freePick tag m.fty.code b)
    (y.1, y.2 ||| u.2))

/-- An exponent beyond this overflows or vanishes in every format. -/
def expClamp (k : Int) : Int := if k < -6000 then -6000 else if 6000 < k then 6000 else k

/-- FEXP2: 2^b, faithful, exact where b is an integer and 2^b representable. -/
def execFexp2 (x : Ctl) (m : FMod) (o : Slots) (s : State) : Host.Outcome State Fault Refusal :=
  let f := FTy.fmt m.fty
  let fl := FTy.flushes m.fty
  freeFn 0x103 x m o (fun v pick =>
    match v with
    | .nan => (f.nan, 0)
    | .inf n => if n then (f.zero false, 0) else (f.inf false, 0)
    | .fin n k e =>
      if k = 0 then f.round fl (.mode .rne 0) false 1 0 false
      else if 16 ≤ (Nat.log2 k : Int) + e then
        -- |b| ≥ 2^16: the result overflows or lies below every format's range
        f.round fl (.pick (pick % 2 = 1)) false 1 (if n then -6000 else 6000) true
      else if 0 ≤ e || k % 2 ^ (-e).toNat = 0 then
        let b : Nat := if 0 ≤ e then k * 2 ^ e.toNat else k / 2 ^ (-e).toNat
        f.round fl (.pick (pick % 2 = 1)) false 1 (expClamp (if n then -(b : Int) else b)) false
      else
        let q := exp2Mag n k e
        f.round fl (.pick (pick % 2 = 1)) false q.1 (expClamp q.2) true) s

/-- FLOG2: log2 b, faithful, exact at powers of two; log2 of 0 is -∞ with no flag (Table 12.9). -/
def execFlog2 (x : Ctl) (m : FMod) (o : Slots) (s : State) : Host.Outcome State Fault Refusal :=
  let f := FTy.fmt m.fty
  let fl := FTy.flushes m.fty
  freeFn 0x104 x m o (fun v pick =>
    match v with
    | .nan => (f.nan, 0)
    | .inf n => if n then (f.nan, fInvalid) else (f.inf false, 0)
    | .fin n k e =>
      if k = 0 then (f.inf true, 0)
      else if n then (f.nan, fInvalid)
      else if k = 2 ^ Nat.log2 k then
        let b := e + Nat.log2 k
        f.round fl (.mode .rne 0) (decide (b < 0)) b.natAbs 0 false
      else
        let q := log2Fix k e
        f.round fl (.pick (pick % 2 = 1)) (decide (q < 0)) q.natAbs (-(fixP : Int)) true) s

/-- FSIN and FCOS (R87). -/
def trigFn (isCos : Bool) (m : FMod) (v : FVal) (pick : Nat) : Nat × Flags :=
  let f := FTy.fmt m.fty
  match v with
  | .nan => (f.nan, 0)
  | .inf _ => (f.nan, fInvalid)
  | .fin n k e =>
    if k = 0 then (if isCos then f.round false (.mode .rne 0) false 1 0 false else (f.zero n, 0))
    else if 20 ≤ (Nat.log2 k : Int) + e then (f.nan, fReduce)
    else
      let q := trigMag isCos n k e
      f.round (FTy.flushes m.fty) (.near (pick % 4)) q.1 q.2.1 q.2.2 true

/-- FSIN: within 2 ulp. -/
def execFsin (x : Ctl) (m : FMod) (o : Slots) (s : State) : Host.Outcome State Fault Refusal :=
  freeFn 0x105 x m o (trigFn false m) s
/-- FCOS: within 2 ulp. -/
def execFcos (x : Ctl) (m : FMod) (o : Slots) (s : State) : Host.Outcome State Fault Refusal :=
  freeFn 0x106 x m o (trigFn true m) s
/-- FTANH: within 2 ulp. -/
def execFtanh (x : Ctl) (m : FMod) (o : Slots) (s : State) : Host.Outcome State Fault Refusal :=
  let f := FTy.fmt m.fty
  freeFn 0x107 x m o (fun v pick =>
    match v with
    | .nan => (f.nan, 0)
    | .inf n => f.round false (.mode .rne 0) n 1 0 false
    | .fin n k e =>
      if k = 0 then (f.zero n, 0)
      else
        let q := tanhMag k e
        f.round (FTy.flushes m.fty) (.near (pick % 4)) n q.1 q.2 true) s

end Sys2Proof.Machine
end

