-- ==== Sys2Proof/Machine/Convert.lean ====
section
/-! DEFINITION. Convert.lean: CVT, PACK, UNPACK and SWZ (R72-R74, R178-R181). -/

namespace Sys2Proof.Machine

/-- A format holds every finite value of another (R72). -/
def FFmt.widens (a b : FFmt) : Bool :=
  a.pw ≤ b.pw && decide ((1 : Int) - b.bias - b.pw ≤ 1 - (a.bias : Int) - a.pw) &&
  (match a.value a.maxB with
   | .fin _ m e => !b.exceeds m e
   | _ => false)

/-- A format holds every value of an integer type (R72). -/
def intWidens (signed : Bool) (w : Nat) (b : FFmt) : Bool :=
  (if signed then w - 1 else w) ≤ b.pw + 1 && !b.exceeds (2 ^ (w - 1) + if signed then 0 else 2 ^ (w - 1) - 1) 0

/-- Whether a conversion is widening or between integers: it then performs no rounding and draws nothing (R67, R179). -/
def cvtExact (sty dty : ETy) : Bool :=
  match ETy.fmt sty, ETy.fmt dty with
  | none, none => true
  | some a, some b => FFmt.widens a b
  | none, some b => intWidens sty.signed sty.width b
  | some _, none => false

/-- Whether a narrowing conversion flushes its result (R72). -/
def cvtFlush (dty : ETy) : Bool := dty = .bf16x4 || dty = .f16x4

/-- One element converted (R72-R74, R179). -/
def cvtElem (sty dty : ETy) (rm : RMode) (sat : Bool) (r x : Nat) : Nat × Flags :=
  match ETy.fmt sty, ETy.fmt dty with
  | none, none => narrowInt dty.signed dty.width sat (toInt sty.signed sty.width x)
  | none, some b =>
    let v := toInt sty.signed sty.width x
    b.round (cvtFlush dty) (.mode rm r) (decide (v < 0)) v.natAbs 0 false
  | some a, none => floatToInt rm r dty.signed dty.width (a.value x)
  | some a, some b => b.ofVal (cvtFlush dty && !FFmt.widens a b) (.mode rm r) (a.value x)

/-- CVT (R178, R179): the group `part` of the wider register; the other sub-elements keep their value. -/
def execCvt (x : Ctl) (m : CvtMod) (o : Slots) (s : State) : Host.Outcome State Fault Refusal :=
  let ns := m.sty.count
  let nd := m.dty.count
  let srcs := if ns < nd then [o.a, o.b] else [o.b]
  regWord x { b := ETy.otyCvt m.sty } srcs o (fun c w T v =>
    runDraw o.a (fltTag w m.rm srcs) (fun t r =>
      let y := drawFold (decide (m.rm = .rs)) (fun _ => !cvtExact m.sty m.dty) (fun k dr =>
        cvtElem m.sty m.dty m.rm m.sat dr (elemBits m.sty.width (v.gb t) (if nd < ns then m.part.val * nd + k else k)))
        (List.range (Nat.min ns nd)) r
      let out := (List.range nd).map (fun j =>
        if ns < nd then
          if m.part.val * ns ≤ j && j < m.part.val * ns + ns then y.1.getD (j - m.part.val * ns) 0
          else elemBits m.dty.width (v.ga t) j
        else y.1.getD j 0)
      (packElems m.dty.width out, y.2.1, y.2.2)) c w T) s

/-- Words that rearrange the sub-elements of B and C as bit patterns. -/
def moveWord (x : Ctl) (m : IMod) (o : Slots) (ty : OTys) (f : Word → Word → Nat → Nat) :
    State → Host.Outcome State Fault Refusal :=
  regWord x ty [o.b, o.c] o (fun c w T v => runCalc o.a (uniTag w [o.b, o.c]) (fun t =>
    bitMap m.ty (fun k => f (v.gb t) (v.gc t) k)) c w T)

/-- PACK (R180). -/
def execPack (x : Ctl) (m : IMod) (o : Slots) (s : State) : Host.Outcome State Fault Refusal :=
  let n := m.ty.count
  moveWord x m o (tys m.ty) (fun b c k =>
    let i := 2 * k + bit m.var
    if i < n then elemBits m.ty.width b i else elemBits m.ty.width c (i - n)) s
/-- UNPACK (R180). -/
def execUnpack (x : Ctl) (m : IMod) (o : Slots) (s : State) : Host.Outcome State Fault Refusal :=
  let n := m.ty.count
  moveWord x m o (tys m.ty) (fun b c k =>
    if n = 1 then (if m.var then elemBits m.ty.width c 0 else elemBits m.ty.width b 0)
    else
      let i := (if m.var then n / 2 else 0) + k / 2
      if k % 2 = 0 then elemBits m.ty.width b i else elemBits m.ty.width c i) s
/-- SWZ (R181). -/
def execSwz (x : Ctl) (m : IMod) (o : Slots) (s : State) : Host.Outcome State Fault Refusal :=
  moveWord x m o (tysB m.ty) (fun b c k =>
    let i := elemBits 4 c k
    if i < m.ty.count then elemBits m.ty.width b i else 0) s

end Sys2Proof.Machine
end

