-- ==== Sys2Proof/Machine/CrossThread.lean ====
section
/-! DEFINITION. CrossThread.lean: opcode class 011, cross-thread and predicate (R182-R189). -/

namespace Sys2Proof.Machine

/-- The threads that perform a masked cross-thread word and the MEMBER trap of those that do not belong to their own
mask (R182). `f t` is the mask of thread `t`. Table 20.2 has a data address for MEMBER, which no access gives: it is free. -/
def memberOf (n : Nat) (T : Mask) (f : Nat → Mask) : Mask × List Trap :=
  let out := Mask.ofPred (fun t => T.has t && !(f t).has t)
  (T &&& ~~~ out, if out = 0 then [] else [{ cause := tMEMBER, mask := out, addr := Config.freeWord n }])

/-- The threads that read a damaged register of a member: `reads t` are the threads whose source `b` thread `t` reads (R182,
R304). -/
def crossUce (w : Warp) (b : Spec) (T : Mask) (reads : Nat → Mask) : Mask :=
  if w.damaged.isEmpty then 0 else Mask.ofPred (fun t => T.has t && (reads t).threads.any (damagedBy w b))

/-- A trap of UCE for the threads of a mask, if there are any. -/
def uceTrap (u : Mask) : List Trap := if u = 0 then [] else [{ cause := tUCE, mask := u, addr := 0 }]

/-- A masked cross-thread word: members, then the calculation for the threads that belong (R182); `reads` are the threads whose
B a thread reads, and `srcs` the other sources. -/
def crossWord (x : Ctl) (ty : OTys) (srcs : List Spec) (o : Slots) (msk : Opnds → Nat → Mask)
    (reads : Warp → Opnds → Nat → Mask) (f : Warp → Opnds → Nat → Word × Flags) :
    State → Host.Outcome State Fault Refusal :=
  regWord x ty srcs o (fun c w T v =>
    let g := memberOf c.free T (msk v)
    let u := crossUce w o.b g.1 (reads w v)
    let r := runCalc o.a .general (f w v) c w (g.1 &&& ~~~ u)
    (r.1, r.2 ++ g.2 ++ uceTrap u))

/-- The one thread whose B is read, if it has not exited. -/
def oneLive (w : Warp) (u : Nat) : Mask := Mask.ofPred (fun i => i = u && !w.exited.has u)

/-- Slot D as a member mask. -/
def maskD (v : Opnds) (t : Nat) : Mask := (v.gd t).setWidth 32
/-- Slot C as a member mask. -/
def maskC (v : Opnds) (t : Nat) : Mask := (v.gc t).setWidth 32

/-- The thread that SHFL reads (R183). -/
def shflFrom (m : ShMod) (v : Opnds) (t : Nat) : Nat :=
  let i := ((v.gc t).extractLsb' 0 5).toNat
  let u : Int := match m.mode with
    | .at => i
    | .below => (t : Int) - i
    | .above => (t : Int) + i
    | .flip => Nat.xor t i
  if u < 0 || 31 < u || !(maskD v t).has u.toNat then t else u.toNat

/-- SHFL (R183). -/
def execShfl (x : Ctl) (m : ShMod) (o : Slots) (s : State) : Host.Outcome State Fault Refusal :=
  let e := m.ty.width
  let n := m.ty.count
  crossWord x (tysB m.ty) [o.c, o.d] o maskD (fun w v t => oneLive w (shflFrom m v t)) (fun w v t =>
    let j := ((v.gc t).extractLsb' 8 4).toNat
    let u := shflFrom m v t
    if w.exited.has u then (0, fAbsent)
    else bitMap m.ty (fun k => elemBits e (v.gb u) ((k + j) % n))) s

/-- The thread that BCAST reads (R184). -/
def bcastFrom (v : Opnds) (t : Nat) : Nat :=
  let i := ((v.gc t).extractLsb' 0 5).toNat
  if (maskD v t).has i then i else t

/-- BCAST (R184). -/
def execBcast (x : Ctl) (m : IMod) (o : Slots) (s : State) : Host.Outcome State Fault Refusal :=
  let e := m.ty.width
  let n := m.ty.count
  crossWord x (tysB m.ty) [o.c, o.d] o maskD (fun w v t => oneLive w (bcastFrom v t)) (fun w v t =>
    let j := ((v.gc t).extractLsb' 8 4).toNat
    let u := bcastFrom v t
    if w.exited.has u then (0, fAbsent)
    else bitMap m.ty (fun _ => elemBits e (v.gb u) (j % n))) s

/-- A reduction of one sub-element over the encodings of the members, in ascending order (R185). -/
def reduceElem (m : YMod) (xs : List Nat) : Nat × Flags :=
  let ty := m.rty.ety
  match ETy.fmt ty with
  | none =>
    match xs with
    | [] => (0, 0)
    | a :: rest =>
      let i (v : Nat) : Int := toInt ty.signed ty.width v
      (rest.foldl (fun acc b =>
        match m.op with
        | .add => (acc + b) % 2 ^ ty.width
        | .min => if i acc ≤ i b then acc else b
        | .max => if i acc ≤ i b then b else acc
        | .and => Nat.land acc b
        | .or => Nat.lor acc b
        | .xor => Nat.xor acc b) a, 0)
  | some f =>
    let fl := ty = .bf16x4 || ty = .f16x4
    match m.op with
    | .add =>
      let vs := xs.map (f.operand fl)
      let y := f.sum fl .rne 0 false (vs.map (fun v => v.1.term))
      (y.1, vs.foldl (fun a v => a ||| v.2) y.2)
    | _ =>
      match xs with
      | [] => (0, 0)
      | a :: rest =>
        -- a single member is read as FMIN and FMAX read it: flushed, with a canonical NaN
        rest.foldl (fun acc b =>
          let y := f.minmax fl (decide (m.op = .max)) acc.1 b
          (y.1, acc.2 ||| y.2)) (f.minmax fl (decide (m.op = .max)) a a)

/-- WRED and WSCAN: the members that a thread's result covers. -/
def reduceOver (x : Ctl) (m : YMod) (o : Slots) (covers : Nat → Nat → Bool) : State → Host.Outcome State Fault Refusal :=
  let ty := m.rty.ety
  let covered (v : Opnds) (t : Nat) : Mask := Mask.ofPred (fun u => (maskC v t).has u && covers t u)
  crossWord x (tysB ty) [o.c] o maskC (fun w v t => covered v t &&& ~~~ w.exited) (fun w v t =>
    let cov := covered v t
    let alive := (cov &&& ~~~ w.exited).threads
    let y := packFlags ty.width ty.count (fun k => reduceElem m (alive.map (fun u => elemBits ty.width (v.gb u) k)))
    (y.1, y.2 ||| flagIf (cov &&& w.exited ≠ 0) fAbsent))

/-- WRED: over every live member. -/
def execWred (x : Ctl) (m : YMod) (o : Slots) (s : State) : Host.Outcome State Fault Refusal :=
  reduceOver x m o (fun _ _ => true) s
/-- WSCAN: over the live members up to the thread itself. -/
def execWscan (x : Ctl) (m : YMod) (o : Slots) (s : State) : Host.Outcome State Fault Refusal :=
  reduceOver x m o (fun t u => u ≤ t) s

/-- VOTE (R186). -/
def execVote (x : Ctl) (m : VOp) (o : Slots) (s : State) : Host.Outcome State Fault Refusal :=
  crossWord x {} [o.c] o maskC (fun w v t => maskC v t &&& ~~~ w.exited) (fun w v t =>
    let mem := maskC v t
    let alive := (mem &&& ~~~ w.exited).threads
    let yes := alive.filter (fun u => v.gb u ≠ 0)
    let r : Nat := match m with
      | .and => bit (yes.length = alive.length)
      | .or => bit (yes ≠ [])
      | .eq => bit (yes = [] || yes.length = alive.length)
      | .bits => (Mask.ofPred (fun u => yes.contains u)).toNat
      | .cnt => yes.length
      | .lead => yes.head?.getD 32
    (BitVec.ofNat 64 r, flagIf (mem &&& w.exited ≠ 0) fAbsent)) s

/-- MATCH: the live members whose B equals the thread's own (R186). -/
def execMatch (x : Ctl) (o : Slots) (s : State) : Host.Outcome State Fault Refusal :=
  crossWord x {} [o.c] o maskC (fun w v t => maskC v t &&& ~~~ w.exited) (fun w v t =>
    let mem := maskC v t
    let r := Mask.ofPred (fun u => mem.has u && !w.exited.has u && v.gb u = v.gb t)
    (r.setWidth 64, flagIf (mem &&& w.exited ≠ 0) fAbsent)) s

/-- The thread that WSET reads (R187). -/
def wsetFrom (v : Opnds) (t : Nat) : Nat := ((v.gc t).extractLsb' 0 5).toNat

/-- WSET (R187). -/
def execWset (x : Ctl) (o : Slots) (s : State) : Host.Outcome State Fault Refusal :=
  regWord x {} [o.c] o (fun c w T v =>
    let u := crossUce w o.b T (fun t => oneLive w (wsetFrom v t))
    let r := runCalc o.a .general (fun t =>
      if w.exited.has (wsetFrom v t) then (0, fAbsent) else (v.gb (wsetFrom v t), 0)) c w (T &&& ~~~ u)
    (r.1, r.2 ++ uceTrap u)) s

/-- FIRST (R187): it reads the B of every active thread. -/
def execFirst (x : Ctl) (o : Slots) (s : State) : Host.Outcome State Fault Refusal :=
  regWord x {} [] o (fun c w T v =>
    let u := crossUce w o.b T (fun _ => T)
    let r := runCalc o.a .general (fun _ =>
      (BitVec.ofNat 64 ((T.threads.find? (fun u => v.gb u ≠ 0)).getD 32), 0)) c w (T &&& ~~~ u)
    (r.1, r.2 ++ uceTrap u)) s

/-- PSET: bit `$tid` of B (R188). -/
def execPset (x : Ctl) (o : Slots) (s : State) : Host.Outcome State Fault Refusal :=
  regWord x {} [o.b] o (fun c w T v => runCalc o.a .general (fun t =>
    (if (v.gb t).getLsbD t then 1 else 0, 0)) c w T) s

/-- PLOP (R188). -/
def execPlop (x : Ctl) (m : PLogic) (inv : Bool) (o : Slots) (s : State) : Host.Outcome State Fault Refusal :=
  regWord x {} [o.b, o.c] o (fun c w T v => runCalc o.a .general (fun t =>
    let b := (v.gb t).getLsbD 0
    let d := (v.gc t).getLsbD 0
    let r := match m with
      | .and => b && d
      | .or => b || d
      | .xor => b != d
      | .andn => b && !d
    (if r != inv then 1 else 0, 0)) c w T) s

/-- The predicates that PMOV reads. -/
def allPreds : List Spec := (List.range 8).map (fun i => .p (Fin.ofNat 8 i))

/-- PMOV: `p7` to `p0` in bits [7:0] (R188). -/
def execPmov (x : Ctl) (o : Slots) (s : State) : Host.Outcome State Fault Refusal :=
  regWord x {} allPreds o (fun c w T _ => runCalc o.a .general (fun t =>
    (BitVec.ofNat 64 ((List.range 8).foldl (fun a i => a + bit (w.pGet i t) * 2 ^ i) 0), 0)) c w T) s

/-- PMOV.scatter: `p0` to `p6` from bits [6:0] of B (R188). -/
def execPmovScatter (x : Ctl) (o : Slots) (s : State) : Host.Outcome State Fault Refusal :=
  regWord x {} [o.b] o (fun _ w T v =>
    ((List.range 7).foldl (fun acc i => T.threads.foldl (fun a t =>
      (a.pSet i t ((v.gb t).getLsbD i)).mend (regP i t)) acc) w, [])) s

end Sys2Proof.Machine
end

