-- ==== Sys2Proof/Machine/MemWords.lean ====
section
/-! DEFINITION. MemWords.lean: how a word that accesses memory is issued, performed thread by thread, faulted and
replayed (R191-R194, R302, R303, R382), and the accesses themselves. -/

namespace Sys2Proof.Machine

/-! ## Accesses -/

/-- Lines of a view's tile hold an uncorrectable error. -/
def State.viewDamaged (s : State) (frame : Nat) : Bool :=
  s.bad ≠ [] &&
  (List.range ((leNat ((readBytes s.mem frame 8).drop 4) + 127) / 64)).any (fun i => s.lineBad (frame + 64 * i))

/-- A read of a byte at home meets an uncorrectable error (R304): its line is damaged, or, where no slice holds its line of
a view, a line that the view's expansion reads. -/
def State.homeBad (s : State) (key : Nat) : Bool :=
  if 2 ^ 52 ≤ key then decide (Sparse.get [] s.views (key / 64) = []) && s.viewDamaged (viewFrame key) else s.lineBad key

/-- What a read of keys meets besides translation: an unusable view (R105), an uncorrectable error in storage that has to
be read (R304), or a peer that has not answered (R347). `own` says that what the core holds need not be read. -/
def State.readErr (s : State) (core : Nat) (va : Word) (keys : List Nat) (own : Bool) : Option MemErr :=
  if keys.any (fun k => 2 ^ 52 ≤ k && !s.viewOk (viewFrame k)) then some (.page causeBADPTE va false)
  else if s.peerFailed keys then some (.uce va)
  else if s.bad = [] then none
  else if keys.any (fun k => !(own && s.cached core k) && s.homeBad k) then some (.uce va)
  else none

/-- The launch priority of a warp's block, for the counters' filter. -/
def State.prioAt (s : State) (k : Nat) : Option Nat := ((s.warpAt k).bind (fun w => s.launchOf w.blk)).map (fun l => (l.lctl.extractLsb' 2 3).toNat)

/-- An access of a warp to a line is a request to its core's L1, or merges into the request of an open window, and the core
counts which (R195, R359); a load that has to go on reaches the line's slice (R98). -/
def State.noteLines (s : State) (k : Nat) (h : Hint) (cls : Nat) (keys : List Nat) (write : Bool) : State :=
  let core := keyCore k
  ((keys.map (· / 64)).eraseDups).foldl (fun x l =>
    let merged := match x.warpAt k with | some w => w.windows.contains (l, write) | none => false
    let x1 := x.count .core core (if merged then 0x011 else 0x010) (some (keyLane k)) (s.prioAt k) none
    if write || keys.all (fun a => a / 64 ≠ l || s.cached core a) then x1 else x1.reach core l cls h) s

/-- After an access under the last-use hint the core's clean bytes of its lines are dropped (Table 8.4). -/
def State.lastUse (s : State) (core : Nat) (h : Hint) (keys : List Nat) : State :=
  if h = .lastuse then (keys.map (· / 64)).eraseDups.foldl (fun x l => x.dropCleanLine core l) s else s

/-- An access of a core that is performed at home reaches the slices of its lines under its class and hint (R98, R99, R149). -/
def State.touchHome (s : State) (core : Nat) (va : Word) (h : Hint) (keys : List Nat) : State :=
  (keys.map (· / 64)).eraseDups.foldl (fun x l => x.reach core l (s.classOf core va) h) s

/-- A plain load of `n` bytes (R107, R108, Table 8.4). -/
def State.loadG (s : State) (k : Nat) (h : Hint) (va : Word) (n : Nat) : State × Except MemErr (List Byte) :=
  let core := keyCore k
  match s.translateRun core .read va n with
  | (s1, .error e) => (s1, .error e)
  | (s1, .ok keys) =>
    let s2 := s1.askPeers core keys true
    match s2.readErr core va keys true with
    | some e => (s2, .error e)
    | none =>
      let r := (s2.noteLines k h (s2.classOf core va) keys false).loadKeys core (decide (h ≠ .bypass)) keys
      (r.1.lastUse core h keys, .ok r.2)

/-- A plain store (R107); after one under the last-use hint the clean bytes of the line are dropped (Table 8.4). -/
def State.storeG (s : State) (k : Nat) (h : Hint) (va : Word) (bs : List Byte) : State × Except MemErr Unit :=
  match s.translateRun (keyCore k) .write va bs.length with
  | (s1, .error e) => (s1, .error e)
  | (s1, .ok keys) =>
    (((s1.noteLines k h 0 keys true).storeKeys k keys bs).lastUse (keyCore k) h keys, .ok ())

/-- Bytes of a bank of a block's scratchpad (R88, Table 2.3). -/
def State.bankBytes (s : State) (b : Block) : Nat :=
  match s.launchAt b.launch with
  | some l => (l.part.extractLsb' 8 8).toNat * 65536
  | none => 0

/-- The scratchpad of a block, when an offset range lies in its bank. -/
def State.bankOk (s : State) (b : Block) (off : Int) (n : Nat) : Bool := 0 ≤ off && decide (off + n ≤ s.bankBytes b)

/-- Read bytes of a live bank. -/
def Block.liveBytes (b : Block) (off n : Nat) : List Byte := (List.range n).map (fun i => Sparse.get 0 b.live (off + i))

/-- Write bytes of a bank. -/
def putBank (m : Sparse Byte) (off : Nat) (bs : List Byte) : Sparse Byte :=
  (List.range bs.length).foldl (fun acc i => Sparse.set 0 acc (off + i) (bs.getD i 0)) m

/-- An offset as a trap address. -/
def offWord (x : Int) : Word := BitVec.ofInt 64 x

/-- Read scratchpad bytes for an instruction (R88, R304). -/
def State.loadS (s : State) (blk : Nat) (off : Int) (n : Nat) : Except MemErr (List Byte) :=
  match s.blockAt blk with
  | none => .error (.trap tSCRATCH (offWord off))
  | some b =>
    if !s.bankOk b off n then .error (.trap tSCRATCH (offWord off))
    else if s.badS.any (fun e => e.1 = blk && off.toNat ≤ e.2 && e.2 < off.toNat + n) then .error (.uce (offWord off))
    else .ok (b.liveBytes off.toNat n)

/-- Write scratchpad bytes of the live bank; a written byte is no longer damaged (R89, R304). -/
def State.putLive (s : State) (blk off : Nat) (bs : List Byte) : State :=
  match s.blockAt blk with
  | none => s
  | some b =>
    let s1 := s.putBlock blk { b with live := putBank b.live off bs }
    { s1 with badS := s1.badS.filter (fun e => !(e.1 = blk && off ≤ e.2 && e.2 < off + bs.length)) }

/-- Store scratchpad bytes for an instruction. -/
def State.storeS (s : State) (blk : Nat) (off : Int) (bs : List Byte) : State × Except MemErr Unit :=
  match s.blockAt blk with
  | none => (s, .error (.trap tSCRATCH (offWord off)))
  | some b =>
    if !s.bankOk b off bs.length then (s, .error (.trap tSCRATCH (offWord off)))
    else (s.putLive blk off.toNat bs, .ok ())

/-- Note the coalescing window an access opens or joins (R195). -/
def State.window (s : State) (k : Nat) (lines : List Nat) (store : Bool) : State :=
  match s.warpAt k with
  | none => s
  | some w =>
    let add := lines.filter (fun l => !w.windows.contains (l, store))
    if add = [] then s else s.putWarp k { w with windows := w.windows ++ add.map (fun l => (l, store)) }

/-! ## Transactional accesses (R120-R123, R200) -/

/-- The transaction a thread has open. -/
def Warp.openTxn (w : Warp) (t : Nat) : Option Txn :=
  match Sparse.get none w.txn t with
  | some x => if x.isOpen then some x else none
  | none => none
def Warp.putTxn (w : Warp) (t : Nat) (x : Txn) : Warp := { w with txn := Sparse.put w.txn t (some x) }

/-- Abort one thread's open transaction (Table 8.7); the first cause stays. -/
def State.abortTxn (s : State) (k t code : Nat) : State :=
  match s.warpAt k with
  | none => s
  | some w => s.putWarp k (w.abortTxns (BitVec.ofNat 32 (2 ^ t)) code)

/-- Distinct lines that the transactions of a warp hold (R123). -/
def Warp.txnLines (w : Warp) : List Nat :=
  (w.txn.flatMap (fun e => match e.2 with
    | some x => if x.isOpen && x.code = 0 then x.rlines ++ x.wlines else []
    | none => [])).eraseDups

/-- Add lines to a list. -/
def addLines (l new : List Nat) : List Nat := new.foldl (fun acc x => if acc.contains x then acc else acc ++ [x]) l

/-- A second value read from one byte is kept beside the first, so that validation sees both. -/
def noteRead (m : Sparse Byte) (key : Nat) (b : Byte) : Sparse Byte :=
  match Sparse.find m key with
  | none => Sparse.put m key b
  | some v => if v = b then m else Sparse.put m (key + 2 ^ 60) b

/-- Put back a transaction, or abort it with CAPACITY where a limit of R123 is exceeded. -/
def State.holdTxn (s : State) (k t : Nat) (x : Txn) : State × Bool :=
  match s.warpAt k with
  | none => (s, false)
  | some w =>
    let w1 := w.putTxn t x
    if 4 < x.rlines.length || 4 < x.wlines.length || 64 < w1.txnLines.length then (s.abortTxn k t 3, false)
    else (s.putWarp k w1, true)

/-- A clean byte is given a value, where it is held. -/
def freshen (cl : Sparse (List (Option Byte))) (key : Nat) (b : Byte) : Sparse (List (Option Byte)) :=
  match (Sparse.get [] cl (key / 64)).getD (key % 64) none with
  | some _ => keepClean cl key b
  | none => cl

/-- A core has read bytes at home past its L1: clean copies that its later loads would find older are brought up to date
(R108). -/
def State.freshenAll (s : State) (core : Nat) (keys : List Nat) : State :=
  let c := s.coreAt core
  let d := s.domeAt (domeOf core)
  (s.putCore core { c with clean := keys.foldl (fun acc a => freshen acc a (s.homeByte a)) c.clean }).putDome (domeOf core)
    { d with clean := keys.foldl (fun acc a => freshen acc a (s.homeByte a)) d.clean }

/-- A transactional load (R120, R123): the home value merged with the thread's own stores; 0 once aborted. -/
def State.loadTxn (s : State) (k t : Nat) (h : Hint) (x : Txn) (va : Word) (n : Nat) : State × List Byte :=
  let zeros := List.replicate n 0
  if x.code ≠ 0 then (s, zeros)
  else
    match s.translateRun (keyCore k) .read va n with
    | (s1, .error _) => (s1.abortTxn k t 5, zeros)
    | (s0, .ok keys) =>
      let sa := s0.askPeers (keyCore k) keys false
      if (sa.readErr (keyCore k) va keys false).isSome then (sa.abortTxn k t 5, zeros)
      else
        let s1 := (keys.map (· / 64)).eraseDups.foldl State.fillView (sa.touchHome (keyCore k) va h keys)
        let own (key : Nat) : Option Byte := Sparse.find x.wset key
        let out := keys.map (fun key => (own key).getD (s1.homeByte key))
        let rset := keys.foldl (fun acc key => if (own key).isSome then acc else noteRead acc key (s1.homeByte key)) x.rset
        let x1 := { x with rset := rset, rlines := addLines x.rlines (keys.map (· / 64)) }
        let r := ((s1.freshenAll (keyCore k) keys).lastUse (keyCore k) h keys).holdTxn k t x1
        (r.1, if r.2 then out else zeros)

/-- A transactional store (R120, R123): buffered, or discarded once aborted. -/
def State.storeTxn (s : State) (k t : Nat) (h : Hint) (x : Txn) (va : Word) (bs : List Byte) : State :=
  if x.code ≠ 0 then s
  else
    match s.translateRun (keyCore k) .write va bs.length with
    | (s1, .error _) => s1.abortTxn k t 5
    | (s1, .ok keys) =>
      let wset := (keys.zip bs).foldl (fun acc kb => Sparse.put acc kb.1 kb.2) x.wset
      ((s1.lastUse (keyCore k) h keys).holdTxn k t { x with wset := wset, wlines := addLines x.wlines (keys.map (· / 64)) }).1

/-! ## Effective addresses and the three spaces (R88, R191) -/

/-- An access of an instruction in one of the three spaces: where it goes. -/
inductive Place where
  | g (va : Word)
  | s (off : Int)
  | k (va : Word)
  deriving DecidableEq, Repr

/-- The effective address (R191). -/
def effective (sp : Space) (spv base : Word) (off : Int) : Place :=
  match sp with
  | .g => .g (base + BitVec.ofInt 64 off)
  | .s => .s ((base.toNat : Int) + off)
  | .k => .k (spv + base + BitVec.ofInt 64 off)

/-- The keys of a run of bytes that the core's TLB translates. -/
def State.runKeys (s : State) (k : Nat) (va : Word) (n : Nat) : List Nat :=
  (List.range n).filterMap (fun i =>
    (tlbFind (s.coreAt (keyCore k)).tlb (va + BitVec.ofNat 64 i)).map (fun x => s.leafKey x.entry x.bits (va + BitVec.ofNat 64 i)))

/-- A load by a thread. `tx` says that a `.g` load is transactional inside an open transaction (R200). -/
def State.load (s : State) (k t : Nat) (tx : Bool) (h : Hint) (a : Place) (n : Nat) :
    State × Except MemErr (List Byte) :=
  match s.warpAt k with
  | none => (s, .ok [])
  | some w =>
    match a with
    | .s off => (s, s.loadS w.blk off n)
    | .k va =>
      if !s.inStack k va n then (s, .error (.trap tSTACK va))
      else
        match s.loadG k h va n with
        | (s1, .error e) => (s1, .error e)
        | (s1, .ok bs) => (s1.noteFrame k (s1.runKeys k va n), .ok bs)
    | .g va =>
      match (if tx then w.openTxn t else none) with
      | some x => let r := s.loadTxn k t h x va n; (r.1, .ok r.2)
      | none => s.loadG k h va n

/-- A store by a thread. -/
def State.store (s : State) (k t : Nat) (h : Hint) (a : Place) (bs : List Byte) : State × Except MemErr Unit :=
  match s.warpAt k with
  | none => (s, .ok ())
  | some w =>
    match a with
    | .s off => s.storeS w.blk off bs
    | .k va =>
      if !s.inStack k va bs.length then (s, .error (.trap tSTACK va))
      else
        match s.storeG k h va bs with
        | (s1, .error e) => (s1, .error e)
        | (s1, .ok _) => (s1.noteFrame k (s1.runKeys k va bs.length), .ok ())
    | .g va =>
      match w.openTxn t with
      | some x => (s.storeTxn k t h x va bs, .ok ())
      | none => s.storeG k h va bs

/-! ## Performing a word thread by thread -/

/-- What one thread's access gives: a value for the destination, if any, with flags. -/
abbrev Access := State → Nat → Pend → Nat → State × Except MemErr (Option Word × Flags)

/-- How a memory word is performed: the access of a thread, its destination, whether it writes memory, and whether it is
one access for the whole warp (R198, R199). -/
structure Plan where
  access  : Access
  dst     : Spec := .none
  write   : Bool := false
  single  : Bool := false

/-- Accesses of the threads in ascending order. -/
def performAll (f : Access) (k : Nat) (p : Pend) : State → List Nat → State × List (Nat × Except MemErr (Option Word × Flags))
  | s, [] => (s, [])
  | s, t :: ts =>
    let r := f s k p t
    let rest := performAll f k p r.1 ts
    (rest.1, (t, r.2) :: rest.2)

/-- The trap an access error is, if it is one (R194, R304, R382). -/
def errTrap (t : Nat) (e : MemErr) : Option Trap :=
  let m : Mask := BitVec.ofNat 32 (2 ^ t)
  match e with
  | .page c va _ => if c = causeUCE then some { cause := tUCE, mask := m, addr := va } else none
  | .uce va => some { cause := tUCE, mask := m, addr := va }
  | .trap c va => some { cause := c, mask := m, addr := va }

/-- The fault-queue fault an access error is, if it is one. -/
def errPage (e : MemErr) : Option (Nat × Word × Bool) :=
  match e with
  | .page c va w => if c = causeUCE then none else some (c, va, w)
  | _ => none

def resErr (r : Except MemErr (Option Word × Flags)) : Option MemErr :=
  match r with
  | .error e => some e
  | .ok _ => none

/-- The value a thread obtained for its destination. -/
def resVal (rs : List (Nat × Except MemErr (Option Word × Flags))) (t : Nat) : Option (Option Word × Flags) :=
  match rs.find? (fun e => e.1 = t) with
  | some (_, .ok v) => some v
  | _ => none

/-- Perform a word's remaining threads, write its destination for those that completed, and then end the word, or stop
its split for a fault-queue fault (R194, R302, R382). A per-warp destination takes the value of the lowest thread the
word was issued for (R135). -/
def State.perform (s : State) (k pid : Nat) (q : Seq) (pl : Plan) (p : Pend) : State :=
  let ts := p.todo.threads
  let (s1, rs0) := performAll pl.access k p s (if pl.single then ts.take 1 else ts)
  let rs := if pl.single then
      (match rs0 with
       | [] => []
       | r :: _ => ts.map (fun t => (t, r.2)))
    else rs0
  match s1.warpAt k with
  | none => s1
  | some w =>
    match w.splitAt pid with
    | none => s1
    | some sp =>
      let done := Mask.ofPred (fun t => p.todo.has t && (match resVal rs t with | some (some _, _) => true | _ => false))
      let out := Mask.ofPred (fun t => p.todo.has t && (resVal rs t).isSome)
      let val (t : Nat) : Word := match resVal rs t with | some (some v, _) => v | _ => 0
      let flg (t : Nat) : Flags := match resVal rs t with | some (_, f) => f | none => 0
      let w1 := w.flagAll out flg
      let low := p.T.lowest.getD 0
      let c : WCtx := { key := k, split := sp, blk := w.blk, block := none, launch := none, time := 0,
                        stackLo := s.stackLo k, stackHi := s.stackHi k }
      let wr : Warp × List Trap :=
        if done = 0 then (w1, [])
        else if isWarpDst pl.dst then
          if done.has low then putDst c w w1 pl.dst (BitVec.ofNat 32 (2 ^ low)) .general val else (w1, [])
        else putDst c w w1 pl.dst done .general val
      let traps := p.held ++ wr.2 ++ rs.filterMap (fun e => (resErr e.2).bind (errTrap e.1))
      let faults := rs.filterMap (fun e => ((resErr e.2).bind errPage).map (fun x => (e.1, x)))
      match faults with
      | [] => (s1.putWarp k wr.1).finish k pid q traps
      | (_, c0, va, wk) :: _ =>
        let ft := if pl.single then p.todo else Mask.ofPred (fun t => faults.any (fun e => e.1 = t))
        let facc := (if pl.write then 1 else 0) + (if wk then 8 else 0)
        let (u, s2) := s1.post (s1.warpRec k wr.1 sp c0 facc va ft 0) (.split k pid) ((s1.blockAt w.blk).map (·.launch))
        s2.putWarp k (wr.1.putSplit { sp with stop := some (.replay u { p with todo := ft, held := traps }) })

/-- Issue a memory word (R132): guards, sources, then its accesses. -/
def memWord (i : Instr) (x : Ctl) (ty : OTys) (srcs : List Spec) (o : Slots) (pl : Plan) (s : State) :
    Host.Outcome State Fault Refusal :=
  match s.context with
  | none => .fault .noIssuer
  | some (c, w, p) =>
    let T := activeMask w p x
    if T = 0 then .next (s.seqAct c.key p.id x.seq)
    else
      match popAll w.ports o with
      | none => .next s
      | some (ports, pv) =>
        let ops := readOps c w ty o pv
        let u := uceMask w (srcs ++ guards x) T
        let us := if u = 0 then [] else [{ cause := tUCE, mask := u, addr := 0 }]
        .next ((s.putWarp c.key { w with ports := ports }).perform c.key p.id x.seq pl
          { i := i, T := T, todo := T &&& ~~~ u, ops := ops, held := us })

/-- A word that acts for each of its threads without an access that faults: `f` is given the threads that raise no UCE, their
operands and the trap of those that do, which is taken at its end (R298, R382). -/
def threadWord (x : Ctl) (ty : OTys) (srcs : List Spec) (o : Slots)
    (f : State → Nat → Split → Mask → Opnds → List Trap → State) (s : State) : Host.Outcome State Fault Refusal :=
  match s.context with
  | none => .fault .noIssuer
  | some (c, w, p) =>
    let T := activeMask w p x
    if T = 0 then .next (s.seqAct c.key p.id x.seq)
    else
      match popAll w.ports o with
      | none => .next s
      | some (ports, pv) =>
        let ops := readOps c w ty o pv
        let u := uceMask w (srcs ++ guards x) T
        let s1 := s.putWarp c.key { w with ports := ports }
        .next (if T &&& ~~~ u = 0 then s1.finish c.key p.id x.seq (uceTrap u) else f s1 c.key p (T &&& ~~~ u) ops (uceTrap u))

/-- A word that acts once for its split, whatever its active threads: `f` is given its active threads and operands. An
uncorrectable error of one of them is taken for the word, which does nothing (DEDUCED, log entry 111). -/
def splitWord (x : Ctl) (ty : OTys) (srcs : List Spec) (o : Slots)
    (f : State → Nat → Split → Mask → Opnds → State) (s : State) : Host.Outcome State Fault Refusal :=
  match s.context with
  | none => .fault .noIssuer
  | some (c, w, p) =>
    let T := activeMask w p x
    if T = 0 then .next (s.seqAct c.key p.id x.seq)
    else
      match popAll w.ports o with
      | none => .next s
      | some (ports, pv) =>
        let ops := readOps c w ty o pv
        let u := uceMask w (srcs ++ guards x) T
        let s1 := s.putWarp c.key { w with ports := ports }
        if u ≠ 0 then .next (s1.takeTrap c.key p.id { cause := tUCE, mask := u, addr := 0 })
        else .next (f s1 c.key p T ops)

/-- The active threads of a word that are outside every open transaction; the transactions of the others abort with
ILLEGALOP (Table 8.7). -/
def State.illegalOp (s : State) (k : Nat) (T : Mask) : State × Mask :=
  match s.warpAt k with
  | none => (s, T)
  | some w =>
    let inside := Mask.ofPred (fun t => T.has t && (w.openTxn t).isSome)
    if inside = 0 then (s, T) else (s.putWarp k (w.abortTxns inside 4), T &&& ~~~ inside)

end Sys2Proof.Machine
end

