-- ==== Sys2Proof/Machine/LoadStore.lean ====
section
/-! DEFINITION. LoadStore.lean: loads, stores, hoisted loads, prefetch, location and cache control (R197-R208). -/

namespace Sys2Proof.Machine

/-- A loaded value extended to 64 bits (R192). -/
def extendBytes (m : MTy) (bs : List Byte) : Word :=
  let v := leNat bs
  if m.signed then BitVec.ofInt 64 (toInt true (8 * m.bytes) v) else BitVec.ofNat 64 v

/-- The lines a global access of `n` bytes touches, for the coalescing window (R195). -/
def State.placeLines (s : State) (k : Nat) (a : Place) (n : Nat) : List Nat :=
  match a with
  | .s _ => []
  | .g va | .k va => ((s.runKeys k va n).map (· / 64)).eraseDups

/-- The place a thread's operands name. -/
def State.placeOf (s : State) (k : Nat) (m : MMod) (base : Word) : Place :=
  effective m.sp (match s.warpAt k with | some w => w.sp | none => 0) base m.off.toInt

/-- The load of LD and LDU. -/
def ldAccess (m : MMod) (tx : Bool) (h : Hint) : Access := fun s k p t =>
  let a := s.placeOf k m (p.ops.gb t)
  match s.load k t tx h a m.mt.bytes with
  | (s1, .error e) => (s1, .error e)
  | (s1, .ok bs) => (s1.window k (s1.placeLines k a m.mt.bytes) false, .ok (some (extendBytes m.mt bs), 0))

/-- The store of ST and STU. -/
def stAccess (m : MMod) (h : Hint) : Access := fun s k p t =>
  let a := s.placeOf k m (p.ops.gb t)
  match s.store k t h a (leBytes m.mt.bytes (p.ops.gc t).toNat) with
  | (s1, .error e) => (s1, .error e)
  | (s1, .ok _) => (s1.window k (s1.placeLines k a m.mt.bytes) true, .ok (none, 0))

def planLd (x : Ctl) (m : MMod) (o : Slots) : Plan := { access := ldAccess m true x.hint, dst := o.a }
def planSt (x : Ctl) (m : MMod) : Plan := { access := stAccess m x.hint, write := true }
def planLdu (x : Ctl) (m : MMod) (o : Slots) : Plan :=
  { access := ldAccess m false x.hint, dst := o.a, single := true }
def planStu (x : Ctl) (m : MMod) : Plan := { access := stAccess m x.hint, write := true, single := true }

/-- LD (R197). -/
def execLd (x : Ctl) (m : MMod) (o : Slots) (s : State) : Host.Outcome State Fault Refusal :=
  memWord (.ld x m o) x {} [o.b] o (planLd x m o) s
/-- ST (R197). -/
def execSt (x : Ctl) (m : MMod) (o : Slots) (s : State) : Host.Outcome State Fault Refusal :=
  memWord (.st x m o) x {} [o.b, o.c] o (planSt x m) s
/-- LDU: one access for the warp (R198). -/
def execLdu (x : Ctl) (m : MMod) (o : Slots) (s : State) : Host.Outcome State Fault Refusal :=
  memWord (.ldu x m o) x {} [o.b] o (planLdu x m o) s
/-- STU: one access for the warp, in the write set of the lowest active thread inside a transaction (R198, R200). -/
def execStu (x : Ctl) (m : MMod) (o : Slots) (s : State) : Host.Outcome State Fault Refusal :=
  memWord (.stu x m o) x {} [o.b, o.c] o (planStu x m) s

/-! ## LDM -/

/-- LDM's access: 8·c bytes into `m`j to `m`(j + c - 1) (R199). -/
def ldmAccess (x : Ctl) (m : MMod) (o : Slots) : Access := fun s k p t =>
  let a := s.placeOf k m (p.ops.gb t)
  let c := match o.c with | .small v => (smallVal v).toNat | _ => 0
  let j := match o.a with | .m i => i.val | _ => 0
  let mis : Option Word := match a with
    | .g va => if va.toNat % 8 = 0 then none else some va
    | .s off => if off % 8 = 0 then none else some (offWord off)
    | .k va => some va
  match mis with
  | some va => (s, .error (.trap tMISALIGN va))
  | none =>
    match s.load k t false x.hint a (8 * c) with
    | (s1, .error e) => (s1, .error e)
    | (s0, .ok bs) =>
      let s1 := s0.window k (s0.placeLines k a (8 * c)) false
      match s1.warpAt k with
      | none => (s1, .ok (none, 0))
      | some w =>
        let w1 := (List.range c).foldl (fun acc i =>
          (acc.mSet (j + i) (BitVec.ofNat 64 (leNat ((bs.drop (8 * i)).take 8)))).mend (regM (j + i))) w
        (s1.putWarp k w1, .ok (none, 0))

def planLdm (x : Ctl) (m : MMod) (o : Slots) : Plan := { access := ldmAccess x m o, single := true }

/-- LDM (R199). -/
def execLdm (x : Ctl) (m : MMod) (o : Slots) (s : State) : Host.Outcome State Fault Refusal :=
  memWord (.ldm x m o) x {} [o.b] o (planLdm x m o) s

/-! ## Hoisted loads (R201, R202) -/

/-- The address of a hoisted access. -/
def hoistVa (m : HMod) (base : Word) : Word := base + m.off.signExtend 64

/-- The hoisted-load entry of a warp. -/
def Warp.hoistAt (w : Warp) (i : Nat) : Option Hoist := Sparse.get none w.hoist i

/-- Set the entry of an LDH: the threads' addresses and the keys of their bytes, or invalid (R201). -/
def Warp.putHoist (w : Warp) (m : HMod) (dst : Spec) (T : Mask) (v : Opnds) (keys : Option (List Nat)) : Warp :=
  { w with hoist := match dst, keys with
    | .d i, some ks => Sparse.put w.hoist m.idx.val (some {
        width := m.mt.bytes, dst := i, addrs := T.threads.map (fun t => (t, hoistVa m (v.gb t))), lines := ks.eraseDups })
    | _, _ => Sparse.erase w.hoist m.idx.val }

/-- LDH: every thread loads without faulting; the entry is valid only where no thread's access would fault (R201). A thread
whose address cannot be read raises UCE and makes no access, and leaves the entry invalid. -/
def execLdh (x : Ctl) (m : HMod) (o : Slots) (s : State) : Host.Outcome State Fault Refusal :=
  threadWord x {} [o.b] o (fun s k p T v us =>
    let loads := T.threads.foldl (fun (acc : State × List (Nat × Option (Word × List Nat))) t =>
      let va := hoistVa m (v.gb t)
      match acc.1.loadG k x.hint va m.mt.bytes with
      | (s1, .error _) => (s1, acc.2 ++ [(t, none)])
      | (s0, .ok bs) =>
        let s1 := s0.window k (s0.placeLines k (.g va) m.mt.bytes) false
        match s1.translateRun (keyCore k) .read va m.mt.bytes with
        | (s2, .ok keys) => (s2, acc.2 ++ [(t, some (extendBytes m.mt bs, keys))])
        | (s2, .error _) => (s2, acc.2 ++ [(t, none)])) (s, [])
    match loads.1.warpAt k with
    | none => loads.1
    | some w =>
      let val (t : Nat) : Word :=
        match loads.2.find? (fun e => e.1 = t) with
        | some (_, some (a, _)) => a
        | _ => 0
      let keys := if us ≠ [] || loads.2.any (fun e => e.2.isNone) then none
        else some (loads.2.flatMap (fun e => match e.2 with | some (_, ks) => ks | none => []))
      (loads.1.putWarp k ((writeDst w o.a T .general val).putHoist m o.a T v keys)).finish k p.id x.seq us) s

/-- The load a CHK repeats. -/
def chkAccess (x : Ctl) (m : HMod) : Access := fun s k p t =>
  let a : Place := .g (hoistVa m (p.ops.gb t))
  match s.load k t false x.hint a m.mt.bytes with
  | (s1, .error e) => (s1, .error e)
  | (s1, .ok bs) => (s1.window k (s1.placeLines k a m.mt.bytes) false, .ok (some (extendBytes m.mt bs), 0))

def planChk (x : Ctl) (m : HMod) (o : Slots) : Plan := { access := chkAccess x m, dst := o.a }

/-- Whether an entry matches a CHK's width, destination and every active thread's address (R202). -/
def Hoist.fits (h : Hoist) (m : HMod) (dst : Spec) (T : Mask) (v : Opnds) : Bool :=
  h.width = m.mt.bytes && (match dst with | .d i => h.dst = i | _ => false) &&
  T.threads.all (fun t => Sparse.find h.addrs t = some (hoistVa m (v.gb t)))

/-- CHK: nothing where the entry is valid and matches, otherwise a load (R202). -/
def execChk (x : Ctl) (m : HMod) (o : Slots) (s : State) : Host.Outcome State Fault Refusal :=
  match s.context with
  | none => .fault .noIssuer
  | some (c, w, p) =>
    let T := activeMask w p x
    let ok := match w.hoistAt m.idx.val, popAll w.ports o with
      | some h, some (_, pv) => uceMask w ([o.b] ++ guards x) T = 0 && h.fits m o.a T (readOps c w {} o pv)
      | _, _ => false
    if T ≠ 0 && ok then
      -- a port source is popped all the same (R135)
      match popAll w.ports o with
      | some (ports, _) => .next ((s.putWarp c.key { w with ports := ports }).seqAct c.key p.id x.seq)
      | none => .next s
    else memWord (.chk x m o) x {} [o.b] o (planChk x m o) s

/-! ## Prefetch, location and cache control (R204-R208) -/

/-- PREF fetches the line of each thread's address, where it translates: it changes the line's place in its home slice under its
hint, and nothing that a program can observe (R99, R204). That a core's L1 fills a line early is turn fillLine. -/
def execPref (x : Ctl) (_llc : Bool) (off : BitVec 32) (o : Slots) (s : State) : Host.Outcome State Fault Refusal :=
  threadWord x {} [o.b] o (fun s k p T v us =>
    (T.threads.foldl (fun (st : State) t =>
      let va := v.gb t + off.signExtend 64
      match st.translate (keyCore k) .read va with
      | (st1, .error _) => st1
      | (st1, .ok (e, b)) =>
        let a := st1.leafKey e b va
        if st1.cached (keyCore k) a then st1 else st1.touchHome (keyCore k) va x.hint [a]) s).finish k p.id x.seq us) s

/-- LOCQ's report (Table 14.5). -/
def locqReport (s : State) (e : Word) (bits : Nat) (va : Word) : Word :=
  let pa := leafFrame e + va.toNat % 2 ^ bits
  let place := leafPlace e
  if paApt pa ≠ 0 then BitVec.ofNat 64 (2 ^ 36 + place)
  else
    match s.key pa with
    | none => BitVec.ofNat 64 3
    | some k =>
      let v := paVault k
      BitVec.ofNat 64 (place + v * 2 ^ 8 + colOf v * 2 ^ 16 + rowOf v * 2 ^ 24 + domeOf v * 2 ^ 32)

def locqAccess : Access := fun s k p t =>
  match s.translate (keyCore k) .read (p.ops.gb t) with
  | (s1, .error _) => (s1, .ok (some 3, 0))
  | (s1, .ok (e, b)) => (s1, .ok (some (locqReport s1 e b (p.ops.gb t)), 0))

def planLocq (o : Slots) : Plan := { access := locqAccess, dst := o.a }

/-- LOCQ (R103, R205). -/
def execLocq (x : Ctl) (o : Slots) (s : State) : Host.Outcome State Fault Refusal :=
  memWord (.locq x o) x {} [o.b] o (planLocq o) s

/-- Whether a line of an uncompressed view depends on a physical line (R105). -/
def State.viewDepends (s : State) (viewLine line : Nat) : Bool :=
  let k := 64 * viewLine
  2 ^ 52 ≤ k &&
  (let f := viewFrame k
   f ≤ 64 * line && 64 * line < f + 64 + leNat ((readBytes s.mem f 8).drop 4))

/-- Invalidate, at every cache, the view lines that depend on a line (R105). -/
def State.dropViews (s : State) (line : Nat) : State :=
  { s with
    views := s.views.filter (fun c => !s.viewDepends c.1 line)
    cores := s.cores.map (fun e => (e.1, { e.2 with clean := e.2.clean.filter (fun c => !s.viewDepends c.1 line) }))
    domes := s.domes.map (fun e => (e.1, { e.2 with clean := e.2.clean.filter (fun c => !s.viewDepends c.1 line) })) }

/-- The lines of a byte range, as virtual addresses. -/
def rangeLines (va : Word) (n : Nat) : List Word :=
  if n = 0 then []
  else
    let lo := va.toNat / 64
    let cnt := (va.toNat + n - 1) / 64 - lo + 1
    (List.range cnt).map (fun i => BitVec.ofNat 64 (64 * (lo + i)))

/-- Publish the dirty bytes that a core holds of the line of a byte (R206, R207); if there are any, the line is reached under the
word's hint (R99). -/
def State.publishLine (s : State) (core : Nat) (va : Word) (h : Hint) (a : Nat) : State :=
  if (s.coreAt core).dirty.any (fun e => e.1 / 64 = a / 64) then
    (s.llcTouch (a / 64) (s.classOf core va) h).publish core (fun i => i / 64 = a / 64)
  else s

/-- DCF: publish the range, then invalidate the view lines that depend on it; untranslatable lines and lines of a view
are skipped (R206). -/
def execDcf (x : Ctl) (o : Slots) (s : State) : Host.Outcome State Fault Refusal :=
  splitWord x {} [o.b, o.c] o (fun s k p T v =>
    let t := T.lowest.getD 0
    let lines := rangeLines (v.gb t) ((v.gc t).setWidth 32 : BitVec 32).toNat
    let s1 := lines.foldl (fun st va =>
      match st.translate (keyCore k) .read va with
      | (st1, .error _) => st1
      | (st1, .ok (e, b)) =>
        if leafVkind e ≠ 0 then st1
        else
          let a := st1.leafKey e b va
          ((st1.publishLine (keyCore k) va x.hint a).dropViews (a / 64)).lastUse (keyCore k) x.hint [a]) s
    s1.seqAct k p.id x.seq) s

/-- CFLUSH of one thread's line, which faults as a load of its address does (R207). The write back of `.vault` moves no
value. -/
def cflushAccess (h : Hint) (op : FlushOp) (off : BitVec 32) : Access := fun s k p t =>
  let core := keyCore k
  let va := p.ops.gb t + off.signExtend 64
  match s.translateRun core .read va 1 with
  | (s1, .error e) => (s1, .error e)
  | (s1, .ok keys) =>
    match s1.readErr core va keys true with
    | some e => (s1, .error e)
    | none =>
      let a := keys.headD 0
      let wb (x : State) : State := x.publishLine core va h a
      let s2 := match op with
        | .wb => wb s1
        | .inv => s1.dropCleanLine core (a / 64)
        | .wbinv => (wb s1).dropCleanLine core (a / 64)
        | .vault => (wb s1).touchHome core va h [a]
      (s2.lastUse core h [a], .ok (none, 0))

def planCflush (h : Hint) (op : FlushOp) (off : BitVec 32) : Plan := { access := cflushAccess h op off }

/-- CFLUSH (R207). -/
def execCflush (x : Ctl) (op : FlushOp) (off : BitVec 32) (o : Slots) (s : State) : Host.Outcome State Fault Refusal :=
  memWord (.cflush x op off o) x {} [o.b] o (planCflush x.hint op off) s

end Sys2Proof.Machine
end

