-- ==== Sys2Proof/Machine/Atomics.lean ====
section
/-! DEFINITION. Atomics.lean: atomics, far reductions and exchange stores (R115-R118, R209-R214). -/

namespace Sys2Proof.Machine

/-- How a data operand of an atomic is read. -/
def ATy.oty (a : ATy) : OTy :=
  match ATy.fmt a with
  | some f => .elems f.width (some f)
  | none => .bits

/-- An atomic at a peer's home slice (R346): its answer is the old value, and has ended the hoisted loads of the core that cover
its bytes (bexEnd, R202). One that was never answered is an uncorrectable error (R347). -/
def State.atomicPeer (s : State) (t : Nat) (keys : List Nat) (m : AMod) (c d va : Word) : State × Except MemErr (Nat × Flags) :=
  let r := s.peerAsk t (keys.headD 0) (.atomic m.aty m.op c d)
  match r.2 with
  | none => (r.1, .ok (0, 0))
  | some none => (r.1, .error (.uce va))
  | some (some v) => (r.1, .ok (v.toNat % 256 ^ m.aty.bytes, (atomNew m.aty m.op v.toNat c.toNat d.toNat).2))

/-- An atomic at the home slice of its bytes, after the reductions accepted there (R115, R116): the old value and flags. -/
def State.atomHome (s0 : State) (core : Nat) (keys : List Nat) (m : AMod) (c d : Word) : State × Nat × Flags :=
  let a := keys.headD 0
  let s := s0.applyReds (a / 64)
  let old := leNat (s.homeBytes a m.aty.bytes)
  let r := atomNew m.aty m.op old c.toNat d.toNat
  ((s.homeWrite a (leBytes m.aty.bytes r.1)).dropHoists core (fun h => keys.any h.covers), old, r.2)

/-- A RED reaches the write queue of its home slice, which accepts it (R116, R211). -/
def State.acceptRed (s : State) (k t : Nat) (keys : List Nat) (m : AMod) (c : Word) : State :=
  { s with reds := s.reds ++ [{ key := k, t := t, a := keys.headD 0, aty := m.aty, op := m.op, c := c }] }

/-- An atomic access of scratchpad or of global memory (R115, R210, R211): the old value and flags. `red` says that it is a
reduction, which its slice accepts and applies later; at the true home of host memory, or a peer's, it is performed at once
(R345, R346). -/
def State.atomic (s : State) (k t : Nat) (red : Bool) (h : Hint) (m : AMod) (b : Word) (c d : Word) :
    State × Except MemErr (Nat × Flags) :=
  let n := m.aty.bytes
  if b.toNat % n ≠ 0 then (s, .error (.trap tMISALIGN b))
  else
    match s.warpAt k with
    | none => (s, .ok (0, 0))
    | some w =>
      match m.sp with
      | .s =>
        match s.loadS w.blk b.toNat n with
        | .error e => (s, .error e)
        | .ok bs =>
          let r := atomNew m.aty m.op (leNat bs) c.toNat d.toNat
          (s.putLive w.blk b.toNat (leBytes n r.1), .ok (leNat bs, r.2))
      | _ =>
        match s.translateRun (keyCore k) .write b n with
        | (s1, .error e) => (s1, .error e)
        | (s1, .ok keys) =>
          let a := keys.headD 0
          let core := keyCore k
          if s1.lineBad a then (s1, .error (.uce b))
          else if peerKey a then s1.atomicPeer t keys m c d b
          else
            let s2 := (s1.atHome (a / 8)).touchHome core b h keys
            if red && !farKey a then ((s2.acceptRed k t keys m c).lastUse core h keys, .ok (0, 0))
            else
              let r := s2.atomHome core keys m c d
              (r.1.lastUse core h keys, .ok (r.2.1, r.2.2))

/-- The launch a warp belongs to. -/
def State.launchOfWarp (s : State) (k : Nat) : Option Launch :=
  match s.warpAt k with
  | some w => s.launchOf w.blk
  | none => none

/-- An access that a thread with an open transaction does not perform: it aborts with ILLEGALOP (R212, R214). -/
def outsideTxn (f : Access) : Access := fun s k p t =>
  match s.warpAt k with
  | none => f s k p t
  | some w => if (w.openTxn t).isSome then (s.abortTxn k t 4, .ok (none, 0)) else f s k p t

/-- ATOM and ATOMC: a release before, the atomic, and an acquire after its result (R210). -/
def atomAccess (h : Hint) (m : AMod) : Access := outsideTxn (fun s k p t =>
  let l := s.launchOfWarp k
  let s1 := if m.ord = .rel || m.ord = .acqrel then s.release (keyCore k) l m.scope else s
  match s1.atomic k t false h m (p.ops.gb t) (p.ops.gc t) (p.ops.gd t) with
  | (s2, .error e) => (s2, .error e)
  | (s2, .ok (old, fl)) =>
    let s3 := if m.ord = .acq || m.ord = .acqrel then s2.acquire (keyCore k) l m.scope else s2
    (s3, .ok (some (BitVec.ofNat 64 old), fl)))

/-- RED: no result and no flag (R210, R211). -/
def redAccess (h : Hint) (m : AMod) : Access := outsideTxn (fun s k p t =>
  match s.atomic k t true h m (p.ops.gb t) (p.ops.gc t) 0 with
  | (s1, .error e) => (s1, .error e)
  | (s1, .ok _) => (s1, .ok (none, 0)))

def planAtom (x : Ctl) (m : AMod) (o : Slots) : Plan := { access := atomAccess x.hint m, dst := o.a, write := true }
def planRed (x : Ctl) (m : AMod) : Plan := { access := redAccess x.hint m, write := true }

/-- ATOM. -/
def execAtom (x : Ctl) (m : AMod) (o : Slots) (s : State) : Host.Outcome State Fault Refusal :=
  memWord (.atom x m o) x { c := ATy.oty m.aty } [o.b, o.c] o (planAtom x m o) s
/-- ATOMC: compare and swap. -/
def execAtomc (x : Ctl) (m : AMod) (o : Slots) (s : State) : Host.Outcome State Fault Refusal :=
  memWord (.atomc x m o) x {} [o.b, o.c, o.d] o (planAtom x m o) s
/-- RED. -/
def execRed (x : Ctl) (m : AMod) (o : Slots) (s : State) : Host.Outcome State Fault Refusal :=
  memWord (.red x m o) x { c := ATy.oty m.aty } [o.b, o.c] o (planRed x m) s

/-! ## Exchange stores (R118, R213) -/

/-- Who receives an XST: a resident block, a saved context, or nobody. -/
inductive Receiver where
  | block (b : Nat)
  | saved
  | nobody
  deriving DecidableEq, Repr

/-- The receiving block of R118: same launch, the core at the coordinates, same local index, with a shadow bank. -/
def State.receiver (s : State) (blk : Nat) (m : XMod) : Receiver :=
  match s.blockAt blk with
  | none => .nobody
  | some b =>
    let c := 12 * m.row.toNat + m.col.toNat
    match s.launchAt b.launch with
    | none => .nobody
    | some l =>
      if 12 ≤ m.col.toNat || 12 ≤ m.row.toNat || !l.part.getLsbD 24 then .nobody
      else
        match s.blocks.find? (fun e => match e.2 with
            | some y => y.launch = b.launch && y.core = c && y.k = b.k
            | none => false) with
        | some (i, _) => .block i
        | none => if s.saved.any (fun v => v.alive && v.blk.launch = b.launch && v.core = c && v.blk.k = b.k) then .saved else .nobody

/-- One thread's exchange store into the receiver's shadow bank. -/
def xstAccess (m : XMod) : Access := outsideTxn (fun s k p t =>
  match s.warpAt k with
  | none => (s, .ok (none, 0))
  | some w =>
    match s.receiver w.blk m with
    | .block r =>
      match s.blockAt r with
      | none => (s, .ok (none, 0))
      | some b =>
        let off := (p.ops.gb t).toNat
        if !s.bankOk b off m.mt.bytes then (s, .error (.trap tSCRATCH (p.ops.gb t)))
        else (s.putBlock r { b with shadow := putBank b.shadow off (leBytes m.mt.bytes (p.ops.gc t).toNat) }, .ok (none, 0))
    | _ => (s, .error (.trap tNORECV (p.ops.gb t))))

def planXst (m : XMod) : Plan := { access := xstAccess m }

/-- Whether a word's active threads all stand outside open transactions aborted by ILLEGALOP. -/
def State.xstWaits (s : State) (k : Nat) (m : XMod) (T : Mask) : Bool :=
  match s.warpAt k with
  | none => false
  | some w => s.receiver w.blk m = .saved && T.threads.any (fun t => (w.openTxn t).isNone)

/-- XST (R213): a saved receiver stops the split before any byte is sent (R314). -/
def execXst (x : Ctl) (m : XMod) (o : Slots) (s : State) : Host.Outcome State Fault Refusal :=
  match s.context with
  | none => .fault .noIssuer
  | some (c, w, p) =>
    let T := activeMask w p x
    if T ≠ 0 && s.xstWaits c.key m T then
      match popAll w.ports o with
      | none => .next s
      | some (ports, pv) =>
        let ops := readOps c w {} o pv
        let u := uceMask w ([o.b, o.c] ++ guards x) T
        let us := if u = 0 then [] else [{ cause := tUCE, mask := u, addr := 0 }]
        .next (s.putWarp c.key ({ w with ports := ports }.putSplit { p with stop := some (.xst
          { i := .xst x m o, T := T, todo := T &&& ~~~ u, ops := ops, held := us }) }))
    else memWord (.xst x m o) x {} [o.b, o.c] o (planXst m) s

/-- XST_RECEIVER_RESIDENT: a split stopped on an XST goes on once its receiver is resident again, or no longer to
come (R314). -/
def execXstReceiverResident (r : Ref) (s : State) : Host.Outcome State Fault Refusal :=
  match s.warpAt (refKey r) with
  | none => .next s
  | some w =>
    match w.splitAt r.split with
    | none => .next s
    | some p =>
      match p.stop with
      | some (.xst pend) =>
        match pend.i with
        | .xst x m _ =>
          if s.xstWaits (refKey r) m pend.T then .next s
          else .next ((s.putWarp (refKey r) (w.putSplit { p with stop := none })).perform (refKey r) p.id x.seq (planXst m) pend)
        | _ => .next s
      | _ => .next s

end Sys2Proof.Machine
end

