-- ==== Sys2Proof/Machine/Arrival.lean ====
section
/-! DEFINITION. Arrival.lean: arrival words (R218-R220), ARRV and AWAIT (R221-R223). -/

namespace Sys2Proof.Machine

/-- The fields of an arrival word (Table 14.8). -/
structure Arr where
  target : Nat
  count  : Nat
  gen    : Nat
  errs   : Nat
  deriving DecidableEq, Repr

def Arr.ofBytes (bs : List Byte) : Arr :=
  let v := leNat bs
  { target := v % 2 ^ 32, count := v / 2 ^ 32 % 2 ^ 32, gen := v / 2 ^ 64 % 2 ^ 15, errs := v / 2 ^ 80 % 8 }
def Arr.bytes (a : Arr) : List Byte :=
  leBytes 16 (a.target % 2 ^ 32 + a.count % 2 ^ 32 * 2 ^ 32 + a.gen % 2 ^ 15 * 2 ^ 64 + a.errs % 8 * 2 ^ 80)

/-- One signal of `n` bytes (R219). -/
def Arr.signal (a : Arr) (n : Nat) : Arr :=
  let c := a.count + n
  if a.target ≤ c then { a with count := c - a.target, gen := (a.gen + 1) % 2 ^ 15 } else { a with count := c }

/-- Error bits of an arrival word. -/
def arrCorr : Nat := 1
def arrCanc : Nat := 2
def arrFault : Nat := 4

/-- Signal `n` bytes in an arrival word of a block, setting error bits first (R219, R220). -/
def State.signal (s : State) (blk off n errs : Nat) : State :=
  match s.blockAt blk with
  | none => s
  | some b =>
    let a := Arr.ofBytes (b.liveBytes off 16)
    s.putLive blk off ({ a with errs := Nat.lor a.errs errs }.signal n).bytes

/-- Set error bits of an arrival word, and nothing else. -/
def State.markErr (s : State) (blk off errs : Nat) : State :=
  match s.blockAt blk with
  | none => s
  | some b =>
    let a := Arr.ofBytes (b.liveBytes off 16)
    s.putLive blk off { a with errs := Nat.lor a.errs errs }.bytes

/-- ARRV of one thread (R221). -/
def arrvAccess (op : ArrvOp) : Access := outsideTxn (fun s k p t =>
  match s.warpAt k with
  | none => (s, .ok (none, 0))
  | some w =>
    let b := p.ops.gb t
    let c := (p.ops.gc t).toNat % 2 ^ 32
    if b.toNat % 16 ≠ 0 then (s, .error (.trap tMISALIGN b))
    else
      match s.loadS w.blk b.toNat 16 with
      | .error e => (s, .error e)
      | .ok bs =>
        let a := Arr.ofBytes bs
        let a1 := match op with
          | .init => { a with target := c, count := 0, errs := 0 }
          | .add => a.signal c
          | .expect => { a with target := (a.target + c) % 2 ^ 32 }
          | .clrerr => { a with errs := 0 }
        let s1 := if op = .add then s.release (keyCore k) (s.launchOfWarp k) .core else s
        (s1.putLive w.blk b.toNat a1.bytes, .ok (some (BitVec.ofNat 64 a.gen), 0)))

def planArrv (op : ArrvOp) (o : Slots) : Plan := { access := arrvAccess op, dst := o.a }

/-- ARRV (R221). -/
def execArrv (x : Ctl) (op : ArrvOp) (o : Slots) (s : State) : Host.Outcome State Fault Refusal :=
  memWord (.arrv x op o) x {} [o.b, o.c] o (planArrv op o) s

/-- Finish an AWAIT whose word has the wanted phase: A receives the error bits (R222). -/
def State.awaitDone (s : State) (k pid : Nat) (x : Ctl) (o : Slots) (T : Mask) (a : Arr) : State :=
  match s.warpAt k with
  | none => s
  | some w =>
    match w.splitAt pid with
    | none => s
    | some p =>
      let c : WCtx := { key := k, split := p, blk := w.blk, block := none, launch := none, time := 0,
                        stackLo := s.stackLo k, stackHi := s.stackHi k }
      let r := putDst c w w o.a T .general (fun _ => BitVec.ofNat 64 a.errs)
      (s.putWarp k r.1).finish k pid x.seq r.2

/-- Evaluate an AWAIT: its word is misaligned, out of the bank or damaged, has the phase, or stops the split (R222). Slot C is
not called uniform: where the active threads give different phases, the lowest one's counts (DESIGN CHOICE, log entry 116). -/
def State.awaitEval (s : State) (k pid : Nat) (x : Ctl) (o : Slots) (pend : Pend) : State :=
  match s.warpAt k with
  | none => s
  | some w =>
    match w.splitAt pid with
    | none => s
    | some p =>
      let t := pend.T.lowest.getD 0
      let b := pend.ops.gb t
      let tr (c : Nat) (v : Word) : State := s.takeTrap k pid { cause := c, mask := pend.T, addr := v }
      if b.toNat % 16 ≠ 0 then tr tMISALIGN b
      else
        match s.loadS w.blk b.toNat 16 with
        | .error (.uce v) => tr tUCE v
        | .error _ => tr tSCRATCH b
        | .ok bs =>
          let a := Arr.ofBytes bs
          if decide (a.gen % 2 = 1) = (pend.ops.gc t).getLsbD 0 then s.awaitDone k pid x o pend.T a
          else s.putWarp k (w.putSplit { p with stop := some (.await pend) })

/-- AWAIT (R222). -/
def execAwait (x : Ctl) (o : Slots) (s : State) : Host.Outcome State Fault Refusal :=
  splitWord x {} [o.b, o.c] o (fun s k p T v =>
    let r := s.illegalOp k T
    if r.2 = 0 then r.1.seqAct k p.id x.seq
    else r.1.awaitEval k p.id x o { i := .await x o, T := r.2, ops := v }) s

end Sys2Proof.Machine
end

