-- ==== Sys2Proof/Machine/Sync.lean ====
section
/-! DEFINITION. Sync.lean: phase boundaries, barriers, WAIT and YIELD (R195, R215-R217, R224-R232, R237). -/

namespace Sys2Proof.Machine

/-! ## PHASE and FENCE -/

/-- The release and acquire of a phase boundary (R110, R113). -/
def State.boundary (s : State) (k : Nat) (m : SMod) : State :=
  let l := s.launchOfWarp k
  let s1 := if m.ord = .rel || m.ord = .acqrel then s.release (keyCore k) l m.scope else s
  if m.ord = .acq || m.ord = .acqrel then s1.acquire (keyCore k) l m.scope else s1

/-- PHASE (R215). -/
def execPhase (x : Ctl) (m : SMod) (o : Slots) (s : State) : Host.Outcome State Fault Refusal :=
  splitWord x {} [] o (fun s k p T _ =>
    let r := s.illegalOp k T
    (if r.2 = 0 then r.1 else r.1.boundary k m).seqAct k p.id x.seq) s

/-- FENCE: every earlier access of the warp has been performed, since the step lands what was under way before the word
(State.settle); then as PHASE (R216). -/
def execFence (x : Ctl) (m : SMod) (o : Slots) (s : State) : Host.Outcome State Fault Refusal :=
  splitWord x {} [] o (fun s k p T _ =>
    let r := s.illegalOp k T
    (if r.2 = 0 then r.1 else r.1.boundary k m).seqAct k p.id x.seq) s

/-! ## BAR -/

/-- Stop a split. -/
def State.stopSplit (s : State) (k pid : Nat) (st : Stop) : State :=
  match s.warpAt k with
  | none => s
  | some w =>
    match w.splitAt pid with
    | none => s
    | some p => s.putWarp k (w.putSplit { p with stop := some st })

/-- A split waiting at a barrier looks again (R224): it stays parked while its warp has not arrived, whatever generations
complete meanwhile; `.pass` continues once its warp has arrived; `.join` continues once the generation in which its warp
arrived has completed, and `.hold` once the one it waits for has, both with an acquire at core scope. -/
def State.barPoll (s0 : State) (k pid id gen : Nat) (hold : Bool) (pend : Pend) (x : Ctl) (op : BarOp) : State :=
  match s0.warpAt k with
  | none => s0
  | some w0 =>
    let s := s0.barUpdate w0.blk id
    match s.blockAt w0.blk with
    | none => s
    | some b =>
      let y := b.barAt id
      let parked := !hold && decide (Sparse.get 0 y.parts w0.wid &&& (match w0.splitAt pid with | some p => p.mask | none => 0) ≠ 0)
      let waits := if hold then decide (y.gen = gen) else y.arrived.contains w0.wid
      if parked then s.stopSplit k pid (.bar id y.gen hold pend)
      else if op = .pass then s.seqAct k pid x.seq
      else if waits then s.stopSplit k pid (.bar id gen hold pend)
      else (s.acquire (keyCore k) (s.launchOfWarp k) .core).seqAct k pid x.seq

/-- BAR (R224). -/
def execBar (x : Ctl) (op : BarOp) (o : Slots) (s : State) : Host.Outcome State Fault Refusal :=
  splitWord x {} [o.b, o.c] o (fun s k p T0 v =>
    let r := s.illegalOp k T0
    let T := r.2
    let s := r.1
    let t := T.lowest.getD 0
    let id := (v.gb t).toNat
    let cnt := (v.gc t).toNat
    if T = 0 then s.seqAct k p.id x.seq
    else if 31 < id || 256 < cnt then s.takeTrap k p.id { cause := tTEAMGROUP, mask := T, addr := 0 }
    else
      match s.warpAt k with
      | none => s
      | some w =>
        let s1 := s.barUpdate w.blk id
        match s1.blockAt w.blk with
        | none => s1
        | some b =>
          let y := b.barAt id
          let pend : Pend := { i := .bar x op o, T := T, ops := v }
          let y1 := if op = .hold then y else
            { y with parts := Sparse.put y.parts w.wid (Sparse.get 0 y.parts w.wid ||| p.mask),
                     want := Sparse.put y.want w.wid cnt }
          -- the split is stopped first, so that a holder counts as stopped
          let s2 := (s1.putBlock w.blk (b.putBar id y1)).stopSplit k p.id (.bar id y.gen (decide (op = .hold)) pend)
          s2.barPoll k p.id id y.gen (decide (op = .hold)) pend x op) s

/-! ## TBAR -/

/-- The group of a specifier for a block of a team: origin and size (R37, R225). -/
def tbarGroup (l : Launch) (pos : Nat × Nat) (spec : Nat) : Option ((Nat × Nat) × (Nat × Nat)) :=
  if l.kind ≠ 0 then none
  else if spec = 256 then some ((0, 0), (l.tw, l.th))
  else if 256 ≤ spec then none
  else
    let a := 2 ^ (spec % 16)
    let b := 2 ^ (spec / 16)
    let ox := pos.1 - pos.1 % a
    let oy := pos.2 - pos.2 % b
    if ox + a ≤ l.tw && oy + b ≤ l.th then some ((ox, oy), (a, b)) else none

/-- The team barrier of a launch with an id, specifier and origin. -/
def Launch.tbarAt (l : Launch) (id spec : Nat) (origin : Nat × Nat) : Option TBar :=
  l.tbars.find? (fun z => z.id = id && z.spec = spec && z.origin = origin)

/-- A block of a group has entered the current generation of another specifier on the same id (R225). -/
def State.tbarClash (s : State) (lid : Nat) (l : Launch) (g : TBar) : Bool :=
  let blks := (s.launchBlocks lid).filterMap (fun b => if g.inside b.2.pos then some b.1 else none)
  l.tbars.any (fun z => z.id = g.id && z.spec ≠ g.spec &&
    (z.arrived.any (fun e => blks.contains e.1) || z.parts.any (fun e => blks.contains e.1.1)))

/-- A split waiting at a team barrier looks again (R225), as at a barrier of its block. -/
def State.tbarPoll (s0 : State) (k pid lid : Nat) (g : TBar) (gen : Nat) (pend : Pend) (x : Ctl) (pass : Bool) : State :=
  let upd (s : State) : State :=
    match (s.launchAt lid).bind (fun l => l.tbarAt g.id g.spec g.origin) with
    | some z => s.tbarUpdate lid z
    | none => s
  let s := upd s0
  match s.warpAt k, (s.launchAt lid).bind (fun l => l.tbarAt g.id g.spec g.origin) with
  | some w, some z =>
    let parked := decide (z.part (w.blk, w.wid) &&& (match w.splitAt pid with | some p => p.mask | none => 0) ≠ 0)
    if parked then s.stopSplit k pid (.tbar (g.id + 4 * g.spec) z.gen pend)
    else if pass then s.seqAct k pid x.seq
    else if z.arrived.contains (w.blk, w.wid) then s.stopSplit k pid (.tbar (g.id + 4 * g.spec) gen pend)
    else (s.acquire (keyCore k) (s.launchAt lid) .team).seqAct k pid x.seq
  | _, _ => s

/-- TBAR (R225). -/
def execTbar (x : Ctl) (pass : Bool) (swap : Bool) (o : Slots) (s : State) : Host.Outcome State Fault Refusal :=
  splitWord x {} [o.b, o.c] o (fun s k p T0 v =>
    let r := s.illegalOp k T0
    let T := r.2
    let s := r.1
    let t := T.lowest.getD 0
    let spec := (v.gb t).toNat % 2 ^ 32
    let id := (v.gc t).toNat
    let tr (c : Nat) : State := s.takeTrap k p.id { cause := c, mask := T, addr := 0 }
    if T = 0 then s.seqAct k p.id x.seq
    else
      match s.warpAt k with
      | none => s
      | some w =>
        match s.blockAt w.blk with
        | none => s
        | some b =>
          match s.launchAt b.launch with
          | none => tr tTEAMGROUP
          | some l =>
            match tbarGroup l b.pos spec with
            | none => tr tTEAMGROUP
            | some (og, sz) =>
              let g : TBar := (l.tbarAt id spec og).getD
                { id := id, spec := spec, origin := og, size := sz, gen := 0, swap := false, swaps := [], arrived := [], parts := [] }
              if 3 < id || s.tbarClash b.launch l g then tr tTEAMGROUP
              else if swap && !l.part.getLsbD 24 then tr tNOXBANK
              else
                let l1 := if (l.tbarAt id spec og).isSome then l else { l with tbars := l.tbars ++ [g] }
                let g1 := g.addPart (w.blk, w.wid) p.mask swap
                let pend : Pend := { i := .tbar x pass swap o, T := T, ops := v }
                let s1 := ((s.putLaunch b.launch l1).putTBar b.launch g1).stopSplit k p.id (.tbar (id + 4 * spec) g.gen pend)
                s1.tbarPoll k p.id b.launch g g.gen pend x pass) s

/-! ## WAIT (R125-R127, R228-R231) -/

/-- Entries in a slice's table, and on its overflow list. -/
def State.lantern (s : State) (slice : Nat) (spilled : Bool) : Nat :=
  (s.waits.flatMap (fun x => x.ents.filter (fun e => e.slice = slice && e.spilled = spilled))).length

/-- Register one entry for threads at a word: the first evaluation is one step with it (R125, Table 8.8). -/
def State.registerEnt (s : State) (x : Wait) (a : Nat) (threads : Mask) : Wait :=
  match x.result with
  | some _ => x
  | none =>
    let slice := s.homeSlice a
    let probe : Wait := { x with ents := x.ents ++ [{ slice := slice, addr := a, threads := threads, spilled := false }] }
    let y := probe.evaluate a (s.homeWord a)
    match y.result with
    | some _ => y
    | none =>
      if y.ents.length = x.ents.length then y
      else
        -- the entry stays: in the table, on the overflow list, or nowhere
        let own := (x.ents.filter (fun e => e.slice = slice && !e.spilled)).length
        let ownS := (x.ents.filter (fun e => e.slice = slice && e.spilled)).length
        if s.lantern slice false + own < 4096 then y
        else if s.lantern slice true + ownS < 65536 then
          { y with ents := y.ents.map (fun e => if e.addr = a && e.threads = threads then { e with spilled := true } else e) }
        else { y with ents := [], result := some 2 }

/-- A finished WAIT: each thread's A receives its result, `.acq` acquires, and the word ends (R229, R231). -/
def State.waitDone (s : State) (k pid : Nat) (x : Ctl) (m : WMod) (o : Slots) (pend : Pend) (y : Wait) (code : Nat) : State :=
  match s.warpAt k with
  | none => s
  | some w =>
    match w.splitAt pid with
    | none => s
    | some p =>
      let c : WCtx := { key := k, split := p, blk := w.blk, block := none, launch := none, time := 0,
                        stackLo := s.stackLo k, stackHi := s.stackHi k }
      let r := putDst c w w o.a y.T .general (fun t => BitVec.ofNat 64 (code + if y.sat.has t then 256 else 0))
      let s1 := { s.putWarp k r.1 with waits := s.waits.filter (fun z => z.id ≠ y.id) }
      let s2 := if m.acq then s1.acquire (keyCore k) (s1.launchOfWarp k) .package else s1
      s2.finish k pid x.seq (pend.held ++ r.2)

/-- Perform a WAIT for its threads (R228): a fault of translation registers nothing and stops the split; threads that
trap take no part; the others register, each by one synchronising read under the word's hint (R116, R149). -/
def State.waitIssue (s : State) (k pid : Nat) (x : Ctl) (m : WMod) (o : Slots) (pend : Pend) : State :=
  let step (acc : State × List (Nat × Except MemErr Nat)) (t : Nat) : State × List (Nat × Except MemErr Nat) :=
    let b := pend.ops.gb t
    if b.toNat % 8 ≠ 0 then (acc.1, acc.2 ++ [(t, .error (.trap tMISALIGN b))])
    else
      match acc.1.translateRun (keyCore k) .read b 8 with
      | (s1, .error e) => (s1, acc.2 ++ [(t, .error e)])
      | (s1, .ok keys) =>
        let a := keys.headD 0
        let s1 := (s1.askPeers (keyCore k) keys false).applyReds (a / 64)
        if s1.lineBad a || s1.peerFailed keys then (s1, acc.2 ++ [(t, .error (.uce b))])
        else ((s1.touchHome (keyCore k) b x.hint keys).lastUse (keyCore k) x.hint keys, acc.2 ++ [(t, .ok a)])
  let r := pend.todo.threads.foldl step (s, [])
  let s1 := r.1
  let traps := r.2.filterMap (fun e => match e.2 with | .error er => errTrap e.1 er | .ok _ => none)
  let faults := r.2.filterMap (fun e => match e.2 with | .error er => (errPage er).map (fun y => (e.1, y)) | .ok _ => none)
  let good := r.2.filterMap (fun e => match e.2 with | .ok a => some (e.1, a) | .error _ => none)
  match s1.warpAt k with
  | none => s1
  | some w =>
    match w.splitAt pid with
    | none => s1
    | some p =>
      match faults with
      | (_, c0, va, wk) :: _ =>
        let ft := Mask.ofPred (fun t => faults.any (fun e => e.1 = t))
        let (u, s2) := s1.post (s1.warpRec k w p c0 (if wk then 8 else 0) va ft 0) (.split k pid)
          ((s1.blockAt w.blk).map (·.launch))
        s2.putWarp k (w.putSplit { p with stop := some (.replay u pend) })
      | [] =>
        let T := Mask.ofPred (fun t => good.any (fun e => e.1 = t))
        if T = 0 then s1.finish k pid x.seq (pend.held ++ traps)
        else
          let (u, s2) := s1.fresh
          let t0 := T.lowest.getD 0
          let tns := (pend.ops.gd t0).toNat % 2 ^ 32
          let y0 : Wait := {
            id := u, warp := k, split := pid, ctx := none, cond := m.cond, sgn := m.sgn, any := m.any, T := T,
            vals := pend.ops.c, sat := 0, ents := [], result := none,
            deadline := s2.time.toNat + if tns = 0 then 2 ^ 32 else tns }
          let addrs := good.map Prod.snd
          let y := if addrs.all (fun a => a = addrs.headD 0) then s2.registerEnt y0 (addrs.headD 0) T
            else good.foldl (fun acc e => s2.registerEnt acc e.2 (BitVec.ofNat 32 (2 ^ e.1))) y0
          let pend1 := { pend with held := pend.held ++ traps }
          let s3 := (y.ents.filter (·.spilled)).foldl (fun (st : State) e =>
            st.count .slice e.slice 0x110 none (s.prioAt k) none) s2
          match y.result with
          | some code => s3.waitDone k pid x m o pend1 y code
          | none =>
            ({ s3 with waits := s3.waits ++ [y] }).putWarp k (w.putSplit { p with stop := some (.wait u pend1) })

/-- WAIT (R228). -/
def execWait (x : Ctl) (m : WMod) (o : Slots) (s : State) : Host.Outcome State Fault Refusal :=
  match s.context with
  | none => .fault .noIssuer
  | some (c, w, p) =>
    let T := activeMask w p x
    if T = 0 then .next (s.seqAct c.key p.id x.seq)
    else
      match popAll w.ports o with
      | none => .next s
      | some (ports, pv) =>
        let ops := readOps c w {} o pv
        let u := uceMask w ([o.b, o.c, o.d] ++ guards x) T
        let us := if u = 0 then [] else [{ cause := tUCE, mask := u, addr := 0 }]
        let r := (s.putWarp c.key { w with ports := ports }).illegalOp c.key (T &&& ~~~ u)
        .next (if r.2 = 0 then r.1.finish c.key p.id x.seq us
          else r.1.waitIssue c.key p.id x m o { i := .wait x m o, T := r.2, todo := r.2, ops := ops, held := us })

/-- WAIT_TIMEOUT: the deadline has passed and nothing has decided the WAIT yet (R126, R230). A swapped-out context becomes
ready by it (R314, Table 20.8). -/
def execWaitTimeout (id : Nat) (s : State) : Host.Outcome State Fault Refusal :=
  .next (match s.waits.find? (fun y => y.id = id) with
    | none => s
    | some y =>
      if y.result.isNone && y.deadline ≤ s.time.toNat then
        let ws := s.waits.map (fun z => if z.id = id then { z with result := some 1, ents := [] } else z)
        let s1 := { s with waits := refillAll ws }
        match y.ctx with
        | some c => s1.markReady c
        | none => s1
      else s)

/-- WAKE_UP: the result of a decided WAIT reaches its split (R229). A swapped-out context's result is delivered when it
resumes (R230). The entries a `.any` still holds are removed. -/
def execWakeUp (id : Nat) (s : State) : Host.Outcome State Fault Refusal :=
  .next (match s.waits.find? (fun y => y.id = id) with
    | none => s
    | some y =>
      match y.result, y.ctx with
      | some code, none =>
        match s.warpAt y.warp with
        | none => s
        | some w =>
          match w.splitAt y.split with
          | none => s
          | some p =>
            match p.stop with
            | some (.wait i pend) =>
              match pend.i with
              | .wait x m o =>
                if i = id then
                  let s1 := s.waitDone y.warp y.split x m o pend y code
                  { s1 with waits := refillAll s1.waits }
                else s
              | _ => s
            | _ => s
      | _, _ => s)

/-- The driver cancels the registrations of a swapped-out context: they end with CONTEXT, which it receives when it resumes
(R125, R126, Table 8.8). -/
def State.cancelWaits (s : State) (ctx : Nat) : State :=
  { s with waits := refillAll (s.waits.map (fun y =>
      if y.ctx = some ctx && y.result.isNone then { y with result := some 3, ents := [] } else y)) }

/-! ## YIELD and the coalescing window -/

/-- A stop that waits for the driver's reply, or that no reply ends: the whole warp is descheduled (R44, R299, R382). -/
def Stop.deschedules : Stop → Bool
  | .replay _ _ | .refetch _ _ | .refetchWord _ | .nested => true
  | _ => false

/-- A warp that has taken a memory fault, or for which NESTED was posted, is descheduled (R44, R299, R382). -/
def Warp.descheduled (w : Warp) : Bool := w.splits.any (fun x => x.stop.any Stop.deschedules)

/-- Nothing but a stop of its own or of its warp keeps a split from issuing: it is not held by a handler of its warp, and
its block is neither being saved nor halted (R299, R309, R324). -/
def State.mayGo (s : State) (w : Warp) (p : Split) : Bool :=
  !s.stopping w.blk && !(w.handler.isSome && w.held.contains p.id) &&
  (match s.blockAt w.blk with | some b => !b.halted | none => false)

/-- The word a split would issue next. -/
def State.nextWord (s : State) (core : Nat) (p : Split) : Option Instr :=
  if p.idx = 0 then none
  else match (s.fetchSlot core p.hdr p.idx).2 with
    | .ok wd => (match decode wd with | .ok i => some i | .error _ => none)
    | .error _ => none

/-- A word reads a queue port that holds no record: it blocks its split (R135). -/
def portBlocked (w : Warp) (p : Split) (i : Instr) : Bool :=
  match i.entry with
  | some n => activeMask w p n.x ≠ 0 && (popAll w.ports n.o).isNone
  | none => false

/-- A split is ready (R47): live, not stopped, not held by a handler of its warp, its warp not descheduled, its block not
halted, and its word not blocked at a queue port. -/
def State.ready (s : State) (core : Nat) (w : Warp) (p : Split) : Bool :=
  p.stop.isNone && !w.descheduled && s.mayGo w p && !(s.nextWord core p).any (portBlocked w p)

/-- The ready splits of a lane, as warp slot and split number. -/
def State.laneReady (s : State) (core lane : Nat) : List (Nat × Split) :=
  (List.range 4).flatMap (fun slot =>
    match s.warpAt (warpKey core lane slot) with
    | some w => (w.splits.filter (s.ready core w)).map (fun p => (slot, p))
    | none => [])

/-- The name of a split among those of its lane. -/
def splitName (slot id : Nat) : Nat := 4 * id + slot

/-- A yield (R48): the split waits until every split ready at its issue has issued once; one that has itself yielded does
not count as ready. -/
def State.applyYield (s : State) (k pid : Nat) : State :=
  match s.warpAt k with
  | none => s
  | some w =>
    match w.splitAt pid with
    | none => s
    | some p =>
      let others := ((s.laneReady (keyCore k) (keyLane k)).filter (fun e =>
          !(e.1 = keySlot k && e.2.id = pid) && e.2.yieldFor.isEmpty)).map (fun e => splitName e.1 e.2.id)
      s.putWarp k (w.putSplit { p with yieldFor := others })

/-- YIELD (R237). -/
def execYield (x : Ctl) (o : Slots) (s : State) : Host.Outcome State Fault Refusal :=
  splitWord x {} [] o (fun s k p _ _ => (s.applyYield k p.id).seqAct k p.id x.seq) s

/-- COALESCING_WINDOW_CLOSE: a warp's window for a line and direction closes (R195). -/
def execCoalescingWindowClose (core lane slot line : Nat) (store : Bool) (s : State) : Host.Outcome State Fault Refusal :=
  .next (match s.warpAt (warpKey core lane slot) with
    | none => s
    | some w =>
      if w.windows.contains (line, store) then
        s.putWarp (warpKey core lane slot) { w with windows := w.windows.filter (fun e => e ≠ (line, store)) }
      else s)

end Sys2Proof.Machine
end

