-- ==== Sys2Proof/Machine/Txns.lean ====
section
/-! DEFINITION. Txns.lean: TXB, TXC, TXA and TXS (R120-R124, R233-R236). -/

namespace Sys2Proof.Machine

/-- A fresh transaction of an age. -/
def Txn.opened (age : Word) : Txn :=
  { isOpen := true, code := 0, age := some age, rset := [], wset := [], rlines := [], wlines := [],
    started := false }

/-- TXB: a release at package scope (R110), then a transaction for each active thread that has none open (R122, R233). -/
def execTxb (x : Ctl) (o : Slots) (s : State) : Host.Outcome State Fault Refusal :=
  threadWord x {} [] o (fun s k p T _ us =>
    let s1 := s.release (keyCore k) (s.launchOfWarp k) .package
    match s1.warpAt k with
    | none => s1
    | some w =>
      let w1 := T.threads.foldl (fun acc t =>
        match Sparse.get none acc.txn t with
        | some y => if y.isOpen then acc else acc.putTxn t (Txn.opened (y.age.getD s1.time))
        | none => acc.putTxn t (Txn.opened s1.time)) w
      (s1.putWarp k w1).finish k p.id x.seq us) s

/-- Lines of a transaction's sets. -/
def Txn.lines (y : Txn) : List Nat := y.rlines ++ y.wlines

/-- Resolve the intra-warp conflicts of the threads of one TXC in ascending order (R122): those that abort with INTRA. -/
def intraAborts (w : Warp) : List Nat → List Txn → List Nat
  | [], _ => []
  | t :: ts, kept =>
    match w.openTxn t with
    | none => intraAborts w ts kept
    | some y =>
      if y.code ≠ 0 then intraAborts w ts kept
      else if y.wlines.any (fun l => kept.any (fun z => z.lines.contains l)) then t :: intraAborts w ts kept
      else intraAborts w ts (kept ++ [y])

/-- The keys of a transaction's read set. -/
def Txn.rkeys (y : Txn) : List Nat := y.rset.map (fun e => e.1 % 2 ^ 60)

/-- The read set still holds what the thread read (R121). -/
def State.validates (s : State) (y : Txn) : Bool := y.rset.all (fun e => s.homeByte (e.1 % 2 ^ 60) = e.2)

/-- A validation reaches the slices of the read set (R121): it is ordered after the reductions they have accepted (R116), held
while a tower of theirs is in reset (R14), and asks peers for their bytes (R346). -/
def State.atReadSet (s : State) (core : Nat) (y : Txn) : State :=
  (((y.rkeys.map (· / 64)).eraseDups.foldl State.applyReds s).gate y.rkeys).askPeers core y.rkeys false

/-- Which of two transactions of different warps goes first (R122, R234): the earlier age, and in a tie the lower core, the
lower `$wid`, the lower `$tid`. Warps of two blocks of one core may tie in all of them: neither goes first then, and the commit
that comes first fails the other (DESIGN CHOICE, log entry 106). -/
def State.goesFirst (s : State) (k t : Nat) (y : Txn) (k' t' : Nat) (y' : Txn) : Bool :=
  let place (k t : Nat) (y : Txn) : List Nat :=
    [(y.age.getD 0).toNat, keyCore k, (match s.warpAt k with | some w => w.wid | none => 0), t]
  decide (place k t y < place k' t' y')

/-- The transactions of other warps whose commit is on its way and touches a line in common with this one (R122). -/
def State.meets (s : State) (k : Nat) (y : Txn) : List (Nat × Nat × Txn) :=
  s.warps.flatMap (fun e =>
    match e.2 with
    | none => []
    | some w => w.txn.filterMap (fun z =>
      match z.2 with
      | none => none
      | some u =>
        if e.1 ≠ k && u.isOpen && u.code = 0 && u.started && u.lines.any y.lines.contains then some (e.1, z.1, u) else none))

/-- A commit on its way that goes first meets this one (R122). -/
def State.olderMeets (s : State) (k t : Nat) (y : Txn) : Bool :=
  (s.meets k y).any (fun e => s.goesFirst e.1 e.2.1 e.2.2 k t y)

/-- Validate and commit one thread's transaction (R121): the outcome's code. It loses to a commit it meets that goes
before it, and the commits it goes before lose to it (R122). A peer that has not answered is an error met by the validation,
which aborts with FAULT as one met by a load does (DEDUCED, log entry 118). -/
def State.commit (s0 : State) (k t : Nat) (y : Txn) : State × Nat :=
  let s := s0.atReadSet (keyCore k) y
  if y.code ≠ 0 then (s0, y.code)
  else if s.peerFailed y.rkeys then (s, 5)
  else if !s.validates y || s.olderMeets k t y then (s, 2)
  else
    let keys := y.wset.map Prod.fst
    let s1 := (s.meets k y).foldl (fun (st : State) e => st.abortTxn e.1 e.2.1 2) s
    let s2 := s1.syncWriteAt keys (y.wset.map Prod.snd)
    (s2.dropHoists (keyCore k) (fun h => keys.any h.covers), 0)

/-- The commits of a warp's open transactions set out for the slices, once the conflicts within the warp have been resolved:
those that lose there abort with INTRA and do not set out (R122). -/
def State.startCommits (s : State) (k : Nat) (T : Mask) : State :=
  match s.warpAt k with
  | none => s
  | some w =>
    let lost := intraAborts w T.threads []
    let w1 := w.abortTxns (Mask.ofPred (fun t => lost.contains t)) 1
    s.putWarp k { w1 with txn := w1.txn.map (fun e => (e.1, e.2.map (fun y =>
      if T.has e.1 && y.isOpen && y.code = 0 then { y with started := true } else y))) }

/-- A transaction that has ended with a code; it keeps its age for another attempt unless it committed (R123, R233). -/
def Txn.ended (code : Nat) (age : Option Word) : Txn :=
  { isOpen := false, code := code, age := age, rset := [], wset := [], rlines := [], wlines := [], started := false }

/-- One thread's TXC, after the conflicts within its warp: the state and the thread's outcome (R233, R234). -/
def State.txc1 (k : Nat) (acc : State × List (Nat × Nat)) (t : Nat) : State × List (Nat × Nat) :=
  match (acc.1.warpAt k).bind (fun w => w.openTxn t) with
  | none => (acc.1, acc.2 ++ [(t, 0)])
  | some y =>
    let r := acc.1.commit k t y
    match r.1.warpAt k with
    | none => (r.1, acc.2 ++ [(t, r.2)])
    | some w1 =>
      (r.1.putWarp k (w1.putTxn t (Txn.ended r.2 (if r.2 = 0 then none else y.age))), acc.2 ++ [(t, r.2)])

/-- TXC (R233, R234): the conflicts within the warp are resolved first (R122). -/
def execTxc (x : Ctl) (o : Slots) (s : State) : Host.Outcome State Fault Refusal :=
  threadWord x {} [] o (fun s k p T _ us =>
    let res := T.threads.foldl (State.txc1 k) (s.startCommits k T, [])
    match res.1.warpAt k with
    | none => res.1
    | some w =>
      let c : WCtx := { key := k, split := p, blk := w.blk, block := none, launch := none, time := 0,
                        stackLo := s.stackLo k, stackHi := s.stackHi k }
      let r := putDst c w w o.a T .general (fun t => BitVec.ofNat 64 (match res.2.find? (fun e => e.1 = t) with
        | some e => e.2
        | none => 0))
      (res.1.putWarp k r.1).finish k p.id x.seq (us ++ r.2)) s

/-- TXA: abort the open transactions of the active threads with EXPLICIT (R233). -/
def execTxa (x : Ctl) (o : Slots) (s : State) : Host.Outcome State Fault Refusal :=
  threadWord x {} [] o (fun s k p T _ us =>
    match s.warpAt k with
    | none => s
    | some w =>
      let w1 := T.threads.foldl (fun acc t =>
        match acc.openTxn t with
        | none => acc
        | some _ => acc.putTxn t (Txn.ended 7 none)) w
      (s.putWarp k w1).finish k p.id x.seq us) s

/-- TXS's report (Table 14.11). -/
def txsReport (y : Option Txn) : Word :=
  match y with
  | none => 0
  | some z =>
    BitVec.ofNat 64 (z.code % 256 + bit z.isOpen * 2 ^ 8 + z.rlines.length % 8 * 2 ^ 10 + z.wlines.length % 8 * 2 ^ 13)

/-- TXS (R233). -/
def execTxs (x : Ctl) (o : Slots) (s : State) : Host.Outcome State Fault Refusal :=
  regWord x {} [] o (fun c w T _ => runCalc o.a .general (fun t => (txsReport (Sparse.get none w.txn t), 0)) c w T) s

end Sys2Proof.Machine
end

