-- ==== Sys2Proof/Machine/CtlRegs.lean ====
section
/-! DEFINITION. CtlRegs.lean: reading and writing the system control registers (R97, R102, R114, R154, R155, R288, R319)
and event counting (R359). -/

namespace Sys2Proof.Machine

/-- An entry of the replacement classes as a register value (Table 8.3). -/
def RClass.word (r : RClass) (i : Nat) : Word :=
  BitVec.ofNat 64 (r.age.toNat + r.wpol.toNat * 2 ^ 6 + r.ways.toNat * 2 ^ 8 + i % 8 * 2 ^ 61)

/-- What SRD or a host read of a control register returns (R155, R319). -/
def Regs.read (r : Regs) (c : CtlReg) : Word :=
  match c with
  | .tvec => r.tvec | .ptroot => r.ptroot | .stkbase => r.stkbase | .stksize => r.stksize
  | .restorewait => r.restorewait | .ilbase => r.ilbase | .ilsize => r.ilsize
  | .rclass => RClass.word (r.rclass.getD (r.rcsel.toNat % 8) RClass.reset) (r.rcsel.toNat % 8)
  | .rcsel => r.rcsel | .repways => r.repways | .fepoch => r.fepoch | .fmin => r.fmin | .fpool => r.fpool
  | .ringrate => r.ringrate | .dwell => r.dwell

/-- Whether a value may be stored (R319); `others` says that a block other than the issuer's is resident. -/
def ctlOk (c : CtlReg) (v : Word) (others : Bool) : Bool :=
  match c with
  | .tvec => v.toNat % 16 = 0
  | .ptroot => true
  | .stkbase => v.toNat % 65536 = 0 && !others
  | .stksize => v.toNat % 65536 = 0 && !others
  | .restorewait => true
  | .ilbase | .ilsize => v.toNat % 2 ^ 21 = 0
  | .rclass => v.extractLsb' 24 37 = 0 && v.extractLsb' 3 3 = 0 && (v.extractLsb' 6 2).toNat < 2
  | .rcsel => v.toNat < 8
  | .repways => v.toNat < 2 ^ 16
  | .fepoch => true
  | .fmin => v.toNat < 2 ^ 32
  | .fpool => v.toNat < 2 ^ 41 && v.toNat % 4096 = 0
  | .ringrate => v.toNat < 2 ^ 17
  | .dwell => v.toNat < 2 ^ 16

/-- A step length below 81 stores 81 (R288). -/
def ringrateOf (v : Word) : Word := if v.toNat % 65536 < 81 then BitVec.ofNat 64 (v.toNat / 65536 * 65536 + 81) else v

/-- Store an accepted value. -/
def Regs.write (r : Regs) (c : CtlReg) (v : Word) : Regs :=
  match c with
  | .tvec => { r with tvec := v }
  | .ptroot => { r with ptroot := v }
  | .stkbase => { r with stkbase := v }
  | .stksize => { r with stksize := v }
  | .restorewait => { r with restorewait := v }
  | .ilbase => { r with ilbase := v }
  | .ilsize => { r with ilsize := v }
  | .rclass =>
    let e : RClass := { ways := v.extractLsb' 8 16, wpol := v.extractLsb' 6 2, age := v.extractLsb' 0 3 }
    { r with rclass := r.rclass.set (v.extractLsb' 61 3).toNat e }
  | .rcsel => { r with rcsel := v }
  | .repways => { r with repways := v }
  | .fepoch => { r with fepoch := v }
  | .fmin => { r with fmin := v }
  | .fpool => { r with fpool := v }
  | .ringrate => { r with ringrate := ringrateOf v }
  | .dwell => { r with dwell := v }

/-- Drop every cached translation (R307). -/
def State.dropTranslations (s : State) : State :=
  { s with cores := s.cores.map (fun e => (e.1, { e.2 with tlb := [] })),
           domes := s.domes.map (fun e => (e.1, { e.2 with walks := [] })) }

/-- Drain and empty the replicas of every dome, as a change of the replica ways does (R114). -/
def State.emptyReplicas (s : State) : State :=
  let s1 := (s.domes.map Prod.fst).foldl (fun st d => st.drain d (fun _ => true)) s
  { s1 with domes := s1.domes.map (fun e => (e.1, { e.2 with clean := [] })) }

/-- Store into a control register, complete in every unit (R319). A change of `ctl.ptroot` invalidates every cached
translation first (R307), and an epoch of migration begins when its length is written (log entry 46). -/
def State.ctlStore (s : State) (c : CtlReg) (v : Word) : State :=
  let s1 := if c = .ptroot then s.dropTranslations else if c = .repways then s.emptyReplicas
    else if c = .fepoch then { s with epoch := s.time } else s
  { s1 with ctl := s1.ctl.write c v }

/-- Whether any block but one is resident. -/
def State.othersResident (s : State) (blk : Nat) : Bool :=
  s.blocks.any (fun e => e.1 ≠ blk && e.2.isSome)

/-- Events that no step of the model shows: how often they happen depends on timing or on the array, and a turn of its own
counts them (log entry 87). -/
def unseenEvent (u : CUnit) (event : Nat) : Bool :=
  match u with
  | .core => event = 0x002
  | .slice => event = 0x103
  | .dome => event = 0x201

/-- The value a counter reads (R323, R359). -/
def State.counterValue (s : State) (key : Nat) : BitVec 48 :=
  (Sparse.get { sel := 0, val := 0 } s.counters key : Counter).val

end Sys2Proof.Machine
end

