-- ==== Sys2Proof/Machine/System.lean ====
section
/-! DEFINITION. System.lean: the instructions of class 111 except LAUNCH (R300, R316-R320, R323-R325). -/

namespace Sys2Proof.Machine

/-! ## TRAP, SYSC, BRK -/

/-- A word that raises a trap for its active threads, and with none acts on its sequencing field alone (R317). -/
def trapWord (cause : Nat) (x : Ctl) (code : BitVec 16) (o : Slots) (s : State) : Host.Outcome State Fault Refusal :=
  splitWord x {} [] o (fun s k p T _ => s.takeTrap k p.id { cause := cause, mask := T, addr := 0, code := code }) s

/-- TRAP. -/
def execTrap (x : Ctl) (code : BitVec 16) (o : Slots) (s : State) : Host.Outcome State Fault Refusal :=
  trapWord tTRAP x code o s
/-- SYSC. -/
def execSysc (x : Ctl) (code : BitVec 16) (o : Slots) (s : State) : Host.Outcome State Fault Refusal :=
  trapWord tSYSC x code o s
/-- BRK. -/
def execBrk (x : Ctl) (code : BitVec 16) (o : Slots) (s : State) : Host.Outcome State Fault Refusal :=
  trapWord tBREAK x code o s

/-! ## RFT: the return from a trap (R318) -/

/-- The sequencing field of a word as its bits give it; a form that is none continues at the next word. -/
def seqOfBits (w : Word128) : Seq :=
  let f := Fields.ofWord w
  match Seq.ofCode f.seq.toNat ((Spec.ofCode f.e.toNat).getD .none) with
  | .ok q => q
  | .error _ => .seq

/-- The block that holds the word at an address: the nearest header before it whose length reaches the word; `fuel` bounds
the distance. -/
def State.blockHolding (s : State) (core : Nat) (va : Word) : Nat → Nat → State × Option (Word × Word128 × Nat)
  | 0, _ => (s, none)
  | fuel + 1, i =>
    match s.codeKey core (va - BitVec.ofNat 64 (16 * i)) with
    | (s1, .error _) => (s1, none)
    | (s1, .ok k) =>
      let s2 := s1.askPeers core [k, k + 8] false
      let hw := s2.homeSlot k
      let h := Header.ofSlot hw
      if h.valid true && decide (i ≤ h.length.toNat) then (s2, some (va - BitVec.ofNat 64 (16 * i), hw, i))
      else s2.blockHolding core va fuel (i + 1)

/-- Put the split's PC at an address of the trap frame (R318): a word of the block it was in when it trapped, else a header
at that address, else a word of the block around it, which its nearest header before it names (log entry 85). An error is that
of the fetch of the address. -/
def State.placeAt (s : State) (core : Nat) (w : Warp) (p : Split) (va : Word) : State × Except MemErr Split :=
  let h := Header.ofSlot w.trapBlk.2
  let d := (va - w.trapBlk.1).toNat
  if d % 16 = 0 && 1 ≤ d / 16 && d / 16 ≤ h.length.toNat then
    (s, .ok { p with hdr := w.trapBlk.1, hw := w.trapBlk.2, idx := d / 16 })
  else if va.toNat % 16 ≠ 0 then (s, .ok { p with hdr := va, hw := 0, idx := 0 })
  else
    match s.codeKey core va with
    | (s1, .error e) => (s1, .error e)
    | (s1, .ok _) =>
      match s1.blockHolding core va 64 0 with
      | (s2, some (hdr, hw, i)) => (s2, .ok { p with hdr := hdr, hw := hw, idx := i })
      | (s2, none) => (s2, .ok { p with hdr := va, hw := 0, idx := 0 })

/-- A fault of RFT's reads, of its fetch, or a trap within it (R299, R300): `at_` stands where the record says. -/
def State.rftErr (s : State) (k : Nat) (w : Warp) (at_ : Split) (i : Instr) (facc : Nat) (e : MemErr) : State :=
  let p := (w.splitAt at_.id).getD at_
  match errPage e with
  | some (c, va, wk) =>
    let (u, s1) := s.post (s.warpRec k w at_ c (facc + if wk then 8 else 0) va p.mask 0) (.split k p.id)
      ((s.blockAt w.blk).map (·.launch))
    s1.putWarp k (w.putSplit { p with stop := some (.replay u { i := i, T := p.mask, ops := {} }) })
  | none => s.nested k w p

/-- RFT `.next` has acted on the sequencing field of the word at `tpc`, still in handler mode, where a trap of the act is NESTED
(R300): the warp leaves handler mode, unless that happened. A fetch of the act that faulted is repeated with the whole RFT. -/
def State.rftLeave (s : State) (k : Nat) (w : Warp) (p : Split) (i : Instr) : State :=
  match s.warpAt k with
  | none => s
  | some w1 =>
    match (w1.splitAt p.id).bind (fun q => q.stop) with
    | some (.refetch u _) => s.putWarp k (w.putSplit { p with stop := some (.replay u { i := i, T := p.mask, ops := {} }) })
    | some .nested => s
    | _ => s.putWarp k { w1 with handler := none, held := [] }

/-- RFT in handler mode (R318). -/
def State.rft (s : State) (k pid : Nat) (i : Instr) (op : RftOp) (a : Word) : State :=
  match s.warpAt k with
  | none => s
  | some w =>
    match w.splitAt pid with
    | none => s
    | some p =>
      match s.loadG k .normal w.sp 64 with
      | (s1, .error e) => s1.rftErr k w p i 0 e
      | (s1, .ok bs) =>
        let tpc := BitVec.ofNat 64 (leNat (bs.take 8))
        let tsp := BitVec.ofNat 64 (leNat ((bs.drop 32).take 8))
        let mask : Mask := BitVec.ofNat 32 (leNat ((bs.drop 20).take 4))
        let w1 := { w with sp := tsp, handler := none, held := [] }
        -- the word at `tpc`, whose fetch the record of a fault names
        let at_ : Split := { p with hdr := tpc, idx := 0 }
        match op with
        | .retry =>
          match s1.placeAt (keyCore k) w { p with mask := mask } tpc with
          | (s2, .error e) => s2.rftErr k w at_ i 2 e
          | (s2, .ok back) => s2.putWarp k (w1.putSplit { back with stop := none })
        | .next =>
          match s1.placeAt (keyCore k) w { p with mask := mask } tpc with
          | (s2, .error e) => s2.rftErr k w at_ i 2 e
          | (s2, .ok back) =>
            match s2.fetchSlot (keyCore k) back.hdr back.idx with
            | (s3, .error e) => s3.rftErr k w at_ i 2 e
            | (s3, .ok slot) =>
              ((s3.putWarp k ({ w with sp := tsp }.putSplit { back with stop := none })).seqAct k pid (seqOfBits slot)).rftLeave k w p i
        | .to =>
          match s1.fetchEntry k w a with
          | (s2, .ok hw) => s2.settleWarp k (w1.goTo { p with mask := mask } a hw)
          | (s2, .err e) => s2.rftErr k w p i 2 e
          | (s2, .invalid) => s2.nested k w p

/-- RFT: it ignores guards, and outside handler mode raises PRIVILEGE for the whole split (R300, R318). -/
def execRft (x : Ctl) (op : RftOp) (o : Slots) (s : State) : Host.Outcome State Fault Refusal :=
  match s.context with
  | none => .fault .noIssuer
  | some (c, w, p) =>
    if w.handler.isNone then .next (s.takeTrap c.key p.id { cause := tPRIVILEGE, mask := p.mask, addr := 0 })
    else if uceMask w [o.a] p.mask ≠ 0 then .next (s.takeTrap c.key p.id { cause := tUCE, mask := p.mask, addr := 0 })
    else .next (s.rft c.key p.id (.rft x op o) op (readSrc c w .bits 0 0 o.a 0))

/-! ## SRD and SWR (R319) -/

/-- SRD. -/
def execSrd (x : Ctl) (sel : CtlReg) (o : Slots) (s : State) : Host.Outcome State Fault Refusal :=
  let v := s.ctl.read sel
  regWord x {} [] o (fun c w T _ =>
    if w.handler.isNone then (w, [{ cause := tPRIVILEGE, mask := T, addr := 0 }])
    else runCalc o.a .general (fun _ => (v, 0)) c w T) s

/-- SWR: a refused write changes nothing, and A receives 0 or 1. Outside handler mode PRIVILEGE comes before an error of
its source, whose cause code is higher (R300, R382). -/
def execSwr (x : Ctl) (sel : CtlReg) (o : Slots) (s : State) : Host.Outcome State Fault Refusal :=
  let srcs := match s.context with
    | some (_, w, _) => if w.handler.isNone then [] else [o.b]
    | none => []
  splitWord x {} srcs o (fun s k p T v =>
    match s.warpAt k with
    | none => s
    | some w =>
      if w.handler.isNone then s.takeTrap k p.id { cause := tPRIVILEGE, mask := T, addr := 0 }
      else
        let val := v.gb (T.lowest.getD 0)
        let ok := ctlOk sel val (s.othersResident w.blk)
        let s1 := if ok then s.ctlStore sel val else s
        match s1.warpAt k with
        | none => s1
        | some w1 =>
          (s1.putWarp k (writeDst w1 o.a T .general (fun _ => if ok then 0 else 1))).seqAct k p.id x.seq) s

/-! ## RSTL (R320) -/

/-- Set or clear `$restart`. -/
def State.rstl (s : State) (k pid : Nat) (i : Instr) (q : Seq) (a : Word) : State :=
  match s.warpAt k with
  | none => s
  | some w =>
    match w.splitAt pid with
    | none => s
    | some p =>
      let bad (st : State) : State := st.takeTrap k pid { cause := tSEQUENCE, mask := p.mask, addr := a }
      if a = 0 then (s.putWarp k { w with restart := 0 }).seqAct k pid q
      else
        match s.fetchEntry k w a with
        | (s1, .ok hw) =>
          if (Header.ofSlot hw).rstok then (s1.putWarp k { w with restart := a }).seqAct k pid q else bad s1
        | (s1, .invalid) => bad s1
        | (s1, .err e) =>
          match errPage e with
          | some (c, va, wk) =>
            let (u, s2) := s1.post (s1.warpRec k w p c (2 + if wk then 8 else 0) va p.mask 0) (.split k pid)
              ((s1.blockAt w.blk).map (·.launch))
            s2.putWarp k (w.putSplit { p with stop := some (.replay u
              { i := i, T := p.mask, ops := { a := List.replicate 32 a } }) })
          | none => s1.takeTrap k pid { cause := tUCE, mask := p.mask, addr := a }

/-- RSTL acts once per warp and ignores its active threads. -/
def execRstl (x : Ctl) (o : Slots) (s : State) : Host.Outcome State Fault Refusal :=
  match s.context with
  | none => .fault .noIssuer
  | some (c, w, p) =>
    if uceMask w [o.a] p.mask ≠ 0 then .next (s.takeTrap c.key p.id { cause := tUCE, mask := p.mask, addr := 0 })
    else .next (s.rstl c.key p.id (.rstl x o) x.seq (readSrc c w .bits 0 0 o.a 0))

/-! ## PERF, HALT, NOP -/

/-- PERF: the counter of the issuing core, or of the slice at its stop (R323). -/
def execPerf (x : Ctl) (slice : Bool) (o : Slots) (s : State) : Host.Outcome State Fault Refusal :=
  regWord x {} [o.b] o (fun c w T v =>
    let i := (v.gb (T.lowest.getD 0)).toNat % 8
    let key := counterKey (if slice then .slice else .core) (keyCore c.key) i
    runCalc o.a .general (fun _ => ((s.counterValue key).setWidth 64, 0)) c w T) s

/-- HALT: every warp of the block stops, and a HALT record is posted (R324); its `faddr` and `ftmask` are FREE VALUES
(log entry 65). -/
def execHalt (x : Ctl) (code : BitVec 16) (o : Slots) (s : State) : Host.Outcome State Fault Refusal :=
  splitWord x {} [] o (fun s k p T v =>
    match s.warpAt k with
    | none => s
    | some w =>
      match s.blockAt w.blk with
      | none => s
      | some b =>
        let (u, s1) := s.post (s.warpRec k w p 0x25 0 (Config.freeWord s.freeCtr)
          ((Config.freeWord (s.freeCtr + 1)).setWidth 32) code.toNat) (.split k p.id) (some b.launch)
        (s1.putBlock w.blk { b with halted := true }).putWarp k (w.putSplit { p with stop := some (.replay u
          { i := .halt x code o, T := T, ops := v }) })) s

/-- NOP: only its sequencing field acts (R325). -/
def execNop (x : Ctl) (o : Slots) (s : State) : Host.Outcome State Fault Refusal :=
  regWord x {} [] o (fun _ w _ _ => (w, [])) s

end Sys2Proof.Machine
end

