-- ==== Sys2Proof/Machine/Launches.lean ====
section
/-! DEFINITION. Launches.lean: submission, acceptance, placement, admission, the packer, SPAWN, termination and the end of
a launch (R23, R29-R43, R50-R55, R321, R322, R344). -/

namespace Sys2Proof.Machine

/-! ## Accesses of the device (R29-R33) -/

/-- The device translates through the one page table; its accesses go through the translation of a core in service. -/
def State.devCore (s : State) : Nat := ((List.range 144).find? s.coreOn).getD 0

/-- Home bytes at a virtual address, for the device; `none` where they do not translate. A record, an entry header, a guard word
or a stage table that holds an uncorrectable error counts as one that does not translate (ADDRESS, ENTRY, FAULTED): no rule
says what the device does with it (DESIGN CHOICE, log entry 108). -/
def State.devRead (s : State) (acc : Acc) (va : Word) (n : Nat) : State × Option (List Byte) :=
  match s.translateRun s.devCore acc va n with
  | (s1, .error _) => (s1, none)
  | (s0, .ok keys) =>
    let s1 := s0.askPeers s0.devCore keys false
    if keys.any s1.homeBad || s1.peerFailed keys then (s1, none) else (s1, some (keys.map s1.homeByte))

/-- A synchronising write of the device; `false` where it does not translate (R31). -/
def State.devWrite (s : State) (va : Word) (bs : List Byte) : State × Bool :=
  match s.translateRun s.devCore .write va bs.length with
  | (s1, .error _) => (s1, false)
  | (s1, .ok keys) => (s1.syncWriteAt keys bs, true)

/-- Bytes at an offset of a record as a number. -/
def fld (bs : List Byte) (off n : Nat) : Nat := leNat ((bs.drop off).take n)

/-! ## Launch status codes (Table 4.3) -/

def lACCEPTED : Nat := 0x01
def lDONE : Nat := 0x02
def lSKIPPED : Nat := 0x03
def lFAULTED : Nat := 0x04
def lSTAGEDEAD : Nat := 0x05
def lCANCELLED : Nat := 0x06

/-- Write a launch status word: the code, and the detail byte of a STAGED refusal (R31). -/
def State.writeStatus (s : State) (lstat : Word) (code detail : Nat) : State :=
  if lstat.toNat % 8 ≠ 0 then s else (s.devWrite lstat (leBytes 8 (code + 256 * detail))).1

/-! ## The partition word (R22, R23) -/

def partRegg (p : BitVec 32) : Nat := (p.extractLsb' 0 8).toNat
def partSpg (p : BitVec 32) : Nat := (p.extractLsb' 8 8).toNat
def partAccg (p : BitVec 32) : Nat := (p.extractLsb' 16 8).toNat
def partXbank (p : BitVec 32) : Bool := p.getLsbD 24
def partMx (p : BitVec 32) : Bool := p.getLsbD 25
/-- Scratchpad granules of both banks. -/
def partSp2 (p : BitVec 32) : Nat := partSpg p * (1 + bit (partXbank p))
/-- The granules a block needs (R23). -/
def partG (p : BitVec 32) : Nat := partRegg p + partSp2 p + partAccg p

/-- The partition conditions of R23 other than the reserved bits and the warp count. -/
def partitionOk (p : BitVec 32) (bpc : Nat) : Bool :=
  1 ≤ partRegg p && partRegg p ≤ 64 && partSp2 p ≤ 128 && partG p ≤ 192 &&
  bpc * partG p ≤ 192 && bpc * partRegg p ≤ 64 && bpc * partSp2 p ≤ 128

/-- What a core's resident blocks hold: granules, register granules, scratchpad granules, warp slots. -/
def State.coreUse (s : State) (c : Nat) : Nat × Nat × Nat × Nat :=
  (s.coreBlocks c).foldl (fun a b =>
    match s.launchAt b.2.launch with
    | some l => (a.1 + partG l.part, a.2.1 + partRegg l.part, a.2.2.1 + partSp2 l.part, a.2.2.2 + l.warps)
    | none => a) (0, 0, 0, 0)

/-- The core's free resources cover `n` blocks of a partition and warp count, and its matrix engine is free or the
launch's own where the partition uses it (R23, R240). -/
def State.roomFor (s : State) (c : Nat) (part : BitVec 32) (warps n lid : Nat) : Bool :=
  let u := s.coreUse c
  u.1 + n * partG part ≤ 192 && u.2.1 + n * partRegg part ≤ 64 && u.2.2.1 + n * partSp2 part ≤ 128 &&
  u.2.2.2 + n * warps ≤ 256 && !s.power.inReset.contains (domeOf c) &&
  (!partMx part || (match (s.coreAt c).matrix.owner with | none => true | some o => o = lid))

/-! ## Placement (R35) -/

/-- The cores of a rectangle. -/
def rectCores (ox oy tw th : Nat) : List Nat :=
  (List.range th).flatMap (fun y => (List.range tw).map (fun x => 12 * (oy + y) + (ox + x)))

/-- The rectangle of a shape on in-service cores with the most free granules; ties go to the lowest row, then column. -/
def State.place (s : State) (tw th : Nat) : Option (Nat × Nat) :=
  let cand := (List.range (13 - th)).flatMap (fun y => (List.range (13 - tw)).map (fun x => (x, y)))
  let ok := cand.filter (fun o => (rectCores o.1 o.2 tw th).all s.coreOn)
  let free (o : Nat × Nat) : Nat := (rectCores o.1 o.2 tw th).foldl (fun a c => a + (192 - (s.coreUse c).1)) 0
  match ok with
  | [] => none
  | o :: rest => some (rest.foldl (fun best x => if free best < free x then x else best) o)

/-! ## Acceptance (R30-R32) -/

/-- A launch record as read (Table 4.1), with no progress. -/
def Launch.ofRecord (addr : Word) (r : List Byte) : Launch :=
  { addr := addr, lctl := BitVec.ofNat 32 (fld r 0 4), part := BitVec.ofNat 32 (fld r 4 4), warps := fld r 8 2,
    bpc := fld r 10 1, tw := fld r 12 1, th := fld r 13 1, ox := fld r 14 1, oy := fld r 15 1,
    entry := BitVec.ofNat 64 (fld r 0x10 8), ehw := 0, params := BitVec.ofNat 64 (fld r 0x18 8),
    abase := BitVec.ofNat 64 (fld r 0x20 8), astride := BitVec.ofNat 64 (fld r 0x28 8), afield := fld r 0x30 4,
    nblocks := fld r 0x34 4, start := BitVec.ofNat 64 (fld r 0x38 8), guard := BitVec.ofNat 64 (fld r 0x40 8),
    lstat := BitVec.ofNat 64 (fld r 0x48 8), wword := BitVec.ofNat 64 (fld r 0x50 8),
    stab := BitVec.ofNat 64 (fld r 0x58 8), st := .accepted, bound := none, origin := (0, 0), toAdmit := [],
    stages := [], term := { cur := 0, streak := 0, dirty := [] }, tbars := [] }

def Launch.reloc (l : Launch) : Bool := l.lctl.getLsbD 6
def Launch.afen (l : Launch) : Bool := l.lctl.getLsbD 5
def Launch.prio (l : Launch) : Nat := (l.lctl.extractLsb' 2 3).toNat

/-- The SHAPE conditions of Table 4.3. -/
def shapeOk (l : Launch) (nstage : Nat) : Bool :=
  let ff := 0xFF
  (if l.kind = 1 then
    l.tw = 0 && l.th = 0 && (l.ox = ff || l.ox ≤ 11) && (l.oy = ff || l.oy ≤ 11) && ((l.ox = ff) == (l.oy = ff))
  else
    1 ≤ l.tw && l.tw ≤ 12 && 1 ≤ l.th && l.th ≤ 12 && ((l.ox = ff) == (l.oy = ff)) &&
    (l.ox = ff || (l.ox ≤ 11 && l.oy ≤ 11 && l.ox + l.tw ≤ 12 && l.oy + l.th ≤ 12))) &&
  1 ≤ l.bpc && l.bpc ≤ 64 &&
  (if l.kind = 2 then 1 ≤ nstage && nstage ≤ 16 else nstage = 0) &&
  (if l.kind = 1 then 1 ≤ l.nblocks && l.nblocks ≤ 2 ^ 24 else l.nblocks = 0) &&
  (l.kind = 1 || (l.abase = 0 && l.astride = 0 && l.afield = 0)) &&
  (l.kind = 2 || (l.wword = 0 && l.stab = 0)) && (l.kind ≠ 2 || l.entry = 0)

/-- A stage descriptor as read (Table 4.4). -/
def Stage.ofBytes (r : List Byte) : Stage :=
  { sentry := BitVec.ofNat 64 (fld r 0 8), ehw := 0, qbase := BitVec.ofNat 64 (fld r 8 8),
    init := BitVec.ofNat 64 (fld r 0x10 8), ninit := fld r 0x18 4, qlog := fld r 0x1C 1, isize := fld r 0x1D 1,
    ptime := fld r 0x1E 2, head := 0, items := [], formed := [] }

/-- The limits of Table 4.4. -/
def stageOk (i : Nat) (g : Stage) : Bool :=
  g.qbase.toNat % 64 = 0 && 6 ≤ g.qlog && g.qlog ≤ 16 && 8 ≤ g.isize && g.isize ≤ 64 && g.isize % 8 = 0 &&
  (if i = 0 then 1 ≤ g.ninit && g.ninit ≤ 2 ^ g.qlog else g.init = 0 && g.ninit = 0)

/-- An entry header read by the device at acceptance (R32). -/
def State.entryHeader (s : State) (va : Word) (stage : Bool) : State × Option Word128 :=
  if va.toNat % 16 ≠ 0 then (s, none)
  else
    match s.devRead .fetch va 16 with
    | (s1, none) => (s1, none)
    | (s1, some bs) =>
      let hw := BitVec.ofNat 128 (leNat bs)
      let h := Header.ofSlot hw
      (s1, if h.valid false && h.stage = stage then some hw else none)

/-- Entry headers of stages in order: the first that fails, or the stages with their headers. -/
def State.stageHeaders (s : State) : Nat → List Stage → State × Except Nat (List Stage)
  | _, [] => (s, .ok [])
  | i, g :: rest =>
    match s.entryHeader g.sentry true with
    | (s1, none) => (s1, .error i)
    | (s1, some hw) =>
      match s1.stageHeaders (i + 1) rest with
      | (s2, .error j) => (s2, .error j)
      | (s2, .ok gs) => (s2, .ok ({ g with ehw := hw } :: gs))

/-- Check a record in the order of Table 4.3: a refusal code with its detail byte and the status word's address, or the
launch. A record that is itself misaligned or does not translate gives no `lstat`: its ADDRESS goes to the queue's completion
or LAUNCH's result alone (DESIGN CHOICE, log entry 88). -/
def State.checkRecord (s : State) (addr : Word) : State × Except (Nat × Nat × Option Word) Launch :=
  if addr.toNat % 64 ≠ 0 then (s, .error (0x10, 0, none))
  else
    match s.devRead .read addr 128 with
    | (s1, none) => (s1, .error (0x10, 0, none))
    | (s1, some r) =>
      let l := Launch.ofRecord addr r
      let nstage := fld r 11 1
      let lst : State × Bool := if l.lstat.toNat % 8 ≠ 0 then (s1, false)
        else (match s1.translateRun s1.devCore .write l.lstat 8 with | (x, .ok _) => (x, true) | (x, .error _) => (x, false))
      if !lst.2 then (lst.1, .error (0x10, 0, none))
      else
        let s2 := lst.1
        let no (st : State) (c d : Nat) : State × Except (Nat × Nat × Option Word) Launch := (st, .error (c, d, some l.lstat))
        let tab : State × Option (List Byte) := if l.kind ≠ 2 || nstage = 0 then (s2, some [])
          else if l.stab.toNat % 8 ≠ 0 then (s2, none) else s2.devRead .read l.stab (32 * Nat.min nstage 16)
        match tab with
        | (s3, none) => no s3 0x10 0
        | (s3, some tb) =>
          let gs := if l.kind = 2 then (List.range nstage).map (fun i => Stage.ofBytes ((tb.drop (32 * i)).take 32)) else []
          let bad := (List.range gs.length).find? (fun i => match gs[i]? with | some g => !stageOk i g | none => false)
          if l.lctl.extractLsb' 7 25 ≠ 0 || l.kind = 3 || (r.drop 0x60).any (· ≠ 0) || l.part.extractLsb' 26 6 ≠ 0 then
            no s3 0x11 0
          else if !partitionOk l.part l.bpc then no s3 0x12 0
          else if l.warps = 0 || 256 < l.warps || 4 * partRegg l.part < l.warps then no s3 0x13 0
          else if !shapeOk l nstage then no s3 0x14 0
          else
            let placed : Option (Nat × Nat) := if l.kind = 1 then some (0, 0)
              else (s3.place l.tw l.th).map (fun og => if l.ox = 0xFF then og else (l.ox, l.oy))
            match placed with
            | none => no s3 0x15 0
            | some og =>
              if l.reloc && (l.ox = 0xFF || l.oy = 0xFF) then no s3 0x16 0
              else
                let ent : State × Except Nat (Word128 × List Stage) :=
                  if l.kind = 2 then
                    match s3.stageHeaders 0 gs with
                    | (s4, .error i) => (s4, .error i)
                    | (s4, .ok hs) => (s4, .ok (0, hs))
                  else
                    match s3.entryHeader l.entry false with
                    | (s4, none) => (s4, .error 0)
                    | (s4, some hw) => (s4, .ok (hw, []))
                match ent with
                | (s4, .error i) => no s4 0x17 i
                | (s4, .ok (hw, hs)) =>
                  match bad with
                  | some i => no s4 0x18 i
                  | none =>
                    if l.kind ≠ 1 && !(rectCores og.1 og.2 l.tw l.th).all s4.coreOn then no s4 0x19 0
                    else (s4, .ok { l with ehw := hw, stages := hs, origin := og })

/-- The splits of warps that have moved since they issued LAUNCH, saved ones among them, take what `put` gives them. -/
def State.answerMoved (s : State) (put : Split → Split) : State :=
  let go (w : Warp) : Warp := { w with splits := w.splits.map put }
  { s with
    warps := s.warps.map (fun e => (e.1, e.2.map go))
    saved := s.saved.map (fun v => { v with warps := v.warps.map (fun e => (e.1, go e.2)) }) }

/-- Deliver a submission's code: to the queue entry, or to LAUNCH's destination (R31, R322, R344). -/
def State.deliver (s : State) (b : Sub) (code : Nat) : State :=
  match b.src with
  | .queue a =>
    match s.key (a + 8) with
    | some k => s.syncWrite k (leBytes 8 code)
    | none => s
  | .word wk sp =>
    let put (x : Split) : Split :=
      match x.stop with
      | some (.launch i pend) => if i = b.id then { x with stop := some (.launch i { pend with vals := [(0, BitVec.ofNat 64 code)] }) } else x
      | _ => x
    match s.warpAt wk with
    | some w =>
      match (w.splitAt sp).bind (fun p => p.stop) with
      | some (.launch i pend) =>
        if i = b.id then
          (match pend.i with
           | .launch x o => (s.putWarp wk (writeDst w o.a pend.T .general (fun _ => BitVec.ofNat 64 code))).seqAct wk sp x.seq
           | _ => s)
        else s.answerMoved put
      | _ => s.answerMoved put
    | none => s.answerMoved put

/-- Take the next entry of the host queues, round-robin after the last one served (R344). -/
def State.takeEntry (s : State) : State :=
  let order := (List.range 8).map (fun i => (s.lastq + 1 + i) % 8)
  match order.find? (fun q => let h := s.hostq.getD q HostQ.reset; h.qhead ≠ h.qtail) with
  | none => s
  | some q =>
    let h := s.hostq.getD q HostQ.reset
    let e := h.qhead.toNat
    let a := h.qbase.toNat + 16 * (e % ringLen h.qlog)
    let rec_ : Word := match s.key a with | some k => s.homeWord k | none => 0
    let (u, s1) := s.fresh
    { s1 with hostq := s1.hostq.set q { h with qhead := h.qhead + 1 }, lastq := q,
              subs := s1.subs ++ [{ id := u, addr := rec_, src := .queue a }] }

/-- Launches accepted and unfinished. -/
def State.launchCount (s : State) : Nat := (s.launches.filter (fun e => e.2.isSome)).length

/-- LAUNCH_QUEUE_DOORBELL: a write of `qtail` submits the new entries; one that runs too far ahead is ignored (R344). -/
def execLaunchQueueDoorbell (q : Fin 8) (tail : Word) (s : State) : Host.Outcome State Fault Refusal :=
  let h := s.hostq.getD q.val HostQ.reset
  .next (if s.ident.state ≠ 1 || ringLen h.qlog < (tail - h.qhead).toNat then s
    else { s with hostq := s.hostq.set q.val { h with qtail := tail } })

/-- LAUNCH_ACCEPTANCE: the next submission is checked and accepted or refused (R30). No launch is accepted by a module
that is not ready (R350), nor beyond 256 unfinished ones. -/
def execLaunchAcceptance (s0 : State) : Host.Outcome State Fault Refusal :=
  .next (if s0.ident.state ≠ 1 || 256 ≤ s0.launchCount then s0
    else
      let s := s0.takeEntry
      match s.subs with
      | [] => s
      | b :: rest =>
        let s1 := { s with subs := rest }
        match s1.checkRecord b.addr with
        | (s2, .error (c, d, lst)) =>
          (match lst with | some a => s2.writeStatus a c d | none => s2).deliver b c
        | (s2, .ok l) =>
          let (u, s3) := s2.fresh
          ((s3.putLaunch u l).writeStatus l.lstat lACCEPTED 0).deliver b lACCEPTED)

/-! ## The end of a launch -/

/-- Publish the plain stores of a launch on every core, at package scope (R43, R315); the replicas drain (R114). -/
def State.publishAll (s : State) (lid : Nat) : State :=
  let s1 := (s.cores.map Prod.fst).foldl (fun st c =>
    st.publish c (fun k => decide (Sparse.get 0 (s.coreAt c).owner k = lid + 1))) s
  (s1.domes.map Prod.fst).foldl (fun st d => st.drain d (fun _ => true)) s1

/-- R240: the last resident block of a launch on a core frees the core's matrix engine. -/
def State.releaseEngine (s : State) (c lid : Nat) : State :=
  let x := s.coreAt c
  if x.matrix.owner = some lid && !(s.coreBlocks c).any (fun b => b.2.launch = lid) then
    s.putCore c { x with matrix := {} }
  else s

/-- Take a block off its core: its warps, waits and records not yet posted go with it. -/
def State.removeBlock (s : State) (b : Nat) : State :=
  match s.blockAt b with
  | none => s
  | some x =>
    let s1 := (s.blockWarps b).foldl (fun st e => st.dropWarp e.1) s
    let keys := (s.blockWarps b).map Prod.fst
    let ws := s1.waits.filter (fun y => y.ctx.isSome || !keys.contains y.warp)
    ({ s1 with waits := refillAll ws }.dropBlock b).releaseEngine x.core x.launch

/-- End a launch whose blocks are still resident: they are terminated, saved contexts are discarded, nothing of it runs
on (R44, R51, R55, R315). Records of events that have happened are still posted (R302), but not those of a cancelled launch
(R315). -/
def State.endLaunch (s : State) (lid code : Nat) : State :=
  match s.launchAt lid with
  | none => s
  | some l =>
    let bs := (s.launchBlocks lid).map Prod.fst
    let s1 := { s with cmds := s.cmds.filter (fun c => !bs.contains c.blk) }
    let s2 := bs.foldl (fun st b => st.removeBlock b) s1
    let dead := s2.saved.filter (fun v => v.blk.launch = lid)
    let bury (v : Saved) : Saved := if v.blk.launch = lid then { v with alive := false } else v
    let keeps (c : Option Nat) : Bool := match c with | some c => !dead.any (fun v => v.id = c) | none => true
    let posts := if code = lCANCELLED then s2.sys.posts.filter (fun f => f.launch ≠ some lid || f.seq.isSome) else s2.sys.posts
    let saving := s2.sys.saving.filter (fun v => !bs.contains v.blk)
    let s3 : State := { s2 with
      saved := s2.saved.map bury
      rests := s2.rests.filter (fun r => keeps r.ctx)
      waits := refillAll (s2.waits.filter (fun y => keeps y.ctx))
      sys := { s2.sys with posts := posts, saving := saving } }
    ((s3.publishAll lid).writeStatus l.lstat code 0).dropLaunch lid

/-- A launch ends before any block ran: its status word, and nothing else (R33, R41). -/
def State.dropUnstarted (s : State) (lid code : Nat) : State :=
  match s.launchAt lid with
  | none => s
  | some l => (s.writeStatus l.lstat code 0).dropLaunch lid

/-! ## Guard and dispatch (R33, R39) -/

/-- The core an AFFINITY block goes to, and whether its address failed to translate (R39). What R39 leaves open, the model
settles (DESIGN CHOICE, log entry 89): an `afield` that is no multiple of 8 is used as it stands (R29; no check of Table 4.3
names it); a field word that does not translate, or is damaged, is an affinity miss; where the home core is retired and its
dome has no core in service, the block goes to the next core in service in ascending number, wrapping at 143. -/
def State.affinityCore (s : State) (l : Launch) (b : Nat) : State × Nat × Bool :=
  let f : State × Option Word :=
    if l.afen then
      (match s.devRead .read (l.params + BitVec.ofNat 64 (l.afield + 8 * b)) 8 with
       | (s1, some bs) => (s1, some (BitVec.ofNat 64 (leNat bs)))
       | (s1, none) => (s1, none))
    else (s, some 0)
  let nextFrom (st : State) (c : Nat) : Nat := (((List.range 144).map (fun i => (c + i) % 144)).find? st.coreOn).getD c
  match f with
  | (s1, none) => (s1, nextFrom s1 (b % 144), true)
  | (s1, some fv) =>
    let a := l.abase + l.astride * BitVec.ofNat 64 b + fv
    match s1.translateRun s1.devCore .read a 1 with
    | (s2, .error _) => (s2, nextFrom s2 (b % 144), true)
    | (s2, .ok keys) =>
      let v := s2.homeSlice (keys.headD 0 % 2 ^ 52)
      if s2.coreOn v then (s2, v, false)
      else
        let hops (c : Nat) : Nat := ((colOf c : Int) - colOf v).natAbs + ((rowOf c : Int) - rowOf v).natAbs
        let cs := (List.range 144).filter (fun c => s2.coreOn c && domeOf c = domeOf v)
        match cs with
        | [] => (s2, nextFrom s2 v, false)
        | c :: rest => (s2, rest.foldl (fun best x => if hops x < hops best then x else best) c, false)

/-- Dispatch the blocks of an AFFINITY launch (R39); each address that does not translate counts an event. -/
def State.dispatch (s : State) (l : Launch) : List Nat → State × List (Nat × Nat)
  | [] => (s, [])
  | b :: rest =>
    let r := s.affinityCore l b
    let s1 := if r.2.2 then r.1.count .core r.2.1 0x020 none (some l.prio) none else r.1
    let q := s1.dispatch l rest
    (q.1, (b, r.2.1) :: q.2)

/-- The blocks of a RECT or STAGED launch with their cores (R36). -/
def rectBlocks (l : Launch) : List (Nat × Nat) :=
  (List.range l.th).flatMap (fun y => (List.range l.tw).flatMap (fun x => (List.range l.bpc).map (fun k =>
    ((y * l.tw + x) * l.bpc + k, 12 * (l.origin.2 + y) + (l.origin.1 + x)))))

/-- GUARD_READ: once the start time is reached, the guard word is read; the launch is skipped, faulted or goes on, bounded
per kind (R33). -/
def execGuardRead (lid : Nat) (s : State) : Host.Outcome State Fault Refusal :=
  .next (match s.launchAt lid with
    | none => s
    | some l =>
      if l.st ≠ .accepted || s.time.toNat < l.start.toNat then s
      else
        let g : State × Option (Option Nat) :=
          if l.guard = 0 then (s, some none)
          else if l.guard.toNat % 4 ≠ 0 then (s, none)
          else (match s.devRead .read l.guard 4 with
            | (s1, some bs) => (s1, some (some (leNat bs)))
            | (s1, none) => (s1, none))
        match g with
        | (s1, none) => s1.dropUnstarted lid lFAULTED
        | (s1, some (some 0)) => s1.dropUnstarted lid lSKIPPED
        | (s1, some bd) =>
          let l1 := { l with st := .running, bound := bd }
          if l.kind = 1 then
            let n := match bd with | some v => Nat.min v l.nblocks | none => l.nblocks
            let r := s1.dispatch l1 (List.range n)
            r.1.putLaunch lid { l1 with toAdmit := r.2 }
          else s1.putLaunch lid { l1 with toAdmit := rectBlocks l1 })

/-! ## Admission (R34, R38, R42) -/

/-- Blocks of a launch resident on a core. -/
def State.residentOn (s : State) (lid c : Nat) : Nat := ((s.coreBlocks c).filter (fun b => b.2.launch = lid)).length

/-- A launch waits for room on a core: it runs and has a block for the core that nothing but room keeps out (R39). -/
def State.waitsOn (s : State) (lid : Nat) (l : Launch) (c : Nat) : Bool :=
  l.st = .running && l.toAdmit.any (fun b => b.2 = c) && (l.kind ≠ 1 || s.residentOn lid c < l.bpc)

/-- No launch that goes before this one waits on the core, and no restore does (R34, R38, R313). -/
def State.firstOn (s : State) (lid : Nat) (l : Launch) (c : Nat) : Bool :=
  !s.launches.any (fun e => match e.2 with
    | some y => e.1 ≠ lid && s.waitsOn e.1 y c && (l.prio < y.prio || (y.prio = l.prio && e.1 < lid))
    | none => false) &&
  !s.rests.any (fun r => r.target = c && r.ctx.isSome)

/-- The lane with the fewest resident warps, ties to the lowest (R42), and a free slot of it; `none` on a full core. Which of the
lane's free slots a warp takes no rule says, though its stack region shows it (R152): the model takes the lowest (DESIGN
CHOICE, log entry 109). -/
def State.freeSlot (s : State) (c : Nat) : Option Nat :=
  let used (lane : Nat) : List Nat := (List.range 4).filter (fun sl => (s.warpAt (warpKey c lane sl)).isSome)
  let lanes := List.range 64
  let best := lanes.foldl (fun b x => if (used x).length < (used b).length then x else b) 0
  ((List.range 4).find? (fun sl => !(used best).contains sl)).map (fun sl => warpKey c best sl)

/-- A warp at its start (R42, R145, R150): every register zero but `$rnd`, `$slim` and `$sp`; one split with its
non-exited threads at the entry header. A frame that does not fit is left to the warp's first word. -/
def State.newWarp (s : State) (k blk wid : Nat) (bid : BitVec 32) (entry : Word) (hw : Word128) (exited : Mask)
    (d : Sparse Word) (weight : Sparse Word) : Warp :=
  let h := Header.ofSlot hw
  let fr := 16 * h.frame.toNat
  let hi := s.stackHi k
  let fits := s.stackLo k + fr ≤ hi
  { blk := blk, wid := wid, exited := exited, d := d, tags := [], w := [], p := [], q := 0, n := [], m := [],
    status := [], rnd := (List.range 32).map (fun t =>
      (t, Config.rndSeed ^^^ BitVec.ofNat 64 (Nat.lor (Nat.lor (bid.toNat * 2 ^ 13) (wid * 2 ^ 5)) t))),
    weight := weight, slim := 16, sp := BitVec.ofNat 64 (if fits then hi - fr else hi), restart := 0, fault := 0,
    handler := none, held := [], trapBlk := (0, 0),
    splits := [{ id := 0, mask := ~~~ exited, hdr := entry, hw := hw, idx := 1, rcd := 0, calls := [], stop := none,
                 readyAt := s.freeCtr, overtaken := 0, boosted := false, yieldFor := [] }],
    stacked := [], recs := [{ id := 0, join := none, hw := 0, parent := none, members := 1, parked := 0, calls := [] }],
    calls := [], nextId := 1, ports := [], lostSp := 0, lostXs := 0, hoist := [], txn := [], windows := [], frames := [], fences := [],
    regions := [h.region], damaged := [], badFrame := !fits, noFrame := false }

/-- Start the warps of a block, numbered from `wid`, each with an acquire at package scope (R42, R43). They start with the
entry header as acceptance read it (R32); it is not read again (DESIGN CHOICE, log entry 90). -/
def State.startWarps (s : State) (c blk : Nat) (bid : BitVec 32) (l : Launch) : List Nat → State
  | [] => s
  | wid :: rest =>
    match s.freeSlot c with
    | none => s
    | some k =>
      let s1 := (s.putWarp k (s.newWarp k blk wid bid l.entry l.ehw 0 [] [])).acquire c none .package
      s1.startWarps c blk bid l rest

/-- A fresh block (R42). -/
def newBlock (lid c : Nat) (pos : Nat × Nat) (k : Nat) (bid : BitVec 32) (ehw : Word128) : Block :=
  { launch := lid, core := c, pos := pos, k := k, bid := bid, ehw := ehw, live := [], shadow := [], tiles := [],
    bars := [], halted := false, bankUsed := false, regions := [] }

/-- Admit one block: the block, its hold on the matrix engine, and its warps. R36 gives a local index k to the blocks of a RECT
or STAGED launch alone; every block of an AFFINITY launch has k = 0, so that an XST picks the first of them that is resident
on the core it names (DESIGN CHOICE, log entry 112). -/
def State.admitBlock (s : State) (lid : Nat) (l : Launch) (b : Nat × Nat) : State :=
  let (u, s1) := s.fresh
  let q := b.1 / l.bpc
  let pos := if l.kind = 1 then (0, 0) else (q % l.tw, q / l.tw)
  let bid := BitVec.ofNat 32 b.1
  let k := if l.kind = 1 then 0 else b.1 % l.bpc
  let s2 := s1.putBlock u (newBlock lid b.2 pos k bid l.ehw)
  let x := s2.coreAt b.2
  let s3 := if partMx l.part then s2.putCore b.2 { x with matrix := { x.matrix with owner := some lid } } else s2
  if l.kind = 2 then s3 else s3.startWarps b.2 u bid l (List.range l.warps)

/-- The weight of initial item `i` of `n`, as a header (R53): a field of 0 denotes 2^32. -/
def initWeight (n i : Nat) : Word := BitVec.ofNat 64 ((2 ^ 32 / n + if i < 2 ^ 32 % n then 1 else 0) % 2 ^ 32)

/-- Bytes of a queue slot: the header, then the item (R50). -/
def Stage.slotBytes (g : Stage) : Nat := g.isize + 8
/-- The address of the `i`th queued item's slot. -/
def Stage.slotVa (g : Stage) (i : Nat) : Word := g.qbase + BitVec.ofNat 64 (((g.head + i) % 2 ^ g.qlog) * g.slotBytes)

/-- The packer forms a warp of 32 whenever 32 items are queued and not yet formed (R52). -/
def Stage.pack (g : Stage) : Stage :=
  let loose := g.items.length - g.formed.foldl (· + ·) 0
  { g with formed := g.formed ++ List.replicate (loose / 32) 32 }

/-- Copy initial items into stage 0's queue (R50); `none` where a copy does not translate. -/
def State.copyInit (s : State) (g : Stage) (n : Nat) : List Nat → State × Option Stage
  | [] => (s, some g)
  | i :: rest =>
    match s.devRead .read (g.init + BitVec.ofNat 64 (i * g.isize)) g.isize with
    | (s1, none) => (s1, none)
    | (s1, some bs) =>
      match s1.devWrite (g.slotVa i) (leBytes 8 (initWeight n i).toNat ++ bs) with
      | (s2, false) => (s2, none)
      | (s2, true) => s2.copyInit { g with items := g.items ++ [(s2.time, initWeight n i)] } n rest

/-- A STAGED launch at admission: its weight word and its initial items (R50, R53). Where one of these words does not
translate the launch is not admitted, and admission is tried again: R50 names no code for it (DESIGN CHOICE, log entry 91). -/
def State.startStages (s : State) (lid : Nat) (l : Launch) : State × Bool :=
  match s.devWrite l.wword (leBytes 8 0) with
  | (s1, false) => (s1, false)
  | (s1, true) =>
    match l.stages with
    | [] => (s1, false)
    | g :: rest =>
      let n := match l.bound with | some v => Nat.min v g.ninit | none => g.ninit
      match s1.copyInit g n (List.range n) with
      | (s2, none) => (s2, false)
      | (s2, some g1) => (s2.putLaunch lid { l with stages := g1.pack :: rest, toAdmit := [] }, true)

/-- BLOCK_ADMISSION: a RECT or STAGED launch is admitted whole; an AFFINITY launch admits its next block on a core (R34,
R38, R39, R42). While a checkpoint runs no block is resident (R356), so none is admitted. -/
def execBlockAdmission (lid core : Nat) (s : State) : Host.Outcome State Fault Refusal :=
  .next (match s.launchAt lid with
    | none => s
    | some l =>
      if l.st ≠ .running || l.toAdmit = [] || s.power.ckst = 3 then s
      else if l.kind = 1 then
        match l.toAdmit.find? (fun b => b.2 = core) with
        | none => s
        | some b =>
          if s.coreOn core && s.waitsOn lid l core && s.firstOn lid l core && s.roomFor core l.part l.warps 1 lid then
            (s.putLaunch lid { l with toAdmit := l.toAdmit.filter (fun y => y ≠ b) }).admitBlock lid l b
          else s
      else
        let cs := rectCores l.origin.1 l.origin.2 l.tw l.th
        if cs.all (fun c => s.coreOn c && s.firstOn lid l c && s.roomFor c l.part l.warps l.bpc lid) then
          let r : State × Bool := if l.kind = 2 then s.startStages lid l else (s.putLaunch lid { l with toAdmit := [] }, true)
          if r.2 then l.toAdmit.foldl (fun st b => st.admitBlock lid l b) r.1 else s
        else s)

/-- BLOCK_END: every warp has exited and every command has completed; the last block of a RECT or AFFINITY launch ends it
with DONE (R43). A STAGED block ends with its launch (R55). -/
def execBlockEnd (b : Nat) (s : State) : Host.Outcome State Fault Refusal :=
  .next (match s.blockAt b with
    | none => s
    | some x =>
      match s.launchAt x.launch with
      | none => s
      | some l =>
        if l.kind = 2 || s.blockWarps b ≠ [] || s.cmds.any (fun c => c.blk = b) ||
          (s.coreAt x.core).matrix.forms.any (fun f => f.blk = b) then s
        else
          let s1 := s.removeBlock b
          if l.toAdmit = [] && s1.launchBlocks x.launch = [] && !s1.saved.any (fun v => v.alive && v.blk.launch = x.launch)
          then s1.endLaunch x.launch lDONE
          else s1)

/-! ## Stages (R50-R55) -/

/-- PACKER_TIMEOUT: the oldest item that is in no formed warp has waited `ptime` ns (R52). -/
def execPackerTimeout (lid stage : Nat) (s : State) : Host.Outcome State Fault Refusal :=
  .next (match s.launchAt lid with
    | none => s
    | some l =>
      match l.stages[stage]? with
      | none => s
      | some g =>
        let loose := g.items.drop (g.formed.foldl (· + ·) 0)
        match loose with
        | [] => s
        | (at_, _) :: _ =>
          if at_.toNat + g.ptime ≤ s.time.toNat then
            s.putLaunch lid { l with stages := l.stages.set stage { g with formed := g.formed ++ [loose.length] } }
          else s)

/-- The stage whose formed warp starts next (R52): the greatest occupancy fraction among those whose successor is below
three quarters, else the highest-numbered; ties go to the lower number. -/
def nextStage (gs : List Stage) : Option Nat :=
  let waiting := (List.range gs.length).filter (fun i => match gs[i]? with | some g => g.formed ≠ [] | none => false)
  let room (i : Nat) : Bool := match gs[i + 1]? with | some g => 4 * g.items.length < 3 * 2 ^ g.qlog | none => true
  let occ (i : Nat) : Nat × Nat := match gs[i]? with | some g => (g.items.length, 2 ^ g.qlog) | none => (0, 1)
  match waiting.filter room with
  | [] => waiting.getLast?
  | i :: rest => some (rest.foldl (fun b x => if (occ b).1 * (occ x).2 < (occ x).1 * (occ b).2 then x else b) i)

/-- Items of a formed warp as they are read from the queue: their bytes' words and headers. -/
def State.readItems (s : State) (g : Stage) : List Nat → State × Option (List (List Word × Word))
  | [] => (s, some [])
  | i :: rest =>
    match s.devRead .read (g.slotVa i) g.slotBytes with
    | (s1, none) => (s1, none)
    | (s1, some bs) =>
      match s1.readItems g rest with
      | (s2, none) => (s2, none)
      | (s2, some l) =>
        let words := (List.range (g.isize / 8)).map (fun j => BitVec.ofNat 64 (fld bs (8 + 8 * j) 8))
        (s2, some ((words, BitVec.ofNat 64 (fld bs 0 8 % 2 ^ 34)) :: l))

/-- The tag of a tagged header. -/
def tagOf (h : Word) : Option Nat := if h.getLsbD 33 then some (bit (h.getLsbD 32)) else none

/-- Set the dirty bits of tags whose count has risen somewhere (R54). -/
def Term.soil (t : Term) (tags : List Nat) : Term := { t with dirty := addLines t.dirty tags }

/-- FORMED_WARP_START: a free warp slot of a block receives a formed warp (R52). Which of the block's free slot numbers (`$wid`)
no rule says: the model takes the lowest (DESIGN CHOICE, log entry 109). While a slot of its queue does not translate
it does not start, and the start is tried again: R52 names no fault for it (DESIGN CHOICE, log entry 91). -/
def execFormedWarpStart (lid b : Nat) (s : State) : Host.Outcome State Fault Refusal :=
  .next (match s.launchAt lid, s.blockAt b with
    | some l, some x =>
      let used := (s.blockWarps b).map (fun e => e.2.wid)
      match (List.range l.warps).find? (fun i => !used.contains i), nextStage l.stages, s.freeSlot x.core with
      | some wid, some i, some k =>
        match l.stages[i]? with
        | none => s
        | some g =>
          match g.formed with
          | [] => s
          | n :: rest =>
            if x.launch ≠ lid || l.kind ≠ 2 || s.stopping b then s
            else
              match s.readItems g (List.range n) with
              | (_, none) => s
              | (s1, some items) =>
                let d : Sparse Word := (List.range (g.isize / 8)).foldl (fun acc j =>
                  (List.range n).foldl (fun a t => Sparse.set 0 a (32 * j + t) ((items.getD t ([], 0)).1.getD j 0)) acc) []
                let weight : Sparse Word := (List.range 32).foldl (fun a t =>
                  Sparse.set 0 a t (match items[t]? with | some it => it.2 | none => BitVec.ofNat 64 (2 ^ 33))) []
                let exited := Mask.ofPred (fun t => n ≤ t)
                let g1 := { g with head := g.head + n, items := g.items.drop n, formed := rest }
                let term := l.term.soil (items.filterMap (fun it => tagOf it.2))
                let s2 := s1.putLaunch lid { l with stages := l.stages.set i g1, term := term }
                (s2.putWarp k (s2.newWarp k b wid x.bid g.sentry g.ehw exited d weight)).acquire x.core (some l) .package
      | _, _, _ => s
    | _, _ => s)

/-- Tagged items of a tag that any unit holds or runs (R54). The items of a saved context count: it will run them (DESIGN
CHOICE, log entry 92). -/
def State.tagCount (s : State) (lid : Nat) (l : Launch) (tag : Nat) : Nat :=
  let inWarp (w : Warp) : Nat := ((List.range 32).filter (fun t => !w.exited.has t && tagOf (w.weightOf t) = some tag)).length
  let queued := l.stages.foldl (fun a g => a + (g.items.filter (fun it => tagOf it.2 = some tag)).length) 0
  let running := (s.launchBlocks lid).foldl (fun a b => (s.blockWarps b.1).foldl (fun x e => x + inWarp e.2) a) 0
  let saved := s.saved.foldl (fun a v =>
    if v.alive && v.blk.launch = lid then v.warps.foldl (fun x e => x + inWarp e.2) a else a) 0
  queued + running + saved

/-- TERMINATION_ROUND: the round on the current tag completes once every unit reports zero; two in a row that found every
dirty bit clear, with the weight word at 2^32, end the launch (R54, R55). Where the weight word cannot be read the round
completes, the launch goes on, and nothing reports it: no rule says what happens (DESIGN CHOICE, log entry 113). -/
def execTerminationRound (lid : Nat) (s : State) : Host.Outcome State Fault Refusal :=
  .next (match s.launchAt lid with
    | none => s
    | some l =>
      if l.kind ≠ 2 || l.st ≠ .running || l.toAdmit ≠ [] || s.tagCount lid l l.term.cur ≠ 0 then s
      else
        let clean := !l.term.dirty.contains l.term.cur
        let streak := if clean then l.term.streak + 1 else 0
        let term : Term := {
          cur := 1 - l.term.cur, streak := streak, dirty := l.term.dirty.filter (· ≠ l.term.cur) }
        match s.devRead .read l.wword 8 with
        | (s1, some bs) =>
          if 2 ≤ streak && leNat bs = 2 ^ 32 then s1.endLaunch lid lDONE else s1.putLaunch lid { l with term := term }
        | (s1, none) => s1.putLaunch lid { l with term := term })

/-! ## SPAWN (R321) -/

/-- What a SPAWN gives the child and leaves the thread (R53, R54): headers of weight, tag and tagged bit. -/
def splitWeight (h : Word) (cur : Nat) : Word × Word :=
  match tagOf h with
  | some tag => (BitVec.ofNat 64 (2 ^ 33 + (1 - tag) * 2 ^ 32), h)
  | none =>
    let u := weightUnits h
    if u = 1 then (BitVec.ofNat 64 (2 ^ 33 + cur * 2 ^ 32), h)
    else (BitVec.ofNat 64 (u / 2), (h &&& BitVec.ofNat 64 (2 ^ 32)) ||| BitVec.ofNat 64 (u - u / 2))

/-- A warp holds a split stopped on a SPAWN whose queue is full (R51). -/
def Warp.spawnStuck (l : Launch) (w : Warp) : Bool :=
  w.splits.any (fun p => match p.stop with
    | some (.spawn pend) =>
      (match l.stages[(pend.ops.ga (pend.T.lowest.getD 0)).toNat]? with
       | some g => decide (2 ^ g.qlog ≤ g.items.length)
       | none => false)
    | _ => false)

/-- Every warp slot of a STAGED launch, those of its saved blocks among them, holds a split stopped on SPAWN (R51). -/
def State.stageDead (s : State) (lid : Nat) (l : Launch) : Bool :=
  let full (ws : List Warp) : Bool := ws.length = l.warps && ws.all (Warp.spawnStuck l)
  (s.launchBlocks lid).all (fun b => full ((s.blockWarps b.1).map Prod.snd)) &&
  s.saved.all (fun v => !v.alive || v.blk.launch ≠ lid || full (v.warps.map Prod.snd))

/-- The record SPAWN.rec leaves on `qsp` (R136, Table 16.7): at most 8 unpopped; beyond that it is discarded and counted. -/
def Warp.portRecord (w : Warp) (p : Port) (r : Word) : Warp :=
  let held := (w.ports.filter (fun e => e.1 = p)).length
  let lost := if p = .sp then w.lostSp else w.lostXs
  if 8 ≤ held then (if p = .sp then { w with lostSp := Nat.min 255 (lost + 1) } else { w with lostXs := Nat.min 255 (lost + 1) })
  else
    let v := (r &&& ~~~ BitVec.ofNat 64 (255 * 2 ^ 40)) ||| BitVec.ofNat 64 (lost * 2 ^ 40)
    let w1 := { w with ports := w.ports ++ [(p, v)] }
    if p = .sp then { w1 with lostSp := 0 } else { w1 with lostXs := 0 }

/-- How SPAWN's threads fare: those left when a queue is full, those that fault and those that trap. -/
structure SpawnRun where
  s      : State
  pend   : Pend
  left   : List Nat
  faults : List (Nat × Nat × Word × Bool)
  traps  : List Trap
  full   : Bool

/-- Where a SPAWN keeps the weight a thread had before it was divided. -/
def weightKept (t : Nat) : Nat := 32 + t

/-- Place the items of threads in ascending order (R321), under the word's hint (R149). A thread's weight is divided once, before
it waits. -/
def spawnGo (k lid stage reg : Nat) (h : Hint) : List Nat → SpawnRun → SpawnRun
  | [], r => r
  | t :: ts, r =>
    match r.s.launchAt lid, r.s.warpAt k with
    | some l, some w =>
      match l.stages[stage]? with
      | none => r
      | some g =>
        let child := Sparse.find r.pend.vals t
        let cw := splitWeight (w.weightOf t) l.term.cur
        let hdr := child.getD cw.1
        let w1 := if child.isSome then w else w.weightSet t cw.2
        let pend := if child.isSome then r.pend
          else { r.pend with vals := Sparse.put (Sparse.put r.pend.vals t hdr) (weightKept t) (w.weightOf t) }
        let s1 := r.s.putWarp k w1
        if 2 ^ g.qlog ≤ g.items.length then { r with s := s1, pend := pend, left := t :: ts, full := true }
        else
          let item := (List.range (g.isize / 8)).flatMap (fun j => leBytes 8 (w.dGet (reg + j) t).toNat)
          match s1.translateRun (keyCore k) .write (g.slotVa g.items.length) g.slotBytes with
          | (s2, .error e) =>
            match errPage e with
            | some (c, va, wk) => spawnGo k lid stage reg h ts { r with s := s2, pend := pend, faults := r.faults ++ [(t, c, va, wk)] }
            | none =>
              -- a thread that traps writes nothing, and has the weight it had when the word was issued (R298)
              let was := (Sparse.find pend.vals (weightKept t)).getD 0
              let s3 := match s2.warpAt k with | some w2 => s2.putWarp k (w2.weightSet t was) | none => s2
              spawnGo k lid stage reg h ts { r with s := s3, traps := r.traps ++ (errTrap t e).toList }
          | (s2, .ok keys) =>
            let s3 := ((s2.touchHome (keyCore k) (g.slotVa g.items.length) h keys).syncWriteAt keys
              (leBytes 8 hdr.toNat ++ item)).lastUse (keyCore k) h keys
            let g1 := ({ g with items := g.items ++ [(s3.time, hdr)] }).pack
            let l1 := { l with stages := l.stages.set stage g1, term := match tagOf hdr with
                          | some x => l.term.soil [x]
                          | none => l.term }
            spawnGo k lid stage reg h ts { r with s := s3.putLaunch lid l1, pend := pend }
    | _, _ => r

/-- The completion record of SPAWN.rec in the layout of Table 16.7: status DONE, `op` 0x14, the stage, the number of
items (R136, R321). -/
def spawnRecord (stage n : Nat) : Word := BitVec.ofNat 64 (0x14 * 2 ^ 48 + stage % 256 * 2 ^ 32 + n)

/-- Go on with a SPAWN. -/
def State.spawnRun (s : State) (k pid : Nat) (x : Ctl) (isRec : Bool) (o : Slots) (pend : Pend) : State :=
  match s.warpAt k with
  | none => s
  | some w =>
    match w.splitAt pid, s.launchOf w.blk, s.blockAt w.blk with
    | some _, some l, some b =>
      let stage := (pend.ops.ga (pend.T.lowest.getD 0)).toNat
      let reg := match o.b with | .d i => i.val | _ => 0
      let isz := match l.stages[stage]? with | some g => g.isize | none => 8
      if l.kind ≠ 2 || l.stages.length ≤ stage || 64 < reg + isz / 8 then
        s.finish k pid x.seq ([{ cause := tNOSTAGE, mask := pend.T, addr := 0 }] ++ pend.held)
      else
        let r := spawnGo k b.launch stage reg x.hint pend.todo.threads { s := s, pend := pend, left := [], faults := [], traps := [], full := false }
        match r.s.warpAt k with
        | none => r.s
        | some w1 =>
          match w1.splitAt pid with
          | none => r.s
          | some p1 =>
            let leftM := Mask.ofPred (fun t => r.left.contains t)
            let held := r.pend.held ++ r.traps
            match r.faults with
            | (_, c, va, wk) :: _ =>
              let ft := Mask.ofPred (fun t => r.faults.any (fun e => e.1 = t))
              let (u, s1) := r.s.post (r.s.warpRec k w1 p1 c (1 + if wk then 8 else 0) va ft 0) (.split k pid) (some b.launch)
              s1.putWarp k (w1.putSplit { p1 with stop := some (.replay u { r.pend with todo := ft ||| leftM, held := held }) })
            | [] =>
              if r.full then
                let s1 := r.s.putWarp k (w1.putSplit { p1 with stop := some (.spawn { r.pend with todo := leftM, held := held }) })
                match s1.launchAt b.launch with
                | some l1 => if s1.stageDead b.launch l1 then s1.endLaunch b.launch lSTAGEDEAD else s1
                | none => s1
              else
                -- the record comes once every active thread's item has been written (R321)
                let w2 := if isRec && held.isEmpty then w1.portRecord .sp (spawnRecord stage pend.T.threads.length) else w1
                (r.s.putWarp k w2).finish k pid x.seq held
    | _, _, _ => s

/-- SPAWN (R321). -/
def execSpawn (x : Ctl) (isRec : Bool) (o : Slots) (s : State) : Host.Outcome State Fault Refusal :=
  match s.context with
  | none => .fault .noIssuer
  | some (c, w, p) =>
    let T := activeMask w p x
    if T = 0 then .next (s.seqAct c.key p.id x.seq)
    else
      match popAll w.ports o with
      | none => .next s
      | some (ports, pv) =>
        let ops := readOps c w {} o pv
        let reg := match o.b with | .d i => i.val | _ => 0
        let isz := match c.launch.bind (fun l => l.stages[(ops.ga (T.lowest.getD 0)).toNat]?) with
          | some g => g.isize / 8
          | none => 1
        -- NOSTAGE needs A alone, and comes before an error of the item's registers, whose cause code is higher (R382)
        let u := uceMask w (o.a :: guards x) T
        let r := (s.putWarp c.key { w with ports := ports }).illegalOp c.key (T &&& ~~~ u)
        let ud := uceMask w ((List.range isz).map (fun j => Spec.d (Fin.ofNat 64 (reg + j)))) r.2
        .next (if r.2 = 0 then r.1.finish c.key p.id x.seq (uceTrap u)
          else r.1.spawnRun c.key p.id x isRec o
            { i := .spawn x isRec o, T := r.2, todo := r.2 &&& ~~~ ud, ops := ops, held := uceTrap (u ||| ud) })

/-! ## LAUNCH (R322) -/

/-- LAUNCH: a release at package scope, then a submission; the split stops until the record is accepted or refused. -/
def execLaunch (x : Ctl) (o : Slots) (s : State) : Host.Outcome State Fault Refusal :=
  splitWord x {} [o.b] o (fun s k p T0 v =>
    let r := s.illegalOp k T0
    if r.2 = 0 then r.1.seqAct k p.id x.seq
    else
      let s1 := r.1.release (keyCore k) (r.1.launchOfWarp k) .package
      let (u, s2) := s1.fresh
      let sub : Sub := { id := u, addr := v.gb (r.2.lowest.getD 0), src := .word k p.id }
      ({ s2 with subs := s2.subs ++ [sub] }).stopSplit k p.id (.launch u { i := .launch x o, T := r.2, ops := v })) s

end Sys2Proof.Machine
end

