-- ==== Sys2Proof/Machine/Engines.lean ====
section
/-! DEFINITION. Engines.lean: what all engines share: queues, pushing words, arrival and release words, completion
records, accesses and faults (R128-R130, R218-R220, R250-R254, R265-R271, R282, R383, R384). -/

namespace Sys2Proof.Machine

/-! ## Status codes (Tables 16.8, 18.2, 22.7) -/

def cDONE : Nat := 0x00
def cNOOP : Nat := 0x01
def cFORMAT : Nat := 0x02
def cNOWT : Nat := 0x03
def cTILE : Nat := 0x04
def cRANGE : Nat := 0x05
def cMETADATA : Nat := 0x06
def cDESC : Nat := 0x07
def cMISMATCH : Nat := 0x08
def cSTORE : Nat := 0x09
def cFAULT : Nat := 0x0A
def cNOTSCHED : Nat := 0x0B
def cCORRUPT : Nat := 0x0C
def cCANCELLED : Nat := 0x0D
def cMISALIGN : Nat := 0x0E
def cNOMATRIX : Nat := 0x13
def cNONCANONICAL : Nat := 0x14

/-! ## Queues (Table 18.1, R250, R336) -/

/-- Commands a core's queue holds, queued and in flight together. -/
def portCap : Port → Nat
  | .cp => 1024 | .mx => 32 | .ep => 16 | .ga => 64 | .cj => 64 | .bd => 8 | .sp | .xs => 0

/-- A port's number in Table 10.2. -/
def portNum : Port → Nat
  | .cp => 0 | .mx => 1 | .ep => 2 | .ga => 3 | .cj => 4 | .sp => 5 | .bd => 6 | .xs => 7

/-- A queue's bit in QFENCE's `qset` (Table 18.3). -/
def fenceBit : Port → Nat
  | .cp => 5 | .mx => 4 | .ep => 3 | .ga => 2 | .cj => 1 | .bd => 0 | .sp | .xs => 6

/-- The commands of a core's queue in push order. -/
def State.queue (s : State) (core : Nat) (p : Port) : List Cmd := s.cmds.filter (fun c => c.core = core && c.port = p)

def State.cmdAt (s : State) (i : Nat) : Option Cmd := s.cmds.find? (fun c => c.id = i)
def State.putCmd (s : State) (c : Cmd) : State := { s with cmds := s.cmds.map (fun y => if y.id = c.id then c else y) }
def State.dropCmd (s : State) (i : Nat) : State := { s with cmds := s.cmds.filter (fun c => c.id ≠ i) }

/-- A core's queue takes `n` more commands. -/
def State.roomIn (s : State) (core : Nat) (p : Port) (n : Nat) : Bool := (s.queue core p).length + n ≤ portCap p

/-- The QFENCEs that a command of a warp is pushed under: those of the warp, or, once it has exited, those that its commands keep
of it (R275, R282). -/
def State.fencesOf (s : State) (c : Cmd) : List QFen :=
  match s.warpAt c.warp with
  | some w => w.fences
  | none => c.fences

/-- The commands that a command pushed now to its queue waits for (R282). -/
def State.fenceAfter (s : State) (c : Cmd) : List Nat :=
  (s.fencesOf c).flatMap (fun f =>
    if f.qset.getLsbD (fenceBit c.port) then f.before.filter (fun i => (s.cmdAt i).isSome) else [])

/-- Nothing keeps a command from going on but its place in its queue: it waits for no reply, and every command that a
QFENCE puts before it has completed. -/
def State.free (s : State) (c : Cmd) : Bool := c.fault.isNone && c.after.all (fun i => (s.cmdAt i).isNone)

/-- Every earlier command of the same queue satisfies a test. -/
def State.earlier (s : State) (c : Cmd) (f : Cmd → Bool) : Bool :=
  ((s.queue c.core c.port).takeWhile (fun y => y.id ≠ c.id)).all f

/-- A command of a warp with nothing done. -/
def Cmd.new (core blk warp split : Nat) (port : Port) (op : Nat) (rcd : Bool) (arr rel : Option Nat) (k : CmdK) : Cmd :=
  { id := 0, core := core, blk := blk, warp := warp, split := split, port := port, op := op, rcd := rcd, arr := arr,
    rel := rel, unit := 0, g := 0, writes := false, decl := none, k := k, status := none, started := false, row := 0,
    landed := [], signalled := 0, flags := 0, fault := none, after := [], fences := [], wset := none,
    hint := .normal, cj := {} }

/-- Put a command at the end of its queue under a fresh number. -/
def State.pushCmd (s : State) (c : Cmd) : State :=
  let (u, s1) := s.fresh
  { s1 with cmds := s1.cmds ++ [{ c with id := u, after := s1.fenceAfter c }] }

/-! ## Arrival and release words (R218-R220, R252, R253, R384) -/

/-- An arrival or release word that a command may name: aligned and in the live bank. -/
def State.wordOk (s : State) (blk : Nat) (v : Word) : Bool :=
  match s.blockAt blk with
  | some b => v.toNat % 16 = 0 && s.bankOk b v.toNat 16
  | none => false

/-- An optional word operand: whether it is usable, and where it is. -/
def State.wordOf (s : State) (blk : Nat) (x : Spec) (v : Word) : Bool × Option Nat :=
  if x = .none then (true, none) else if s.wordOk blk v then (true, some v.toNat) else (false, none)

/-- The bytes an arrival word lacks in its current generation (R252). -/
def State.lack (s : State) (blk : Nat) (arr : Option Nat) : Nat :=
  match arr, s.blockAt blk with
  | some a, some b => let y := Arr.ofBytes (b.liveBytes a 16); y.target - y.count
  | _, _ => 0

/-- Signal a command's arrival word as bytes land. -/
def State.land (s : State) (c : Cmd) (n : Nat) : State × Cmd :=
  let c1 := { c with signalled := c.signalled + n }
  (match c.arr with | some a => s.signal c.blk a n 0 | none => s, c1)

/-- The error bit of a status (R220, R384). -/
def errBit (st : Nat) : Nat :=
  if st = cCORRUPT then arrCorr else if st = cCANCELLED || st = cNOTSCHED then arrCanc else arrFault

/-- One reader of a command's release word is done: at the last one the word is signalled once (R253). -/
def State.readerDone (s : State) (c : Cmd) : State :=
  match c.rel with
  | none => s
  | some r =>
    let s1 := s.putCmd { c with rel := none }
    if s1.cmds.any (fun y => y.id ≠ c.id && y.blk = c.blk && y.rel = some r) then s1 else s1.signal c.blk r 0 0

/-- Deliver a record to a port of a resident warp (R254, R269). -/
def State.postRecord (s : State) (k : Nat) (p : Port) (v : Word) : State :=
  match s.warpAt k with
  | none => s
  | some w => s.putWarp k { w with ports := w.ports ++ [(p, v)] }

/-- A completion record (Table 16.7). -/
def recordWord (st op flags unit bytes : Nat) : Word :=
  BitVec.ofNat 64 (st % 256 * 2 ^ 56 + op % 256 * 2 ^ 48 + flags % 256 * 2 ^ 40 + unit % 256 * 2 ^ 32 + bytes % 2 ^ 32)

/-- A command ends with a status: `n` more bytes are signalled where `sig` says so or where it failed, with the error bit;
then the record is delivered and the command is gone (R252, R254, R269, R384). -/
def State.endCmd (s : State) (c : Cmd) (st n : Nat) (sig : Bool) : State :=
  let ok := st = cDONE || st = cNOOP
  let total := if ok then c.signalled + n
    else match c.decl with
      | some d => Nat.max d c.signalled
      | none => c.signalled + s.lack c.blk c.arr
  let s1 := match c.arr with
    | some a => if sig || !ok then s.signal c.blk a (total - c.signalled) (if ok then 0 else errBit st) else s
    | none => s
  let s2 := (s1.readerDone c).dropCmd c.id
  if c.rcd then s2.postRecord c.warp c.port (recordWord st c.op c.flags c.unit total) else s2

/-! ## Counts and records read at push (R251, R267, R268) -/

/-- Bytes of the live bank at an offset, when they lie in it. -/
def State.bankAt (s : State) (blk : Nat) (off : Word) (n : Nat) : Option (List Byte) :=
  match s.blockAt blk with
  | some b => if s.bankOk b off.toNat n then some (b.liveBytes off.toNat n) else none
  | none => none

/-- A count operand: `none` where it is invalid. `wide` accepts all 64 bits of a register (R251). -/
def State.countOf (s : State) (blk : Nat) (cw wide : Bool) (v : Word) : Option Nat :=
  if cw then (if v.toNat % 4 ≠ 0 then none else (s.bankAt blk v 4).map leNat)
  else if wide || v.toNat < 2 ^ 32 then some v.toNat
  else none

/-! ## Accesses of engines (R129, R130, R270, R271, R281, R304, R383) -/

/-- What an engine access can meet: a fault for the fault queue, or a status that ends the command. -/
inductive EngErr where
  | page (cause : Nat) (va : Word) (write walk : Bool)
  | stop (status : Nat)
  deriving DecidableEq, Repr

/-- The keys an engine access touches. -/
def State.engKeys (s : State) (core : Nat) (acc : Acc) (va : Word) (n : Nat) : State × Except EngErr (List Nat) :=
  if !canonical va || !canonical (va + BitVec.ofNat 64 (n - 1)) then (s, .error (.stop cNONCANONICAL))
  else
    match s.translateRun core acc va n with
    | (s1, .ok keys) => (s1, .ok keys)
    | (s1, .error (.page c a w)) => (s1, .error (.page c a (decide (acc = .write)) w))
    | (s1, .error _) => (s1, .error (.stop cNONCANONICAL))

/-- Read home values; `pub` publishes the core's dirty bytes of the lines read first (R281). -/
def State.engRead (s : State) (core : Nat) (va : Word) (n : Nat) (pub : Bool) (h : Hint := .normal) :
    State × Except EngErr (List Byte) :=
  match s.engKeys core .read va n with
  | (s1, .error e) => (s1, .error e)
  | (s1, .ok keys) =>
    let s2 := if pub then s1.publish core (fun k => keys.any (fun y => y / 64 = k / 64)) else s1
    let s3 := s2.askPeers core keys false
    match s3.readErr core va keys false with
    | some (.page c a w) => (s3, .error (.page c a false w))
    | some _ => (s3, .error (.page causeUCE va false false))
    | none =>
      let s4 := (keys.map (· / 64)).eraseDups.foldl State.fillView (s3.touchHome core va h keys)
      (s4, .ok (keys.map s4.homeByte))

/-- An engine's writes land at home: each aligned 8-byte group is one synchronising write (R130). The issuing core drops the
clean bytes of each line, and every hoisted load that covers one of the lines ends (R202). -/
def State.engLand (s : State) (core : Nat) (keys : List Nat) (bs : List Byte) : State :=
  let lines := (keys.map (· / 64)).eraseDups
  (lines.foldl (fun x l => x.dropCleanLine core l) (s.syncWriteAt keys bs)).endHoists lines

/-- Write home values at a run of addresses. -/
def State.engWrite (s : State) (core : Nat) (va : Word) (bs : List Byte) (h : Hint := .normal) :
    State × Except EngErr Unit :=
  match s.engKeys core .write va bs.length with
  | (s1, .error e) => (s1, .error e)
  | (s1, .ok keys) => ((s1.touchHome core va h keys).engLand core keys bs, .ok ())

/-- Write bytes of a weight-buffer bank of a core (R239). -/
def State.putBankBytes (s : State) (core bank off : Nat) (bs : List Byte) : State :=
  let x := s.coreAt core
  s.putCore core { x with matrix := { x.matrix with banks := putBank x.matrix.banks (2 ^ 20 * bank + off) bs } }

/-- A bank holds bytes written for a block (R311). -/
def State.markBank (s : State) (blk : Nat) : State :=
  match s.blockAt blk with
  | some b => s.putBlock blk { b with bankUsed := true }
  | none => s

/-- A byte of a weight-buffer bank. -/
def Matrix.bankByte (m : Matrix) (bank off : Nat) : Byte := Sparse.get 0 m.banks (2 ^ 20 * bank + off)

/-- Bytes read by a command's engine in a space of Table 18.3. -/
def State.engLoad (s : State) (c : Cmd) (sp : Nat) (a : Int) (n : Nat) (pub : Bool) :
    State × Except EngErr (List Byte) :=
  if sp = 0 then s.engRead c.core (BitVec.ofInt 64 a) n pub c.hint
  else
    match s.loadS c.blk a n with
    | .ok bs => (s, .ok bs)
    | .error (.uce v) => (s, .error (.page causeUCE v false false))
    | .error _ => (s, .error (.stop cRANGE))

/-- Bytes written by a command's engine in a space of Table 18.3. -/
def State.engStore (s : State) (c : Cmd) (sp : Nat) (a : Int) (bs : List Byte) : State × Except EngErr Unit :=
  if sp = 0 then s.engWrite c.core (BitVec.ofInt 64 a) bs c.hint
  else if sp = 1 then
    match s.storeS c.blk a bs with
    | (s1, .ok _) => (s1, .ok ())
    | (s1, .error _) => (s1, .error (.stop cRANGE))
  else ((s.putBankBytes c.core (sp - 2) a.toNat bs).markBank c.blk, .ok ())

/-- Bytes of one destination line, at their own addresses, written by a command's engine: of a line of `.g` all at once, so
that each 8-byte group is one write (R130). -/
def State.engStoreLine (s : State) (c : Cmd) (sp : Nat) (l : List (Nat × Byte)) : State × Except EngErr Unit :=
  match l with
  | [] => (s, .ok ())
  | e :: rest =>
    if sp = 0 then
      let lo := rest.foldl (fun a x => Nat.min a x.1) e.1
      let hi := rest.foldl (fun a x => Nat.max a x.1) e.1
      match s.engKeys c.core .write (BitVec.ofNat 64 lo) (hi + 1 - lo) with
      | (s1, .error er) => (s1, .error er)
      | (s1, .ok keys) =>
        ((s1.touchHome c.core (BitVec.ofNat 64 lo) c.hint keys).engLand c.core (l.map (fun x => keys.getD (x.1 - lo) 0))
          (l.map Prod.snd), .ok ())
    else
      l.foldl (fun (acc : State × Except EngErr Unit) x =>
        match acc.2 with
        | .error _ => acc
        | .ok _ => acc.1.engStore c sp (x.1 : Nat) [x.2]) (s, .ok ())

/-- Bytes of a run written line by line; the number counts those written when an access faults. -/
def State.engStoreRun (s : State) (c : Cmd) (sp : Nat) : Nat → Int → List Byte → Nat → State × Nat × Except EngErr Unit
  | 0, _, _, done => (s, done, .ok ())
  | fuel + 1, a, bs, done =>
    if bs = [] then (s, done, .ok ())
    else
      let n := if sp = 0 then 64 - (BitVec.ofInt 64 a).toNat % 64 else bs.length
      match s.engStore c sp a (bs.take n) with
      | (s1, .error e) => (s1, done, .error e)
      | (s1, .ok _) => State.engStoreRun s1 c sp fuel (a + n) (bs.drop n) (done + (bs.take n).length)

/-- A command meets an error: it waits for the reply to a record, or ends with a status (R270, R302, R383). -/
def State.engFault (s : State) (c : Cmd) (e : EngErr) : State :=
  match e with
  | .stop st => s.putCmd { c with status := some st }
  | .page cause va wr wk =>
    let r : FRec := {
      faddr := va, fpc := 0, flrec := match s.launchOf c.blk with | some l => l.addr | none => 0, fcore := c.core,
      floc := keyLane c.warp + 64 * keySlot c.warp, fcause := cause,
      facc := 4 + (if wr then 1 else 0) + (if wk then 8 else 0) + 16 * portNum c.port, ftmask := 0,
      fbid := match s.blockAt c.blk with | some b => b.bid | none => 0, fdet := 0 }
    let (u, s1) := s.post r (.cmd c.id) ((s.blockAt c.blk).map (·.launch))
    s1.putCmd { c with fault := some u }

/-- Where each byte of a run is held, for comparing ranges: pieces of at most 4 KiB as key and length. Pages that do not
translate have none. -/
def State.pieces (s : State) (core : Nat) : Nat → Word → Nat → List (Nat × Nat)
  | 0, _, _ => []
  | fuel + 1, va, n =>
    if n = 0 then []
    else
      let m := Nat.min n (4096 - va.toNat % 4096)
      let rest := State.pieces s core fuel (va + BitVec.ofNat 64 m) (n - m)
      match (s.translate core .read va).2 with
      | .ok (e, b) => (s.leafKey e b va, m) :: rest
      | .error _ => rest

/-- Publish a core's dirty bytes within a source range (R129). -/
def State.publishRange (s : State) (core : Nat) (va : Word) (n : Nat) : State :=
  let ps := s.pieces core (n / 4096 + 2) va n
  s.publish core (fun k => ps.any (fun p => p.1 ≤ k && k < p.1 + p.2))

/-! ## Words that push commands (R250, R265, R266) -/

/-- How a word pushes: its queue; whether it pushes once per warp or once per distinct tuple of operands; the scratchpad
ranges it reads at push; whether a push needs room; what the command is before those are read; and the push. -/
structure PushPlan where
  port  : Port
  once  : Bool
  reads : State → Nat → Opnds → Nat → List (Word × Nat)
  roomy : State → Nat → Bool := fun _ _ => true
  cmd   : State → Cmd → Opnds → Nat → Cmd
  push  : State → Cmd → Opnds → Nat → State

/-- Two threads hold equal operands. -/
def Opnds.same (v : Opnds) (t u : Nat) : Bool :=
  v.ga t = v.ga u && v.gb t = v.gb u && v.gc t = v.gc u && v.gd t = v.gd u && v.ge t = v.ge u

/-- The lowest thread of each distinct tuple, in ascending order (R266). -/
def tupleThreads (T : Mask) (v : Opnds) : List Nat :=
  T.threads.foldl (fun acc t => if acc.any (fun u => v.same t u) then acc else acc ++ [t]) []

/-- The block of a warp. -/
def State.blkOf (s : State) (k : Nat) : Nat := match s.warpAt k with | some w => w.blk | none => 0

/-- A command that a split's word issues. -/
def State.newCmd (s : State) (k pid : Nat) (port : Port) (op : Nat) (rcd : Bool) (arr rel : Option Nat) (kd : CmdK) : Cmd :=
  Cmd.new (keyCore k) (s.blkOf k) k pid port op rcd arr rel kd

/-- The first damaged range that a push of a block reads (R304). -/
def State.badRead (s : State) (blk : Nat) (l : List (Word × Nat)) : Option Word :=
  (l.find? (fun r => s.badS.any (fun e => e.1 = blk && r.1.toNat ≤ e.2 && e.2 < r.1.toNat + r.2))).map Prod.fst

/-- Push a command for a thread's operands. One whose record or count word is damaged takes its place in the queue and waits
there for the reply to its record, to be read again (R270, R304). -/
def State.pushOne (s : State) (pl : PushPlan) (i : Instr) (c0 : Cmd) (v : Opnds) (t : Nat) : State :=
  let c := pl.cmd s c0 v t
  match s.badRead c0.blk (pl.reads s c0.blk v t) with
  | none => pl.push s c v t
  | some a =>
    let s1 := s.pushCmd { c with k := .unread i v t c.k false }
    match s1.cmdAt s.nextUid with
    | some y => s1.engFault y (.page causeUCE a false false)
    | none => s1

/-- The hint of a word. -/
def hintOf : Instr → Hint
  | .cpy x _ _ | .cpyt x _ _ | .cpym x _ _ | .cpyg x _ _ | .gth x _ _ | .sct x _ _ | .epi x _ _
  | .unite x _ _ | .find x _ _ | .fsize x _ _ | .relabel x _ _ | .fsnap x _ _ _ | .fundo x _ _ => x.hint
  | _ => .normal

/-- Push the commands of a word that are left, one at a time, as entries free. -/
def pushGo (pl : PushPlan) (k pid : Nat) (q : Seq) (pend : Pend) : List Nat → Nat → State → State
  | [], _, s => s.finish k pid q pend.held
  | t :: ts, n, s =>
    if pl.roomy s (s.blkOf k) && !s.roomIn (keyCore k) pl.port 1 then s.stopSplit k pid (.push { pend with prog := n })
    else
      let c0 := { s.newCmd k pid pl.port 0 false none none (.aclr false) with hint := hintOf pend.i }
      pushGo pl k pid q pend ts (n + 1) (s.pushOne pl pend.i c0 pend.ops t)

/-- Go on pushing. -/
def State.runPush (s : State) (k pid : Nat) (q : Seq) (pl : PushPlan) (pend : Pend) : State :=
  let all := if pl.once then (tupleThreads pend.T pend.ops).take 1 else tupleThreads pend.T pend.ops
  pushGo pl k pid q pend (all.drop pend.prog) pend.prog s

/-- Issue a word that pushes commands. -/
def pushWord (i : Instr) (x : Ctl) (srcs : List Spec) (o : Slots) (pl : PushPlan) (s : State) :
    Host.Outcome State Fault Refusal :=
  match s.context with
  | none => .fault .noIssuer
  | some (c, w, p) =>
    let T := activeMask w p x
    if T = 0 then .next (s.seqAct c.key p.id x.seq)
    else
      match popAll w.ports o with
      | none => .next s
      | some (ports, pv) =>
        let ops := readOps c w {} o pv
        let u := uceMask w (srcs ++ guards x) T
        let us := if u = 0 then [] else [{ cause := tUCE, mask := u, addr := 0 }]
        let r := (s.putWarp c.key { w with ports := ports }).illegalOp c.key (T &&& ~~~ u)
        .next (if r.2 = 0 then r.1.finish c.key p.id x.seq us
          else r.1.runPush c.key p.id x.seq pl { i := i, T := r.2, todo := r.2, ops := ops, held := us })

/-! ## QFENCE (R282) -/

/-- QFENCE: later pushes of the warp to the named queues wait for its earlier ones. -/
def execQfence (x : Ctl) (qset : BitVec 6) (o : Slots) (s : State) : Host.Outcome State Fault Refusal :=
  splitWord x {} [] o (fun s k p T _ =>
    let r := s.illegalOp k T
    let s1 := r.1
    if r.2 = 0 then s1.seqAct k p.id x.seq
    else
      match s1.warpAt k with
      | none => s1
      | some w =>
        let mine := s1.cmds.filter (fun c => c.warp = k && qset.getLsbD (fenceBit c.port))
        let old := w.fences.filter (fun f => f.before.any (fun i => (s1.cmdAt i).isSome))
        let f : QFen := { qset := qset, before := mine.map (·.id) }
        (s1.putWarp k { w with fences := if f.before = [] then old else old ++ [f] }).seqAct k p.id x.seq) s

end Sys2Proof.Machine
end

