-- ==== Sys2Proof/Machine/Tiles.lean ====
section
/-! DEFINITION. Tiles.lean: matrix formats, products and accumulation, accumulator tiles and the commands of the matrix
queue before they run (R76-R85, R240, R243, R248-R250, R256-R258, R260). -/

namespace Sys2Proof.Machine

/-! ## Operand formats (R76-R82, R243, R244) -/

/-- Formats accepted on the A side (Table 6.9). -/
def mfSideA (f : Nat) : Bool := f ≤ 10 || (14 ≤ f && f ≤ 20) || f = 22 || f = 23

/-- Formats of the long class (Table 6.9). -/
def mfLong (f : Nat) : Bool := f = 0 || isMX f

/-- The pair rate (Table 16.2). -/
def pairRate (a b : Nat) : Nat :=
  let w16 (f : Nat) : Bool := f ≤ 1
  let w4 (f : Nat) : Bool := [6, 9, 10, 18, 20, 23].contains f
  let ss (f : Nat) : Bool := [11, 12, 13, 21].contains f
  let intA := [7, 8, 9, 10, 22, 23].contains a
  if w16 a || w16 b then 1
  else if w4 a then (if ss b then (if intA then 8 else 4) else if w4 b then 4 else 2)
  else if ss b then (if intA then 4 else 2)
  else 2

/-- Beats a row takes (R245). -/
def rowBeats (a b kw : Nat) : Nat := (kw + 128 * pairRate a b - 1) / (128 * pairRate a b)

/-- The value of an element code, before any scale (R76, R78, R80, R81). -/
def mfValue (f code : Nat) : FVal :=
  let fl (g : FFmt) (flush : Bool) : FVal := (g.operand flush code).1
  let int (signed : Bool) (w : Nat) (e : Int) : FVal :=
    let v := toInt signed w code
    .fin (decide (v < 0)) v.natAbs e
  match f with
  | 0 => fl bf16 true
  | 1 => fl fp16 true
  | 2 | 14 => fl e4m3 false
  | 3 | 15 => fl e5m2 false
  | 4 | 16 => fl e3m2 false
  | 5 | 17 => fl e2m3 false
  | 6 | 18 => fl e2m1 false
  | 7 | 22 => int true 8 0
  | 8 => int false 8 0
  | 9 | 23 => int true 4 0
  | 10 => int false 4 0
  | 11 => int true 2 0
  | 12 | 21 => if code % 4 = 1 then .fin false 1 0 else if code % 4 = 3 then .fin true 1 0 else .fin false 0 0
  | 13 => .fin (decide (code % 2 = 0)) 1 0
  | 19 => int true 8 (-6)
  | 20 => int true 4 (-2)
  | _ => .fin false 0 0

/-- A value under an E8M0 block scale (R78). -/
def FVal.scaled (v : FVal) (x : Nat) : FVal :=
  if x = 255 then .nan
  else match v with
    | .fin n m e => .fin n m (e + x - 127)
    | y => y

/-! ## Entering a product (R83-R85) -/

def shortNaN : Int := -(2 ^ 127 : Nat)
def shortPInf : Int := -(2 ^ 127 : Nat) + 1
def shortNInf : Int := -(2 ^ 127 : Nat) + 2

/-- A value clamped into a range. -/
def clampInt (lo hi x : Int) : Int := if x < lo then lo else if hi < x then hi else x

/-- A dyadic in units of 2^-u; exact for every product an accepted pair can give (R82). -/
def Dy.units (d : Dy) (u : Nat) : Int :=
  if 0 ≤ d.e + u then d.m * (2 ^ (d.e + u).toNat : Nat) else d.m / (2 ^ (-(d.e + u)).toNat : Nat)

/-- Enter a product into a short element. -/
def Elem.enterShort (x : Elem) (p : Term1) : Elem :=
  if x.val = shortNaN then x
  else
    match p with
    | .nan => { x with val := shortNaN }
    | .inf neg =>
      if x.val = shortPInf then (if neg then { x with val := shortNaN } else x)
      else if x.val = shortNInf then (if neg then x else { x with val := shortNaN })
      else { x with val := if neg then shortNInf else shortPInf }
    | .fin _ v =>
      if x.val = shortPInf || x.val = shortNInf then x
      else { x with val := clampInt (-(2 ^ 127 : Nat) + 3) ((2 ^ 127 : Nat) - 1) (x.val + v.units 48) }

/-- Enter a product into a long element. -/
def Elem.enterLong (x : Elem) (p : Term1) : Elem :=
  match p with
  | .nan => { x with nan := true }
  | .inf neg => if neg then { x with ninf := true } else { x with pinf := true }
  | .fin _ v =>
    let y := x.val + v.units 280
    let lo : Int := -(2 ^ 607 : Nat)
    let hi : Int := (2 ^ 607 : Nat) - 1
    if y < lo || hi < y then { x with val := clampInt lo hi y, ovf := true, satn := Nat.min (x.satn + 1) (2 ^ 28 - 1) }
    else { x with val := y }

/-- Enter a product of two values. -/
def Elem.enter (x : Elem) (long : Bool) (a b : FVal) : Elem :=
  let p := (FVal.mul a b).1
  if long then x.enterLong p else x.enterShort p

/-- Weight (k, n) of a set. -/
def WSet.value (w : WSet) (k n : Nat) : FVal :=
  let v := mfValue w.fmt (Sparse.get 0 w.elems (256 * k + n))
  if isMX w.fmt then v.scaled (Sparse.get 0 w.scales (256 * (k / 32) + n)) else v

/-- How far a product can move an element, in units of its class. -/
def Term1.reach (long : Bool) : Term1 → Nat
  | .fin _ v => (v.units (if long then 280 else 48)).natAbs
  | _ => 0

/-- Whether no order of entering the products can leave the range of the element (R83, R84). -/
def Elem.safeFor (x : Elem) (long : Bool) (ps : List Term1) : Bool :=
  decide (ps.foldl (fun n p => n + p.reach long) x.val.natAbs ≤ if long then 2 ^ 607 - 1 else 2 ^ 127 - 3)

/-- A list in a free order: each element goes to a place that a FREE VALUE names (log entry 80). -/
def freeOrder : Nat → List Nat → List Nat
  | _, [] => []
  | n, x :: xs =>
    let r := freeOrder (n + 1) xs
    let i := Config.freeNat n % (r.length + 1)
    r.take i ++ x :: r.drop i

/-- Enter a row of A into row `m` of a tile. The products of an element enter in any order (R257); the order matters only
where a sum may saturate (R85), and is free there. `seed` is where its free values begin. -/
def Tile.enterRow (t : Tile) (seed m : Nat) (w : WSet) (a : List FVal) : Tile :=
  { t with elems := (List.range 256).foldl (fun acc n =>
      let x := Sparse.get {} acc (256 * m + n)
      let ks := List.range w.kw
      let p (k : Nat) : Term1 := (FVal.mul (a.getD k (.fin false 0 0)) (w.value k n)).1
      let order := if x.safeFor t.long (ks.map p) then ks else freeOrder (seed + 2 ^ 16 * n) ks
      Sparse.set {} acc (256 * m + n) (order.foldl (fun (y : Elem) k =>
        y.enter t.long (a.getD k (.fin false 0 0)) (w.value k n)) x)) t.elems }

/-! ## Tiles (R248, R249, Table 16.5) -/

def Block.tileAt (b : Block) (g : Nat) : Option Tile := b.tiles.find? (fun t => t.g = g)
def Block.putTile (b : Block) (t : Tile) : Block := { b with tiles := b.tiles.map (fun y => if y.g = t.g then t else y) }
def Block.freeTile (b : Block) (g : Nat) : Block := { b with tiles := b.tiles.filter (fun t => t.g ≠ g) }

/-- Granules of a tile. -/
def tileSpan (long : Bool) : Nat := if long then 20 else 4

/-- A new tile is in range (R248). -/
def State.tileInRange (s : State) (b : Block) (g : Nat) (long : Bool) : Bool :=
  let accg := match s.launchAt b.launch with | some l => partAccg l.part | none => 0
  g % 4 = 0 && g + tileSpan long ≤ accg &&
  b.tiles.all (fun t => t.g + tileSpan t.long ≤ g || g + tileSpan long ≤ t.g)

/-- What pushing a matrix command does to its tile (R249): the block after it, or `none` where the command is marked. -/
inductive TileEv where | clear (long : Bool) | write | close
  deriving DecidableEq, Repr

def State.tilePush (s : State) (b : Block) (g id : Nat) (e : TileEv) : Option Block :=
  match b.tileAt g, e with
  | none, .clear long =>
    if s.tileInRange b g long then
      some { b with tiles := b.tiles ++ [{ g := g, long := long, st := .isOpen, writers := [id], elems := [] }] }
    else none
  | none, _ => none
  | some t, e =>
    if t.st ≠ .isOpen then none
    else
      match e with
      | .clear long => if t.long = long then some (b.putTile { t with writers := t.writers ++ [id] }) else none
      | .write => some (b.putTile { t with writers := t.writers ++ [id] })
      | .close => some (b.putTile { t with st := if t.writers = [] then .draining else .closing })

/-- A writer of a tile completes: at the last one a closing tile drains. -/
def State.tileDone (s : State) (c : Cmd) : State :=
  if !c.writes then s
  else
    match s.blockAt c.blk with
    | none => s
    | some b =>
      match b.tileAt c.g with
      | none => s
      | some t =>
        let ws := t.writers.filter (· ≠ c.id)
        s.putBlock c.blk (b.putTile { t with writers := ws, st := if ws = [] && t.st = .closing then .draining else t.st })

/-! ## Ownership (R240) -/

/-- A block's launch holds its core's matrix engine. -/
def State.holdsEngine (s : State) (blk : Nat) : Bool :=
  match s.blockAt blk with
  | none => false
  | some b =>
    match s.launchAt b.launch with
    | some l => partMx l.part && (s.coreAt b.core).matrix.owner = some b.launch
    | none => false

/-! ## Commands as they are pushed -/

/-- A tile's bytes read from a bank; none lie past its end. -/
def Matrix.tileByte (m : Matrix) (bank off : Nat) (i : Nat) : Nat :=
  if off + i < 2 ^ 20 then (m.bankByte bank (off + i)).toNat else 0

/-- The size of a WLD's tile, from what its bank holds (R242, R252). -/
def State.wldSize (s : State) (core fmt ck bank off kw : Nat) : Nat :=
  tileSize ((s.coreAt core).matrix.tileByte bank off) fmt ck kw

/-- Push a matrix-queue command. One for a block without the engine completes at once with NOMATRIX (R240), and without
reading (R253). Every other command but one of count zero makes its change to its tile here, whatever its own status
(R249, R251). -/
def State.pushMatrix (s : State) (c : Cmd) (ev : Option TileEv) : State :=
  if !s.holdsEngine c.blk then (s.pushCmd c).endCmd { c with id := s.nextUid } cNOMATRIX 0 true
  else
    match ev, s.blockAt c.blk with
    | some e, some b =>
      if c.status = some cNOOP then s.pushCmd c
      else
        match s.tilePush b c.g s.nextUid e with
        | some b1 => (s.putBlock c.blk b1).pushCmd { c with writes := decide (e ≠ .close) }
        | none => s.pushCmd { c with status := some cTILE }
    | _, _ => s.pushCmd c

/-- A WLD (R256). `kw` is `none` for an invalid count. -/
def State.pushWld (s : State) (c0 : Cmd) (wordsOk : Bool) (fmt ck bank : Nat) (off : Word) (kw : Option Nat) : State :=
  let n := kw.getD 0
  let known := kw.isSome && (fmt ≥ 24 || n = 0 || mfKwOk fmt n)
  let size := s.wldSize c0.core fmt ck bank off.toNat n
  let st : Option Nat :=
    if kw.isNone then some cRANGE
    else if !wordsOk then some cRANGE
    else if n = 0 then some cNOOP
    else if 24 ≤ fmt then some cFORMAT
    else if !mfKwOk fmt n || off.toNat % 64 ≠ 0 || 2 ^ 20 ≤ off.toNat || (ck ≠ 2 && 2 ^ 20 < off.toNat + size) then some cRANGE
    else none
  s.pushMatrix { c0 with
    k := .wld fmt ck bank off.toNat n
    unit := bank
    status := st
    decl := if known && n = 0 then some 0 else if known && fmt < 24 then some size else none } none

/-- An MMA or MMS (R257, R258). Its declared bytes wait for a Kw (R252). -/
def State.pushMma (s : State) (c0 : Cmd) (wordsOk sparse : Bool) (fmt stride : Nat) (off : Word) (cnt : Option Nat)
    (mets : List Word) : State :=
  let n := cnt.getD 65
  let st : Option Nat :=
    if 64 < n || !wordsOk then some cRANGE
    else if n = 0 then some cNOOP
    else none
  s.pushMatrix { c0 with
    k := .mma sparse fmt stride off.toNat n mets
    unit := c0.g
    status := st } (some .write)

/-- The `m` registers of a warp, `m0` first (R258). -/
def State.mRegs (s : State) (k : Nat) : List Word :=
  match s.warpAt k with
  | some w => (List.range 8).map w.mGet
  | none => List.replicate 8 0

/-- A matrix word waits for room only where its block has the engine. -/
def State.engineRoomy (s : State) (blk : Nat) : Bool := s.holdsEngine blk

/-- The count word a push reads. -/
def countRead (cw : Bool) (v : Word) : List (Word × Nat) := if cw then [(v, 4)] else []

/-- A command with its op, record bit, arrival word and release word. -/
def State.named (s : State) (c : Cmd) (op : Nat) (rcd : Bool) (arr : Spec × Word) (rel : Spec × Word) : Cmd :=
  { c with op := op, rcd := rcd, arr := (s.wordOf c.blk arr.1 arr.2).2, rel := (s.wordOf c.blk rel.1 rel.2).2 }

/-- Both optional words are usable. -/
def State.wordsOk (s : State) (c : Cmd) (arr : Spec × Word) (rel : Spec × Word) : Bool :=
  (s.wordOf c.blk arr.1 arr.2).1 && (s.wordOf c.blk rel.1 rel.2).1

def planWld (m : WldMod) (o : Slots) : PushPlan :=
  { port := .mx, once := true, reads := fun _ _ v t => countRead m.cw (v.gb t), roomy := State.engineRoomy,
    cmd := fun s c v t => { s.named c 0x04 m.rcd (o.c, v.gc t) (o.d, v.gd t) with unit := bit m.bank },
    push := fun s c v t =>
      s.pushWld c (s.wordsOk c (o.c, v.gc t) (o.d, v.gd t)) m.fmt.val m.ck.val (bit m.bank) (v.ga t)
        (s.countOf c.blk m.cw true (v.gb t)) }

/-- The metadata a command captured as it was issued (R258). -/
def CmdK.mets : CmdK → List Word
  | .mma _ _ _ _ _ mets => mets
  | _ => []

def planMul (sparse : Bool) (m : MmaMod) (o : Slots) : PushPlan :=
  { port := .mx, once := true, reads := fun _ _ v t => countRead m.cw (v.gb t), roomy := State.engineRoomy,
    cmd := fun s c v t => { s.named c (if sparse then 0x08 else 0x06) m.rcd (o.c, v.gc t) (o.d, v.gd t) with
      g := m.g.toNat, unit := m.g.toNat, k := .mma sparse m.fmt.val m.stride.toNat 0 0 (s.mRegs c.warp) },
    push := fun s c v t =>
      s.pushMma c (s.wordsOk c (o.c, v.gc t) (o.d, v.gd t)) sparse m.fmt.val m.stride.toNat (v.ga t)
        (s.countOf c.blk m.cw true (v.gb t)) c.k.mets }

def planAclr (m : AclrMod) : PushPlan :=
  { port := .mx, once := true, reads := fun _ _ _ _ => [], roomy := State.engineRoomy,
    cmd := fun _ c _ _ => { c with op := 0x09, g := m.g.toNat, k := .aclr m.long },
    push := fun s c _ _ => if !s.holdsEngine c.blk then s else s.pushMatrix c (some (.clear m.long)) }

/-- WLD (R256). -/
def execWld (x : Ctl) (m : WldMod) (o : Slots) (s : State) : Host.Outcome State Fault Refusal :=
  pushWord (.wld x m o) x [o.a, o.b, o.c, o.d] o (planWld m o) s
/-- MMA (R257). -/
def execMma (x : Ctl) (m : MmaMod) (o : Slots) (s : State) : Host.Outcome State Fault Refusal :=
  pushWord (.mma x m o) x [o.a, o.b, o.c, o.d] o (planMul false m o) s
/-- MMS (R258); it reads `m0` to `m7`. -/
def execMms (x : Ctl) (m : MmaMod) (o : Slots) (s : State) : Host.Outcome State Fault Refusal :=
  pushWord (.mms x m o) x ([o.a, o.b, o.c, o.d] ++ (List.range 8).map (fun i => Spec.m (Fin.ofNat 8 i))) o (planMul true m o) s
/-- ACLR (R260). -/
def execAclr (x : Ctl) (m : AclrMod) (o : Slots) (s : State) : Host.Outcome State Fault Refusal :=
  pushWord (.aclr x m o) x [] o (planAclr m) s

end Sys2Proof.Machine
end

