-- ==== Sys2Proof/Machine/MatrixOps.lean ====
section
/-! DEFINITION. MatrixOps.lean: the steps of the matrix queue and the collector (R241-R247, R249-R260). -/

namespace Sys2Proof.Machine

/-- Change a core's matrix engine. -/
def State.setMatrix (s : State) (core : Nat) (f : Matrix → Matrix) : State :=
  let x := s.coreAt core
  s.putCore core { x with matrix := f x.matrix }

/-- The command that heads a core's matrix queue: the first that has not started. -/
def State.mxHead (s : State) (core : Nat) : Option Cmd := (s.queue core .mx).find? (fun c => !c.started)

/-! ## WLD (R241, R242, R256) -/

/-- WLD_FILL_START: the head's fill begins once no earlier fill is in progress, its set's wait as standby included. -/
def execWldFillStart (core : Nat) (s : State) : Host.Outcome State Fault Refusal :=
  .next (match s.mxHead core with
    | none => s
    | some c =>
      let m := (s.coreAt core).matrix
      match c.k with
      | .wld .. =>
        if c.status.isNone && s.free c && m.filling.isNone && m.standby.isNone then
          (s.putCmd { c with started := true }).setMatrix core (fun y => { y with filling := some c.id })
        else s
      | _ => s)

/-- An S24 nibble whose first index is not below its second. -/
def badNibble (nib : Nat) : Bool := nib / 4 % 4 ≤ nib % 4

/-- The set a tile expands into (R242). -/
def fillSet (rd : Nat → Nat) (id fmt ck kw : Nat) : WSet :=
  let pos := (List.range kw).flatMap (fun k => (List.range 256).map (fun n => (k, n)))
  let base := tileBytes rd fmt ck kw
  { wld := id, fmt := fmt, kw := kw,
    elems := pos.foldl (fun acc p => Sparse.set 0 acc (256 * p.1 + p.2) (tileElem rd fmt ck kw p.1 p.2)) [],
    scales := if isMX fmt then
        (List.range (kw / 32 * 256)).foldl (fun acc i => Sparse.set 0 acc i (rd (base + i))) []
      else [] }

/-- WLD_FILL_COMPLETE: the fill ends; the WLD completes, with METADATA or RANGE where its tile is bad, and then leaves both
sets as they were. -/
def execWldFillComplete (core : Nat) (s : State) : Host.Outcome State Fault Refusal :=
  let m := (s.coreAt core).matrix
  .next (match m.filling.bind s.cmdAt with
    | none => s
    | some c =>
      match c.k with
      | .wld fmt ck bank off kw =>
        let rd := m.tileByte bank off
        let size := tileSize rd fmt ck kw
        let nibs := kw / 2 * 32 * mfBits fmt
        let st := if 2 ^ 20 < off + size then cRANGE
          else if ck = 1 && (List.range (kw / 4 * 256)).any (fun i => badNibble (rd (nibs + i / 2) / 16 ^ (i % 2) % 16))
            then cMETADATA
          else cDONE
        let s1 := s.setMatrix core (fun y => { y with
          filling := none
          standby := if st = cDONE then some (fillSet rd c.id fmt ck kw) else none })
        s1.endCmd { c with decl := some size } st size true
      | _ => s)

/-- WEIGHT_EXCHANGE: the filled set becomes active once every command before its WLD has entered the array. -/
def execWeightExchange (core : Nat) (s : State) : Host.Outcome State Fault Refusal :=
  .next (match (s.coreAt core).matrix.standby with
    | none => s
    | some w =>
      if (s.queue core .mx).all (fun c => w.wld < c.id || c.started) then
        s.setMatrix core (fun y => { y with active := some w, standby := none })
      else s)

/-! ## Multiply commands (R245, R249, R257-R259) -/

/-- The A format of a multiply and its rows. -/
def mulFmt : CmdK → Option (Nat × Nat)
  | .mma _ fmt _ _ c _ => some (fmt, c)
  | .mmr fmt c _ _ => some (fmt, c)
  | _ => none

/-- Bytes of a row of A in scratchpad (Table 16.6). -/
def rowBytes (sparse : Bool) (fmt kw : Nat) : Nat :=
  kw * mfBits fmt / (if sparse then 16 else 8) + (if isMX fmt then kw / 32 else 0)

/-- Registers a thread delivers (R247): the held width and how many. -/
def heldBits (fmt : Nat) : Nat := if mfBits fmt = 6 then 8 else mfBits fmt
def mmrRegs (fmt kw : Nat) : Nat := Nat.max 1 ((kw * heldBits fmt + 2047) / 2048)

/-- The row stride in bytes (R257, Table 16.9). -/
def rowStride (sparse : Bool) (fmt kw stride : Nat) : Nat :=
  if stride = 0 then (rowBytes sparse fmt kw + 15) / 16 * 16 else 16 * stride

/-- The bytes a multiply counts with a Kw (Table 16.6). -/
def mulBytes (k : CmdK) (kw : Nat) : Nat :=
  match k with
  | .mma sparse fmt _ _ c _ => c * rowBytes sparse fmt kw
  | .mmr fmt c _ _ => c * 256 * mmrRegs fmt kw
  | _ => 0

/-- The nibble of group `j` of MMS's metadata (R258). -/
def metNibble (mets : List Word) (j : Nat) : Nat := (mets.getD (j / 16) 0).toNat / 16 ^ (j % 16) % 16

/-- The status a multiply meets at its start with the active weights, or none (R243, R247, R249, R257, R258). -/
def State.mulCheck (s : State) (c : Cmd) (w : WSet) : Option Nat :=
  let long := match (s.blockAt c.blk).bind (fun b => b.tileAt c.g) with | some t => t.long | none => false
  let size := match s.blockAt c.blk with | some b => s.bankBytes b | none => 0
  match mulFmt c.k with
  | none => none
  | some (fmt, cnt) =>
    if 24 ≤ fmt || !mfSideA fmt || (fmt = 15 && w.fmt = 15) then some cFORMAT
    else
      match c.k with
      | .mma sparse _ stride off _ mets =>
        let st := rowStride sparse fmt w.kw stride
        if (mfLong fmt || mfLong w.fmt) && !long then some cTILE
        else if sparse && 512 < w.kw then some cRANGE
        else if off % 16 ≠ 0 || st < rowBytes sparse fmt w.kw || size < off + st * (cnt - 1) + rowBytes sparse fmt w.kw then
          some cRANGE
        else if sparse && (List.range (w.kw / 4)).any (fun j => badNibble (metNibble mets j)) then some cMETADATA
        else none
      | .mmr _ _ scales _ =>
        if rowBeats fmt w.fmt w.kw ≠ 1 then some cFORMAT
        else if (mfLong fmt || mfLong w.fmt) && !long then some cTILE
        else if isMX fmt && size < scales + cnt * (w.kw / 32) then some cRANGE
        else none
      | _ => none

/-- MATRIX_COMMAND_START: a multiply that heads the queue starts once the weights of the latest WLD before it are
active. -/
def execMatrixCommandStart (core : Nat) (s : State) : Host.Outcome State Fault Refusal :=
  .next (match s.mxHead core with
    | none => s
    | some c =>
      let m := (s.coreAt core).matrix
      if (mulFmt c.k).isNone || c.status.isSome || !s.free c || m.filling.isSome || m.standby.isSome then s
      else
        match m.active with
        | none => s.putCmd { c with started := true, status := some cNOWT }
        | some w => s.putCmd { c with started := true, wset := some w, status := s.mulCheck c w })

/-- Codes of a delivered row (R247): element `i` is in register `i / e mod v` of thread `i / (v·e)`. -/
def deliveredCode (fmt v : Nat) (row : List Word) (i : Nat) : Nat :=
  let b := heldBits fmt
  let e := 64 / b
  (row.getD (v * (i / (v * e)) + i / e % v) 0).toNat / 2 ^ (b * (i % e)) % 2 ^ mfBits fmt

/-- Scale a row's elements by block where the format has scales. -/
def scaledRow (fmt : Nat) (sc : Nat → Nat) (vals : List FVal) : List FVal :=
  if isMX fmt then (List.range vals.length).map (fun k => (vals.getD k (.fin false 0 0)).scaled (sc (k / 32))) else vals

/-- Row `m` of A as values (R257-R259), or the error its read meets. -/
def State.rowOfA (s : State) (c : Cmd) (w : WSet) (m : Nat) : Except EngErr (List FVal) :=
  match c.k with
  | .mma sparse fmt stride off _ mets =>
    let n := rowBytes sparse fmt w.kw
    match s.loadS c.blk (off + rowStride sparse fmt w.kw stride * m : Nat) n with
    | .error (.uce v) => .error (.page causeUCE v false false)
    | .error _ => .error (.stop cRANGE)
    | .ok bs =>
      let rd (i : Nat) : Nat := (bs.getD i 0).toNat
      let b := mfBits fmt
      let code (i : Nat) : Nat := streamBits rd (b * i) b
      let sc (j : Nat) : Nat := rd (w.kw * b / (if sparse then 16 else 8) + j)
      let at_ (k : Nat) : FVal :=
        if sparse then
          let nib := metNibble mets (k / 4)
          if k % 4 = nib % 4 then mfValue fmt (code (2 * (k / 4)))
          else if k % 4 = nib / 4 then mfValue fmt (code (2 * (k / 4) + 1))
          else .fin false 0 0
        else mfValue fmt (code k)
      .ok (scaledRow fmt sc ((List.range w.kw).map at_))
  | .mmr fmt _ scales parts =>
    match parts.find? (fun p => p.lane = m) with
    | none => .error (.stop cMISMATCH)
    | some p =>
      let v := mmrRegs fmt w.kw
      let row := p.row.getD []
      let vals := (List.range w.kw).map (fun k => mfValue fmt (deliveredCode fmt v row k))
      if isMX fmt then
        match s.loadS c.blk (scales + m * (w.kw / 32) : Nat) (w.kw / 32) with
        | .ok bs => .ok (scaledRow fmt (fun j => (bs.getD j 0).toNat) vals)
        | .error (.uce u) => .error (.page causeUCE u false false)
        | .error _ => .error (.stop cRANGE)
      else .ok vals
  | _ => .ok []

/-- A row of a collector command has been delivered; rows of the others come from scratchpad. -/
def Cmd.rowReady (c : Cmd) : Bool :=
  match c.k with
  | .mmr _ _ _ parts => parts.any (fun p => p.lane = c.row && p.row.isSome)
  | _ => true

/-- Every row of a multiply has retired. -/
def Cmd.rowsDone (c : Cmd) : Bool :=
  match mulFmt c.k with
  | some (_, n) => n ≤ c.row
  | none => false

/-- ROW_RETIRE: the next row's products enter the tile. Rows retire in the order they entered the array, and after every
earlier clear of the tile (R245, R257, R260). -/
def execRowRetire (core cmd : Nat) (s : State) : Host.Outcome State Fault Refusal :=
  .next (match (s.queue core .mx).find? (fun c => c.id = cmd), (s.blockAt ((s.cmdAt cmd).elim 0 (·.blk))) with
    | some c, some b =>
      match c.wset, b.tileAt c.g with
      | some w, some t =>
        if !c.started || c.status.isSome || c.fault.isSome || c.rowsDone || !c.rowReady ||
          !s.earlier c (fun y => (mulFmt y.k).isNone || y.status.isSome || y.rowsDone) ||
          !s.earlier c (fun y => match y.k with | .aclr _ => y.blk ≠ c.blk || y.g ≠ c.g | _ => true) then s
        else
          match s.rowOfA c w c.row with
          | .error e => s.engFault c e
          | .ok a =>
            let c1 := { c with row := c.row + 1 }
            let s1 := (s.putBlock c.blk (b.putTile (t.enterRow s.freeCtr c.row w a))).putCmd c1
            if c1.rowsDone then s1.readerDone c1 else s1
      | _, _ => s
    | _, _ => s)

/-- The Kw of the latest WLD before a command at the head of the queue. -/
def State.latestKw (s : State) (core : Nat) : Option Nat :=
  let m := (s.coreAt core).matrix
  match m.standby with
  | some w => some w.kw
  | none =>
    match m.filling.bind s.cmdAt with
    | some c => (match c.k with | .wld _ _ _ _ kw => some kw | _ => none)
    | none => m.active.map (·.kw)

/-- Let the participants of a collector command that delivers nothing go on. -/
def State.freeParts (s : State) (c : Cmd) : State :=
  match c.k with
  | .mmr _ _ _ parts => parts.foldl (fun st p =>
      match (st.warpAt p.warp).bind (fun w => w.splitAt p.split) with
      | some sp =>
        match sp.stop, p.row with
        | some (.mmr pend), none => (match pend.i with | .mmr x _ _ => st.seqAct p.warp p.split x.seq | _ => st)
        | _, _ => st
      | none => st) s
  | _ => s

/-- MATRIX_COMMAND_COMPLETE: the rows of a multiply have retired, or a marked or faulted command heads the queue. -/
def execMatrixCommandComplete (core cmd : Nat) (s : State) : Host.Outcome State Fault Refusal :=
  .next (match (s.queue core .mx).find? (fun c => c.id = cmd) with
    | none => s
    | some c =>
      let kw := match c.wset with | some w => some w.kw | none => s.latestKw core
      let decl := match mulFmt c.k with
        | some (fmt, n) => if 64 < n || c.status = some cNOWT then none else if n = 0 then some 0
            else if 24 ≤ fmt then none else kw.map (mulBytes c.k)
        | none => c.decl
      match c.status with
      | some st =>
        if c.fault.isNone && (c.started || ((s.mxHead core).any (fun y => y.id = cmd) && s.free c)) then
          ((s.tileDone c).endCmd { c with decl := decl } st 0 (decide (st = cNOOP))).freeParts c
        else s
      | none =>
        if c.started && c.rowsDone then (s.tileDone c).endCmd c cDONE (decl.getD 0) true else s)

/-! ## ACLR (R260) -/

/-- ACLR_START: the head's clear starts once every writer pushed to the tile before it has completed. -/
def execAclrStart (core : Nat) (s : State) : Host.Outcome State Fault Refusal :=
  .next (match s.mxHead core with
    | none => s
    | some c =>
      match c.k, s.blockAt c.blk with
      | .aclr _, some b =>
        match b.tileAt c.g with
        | some t =>
          if c.status.isNone && s.free c && t.writers.all (fun i => c.id ≤ i) then
            (s.putBlock c.blk (b.putTile { t with elems := [] })).putCmd { c with started := true }
          else s
        | none => s
      | _, _ => s)

/-- ACLR_CLEAR_COMPLETE. -/
def execAclrClearComplete (core cmd : Nat) (s : State) : Host.Outcome State Fault Refusal :=
  .next (match (s.queue core .mx).find? (fun c => c.id = cmd) with
    | none => s
    | some c =>
      match c.k with
      | .aclr _ => if c.started && c.status.isNone then (s.tileDone c).endCmd c cDONE 0 false else s
      | _ => s)

/-! ## The collector (R246, R247, R259) -/

/-- A collector command has its leader and every lane below its count. -/
def Form.complete (f : Form) : Bool := f.op.isSome && (List.range f.c).all (fun l => f.parts.any (fun p => p.lane = l))

/-- A participant named something other than the leader did. -/
def Form.mismatch (f : Form) : Bool :=
  match f.parts.find? (fun p => p.lane = 0) with
  | none => true
  | some y => f.parts.any (fun p => p.g ≠ y.g || p.fmt ≠ y.fmt || p.c ≠ y.c)

/-- Push the oldest complete collector command of a core, if the queue has room. -/
def State.pushForm (s : State) (core : Nat) : State :=
  match (s.coreAt core).matrix.forms.find? Form.complete with
  | none => s
  | some f =>
    match f.op with
    | none => s
    | some c =>
      if !s.roomIn core .mx 1 then s
      else
        let s1 := s.setMatrix core (fun y => { y with forms := y.forms.erase f })
        let k1 := match c.k with | .mmr fmt n sc _ => CmdK.mmr fmt n sc f.parts | y => y
        s1.pushMatrix { c with k := k1, status := if f.mismatch then some cMISMATCH else c.status } (some .write)

/-- Join the oldest command of a group that the lane has not yet joined, or begin one. -/
def joinForms (blk grp : Nat) (p : Part) (lead : Option Cmd) : List Form → List Form
  | [] => [{ blk := blk, grp := grp, op := lead, c := p.c, parts := [p] }]
  | f :: rest =>
    if f.blk = blk && f.grp = grp && !f.parts.any (fun y => y.lane = p.lane) then
      { f with parts := f.parts ++ [p], op := if lead.isSome then lead else f.op, c := if lead.isSome then p.c else f.c } :: rest
    else f :: joinForms blk grp p lead rest

/-- MMR (R246, R247, R259). -/
def execMmr (x : Ctl) (m : MmrMod) (o : Slots) (s : State) : Host.Outcome State Fault Refusal :=
  splitWord x {} [o.a, o.b, o.c, o.d] o (fun s0 k p T0 v =>
    let r := s0.illegalOp k T0
    let T := r.2
    let s := r.1
    let t := T.lowest.getD 0
    let blk := s.blkOf k
    let core := keyCore k
    let lane := keyLane k
    let arr := s.wordOf blk o.c (v.gc t)
    let cnt := s.countOf blk m.cw true (v.gb t)
    let n := cnt.getD 65
    let reg := match o.a with | .d i => i.val | _ => 0
    let c0 := { s.newCmd k p.id .mx 0x07 m.rcd arr.2 none (.mmr m.fmt.val n (v.gd t).toNat []) with
      g := m.g.toNat, unit := m.g.toNat, status := if arr.1 then none else some cRANGE }
    let now (st : Nat) : State :=
      ((s.pushCmd c0).endCmd { c0 with id := s.nextUid } st 0 true).seqAct k p.id x.seq
    if T = 0 then s.seqAct k p.id x.seq
    else if (s.badRead blk (countRead m.cw (v.gb t))).isSome then
      s.takeTrap k p.id { cause := tUCE, mask := BitVec.ofNat 32 (2 ^ t), addr := v.gb t }
    else if !s.holdsEngine blk then now cNOMATRIX
    else if 64 < n then (if lane = 0 then now cRANGE else s.seqAct k p.id x.seq)
    else if n ≤ lane then (if lane = 0 then now cNOOP else s.seqAct k p.id x.seq)
    else
      let part : Part := {
        lane := lane, warp := k, split := p.id, reg := reg, mask := T, g := m.g.toNat, fmt := m.fmt.val, c := n, row := none }
      let s1 := s.setMatrix core (fun y => { y with
        forms := joinForms blk m.grp.val part (if lane = 0 then some c0 else none) y.forms })
      (s1.stopSplit k p.id (.mmr { i := .mmr x m o, T := T, ops := v })).pushForm core) s

/-- A lane that a formed collector command waits for issues nothing, whether or not the queue has had room for the command
(R246, R247). -/
def State.laneHeld (s : State) (core lane : Nat) : Bool :=
  (s.coreAt core).matrix.forms.any (fun f => f.complete && decide (lane < f.c)) ||
  (s.queue core .mx).any (fun c => c.status.isNone && (match c.k with
    | .mmr _ _ _ parts => parts.any (fun p => p.lane = lane && p.row.isNone)
    | _ => false))

/-- The registers a thread delivers; one past `d63` holds nothing the spec names. -/
def State.deliverRow (s : State) (w : Warp) (p : Part) (v : Nat) : List Word :=
  (List.range 32).flatMap (fun t => (List.range v).map (fun i =>
    if !(p.mask.has t && !w.exited.has t) then 0
    else if p.reg + i < 64 then w.dGet (p.reg + i) t
    else Config.freeWord (s.freeCtr + 64 * t + i)))

/-- COLLECTOR_DELIVERY: a lane delivers its row and its split goes on. -/
def execCollectorDelivery (core lane : Nat) (s : State) : Host.Outcome State Fault Refusal :=
  let due (c : Cmd) : Option (Cmd × Part × Nat × WSet) :=
    match c.k, c.wset with
    | .mmr fmt n _ parts, some w =>
      if c.started && c.status.isNone && lane < n then
        (parts.find? (fun p => p.lane = lane && p.row.isNone)).map (fun p => (c, p, fmt, w))
      else none
    | _, _ => none
  .next (match (s.queue core .mx).findSome? due with
    | none => s
    | some (c, p, fmt, w) =>
      match s.warpAt p.warp with
      | none => s
      | some wp =>
        let row := s.deliverRow wp p (mmrRegs fmt w.kw)
        let give (q : Part) : Part := if q.lane = lane then { q with row := some row } else q
        let k1 := match c.k with | .mmr f n sc ps => CmdK.mmr f n sc (ps.map give) | y => y
        let s1 := s.putCmd { c with k := k1 }
        match (wp.splitAt p.split).bind (fun sp => sp.stop) with
        | some (.mmr pend) => (match pend.i with | .mmr x _ _ => s1.seqAct p.warp p.split x.seq | _ => s1)
        | _ => s1)

end Sys2Proof.Machine
end

