-- ==== Sys2Proof/Machine/Epilogue.lean ====
section
/-! DEFINITION. Epilogue.lean: EPI and the epilogue engine (R79, R86, R261-R263). -/

namespace Sys2Proof.Machine

/-! ## The descriptor (Tables 16.10, 16.11) -/

/-- Fields of `ectl`. -/
def edDsp (d : List Byte) : Nat := fld d 0 4 / 2 ^ 15 % 2
def edRsf (d : List Byte) : Bool := fld d 0 4 / 2 ^ 14 % 2 = 1
def edCsf (d : List Byte) : Bool := fld d 0 4 / 2 ^ 13 % 2 = 1
def edBsf (d : List Byte) : Bool := fld d 0 4 / 2 ^ 12 % 2 = 1
def edAct (d : List Byte) : Nat := fld d 0 4 / 2 ^ 9 % 8
def edRm (d : List Byte) : Nat := fld d 0 4 / 2 ^ 6 % 8
def edOfmt (d : List Byte) : Nat := fld d 0 4 / 2 ^ 3 % 8

/-- Bytes of an output element (R262). -/
def outBytes (ofmt : Nat) : Nat := match ofmt with | 0 | 1 => 2 | 4 => 4 | 7 => 0 | _ => 1

/-- Bytes a row counts, scale bytes included (Table 16.6). -/
def outRow (ofmt : Nat) : Nat := 256 * outBytes ofmt + (if ofmt = 6 then 8 else 0)

/-- The CLAMP bounds are numbers in order. -/
def clampOk (d : List Byte) : Bool :=
  match fp32.value (fld d 0x10 4), fp32.value (fld d 0x14 4) with
  | .nan, _ => false
  | _, .nan => false
  | lo, hi => !FVal.lt hi lo

/-- A descriptor without an invalid value or a set reserved bit (R261). -/
def descOk (d : List Byte) : Bool :=
  fld d 0 4 / 2 ^ 16 = 0 && fld d 0 4 % 8 = 0 && (d.drop 0x30).all (· = 0) &&
  edAct d ≤ 4 && edRm d ≤ 5 && edOfmt d ≠ 7 &&
  256 * outBytes (edOfmt d) ≤ fld d 0x20 8 && fld d 0x20 8 % 16 = 0 &&
  (edAct d ≠ 4 || clampOk d)

/-- A scale or bias array the descriptor names lies aligned in the live bank (R261). -/
def State.arrayOk (s : State) (blk off n : Nat) (b16 : Bool) : Bool :=
  let w := if b16 then 2 else 4
  off = 0xFFFFFFFF || (off % w = 0 && (match s.blockAt blk with | some b => s.bankOk b off (n * w) | none => false))

def State.arraysOk (s : State) (blk : Nat) (d : List Byte) : Bool :=
  s.arrayOk blk (fld d 4 4) 64 (edRsf d) && s.arrayOk blk (fld d 8 4) 256 (edCsf d) && s.arrayOk blk (fld d 12 4) 256 (edBsf d)

/-- A `.s` destination lies in the live bank (R263). -/
def State.epiDstOk (s : State) (blk : Nat) (d : List Byte) (dst c : Nat) : Bool :=
  edDsp d = 0 ||
  (match s.blockAt blk with
   | some b => c = 0 || (s.bankOk b dst ((c - 1) * fld d 0x20 8 + 256 * outBytes (edOfmt d)) &&
       (edOfmt d ≠ 6 || s.bankOk b (fld d 0x28 8) (8 * c)))
   | none => false)

def planEpi (m : EpiMod) (o : Slots) : PushPlan :=
  { port := .ep, once := true, reads := fun _ _ v t => (v.ga t, 64) :: countRead m.cw (v.gc t), roomy := State.engineRoomy,
    cmd := fun s c v t => { s.named c 0x0A m.rcd (o.d, v.gd t) (.none, 0) with g := m.g.toNat, unit := m.g.toNat },
    push := fun s c0 v t =>
      let blk := c0.blk
      let cnt := s.countOf blk m.cw true (v.gc t)
      let n := cnt.getD 65
      let raw := if (v.ga t).toNat % 64 = 0 then s.bankAt blk (v.ga t) 64 else none
      let d := raw.getD []
      let st : Option Nat :=
        if raw.isNone || 64 < n || !s.wordsOk c0 (o.d, v.gd t) (.none, 0) then some cRANGE
        else if !descOk d then some cDESC
        else if n = 0 then some cNOOP
        else if !s.arraysOk blk d || !s.epiDstOk blk d (v.gb t).toNat n then some cRANGE
        else none
      let dst : Int := if edDsp d = 1 then (v.gb t).toNat else (v.gb t).toInt
      let c := { c0 with
        k := .epi d dst n
        decl := if 64 < n || raw.isNone || edOfmt d = 7 then (if n = 0 then some 0 else none) else some (n * outRow (edOfmt d)) }
      if !s.holdsEngine blk then (s.pushCmd c).endCmd { c with id := s.nextUid } cNOMATRIX 0 true
      else
        -- the tile closes whatever the command's own status is (R261)
        match s.blockAt blk with
        | none => s
        | some b =>
          match s.tilePush b c.g s.nextUid .close with
          | none => s.pushCmd { c with status := some cTILE }
          | some b1 => (s.putBlock blk b1).pushCmd { c with status := st, writes := true } }

/-- EPI (R261). -/
def execEpi (x : Ctl) (m : EpiMod) (o : Slots) (s : State) : Host.Outcome State Fault Refusal :=
  pushWord (.epi x m o) x [o.a, o.b, o.c, o.d] o (planEpi m o) s

/-! ## Resolving, scaling and activating (R86, R262, Table 16.12) -/

/-- An element's value. -/
def Elem.resolve (x : Elem) (long : Bool) : FVal :=
  if long then
    if x.nan || (x.pinf && x.ninf) then .nan
    else if x.pinf then .inf false
    else if x.ninf then .inf true
    else .fin (decide (x.val < 0)) x.val.natAbs (-280)
  else if x.val = shortNaN then .nan
  else if x.val = shortPInf then .inf false
  else if x.val = shortNInf then .inf true
  else .fin (decide (x.val < 0)) x.val.natAbs (-48)

/-- A term as a value. -/
def Term1.fval : Term1 → FVal
  | .nan => .nan
  | .inf n => .inf n
  | .fin _ v => .fin (decide (v.m < 0)) v.m.natAbs v.e

/-- Exact product and sum of values; the flag says that a NaN was created (R62). -/
def FVal.times (a b : FVal) : FVal × Bool := let p := FVal.mul a b; (p.1.fval, p.2)
def FVal.plus (a b : FVal) : FVal × Bool :=
  match a, b with
  | .nan, _ => (.nan, false)
  | _, .nan => (.nan, false)
  | .inf s, .inf t => if s = t then (.inf s, false) else (.nan, true)
  | .inf s, _ => (.inf s, false)
  | _, .inf t => (.inf t, false)
  | .fin s m e, .fin t n g => ((Term1.fin false (Dy.add (.ofFin s m e) (.ofFin t n g))).fval, false)
def FVal.posZero (a : FVal) : FVal :=
  match a with
  | .fin _ 0 _ => .fin false 0 0
  | y => y

/-- Entry `i` of a scale or bias array of the live bank, or its default (Table 16.10). -/
def arrayEntry (b : Block) (off i : Nat) (b16 : Bool) (dflt : FVal) : FVal :=
  if off = 0xFFFFFFFF then dflt
  else if b16 then bf16.value (leNat (b.liveBytes (off + 2 * i) 2))
  else fp32.value (leNat (b.liveBytes (off + 4 * i) 4))

/-- e^-u in units of 2^-fixP for u = uf·2^-fixP ≥ 0, rounded up by more than the series can lose. -/
def expNegHi (uf : Nat) : Nat :=
  let y := uf * 2 ^ fixP / fixLn2
  let k := y / 2 ^ fixP
  let r := y % 2 ^ fixP
  -- 2^-y = 2^(1 - r) / 2^(k + 1)
  fixExp ((2 ^ fixP - r) * fixLn2 / 2 ^ fixP) / 2 ^ (k + 1) + 2 ^ 20

/-- A lower bound of x·σ(u) in magnitude, for x = m·2^e and u of x's sign: significand and exponent. `uf` is the magnitude
of u in units of 2^-fixP. -/
def sigmoidMag (neg : Bool) (m : Nat) (e : Int) (uf : Nat) : Nat × Int :=
  let one := 2 ^ fixP
  if uf < 2 ^ 40 then
    -- σ(u) is 1/2 but for less than 2^-340: above it for positive u, below it for negative
    if neg then (m * 2 ^ fixP - m - 1, e - 1 - fixP) else (m, e - 1)
  else if neg then
    -- σ(u) = E / (1 + E) with E = e^-|u|
    if 600 * one < uf then (1, e - 2000)
    else
      let hi := expNegHi uf
      let lo := hi - 2 ^ 21
      (m * (lo * one / (one + hi)), e - fixP)
  else (m * (one * one / (one + expNegHi uf)), e - fixP)

/-- |x| in units of 2^-fixP, capped so that its functions have reached their limits. -/
def fixMag (m : Nat) (e : Int) : Nat :=
  let cap := 2 ^ 40 * 2 ^ fixP
  if 400 < (Nat.log2 m : Int) + e then cap
  else
    let v := if 0 ≤ e + fixP then m * 2 ^ (e + fixP).toNat else m / 2 ^ (-(e + fixP)).toNat
    Nat.min v cap

/-- sqrt(2/π) in units of 2^-fixP. -/
def fixRootTwoOverPi : Nat := isqrt (2 * 2 ^ (3 * fixP) / fixPi)

/-- 2·sqrt(2/π)·(x + 0.044715·x³) in units of 2^-fixP. -/
def geluArg (xf : Nat) : Nat :=
  let one := 2 ^ fixP
  let cube := xf * xf / one * xf / one
  2 * fixRootTwoOverPi * (xf + 44715 * cube / 1000000) / one

/-- A faithfully rounded activation keeps its truncated magnitude and says that more lies below; the others are exact.
`created` says that the scales or the bias made a NaN of values that were none (R62). -/
structure Activated where
  v       : FVal
  sticky  : Bool
  created : Bool := false

/-- Apply an activation (Table 16.12). -/
def activate (d : List Byte) (x : FVal) : Activated :=
  let exact (v : FVal) : Activated := { v := v, sticky := false }
  match edAct d, x with
  | _, .nan => exact .nan
  | 0, x => exact x
  | 4, .inf neg => exact (fp32.value (fld d (if neg then 0x10 else 0x14) 4))
  | 4, x =>
    let lo := fp32.value (fld d 0x10 4)
    let hi := fp32.value (fld d 0x14 4)
    exact (if FVal.lt x lo then lo else if FVal.lt hi x then hi else x)
  | _, .inf neg => exact (if neg then .fin false 0 0 else .inf false)
  | 1, .fin neg m e => exact (if neg || m = 0 then .fin false 0 0 else .fin false m e)
  | a, .fin neg m e =>
    if m = 0 then exact (.fin false 0 0)
    else
      let xf := fixMag m e
      let r := sigmoidMag neg m e (if a = 2 then geluArg xf else xf)
      { v := .fin neg r.1 r.2, sticky := true }

/-! ## Rounding to the output (R65-R74, R79, R86) -/

/-- A rounding mode's code (Table 6.5). -/
def rmOf (n : Nat) : RMode :=
  match n with | 0 => .rne | 1 => .rz | 2 => .ru | 3 => .rd | 4 => .rna | _ => .rs

/-- The output format of a floating-point `ofmt`. -/
def outFmt (ofmt : Nat) : FFmt := match ofmt with | 0 => bf16 | 1 => fp16 | 2 => e4m3 | 3 => e5m2 | _ => fp32

/-- The draw of element (m, n) under RS (R262). -/
def epiDraw (d : List Byte) (m n : Nat) : Nat :=
  let sd := BitVec.ofNat 64 (fld d 0x18 8)
  let s0 := if sd = 0 then Config.rndSeed else sd
  (rndStep (s0 ^^^ BitVec.ofNat 64 (256 * m + n + 1))).toNat / 2 ^ 32

/-- How an element is rounded: in the mode, or to either neighbour after an approximate activation (R262). -/
def epiDec (d : List Byte) (m n : Nat) (y : Activated) : Dec :=
  if y.sticky then
    let key := match y.v with | .fin neg a e => 2 * a + (if neg then 1 else 0) + (e + 4000).toNat | _ => 0
    .pick (Config.freePick (20 + edAct d) (edOfmt d) key % 2 = 1)
  else .mode (rmOf (edRm d)) (epiDraw d m n)

/-- A magnitude rounded to an integer, saturating, with the flags of R69 and R74 (R86): `pick` chooses a neighbour of an
approximate value. -/
def epiInt (dec : Dec) (lo hi : Int) (v : FVal) (sticky : Bool) : Int × Flags :=
  match v with
  | .nan => (0, fInvalid)
  | .inf n => (if n then lo else hi, fInvalid)
  | .fin neg a e =>
    let n := if 0 ≤ e then a * 2 ^ e.toNat else a / 2 ^ (-e).toNat
    let rem := if 0 ≤ e then 0 else a % 2 ^ (-e).toNat
    let q := (n : Int) + Dec.inc dec neg n rem (-e).toNat sticky
    let r := if neg then -q else q
    let fl := flagIf (rem ≠ 0 || sticky) fInexact
    if r < lo then (lo, fInvalid ||| fl) else if hi < r then (hi, fInvalid ||| fl) else (r, fl)

/-- The bytes of an element under `ofmt` 0 to 5, with flags: BF16 and FP16 results flush (R72, R86). -/
def epiElem (d : List Byte) (m n : Nat) (y : Activated) : List Byte × Flags :=
  let dec := epiDec d m n y
  let inv := flagIf y.created fInvalid
  if edOfmt d = 5 then
    let r := epiInt dec (-128) 127 y.v y.sticky
    (leBytes 1 (ofInt 8 r.1), r.2 ||| inv)
  else
    let f := outFmt (edOfmt d)
    let flush := decide (edOfmt d ≤ 1)
    let r := match y.v with
      | .fin neg a e => f.round flush dec neg a e y.sticky
      | v => f.ofVal flush dec v
    (leBytes (outBytes (edOfmt d)) r.1, r.2 ||| inv)

/-- ⌊log2⌋ of a value's magnitude. -/
def FVal.exp2 (v : FVal) : Option Int :=
  match v with
  | .fin _ a e => if a = 0 then none else some ((Nat.log2 a : Int) + e)
  | _ => none

/-- A block of 32 values in MXINT8 (R79): its scale byte, its elements and the flags. R79 names no flag: an element that
saturates sets INVALID as a conversion to an integer does, and the block scale 0xFF sets none but that of a NaN the epilogue
itself created (DESIGN CHOICE, log entry 94). -/
def mxBlock (d : List Byte) (m n0 : Nat) (ys : List Activated) : Byte × List Byte × Flags :=
  let inv := flagIf (ys.any (·.created)) fInvalid
  if ys.any (fun y => match y.v with | .fin .. => false | _ => true) then (0xFF, List.replicate 32 0, inv)
  else
    let top := ys.foldl (fun (acc : Option Int) y =>
      match acc, FVal.exp2 y.v with
      | none, x => x
      | some a, some b => some (max a b)
      | some a, none => some a) none
    let ex : Int := match top with | none => -127 | some t => max (-127) (min 127 t)
    let out := (List.range ys.length).map (fun i =>
      match ys[i]? with
      | some y =>
        -- v / 2^ex in units of 2^-6, saturated to 127
        let v := match y.v with | .fin neg a e => FVal.fin neg a (e - ex + 6) | z => z
        epiInt (epiDec d m (n0 + i) y) (-127) 127 v y.sticky
      | none => (0, 0))
    (BitVec.ofInt 8 (ex + 127), out.map (fun r => BitVec.ofInt 8 r.1),
      out.foldl (fun f r => f ||| r.2) 0)

/-- The values a row holds before rounding (R262). -/
def epiRow (b : Block) (t : Tile) (d : List Byte) (m : Nat) : List Activated :=
  let rs := arrayEntry b (fld d 4 4) m (edRsf d) (.fin false 1 0)
  (List.range 256).map (fun n =>
    let x := (Sparse.get {} t.elems (256 * m + n)).resolve t.long
    let cs := arrayEntry b (fld d 8 4) n (edCsf d) (.fin false 1 0)
    let bi := arrayEntry b (fld d 12 4) n (edBsf d) (.fin false 0 0)
    let p := x.times rs
    let q := p.1.times cs
    let r := q.1.plus bi
    { activate d r.1.posZero with created := p.2 || q.2 || r.2 })

/-- A row's bytes, its scale bytes and its flags. -/
def epiBytes (b : Block) (t : Tile) (d : List Byte) (m : Nat) : List Byte × List Byte × Flags :=
  let ys := epiRow b t d m
  if edOfmt d = 6 then
    let bl := (List.range 8).map (fun j => mxBlock d m (32 * j) ((ys.drop (32 * j)).take 32))
    (bl.flatMap (fun r => r.2.1), bl.map (fun r => r.1), bl.foldl (fun f r => f ||| r.2.2) 0)
  else
    let el := (List.range 256).map (fun n => epiElem d m n (ys.getD n { v := .nan, sticky := false }))
    (el.flatMap (fun r => r.1), [], el.foldl (fun f r => f ||| r.2) 0)

/-- The descriptor's arrays hold damaged bytes (R304). -/
def State.arraysUce (s : State) (blk : Nat) (d : List Byte) : Option Word :=
  let hit (off n w : Nat) : Bool := off ≠ 0xFFFFFFFF && s.badS.any (fun e => e.1 = blk && off ≤ e.2 && e.2 < off + n * w)
  if hit (fld d 4 4) 64 (if edRsf d then 2 else 4) then some (BitVec.ofNat 64 (fld d 4 4))
  else if hit (fld d 8 4) 256 (if edCsf d then 2 else 4) then some (BitVec.ofNat 64 (fld d 8 4))
  else if hit (fld d 12 4) 256 (if edBsf d then 2 else 4) then some (BitVec.ofNat 64 (fld d 12 4))
  else none

/-- An EPI ends and frees its tile, with any status (Table 16.5). -/
def State.epiEnd (s : State) (c : Cmd) (st n : Nat) : State :=
  match s.blockAt c.blk with
  | none => s
  | some b => (if c.writes then s.putBlock c.blk (b.freeTile c.g) else s).endCmd c st n true

/-- EPI_DRAIN: the EPI that heads the epilogue queue stores its next row once its tile drains, or ends. A marked EPI ends
at the head without its tile. -/
def execEpiDrain (core : Nat) (s : State) : Host.Outcome State Fault Refusal :=
  .next (match (s.queue core .ep).head? with
    | none => s
    | some c =>
      match c.k, s.blockAt c.blk with
      | .epi d dst n, some b =>
        if !s.free c then s
        else if !c.writes then s.epiEnd c (c.status.getD cTILE) 0
        else
          match b.tileAt c.g with
          | none => s
          | some t =>
            if t.st ≠ .draining then s
            else
              match c.status with
              | some st => s.epiEnd c st 0
              | none =>
                if n ≤ c.row then s.epiEnd c cDONE (n * outRow (edOfmt d))
                else
                  match s.arraysUce c.blk d with
                  | some v => s.engFault { c with started := true } (.page causeUCE v false false)
                  | none =>
                    let m := c.row
                    let r := epiBytes b t d m
                    match s.engStore c (edDsp d) (dst + m * fld d 0x20 8) r.1 with
                    | (s1, .error e) => s1.engFault { c with started := true } e
                    | (s1, .ok _) =>
                      let mxs : Int := if edDsp d = 1 then fld d 0x28 8 else (BitVec.ofNat 64 (fld d 0x28 8)).toInt
                      let q := if r.2.1 = [] then (s1, Except.ok ()) else s1.engStore c (edDsp d) (mxs + 8 * m) r.2.1
                      match q with
                      | (s2, .error e) => s2.engFault { c with started := true } e
                      | (s2, .ok _) =>
                        s2.putCmd { c with started := true, row := m + 1, flags := Nat.lor c.flags (r.2.2.toNat % 256) }
      | _, _ => s)

end Sys2Proof.Machine
end

