-- ==== Sys2Proof/Machine/Copies.lean ====
section
/-! DEFINITION. Copies.lean: copies, patch gathers, gathers and scatters by index, and their steps (R128-R130, R265-R281,
R383, R384). -/

namespace Sys2Proof.Machine

/-! ## Records (Tables 18.5-18.7) -/

/-- A signed little-endian field. -/
def sfld (bs : List Byte) (off n : Nat) : Int := toInt true (8 * n) (fld bs off n)

/-- A shape record, when it is valid. -/
def Shape.ofBytes (r : List Byte) : Option Shape :=
  let rank := fld r 1 1
  let n : List Nat := fld r 4 4 :: (List.range 4).map (fun i => fld r (8 + 2 * i) 2)
  let ss := (List.range 4).map (fun i => sfld r (0x10 + 4 * i) 4)
  let ds := (List.range 4).map (fun i => sfld r (0x20 + 4 * i) 4)
  let dims := (List.range 5).all (fun i => if i < rank then n.getD i 0 ≠ 0 else n.getD i 0 = 0)
  let strides := (List.range 4).all (fun i => i + 1 < rank || (ss.getD i 0 = 0 && ds.getD i 0 = 0))
  if fld r 0 1 ≤ 3 && 1 ≤ rank && rank ≤ 5 && fld r 2 2 = 0 && dims && strides && (r.drop 0x30).all (· = 0) then
    some { esz := fld r 0 1, rank := rank, n := n, ss := ss, ds := ds }
  else none

/-- A follow-on record, when it is valid (Table 18.6). -/
def Follow.ofBytes (r : List Byte) (board : Bool) : Option Follow :=
  let fctl := fld r 3 1
  let word (off : Nat) : Option Nat := if fld r off 4 = 0xFFFFFFFF then none else some (fld r off 4)
  let kind := fld r 0 1
  if (kind = 2 || kind = 3 || (kind = 1 && !board)) && fld r 1 1 < 32 && fctl < 32 && (kind ≠ 1 || fctl / 4 % 4 ≠ 3) &&
    fld r 0xC 2 < 4096 && fld r 0xE 2 = 0 && fld r 0x1D 3 = 0 then
    some { kind := kind, fmt := fld r 1 1, g := fld r 2 1, rcd := fctl % 2 = 1, cw := fctl / 2 % 2 = 1, ck := fctl / 4 % 4,
           bank := fctl / 16 % 2, aoff := fld r 4 4, cnt := fld r 8 4, stride := fld r 0xC 2, arr := word 0x10,
           rel := word 0x14, da := sfld r 0x18 4, dg := sfld r 0x1C 1 }
  else none

/-- Bytes of an element of a form-A type. -/
def atyOf (code : Nat) : ATy :=
  match code with
  | 0 => .i32 | 1 => .n32 | 2 => .i64 | 3 => .n64 | 4 => .f32 | 5 => .f64 | 6 => .bf16 | _ => .f16

/-- An index record, when it is valid (Table 18.7). -/
def Index.ofBytes (r : List Byte) (sct : Bool) : Option Index :=
  let ix : Index := {
    tbase := BitVec.ofNat 64 (fld r 0 8), ilist := BitVec.ofNat 64 (fld r 8 8),
    jrnl := BitVec.ofNat 64 (fld r 0x10 8), tstride := fld r 0x18 4, rowb := fld r 0x1C 2, op := fld r 0x1E 1,
    aty := fld r 0x1F 1, imax := fld r 0x20 4 }
  let kind := if sct then
      ix.op ≤ 3 && ix.jrnl.toNat % 8 = 0 &&
      (if ix.op = 0 then ix.aty = 0 else ix.aty ≤ 7 && ix.rowb % Sys2Proof.ATy.bytes (atyOf ix.aty) = 0)
    else ix.op = 0 && ix.aty = 0 && ix.jrnl = 0
  if kind && ix.ilist.toNat % 4 = 0 && ix.tstride ≠ 0 && 1 ≤ ix.rowb && ix.rowb ≤ 4096 && (r.drop 0x24).all (· = 0) then
    some ix else none

/-- A record read at push: RANGE where it is misaligned or outside the bank, DESC where it is invalid (R268). -/
def State.recordAt {α : Type} (s : State) (blk : Nat) (v : Word) (n algn : Nat) (parse : List Byte → Option α) : Except Nat α :=
  if v.toNat % algn ≠ 0 then .error cRANGE
  else
    match s.bankAt blk v n with
    | none => .error cRANGE
    | some bs => match parse bs with | some x => .ok x | none => .error cDESC

/-! ## The bytes a copy moves (R273, R274) -/

/-- Extent of a dimension; the outermost runs to `c`. -/
def Shape.ext (h : Shape) (c i : Nat) : Nat := if i + 1 = h.rank then c else if i < h.rank then h.n.getD i 1 else 1

/-- Bytes of a tensor of `c` slices. -/
def Shape.bytes (h : Shape) (c : Nat) : Nat := 2 ^ h.esz * ((List.range 5).foldl (fun a i => a * h.ext c i) 1)

/-- Destination and source of every byte, in the order of the loops. -/
def Moves.list (m : Moves) : List (Int × Int) :=
  match m with
  | .run dst src n => (List.range n).map (fun (i : Nat) => (dst + i, src + i))
  | .tensor dst src h c =>
    (List.range (h.ext c 4)).flatMap (fun (i4 : Nat) => (List.range (h.ext c 3)).flatMap (fun (i3 : Nat) =>
      (List.range (h.ext c 2)).flatMap (fun (i2 : Nat) => (List.range (h.ext c 1)).flatMap (fun (i1 : Nat) =>
        let off (st : List Int) : Int :=
          (i1 : Int) * st.getD 0 0 + (i2 : Int) * st.getD 1 0 + (i3 : Int) * st.getD 2 0 + (i4 : Int) * st.getD 3 0
        (List.range (h.ext c 0 * 2 ^ h.esz)).map (fun (i : Nat) => (dst + i + off h.ds, src + i + off h.ss))))))

def Moves.count (m : Moves) : Nat := match m with | .run _ _ n => n | .tensor _ _ h c => h.bytes c

/-- An address of a space as a number: virtual addresses wrap. -/
def spaceAddr (sp : Nat) (a : Int) : Nat := if sp = 0 then (BitVec.ofInt 64 a).toNat else a.toNat

/-- Destination lines a copy has bytes on. -/
def moveLines (dsp : Nat) (m : Moves) : List Nat := (m.list.map (fun p => spaceAddr dsp p.1 / 64)).eraseDups

/-- Least and greatest offsets of a side of a copy lie in `[0, hi)`. -/
def movesIn (side : Int × Int → Int) (m : Moves) (hi : Nat) : Bool := m.list.all (fun p => 0 ≤ side p && side p < hi)

/-! ## Issue (R129, R265-R268) -/

/-- The status a copy is known to end with at push, apart from its records (R240, R267, R270, R273). -/
def State.copyStatus (s : State) (blk ssp dsp : Nat) (m : Moves) : Option Nat :=
  let bankSz := match s.blockAt blk with | some b => s.bankBytes b | none => 0
  if 2 ≤ dsp && !s.holdsEngine blk then some cNOMATRIX
  else if 2 ≤ dsp && !movesIn Prod.fst m (2 ^ 20) then some cRANGE
  else if dsp = 1 && !movesIn Prod.fst m bankSz then some cRANGE
  else if ssp = 1 && !movesIn Prod.snd m bankSz then some cRANGE
  else none

/-- The runs of bytes that a copy's source consists of: of a tensor, its rows. -/
def Moves.sources (m : Moves) : List (Int × Nat) :=
  match m with
  | .run _ src n => [(src, n)]
  | .tensor _ src h c =>
    (List.range (h.ext c 4)).flatMap (fun (i4 : Nat) => (List.range (h.ext c 3)).flatMap (fun (i3 : Nat) =>
      (List.range (h.ext c 2)).flatMap (fun (i2 : Nat) => (List.range (h.ext c 1)).map (fun (i1 : Nat) =>
        (src + (i1 : Int) * h.ss.getD 0 0 + (i2 : Int) * h.ss.getD 1 0 + (i3 : Int) * h.ss.getD 2 0 + (i4 : Int) * h.ss.getD 3 0,
         h.ext c 0 * 2 ^ h.esz)))))

/-- Publish the source of a copy, and nothing else (R110, R129). -/
def State.publishMoves (s : State) (core ssp : Nat) (m : Moves) : State :=
  if ssp ≠ 0 then s else m.sources.foldl (fun st r => st.publishRange core (BitVec.ofInt 64 r.1) r.2) s

/-- An address operand in a space. -/
def spaceInt (sp : Nat) (v : Word) : Int := if sp = 0 then v.toInt else v.toNat

/-- Pages of a copy's source that do not translate: their bytes are published when they do (R129). -/
def State.unmapped (s : State) (core ssp : Nat) (m : Moves) : List Nat :=
  if ssp ≠ 0 then []
  else
    let pages : List Nat := match m with
      | .run _ src n =>
        (List.range (n / 65536 + 2)).map (fun i => (BitVec.ofInt 64 src + BitVec.ofNat 64 (65536 * i)).toNat / 65536)
      | .tensor .. => (m.list.map (fun p => spaceAddr 0 p.2 / 65536)).eraseDups
    pages.filter (fun p => match (s.translate core .read (BitVec.ofNat 64 (65536 * p))).2 with
      | .ok _ => false
      | .error _ => true)

/-- Push a copy. A count of zero reads nothing more and is a no-op (R267); then come an invalid count, the records and the
ranges. `decl` are its declared bytes where its records say them (R384). -/
def State.pushCopy (s : State) (c : Cmd) (ssp dsp : Nat) (m : Moves) (cnt st0 decl : Option Nat) (fol : Option Follow) :
    State :=
  let st : Option Nat :=
    if cnt.isNone then some cRANGE
    else if cnt = some 0 then some cNOOP
    else match st0 with
      | some e => some e
      | none => s.copyStatus c.blk ssp dsp m
  let s1 := if st.isNone then s.publishMoves c.core ssp m else s
  s1.pushCmd { c with
    k := .copy ssp dsp m fol [] (if st.isNone then s.unmapped c.core ssp m else [])
    status := st
    decl := if cnt.isNone then none else if cnt = some 0 then some 0 else decl }

/-- The record a push reads, which a count of zero leaves unread (R267). -/
def recordRead (s : State) (blk : Nat) (cw : Bool) (cnt rec_ : Word) (n : Nat) : List (Word × Nat) :=
  countRead cw cnt ++ (if s.countOf blk cw false cnt = some 0 then [] else [(rec_, n)])

def cpySsp (m : CpyMod) : Nat := match m.ssp with | .g => 0 | .s => 1
def cpyDsp (m : CpyMod) : Nat := match m.dsp with | .g => 0 | .s => 1 | .b0 => 2 | .b1 => 3
def sspNum : SSp → Nat | .g => 0 | .s => 1

def planCpy (m : CpyMod) (o : Slots) : PushPlan :=
  { port := .cp, once := false, reads := fun _ _ v t => countRead m.cw (v.gc t),
    cmd := fun s c v t => s.named c 0x00 m.rcd (o.d, v.gd t) (.none, 0),
    push := fun s c v t =>
      let cnt := s.countOf c.blk m.cw false (v.gc t)
      s.pushCopy c (cpySsp m) (cpyDsp m) (.run (spaceInt (cpyDsp m) (v.ga t)) (spaceInt (cpySsp m) (v.gb t)) (cnt.getD 0)) cnt
        (if s.wordsOk c (o.d, v.gd t) (.none, 0) then none else some cRANGE) cnt none }

/-- An empty shape, for a command whose record is not usable. -/
def Shape.none : Shape := { esz := 0, rank := 1, n := [0, 0, 0, 0, 0], ss := [], ds := [] }

def planCpyt (m : CpyMod) (o : Slots) : PushPlan :=
  { port := .cp, once := false, reads := fun s blk v t => recordRead s blk m.cw (v.gd t) (v.gc t) 64,
    cmd := fun s c v t => s.named c 0x01 m.rcd (o.e, v.ge t) (.none, 0),
    push := fun s c v t =>
      let cnt := s.countOf c.blk m.cw false (v.gd t)
      let n := cnt.getD 0
      let dst := spaceInt (cpyDsp m) (v.ga t)
      let src := spaceInt (cpySsp m) (v.gb t)
      match s.recordAt c.blk (v.gc t) 64 64 Shape.ofBytes with
      | .error e => s.pushCopy c (cpySsp m) (cpyDsp m) (.tensor dst src Shape.none 0) cnt (some e) none none
      | .ok h =>
        -- a count above its limit is an invalid count
        let cnt1 := if h.n.getD (h.rank - 1) 0 < n then none else cnt
        let st0 := if !s.wordsOk c (o.e, v.ge t) (.none, 0) || 2 ^ 32 ≤ h.bytes n then some cRANGE else none
        s.pushCopy c (cpySsp m) (cpyDsp m) (.tensor dst src h n) cnt1 st0 (some (h.bytes n)) none }

def planCpym (m : CpyMod) (o : Slots) : PushPlan :=
  { port := .cp, once := false, reads := fun _ _ v t => countRead m.cw (v.gc t) ++ [(v.ge t, 32)],
    cmd := fun s c v t => s.named c 0x03 m.rcd (o.d, v.gd t) (.none, 0),
    push := fun s c v t =>
      let cnt := s.countOf c.blk m.cw false (v.gc t)
      let mv := Moves.run (spaceInt (cpyDsp m) (v.ga t)) (spaceInt (cpySsp m) (v.gb t)) (cnt.getD 0)
      match s.recordAt c.blk (v.ge t) 32 32 (fun bs => Follow.ofBytes bs false) with
      | .error e => s.pushCopy c (cpySsp m) (cpyDsp m) mv cnt (some e) none none
      | .ok f =>
        s.pushCopy c (cpySsp m) (cpyDsp m) mv cnt (if s.wordsOk c (o.d, v.gd t) (.none, 0) then none else some cRANGE) cnt
          (some f) }

/-- The status of a gather-engine command, from what is known at push. -/
def firstStatus (l : List (Bool × Nat)) : Option Nat := (l.find? (fun e => e.1)).map Prod.snd

/-- A `.s` range lies in the live bank. -/
def State.rangeOk (s : State) (blk sp : Nat) (off : Word) (n : Nat) : Bool :=
  sp ≠ 1 || (match s.blockAt blk with | some b => decide (off.toNat + n ≤ s.bankBytes b) | none => false)

def planCpyg (m : CpygMod) (o : Slots) : PushPlan :=
  { port := .ga, once := false, reads := fun _ _ v t => countRead m.cw (v.gc t),
    cmd := fun s c v t => s.named c 0x02 m.rcd (o.e, v.ge t) (.none, 0),
    push := fun s c v t =>
      let n := (s.countOf c.blk m.cw false (v.gc t)).getD 65537
      let total := n * m.pw.toNat * m.ph.toNat * 2 ^ m.esz.val
      let dsp := sspNum m.dsp
      let st := firstStatus [(65536 < n, cRANGE), (n = 0, cNOOP), (2 ^ 32 ≤ total || !s.wordsOk c (o.e, v.ge t) (.none, 0), cRANGE),
        ((v.gb t).toNat % 8 ≠ 0 || !s.rangeOk c.blk dsp (v.ga t) total, cRANGE)]
      s.pushCmd { c with
        k := .patch dsp m.esz.val m.pw.toNat m.ph.toNat (spaceInt dsp (v.ga t)) (v.gb t) n (v.gd t) none []
        status := st, decl := if 65536 < n then none else some total } }

/-- An empty index record, for a command whose own is not usable. -/
def Index.none : Index :=
  { tbase := 0, ilist := 0, jrnl := 0, tstride := 1, rowb := 1, op := 0, aty := 0, imax := 0 }

/-- GTH and SCT share their operands (R278, R279). -/
def planGather (sct : Bool) (m : GthMod) (o : Slots) : PushPlan :=
  { port := .ga, once := false, reads := fun s blk v t => recordRead s blk m.cw (v.gc t) (v.gb t) 64,
    cmd := fun s c v t => s.named c (if sct then 0x0D else 0x0C) m.rcd (o.d, v.gd t) (.none, 0),
    push := fun s c v t =>
      let n := (s.countOf c.blk m.cw false (v.gc t)).getD (2 ^ 24 + 1)
      let sp := sspNum m.sp
      let kd (ix : Index) (n : Nat) : CmdK :=
        if sct then .scatter sp (spaceInt sp (v.ga t)) ix n none else .gather sp (spaceInt sp (v.ga t)) ix n none
      let ends (st : Nat) (decl : Option Nat) : State :=
        s.pushCmd { c with k := kd Index.none 0, status := some st, decl := decl }
      if 2 ^ 24 < n then ends cRANGE none
      else if n = 0 then ends cNOOP (some 0)
      else
        match s.recordAt c.blk (v.gb t) 64 64 (fun bs => Index.ofBytes bs sct) with
        | .error e => ends e none
        | .ok ix =>
          let total := n * ix.rowb
          let st := firstStatus [(!s.wordsOk c (o.d, v.gd t) (.none, 0) || (!sct && 2 ^ 32 ≤ total), cRANGE),
            (!s.rangeOk c.blk sp (v.ga t) total, cRANGE)]
          s.pushCmd { c with
            k := kd ix n
            status := st
            decl := some total } }

/-- CPY (R273). -/
def execCpy (x : Ctl) (m : CpyMod) (o : Slots) (s : State) : Host.Outcome State Fault Refusal :=
  pushWord (.cpy x m o) x [o.a, o.b, o.c, o.d] o (planCpy m o) s
/-- CPYT (R274). -/
def execCpyt (x : Ctl) (m : CpyMod) (o : Slots) (s : State) : Host.Outcome State Fault Refusal :=
  pushWord (.cpyt x m o) x [o.a, o.b, o.c, o.d, o.e] o (planCpyt m o) s
/-- CPYM (R275). -/
def execCpym (x : Ctl) (m : CpyMod) (o : Slots) (s : State) : Host.Outcome State Fault Refusal :=
  pushWord (.cpym x m o) x [o.a, o.b, o.c, o.d, o.e] o (planCpym m o) s
/-- CPYG (R276). -/
def execCpyg (x : Ctl) (m : CpygMod) (o : Slots) (s : State) : Host.Outcome State Fault Refusal :=
  pushWord (.cpyg x m o) x [o.a, o.b, o.c, o.d, o.e] o (planCpyg m o) s
/-- GTH (R278). -/
def execGth (x : Ctl) (m : GthMod) (o : Slots) (s : State) : Host.Outcome State Fault Refusal :=
  pushWord (.gth x m o) x [o.a, o.b, o.c, o.d] o (planGather false m o) s
/-- SCT (R279). -/
def execSct (x : Ctl) (m : GthMod) (o : Slots) (s : State) : Host.Outcome State Fault Refusal :=
  pushWord (.sct x m o) x [o.a, o.b, o.c, o.d] o (planGather true m o) s

/-! ## The copy engine's order (this chapter's ordering; R294) -/

/-- Where a side of a copy lies: space and byte, `.g` bytes by the place they are held at. -/
def State.copySide (s : State) (c : Cmd) (dst : Bool) : List (Nat × Nat) :=
  match c.k with
  | .copy ssp dsp m .. =>
    let sp := if dst then dsp else ssp
    (m.list.map (fun p => spaceAddr sp (if dst then p.1 else p.2))).eraseDups.map (fun a =>
      if sp = 0 then
        match (s.translate c.core .read (BitVec.ofNat 64 a)).2 with
        | .ok (e, b) => (0, s.leafKey e b (BitVec.ofNat 64 a))
        | .error _ => (9, a)
      else if sp = 1 then (10 + c.blk, a)
      else (sp, a))
  | _ => []

/-- A later copy must wait for an earlier one: their ranges overlap other than source on source. -/
def State.copiesClash (s : State) (c e : Cmd) : Bool :=
  let ed := s.copySide e true
  let es := s.copySide e false
  (s.copySide c false).any ed.contains || (s.copySide c true).any (fun a => ed.contains a || es.contains a)

/-- Start the copies of a core that may start, in push order. -/
def State.startCopies (s : State) (core : Nat) : State :=
  ((s.queue core .cp).foldl (fun (acc : State × Bool) c =>
    if acc.2 then acc
    else if c.started then acc
    else if acc.1.free c && acc.1.earlier c (fun e => e.status.isSome || !acc.1.copiesClash c e) then
      (acc.1.putCmd { c with started := true }, false)
    else (acc.1, true)) (s, false)).1

/-- A range of a weight-buffer bank is busy with a WLD from its push until its fill ends (R294). -/
def State.wldBusy (s : State) (core bank off n : Nat) : Bool :=
  (s.queue core .mx).any (fun c => match c.k with
    | .wld fmt ck b o kw => c.status.isNone && b = bank && decide (o < off + n) && decide (off < o + s.wldSize core fmt ck b o kw)
    | _ => false)

/-- A range of a bank is busy with a copy; `before` limits the copies to those pushed earlier. -/
def State.copyBusy (s : State) (core bank off n : Nat) (before : Option Nat) : Bool :=
  (s.queue core .cp).any (fun c => match c.k with
    | .copy _ dsp m .. =>
      c.status.isNone && dsp = bank + 2 && (match before with | some i => decide (c.id < i) | none => true) &&
      m.list.any (fun p => (off : Int) ≤ p.1 && p.1 < off + n)
    | _ => false)

/-! ## Landing (R270, R273, R274) -/

/-- Source bytes read for a destination line: the last writer of each byte, read now or ahead. A source page that has come
to translate since the copy was issued is published as it is read (R129). -/
def State.lineBytes (s : State) (c : Cmd) (ssp : Nat) (pre : Sparse Byte) (unpub : List Nat) :
    List (Nat × Int) → State × Except EngErr (List (Nat × Byte))
  | [] => (s, .ok [])
  | (d, src) :: rest =>
    let r : State × Except EngErr Byte :=
      match Sparse.find pre d with
      | some b => (s, .ok b)
      | none =>
        let s0 := if ssp = 0 && unpub.contains (spaceAddr 0 src / 65536) then s.publishRange c.core (BitVec.ofInt 64 src) 1 else s
        match s0.engLoad c ssp src 1 false with
        | (s1, .ok bs) => (s1, .ok (bs.headD 0))
        | (s1, .error e) => (s1, .error e)
    match r with
    | (s1, .error e) => (s1, .error e)
    | (s1, .ok b) =>
      match s1.lineBytes c ssp pre unpub rest with
      | (s2, .ok l) => (s2, .ok ((d, b) :: l))
      | (s2, .error e) => (s2, .error e)

/-- The destination bytes of a line with the source each one ends with. -/
def lineMoves (dsp line : Nat) (m : Moves) : List (Nat × Int) × Nat :=
  let ps := (m.list.map (fun p => (spaceAddr dsp p.1, p.2))).filter (fun p => p.1 / 64 = line)
  (ps.foldl (fun (acc : List (Nat × Int)) p => acc.filter (fun q => q.1 ≠ p.1) ++ [p]) [], ps.length)

/-- The other bytes of the source groups that a destination line takes bytes of, where the same run of the copy carries them
to lines that have not landed: a group that is read is read once (R129). -/
def groupMates (c : Cmd) (ssp dsp line : Nat) (m : Moves) (pre : Sparse Byte) : List (Nat × Int) :=
  if ssp ≠ 0 then []
  else
    let mv := (lineMoves dsp line m).1
    ((m.list.map (fun p => (spaceAddr dsp p.1, p.2))).filter (fun p =>
      p.1 / 64 ≠ line && !c.landed.contains (p.1 / 64) && (Sparse.find pre p.1).isNone &&
      mv.any (fun q => spaceAddr 0 q.2 / 8 = spaceAddr 0 p.2 / 8 &&
        BitVec.ofNat 64 q.1 - BitVec.ofInt 64 q.2 = BitVec.ofNat 64 p.1 - BitVec.ofInt 64 p.2) &&
      (lineMoves dsp (p.1 / 64) m).1.contains p)).eraseDups

/-- Read what a destination line needs, with the rest of the source groups read for it: the line's bytes, and what has been
read ahead. -/
def State.readLine (s : State) (c : Cmd) (ssp dsp line : Nat) (m : Moves) (pre : Sparse Byte) (unpub : List Nat) :
    State × Except EngErr (List (Nat × Byte) × Sparse Byte) :=
  match s.lineBytes c ssp pre unpub (lineMoves dsp line m).1 with
  | (s1, .error e) => (s1, .error e)
  | (s1, .ok bytes) =>
    match s1.lineBytes c ssp pre unpub (groupMates c ssp dsp line m pre) with
    | (s2, .error e) => (s2, .error e)
    | (s2, .ok more) => (s2, .ok (bytes, more.foldl (fun a e => Sparse.put a e.1 e.2) pre))

/-- Before a run overwrites bytes that it has yet to read, those are read, with the rest of their 8-byte groups: every source
byte is read before any destination byte is written (R273), and a group that is read is read once (R129). -/
def State.saveSources (s : State) (c : Cmd) (ssp dsp line : Nat) (m : Moves) (pre : Sparse Byte) : State × Sparse Byte :=
  match m with
  | .tensor .. => (s, pre)
  | .run .. =>
    let place (sp a : Nat) : Option (Nat × Nat) :=
      if sp = 0 then
        match (s.translate c.core .read (BitVec.ofNat 64 a)).2 with
        | .ok (e, b) => some (0, s.leafKey e b (BitVec.ofNat 64 a))
        | .error _ => none
      else some (sp, a)
    let hit := (lineMoves dsp line m).1.filterMap (fun p => (place dsp p.1).map (fun y => (y.1, y.2 / 8)))
    m.list.foldl (fun (acc : State × Sparse Byte) p =>
      let d := spaceAddr dsp p.1
      if d / 64 = line || c.landed.contains (d / 64) || (Sparse.find acc.2 d).isSome then acc
      else
        match place ssp (spaceAddr ssp p.2) with
        | some y =>
          if hit.contains (y.1, y.2 / 8) then
            (match acc.1.engLoad c ssp p.2 1 false with
             | (s1, .ok bs) => (s1, Sparse.put acc.2 d (bs.headD 0))
             | (s1, .error _) => (s1, acc.2))
          else acc
        | none => acc) (s, pre)

/-- COPY_LANDING: one destination line of a copy in flight lands and is signalled. -/
def execCopyLanding (cmd line : Nat) (s0 : State) : Host.Outcome State Fault Refusal :=
  .next (match s0.cmdAt cmd with
    | none => s0
    | some y =>
      let s := s0.startCopies y.core
      match s.cmdAt cmd with
      | none => s0
      | some c =>
        match c.k with
        | .copy ssp dsp m fol pre unpub =>
          let mv := lineMoves dsp line m
          let busy := 2 ≤ dsp && mv.1.any (fun p =>
            s.wldBusy c.core (dsp - 2) p.1 1 || s.copyBusy c.core (dsp - 2) p.1 1 (some c.id))
          if !c.started || c.status.isSome || c.fault.isSome || c.landed.contains line || mv.1 = [] || busy then s0
          else
            match s.readLine c ssp dsp line m pre unpub with
            | (s1, .error e) => s1.engFault c e
            | (s1, .ok r) =>
              let w := s1.saveSources c ssp dsp line m r.2
              match w.1.engStoreLine c dsp r.1 with
              | (s2, .error e) => s2.engFault c e
              | (s2, .ok _) =>
                let y := s2.land { c with landed := line :: c.landed, k := .copy ssp dsp m fol w.2 unpub } mv.2
                y.1.putCmd y.2
        | _ => s0)

/-- Read ahead the source of one line of a copy in flight (R129). -/
def State.readAhead (s0 : State) (cmd line : Nat) : State :=
  match s0.cmdAt cmd with
  | none => s0
  | some y =>
    let s := s0.startCopies y.core
    match s.cmdAt cmd with
    | none => s0
    | some c =>
      match c.k with
      | .copy ssp dsp m fol pre unpub =>
        if !c.started || c.status.isSome || c.fault.isSome || c.landed.contains line then s0
        else
          match s.readLine c ssp dsp line m pre unpub with
          | (s1, .ok r) =>
            s1.putCmd { c with k := .copy ssp dsp m fol (r.1.foldl (fun a e => Sparse.put a e.1 e.2) r.2) unpub }
          | (_, .error _) => s0
      | _ => s0

/-- Push a follow-on as the command its record describes, issued by the command's warp (R275, R293). -/
def State.pushFollow (s : State) (c : Cmd) (f : Follow) (aoff : Int) (g : Int) : State :=
  let ok (w : Option Nat) : Bool := match w with | some v => s.wordOk c.blk (BitVec.ofNat 64 v) | none => true
  let keep (w : Option Nat) : Option Nat := if ok w then w else none
  let op := if f.kind = 1 then 0x04 else if f.kind = 2 then 0x06 else 0x08
  let c0 := { Cmd.new c.core c.blk c.warp c.split .mx op (f.rcd && c.warp < 2 ^ 20) (keep f.arr) (keep f.rel) (.aclr false) with
    fences := c.fences }
  let cnt := s.countOf c.blk f.cw true (BitVec.ofNat 64 f.cnt)
  let good := ok f.arr && ok f.rel
  if f.kind = 1 then s.pushWld { c0 with unit := f.bank } good f.fmt f.ck f.bank (BitVec.ofInt 64 aoff) cnt
  else s.pushMma { c0 with g := (g % 256).toNat, unit := (g % 256).toNat } good (decide (f.kind = 3)) f.fmt f.stride (BitVec.ofInt 64 aoff) cnt
    (s.mRegs c.warp)

/-- Signal the arrival word of a suppressed follow-on with zero bytes (R267, R270, R295). -/
def State.dropFollow (s : State) (blk : Nat) (f : Option Follow) (errs : Nat) : State :=
  match f.bind (fun y => y.arr) with
  | some a => if s.wordOk blk (BitVec.ofNat 64 a) then s.signal blk a 0 errs else s
  | none => s

/-- The end of a copy: its follow-on is pushed, which waits for room (R275). -/
def State.copyEnd (s : State) (c : Cmd) (dsp : Nat) (m : Moves) (fol : Option Follow) : Option State :=
  match c.status with
  | some st =>
    if c.started && c.fault.isNone then
      some ((s.endCmd c st 0 (decide (st = cNOOP))).dropFollow c.blk fol (if st = cNOOP then 0 else arrFault))
    else none
  | none =>
    if c.started && c.fault.isNone && (moveLines dsp m).all c.landed.contains then
      match fol with
      | none => some (s.endCmd c cDONE 0 false)
      | some f =>
        match s.badRead c.blk (countRead f.cw (BitVec.ofNat 64 f.cnt)) with
        | some a => some (s.engFault c (.page causeUCE a false false))
        | none =>
          if s.roomIn c.core .mx 1 || !s.holdsEngine c.blk then some ((s.pushFollow c f f.aoff f.g).endCmd c cDONE 0 false)
          else none
    else none

/-! ## The gather engine (R276-R281) -/

/-- The gather engine that a core's commands go to: one of the four of its dome, by the core's quadrant (R13, R26). -/
def gatherEngine (core : Nat) : Nat := 4 * domeOf core + (2 * (rowOf core % 4 / 2) + colOf core % 4 / 2)

/-- The commands a gather engine serves, of the cores of its quadrant, which it interleaves. -/
def State.gatherWork (s : State) (e : Nat) : List Cmd := s.cmds.filter (fun c => c.port = .ga && gatherEngine c.core = e)

/-- The commands of one core are performed by its gather engine one at a time, in push order. -/
def State.gaHead (s : State) (c : Cmd) : Bool :=
  s.free c && ((s.gatherWork (gatherEngine c.core)).find? (fun y => y.core = c.core)).any (fun y => y.id = c.id)

/-- Read a run of bytes of `.g` element by element where it may cross pages. -/
def State.readRow (s : State) (c : Cmd) (sp : Nat) (a : Int) (n : Nat) : State × Except EngErr (List Byte) :=
  s.engLoad c sp a n true

/-- Signal `n` bytes that landed from an address on, line by line. -/
def State.landLines (s : State) (c : Cmd) : Nat → Nat → Nat → State × Cmd
  | 0, _, _ => (s, c)
  | fuel + 1, a, n =>
    if n = 0 then (s, c)
    else
      let m := Nat.min n (64 - a % 64)
      let r := s.land c m
      r.1.landLines r.2 fuel (a + m) (n - m)

/-- Read the bytes of a CPYG from place `i` of its output up to `hi` at least: pieces of a patch's row, each the rest of an
aligned 8-byte group of the source, or of its 64-byte line where elements are misaligned (R129, R271). An element on two pages
is translated on both before any of it is read. `acc` pairs what has been read with its key, and `dk` are the keys of the
output's line, whose bytes already read count as written: elements are copied in order (R276). -/
def State.patchRead (s : State) (c : Cmd) (e pw ph : Nat) (list pitch : Word) (dk : List Nat) (hi : Nat) :
    Nat → Nat → Option (Nat × Nat) → List (Nat × Byte) → State × Except EngErr (Option (Nat × Nat) × List (Nat × Byte))
  | 0, _, org, acc => (s, .ok (org, acc))
  | fuel + 1, i, org, acc =>
    if hi ≤ i then (s, .ok (org, acc))
    else
      let rowB := pw * e
      let rr := i / rowB
      let j := rr / ph
      let b := i % rowB
      let og : State × Except EngErr Nat :=
        match org.filter (fun x => x.1 = j) with
        | some x => (s, .ok x.2)
        | none =>
          match s.engRead c.core (list + BitVec.ofNat 64 (8 * j)) 8 true c.hint with
          | (s1, .ok bs) => (s1, .ok (leNat bs))
          | (s1, .error er) => (s1, .error er)
      match og with
      | (s1, .error er) => (s1, .error er)
      | (s1, .ok o) =>
        let src : Int := (o : Int) + ((rr % ph : Nat) : Int) * pitch.toInt + (b : Int)
        let a := (BitVec.ofInt 64 src).toNat
        let n := Nat.min (if a % e = b % e then 8 - a % 8 else 64 - a % 64) (rowB - b)
        let last := (b + n - 1) / e * e
        match s1.engKeys c.core .read (BitVec.ofInt 64 (src + ((last : Int) - (b : Int)))) e with
        | (s2, .error er) => (s2, .error er)
        | (s2, .ok _) =>
          match s2.engRead c.core (BitVec.ofInt 64 src) n true c.hint with
          | (s3, .error er) => (s3, .error er)
          | (s3, .ok bs) =>
            let ks := match (s3.engKeys c.core .read (BitVec.ofInt 64 src) n).2 with | .ok l => l | .error _ => []
            let get (m : Nat) : Nat × Byte :=
              let k := ks.getD m 0
              (k, if dk.contains k then (match acc[dk.idxOf k]? with | some y => y.2 | none => bs.getD m 0) else bs.getD m 0)
            State.patchRead s3 c e pw ph list pitch dk hi fuel (i + n) (some (j, o)) (acc ++ (List.range n).map get)

/-- PATCH_GATHER: the next line of the output of a CPYG. One at a position boundary does not begin the next while its block is
being saved. -/
def execPatchGather (cmd : Nat) (s : State) : Host.Outcome State Fault Refusal :=
  .next (match s.cmdAt cmd with
    | none => s
    | some c =>
      match c.k with
      | .patch dsp esz pw ph dst list n pitch org carry =>
        let e := 2 ^ esz
        let total := n * (pw * ph * e)
        if !s.gaHead c || c.status.isSome || total ≤ c.row || (s.stopping c.blk && c.row % (pw * ph * e) = 0) then s
        else
          let c1 := { c with started := true }
          let a : Int := dst + (c.row : Nat)
          -- a command that is being stopped performs no position beyond the one it is in (R283)
          let upto := if s.stopping c.blk then Nat.min total ((c.row / (pw * ph * e) + 1) * (pw * ph * e)) else total
          let m := Nat.min (64 - spaceAddr dsp a % 64) (upto - c.row)
          -- an element whose bytes end on the next page is translated there too before any of it is written
          let span := ((c.row + m - 1) / e + 1) * e - c.row
          let wk : State × Except EngErr (List Nat) :=
            if dsp = 0 then s.engKeys c.core .write (BitVec.ofInt 64 a) span else (s, .ok [])
          match wk with
          | (s1, .error er) => s1.engFault c1 er
          | (s1, .ok keys) =>
            let dk := keys.take m
            match s1.patchRead c1 e pw ph list pitch dk (c.row + m) (m + 1) (c.row + carry.length) org
                (carry.map (fun b => (2 ^ 62, b))) with
            | (s2, .error er) => s2.engFault c1 er
            | (s2, .ok r) =>
              let line := (r.2.take m).map Prod.snd
              match s2.engStoreLine c1 dsp ((List.range m).map (fun i => (spaceAddr dsp (a + (i : Nat)), line.getD i 0))) with
              | (s3, .error er) => s3.engFault c1 er
              | (s3, .ok _) =>
                let rest := (r.2.drop m).map (fun x => if dk.contains x.1 then line.getD (dk.idxOf x.1) 0 else x.2)
                let y := s3.land { c1 with row := c.row + m, k := .patch dsp esz pw ph dst list n pitch r.1 rest } m
                y.1.putCmd y.2
      | _ => s)

/-- Rows read once for each distinct index of a window. -/
def State.readRows (s : State) (c : Cmd) (ix : Index) : List Nat → Sparse (List Byte) → State × Except EngErr (Sparse (List Byte))
  | [], acc => (s, .ok acc)
  | x :: rest, acc =>
    if ix.imax ≤ x || (Sparse.find acc x).isSome then s.readRows c ix rest acc
    else
      match s.engRead c.core (ix.tbase + BitVec.ofNat 64 (x * ix.tstride)) ix.rowb true c.hint with
      | (s1, .error e) => (s1, .error e)
      | (s1, .ok bs) => s1.readRows c ix rest (Sparse.put acc x bs)

/-- An index of the list. -/
def State.indexAt (s : State) (c : Cmd) (ix : Index) (j : Nat) : State × Except EngErr Nat :=
  match s.engRead c.core (ix.ilist + BitVec.ofNat 64 (4 * j)) 4 true c.hint with
  | (s1, .ok bs) => (s1, .ok (leNat bs))
  | (s1, .error e) => (s1, .error e)

def State.indexes (s : State) (c : Cmd) (ix : Index) : List Nat → State × Except EngErr (List Nat)
  | [] => (s, .ok [])
  | j :: rest =>
    match s.indexAt c ix j with
    | (s1, .error e) => (s1, .error e)
    | (s1, .ok x) =>
      match s1.indexes c ix rest with
      | (s2, .error e) => (s2, .error e)
      | (s2, .ok l) => (s2, .ok (x :: l))

/-- The bytes of the window of a GTH that begins at its row: every row of one index is one read (R278). -/
def State.windowBytes (s : State) (c : Cmd) (ix : Index) (n : Nat) : State × Except EngErr (List Byte) :=
  let js := (List.range (Nat.min n (c.row + 4096) - c.row)).map (· + c.row)
  match s.indexes c ix js with
  | (s1, .error e) => (s1, .error e)
  | (s1, .ok xs) =>
    match s1.readRows c ix xs [] with
    | (s2, .error e) => (s2, .error e)
    | (s2, .ok rows) => (s2, .ok (xs.flatMap (fun x => (Sparse.find rows x).getD (List.replicate ix.rowb (0 : Byte)))))

/-- Write what is left of a run of bytes from an address, after `done` of them, and signal the lines that land. -/
def State.runOn (s : State) (c : Cmd) (sp : Nat) (a : Int) (bs : List Byte) (done : Nat) : State × Cmd × Nat × Except EngErr Unit :=
  let r := s.engStoreRun c sp (bs.length / 64 + 2) (a + (done : Nat)) (bs.drop done) 0
  let y := r.1.landLines c (r.2.1 / 64 + 2) (spaceAddr sp (a + (done : Nat))) r.2.1
  (y.1, y.2, done + r.2.1, r.2.2)

/-- GATHER_WINDOW: the next window of a GTH, or the rest of one whose writing an access had stopped. None begins while its block
is being saved (R283). -/
def execGatherWindow (cmd : Nat) (s : State) : Host.Outcome State Fault Refusal :=
  .next (match s.cmdAt cmd with
    | none => s
    | some c =>
      match c.k with
      | .gather dsp dst ix n part =>
        if !s.gaHead c || c.status.isSome || n ≤ c.row || (s.stopping c.blk && part.isNone) then s
        else
          let c1 := { c with started := true }
          let w : State × Except EngErr (Nat × List Byte) :=
            match part with
            | some p => (s, .ok p)
            | none => match s.windowBytes c1 ix n with
              | (s1, .ok bs) => (s1, .ok (0, bs))
              | (s1, .error e) => (s1, .error e)
          match w with
          | (s1, .error e) => s1.engFault c1 e
          | (s1, .ok p) =>
            let r := s1.runOn c1 dsp (dst + (c.row * ix.rowb : Nat)) p.2 p.1
            match r.2.2.2 with
            | .error e => r.1.engFault { r.2.1 with k := .gather dsp dst ix n (some (r.2.2.1, p.2)) } e
            | .ok _ => r.1.putCmd { r.2.1 with row := Nat.min n (c.row + 4096), k := .gather dsp dst ix n none }
      | _ => s)

/-- The reduction of SCT (R279): RED's arithmetic, no flags. -/
def sctOp (op : Nat) : AOp := match op with | 1 => .add | 2 => .min | _ => .max

/-- One far reduction of an element at an address: at home, or at a peer's home slice (R116, R279, R346). `who` numbers
the request to a peer, whose answer has ended the hoisted loads of its line (bexEnd). -/
def State.reduceElem (s : State) (c : Cmd) (who op : Nat) (t : ATy) (a : Word) (bs : List Byte) : State × Except EngErr Unit :=
  let n := Sys2Proof.ATy.bytes t
  if a.toNat % n ≠ 0 then (s, .error (.stop cMISALIGN))
  else
    match s.engKeys c.core .write a n with
    | (s1, .error e) => (s1, .error e)
    | (s1, .ok keys) =>
      let k := keys.headD 0
      let v := leNat bs
      if peerKey k then
        match s1.peerAsk who k (.atomic t (sctOp op) (BitVec.ofNat 64 v) 0) with
        | (s2, some none) => (s2, .error (.page causeUCE a true false))
        | (s2, _) => (s2, .ok ())
      else if s1.lineBad k then (s1, .error (.page causeUCE a true false))
      else
        let s2 := ((s1.atHome (k / 8)).applyReds (k / 64)).touchHome c.core a c.hint keys
        let new := (atomNew t (sctOp op) (leNat (s2.homeBytes k n)) v 0).1
        (s2.engLand c.core keys (leBytes n new), .ok ())

/-- Apply the elements of a row to the table, in order; the number counts those applied. -/
def State.reduceRow (s : State) (c : Cmd) (j op : Nat) (t : ATy) : List (Word × List Byte) → Nat → State × Nat × Except EngErr Unit
  | [], m => (s, m, .ok ())
  | (a, bs) :: rest, m =>
    match s.reduceElem c (4096 * j + m) op t a bs with
    | (s1, .error e) => (s1, m, .error e)
    | (s1, .ok _) => State.reduceRow s1 c j op t rest (m + 1)

/-- Cut bytes into elements of `n` at rising addresses. -/
def elemRuns : Nat → Word → Nat → List Byte → List (Word × List Byte)
  | 0, _, _, _ => []
  | fuel + 1, a, n, bs => if bs = [] then [] else (a, bs.take n) :: elemRuns fuel (a + BitVec.ofNat 64 n) n (bs.drop n)

/-- Apply the row of a position of an SCT to its table row, after `m` bytes or elements of it: how far it comes. -/
def State.applyRow (s : State) (c : Cmd) (ix : Index) (j x m : Nat) (bs : List Byte) : State × Nat × Except EngErr Unit :=
  let a := ix.tbase + BitVec.ofNat 64 (x * ix.tstride)
  if ix.op = 0 then
    let r := s.engStoreRun c 0 (bs.length / 64 + 2) ((a + BitVec.ofNat 64 m).toNat : Nat) (bs.drop m) m
    (r.1, r.2.1, r.2.2)
  else s.reduceRow c j ix.op (atyOf ix.aty) ((elemRuns (ix.rowb + 1) a (Sys2Proof.ATy.bytes (atyOf ix.aty)) bs).drop m) m

/-- A position is done: its bytes count as delivered, once. -/
def State.posDone (s : State) (c : Cmd) (j rowb : Nat) : State :=
  let mark := 2 ^ 25 + j
  let c2 := { c with landed := j :: c.landed, row := c.row + 1 }
  if c.landed.contains mark then s.putCmd c2
  else
    let r := s.land { c2 with landed := mark :: c2.landed } rowb
    r.1.putCmd r.2

/-- The journal byte of a position, read at home (R280); 0 without a journal. -/
def State.journal (s : State) (c : Cmd) (ix : Index) (j : Nat) : State × Except EngErr Nat :=
  if ix.jrnl = 0 then (s, .ok 0)
  else match s.engRead c.core (ix.jrnl + BitVec.ofNat 64 (j / 8)) 1 true c.hint with
    | (s1, .ok bs) => (s1, .ok (bs.headD 0).toNat)
    | (s1, .error e) => (s1, .error e)

/-- Set the journal bit of a position by a synchronising write. -/
def State.setJournal (s : State) (c : Cmd) (ix : Index) (j : Nat) : State × Except EngErr Unit :=
  if ix.jrnl = 0 then (s, .ok ())
  else match s.journal c ix j with
    | (s1, .error e) => (s1, .error e)
    | (s1, .ok v) => s1.engWrite c.core (ix.jrnl + BitVec.ofNat 64 (j / 8)) [BitVec.ofNat 8 (Nat.lor v (2 ^ (j % 8)))] c.hint

/-- Go on with a position whose row has been read, from the access that is due. -/
def State.posGo (s : State) (c : Cmd) (ssp : Nat) (src : Int) (ix : Index) (n j x m : Nat) (bs : List Byte) : State :=
  let keep (m' : Nat) : Cmd := { c with k := .scatter ssp src ix n (some (j, x, m', bs)) }
  match s.applyRow c ix j x m bs with
  | (s1, m1, .error e) => s1.engFault (keep m1) e
  | (s1, m1, .ok _) =>
    match s1.setJournal c ix j with
    | (s2, .error e) => s2.engFault (keep m1) e
    | (s2, .ok _) => s2.posDone { c with k := .scatter ssp src ix n none } j ix.rowb

/-- SCATTER_POSITION: one position of an SCT that no earlier position of its row holds back, or the rest of one that an access
had stopped. While its block is being saved only a position that has begun goes on (R283). -/
def execScatterPosition (cmd j : Nat) (s : State) : Host.Outcome State Fault Refusal :=
  .next (match s.cmdAt cmd with
    | none => s
    | some c =>
      match c.k with
      | .scatter ssp src ix n part =>
        -- `row` counts positions done in order; `landed` holds positions done, and 2^25 more those already signalled
        if !s.gaHead c || c.status.isSome || n ≤ j || c.landed.contains j ||
          (s.stopping c.blk && part.isNone && !s.asked (.event (.scatterPosition cmd j))) then s
        else
          let c1 := { c with started := true }
          match part with
          | some p => if p.1 = j then s.posGo c1 ssp src ix n j p.2.1 p.2.2.1 p.2.2.2 else s
          | none =>
            match s.indexes c1 ix (List.range (j + 1)) with
            | (s1, .error e) => s1.engFault c1 e
            | (s1, .ok xs) =>
              let x := xs.getD j 0
              if x < ix.imax && (List.range j).any (fun i => xs.getD i 0 = x && !c.landed.contains i) then s
              else
                match s1.journal c1 ix j with
                | (s2, .error e) => s2.engFault c1 e
                | (s2, .ok jb) =>
                  if ix.imax ≤ x || (ix.jrnl ≠ 0 && jb / 2 ^ (j % 8) % 2 = 1) then s2.posDone c1 j ix.rowb
                  else
                    match s2.readRow c1 ssp (src + (j * ix.rowb : Nat)) ix.rowb with
                    | (s3, .error e) => s3.engFault c1 e
                    | (s3, .ok bs) => s3.posGo c1 ssp src ix n j x 0 bs
      | _ => s)

/-- A gather-engine command has done all its positions. -/
def Cmd.gatherDone (c : Cmd) : Bool :=
  match c.k with
  | .patch _ esz pw ph _ _ n .. => n * (pw * ph * 2 ^ esz) ≤ c.row
  | .gather _ _ _ n _ => n ≤ c.row
  | .scatter _ _ _ n _ => (List.range n).all c.landed.contains
  | _ => false

end Sys2Proof.Machine
end

