-- ==== Sys2Proof/Machine/Ring.lean ====
section
/-! DEFINITION. Ring.lean: the belfry ring, BOARD, and the completion of engine commands (R269, R284-R297). -/

namespace Sys2Proof.Machine

/-! ## Positions, headers and CRC (R284, R285) -/

/-- Domes in ring order (Table 18.9). -/
def ringDomes : List Nat := [0, 1, 2, 5, 8, 7, 6, 3, 4]
def ringDome (pos : Nat) : Nat := ringDomes.getD (pos % 9) 0
def ringPos (dome : Nat) : Nat := (ringDomes.findIdx? (· = dome)).getD 0

/-- CRC-32C of bytes, bit by bit with the reflected Castagnoli polynomial. -/
def crcByte (crc : BitVec 32) (b : Byte) : BitVec 32 :=
  (List.range 8).foldl (fun c _ => if c.getLsbD 0 then (c >>> 1) ^^^ 0x82F63B78 else c >>> 1) (crc ^^^ b.setWidth 32)
def crc32c (bs : List Byte) : BitVec 32 := ~~~ bs.foldl crcByte 0xFFFFFFFF

/-- A tile's header (Table 18.10). -/
def ringHeader (layer tidx size fmt ck kw lap : Nat) (bad : Bool) (body : List Byte) : List Byte :=
  let h := leBytes 2 layer ++ leBytes 2 tidx ++ leBytes 4 size ++ leBytes 1 fmt ++ leBytes 1 ck ++ leBytes 2 kw ++
    leBytes 2 lap ++ leBytes 1 (bit bad) ++ List.replicate 45 (0 : Byte)
  h ++ leBytes 4 (crc32c (h ++ List.replicate 4 (0 : Byte) ++ body)).toNat

/-- A tile fails its check at a tap (R295). -/
def RTile.corrupt (x : RTile) : Bool :=
  fld x.hdr 0x0E 1 ≠ 0 ||
  decide ((crc32c (x.hdr.take 0x3C ++ List.replicate 4 (0 : Byte) ++ x.body)).toNat ≠ fld x.hdr 0x3C 4)

def RTile.layer (x : RTile) : Nat := fld x.hdr 0 2
def RTile.tidx (x : RTile) : Nat := fld x.hdr 2 2
def RTile.size (x : RTile) : Nat := x.body.length

/-! ## The schedule (R286, R287) -/

/-- Bytes of local device memory at a physical address, direct or interleaved; the ring reads home values (R286). -/
def State.localBytes (s : State) (pa : Word) (n : Nat) : Option (List Byte) :=
  if paApt pa.toNat = 0 && paIl pa.toNat then
    let ks := (List.range n).map (fun i => s.key (pa.toNat + i))
    if ks.all Option.isSome && decide (pa.toNat % 2 ^ 41 + n ≤ 2 ^ 41) then some (ks.map (fun k => readMem s.mem (k.getD 0))) else none
  else if s.localOk pa.toNat n then some (readBytes s.mem pa.toNat n)
  else none

/-- A schedule entry as read (Table 18.12). -/
structure SEnt where
  pa    : Nat
  layer : Nat
  tidx  : Nat
  size  : Nat
  fmt   : Nat
  ck    : Nat
  kw    : Nat
  rsvd  : Bool
  deriving DecidableEq, Repr

def SEnt.ofBytes (r : List Byte) : SEnt :=
  { pa := fld r 0 8, layer := fld r 8 2, tidx := fld r 0xA 2, size := fld r 0xC 4, fmt := fld r 0x10 1,
    ck := fld r 0x11 1, kw := fld r 0x12 2, rsvd := (r.drop 0x14).any (· ≠ 0) }

/-- The reason an entry is refused by itself (Table 18.13): 3 address, 4 size, 5 format or Kw, 6 reserved field. -/
def State.entReason (s : State) (e : SEnt) : Nat :=
  if 2 ^ 41 ≤ e.pa || e.pa % 64 ≠ 0 || !s.vaultOn (paVault e.pa) || Config.vaultBytes ≤ paOff e.pa then 3
  else if e.size = 0 || 65536 < e.size || Config.vaultBytes < paOff e.pa + e.size then 4
  else if !mfKwOk e.fmt e.kw || 2 < e.ck then 5
  else if e.rsvd then 6
  else 0

/-- Entry `i` of a schedule. -/
def State.schedEnt (s : State) (at_ : Word) (i : Nat) : SEnt :=
  SEnt.ofBytes ((s.localBytes (at_ + BitVec.ofNat 64 (64 + 32 * i)) 32).getD (List.replicate 32 0))

def State.sched (s : State) : List SEnt :=
  if s.ring.sact = 0 then [] else (List.range s.ring.nent).map (s.schedEnt s.ring.sact)

/-- Layers ascend and a layer's tiles are 0, 1, 2 and so on. -/
def entOrder : Option SEnt → List SEnt → Bool
  | _, [] => true
  | none, e :: rest => e.tidx = 0 && entOrder (some e) rest
  | some p, e :: rest =>
    (if e.layer = p.layer then decide (e.tidx = p.tidx + 1) else decide (p.layer < e.layer) && decide (e.tidx = 0)) &&
    entOrder (some e) rest

/-- Check an armed schedule: its number of entries, or the reason it is refused. -/
def State.checkSched (s : State) (at_ : Word) : Except Nat Nat :=
  match s.localBytes at_ 64 with
  | none => .error 1
  | some h =>
    let n := fld h 0 4
    if n = 0 || 65536 < n || (h.drop 4).any (· ≠ 0) || (s.localBytes at_ (64 + 32 * n)).isNone then .error 1
    else
      let es := (List.range n).map (s.schedEnt at_)
      if !entOrder none es then .error 2
      else match es.find? (fun e => s.entReason e ≠ 0) with
        | some e => .error (s.entReason e)
        | none => .ok n

/-- A record in local device memory that the ring would read is held at a tower in reset: the ring logic waits with what it
needs the record for, and tiles go on (R14). -/
def State.ringHeld (s : State) (at_ : Word) (n : Nat) : Bool :=
  s.power.inReset ≠ [] && (List.range ((n + 63) / 64 + 1)).any (fun i =>
    (s.key (at_.toNat + Nat.min (64 * i) (n - 1))).any (fun k => s.power.inReset.contains (domeOf (s.homeSlice k))))

/-- The active schedule's records are held. -/
def State.schedHeld (s : State) : Bool := s.ring.sact ≠ 0 && s.ringHeld s.ring.sact (64 + 32 * s.ring.nent)

/-- An armed schedule's records are held: its check waits for a later lap boundary. -/
def State.armHeld (s : State) : Bool :=
  s.ringHeld s.ring.snext 64 || (match s.localBytes s.ring.snext 64 with
    | some h => s.ringHeld s.ring.snext (64 + 32 * Nat.min 65536 (fld h 0 4))
    | none => false)

/-- The tiles of a layer in the active schedule: the entry of its tile 0 and how many it has. -/
def State.layerOf (s : State) (layer : Nat) : Option (Nat × Nat) :=
  let es := s.sched
  match (List.range es.length).find? (fun i => (es[i]?).elim false (fun e => e.layer = layer)) with
  | some i => some (i, (es.filter (fun e => e.layer = layer)).length)
  | none => none

/-! ## BOARD (R290-R297) -/

/-- A board's command. -/
def Cmd.board? (c : Cmd) : Option Board := match c.k with | .board b => some b | _ => none

def Cmd.withBoard (c : Cmd) (b : Board) : Cmd := { c with k := .board b }

/-- The declared bytes of a board: the sizes the active schedule gives its range, where they can be known (R384). -/
def State.boardDecl (s : State) (b : Board) : Option Nat :=
  if b.n = 0 then some 0
  else if b.unread || 16 < b.n || s.schedHeld then none
  else match s.layerOf b.layer with
    | some (i, cnt) => if b.f + b.n ≤ cnt then
        some ((List.range b.n).foldl (fun acc j => acc + (s.schedEnt s.ring.sact (i + b.f + j)).size) 0) else none
    | none => none

/-- Register the boards of a core that may register, in push order, against the active schedule (R282, R291, R292). They wait
while the schedule's records are held at a tower in reset (R14). -/
def State.registerBoards (s : State) (core : Nat) : State :=
  ((s.queue core .bd).foldl (fun (acc : State × Bool) c =>
    match c.board? with
    | none => (acc.1, true)
    | some b =>
      if acc.2 || b.reg || c.started then acc
      else if !acc.1.free c || acc.1.schedHeld then (acc.1, true)
      else if c.status.isSome then (acc.1.putCmd { c with started := true, decl := acc.1.boardDecl b }, false)
      else
        let st := acc.1
        let no (e : Nat) : State × Bool := (st.putCmd { c with started := true, status := some e, decl := none }, false)
        match st.layerOf b.layer with
        | none => no cNOTSCHED
        | some (i, cnt) =>
          if cnt < b.f + b.n then no cRANGE
          else
            let dome := domeOf core
            let lap := Sparse.get 0 st.ring.domeLap dome
            let late := st.ring.seen.contains (dome, lap, 65536 * b.layer + b.f)
            let sizes := (List.range b.n).map (fun k => (st.schedEnt st.ring.sact (i + b.f + k)).size)
            let b1 := { b with reg := true, sizes := sizes, lap := if late then lap + 1 else lap, missed := bit late }
            let st1 := if late then st.count .dome dome 0x203 none none (some (portNum .bd)) else st
            (st1.putCmd { (c.withBoard b1) with started := true, decl := some (sizes.foldl (· + ·) 0) }, false)) (s, false)).1

def planBoard (m : BoardMod) (o : Slots) : PushPlan :=
  { port := .bd, once := false,
    reads := fun _ _ v t => countRead m.cw (v.gc t) ++ (if o.e = .none then [] else [(v.ge t, 32)]),
    cmd := fun s c v t => s.named c 0x05 m.rcd (o.d, v.gd t) (.none, 0),
    push := fun s c v t =>
      let n := (s.countOf c.blk m.cw false (v.gc t)).getD 17
      let fol : Except Nat (Option Follow) := if o.e = .none then .ok none
        else match s.recordAt c.blk (v.ge t) 32 32 (fun bs => Follow.ofBytes bs true) with
          | .ok f => .ok (some f)
          | .error e => .error e
      let st := firstStatus [(n = 0, cNOOP), (!s.holdsEngine c.blk, cNOMATRIX),
        (16 < n || 16 < m.slot.val + n || !s.wordsOk c (o.d, v.gd t) (.none, 0), cRANGE),
        ((match fol with | .error _ => true | .ok _ => false), match fol with | .error e => e | .ok _ => 0)]
      let b : Board := {
        bank := bit m.bank, slot := m.slot.val, layer := (v.ga t).toNat, f := (v.gb t).toNat, n := n,
        fol := match fol with | .ok f => f | .error _ => none, reg := false, lap := 0, k := 0, missed := 0, bad := [], sizes := [],
        owed := [], unread := match fol with | .ok _ => false | .error _ => true }
      (s.pushCmd { c with k := .board b, status := st, decl := s.boardDecl b }).registerBoards c.core }

/-- BOARD (R291). -/
def execBoard (x : Ctl) (m : BoardMod) (o : Slots) (s : State) : Host.Outcome State Fault Refusal :=
  pushWord (.board x m o) x [o.a, o.b, o.c, o.d, o.e] o (planBoard m o) s

/-- A board ends: missed laps in `unit`, the first corrupted tile in `flags` (R269, R293, R295). With a status that
suppresses what follow-ons are still to come, the arrival word they name is signalled once: with no error for a board of
count zero (R267), otherwise with `efault` (R270, R384; once, DESIGN CHOICE, log entry 95). -/
def State.boardEnd (s : State) (c : Cmd) (b : Board) (st : Nat) : State :=
  let flags := match b.bad.head? with | some i => i + 1 | none => 0
  let s1 := s.endCmd { c with unit := Nat.min 255 b.missed, flags := flags } st 0 (decide (st = cNOOP))
  if st = cDONE || st = cCORRUPT then s1 else s1.dropFollow c.blk b.fol (if st = cNOOP then 0 else arrFault)

/-- A board that has dealt with its whole range, and owes no push, ends; so does one that a new schedule has ended (R296). -/
def State.boardStep (s : State) (c : Cmd) (b : Board) : State :=
  if b.owed ≠ [] then s.putCmd (c.withBoard b)
  else match c.status with
    | some st => s.boardEnd c b st
    | none => if b.n ≤ b.k then s.boardEnd c b (if b.bad = [] then cDONE else cCORRUPT) else s.putCmd (c.withBoard b)

/-- The pushes a board owes for its landed tiles, oldest first: each WLD with the follow-on's command behind it, in consecutive
positions, where the matrix queue has room for both; the others wait (R250, R293; log entry 62). -/
def State.boardPushes (s : State) (c : Cmd) (b : Board) : List (Nat × Nat × Nat × Nat) → State × List (Nat × Nat × Nat × Nat)
  | [] => (s, [])
  | e :: rest =>
    match b.fol with
    | none => (s, [])
    | some f =>
      if s.holdsEngine c.blk && !s.roomIn c.core .mx 2 then (s, e :: rest)
      else
        let wl := { Cmd.new c.core c.blk c.warp c.split .mx 0x04 false none none (.aclr false) with fences := c.fences }
        ((s.pushWld wl true e.2.1 e.2.2.1 b.bank (BitVec.ofNat 64 (65536 * (b.slot + e.1))) (some e.2.2.2)).pushFollow
          c f (f.aoff + e.1 * f.da) (f.g + e.1 * f.dg)).boardPushes c b rest

/-- A board makes the pushes it owes and goes on. -/
def State.boardGo (s : State) (c : Cmd) (b : Board) : State :=
  let r := s.boardPushes c b b.owed
  r.1.boardStep c { b with owed := r.2 }

/-- A board misses a tile and resumes at it one lap later (R290, R293, R294). -/
def State.boardMiss (s : State) (c : Cmd) (b : Board) (x : RTile) : State :=
  (s.count .dome (domeOf c.core) 0x203 none none (some (portNum .bd))).putCmd
    (c.withBoard { b with lap := x.lap + 1, missed := b.missed + 1 })

/-- A tile lands in a board's bank: its bytes, its signal, and the pushes of its WLD and the follow-on (R293). -/
def State.boardLand (s : State) (c : Cmd) (b : Board) (x : RTile) : State :=
  let off := 65536 * (b.slot + b.k)
  let r := ((s.putBankBytes c.core b.bank off x.body).markBank c.blk).land c x.size
  let owed := if c.arr.isSome && b.fol.isSome then b.owed ++ [(b.k, fld x.hdr 8 1, fld x.hdr 9 1, fld x.hdr 0xA 2)] else b.owed
  r.1.boardGo r.2 { b with k := b.k + 1, lap := x.lap, owed := owed }

/-- A corrupted tile reaches a board due to receive it: the board sets `ecorr` at once, and the word of the follow-on that is
not pushed is signalled (R295). -/
def State.boardCorrupt (s : State) (c : Cmd) (b : Board) (x : RTile) : State :=
  let s1 := match c.arr with | some a => s.markErr c.blk a arrCorr | none => s
  (s1.dropFollow c.blk b.fol arrCorr).boardStep c { b with k := b.k + 1, lap := x.lap, bad := b.bad ++ [b.k] }

/-- The bank range a board's next tile goes to is busy (R294). -/
def State.boardBusy (s : State) (c : Cmd) (b : Board) (x : RTile) : Bool :=
  let off := 65536 * (b.slot + b.k)
  s.wldBusy c.core b.bank off x.size || s.copyBusy c.core b.bank off x.size none

/-- The registered boards of a dome that are due a tile, oldest first. Which tile it is the ring knows by its place in the lap,
whatever damage its header has met (R295). -/
def State.dueBoards (s : State) (dome : Nat) (x : RTile) : List Cmd :=
  s.cmds.filter (fun c => domeOf c.core = dome && c.status.isNone && (match c.board? with
    | some b => b.reg && b.layer = x.entry / 65536 && decide (b.f + b.k = x.entry % 65536) && decide (b.lap ≤ x.lap)
    | none => false))

/-- Where a tile lies in a step. -/
def RTile.domeAt (x : RTile) (t : Nat) : Nat := ringDome (ringPos x.home + (t - x.t))

/-- The ring logic of a dome outside its transit domain works: the tower is in service and not in reset (R14). -/
def State.ringOn (s : State) (dome : Nat) : Bool := s.towerOn dome && !s.power.inReset.contains dome

/-- One tap's delivery of a tile (R290-R295). Boards with a busy range are kept for the hold, or miss when there is no
dwell. A tower that is fenced or in reset only forwards the tile (R14). -/
def State.deliverTile (s : State) (x : RTile) : State :=
  let dome := x.domeAt s.ring.t
  if !s.ringOn dome then s
  else
  let i := x.entry
  let lapNow := Nat.max (Sparse.get 0 s.ring.domeLap dome) x.lap
  let seen1 : List (Nat × Nat × Nat) := if s.ring.seen.contains (dome, x.lap, i) then s.ring.seen
    else (s.ring.seen.filter (fun (e : Nat × Nat × Nat) => e.1 ≠ dome || lapNow < e.2.1 + 3)) ++ [(dome, x.lap, i)]
  let ring1 : Ring := { s.ring with
    domeLap := Sparse.set 0 s.ring.domeLap dome lapNow
    seen := seen1 }
  let s1 : State := { s with ring := ring1 }
  let due := s1.dueBoards dome x
  if x.corrupt then
    due.foldl (fun (st : State) (c : Cmd) => match c.board? with | some b => st.boardCorrupt c b x | none => st)
      (s1.count .dome dome 0x204 none none none)
  else
    (due.foldl (fun (acc : State × List Nat) (c : Cmd) =>
      match c.board? with
      | none => acc
      | some b =>
        if acc.2.contains c.core then (acc.1.boardMiss c b x, acc.2)
        else if acc.1.boardBusy c b x then
          (if s.ctl.dwell = 0 then acc.1.boardMiss c b x
           else { acc.1 with ring := { acc.1.ring with held := acc.1.ring.held ++ [(c.id, x)] } }, c.core :: acc.2)
        else (acc.1.boardLand c b x, c.core :: acc.2)) (s1, [])).1

/-- A held board's tile may land: its range has become free, or the board is gone. -/
def State.heldFree (s : State) (e : Nat × RTile) : Bool :=
  match s.cmdAt e.1 with
  | some c => (match c.board? with | some b => c.status.isSome || !s.boardBusy c b e.2 | none => true)
  | none => true

/-- Some held tile may land: it does so before anything else happens, so that its range cannot be taken again first (R294). -/
def State.heldDue (s : State) : Bool := s.ring.held.any s.heldFree

/-- Held tiles whose range has become free land (R294). -/
def State.landHeld (s : State) : State :=
  s.ring.held.foldl (fun st e =>
    if !st.heldFree e then st
    else
      let out : State := { st with ring := { st.ring with held := st.ring.held.erase e } }
      match st.cmdAt e.1 with
      | none => out
      | some c => (match c.board? with | some b => if c.status.isSome then out else out.boardLand c b e.2 | none => out)) s

/-- A held step goes on: ranges that have become free receive their tiles, and where the hold of the step has ended every board
still held misses its tile. Whether it has ended is a free choice, since no cycle count is modelled (R294). -/
def State.holdStep (s : State) : State :=
  let s1 := s.landHeld
  if Config.freeNat (s.freeCtr + 2 ^ 40) % 2 = 0 then
    s1.ring.held.foldl (fun st e =>
      let out : State := { st with ring := { st.ring with held := st.ring.held.erase e } }
      match st.cmdAt e.1 with
      | none => out
      | some c => (match c.board? with | some b => out.boardMiss c b e.2 | none => out)) s1
  else s1

/-! ## Steps (R287-R289) -/

/-- The lap of the next injection. -/
def Ring.nextLap (r : Ring) : Nat := if r.next = 0 then r.lapc.toNat else r.lapc.toNat - 1

/-- Re-check pending boards against a new schedule (R296). -/
def State.recheckBoards (s : State) : State :=
  s.cmds.foldl (fun st c =>
    match c.board? with
    | some b =>
      if b.reg && c.status.isNone then
        (match st.layerOf b.layer with
         | some (_, cnt) => if cnt < b.f + b.n then st.boardStep { c with status := some cNOTSCHED } b else st
         | none => st.boardStep { c with status := some cNOTSCHED } b)
      else st
    | none => st) s

/-- A lap boundary (R287, R288, R289). A schedule whose records are held stays armed for a later one (R14). -/
def State.lapBoundary (s : State) : State :=
  let run := s.ctl.ringrate.getLsbD 16
  let r := s.ring
  let r1 := if run then r else { r with injecting := false, bodies := [] }
  if r.snext = 0 || s.armHeld then { s with ring := r1 }
  else
    match s.checkSched r.snext with
    | .error e => { s with ring := { r1 with snext := 0, refused := true, reason := e } }
    | .ok n =>
      ({ s with ring := { r1 with snext := 0, sact := r.snext, nent := n, next := 0, bodies := [] } }).recheckBoards

/-- A tile is injected this step: no passing tile needs its hop, its body has been read, and the tile before it did not
leave the same vault of the same dome in the step before (R289). -/
def Ring.canInject (r : Ring) (b : RBody) : Bool :=
  b.ready && r.tiles.all (fun x => x.domeAt r.t ≠ b.home) &&
  (match r.lastAt with | some (t, h, v) => !(t + 1 = r.t && h = b.home && v = b.vault) | none => true)

/-- Inject the next tile where it may be: its home's injection logic is not in reset (R14). -/
def State.inject (s : State) : State :=
  let r := s.ring
  match r.bodies.find? (fun b => b.lap = r.nextLap && b.entry = r.next) with
  | none => s
  | some b =>
    if !r.canInject b || !s.ringOn b.home then s
    else
      let x : RTile := { home := b.home, t := r.t, lap := b.lap, entry := 65536 * fld b.hdr 0 2 + fld b.hdr 2 2, hdr := b.hdr,
                         body := b.body }
      let last := r.nent ≤ r.next + 1
      let r1 := { r with
        lapc := if r.next = 0 then r.lapc + 1 else r.lapc
        next := if last then 0 else r.next + 1
        lastAt := some (r.t, b.home, b.vault)
        bodies := r.bodies.filter (fun y => !(y.lap = b.lap && y.entry = b.entry))
        tiles := r.tiles ++ [x] }
      if last then ({ s with ring := r1 }).lapBoundary else { s with ring := r1 }

/-- The body of an entry as its home dome reads it (R285, R287, R289). -/
def State.readBody (s : State) (lap i : Nat) : RBody :=
  let e := s.schedEnt s.ring.sact i
  let bad := s.entReason e ≠ 0
  let n := if 1 ≤ e.size && e.size ≤ 65536 then e.size else 1
  let body := if bad then List.replicate n (0 : Byte) else readBytes s.mem e.pa n
  let worn := !bad && (List.range ((n + 63) / 64)).any (fun l => s.lineBad (e.pa + 64 * l))
  { lap := lap, entry := i, vault := paVault e.pa, home := domeOf (paVault e.pa % 144),
    hdr := ringHeader e.layer e.tidx n e.fmt e.ck e.kw (lap % 65536) (bad || worn) body, body := body, ready := false }

/-- Read the bodies that are among the next 16 of their dome (R289); each read ends when the hardware chooses. -/
def State.readBodies (s : State) : State :=
  let r := s.ring
  if r.sact = 0 || !r.injecting || s.schedHeld then s
  else
    let upcoming := (List.range (r.nent - r.next)).map (fun j => (r.nextLap, r.next + j)) ++
      (List.range r.nent).map (fun i => (r.nextLap + 1, i))
    let new := (upcoming.foldl (fun (acc : List RBody × Sparse Nat) p =>
      let home := domeOf (paVault (s.schedEnt r.sact p.2).pa % 144)
      let n := Sparse.get 0 acc.2 home
      if 16 ≤ n || !s.ringOn home then acc
      else
        let acc2 := Sparse.put acc.2 home (n + 1)
        if r.bodies.any (fun b => b.lap = p.1 && b.entry = p.2) then (acc.1, acc2)
        else (acc.1 ++ [s.readBody p.1 p.2], acc2)) ([], [])).1
    { s with ring := { r with bodies := r.bodies ++ new } }

/-- Reads in progress that end now. -/
def State.endReads (s : State) : State :=
  let r := s.ring
  { s with ring := { r with bodies := r.bodies.map (fun b =>
      if b.ready then b else { b with ready := Config.freeNat (s.freeCtr + 2 ^ 16 * b.lap + b.entry) % 2 = 0 }) } }

/-- A new step: tiles that have come round are removed, the next tile is injected, bodies are read ahead, every tile is
delivered where it lies, and boards register. -/
def State.newStep (s : State) : State :=
  let t := s.ring.t + 1
  let s1 := ({ s with ring := { s.ring with
    t := t
    injecting := s.ring.injecting || s.ctl.ringrate.getLsbD 16
    tiles := s.ring.tiles.filter (fun x => decide (t < x.t + 9)) } }).endReads
  let s2 := if s1.ring.sact = 0 then s1.lapBoundary else s1
  let s3 := if s2.ring.injecting && s2.ring.sact ≠ 0 then s2.inject else s2
  let s4 := s3.readBodies
  let s5 := s4.ring.tiles.foldl State.deliverTile s4
  (List.range 144).foldl State.registerBoards s5

/-- RING_STEP (R288-R296): a held step goes on, or a new step begins. -/
def execRingStep (s : State) : Host.Outcome State Fault Refusal :=
  .next (match s.ring.held with
    | _ :: _ => s.holdStep
    | [] =>
      if s.ctl.ringrate.getLsbD 16 || s.ring.injecting || !s.ring.tiles.isEmpty then s.newStep else s)

/-! ## The ring block (R287, Table 18.13) -/

/-- SNEXT_ARM: a non-zero write of `snext` arms a schedule. -/
def execSnextArm (v : Word) (s : State) : Host.Outcome State Fault Refusal :=
  .next (if s.ident.state ≠ 1 then s else { s with ring := { s.ring with snext := v } })

/-- SNEXT_DISARM: a write of 0. -/
def execSnextDisarm (s : State) : Host.Outcome State Fault Refusal :=
  .next (if s.ident.state ≠ 1 then s else { s with ring := { s.ring with snext := 0 } })

/-- RSTAT_CLEAR: writing 1 to bit 1 clears the refusal. -/
def execRstatClear (s : State) : Host.Outcome State Fault Refusal :=
  .next (if s.ident.state ≠ 1 then s else { s with ring := { s.ring with refused := false, reason := 0 } })

/-- A tile is corrupted in flight (R295). -/
def State.corruptTile (s : State) (index b : Nat) : State :=
  let flip (bs : List Byte) (i : Nat) : List Byte := bs.modify (i / 8) (fun y => y ^^^ BitVec.ofNat 8 (2 ^ (i % 8)))
  let hit (x : RTile) : RTile := if b < 512 then { x with hdr := flip x.hdr b } else { x with body := flip x.body (b - 512) }
  { s with ring := { s.ring with tiles := s.ring.tiles.modify index hit } }

/-! ## COMMAND_COMPLETION (R269) -/

/-- COMMAND_COMPLETION: a copy, a gather-engine command or a board with nothing left to do ends: its final signal, its
follow-on and its record. -/
def execCommandCompletion (cmd : Nat) (s0 : State) : Host.Outcome State Fault Refusal :=
  .next (match s0.cmdAt cmd with
    | none => s0
    | some y =>
      let s := ((s0.startCopies y.core).registerBoards y.core)
      match s.cmdAt cmd with
      | none => s0
      | some c =>
        match c.k with
        | .copy _ dsp m fol .. => (s.copyEnd c dsp m fol).getD s0
        | .patch .. | .gather .. | .scatter .. =>
          if !s.gaHead c then s0
          else match c.status with
            | some st => s.endCmd c st 0 (decide (st = cNOOP))
            | none => if c.gatherDone then s.endCmd c cDONE 0 false else s0
        | .board b =>
          (match c.status with
           | some _ => if c.started then s.boardGo c b else s0
           | none => if b.owed = [] then s0 else s.boardGo c b)
        | .unread .. =>
          -- a command whose record was never read ends in its turn
          (match c.status with
           | some st => if s.free c && (c.port = .cp || c.port = .bd || s.earlier c (fun _ => false)) then s.endCmd c st 0 false else s0
           | none => s0)
        | .aclr .. | .wld .. | .mma .. | .mmr .. | .epi .. | .conjOp .. | .relabel .. | .fsnap .. | .fundo .. => s0)

end Sys2Proof.Machine
end

