-- ==== Sys2Proof/Machine/Conj.lean ====
section
/-! DEFINITION. Conj.lean: the conjunction engines (R326-R341, R383, R384) and the event that goes on pushing the commands
of a stopped word (R250, R265, R336). -/

namespace Sys2Proof.Machine

def cFOREST : Nat := 0x0F
def cNOSNAP : Nat := 0x10
def cLOGFULL : Nat := 0x11
def cBROKEN : Nat := 0x12

/-! ## Forest records (R326, Table 22.1) -/

/-- A forest record as the engine reads it. -/
structure Forest where
  frec  : Word
  pbase : Word
  sbase : Word
  lbase : Word
  nelem : Nat
  lcap  : Nat
  lhead : Nat
  mark  : Nat
  snap  : Bool
  deriving DecidableEq, Repr

def Forest.ofBytes (frec : Word) (r : List Byte) : Forest :=
  { frec := frec, pbase := BitVec.ofNat 64 (fld r 0 8), sbase := BitVec.ofNat 64 (fld r 8 8),
    lbase := BitVec.ofNat 64 (fld r 16 8), nelem := fld r 24 4, lcap := fld r 28 4, lhead := fld r 32 4,
    mark := fld r 36 4, snap := fld r 40 4 % 2 = 1 }

/-- The conditions of R326 and Table 22.1. -/
def forestOk (frec : Word) (r : List Byte) : Bool :=
  let f := Forest.ofBytes frec r
  frec.toNat % 64 = 0 && (r.drop 44).all (· = 0) && fld r 40 4 / 2 = 0 && f.nelem ≠ 0 && f.pbase.toNat % 4 = 0 &&
  f.sbase.toNat % 4 = 0 && f.lbase.toNat % 16 = 0 && !(f.lbase = 0 && f.lcap ≠ 0) && f.lhead ≤ f.lcap && f.mark ≤ f.lhead

/-- The address of an element of the parent or the size array. -/
def Forest.va (f : Forest) (size : Bool) (x : Nat) : Word := (if size then f.sbase else f.pbase) + BitVec.ofNat 64 (4 * x)

/-! ## Accesses (R327-R329) -/

/-- Read an element at home. -/
def State.elemGet (s : State) (c : Cmd) (f : Forest) (size : Bool) (x : Nat) : State × Except EngErr Nat :=
  match s.engRead c.core (f.va size x) 4 false c.hint with
  | (s1, .error e) => (s1, .error e)
  | (s1, .ok bs) => (s1, .ok (leNat bs))

/-- Translate a list of ranges before any of them is written. -/
def State.keysAll (s : State) (core : Nat) : List (Acc × Word × Nat) → State × Except EngErr Unit
  | [] => (s, .ok ())
  | (a, va, n) :: rest =>
    match s.engKeys core a va n with
    | (s1, .error e) => (s1, .error e)
    | (s1, .ok _) => s1.keysAll core rest

/-- The ranges that a logged write of an element touches: the element, and with a snapshot open its log entry and the
record (R329). `i` counts earlier log entries of the same step. -/
def Forest.touch (f : Forest) (size : Bool) (x i : Nat) : List (Acc × Word × Nat) :=
  (.write, f.va size x, 4) ::
  (if f.snap then [(.write, f.lbase + BitVec.ofNat 64 (16 * (f.lhead + i)), 16), (.write, f.frec + 0x20, 4)] else [])

/-- Write an element, first recording the value it replaces when a snapshot is open (R329, Table 22.2). -/
def State.elemSet (s : State) (c : Cmd) (f : Forest) (size : Bool) (x v : Nat) : State × Except EngErr Forest :=
  match s.keysAll c.core (f.touch size x 0) with
  | (s1, .error e) => (s1, .error e)
  | (s1, .ok _) =>
    match s1.elemGet c f size x with
    | (s2, .error e) => (s2, .error e)
    | (s2, .ok old) =>
      let s3 := if f.snap then
          ((s2.engWrite c.core (f.lbase + BitVec.ofNat 64 (16 * f.lhead)) (leBytes 16 (x + bit size * 2 ^ 32 + old * 2 ^ 64))
            c.hint).1.engWrite c.core (f.frec + 0x20) (leBytes 4 (f.lhead + 1)) c.hint).1
        else s2
      ((s3.engWrite c.core (f.va size x) (leBytes 4 v) c.hint).1, .ok { f with lhead := f.lhead + bit f.snap })

/-- The forest of an operation in progress: its record as read at the start (R326), with the log entries in use now, which
other operations raise. -/
def State.forestNow (s : State) (c : Cmd) (frec : Word) : State × Except EngErr Forest :=
  match s.engRead c.core (frec + 0x20) 4 false c.hint with
  | (s1, .error e) => (s1, .error e)
  | (s1, .ok bs) => (s1, .ok { Forest.ofBytes frec c.cj.rcd with lhead := leNat bs })

/-! ## Walks, links and compression (R330-R332) -/

/-- A walk that begins at an element. -/
def Walk.start (x : Nat) : Walk := { y := x, path := [], found := false }

/-- The old value of an element of peer memory, whose lower bound `v` is taken in one reduction at the peer's home slice
(R332, R346); the value that it replaced is in the log (R329). -/
def State.elemMin (s : State) (c : Cmd) (f : Forest) (x v key : Nat) : State × Except EngErr Forest :=
  match s.keysAll c.core (f.touch false x 0) with
  | (s1, .error e) => (s1, .error e)
  | (s1, .ok _) =>
    match s1.peerAsk 0 key (.atomic .n32 .min (BitVec.ofNat 64 v) 0) with
    | (s2, some none) => (s2, .error (.page causeUCE (f.va false x) true false))
    | (s2, none) => (s2, .ok f)
    | (s2, some (some old)) =>
      if f.snap && v < old.toNat % 2 ^ 32 then
        (((s2.engWrite c.core (f.lbase + BitVec.ofNat 64 (16 * f.lhead)) (leBytes 16 (x + old.toNat % 2 ^ 32 * 2 ^ 64))
          c.hint).1.engWrite c.core (f.frec + 0x20) (leBytes 4 (f.lhead + 1)) c.hint).1, .ok { f with lhead := f.lhead + 1 })
      else (s2, .ok f)

/-- compress(z, y): one synchronising read and write of parent[z], only where y lies below the parent as it stands, and with
a snapshot open only while a log entry is free (R332). -/
def State.compress (s : State) (c : Cmd) (f : Forest) (y z : Nat) : State × Except EngErr Unit :=
  match s.elemGet c f false z with
  | (s1, .error e) => (s1, .error e)
  | (s1, .ok p) =>
    if y < p && !(f.snap && f.lcap ≤ f.lhead) then
      match s1.engKeys c.core .write (f.va false z) 4 with
      | (s2, .error e) => (s2, .error e)
      | (s2, .ok keys) =>
        match (if peerKey (keys.headD 0) then s2.elemMin c f z y (keys.headD 0) else s2.elemSet c f false z y) with
        | (s3, .error e) => (s3, .error e)
        | (s3, .ok _) => (s3, .ok ())
    else (s1, .ok ())

/-- One read of a walk, or one compression: how it goes on, or its root (R330). -/
def State.walkStep (s : State) (c : Cmd) (f : Forest) (nc : Bool) (w : Walk) : State × Except EngErr (Walk ⊕ Nat) :=
  if w.found then
    match w.path with
    | [] => (s, .ok (.inr w.y))
    | z :: rest =>
      match s.compress c f w.y z with
      | (s1, .error e) => (s1, .error e)
      | (s1, .ok _) => (s1, .ok (if rest = [] then .inr w.y else .inl { w with path := rest }))
  else
    match s.elemGet c f false w.y with
    | (s1, .error e) => (s1, .error e)
    | (s1, .ok p) =>
      if p = w.y then (s1, .ok (if nc || w.path = [] then .inr w.y else .inl { w with found := true }))
      else if w.y < p || f.nelem ≤ p then (s1, .error (.stop cBROKEN))
      else (s1, .ok (.inl { y := p, path := w.path ++ [w.y], found := false }))

/-- A result of UNITE, FIND or FSIZE (Table 22.6). -/
def conjResult (st link v : Nat) : Word := BitVec.ofNat 64 (st * 2 ^ 56 + link * 2 ^ 32 + v)

/-- The link step (R331), which is one step of the forest's engine: nothing where one of the two has ceased to be a root;
else the larger root goes under the smaller, and the sizes add. -/
def State.linkStep (s : State) (c : Cmd) (f : Forest) (lo hi : Nat) : State × Except EngErr (Option Word) :=
  match s.elemGet c f false lo with
  | (sa, .error e) => (sa, .error e)
  | (sa, .ok pl) =>
    match sa.elemGet c f false hi with
    | (s0, .error e) => (s0, .error e)
    | (s0, .ok ph) =>
      let sized := f.sbase ≠ 0
      let need := 1 + bit sized
      if pl ≠ lo || ph ≠ hi then (s0, .ok none)
      else if f.snap && f.lcap - f.lhead < need then (s0, .ok (some (conjResult cLOGFULL 0 0)))
      else
        let ranges := f.touch false hi 0 ++ (if sized then f.touch true lo 1 ++ [(.read, f.va true hi, 4)] else [])
        match s0.keysAll c.core ranges with
        | (s1, .error e) => (s1, .error e)
        | (s1, .ok _) =>
          let sum : State × Except EngErr Nat :=
            if sized then
              match s1.elemGet c f true lo with
              | (s2, .error e) => (s2, .error e)
              | (s2, .ok a) =>
                match s2.elemGet c f true hi with
                | (s3, .error e) => (s3, .error e)
                | (s3, .ok b) => (s3, .ok ((a + b) % 2 ^ 32))
            else (s1, .ok 0)
          match sum with
          | (s4, .error e) => (s4, .error e)
          | (s4, .ok n) =>
            match s4.elemSet c f false hi lo with
            | (s5, .error e) => (s5, .error e)
            | (s5, .ok f1) =>
              if sized then
                match s5.elemSet c f1 true lo n with
                | (s6, .error e) => (s6, .error e)
                | (s6, .ok _) => (s6, .ok (some (conjResult cDONE 1 lo)))
              else (s5, .ok (some (conjResult cDONE 1 lo)))

/-- How an operation of a thread goes on: at another place, or with its result. -/
abbrev ConjGo := State × Except EngErr (CjPos ⊕ Word)

/-- One step of UNITE, FIND or FSIZE (R331, R336, R337) on its forest. -/
def State.conjThread (s : State) (c : Cmd) (f : Forest) (op : Nat) (nc : Bool) (x y : Nat) : ConjGo :=
  let p := c.cj
  match p.walk with
  | some w =>
    match s.walkStep c f nc w with
    | (s1, .error e) => (s1, .error e)
    | (s1, .ok (.inl w1)) => (s1, .ok (.inl { p with walk := some w1 }))
    | (s1, .ok (.inr r)) =>
      match op, p.ra with
      | 1, _ => (s1, .ok (.inr (conjResult cDONE 0 r)))
      | 2, _ => (s1, .ok (.inl { p with walk := none, ra := some r }))
      | _, none => (s1, .ok (.inl { p with walk := some (.start y), ra := some r }))
      | _, some a =>
        (s1, .ok (if a = r then .inr (conjResult cDONE 0 a) else .inl { p with walk := none, rb := some r }))
  | none =>
    let a := p.ra.getD 0
    if op = 2 then
      match s.elemGet c f false a with
      | (s1, .error e) => (s1, .error e)
      | (s1, .ok q) =>
        if q ≠ a then (s1, .ok (.inl { p with walk := some (.start a), ra := none }))
        else
          match s1.elemGet c f true a with
          | (s2, .error e) => (s2, .error e)
          | (s2, .ok n) => (s2, .ok (.inr (conjResult cDONE 0 n)))
    else
      let b := p.rb.getD 0
      match s.linkStep c f (Nat.min a b) (Nat.max a b) with
      | (s1, .error e) => (s1, .error e)
      | (s1, .ok (some v)) => (s1, .ok (.inr v))
      | (s1, .ok none) => (s1, .ok (.inl { p with walk := some (.start x), ra := none, rb := none }))

/-! ## FSNAP and FUNDO (R334, R339, Table 22.3) -/

/-- How a step of a command leaves it: at another row, or done with the number its record reports. -/
abbrev RowGo := State × Except EngErr (Nat ⊕ Nat)

/-- After a write that ends a command. -/
def endsWith (n : Nat) (r : State × Except EngErr Unit) : RowGo :=
  match r with
  | (s1, .error e) => (s1, .error e)
  | (s1, .ok _) => (s1, .ok (.inr n))

/-- After a write that takes a command to a row. -/
def goesOn (n : Nat) (r : State × Except EngErr Unit) : RowGo :=
  match r with
  | (s1, .error e) => (s1, .error e)
  | (s1, .ok _) => (s1, .ok (.inl n))

/-- Write `lhead`, `mark` and `fflags`. -/
def State.putForest (s : State) (c : Cmd) (frec : Word) (lhead mark snap : Nat) : State × Except EngErr Unit :=
  s.engWrite c.core (frec + 0x20) (leBytes 4 lhead ++ leBytes 4 mark ++ leBytes 4 snap) c.hint

/-- One write of FSNAP (Table 22.3); `.init` writes its arrays in ascending order (R339), `row` of their elements so far. -/
def State.snapStep (s : State) (c : Cmd) (f : Forest) (op row : Nat) : RowGo :=
  match op with
  | 0 => endsWith 0 (if f.snap then s.engWrite c.core (f.frec + 0x24) (leBytes 4 f.lhead) c.hint else s.putForest c f.frec 0 0 1)
  | 1 => if f.snap then endsWith 0 (s.putForest c f.frec 0 0 0) else (s, .ok (.inr 0))
  | _ =>
    if row < f.nelem then goesOn (row + 1) (s.engWrite c.core (f.va false row) (leBytes 4 row) c.hint)
    else if row < 2 * f.nelem && f.sbase ≠ 0 then
      goesOn (row + 1) (s.engWrite c.core (f.va true (row - f.nelem)) (leBytes 4 1) c.hint)
    else endsWith f.nelem (s.putForest c f.frec 0 0 0)

/-- Read and check a log entry (R334): its array, its element and the value it holds. -/
def State.logEntry (s : State) (c : Cmd) (f : Forest) (i : Nat) : State × Except EngErr (Bool × Nat × Nat) :=
  match s.engRead c.core (f.lbase + BitVec.ofNat 64 (16 * i)) 16 false c.hint with
  | (s1, .error e) => (s1, .error e)
  | (s1, .ok bs) =>
    let idx := fld bs 0 4
    let arr := fld bs 4 4
    if fld bs 12 4 ≠ 0 || 2 ≤ arr || f.nelem ≤ idx || (arr = 1 && f.sbase = 0) then (s1, .error (.stop cBROKEN))
    else (s1, .ok (decide (arr = 1), idx, fld bs 8 4))

/-- One step of FUNDO: every entry is checked, from the last down, before any is put back (R334). -/
def State.undoStep (s : State) (c : Cmd) (f : Forest) (row : Nat) : RowGo :=
  let n := f.lhead - f.mark
  if !f.snap then (s, .error (.stop cNOSNAP))
  else if 2 * n ≤ row then endsWith n (s.engWrite c.core (f.frec + 0x20) (leBytes 4 f.mark) c.hint)
  else
    match s.logEntry c f (f.lhead - 1 - row % n) with
    | (s1, .error e) => (s1, .error e)
    | (s1, .ok y) =>
      if row < n then (s1, .ok (.inl (row + 1)))
      else goesOn (row + 1) (s1.engWrite c.core (f.va y.1 y.2.1) (leBytes 4 y.2.2) c.hint)

/-! ## RELABEL (R338) -/

/-- The new value of an output slot: the operation over the old value and the inputs, rounded once; `n` is their number. -/
def relabelNew (op old n : Nat) (xs : List Nat) : Nat :=
  let i (v : Nat) : Int := toInt true 32 v
  match op with
  | 0 => (xs.foldl (· + ·) old) % 2 ^ 32
  | 1 => (fp32.sum false .rne 0 false ((old :: xs).map (fun v => (fp32.operand false v).1.term))).1
  | 2 => xs.foldl (fun a b => if i a ≤ i b then a else b) old
  | 3 => xs.foldl (fun a b => if i a ≤ i b then b else a) old
  | 4 => xs.foldl (fun a b => (fp32.minmax false false a b).1) old
  | 5 => xs.foldl (fun a b => (fp32.minmax false true a b).1) old
  | _ => (old + n) % 2 ^ 32

/-- The one far reduction of a root of a window into its output slot, at home or at a peer's home slice (R116, R338): `n`
elements, with their inputs. -/
def State.reduceRoot (s : State) (c : Cmd) (op : Nat) (out : Word) (q n : Nat) (xs : List Nat) : State × Except EngErr Unit :=
  let a := out + BitVec.ofNat 64 (4 * q)
  match s.engKeys c.core .write a 4 with
  | (s1, .error e) => (s1, .error e)
  | (s1, .ok keys) =>
    let k := keys.headD 0
    if peerKey k then
      match s1.peerAsk 0 k (.reduce op (if op = 6 then List.replicate n 0 else xs)) with
      | (s2, some none) => (s2, .error (.page causeUCE a true false))
      | (s2, _) => (s2, .ok ())
    else
      match ((s1.atHome (k / 8)).applyReds (k / 64)).engRead c.core a 4 false c.hint with
      | (s2, .error e) => (s2, .error e)
      | (s2, .ok old) => s2.engWrite c.core a (leBytes 4 (relabelNew op (leNat old) n xs)) c.hint

/-- The elements of the window a RELABEL is at. -/
def windowEls (first n row : Nat) : List Nat := (List.range (Nat.min 4096 (n - 4096 * row))).map (fun i => first + 4096 * row + i)

/-- One step of a RELABEL: a step of the walk of its next element; once every element of the window has its root, the read of
one input of a root's elements, or that root's reduction when all are read. The second part is the row of the next window
once this one is done. -/
def State.relabelStep (s : State) (c : Cmd) (f : Forest) (op : Nat) (inp out : Word) (first n : Nat) :
    State × Except EngErr (CjPos ⊕ Nat) :=
  let p := c.cj
  match p.todo with
  | some [] => (s, .ok (.inr (c.row + 1)))
  | some (q :: rest) =>
    let ids := (p.roots.filter (fun e => e.2 = q)).map Prod.fst
    if op ≠ 6 && decide (p.ins.length < ids.length) then
      match s.engRead c.core (inp + BitVec.ofNat 64 (4 * ids.getD p.ins.length 0)) 4 false c.hint with
      | (s1, .error e) => (s1, .error e)
      | (s1, .ok bs) => (s1, .ok (.inl { p with ins := p.ins ++ [leNat bs] }))
    else
      match s.reduceRoot c op out q ids.length p.ins with
      | (s1, .error e) => (s1, .error e)
      | (s1, .ok _) => (s1, .ok (if rest = [] then .inr (c.row + 1) else .inl { p with todo := some rest, ins := [] }))
  | none =>
    let els := windowEls first n c.row
    let i := els.getD p.roots.length 0
    match s.walkStep c f false (p.walk.getD (.start i)) with
    | (s1, .error e) => (s1, .error e)
    | (s1, .ok (.inl w)) => (s1, .ok (.inl { p with walk := some w }))
    | (s1, .ok (.inr q)) =>
      let rs := p.roots ++ [(i, q)]
      (s1, .ok (.inl { p with walk := none, roots := rs,
                              todo := if els.length ≤ rs.length then some (rs.map Prod.snd).eraseDups else none }))

/-! ## Completion -/

/-- The end of FSNAP or FUNDO with DONE: zero bytes signalled, and a record that carries a number (R339). -/
def State.endForest (s : State) (c : Cmd) (n : Nat) : State :=
  let s1 := match c.arr with | some a => s.signal c.blk a 0 0 | none => s
  let s2 := s1.dropCmd c.id
  if c.rcd then s2.postRecord c.warp .cj (recordWord cDONE c.op 0 0 n) else s2

/-- A result reaches the split that waits for it; the last one lets it go on (R336). -/
def State.conjReturn (s : State) (c : Cmd) (thread : Nat) (v : Word) : State :=
  let s1 := s.dropCmd c.id
  match s1.warpAt c.warp with
  | none => s1
  | some w =>
    match w.splitAt c.split with
    | none => s1
    | some p =>
      match p.stop with
      | some (.conj pend) =>
        let pend1 := { pend with vals := Sparse.put pend.vals thread v, todo := pend.todo &&& ~~~ BitVec.ofNat 32 (2 ^ thread) }
        if pend1.todo ≠ 0 then s1.putWarp c.warp (w.putSplit { p with stop := some (.conj pend1) })
        else
          match pend.i.entry with
          | none => s1
          | some n =>
            let cx : WCtx := { key := c.warp, split := p, blk := w.blk, block := none, launch := none, time := 0,
                               stackLo := s.stackLo c.warp, stackHi := s.stackHi c.warp }
            let r := putDst cx w w n.o.a pend.T .general (fun t => Sparse.get 0 pend1.vals t)
            (s1.putWarp c.warp r.1).finish c.warp c.split n.x.seq (pend.held ++ r.2)
      | _ => s1

/-- A conjunction command's forest record. -/
def CmdK.frec : CmdK → Option Word
  | .conjOp _ _ _ f _ _ => some f
  | .relabel _ f _ _ _ _ => some f
  | .fsnap _ f => some f
  | .fundo f => some f
  | _ => none

/-- FSNAP and FUNDO are exclusive (R334). -/
def CmdK.exclusive : CmdK → Bool
  | .fsnap .. | .fundo .. => true
  | _ => false

/-- Whether a command may start on a forest whose record is at a key: earlier commands of its queue have started (R128),
the engine has fewer than 64 in progress (R328), an exclusive one finds none in progress on the forest, and any other
finds no exclusive one (R334). A command that has started may go on. -/
def State.conjMay (s : State) (c : Cmd) (key : Nat) : Bool :=
  let busy := s.cmds.filter (fun y => y.port = .cj && y.started && y.id ≠ c.id)
  s.free c &&
  (c.started ||
   ((s.earlier c (fun y => y.started)) &&
    (busy.filter (fun y => s.homeSlice y.g = s.homeSlice key)).length < 64 &&
    !busy.any (fun y => y.g = key && (c.k.exclusive || y.k.exclusive))))

/-- The operation whose step has asked a peer for something. -/
def conjAsker : Turn → Option Nat
  | .event (.conjunctionOperation _ op) => some op
  | _ => none

/-- A step of another operation on the same forest waits for a peer's answer. A step is one access, or a link step, which the
engine makes for one UNITE at a time (R331): until it is taken no other step on the forest is. -/
def State.forestAsks (s : State) (c : Cmd) : Bool :=
  let asks (i : Nat) : Bool := s.bexOut.any (fun r => r.who.any (fun w => conjAsker w.1 = some i)) ||
    s.bexDone.any (fun r => conjAsker r.who.1 = some i)
  s.cmds.any (fun y => y.port = .cj && y.started && y.g = c.g && y.id ≠ c.id && asks y.id)

/-- An operation ends with a status other than DONE (R336, R384). -/
def State.conjFail (s : State) (c : Cmd) (st : Nat) : State :=
  match c.k with
  | .conjOp _ _ t _ _ _ => s.conjReturn c t (conjResult st 0 0)
  | _ => s.endCmd c st 0 false

/-- What an access of an operation met: it ends, or waits for the reply to a record. -/
def State.conjErr (s : State) (c : Cmd) : EngErr → State
  | .stop st => s.conjFail c st
  | e => s.engFault c e

/-- The start of an operation whose record has been read: it is refused, or goes on from its first walk (R326, R336, R338). -/
def State.conjStart (s : State) (c : Cmd) (r : List Byte) : State :=
  let f := Forest.ofBytes (c.k.frec.getD 0) r
  if !forestOk (c.k.frec.getD 0) r then s.conjFail c cFOREST
  else
    match c.k with
    | .conjOp op _ _ _ x y =>
      if op = 2 && f.sbase = 0 then s.conjFail c cFOREST
      else if f.nelem ≤ x.toNat || (op = 0 && f.nelem ≤ y.toNat) then s.conjFail c cRANGE
      else s.putCmd { c with cj := { rcd := r, walk := some (.start x.toNat) } }
    | .relabel op _ inp out first n =>
      if f.nelem < first + n || (op ≠ 6 && inp.toNat % 4 ≠ 0) || out.toNat % 4 ≠ 0 then s.conjFail c cRANGE
      else s.putCmd { c with cj := { rcd := r } }
    | _ => s.putCmd { c with cj := { rcd := r } }

/-- FSNAP or FUNDO after a step. -/
def State.conjRow (s : State) (c : Cmd) (r : Except EngErr (Nat ⊕ Nat)) : State :=
  match r with
  | .error e => s.conjErr c e
  | .ok (.inl row) => s.putCmd { c with row := row }
  | .ok (.inr n) => s.endForest c n

/-- One step of an operation that has started: an access of a walk, a compression, a link step, a reduction, or a write of
FSNAP or FUNDO (R328-R339). -/
def State.conjRun (s : State) (c : Cmd) : State :=
  match s.forestNow c (c.k.frec.getD 0) with
  | (s0, .error e) => s0.conjErr c e
  | (s0, .ok f) =>
    match c.k with
    | .conjOp op nc t _ x y =>
      (match s0.conjThread c f op nc x.toNat y.toNat with
       | (s1, .error e) => s1.conjErr c e
       | (s1, .ok (.inl p)) => s1.putCmd { c with cj := p }
       | (s1, .ok (.inr v)) => s1.conjReturn c t v)
    | .fsnap op _ => let r := s0.snapStep c f op c.row; r.1.conjRow c r.2
    | .fundo _ => let r := s0.undoStep c f c.row; r.1.conjRow c r.2
    | .relabel op _ inp out first n =>
      (match s0.relabelStep c f op inp out first n with
       | (s1, .error e) => s1.conjErr c e
       | (s1, .ok (.inl p)) => s1.putCmd { c with cj := p }
       | (s1, .ok (.inr row)) =>
         if n ≤ 4096 * row then s1.endCmd c cDONE (4 * n) true
         else s1.putCmd { c with row := row, cj := { rcd := c.cj.rcd } })
    | _ => s0

/-- CONJUNCTION_OPERATION: a slice's engine performs a step of an operation. The first reads the forest's record (R326), and
is the operation's arrival at the engine; operations in progress interleave step by step (R331, R340). A command refused at
push ends here. -/
def execConjunctionOperation (slice op : Nat) (s : State) : Host.Outcome State Fault Refusal :=
  .next (match s.cmdAt op with
    | none => s
    | some c =>
      match c.k.frec with
      | none => s
      | some fr =>
        match c.status with
        | some st => if s.free c && (c.started || s.earlier c (fun y => y.started)) then s.endCmd c st 0 (decide (st = cNOOP)) else s
        | none =>
          if c.started then
            (if s.homeSlice c.g ≠ slice || !s.free c || s.forestAsks c then s
             else if c.cj.rcd = [] then
               match s.engRead c.core fr 64 false c.hint with
               | (s1, .error e) => s1.conjErr c e
               | (s1, .ok r) => s1.conjStart c r
             else s.conjRun c)
          else
            match s.engKeys c.core .read fr 64 with
            | (s1, .error e) => if s.conjMay c (2 ^ 60) then s1.conjErr c e else s
            | (s1, .ok keys) =>
              let key := keys.headD 0
              if s.homeSlice key ≠ slice || !s1.conjMay c key then s
              else
                let c1 := { c with started := true, g := key }
                let s2 := (s1.count .slice slice 0x120 none none (some 4)).putCmd c1
                match s2.engRead c.core fr 64 false c.hint with
                | (s3, .error e) => s3.conjErr c1 e
                | (s3, .ok r) => s3.conjStart c1 r)

/-! ## The words (R335, R336, R338, R339) -/

/-- Push the operations of a stopped word together once the queue has room for all (R336). -/
def State.conjPush (s : State) (k pid : Nat) (pend : Pend) (op : Nat) (nc : Bool) : State :=
  let ts := pend.T.threads
  if s.roomIn (keyCore k) .cj ts.length then
    (ts.foldl (fun st t => st.pushCmd { st.newCmd k pid .cj 0 false none none
      (.conjOp op nc t (pend.ops.gb t) (pend.ops.gc t) (pend.ops.gd t)) with hint := hintOf pend.i }) s).stopSplit k pid (.conj { pend with prog := 1 })
  else s.stopSplit k pid (.conj { pend with prog := 0 })

/-- Issue UNITE, FIND or FSIZE. -/
def conjWord (i : Instr) (x : Ctl) (op : Nat) (nc : Bool) (srcs : List Spec) (o : Slots) (s : State) :
    Host.Outcome State Fault Refusal :=
  match s.context with
  | none => .fault .noIssuer
  | some (c, w, p) =>
    let T := activeMask w p x
    if T = 0 then .next (s.seqAct c.key p.id x.seq)
    else
      match popAll w.ports o with
      | none => .next s
      | some (ports, pv) =>
        let ops := readOps c w {} o pv
        let u := uceMask w (srcs ++ guards x) T
        let us := if u = 0 then [] else [{ cause := tUCE, mask := u, addr := 0 }]
        let r := (s.putWarp c.key { w with ports := ports }).illegalOp c.key (T &&& ~~~ u)
        .next (if r.2 = 0 then r.1.finish c.key p.id x.seq us
          else r.1.conjPush c.key p.id { i := i, T := r.2, todo := r.2, ops := ops, held := us } op nc)

/-- UNITE. -/
def execUnite (x : Ctl) (nc : Bool) (o : Slots) (s : State) : Host.Outcome State Fault Refusal :=
  conjWord (.unite x nc o) x 0 nc [o.b, o.c, o.d] o s
/-- FIND. -/
def execFind (x : Ctl) (nc : Bool) (o : Slots) (s : State) : Host.Outcome State Fault Refusal :=
  conjWord (.find x nc o) x 1 nc [o.b, o.c] o s
/-- FSIZE. -/
def execFsize (x : Ctl) (nc : Bool) (o : Slots) (s : State) : Host.Outcome State Fault Refusal :=
  conjWord (.fsize x nc o) x 2 nc [o.b, o.c] o s

/-- The number of a RELABEL operation (Table 22.5). -/
def RelOp.num : RelOp → Nat
  | .addI => 0 | .addF => 1 | .minI => 2 | .maxI => 3 | .minF => 4 | .maxF => 5 | .count => 6
/-- The number of an FSNAP operation. -/
def SnapOp.num : SnapOp → Nat
  | .openS => 0 | .closeS => 1 | .initS => 2

def planRelabel (m : RelMod) (o : Slots) : PushPlan :=
  { port := .cj, once := false, reads := fun _ _ v t => countRead m.cw (v.gd t),
    cmd := fun s c v t => s.named c 0x10 m.rcd (o.e, v.ge t) (.none, 0),
    push := fun s c v t =>
      let n := (s.countOf c.blk m.cw false (v.gd t)).getD (2 ^ 24 + 1)
      s.pushCmd { c with
        k := .relabel (RelOp.num m.op) (v.ga t) (v.gb t) (v.gc t) m.first.toNat n
        status := firstStatus [(2 ^ 24 < n, cRANGE), (n = 0, cNOOP), (!s.wordsOk c (o.e, v.ge t) (.none, 0), cRANGE)]
        decl := if 2 ^ 24 < n then none else some (4 * n) } }

/-- FSNAP and FUNDO push alike (R339). -/
def planForest (op : Nat) (rcd : Bool) (o : Slots) (kd : Word → CmdK) : PushPlan :=
  { port := .cj, once := false, reads := fun _ _ _ _ => [],
    cmd := fun s c v t => s.named c op rcd (o.b, v.gb t) (.none, 0),
    push := fun s c v t =>
      s.pushCmd { c with
        k := kd (v.ga t)
        status := if s.wordsOk c (o.b, v.gb t) (.none, 0) then none else some cRANGE
        decl := some 0 } }

/-- RELABEL. -/
def execRelabel (x : Ctl) (m : RelMod) (o : Slots) (s : State) : Host.Outcome State Fault Refusal :=
  pushWord (.relabel x m o) x [o.a, o.b, o.c, o.d, o.e] o (planRelabel m o) s
/-- FSNAP. -/
def execFsnap (x : Ctl) (op : SnapOp) (rcd : Bool) (o : Slots) (s : State) : Host.Outcome State Fault Refusal :=
  pushWord (.fsnap x op rcd o) x [o.a, o.b] o (planForest 0x11 rcd o (.fsnap (SnapOp.num op))) s
/-- FUNDO. -/
def execFundo (x : Ctl) (rcd : Bool) (o : Slots) (s : State) : Host.Outcome State Fault Refusal :=
  pushWord (.fundo x rcd o) x [o.a, o.b] o (planForest 0x12 rcd o .fundo) s

/-! ## ENGINE_QUEUE_PUSH (R250, R265, R336) -/

/-- How a word that pushes commands goes on pushing. -/
def pushPlanOf : Instr → Option (Seq × PushPlan)
  | .cpy x m o => some (x.seq, planCpy m o)
  | .cpyt x m o => some (x.seq, planCpyt m o)
  | .cpym x m o => some (x.seq, planCpym m o)
  | .cpyg x m o => some (x.seq, planCpyg m o)
  | .gth x m o => some (x.seq, planGather false m o)
  | .sct x m o => some (x.seq, planGather true m o)
  | .wld x m o => some (x.seq, planWld m o)
  | .mma x m o => some (x.seq, planMul false m o)
  | .mms x m o => some (x.seq, planMul true m o)
  | .aclr x m _ => some (x.seq, planAclr m)
  | .epi x m o => some (x.seq, planEpi m o)
  | .board x m o => some (x.seq, planBoard m o)
  | .relabel x m o => some (x.seq, planRelabel m o)
  | .fsnap x op rcd o => some (x.seq, planForest 0x11 rcd o (.fsnap (SnapOp.num op)))
  | .fundo x rcd o => some (x.seq, planForest 0x12 rcd o .fundo)
  | _ => none

/-- A command of a block whose matrix state is discarded: it pushes no follow-on any more (R264, R283). -/
def spill (c : Cmd) : Cmd :=
  match c.k with
  | .copy a d m _ pre unpub => { c with k := .copy a d m none pre unpub }
  | .unread i v t k _ => { c with k := .unread i v t k true }
  | _ => c

/-- A command whose record could not be read is read again, in its place in its queue (R270, R304). -/
def State.rereadCmd (s : State) (c : Cmd) : State :=
  match c.k with
  | .unread i v t k0 gone =>
    (match pushPlanOf i with
     | none => s
     | some (_, pl) =>
       match s.badRead c.blk (pl.reads s c.blk v t) with
       | some a => s.engFault c (.page causeUCE a false false)
       | none =>
         -- the push appends its command; the command then takes the place of the one that waited
         let s1 := pl.push s { c with k := k0 } v t
         match s1.cmdAt s.nextUid with
         | some y =>
           let rest := s1.cmds.filter (fun (x : Cmd) => x.id ≠ s.nextUid)
           let y1 := if gone then spill y else y
           let s2 : State := { s1 with cmds := rest.map (fun (x : Cmd) => if x.id = c.id then { y1 with id := c.id, after := c.after } else x) }
           (match s2.blockAt c.blk with
            | none => s2
            | some b =>
              s2.putBlock c.blk { b with tiles := b.tiles.map (fun (t : Tile) =>
                ({ t with writers := t.writers.map (fun i => if i = s.nextUid then c.id else i) } : Tile)) })
         | none => s1.dropCmd c.id)
  | _ => s

/-- The operation of a thread word of the conjunction engine. -/
def conjOf : Instr → Option (Nat × Bool)
  | .unite _ nc _ => some (0, nc)
  | .find _ nc _ => some (1, nc)
  | .fsize _ nc _ => some (2, nc)
  | _ => none

/-- ENGINE_QUEUE_PUSH: a split stopped on a push goes on as entries free; a participant of a collector command goes on
pushing the command it completed (R246). -/
def execEngineQueuePush (r : Ref) (s : State) : Host.Outcome State Fault Refusal :=
  .next (match s.warpAt (refKey r) with
    | none => s
    | some w =>
      match w.splitAt r.split with
      | none => s
      | some p =>
        match p.stop with
        | some (.push pend) =>
          (match pushPlanOf pend.i with
           | some (q, pl) => s.runPush (refKey r) r.split q pl pend
           | none => s)
        | some (.conj pend) =>
          (match conjOf pend.i with
           | some (op, nc) => if pend.prog = 0 then s.conjPush (refKey r) r.split pend op nc else s
           | none => s)
        | some (.mmr _) => s.pushForm r.core
        | _ => s)

end Sys2Proof.Machine
end

