-- ==== Sys2Proof/Machine/FaultQueue.lean ====
section
/-! DEFINITION. FaultQueue.lean: the device fault queue, the driver's replies, and the invalidations of translations and
instruction caches (R302-R304, R307, R324, R382). -/

namespace Sys2Proof.Machine

/-! ## Posting (R302) -/

/-- A record's bytes (Table 20.3). -/
def FRec.bytes (r : FRec) (seq : BitVec 32) : List Byte :=
  leBytes 8 r.faddr.toNat ++ leBytes 8 r.fpc.toNat ++ leBytes 8 r.flrec.toNat ++ leBytes 4 seq.toNat ++ leBytes 1 r.fcore ++
  leBytes 1 r.floc ++ leBytes 1 r.fcause ++ leBytes 1 r.facc ++ leBytes 4 r.ftmask.toNat ++ leBytes 4 r.fbid.toNat ++
  leBytes 2 r.fdet ++ leBytes 22 0

/-- A cause whose record takes a reply (R303). -/
def replyable (cause : Nat) : Bool := 0x20 ≤ cause && cause ≤ 0x26

/-- FAULT_RECORD_POST: the oldest event not yet recorded is written to the ring, unless the queue is not configured or the
ring is full. -/
def execFaultRecordPost (k : Nat) (s : State) : Host.Outcome State Fault Refusal :=
  .next (match s.sys.posts.find? (fun f => f.seq.isNone) with
    | none => s
    | some f =>
      let y := s.sys
      if f.id ≠ k || y.fqbase = 0 || ringLen y.fqsize ≤ (y.fqhead - y.fqtail).toNat then s
      else
        let a := y.fqbase.toNat + 64 * (y.fqhead.toNat % ringLen y.fqsize)
        let posts := if replyable f.r.fcause
          then y.posts.map (fun g => if g.id = f.id then { g with seq := some y.fseq } else g)
          else y.posts.filter (fun g => g.id ≠ f.id)
        let y1 := { y with fqhead := y.fqhead + 1, fseq := y.fseq + 1, posts := posts }
        let s1 := match s.key a with | some q => s.syncWrite q (f.r.bytes y.fseq) | none => s
        { s1 with sys := y1 })

/-! ## Replay (R303, R382) -/

/-- How a memory word is performed again. -/
def memPlanOf : Instr → Option (Seq × Plan)
  | .ld x m o => some (x.seq, planLd x m o)
  | .st x m _ => some (x.seq, planSt x m)
  | .ldu x m o => some (x.seq, planLdu x m o)
  | .stu x m _ => some (x.seq, planStu x m)
  | .chk x m o => some (x.seq, planChk x m o)
  | .ldm x m o => some (x.seq, planLdm x m o)
  | .locq x o => some (x.seq, planLocq o)
  | .cflush x op off _ => some (x.seq, planCflush x.hint op off)
  | .atom x m o => some (x.seq, planAtom x m o)
  | .atomc x m o => some (x.seq, planAtom x m o)
  | .red x m _ => some (x.seq, planRed x m)
  | .xst x m _ => some (x.seq, planXst m)
  | .arrv x op o => some (x.seq, planArrv op o)
  | _ => none

/-- A `qxs` status record (Table 10.15); [47:40] is put in by `portRecord`. -/
def qxsRecord (kind : Nat) (moved : Bool) (core away : Nat) : Word :=
  BitVec.ofNat 64 (kind * 2 ^ 56 + bit moved * 2 ^ 48 + core * 2 ^ 32 + Nat.min away (2 ^ 32 - 1))

/-- A halted block continues: each warp receives its record, and the halting split acts on its sequencing field (R136,
R324), unless its warp has lost matrix state and starts anew at its `$restart` header (R311). -/
def State.unhalt (s : State) (k pid : Nat) (q : Seq) (anew : Bool) : State :=
  match s.warpAt k with
  | none => s
  | some w =>
    match s.blockAt w.blk with
    | none => s
    | some b =>
      let s1 := s.putBlock w.blk { b with halted := false }
      let s2 := (s1.blockWarps w.blk).foldl (fun st e =>
        st.putWarp e.1 (e.2.portRecord .xs (qxsRecord 4 false b.core 0))) s1
      if !anew then s2.seqAct k pid q
      else match s2.warpAt k with
        | none => s2
        | some v => (match v.splitAt pid with | some p => s2.putWarp k (v.putSplit { p with stop := none }) | none => s2)

/-- Perform again the word of a split whose record has been replied to. -/
def State.replaySplit (s : State) (k pid : Nat) (pend : Pend) : State :=
  match pend.i with
  | .wait x m o => s.waitIssue k pid x m o pend
  | .spawn x rcd o => s.spawnRun k pid x rcd o pend
  | .rft _ op o =>
    let a := match o.a, s.warpAt k with | .w i, some w => w.wGet i | _, _ => 0
    s.rft k pid pend.i op a
  | .rstl x _ => s.rstl k pid pend.i x.seq (pend.ops.ga 0)
  | .halt x _ _ => s.unhalt k pid x.seq (decide (pend.prog = 1))
  | .ill => (match pend.held with | tr :: _ => s.takeTrap k pid tr | [] => s)
  | i => match memPlanOf i with | some (q, pl) => s.perform k pid q pl pend | none => s

/-- Go on with a split whose record has been replied to. -/
def State.afterReply (s : State) (k pid : Nat) : State :=
  match s.warpAt k with
  | none => s
  | some w =>
    match w.splitAt pid with
    | none => s
    | some p =>
      match p.stop with
      | some (.replay _ pend) => s.replaySplit k pid pend
      | some (.refetch _ q) => s.seqAct k pid q
      | some (.refetchWord _) => s.putWarp k (w.putSplit { p with stop := none })
      | _ => s

/-- The record a stopped split waits for. -/
def Stop.rcd : Stop → Option Nat
  | .replay u _ => some u
  | .refetch u _ => some u
  | .refetchWord u => some u
  | _ => none

/-- The resident split that waits for a record: its warp's key and its number. -/
def State.waiterOf (s : State) (u : Nat) : Option (Nat × Nat) :=
  s.warps.findSome? (fun e => e.2.bind (fun w =>
    (w.splits.find? (fun p => p.stop.bind Stop.rcd = some u)).map (fun p => (e.1, p.id))))

/-- The record of a number, if it still takes a reply. -/
def State.recordOf (s : State) (seq : BitVec 32) : Option FPost := s.sys.posts.find? (fun f => f.seq = some seq)

/-- A record has been replied to. -/
def State.closeRecord (s : State) (u : Nat) : State :=
  { s with sys := { s.sys with posts := s.sys.posts.filter (fun f => f.id ≠ u) } }

/-- What a reply lets go on: the split, the command or the stack copy that waited for the record. One whose block is saved,
or being saved, goes on after the restore, when it finds its record replied to (R303, R313). -/
def State.release1 (s : State) (f : FPost) : State :=
  match f.owner with
  | .cmd i => (match s.cmdAt i with | some c => (s.putCmd { c with fault := none }).rereadCmd { c with fault := none } | none => s)
  | .copyBack i => { s with rests := s.rests.map (fun r => if r.ctx = some i then { r with copying := false } else r) }
  | _ =>
    match s.waiterOf f.id with
    | some (k, pid) =>
      if (match s.warpAt k with | some w => s.stopping w.blk | none => false) then s else s.afterReply k pid
    | none => s

/-- FQREPLY_REPLAY: accepted for the faults of translation and for uncorrectable errors of engines. -/
def execFqReplyReplay (seq : BitVec 32) (s : State) : Host.Outcome State Fault Refusal :=
  .next (match s.recordOf seq with
    | none => s
    | some f => if 0x20 ≤ f.r.fcause && f.r.fcause ≤ 0x23 then (s.closeRecord f.id).release1 f else s)

/-- The follow-on that a command pushes at its end. -/
def Cmd.follow (c : Cmd) : Option Follow :=
  match c.k with
  | .copy _ _ _ fol .. => fol
  | .board b => b.fol
  | _ => none

/-- A command whose fault is fatal completes with FAULT, or STORE for the epilogue, and the word of the follow-on it does not
push is signalled (R263, R270); an operation of a thread gives no result (R336). -/
def State.failCmd (s : State) (c : Cmd) : State :=
  match c.k with
  | .conjOp .. => s.dropCmd c.id
  | _ => (s.endCmd { c with fault := none } (if c.port = .ep then cSTORE else cFAULT) 0 false).dropFollow c.blk c.follow arrFault

/-- FQREPLY_FATAL: the launch ends with FAULTED, and a command that waited for the reply completes with it. -/
def execFqReplyFatal (seq : BitVec 32) (s : State) : Host.Outcome State Fault Refusal :=
  .next (match s.recordOf seq with
    | none => s
    | some f =>
      let s1 := s.closeRecord f.id
      let s2 := match f.owner with
        | .cmd i => (match s1.cmdAt i with | some c => s1.failCmd c | none => s1)
        | _ => s1
      match f.launch with
      | some l => s2.endLaunch l lFAULTED
      | none => s2)

/-- FQREPLY_RESUME: accepted for HALT. -/
def execFqReplyResume (seq : BitVec 32) (s : State) : Host.Outcome State Fault Refusal :=
  .next (match s.recordOf seq with
    | none => s
    | some f => if f.r.fcause = 0x25 then (s.closeRecord f.id).release1 f else s)

/-! ## Invalidation (R307) -/

/-- TINV: the invalidation begins; one that was under way is finished first. -/
def execTinv (v : Word) (s : State) : Host.Outcome State Fault Refusal :=
  let s1 := if s.sys.tinv.isSome then s.dropTranslations else s
  .next (if s.ident.state ≠ 1 then s else { s1 with sys := { s1.sys with tinv := some v } })

/-- TINV_COMPLETE: every translation derived from the range is dropped, once no access that may use one is under way. A cache
may lose any other entry at any time, so all are dropped. -/
def execTinvComplete (s : State) : Host.Outcome State Fault Refusal :=
  .next (if s.sys.tinv.isSome && s.late.isEmpty && s.reds.isEmpty then { s.dropTranslations with sys := { s.sys with tinv := none } } else s)

/-- ICINV: the invalidation of every instruction cache begins. -/
def execIcinv (s : State) : Host.Outcome State Fault Refusal :=
  .next (if s.ident.state ≠ 1 then s else { s with sys := { s.sys with icinv := true } })

/-- ICINV_COMPLETE. -/
def execIcinvComplete (s : State) : Host.Outcome State Fault Refusal :=
  .next (if s.sys.icinv then
      { s with cores := s.cores.map (fun e => (e.1, { e.2 with code := [] })), sys := { s.sys with icinv := false } }
    else s)

end Sys2Proof.Machine
end

