-- ==== Sys2Proof/Machine/Preempt.lean ====
section
/-! DEFINITION. Preempt.lean: pre-emption, saved contexts, restore and cancellation (R308-R315, R136, R264, R283, R297). -/

namespace Sys2Proof.Machine

/-! ## Taking blocks off their cores (R308, R309) -/

/-- Bytes of a save area. -/
def areaBytes : Nat := 2 ^ 24

/-- The save-area list at a physical address, ended by 0. A word that cannot be read ends it too (log entry 108). -/
def State.areaList (s : State) : Nat → Nat → State × List Word
  | 0, _ => (s, [])
  | fuel + 1, a =>
    match s.key a with
    | none => (s, [])
    | some k =>
      let s1 := (s.gate [k]).askPeers s.devCore [k] false
      if s1.homeBad k || s1.peerFailed [k] || s1.homeWord k = 0 then (s1, [])
      else
        let r := s1.areaList fuel (a + 8)
        (r.1, s1.homeWord k :: r.2)

/-- Stack bytes in use by a warp. -/
def State.stackUse (s : State) (k : Nat) (w : Warp) : Nat := s.stackHi k - w.sp.toNat

/-- Bytes of a block's saved state: banks and stacks, and a part for registers and bookkeeping whose size no rule gives
(log entry 12). -/
def State.stateBytes (s : State) (b : Nat) (x : Block) : Nat :=
  let ws := s.blockWarps b
  let banks := match s.launchAt x.launch with | some l => 65536 * partSp2 l.part | none => 0
  banks + ws.foldl (fun a e => a + s.stackUse e.1 e.2) 0 + Config.freePick 20 ws.length banks

/-- A block is idempotent (R310). -/
def State.idempotent (s : State) (b : Nat) (x : Block) : Bool :=
  match s.launchAt x.launch with
  | none => false
  | some l =>
    let h := Header.ofSlot x.ehw
    l.kind ≠ 2 && h.idem && h.region ≠ 0 && x.regions.all (· = h.region) &&
    (s.blockWarps b).all (fun e => e.2.regions.all (· = h.region)) &&
    !l.tbars.any (fun z => z.arrived.any (fun e => e.1 = b))

/-- A block has lost matrix state (R311). -/
def State.losesMatrix (s : State) (b : Nat) (x : Block) : Bool :=
  let m := (s.coreAt x.core).matrix
  x.tiles ≠ [] || x.bankUsed || s.cmds.any (fun c => c.blk = b && (c.port = .mx || c.port = .ep || c.port = .bd)) ||
  (m.owner = some x.launch && (m.active.isSome || m.standby.isSome || m.filling.isSome))

/-- A command that the spill engine takes: a copy not yet in flight, or any gather command (R283). -/
def spilled (c : Cmd) : Bool := (c.port = .cp && !c.started) || c.port = .ga

/-- A position of an SCT has asked a peer for a reduction. -/
def State.positionAsks (s : State) (cmd : Nat) : Bool :=
  let asks (t : Turn) : Bool := match t with | .event (.scatterPosition i _) => i = cmd | _ => false
  s.bexOut.any (fun r => r.who.any (fun w => asks w.1)) || s.bexDone.any (fun r => asks r.who.1)

/-- A gather command stands where it is stopped: between patches, windows or positions (R283). -/
def State.atBoundary (s : State) (c : Cmd) : Bool :=
  !s.positionAsks c.id && match c.k with
  | .patch _ esz pw ph .. => decide (c.row % (pw * ph * 2 ^ esz) = 0)
  | .gather _ _ _ _ part => part.isNone
  | .scatter _ _ _ _ part => part.isNone
  | _ => true

/-- Put a command among others in push order. -/
def insertCmd (c : Cmd) : List Cmd → List Cmd
  | [] => [c]
  | y :: rest => if y.id < c.id then y :: insertCmd c rest else c :: y :: rest

/-- The commands of a block that the spill engine takes, in push order. A conjunction command that a QFENCE holds behind one of
them cannot run to completion before it, so it goes with it, and so does what stands behind it in `qcj` (R128, log entry
96). -/
def State.handedOver (s : State) (b : Nat) : List Cmd :=
  (s.cmds.filter (fun c => c.blk = b)).foldl (fun acc c =>
    if spilled c || (c.port = .cj && !c.started &&
      acc.any (fun y => c.after.contains y.id || y.port = .cj)) then acc ++ [c] else acc) []

/-- The splits of a warp at the boundary they stop at: one stopped in MMR keeps its PC at the MMR word (R264, R309). -/
def boundarySplit (p : Split) : Split :=
  match p.stop with
  | some (.mmr _) => { p with stop := none }
  | _ => p

/-- A board is cancelled: it signals its undelivered bytes, and its record is discarded (R297). -/
def State.cancelBoard (s : State) (c : Cmd) : State :=
  let d := { c with rcd := false }
  match c.k with
  | .board b => s.boardEnd d b (c.status.getD cCANCELLED)
  | _ => s.endCmd d cCANCELLED 0 false

/-- Steps 1 to 4 of R309 for a block: its splits stop, transactions abort, matrix and epilogue state goes, boards are
cancelled, and queued copies leave their queues; gather commands follow once each has come to a boundary. The weights and
banks of the engine go with the last of the launch's blocks on the core that is stopped: while a block of the launch that the
areas could not hold keeps running there, they stay (R240, R308; log entry 114). -/
def State.haltBlock (s : State) (b : Nat) (x : Block) (areas : List Word) : State :=
  let mine := s.cmds.filter (fun c => c.blk = b)
  let idem := s.idempotent b x
  let handed := s.handedOver b
  let out := handed.filter (fun c => c.port ≠ .ga)
  let v : Saving := { blk := b, areas := areas, idem := idem, lost := s.losesMatrix b x, cmds := out.map spill }
  let s1 := (s.blockWarps b).foldl (fun (st : State) e =>
    st.putWarp e.1 { (e.2.abortTxns (~~~ 0) 6) with splits := e.2.splits.map boundarySplit }) s
  let s2 := (mine.filter (fun c => c.port = .bd)).foldl (fun st c => st.cancelBoard c) s1
  let left := (s2.cmds.filter (fun c => !(c.blk = b && (c.port = .mx || c.port = .ep || out.any (fun y => y.id = c.id))))).map
    (fun c => if c.blk = b then spill c else c)
  let s3 := { s2 with cmds := left }
  let s4 := match s3.blockAt b with | some y => s3.putBlock b { y with tiles := [] } | none => s3
  let rest := (s4.coreBlocks x.core).any (fun e => e.2.launch = x.launch && e.1 ≠ b && !s4.stopping e.1)
  let s5 := s4.setMatrix x.core (fun m =>
    let m1 := { m with forms := m.forms.filter (fun f => f.blk ≠ b) }
    if m.owner = some x.launch && !rest then { m1 with active := none, standby := none, filling := none, banks := [] } else m1)
  { s5 with sys := { s5.sys with saving := s5.sys.saving ++ [v] } }

/-- Step 5 of R309 is over for a block: its commands have all completed, or are gather commands that stand at a boundary; no
access of its warps or to its scratchpad is under way, and every split of it stands between two words. -/
def State.quiet (s : State) (b : Nat) : Bool :=
  s.cmds.all (fun c => c.blk ≠ b || (c.port = .ga && s.atBoundary c)) &&
  !s.late.any (fun y => (s.blockWarps b).any (fun e => e.1 = y.key) || y.keys.any (fun k => keyBlock k = some b)) &&
  (s.blockWarps b).all (fun e => e.2.splits.all (fun p => match p.stop with | some (.underway _) => false | _ => true))

/-! ## Saving (R308, R309, R312) -/

/-- Barrier objects a block holds: ids whose current generation has an arrival (R312). -/
def State.barObjects (s : State) (b : Nat) (x : Block) : Nat :=
  (x.bars.filter (fun e => e.2.arrived ≠ [])).length +
  (match s.launchAt x.launch with
   | some l => (l.tbars.filter (fun z => z.arrived.any (fun e => e.1 = b))).length
   | none => 0)

/-- The context area header and the list of further areas (R308, Table 20.8). -/
def contextHeader (l : Launch) (x : Block) (idem lost restart : Bool) (stk nbars ncopy nwait ready size : Nat)
    (areas : List Word) : List Byte :=
  leBytes 4 l.part.toNat ++ leBytes 2 l.warps ++ leBytes 2 nbars ++ leBytes 4 stk ++
  leBytes 1 (bit idem + 2 * bit lost + 4 * bit restart + 8 * bit l.reloc) ++ leBytes 1 x.core ++ leBytes 2 0 ++
  leBytes 8 l.addr.toNat ++ leBytes 4 x.bid.toNat ++ leBytes 4 ncopy ++ leBytes 4 nwait ++ leBytes 4 ready ++
  leBytes 8 size ++ leBytes 4 areas.length ++ leBytes 204 0 ++ (areas.drop 1).flatMap (fun a => leBytes 8 a.toNat)

/-- Where save areas lie: runs of keys, in chunks of 4 KiB over the vaults where an area is interleaved (R91, R92). -/
def State.areaRuns (s : State) (areas : List Word) : List (Nat × Nat) :=
  areas.flatMap (fun a =>
    if paApt a.toNat = 0 && paIl a.toNat then
      (List.range (areaBytes / 4096)).filterMap (fun j => (s.key (a.toNat + 4096 * j)).map (fun k => (k, 4096)))
    else (s.key a.toNat).toList.map (fun k => (k, areaBytes)))

/-- What memory holds in save areas, without the `ready` field of the first (R312). -/
def State.areaImage (s : State) (areas : List Word) : List Host.Cell :=
  let runs := s.areaRuns areas
  let rdy := (areas.head?.bind (fun a => s.key (a.toNat + 0x24))).getD 0
  s.mem.filter (fun c => runs.any (fun r => r.1 ≤ c.1 && c.1 < r.1 + r.2) && !(rdy ≤ c.1 && c.1 < rdy + 4))

/-- A fault-queue record of a context (Table 20.3). -/
def contextRec (l : Option Launch) (core : Nat) (bid : BitVec 32) (area : Word) (cause fdet : Nat) : FRec :=
  { faddr := area, fpc := 0, flrec := match l with | some y => y.addr | none => 0, fcore := core, floc := 0,
    fcause := cause, facc := 0, ftmask := 0, fbid := bid, fdet := fdet }

/-- Steps 6 to 8 of R309: the release, the save, and the record. -/
def State.saveBlock (s : State) (v : Saving) (x : Block) (l : Launch) : State :=
  let ws := s.blockWarps v.blk
  let keys := ws.map Prod.fst
  let (u, s0) := s.fresh
  let s1 := if v.idem then s0 else s0.release x.core (some l) .package
  let stk := ws.foldl (fun a e => Nat.max a (s.stackUse e.1 e.2)) 0
  let mine (y : Wait) : Bool := y.ctx.isNone && keys.contains y.warp
  -- what the release has fired counts as fired (R230)
  let held := s1.waits.filter mine
  let nbars := s.barObjects v.blk x
  let cmds := if v.idem then [] else ((s.cmds.filter (fun c => c.blk = v.blk)).map spill).foldl (fun l c => insertCmd c l) v.cmds
  let restart := ws.any (fun e => e.2.restart ≠ 0)
  let size := if v.idem then 256 else 256 + 8 * (v.areas.length - 1) + s.stateBytes v.blk x
  let nwait := if v.idem then 0 else held.foldl (fun a y => a + y.ents.length) 0
  let hdr := contextHeader l x v.idem v.lost restart stk nbars cmds.length nwait
    (bit (!v.idem && held.any (fun y => y.result.isSome))) size v.areas
  let s2 := match v.areas.head? with
    | some a => s1.syncWriteAt ((List.range hdr.length).filterMap (fun i => s1.key (a.toNat + i))) hdr
    | none => s1
  let keep (w : Warp) : Warp := {
    w with
    hoist := [], tags := [], ports := w.ports.filter (fun e => e.1 ≠ .mx && e.1 ≠ .ep && e.1 ≠ .bd), windows := [] }
  let sv : Saved := {
    id := u, blk := x, blkId := v.blk, warps := ws.map (fun e => (e.1, keep e.2)), cmds := cmds, areas := v.areas,
    image := s2.areaImage v.areas, idem := v.idem, lost := v.lost, core := x.core, lrec := l.addr, stk := stk,
    nbars := nbars, base := s.ctl.stkbase, size := s.ctl.stksize, time := s.time, alive := true }
  let waits := if v.idem then refillAll (s2.waits.filter (fun y => !mine y))
    else s2.waits.map (fun y => if mine y then { y with ctx := some u } else y)
  -- a context whose first area this one takes is in no area any more
  let old := s2.saved.map (fun y => if y.areas.head?.any v.areas.contains then { y with areas := [] } else y)
  let s3 : State := { s2 with
    waits := waits, saved := old ++ [sv], cmds := s2.cmds.filter (fun c => c.blk ≠ v.blk) }
  let s4 := s3.removeBlock v.blk
  let r := contextRec (some l) x.core x.bid (v.areas.headD 0) 0x30 0
  let s5 := (s4.post r (.context u) (some x.launch)).2
  { s5 with sys := { s5.sys with saving := s5.sys.saving.filter (fun y => y.blk ≠ v.blk), pcount := s5.sys.pcount + 1 } }

/-- Go on with the pre-emption under way: blocks whose commands have completed are saved; with none left it is done. -/
def State.saveReady (s : State) : State :=
  let s1 := s.sys.saving.foldl (fun st v =>
    match st.blockAt v.blk with
    | none => st
    | some x =>
      match st.launchAt x.launch with
      | none => st
      | some l => if st.quiet v.blk then st.saveBlock v x l else st) s
  if s1.sys.saving.isEmpty then { s1 with sys := { s1.sys with pbusy := false } } else s1

/-- Go on with the cancellation under way: once the commands its blocks had had accepted have completed, the launch ends
with CANCELLED (R315). -/
def State.cancelReady (s : State) (lid n : Nat) : State :=
  if (s.launchBlocks lid).all (fun e => s.quiet e.1) then
    let t := s.endLaunch lid lCANCELLED
    { t with sys := { t.sys with pbusy := false, pcount := BitVec.ofNat 16 n, cancel := none } }
  else s

/-- Go on with what `pcmd` has begun. -/
def State.saveGo (s : State) : State :=
  match s.sys.cancel with
  | some (lid, n) => s.cancelReady lid n
  | none => s.saveReady

/-- A pre-emption or cancellation under way goes on (R309, R315). -/
def State.saveTurn (s : State) : State := if s.sys.pbusy then s.saveGo else s

/-- Begin a pre-emption of blocks in order, each with areas from the list; the first that the list cannot hold, and every
one after it, keeps running (R308). -/
def State.preempt (s : State) (blks : List (Nat × Block)) : State :=
  let (s, areas) := s.areaList 65536 s.sys.parea.toNat
  let take := blks.foldl (fun (acc : List (Nat × Block × List Word) × List Word × Bool) e =>
    if acc.2.2 then acc
    else
      let n := if s.idempotent e.1 e.2 then 1 else (Nat.max 1 (s.stateBytes e.1 e.2) + 256 + areaBytes - 1) / areaBytes
      if acc.2.1.length < n then (acc.1, acc.2.1, true)
      else (acc.1 ++ [(e.1, e.2, acc.2.1.take n)], acc.2.1.drop n, false)) ([], areas, false)
  let y := { s.sys with pbusy := true, pcount := 0, pres := if take.2.2 then 1 else 0 }
  -- the blocks to be saved are marked together, so that the engine they share is treated as a whole
  (take.1.foldl (fun (st : State) e => st.haltBlock e.1 e.2.1 e.2.2) { s with sys := y }).saveGo

/-- PRE_EMPT_CORE (R308); a write while busy is ignored. -/
def execPreEmptCore (core : Byte) (s : State) : Host.Outcome State Fault Refusal :=
  .next (if s.ident.state ≠ 1 || s.sys.pbusy then s else s.preempt (s.coreBlocks core.toNat))

/-- The accepted, unfinished launch that `plaunch` names. -/
def State.namedLaunch (s : State) : Option (Nat × Launch) :=
  s.launches.findSome? (fun e => match e.2 with | some l => if l.addr = s.sys.plaunch then some (e.1, l) else none | none => none)

/-- PRE_EMPT_LAUNCH. -/
def execPreEmptLaunch (s : State) : Host.Outcome State Fault Refusal :=
  .next (if s.ident.state ≠ 1 || s.sys.pbusy then s
    else
      match s.namedLaunch with
      | none => { s with sys := { s.sys with pcount := 0, pres := 0 } }
      | some (lid, _) => s.preempt (s.launchBlocks lid))

/-- CANCEL_LAUNCH (R315): the launch's blocks stop, nothing of it is admitted or restored any more, and it ends once the
commands its blocks had had accepted have completed. -/
def execCancelLaunch (s : State) : Host.Outcome State Fault Refusal :=
  .next (if s.ident.state ≠ 1 || s.sys.pbusy then s
    else
      match s.namedLaunch with
      | none => { s with sys := { s.sys with pcount := 0, pres := 0 } }
      | some (lid, l) =>
        let bs := s.launchBlocks lid
        let s1 := (bs.foldl (fun (st : State) e => st.haltBlock e.1 e.2 []) s).putLaunch lid { l with toAdmit := [] }
        let mine (i : Nat) : Bool := s.saved.any (fun v => v.id = i && v.blk.launch = lid)
        let s2 : State := {
          s1 with
          saved := s1.saved.map (fun v => if v.blk.launch = lid then { v with alive := false } else v)
          rests := s1.rests.filter (fun r => !r.ctx.any mine)
          sys := { s1.sys with pbusy := true, pcount := 0, pres := 0, cancel := some (lid, bs.length) } }
        s2.saveGo)

/-! ## Restore (R310, R311, R313, R314) -/

/-- A context that can no longer be restored. -/
def State.useUp (s : State) (id : Nat) : State :=
  { s with saved := s.saved.map (fun v => if v.id = id then { v with areas := [] } else v) }

/-- RESTORE_QUEUE: a write of `rcmd` queues a restore, or is refused with DAMAGED, PLACE or CAPACITY in that order. -/
def execRestoreQueue (core : Byte) (s : State) : Host.Outcome State Fault Refusal :=
  let area := s.sys.rarea
  .next (if s.ident.state ≠ 1 then s
    else
      match s.saved.find? (fun v => v.alive && v.areas.head? = some area) with
      | none => (s.post (contextRec none 0 0 area 0x32 3) .nobody none).2
      | some v =>
        let l := s.launchAt v.blk.launch
        let target := if core = 0xFF then v.core else core.toNat
        let refuse (n : Nat) : State :=
          ((s.post (contextRec l v.core v.blk.bid area 0x32 n) .nobody (some v.blk.launch)).2).useUp v.id
        match l with
        | none => refuse 3
        | some y =>
          if s.areaImage v.areas ≠ v.image then refuse 3
          else if !s.coreOn target || (target ≠ v.core && (y.kind ≠ 1 || y.reloc)) then refuse 2
          else if 192 < partG y.part || 64 < partRegg y.part || 128 < partSp2 y.part || 256 < y.warps || 2304 < v.nbars ||
            s.ctl.stksize.toNat < v.stk then refuse 1
          else { s with rests := s.rests ++ [{ rarea := area, target := target, ctx := some v.id, since := s.time, capped := false, copying := false }] })

/-- RESTCAP: a context still waiting `ctl.restorewait` ns after its `rcmd` posts one record. -/
def execRestcap (k : Nat) (s : State) : Host.Outcome State Fault Refusal :=
  .next (match s.rests[k]? with
    | none => s
    | some r =>
      match r.ctx.bind (fun i => s.saved.find? (fun v => v.id = i)) with
      | none => s
      | some v =>
        if r.capped || s.time.toNat < r.since.toNat + s.ctl.restorewait.toNat then s
        else
          let s1 := { s with rests := s.rests.set k { r with capped := true } }
          (s1.post (contextRec (s.launchAt v.blk.launch) v.core v.blk.bid r.rarea 0x33 0) .nobody (some v.blk.launch)).2)

/-- Read a run for the spill engine. -/
def State.spillRead (s : State) (core : Nat) : Nat → Word → Nat → State × Except EngErr (List Byte)
  | 0, _, _ => (s, .ok [])
  | fuel + 1, va, n =>
    if n = 0 then (s, .ok [])
    else
      let m := Nat.min n 4096
      match s.engRead core va m false with
      | (s1, .error e) => (s1, .error e)
      | (s1, .ok bs) =>
        match s1.spillRead core fuel (va + BitVec.ofNat 64 m) (n - m) with
        | (s2, .error e) => (s2, .error e)
        | (s2, .ok rest) => (s2, .ok (bs ++ rest))

/-- Write a run for the spill engine. -/
def State.spillWrite (s : State) (core : Nat) : Nat → Word → List Byte → State × Except EngErr Unit
  | 0, _, _ => (s, .ok ())
  | fuel + 1, va, bs =>
    if bs = [] then (s, .ok ())
    else
      match s.engWrite core va (bs.take 4096) with
      | (s1, .error e) => (s1, .error e)
      | (s1, .ok _) => s1.spillWrite core fuel (va + 4096) (bs.drop 4096)

/-- The stack of a saved warp: the first byte in use, the bytes in use, and how far its region moves. -/
structure Shift where
  old  : Word
  n    : Nat
  move : Word
  deriving DecidableEq, Repr

def State.shiftOf (s : State) (v : Saved) (e : Nat × Warp) (k : Nat) : Shift :=
  let hi := v.base.toNat + (e.1 + 1) * v.size.toNat
  { old := e.2.sp, n := hi - e.2.sp.toNat, move := BitVec.ofNat 64 (s.stackHi k) - BitVec.ofNat 64 hi }

/-- Copy the stacks of a block to their new regions; every byte is read before any is written. -/
def State.moveStacks (s : State) (core : Nat) (l : List Shift) : State × Except EngErr Unit :=
  let todo := l.filter (fun y => y.move ≠ 0)
  let rd := todo.foldl (fun (acc : State × Except EngErr (List (Word × List Byte))) y =>
    match acc.2 with
    | .error _ => acc
    | .ok done =>
      match acc.1.spillRead core (y.n / 4096 + 2) y.old y.n with
      | (s1, .error e) => (s1, .error e)
      | (s1, .ok bs) => (s1, .ok (done ++ [(y.old + y.move, bs)]))) (s, .ok [])
  match rd with
  | (s1, .error e) => (s1, .error e)
  | (s1, .ok ws) =>
    ws.foldl (fun (acc : State × Except EngErr Unit) y =>
      match acc.2 with
      | .error _ => acc
      | .ok _ => acc.1.spillWrite core (y.2.length / 4096 + 2) y.1 y.2) (s1, .ok ())

/-- A context keeps only the live registers of the blocks its warp stands in; on restore the others read zero (R146). A
warp stands where its live and stacked splits stand and where threads of it are parked. -/
def Warp.forget (w : Warp) : Warp :=
  let hs := ((w.splits ++ w.stacked).map (fun p => p.hw) ++
    (w.recs.filter (fun r => r.parked ≠ 0 && r.join.isSome)).map (fun r => r.hw)).map Header.ofSlot
  let dl := hs.foldl (fun a h => Nat.max a h.dlive.toNat) 0
  let wl := hs.foldl (fun a h => Nat.max a h.wcount) 0
  { w with d := w.d.filter (fun e => e.1 < 32 * dl), w := w.w.filter (fun e => e.1 < wl) }

/-- The stop of a split that has halted its block, for a warp that starts anew. -/
def haltStop (p : Split) : Option Stop :=
  match p.stop with
  | some (.replay u pend) => (match pend.i with | .halt .. => some (.replay u { pend with prog := 1 }) | _ => none)
  | _ => none

/-- A warp that has lost matrix state and resumes at its `$restart` header as one split (R311); `$sp` is at `top` less the
header's frame, which a header that cannot be read yet gives when the split enters it. Where it had halted its block, it
still waits for the reply (R303). -/
def Warp.restartAt (w : Warp) (hdr : HdrRes) (top : Nat) : Warp :=
  let hw := match hdr with | .ok y => y | _ => 0
  let p : Split := {
    id := w.nextId, mask := ~~~ w.exited, hdr := w.restart, hw := hw, idx := match hdr with | .ok _ => 1 | _ => 0,
    rcd := w.nextId + 1, calls := [], stop := w.splits.findSome? haltStop, readyAt := 0, overtaken := 0, boosted := false, yieldFor := [] }
  let root : RRec := { id := w.nextId + 1, join := none, hw := 0, parent := none, members := 1, parked := 0, calls := [] }
  ({ w with
    splits := [p]
    stacked := []
    recs := [root]
    calls := []
    nextId := w.nextId + 2
    handler := w.handler.map (fun _ => p.id)
    held := []
    noFrame := p.idx = 0
    sp := BitVec.ofNat 64 (top - 16 * (Header.ofSlot hw).frame.toNat) }).noteRegion hw

/-- A saved warp put on a core: its stack pointers moved, its status record delivered, an acquire at package scope. -/
def State.resumeWarp (s : State) (v : Saved) (core : Nat) (e : Nat × Warp) (k : Nat) : State :=
  let sh := s.shiftOf v e k
  let w0 := e.2.forget
  let again := v.lost && w0.restart ≠ 0
  let moved : Warp := {
    w0 with
    sp := w0.sp + sh.move, calls := w0.calls.map (fun c => { c with sp := c.sp + sh.move }) }
  let r : State × Warp :=
    if again then
      let f := s.fetchHeader core w0.restart false
      (f.1, moved.restartAt f.2 (s.stackHi k))
    else (s, moved)
  let kind := if again then 2 else 1
  let w := r.2.portRecord .xs (qxsRecord kind (decide (core ≠ v.core)) core (s.time - v.time).toNat)
  (r.1.putWarp k w).acquire core none .package

/-- Place the warps of a block in ascending `$wid` (R42); the slot each one takes. -/
def State.placeWarps (s : State) (core : Nat) : List (Nat × Warp) → List ((Nat × Warp) × Nat)
  | [] => []
  | e :: rest =>
    match s.freeSlot core with
    | none => []
    | some k => (e, k) :: (s.putWarp k e.2).placeWarps core rest

/-- A journaled SCT restarts from position 0 with its signals kept; one without goes on (R280, R283). A position that an access
had stopped goes on first, from that access, so that nothing of it is applied twice (R270, R279). -/
def respill (c : Cmd) : Cmd :=
  match c.k with
  | .scatter _ _ ix _ _ => if ix.jrnl ≠ 0 then { c with landed := c.landed.filter (fun j => 2 ^ 25 ≤ j), row := 0 } else c
  | _ => c

/-- The core's free resources cover a context (R313). -/
def State.fits (s : State) (v : Saved) (l : Launch) (core : Nat) : Bool :=
  s.roomFor core l.part l.warps 1 v.blk.launch &&
  decide ((s.coreBlocks core).foldl (fun a b => a + s.barObjects b.1 b.2) v.nbars ≤ 2304) &&
  s.roomIn core .cp (v.cmds.filter (fun c => c.port = .cp)).length && s.roomIn core .ga (v.cmds.filter (fun c => c.port = .ga)).length &&
  s.roomIn core .cj (v.cmds.filter (fun c => c.port = .cj)).length

/-- The threads of a block that had executed a TBAR, in warps that had not arrived, count no more (R310). -/
def Launch.dropParts (l : Launch) (b : Nat) : Launch :=
  { l with tbars := l.tbars.map (fun z => { z with parts := z.parts.filter (fun e => e.1.1 ≠ b) }) }

/-- Admit an idempotent block afresh, with the same `$bid` (R310). -/
def State.readmit (s : State) (v : Saved) (l : Launch) (core : Nat) : State :=
  let b : Block := { newBlock v.blk.launch core v.blk.pos v.blk.k v.blk.bid v.blk.ehw with }
  let s1 := (s.putBlock v.blkId b).putLaunch v.blk.launch (l.dropParts v.blkId)
  let s2 := if partMx l.part then s1.setMatrix core (fun m => { m with owner := some v.blk.launch }) else s1
  let s3 := s2.startWarps core v.blkId v.blk.bid l (List.range l.warps)
  (s3.blockWarps v.blkId).foldl (fun st e => st.putWarp e.1 (e.2.portRecord .xs
    (qxsRecord 3 (decide (core ≠ v.core)) core (s.time - v.time).toNat))) s3

/-- Put a saved block back whole. -/
def State.resumeBlock (s : State) (v : Saved) (l : Launch) (core : Nat) (slots : List ((Nat × Warp) × Nat)) : State :=
  let s1 := s.putBlock v.blkId { v.blk with core := core, tiles := [], bankUsed := false }
  let s2 := if partMx l.part then s1.setMatrix core (fun m => { m with owner := some v.blk.launch }) else s1
  let s3 := slots.foldl (fun st y => st.resumeWarp v core y.1 y.2) s2
  let newKey (old : Nat) : Nat := match slots.find? (fun y => y.1.1 = old) with | some y => y.2 | none => old
  let posts := s3.sys.posts
  let cmds := v.cmds.map (fun c => respill {
    c with
    core := core, warp := newKey c.warp, fault := c.fault.bind (fun u => if posts.any (fun f => f.id = u) then some u else none) })
  let again (old : Nat) : Bool := v.lost && (v.warps.any (fun e => e.1 = old && e.2.restart ≠ 0))
  let waits := (refillAll (s3.waits.filter (fun y => !(y.ctx = some v.id && again y.warp)))).map (fun y =>
    if y.ctx = some v.id then { y with ctx := none, warp := newKey y.warp } else y)
  let s4 : State := { s3 with cmds := s3.cmds ++ cmds, waits := waits }
  (cmds.filter (fun c => c.fault.isNone)).foldl (fun st c => st.rereadCmd c) s4

/-- RESTORE: once its core has room a context is restored whole; the stack copy may have to wait for a page (R313). -/
def execRestore (k : Nat) (s : State) : Host.Outcome State Fault Refusal :=
  .next (match s.rests[k]? with
    | none => s
    | some r =>
      let drop (st : State) : State := { st with rests := st.rests.filter (fun y => y ≠ r) }
      match r.ctx.bind (fun i => s.saved.find? (fun v => v.id = i && v.alive && v.areas ≠ [])) with
      | none => drop (s.post (contextRec none 0 0 r.rarea 0x32 3) .nobody none).2
      | some v =>
        match s.launchAt v.blk.launch with
        | none => drop s
        | some l =>
          if r.copying || s.power.ckst = 3 || !s.coreOn r.target || !s.fits v l r.target then s
          else
            let done (st : State) : State :=
              let st1 := drop { st with saved := st.saved.filter (fun y => y.id ≠ v.id) }
              (st1.post (contextRec (some l) r.target v.blk.bid r.rarea 0x31 0) .nobody (some v.blk.launch)).2
            if v.idem then done (s.readmit v l r.target)
            else if v.lost && v.warps.all (fun e => e.2.restart = 0) then
              drop ((s.post (contextRec (some l) v.core v.blk.bid (Config.freeWord s.freeCtr) 0x26 0) (.block v.blkId) (some v.blk.launch)).2.useUp v.id)
            else
              let ordered := (List.range 256).filterMap (fun i => v.warps.find? (fun e => e.2.wid = i))
              let slots := s.placeWarps r.target ordered
              match s.moveStacks r.target (slots.map (fun y => s.shiftOf v y.1 y.2)) with
              | (s1, .ok _) => done (s1.resumeBlock v l r.target slots)
              | (s1, .error (.stop _)) => done (s1.resumeBlock v l r.target slots)
              | (s1, .error (.page c va wr wk)) =>
                let rec_ := { contextRec (some l) r.target v.blk.bid va c 0 with facc := 4 + bit wr + 8 * bit wk }
                let s2 := (s1.post rec_ (.copyBack v.id) (some v.blk.launch)).2
                { s2 with rests := s2.rests.map (fun y => if y = r then { y with copying := true } else y) })

end Sys2Proof.Machine
end

