-- ==== Sys2Proof/Machine/Migrate.lean ====
section
/-! DEFINITION. Migrate.lean: the FOLLOW epoch and page migration (R101, R102). -/

namespace Sys2Proof.Machine

/-- The old and new frames of a migration: the keys of a page, and where they go. -/
def inFrame (fr k : Nat) : Bool := fr ≤ k && k < fr + 65536
def reKey (old new k : Nat) : Nat := if inFrame old k then k - old + new else k
def reLine (old new l : Nat) : Nat := if inFrame old (64 * l) then l - old / 64 + new / 64 else l

/-- Rename the keys of a table; entries move to their new places. -/
def reTable {α : Type} (f : Nat → Nat) (t : Sparse α) : Sparse α := t.foldl (fun acc e => Sparse.put acc (f e.1) e.2) []

/-- Retag the L1 lines, held copies, coalescing windows, hoisted loads and transactions of the old frame (R101). -/
def State.retag (s : State) (old new : Nat) : State :=
  let key := reKey old new
  let line := reLine old new
  let txn (x : Txn) : Txn := {
    x with
    rset := reTable key x.rset, wset := reTable key x.wset, rlines := x.rlines.map line, wlines := x.wlines.map line }
  let warp (w : Warp) : Warp := {
    w with
    windows := w.windows.map (fun e => (line e.1, e.2))
    hoist := w.hoist.map (fun e => (e.1, e.2.map (fun h => { h with lines := h.lines.map key })))
    txn := w.txn.map (fun e => (e.1, e.2.map txn)) }
  { s with
    cores := s.cores.map (fun e => (e.1, { e.2 with dirty := reTable key e.2.dirty, owner := reTable key e.2.owner, clean := reTable line e.2.clean }))
    domes := s.domes.map (fun e => (e.1, { e.2 with dirty := reTable key e.2.dirty, clean := reTable line e.2.clean }))
    warps := s.warps.map (fun e => (e.1, e.2.map warp)) }

/-- Copy a page's home bytes, and the marks of its damaged lines. -/
def State.copyFrame (s : State) (old new : Nat) : State :=
  let kept := s.mem.filter (fun c => !inFrame new c.1)
  let moved := s.mem.filter (fun c => inFrame old c.1)
  let bad := s.bad.filter (fun e => !inFrame new (64 * e.1))
  { s with
    mem := moved.foldl (fun m c => writeMem m (reKey old new c.1) c.2) kept
    bad := (s.bad.filter (fun e => inFrame old (64 * e.1))).foldl (fun m e => Sparse.put m (reLine old new e.1) e.2) bad }

/-- Drop the cached translations of a leaf. -/
def State.dropLeaf (s : State) (leaf : Nat) : State :=
  { s with
    cores := s.cores.map (fun e => (e.1, { e.2 with tlb := e.2.tlb.filter (fun x => x.addr ≠ leaf) }))
    domes := s.domes.map (fun e => (e.1, { e.2 with walks := Sparse.erase e.2.walks leaf })) }

/-- A pool table entry (Table 8.10): list, capacity and free frames. -/
def State.poolEntry (s : State) (v : Nat) : Option (Nat × Nat × Nat × Nat) :=
  match s.key (s.ctl.fpool.toNat + 16 * v) with
  | none => none
  | some k => some (k, leNat (readBytes s.mem k 8), leNat (readBytes s.mem (k + 8) 4), leNat (readBytes s.mem (k + 12) 4))

/-- Write four bytes at a physical address. -/
def State.write4 (s : State) (pa v : Nat) : State :=
  match s.key pa with
  | some k => s.syncWrite k (leBytes 4 v)
  | none => s

/-- Something on a page is pending at its slice: a lantern entry, a transaction's validation, a forest operation (R101), an access
that has been issued, or a reduction that has been accepted. -/
def State.pagePending (s : State) (fr : Nat) : Bool :=
  s.waits.any (fun y => y.ents.any (fun e => inFrame fr e.addr)) ||
  s.cmds.any (fun c => c.port = .cj && c.started && inFrame fr c.g) ||
  s.late.any (fun y => y.keys.any (inFrame fr)) || s.reds.any (fun y => inFrame fr y.a) ||
  s.warps.any (fun e => e.2.any (fun w => w.txn.any (fun x => x.2.any (fun y => y.started && (y.rlines ++ y.wlines).any (fun l => inFrame fr (64 * l))))))

/-- The page of a leaf is a FOLLOW page of local memory that may go to a core's vault. -/
def State.mayFollow (s : State) (leaf core : Nat) : Bool :=
  let e := s.homeWord leaf
  let old := leafFrame e
  leafV e && !e.getLsbD 3 && leafPlace e = 1 && paApt old = 0 && !paIl old && paVault old ≠ core && s.vaultOn core

/-- What a migration reads and writes, at the lines it begins with: the leaf, the two frames, and the pool's records and lists. -/
def State.migrateKeys (s : State) (leaf core : Nat) : List Nat :=
  let old := leafFrame (s.homeWord leaf)
  let pool (v : Nat) : List Nat := match s.poolEntry v with
    | some (k, fl, _, top) => [k] ++ (s.key (fl + 4 * (top - 1))).toList ++ (s.key (fl + 4 * top)).toList
    | none => []
  [leaf, old, core * 2 ^ 33] ++ pool core ++ pool (paVault old)

/-- A migration would have to reach a tower that is in reset: it waits (R14). -/
def State.migrateHeld (s : State) (leaf core : Nat) : Bool :=
  s.power.inReset ≠ [] && (s.migrateKeys leaf core).any (fun k => s.power.inReset.contains (domeOf (s.homeSlice k)))

/-- Migrate the page of a leaf to a core's vault, or leave it where a condition of R101 or R102 fails. -/
def State.migrate (s : State) (leaf core : Nat) : Option State :=
  let e := s.homeWord leaf
  let old := leafFrame e
  let o := paVault old
  if !s.mayFollow leaf core || s.pagePending old || s.migrateHeld leaf core then none
  else
    match s.poolEntry core, s.poolEntry o with
    | some (kc, flc, _, topc), some (ko, flo, capo, topo) =>
      if topc = 0 || capo ≤ topo then none
      else
        match s.key (flc + 4 * (topc - 1)) with
        | none => none
        | some kf =>
          let n := leNat (readBytes s.mem kf 4)
          if 98304 ≤ n then none
          else
            let new := core * 2 ^ 33 + n * 65536
            let s1 := s.copyFrame old new
            let entry := (e &&& ~~~ BitVec.ofNat 64 (2 ^ 52 - 2 ^ 16)) ||| BitVec.ofNat 64 new
            let s2 := (s1.syncWrite leaf (leBytes 8 entry.toNat)).dropLeaf leaf
            let s3 := ((s2.write4 (flo + 4 * topo) (paOff old / 65536)).syncWrite (ko + 12) (leBytes 4 (topo + 1))).syncWrite
              (kc + 12) (leBytes 4 (topc - 1))
            some (s3.retag old new)
    | _, _ => none

/-- The core that made more than half of the requests for a page in the epoch, and at least `least` of them. -/
def follower (l : List (Nat × Nat × Nat)) (leaf least : Nat) : Option Nat :=
  let mine := l.filter (fun e => e.1 = leaf)
  let all : Nat := mine.foldl (fun n e => n + e.2.2) 0
  (mine.find? (fun (e : Nat × Nat × Nat) => decide (all < 2 * e.2.2) && decide (least ≤ e.2.2))).map (fun e => e.2.1)

/-- What the end of an epoch does with a page: it goes to the core that asked for it most; where something holds it up, what
has been counted stays for the next epoch. -/
def State.followPage (s : State) (leaf : Nat) : State :=
  let clear (t : State) : State := { t with follow := t.follow.map (fun e => if e.1 = leaf then (e.1, e.2.1, 0) else e) }
  match follower s.follow leaf s.ctl.fmin.toNat with
  | none => clear s
  | some c =>
    if !s.mayFollow leaf c then clear s
    else match s.migrate leaf c with
      | some t => clear t
      | none => if s.pagePending (leafFrame (s.homeWord leaf)) || s.migrateHeld leaf c then s else clear s

/-- FOLLOW_EPOCH: `ctl.fepoch` ns have passed since the epoch began, and it ends (R101, R102). -/
def execFollowEpoch (s : State) : Host.Outcome State Fault Refusal :=
  .next (if s.ctl.fepoch = 0 || s.ctl.fpool = 0 then { s with follow := [], epoch := s.time }
    else if s.time.toNat < s.epoch.toNat + s.ctl.fepoch.toNat then s
    else { (s.follow.map Prod.fst).eraseDups.foldl State.followPage s with epoch := s.time })

end Sys2Proof.Machine
end

