-- ==== Sys2Proof/Machine/Outside.lean ====
section
/-! DEFINITION. Outside.lean: the host, peers, boot, identity, tower reset, power, checkpoints, ageing and counters
(R155, R342-R359). -/

namespace Sys2Proof.Machine

/-! ## The control window (R155, R342, Table 24.1) -/

/-- The control window beyond the identity block answers (R350). -/
def State.open_ (s : State) : Bool := s.ident.state = 1

/-- CTL_HOST_WRITE: checked as SWR is, with every resident block counted; a refusal sets `ctlerr` (R155). -/
def execCtlHostWrite (sel : CtlReg) (v : Word) (s : State) : Host.Outcome State Fault Refusal :=
  .next (if !s.open_ then s
    else if ctlOk sel v (s.blocks.any (fun e => e.2.isSome)) then s.ctlStore sel v
    else { s with sys := { s.sys with ctlerr := true } })

/-- CTLERR_CLEAR. -/
def execCtlerrClear (s : State) : Host.Outcome State Fault Refusal :=
  .next (if s.open_ then { s with sys := { s.sys with ctlerr := false } } else s)

/-- A write of a launch queue's `qbase` or `qlog` configures it, and is ignored while `qhead` ≠ `qtail` (R344). -/
def HostQ.configure (h : HostQ) (off : Nat) (v : Word) : HostQ :=
  if h.qhead ≠ h.qtail then h
  else if off = 0 then (if v.toNat % 64 = 0 then { h with qbase := v, qtail := 0, qhead := 0 } else h)
  else if off = 8 then { h with qlog := BitVec.ofNat 64 (v.toNat % 16), qtail := 0, qhead := 0 }
  else h

/-- The host receives an answer. -/
def State.answer (s : State) (bar off : Nat) (v : Option Word) : State :=
  { s with hostRead := s.hostRead ++ [{ bar := bar, off := off, value := v }] }

/-- An access to the control window that is accepted: 8 bytes, aligned, inside the window (R342); until the module is ready
only the identity block answers (R350). -/
def State.ctlAccess (s : State) (off bytes : Nat) : Bool :=
  bytes = 8 && off % 8 = 0 && off + 8 ≤ s.ident.bar0 && (s.open_ || off < 0x1000)

/-- The identity block and the system block, read. -/
def State.identWord (s : State) (off : Nat) : Word :=
  match off with
  | 0x00 => BitVec.ofNat 64 s.ident.state
  | 0x08 => s.ident.towers.setWidth 64
  | 0x10 => BitVec.ofNat 64 s.memBytes
  | 0x18 => s.ident.mwbase
  | 0x20 => s.ident.fwver
  | _ => 0

/-- Table 20.4; what is only written reads zero. -/
def Sys.word (y : Sys) (off : Nat) : Word :=
  match off with
  | 0x00 => y.fqbase
  | 0x08 => y.fqsize
  | 0x10 => y.fqhead
  | 0x18 => y.fqtail
  | 0x28 => BitVec.ofNat 64 (bit y.tinv.isSome * 2 ^ 63)
  | 0x30 => BitVec.ofNat 64 (bit y.icinv)
  | 0x38 => BitVec.ofNat 64 (bit y.pbusy * 2 ^ 63 + y.pcount.toNat * 2 ^ 32 + y.pres.toNat * 2 ^ 48)
  | 0x40 => y.plaunch
  | 0x48 => y.parea
  | 0x50 => y.rarea
  | _ => 0

/-- Table 18.13. -/
def Ring.word (g : Ring) (off : Nat) : Word :=
  match off with
  | 0x00 => g.snext
  | 0x08 => g.sact
  | 0x10 => g.lapc
  | 0x18 => BitVec.ofNat 64 (bit (decide (g.snext ≠ 0)) + 2 * bit g.refused + 256 * g.reason)
  | _ => 0

/-- Table 24.2. -/
def HostQ.word (h : HostQ) (off : Nat) : Word :=
  match off with
  | 0x00 => h.qbase
  | 0x08 => h.qlog
  | 0x10 => h.qtail
  | 0x18 => h.qhead
  | _ => 0

/-- The block of time, power, reset and checkpoint (R354-R357). -/
def Power.word (p : Power) (off : Nat) : Word :=
  match off with
  | 0x00 => BitVec.ofNat 64 p.pnow
  | 0x08 => BitVec.ofNat 64 p.pcap
  | 0x10 => BitVec.ofNat 64 p.pstate
  | 0x40 => BitVec.ofNat 64 (bit p.trefused * 2 ^ 63)
  | 0x80 => p.ckaddr
  | 0x88 => BitVec.ofNat 64 p.ckst
  | _ => 0

/-- The select of a counter, and the values of the domes' (R359). -/
def State.counterWord (s : State) (off : Nat) : Word :=
  let sel (key : Nat) : Word := (Sparse.get { sel := 0, val := 0 } s.counters key : Counter).sel.setWidth 64
  if off < 0xA400 then sel ((off - 0x8000) / 8)
  else if off < 0xC800 then sel (2000 + (off - 0xA400) / 8)
  else if off < 0xCA40 then sel (4000 + (off - 0xC800) / 8)
  else if off < 0xCC80 then (s.counterValue (4000 + (off - 0xCA40) / 8)).setWidth 64
  else 0

/-- What the control window holds at an aligned offset (Table 24.1). -/
def State.controlWord (s : State) (off : Nat) : Word :=
  if off < 0x1000 then s.identWord off
  else if off < 0x2000 then s.sys.word (off - 0x1000)
  else if off < 0x3000 then s.ring.word (off - 0x2000)
  else if off < 0x4000 then (if off < 0x3200 then (s.hostq.getD ((off - 0x3000) / 64) HostQ.reset).word (off % 64) else 0)
  else if off < 0x6000 then (if off < 0x5800 then Sparse.get 0 s.peers ((off - 0x4000) / 8) else 0)
  else if off < 0x7000 then s.power.word (off - 0x6000)
  else if off < 0x8000 then
    (if off = 0x7FF8 then BitVec.ofNat 64 (bit s.sys.ctlerr)
     else match CtlReg.ofCode ((off - 0x7000) / 8) with | some c => s.ctl.read c | none => 0)
  else s.counterWord off

/-- The host reads the control window (R155, R342). -/
def State.windowRead (s : State) (off bytes : Nat) : State :=
  s.answer 0 off (if s.ctlAccess off bytes then some (s.controlWord off) else none)

/-- The host sets the size of a window through the Resizable BAR capability, from 64 KiB to 1 TiB; the memory window's base
stays a multiple of it (R342). -/
def State.resizeBar (s : State) (memory : Bool) (log : Nat) : State :=
  if log < 16 || 40 < log then s
  else if memory then (if s.ident.mwbase.toNat % 2 ^ log = 0 then { s with ident := { s.ident with bar2 := 2 ^ log } } else s)
  else { s with ident := { s.ident with bar0 := 2 ^ log } }

/-- CONTROL_WINDOW_WRITE: an aligned 8-byte write of a register that has no row of its own. Reserved bits, reserved ranges
and read-only registers ignore it; any other access is answered with Unsupported Request and has no effect (R342). -/
def execControlWindowWrite (off : Nat) (v : Word) (s : State) : Host.Outcome State Fault Refusal :=
  .next (if !s.ctlAccess off 8 then s.answer 0 off none
    else
      let y := s.sys
      if off = 0x1000 then
        (if y.fqhead = y.fqtail then { s with sys := { y with fqbase := BitVec.ofNat 64 (v.toNat / 4096 * 4096) } } else s)
      else if off = 0x1008 then { s with sys := { y with fqsize := BitVec.ofNat 64 (v.toNat % 16) } }
      else if off = 0x1018 then (if y.fqhead.toNat < v.toNat then s else { s with sys := { y with fqtail := v } })
      else if off = 0x1040 then { s with sys := { y with plaunch := v } }
      else if off = 0x1048 then { s with sys := { y with parea := v } }
      else if off = 0x1050 then { s with sys := { y with rarea := v } }
      else if off = 0x6080 then { s with power := { s.power with ckaddr := BitVec.ofNat 64 (v.toNat / 4096 * 4096) } }
      else if 0x3000 ≤ off && off < 0x3200 then
        let q := (off - 0x3000) / 64
        { s with hostq := s.hostq.set q ((s.hostq.getD q HostQ.reset).configure (off % 64) v) }
      else if 0x4000 ≤ off && off < 0x5800 then
        { s with peers := Sparse.set 0 s.peers ((off - 0x4000) / 8) (v &&& 0x800FFFFFFFFFFFFF) }
      else s)

/-- Where a memory-window offset leads: a key in an in-service vault (R342). -/
def State.windowKey (s : State) (off : Nat) : Option Nat :=
  let pa := s.ident.mwbase.toNat + off
  if s.ident.bar2 ≤ off || paApt pa ≠ 0 then none
  else if paIl pa then s.key pa
  else if s.localOk pa 1 then some pa else none

/-- HOST_MEMORY_WRITE: the bytes that a write enables among the eight at an offset, as a synchronising write of each 8-byte
group (R343). An offset that names no vault in service is answered with Unsupported Request (R342). -/
def execHostMemoryWrite (off : Nat) (v : HostBytes) (s : State) : Host.Outcome State Fault Refusal :=
  .next (if !s.open_ then s
    else
      let on := (List.range 8).filter v.enables.getLsbD
      let keys := on.filterMap (fun i => s.windowKey (off + i))
      if keys.length = on.length then s.syncWriteAt keys (on.map (fun i => (leBytes 8 v.value.toNat).getD i 0)) else s.answer 2 off none)

/-- HOST_MEMORY_READ: the read returns home values; those of a damaged line are a free value (R343). -/
def execHostMemoryRead (off : Nat) (s : State) : Host.Outcome State Fault Refusal :=
  .next (if !s.open_ then s
    else
      let keys := (List.range 8).filterMap (fun i => s.windowKey (off + i))
      if keys.length = 8 then
        let v := if keys.any s.lineBad then Config.freeWord s.freeCtr else BitVec.ofNat 64 (leNat (keys.map (readMem s.mem)))
        (s.gate keys).answer 2 off (some v)
      else s.answer 2 off none)

/-! ## Tower reset (R354) -/

/-- The entries at the slices of a reset tower are freed, and their WAITs end with CONTEXT (R126, Table 8.8). -/
def State.freeLantern (s : State) (d : Nat) : State :=
  { s with waits := refillAll (s.waits.map (fun y =>
      if y.ents.any (fun e => domeOf e.slice = d) then
        { y with result := match y.result with | some r => some r | none => some 3
                 ents := y.ents.filter (fun e => domeOf e.slice ≠ d && y.result.isSome) }
      else y)) }

/-- The slices of a tower write back what they hold for host and peer memory, and discard their lines, views among them
(R354). -/
def State.emptySlices (s : State) (d : Nat) : State :=
  let here (k : Nat) : Bool := domeOf (s.homeSlice k) = d
  let s1 := s.proxyFlush here
  { s1 with
    llc := s1.llc.filter (fun e => domeOf (e.1 / 2 ^ 14) ≠ d)
    views := s1.views.filter (fun e => !here (64 * e.1))
    hostClean := s1.hostClean.filter (fun e => !here (64 * e.1)) }

/-- TOWER_RESET: refused while a block is resident on one of the tower's cores, unless forced, which ends each such launch
with FAULTED. What its cores' caches hold unpublished is written home or lost, as the hardware chooses. -/
def execTowerReset (d : Fin 16) (force : Bool) (s : State) : Host.Outcome State Fault Refusal :=
  .next (if !s.open_ || 9 ≤ d.val then s
    else
      let here := s.blocks.filterMap (fun e => match e.2 with
        | some b => if domeOf b.core = d.val then some b.launch else none
        | none => none)
      if here ≠ [] && !force then { s with power := { s.power with trefused := true } }
      else
        let s1 := here.eraseDups.foldl (fun st l => st.endLaunch l lFAULTED) s
        let s2 := (List.range 144).foldl (fun (st : State) c =>
          if domeOf c = d.val then
            (if Config.freeNat (s.freeCtr + c) % 2 = 0 then st.publish c (fun _ => true) else st).putCore c {}
          else st) s1
        let s3 := (s2.drain d.val (fun _ => true)).putDome d.val {}
        let p1 := { s3.power with trefused := false, inReset := d.val :: s3.power.inReset.filter (· ≠ d.val) }
        { ((s3.emptySlices d.val).freeLantern d.val) with power := p1 })

/-- TOWER_RESET_END. -/
def execTowerResetEnd (d : Nat) (s : State) : Host.Outcome State Fault Refusal :=
  .next { s with power := { s.power with inReset := s.power.inReset.filter (· ≠ d) } }

/-! ## Time, power and checkpoints (R355-R357) -/

/-- The power reading is renewed (R356): a FREE VALUE. -/
def State.powerSample (s : State) : State := { s with power := { s.power with pnow := (Config.freeWord s.freeCtr).toNat } }

/-- PCAP: a value outside 1,000 to 4,200 is clamped into it (R356). -/
def execPcap (v : Word) (s : State) : Host.Outcome State Fault Refusal :=
  .next (if s.open_ then { s with power := { s.power with pcap := Nat.min 4200 (Nat.max 1000 v.toNat) } } else s)

/-- PSTATE_CHANGE. -/
def execPstateChange (v : Fin 3) (s : State) : Host.Outcome State Fault Refusal :=
  .next { s with power := { s.power with pstate := v.val } }

/-- TIME_CORRECTION: a forward offset above 1 ms is stepped; any other is slewed, which only changes how far time advances
in later steps (R355). -/
def execTimeCorrection (offset : Int) (s : State) : Host.Outcome State Fault Refusal :=
  .next (if 1000000 < offset then { s with time := s.time + BitVec.ofInt 64 offset } else s)

/-- Every slice is drained: replicas write home what they hold, and proxies send it on (R357). -/
def State.drainSlices (s : State) : State :=
  ((s.domes.map Prod.fst).foldl (fun st d => st.drain d (fun _ => true)) s).proxyFlush (fun _ => true)

/-- A checkpoint command: a save drains the slices first; refused while any block is resident; a write while one is under way is ignored. -/
def State.checkpoint (s : State) (cmd : Nat) (a0 : Word) : State :=
  let a := BitVec.ofNat 64 (a0.toNat / 4096 * 4096)
  if !s.open_ || s.power.ckst = 3 then s
  else if s.blocks.any (fun e => e.2.isSome) then { s with power := { s.power with ckaddr := a, ckst := 5 } }
  else
    let s1 := if cmd = 1 then s.drainSlices else s
    { s1 with power := { s1.power with ckaddr := a, ckcmd := cmd, ckst := 3 } }

/-- CHECKPOINT_SAVE. -/
def execCheckpointSave (a : Word) (s : State) : Host.Outcome State Fault Refusal := .next (s.checkpoint 1 a)
/-- CHECKPOINT_RESTORE. -/
def execCheckpointRestore (a : Word) (s : State) : Host.Outcome State Fault Refusal := .next (s.checkpoint 2 a)

/-- Where byte `off` of vault L[i] lies in host memory (R357). -/
def ckPlace (a : Word) (i off : Nat) : Nat := 2 ^ 42 + (a.toNat % 2 ^ 42 + i * Config.vaultBytes + off)

/-- The place in host memory of a local byte, if its vault is in service. -/
def State.ckOf (s : State) (a : Word) (k : Nat) : Option Nat :=
  if paApt k ≠ 0 then none
  else ((List.range s.vaults.length).find? (fun i => s.vaults[i]? = some (paVault k))).map (fun i => ckPlace a i (paOff k))

/-- The local byte of a place in host memory. -/
def State.ckFrom (s : State) (a : Word) (k : Nat) : Option Nat :=
  let lo := ckPlace a 0 0
  if k < lo || ckPlace a s.vaults.length 0 ≤ k then none
  else (s.vaults[(k - lo) / Config.vaultBytes]?).map (fun v => v * 2 ^ 33 + (k - lo) % Config.vaultBytes)

/-- CHECKPOINT_DONE: the memory has been copied out or in. -/
def execCheckpointDone (s : State) : Host.Outcome State Fault Refusal :=
  .next (if s.power.ckst ≠ 3 then s
    else
      let a := s.power.ckaddr
      let done := { s.power with ckst := 4 }
      if s.power.ckcmd = 1 then
        let kept := s.mem.filter (fun c => (s.ckFrom a c.1).isNone)
        let mem := s.mem.foldl (fun m c => match s.ckOf a c.1 with | some k => writeMem m k c.2 | none => m) kept
        { s with mem := mem, power := done }
      else
        let kept := s.mem.filter (fun c => (s.ckOf a c.1).isNone)
        let mem := s.mem.foldl (fun m c => match s.ckFrom a c.1 with | some k => writeMem m k c.2 | none => m) kept
        { s with mem := mem, bad := s.bad.filter (fun e => (s.ckOf a (64 * e.1)).isNone), power := done })

/-! ## Counters (R359) -/

/-- Units of a kind. -/
def unitCount : CUnit → Nat
  | .core | .slice => 144
  | .dome => 9

/-- COUNTER_SELECT_WRITE: the counter and its `ovf` bit are cleared. -/
def execCounterSelectWrite (u : CUnit) (unit : Nat) (i : Fin 8) (v : Word) (s : State) : Host.Outcome State Fault Refusal :=
  .next (if !s.open_ || unitCount u ≤ unit then s
    else
      let c : Counter := { sel := (v.setWidth 32) &&& 0xBFFFFFFF, val := 0 }
      { s with counters := Sparse.put s.counters (counterKey u unit i.val) c })

/-! ## Boot (R350-R352) -/

/-- A firmware image is accepted: its signature verifies, and its version is not below the highest one accepted (R350). -/
def imageOk (f : Flash) (x : Bool × Word) : Bool := x.1 && f.secver.toNat ≤ x.2.toNat

/-- The towers that come up: not the one that failed, nor those with a slice whose margin could not be restored (R352,
R358). -/
def bootTowers (f : Flash) (failed : Option (Fin 9)) : BitVec 9 :=
  let bad := (failed.map Fin.val).toList ++ f.worn.map domeOf
  (List.range 9).foldl (fun (m : BitVec 9) d => if bad.contains d then m else m ||| BitVec.ofNat 9 (2 ^ d)) 0

/-- The flash after a boot: the highest version accepted, and the signed results of the self-test (R350, R351; log entry
97). -/
def Flash.boot (f : Flash) (images : List (Bool × Word)) (badCores : List Nat) : Flash :=
  { f with
    secver := if images.all (imageOk f) then images.foldl (fun v x => if v.toNat ≤ x.2.toNat then x.2 else v) f.secver else f.secver
    sigs := f.sigs + 1
    failed := badCores.filter (· < 144) }

/-- MODULE_RESET: with every image accepted and every transit domain sound the module comes up ready, without the towers
that failed and the cores that failed self-test. Memory keeps its contents (log entry 16). -/
def execModuleReset (images : List (Bool × Word)) (failedTower : Option (Fin 9)) (transitOk : Bool) (badCores : List Nat) (s : State) :
    Host.Outcome State Fault Refusal :=
  let f := s.flash.boot images badCores
  .next { State.reset with
    ident := { s.ident with
      state := if images.all (imageOk s.flash) && transitOk then 1 else 2
      towers := bootTowers s.flash failedTower
      fwver := f.secver }
    flash := f
    retired := f.failed
    time := s.time
    mem := s.mem
    bad := s.bad
    spdm := s.spdm
    hostRead := s.hostRead
    turns := s.turns
    freeCtr := s.freeCtr
    nextUid := s.nextUid }

/-! ## SPDM (R353) -/

/-- The lowest-numbered dome in service, which signs. -/
def State.signer (s : State) : Nat := ((List.range 9).find? s.towerOn).getD 0

/-- An answer of a module that is ready. -/
def State.spdmAnswer (s : State) (port : Bool) (what : Nat) (body : List Word) : State :=
  if s.open_ then { s with spdm := s.spdm ++ [{ port := port, what := what, body := body }] } else s

/-- GET_VERSION: SPDM 1.3. -/
def execGetVersion (port : Bool) (s : State) : Host.Outcome State Fault Refusal := .next (s.spdmAnswer port 0 [0x13])
/-- GET_CAPABILITIES. -/
def execGetCapabilities (port : Bool) (s : State) : Host.Outcome State Fault Refusal :=
  .next (s.spdmAnswer port 1 [Config.freeWord s.freeCtr])
/-- NEGOTIATE_ALGORITHMS: ECDSA P-384 and SHA-384. -/
def execNegotiateAlgorithms (port : Bool) (s : State) : Host.Outcome State Fault Refusal := .next (s.spdmAnswer port 2 [384, 384])
/-- GET_DIGESTS. -/
def execGetDigests (port : Bool) (s : State) : Host.Outcome State Fault Refusal :=
  .next (s.spdmAnswer port 3 [BitVec.ofNat 64 s.signer, Config.freeWord s.freeCtr])
/-- GET_CERTIFICATE: the leaf certificate names the dome. -/
def execGetCertificate (port : Bool) (s : State) : Host.Outcome State Fault Refusal :=
  .next (s.spdmAnswer port 4 [BitVec.ofNat 64 s.signer, Config.freeWord s.freeCtr])
/-- CHALLENGE. -/
def execChallenge (port : Bool) (s : State) : Host.Outcome State Fault Refusal :=
  .next (s.spdmAnswer port 5 [BitVec.ofNat 64 s.signer, Config.freeWord s.freeCtr])
/-- GET_MEASUREMENTS: firmware images, configuration records and `towers`. -/
def execGetMeasurements (port : Bool) (s : State) : Host.Outcome State Fault Refusal :=
  .next (s.spdmAnswer port 6 [s.ident.towers.setWidth 64, s.ident.fwver, BitVec.ofNat 64 s.signer, Config.freeWord s.freeCtr])

/-! ## Bexset and UCIe (R346-R349) -/

/-- Entries a dome's replay filter holds. -/
def filterSize : Nat := 16384

/-- A request performed at a local home slice, after the reductions its line has pending: its result (R116, R346). -/
def State.bexPerform (s : State) (addr : Nat) (op : BexOp) : State × Word :=
  match (if paApt addr = 0 && (paIl addr || s.localOk addr 8) then s.key addr else none) with
  | none => (s, Config.freeWord s.freeCtr)
  | some k =>
    let s1 := (s.gate [k]).applyReds (k / 64)
    match op with
    | .read => (s1, s1.homeWord k)
    | .write bytes v =>
      let on := (List.range 8).filter bytes.getLsbD
      (s1.syncWriteAt (on.map (k + ·)) (on.map (fun i => (leBytes 8 v.toNat).getD i 0)), 0)
    | .atomic t o c d =>
      let n := Sys2Proof.ATy.bytes t
      let old := leNat (readBytes s1.mem k n)
      (s1.syncWrite k (leBytes n (atomNew t o old c.toNat d.toNat).1), BitVec.ofNat 64 old)
    | .reduce o xs =>
      let old := leNat (readBytes s1.mem k 4)
      (s1.syncWrite k (leBytes 4 (relabelNew o old xs.length xs)), BitVec.ofNat 64 old)

/-- BEXSET_REQUEST: performed once and recorded, or answered from the filter; held while the filter is full (R348). A module
that is not ready answers none (R350). -/
def execBexsetRequest (dome : Fin 9) (source : BitVec 16) (tag : BitVec 16) (seq : BitVec 32) (addr : Nat) (op : BexOp)
    (s : State) : Host.Outcome State Fault Refusal :=
  .next (if !s.open_ || !s.towerOn dome.val ||
      s.bexIn.any (fun e => e.dome = dome && e.source = source && e.tag = tag && e.seq = seq) ||
      filterSize ≤ (s.bexIn.filter (fun e => e.dome = dome)).length then s
    else
      let r := s.bexPerform addr op
      { r.1 with bexIn := r.1.bexIn ++ [{ dome := dome, source := source, tag := tag, seq := seq, result := r.2 }] })

/-- BEXSET_ACK frees the entry. -/
def execBexsetAck (dome : Fin 9) (source : BitVec 16) (tag : BitVec 16) (seq : BitVec 32) (s : State) :
    Host.Outcome State Fault Refusal :=
  .next { s with bexIn := s.bexIn.filter (fun e => !(e.dome = dome && e.source = source && e.tag = tag && e.seq = seq)) }

/-- A hoisted load that a reduction or an atomic at a peer's home slice overlaps ends: of the core it was made for, or, for an
engine's, of every core that covers the line (R202). -/
def State.endPeerHoists (s : State) (r : BexOut) (n : Nat) : State :=
  match r.who with
  | some (.resume z, _) => s.dropHoists z.core (fun h => (List.range n).any (fun i => h.covers (r.addr + i)))
  | _ => s.endHoists [r.addr / 64]

/-- A request is over with a result, which is kept for the step that asked for it; a write, and a request whose step has been
given up, have none (log entries 17 and 100). -/
def State.bexEnd (s : State) (r : BexOut) (v : Option Word) : State :=
  let s1 := match r.op with
    | .read | .write .. => s
    | .atomic t .. => s.endPeerHoists r (Sys2Proof.ATy.bytes t)
    | .reduce .. => s.endPeerHoists r 4
  { s1 with
    bexOut := s1.bexOut.filter (fun y => y.tag ≠ r.tag)
    bexDone := match r.who with
      | some w => s1.bexDone ++ [{ addr := r.addr, op := r.op, who := w, result := v }]
      | none => s1.bexDone }

/-- BEXSET_RETRANSMIT: the same tag and sequence number again; after eight unanswered retransmissions the access completes as
an uncorrectable error (R304, R347). -/
def execBexsetRetransmit (tag : Nat) (s : State) : Host.Outcome State Fault Refusal :=
  .next (match s.bexOut.find? (fun r => r.tag.toNat = tag) with
    | none => s
    | some r =>
      if r.retries < 8 then
        { s with bexOut := s.bexOut.map (fun y => if y.tag = r.tag then { y with retries := y.retries + 1 } else y) }
      else s.bexEnd r none)

/-- BEXSET_RESPONSE: the access is complete with the peer's result, and its request is no longer retransmitted (R346,
R347). -/
def execBexsetResponse (tag : Nat) (v : Word) (s : State) : Host.Outcome State Fault Refusal :=
  .next (match s.bexOut.find? (fun r => r.tag.toNat = tag) with
    | none => s
    | some r => s.bexEnd r (some v))

/-- UCIE_LINK_RETRY: visible only in the counters (R349). -/
def execUcieLinkRetry (dome : Fin 9) (s : State) : Host.Outcome State Fault Refusal :=
  .next (s.count .dome dome.val 0x202 none none none)

/-! ## Ageing (R41, R358) -/

/-- AGEING_SAMPLE: cores whose margin is exhausted are marked; slices whose margin cannot be restored fence their towers at
the next boot. -/
def execAgeingSample (marked : Margins) (s : State) : Host.Outcome State Fault Refusal :=
  .next { s with
    marked := addLines s.marked (marked.cores.filter (fun c => c < 144 && !s.retired.contains c))
    flash := { s.flash with worn := addLines s.flash.worn (marked.slices.filter (· < 144)) } }

/-- An accepted launch that has not been admitted loses a core of its rectangle (R41). -/
def State.replaceLaunch (s : State) (lid core : Nat) : State :=
  match s.launchAt lid with
  | none => s
  | some l =>
    if l.kind = 1 || (l.st = .running && l.toAdmit = []) || !(rectCores l.origin.1 l.origin.2 l.tw l.th).contains core then s
    else if !l.reloc && l.ox = 0xFF then
      match s.place l.tw l.th with
      | none => s.dropUnstarted lid 0x15
      | some og =>
        let l1 := { l with origin := og }
        s.putLaunch lid { l1 with toAdmit := if l.st = .running then rectBlocks l1 else [] }
    else s.dropUnstarted lid 0x19

/-- Blocks of an AFFINITY launch that wait for a retired core go to the core R39 gives now. -/
def State.redispatch (s : State) (lid core : Nat) : State :=
  match s.launchAt lid with
  | none => s
  | some l =>
    if l.kind = 1 && l.toAdmit.any (fun b => b.2 = core) then
      let r := s.dispatch l ((l.toAdmit.filter (fun b => b.2 = core)).map Prod.fst)
      let place (b : Nat × Nat) : Nat × Nat := match r.2.find? (fun y => y.1 = b.1) with | some y => if b.2 = core then y else b | none => b
      r.1.putLaunch lid { l with toAdmit := l.toAdmit.map place }
    else s

/-- CORE_RETIREMENT: a marked core that holds no resident block is retired, and launches waiting for it are placed again
or end (R41, R358). -/
def execCoreRetirement (core : Nat) (s : State) : Host.Outcome State Fault Refusal :=
  .next (if !s.marked.contains core || s.coreBlocks core ≠ [] then s
    else
      let s1 := { s with marked := s.marked.filter (· ≠ core), retired := s.retired ++ [core] }
      (s1.launches.map Prod.fst).foldl (fun st l => (st.replaceLaunch l core).redispatch l core) s1)

end Sys2Proof.Machine
end

