-- ==== Sys2Proof/Machine/Issue.lean ====
section
/-! DEFINITION. Issue.lean: which split a lane issues (R47, R48), the fetch of its word (R131, R141, R302), what a stopped
split does when it looks again, and what befalls the machine from within: entries of caches lost, storage damaged. -/

namespace Sys2Proof.Machine

/-! ## The lane's choice (R48) -/

/-- The step at which a split became ready; one that has become ready since its lane last issued carries no step yet, and
is later than those that do (`now`). -/
def Split.since (now : Nat) (p : Split) : Nat := if p.readyAt = 0 then now else p.readyAt

/-- Change the live splits of a lane, given the slot of their warp. -/
def State.mapLane (s : State) (core lane : Nat) (f : Nat → Split → Split) : State :=
  (List.range 4).foldl (fun (st : State) slot =>
    match st.warpAt (warpKey core lane slot) with
    | none => st
    | some w => st.putWarp (warpKey core lane slot) { w with splits := w.splits.map (f slot) }) s

/-- The least step number a list of splits became ready at. -/
def earliest (now : Nat) (l : List (Nat × Split)) : Nat :=
  l.foldl (fun a e => Nat.min a (e.2.since now)) now

/-- R48 on several ready splits. An interlock (R47) or a stall hint keeps some of them from being considered: any of them
may be, since no rule gives a latency, and one so kept drops out of the sets of splits that have yielded. Splits ready at
once rotate: any of them may be first. -/
def chooseSplit (n : Nat) (rs : List (Nat × Split)) : Option (Nat × Split) :=
  let held := Config.freeNat n
  let free := rs.filter (fun e => held / 2 ^ splitName e.1 e.2.id % 2 = 0)
  let cands := if free.isEmpty then rs else free
  let names := cands.map (fun e => splitName e.1 e.2.id)
  let open_ := cands.filter (fun e => !e.2.yieldFor.any names.contains)
  let elig := if open_.isEmpty then cands else open_
  let late := elig.filter (fun e => 2 ≤ e.2.overtaken)
  let boosted := elig.filter (fun e => e.2.boosted)
  let pool := if late.isEmpty then (if boosted.isEmpty then elig else boosted) else late
  let first := pool.filter (fun e => e.2.since n = earliest n pool)
  let tied := if first.isEmpty then pool else first
  tied[Config.freeNat (n + 1) % tied.length]?

/-- The split a lane would issue now, if it has one that is ready and it is not held for a delivery (R247). -/
def State.pickSplit (s : State) (core lane : Nat) : Option (Nat × Split) :=
  if s.laneHeld core lane then none
  else
    match s.laneReady core lane with
    | [] => none
    | [x] => some x
    | rs => chooseSplit s.freeCtr rs

/-- What a split's issue does to the lane's order (R48): splits that have become ready since the lane last issued did so by
now, one that is not ready has no place in it, a boosted split that goes first overtakes those that were ready before it, and
the issuing split carries its word's boost bit. -/
def State.noteIssue (s : State) (core lane slot : Nat) (p : Split) (boost : Bool) : State :=
  let names := (s.laneReady core lane).map (fun e => splitName e.1 e.2.id)
  let name := splitName slot p.id
  s.mapLane core lane (fun sl x =>
    let mine := splitName sl x.id = name
    let on := names.contains (splitName sl x.id)
    { x with
      readyAt := if on then x.since s.freeCtr else 0
      yieldFor := if mine then [] else x.yieldFor.filter (fun y => y ≠ name && names.contains y)
      overtaken := if !on then 0
        else if !mine && p.boosted && x.since s.freeCtr < p.since s.freeCtr then x.overtaken + 1
        else x.overtaken
      boosted := if mine then boost else x.boosted })

/-- After its word the issuing split, and those that the word has made or let go on in its warp, become ready again after
those that are ready; one that is stopped has no place in the order (R48). -/
def State.issued (s : State) (core lane slot id : Nat) : State :=
  match s.warpAt (warpKey core lane slot) with
  | none => s
  | some w =>
    s.putWarp (warpKey core lane slot) { w with splits := w.splits.map (fun p =>
      if p.stop.isSome then { p with readyAt := 0, overtaken := 0 }
      else if p.id = id then { p with readyAt := s.freeCtr + 1, overtaken := 0 }
      else if p.readyAt = 0 then { p with readyAt := s.freeCtr + 1 }
      else p) }

/-! ## Fetching a word -/

/-- A fetch that did not give the split's header or word: a record of the fetch, or the trap at issue; an uncorrectable
error is raised with `tpc` naming the block's header (R302, R304). -/
def State.fetchFault (s : State) (k : Nat) (w : Warp) (p : Split) (e : MemErr) : State :=
  match e with
  | .page c a wk =>
    let (u, s1) := s.post (s.warpRec k w p c (2 + if wk then 8 else 0) a p.mask 0) (.split k p.id)
      ((s.blockAt w.blk).map (·.launch))
    s1.putWarp k (w.putSplit { p with stop := some (.refetchWord u) })
  | .uce a => (s.putWarp k (w.putSplit { p with idx := 0 })).takeTrap k p.id { cause := tUCE, mask := p.mask, addr := a }
  | .trap _ _ => s.takeTrap k p.id { cause := tSEQUENCE, mask := p.mask, addr := p.pc }

/-- A split that stands at its header enters the block (R141): it may park there at once. -/
def State.enterBlock (s : State) (k : Nat) (w : Warp) (p : Split) : State :=
  match s.fetchEntry k w p.hdr with
  | (s1, .ok hw) =>
    -- a restart whose header had not been read lowers `$sp` by its frame now (R311)
    let w1 := if w.noFrame then { w with noFrame := false, sp := w.sp - BitVec.ofNat 64 (16 * (Header.ofSlot hw).frame.toNat) } else w
    s1.settleWarp k (w1.goTo p p.hdr hw)
  | (s1, .invalid) => s1.seqTrap k p.id p tSEQUENCE p.hdr
  | (s1, .err e) => s1.fetchFault k w p e

/-- What a word asks of the scheduler (Table 10.7). -/
def Instr.sched (i : Instr) : Sched :=
  match i.entry with
  | some n => n.x.sched
  | none => { yield := false, stall := 0, boost := false }

/-- The launch priority of a block, for the counters' filter. -/
def State.prioOf (s : State) (blk : Nat) : Option Nat := (s.launchOf blk).map Launch.prio

/-- The state in which a word is executed: it has been counted, the lane's order has moved on, a yield has been noted, and
the word's split is the issuing one. -/
def State.forWord (s : State) (r : Ref) (w : Warp) (p : Split) (i : Instr) : State :=
  let s1 := (s.noteIssue r.core r.lane r.slot p (Instr.sched i).boost).count .core r.core 0x001 (some r.lane) (s.prioOf w.blk) none
  let s2 := if (Instr.sched i).yield then s1.applyYield (refKey r) p.id else s1
  { s2 with issuer := some r }

/-- The state after a word. -/
def State.afterWord (s : State) (r : Ref) : State := { s.issued r.core r.lane r.slot r.split with issuer := none }

/-- After the meaning of a word. -/
def afterEx (r : Ref) (y : Host.Outcome State Fault Refusal) : Host.Outcome State Fault Refusal :=
  match y with
  | .next t => .next (t.afterWord r)
  | .fault f => .fault f
  | .refused f => .refused f

/-- The word of a split that is to issue (R132), where there is one; otherwise what happens to the split instead: it enters
its block, its word cannot be fetched, no rule assigns the word and it raises UNDEFINED (Table 10.13), or the frame of the
warp's first header does not fit its stack and it raises STACK (R145). What the fetch asks a peer for, the split asks for. -/
def State.issueWord (s0 : State) (r : Ref) (w : Warp) (p : Split) : State × Option Instr :=
  let k := refKey r
  let s : State := { s0 with asker := .resume r }
  if p.idx = 0 then (s.enterBlock k w p, none)
  else if w.badFrame then
    ((s.putWarp k { w with badFrame := false }).takeTrap k p.id
      { cause := tSTACK, mask := p.mask, addr := w.sp - BitVec.ofNat 64 (16 * (Header.ofSlot p.hw).frame.toNat) }, none)
  else
    match s.fetchSlot r.core p.hdr p.idx with
    | (s1, .error e) => (s1.fetchFault k w p e, none)
    | (s1, .ok wd) =>
      match decode wd with
      | .error _ => (s1.takeTrap k p.id { cause := tUNDEFINED, mask := p.mask, addr := 0 }, none)
      | .ok i =>
        if wordFits (Header.ofSlot p.hw) p.idx i then (s1, some i)
        else (s1.takeTrap k p.id { cause := tUNDEFINED, mask := p.mask, addr := 0 }, none)

/-- Run one word of a split with the meaning of instructions `ex`: fetch, decode, execute. -/
def State.runWord (s : State) (r : Ref) (w : Warp) (p : Split)
    (ex : Instr → State → Host.Outcome State Fault Refusal) : Host.Outcome State Fault Refusal :=
  match s.issueWord r w p with
  | (s1, none) => .next s1
  | (s1, some i) => afterEx r (ex i (s1.forWord r w p i))

/-- A lane issues a word of the split it chooses. -/
def State.issue (s : State) (core lane : Nat)
    (ex : Instr → State → Host.Outcome State Fault Refusal) : Host.Outcome State Fault Refusal :=
  match s.pickSplit core lane with
  | none => .next s
  | some (slot, p) =>
    match s.warpAt (warpKey core lane slot) with
    | none => .next s
    | some w => s.runWord { core := core, lane := lane, slot := slot, split := p.id } w p ex

/-! ## A word under way -/

/-- A split's word that has been issued and is not complete. -/
def State.wordUnderway (s : State) (r : Ref) : Option Instr :=
  ((s.warpAt (refKey r)).bind (fun w => w.splitAt r.split)).bind (fun p => match p.stop with
    | some (.underway i) => some i
    | _ => none)

/-- A warp's state while a word of one of its splits is under way: no handler of another split runs, and the warp is not
descheduled, so that the word can end (log entry 115). -/
def Warp.underwayOk (w : Warp) : Bool :=
  w.splits.all (fun p => match p.stop with
    | some (.underway _) => !w.handler.any (· ≠ p.id) && !w.descheduled
    | _ => true)

/-- The split that a lane would issue issues its word, which does not end in this step: its release has begun, or a peer has
been asked to perform what it does there (R47, R110, R346). The word it is at, if it is already under way. -/
def State.begin (s : State) (r : Ref) : Option (State × Instr) :=
  match s.wordUnderway r with
  | some i => some (s, i)
  | none =>
    match s.pickSplit r.core r.lane, s.warpAt (refKey r) with
    | some (slot, p), some w =>
      if slot ≠ r.slot || p.id ≠ r.split then none
      else
        match s.issueWord r w p with
        | (_, none) => none
        | (s1, some i) =>
          let s2 := s1.forWord r w p i
          (match (s2.warpAt (refKey r)).bind (fun v => (v.splitAt r.split).map (fun q => (v, q))) with
           | none => none
           | some (v, q) =>
             some ({ s2.putWarp (refKey r) (v.putSplit { q with stop := some (.underway i), readyAt := 0, overtaken := 0 }) with
               issuer := none }, i))
    | _, _ => none

/-- The rest of a word under way: its meaning, in the state as it now is. -/
def State.finishWord (s : State) (r : Ref) (i : Instr) (ex : Instr → State → Host.Outcome State Fault Refusal) :
    Host.Outcome State Fault Refusal :=
  match (s.warpAt (refKey r)).bind (fun w => (w.splitAt r.split).map (fun p => (w, p))) with
  | none => .next s
  | some (w, p) =>
    afterEx r (ex i { s.putWarp (refKey r) (w.putSplit { p with stop := none }) with issuer := some r, asker := .resume r })

/-- The bytes of an 8-byte group that a core holds dirty. -/
def State.dirtyIn (s : State) (core g : Nat) : Bool := (s.coreAt core).dirty.any (fun e => e.1 / 8 = g)

/-- A step would publish a group of a core, and waits for nothing but acknowledgements of that. -/
def publishes (s : State) (core g : Nat) (y : Host.Outcome State Fault Refusal) : Bool :=
  match y with
  | .next t => s.dirtyIn core g && !t.dirtyIn core g &&
      t.wants.all (fun x => match x with | .acks _ => true | _ => false)
  | _ => false

/-- A group that the release of a split's word publishes is seen before the rest of them (R107, R112): the word is under way
from then on. -/
def State.publishPart (s : State) (ex : Instr → State → Host.Outcome State Fault Refusal) (r : Ref) (g : Nat) : State :=
  match s.begin r with
  | none => s
  | some (s1, i) =>
    if publishes s1 r.core g (s1.finishWord r i ex) then s1.publish r.core (fun k => k / 8 = g) else s

/-- The same for the release of a block that is being saved, once its commands are over (R309). -/
def State.savePart (s : State) (core g : Nat) : State :=
  if publishes s core g (.next s.saveTurn) then s.publish core (fun k => k / 8 = g) else s

/-- The commits of a split's transactions set out while it stands at TXC (R122). -/
def State.commitStart (s : State) (r : Ref) : State :=
  match s.begin r with
  | some (s1, .txc x _) =>
    (match (s1.warpAt (refKey r)).bind (fun w => (w.splitAt r.split).map (fun p => (w, p))) with
     | some (w, p) => s1.startCommits (refKey r) (activeMask w p x)
     | none => s)
  | _ => s

/-! ## A stopped split looks again -/

/-- What a stopped split does when it looks: it asks again for the barrier, the phase, the room or the reply. The steps of
the table end the other stops. -/
def State.resumeStop (s : State) (k : Nat) (p : Split) (st : Stop) : State :=
  match st with
  | .await pend => (match pend.i with | .await x o => s.awaitEval k p.id x o pend | _ => s)
  | .bar id gen hold pend => (match pend.i with | .bar x op _ => s.barPoll k p.id id gen hold pend x op | _ => s)
  | .tbar key gen pend =>
    (match pend.i, s.warpAt k with
     | .tbar x pass _ _, some w =>
       (match s.blockAt w.blk with
        | none => s
        | some b =>
          match (s.launchAt b.launch).bind (fun l => (tbarGroup l b.pos (key / 4)).bind (fun g => l.tbarAt (key % 4) (key / 4) g.1)) with
          | none => s
          | some g => s.tbarPoll k p.id b.launch g gen pend x pass)
     | _, _ => s)
  | .spawn pend => (match pend.i with | .spawn x rcd o => s.spawnRun k p.id x rcd o pend | _ => s)
  | .replay u _ | .refetch u _ | .refetchWord u =>
    if s.sys.posts.any (fun f => f.id = u) then s else s.afterReply k p.id
  | .launch _ pend =>
    (match pend.i, pend.vals, s.warpAt k with
     | .launch x o, (_, v) :: _, some w =>
       (s.putWarp k (writeDst w o.a pend.T .general (fun _ => v))).seqAct k p.id x.seq
     | _, _, _ => s)
  | .xst pend =>
    (match pend.i, s.warpAt k with
     | .xst x m _, some w =>
       if s.xstWaits k m pend.T then s
       else (s.putWarp k (w.putSplit { p with stop := none })).perform k p.id x.seq (planXst m) pend
     | _, _ => s)
  | .nested | .wait _ _ | .push _ | .conj _ | .mmr _ | .underway _ => s

/-- The split that halted its block, whose record has been replied to while the block was being saved or was saved: it goes on
though its block is still halted (R303, R313, R324). -/
def State.haltOver (s : State) (w : Warp) (st : Stop) : Bool :=
  match st with
  | .replay u pend => (match pend.i with | .halt .. => !s.stopping w.blk && !s.sys.posts.any (fun f => f.id = u) | _ => false)
  | _ => false

/-- A split that has become ready did so in this step (R48). -/
def State.resumed (s : State) (r : Ref) : State :=
  match s.warpAt (refKey r) with
  | none => s
  | some w =>
    match w.splitAt r.split with
    | none => s
    | some p => if p.stop.isNone then s.putWarp (refKey r) (w.putSplit { p with readyAt := s.freeCtr, overtaken := 0 }) else s

/-- A stopped split looks at what it waits for (R47): not while its block is being saved or is halted, nor while a handler
of its warp holds it, nor while its warp is descheduled for another split's fault. -/
def State.resume (s : State) (r : Ref) : State :=
  match s.warpAt (refKey r) with
  | none => s
  | some w =>
    match w.splitAt r.split with
    | none => s
    | some p =>
      match p.stop with
      | none => s
      | some st =>
        if (!s.mayGo w p && !s.haltOver w st) || (w.descheduled && !st.deschedules) then s else (s.resumeStop (refKey r) p st).resumed r

/-- A split looks again; one whose word is under way goes on with it, whatever has befallen its block meanwhile: the word was
issued before that. -/
def State.resumeWith (s : State) (ex : Instr → State → Host.Outcome State Fault Refusal) (r : Ref) :
    Host.Outcome State Fault Refusal :=
  match s.wordUnderway r with
  | some i => s.finishWord r i ex
  | none => .next (s.resume r)

/-! ## Losses and damage -/

/-- A replica drains the dirty bytes of an 8-byte group to its home (R114). -/
def State.drainGroup (s : State) (dome g : Nat) : State := s.drain dome (fun k => k / 8 = g)

/-- A replica drops the clean bytes of a line (R114). -/
def State.dropReplicaLine (s : State) (dome line : Nat) : State :=
  let d := s.domeAt dome
  s.putDome dome { d with clean := Sparse.erase d.clean line }
/-- A slice drops a line of a view it holds (R105), and a proxy slice a clean line of host memory. -/
def State.dropView (s : State) (line : Nat) : State := { s with views := Sparse.erase s.views line }
def State.dropHost (s : State) (line : Nat) : State := { s with hostClean := Sparse.erase s.hostClean line }
/-- The translation by which a core reaches a line of local memory. -/
def State.tlbOver (s : State) (core line : Nat) : Option Tlb :=
  (s.coreAt core).tlb.find? (fun x =>
    let a := leafFrame x.entry
    if paApt a = 0 && paIl a then
      (List.range (2 ^ x.bits / 4096)).any (fun j => (s.key (a + 4096 * j)).any (fun k => k ≤ 64 * line && 64 * line < k + 4096))
    else decide (a ≤ 64 * line) && decide (64 * line < a + 2 ^ x.bits))

/-- An L1 fills a line of local memory before a load needs it: loads of different lines are performed in any order (R380). It
reaches the home slice with the class of the page (R98, R101). -/
def State.fillEarly (s : State) (core line : Nat) : State :=
  if 2 ^ 42 ≤ 64 * line || 144 ≤ core || s.lineBad (64 * line) || !s.localOk (64 * line) 64 then s
  else match s.tlbOver core line with
    | none => s
    | some x => ((s.gate [64 * line]).reach core line (x.entry.extractLsb' 61 3).toNat .normal).fillLine core line
/-- A core loses an entry of its TLB (R306) or a block of its instruction cache, which no split stands in: each block runs its
old or its new words (R307). -/
def State.dropTlbEntry (s : State) (core i : Nat) : State :=
  let c := s.coreAt core
  s.putCore core { c with tlb := c.tlb.eraseIdx i }
def State.dropCode (s : State) (core a : Nat) : State :=
  let c := s.coreAt core
  if s.standsIn core a then s else s.putCore core { c with code := Sparse.erase c.code a }

/-- An event that no step shows is counted (R359, log entry 87). A lane is busy with a word of a block on it. -/
def State.bump (s : State) (u : CUnit) (unit event lane prio : Nat) : State :=
  if !unseenEvent u event || unitCount u ≤ unit then s
  else match u with
    | .core =>
      if (List.range 4).any (fun slot => s.prioAt (warpKey unit lane slot) = some prio) then
        s.count u unit event (some lane) (some prio) none
      else s
    | .slice | .dome => s.count u unit event none none none

/-- A line of memory is damaged (R304): none of its bytes has been written since. -/
def State.damageLine (s : State) (line : Nat) : State := { s with bad := Sparse.put s.bad line (List.range 64) }
/-- A scratchpad byte of a resident block is damaged. -/
def State.damageScratch (s : State) (blk off : Nat) : State :=
  if (s.blockAt blk).isSome && !s.badS.contains (blk, off) then { s with badS := (blk, off) :: s.badS } else s
/-- A register of a resident warp is damaged; a word of the warp that is under way has read its registers. -/
def State.damageReg (s : State) (k r : Nat) : State :=
  match s.warpAt k with
  | none => s
  | some w => if w.damaged.contains r || w.splits.any (fun p => match p.stop with | some (.underway _) => true | _ => false) then s
    else s.putWarp k { w with damaged := r :: w.damaged }

/-- A byte of host or peer memory is written from outside the module (R345, R346): no slice of the module sees the write. -/
def State.outsideWrite (s : State) (a : Nat) (v : Byte) : State :=
  if paApt a ≠ 0 && a < 2 ^ 52 then { s with mem := writeMem s.mem a v } else s

/-! ## Whose turn it is -/

/-- The next turn, and the state in which it is taken: time has passed (R355). The counter of the free values goes on so
far that the numbers a step draws at are its own. -/
def State.nextTurn (s : State) : State × Turn :=
  let t := match s.turns with
    | t :: _ => t
    | [] => Config.freeTurn s.freeCtr
  ({ s with
     turns := s.turns.tail
     time := s.time + (Config.freeNs s.freeCtr).setWidth 64
     freeCtr := s.freeCtr + 2 ^ 64 }, t)

/-! ## A word placed where the next step fetches it -/

/-- Where `withFetchWord` puts its page tables, its code, and the virtual address of the code. -/
def placeRoot : Nat := 0x200000
def placeCode : Nat := 0x600000
def placeVa : Word := 0x100000

/-- The bytes placed: a page table of four levels that maps 64 KiB at `placeVa`, executable, onto `placeCode` (R305), the
header of a block of one word with all registers live (R143, R144), and the word. -/
def placedBytes (w : Nat) : List (Nat × List Byte) :=
  [(placeRoot, leBytes 8 (0x400000 + 9)), (0x400000, leBytes 8 (0x401000 + 9)), (0x401000, leBytes 8 (0x402000 + 9)),
   (0x402000 + 8 * 16, leBytes 8 (placeCode + 7)), (placeCode, leBytes 16 0xB0607C0000000073),
   (placeCode + 16, leBytes 16 w)]

end Sys2Proof.Machine
end

