-- ==== Sys2Proof/Machine/Late.lean ====
section
/-! DEFINITION. Late.lean: accesses that are performed after their word has been issued, one 8-byte group at a time, so that
accesses of a thread which no rule orders take effect in any order (R89, R107, R109, R193, R203, R214, R380; log entry 21),
and what becomes of a step that cannot be taken yet (R14, R346). -/

namespace Sys2Proof.Machine

/-! ## Which words -/

/-- What an access does: a plain load or store, an atomic at home, or an exchange store. -/
inductive Way where | load | store | atom | xst
  deriving DecidableEq, Repr

def Way.plain (y : Way) : Bool := y = .load || y = .store

/-- How the access of a memory word is made: its form, its operands, its kind, width, space and offset, and whether it is one
access for the warp (R198, R199). -/
structure MemForm where
  x      : Ctl
  o      : Slots
  srcs   : List Spec
  way    : Way
  n      : Nat
  sp     : Space := .g
  off    : Int := 0
  ty     : OTys := {}
  single : Bool := false
  swap   : Bool := false

/-- The accesses of a word that takes an address in slot B. WAIT's registering read is ordered as an atomic, and CFLUSH as a
store (R109, R206). -/
def memForm : Instr → Option MemForm
  | .ld x m o => some { x := x, o := o, srcs := [o.b], way := .load, n := m.mt.bytes, sp := m.sp, off := m.off.toInt }
  | .st x m o => some { x := x, o := o, srcs := [o.b, o.c], way := .store, n := m.mt.bytes, sp := m.sp, off := m.off.toInt }
  | .ldu x m o => some { x := x, o := o, srcs := [o.b], way := .load, n := m.mt.bytes, sp := m.sp, off := m.off.toInt, single := true }
  | .stu x m o => some { x := x, o := o, srcs := [o.b, o.c], way := .store, n := m.mt.bytes, sp := m.sp, off := m.off.toInt, single := true }
  | .ldm x m o => some { x := x, o := o, srcs := [o.b], way := .load, sp := m.sp, off := m.off.toInt, single := true,
                         n := 8 * (match o.c with | .small v => (smallVal v).toNat | _ => 0) }
  | .ldh x m o | .chk x m o => some { x := x, o := o, srcs := [o.b], way := .load, n := m.mt.bytes, off := m.off.toInt }
  | .atom x m o | .red x m o => some { x := x, o := o, srcs := [o.b, o.c], way := .atom, n := m.aty.bytes, sp := m.sp, ty := { c := ATy.oty m.aty } }
  | .atomc x m o => some { x := x, o := o, srcs := [o.b, o.c, o.d], way := .atom, n := m.aty.bytes, sp := m.sp }
  | .xst x m o => some { x := x, o := o, srcs := [o.b, o.c], way := .xst, n := m.mt.bytes, sp := .s }
  | .wait x _ o => some { x := x, o := o, srcs := [o.b], way := .atom, n := 8 }
  | .cflush x _ off o => some { x := x, o := o, srcs := [o.b], way := .store, n := 1, off := off.toInt }
  | _ => none

/-- A word whose accesses may be performed after it. A RED ends once its slice has accepted it (R211), an atomic that is followed
by an acquire and one of scratchpad in their step, and CFLUSH completes before the next word (R208). -/
def maybeLate (i : Instr) : Bool :=
  match i with
  | .ld .. | .st .. | .ldu .. | .stu .. | .ldm .. | .ldh .. | .chk .. | .xst .. => true
  | .atom _ m _ | .atomc _ m _ => m.sp = .g && (m.ord = .none || m.ord = .rel)
  | _ => false

/-- The registers a word writes when its access has been performed. -/
def lateDsts (i : Instr) : List Spec :=
  match i with
  | .ld _ _ o | .ldu _ _ o | .ldh _ _ o | .chk _ _ o | .atom _ _ o | .atomc _ _ o => if o.a = .none then [] else [o.a]
  | .ldm _ _ o =>
    (match o.a, o.c with
     | .m j, .small v => (List.range 8).filterMap (fun r =>
         if j.val ≤ r && r < j.val + (smallVal v).toNat then some (.m (Fin.ofNat 8 r)) else none)
     | _, _ => [])
  | _ => []

/-! ## What waits for what -/

/-- The threads an access under way is made for. -/
def Late.mask (y : Late) : Mask :=
  match memForm y.pend.i with
  | some f => if f.single then y.pend.T else BitVec.ofNat 32 (2 ^ y.t)
  | none => BitVec.ofNat 32 (2 ^ y.t)

def Late.way (y : Late) : Way := match memForm y.pend.i with | some f => f.way | none => .load

/-- A plain access of scratchpad or of the stack: those of a thread take effect in its program order (R89). -/
def Late.own (y : Late) : Bool := match memForm y.pend.i with | some f => f.way.plain && decide (f.sp ≠ .g) | none => false

/-- A piece of an access has to wait for another access of its warp that was issued before it, or for a lower thread's of the
same word: accesses of a byte by a thread (R203), those of scratchpad and stack (R89), atomics of a thread to a line (R109),
exchange stores of a thread to a receiver (R214); and within a word, stores to a byte (R192) and atomics at a slice (R210). -/
def State.waitsFor (s : State) (y : Late) (g : Nat) (z : Late) : Bool :=
  let share := z.todo.contains g && y.keys.any (fun b => b / 8 = g && z.keys.contains b)
  z.key = y.key &&
  (if z.id = y.id then
     (match y.way with
      | .atom => s.homeSlice (z.keys.headD 0) = s.homeSlice (y.keys.headD 0)
      | .store | .xst => share
      | .load => false)
   else z.mask &&& y.mask ≠ 0 &&
     (match z.way, y.way with
      | .atom, .atom => z.keys.headD 0 / 64 = y.keys.headD 0 / 64
      | .xst, .xst => keyBlock (z.keys.headD 0) = keyBlock (y.keys.headD 0)
      | a, b => a.plain && b.plain && ((z.own && y.own) || share)))

/-- A sequencing field reads a register, other than a predicate. -/
def seqUses (q : Seq) (z : Spec) : Bool :=
  match q, z with
  | .goInd r, .w y | .callInd r, .w y => r = y
  | .loop r _, .n y => r = y
  | _, _ => false

/-- A word names a register in a slot, in its sequencing field, or as one of a range of its own. -/
def usesReg (i : Instr) (z : Spec) : Bool :=
  (match i.entry with
   | some n => [n.o.a, n.o.b, n.o.c, n.o.d, n.o.e].contains z || seqUses n.x.seq z
   | none => false) ||
  (match i, z with
   | .mmr .., .d _ | .spawn .., .d _ | .mma .., .m _ | .mms .., .m _ => true
   | .ldm .., .m _ => (lateDsts i).contains z
   | _, _ => false)

/-- A word reads registers of threads other than its own. -/
def crosses : Instr → Bool
  | .shfl .. | .bcast .. | .wred .. | .wscan .. | .vote .. | .matchW .. | .wset .. | .first .. => true
  | _ => false

/-- A word's registers and flags meet what an access under way will write: it waits for it (R150, R168). -/
def meetsRegs (i : Instr) (M : Mask) (y : Late) : Bool :=
  (lateDsts y.pend.i).any (fun z => usesReg i z && (isWarpDst z || crosses i || decide (y.mask &&& M ≠ 0))) ||
  (y.way = .atom && usesReg i (.special .status) && (crosses i || decide (y.mask &&& M ≠ 0)))

/-- What a word with active threads waits for among the accesses of its own split, besides its registers: a release for plain
accesses before it, an acquire for what was read before it, an arrival at a barrier for all (R108, R110, R111, R215, R223,
R225); an engine command for stores that the engine may read (R129); the return from a handler for the frame. -/
def awaits (i : Instr) (y : Way) : Bool :=
  let rel := y.plain
  let acq := y = .load || y = .atom
  match i with
  | .phase _ m _ => ((m.ord = .rel || m.ord = .acqrel) && rel) || ((m.ord = .acq || m.ord = .acqrel) && acq)
  | .atom _ m _ | .atomc _ m _ =>
    ((m.ord = .rel || m.ord = .acqrel) && (rel || y = .atom)) || ((m.ord = .acq || m.ord = .acqrel) && acq)
  | .wait _ m _ => m.acq && acq
  | .txb .. | .launch .. => rel
  | .arrv _ op _ => op = .add && rel
  | .bar _ op _ => op ≠ .hold
  | .tbar .. | .rft .. => true
  | .cpy .. | .cpyt .. | .cpym .. | .cpyg .. | .gth .. | .sct .. | .wld .. | .mma .. | .mms .. | .epi .. | .board .. |
    .relabel .. | .dcf .. => y = .store
  | _ => false

/-! ## Performing a piece -/

/-- Write the result of an access that is complete, with its flags. -/
def State.lateResult (s : State) (y : Late) (v : Nat → Word) (fl : Flags) : State :=
  match s.warpAt y.key with
  | none => s
  | some w =>
    let low := decide (some y.t = y.pend.T.lowest)
    let w1 := (List.range (lateDsts y.pend.i).length).foldl (fun acc i =>
      match (lateDsts y.pend.i).getD i .none with
      | .m j => (acc.mSet j (v i)).mend (regM j)
      | z => if isWarpDst z then (if low then writeDst acc z (BitVec.ofNat 32 (2 ^ y.t)) .general (fun _ => v i) else acc)
          else writeDst acc z y.mask .general (fun _ => v i)) w
    s.putWarp y.key (w1.flagAll y.mask (fun _ => fl))

def State.dropLate (s : State) (y : Late) : State :=
  { s with late := s.late.filter (fun z => !(z.id = y.id && z.t = y.t)) }

/-- A piece is done; the last one ends the access. -/
def State.latePart (s : State) (y : Late) (done : State → State) : State :=
  if y.todo = [] then done (s.dropLate y)
  else { s with late := s.late.map (fun z => if z.id = y.id && z.t = y.t then y else z) }

/-- The values a load gives, once its bytes have been read. -/
def Late.vals (y : Late) (i : Nat) : Word :=
  let byte (n : Nat) : Byte := (Sparse.find y.got n).getD 0
  match y.pend.i with
  | .ld _ m _ | .ldu _ m _ => extendBytes m.mt ((List.range m.mt.bytes).map byte)
  | .ldh _ m _ | .chk _ m _ => extendBytes m.mt ((List.range m.mt.bytes).map byte)
  | .ldm .. => BitVec.ofNat 64 (leNat ((List.range 8).map (fun j => byte (8 * i + j))))
  | _ => 0

/-- Read bytes for an access under way: of memory, or of the scratchpad of a block that is there. -/
def State.lateRead (s : State) (core : Nat) (alloc : Bool) (ks : List Nat) : State × List Byte :=
  match keyBlock (ks.headD 0) with
  | some b => (s, match s.blockAt b with | some x => ks.map (fun k => Sparse.get 0 x.live (keyOff k)) | none => ks.map (fun _ => 0))
  | none => (s.gate ks).loadKeys core alloc ks

/-- Write bytes for an access under way. -/
def State.lateWrite (s : State) (y : Late) (ks : List Nat) (bs : List Byte) : State :=
  match keyBlock (ks.headD 0) with
  | none => s.storeKeys y.key ks bs
  | some b =>
    match y.way, s.blockAt b with
    | .xst, some x => s.putBlock b { x with shadow := putBank x.shadow (keyOff (ks.headD 0)) bs }
    | _, _ => s.putLive b (keyOff (ks.headD 0)) bs

/-- Perform the piece of an access that lies in one 8-byte group: it is one atomic access (R193). -/
def State.latePiece (s : State) (y : Late) (g : Nat) : State :=
  let at_ := (List.range y.keys.length).filter (fun i => y.keys.getD i 0 / 8 = g)
  let ks := at_.map (fun i => y.keys.getD i 0)
  let core := keyCore y.key
  let y1 : Late := { y with todo := y.todo.filter (· ≠ g) }
  match memForm y.pend.i with
  | none => s.dropLate y
  | some f =>
    let over_ (st : State) : State := st.lastUse core f.x.hint (y.keys.filter (· < 2 ^ 64))
    match f.way, y.pend.i with
    | .load, _ =>
      let r := s.lateRead core (decide (f.x.hint ≠ .bypass)) ks
      let y2 : Late := { y1 with got := (at_.zip r.2).foldl (fun acc e => Sparse.put acc e.1 e.2) y1.got }
      r.1.latePart y2 (fun st => (over_ st).lateResult y2 y2.vals 0)
    | .atom, .atom _ m _ | .atom, .atomc _ m _ =>
      let r := (((s.gate ks).atHome g).atomHome core y.keys m (y.pend.ops.gc y.t) (y.pend.ops.gd y.t))
      r.1.latePart y1 (fun st => (over_ st).lateResult y1 (fun _ => BitVec.ofNat 64 r.2.1) r.2.2)
    | _, _ =>
      let bs := leBytes f.n (y.pend.ops.gc y.t).toNat
      (s.lateWrite y ks (at_.map (fun i => bs.getD i 0))).latePart y1 over_

/-- What stands before an access in the order of issue. -/
def earlierThan (y : Late) (l : List Late) : List Late := l.takeWhile (fun z => !(z.id = y.id && z.t = y.t))

/-- A turn of one piece, which waits for those it has to follow. -/
def State.land1 (s : State) (id t g : Nat) : State :=
  match s.late.find? (fun y => y.id = id && y.t = t && y.todo.contains g) with
  | some y => if (earlierThan y s.late).any (s.waitsFor y g) then s else s.latePiece y g
  | none => s

/-- Perform one piece, those it follows having been performed. -/
def State.landPiece (s : State) (id t g : Nat) : State :=
  match s.late.find? (fun y => y.id = id && y.t = t && y.todo.contains g) with
  | some y => s.latePiece y g
  | none => s

/-- The accesses that a test selects, with those that they have to follow, in the order of issue. -/
def State.lateOf (s : State) (f : Late → Bool) : List Late :=
  s.late.foldr (fun y acc => if f y || acc.any (fun z => z.todo.any (fun g => s.waitsFor z g y)) then y :: acc else acc) []

/-- Perform everything under way that a test selects. -/
def State.landAll (s : State) (f : Late → Bool) : State :=
  (s.lateOf f).foldl (fun st y => y.todo.foldl (fun z g => z.landPiece y.id y.t g) st) s

/-- Apply the lines' reductions among which a test selects one. -/
def State.applyRedsOf (s : State) (f : Pending → Bool) : State :=
  (((s.reds.filter f).map (fun x => x.a / 64)).eraseDups).foldl State.applyReds s

/-! ## Where an access goes -/

/-- The keys of a thread's access; none where it is not made, or traps, or faults. -/
def State.formKeys (s : State) (k : Nat) (i : Instr) (f : MemForm) (base : Word) : State × Option (List Nat) :=
  let core := keyCore k
  let acc : Acc := match i with | .wait .. | .cflush .. => .read | _ => if f.way = .load then .read else .write
  let run (va : Word) : State × Option (List Nat) :=
    if f.way = .atom && va.toNat % f.n ≠ 0 then (s, none)
    else match s.translateRun core acc va f.n with
      | (s1, .ok keys) => (s1, some keys)
      | (s1, .error _) => (s1, none)
  match s.warpAt k with
  | none => (s, none)
  | some w =>
    let bank (b : Nat) (off : Int) (key : Nat → Nat → Nat) : Option (List Nat) :=
      match s.blockAt b with
      | some x => if s.bankOk x off f.n then some ((List.range f.n).map (fun j => key b (off.toNat + j))) else none
      | none => none
    if f.way = .xst then
      (s, match i with
        | .xst _ m _ => (match s.receiver w.blk m with | .block r => bank r base.toNat shadowKey | _ => none)
        | _ => none)
    else
      match effective f.sp w.sp base f.off with
      | .s off => (s, bank w.blk off scratchKey)
      | .k va => if s.inStack k va f.n then run va else (s, none)
      | .g va => run va

/-- The accesses that the threads of a word make, as far as they can be told: for which threads, and where. -/
def State.footprint (s : State) (i : Instr) : List (Mask × List Nat) :=
  match s.context, memForm i with
  | some (c, w, p), some f =>
    let T := activeMask w p f.x
    (match popAll w.ports f.o with
     | none => []
     | some (_, pv) =>
       let ops := readOps c w f.ty f.o pv
       ((if f.single then T.threads.take 1 else T.threads).foldl (fun (acc : State × List (Mask × List Nat)) t =>
         match acc.1.formKeys c.key i f (ops.gb t) with
         | (s1, some keys) => (s1, acc.2 ++ [(if f.single then T else BitVec.ofNat 32 (2 ^ t), keys)])
         | (s1, none) => (s1, acc.2)) (s, [])).2)
  | some (_, w, p), none =>
    (match i with
     | .txc x _ => (activeMask w p x).threads.filterMap (fun t => (w.openTxn t).map (fun y =>
         (BitVec.ofNat 32 (2 ^ t), (y.rlines ++ y.wlines).map (64 * ·))))
     | _ => [])
  | _, _ => []

/-- A word that is performed in its step follows an access under way of the same threads, by the rules of `waitsFor`. -/
def follows (i : Instr) (fp : List (Mask × List Nat)) (z : Late) : Bool :=
  let line (k : Nat) : Nat := k / 64
  fp.any (fun e => z.mask &&& e.1 ≠ 0 &&
    (match i, z.way with
     | .cflush .., .store | .txc .., .atom => e.2.any (fun k => (z.keys.map line).contains (line k))
     | .cflush .., _ | .txc .., _ => false
     | _, a =>
       match memForm i with
       | none => false
       | some f =>
         if f.way = .xst then a = .xst && keyBlock (z.keys.headD 0) = keyBlock (e.2.headD 0)
         else if f.way = .atom && f.sp = .g then a = .atom && line (z.keys.headD 0) = line (e.2.headD 0)
         else a.plain && ((z.own && f.sp ≠ .g) || e.2.any z.keys.contains)))

/-! ## Issuing -/

/-- What every word has to wait for is performed before it is executed (R380): by its registers, as `awaits` says, and, for a
FENCE, all of its warp (R216); for an END, all of its split; for a HALT, all of its block (R324); for an SWR, which may
invalidate translations, everything (R307, R319). -/
def State.settle (s : State) (i : Instr) : State :=
  if s.late = [] && s.reds = [] then s
  else
    match s.context with
    | none => s
    | some (c, w, p) =>
      let mine (M : Mask) (y : Late) : Bool := y.key = c.key && y.mask &&& M ≠ 0
      let on := match i.entry with | some n => decide (activeMask w p n.x ≠ 0) | none => true
      let fin := match i.entry with | some n => decide (n.x.seq = .fin) | none => true
      match i with
      | .swr .. => (s.landAll (fun _ => true)).applyRedsOf (fun _ => true)
      | .fence .. => if on then (s.landAll (fun y => y.key = c.key)).applyRedsOf (fun x => x.key = c.key)
          else s.landAll (fun y => y.key = c.key && meetsRegs i p.mask y)
      | .halt .. => s.landAll (fun y => (s.blockWarps w.blk).any (fun e => e.1 = y.key))
      | _ =>
        let s1 := s.landAll (fun y => (y.key = c.key && meetsRegs i p.mask y) || (mine p.mask y && (fin || (on && awaits i y.way))))
        match i with
        | .atom x m _ | .atomc x m _ =>
          if m.ord = .rel || m.ord = .acqrel then
            let T := activeMask w p x
            s1.applyRedsOf (fun z => z.key = c.key && T.has z.t)
          else s1
        | _ => s1

/-- The same for a word that is performed whole in its step: it also follows the accesses that its own have to follow. -/
def State.settleWhole (s : State) (i : Instr) : State :=
  let s1 := s.settle i
  if s1.late = [] then s1
  else
    match s1.context with
    | none => s1
    | some y0 =>
      let fp := s1.footprint i
      if fp = [] then s1 else s1.landAll (fun y => y.key = y0.1.key && follows i fp y)

/-- The accesses of a word's threads, where each is one to memory of the module or the host or to scratchpad, which nothing
keeps from being performed; a thread of an LDH whose access would fault makes none. -/
def State.lateKeys (s : State) (k : Nat) (i : Instr) (f : MemForm) (ops : Opnds) : List Nat → State × Option (List (Nat × List Nat))
  | [] => (s, some [])
  | t :: ts =>
    let hoist := match i with | .ldh .. => true | _ => false
    match s.formKeys k i f (ops.gb t) with
    | (s1, r) =>
      let bad (key : Nat) : Bool := match keyBlock key with
        | some b => s1.badS.contains (b, keyOff key)
        | none => decide (2 ^ 52 ≤ key) || peerKey key || s1.lineBad key
      match (if r.isNone && hoist then some [] else r) with
      | none => (s1, none)
      | some keys =>
        if keys.any bad then (s1, none)
        else
          match s1.lateKeys k i f ops ts with
          | (s2, some l) => (s2, some ((t, keys) :: l))
          | (s2, none) => (s2, none)

/-- An access of a thread is under way: it has reached the L1, or its home slice, and none of it has been performed. -/
def State.addLate (s : State) (k id : Nat) (f : MemForm) (pend : Pend) (e : Nat × List Nat) : State :=
  let core := keyCore k
  let lines := (e.2.map (· / 64)).eraseDups
  let y : Late := { id := id, key := k, t := e.1, pend := pend, keys := e.2, todo := (e.2.map (· / 8)).eraseDups, got := [] }
  let s1 := if (keyBlock (e.2.headD 0)).isSome then s
    else
      let va := match s.warpAt k with
        | some w => (match effective f.sp w.sp (pend.ops.gb e.1) f.off with | .g va | .k va => va | .s _ => 0)
        | none => 0
      let cls := s.classOf core va
      if f.way = .atom then lines.foldl (fun z n => z.reach core n cls f.x.hint) s
      else
        let s2 := (s.noteLines k f.x.hint cls e.2 (decide (f.way = .store))).window k lines (decide (f.way = .store))
        if f.sp = .k then s2.noteFrame k e.2 else s2
  if e.2 = [] then s1.lateResult y (fun _ => 0) 0 else { s1 with late := s1.late ++ [y] }

/-- A word whose hoisted load is still valid does nothing (R202). -/
def hoistFits (i : Instr) (w : Warp) (T : Mask) (ops : Opnds) : Bool :=
  match i with
  | .chk _ m o => (w.hoistAt m.idx.val).any (fun h => h.fits m o.a T ops)
  | _ => false

/-- A memory word's accesses may be performed later: it may be late at all, threads of T are active, none of them is in a
transaction, its registers are read without an error, and its sequencing act reads none of its destinations. -/
def startsLate (i : Instr) (f : MemForm) (w : Warp) (T : Mask) : Bool :=
  let dsts := lateDsts i
  let okDst (z : Spec) : Bool := match z with | .d _ | .w _ | .n _ | .m _ => true | _ => false
  maybeLate i && T ≠ 0 && f.x.seq ≠ .fin && f.n ≠ 0 && T.threads.all (fun t => (w.openTxn t).isNone) && dsts.all okDst &&
    !dsts.any (seqUses f.x.seq) && uceMask w (f.srcs ++ guards f.x) T = 0 &&
    !(match i with | .ldm _ m _ => m.sp = .k | _ => false)

/-- An LDM's address is misaligned (R197). -/
def ldmMisaligned (i : Instr) (a : Word) : Bool :=
  match i with
  | .ldm .. => decide (a.toNat % 8 ≠ 0)
  | _ => false

/-- The release of a release atomic, before its access (R210). -/
def State.lateRelease (s : State) (c : WCtx) (i : Instr) : State :=
  match i with
  | .atom _ m _ | .atomc _ m _ => if m.ord = Ord.rel then s.release (keyCore c.key) c.launch m.scope else s
  | _ => s

/-- The entry of a hoisted load whose accesses are under way: none where a thread's address was not translated (R201). -/
def State.lateHoist (s : State) (k : Nat) (i : Instr) (T : Mask) (ops : Opnds) (l : List (Nat × List Nat)) : State :=
  match i, s.warpAt k with
  | .ldh _ m o, some w =>
    s.putWarp k (w.putHoist m o.a T ops (if l.any (fun e => e.2 = []) then none else some (l.flatMap Prod.snd)))
  | _, _ => s

/-- Issue a memory word whose accesses are performed later: they are translated and are under way, and the word goes on. The
release of an atomic comes first (R210), and a hoisted load's entry is written (R201). -/
def State.startLate (s : State) (i : Instr) : Option State :=
  match s.context, memForm i with
  | some (c, w, p), some f =>
    let T := activeMask w p f.x
    if !startsLate i f w T then none
    else
      match popAll w.ports f.o with
      | none => none
      | some (ports, pv) =>
        let ops := readOps c w f.ty f.o pv
        let low := T.lowest.getD 0
        if hoistFits i w T ops || ldmMisaligned i (ops.gb low + BitVec.ofInt 64 f.off) then none
        else
          let s0 := s.putWarp c.key { w with ports := ports }
          let s1 := s0.lateRelease c i
          match s1.lateKeys c.key i f ops (if f.single then [low] else T.threads) with
          | (_, none) => none
          | (s2, some l) =>
            let pend : Pend := { i := i, T := T, todo := T, ops := ops }
            let (u, s3) := s2.fresh
            let s4 := l.foldl (fun (st : State) e => st.addLate c.key u f pend e) s3
            some ((s4.lateHoist c.key i T ops l).seqAct c.key p.id f.x.seq)
  | _, _ => none

/-- Issue a word whose accesses may be performed later; any other is executed as it stands. -/
def lateOr (ex : Instr → State → Host.Outcome State Fault Refusal) (i : Instr) (s : State) : Host.Outcome State Fault Refusal :=
  match (s.settle i).startLate i with
  | some t => .next t
  | none => ex i (s.settleWhole i)

/-- A row of the table that is no word waits for accesses under way where it is a write of a control register by the host, which
may invalidate translations (R307). -/
def State.settleEvent (s : State) (e : Instr) : State :=
  match e with
  | .ctlHostWrite .. => (s.landAll (fun _ => true)).applyRedsOf (fun _ => true)
  | _ => s

/-- A line, or a byte of scratchpad, is damaged when nothing is under way to it (R304). -/
def State.damageLanded (s : State) (line : Nat) : State :=
  ((s.landAll (fun _ => true)).applyRedsOf (fun _ => true)).damageLine line
def State.damageScratchLanded (s : State) (blk off : Nat) : State := (s.landAll (fun _ => true)).damageScratch blk off

/-- The warps that a step has put in handler mode with accesses still under way: those come before the entry (R298, R380). -/
def State.newHandlers (s r : State) : List Nat :=
  ((s.late.map (fun y => y.key)).eraseDups).filter (fun k =>
    (s.warpAt k).any (fun w => w.handler.isNone) && (r.warpAt k).any (fun w => w.handler.isSome))

/-! ## Steps that wait -/

/-- What is done for a step that could not be taken: a request is sent to a peer once, behind what its proxy slice holds of the
line, and a release sends what it has to complete there (R113, R345, R346). -/
def State.serve (s : State) (x : Want) : State :=
  match x with
  | .tower _ => s
  | .peer who addr op =>
    if s.bexOut.any (fun r => r.who = some who && r.addr = addr && decide (r.op = op)) then s
    else
      match op with
      | .read | .write .. => s.bexSend (some who) addr op
      | .atomic .. | .reduce .. => (s.proxyFlush (fun k => k / 64 = addr / 64)).bexSend (some who) addr op
  | .acks core =>
    let t := ((s.publish core (fun _ => true)).drain (domeOf core) (fun _ => true)).proxyFlush peerKey
    if t.wants = [] then t else s

/-- A want that a word can no longer be taken back for: a peer performs something for it, or its release has begun. -/
def Want.starts (r : Ref) : Want → Bool
  | .tower _ => false
  | .acks _ => true
  | .peer who _ op => who.1 = .resume r && (match op with | .read | .write .. => false | .atomic .. | .reduce .. => true)

/-- The split whose word a turn issues. -/
def State.issuing (s : State) (t : Turn) : Option Ref :=
  match t with
  | .issue core lane | .issueLate core lane =>
    (s.pickSplit core lane).map (fun e => { core := core, lane := lane, slot := e.1, split := e.2.id })
  | _ => none

/-- A step that could not be taken: nothing of it has happened, and the requests it needs are sent (R14, R113, R346, R354). A
word for which a peer has been asked to perform something, or whose release has begun, is under way from now on (R47). -/
def State.hold (s : State) (t : Turn) (ws : List Want) : State :=
  let s1 := ws.foldl State.serve s
  match s.issuing t with
  | none => s1
  | some r => if ws.any (Want.starts r) then (match s1.begin r with | some (s2, _) => s2 | none => s1) else s1

/-- A step has been taken: what its asker had been answered is used up, and what it had asked for and not used is nobody's (log
entry 100). A step that changes nothing has not used its answers. -/
def State.taken (s r : State) : State :=
  if r.bexDone = [] && r.bexOut = [] then { r with asker := .idle }
  else if { r with asker := s.asker } = s then s
  else { r.forgetAsker (fun t => decide (t = r.asker)) with asker := .idle }

end Sys2Proof.Machine
end

