-- ==== Sys2Proof/Machine/Dispatch.lean ====
section
/-! DEFINITION. Dispatch.lean: one arm per row of the table. -/

namespace Sys2Proof.Machine

/-- What each row of the table does. -/
def exec (i : Instr) (s : State) : Host.Outcome State Fault Refusal :=
  match i with
  | .ill => Sys2Proof.Machine.execIll s
  | .iadd x m o => Sys2Proof.Machine.execIadd x m o s
  | .isub x m o => Sys2Proof.Machine.execIsub x m o s
  | .iaddc x o => Sys2Proof.Machine.execIaddc x o s
  | .imul x m o => Sys2Proof.Machine.execImul x m o s
  | .imulh x m o => Sys2Proof.Machine.execImulh x m o s
  | .imad x m o => Sys2Proof.Machine.execImad x m o s
  | .idiv x m o => Sys2Proof.Machine.execIdiv x m o s
  | .irem x m o => Sys2Proof.Machine.execIrem x m o s
  | .ineg x m o => Sys2Proof.Machine.execIneg x m o s
  | .iabs x m o => Sys2Proof.Machine.execIabs x m o s
  | .imin x m o => Sys2Proof.Machine.execImin x m o s
  | .imax x m o => Sys2Proof.Machine.execImax x m o s
  | .andL x m o => Sys2Proof.Machine.execAnd x m o s
  | .orL x m o => Sys2Proof.Machine.execOr x m o s
  | .xorL x m o => Sys2Proof.Machine.execXor x m o s
  | .andn x m o => Sys2Proof.Machine.execAndn x m o s
  | .shl x m o => Sys2Proof.Machine.execShl x m o s
  | .shr x m o => Sys2Proof.Machine.execShr x m o s
  | .sar x m o => Sys2Proof.Machine.execSar x m o s
  | .rol x m o => Sys2Proof.Machine.execRol x m o s
  | .clz x m o => Sys2Proof.Machine.execClz x m o s
  | .ctz x m o => Sys2Proof.Machine.execCtz x m o s
  | .popc x m o => Sys2Proof.Machine.execPopc x m o s
  | .brev x m o => Sys2Proof.Machine.execBrev x m o s
  | .bfx x m o => Sys2Proof.Machine.execBfx x m o s
  | .bfi x m o => Sys2Proof.Machine.execBfi x m o s
  | .sel x m o => Sys2Proof.Machine.execSel x m o s
  | .mov x m o => Sys2Proof.Machine.execMov x m o s
  | .lea x m o => Sys2Proof.Machine.execLea x m o s
  | .icmp x m o => Sys2Proof.Machine.execIcmp x m o s
  | .padd x m o => Sys2Proof.Machine.execPadd x m o s
  | .psub x m o => Sys2Proof.Machine.execPsub x m o s
  | .pmul x m o => Sys2Proof.Machine.execPmul x m o s
  | .pmad x m o => Sys2Proof.Machine.execPmad x m o s
  | .pmin x m o => Sys2Proof.Machine.execPmin x m o s
  | .pmax x m o => Sys2Proof.Machine.execPmax x m o s
  | .pabs x m o => Sys2Proof.Machine.execPabs x m o s
  | .pavg x m o => Sys2Proof.Machine.execPavg x m o s
  | .psad x m o => Sys2Proof.Machine.execPsad x m o s
  | .pdot x m o => Sys2Proof.Machine.execPdot x m o s
  | .pcmp x m o => Sys2Proof.Machine.execPcmp x m o s
  | .pshl x m o => Sys2Proof.Machine.execPshl x m o s
  | .pshr x m o => Sys2Proof.Machine.execPshr x m o s
  | .fadd x m o => Sys2Proof.Machine.execFadd x m o s
  | .fsub x m o => Sys2Proof.Machine.execFsub x m o s
  | .fmul x m o => Sys2Proof.Machine.execFmul x m o s
  | .fma x m o => Sys2Proof.Machine.execFma x m o s
  | .fmin x m o => Sys2Proof.Machine.execFmin x m o s
  | .fmax x m o => Sys2Proof.Machine.execFmax x m o s
  | .fabs x m o => Sys2Proof.Machine.execFabs x m o s
  | .fneg x m o => Sys2Proof.Machine.execFneg x m o s
  | .fcmp x m o => Sys2Proof.Machine.execFcmp x m o s
  | .fclass x m o => Sys2Proof.Machine.execFclass x m o s
  | .fdot2 x m o => Sys2Proof.Machine.execFdot2 x m o s
  | .fscale x m o => Sys2Proof.Machine.execFscale x m o s
  | .frcp x m o => Sys2Proof.Machine.execFrcp x m o s
  | .frsq x m o => Sys2Proof.Machine.execFrsq x m o s
  | .fsqrt x m o => Sys2Proof.Machine.execFsqrt x m o s
  | .fexp2 x m o => Sys2Proof.Machine.execFexp2 x m o s
  | .flog2 x m o => Sys2Proof.Machine.execFlog2 x m o s
  | .fsin x m o => Sys2Proof.Machine.execFsin x m o s
  | .fcos x m o => Sys2Proof.Machine.execFcos x m o s
  | .ftanh x m o => Sys2Proof.Machine.execFtanh x m o s
  | .fdiv x m o => Sys2Proof.Machine.execFdiv x m o s
  | .cvt x m o => Sys2Proof.Machine.execCvt x m o s
  | .pack x m o => Sys2Proof.Machine.execPack x m o s
  | .unpack x m o => Sys2Proof.Machine.execUnpack x m o s
  | .swz x m o => Sys2Proof.Machine.execSwz x m o s
  | .shfl x m o => Sys2Proof.Machine.execShfl x m o s
  | .bcast x m o => Sys2Proof.Machine.execBcast x m o s
  | .wred x m o => Sys2Proof.Machine.execWred x m o s
  | .wscan x m o => Sys2Proof.Machine.execWscan x m o s
  | .vote x m o => Sys2Proof.Machine.execVote x m o s
  | .matchW x o => Sys2Proof.Machine.execMatch x o s
  | .wset x o => Sys2Proof.Machine.execWset x o s
  | .first x o => Sys2Proof.Machine.execFirst x o s
  | .pset x o => Sys2Proof.Machine.execPset x o s
  | .plop x m inv o => Sys2Proof.Machine.execPlop x m inv o s
  | .pmov x o => Sys2Proof.Machine.execPmov x o s
  | .pmovScatter x o => Sys2Proof.Machine.execPmovScatter x o s
  | .ld x m o => Sys2Proof.Machine.execLd x m o s
  | .st x m o => Sys2Proof.Machine.execSt x m o s
  | .ldu x m o => Sys2Proof.Machine.execLdu x m o s
  | .stu x m o => Sys2Proof.Machine.execStu x m o s
  | .ldh x m o => Sys2Proof.Machine.execLdh x m o s
  | .chk x m o => Sys2Proof.Machine.execChk x m o s
  | .ldm x m o => Sys2Proof.Machine.execLdm x m o s
  | .pref x llc off o => Sys2Proof.Machine.execPref x llc off o s
  | .locq x o => Sys2Proof.Machine.execLocq x o s
  | .dcf x o => Sys2Proof.Machine.execDcf x o s
  | .cflush x op off o => Sys2Proof.Machine.execCflush x op off o s
  | .atom x m o => Sys2Proof.Machine.execAtom x m o s
  | .atomc x m o => Sys2Proof.Machine.execAtomc x m o s
  | .red x m o => Sys2Proof.Machine.execRed x m o s
  | .xst x m o => Sys2Proof.Machine.execXst x m o s
  | .xstReceiverResident r => Sys2Proof.Machine.execXstReceiverResident r s
  | .phase x m o => Sys2Proof.Machine.execPhase x m o s
  | .fence x m o => Sys2Proof.Machine.execFence x m o s
  | .bar x op o => Sys2Proof.Machine.execBar x op o s
  | .tbar x pass swap o => Sys2Proof.Machine.execTbar x pass swap o s
  | .wait x m o => Sys2Proof.Machine.execWait x m o s
  | .waitTimeout id => Sys2Proof.Machine.execWaitTimeout id s
  | .wakeUp id => Sys2Proof.Machine.execWakeUp id s
  | .await x o => Sys2Proof.Machine.execAwait x o s
  | .arrv x op o => Sys2Proof.Machine.execArrv x op o s
  | .txb x o => Sys2Proof.Machine.execTxb x o s
  | .txc x o => Sys2Proof.Machine.execTxc x o s
  | .txa x o => Sys2Proof.Machine.execTxa x o s
  | .txs x o => Sys2Proof.Machine.execTxs x o s
  | .yieldW x o => Sys2Proof.Machine.execYield x o s
  | .coalescingWindowClose core lane slot line store => Sys2Proof.Machine.execCoalescingWindowClose core lane slot line store s
  | .cpy x m o => Sys2Proof.Machine.execCpy x m o s
  | .cpyt x m o => Sys2Proof.Machine.execCpyt x m o s
  | .cpym x m o => Sys2Proof.Machine.execCpym x m o s
  | .cpyg x m o => Sys2Proof.Machine.execCpyg x m o s
  | .gth x m o => Sys2Proof.Machine.execGth x m o s
  | .sct x m o => Sys2Proof.Machine.execSct x m o s
  | .qfence x qset o => Sys2Proof.Machine.execQfence x qset o s
  | .engineQueuePush r => Sys2Proof.Machine.execEngineQueuePush r s
  | .copyLanding cmd line => Sys2Proof.Machine.execCopyLanding cmd line s
  | .commandCompletion cmd => Sys2Proof.Machine.execCommandCompletion cmd s
  | .gatherWindow cmd => Sys2Proof.Machine.execGatherWindow cmd s
  | .scatterPosition cmd j => Sys2Proof.Machine.execScatterPosition cmd j s
  | .wld x m o => Sys2Proof.Machine.execWld x m o s
  | .wldFillStart core => Sys2Proof.Machine.execWldFillStart core s
  | .weightExchange core => Sys2Proof.Machine.execWeightExchange core s
  | .mma x m o => Sys2Proof.Machine.execMma x m o s
  | .mms x m o => Sys2Proof.Machine.execMms x m o s
  | .mmr x m o => Sys2Proof.Machine.execMmr x m o s
  | .collectorDelivery core lane => Sys2Proof.Machine.execCollectorDelivery core lane s
  | .aclr x m o => Sys2Proof.Machine.execAclr x m o s
  | .matrixCommandStart core => Sys2Proof.Machine.execMatrixCommandStart core s
  | .rowRetire core cmd => Sys2Proof.Machine.execRowRetire core cmd s
  | .matrixCommandComplete core cmd => Sys2Proof.Machine.execMatrixCommandComplete core cmd s
  | .epi x m o => Sys2Proof.Machine.execEpi x m o s
  | .epiDrain core => Sys2Proof.Machine.execEpiDrain core s
  | .board x m o => Sys2Proof.Machine.execBoard x m o s
  | .unite x nc o => Sys2Proof.Machine.execUnite x nc o s
  | .find x nc o => Sys2Proof.Machine.execFind x nc o s
  | .fsize x nc o => Sys2Proof.Machine.execFsize x nc o s
  | .relabel x m o => Sys2Proof.Machine.execRelabel x m o s
  | .fsnap x op rcd o => Sys2Proof.Machine.execFsnap x op rcd o s
  | .fundo x rcd o => Sys2Proof.Machine.execFundo x rcd o s
  | .spawn x rcd o => Sys2Proof.Machine.execSpawn x rcd o s
  | .trap x code o => Sys2Proof.Machine.execTrap x code o s
  | .sysc x code o => Sys2Proof.Machine.execSysc x code o s
  | .brk x code o => Sys2Proof.Machine.execBrk x code o s
  | .rft x op o => Sys2Proof.Machine.execRft x op o s
  | .srd x sel o => Sys2Proof.Machine.execSrd x sel o s
  | .swr x sel o => Sys2Proof.Machine.execSwr x sel o s
  | .rstl x o => Sys2Proof.Machine.execRstl x o s
  | .launch x o => Sys2Proof.Machine.execLaunch x o s
  | .perf x slice o => Sys2Proof.Machine.execPerf x slice o s
  | .halt x code o => Sys2Proof.Machine.execHalt x code o s
  | .nop x o => Sys2Proof.Machine.execNop x o s
  | .launchQueueDoorbell q tail => Sys2Proof.Machine.execLaunchQueueDoorbell q tail s
  | .launchAcceptance => Sys2Proof.Machine.execLaunchAcceptance s
  | .guardRead l => Sys2Proof.Machine.execGuardRead l s
  | .blockAdmission l core => Sys2Proof.Machine.execBlockAdmission l core s
  | .blockEnd b => Sys2Proof.Machine.execBlockEnd b s
  | .packerTimeout l stage => Sys2Proof.Machine.execPackerTimeout l stage s
  | .formedWarpStart l b => Sys2Proof.Machine.execFormedWarpStart l b s
  | .terminationRound l => Sys2Proof.Machine.execTerminationRound l s
  | .faultRecordPost k => Sys2Proof.Machine.execFaultRecordPost k s
  | .fqReplyReplay seq => Sys2Proof.Machine.execFqReplyReplay seq s
  | .fqReplyFatal seq => Sys2Proof.Machine.execFqReplyFatal seq s
  | .fqReplyResume seq => Sys2Proof.Machine.execFqReplyResume seq s
  | .tinv v => Sys2Proof.Machine.execTinv v s
  | .icinv => Sys2Proof.Machine.execIcinv s
  | .preEmptCore core => Sys2Proof.Machine.execPreEmptCore core s
  | .preEmptLaunch => Sys2Proof.Machine.execPreEmptLaunch s
  | .cancelLaunch => Sys2Proof.Machine.execCancelLaunch s
  | .restoreQueue core => Sys2Proof.Machine.execRestoreQueue core s
  | .restore k => Sys2Proof.Machine.execRestore k s
  | .restcap k => Sys2Proof.Machine.execRestcap k s
  | .ctlHostWrite sel v => Sys2Proof.Machine.execCtlHostWrite sel v s
  | .ctlerrClear => Sys2Proof.Machine.execCtlerrClear s
  | .controlWindowWrite off v => Sys2Proof.Machine.execControlWindowWrite off v s
  | .hostMemoryWrite off v => Sys2Proof.Machine.execHostMemoryWrite off v s
  | .hostMemoryRead off => Sys2Proof.Machine.execHostMemoryRead off s
  | .snextArm v => Sys2Proof.Machine.execSnextArm v s
  | .snextDisarm => Sys2Proof.Machine.execSnextDisarm s
  | .rstatClear => Sys2Proof.Machine.execRstatClear s
  | .ringStep => Sys2Proof.Machine.execRingStep s
  | .followEpoch => Sys2Proof.Machine.execFollowEpoch s
  | .towerReset d force => Sys2Proof.Machine.execTowerReset d force s
  | .towerResetEnd d => Sys2Proof.Machine.execTowerResetEnd d s
  | .pcap v => Sys2Proof.Machine.execPcap v s
  | .checkpointSave a => Sys2Proof.Machine.execCheckpointSave a s
  | .checkpointRestore a => Sys2Proof.Machine.execCheckpointRestore a s
  | .checkpointDone => Sys2Proof.Machine.execCheckpointDone s
  | .counterSelectWrite u unit n v => Sys2Proof.Machine.execCounterSelectWrite u unit n v s
  | .moduleReset images failedTower transitOk badCores => Sys2Proof.Machine.execModuleReset images failedTower transitOk badCores s
  | .getVersion port => Sys2Proof.Machine.execGetVersion port s
  | .getCapabilities port => Sys2Proof.Machine.execGetCapabilities port s
  | .negotiateAlgorithms port => Sys2Proof.Machine.execNegotiateAlgorithms port s
  | .getDigests port => Sys2Proof.Machine.execGetDigests port s
  | .getCertificate port => Sys2Proof.Machine.execGetCertificate port s
  | .challenge port => Sys2Proof.Machine.execChallenge port s
  | .getMeasurements port => Sys2Proof.Machine.execGetMeasurements port s
  | .bexsetRequest dome source tag seq addr op => Sys2Proof.Machine.execBexsetRequest dome source tag seq addr op s
  | .bexsetRetransmit tag => Sys2Proof.Machine.execBexsetRetransmit tag s
  | .bexsetResponse tag v => Sys2Proof.Machine.execBexsetResponse tag v s
  | .bexsetAck dome source tag seq => Sys2Proof.Machine.execBexsetAck dome source tag seq s
  | .ucieLinkRetry dome => Sys2Proof.Machine.execUcieLinkRetry dome s
  | .timeCorrection offset => Sys2Proof.Machine.execTimeCorrection offset s
  | .ageingSample marked => Sys2Proof.Machine.execAgeingSample marked s
  | .coreRetirement core => Sys2Proof.Machine.execCoreRetirement core s
  | .wldFillComplete core => Sys2Proof.Machine.execWldFillComplete core s
  | .aclrStart core => Sys2Proof.Machine.execAclrStart core s
  | .aclrClearComplete core cmd => Sys2Proof.Machine.execAclrClearComplete core cmd s
  | .patchGather cmd => Sys2Proof.Machine.execPatchGather cmd s
  | .conjunctionOperation slice op => Sys2Proof.Machine.execConjunctionOperation slice op s
  | .tinvComplete => Sys2Proof.Machine.execTinvComplete s
  | .icinvComplete => Sys2Proof.Machine.execIcinvComplete s
  | .pstateChange v => Sys2Proof.Machine.execPstateChange v s

end Sys2Proof.Machine
end

