-- ==== Sys2Proof/Machine/Step.lean ====
section
/-! DEFINITION. Step.lean: one step of the machine, and the placing of a word where the next step fetches it. -/

namespace Sys2Proof.Machine

/-- The meaning of a word performed whole in its step, after what it has to wait for. -/
def whole (i : Instr) (s : State) : Host.Outcome State Fault Refusal := exec i (s.settleWhole i)

/-- What a turn does. A row of the table that is no word is an event and needs no issuing split; a write of a control register
by the host may invalidate translations, and damage meets storage, so accesses under way are performed before these. -/
def State.act (s : State) (t : Turn) : Host.Outcome State Fault Refusal :=
  match t with
  | .issue core lane => s.issue core lane whole
  | .issueLate core lane => s.issue core lane (lateOr exec)
  | .resume r => s.resumeWith whole r
  | .event e =>
    if e.isWord then .next s
    else exec e (s.settleEvent e)
  | .land id t g => .next (s.land1 id t g)
  | .dropClean core line => .next (s.dropCleanLine core line)
  | .publishPart r g => .next (s.publishPart whole r g)
  | .savePart core g => .next (s.savePart core g)
  | .applyReds line => .next ((s.gate [64 * line]).applyReds line)
  | .drainReplica dome g => .next (s.drainGroup dome g)
  | .dropReplica dome line => .next (s.dropReplicaLine dome line)
  | .dropView line => .next (s.dropView line)
  | .dropHost line => .next (s.dropHost line)
  | .proxyDrain g => .next (s.proxyGo g)
  | .fillLine core line => .next (s.fillEarly core line)
  | .dropTlb core i => .next (s.dropTlbEntry core i)
  | .dropWalk dome a => .next (s.forget dome a)
  | .dropCode core a => .next (s.dropCode core a)
  | .fillTlb core va => .next (s.translate core .read va).1
  | .commitStart r => .next (s.commitStart r)
  | .bump u unit event lane prio => .next (s.bump u unit event lane prio)
  | .cancelWaits ctx => .next (s.cancelWaits ctx)
  | .windowRead off n => .next (s.windowRead off n)
  | .resizeBar memory log => .next (s.resizeBar memory log)
  | .powerSample => .next s.powerSample
  | .damageLine line => .next (s.damageLanded line)
  | .damageScratch blk off => .next (s.damageScratchLanded blk off)
  | .damageReg k r => .next (s.damageReg k r)
  | .corruptTile i b => .next (s.corruptTile i b)
  | .readAhead c line => .next (s.readAhead c line)
  | .saveGo => .next s.saveTurn
  | .outsideWrite a v => .next (s.outsideWrite a v)
  | .idle => .next s

/-- What a turn does, with the turn as the one that asks peers. A trap is entered behind the accesses its warp has under way. -/
def State.tryTurn (s : State) (t : Turn) : Host.Outcome State Fault Refusal :=
  let s1 : State := { s with asker := t }
  match s1.act t with
  | .next r =>
    let ks := s.newHandlers r
    if ks = [] then .next r else (s1.landAll (fun y => ks.contains y.key)).act t
  | .fault f => .fault f
  | .refused f => .refused f

/-- Take a turn: its step, unless something outside has to happen first, or a word under way has to end first. -/
def State.turn (s : State) (t : Turn) : Host.Outcome State Fault Refusal :=
  match s.tryTurn t with
  | .next r => if r.wants = [] && r.warps.all (fun e => e.2.all Warp.underwayOk) then .next (s.taken r) else .next (s.hold t r.wants)
  | .fault f => .fault f
  | .refused f => .refused f

/-- One step: a held ring tile whose range has become free lands; otherwise a turn of the agenda is taken, or the free choice
where the agenda is empty. -/
def step (s : State) : Host.Outcome State Fault Refusal :=
  if s.heldDue then .next s.landHeld else s.nextTurn.1.turn s.nextTurn.2

/-- The state with a word placed for the next step, which stands for the load of a program from outside (log entry 8): a
page table that maps the code, the code, a launch with one block of one warp on lane 0 of core 0, whose split stands at
the word, and an agenda that gives that lane the turn. -/
def State.withFetchWord (s : State) (_nbits w : Nat) : State :=
  let hw : Word128 := 0xB0607C0000000073
  let l : Launch := {
    addr := 0, lctl := 0, part := 0x010101, warps := 1, bpc := 1, tw := 1, th := 1, ox := 255, oy := 255,
    entry := placeVa, ehw := hw, params := 0, abase := 0, astride := 0, afield := 0, nblocks := 0, start := 0,
    guard := 0, lstat := 0, wword := 0, stab := 0, st := .running, bound := none, origin := (0, 0), toAdmit := [],
    stages := [], term := { cur := 0, streak := 0, dirty := [] }, tbars := [] }
  let mem := (placedBytes w).foldl (fun m e =>
    (List.range e.2.length).foldl (fun n i => writeMem n (e.1 + i) (e.2.getD i 0)) m) s.mem
  let old := s.coreAt 0
  let dom := s.domeAt 0
  let s1 : State := {
    s with
    ident := { s.ident with state := 1, towers := s.ident.towers ||| 1 }
    ctl := { s.ctl with ptroot := BitVec.ofNat 64 placeRoot }
    mem := mem
    bad := []
    warps := s.warps.filter (fun e => 4 ≤ e.1)
    cmds := s.cmds.filter (fun c => c.core ≠ 0)
    power := { s.power with inReset := [] }
    ring := { s.ring with held := [] }
    late := s.late.filter (fun y => 4 ≤ y.key)
    reds := s.reds.filter (fun x => 4 ≤ x.key)
    wants := []
    nextUid := s.nextUid + 2
    turns := [.issue 0 0] }
  let s2 := ((s1.putCore 0 { old with tlb := [], code := [] }).putDome 0 { dom with walks := [] })
  let s3 := (s2.putLaunch s.nextUid l).putBlock (s.nextUid + 1) (newBlock s.nextUid 0 (0, 0) 0 0 hw)
  s3.putWarp 0 (s3.newWarp 0 (s.nextUid + 1) 0 0 placeVa hw 0 [] [])

end Sys2Proof.Machine
end

