-- ==== Sys2Proof/Safety.lean ====
section
/-! DEFINITION. Safety.lean: what counts as a safe state, and the terms the statements use: a word that stands ready, what a
destination then holds, and what else of its warp may change. -/

namespace Sys2Proof.Machine

/-- A table in canonical form: keys strictly rising. -/
def risingFrom {α : Type} : Nat → Sparse α → Bool
  | _, [] => true
  | lo, (k, _) :: rest => decide (lo ≤ k) && risingFrom (k + 1) rest

/-- Memory in canonical form: addresses strictly rising, and no entry equal to what an unlisted address reads as. -/
def Memory.wf (m : List Host.Cell) : Bool := risingFrom 0 m && m.all (fun e => e.2 ≠ memUnlisted)

/-- Every system control register holds a value that a write of it accepts (Table 10.12), the step length at least 81
(R288), and there are eight replacement classes (R97). -/
def Regs.legal (r : Regs) : Bool :=
  decide (r.tvec.toNat % 16 = 0) && decide (r.stkbase.toNat % 65536 = 0) && decide (r.stksize.toNat % 65536 = 0) &&
  decide (r.ilbase.toNat % 2 ^ 21 = 0) && decide (r.ilsize.toNat % 2 ^ 21 = 0) &&
  decide (r.rclass.length = 8) && r.rclass.all (fun c => decide (c.wpol.toNat < 2)) && decide (r.rcsel.toNat < 8) &&
  decide (r.repways.toNat < 2 ^ 16) && decide (r.fmin.toNat < 2 ^ 32) &&
  decide (r.fpool.toNat < 2 ^ 41 ∧ r.fpool.toNat % 4096 = 0) &&
  decide (81 ≤ r.ringrate.toNat % 65536 ∧ r.ringrate.toNat < 2 ^ 17) && decide (r.dwell.toNat < 2 ^ 16)

/-- The machine stands in a safe state: its memory and its control registers are legal. -/
def State.safe (s : State) : Bool := Memory.wf s.mem && s.ctl.legal

/-! ## Words that work on registers -/

/-- A word of the issuing split stands ready: some thread is active (R138), no active thread reads a damaged register, as a
source or in a guard (R304), and every queue-port source has a record, which `ports` and `pv` are left and given by (R135). -/
structure Ready (s : State) (c : WCtx) (w : Warp) (p : Split) (x : Ctl) (o : Slots) (srcs : List Spec)
    (ports : List (Port × Word)) (pv : Pops) : Prop where
  issuer : s.context = some (c, w, p)
  active : activeMask w p x ≠ 0
  sound  : uceMask w (srcs ++ guards x) (activeMask w p x) = 0
  ports  : popAll w.ports o = some (ports, pv)

/-- A destination that takes the value: no refused write of `$slim` or `$sp` (R45, R152). -/
def dstOk (c : WCtx) (w : Warp) (T : Mask) (x : Spec) (val : Nat → Word) : Prop :=
  ∀ t, T.lowest = some t → dstTrap c w T x (val t) = none

/-- What a destination holds after it was written (R135): a register per thread for each thread of `T`, a register per
warp from the lowest-numbered one; `p7` and `q3` discard the write and read true (R138); `$status` keeps bits [8:0] and a
zero written to `$rnd` stores the seed (R68, R153). -/
def Holds (w : Warp) (x : Spec) (T : Mask) (val : Nat → Word) : Prop :=
  match x with
  | .d i => ∀ t, T.has t → w.dGet i t = val t
  | .p i => ∀ t, T.has t → w.pGet i t = (decide (i.val = 7) || (val t).getLsbD 0)
  | .w i => ∀ t, T.lowest = some t → w.wGet i = val t
  | .q i => ∀ t, T.lowest = some t → w.qGet i = (decide (i.val = 3) || (val t).getLsbD 0)
  | .n i => ∀ t, T.lowest = some t → w.nGet i = (val t).setWidth 32
  | .m i => ∀ t, T.lowest = some t → w.mGet i = val t
  | .special .slim => ∀ t, T.lowest = some t → w.slim = (val t).toNat
  | .special .sp => ∀ t, T.lowest = some t → w.sp = val t
  | .special .status => ∀ t, T.has t → w.statusOf t = (val t).setWidth 9
  | .special .rnd => ∀ t, T.has t → w.rndOf t = (if val t = 0 then Config.rndSeed else val t)
  | _ => True

/-- The register that `x` names for thread `t` is not among the destinations `ds` of the threads `T`. -/
def apart (ds : List Spec) (T : Mask) (x : Spec) (t : Nat) : Prop := x ∉ ds ∨ (T.has t = false ∧ isWarpDst x = false)

/-- What a word leaves of its warp: every register that no destination names keeps its value, and beside the
registers, their tags and damage marks and the port queues nothing changes. `$status` and `$rnd` stand in the
statements themselves. -/
structure Kept (w w' : Warp) (ds : List Spec) (T : Mask) : Prop where
  regD : ∀ (i : Fin 64) t, t < 32 → apart ds T (.d i) t → w'.dGet i t = w.dGet i t
  regP : ∀ (i : Fin 8) t, t < 32 → apart ds T (.p i) t → w'.pGet i t = w.pGet i t
  regW : ∀ i : Fin 32, .w i ∉ ds → w'.wGet i = w.wGet i
  regQ : ∀ i : Fin 4, .q i ∉ ds → w'.qGet i = w.qGet i
  regN : ∀ i : Fin 4, .n i ∉ ds → w'.nGet i = w.nGet i
  regM : ∀ i : Fin 8, .m i ∉ ds → w'.mGet i = w.mGet i
  slim : .special .slim ∉ ds → w'.slim = w.slim
  sp   : .special .sp ∉ ds → w'.sp = w.sp
  rest : w = { w' with
    d := w.d, tags := w.tags, p := w.p, w := w.w, q := w.q, n := w.n, m := w.m, slim := w.slim, sp := w.sp,
    status := w.status, rnd := w.rnd, ports := w.ports, damaged := w.damaged }

/-- What a word with one destination does to its warp: the destination holds `val`, each active thread's `$status`
gains its flags (R75) and its `$rnd` becomes `rn` (R67), and the rest is kept. A word whose destination is `$status` or
`$rnd` leaves there what it wrote. -/
structure RegEffect (w w' : Warp) (x : Spec) (T : Mask) (val : Nat → Word) (fl : Nat → Flags) (rn : Nat → Word) :
    Prop where
  dst    : Holds w' x T val
  status : x ≠ .special .status → ∀ t, w'.statusOf t = (if T.has t then w.statusOf t ||| fl t else w.statusOf t)
  statusOther : ∀ t, T.has t = false → w'.statusOf t = w.statusOf t
  rnd    : x ≠ .special .rnd → ∀ t, w'.rndOf t = (if T.has t then rn t else w.rndOf t)
  rndOther : ∀ t, T.has t = false → w'.rndOf t = w.rndOf t
  kept   : Kept w w' [x] T

/-- No draw is taken. -/
def keepRnd (_ : WCtx) (w : Warp) (_ : Mask) (_ : Opnds) : Nat → Word := w.rndOf

/-- The state of `$rnd` after `n` draws (R68). -/
def rndSteps : Nat → Word → Word
  | 0, s => s
  | n + 1, s => rndSteps n (rndStep s)

/-- No condition on the operands. -/
def always (_ : WCtx) (_ : Warp) (_ : Mask) (_ : Opnds) : Prop := True

/-- THE SHAPE OF A RESULT STATEMENT of a word of classes 000 to 011 with destination slot A: wherever the word stands
ready, its operands meet `pre` and its destination takes the value, `exec` answers a next state, which is the state with
the word's effect on its warp, carried on by its sequencing act. `val`, `fl` and `rn` give the value, the flags and the
state of `$rnd` of a thread from the frame, the warp, the active threads and the operands read. -/
def Yields (i : Instr) (x : Ctl) (o : Slots) (ty : OTys) (srcs : List Spec)
    (pre : WCtx → Warp → Mask → Opnds → Prop) (val : WCtx → Warp → Mask → Opnds → Nat → Word)
    (fl : WCtx → Warp → Mask → Opnds → Nat → Flags) (rn : WCtx → Warp → Mask → Opnds → Nat → Word) : Prop :=
  ∀ (s : State) (c : WCtx) (w : Warp) (p : Split) (ports : List (Port × Word)) (pv : Pops),
    Ready s c w p x o srcs ports pv →
    let T := activeMask w p x
    let v := readOps c w ty o pv
    pre c w T v → dstOk c w T o.a (val c w T v) →
    ∃ w' : Warp, exec i s = .next ((s.putWarp c.key w').seqAct c.key p.id x.seq) ∧ w'.ports = ports ∧
      RegEffect w w' o.a T (val c w T v) (fl c w T v) (rn c w T v)

end Sys2Proof.Machine
end

