-- ==== Sys2Proof/Certificates/Slice0/Obligations.lean ====
section
/-! DEFINITION. Certificates/Slice0/Obligations.lean: what is claimed of the machine. -/

open Sys2Proof Sys2Proof.Machine

/-! ## Integer and logic words -/

/-- The integer that an exact result becomes in a type: clamped to the type's range under `.sat`, else itself; the bits
kept are its residue (R58, R161). -/
def Claim.bits (ty : ETy) (sat : Bool) (r : Int) : Nat :=
  ((if sat then max (intLo ty.signed ty.width) (min (intHi ty.signed ty.width) r) else r) % (2 ^ ty.width : Nat)).toNat

/-- An exact result lies outside a type's range. -/
def Claim.outside (ty : ETy) (r : Int) : Bool := decide (r < intLo ty.signed ty.width) || decide (intHi ty.signed ty.width < r)

/-- An element-wise integer word of form I: sub-element `k` of the result is `f` of the sub-elements `k` of B, C and D as
integers of the type, brought into the type; SATURATE is set where `.sat` clamped one. -/
def Claim.intWord (ctor : Ctl → IMod → Slots → Instr) (srcs : Slots → List Spec)
    (f : IMod → Int → Int → Int → Int) : Prop :=
  ∀ (x : Ctl) (m : IMod) (o : Slots), ∃ val fl,
    Yields (ctor x m o) x o (tys m.ty) (srcs o) always val fl keepRnd ∧
    ∀ c w T v t,
      let r (k : Nat) : Int := f m (elemInt m.ty (v.gb t) k) (elemInt m.ty (v.gc t) k) (elemInt m.ty (v.gd t) k)
      (∀ k, k < m.ty.count → elemBits m.ty.width (val c w T v t) k = Claim.bits m.ty m.sat (r k)) ∧
      fl c w T v t = flagIf (m.sat && (List.range m.ty.count).any (fun k => Claim.outside m.ty (r k))) fSaturate

/-- R164, R165, R169: the element-wise integer words compute the exact result of Tables 12.4 and 12.5 and bring it into
the type. -/
def Claim.IntegerWordsComputeExactlyThenNarrow : Prop :=
  Claim.intWord .iadd (fun o => [o.b, o.c]) (fun _ b c _ => b + c) ∧
  Claim.intWord .isub (fun o => [o.b, o.c]) (fun _ b c _ => b - c) ∧
  Claim.intWord .imul (fun o => [o.b, o.c]) (fun _ b c _ => b * c) ∧
  Claim.intWord .imulh (fun o => [o.b, o.c]) (fun m b c _ => (b * c) / 2 ^ m.ty.width) ∧
  Claim.intWord .imad (fun o => [o.b, o.c, o.d]) (fun _ b c d => b * c + d) ∧
  Claim.intWord .ineg (fun o => [o.b]) (fun _ b _ _ => -b) ∧
  Claim.intWord .iabs (fun o => [o.b]) (fun _ b _ _ => if b < 0 then -b else b) ∧
  Claim.intWord .imin (fun o => [o.b, o.c]) (fun _ b c _ => min b c) ∧
  Claim.intWord .imax (fun o => [o.b, o.c]) (fun _ b c _ => max b c) ∧
  Claim.intWord .padd (fun o => [o.b, o.c]) (fun _ b c _ => b + c) ∧
  Claim.intWord .psub (fun o => [o.b, o.c]) (fun _ b c _ => b - c) ∧
  Claim.intWord .pmul (fun o => [o.b, o.c]) (fun m b c _ => if m.var then (b * c) / 2 ^ m.ty.width else b * c) ∧
  Claim.intWord .pmad (fun o => [o.b, o.c, o.d]) (fun _ b c d => b * c + d) ∧
  Claim.intWord .pmin (fun o => [o.b, o.c]) (fun _ b c _ => min b c) ∧
  Claim.intWord .pmax (fun o => [o.b, o.c]) (fun _ b c _ => max b c) ∧
  Claim.intWord .pabs (fun o => [o.b]) (fun _ b _ _ => if b < 0 then -b else b) ∧
  Claim.intWord .pavg (fun o => [o.b, o.c]) (fun _ b c _ => (b + c + 1) / 2)

/-- Division as Table 6.2 has it: the quotient truncated toward zero, by zero the end of the range on the dividend's side. -/
def Claim.quotient (ty : ETy) (b c : Int) : Int :=
  if c = 0 then (if b < 0 then intLo ty.signed ty.width else intHi ty.signed ty.width) else b.tdiv c

/-- A division word: as an integer word, with DIVZERO where a divisor is 0. -/
def Claim.divWord (ctor : Ctl → IMod → Slots → Instr) (f : ETy → Int → Int → Int) : Prop :=
  ∀ (x : Ctl) (m : IMod) (o : Slots), ∃ val fl,
    Yields (ctor x m o) x o (tys m.ty) [o.b, o.c] always val fl keepRnd ∧
    ∀ c w T v t,
      let r (k : Nat) : Int := f m.ty (elemInt m.ty (v.gb t) k) (elemInt m.ty (v.gc t) k)
      (∀ k, k < m.ty.count → elemBits m.ty.width (val c w T v t) k = Claim.bits m.ty m.sat (r k)) ∧
      fl c w T v t =
        flagIf (m.sat && (List.range m.ty.count).any (fun k => Claim.outside m.ty (r k))) fSaturate |||
        flagIf ((List.range m.ty.count).any (fun k => decide (elemInt m.ty (v.gc t) k = 0))) fDivZero

/-- R59, Table 6.2: IDIV truncates toward zero, IREM has the dividend's sign; a zero divisor sets DIVZERO. -/
def Claim.DivisionTruncatesAndFlagsZeroDivisors : Prop :=
  Claim.divWord .idiv Claim.quotient ∧ Claim.divWord .irem (fun _ b c => if c = 0 then b else b.tmod c)

/-- R165: IADDC adds B, C and bit 0 of D; slot A takes the low 64 bits and slot E the carry out. Where A and E name one
register it holds the carry, which is written last. -/
def Claim.AddWithCarryWritesSumAndCarry : Prop :=
  ∀ (s : State) (c : WCtx) (w : Warp) (p : Split) (x : Ctl) (o : Slots) (ports : List (Port × Word)) (pv : Pops),
    Ready s c w p x o [o.b, o.c, o.d] ports pv →
    let T := activeMask w p x
    let v := readOps c w {} o pv
    let sum (t : Nat) : Nat := (v.gb t).toNat + (v.gc t).toNat + (v.gd t).toNat % 2
    let carry (t : Nat) : Word := if 2 ^ 64 ≤ sum t then 1 else 0
    dstOk c w T o.a (fun t => BitVec.ofNat 64 (sum t)) → dstOk c w T o.e carry →
    ∃ w' : Warp, exec (.iaddc x o) s = .next ((s.putWarp c.key w').seqAct c.key p.id x.seq) ∧ w'.ports = ports ∧
      (o.a ≠ o.e → Holds w' o.a T (fun t => BitVec.ofNat 64 (sum t))) ∧ Holds w' o.e T carry ∧
      Kept w w' [o.a, o.e] T ∧
      (o.a ≠ .special .status → o.e ≠ .special .status → ∀ t, w'.statusOf t = w.statusOf t) ∧
      (o.a ≠ .special .rnd → o.e ≠ .special .rnd → ∀ t, w'.rndOf t = w.rndOf t)

/-- R59, R164, R165, R169, Tables 6.2, 12.4 and 12.5: the integer words compute the exact result and bring it into the type; division
truncates and flags a zero divisor; IADDC writes the sum and the carry. -/
def Obligations.IntegerArithmeticWords : Prop :=
  Claim.IntegerWordsComputeExactlyThenNarrow ∧ Claim.DivisionTruncatesAndFlagsZeroDivisors ∧ Claim.AddWithCarryWritesSumAndCarry

/-- No flag is set. -/
def Claim.noFlags (_ : WCtx) (_ : Warp) (_ : Mask) (_ : Opnds) (_ : Nat) : Flags := 0

/-- A word on the bit patterns of sub-elements of B, C, D and E: `R` relates the width, the four patterns and the pattern
of the result. -/
def Claim.bitWord (ctor : Ctl → IMod → Slots → Instr) (srcs : Slots → List Spec)
    (R : IMod → Nat → Nat → Nat → Nat → Nat → Nat → Prop) : Prop :=
  ∀ (x : Ctl) (m : IMod) (o : Slots), ∃ val,
    Yields (ctor x m o) x o (tys m.ty) (srcs o) always val Claim.noFlags keepRnd ∧
    ∀ c w T v t k, k < m.ty.count →
      R m m.ty.width (elemBits m.ty.width (v.gb t) k) (elemBits m.ty.width (v.gc t) k) (elemBits m.ty.width (v.gd t) k)
        (elemBits m.ty.width (v.ge t) k) (elemBits m.ty.width (val c w T v t) k)

/-- Table 12.4, Table 12.5: the bitwise words and the shifts, by sub-element. A count at or above the width leaves 0, or
the sign bits in an arithmetic shift; ROL takes it modulo the width. -/
def Claim.LogicAndShiftWords : Prop :=
  let bc (o : Slots) : List Spec := [o.b, o.c]
  Claim.bitWord .andL bc (fun _ _ b c _ _ r => r = b &&& c) ∧
  Claim.bitWord .orL bc (fun _ _ b c _ _ r => r = b ||| c) ∧
  Claim.bitWord .xorL bc (fun _ _ b c _ _ r => r = b ^^^ c) ∧
  Claim.bitWord .andn bc (fun _ w b c _ _ r => ∀ i, i < w → r.testBit i = (b.testBit i && !c.testBit i)) ∧
  Claim.bitWord .shl bc (fun _ w b c _ _ r => r = (b <<< c) % 2 ^ w) ∧
  Claim.bitWord .pshl bc (fun _ w b c _ _ r => r = (b <<< c) % 2 ^ w) ∧
  Claim.bitWord .shr bc (fun _ _ b c _ _ r => r = b >>> c) ∧
  Claim.bitWord .sar bc (fun m w b c _ _ r =>
    if m.ty.signed then (r : Int) = (toInt true w b >>> c) % (2 ^ w : Nat) else r = b >>> c) ∧
  Claim.bitWord .pshr bc (fun m w b c _ _ r =>
    if m.ty.signed then (r : Int) = (toInt true w b >>> c) % (2 ^ w : Nat) else r = b >>> c) ∧
  Claim.bitWord .rol bc (fun _ w b c _ _ r => r = ((BitVec.ofNat w b).rotateLeft c).toNat)

/-- The length a field takes (R166): nothing from a position at or past the width, and no bit past it. -/
def Claim.fieldLen (w pos len : Nat) : Nat := if w ≤ pos then 0 else min len (w - pos)

/-- Table 12.4, R166: bit counts, bit reversal, bit fields and LEA, by sub-element. -/
def Claim.BitCountAndFieldWords : Prop :=
  Claim.bitWord .clz (fun o => [o.b]) (fun _ w b _ _ _ r =>
    (b = 0 → r = w) ∧ (b ≠ 0 → r < w ∧ 2 ^ (w - 1 - r) ≤ b ∧ b < 2 ^ (w - r))) ∧
  Claim.bitWord .ctz (fun o => [o.b]) (fun _ w b _ _ _ r =>
    (b = 0 → r = w) ∧ (b ≠ 0 → 2 ^ r ∣ b ∧ ¬ 2 ^ (r + 1) ∣ b)) ∧
  Claim.bitWord .popc (fun o => [o.b]) (fun _ w b _ _ _ r => r = ((List.range w).filter (fun i => b.testBit i)).length) ∧
  Claim.bitWord .brev (fun o => [o.b]) (fun _ w b _ _ _ r => ∀ i, i < w → r.testBit i = b.testBit (w - 1 - i)) ∧
  Claim.bitWord .bfx (fun o => [o.b, o.c, o.d]) (fun m w b c d _ r =>
    let l := Claim.fieldLen w c d
    ∀ i, i < w → r.testBit i =
      (if i < l then b.testBit (c + i) else m.ty.signed && decide (0 < l) && b.testBit (c + l - 1))) ∧
  Claim.bitWord .bfi (fun o => [o.b, o.c, o.d, o.e]) (fun _ w b c d e r =>
    ∀ i, i < w → r.testBit i =
      (if d ≤ i ∧ i < d + Claim.fieldLen w d e then b.testBit (i - d) else c.testBit i)) ∧
  Claim.bitWord .lea (fun o => [o.b, o.c, o.d]) (fun _ w b c d _ r => r = (b + c * 2 ^ (d % w)) % 2 ^ w)

/-- Table 12.4: SEL takes B where bit 0 of D holds and C elsewhere, MOV takes B, both as whole bit patterns. -/
def Claim.SelectAndMoveWords : Prop :=
  (∀ (x : Ctl) (m : IMod) (o : Slots), Yields (.sel x m o) x o (tysD m.ty) [o.b, o.c, o.d] always
    (fun _ _ _ v t => if (v.gd t).getLsbD 0 then v.gb t else v.gc t) Claim.noFlags keepRnd) ∧
  (∀ (x : Ctl) (m : IMod) (o : Slots), Yields (.mov x m o) x o (tys m.ty) [o.b] always
    (fun _ _ _ v t => v.gb t) Claim.noFlags keepRnd)

/-- A condition between integers (R167). -/
def Claim.cond (k : Cond) (b c : Int) : Bool :=
  match k with
  | .eq => b == c
  | .ne => b != c
  | .lt => decide (b < c)
  | .le => decide (b < c) || b == c
  | .gt => decide (c < b)
  | .ge => decide (c < b) || b == c

/-- R167, R169: ICMP and PCMP write all ones in a sub-element where the condition holds and zero elsewhere. -/
def Claim.CompareWordsWriteMasks : Prop :=
  ∀ (x : Ctl) (m : CMod) (o : Slots), ∃ val,
    Yields (.icmp x m o) x o (tys m.ty) [o.b, o.c] always val Claim.noFlags keepRnd ∧
    Yields (.pcmp x m o) x o (tys m.ty) [o.b, o.c] always val Claim.noFlags keepRnd ∧
    ∀ c w T v t k, k < m.ty.count → elemBits m.ty.width (val c w T v t) k =
      (if Claim.cond m.cond (elemInt m.ty (v.gb t) k) (elemInt m.ty (v.gc t) k) then 2 ^ m.ty.width - 1 else 0)

/-- R166, R167, R169, Tables 12.4 and 12.5: bitwise words and shifts, bit counts, bit fields and LEA, selections, moves and
comparisons, by sub-element. -/
def Obligations.BitwiseWords : Prop :=
  Claim.LogicAndShiftWords ∧ Claim.BitCountAndFieldWords ∧ Claim.SelectAndMoveWords ∧ Claim.CompareWordsWriteMasks

/-- A sum over the sub-elements added to D as a whole 64-bit integer of the type's signedness (R170). -/
def Claim.sumWord (ctor : Ctl → IMod → Slots → Instr) (f : Int → Int → Int) : Prop :=
  ∀ (x : Ctl) (m : IMod) (o : Slots),
    let r (v : Opnds) (t : Nat) : Int := toInt m.ty.signed 64 (v.gd t).toNat +
      ((List.range m.ty.count).map (fun k => f (elemInt m.ty (v.gb t) k) (elemInt m.ty (v.gc t) k))).sum
    let lo := intLo m.ty.signed 64
    let hi := intHi m.ty.signed 64
    Yields (ctor x m o) x o (tysD m.ty) [o.b, o.c, o.d] always
      (fun _ _ _ v t => BitVec.ofInt 64 (if m.sat then max lo (min hi (r v t)) else r v t))
      (fun _ _ _ v t => flagIf (m.sat && (decide (r v t < lo) || decide (hi < r v t))) fSaturate) keepRnd

/-- R170: PSAD adds the absolute differences and PDOT the products of the sub-elements to D. -/
def Obligations.PackedSumsAccumulateInto64Bits : Prop :=
  Claim.sumWord .psad (fun b c => if b < c then c - b else b - c) ∧ Claim.sumWord .pdot (fun b c => b * c)

/-! ## Floating-point words -/

/-- The draw that the `k`-th drawing sub-element takes under RS: the upper half of the state after its step (R67, R68). -/
def Claim.draw (rm : RMode) (draws : Nat → Bool) (r : Word) (k : Nat) : Nat :=
  if rm = .rs then (if draws k then (rndSteps ((List.range (k + 1)).filter draws).length r).toNat / 2 ^ 32 else 0) else 0

/-- Flags joined over sub-elements. -/
def Claim.join (n : Nat) (f : Nat → Flags) : Flags := (List.range n).foldr (fun k a => f k ||| a) 0

/-- A floating-point word: sub-element `k` of the result and its flags are `f` of the draw and the encodings of the
sub-elements `k` of B, C and D; under RS `$rnd` advances once per drawing sub-element. -/
def Claim.fltWord (ctor : Ctl → FMod → Slots → Instr) (ty : FMod → OTys) (srcs : Slots → List Spec)
    (draws : FMod → Nat → Bool) (f : FMod → Nat → Nat → Nat → Nat → Nat × Flags) : Prop :=
  ∀ (x : Ctl) (m : FMod) (o : Slots), ∃ val fl rn,
    Yields (ctor x m o) x o (ty m) (srcs o) always val fl rn ∧
    ∀ c w T v t,
      let e := m.fty.ety
      let d (k : Nat) : Bool := draws m (elemBits e.width (v.gb t) k)
      let r (k : Nat) : Nat × Flags := f m (Claim.draw m.rm d (w.rndOf t) k) (elemBits e.width (v.gb t) k)
        (elemBits e.width (v.gc t) k) (elemBits e.width (v.gd t) k)
      (∀ k, k < e.count → elemBits e.width (val c w T v t) k = (r k).1 % 2 ^ e.width) ∧
      fl c w T v t = Claim.join e.count (fun k => (r k).2) ∧
      rn c w T v t = (if m.rm = .rs then rndSteps ((List.range e.count).filter d).length (w.rndOf t) else w.rndOf t)

/-- The exact sum of values in a format, rounded once, with the flags of the operands' flushes. -/
def Claim.sum (m : FMod) (draw : Nat) (created : Bool) (ts : List Term1) (fs : Flags) : Nat × Flags :=
  let y := (FTy.fmt m.fty).sum (FTy.flushes m.fty) m.rm draw created ts
  (y.1, y.2 ||| fs)

/-- Table 12.6, R171: FADD, FSUB, FMUL and FMA round the exact result once, on operands flushed in the 16-bit types;
∞ × 0 makes a NaN, which sets INVALID where no operand is one. -/
def Claim.FloatArithmeticRoundsTheExactResultOnce : Prop :=
  let sh (m : FMod) : OTys := tys m.fty.ety
  let all (_ : FMod) (_ : Nat) : Bool := true
  Claim.fltWord .fadd sh (fun o => [o.b, o.c]) all (fun m r b c _ =>
    let u := FTy.opnd m.fty b
    let v := FTy.opnd m.fty c
    Claim.sum m r false [u.1.term, v.1.term] (u.2 ||| v.2)) ∧
  Claim.fltWord .fsub sh (fun o => [o.b, o.c]) all (fun m r b c _ =>
    let u := FTy.opnd m.fty b
    let v := FTy.opnd m.fty c
    Claim.sum m r false [u.1.term, v.1.negate.term] (u.2 ||| v.2)) ∧
  Claim.fltWord .fmul sh (fun o => [o.b, o.c]) all (fun m r b c _ =>
    let u := FTy.opnd m.fty b
    let v := FTy.opnd m.fty c
    Claim.sum m r (FVal.mul u.1 v.1).2 [(FVal.mul u.1 v.1).1] (u.2 ||| v.2)) ∧
  Claim.fltWord .fma sh (fun o => [o.b, o.c, o.d]) all (fun m r b c d =>
    let u := FTy.opnd m.fty b
    let v := FTy.opnd m.fty c
    let z := FTy.opnd m.fty d
    Claim.sum m r ((FVal.mul u.1 v.1).2 && !z.1.isNan) [(FVal.mul u.1 v.1).1, z.1.term] (u.2 ||| v.2 ||| z.2)) ∧
  Claim.fltWord .fscale (fun m => { b := ETy.otyOf m.fty.ety, c := .elems m.fty.ety.width none }) (fun o => [o.b, o.c])
    (fun m b => match (FTy.opnd m.fty b).1 with | .fin _ n _ => decide (n ≠ 0) | _ => false)
    (fun m r b c _ =>
      let f := FTy.fmt m.fty
      match FTy.opnd m.fty b with
      | (.nan, g) => (f.nan, g)
      | (.inf n, g) => (f.inf n, g)
      | (.fin n k e, g) =>
        if k = 0 then (f.zero n, g)
        else f.round (FTy.flushes m.fty) (.mode m.rm r) n k (e + scaleClamp (toInt true m.fty.ety.width c)) false)

/-- R174: FDOT2 adds two products of neighbouring 16-bit sub-elements to an FP32 addend and rounds once to FP32. -/
def Claim.FloatDotProductRoundsOnce : Prop :=
  ∀ (x : Ctl) (m : FMod) (o : Slots), ∃ val fl rn,
    Yields (.fdot2 x m o) x o { b := ETy.otyOf m.fty.ety, c := ETy.otyOf m.fty.ety, d := ETy.otyOf .f32x2 }
      [o.b, o.c, o.d] always val fl rn ∧
    ∀ c w T v t,
      let b (i : Nat) := FTy.opnd m.fty (elemBits 16 (v.gb t) i)
      let d (i : Nat) := FTy.opnd m.fty (elemBits 16 (v.gc t) i)
      let p (i : Nat) := FVal.mul (b i).1 (d i).1
      let z (j : Nat) := fp32.value (elemBits 32 (v.gd t) j)
      let clean (j : Nat) : Bool := !((b (2 * j)).1.isNan || (d (2 * j)).1.isNan || (b (2 * j + 1)).1.isNan ||
        (d (2 * j + 1)).1.isNan || (z j).isNan)
      let r (j : Nat) : Nat × Flags :=
        fp32.sum false m.rm (Claim.draw m.rm (fun _ => true) (w.rndOf t) j)
          (((p (2 * j)).2 || (p (2 * j + 1)).2) && clean j) [(p (2 * j)).1, (p (2 * j + 1)).1, (z j).term]
      (∀ j, j < 2 → elemBits 32 (val c w T v t) j = (r j).1 % 2 ^ 32) ∧
      fl c w T v t = Claim.join 2 (fun j => (r j).2 ||| (b (2 * j)).2 ||| (d (2 * j)).2 ||| (b (2 * j + 1)).2 |||
        (d (2 * j + 1)).2) ∧
      rn c w T v t = (if m.rm = .rs then rndSteps 2 (w.rndOf t) else w.rndOf t)

/-- R171, R174, Table 12.6: FADD, FSUB, FMUL, FMA and FDOT2 round their exact result once. -/
def Obligations.FloatSumsAndProductsRoundOnce : Prop :=
  Claim.FloatArithmeticRoundsTheExactResultOnce ∧ Claim.FloatDotProductRoundsOnce

/-- A floating-point encoding after R71's flush, and whether it was flushed. -/
def Claim.flushed (f : FTy) (b : Nat) : Nat :=
  if FTy.flushes f && (FTy.fmt f).subnormal b then (FTy.fmt f).zero ((FTy.fmt f).sign b) else b
def Claim.flushFlag (f : FTy) (b : Nat) : Flags := flagIf (FTy.flushes f && (FTy.fmt f).subnormal b) fFlush

/-- A floating-point word that rounds nothing: `R` relates the encodings of B and C and the encoding of the result, and
`g` gives the flags. -/
def Claim.plainWord (ctor : Ctl → FMod → Slots → Instr) (srcs : Slots → List Spec)
    (R : FMod → Nat → Nat → Nat → Prop) (g : FMod → Nat → Nat → Flags) : Prop :=
  ∀ (x : Ctl) (m : FMod) (o : Slots), ∃ val fl,
    Yields (ctor x m o) x o (tys m.fty.ety) (srcs o) always val fl keepRnd ∧
    ∀ c w T v t,
      let e := m.fty.ety
      (∀ k, k < e.count → R m (elemBits e.width (v.gb t) k) (elemBits e.width (v.gc t) k)
        (elemBits e.width (val c w T v t) k)) ∧
      fl c w T v t = Claim.join e.count (fun k => g m (elemBits e.width (v.gb t) k) (elemBits e.width (v.gc t) k))

/-- The choice of FMIN and FMAX between encodings already flushed (R172): a NaN loses, -0 lies below +0. -/
def Claim.minmax (isMax : Bool) (m : FMod) (b c r : Nat) : Prop :=
  let f := FTy.fmt m.fty
  let x := Claim.flushed m.fty b
  let y := Claim.flushed m.fty c
  let before (i j : Nat) : Bool := if isMax then FVal.ltZ (f.value j) (f.value i) else FVal.ltZ (f.value i) (f.value j)
  if (f.value x).isNan && (f.value y).isNan then r = f.nan
  else if (f.value x).isNan then r = y
  else if (f.value y).isNan then r = x
  else (r = x ∨ r = y) ∧ before x r = false ∧ before y r = false

/-- R172: FMIN and FMAX choose an operand; FABS clears and FNEG inverts the sign; a NaN operand of FABS or FNEG gives the
canonical NaN; FLUSH where R71 flushed an operand. -/
def Claim.FloatSelectionAndSignWords : Prop :=
  let both (m : FMod) (b c : Nat) : Flags := Claim.flushFlag m.fty b ||| Claim.flushFlag m.fty c
  let one (m : FMod) (b _ : Nat) : Flags := Claim.flushFlag m.fty b
  Claim.plainWord .fmin (fun o => [o.b, o.c]) (Claim.minmax false) both ∧
  Claim.plainWord .fmax (fun o => [o.b, o.c]) (Claim.minmax true) both ∧
  Claim.plainWord .fabs (fun o => [o.b]) (fun m b _ r =>
    let x := Claim.flushed m.fty b
    r = if ((FTy.fmt m.fty).value x).isNan then (FTy.fmt m.fty).nan else x % 2 ^ (m.fty.ety.width - 1)) one ∧
  Claim.plainWord .fneg (fun o => [o.b]) (fun m b _ r =>
    let x := Claim.flushed m.fty b
    r = if ((FTy.fmt m.fty).value x).isNan then (FTy.fmt m.fty).nan else x ^^^ 2 ^ (m.fty.ety.width - 1)) one

/-- The bit of Table 12.7 that an encoding's class sets. -/
def Claim.classBit (f : FFmt) (b : Nat) : Nat :=
  let neg := f.sign b
  match f.value b with
  | .nan => 8
  | .inf _ => if neg then 0 else 7
  | .fin _ m _ =>
    if m = 0 then (if neg then 3 else 4) else if f.subnormal b then (if neg then 2 else 5) else (if neg then 1 else 6)

/-- R172, R173: FCMP writes all ones where the condition holds of the flushed operands: between a NaN and anything only NE
and UN hold. FCLASS sets the one bit of Table 12.7 and no flag, its operand not flushed. -/
def Claim.FloatComparisonAndClassWords : Prop :=
  (∀ (x : Ctl) (m : FCMod) (o : Slots), ∃ val fl,
    Yields (.fcmp x m o) x o (tys m.fty.ety) [o.b, o.c] always val fl keepRnd ∧
    ∀ c w T v t,
      let e := m.fty.ety
      let X (k : Nat) : FVal := (FTy.fmt m.fty).value (Claim.flushed m.fty (elemBits e.width (v.gb t) k))
      let Y (k : Nat) : FVal := (FTy.fmt m.fty).value (Claim.flushed m.fty (elemBits e.width (v.gc t) k))
      let holds (k : Nat) : Bool :=
        if (X k).isNan || (Y k).isNan then decide (m.cond = .ne ∨ m.cond = .un)
        else
          let lt := FVal.lt (X k) (Y k)
          let gt := FVal.lt (Y k) (X k)
          match m.cond with
          | .eq => !lt && !gt
          | .ne => lt || gt
          | .lt => lt
          | .le => !gt
          | .gt => gt
          | .ge => !lt
          | .un => false
      (∀ k, k < e.count → elemBits e.width (val c w T v t) k = if holds k then 2 ^ e.width - 1 else 0) ∧
      fl c w T v t = Claim.join e.count (fun k =>
        Claim.flushFlag m.fty (elemBits e.width (v.gb t) k) ||| Claim.flushFlag m.fty (elemBits e.width (v.gc t) k))) ∧
  Claim.plainWord .fclass (fun o => [o.b]) (fun m b _ r => r = 2 ^ Claim.classBit (FTy.fmt m.fty) b) (fun _ _ _ => 0)

/-- R172, R173, Table 12.7: selection, sign, comparison and class words of floating-point encodings. -/
def Obligations.FloatWordsThatRoundNothing : Prop :=
  Claim.FloatSelectionAndSignWords ∧ Claim.FloatComparisonAndClassWords

/-! ## Special functions and conversions -/

/-- A function of one operand, correctly rounded in the word's mode (R175, R176). `f` gives the result for the
flushed operand's value and the draw. -/
def Claim.roundedFn (ctor : Ctl → FMod → Slots → Instr) (f : FMod → Nat → FVal → Nat × Flags) : Prop :=
  Claim.fltWord ctor (fun m => tys m.fty.ety) (fun o => [o.b]) (fun _ _ => true) (fun m r b _ _ =>
    let u := FTy.opnd m.fty b
    ((f m r u.1).1, (f m r u.1).2 ||| u.2))

/-- Tables 12.8 and 12.9: FRCP, FSQRT, FRSQ and FDIV give the rows of their special operands and otherwise round the exact
result once in the word's mode; `divMag`, `sqrtMag` and `rsqrtMag` bring it with what lies below it. -/
def Claim.ReciprocalRootAndQuotientWords : Prop :=
  let rnd (m : FMod) (r : Nat) (neg : Bool) (q : Nat × Int × Bool) : Nat × Flags :=
    (FTy.fmt m.fty).round (FTy.flushes m.fty) (.mode m.rm r) neg q.1 q.2.1 q.2.2
  Claim.roundedFn .frcp (fun m r v =>
    let f := FTy.fmt m.fty
    match v with
    | .nan => (f.nan, 0)
    | .inf n => (f.zero n, 0)
    | .fin n 0 _ => (f.inf n, fDivZero)
    | .fin n (k + 1) e => rnd m r n (divMag 1 0 (k + 1) e)) ∧
  Claim.roundedFn .fsqrt (fun m r v =>
    let f := FTy.fmt m.fty
    match v with
    | .nan => (f.nan, 0)
    | .inf false => (f.inf false, 0)
    | .inf true => (f.nan, fInvalid)
    | .fin n 0 _ => (f.zero n, 0)
    | .fin true (_ + 1) _ => (f.nan, fInvalid)
    | .fin false (k + 1) e => rnd m r false (sqrtMag (k + 1) e)) ∧
  Claim.roundedFn .frsq (fun m r v =>
    let f := FTy.fmt m.fty
    match v with
    | .nan => (f.nan, 0)
    | .inf false => (f.zero false, 0)
    | .inf true => (f.nan, fInvalid)
    | .fin n 0 _ => (f.inf n, fDivZero)
    | .fin true (_ + 1) _ => (f.nan, fInvalid)
    | .fin false (k + 1) e => rnd m r false (rsqrtMag (k + 1) e)) ∧
  Claim.fltWord .fdiv (fun m => tys m.fty.ety) (fun o => [o.b, o.c]) (fun _ _ => true) (fun m r b c _ =>
    let f := FTy.fmt m.fty
    let u := FTy.opnd m.fty b
    let v := FTy.opnd m.fty c
    let y : Nat × Flags :=
      match u.1, v.1 with
      | .nan, _ => (f.nan, 0)
      | _, .nan => (f.nan, 0)
      | .inf _, .inf _ => (f.nan, fInvalid)
      | .inf n, .fin k _ _ => (f.inf (n != k), 0)
      | .fin n _ _, .inf k => (f.zero (n != k), 0)
      | .fin _ 0 _, .fin _ 0 _ => (f.nan, fInvalid)
      | .fin n (_ + 1) _, .fin k 0 _ => (f.inf (n != k), fDivZero)
      | .fin n 0 _, .fin k (_ + 1) _ => (f.zero (n != k), 0)
      | .fin n (i + 1) e, .fin k (j + 1) g => rnd m r (n != k) (divMag (i + 1) e (j + 1) g)
    (y.1, y.2 ||| u.2 ||| v.2))

/-- A magnitude brought for rounding: `q` units of `2^g`, and whether the exact value lies above them, by less than one
unit; `below n h` says that the exact value is at least `n` units of `2^h`. -/
def Claim.brings (q : Nat × Int × Bool) (below : Nat → Int → Prop) (exactly : Nat → Int → Prop) : Prop :=
  below q.1 q.2.1 ∧ ¬ below (q.1 + 1) q.2.1 ∧ (q.2.2 = false ↔ exactly q.1 q.2.1)

/-- Comparison of products with powers of two: `a·2^s ≤ b·2^t`, written with natural exponents. -/
def Claim.dyLe (a : Nat) (s : Int) (b : Nat) (t : Int) : Prop :=
  a * 2 ^ (s - min s t).toNat ≤ b * 2 ^ (t - min s t).toNat
def Claim.dyEq (a : Nat) (s : Int) (b : Nat) (t : Int) : Prop := Claim.dyLe a s b t ∧ Claim.dyLe b t a s

/-- The magnitudes that FRCP, FDIV, FSQRT and FRSQ round are the exact quotient, root and reciprocal root cut off to a
whole number of units, with a mark that more lies below. -/
def Claim.QuotientsAndRootsAreBroughtExactly : Prop :=
  (∀ (m n : Nat) (e g : Int), m ≠ 0 → n ≠ 0 →
    Claim.brings (divMag m e n g) (fun q h => Claim.dyLe (q * n) (h + g) m e) (fun q h => Claim.dyEq (q * n) (h + g) m e)) ∧
  (∀ (m : Nat) (e : Int), m ≠ 0 →
    Claim.brings (sqrtMag m e) (fun q h => Claim.dyLe (q * q) (2 * h) m e) (fun q h => Claim.dyEq (q * q) (2 * h) m e)) ∧
  (∀ (m : Nat) (e : Int), m ≠ 0 →
    Claim.brings (rsqrtMag m e) (fun q h => Claim.dyLe (q * q * m) (2 * h + e) 1 0)
      (fun q h => Claim.dyEq (q * q * m) (2 * h + e) 1 0))

/-- A function of one operand whose results are not correctly rounded: `R` relates the flushed operand's value, the
encoding of the result and its flags, for each sub-element. -/
def Claim.faithfulFn (ctor : Ctl → FMod → Slots → Instr) (R : FFmt → FVal → Nat → Flags → Prop) : Prop :=
  ∀ (x : Ctl) (m : FMod) (o : Slots), ∃ val fl,
    Yields (ctor x m o) x o (tys m.fty.ety) [o.b] always val fl keepRnd ∧
    ∀ c w T v t,
      let e := m.fty.ety
      let u (k : Nat) : FVal × Flags := FTy.opnd m.fty (elemBits e.width (v.gb t) k)
      ∃ g : Nat → Flags,
        (∀ k, k < e.count → R (FTy.fmt m.fty) (u k).1 (elemBits e.width (val c w T v t) k) (g k)) ∧
        fl c w T v t = Claim.join e.count (fun k => g k ||| (u k).2)

/-- An encoding denotes an integer. -/
def Claim.denotes (f : FFmt) (r : Nat) (j : Int) : Prop :=
  ∃ s n e, f.value r = .fin s n e ∧ Claim.dyEq n e j.natAbs 0 ∧ (j ≠ 0 → s = decide (j < 0))
/-- An encoding denotes a power of two. -/
def Claim.denotesPow (f : FFmt) (r : Nat) (j : Int) : Prop := ∃ n e, f.value r = .fin false n e ∧ Claim.dyEq n e 1 j

/-- Table 12.9, R87, R175, R176: the special rows of FEXP2, FLOG2, FSIN, FCOS and FTANH, the exact results of FEXP2 at
integers and of FLOG2 at powers of two, and INEXACT everywhere else. Which of the allowed neighbours an inexact result is
is left free. -/
def Claim.FaithfulFunctionsKeepTheirSpecialRows : Prop :=
  Claim.faithfulFn .fexp2 (fun f v r g =>
    match v with
    | .nan => r = f.nan ∧ g = 0
    | .inf n => r = (if n then f.zero false else f.inf false) ∧ g = 0
    | .fin n k e =>
      (∀ j : Nat, Claim.dyEq k e j 0 →
        let b : Int := if n then -(j : Int) else j
        1 - (f.bias : Int) ≤ b → b ≤ f.bias → Claim.denotesPow f r b ∧ g = 0) ∧
      ((∀ j : Nat, ¬ Claim.dyEq k e j 0) → g &&& fInexact = fInexact)) ∧
  Claim.faithfulFn .flog2 (fun f v r g =>
    match v with
    | .nan => r = f.nan ∧ g = 0
    | .inf n => if n then r = f.nan ∧ g = fInvalid else r = f.inf false ∧ g = 0
    | .fin n k e =>
      if k = 0 then r = f.inf true ∧ g = 0
      else if n then r = f.nan ∧ g = fInvalid
      else if k = 2 ^ Nat.log2 k then Claim.denotes f r (e + Nat.log2 k) ∧ g = 0
      else g &&& fInexact = fInexact) ∧
  Claim.faithfulFn .fsin (fun f v r g =>
    match v with
    | .nan => r = f.nan ∧ g = 0
    | .inf _ => r = f.nan ∧ g = fInvalid
    | .fin n k e =>
      if k = 0 then r = f.zero n ∧ g = 0
      else if 20 ≤ (Nat.log2 k : Int) + e then r = f.nan ∧ g = fReduce
      else g &&& fInexact = fInexact) ∧
  Claim.faithfulFn .fcos (fun f v r g =>
    match v with
    | .nan => r = f.nan ∧ g = 0
    | .inf _ => r = f.nan ∧ g = fInvalid
    | .fin _ k e =>
      if k = 0 then Claim.denotes f r 1 ∧ g = 0
      else if 20 ≤ (Nat.log2 k : Int) + e then r = f.nan ∧ g = fReduce
      else g &&& fInexact = fInexact) ∧
  Claim.faithfulFn .ftanh (fun f v r g =>
    match v with
    | .nan => r = f.nan ∧ g = 0
    | .inf n => Claim.denotes f r (if n then -1 else 1) ∧ g = 0
    | .fin n k _ => if k = 0 then r = f.zero n ∧ g = 0 else g &&& fInexact = fInexact)

/-- R87, R175, R176, Tables 12.8 and 12.9: the special functions: which are correctly rounded, what they round, and the special
rows of the others. -/
def Obligations.SpecialFunctionWords : Prop :=
  Claim.ReciprocalRootAndQuotientWords ∧ Claim.QuotientsAndRootsAreBroughtExactly ∧ Claim.FaithfulFunctionsKeepTheirSpecialRows

/-- R178, R179: CVT converts the sub-elements of the narrower side of the register group `part`, keeps the rest of a wider
destination, and draws once per result where the conversion rounds (R67). -/
def Obligations.ConversionFillsItsPart : Prop :=
  ∀ (x : Ctl) (m : CvtMod) (o : Slots), ∃ val fl rn,
    let ns := m.sty.count
    let nd := m.dty.count
    Yields (.cvt x m o) x o { b := ETy.otyCvt m.sty } (if ns < nd then [o.a, o.b] else [o.b]) always val fl rn ∧
    ∀ c w T v t,
      let d (_ : Nat) : Bool := !cvtExact m.sty m.dty
      let src (k : Nat) : Nat := elemBits m.sty.width (v.gb t) (if nd < ns then m.part.val * nd + k else k)
      let r (k : Nat) : Nat × Flags :=
        cvtElem m.sty m.dty m.rm m.sat (Claim.draw m.rm d (w.rndOf t) k) (src k)
      (∀ j, j < nd → elemBits m.dty.width (val c w T v t) j =
        if ns < nd then
          (if m.part.val * ns ≤ j ∧ j < m.part.val * ns + ns then (r (j - m.part.val * ns)).1 % 2 ^ m.dty.width
          else elemBits m.dty.width (v.ga t) j)
        else (r j).1 % 2 ^ m.dty.width) ∧
      fl c w T v t = Claim.join (min ns nd) (fun k => (r k).2) ∧
      rn c w T v t =
        (if m.rm = .rs ∧ !cvtExact m.sty m.dty then rndSteps (min ns nd) (w.rndOf t) else w.rndOf t)

/-- R180, R181: PACK takes the even or odd, UNPACK interleaves the low or high sub-elements of B and C, SWZ picks
sub-elements of B by the 4-bit fields of C, zero past the count. -/
def Claim.RearrangementWords : Prop :=
  (∀ (x : Ctl) (m : IMod) (o : Slots), ∃ val,
    Yields (.pack x m o) x o (tys m.ty) [o.b, o.c] always val Claim.noFlags keepRnd ∧
    ∀ c w T v t k, k < m.ty.count →
      let n := m.ty.count
      let y (i : Nat) : Nat := if i < n then elemBits m.ty.width (v.gb t) i else elemBits m.ty.width (v.gc t) (i - n)
      elemBits m.ty.width (val c w T v t) k = y (2 * k + if m.var then 1 else 0)) ∧
  (∀ (x : Ctl) (m : IMod) (o : Slots), ∃ val,
    Yields (.unpack x m o) x o (tys m.ty) [o.b, o.c] always val Claim.noFlags keepRnd ∧
    ∀ c w T v t k, k < m.ty.count → 2 ≤ m.ty.count →
      let h := if m.var then m.ty.count / 2 else 0
      elemBits m.ty.width (val c w T v t) k =
        if k % 2 = 0 then elemBits m.ty.width (v.gb t) (h + k / 2) else elemBits m.ty.width (v.gc t) (h + k / 2)) ∧
  (∀ (x : Ctl) (m : IMod) (o : Slots), ∃ val,
    Yields (.swz x m o) x o (tysB m.ty) [o.b, o.c] always val Claim.noFlags keepRnd ∧
    ∀ c w T v t k, k < m.ty.count →
      let i := elemBits 4 (v.gc t) k
      elemBits m.ty.width (val c w T v t) k = if i < m.ty.count then elemBits m.ty.width (v.gb t) i else 0)

/-! ## Cross-thread and predicate words -/

/-- Every active thread belongs to the mask it reads (R182). -/
def Claim.members (msk : Opnds → Nat → Mask) (_ : WCtx) (_ : Warp) (T : Mask) (v : Opnds) : Prop :=
  ∀ t, T.has t = true → (msk v t).has t = true

/-- The thread a shuffle reads (R183): outside the mask or the warp it is the thread itself. -/
def Claim.shuffleFrom (mode : ShMode) (t i : Nat) (mem : Mask) : Nat :=
  let u : Int := match mode with
    | .at => i
    | .below => t - i
    | .above => t + i
    | .flip => (t ^^^ i : Nat)
  if 0 ≤ u ∧ u ≤ 31 ∧ mem.has u.toNat = true then u.toNat else t

/-- The threads whose B a thread reads: `Claim.reads` has this shape. -/
abbrev Claim.Reads := Warp → Opnds → Nat → Nat → Bool

/-- What a masked cross-thread word does, given its mask, the threads whose B each thread reads, its results and its flags:
`Claim.whole` where every active thread belongs to the mask it reads and no register it reads is damaged, `Claim.partly` where
some do not belong, `Claim.spoilt` where some read a damaged register of another thread. -/
abbrev Claim.Shape := Instr → Ctl → Slots → OTys → List Spec → (Opnds → Nat → Mask) → Claim.Reads →
  (WCtx → Warp → Mask → Opnds → Nat → Word) → (WCtx → Warp → Mask → Opnds → Nat → Flags) → Prop

/-- The threads of T that read a damaged register B of a thread (R304). -/
def Claim.consumers (reads : Claim.Reads) (b : Spec) (w : Warp) (T : Mask) (v : Opnds) : Mask :=
  Mask.ofPred (fun t => T.has t && (List.range 32).any (fun u => reads w v t u && damagedBy w b u))

/-- The word ends with its results and flags. -/
def Claim.whole : Claim.Shape := fun i x o ty srcs msk reads val fl =>
  Yields i x o ty srcs (fun c w T v => Claim.members msk c w T v ∧ Claim.consumers reads o.b w T v = 0) val fl keepRnd

/-- The word's threads outside `out` complete: their destination and their flags are those of the word for these threads alone.
A destination per warp is written where the lowest active thread is among them (R135). The split then takes a trap of the
cause for the others. -/
def Claim.completes (i : Instr) (x : Ctl) (o : Slots) (ty : OTys) (srcs : List Spec)
    (val : WCtx → Warp → Mask → Opnds → Nat → Word) (fl : WCtx → Warp → Mask → Opnds → Nat → Flags) (cause : Nat)
    (out : Warp → Mask → Opnds → Mask) (pre : WCtx → Warp → Mask → Opnds → Prop) (addr : Word → Prop) : Prop :=
  ∀ (s : State) (c : WCtx) (w : Warp) (p : Split) (ports : List (Port × Word)) (pv : Pops),
    Ready s c w p x o srcs ports pv →
    let T := activeMask w p x
    let v := readOps c w ty o pv
    let M := T &&& ~~~ out w T v
    let written : Prop := isWarpDst o.a = true → T.lowest = M.lowest
    pre c w T v → out w T v ≠ 0 → (written → dstOk c w M o.a (val c w M v)) →
    ∃ (w' : Warp) (a : Word),
      exec i s = .next ((s.putWarp c.key w').takeTrap c.key p.id { cause := cause, mask := out w T v, addr := a }) ∧
      w'.ports = ports ∧ addr a ∧
      (written → RegEffect w w' o.a M (val c w M v) (fl c w M v) w.rndOf) ∧
      (¬ written → Kept w w' [] M ∧ ∀ t, w'.rndOf t = w.rndOf t ∧
        w'.statusOf t = if M.has t then w.statusOf t ||| fl c w M v t else w.statusOf t)

/-- Some active threads do not belong to the mask they read: they take the MEMBER trap (cause 0x06), whose data address is a
free value. -/
def Claim.partly : Claim.Shape := fun i x o ty srcs msk reads val fl =>
  let out (_ : Warp) (T : Mask) (v : Opnds) : Mask := Mask.ofPred (fun t => T.has t && !(msk v t).has t)
  Claim.completes i x o ty srcs val fl 0x06 out
    (fun _ w T v => Claim.consumers reads o.b w (T &&& ~~~ out w T v) v = 0) (fun _ => True)

/-- Every active thread belongs to the mask it reads and some read a damaged register B: these take the UCE trap (cause 0x0F),
with address 0. -/
def Claim.spoilt : Claim.Shape := fun i x o ty srcs msk reads val fl =>
  Claim.completes i x o ty srcs val fl 0x0F (Claim.consumers reads o.b) (Claim.members msk) (fun a => a = 0)

/-- R182-R184: SHFL and BCAST read sub-elements of B as another member thread holds it; a value of an exited thread is 0 with
ABSENT. -/
def Claim.shuffles (K : Claim.Shape) : Prop :=
  (∀ (x : Ctl) (m : ShMod) (o : Slots), ∃ val fl,
    K (.shfl x m o) x o (tysB m.ty) [o.c, o.d] maskD (fun w v t i =>
      i = Claim.shuffleFrom m.mode t ((v.gc t).toNat % 32) (maskD v t) && !w.exited.has i) val fl ∧
    ∀ c w T v t,
      let n := m.ty.count
      let u := Claim.shuffleFrom m.mode t ((v.gc t).toNat % 32) (maskD v t)
      let j := (v.gc t).toNat / 2 ^ 8 % 16
      (∀ k, k < n → elemBits m.ty.width (val c w T v t) k =
        if w.exited.has u then 0 else elemBits m.ty.width (v.gb u) ((k + j) % n)) ∧
      fl c w T v t = flagIf (w.exited.has u) fAbsent) ∧
  (∀ (x : Ctl) (m : IMod) (o : Slots), ∃ val fl,
    K (.bcast x m o) x o (tysB m.ty) [o.c, o.d] maskD (fun w v t i =>
      (i = if (maskD v t).has ((v.gc t).toNat % 32) then (v.gc t).toNat % 32 else t) && !w.exited.has i) val fl ∧
    ∀ c w T v t,
      let n := m.ty.count
      let i := (v.gc t).toNat % 32
      let u := if (maskD v t).has i then i else t
      let j := (v.gc t).toNat / 2 ^ 8 % 16
      (∀ k, k < n → elemBits m.ty.width (val c w T v t) k =
        if w.exited.has u then 0 else elemBits m.ty.width (v.gb u) (j % n)) ∧
      fl c w T v t = flagIf (w.exited.has u) fAbsent)

/-- R182-R184, R187: SHFL and BCAST where every active thread is a member, WSET and FIRST. -/
def Claim.ShuffleAndBroadcastWords : Prop :=
  Claim.shuffles Claim.whole ∧
  (∀ (x : Ctl) (o : Slots), Yields (.wset x o) x o {} [o.c]
    (fun _ w T v => Claim.consumers (fun w v t i => i = (v.gc t).toNat % 32 && !w.exited.has i) o.b w T v = 0)
    (fun _ w _ v t => let u := (v.gc t).toNat % 32; if w.exited.has u then 0 else v.gb u)
    (fun _ w _ v t => flagIf (w.exited.has ((v.gc t).toNat % 32)) fAbsent) keepRnd) ∧
  (∀ (x : Ctl) (o : Slots), ∃ val,
    Yields (.first x o) x o {} [] (fun _ w T _ => ∀ t, T.has t = true → damagedBy w o.b t = false) val Claim.noFlags keepRnd ∧
    ∀ c w T v t,
      (∀ u, T.has u = true → v.gb u ≠ 0 → (∀ i, i < u → T.has i = true → v.gb i = 0) →
        val c w T v t = BitVec.ofNat 64 u) ∧
      ((∀ u, T.has u = true → v.gb u = 0) → val c w T v t = 32))

/-- R180-R184, R187: PACK, UNPACK and SWZ move sub-elements within a thread; SHFL, BCAST, WSET and FIRST between threads. -/
def Obligations.ElementMovingWords : Prop :=
  Claim.RearrangementWords ∧ Claim.ShuffleAndBroadcastWords

/-- The live members that a thread's result covers, in ascending order (R182, R185). -/
def Claim.cover (w : Warp) (mem : Mask) (upTo : Option Nat) : List Nat :=
  (List.range 32).filter (fun u => mem.has u && !w.exited.has u &&
    (match upTo with | none => true | some t => decide (u ≤ t)))
/-- The exited ones. -/
def Claim.absent (w : Warp) (mem : Mask) (upTo : Option Nat) : Bool :=
  (List.range 32).any (fun u => mem.has u && w.exited.has u &&
    (match upTo with | none => true | some t => decide (u ≤ t)))

/-- A reduction or scan of form Y. -/
def Claim.reduction (K : Claim.Shape) (ctor : Ctl → YMod → Slots → Instr) (upTo : Nat → Option Nat) : Prop :=
  ∀ (x : Ctl) (m : YMod) (o : Slots), ∃ val fl,
    K (ctor x m o) x o (tysB m.rty.ety) [o.c] maskC (fun w v t u => (Claim.cover w (maskC v t) (upTo t)).contains u) val fl ∧
    ∀ c w T v t,
      let e := m.rty.ety
      let xs (k : Nat) : List Nat := (Claim.cover w (maskC v t) (upTo t)).map (fun u => elemBits e.width (v.gb u) k)
      (∀ k, k < e.count → elemBits e.width (val c w T v t) k = (reduceElem m (xs k)).1 % 2 ^ e.width) ∧
      (e.isInt = true → m.op = .add →
        ∀ k, k < e.count → elemBits e.width (val c w T v t) k = (xs k).sum % 2 ^ e.width) ∧
      fl c w T v t = Claim.join e.count (fun k => (reduceElem m (xs k)).2) |||
        flagIf (Claim.absent w (maskC v t) (upTo t)) fAbsent

/-- R185, R186: WRED reduces over the live members, WSCAN over those up to the thread itself; integer sums wrap. VOTE and
MATCH answer for the live members; each sets ABSENT for an exited member its result covers. -/
def Claim.ReductionAndVoteWords (K : Claim.Shape) : Prop :=
  Claim.reduction K .wred (fun _ => none) ∧ Claim.reduction K .wscan some ∧
  (∀ (x : Ctl) (m : VOp) (o : Slots), ∃ val,
    K (.vote x m o) x o {} [o.c] maskC (fun w v t u => (Claim.cover w (maskC v t) none).contains u) val
      (fun _ w _ v t => flagIf (Claim.absent w (maskC v t) none) fAbsent) ∧
    ∀ c w T v t,
      let live := Claim.cover w (maskC v t) none
      let yes := live.filter (fun u => decide (v.gb u ≠ 0))
      val c w T v t = match m with
        | .and => if live.all (fun u => decide (v.gb u ≠ 0)) then 1 else 0
        | .or => if live.any (fun u => decide (v.gb u ≠ 0)) then 1 else 0
        | .eq => if live.all (fun u => decide (v.gb u ≠ 0)) || live.all (fun u => decide (v.gb u = 0)) then 1 else 0
        | .bits => BitVec.ofNat 64 (yes.map (fun u => 2 ^ u)).sum
        | .cnt => BitVec.ofNat 64 yes.length
        | .lead => BitVec.ofNat 64 (yes.head?.getD 32)) ∧
  (∀ (x : Ctl) (o : Slots), ∃ val,
    K (.matchW x o) x o {} [o.c] maskC (fun w v t u => (Claim.cover w (maskC v t) none).contains u) val
      (fun _ w _ v t => flagIf (Claim.absent w (maskC v t) none) fAbsent) ∧
    ∀ c w T v t, ∀ u, u < 64 → (val c w T v t).getLsbD u =
      (decide (u < 32) && (maskC v t).has u && !w.exited.has u && decide (v.gb u = v.gb t)))

/-- R188: PSET takes bit `$tid` of B, PLOP combines two predicates, PMOV gathers `p7` to `p0` into a register and
PMOV.scatter writes `p0` to `p6` and nothing else. -/
def Claim.PredicateWords : Prop :=
  (∀ (x : Ctl) (o : Slots), Yields (.pset x o) x o {} [o.b] always
    (fun _ _ _ v t => if (v.gb t).getLsbD t then 1 else 0) Claim.noFlags keepRnd) ∧
  (∀ (x : Ctl) (m : PLogic) (inv : Bool) (o : Slots), Yields (.plop x m inv o) x o {} [o.b, o.c] always
    (fun _ _ _ v t =>
      let b := (v.gb t).getLsbD 0
      let d := (v.gc t).getLsbD 0
      let r := match m with
        | .and => b && d
        | .or => b || d
        | .xor => b ^^ d
        | .andn => b && !d
      if r ^^ inv then 1 else 0) Claim.noFlags keepRnd) ∧
  (∀ (x : Ctl) (o : Slots), ∃ val, Yields (.pmov x o) x o {} allPreds always val Claim.noFlags keepRnd ∧
    ∀ c w T v t i, (val c w T v t).getLsbD i = (decide (i < 8) && w.pGet i t)) ∧
  (∀ (s : State) (c : WCtx) (w : Warp) (p : Split) (x : Ctl) (o : Slots) (ports : List (Port × Word)) (pv : Pops),
    Ready s c w p x o [o.b] ports pv →
    ∃ w' : Warp, exec (.pmovScatter x o) s = .next ((s.putWarp c.key w').seqAct c.key p.id x.seq) ∧ w'.ports = ports ∧
      (∀ (i : Fin 7) t, (activeMask w p x).has t = true →
        w'.pGet i t = ((readOps c w {} o pv).gb t).getLsbD i) ∧
      Kept w w' ((List.finRange 7).map (fun i => .p (i.castSucc))) (activeMask w p x) ∧
      (∀ t, w'.statusOf t = w.statusOf t) ∧ (∀ t, w'.rndOf t = w.rndOf t))

/-- R185, R186, R188: reductions, scans, votes and matches over the mask; predicate words. -/
def Obligations.WarpAndPredicateWords : Prop :=
  Claim.ReductionAndVoteWords Claim.whole ∧ Claim.PredicateWords

/-- R135, R182-R186, R298, R304, R382: where an active thread does not belong to the mask it reads, the word's other threads
complete with the results and flags that SHFL, BCAST, WRED, WSCAN, VOTE and MATCH give these threads alone, and the split takes
the MEMBER trap (cause 0x06) for those that do not belong. So it is with the UCE trap (cause 0x0F) for the threads that read a
damaged register of a member, active or not. -/
def Obligations.ForeignThreadsRaiseMember : Prop :=
  Claim.shuffles Claim.partly ∧ Claim.ReductionAndVoteWords Claim.partly ∧
  Claim.shuffles Claim.spoilt ∧ Claim.ReductionAndVoteWords Claim.spoilt

/-! ## Words that access memory -/

/-- The accesses of a word's threads in order, each of which answers: the value it has for the destination, if any, and its
flags. -/
def Claim.performed (f : Access) (k : Nat) (pd : Pend) (val : Nat → Option Word) (fl : Nat → Flags) :
    State → List Nat → State → Prop
  | s, [], s' => s' = s
  | s, t :: ts, s' => ∃ s1, f s k pd t = (s1, .ok (val t, fl t)) ∧ Claim.performed f k pd val fl s1 ts s'

/-- A memory word whose every access answers ends: its destination holds what the accesses gave, `$status` gains their
flags, and the sequencing act follows. `src` is the thread whose access serves a thread: itself, or the lowest active one
where the word makes one access for the warp. -/
def Claim.memoryWord (pre : State → WCtx → Warp → Mask → Opnds → Prop) (i : Instr) (x : Ctl) (o : Slots) (ty : OTys)
    (srcs : List Spec) (pl : Plan) : Prop :=
  ∀ (s s1 : State) (c : WCtx) (w w1 : Warp) (p : Split) (ports : List (Port × Word)) (pv : Pops)
    (val : Nat → Option Word) (fl : Nat → Flags),
    Ready s c w p x o srcs ports pv →
    let T := activeMask w p x
    let v := readOps c w ty o pv
    pre s c w T v →
    Claim.performed pl.access c.key { i := i, T := T, todo := T, ops := v } val fl
      (s.putWarp c.key { w with ports := ports }) (if pl.single then T.threads.take 1 else T.threads) s1 →
    s1.warpAt c.key = some w1 → (w1.splitAt p.id).isSome = true →
    let src (t : Nat) : Nat := if pl.single then T.lowest.getD 0 else t
    let done := Mask.ofPred (fun t => T.has t && (val (src t)).isSome)
    let out (t : Nat) : Word := (val (src t)).getD 0
    (∀ t, done.lowest = some t → dstTrap c w1 done pl.dst (out t) = none) →
    ∃ w' : Warp, exec i s = .next ((s1.putWarp c.key w').seqAct c.key p.id x.seq) ∧ w'.ports = w1.ports ∧
      ((isWarpDst pl.dst = true → done.lowest = T.lowest) → Holds w' pl.dst done out) ∧ Kept w1 w' [pl.dst] done ∧
      (∀ t, pl.dst ≠ .special .status ∨ T.has t = false →
        w'.statusOf t = if T.has t then w1.statusOf t ||| fl (src t) else w1.statusOf t) ∧
      (∀ t, pl.dst ≠ .special .rnd ∨ T.has t = false → w'.rndOf t = w1.rndOf t)

/-- No condition on the state. -/
def Claim.free (_ : State) (_ : WCtx) (_ : Warp) (_ : Mask) (_ : Opnds) : Prop := True

/-- R192-R194, R197-R199, R202, R207, R210, R213, R221: the memory words make their accesses in ascending order of their
threads, and end once every access has answered. CHK does so where its entry does not match, XST where its receiver is
not saved. -/
def Obligations.MemoryWordsEndOnceEveryAccessAnswers : Prop :=
  (∀ x m o, Claim.memoryWord Claim.free (.ld x m o) x o {} [o.b] (planLd x m o)) ∧
  (∀ x m o, Claim.memoryWord Claim.free (.st x m o) x o {} [o.b, o.c] (planSt x m)) ∧
  (∀ x m o, Claim.memoryWord Claim.free (.ldu x m o) x o {} [o.b] (planLdu x m o)) ∧
  (∀ x m o, Claim.memoryWord Claim.free (.stu x m o) x o {} [o.b, o.c] (planStu x m)) ∧
  (∀ x m o, Claim.memoryWord Claim.free (.ldm x m o) x o {} [o.b] (planLdm x m o)) ∧
  (∀ x m o, Claim.memoryWord (fun _ _ w T v => ∀ h, w.hoistAt m.idx.val = some h → h.fits m o.a T v = false)
    (.chk x m o) x o {} [o.b] (planChk x m o)) ∧
  (∀ x o, Claim.memoryWord Claim.free (.locq x o) x o {} [o.b] (planLocq o)) ∧
  (∀ x op off o, Claim.memoryWord Claim.free (.cflush x op off o) x o {} [o.b] (planCflush x.hint op off)) ∧
  (∀ x m o, Claim.memoryWord Claim.free (.atom x m o) x o { c := ATy.oty m.aty } [o.b, o.c] (planAtom x m o)) ∧
  (∀ x m o, Claim.memoryWord Claim.free (.atomc x m o) x o {} [o.b, o.c, o.d] (planAtom x m o)) ∧
  (∀ x m o, Claim.memoryWord Claim.free (.red x m o) x o { c := ATy.oty m.aty } [o.b, o.c] (planRed x m)) ∧
  (∀ x m o, Claim.memoryWord (fun s c _ T _ => s.xstWaits c.key m T = false) (.xst x m o) x o {} [o.b, o.c] (planXst m)) ∧
  (∀ x op o, Claim.memoryWord Claim.free (.arrv x op o) x o {} [o.b, o.c] (planArrv op o))

/-- A loaded value: its bytes in order, and above them zeros, or copies of the sign of a signed type (R192). -/
def Claim.loaded (m : MTy) (v : Word) (f : Nat → Byte) : Prop :=
  (∀ i, i < m.bytes → v.extractLsb' (8 * i) 8 = f i) ∧
  (∀ j, 8 * m.bytes ≤ j → j < 64 → v.getLsbD j = (m.signed && v.getLsbD (8 * m.bytes - 1)))

/-- R88, R192, R194: a scratchpad load reads the bytes at base plus offset of the block's live bank, a scratchpad store
changes exactly those, and an access outside the bank raises SCRATCH (cause 0x08) with the offset as its address. -/
def Obligations.ScratchpadLoadsAndStores : Prop :=
  ∀ (s : State) (k t : Nat) (w : Warp) (b : Block) (m : MMod) (pd : Pend) (tx : Bool) (h : Hint),
    s.warpAt k = some w → s.blockAt w.blk = some b → m.sp = .s →
    let off : Int := (pd.ops.gb t).toNat + m.off.toInt
    let lo := off.toNat
    let n := m.mt.bytes
    (0 ≤ off ∧ off + n ≤ s.bankBytes b →
      ((∀ a, lo ≤ a → a < lo + n → (w.blk, a) ∉ s.badS) →
        ∃ v, ldAccess m tx h s k pd t = (s, .ok (some v, 0)) ∧
          Claim.loaded m.mt v (fun i => Sparse.get 0 b.live (lo + i))) ∧
      ((∃ a, lo ≤ a ∧ a < lo + n ∧ (w.blk, a) ∈ s.badS) →
        ldAccess m tx h s k pd t = (s, .error (.uce (BitVec.ofInt 64 off)))) ∧
      (∃ live bad, stAccess m h s k pd t = ({ s.putBlock w.blk { b with live := live } with badS := bad }, .ok (none, 0)) ∧
        (∀ a, Sparse.get 0 live a =
          if lo ≤ a ∧ a < lo + n then (pd.ops.gc t).extractLsb' (8 * (a - lo)) 8 else Sparse.get 0 b.live a) ∧
        (∀ e, e ∈ bad ↔ e ∈ s.badS ∧ ¬ (e.1 = w.blk ∧ lo ≤ e.2 ∧ e.2 < lo + n)))) ∧
    (¬ (0 ≤ off ∧ off + n ≤ s.bankBytes b) →
      ldAccess m tx h s k pd t = (s, .error (.trap 0x08 (BitVec.ofInt 64 off))) ∧
      stAccess m h s k pd t = (s, .error (.trap 0x08 (BitVec.ofInt 64 off))))

/-- An access of thread `t` to `n` bytes goes to virtual address `va`: in global memory with no open transaction in the
way, or in the warp's stack region (R88, R191, R200). -/
def Claim.goesTo (s : State) (k t n : Nat) (w : Warp) (m : MMod) (base : Word) (inTxn : Bool) (va : Word) : Prop :=
  (m.sp = .g ∧ va = base + m.off.signExtend 64 ∧ (inTxn = true → w.openTxn t = none)) ∨
  (m.sp = .k ∧ va = w.sp + base + m.off.signExtend 64 ∧ s.inStack k va n = true)

/-- R105, R107, R108, R191, R345: a plain load reads, for each byte, the core's own dirty byte, else the clean byte its L1
holds, else what a miss fills: the dome's replica, whose dirty bytes come first wherever their line is homed, or home. Home is
memory itself for the module's own bytes, and for a byte of the host what its proxy slice holds, else the clean byte a slice
keeps, else the host's memory. A load changes nothing at home and no dirty byte; the bytes of a load within one line are those
its core sees before it, and under the bypass hint it leaves the core's clean bytes as they were. -/
def Obligations.LoadsSeeOwnStoresThenCachesThenHome : Prop :=
  (∀ (s : State) (core key : Nat) (alloc : Bool),
    (∀ b, Sparse.get none (s.coreAt core).dirty key = some b → s.loadByte core key alloc = (s, b)) ∧
    (Sparse.get none (s.coreAt core).dirty key = none →
      (∀ b, (Sparse.get [] (s.coreAt core).clean (key / 64)).getD (key % 64) none = some b →
        s.loadByte core key alloc = (s, b)) ∧
      ((Sparse.get [] (s.coreAt core).clean (key / 64)).getD (key % 64) none = none →
        (s.loadByte core key alloc).2 = s.fillByte (domeOf core) key ∧
        (∀ b, Sparse.get none (s.domeAt (domeOf core)).dirty key = some b → (s.loadByte core key alloc).2 = b) ∧
        (Sparse.get none (s.domeAt (domeOf core)).dirty key = none → s.replicated (domeOf core) key = false →
          (key < 2 ^ 42 → (s.loadByte core key alloc).2 = readMem s.mem key) ∧
          (2 ^ 42 ≤ key → key < 2 ^ 50 → (s.loadByte core key alloc).2 =
            ((Sparse.get none s.proxy key).getD (((Sparse.get [] s.hostClean (key / 64)).getD (key % 64) none).getD
              (readMem s.mem key)))))))) ∧
  (∀ (s s1 : State) (k t : Nat) (w : Warp) (m : MMod) (pd : Pend) (tx : Bool) (h : Hint) (va : Word) (keys : List Nat),
    s.warpAt k = some w → Claim.goesTo s k t m.mt.bytes w m (pd.ops.gb t) tx va →
    s.translateRun (keyCore k) .read va m.mt.bytes = (s1, .ok keys) → (∀ key ∈ keys, peerKey key = false) →
    s1.readErr (keyCore k) va keys true = none →
    ∃ (s' : State) (v : Word) (bs : List Byte), ldAccess m tx h s k pd t = (s', .ok (some v, 0)) ∧ Claim.loaded m.mt v (fun i => bs.getD i 0) ∧
      s'.mem = s1.mem ∧ (∀ core, (s'.coreAt core).dirty = (s1.coreAt core).dirty) ∧
      (∀ core, core ≠ keyCore k → s'.coreAt core = s1.coreAt core) ∧
      (h = .bypass → (s'.coreAt (keyCore k)).clean = (s1.coreAt (keyCore k)).clean) ∧
      (∀ i b, i < m.mt.bytes → Sparse.get none (s1.coreAt (keyCore k)).dirty (keys.getD i 0) = some b → bs.getD i 0 = b) ∧
      ((∀ key ∈ keys, key / 64 = keys.headD 0 / 64) →
        ∀ i, i < m.mt.bytes → bs.getD i 0 = (s1.loadByte (keyCore k) (keys.getD i 0) true).2))

/-- R107, R193, Table 8.4: a plain store leaves its bytes dirty in the storing core: home, the replicas and every other core
keep what they held. Under the last-use hint the core's clean bytes of its lines go, and otherwise all of them stay. -/
def Obligations.StoresStayInTheirCoreUntilPublished : Prop :=
  ∀ (s s1 : State) (k t : Nat) (w : Warp) (m : MMod) (h : Hint) (pd : Pend) (va : Word) (keys : List Nat),
    s.warpAt k = some w → Claim.goesTo s k t m.mt.bytes w m (pd.ops.gb t) true va →
    s.translateRun (keyCore k) .write va m.mt.bytes = (s1, .ok keys) →
    ∃ s', stAccess m h s k pd t = (s', .ok (none, 0)) ∧ s'.mem = s1.mem ∧ s'.domes = s1.domes ∧
      (∀ core, core ≠ keyCore k → s'.coreAt core = s1.coreAt core) ∧
      (∀ line, Sparse.get [] (s'.coreAt (keyCore k)).clean line =
        if h = .lastuse ∧ line ∈ keys.map (· / 64) then [] else Sparse.get [] (s1.coreAt (keyCore k)).clean line) ∧
      (∀ key, key ∉ keys →
        Sparse.get none (s'.coreAt (keyCore k)).dirty key = Sparse.get none (s1.coreAt (keyCore k)).dirty key) ∧
      (∀ i, i < m.mt.bytes → (∀ j, i < j → j < m.mt.bytes → keys.getD j 0 ≠ keys.getD i 0) →
        Sparse.get none (s'.coreAt (keyCore k)).dirty (keys.getD i 0) = some ((pd.ops.gc t).extractLsb' (8 * i) 8))

/-- R88, R191, R194: an access in the stack space outside the warp's region raises STACK (cause 0x05), and a global access
to a noncanonical address NONCANONICAL (cause 0x07), each with the address; nothing changes. -/
def Claim.AccessesOutsideTheirSpaceTrap : Prop :=
  ∀ (s : State) (k t : Nat) (w : Warp) (m : MMod) (pd : Pend) (tx : Bool) (h : Hint),
    s.warpAt k = some w →
    (m.sp = .k → let va := w.sp + pd.ops.gb t + m.off.signExtend 64
      s.inStack k va m.mt.bytes = false →
      ldAccess m tx h s k pd t = (s, .error (.trap 0x05 va)) ∧ stAccess m h s k pd t = (s, .error (.trap 0x05 va))) ∧
    (m.sp = .g → let va := pd.ops.gb t + m.off.signExtend 64
      canonical va = false → w.openTxn t = none →
      ldAccess m tx h s k pd t = (s, .error (.trap 0x07 va)) ∧ stAccess m h s k pd t = (s, .error (.trap 0x07 va)))

/-- R95, R96, R306: a translation that the TLB holds permits reads, permits writes and fetches where the leaf does, gives
the leaf, sets its `d` bit at home with the first write, and otherwise raises PROTECTION (0x21) and changes nothing. With
no page table every other address is NOTMAPPED (0x20). -/
def Claim.TranslationChecksPermissions : Prop :=
  ∀ (s : State) (core : Nat) (acc : Acc) (va : Word),
    (canonical va = false → s.translate core acc va = (s, .error (.trap 0x07 va))) ∧
    (canonical va = true →
      (∀ x, tlbFind (s.coreAt core).tlb va = some x →
        let allowed : Bool := match acc with
          | .read => true
          | .write => x.entry.getLsbD 1
          | .fetch => x.entry.getLsbD 2
        (allowed = true → (s.translate core acc va).2 = .ok (x.entry, x.bits)) ∧
        (allowed = true → s.waits = [] → s.reds = [] → x.addr + 8 ≤ 2 ^ 42 → acc = .write → x.wrote = false →
          (∀ a, ¬ (x.addr ≤ a ∧ a < x.addr + 8) → readMem (s.translate core acc va).1.mem a = readMem s.mem a) ∧
          (s.translate core acc va).1.homeWord x.addr = s.homeWord x.addr ||| 0x80) ∧
        (allowed = true → acc = .write → x.wrote = true → (s.translate core acc va).1.mem = s.mem) ∧
        (allowed = true → acc ≠ .write → (s.translate core acc va).1.mem = s.mem) ∧
        (allowed = false → s.translate core acc va = (s, .error (.page 0x21 va false)))) ∧
      (tlbFind (s.coreAt core).tlb va = none → s.ctl.ptroot = 0 →
        s.translate core acc va = (s, .error (.page 0x20 va false))))

/-- A leaf entry found at a level that accepts leaves of size code `lv` meets none of R95's conditions. -/
def Claim.leafLegal (s : State) (lv : Nat) (e : Word) : Prop :=
  let fr := leafFrame e
  let apt := fr / 2 ^ 42 % 1024
  let il := fr / 2 ^ 41 % 2
  let chunks := 2 ^ pageBits (leafSize e) / 4096
  e.getLsbD 3 = false ∧ e.extractLsb' 8 8 = 0 ∧ e.extractLsb' 52 4 = 0 ∧ leafSize e < 3 ∧ leafPlace e < 3 ∧ leafVkind e < 3 ∧
  leafSize e = lv ∧ fr % 2 ^ pageBits (leafSize e) = 0 ∧
  (apt = 0 → il = 0 → s.vaultOn (fr / 2 ^ 33 % 256) = true ∧ fr % 2 ^ 33 + 65536 ≤ 6 * 2 ^ 30) ∧
  (leafPlace e < 2 → apt = 0 → il = 0) ∧
  (leafPlace e = 2 → apt = 0 ∧ il = 1 ∧ fr % 2 ^ 41 / 4096 + chunks ≤ s.vaults.length * s.ctl.ilsize.toNat / 4096) ∧
  (apt ≠ 0 → leafPlace e = 0 ∧ s.aptOk apt = true) ∧ (leafPlace e = 1 → leafSize e = 0) ∧
  (leafVkind e ≠ 0 → leafSize e = 0 ∧ leafPlace e = 0 ∧ apt = 0 ∧ e.getLsbD 1 = false)

/-- What a walk for an address finds from the table `t` of level `lv` on (0 to 3 for A to D of Table 20.5), read at home: a
leaf, its address and its page's bits, or a cause. `n` counts the levels left. -/
def Claim.walks (s : State) (va : Word) : Nat → Nat → Nat → Except Nat (Word × Nat × Nat) → Prop
  | 0, _, _, _ => False
  | n + 1, lv, t, r =>
    let size := [2 ^ 21, 4096, 4096, 256].getD lv 0
    let a := t + 8 * [va.toNat / 2 ^ 39 % 2 ^ 18, va.toNat / 2 ^ 30 % 2 ^ 9, va.toNat / 2 ^ 21 % 2 ^ 9,
      va.toNat / 2 ^ 16 % 2 ^ 5].getD lv 0
    let usable : Prop := t < 2 ^ 41 ∧ t % size = 0 ∧ s.vaultOn (t / 2 ^ 33) = true ∧ t % 2 ^ 33 + size ≤ 6 * 2 ^ 30
    let e := s.homeWord a
    let pointer : Prop := lv < 3 ∧ e.extractLsb' 1 2 = 0 ∧ e.extractLsb' 4 4 = 0 ∧ e.extractLsb' 52 12 = 0
    let leaf : Prop := 1 ≤ lv ∧ Claim.leafLegal s (3 - lv) e
    (¬ usable → r = .error 0x22) ∧
    (usable → e.getLsbD 0 = false → r = .error 0x20) ∧
    (usable → e.getLsbD 0 = true → e.getLsbD 3 = true →
      (pointer → Claim.walks s va n (lv + 1) ((e.extractLsb' 8 44).toNat * 256) r) ∧ (¬ pointer → r = .error 0x22)) ∧
    (usable → e.getLsbD 0 = true → e.getLsbD 3 = false →
      (leaf → r = .ok (e, a, [0, 30, 21, 16].getD lv 0)) ∧ (¬ leaf → r = .error 0x22))

/-- R95, R96, R305, R306, Tables 20.5 and 20.6: the translation of a canonical address that nothing caches walks the table of
`ctl.ptroot` level by level. It raises NOTMAPPED (0x20) at an entry that is not valid, BADPTE (0x22) for an unusable table, a
malformed pointer or a leaf that breaks a condition of R95, and PROTECTION (0x21) where the leaf forbids the access; then
memory stays and no cache holds the leaf. Otherwise it gives the leaf, sets `a`, and `d` for a write, in the leaf's entry at
home and nothing else there, and the core's TLB holds the translation. -/
def Claim.TranslationWalksTheTable : Prop :=
  ∀ (s : State) (core : Nat) (acc : Acc) (va : Word), canonical va = true → tlbFind (s.coreAt core).tlb va = none →
    s.ctl.ptroot ≠ 0 → (s.domeAt (domeOf core)).walks = [] → s.bad = [] → s.power.inReset = [] → s.waits = [] → s.reds = [] →
    let out := s.translate core acc va
    ∃ r, Claim.walks s va 4 0 s.ctl.ptroot.toNat r ∧
      match r with
      | .error c => out.2 = .error (.page c va false) ∧ out.1.mem = s.mem
      | .ok (e, a, bits) =>
        let allowed : Bool := match acc with
          | .read => true
          | .write => e.getLsbD 1
          | .fetch => e.getLsbD 2
        (allowed = false → out.2 = .error (.page 0x21 va false) ∧ out.1.mem = s.mem ∧
          tlbFind (out.1.coreAt core).tlb va = none ∧ Sparse.get none (out.1.domeAt (domeOf core)).walks a = none) ∧
        (allowed = true → out.2 = .ok (e, bits) ∧
          out.1.homeWord a = e ||| 0x40 ||| (if acc = .write then 0x80 else 0) ∧
          (∀ i, ¬ (a ≤ i ∧ i < a + 8) → readMem out.1.mem i = readMem s.mem i) ∧
          ∃ x, tlbFind (out.1.coreAt core).tlb va = some x ∧ x.entry = e ∧ x.addr = a ∧ x.bits = bits ∧
            x.wrote = (e.getLsbD 7 || decide (acc = .write)))

/-- R88, R95, R96, R191, R194, R305, R306: an address outside its space traps with the address; a translation permits only
what its leaf does; a walk reads the page table as the spec lays it out. -/
def Obligations.AddressesAreCheckedBeforeAccess : Prop :=
  Claim.AccessesOutsideTheirSpaceTrap ∧ Claim.TranslationChecksPermissions ∧ Claim.TranslationWalksTheTable

/-- R106, R107, R110, R113, R114, R346: a release beyond the team leaves no dirty byte in the core, and every such byte at
home, or, of host and peer memory, at its proxy slice, and at system scope in the host's memory. A team release in a team of
one dome brings home the bytes homed there, and the others to the dome's replica. An acquire beyond the team drops the clean
bytes of the core and its dome, at system scope also those the slices keep of host memory; a team acquire within one dome
keeps the replica. An acquire ends the core's hoisted loads. No WAIT is registered and no reduction waits in a slice's queue. -/
def Claim.ReleasesPublishAndAcquiresDrop : Prop :=
  (∀ (s : State) (core : Nat) (l : Option Launch) (sc : Scope), sc ≠ .core → sc ≠ .team → s.waits = [] → s.reds = [] →
    let s' := s.release core l sc
    (s'.coreAt core).dirty = [] ∧ (∀ c, c ≠ core → s'.coreAt c = s.coreAt c) ∧
    (∀ key b, Sparse.get none (s.coreAt core).dirty key = some b →
      (farKey key = false → readMem s'.mem key = b) ∧
      (farKey key = true → sc = .package → Sparse.get none s'.proxy key = some b) ∧
      (farKey key = true → peerKey key = false → sc = .system → readMem s'.mem key = b)) ∧
    (∀ key b, Sparse.get none (s.coreAt core).dirty key = none →
      Sparse.get none (s.domeAt (domeOf core)).dirty key = some b → farKey key = false → readMem s'.mem key = b) ∧
    (∀ key, Sparse.get none (s.coreAt core).dirty key = none →
      Sparse.get none (s.domeAt (domeOf core)).dirty key = none → farKey key = false →
      readMem s'.mem key = readMem s.mem key)) ∧
  (∀ (s : State) (core : Nat) (l : Option Launch), s.waits = [] → s.reds = [] → s.teamLocal l = true →
    let s' := s.release core l .team
    (s'.coreAt core).dirty = [] ∧
    ∀ key b, Sparse.get none (s.coreAt core).dirty key = some b → farKey key = false →
      (s.homedIn (domeOf core) key = true → readMem s'.mem key = b) ∧
      (s.homedIn (domeOf core) key = false → Sparse.get none (s'.domeAt (domeOf core)).dirty key = some b)) ∧
  (∀ (s : State) (core : Nat) (l : Option Launch) (sc : Scope), sc ≠ .core →
    let s' := s.acquire core l sc
    (s'.coreAt core).clean = [] ∧ s'.mem = s.mem ∧
    (sc ≠ .team ∨ s.teamLocal l = false → (s'.domeAt (domeOf core)).clean = []) ∧
    (sc = .team → s.teamLocal l = true → s'.domes = s.domes) ∧
    (sc = .system → s'.hostClean = []) ∧ (sc ≠ .system → s'.hostClean = s.hostClean) ∧
    (∀ k w, s'.warpAt k = some w → keyCore k = core → ∀ i, w.hoistAt i = none) ∧
    (∀ c, (s'.coreAt c).dirty = (s.coreAt c).dirty) ∧ (∀ c, c ≠ core → s'.coreAt c = s.coreAt c))

/-- No active thread of a word has an open transaction. -/
def Claim.noTxn (w : Warp) (T : Mask) : Prop := ∀ t, T.has t = true → w.openTxn t = none

/-- R215, R216: PHASE and FENCE release and acquire at their scope as their form says, and then sequence. A word all of
whose active threads stand in open transactions aborts those with ILLEGALOP (code 4) instead. -/
def Claim.PhaseAndFenceWords : Prop :=
  ∀ (s : State) (c : WCtx) (w : Warp) (p : Split) (x : Ctl) (m : SMod) (o : Slots) (ports : List (Port × Word)) (pv : Pops),
    Ready s c w p x o [] ports pv →
    let T := activeMask w p x
    let s0 := s.putWarp c.key { w with ports := ports }
    let l := s0.launchOfWarp c.key
    let s1 := match m.ord with
      | .none => s0
      | .rel => s0.release (keyCore c.key) l m.scope
      | .acq => s0.acquire (keyCore c.key) l m.scope
      | .acqrel => (s0.release (keyCore c.key) l m.scope).acquire (keyCore c.key) l m.scope
    (Claim.noTxn w T →
      exec (.phase x m o) s = .next (s1.seqAct c.key p.id x.seq) ∧
      exec (.fence x m o) s = .next (s1.seqAct c.key p.id x.seq)) ∧
    ((∀ t, T.has t = true → (w.openTxn t).isSome = true) →
      let w1 := { w.abortTxns T 4 with ports := ports }
      exec (.phase x m o) s = .next ((s.putWarp c.key w1).seqAct c.key p.id x.seq) ∧
      exec (.fence x m o) s = .next ((s.putWarp c.key w1).seqAct c.key p.id x.seq))

/-- R106, R107, R110, R215, R216: releases publish, acquires drop, and PHASE and FENCE do both at their scope. -/
def Obligations.FencesPublishAndDrop : Prop :=
  Claim.ReleasesPublishAndAcquiresDrop ∧ Claim.PhaseAndFenceWords

/-! ## Atomics, exchange stores and arrival words -/

/-- What an atomic stores (R210, Table 14.6): from the old value, C and D. -/
def Claim.updated (a : ATy) (op : AOp) (old c d : Nat) : Nat :=
  let w := 8 * a.bytes
  let c := c % 2 ^ w
  match op with
  | .exch => c
  | .cas => if old = c then d % 2 ^ w else old
  | .and => old &&& c
  | .or => old ||| c
  | .xor => old ^^^ c
  | .add =>
    match ATy.fmt a with
    | none => (old + c) % 2 ^ w
    | some f =>
      let fl := decide (a = .bf16 ∨ a = .f16)
      (f.sum fl .rne 0 false [(f.operand fl old).1.term, (f.operand fl c).1.term]).1
  | .min =>
    match ATy.fmt a with
    | none => if toInt (ATy.signed a) w c < toInt (ATy.signed a) w old then c else old
    | some f => (f.minmax (decide (a = .bf16 ∨ a = .f16)) false old c).1
  | .max =>
    match ATy.fmt a with
    | none => if toInt (ATy.signed a) w old ≤ toInt (ATy.signed a) w c then c else old
    | some f => (f.minmax (decide (a = .bf16 ∨ a = .f16)) true old c).1

/-- R99, R115, R116, R194, R210, R211, R346: an atomic is one read and write of the naturally aligned bytes, in the live bank or
at home, and changes no other byte; a misaligned one raises MISALIGN (cause 0x09). Integer types set no flag. Under the last-use
hint the core's clean bytes of its line go. A RED (`red`) of memory of the module's own enters its slice's queue and answers
nothing, and its update is written when the entry passes to the array. An access to a peer's memory is asked for, and answers
what the peer has answered to this step, or UCE (R347). No WAIT is registered and no other reduction waits in a queue. -/
def Claim.AtomicsReadAndWriteInOneStep : Prop :=
  ∀ (s : State) (k t : Nat) (red : Bool) (h : Hint) (w : Warp) (m : AMod) (b c d : Word), s.warpAt k = some w →
    let n := m.aty.bytes
    (b.toNat % n ≠ 0 → s.atomic k t red h m b c d = (s, .error (.trap 0x09 b))) ∧
    (b.toNat % n = 0 → m.sp = .s → ∀ y, s.blockAt w.blk = some y → b.toNat + n ≤ s.bankBytes y →
      (∀ a, b.toNat ≤ a → a < b.toNat + n → (w.blk, a) ∉ s.badS) →
      let old := leNat ((List.range n).map (fun i => Sparse.get 0 y.live (b.toNat + i)))
      let new := Claim.updated m.aty m.op old c.toNat d.toNat
      ∃ live fl, s.atomic k t red h m b c d = (s.putBlock w.blk { y with live := live }, .ok (old, fl)) ∧
        (ATy.fmt m.aty = none → fl = 0) ∧
        ∀ a, Sparse.get 0 live a =
          if b.toNat ≤ a ∧ a < b.toNat + n then BitVec.ofNat 8 (new / 256 ^ (a - b.toNat)) else Sparse.get 0 y.live a) ∧
    (b.toNat % n = 0 → m.sp ≠ .s → ∀ s1 keys, s.translateRun (keyCore k) .write b n = (s1, .ok keys) →
      s1.waits = [] → s1.reds = [] → s1.lineBad (keys.headD 0) = false → keys.headD 0 + n ≤ 2 ^ 42 →
      let at0 := keys.headD 0
      let old := leNat ((List.range n).map (fun i => readMem s1.mem (at0 + i)))
      let new := Claim.updated m.aty m.op old c.toNat d.toNat
      let written (s' : State) : Prop := ∀ a, readMem s'.mem a =
        if at0 ≤ a ∧ a < at0 + n then BitVec.ofNat 8 (new / 256 ^ (a - at0)) else readMem s1.mem a
      let caches (s' : State) : Prop := s'.domes = s1.domes ∧ (h ≠ .lastuse → s'.cores = s1.cores) ∧
        (∀ core, core ≠ keyCore k → s'.coreAt core = s1.coreAt core) ∧
        (s'.coreAt (keyCore k)).dirty = (s1.coreAt (keyCore k)).dirty ∧
        (h = .lastuse → Sparse.get [] (s'.coreAt (keyCore k)).clean (at0 / 64) = [])
      (red = false → ∃ s' fl, s.atomic k t red h m b c d = (s', .ok (old, fl)) ∧ (ATy.fmt m.aty = none → fl = 0) ∧
        written s' ∧ caches s') ∧
      (red = true → ∃ s', s.atomic k t red h m b c d = (s', .ok (0, 0)) ∧ s'.mem = s1.mem ∧ caches s' ∧
        s'.reds = [{ key := k, t := t, a := at0, aty := m.aty, op := m.op, c := c }] ∧
        (s'.applyReds (at0 / 64)).reds = [] ∧ (d = 0 → written (s'.applyReds (at0 / 64))))) ∧
    (b.toNat % n = 0 → m.sp ≠ .s → ∀ s1 keys, s.translateRun (keyCore k) .write b n = (s1, .ok keys) →
      s1.lineBad (keys.headD 0) = false → peerKey (keys.headD 0) = true →
      let ask : Want := .peer (s1.asker, t) (keys.headD 0) (.atomic m.aty m.op c d)
      let mine (x : BexAns) : Prop := x.addr = keys.headD 0 ∧ x.op = .atomic m.aty m.op c d ∧ x.who = (s1.asker, t)
      ((∀ x ∈ s1.bexDone, ¬ mine x) → ask ∈ (s.atomic k t red h m b c d).1.wants) ∧
      (∀ r, (∀ x ∈ s1.bexDone, mine x → x.result = r) → (∃ x ∈ s1.bexDone, mine x) →
        match r with
        | some v => ∃ fl, s.atomic k t red h m b c d = (s1, .ok (v.toNat % 256 ^ n, fl))
        | none => s.atomic k t red h m b c d = (s1, .error (.uce b))))

/-- R210, R211, R212: ATOM and ATOMC answer the old value and order around the atomic as their form says; RED answers
nothing; in an open transaction each only aborts it with ILLEGALOP (code 4). -/
def Claim.AtomicWordsAnswerTheOldValue : Prop :=
  ∀ (s : State) (k t : Nat) (h : Hint) (w : Warp) (m : AMod) (pd : Pend), s.warpAt k = some w →
    (w.openTxn t = none → ∀ s2 old fl,
      let l := s.launchOfWarp k
      let pre := if m.ord = .rel ∨ m.ord = .acqrel then s.release (keyCore k) l m.scope else s
      (pre.atomic k t false h m (pd.ops.gb t) (pd.ops.gc t) (pd.ops.gd t) = (s2, .ok (old, fl)) →
        atomAccess h m s k pd t =
          (if m.ord = .acq ∨ m.ord = .acqrel then s2.acquire (keyCore k) l m.scope else s2, .ok (some (BitVec.ofNat 64 old), fl))) ∧
      (s.atomic k t true h m (pd.ops.gb t) (pd.ops.gc t) 0 = (s2, .ok (old, fl)) → redAccess h m s k pd t = (s2, .ok (none, 0)))) ∧
    ((w.openTxn t).isSome = true →
      atomAccess h m s k pd t = (s.putWarp k (w.abortTxns (BitVec.ofNat 32 (2 ^ t)) 4), .ok (none, 0)) ∧
      redAccess h m s k pd t = (s.putWarp k (w.abortTxns (BitVec.ofNat 32 (2 ^ t)) 4), .ok (none, 0)))

/-- R99, R115, R116, R194, R210-R212, R346: an atomic is one read and write of its bytes, at home behind the reductions its
slice has accepted, or one operation at a peer's home slice, whose answer it takes; ATOM and ATOMC answer the old value, RED
nothing. -/
def Obligations.AtomicsAreOneReadAndWrite : Prop :=
  Claim.AtomicsReadAndWriteInOneStep ∧ Claim.AtomicWordsAnswerTheOldValue

/-- R118, R213, R314: an exchange store changes exactly its bytes in the shadow bank of the block that R118 names, raises
NORECV (cause 0x0A) where there is none, and waits, with nothing sent, while that block is saved. -/
def Obligations.ExchangeStoresFillTheShadowBank : Prop :=
  (∀ (s : State) (k t : Nat) (w : Warp) (m : XMod) (pd : Pend), s.warpAt k = some w → w.openTxn t = none →
    (∀ r y, s.receiver w.blk m = .block r → s.blockAt r = some y →
      let off := (pd.ops.gb t).toNat
      (off + m.mt.bytes ≤ s.bankBytes y →
        ∃ shadow, xstAccess m s k pd t = (s.putBlock r { y with shadow := shadow }, .ok (none, 0)) ∧
          ∀ a, Sparse.get 0 shadow a = if off ≤ a ∧ a < off + m.mt.bytes then (pd.ops.gc t).extractLsb' (8 * (a - off)) 8
            else Sparse.get 0 y.shadow a) ∧
      (¬ off + m.mt.bytes ≤ s.bankBytes y → xstAccess m s k pd t = (s, .error (.trap 0x08 (pd.ops.gb t))))) ∧
    (s.receiver w.blk m = .nobody → xstAccess m s k pd t = (s, .error (.trap 0x0A (pd.ops.gb t))))) ∧
  (∀ (s : State) (c : WCtx) (w : Warp) (p : Split) (x : Ctl) (m : XMod) (o : Slots) (ports : List (Port × Word)) (pv : Pops),
    Ready s c w p x o [o.b, o.c] ports pv → s.xstWaits c.key m (activeMask w p x) = true →
    ∃ pend, exec (.xst x m o) s =
      .next (s.putWarp c.key ({ w with ports := ports }.putSplit { p with stop := some (.xst pend) })) ∧
      pend.i = .xst x m o ∧ pend.T = activeMask w p x) ∧
  (∀ (s : State) (r : Ref) (w : Warp) (p : Split) (x : Ctl) (m : XMod) (o : Slots) (pend : Pend),
    s.warpAt (refKey r) = some w → w.splitAt r.split = some p → p.stop = some (.xst pend) → pend.i = .xst x m o →
    exec (.xstReceiverResident r) s = .next (if s.xstWaits (refKey r) m pend.T then s
      else (s.putWarp (refKey r) (w.putSplit { p with stop := none })).perform (refKey r) r.split x.seq (planXst m) pend))

/-- R218, R219, R221: what each operation of ARRV makes of the arrival word at its offset: it answers the generation before
it and changes no other byte of the bank. -/
def Claim.ArrivalWordOperations : Prop :=
  ∀ (s : State) (k t : Nat) (w : Warp) (y : Block) (op : ArrvOp) (pd : Pend),
    s.warpAt k = some w → w.openTxn t = none → s.blockAt w.blk = some y →
    let off := (pd.ops.gb t).toNat
    let n := (pd.ops.gc t).toNat % 2 ^ 32
    (off % 16 ≠ 0 → arrvAccess op s k pd t = (s, .error (.trap 0x09 (pd.ops.gb t)))) ∧
    (off % 16 = 0 → off + 16 ≤ s.bankBytes y → (∀ a, off ≤ a → a < off + 16 → (w.blk, a) ∉ s.badS) →
      let old := Arr.ofBytes ((List.range 16).map (fun i => Sparse.get 0 y.live (off + i)))
      ∃ live, arrvAccess op s k pd t = (s.putBlock w.blk { y with live := live }, .ok (some (BitVec.ofNat 64 old.gen), 0)) ∧
        (∀ a, a < off ∨ off + 16 ≤ a → Sparse.get 0 live a = Sparse.get 0 y.live a) ∧
        let new := Arr.ofBytes ((List.range 16).map (fun i => Sparse.get 0 live (off + i)))
        match op with
        | .init => new = { old with target := n, count := 0, errs := 0 }
        | .expect => new = { old with target := (old.target + n) % 2 ^ 32 }
        | .clrerr => new = { old with errs := 0 }
        | .add =>
          if old.target ≤ old.count + n then
            new = { old with count := (old.count + n - old.target) % 2 ^ 32, gen := (old.gen + 1) % 2 ^ 15 }
          else new = { old with count := (old.count + n) % 2 ^ 32 })

/-- R222: AWAIT ends where the word's generation has the phase that bit 0 of C names, A receiving the error bits, and stops
its split where it has not. Where the active threads' C differ the lowest one's counts, which is the model's choice (log entry
116). -/
def Claim.AwaitEndsOnItsPhase : Prop :=
  ∀ (s : State) (c : WCtx) (w : Warp) (p : Split) (x : Ctl) (o : Slots) (ports : List (Port × Word)) (pv : Pops) (y : Block),
    Ready s c w p x o [o.b, o.c] ports pv →
    let T := activeMask w p x
    let v := readOps c w {} o pv
    let t := T.lowest.getD 0
    let off := (v.gb t).toNat
    Claim.noTxn w T → s.blockAt w.blk = some y → off % 16 = 0 → off + 16 ≤ s.bankBytes y →
    (∀ a, off ≤ a → a < off + 16 → (w.blk, a) ∉ s.badS) →
    let a := Arr.ofBytes ((List.range 16).map (fun i => Sparse.get 0 y.live (off + i)))
    (decide (a.gen % 2 = 1) = (v.gc t).getLsbD 0 → dstOk c w T o.a (fun _ => BitVec.ofNat 64 a.errs) →
      ∃ w' : Warp, exec (.await x o) s = .next ((s.putWarp c.key w').seqAct c.key p.id x.seq) ∧ w'.ports = ports ∧
        RegEffect w w' o.a T (fun _ => BitVec.ofNat 64 a.errs) (fun _ => 0) w.rndOf) ∧
    (decide (a.gen % 2 = 1) ≠ (v.gc t).getLsbD 0 →
      exec (.await x o) s = .next (s.putWarp c.key ({ w with ports := ports }.putSplit
        { p with stop := some (.await { i := .await x o, T := T, ops := v }) })))

/-- R218, R219, R221, R222: the operations on an arrival word, and the await that ends on its phase. That the lowest active
thread's C names the phase is the model's choice (log entry 116). -/
def Obligations.ArrivalWords : Prop :=
  Claim.ArrivalWordOperations ∧ Claim.AwaitEndsOnItsPhase

/-! ## Synchronisation -/

/-- R224: BAR on a block of one warp whose split holds every thread that has not exited. With a count of at most 1 the
generation completes: `.join` and `.pass` go on. With a greater count the warp has arrived: `.pass` goes on and `.join`
stops. `.hold` stops. An id above 31 or a count above 256 raises TEAMGROUP (cause 0x0B). -/
def Claim.BlockBarriersCompleteAtTheirCount : Prop :=
  ∀ (s : State) (c : WCtx) (w : Warp) (p : Split) (x : Ctl) (op : BarOp) (o : Slots) (ports : List (Port × Word)) (pv : Pops)
    (b : Block),
    Ready s c w p x o [o.b, o.c] ports pv →
    let T := activeMask w p x
    let v := readOps c w {} o pv
    let id := (v.gb (T.lowest.getD 0)).toNat
    let cnt := (v.gc (T.lowest.getD 0)).toNat
    let y := b.barAt id
    let s0 := s.putWarp c.key { w with ports := ports }
    Claim.noTxn w T → s.blockAt w.blk = some b →
    (31 < id ∨ 256 < cnt →
      exec (.bar x op o) s = .next (s0.takeTrap c.key p.id { cause := 0x0B, mask := T, addr := 0 })) ∧
    (id ≤ 31 → cnt ≤ 256 → s0.blockWarps w.blk = [(c.key, { w with ports := ports })] →
      (∀ t, t < 32 → w.exited.has t = false → p.mask.has t = true) →
      y.count = none → y.arrived = [] → y.parts = [] → y.want = [] →
      (op ≠ .hold → cnt ≤ 1 → ∃ st : State, exec (.bar x op o) s = .next (st.seqAct c.key p.id x.seq) ∧
        st.blockAt w.blk = some (b.putBar id { gen := y.gen + 1 })) ∧
      (op ≠ .hold → 1 < cnt → ∃ (st : State) (b' : Block), st.blockAt w.blk = some b' ∧ b' = { b with bars := b'.bars } ∧
        (b'.barAt id).gen = y.gen ∧ (b'.barAt id).arrived = [w.wid] ∧ (b'.barAt id).count = some cnt ∧
        (op = .pass → exec (.bar x op o) s = .next (st.seqAct c.key p.id x.seq)) ∧
        (op = .join → exec (.bar x op o) s = .next st ∧
          ∃ (w' : Warp) (q : Split) (pend : Pend), st.warpAt c.key = some w' ∧ w'.splitAt p.id = some q ∧ q.stop = some (.bar id y.gen false pend))) ∧
      (op = .hold → ∃ (st : State) (w' : Warp) (q : Split) (pend : Pend), exec (.bar x op o) s = .next st ∧ st.warpAt c.key = some w' ∧
        w'.splitAt p.id = some q ∧ q.stop = some (.bar id y.gen true pend)))

/-- R37, R119, R225: TBAR of the one warp of the one block that a group has, with no team barrier of the launch under way:
the generation completes, `.swap` exchanges the block's banks, and the split goes on. A specifier that names no group, or
an id above 3, raises TEAMGROUP (cause 0x0B); `.swap` without an exchange bank raises NOXBANK (cause 0x0C). -/
def Claim.TeamBarriersCompleteAndSwapBanks : Prop :=
  ∀ (s : State) (c : WCtx) (w : Warp) (p : Split) (x : Ctl) (pass swap : Bool) (o : Slots) (ports : List (Port × Word))
    (pv : Pops) (b : Block) (l : Launch),
    Ready s c w p x o [o.b, o.c] ports pv →
    let T := activeMask w p x
    let v := readOps c w {} o pv
    let spec := (v.gb (T.lowest.getD 0)).toNat % 2 ^ 32
    let id := (v.gc (T.lowest.getD 0)).toNat
    let s0 := s.putWarp c.key { w with ports := ports }
    Claim.noTxn w T → s.blockAt w.blk = some b → s.launchAt b.launch = some l → l.tbars = [] →
    (tbarGroup l b.pos spec = none ∨ 3 < id →
      exec (.tbar x pass swap o) s = .next (s0.takeTrap c.key p.id { cause := 0x0B, mask := T, addr := 0 })) ∧
    (∀ og sz, tbarGroup l b.pos spec = some (og, sz) → id ≤ 3 →
      (swap = true → l.part.getLsbD 24 = false →
        exec (.tbar x pass swap o) s = .next (s0.takeTrap c.key p.id { cause := 0x0C, mask := T, addr := 0 })) ∧
      ((swap = true → l.part.getLsbD 24 = true) → s.saved = [] → s.launchBlocks b.launch = [(w.blk, b)] →
        s0.blockWarps w.blk = [(c.key, { w with ports := ports })] →
        (∀ t, t < 32 → w.exited.has t = false → p.mask.has t = true) →
        og.1 ≤ b.pos.1 → b.pos.1 < og.1 + sz.1 → og.2 ≤ b.pos.2 → b.pos.2 < og.2 + sz.2 →
        ∃ st : State, exec (.tbar x pass swap o) s = .next (st.seqAct c.key p.id x.seq) ∧
          st.blockAt w.blk = some (if swap then { b with live := b.shadow, shadow := b.live } else b) ∧
          ∃ z, st.launchAt b.launch = some { l with tbars := [z] } ∧ z.gen = 1 ∧ z.arrived = []))

/-- R37, R119, R224, R225: block barriers and team barriers complete, and a team barrier with `.swap` exchanges the banks. That
the threads of a warp's splits arrive together, and that a TBAR id above 3 raises TEAMGROUP, are readings of the model's (log
entry 55). -/
def Obligations.BarriersCompleteAtTheirCount : Prop :=
  Claim.BlockBarriersCompleteAtTheirCount ∧ Claim.TeamBarriersCompleteAndSwapBanks

/-- The words of a WAIT's threads translate and are sound, and none is a peer's; `key` is where they lie. Each is read at its home
slice under the word's hint. -/
def Claim.probed (core : Nat) (h : Hint) (b : Nat → Word) (key : Nat → Nat) : State → List Nat → State → Prop
  | s, [], s' => s' = s
  | s, t :: ts, s' => ∃ s1 keys, s.translateRun core .read (b t) 8 = (s1, .ok keys) ∧ keys.headD 0 = key t ∧
      (∀ a ∈ keys, peerKey a = false) ∧ s1.lineBad (key t) = false ∧
      Claim.probed core h b key ((s1.touchHome core (b t) h keys).lastUse core h keys) ts s'

/-- R99, R125, R228, R229: a WAIT whose condition already holds when it is registered (for every thread under `.all`, for some
thread of one word under `.any`) ends at once with MET (0), 256 added for each thread whose condition held. Where it
holds for no thread, all name one word and its slice has room, an entry is registered and the split stops. No reduction waits
in a slice's queue. -/
def Obligations.WaitsEndAtOnceOrRegister : Prop :=
  ∀ (s s1 : State) (c : WCtx) (w : Warp) (p : Split) (x : Ctl) (m : WMod) (o : Slots) (ports : List (Port × Word)) (pv : Pops)
    (key : Nat → Nat),
    Ready s c w p x o [o.b, o.c, o.d] ports pv →
    let T := activeMask w p x
    let v := readOps c w {} o pv
    let a := key (T.lowest.getD 0)
    Claim.noTxn w T → s.reds = [] → (∀ t, T.has t = true → (v.gb t).toNat % 8 = 0) →
    Claim.probed (keyCore c.key) x.hint v.gb key (s.putWarp c.key { w with ports := ports }) T.threads s1 →
    let holds (t : Nat) : Bool := condHolds m.cond m.sgn (s1.homeWord (key t)) (v.gc t)
    let res (t : Nat) : Word := if !m.any || holds t then 256 else 0
    ((m.any = false ∧ ∀ t, T.has t = true → holds t = true) ∨
      (m.any = true ∧ (∀ t, T.has t = true → key t = a) ∧ ∃ t, T.has t = true ∧ holds t = true) →
      dstOk c w T o.a res →
      ∃ w' : Warp,
        let s2 := { s1.putWarp c.key w' with
          nextUid := s1.nextUid + 1, waits := s1.waits.filter (fun z => z.id ≠ s1.nextUid) }
        exec (.wait x m o) s = .next
          ((if m.acq then s2.acquire (keyCore c.key) (s2.launchOfWarp c.key) .package else s2).seqAct c.key p.id x.seq) ∧
        w'.ports = ports ∧ RegEffect w w' o.a T res (fun _ => 0) w.rndOf) ∧
    ((∀ t, T.has t = true → key t = a ∧ holds t = false) → s1.lantern (s1.homeSlice a) false < 4096 →
      ∃ y pend, exec (.wait x m o) s = .next
        ({ s1 with nextUid := s1.nextUid + 1, waits := s1.waits ++ [y] }.putWarp c.key
          ({ w with ports := ports }.putSplit { p with stop := some (.wait s1.nextUid pend) })) ∧
        y.id = s1.nextUid ∧ y.T = T ∧ y.result = none ∧ y.cond = m.cond ∧ y.vals = v.c ∧
        y.ents = [{ slice := s1.homeSlice a, addr := a, threads := T, spilled := false }] ∧
        y.deadline = s.time.toNat +
          (if (v.gd (T.lowest.getD 0)).toNat % 2 ^ 32 = 0 then 2 ^ 32 else (v.gd (T.lowest.getD 0)).toNat % 2 ^ 32))

/-- R126, R229, Table 8.8: a write that makes the condition of a waiting thread hold satisfies it. The first firing under
`.any` decides MET, and so does, under `.all`, the one that satisfies the last thread; a decided WAIT of one entry has freed
it, so that no later write fires it again. -/
def Claim.WritesFireWaitingThreads : Prop :=
  ∀ (y : Wait) (a : Nat) (v : Word) (e : WEnt), y.result = none → y.ents = [e] → e.addr = a → e.threads = y.T →
    let hit (t : Nat) : Bool := y.T.has t && condHolds y.cond y.sgn v (y.vals.getD t 0)
    let new : Prop := ∃ t, hit t = true ∧ y.sat.has t = false
    (∀ t, (y.evaluate a v).sat.has t = (y.sat.has t || hit t)) ∧
    ((y.evaluate a v).result = some 0 ↔
      new ∧ (y.any = true ∨ ∀ t, y.T.has t = true → (y.sat.has t || hit t) = true)) ∧
    ((y.evaluate a v).result = some 0 ∨ (y.evaluate a v).result = none) ∧
    ((y.evaluate a v).result = some 0 → (y.evaluate a v).ents = [])

/-- R229, R230, R314, Table 20.8: the deadline of an undecided WAIT decides it TIMEOUT (1) and frees its entries; where its
context is swapped out, the context's `ready` becomes 1 besides, a write that WAITs registered on that word would see. WAKE_UP gives the result to the stopped split, 256 added
for satisfied threads, and the split goes on. -/
def Claim.TimeoutsAndWakeUpsEndWaits : Prop :=
  (∀ (s : State) (id : Nat) (y : Wait), s.waits.find? (fun z => z.id = id) = some y →
    (y.result = none → y.deadline ≤ s.time.toNat →
      ∃ (t : State) (z : Wait), exec (.waitTimeout id) s = .next t ∧ t.waits.find? (fun u => u.id = id) = some z ∧
        z.result = some 1 ∧ z.ents = [] ∧ z.sat = y.sat ∧ z.T = y.T ∧ t.warps = s.warps ∧ t.cores = s.cores ∧
        (y.ctx = none → t = { s with waits := t.waits }) ∧
        (∀ ctx v area k, y.ctx = some ctx → s.saved.find? (fun u => u.id = ctx) = some v → v.areas.head? = some area →
          s.key (area.toNat + 0x24) = some k → k + 4 ≤ 2 ^ 42 → (∀ u ∈ s.waits, ∀ e ∈ u.ents, e.addr ≠ k / 8 * 8) →
          ∀ a, readMem t.mem a = if a = k then 1 else if k < a ∧ a < k + 4 then 0 else readMem s.mem a)) ∧
    (y.result ≠ none ∨ s.time.toNat < y.deadline → exec (.waitTimeout id) s = .next s)) ∧
  (∀ (s : State) (id : Nat) (y : Wait) (code : Nat) (w : Warp) (p : Split) (x : Ctl) (m : WMod) (o : Slots) (pend : Pend),
    s.waits.find? (fun z => z.id = id) = some y → y.result = some code → y.ctx = none →
    s.warpAt y.warp = some w → w.splitAt y.split = some p → p.stop = some (.wait id pend) → pend.i = .wait x m o →
    pend.held = [] →
    let res (t : Nat) : Word := BitVec.ofNat 64 (code + if y.sat.has t then 256 else 0)
    (∀ c : WCtx, c.stackLo = s.stackLo y.warp → c.stackHi = s.stackHi y.warp → dstOk c w y.T o.a res) →
    ∃ (w' : Warp) (ws : List Wait),
      let s1 := { s.putWarp y.warp w' with waits := s.waits.filter (fun z => z.id ≠ id) }
      exec (.wakeUp id) s = .next { (if m.acq then s1.acquire (keyCore y.warp) (s1.launchOfWarp y.warp) .package
        else s1).seqAct y.warp y.split x.seq with waits := ws } ∧
      RegEffect w w' o.a y.T res (fun _ => 0) w.rndOf)

/-- R126, R229, R230: what decides a WAIT that is registered, and how its split goes on. -/
def Obligations.WaitsAreDecidedAndEnd : Prop :=
  Claim.WritesFireWaitingThreads ∧ Claim.TimeoutsAndWakeUpsEndWaits

/-- R48, R195, R237: YIELD notes the other ready splits of its lane that have not yielded, and sequences. The close of a
coalescing window ends that window and nothing else. -/
def Obligations.YieldAndWindowClose : Prop :=
  (∀ (s : State) (c : WCtx) (w : Warp) (p : Split) (x : Ctl) (o : Slots) (ports : List (Port × Word)) (pv : Pops),
    Ready s c w p x o [] ports pv →
    let w0 := { w with ports := ports }
    let s0 := s.putWarp c.key w0
    ∃ names : List Nat, exec (.yieldW x o) s =
        .next ((s0.putWarp c.key (w0.putSplit { p with yieldFor := names })).seqAct c.key p.id x.seq) ∧
      ∀ n, n ∈ names ↔ ∃ slot q, (slot, q) ∈ s0.laneReady (keyCore c.key) (keyLane c.key) ∧
        ¬ (slot = keySlot c.key ∧ q.id = p.id) ∧ q.yieldFor = [] ∧ n = 4 * q.id + slot) ∧
  (∀ (s : State) (core lane slot line : Nat) (store : Bool) (w : Warp),
    s.warpAt (warpKey core lane slot) = some w →
    ((line, store) ∉ w.windows → exec (.coalescingWindowClose core lane slot line store) s = .next s) ∧
    ((line, store) ∈ w.windows → ∃ ws, exec (.coalescingWindowClose core lane slot line store) s =
        .next (s.putWarp (warpKey core lane slot) { w with windows := ws }) ∧
      ∀ e, e ∈ ws ↔ e ∈ w.windows ∧ e ≠ (line, store)))

/-! ## Transactions -/

/-- TXS's report (Table 14.11): the outcome code, whether a transaction is open, and the lines of its sets. -/
def Claim.txReport (y : Option Txn) : Word :=
  match y with
  | none => 0
  | some z => BitVec.ofNat 64 (z.code % 256 + (if z.isOpen then 256 else 0) + z.rlines.length % 8 * 2 ^ 10 +
      z.wlines.length % 8 * 2 ^ 13)

/-- R120-R122, R233: TXB releases at package scope and opens a transaction for each active thread that has none, which keeps
the age of one that failed before; TXA ends the active threads' transactions with EXPLICIT (code 7); TXS reports; that an
aborted transaction which is still open reports its lines is the model's choice (log entry 107). -/
def Obligations.TransactionsOpenAbortAndReport : Prop :=
  (∀ (s : State) (c : WCtx) (w : Warp) (p : Split) (x : Ctl) (o : Slots) (ports : List (Port × Word)) (pv : Pops),
    Ready s c w p x o [] ports pv →
    let T := activeMask w p x
    let s0 := s.putWarp c.key { w with ports := ports }
    (∃ txn, exec (.txb x o) s = .next (((s0.release (keyCore c.key) (s0.launchOfWarp c.key) .package).putWarp c.key
        { w with ports := ports, txn := txn }).seqAct c.key p.id x.seq) ∧
      ∀ t, Sparse.get none txn t =
        (if T.has t && (w.openTxn t).isNone then
          some { isOpen := true, code := 0, age := some (((Sparse.get none w.txn t).bind (·.age)).getD s.time),
                 rset := [], wset := [], rlines := [], wlines := [], started := false }
        else Sparse.get none w.txn t)) ∧
    (∃ txn, exec (.txa x o) s = .next ((s.putWarp c.key { w with ports := ports, txn := txn }).seqAct c.key p.id x.seq) ∧
      ∀ t, Sparse.get none txn t =
        (if T.has t && (w.openTxn t).isSome then
          some { isOpen := false, code := 7, age := none, rset := [], wset := [], rlines := [], wlines := [], started := false }
        else Sparse.get none w.txn t))) ∧
  (∀ (x : Ctl) (o : Slots), Yields (.txs x o) x o {} [] always
    (fun _ w _ _ t => Claim.txReport (Sparse.get none w.txn t)) Claim.noFlags keepRnd)

/-- R14, R116, R121, R122, R234, R346: the outcome of one transaction: aborted before with its code; else the validation reaches
its read set's slices (`atReadSet`: after the reductions accepted there; where none is pending, none of the bytes is a peer's
and no tower is in reset that changes nothing, and a byte of a peer is asked for). Then FAULT (5) where a peer never answered;
CONFLICT (2) where the read set no longer holds what it read, or where a commit on its way that goes first meets it; else
committed (0), its write set stored at home and nothing else there, and the commits it meets, which it goes before, aborted. That
a peer which never answers aborts with FAULT is the model's reading (log entry 118). -/
def Claim.CommitsOfOneTransaction : Prop :=
  ∀ (s : State) (k t : Nat) (y : Txn),
    let z := s.atReadSet (keyCore k) y
    (s.reds = [] → s.power.inReset = [] → (∀ e ∈ y.rset, peerKey (e.1 % 2 ^ 60) = false) → z = s) ∧
    (s.reds = [] → ∀ e ∈ y.rset, peerKey (e.1 % 2 ^ 60) = true → s.peerWord (e.1 % 2 ^ 60 / 8 * 8) = none →
      .peer (s.asker, 0) (e.1 % 2 ^ 60 / 8 * 8) .read ∈ z.wants) ∧
    (y.code ≠ 0 → s.commit k t y = (s, y.code)) ∧
    (y.code = 0 → z.peerFailed (y.rset.map (fun e => e.1 % 2 ^ 60)) = true → s.commit k t y = (z, 5)) ∧
    (y.code = 0 → z.peerFailed (y.rset.map (fun e => e.1 % 2 ^ 60)) = false →
      ((∃ e ∈ y.rset, z.homeByte (e.1 % 2 ^ 60) ≠ e.2) → s.commit k t y = (z, 2)) ∧
      (z.olderMeets k t y = true → s.commit k t y = (z, 2)) ∧
      ((∀ e ∈ y.rset, z.homeByte (e.1 % 2 ^ 60) = e.2) → z.olderMeets k t y = false → z.waits = [] → z.reds = [] →
        (∀ e ∈ y.wset, e.1 < 2 ^ 42) →
        ∃ s', s.commit k t y = (s', 0) ∧ s'.cores = z.cores ∧
          (∀ a, (∀ e ∈ y.wset, e.1 ≠ a) → readMem s'.mem a = readMem z.mem a) ∧
          (∀ e, e ∈ y.wset → (∀ e' ∈ y.wset, e'.1 = e.1 → e' = e) → readMem s'.mem e.1 = e.2) ∧
          ∀ e ∈ z.meets k y, e.2.1 < 32 → ∀ w u, s'.warpAt e.1 = some w → w.openTxn e.2.1 = some u → u.code ≠ 0))

/-- R122, R234: which of two commits that meet goes first: the earlier age, and in a tie the lower core, the lower `$wid`,
the lower `$tid`. Where all four tie neither goes first, which is the model's choice (log entry 106). -/
def Claim.TheEarlierTransactionGoesFirst : Prop :=
  ∀ (s : State) (k t k' t' : Nat) (y y' : Txn) (w w' : Warp) (g g' : Word), s.warpAt k = some w → s.warpAt k' = some w' →
    y.age = some g → y'.age = some g' →
    (s.goesFirst k t y k' t' y' = true ↔
      g.toNat < g'.toNat ∨ (g = g' ∧ (keyCore k < keyCore k' ∨ (keyCore k = keyCore k' ∧
        (w.wid < w'.wid ∨ (w.wid = w'.wid ∧ t < t'))))))

/-- The transaction that a commit leaves behind: not open, its outcome, and its age where it failed. -/
def Claim.closed (y : Txn) (code : Nat) : Txn := {
  isOpen := false, code := code, age := if code = 0 then none else y.age, rset := [], wset := [], rlines := [], wlines := [],
  started := false }

/-- TXC's threads one after another: a thread with no open transaction has outcome 0, another what its commit gives; then its
transaction is closed. -/
def Claim.commits (k : Nat) (code : Nat → Nat) : State → List Nat → State → Prop
  | s, [], s' => s' = s
  | s, t :: ts, s' => ∃ w, s.warpAt k = some w ∧
      (w.openTxn t = none → code t = 0 ∧ Claim.commits k code s ts s') ∧
      (∀ y, w.openTxn t = some y → ∃ (r : State) (w1 : Warp),
        s.commit k t y = (r, code t) ∧ r.warpAt k = some w1 ∧
        Claim.commits k code (r.putWarp k (w1.putTxn t (Claim.closed y (code t)))) ts s')

/-- R121, R122, R233, R234: what commits and what aborts, and TXC. It resolves the conflicts within its warp first: a thread
whose write set meets a set of a lower-numbered thread that is not itself lost aborts with INTRA (1), and the others' commits
set out. Then the active threads' transactions commit in ascending order. Each active thread receives its outcome, and none
has a transaction open afterwards. That neither of two goes first where age, core, `$wid` and `$tid` are equal (log entry
106), and that a peer which never answers aborts with FAULT (118), are the model's. -/
def Obligations.CommitsValidateAndStoreTheWriteSet : Prop :=
  Claim.CommitsOfOneTransaction ∧ Claim.TheEarlierTransactionGoesFirst ∧
  (∀ (s : State) (c : WCtx) (w : Warp) (p : Split) (x : Ctl) (o : Slots) (ports : List (Port × Word)) (pv : Pops),
    Ready s c w p x o [] ports pv →
    let T := activeMask w p x
    ∃ (lost : Nat → Prop) (code : Nat → Nat) (w0 : Warp) (s1 : State) (w1 : Warp),
      (∀ t, lost t ↔ T.has t = true ∧ ∃ y, w.openTxn t = some y ∧ y.code = 0 ∧ ∃ u, u < t ∧ T.has u = true ∧ ¬ lost u ∧
        ∃ z, w.openTxn u = some z ∧ z.code = 0 ∧ ∃ l ∈ y.wlines, l ∈ z.rlines ∨ l ∈ z.wlines) ∧
      w0 = { w with ports := ports, txn := w0.txn } ∧
      (∀ t y, w.openTxn t = some y →
        (lost t → w0.openTxn t = some { y with code := 1, rset := [], wset := [] } ∧ code t = 1) ∧
        (¬ lost t → T.has t = true → y.code = 0 → w0.openTxn t = some { y with started := true }) ∧
        (T.has t = false ∨ y.code ≠ 0 → w0.openTxn t = some y)) ∧
      Claim.commits c.key code (s.putWarp c.key w0) T.threads s1 ∧
      s1.warpAt c.key = some w1 ∧ w1.ports = ports ∧ (∀ t, T.has t = true → w1.openTxn t = none) ∧
      (dstOk c w T o.a (fun t => BitVec.ofNat 64 (code t)) →
        ∃ w' : Warp, exec (.txc x o) s = .next ((s1.putWarp c.key w').seqAct c.key p.id x.seq) ∧ w'.ports = ports ∧
          RegEffect w1 w' o.a T (fun t => BitVec.ofNat 64 (code t)) (fun _ => 0) w1.rndOf))

/-! ## Sequencing -/

/-- Where a sequencing act takes a whole split (R139-R142): `none` where it stays in its block or does something else. -/
def Claim.target (w : Warp) (p : Split) (q : Seq) : Option Word :=
  let near (t : BitVec 13) : Word := p.hdr + 16 * t.signExtend 64
  let past : Word := p.hdr + 16 * BitVec.ofNat 64 (p.idx + 1)
  let on (i : Pred) (neg : Bool) (t : Nat) : Bool :=
    p.mask.has t && ((match i with | .p j => w.pGet j t | .q j => w.qGet j) != neg)
  let iff (i : Pred) (neg : Bool) (t : BitVec 13) : Option Word :=
    if (List.range 32).all (fun u => on i neg u || !p.mask.has u) then some (near t)
    else if (List.range 32).any (on i neg) then none
    else some past
  match q with
  | .seq => if p.idx < ((p.hw.extractLsb' 54 6 : BitVec 6)).toNat then none else some past
  | .go t => some (near t)
  | .goInd i => some (w.wGet i)
  | .ifT i t => iff i false t
  | .ifN i t => iff i true t
  | .loop n t => some (if w.nGet n - 1 ≠ 0 then near t else past)
  | .call _ | .callInd _ | .ret | .fin => none

/-- Registers, exits and special registers of a warp stay; `n` registers may change. -/
def Claim.sameRegs (w w' : Warp) : Prop :=
  w'.d = w.d ∧ w'.tags = w.tags ∧ w'.p = w.p ∧ w'.w = w.w ∧ w'.q = w.q ∧ w'.m = w.m ∧ w'.status = w.status ∧
  w'.rnd = w.rnd ∧ w'.weight = w.weight ∧ w'.slim = w.slim ∧ w'.restart = w.restart ∧ w'.fault = w.fault ∧
  w'.handler = w.handler ∧ w'.txn = w.txn

/-- A warp may enter a valid header: one with `stage` set only where the packer formed the warp (R144). -/
def Claim.admits (s : State) (w : Warp) (hw : Word128) : Prop := hw.getLsbD 11 = true → s.packed w = true

/-- A thread's sequencing act reads a damaged register: its condition, or the split's target or count. -/
def Claim.seqReads (w : Warp) (q : Seq) (t : Nat) : Bool :=
  match q with
  | .ifT i _ | .ifN i _ => damagedBy w (predSpec i) t
  | .goInd i | .callInd i => damagedBy w (.w i) t
  | .loop n _ => damagedBy w (.n n) t
  | .seq | .go _ | .call _ | .ret | .fin => false

/-- No thread of a split reads a damaged register in a sequencing act. -/
def Claim.seqSound (w : Warp) (m : Mask) (q : Seq) : Prop := ∀ t, m.has t = true → Claim.seqReads w q t = false

/-- R139-R141, R144, R304: inside a block SEQ goes on to the next word and changes nothing else. An act that reads a damaged
register raises UCE (cause 0x0F) for the threads that read it. A transfer of a whole split, to a
valid header that its record does not join at, makes the header's block its place, at the first word; LOOP counts its register
down. A transfer to what is no valid header, or to a stage header in a warp that is not packed, raises SEQUENCE (cause 0x03)
with the target as its address. -/
def Obligations.TransfersMoveTheSplitToTheHeader : Prop :=
  ∀ (s : State) (k pid : Nat) (q : Seq) (w : Warp) (p : Split),
    s.warpAt k = some w → w.splitAt pid = some p → p.stop = none →
    (¬ Claim.seqSound w p.mask q → s.seqAct k pid q = s.takeTrap k pid
      { cause := 0x0F, mask := Mask.ofPred (fun t => p.mask.has t && Claim.seqReads w q t), addr := 0 }) ∧
    (q = .seq → p.idx < ((p.hw.extractLsb' 54 6 : BitVec 6)).toNat →
      ∃ sp, s.seqAct k pid q = s.putWarp k { w with splits := sp } ∧
        ({ w with splits := sp } : Warp).splitAt pid = some { p with idx := p.idx + 1 } ∧
        ∀ j, j ≠ pid → ({ w with splits := sp } : Warp).splitAt j = w.splitAt j) ∧
    (∀ va, Claim.target w p q = some va → Claim.seqSound w p.mask q →
      (∀ s1 hw, s.fetchHeader (keyCore k) va false = (s1, .ok hw) →
        (Claim.admits s w hw → (∀ r, w.recAt p.rcd = some r → r.join ≠ some va) → w.stacked = [] →
          ∃ w' : Warp, s.seqAct k pid q = s1.putWarp k w' ∧
            w'.splitAt pid = some { p with hdr := va, hw := hw, idx := 1 } ∧
            (∀ j, j ≠ pid → w'.splitAt j = w.splitAt j) ∧ Claim.sameRegs w w' ∧ w'.sp = w.sp ∧ w'.recs = w.recs ∧
            w'.exited = w.exited ∧
            (∀ i : Fin 4, w'.nGet i = match q with | .loop n _ => if i = n then w.nGet n - 1 else w.nGet i | _ => w.nGet i)) ∧
        (¬ Claim.admits s w hw →
          s.seqAct k pid q = s1.takeTrap k pid { cause := 0x03, mask := p.mask, addr := va })) ∧
      (∀ s1, s.fetchHeader (keyCore k) va false = (s1, .invalid) →
        s.seqAct k pid q = s1.takeTrap k pid { cause := 0x03, mask := p.mask, addr := va }))

/-- What merges back at a join: beside the warp's other splits one split of the threads `m`, at the header `j`'s first word,
in the parent record `pr` and with the calls of the merged record, which is gone (R45). -/
def Claim.merged (w w' : Warp) (pid : Nat) (r : RRec) (pr : Nat) (m : Mask) (j : Word) : Prop :=
  w'.recAt r.id = none ∧
  ∃ y : Split, (∀ z, z ∈ w'.splits ↔ (z ∈ w.splits ∧ z.id ≠ pid) ∨ z = y) ∧
    y.mask = m ∧ y.hdr = j ∧ y.hw = r.hw ∧ y.idx = 1 ∧ y.rcd = pr ∧ y.calls = r.calls ∧ y.stop = none

/-- R45: a split that reaches the header its record joins at parks there: its threads wait in the record, which has one
member fewer. The last member to arrive merges the record: the parked threads and its own continue as one split at the
join, in the parent record; where the parent joins at the same header they park there instead. -/
def Claim.SplitsParkAndMergeAtTheirJoin : Prop :=
  ∀ (s s1 : State) (k pid : Nat) (q : Seq) (w : Warp) (p : Split) (va : Word) (hw : Word128) (r : RRec),
    s.warpAt k = some w → w.splitAt pid = some p → p.stop = none → Claim.target w p q = some va → Claim.seqSound w p.mask q →
    s.fetchHeader (keyCore k) va false = (s1, .ok hw) → Claim.admits s w hw → w.recAt p.rcd = some r → r.join = some va →
    w.stacked = [] →
    (2 ≤ r.members →
      ∃ w' : Warp, s.seqAct k pid q = s1.settleWarp k w' ∧ w'.splitAt pid = none ∧
        (∀ j, j ≠ pid → w'.splitAt j = w.splitAt j) ∧ Claim.sameRegs w w' ∧ w'.exited = w.exited ∧
        w'.recAt p.rcd = some { r with members := r.members - 1, parked := r.parked ||| p.mask }) ∧
    (∀ pr pq, r.members = 1 → r.parent = some pr → pr ≠ p.rcd → w.recAt pr = some pq → r.parked ||| p.mask ≠ 0 →
      (pq.join ≠ some va →
        ∃ w' : Warp, s.seqAct k pid q = s1.putWarp k w' ∧ Claim.merged w w' pid r pr (r.parked ||| p.mask) va ∧
          w'.recAt pr = some pq ∧ Claim.sameRegs w w' ∧ w'.exited = w.exited) ∧
      (pq.join = some va → 2 ≤ pq.members →
        ∃ w' : Warp, s.seqAct k pid q = s1.settleWarp k w' ∧ w'.splitAt pid = none ∧ w'.recAt p.rcd = none ∧
          (∀ j, j ≠ pid → w'.splitAt j = w.splitAt j) ∧ Claim.sameRegs w w' ∧
          w'.recAt pr = some { pq with members := pq.members - 1, parked := pq.parked ||| (r.parked ||| p.mask) }))

/-- R45, R46, R140: an IF that some of a split's threads take and some do not makes a record that joins at the header
`reconv` names, below the split's own, with two members: the taken threads at the target and the others past the word.
Without room on the stack it raises DIVSTACK (cause 0x04). -/
def Obligations.DivergenceMakesTwoSplits : Prop :=
  ∀ (s s1 s2 s3 : State) (k pid : Nat) (i : Pred) (t : BitVec 13) (w : Warp) (p : Split) (jhw thw nhw : Word128),
    s.warpAt k = some w → w.splitAt pid = some p → p.stop = none → w.stacked = [] → w.splits.length < 4 →
    Claim.seqSound w p.mask (.ifT i t) →
    let R : BitVec 20 := p.hw.extractLsb' 22 20
    let join : Word := p.hdr + 16 * R.signExtend 64
    let tgt : Word := p.hdr + 16 * t.signExtend 64
    let past : Word := p.hdr + 16 * BitVec.ofNat 64 (p.idx + 1)
    let taken : Mask := Mask.ofPred (fun u => p.mask.has u && (match i with | .p j => w.pGet j u | .q j => w.qGet j))
    taken ≠ 0 → taken ≠ p.mask → R ≠ 0 →
    s.fetchHeader (keyCore k) join false = (s1, .ok jhw) → Claim.admits s w jhw →
    (w.slim < w.depth + 1 →
      s.seqAct k pid (.ifT i t) = s1.takeTrap k pid { cause := 0x04, mask := p.mask, addr := 0 }) ∧
    (w.depth + 1 ≤ w.slim → s1.fetchHeader (keyCore k) tgt false = (s2, .ok thw) → Claim.admits s w thw →
      s2.fetchHeader (keyCore k) past false = (s3, .ok nhw) → Claim.admits s w nhw → join ≠ tgt → join ≠ past →
      ∃ (w' : Warp) (n : RRec) (f : Split), s.seqAct k pid (.ifT i t) = s3.putWarp k w' ∧ Claim.sameRegs w w' ∧
        w'.exited = w.exited ∧
        n ∈ w'.recs ∧ n.join = some join ∧ n.parent = some p.rcd ∧ n.members = 2 ∧ n.parked = 0 ∧
        w'.splitAt pid = some { p with mask := taken, hdr := tgt, hw := thw, idx := 1, rcd := n.id } ∧
        f ∈ w'.splits ∧ f.mask = p.mask &&& ~~~ taken ∧ f.hdr = past ∧ f.hw = nhw ∧ f.idx = 1 ∧ f.rcd = n.id ∧
        f.calls = p.calls)

/-- R142: CALL of a valid function header pushes an entry with the address past the word and `$sp`, lowers `$sp` by the
function's frame, and enters the header; without room on the divergence stack it raises DIVSTACK (cause 0x04), and where the
frame does not fit in the warp's stack region STACK (0x05), with the address the frame would begin at. A header that is no
function raises SEQUENCE (0x03). RET takes the split's newest entry and restores both. That the target's header is looked at
before the stack is the model's reading (log entry 59), and that the SEQUENCE trap of a RET without an entry names the RET word
its choice (log entry 105). -/
def Obligations.CallsAndReturns : Prop :=
  ∀ (s s1 : State) (k pid : Nat) (w : Warp) (p : Split) (hw : Word128),
    s.warpAt k = some w → w.splitAt pid = some p → p.stop = none → w.stacked = [] →
    let past : Word := p.hdr + 16 * BitVec.ofNat 64 (p.idx + 1)
    (∀ (q : Seq) (va : Word), (∃ t, q = .call t ∧ va = p.hdr + 16 * t.signExtend 64) ∨ (∃ i, q = .callInd i ∧ va = w.wGet i) →
      Claim.seqSound w p.mask q →
      s.fetchHeader (keyCore k) va false = (s1, .ok hw) → Claim.admits s w hw →
      let size := 16 * ((hw.extractLsb' 96 16 : BitVec 16)).toNat
      (hw.getLsbD 10 = false → s.seqAct k pid q = s1.takeTrap k pid { cause := 0x03, mask := p.mask, addr := va }) ∧
      (hw.getLsbD 10 = true →
        (w.slim < w.depth + 1 → s.seqAct k pid q = s1.takeTrap k pid { cause := 0x04, mask := p.mask, addr := 0 }) ∧
        (w.depth + 1 ≤ w.slim → w.sp.toNat < s.stackLo k + size →
          s.seqAct k pid q = s1.takeTrap k pid { cause := 0x05, mask := p.mask, addr := w.sp - BitVec.ofNat 64 size }) ∧
        (w.depth + 1 ≤ w.slim → s.stackLo k + size ≤ w.sp.toNat → (∀ r, w.recAt p.rcd = some r → r.join ≠ some va) →
          ∃ (w' : Warp) (e : CallE), s.seqAct k pid q = s1.putWarp k w' ∧ Claim.sameRegs w w' ∧
            w'.sp = w.sp - BitVec.ofNat 64 size ∧ e ∈ w'.calls ∧ e.ret = past ∧ e.sp = w.sp ∧ e.rcd = p.rcd ∧
            w'.splitAt pid = some { p with hdr := va, hw := hw, idx := 1, calls := e.id :: p.calls }))) ∧
    (∀ (e : CallE) (rest : List Nat), p.calls = e.id :: rest → w.calls.find? (fun y => y.id = e.id) = some e →
      w.below (w.recs.length + 1) p.rcd e.rcd = false → s.fetchHeader (keyCore k) e.ret false = (s1, .ok hw) →
      Claim.admits s w hw → (∀ r, w.recAt p.rcd = some r → r.join ≠ some e.ret) →
      ∃ w' : Warp, s.seqAct k pid .ret = s1.putWarp k w' ∧ Claim.sameRegs w w' ∧ w'.sp = e.sp ∧
        w'.splitAt pid = some { p with hdr := e.ret, hw := hw, idx := 1, calls := rest }) ∧
    (p.calls = [] → s.seqAct k pid .ret = s.takeTrap k pid { cause := 0x03, mask := p.mask, addr := p.pc })

/-- R43, R45: END takes a split's threads out of the warp. The last member of a record to end merges what the others have
parked there; with its last split the warp is gone. -/
def Claim.EndRetiresTheSplit : Prop :=
  ∀ (s : State) (k pid : Nat) (w : Warp) (p : Split) (r : RRec),
    s.warpAt k = some w → w.splitAt pid = some p → p.stop = none → w.stacked = [] → w.recAt p.rcd = some r →
    (2 ≤ r.members →
      ∃ w' : Warp, s.seqAct k pid .fin = s.settleWarp k w' ∧ w'.splitAt pid = none ∧
        (∀ j, j ≠ pid → w'.splitAt j = w.splitAt j) ∧ w'.exited = w.exited ||| p.mask ∧ Claim.sameRegs w w' ∧
        w'.recAt p.rcd = some { r with members := r.members - 1 }) ∧
    (∀ pr pq j, r.members = 1 → r.parent = some pr → pr ≠ p.rcd → w.recAt pr = some pq → r.parked ≠ 0 → r.join = some j →
      pq.join ≠ some j →
      ∃ w' : Warp, s.seqAct k pid .fin = s.putWarp k w' ∧ Claim.merged w w' pid r pr r.parked j ∧
        w'.exited = w.exited ||| p.mask ∧ Claim.sameRegs w w') ∧
    (r.members ≤ 1 → r.parent = none → (s.seqAct k pid .fin).warpAt k = none)

/-- R43, R45: a split that reaches its join parks there, the last to arrive rejoins what waits; END retires its threads. -/
def Obligations.SplitsRejoinOrEnd : Prop :=
  Claim.SplitsParkAndMergeAtTheirJoin ∧ Claim.EndRetiresTheSplit

/-! ## Traps and the words of class 111 -/

/-- The bytes of a trap frame (Table 20.2): `tpc`, `taddr`, `tmask`, `smask`, the cause, the code and `tsp`. -/
def Claim.frameByte (tpc taddr tsp : Word) (tmask smask : Mask) (cause : Nat) (code : BitVec 16) (i : Nat) : Byte :=
  if i < 8 then tpc.extractLsb' (8 * i) 8
  else if i < 16 then taddr.extractLsb' (8 * (i - 8)) 8
  else if i < 20 then tmask.extractLsb' (8 * (i - 16)) 8
  else if i < 24 then smask.extractLsb' (8 * (i - 20)) 8
  else if i = 24 then BitVec.ofNat 8 cause
  else if i < 28 then 0
  else if i < 30 then code.extractLsb' (8 * (i - 28)) 8
  else if i < 32 then 0
  else if i < 40 then tsp.extractLsb' (8 * (i - 32)) 8
  else 0

/-- R298, R299, R301, Table 10.14: taking a trap outside handler mode, with a valid trap header at `ctl.tvec` and room for the
frame. The frame is stored below `$sp`, the split continues at the handler's first word in handler mode, the warp's other
splits are held, `$fault` reads the word's address (the failing address for SEQUENCE), the split's open transactions abort
with code 5, and every other register stays. In handler mode, and with no handler (`ctl.tvec` 0), the trap is not taken: a
NESTED record (cause 0x24) is posted, the split stops, and none of the warp's splits is ready. -/
def Obligations.TrapsSaveTheFrameAndEnterTheHandler : Prop :=
  ∀ (s : State) (k pid : Nat) (tr : Trap) (w : Warp) (p : Split), s.warpAt k = some w → w.splitAt pid = some p →
    (w.handler = none → s.ctl.tvec ≠ 0 → s.stackLo k + 64 ≤ w.sp.toNat → w.sp.toNat ≤ s.stackHi k →
      ∀ s1 hw s2 keys, s.fetchHeader (keyCore k) s.ctl.tvec true = (s1, .ok hw) →
      s1.translateRun (keyCore k) .write (w.sp - 64) 64 = (s2, .ok keys) →
      ∃ w' : Warp, (s.takeTrap k pid tr).warpAt k = some w' ∧ w'.sp = w.sp - 64 ∧ w'.handler = some pid ∧
        w'.fault = (if tr.cause = 0x03 then tr.addr else p.pc) ∧
        w'.splitAt pid = some { p with hdr := s1.ctl.tvec, hw := hw, idx := 1, stop := none } ∧
        (∀ j, j ≠ pid → w'.splitAt j = w.splitAt j) ∧ w'.d = w.d ∧ w'.p = w.p ∧ w'.w = w.w ∧ w'.q = w.q ∧
        w'.n = w.n ∧ w'.m = w.m ∧ w'.status = w.status ∧ w'.rnd = w.rnd ∧ w'.exited = w.exited ∧ w'.slim = w.slim ∧
        w'.restart = w.restart ∧ (∀ q, q ∈ w'.splits → q.id ≠ pid → q.id ∈ w'.held) ∧ pid ∉ w'.held ∧
        (∀ t y, p.mask.has t = true → w.openTxn t = some y → y.code = 0 →
          w'.openTxn t = some { y with code := 5, wset := [], rset := [] }) ∧
        (s.takeTrap k pid tr).mem = s2.mem ∧
        (∀ i, i < 64 → (∀ j, i < j → j < 64 → keys.getD j 0 ≠ keys.getD i 0) →
          Sparse.get none ((s.takeTrap k pid tr).coreAt (keyCore k)).dirty (keys.getD i 0) =
            some (Claim.frameByte p.pc tr.addr w.sp tr.mask p.mask tr.cause tr.code i))) ∧
    (w.handler.isSome = true ∨ s.ctl.tvec = 0 →
      ∃ w' x, (s.takeTrap k pid tr).warpAt k = some w' ∧ w'.sp = w.sp ∧ w'.handler = w.handler ∧ w'.d = w.d ∧
        w'.splitAt pid = some { p with stop := some .nested } ∧
        (∀ q ∈ w'.splits, (s.takeTrap k pid tr).ready (keyCore k) w' q = false) ∧
        (s.takeTrap k pid tr).sys.posts = s.sys.posts ++ [x] ∧ x.r.fcause = 0x24 ∧ x.r.fpc = p.pc ∧
        x.owner = .split k pid)

/-- R298, R317, R325: ILL raises ILLEGAL (cause 0x02) for its split whatever its guards; TRAP, SYSC and BRK raise their
causes (0x10, 0x11, 0x12) for their active threads with their code. -/
def Claim.TrapWordsRaiseTheirCause : Prop :=
  (∀ (s : State) (c : WCtx) (w : Warp) (p : Split), s.context = some (c, w, p) →
    exec .ill s = .next (s.takeTrap c.key p.id { cause := 0x02, mask := p.mask, addr := 0 })) ∧
  (∀ (s : State) (c : WCtx) (w : Warp) (p : Split) (x : Ctl) (code : BitVec 16) (o : Slots) (ports : List (Port × Word))
    (pv : Pops),
    Ready s c w p x o [] ports pv →
    let s0 := s.putWarp c.key { w with ports := ports }
    let T := activeMask w p x
    exec (.trap x code o) s = .next (s0.takeTrap c.key p.id { cause := 0x10, mask := T, addr := 0, code := code }) ∧
    exec (.sysc x code o) s = .next (s0.takeTrap c.key p.id { cause := 0x11, mask := T, addr := 0, code := code }) ∧
    exec (.brk x code o) s = .next (s0.takeTrap c.key p.id { cause := 0x12, mask := T, addr := 0, code := code }))

/-- R300, R318: outside handler mode RFT raises PRIVILEGE (cause 0x0D). In handler mode it reads the frame at `$sp`, leaves
handler mode, restores `$sp` from `tsp`, lets the held splits go on, and sends the split on: `.retry` to the word that
trapped, `.next` through that word's sequencing field, `.to` to the header at A. The act of `.next` comes before handler mode is
left, so that a trap of it is NESTED and leaves it; where its fetch faults the whole RFT is replayed. A `tpc` within the block
that trapped names its word there. Which word another `tpc` names is the model's reading (log entry 85). -/
def Obligations.ReturnFromTrapRestores : Prop :=
  ∀ (s : State) (c : WCtx) (w : Warp) (p : Split) (x : Ctl) (o : Slots), s.context = some (c, w, p) →
    (∀ op, w.handler = none →
      exec (.rft x op o) s = .next (s.takeTrap c.key p.id { cause := 0x0D, mask := p.mask, addr := 0 })) ∧
    (w.handler.isSome = true → uceMask w [o.a] p.mask = 0 →
      ∀ s1 bs, s.loadG c.key .normal w.sp 64 = (s1, .ok bs) →
      let tpc := BitVec.ofNat 64 (leNat (bs.take 8))
      let smask : Mask := BitVec.ofNat 32 (leNat ((bs.drop 20).take 4))
      let tsp := BitVec.ofNat 64 (leNat ((bs.drop 32).take 8))
      (∀ s2 back, s1.placeAt (keyCore c.key) w { p with mask := smask } tpc = (s2, .ok back) →
        back.pc = tpc ∧ back.mask = smask ∧ back.rcd = p.rcd ∧ back.calls = p.calls ∧ back.id = p.id ∧
        (∀ i, 1 ≤ i → i ≤ ((w.trapBlk.2.extractLsb' 54 6 : BitVec 6)).toNat → tpc = w.trapBlk.1 + BitVec.ofNat 64 (16 * i) →
          back.hdr = w.trapBlk.1 ∧ back.hw = w.trapBlk.2 ∧ back.idx = i ∧ s2 = s1) ∧
        (∃ w' : Warp, exec (.rft x .retry o) s = .next (s2.putWarp c.key w') ∧
          w' = { w with sp := tsp, handler := none, held := [], splits := w'.splits } ∧
          w'.splitAt p.id = some { back with stop := none }) ∧
        (∀ s3 slot, s2.fetchSlot (keyCore c.key) back.hdr back.idx = (s3, .ok slot) →
          ∃ w' : Warp, w' = { w with sp := tsp, splits := w'.splits } ∧ w'.splitAt p.id = some { back with stop := none } ∧
            let t := (s3.putWarp c.key w').seqAct c.key p.id (seqOfBits slot)
            let out := exec (.rft x .next o) s
            (t.warpAt c.key = none → out = .next t) ∧
            (∀ v, t.warpAt c.key = some v →
              ((v.splitAt p.id).bind (·.stop) = some .nested → out = .next t) ∧
              (∀ u y, (v.splitAt p.id).bind (·.stop) = some (.refetch u y) → out = .next (t.putWarp c.key
                (w.putSplit { p with stop := some (.replay u { i := .rft x .next o, T := p.mask, ops := {} }) }))) ∧
              ((v.splitAt p.id).bind (·.stop) ≠ some .nested → (∀ u y, (v.splitAt p.id).bind (·.stop) ≠ some (.refetch u y)) →
                out = .next (t.putWarp c.key { v with handler := none, held := [] }))))) ∧
      (∀ s2 hw, let a := readSrc c w .bits 0 0 o.a 0
        s1.fetchHeader (keyCore c.key) a false = (s2, .ok hw) → Claim.admits s1 w hw →
        (∀ r, w.recAt p.rcd = some r → r.join ≠ some a) → w.stacked = [] →
        ∃ w' : Warp, exec (.rft x .to o) s = .next (s2.putWarp c.key w') ∧ w'.sp = tsp ∧ w'.handler = none ∧ w'.held = [] ∧
          w'.splitAt p.id = some { p with mask := smask, hdr := a, hw := hw, idx := 1, stop := none } ∧
          w'.d = w.d ∧ w'.w = w.w ∧ w'.exited = w.exited))

/-- The value an SRD of a control register reads (Table 10.11; Table 8.3 for the entry that `rcsel` names). -/
def Claim.ctlValue (r : Regs) (sel : CtlReg) : Word :=
  match sel with
  | .tvec => r.tvec | .ptroot => r.ptroot | .stkbase => r.stkbase | .stksize => r.stksize
  | .restorewait => r.restorewait | .ilbase => r.ilbase | .ilsize => r.ilsize
  | .rclass =>
    let i := r.rcsel.toNat % 8
    let e := r.rclass.getD i RClass.reset
    BitVec.ofNat 64 (e.age.toNat + 2 ^ 6 * e.wpol.toNat + 2 ^ 8 * e.ways.toNat + 2 ^ 61 * i)
  | .rcsel => r.rcsel | .repways => r.repways | .fepoch => r.fepoch | .fmin => r.fmin | .fpool => r.fpool
  | .ringrate => r.ringrate | .dwell => r.dwell

/-- R154, R155, R300, R319, R323: SRD reads a control register and SWR stores one, A receiving 0, or 1 where the value is
refused and nothing changes; outside handler mode both raise PRIVILEGE (cause 0x0D). PERF reads a counter in either mode. -/
def Obligations.ControlRegisterWordsNeedHandlerMode : Prop :=
  ∀ (s : State) (c : WCtx) (w : Warp) (p : Split) (x : Ctl) (sel : CtlReg) (o : Slots) (ports : List (Port × Word))
    (pv : Pops),
    let T := activeMask w p x
    let s0 := s.putWarp c.key { w with ports := ports }
    let priv : Trap := { cause := 0x0D, mask := T, addr := 0 }
    (Ready s c w p x o [] ports pv →
      (w.handler = none → exec (.srd x sel o) s = .next (s0.takeTrap c.key p.id priv)) ∧
      (w.handler.isSome = true → let val (_ : Nat) : Word := Claim.ctlValue s.ctl sel
        dstOk c w T o.a val → ∃ w' : Warp, exec (.srd x sel o) s = .next ((s.putWarp c.key w').seqAct c.key p.id x.seq) ∧
          w'.ports = ports ∧ RegEffect w w' o.a T val (fun _ => 0) w.rndOf)) ∧
    (Ready s c w p x o [o.b] ports pv →
      (w.handler = none → exec (.swr x sel o) s = .next (s0.takeTrap c.key p.id priv)) ∧
      (w.handler.isSome = true → (∃ i, o.a = .d i) ∨ (∃ i, o.a = .w i) →
        let v := (readOps c w {} o pv).gb (T.lowest.getD 0)
        let ok := ctlOk sel v (s0.othersResident w.blk)
        ∃ w' : Warp,
          let s1 := if ok then s0.ctlStore sel v else s0
          exec (.swr x sel o) s = .next ((s1.putWarp c.key w').seqAct c.key p.id x.seq) ∧
          Holds w' o.a T (fun _ => if ok then 0 else 1) ∧ Kept w w' [o.a] T ∧
          (ok = false → s1.ctl = s.ctl) ∧
          (ok = true → sel ≠ .rclass → sel ≠ .ringrate → Claim.ctlValue s1.ctl sel = v)) ∧
      (∀ slice, let i := ((readOps c w {} o pv).gb (T.lowest.getD 0)).toNat % 8
        let key := (if slice then 2000 else 0) + 8 * keyCore c.key + i
        let val (_ : Nat) : Word := (s.counterValue key).setWidth 64
        dstOk c w T o.a val → ∃ w' : Warp, exec (.perf x slice o) s = .next ((s.putWarp c.key w').seqAct c.key p.id x.seq) ∧
          w'.ports = ports ∧ RegEffect w w' o.a T val (fun _ => 0) w.rndOf))

/-- R312, R320, R324, R325: RSTL 0 clears `$restart` and RSTL of a valid header with `rstok` sets it, one without it raises
SEQUENCE (cause 0x03). HALT stops every warp of its block and posts a HALT record (cause 0x25) with its code. NOP only
sequences. -/
def Claim.RestartHaltAndNop : Prop :=
  ∀ (s : State) (c : WCtx) (w : Warp) (p : Split) (x : Ctl) (o : Slots),
    (s.context = some (c, w, p) → uceMask w [o.a] p.mask = 0 →
      let a := readSrc c w .bits 0 0 o.a 0
      (a = 0 → exec (.rstl x o) s = .next ((s.putWarp c.key { w with restart := 0 }).seqAct c.key p.id x.seq)) ∧
      (a ≠ 0 → ∀ s1 hw, s.fetchHeader (keyCore c.key) a false = (s1, .ok hw) → Claim.admits s w hw →
        (hw.getLsbD 12 = true →
          exec (.rstl x o) s = .next ((s1.putWarp c.key { w with restart := a }).seqAct c.key p.id x.seq)) ∧
        (hw.getLsbD 12 = false →
          exec (.rstl x o) s = .next (s1.takeTrap c.key p.id { cause := 0x03, mask := p.mask, addr := a })))) ∧
    (∀ (ports : List (Port × Word)) (pv : Pops), Ready s c w p x o [] ports pv →
      (exec (.nop x o) s = .next ((s.putWarp c.key { w with ports := ports }).seqAct c.key p.id x.seq)) ∧
      (∀ (code : BitVec 16) (b : Block), s.blockAt w.blk = some b →
        ∃ (t : State) (f : FPost) (w' : Warp) (q : Split), exec (.halt x code o) s = .next t ∧
          t.blockAt w.blk = some { b with halted := true } ∧ t.sys.posts = s.sys.posts ++ [f] ∧
          f.r.fcause = 0x25 ∧ f.r.fdet = code.toNat ∧ f.r.fpc = p.pc ∧ t.mem = s.mem ∧ t.cores = s.cores ∧
          t.warpAt c.key = some w' ∧ w'.splitAt p.id = some q ∧ q.stop.isSome = true ∧
          w' = { w with ports := ports, splits := w'.splits }))

/-- R298, R312, R317, R320, R324, R325: the words that raise their cause, RSTL, HALT and NOP. -/
def Obligations.TrapHaltAndRestartWords : Prop :=
  Claim.TrapWordsRaiseTheirCause ∧ Claim.RestartHaltAndNop

/-! ## Engine words -/

/-- A word's threads in ascending order, one for each distinct tuple of operands (R266). -/
def Claim.firsts (T : Mask) (v : Opnds) : List Nat :=
  T.threads.filter (fun t => (List.range t).all (fun u => !(T.has u && v.same t u)))

/-- The push of one thread's command by a split's word. -/
def Claim.pushOf (s : State) (pl : PushPlan) (i : Instr) (k pid : Nat) (v : Opnds) (t : Nat) : State :=
  s.pushOne pl i { s.newCmd k pid pl.port 0 false none none (.aclr false) with hint := hintOf i } v t

/-- The pushes of threads in order, each of which finds room where it needs some. -/
def Claim.pushedAll (pl : PushPlan) (i : Instr) (k pid : Nat) (v : Opnds) : State → List Nat → State → Prop
  | s, [], s' => s' = s
  | s, t :: ts, s' => (pl.roomy s (s.blkOf k) = true → s.roomIn (keyCore k) pl.port 1 = true) ∧
      Claim.pushedAll pl i k pid v (Claim.pushOf s pl i k pid v t) ts s'

/-- A word that pushes commands: once for the warp, or once for each distinct tuple of operands, and then sequences; where
its first push finds no room it stops with nothing pushed. -/
def Claim.pushes (i : Instr) (x : Ctl) (o : Slots) (srcs : List Spec) (pl : PushPlan) : Prop :=
  ∀ (s s' : State) (c : WCtx) (w : Warp) (p : Split) (ports : List (Port × Word)) (pv : Pops),
    Ready s c w p x o srcs ports pv →
    let T := activeMask w p x
    let v := readOps c w {} o pv
    let s0 := s.putWarp c.key { w with ports := ports }
    let ts := if pl.once then T.threads.take 1 else Claim.firsts T v
    Claim.noTxn w T →
    (Claim.pushedAll pl i c.key p.id v s0 ts s' → exec i s = .next (s'.seqAct c.key p.id x.seq)) ∧
    (pl.roomy s0 w.blk = true → s0.roomIn (keyCore c.key) pl.port 1 = false →
      ∃ pend, exec i s = .next (s0.putWarp c.key ({ w with ports := ports }.putSplit { p with stop := some (.push pend) })) ∧
        pend.prog = 0 ∧ pend.T = T ∧ pend.ops = v)

/-- A push appends one command, not yet started, of a warp's split to a queue of its core. -/
def Claim.appends (s s' : State) (port : Port) (op k pid : Nat) (isRec : Bool) : Prop :=
  ∃ c, s'.cmds = s.cmds ++ [c] ∧ c.id = s.nextUid ∧ c.op = op ∧ c.port = port ∧ c.core = keyCore k ∧ c.warp = k ∧
    c.split = pid ∧ c.rcd = isRec ∧ c.started = false

/-- R270, R304: a push whose record or count word is damaged takes its place in the queue all the same, and waits there
for the reply to the fault record it posts. -/
def Claim.waitsForItsRecord : Prop :=
  ∀ (s : State) (pl : PushPlan) (i : Instr) (k pid t : Nat) (v : Opnds) (a : Word),
    s.cmdAt s.nextUid = none →
    let c0 : Cmd := { s.newCmd k pid pl.port 0 false none none (.aclr false) with hint := hintOf i }
    s.badRead c0.blk (pl.reads s c0.blk v t) = some a →
    let s' := Claim.pushOf s pl i k pid v t
    ∃ (c : Cmd) (r : FRec), s'.cmds = s.cmds ++ [c] ∧ c.id = s.nextUid ∧ c.k = .unread i v t (pl.cmd s c0 v t).k false ∧
      c.status = (pl.cmd s c0 v t).status ∧ c.fault = some (s.nextUid + 1) ∧
      r.fcause = causeUCE ∧ r.faddr = a ∧ r.fcore = (pl.cmd s c0 v t).core ∧
      s'.sys.posts = s.sys.posts ++ [{
        id := s.nextUid + 1, r := r, owner := .cmd s.nextUid, launch := (s.blockAt (pl.cmd s c0 v t).blk).map (·.launch),
        seq := none }]

/-- R250, R265, R266, R336, Tables 16.7 and 18.1: the engine words push their commands to their queues under the codes
of the completion records. A matrix or epilogue word does so in a block that holds the engine. A BOARD may be registered at once.
R270, R304: a command whose record or count word is damaged waits in its queue for the reply to its record. -/
def Obligations.EngineWordsPushTheirCommands : Prop :=
  ((∀ x m o, Claim.pushes (.cpy x m o) x o [o.a, o.b, o.c, o.d] (planCpy m o)) ∧
    (∀ x m o, Claim.pushes (.cpyt x m o) x o [o.a, o.b, o.c, o.d, o.e] (planCpyt m o)) ∧
    (∀ x m o, Claim.pushes (.cpym x m o) x o [o.a, o.b, o.c, o.d, o.e] (planCpym m o)) ∧
    (∀ x m o, Claim.pushes (.cpyg x m o) x o [o.a, o.b, o.c, o.d, o.e] (planCpyg m o)) ∧
    (∀ x m o, Claim.pushes (.gth x m o) x o [o.a, o.b, o.c, o.d] (planGather false m o)) ∧
    (∀ x m o, Claim.pushes (.sct x m o) x o [o.a, o.b, o.c, o.d] (planGather true m o)) ∧
    (∀ x m o, Claim.pushes (.wld x m o) x o [o.a, o.b, o.c, o.d] (planWld m o)) ∧
    (∀ x m o, Claim.pushes (.mma x m o) x o [o.a, o.b, o.c, o.d] (planMul false m o)) ∧
    (∀ x m o, Claim.pushes (.mms x m o) x o ([o.a, o.b, o.c, o.d] ++ (List.finRange 8).map Spec.m) (planMul true m o)) ∧
    (∀ x m o, Claim.pushes (.aclr x m o) x o [] (planAclr m)) ∧
    (∀ x m o, Claim.pushes (.epi x m o) x o [o.a, o.b, o.c, o.d] (planEpi m o)) ∧
    (∀ x m o, Claim.pushes (.board x m o) x o [o.a, o.b, o.c, o.d, o.e] (planBoard m o)) ∧
    (∀ x m o, Claim.pushes (.relabel x m o) x o [o.a, o.b, o.c, o.d, o.e] (planRelabel m o)) ∧
    (∀ x op r o, Claim.pushes (.fsnap x op r o) x o [o.a, o.b] (planForest 0x11 r o (.fsnap (SnapOp.num op)))) ∧
    (∀ x r o, Claim.pushes (.fundo x r o) x o [o.a, o.b] (planForest 0x12 r o .fundo))) ∧
  (∀ (s : State) (i : Instr) (k pid t : Nat) (v : Opnds) (o : Slots), s.badS = [] →
    let push (pl : PushPlan) : State := Claim.pushOf s pl i k pid v t
    (∀ m, Claim.appends s (push (planCpy m o)) .cp 0x00 k pid m.rcd) ∧
    (∀ m, Claim.appends s (push (planCpyt m o)) .cp 0x01 k pid m.rcd) ∧
    (∀ m, Claim.appends s (push (planCpym m o)) .cp 0x03 k pid m.rcd) ∧
    (∀ m, Claim.appends s (push (planCpyg m o)) .ga 0x02 k pid m.rcd) ∧
    (∀ m, Claim.appends s (push (planGather false m o)) .ga 0x0C k pid m.rcd) ∧
    (∀ m, Claim.appends s (push (planGather true m o)) .ga 0x0D k pid m.rcd) ∧
    (∀ m, Claim.appends s (push (planRelabel m o)) .cj 0x10 k pid m.rcd) ∧
    (∀ r kd, Claim.appends s (push (planForest 0x11 r o kd)) .cj 0x11 k pid r) ∧
    (∀ r kd, Claim.appends s (push (planForest 0x12 r o kd)) .cj 0x12 k pid r) ∧
    (∀ m, s.cmdAt s.nextUid = none → ∃ pre c b, (push (planBoard m o)).cmds = pre ++ [c] ∧ pre.map (·.id) = s.cmds.map (·.id) ∧
      c.id = s.nextUid ∧ c.op = 0x05 ∧ c.port = .bd ∧ c.core = keyCore k ∧ c.warp = k ∧ c.split = pid ∧ c.rcd = m.rcd ∧
      c.k = .board b ∧ b.bank = (if m.bank then 1 else 0) ∧ b.slot = m.slot.val ∧ b.layer = (v.ga t).toNat ∧
      b.f = (v.gb t).toNat) ∧
    (s.holdsEngine (s.blkOf k) = true →
      (∀ m, Claim.appends s (push (planWld m o)) .mx 0x04 k pid m.rcd) ∧
      (∀ m, Claim.appends s (push (planMul false m o)) .mx 0x06 k pid m.rcd) ∧
      (∀ m, Claim.appends s (push (planMul true m o)) .mx 0x08 k pid m.rcd) ∧
      (∀ m, Claim.appends s (push (planAclr m)) .mx 0x09 k pid false) ∧
      (∀ m, Claim.appends s (push (planEpi m o)) .ep 0x0A k pid m.rcd))) ∧
  Claim.waitsForItsRecord

/-- A lane's part joins a collector command of its group at the core's matrix engine. A command that is then complete leaves
the collector for the matrix queue with all its parts, where the queue has room (R246, R247). -/
def Claim.joins (s t : State) (blk core grp : Nat) (part : Part) (lead : Option Cmd) : Prop :=
  let forms := joinForms blk grp part lead (s.coreAt core).matrix.forms
  (∃ f ∈ forms, f.blk = blk ∧ f.grp = grp ∧ part ∈ f.parts ∧ (lead.isSome = true → f.op = lead ∧ f.c = part.c)) ∧
  (forms.find? Form.complete = none → (t.coreAt core).matrix.forms = forms ∧ t.cmds = s.cmds) ∧
  (∀ f c0, forms.find? Form.complete = some f → f.op = some c0 →
    (s.roomIn core .mx 1 = false → (t.coreAt core).matrix.forms = forms ∧ t.cmds = s.cmds) ∧
    (s.roomIn core .mx 1 = true → s.holdsEngine c0.blk = true → (t.coreAt core).matrix.forms = forms.erase f ∧
      ∃ y, t.cmds = s.cmds ++ [y] ∧ y.blk = c0.blk ∧ y.g = c0.g ∧ y.op = c0.op ∧ y.rcd = c0.rcd ∧
        ∀ fmt n sc ps, c0.k = .mmr fmt n sc ps → y.k = .mmr fmt n sc f.parts))

/-- R282, R336, R246, R247, R322: QFENCE notes the warp's commands in the queues it names. UNITE, FIND and FSIZE push one
operation for each active thread, together, and wait for their results. MMR of a lane below the count joins the collector of
the core's matrix engine and waits; of a lane beyond it, it only sequences; of no lane at all, it is a no-op. LAUNCH releases at package scope, submits its record and waits. -/
def Obligations.FenceConjunctionCollectorAndLaunchWords : Prop :=
  ∀ (s : State) (c : WCtx) (w : Warp) (p : Split) (x : Ctl) (o : Slots) (ports : List (Port × Word)) (pv : Pops),
    let T := activeMask w p x
    let v := readOps c w {} o pv
    let w0 := { w with ports := ports }
    let s0 := s.putWarp c.key w0
    Claim.noTxn w T →
    (∀ qset, Ready s c w p x o [] ports pv →
      let mine := (s.cmds.filter (fun y => y.warp = c.key && qset.getLsbD (fenceBit y.port))).map (·.id)
      let old := w.fences.filter (fun f => f.before.any (fun i => (s.cmdAt i).isSome))
      exec (.qfence x qset o) s = .next ((s0.putWarp c.key
        { w0 with fences := if mine = [] then old else old ++ [{ qset := qset, before := mine }] }).seqAct c.key p.id x.seq)) ∧
    (∀ (nc : Bool) (op : Nat) (i : Instr) (srcs : List Spec),
      (i = .unite x nc o ∧ op = 0 ∧ srcs = [o.b, o.c, o.d]) ∨ (i = .find x nc o ∧ op = 1 ∧ srcs = [o.b, o.c]) ∨
        (i = .fsize x nc o ∧ op = 2 ∧ srcs = [o.b, o.c]) →
      Ready s c w p x o srcs ports pv →
      (s.roomIn (keyCore c.key) .cj T.threads.length = true →
        ∃ (t : State) (cs : List Cmd) (pend : Pend), exec i s = .next t ∧ t.cmds = s.cmds ++ cs ∧
          cs.map (·.k) = T.threads.map (fun u => CmdK.conjOp op nc u (v.gb u) (v.gc u) (v.gd u)) ∧
          (∀ y ∈ cs, y.port = .cj ∧ y.warp = c.key ∧ y.split = p.id) ∧
          t.warpAt c.key = some (w0.putSplit { p with stop := some (.conj pend) }) ∧ pend.prog = 1) ∧
      (s.roomIn (keyCore c.key) .cj T.threads.length = false →
        ∃ pend, exec i s = .next (s0.putWarp c.key (w0.putSplit { p with stop := some (.conj pend) })) ∧ pend.prog = 0)) ∧
    (∀ m, Ready s c w p x o [o.a, o.b, o.c, o.d] ports pv →
      s.holdsEngine w.blk = true → (m.cw = true → s.badS = []) →
      let n := (s.countOf w.blk m.cw true (v.gb (T.lowest.getD 0))).getD 65
      (n ≤ 64 → n ≤ keyLane c.key → keyLane c.key ≠ 0 →
        exec (.mmr x m o) s = .next (s0.seqAct c.key p.id x.seq)) ∧
      (n = 0 → keyLane c.key = 0 → ∃ y : Cmd, y.op = 0x07 ∧ y.warp = c.key ∧ y.rcd = m.rcd ∧
        exec (.mmr x m o) s = .next (((s0.pushCmd y).endCmd { y with id := s.nextUid } cNOOP 0 true).seqAct c.key p.id x.seq)) ∧
      (n ≤ 64 → keyLane c.key < n →
        ∃ (t : State) (lead : Option Cmd), exec (.mmr x m o) s = .next t ∧
          (∃ w' q pend, t.warpAt c.key = some w' ∧ w'.splitAt p.id = some q ∧ q.stop = some (.mmr pend) ∧ pend.T = T ∧
            w'.d = w.d) ∧
          Claim.joins s t w.blk (keyCore c.key) m.grp.val {
            lane := keyLane c.key, warp := c.key, split := p.id,
            reg := (match o.a with | .d i => i.val | _ => 0), mask := T, g := m.g.toNat, fmt := m.fmt.val, c := n, row := none } lead ∧
          (keyLane c.key ≠ 0 → lead = none) ∧
          (keyLane c.key = 0 → ∃ c0, lead = some c0 ∧ c0.op = 0x07 ∧ c0.rcd = m.rcd ∧ c0.blk = w.blk ∧ c0.g = m.g.toNat ∧
            c0.k = .mmr m.fmt.val n (v.gd (T.lowest.getD 0)).toNat []))) ∧
    (Ready s c w p x o [o.b] ports pv →
      ∃ (t : State) (u : Nat) (pend : Pend), exec (.launch x o) s = .next t ∧
        t.subs = s.subs ++ [{ id := u, addr := v.gb (T.lowest.getD 0), src := .word c.key p.id }] ∧
        t.warpAt c.key = some (w0.putSplit { p with stop := some (.launch u pend) }) ∧
        t.mem = (s0.release (keyCore c.key) (s0.launchOfWarp c.key) .package).mem)

/-- R53, R54: the weight of a SPAWN splits in two, the child's half rounded down. A thread of one unit keeps it and its child
is a tagged item; a child of a tagged thread is tagged with the other phase. -/
def Claim.WeightSplitsInTwo : Prop :=
  ∀ (h : Word) (cur : Nat),
    let y := splitWeight h cur
    (tagOf h = none → 1 < weightUnits h → tagOf y.1 = none ∧ tagOf y.2 = none ∧
      weightUnits y.1 = weightUnits h / 2 ∧ weightUnits y.1 + weightUnits y.2 = weightUnits h) ∧
    (tagOf h = none → weightUnits h = 1 → cur < 2 → tagOf y.1 = some cur ∧ y.2 = h) ∧
    (∀ g, tagOf h = some g → tagOf y.1 = some (1 - g) ∧ y.2 = h)

/-- Threads in ascending order put their items into a stage's queue: each finds room, splits its weight with its item, and
writes its slot by one synchronising write under the word's hint (R52, R53, R149, R321). That a slot holds its header first and
then the item's registers is the model's reading (log entry 54): no rule gives that order. -/
def Claim.queued (h : Hint) (k lid stage reg : Nat) : State → List Nat → State → Prop
  | s, [], s' => s' = s
  | s, t :: ts, s' => ∃ (l : Launch) (w : Warp) (g : Stage) (s2 : State) (keys : List Nat),
      s.launchAt lid = some l ∧ s.warpAt k = some w ∧ l.stages[stage]? = some g ∧ g.items.length < 2 ^ g.qlog ∧
      let y := splitWeight (w.weightOf t) l.term.cur
      (s.putWarp k (w.weightSet t y.2)).translateRun (keyCore k) .write (g.slotVa g.items.length) g.slotBytes = (s2, .ok keys) ∧
      let s3 := ((s2.touchHome (keyCore k) (g.slotVa g.items.length) h keys).syncWriteAt keys (leBytes 8 y.1.toNat ++
        (List.range (g.isize / 8)).flatMap (fun j => leBytes 8 (w.dGet (reg + j) t).toNat))).lastUse (keyCore k) h keys
      Claim.queued h k lid stage reg (s3.putLaunch lid { l with
        stages := l.stages.set stage ({ g with items := g.items ++ [(s3.time, y.1)] }).pack
        term := match tagOf y.1 with | some x => l.term.soil [x] | none => l.term }) ts s'

/-- R321: SPAWN outside a STAGED launch, of a stage the launch does not have, or of an item that runs past d63, raises NOSTAGE
(cause 0x0E). Where every item finds room and its slot translates, it ends, each of its items is queued, and with `.rec` its warp
receives the record of their number. R51: at a thread whose item finds the queue full the split stops, with the items before it
queued and its weight already split, and a launch that can then go on nowhere ends with STAGEDEAD. R53, R54: each item takes half
of its thread's weight. R250, R265: a split stopped on a push goes on as entries free. That a slot holds the header first and then
the item is the model's reading (log entry 54, unsafe). -/
def Obligations.SpawnQueuesItemsAndPushesGoOn : Prop :=
  (∀ (s : State) (c : WCtx) (w : Warp) (p : Split) (x : Ctl) (isRec : Bool) (o : Slots) (ports : List (Port × Word))
    (pv : Pops) (l : Launch) (b : Block) (reg : Fin 64) (srcs : List Spec),
    let T := activeMask w p x
    let v := readOps c w {} o pv
    let s0 := s.putWarp c.key { w with ports := ports }
    let stage := (v.ga (T.lowest.getD 0)).toNat
    o.b = .d reg → s.blockAt w.blk = some b → s.launchAt b.launch = some l →
    srcs = o.a :: (List.range (match l.stages[stage]? with | some g => g.isize / 8 | none => 1)).map
      (fun j => Spec.d (Fin.ofNat 64 (reg.val + j))) →
    Claim.noTxn w T →
    (Ready s c w p x o [o.a] ports pv →
      l.kind ≠ 2 ∨ l.stages.length ≤ stage ∨ (∃ g, l.stages[stage]? = some g ∧ 64 < reg.val + g.isize / 8) →
      exec (.spawn x isRec o) s = .next (s0.takeTrap c.key p.id { cause := 0x0E, mask := T, addr := 0 })) ∧
    (Ready s c w p x o srcs ports pv → l.kind = 2 → ∀ g, l.stages[stage]? = some g → reg.val + g.isize / 8 ≤ 64 →
      (∀ (s' : State) (w1 : Warp), Claim.queued x.hint c.key b.launch stage reg.val s0 T.threads s' →
        s'.warpAt c.key = some w1 → (w1.splitAt p.id).isSome = true →
        (isRec = false → exec (.spawn x isRec o) s = .next (s'.seqAct c.key p.id x.seq)) ∧
        (isRec = true → exec (.spawn x isRec o) s = .next ((s'.putWarp c.key
          (w1.portRecord .sp (spawnRecord stage T.threads.length))).seqAct c.key p.id x.seq))) ∧
      (∀ (s' : State) (w1 : Warp) (p1 : Split) (l1 : Launch) (g1 : Stage) (ts ts' : List Nat) (t : Nat),
        T.threads = ts ++ t :: ts' → Claim.queued x.hint c.key b.launch stage reg.val s0 ts s' →
        s'.warpAt c.key = some w1 → w1.splitAt p.id = some p1 → s'.launchAt b.launch = some l1 →
        l1.stages[stage]? = some g1 → 2 ^ g1.qlog ≤ g1.items.length →
        let y := splitWeight (w1.weightOf t) l1.term.cur
        let w2 := w1.weightSet t y.2
        ∃ pend : Pend,
          let s2 := (s'.putWarp c.key w2).putWarp c.key (w2.putSplit { p1 with stop := some (.spawn pend) })
          exec (.spawn x isRec o) s = .next (if s2.stageDead b.launch l1 then s2.endLaunch b.launch 0x05 else s2) ∧
          pend.i = .spawn x isRec o ∧ pend.T = T ∧ (∀ u, pend.todo.has u = (t :: ts').contains u) ∧
          Sparse.find pend.vals t = some y.1))) ∧
  Claim.WeightSplitsInTwo ∧
  (∀ (s s' : State) (r : Ref) (w : Warp) (p : Split) (pend : Pend) (q : Seq) (pl : PushPlan),
    s.warpAt (refKey r) = some w → w.splitAt r.split = some p → p.stop = some (.push pend) →
    pushPlanOf pend.i = some (q, pl) → pend.held = [] →
    let all := if pl.once then pend.T.threads.take 1 else Claim.firsts pend.T pend.ops
    Claim.pushedAll pl pend.i (refKey r) r.split pend.ops s (all.drop pend.prog) s' →
    exec (.engineQueuePush r) s = .next (s'.seqAct (refKey r) r.split q))

/-! ## Steps of the engines -/

/-- R241, R242, R249, R256, R260: a fill starts at the head of the matrix queue; its end makes a standby set of the tile's
elements, which becomes active once every command before its WLD has entered the array; a clear zeroes its tile. -/
def Obligations.WeightFillsExchangesAndClears : Prop :=
  ∀ (s : State) (core : Nat) (c : Cmd),
    (∀ fmt ck bank off kw, c.k = .wld fmt ck bank off kw →
      (s.mxHead core = some c → c.status = none → s.free c = true → (s.coreAt core).matrix.filling = none →
        (s.coreAt core).matrix.standby = none →
        ∃ t : State, exec (.wldFillStart core) s = .next t ∧ (t.coreAt core).matrix.filling = some c.id ∧
          (t.coreAt core).matrix.active = (s.coreAt core).matrix.active ∧ t.mem = s.mem ∧ t.warps = s.warps) ∧
      ((s.coreAt core).matrix.filling = some c.id → s.cmdAt c.id = some c → ck ≠ 1 →
        let rd := (s.coreAt core).matrix.tileByte bank off
        off + tileSize rd fmt ck kw ≤ 2 ^ 20 →
        ∃ (t : State) (y : WSet), exec (.wldFillComplete core) s = .next (t.endCmd
            { c with decl := some (tileSize rd fmt ck kw) } 0x00 (tileSize rd fmt ck kw) true) ∧
          (t.coreAt core).matrix.standby = some y ∧ (t.coreAt core).matrix.filling = none ∧ t.cmds = s.cmds ∧
          y.wld = c.id ∧ y.fmt = fmt ∧ y.kw = kw ∧
          ∀ k n, k < kw → n < 256 → Sparse.get 0 y.elems (256 * k + n) = tileElem rd fmt ck kw k n)) ∧
    (∀ y, (s.coreAt core).matrix.standby = some y → (∀ d ∈ s.queue core .mx, d.id ≤ y.wld → d.started = true) →
      ∃ t : State, exec (.weightExchange core) s = .next t ∧ (t.coreAt core).matrix.active = some y ∧
        (t.coreAt core).matrix.standby = none ∧ t.cmds = s.cmds ∧ t.mem = s.mem) ∧
    (∀ long b tile, c.k = .aclr long → s.blockAt c.blk = some b → b.tileAt c.g = some tile →
      (s.mxHead core = some c → c.status = none → s.free c = true → (∀ i ∈ tile.writers, c.id ≤ i) →
        exec (.aclrStart core) s = .next ((s.putBlock c.blk (b.putTile { tile with elems := [] })).putCmd
          { c with started := true })) ∧
      ((s.queue core .mx).find? (fun y => y.id = c.id) = some c → c.started = true → c.status = none →
        exec (.aclrClearComplete core c.id) s = .next ((s.tileDone c).endCmd c 0x00 0 false)))

/-- The value of an element before the epilogue rounds it (R262): the resolved sum, times the row's scale, times the column's
scale, plus the column's bias, activated. -/
def Claim.activated (b : Block) (t : Tile) (d : List Byte) (m n : Nat) : Activated :=
  let x := (Sparse.get {} t.elems (256 * m + n)).resolve t.long
  let p := x.times (arrayEntry b (fld d 4 4) m (edRsf d) (.fin false 1 0))
  let q := p.1.times (arrayEntry b (fld d 8 4) n (edCsf d) (.fin false 1 0))
  let r := q.1.plus (arrayEntry b (fld d 12 4) n (edBsf d) (.fin false 0 0))
  { activate d r.1.posZero with created := p.2 || q.2 || r.2 }

/-- R262: a row that the epilogue stores holds element n at n times the element's size; under MXINT8 it holds eight blocks of
32 elements, each with its scale byte. -/
def Claim.EpilogueRows : Prop :=
  ∀ (b : Block) (t : Tile) (d : List Byte) (m n : Nat), n < 256 →
    (edOfmt d ≠ 6 → ∀ i, i < outBytes (edOfmt d) →
      (epiBytes b t d m).1.getD (n * outBytes (edOfmt d) + i) 0 = (epiElem d m n (Claim.activated b t d m n)).1.getD i 0) ∧
    (edOfmt d = 6 →
      let r := mxBlock d m (32 * (n / 32)) ((List.range 32).map (fun j => Claim.activated b t d m (32 * (n / 32) + j)))
      (epiBytes b t d m).1.getD n 0 = r.2.1.getD (n % 32) 0 ∧ (epiBytes b t d m).2.1.getD (n / 32) 0 = r.1)

/-- R247: a lane's row holds, thread by thread, the registers it delivers; a thread that is not active delivers zeros. -/
def Claim.DeliveredRows : Prop :=
  ∀ (s : State) (w : Warp) (y : Part) (v t i : Nat), t < 32 → i < v →
    ((y.mask.has t = true ∧ w.exited.has t = false) → y.reg + i < 64 →
      (s.deliverRow w y v).getD (v * t + i) 0 = w.dGet (y.reg + i) t) ∧
    ((y.mask.has t = false ∨ w.exited.has t = true) → (s.deliverRow w y v).getD (v * t + i) 0 = 0)

/-- The bytes that a multiply of `c` rows counts with the weights' Kw (Table 16.6, R247). -/
def Claim.counted (k : CmdK) (kw : Nat) : Nat :=
  match k with
  | .mma sparse fmt _ _ c _ => c * (kw * mfBits fmt / (if sparse then 16 else 8) + if isMX fmt then kw / 32 else 0)
  | .mmr fmt c _ _ => c * (256 * max 1 ((kw * (if mfBits fmt = 6 then 8 else mfBits fmt) + 2047) / 2048))
  | _ => 0

/-- R245, R247, R249, R252, R253, R257, R260-R262, Table 16.6: a multiply starts with the active weights, or with NOWT (0x03)
where there are none; a row that retires enters its products, in some order, into its row of the tile alone, the last row too,
with which the command has read its bank; a multiply all of whose rows have retired completes with its bytes of Table 16.6; a
lane delivers its row; the epilogue stores its tile row by row, each value scaled, biased and activated, and ends a command
whose rows are stored, and frees its tile. -/
def Obligations.MultipliesEnterTheirTileAndDrain : Prop :=
  (∀ (t : Tile) (seed m : Nat) (w : WSet) (a : List FVal), m < 64 →
    ∀ r n, n < 256 → ∃ ks : List Nat, ks.Perm (List.range w.kw) ∧
      Sparse.get {} (t.enterRow seed m w a).elems (256 * r + n) =
        if r = m then ks.foldl (fun e k => e.enter t.long (a.getD k (.fin false 0 0)) (w.value k n))
          (Sparse.get {} t.elems (256 * m + n))
        else Sparse.get {} t.elems (256 * r + n)) ∧
  (∀ (s : State) (core : Nat) (c : Cmd),
    (s.mxHead core = some c → (mulFmt c.k).isSome = true → c.status = none → s.free c = true →
      (s.coreAt core).matrix.filling = none → (s.coreAt core).matrix.standby = none →
      ((s.coreAt core).matrix.active = none →
        exec (.matrixCommandStart core) s = .next (s.putCmd { c with started := true, status := some 0x03 })) ∧
      (∀ w, (s.coreAt core).matrix.active = some w →
        exec (.matrixCommandStart core) s =
          .next (s.putCmd { c with started := true, wset := some w, status := s.mulCheck c w }))) ∧
    ((s.queue core .mx).find? (fun y => y.id = c.id) = some c → s.cmdAt c.id = some c →
      ∀ b w tile row, s.blockAt c.blk = some b → c.wset = some w → b.tileAt c.g = some tile →
      c.started = true → c.status = none → c.fault = none → c.rowsDone = false → c.rowReady = true →
      s.earlier c (fun y => (mulFmt y.k).isNone || y.status.isSome || y.rowsDone) = true →
      s.earlier c (fun y => match y.k with | .aclr _ => y.blk ≠ c.blk || y.g ≠ c.g | _ => true) = true →
      s.rowOfA c w c.row = .ok row →
      let c1 : Cmd := { c with row := c.row + 1 }
      let t0 := (s.putBlock c.blk (b.putTile (tile.enterRow s.freeCtr c.row w row))).putCmd c1
      ∃ t : State, exec (.rowRetire core c.id) s = .next t ∧
        (t.blockAt c.blk).bind (fun y => y.tileAt c.g) = some (tile.enterRow s.freeCtr c.row w row) ∧
        (c1.rowsDone = false → t = t0) ∧ (c1.rowsDone = true → t = t0.readerDone c1)) ∧
    ((s.queue core .mx).find? (fun y => y.id = c.id) = some c → c.status = none → c.started = true → c.rowsDone = true →
      ∀ w fmt n, c.wset = some w → mulFmt c.k = some (fmt, n) → n ≤ 64 → fmt < 24 →
        exec (.matrixCommandComplete core c.id) s = .next ((s.tileDone c).endCmd c 0x00 (Claim.counted c.k w.kw) true)) ∧
    (∀ d dst n b tile, (s.queue core .ep).head? = some c → c.k = .epi d dst n → s.blockAt c.blk = some b →
      s.free c = true → c.writes = true → b.tileAt c.g = some tile → tile.st = .draining → c.status = none → n ≤ c.row →
      exec (.epiDrain core) s =
        .next ((s.putBlock c.blk (b.freeTile c.g)).endCmd c 0x00 (n * outRow (edOfmt d)) true)) ∧
    (∀ d dst n b tile s1, (s.queue core .ep).head? = some c → c.k = .epi d dst n → s.blockAt c.blk = some b →
      s.free c = true → c.writes = true → b.tileAt c.g = some tile → tile.st = .draining → c.status = none → c.row < n →
      s.arraysUce c.blk d = none →
      let r := epiBytes b tile d c.row
      let mxs : Int := if edDsp d = 1 then fld d 0x28 8 else (BitVec.ofNat 64 (fld d 0x28 8)).toInt
      s.engStore c (edDsp d) (dst + c.row * fld d 0x20 8) r.1 = (s1, .ok ()) →
      let c1 := { c with started := true, row := c.row + 1, flags := Nat.lor c.flags (r.2.2.toNat % 256) }
      (edOfmt d ≠ 6 → exec (.epiDrain core) s = .next (s1.putCmd c1)) ∧
      (edOfmt d = 6 → ∀ s2, s1.engStore c (edDsp d) (mxs + 8 * c.row) r.2.1 = (s2, .ok ()) →
        exec (.epiDrain core) s = .next (s2.putCmd c1))) ∧
    (∀ lane fmt n scales parts w y wp pend x m o, s.queue core .mx = [c] → c.k = .mmr fmt n scales parts → c.wset = some w →
      c.started = true → c.status = none → lane < n → parts.find? (fun z => z.lane = lane && z.row.isNone) = some y →
      s.warpAt y.warp = some wp → (wp.splitAt y.split).bind (·.stop) = some (.mmr pend) → pend.i = .mmr x m o →
      exec (.collectorDelivery core lane) s = .next ((s.putCmd { c with
        k := .mmr fmt n scales (parts.map (fun z =>
          if z.lane = lane then { z with row := some (s.deliverRow wp y (mmrRegs fmt w.kw)) } else z)) }).seqAct
        y.warp y.split x.seq))) ∧
  Claim.DeliveredRows ∧ Claim.EpilogueRows

/-- What an engine reads is the home value (R129). A read that publishes first reads the issuing core's own bytes where that
core holds some (R281). -/
def Claim.EngineReads : Prop :=
  ∀ (s s1 : State) (core n : Nat) (va : Word) (h : Hint) (keys : List Nat),
    s.engKeys core .read va n = (s1, .ok keys) → (∀ k ∈ keys, k < 2 ^ 42) → s1.waits = [] → s1.reds = [] →
    (s1.readErr core va keys false = none →
      ∃ s', s.engRead core va n false h = (s', .ok (keys.map (readMem s1.mem)))) ∧
    ((s1.publish core (fun k => keys.any (fun y => y / 64 = k / 64))).readErr core va keys false = none →
      ∃ s', s.engRead core va n true h =
        (s', .ok (keys.map (fun k => (Sparse.get none (s1.coreAt core).dirty k).getD (readMem s1.mem k)))))

/-- What an engine writes to `.g` stands at home, and no other byte changes (R130). -/
def Claim.EngineWrites : Prop :=
  ∀ (s s1 : State) (core : Nat) (va : Word) (bs : List Byte) (h : Hint) (keys : List Nat),
    s.engKeys core .write va bs.length = (s1, .ok keys) → keys.Nodup → keys.length = bs.length →
    (∀ k ∈ keys, k < 2 ^ 42) → s1.waits = [] → s1.reds = [] →
    ∃ s', s.engWrite core va bs h = (s', .ok ()) ∧ (∀ i, i < bs.length → readMem s'.mem (keys.getD i 0) = bs.getD i 0) ∧
      (∀ k, k ∉ keys → readMem s'.mem k = readMem s1.mem k) ∧ (∀ core', (s'.coreAt core').dirty = (s1.coreAt core').dirty)

/-- An element of an SCT that reduces is one reduction of the table's element at home by RED's arithmetic (R279); no other
byte changes. -/
def Claim.ScatterReduces : Prop :=
  ∀ (s s1 : State) (c : Cmd) (who op k : Nat) (ty : ATy) (va : Word) (bs : List Byte),
    let n := Sys2Proof.ATy.bytes ty
    (va.toNat % n ≠ 0 → s.reduceElem c who op ty va bs = (s, .error (.stop 0x0E))) ∧
    (va.toNat % n = 0 → s.engKeys c.core .write va n = (s1, .ok ((List.range n).map (k + ·))) → k % n = 0 → k + n ≤ 2 ^ 42 →
      s1.lineBad k = false → s1.waits = [] → s1.reds = [] →
      let new := (atomNew ty (sctOp op) (leNat ((List.range n).map (fun i => readMem s1.mem (k + i)))) (leNat bs) 0).1
      ∃ s', s.reduceElem c who op ty va bs = (s', .ok ()) ∧
        ∀ a, readMem s'.mem a = if k ≤ a ∧ a < k + n then (leBytes n new).getD (a - k) 0 else readMem s1.mem a)

/-- R278: the rows of one index in a window of a GTH are one read of its table row, and a row of an index at or above `imax`
is zeros. -/
def Claim.WindowRows : Prop :=
  ∀ (s s1 s2 : State) (c : Cmd) (ix : Index) (n : Nat) (xs : List Nat) (bs : List Byte),
    let m := min n (c.row + 4096) - c.row
    s.indexes c ix ((List.range m).map (· + c.row)) = (s1, .ok xs) → s.windowBytes c ix n = (s2, .ok bs) →
    xs.length = m ∧ bs.length = m * ix.rowb ∧
    ∀ q i, q < m → i < ix.rowb →
      (ix.imax ≤ xs.getD q 0 → bs.getD (q * ix.rowb + i) 0 = 0) ∧
      (∀ q', q' < m → xs.getD q' 0 = xs.getD q 0 → bs.getD (q' * ix.rowb + i) 0 = bs.getD (q * ix.rowb + i) 0)

/-- Bytes of a command have landed: its arrival word is signalled, and the command counts them (R219). -/
def Claim.signals (s : State) (c : Cmd) (n : Nat) : State × Cmd :=
  ((match c.arr with | some a => s.signal c.blk a n 0 | none => s), { c with signalled := c.signalled + n })

/-- R276, R283: a line of a CPYG's output lands. While its block is being saved the line goes no further than the position it is
in, and at a position boundary nothing does. -/
def Claim.PatchLinesLand : Prop :=
  ∀ (s s1 s2 s3 : State) (c : Cmd) (dsp esz pw ph n : Nat) (dst : Int) (list pitch : Word) (org : Option (Nat × Nat))
    (carry : List Byte) (keys : List Nat) (r : Option (Nat × Nat) × List (Nat × Byte)),
    s.cmdAt c.id = some c → c.k = .patch dsp esz pw ph dst list n pitch org carry → s.gaHead c = true → c.status = none →
    let size := pw * ph * 2 ^ esz
    let total := n * size
    let upto := if s.stopping c.blk then min total ((c.row / size + 1) * size) else total
    (s.stopping c.blk = true → c.row % size = 0 → exec (.patchGather c.id) s = .next s) ∧
    (c.row < total → (s.stopping c.blk = true → c.row % size ≠ 0) →
    let c1 := { c with started := true }
    let a : Int := dst + (c.row : Nat)
    let m := min (64 - spaceAddr dsp a % 64) (upto - c.row)
    (dsp = 0 → s.engKeys c.core .write (BitVec.ofInt 64 a) (((c.row + m - 1) / 2 ^ esz + 1) * 2 ^ esz - c.row) = (s1, .ok keys)) →
    (dsp ≠ 0 → s1 = s ∧ keys = []) →
    let dk := keys.take m
    s1.patchRead c1 (2 ^ esz) pw ph list pitch dk (c.row + m) (m + 1) (c.row + carry.length) org
      (carry.map (fun b => (2 ^ 62, b))) = (s2, .ok r) →
    let line := (r.2.take m).map Prod.snd
    let rest := (r.2.drop m).map (fun x => if dk.contains x.1 then line.getD (dk.idxOf x.1) 0 else x.2)
    s2.engStoreLine c1 dsp ((List.range m).map (fun i => (spaceAddr dsp (a + (i : Nat)), line.getD i 0))) = (s3, .ok ()) →
    let y := Claim.signals s3 { c1 with row := c.row + m, k := .patch dsp esz pw ph dst list n pitch r.1 rest } m
    exec (.patchGather c.id) s = .next (y.1.putCmd y.2))

/-- R278, R283: a window of a GTH lands, or what is left of one that an access had stopped. None begins while its block is being
saved. -/
def Claim.WindowsLand : Prop :=
  ∀ (s s1 : State) (c : Cmd) (dsp n done : Nat) (dst : Int) (ix : Index) (part : Option (Nat × List Byte)) (bs : List Byte),
    s.cmdAt c.id = some c → c.k = .gather dsp dst ix n part → s.gaHead c = true → c.status = none → c.row < n →
    let c1 := { c with started := true }
    (s.stopping c.blk = true → part = none → exec (.gatherWindow c.id) s = .next s) ∧
    ((s.stopping c.blk = true → part.isSome = true) →
    (part = none → s.windowBytes c1 ix n = (s1, .ok bs) ∧ done = 0) →
    (∀ p, part = some p → s1 = s ∧ p = (done, bs)) → done ≤ bs.length →
    let r := s1.runOn c1 dsp (dst + (c.row * ix.rowb : Nat)) bs done
    (r.2.2.2 = .ok () → r.2.1 = { c1 with signalled := c.signalled + (bs.length - done) } ∧
      exec (.gatherWindow c.id) s = .next (r.1.putCmd
        { r.2.1 with row := min n (c.row + 4096), k := .gather dsp dst ix n none })) ∧
    (∀ e, r.2.2.2 = .error e → exec (.gatherWindow c.id) s = .next (r.1.engFault
        { r.2.1 with k := .gather dsp dst ix n (some (r.2.2.1, bs)) } e)))

/-- R279, R280, R283: a position of an SCT is performed once no earlier position of its table row is left. One whose index is not
below `imax`, or whose journal bit is set, only counts as delivered; any other applies its row to the table and then sets
its journal bit. One that a fault stopped goes on from the access that is due. While its block is being saved only a position
that has begun goes on: one that a fault stopped, or that waits for a peer's answer. -/
def Claim.PositionsLand : Prop :=
  ∀ (s : State) (c : Cmd) (ssp n j : Nat) (src : Int) (ix : Index),
    s.cmdAt c.id = some c → s.gaHead c = true → c.status = none → j < n → j ∉ c.landed →
    let c1 := { c with started := true }
    let a (s4 : State) (x m : Nat) (bs : List Byte) (t : State) : Prop :=
      let r := s4.applyRow c1 ix j x m bs
      let y := { c1 with k := .scatter ssp src ix n (some (j, x, r.2.1, bs)) }
      (∀ e, r.2.2 = .error e → t = r.1.engFault y e) ∧
      (r.2.2 = .ok () → (∀ s5 e, r.1.setJournal c1 ix j = (s5, .error e) → t = s5.engFault y e) ∧
        (∀ s5, r.1.setJournal c1 ix j = (s5, .ok ()) → t = s5.posDone { c1 with k := .scatter ssp src ix n none } j ix.rowb))
    let waits := s.asked (.event (.scatterPosition c.id j))
    (c.k = .scatter ssp src ix n none → s.stopping c.blk = true → waits = false → exec (.scatterPosition c.id j) s = .next s) ∧
    (c.k = .scatter ssp src ix n none → (s.stopping c.blk = true → waits = true) → ∀ s1 xs s2 jb, s.indexes c1 ix (List.range (j + 1)) = (s1, .ok xs) →
      let x := xs.getD j 0
      (x < ix.imax → ∀ i, i < j → xs.getD i 0 = x → i ∈ c.landed) → s1.journal c1 ix j = (s2, .ok jb) →
      let skip := ix.imax ≤ x ∨ (ix.jrnl ≠ 0 ∧ jb.testBit (j % 8) = true)
      (skip → exec (.scatterPosition c.id j) s = .next (s2.posDone c1 j ix.rowb)) ∧
      (¬ skip → ∀ s3 bs, s2.readRow c1 ssp (src + (j * ix.rowb : Nat)) ix.rowb = (s3, .ok bs) →
        ∃ t, exec (.scatterPosition c.id j) s = .next t ∧ a s3 x 0 bs t)) ∧
    (∀ x m bs, c.k = .scatter ssp src ix n (some (j, x, m, bs)) →
      ∃ t, exec (.scatterPosition c.id j) s = .next t ∧ a s x m bs t)

/-- R280: the bytes of a position are signalled once, whether or not it is performed again after its journal was read. -/
def Claim.PositionsCountOnce : Prop :=
  ∀ (s : State) (c : Cmd) (j rowb : Nat),
    let c2 := { c with landed := j :: c.landed, row := c.row + 1 }
    (2 ^ 25 + j ∈ c.landed → s.posDone c j rowb = s.putCmd c2) ∧
    (2 ^ 25 + j ∉ c.landed →
      let y := Claim.signals s { c2 with landed := (2 ^ 25 + j) :: c2.landed } rowb
      s.posDone c j rowb = y.1.putCmd y.2)

/-- R129, R219, R269, R270, R273: a line of a copy that can land stores its bytes at its destination and signals them; a
copy all of whose lines have landed, with no follow-on, ends with DONE (0x00), and one with a follow-on pushes it first where
the matrix queue has room (R275). R276-R280: the gather engine performs its head command, a line of patches, a window or a
position at a time. -/
def Obligations.CopiesAndGathersLandAndComplete : Prop :=
  (∀ (s : State) (c : Cmd),
    (∀ ssp dsp m fol pre unpub line, s.cmdAt c.id = some c → s.startCopies c.core = s →
      c.k = .copy ssp dsp m fol pre unpub → dsp < 2 →
      c.started = true → c.status = none → c.fault = none → line ∉ c.landed → (lineMoves dsp line m).1 ≠ [] →
      ∀ s1 r w s2, s.readLine c ssp dsp line m pre unpub = (s1, .ok r) → s1.saveSources c ssp dsp line m r.2 = w →
      w.1.engStoreLine c dsp r.1 = (s2, .ok ()) →
      let y := Claim.signals s2 { c with
        landed := line :: c.landed, k := .copy ssp dsp m fol w.2 unpub } (lineMoves dsp line m).2
      exec (.copyLanding c.id line) s = .next (y.1.putCmd y.2)) ∧
    (∀ ssp dsp m fol pre unpub, s.cmdAt c.id = some c → s.startCopies c.core = s → s.registerBoards c.core = s →
      c.k = .copy ssp dsp m fol pre unpub → c.started = true → c.fault = none →
      (c.status = none → (∀ l ∈ moveLines dsp m, l ∈ c.landed) →
        (fol = none → exec (.commandCompletion c.id) s = .next (s.endCmd c 0x00 0 false)) ∧
        (∀ f, fol = some f → s.badRead c.blk (countRead f.cw (BitVec.ofNat 64 f.cnt)) = none →
          s.roomIn c.core .mx 1 = true →
          exec (.commandCompletion c.id) s = .next ((s.pushFollow c f f.aoff f.g).endCmd c 0x00 0 false))) ∧
      (∀ st, c.status = some st → st ≠ 0x01 → exec (.commandCompletion c.id) s =
        .next ((s.endCmd c st 0 false).dropFollow c.blk fol arrFault))) ∧
    (s.cmdAt c.id = some c → s.startCopies c.core = s → s.registerBoards c.core = s → s.gaHead c = true → c.status = none →
      c.gatherDone = true → exec (.commandCompletion c.id) s = .next (s.endCmd c 0x00 0 false))) ∧
  Claim.EngineReads ∧ Claim.EngineWrites ∧ Claim.ScatterReduces ∧ Claim.WindowRows ∧ Claim.PatchLinesLand ∧
  Claim.WindowsLand ∧ Claim.PositionsLand ∧ Claim.PositionsCountOnce

/-- A conjunction engine reads `n` bytes at home, which hold a number. -/
def Claim.gets (s : State) (c : Cmd) (va : Word) (n v : Nat) (s' : State) : Prop :=
  ∃ bs, s.engRead c.core va n false c.hint = (s', .ok bs) ∧ leNat bs = v

/-- A conjunction engine writes a number as `n` bytes at home. -/
def Claim.puts (s : State) (c : Cmd) (va : Word) (n v : Nat) (s' : State) : Prop :=
  s.engWrite c.core va (leBytes n v) c.hint = (s', .ok ())

/-- R329, Table 22.2: the write of an element of the parent or the size array. With a snapshot open the value it replaces goes
first to the next log entry, and the record counts that entry. -/
def Claim.ElementWrites : Prop :=
  ∀ (s s1 s2 : State) (c : Cmd) (f : Forest) (size : Bool) (x v old : Nat),
    let va := (if size then f.sbase else f.pbase) + BitVec.ofNat 64 (4 * x)
    s.keysAll c.core (f.touch size x 0) = (s1, .ok ()) → Claim.gets s1 c va 4 old s2 →
    (f.snap = false → ∀ s3, Claim.puts s2 c va 4 v s3 → s.elemSet c f size x v = (s3, .ok f)) ∧
    (f.snap = true → ∀ s3 s4 s5,
      Claim.puts s2 c (f.lbase + BitVec.ofNat 64 (16 * f.lhead)) 16 (x + (if size then 2 ^ 32 else 0) + old * 2 ^ 64) s3 →
      Claim.puts s3 c (f.frec + 0x20) 4 (f.lhead + 1) s4 → Claim.puts s4 c va 4 v s5 →
      s.elemSet c f size x v = (s5, .ok { f with lhead := f.lhead + 1 }))

/-- R327, R330, R332: a walk goes from an element to its parent until it meets a root, and a parent above its element or outside
the forest is CORRUPT (0x12). It then puts each element of its path under the root, but for one that lies no higher than it
already, or that the full log of an open snapshot leaves no entry for. -/
def Claim.WalksFindTheRoot : Prop :=
  ∀ (s s1 : State) (c : Cmd) (f : Forest) (nc : Bool) (w : Walk) (p : Nat),
    (w.found = false → Claim.gets s c (f.pbase + BitVec.ofNat 64 (4 * w.y)) 4 p s1 →
      (p = w.y → nc = true ∨ w.path = [] → s.walkStep c f nc w = (s1, .ok (.inr w.y))) ∧
      (p = w.y → nc = false → w.path ≠ [] → s.walkStep c f nc w = (s1, .ok (.inl { w with found := true }))) ∧
      (p ≠ w.y → w.y < p ∨ f.nelem ≤ p → s.walkStep c f nc w = (s1, .error (.stop 0x12))) ∧
      (p < w.y → p < f.nelem →
        s.walkStep c f nc w = (s1, .ok (.inl { y := p, path := w.path ++ [w.y], found := false })))) ∧
    (∀ z rest, w.found = true → w.path = z :: rest → Claim.gets s c (f.pbase + BitVec.ofNat 64 (4 * z)) 4 p s1 →
      let goes : Walk ⊕ Nat := if rest = [] then .inr w.y else .inl { w with path := rest }
      let skips := p ≤ w.y ∨ (f.snap = true ∧ f.lcap ≤ f.lhead)
      (skips → s.walkStep c f nc w = (s1, .ok goes)) ∧
      (¬ skips → ∀ s2 keys, s1.engKeys c.core .write (f.pbase + BitVec.ofNat 64 (4 * z)) 4 = (s2, .ok keys) → ∀ s3 f1,
        (peerKey (keys.headD 0) = false → s2.elemSet c f false z w.y = (s3, .ok f1) → s.walkStep c f nc w = (s3, .ok goes)) ∧
        (peerKey (keys.headD 0) = true → s2.elemMin c f z w.y (keys.headD 0) = (s3, .ok f1) →
          s.walkStep c f nc w = (s3, .ok goes))))

/-- A step asks a peer once for an operation and takes up its answer (R346): `r` is what the step gives, `ok` what it gives once
the peer has answered with a value. -/
def Claim.asksPeer (s : State) (n a : Nat) (op : BexOp) (wants : List Want) (ok : Word → Prop) : Prop :=
  let mine (x : BexAns) : Prop := x.addr = a ∧ x.op = op ∧ x.who = (s.asker, n)
  ((∀ x ∈ s.bexDone, ¬ mine x) → .peer (s.asker, n) a op ∈ wants) ∧
  (∀ v, (∃ x ∈ s.bexDone, mine x) → (∀ x ∈ s.bexDone, mine x → x.result = some v) → ok v)

/-- R332, R346: a compression of an entry in peer memory is one reduction at the peer's home slice, which leaves the lower of the
entry and the root; with a snapshot open the value it replaced goes to the log. -/
def Claim.PeerCompressions : Prop :=
  ∀ (s s1 : State) (c : Cmd) (f : Forest) (x v key : Nat), s.keysAll c.core (f.touch false x 0) = (s1, .ok ()) →
    let r := s.elemMin c f x v key
    Claim.asksPeer s1 0 key (.atomic .n32 .min (BitVec.ofNat 64 v) 0) r.1.wants (fun old =>
      (f.snap = false ∨ old.toNat % 2 ^ 32 ≤ v → r = (s1, .ok f)) ∧
      (f.snap = true → v < old.toNat % 2 ^ 32 → ∀ s2 s3,
        Claim.puts s1 c (f.lbase + BitVec.ofNat 64 (16 * f.lhead)) 16 (x + old.toNat % 2 ^ 32 * 2 ^ 64) s2 →
        Claim.puts s2 c (f.frec + 0x20) 4 (f.lhead + 1) s3 → r = (s3, .ok { f with lhead := f.lhead + 1 })))

/-- R331: the link step does nothing where one of the two is no root any more. Else it puts the larger root under the smaller
and, in a forest with sizes, adds their sizes; with too few log entries free it answers LOGFULL (0x11). -/
def Claim.LinksJoinTwoClasses : Prop :=
  ∀ (s s1 s2 : State) (c : Cmd) (f : Forest) (lo hi pl ph : Nat),
    Claim.gets s c (f.pbase + BitVec.ofNat 64 (4 * lo)) 4 pl s1 → Claim.gets s1 c (f.pbase + BitVec.ofNat 64 (4 * hi)) 4 ph s2 →
    let need := if f.sbase = 0 then 1 else 2
    (pl ≠ lo ∨ ph ≠ hi → s.linkStep c f lo hi = (s2, .ok none)) ∧
    (pl = lo → ph = hi → f.snap = true → f.lcap - f.lhead < need →
      s.linkStep c f lo hi = (s2, .ok (some (BitVec.ofNat 64 (0x11 * 2 ^ 56))))) ∧
    (pl = lo → ph = hi → (f.snap = true → need ≤ f.lcap - f.lhead) →
      (f.sbase = 0 → ∀ s3 s4 f1, s2.keysAll c.core (f.touch false hi 0) = (s3, .ok ()) →
        s3.elemSet c f false hi lo = (s4, .ok f1) →
        s.linkStep c f lo hi = (s4, .ok (some (BitVec.ofNat 64 (2 ^ 32 + lo))))) ∧
      (f.sbase ≠ 0 → ∀ s3 s4 s5 s6 s7 f1 f2 m n,
        s2.keysAll c.core (f.touch false hi 0 ++ (f.touch true lo 1 ++ [(.read, f.va true hi, 4)])) = (s3, .ok ()) →
        Claim.gets s3 c (f.sbase + BitVec.ofNat 64 (4 * lo)) 4 m s4 → Claim.gets s4 c (f.sbase + BitVec.ofNat 64 (4 * hi)) 4 n s5 →
        s5.elemSet c f false hi lo = (s6, .ok f1) → s6.elemSet c f1 true lo ((m + n) % 2 ^ 32) = (s7, .ok f2) →
        s.linkStep c f lo hi = (s7, .ok (some (BitVec.ofNat 64 (2 ^ 32 + lo))))))

/-- R331, R337: UNITE (operation 0) walks from both its elements and links their roots, or answers their one root; it
walks again where a root it found was none any more. FIND (1) answers the root of its walk, and FSIZE (2) the size of it as
long as it is a root. -/
def Claim.OperationsAnswerTheirRoot : Prop :=
  ∀ (s s1 : State) (c : Cmd) (f : Forest) (op x y : Nat) (nc : Bool),
    let p := c.cj
    (∀ w, p.walk = some w →
      (∀ w', s.walkStep c f nc w = (s1, .ok (.inl w')) →
        s.conjThread c f op nc x y = (s1, .ok (.inl { p with walk := some w' }))) ∧
      (∀ r, s.walkStep c f nc w = (s1, .ok (.inr r)) →
        (op = 1 → s.conjThread c f op nc x y = (s1, .ok (.inr (BitVec.ofNat 64 r)))) ∧
        (op = 2 → s.conjThread c f op nc x y = (s1, .ok (.inl { p with walk := none, ra := some r }))) ∧
        (op = 0 → p.ra = none → s.conjThread c f op nc x y =
          (s1, .ok (.inl { p with walk := some { y := y, path := [], found := false }, ra := some r }))) ∧
        (op = 0 → ∀ q, p.ra = some q → s.conjThread c f op nc x y =
          (s1, .ok (if q = r then .inr (BitVec.ofNat 64 q) else .inl { p with walk := none, rb := some r }))))) ∧
    (∀ q, p.walk = none → p.ra = some q →
      (op = 2 → ∀ v, Claim.gets s c (f.pbase + BitVec.ofNat 64 (4 * q)) 4 v s1 →
        (v ≠ q → s.conjThread c f op nc x y =
          (s1, .ok (.inl { p with walk := some { y := q, path := [], found := false }, ra := none }))) ∧
        (v = q → ∀ n s2, Claim.gets s1 c (f.sbase + BitVec.ofNat 64 (4 * q)) 4 n s2 →
          s.conjThread c f op nc x y = (s2, .ok (.inr (BitVec.ofNat 64 n))))) ∧
      (op = 0 → ∀ r, p.rb = some r →
        (∀ v, s.linkStep c f (min q r) (max q r) = (s1, .ok (some v)) → s.conjThread c f op nc x y = (s1, .ok (.inr v))) ∧
        (s.linkStep c f (min q r) (max q r) = (s1, .ok none) → s.conjThread c f op nc x y =
          (s1, .ok (.inl { p with walk := some { y := x, path := [], found := false }, ra := none, rb := none })))))

/-- R334, R339, Table 22.3: what FSNAP writes, `.open` (0), `.close` (1) and `.init` (2) element by element. -/
def Claim.SnapshotsOpenCloseAndBegin : Prop :=
  ∀ (s s1 : State) (c : Cmd) (f : Forest) (row : Nat),
    let rec3 (n m k : Nat) : Prop := s.engWrite c.core (f.frec + 0x20) (leBytes 4 n ++ leBytes 4 m ++ leBytes 4 k) c.hint = (s1, .ok ())
    (f.snap = false → rec3 0 0 1 → s.snapStep c f 0 row = (s1, .ok (.inr 0))) ∧
    (f.snap = true → Claim.puts s c (f.frec + 0x24) 4 f.lhead s1 → s.snapStep c f 0 row = (s1, .ok (.inr 0))) ∧
    (f.snap = true → rec3 0 0 0 → s.snapStep c f 1 row = (s1, .ok (.inr 0))) ∧
    (f.snap = false → s.snapStep c f 1 row = (s, .ok (.inr 0))) ∧
    (row < f.nelem → Claim.puts s c (f.pbase + BitVec.ofNat 64 (4 * row)) 4 row s1 →
      s.snapStep c f 2 row = (s1, .ok (.inl (row + 1)))) ∧
    (f.nelem ≤ row → row < 2 * f.nelem → f.sbase ≠ 0 → Claim.puts s c (f.sbase + BitVec.ofNat 64 (4 * (row - f.nelem))) 4 1 s1 →
      s.snapStep c f 2 row = (s1, .ok (.inl (row + 1)))) ∧
    (f.nelem ≤ row → (row < 2 * f.nelem → f.sbase = 0) → rec3 0 0 0 → s.snapStep c f 2 row = (s1, .ok (.inr f.nelem)))

/-- R334: FUNDO without a snapshot gives NOSNAP (0x10). Else it first checks the entries from `lhead` - 1 down to `mark`, then puts
each old value back into the array and element its entry names, and at last sets `lhead` to `mark`. -/
def Claim.UndoRevertsTheLog : Prop :=
  ∀ (s s1 : State) (c : Cmd) (f : Forest) (row : Nat),
    let n := f.lhead - f.mark
    (f.snap = false → s.undoStep c f row = (s, .error (.stop 0x10))) ∧
    (f.snap = true → 2 * n ≤ row → Claim.puts s c (f.frec + 0x20) 4 f.mark s1 → s.undoStep c f row = (s1, .ok (.inr n))) ∧
    (f.snap = true → row < 2 * n → ∀ bs,
      s.engRead c.core (f.lbase + BitVec.ofNat 64 (16 * (f.lhead - 1 - row % n))) 16 false c.hint = (s1, .ok bs) →
      let bad := fld bs 12 4 ≠ 0 ∨ 2 ≤ fld bs 4 4 ∨ f.nelem ≤ fld bs 0 4 ∨ (fld bs 4 4 = 1 ∧ f.sbase = 0)
      (bad → s.undoStep c f row = (s1, .error (.stop 0x12))) ∧
      (¬ bad → row < n → s.undoStep c f row = (s1, .ok (.inl (row + 1)))) ∧
      (¬ bad → n ≤ row → ∀ s2,
        Claim.puts s1 c ((if fld bs 4 4 = 1 then f.sbase else f.pbase) + BitVec.ofNat 64 (4 * fld bs 0 4)) 4 (fld bs 8 4) s2 →
        s.undoStep c f row = (s2, .ok (.inl (row + 1)))))

/-- R338, R346: RELABEL finds the root of each element of its window, then reads the inputs of each root's elements and reduces
them once into the output of that root, at home or at a peer's home slice: integers modulo 2^32 or as IMIN and IMAX, f32 in one
sum rounded once or as FMIN and FMAX, or their count. -/
def Claim.RelabelReducesByRoot : Prop :=
  (∀ (s s1 : State) (c : Cmd) (f : Forest) (op : Nat) (inp out : Word) (first n : Nat),
    let p := c.cj
    let els := windowEls first n c.row
    let i := els.getD p.roots.length 0
    let w := p.walk.getD { y := i, path := [], found := false }
    (p.todo = none → ∀ w', s.walkStep c f false w = (s1, .ok (.inl w')) →
      s.relabelStep c f op inp out first n = (s1, .ok (.inl { p with walk := some w' }))) ∧
    (p.todo = none → ∀ q, s.walkStep c f false w = (s1, .ok (.inr q)) →
      let rs := p.roots ++ [(i, q)]
      s.relabelStep c f op inp out first n = (s1, .ok (.inl { p with
        walk := none, roots := rs, todo := if els.length ≤ rs.length then some (rs.map Prod.snd).eraseDups else none }))) ∧
    (∀ q rest, p.todo = some (q :: rest) →
      let ids := (p.roots.filter (fun e => e.2 = q)).map Prod.fst
      (op ≠ 6 → p.ins.length < ids.length → ∀ v,
        Claim.gets s c (inp + BitVec.ofNat 64 (4 * ids.getD p.ins.length 0)) 4 v s1 →
        s.relabelStep c f op inp out first n = (s1, .ok (.inl { p with ins := p.ins ++ [v] }))) ∧
      (op = 6 ∨ ids.length ≤ p.ins.length → s.reduceRoot c op out q ids.length p.ins = (s1, .ok ()) →
        s.relabelStep c f op inp out first n =
          (s1, .ok (if rest = [] then .inr (c.row + 1) else .inl { p with todo := some rest, ins := [] }))))) ∧
  (∀ (s s1 : State) (c : Cmd) (op q n : Nat) (out : Word) (xs : List Nat) (keys : List Nat),
    let a := out + BitVec.ofNat 64 (4 * q)
    let k := keys.headD 0
    s.engKeys c.core .write a 4 = (s1, .ok keys) →
    (peerKey k = false → ∀ old s2 s3, Claim.gets ((s1.atHome (k / 8)).applyReds (k / 64)) c a 4 old s2 →
      Claim.puts s2 c a 4 (relabelNew op old n xs) s3 → s.reduceRoot c op out q n xs = (s3, .ok ())) ∧
    (peerKey k = true → Claim.asksPeer s1 0 k (.reduce op (if op = 6 then List.replicate n 0 else xs))
      (s.reduceRoot c op out q n xs).1.wants (fun _ => s.reduceRoot c op out q n xs = (s1, .ok ())))) ∧
  (∀ (old n : Nat) (xs : List Nat),
    relabelNew 0 old n xs = (old + xs.sum) % 2 ^ 32 ∧ relabelNew 6 old n xs = (old + n) % 2 ^ 32 ∧
    relabelNew 1 old n xs = (fp32.sum false .rne 0 false ((old :: xs).map (fun v => (fp32.value v).term))).1 ∧
    ((∀ x ∈ old :: xs, x < 2 ^ 32) → ∀ m : FMod, m.fty = .f32x2 →
      relabelNew 4 old n [] = old ∧ relabelNew 5 old n [] = old ∧
      ∀ b, b < 2 ^ 32 → Claim.minmax false m (relabelNew 4 old n xs) b (relabelNew 4 old n (xs ++ [b])) ∧
        Claim.minmax true m (relabelNew 5 old n xs) b (relabelNew 5 old n (xs ++ [b]))) ∧
    (relabelNew 2 old n xs ∈ old :: xs ∧ ∀ x ∈ old :: xs, toInt true 32 (relabelNew 2 old n xs) ≤ toInt true 32 x) ∧
    (relabelNew 3 old n xs ∈ old :: xs ∧ ∀ x ∈ old :: xs, toInt true 32 x ≤ toInt true 32 (relabelNew 3 old n xs)))

/-- R336: the last result of a word completes it: each thread of it holds its result. -/
def Claim.ResultsReturn : Prop :=
  ∀ (s : State) (c : Cmd) (t : Nat) (v : Word) (w : Warp) (p : Split) (pend : Pend) (x : Ctl) (nc : Bool) (o : Slots) (reg : Fin 64),
    s.warpAt c.warp = some w → w.splitAt c.split = some p → p.stop = some (.conj pend) → pend.held = [] →
    (pend.i = .unite x nc o ∨ pend.i = .find x nc o ∨ pend.i = .fsize x nc o) → o.a = .d reg →
    pend.todo &&& ~~~ BitVec.ofNat 32 (2 ^ t) = 0 →
    ∃ w' : Warp, s.conjReturn c t v = ((s.dropCmd c.id).putWarp c.warp w').seqAct c.warp c.split x.seq ∧
      ∀ u, pend.T.has u = true → w'.dGet reg u = if u = t then v else Sparse.get 0 pend.vals u

/-- The conditions of Table 22.1 on a forest record at `frec`. -/
def Claim.forestLegal (frec : Word) (r : List Byte) : Prop :=
  let pbase := fld r 0x00 8
  let sbase := fld r 0x08 8
  let lbase := fld r 0x10 8
  let lcap := fld r 0x1C 4
  frec.toNat % 64 = 0 ∧ pbase % 4 = 0 ∧ sbase % 4 = 0 ∧ lbase % 16 = 0 ∧ (lbase = 0 → lcap = 0) ∧ 1 ≤ fld r 0x18 4 ∧
  fld r 0x20 4 ≤ lcap ∧ fld r 0x24 4 ≤ fld r 0x20 4 ∧ fld r 0x28 4 < 2 ∧ ∀ i, 0x2C ≤ i → i < 64 → r.getD i 0 = 0

/-- R326, R328, R331, R334, R336-R340, R346: a conjunction operation refused at its push ends with its status; any other is taken
up by the engine of its record's home slice, which reads the record and then performs it a step at a time. A forest record
that breaks a condition of Table 22.1 gives FOREST (0x0F), and an element outside the forest or a misaligned base RANGE (0x05).
That a link step is one step of the model, and that other operations on the forest wait while a step waits for a peer, is log
entry 49. -/
def Obligations.ConjunctionOperationsRunAtTheirSlice : Prop :=
  (∀ (frec : Word) (r : List Byte), r.length = 64 → (forestOk frec r = true ↔ Claim.forestLegal frec r)) ∧
  (∀ (s : State) (c : Cmd) (r : List Byte),
    (∀ op nc t frec x y, c.k = .conjOp op nc t frec x y →
      (forestOk frec r = false → s.conjStart c r = s.conjReturn c t (BitVec.ofNat 64 (0x0F * 2 ^ 56))) ∧
      (forestOk frec r = true → op = 2 → fld r 8 8 = 0 → s.conjStart c r = s.conjReturn c t (BitVec.ofNat 64 (0x0F * 2 ^ 56))) ∧
      (forestOk frec r = true → op < 2 → fld r 24 4 ≤ x.toNat ∨ (op = 0 ∧ fld r 24 4 ≤ y.toNat) →
        s.conjStart c r = s.conjReturn c t (BitVec.ofNat 64 (0x05 * 2 ^ 56))) ∧
      (forestOk frec r = true → (op = 2 → fld r 8 8 ≠ 0) → x.toNat < fld r 24 4 → (op = 0 → y.toNat < fld r 24 4) →
        fld r 8 8 < 2 ^ 64 →
        s.conjStart c r = s.putCmd { c with cj := { rcd := r, walk := some { y := x.toNat, path := [], found := false } } })) ∧
    (∀ frec, c.k = .fundo frec →
      (forestOk frec r = false → s.conjStart c r = s.endCmd c 0x0F 0 false) ∧
      (forestOk frec r = true → s.conjStart c r = s.putCmd { c with cj := { rcd := r } })) ∧
    (∀ op frec inp out first n, c.k = .relabel op frec inp out first n → forestOk frec r = true →
      (fld r 24 4 < first + n ∨ (op ≠ 6 ∧ inp.toNat % 4 ≠ 0) ∨ out.toNat % 4 ≠ 0 → s.conjStart c r = s.endCmd c 0x05 0 false) ∧
      (first + n ≤ fld r 24 4 → (op ≠ 6 → inp.toNat % 4 = 0) → out.toNat % 4 = 0 →
        s.conjStart c r = s.putCmd { c with cj := { rcd := r } }))) ∧
  (∀ (s : State) (slice : Nat) (c : Cmd) (frec : Word), s.cmdAt c.id = some c → c.k.frec = some frec →
    (∀ st, c.status = some st → s.free c = true → c.started = true ∨ s.earlier c (fun y => y.started) = true →
      exec (.conjunctionOperation slice c.id) s = .next (s.endCmd c st 0 (decide (st = 0x01)))) ∧
    (c.status = none → c.started = false → ∀ s1 keys s2 r, s.engKeys c.core .read frec 64 = (s1, .ok keys) →
      s.homeSlice (keys.headD 0) = slice → s1.conjMay c (keys.headD 0) = true →
      let c1 := { c with started := true, g := keys.headD 0 }
      ((s1.count .slice slice 0x120 none none (some 4)).putCmd c1).engRead c.core frec 64 false c.hint = (s2, .ok r) →
      exec (.conjunctionOperation slice c.id) s = .next (s2.conjStart c1 r)) ∧
    (c.status = none → c.started = true → s.homeSlice c.g = slice → s.free c = true → s.forestAsks c = false → c.cj.rcd ≠ [] →
      exec (.conjunctionOperation slice c.id) s = .next (s.conjRun c) ∧
      ∀ s1 h, Claim.gets s c (frec + 0x20) 4 h s1 →
        let f := { Forest.ofBytes frec c.cj.rcd with lhead := h }
        (∀ op nc t x y s2, c.k = .conjOp op nc t frec x y →
          (∀ p, s1.conjThread c f op nc x.toNat y.toNat = (s2, .ok (.inl p)) → s.conjRun c = s2.putCmd { c with cj := p }) ∧
          (∀ v, s1.conjThread c f op nc x.toNat y.toNat = (s2, .ok (.inr v)) → s.conjRun c = s2.conjReturn c t v)) ∧
        (∀ s2 r, (∃ op, c.k = .fsnap op frec ∧ s1.snapStep c f op c.row = (s2, r)) ∨
            (c.k = .fundo frec ∧ s1.undoStep c f c.row = (s2, r)) →
          (∀ row, r = .ok (.inl row) → s.conjRun c = s2.putCmd { c with row := row }) ∧
          (∀ n, r = .ok (.inr n) → s.conjRun c = s2.endForest c n) ∧
          (∀ st, r = .error (.stop st) → s.conjRun c = s2.endCmd c st 0 false)) ∧
        (∀ op inp out first n s2, c.k = .relabel op frec inp out first n →
          (∀ p, s1.relabelStep c f op inp out first n = (s2, .ok (.inl p)) → s.conjRun c = s2.putCmd { c with cj := p }) ∧
          (∀ row, s1.relabelStep c f op inp out first n = (s2, .ok (.inr row)) →
            s.conjRun c = if n ≤ 4096 * row then s2.endCmd c 0x00 (4 * n) true
              else s2.putCmd { c with row := row, cj := { rcd := c.cj.rcd } }))) ∧
    (c.status = none → c.started = false → ∀ s1 keys, s.engKeys c.core .read frec 64 = (s1, .ok keys) →
      s.homeSlice (keys.headD 0) ≠ slice → exec (.conjunctionOperation slice c.id) s = .next s)) ∧
  Claim.ElementWrites ∧ Claim.WalksFindTheRoot ∧ Claim.PeerCompressions ∧ Claim.LinksJoinTwoClasses ∧ Claim.OperationsAnswerTheirRoot ∧
  Claim.SnapshotsOpenCloseAndBegin ∧ Claim.UndoRevertsTheLog ∧ Claim.RelabelReducesByRoot ∧ Claim.ResultsReturn

/-! ## Hoisted loads, prefetch and cache control -/

/-- The loads of LDH, thread by thread: a thread's bytes, or none where its access meets a fault (R201). -/
def Claim.hoists (k : Nat) (h : Hint) (m : HMod) (v : Opnds) (val : Nat → Option (List Byte)) :
    State → List Nat → State → Prop
  | s, [], s' => s' = s
  | s, t :: ts, s' =>
    let va := v.gb t + m.off.signExtend 64
    (∃ s1 s2 bs keys, s.loadG k h va m.mt.bytes = (s1, .ok bs) ∧ val t = some bs ∧
      (s1.window k (s1.placeLines k (.g va) m.mt.bytes) false).translateRun (keyCore k) .read va m.mt.bytes = (s2, .ok keys) ∧
      Claim.hoists k h m v val s2 ts s') ∨
    (∃ s1 e, s.loadG k h va m.mt.bytes = (s1, .error e) ∧ val t = none ∧ Claim.hoists k h m v val s1 ts s')

/-- The lines that PREF fetches, thread by thread: where the address translates, its line reaches its home slice, unless the core
holds the byte (R204). -/
def Claim.prefetches (core : Nat) (h : Hint) (va : Nat → Word) : State → List Nat → State → Prop
  | s, [], s' => s' = s
  | s, t :: ts, s' =>
    (∃ s1 e, s.translate core .read (va t) = (s1, .error e) ∧ Claim.prefetches core h va s1 ts s') ∨
    (∃ s1 e b, s.translate core .read (va t) = (s1, .ok (e, b)) ∧
      let a := s1.leafKey e b (va t)
      Claim.prefetches core h va (if s1.cached core a then s1 else s1.touchHome core (va t) h [a]) ts s')

/-- R99, R201, R202, R204, R206: LDH loads without a fault, gives 0 where an access would meet one, and makes its entry valid only
where none would. CHK does nothing where its entry is valid and matches. PREF brings the lines of its threads' addresses to
their places in the slices and changes no register. DCF publishes the dirty bytes of a line its core holds and drops the view
lines that depend on it. -/
def Obligations.HoistedLoadsPrefetchAndDcf : Prop :=
  ∀ (s : State) (c : WCtx) (w : Warp) (p : Split) (x : Ctl) (o : Slots) (ports : List (Port × Word)) (pv : Pops),
    let T := activeMask w p x
    let v := readOps c w {} o pv
    let s0 := s.putWarp c.key { w with ports := ports }
    (Ready s c w p x o [o.b] ports pv →
      (∀ (m : HMod) (i : Fin 64) (val : Nat → Option (List Byte)) (s1 : State) (w1 : Warp), o.a = .d i →
        Claim.hoists c.key x.hint m v val s0 T.threads s1 → s1.warpAt c.key = some w1 →
        ∃ w' : Warp, exec (.ldh x m o) s = .next ((s1.putWarp c.key w').seqAct c.key p.id x.seq) ∧
          Holds w' o.a T (fun t => match val t with | some bs => extendBytes m.mt bs | none => 0) ∧
          Kept w1 { w' with hoist := w1.hoist } [o.a] T ∧
          (∀ t, w'.statusOf t = w1.statusOf t ∧ w'.rndOf t = w1.rndOf t) ∧
          (∀ j, j ≠ m.idx.val → w'.hoistAt j = w1.hoistAt j) ∧
          ((∃ t, t ∈ T.threads ∧ val t = none) → w'.hoistAt m.idx.val = none) ∧
          ((∀ t, t ∈ T.threads → (val t).isSome = true) →
            ∃ h, w'.hoistAt m.idx.val = some h ∧ h.width = m.mt.bytes ∧ h.dst = i ∧
              ∀ t, t ∈ T.threads → Sparse.find h.addrs t = some (v.gb t + m.off.signExtend 64))) ∧
      (∀ (m : HMod) h, w.hoistAt m.idx.val = some h → h.fits m o.a T v = true →
        exec (.chk x m o) s = .next (s0.seqAct c.key p.id x.seq)) ∧
      (∀ llc off, ∃ s1 : State,
        Claim.prefetches (keyCore c.key) x.hint (fun t => v.gb t + off.signExtend 64) s0 T.threads s1 ∧
        exec (.pref x llc off o) s = .next (s1.seqAct c.key p.id x.seq) ∧ (s.reds = [] → s1.warps = s0.warps))) ∧
    (Ready s c w p x o [o.b, o.c] ports pv →
      let va := v.gb (T.lowest.getD 0)
      let n := ((v.gc (T.lowest.getD 0)).setWidth 32 : BitVec 32).toNat
      let line := BitVec.ofNat 64 (64 * (va.toNat / 64))
      (n = 0 → exec (.dcf x o) s = .next (s0.seqAct c.key p.id x.seq)) ∧
      (0 < n → va.toNat % 64 + n ≤ 64 →
        (∀ s1 e, s0.translate (keyCore c.key) .read line = (s1, .error e) →
          exec (.dcf x o) s = .next (s1.seqAct c.key p.id x.seq)) ∧
        (∀ s1 e b, s0.translate (keyCore c.key) .read line = (s1, .ok (e, b)) →
          let core := keyCore c.key
          let a := s1.leafKey e b line
          let l := a / 64
          let s2 := if (s1.coreAt core).dirty.any (fun y => y.1 / 64 = l) then
              (s1.llcTouch l (s1.classOf core line) x.hint).publish core (fun key => key / 64 = l)
            else s1
          exec (.dcf x o) s = .next ((if leafVkind e ≠ 0 then s1
            else (s2.dropViews l).lastUse core x.hint [a]).seqAct c.key p.id x.seq))))

/-! ## Launches -/

/-- R23, R30-R32, R344: a doorbell submits the entries up to its value unless it runs too far ahead. The next submission is
checked: a misaligned record or a refused one has its code delivered and written, and an accepted one becomes a launch whose
partition and warp count fit and whose status word reads ACCEPTED (0x01). That a misaligned record has its code delivered alone,
with no status word written for it, is the model's choice (log entry 88). -/
def Obligations.SubmissionsAreCheckedAndAccepted : Prop :=
  (∀ (s : State) (q : Fin 8) (tail : Word), s.ident.state = 1 →
    let h := s.hostq.getD q.val HostQ.reset
    exec (.launchQueueDoorbell q tail) s = .next
      (if (tail - h.qhead).toNat ≤ ringLen h.qlog then { s with hostq := s.hostq.set q.val { h with qtail := tail } } else s)) ∧
  (∀ (s t : State) (addr : Word) (l : Launch), s.checkRecord addr = (t, .ok l) →
    l.addr = addr ∧ addr.toNat % 64 = 0 ∧ l.st = .accepted ∧ l.toAdmit = [] ∧ l.kind < 3 ∧ 1 ≤ l.warps ∧ l.warps ≤ 256 ∧
    l.warps ≤ 4 * ((l.part.extractLsb' 0 8 : BitVec 8)).toNat ∧ 1 ≤ l.bpc ∧ l.bpc ≤ 64 ∧ partitionOk l.part l.bpc = true ∧
    l.lstat.toNat % 8 = 0) ∧
  (∀ (s : State) (b : Sub) (rest : List Sub), s.ident.state = 1 → s.launchCount < 256 → s.takeEntry.subs = b :: rest →
    let t := { s.takeEntry with subs := rest }
    (b.addr.toNat % 64 ≠ 0 → exec .launchAcceptance s = .next (t.deliver b 0x10)) ∧
    (∀ t1 code det lst, t.checkRecord b.addr = (t1, .error (code, det, some lst)) →
      exec .launchAcceptance s = .next ((t1.writeStatus lst code det).deliver b code)) ∧
    (∀ t1 l, t.checkRecord b.addr = (t1, .ok l) →
      exec .launchAcceptance s = .next
        (((({ t1 with nextUid := t1.nextUid + 1 }).putLaunch t1.nextUid l).writeStatus l.lstat 0x01 0).deliver b 0x01))) ∧
  (∀ (s : State) (wk sp : Nat) (w : Warp) (p : Split) (id code : Nat) (addr : Word) (pend : Pend) (x : Ctl) (o : Slots),
    s.warpAt wk = some w → w.splitAt sp = some p → p.stop = some (.launch id pend) → pend.i = .launch x o →
    s.deliver { id := id, addr := addr, src := .word wk sp } code =
      (s.putWarp wk (writeDst w o.a pend.T .general (fun _ => BitVec.ofNat 64 code))).seqAct wk sp x.seq)

/-- What a warp starts with (R42, R145, R150): zero registers but the items' words, `$slim` 16, `$rnd` of its place, `$sp`
below the entry's frame, and one split of its threads at the entry's first word. -/
def Claim.startsClean (s : State) (k blk wid : Nat) (bid : BitVec 32) (entry : Word) (hw : Word128) (exited : Mask)
    (d weight : Sparse Word) : Prop :=
  let w := s.newWarp k blk wid bid entry hw exited d weight
  let frame := 16 * ((hw.extractLsb' 96 16 : BitVec 16)).toNat
  w.blk = blk ∧ w.wid = wid ∧ w.exited = exited ∧ w.slim = 16 ∧ w.handler = none ∧ w.restart = 0 ∧
  (∀ i t, w.wGet i = 0 ∧ w.nGet i = 0 ∧ w.mGet i = 0 ∧ w.pGet i t = decide (i = 7) ∧ w.qGet i = decide (i = 3) ∧
    w.statusOf t = 0 ∧ w.dGet i t = Sparse.get 0 d (32 * i + t)) ∧
  (s.stackLo k + frame ≤ s.stackHi k → w.sp = BitVec.ofNat 64 (s.stackHi k - frame) ∧ w.badFrame = false) ∧
  (∀ t, t < 32 → w.rndOf t = 0x9E3779B97F4A7C15 ^^^
    BitVec.ofNat 64 (Nat.lor (Nat.lor (bid.toNat * 2 ^ 13) (wid * 2 ^ 5)) t)) ∧
  ∃ p, w.splits = [p] ∧ w.stacked = [] ∧ p.mask = ~~~ exited ∧ p.hdr = entry ∧ p.hw = hw ∧ p.idx = 1 ∧ p.stop = none

/-- R33, R36, R39, R42, R43: a guard that reads zero skips its launch (0x03); otherwise the launch runs with its blocks to
admit. A block is admitted where its core has room and it is first in line, but none while a checkpoint runs (R356). A block
whose warps have exited and whose commands have completed ends, and the last ends its launch with DONE (0x02). A launch that
ends is gone with every block. The local index of an AFFINITY block is the model's choice (log entry 112). -/
def Obligations.LaunchesAreGuardedAdmittedAndEnd : Prop :=
  (∀ s k blk wid bid entry hw exited d weight, Claim.startsClean s k blk wid bid entry hw exited d weight) ∧
  (∀ (s : State) (lid : Nat) (l : Launch), s.launchAt lid = some l → l.st = .accepted →
    (s.time.toNat < l.start.toNat → exec (.guardRead lid) s = .next s) ∧
    (l.start.toNat ≤ s.time.toNat →
      (l.guard = 0 → l.kind ≠ 1 →
        exec (.guardRead lid) s = .next (s.putLaunch lid { l with st := .running, bound := none, toAdmit := rectBlocks l })) ∧
      (l.guard = 0 → l.kind = 1 → ∃ (t : State) (l' : Launch), exec (.guardRead lid) s = .next t ∧
        t.launchAt lid = some l' ∧ l'.st = .running ∧ l'.toAdmit.map Prod.fst = List.range l.nblocks) ∧
      (l.guard ≠ 0 → l.guard.toNat % 4 = 0 → ∀ s1 bs, s.devRead .read l.guard 4 = (s1, some bs) →
        (leNat bs = 0 → exec (.guardRead lid) s = .next (s1.dropUnstarted lid 0x03)) ∧
        (leNat bs ≠ 0 → l.kind ≠ 1 → exec (.guardRead lid) s = .next
          (s1.putLaunch lid { l with st := .running, bound := some (leNat bs), toAdmit := rectBlocks l }))) ∧
      (l.guard.toNat % 4 ≠ 0 → exec (.guardRead lid) s = .next (s.dropUnstarted lid 0x04)))) ∧
  (∀ (s : State) (lid core : Nat), s.power.ckst = 3 → exec (.blockAdmission lid core) s = .next s) ∧
  (∀ (s : State) (lid core : Nat) (l : Launch), s.launchAt lid = some l → l.st = .running → s.power.ckst ≠ 3 →
    (l.kind = 1 → ∀ b, l.toAdmit.find? (fun y => y.2 = core) = some b → s.coreOn core = true →
      s.waitsOn lid l core = true → s.firstOn lid l core = true → s.roomFor core l.part l.warps 1 lid = true →
      ∃ (t : State) (y : Block), exec (.blockAdmission lid core) s = .next t ∧
        t = (s.putLaunch lid { l with toAdmit := l.toAdmit.filter (fun z => z ≠ b) }).admitBlock lid l b ∧
        t.blockAt s.nextUid = some y ∧ y.launch = lid ∧ y.core = core ∧ y.bid = BitVec.ofNat 32 b.1 ∧ y.live = []) ∧
    (l.kind = 0 → l.toAdmit ≠ [] →
      (∀ y, y ∈ rectCores l.origin.1 l.origin.2 l.tw l.th →
        s.coreOn y = true ∧ s.firstOn lid l y = true ∧ s.roomFor y l.part l.warps l.bpc lid = true) →
      exec (.blockAdmission lid core) s = .next
        (l.toAdmit.foldl (fun st b => st.admitBlock lid l b) (s.putLaunch lid { l with toAdmit := [] })))) ∧
  (∀ (s : State) (b : Nat) (x : Block) (l : Launch), s.blockAt b = some x → s.launchAt x.launch = some l → l.kind ≠ 2 →
    s.blockWarps b = [] → (∀ c ∈ s.cmds, c.blk ≠ b) → (∀ f ∈ (s.coreAt x.core).matrix.forms, f.blk ≠ b) →
    let t := s.removeBlock b
    t.blockAt b = none ∧
    exec (.blockEnd b) s = .next
      (if l.toAdmit = [] ∧ t.launchBlocks x.launch = [] ∧ (∀ v ∈ t.saved, v.alive = true → v.blk.launch ≠ x.launch)
        then t.endLaunch x.launch 0x02 else t)) ∧
  (∀ (s : State) (lid code : Nat) (l : Launch), s.launchAt lid = some l →
    (s.endLaunch lid code).launchAt lid = none ∧
    (∀ b x, (s.endLaunch lid code).blockAt b = some x → x.launch ≠ lid) ∧
    ((s.blocks.map Prod.fst).Nodup → ∀ b x, s.blockAt b = some x → x.launch ≠ lid →
      (s.endLaunch lid code).blockAt b = some x))

/-- R52-R55: the packer forms a warp of a stage's loose items once the oldest has waited `ptime` ns; a free warp slot of a
block starts with a formed warp's items in its registers; a round on the current tag completes once no unit holds it, and
two clean rounds with the weight word at 2^32 end the launch with DONE (0x02). That formed items stay in the queue until
their warp starts (log entry 54), that a formed warp takes the lowest free slot number and warp slot (109), and that a tag's
count takes in saved contexts (92), are the model's choices. -/
def Obligations.StagesFormWarpsAndTerminate : Prop :=
  (∀ (s : State) (lid stage : Nat) (l : Launch) (g : Stage) (at_ hdr : Word) (rest : List (Word × Word)),
    s.launchAt lid = some l → l.stages[stage]? = some g → g.items.drop (g.formed.foldl (· + ·) 0) = (at_, hdr) :: rest →
    exec (.packerTimeout lid stage) s = .next
      (if at_.toNat + g.ptime ≤ s.time.toNat then
        s.putLaunch lid { l with stages := l.stages.set stage { g with formed := g.formed ++ [rest.length + 1] } } else s)) ∧
  (∀ (s s1 : State) (lid b wid i k n : Nat) (l : Launch) (x : Block) (g : Stage) (rest : List Nat)
    (items : List (List Word × Word)), s.launchAt lid = some l → s.blockAt b = some x → x.launch = lid → l.kind = 2 →
    s.stopping b = false → (List.range l.warps).find? (fun j => !((s.blockWarps b).map (fun e => e.2.wid)).contains j) = some wid →
    nextStage l.stages = some i → s.freeSlot x.core = some k → l.stages[i]? = some g → g.formed = n :: rest → n ≤ 32 →
    s.readItems g (List.range n) = (s1, some items) →
    ∃ (t : State) (w : Warp), exec (.formedWarpStart lid b) s = .next t ∧ t.warpAt k = some w ∧ w.blk = b ∧ w.wid = wid ∧
      w.exited = Mask.ofPred (fun u => n ≤ u) ∧
      (∀ j u, j < g.isize / 8 → u < n → j < 64 → w.dGet j u = (items.getD u ([], 0)).1.getD j 0) ∧
      (∀ u, u < n → w.weightOf u = (items.getD u ([], 0)).2) ∧
      ∃ l', t.launchAt lid = some l' ∧
        l'.stages = l.stages.set i { g with head := g.head + n, items := g.items.drop n, formed := rest }) ∧
  (∀ (s s1 : State) (lid : Nat) (l : Launch) (bs : List Byte), s.launchAt lid = some l → l.kind = 2 → l.st = .running →
    l.toAdmit = [] →
    (s.tagCount lid l l.term.cur ≠ 0 → exec (.terminationRound lid) s = .next s) ∧
    (s.tagCount lid l l.term.cur = 0 → s.devRead .read l.wword 8 = (s1, some bs) →
      let clean := decide (l.term.cur ∉ l.term.dirty)
      let streak := if clean then l.term.streak + 1 else 0
      exec (.terminationRound lid) s = .next
        (if 2 ≤ streak ∧ leNat bs = 2 ^ 32 then s1.endLaunch lid 0x02
         else s1.putLaunch lid { l with
           term := {
             cur := 1 - l.term.cur, streak := streak, dirty := l.term.dirty.filter (· ≠ l.term.cur) } })))

/-! ## The fault queue and invalidations -/

/-- R302, R303, R263, R270, Table 20.3: the oldest event is written as 64 bytes to the ring's next slot, and the head and the
sequence number advance, unless the queue is not configured or full. A replay reply is accepted for causes 0x20 to 0x23, a
resume reply for HALT (0x25); a fatal reply ends the launch with FAULTED (0x04), after its command has ended with FAULT
(0x0A), or STORE (0x09) for the epilogue. -/
def Claim.FaultRecordsAndTheirReplies : Prop :=
  (∀ (r : FRec) (seq : BitVec 32), (r.bytes seq).length = 64 ∧ fld (r.bytes seq) 0x00 8 = r.faddr.toNat ∧
    fld (r.bytes seq) 0x08 8 = r.fpc.toNat ∧ fld (r.bytes seq) 0x10 8 = r.flrec.toNat ∧ fld (r.bytes seq) 0x18 4 = seq.toNat ∧
    fld (r.bytes seq) 0x1C 1 = r.fcore % 256 ∧ fld (r.bytes seq) 0x1D 1 = r.floc % 256 ∧
    fld (r.bytes seq) 0x1E 1 = r.fcause % 256 ∧ fld (r.bytes seq) 0x1F 1 = r.facc % 256 ∧
    fld (r.bytes seq) 0x20 4 = r.ftmask.toNat ∧ fld (r.bytes seq) 0x24 4 = r.fbid.toNat ∧
    fld (r.bytes seq) 0x28 2 = r.fdet % 65536) ∧
  (∀ (s : State) (f : FPost) (q : Nat), s.sys.posts.find? (fun g => g.seq.isNone) = some f →
    s.key (s.sys.fqbase.toNat + 64 * (s.sys.fqhead.toNat % ringLen s.sys.fqsize)) = some q →
    (s.sys.fqbase ≠ 0 → (s.sys.fqhead - s.sys.fqtail).toNat < ringLen s.sys.fqsize →
      ∃ (t : State) (y : Sys) (ps : List FPost), exec (.faultRecordPost f.id) s = .next { t with sys := y } ∧
        y = { s.sys with fqhead := s.sys.fqhead + 1, fseq := s.sys.fseq + 1, posts := ps } ∧
        t = s.syncWrite q (f.r.bytes s.sys.fseq) ∧
        (0x20 ≤ f.r.fcause ∧ f.r.fcause ≤ 0x26 → ∃ g ∈ ps, g.id = f.id ∧ g.seq = some s.sys.fseq) ∧
        (¬ (0x20 ≤ f.r.fcause ∧ f.r.fcause ≤ 0x26) → ∀ g ∈ ps, g.id ≠ f.id)) ∧
    (s.sys.fqbase = 0 ∨ ringLen s.sys.fqsize ≤ (s.sys.fqhead - s.sys.fqtail).toNat →
      exec (.faultRecordPost f.id) s = .next s)) ∧
  (∀ (s : State) (seq : BitVec 32) (f : FPost), s.recordOf seq = some f →
    let t := s.closeRecord f.id
    exec (.fqReplyReplay seq) s = .next (if 0x20 ≤ f.r.fcause ∧ f.r.fcause ≤ 0x23 then t.release1 f else s) ∧
    exec (.fqReplyResume seq) s = .next (if f.r.fcause = 0x25 then t.release1 f else s) ∧
    (∀ i c, f.owner = .cmd i → s.cmdAt i = some c → (∀ y v u kd gone, c.k ≠ .unread y v u kd gone) →
      t.release1 f = t.putCmd { c with fault := none }) ∧
    (∀ i c y v u kd gone q pl, f.owner = .cmd i → s.cmdAt i = some c → c.k = .unread y v u kd gone → pushPlanOf y = some (q, pl) →
      let c1 := { c with fault := none }
      (∀ a, (t.putCmd c1).badRead c.blk (pl.reads (t.putCmd c1) c.blk v u) = some a →
        t.release1 f = (t.putCmd c1).engFault c1 (.page causeUCE a false false)) ∧
      ((t.putCmd c1).badRead c.blk (pl.reads (t.putCmd c1) c.blk v u) = none → t.release1 f = (t.putCmd c1).rereadCmd c1)) ∧
    (∀ k pid w, (∀ i, f.owner ≠ .cmd i) → (∀ i, f.owner ≠ .copyBack i) → t.waiterOf f.id = some (k, pid) →
      t.warpAt k = some w → t.stopping w.blk = false → t.release1 f = t.afterReply k pid) ∧
    ((∀ i, f.owner ≠ .cmd i) → ∀ l, f.launch = some l → exec (.fqReplyFatal seq) s = .next (t.endLaunch l 0x04)) ∧
    (∀ i c l, f.owner = .cmd i → s.cmdAt i = some c → f.launch = some l → (∀ op nc u fr a b, c.k ≠ .conjOp op nc u fr a b) →
      exec (.fqReplyFatal seq) s = .next
        (((t.endCmd { c with fault := none } (if c.port = .ep then 0x09 else 0x0A) 0 false).dropFollow c.blk c.follow
          arrFault).endLaunch l 0x04)) ∧
    (∀ i c l op nc u fr a b, f.owner = .cmd i → s.cmdAt i = some c → f.launch = some l → c.k = .conjOp op nc u fr a b →
      exec (.fqReplyFatal seq) s = .next ((t.dropCmd c.id).endLaunch l 0x04)))

/-- R307: TINV begins an invalidation, and its completion leaves no cached translation; ICINV likewise leaves no cached slot of
code. Memory stays. -/
def Claim.InvalidationsEmptyTheirCaches : Prop :=
  ∀ s : State,
    (∀ v, s.ident.state = 1 → ∃ t : State, exec (.tinv v) s = .next t ∧ t.sys = { s.sys with tinv := some v } ∧
      t.mem = s.mem ∧ t.warps = s.warps) ∧
    (s.late ≠ [] ∨ s.reds ≠ [] → exec .tinvComplete s = .next s) ∧
    (s.sys.tinv.isSome = true → s.late = [] → s.reds = [] → ∃ t : State, exec .tinvComplete s = .next t ∧ t.sys = { s.sys with tinv := none } ∧
      t.mem = s.mem ∧ t.warps = s.warps ∧
      (∀ e, e ∈ t.cores → e.2.tlb = []) ∧ (∀ e, e ∈ t.domes → e.2.walks = [])) ∧
    (s.ident.state = 1 → exec .icinv s = .next { s with sys := { s.sys with icinv := true } }) ∧
    (s.sys.icinv = true → ∃ t : State, exec .icinvComplete s = .next t ∧ t.sys = { s.sys with icinv := false } ∧
      t.mem = s.mem ∧ t.warps = s.warps ∧ (∀ e, e ∈ t.cores → e.2.code = []))

/-- R263, R270, R302, R303, R307: what the fault queue receives, what the driver's replies do, and what its invalidations
leave. That a fatal reply first ends the command and then its launch, and that an invalidation of translations drops every
one of them, are readings of the model (log entries 41 and 61). -/
def Obligations.FaultQueueRepliesAndInvalidations : Prop :=
  Claim.FaultRecordsAndTheirReplies ∧ Claim.InvalidationsEmptyTheirCaches

/-! ## Pre-emption and restore -/

/-- What a save keeps of a warp (R309, R312): its registers, its stack pointer and where its splits stand. -/
def Claim.savedAs (w w' : Warp) : Prop :=
  w'.wid = w.wid ∧ w'.exited = w.exited ∧ w'.d = w.d ∧ w'.w = w.w ∧ w'.p = w.p ∧ w'.q = w.q ∧ w'.n = w.n ∧ w'.m = w.m ∧
  w'.status = w.status ∧ w'.rnd = w.rnd ∧ w'.weight = w.weight ∧ w'.slim = w.slim ∧ w'.sp = w.sp ∧ w'.restart = w.restart ∧
  w'.splits.map (fun p => (p.id, p.mask, p.hdr, p.idx)) = w.splits.map (fun p => (p.id, p.mask, p.hdr, p.idx))

/-- A word of this warp is under way: what it still has to do is left to later steps. -/
def Claim.atRest (w : Warp) : Prop := ∀ p i, p ∈ w.splits → p.stop ≠ some (.underway i)

/-- The saved contexts after one more has taken these areas: one whose first area is among them is in no area any more. -/
def Claim.retire (areas : List Word) (l : List Saved) : List Saved :=
  l.map (fun y => if y.areas.head?.any areas.contains then { y with areas := [] } else y)

/-- R308, R309, R312: a pre-emption of a block whose commands and accesses have all completed saves it at once where the list
has the areas it needs: the block is no longer resident, and one saved context holds it, its warps among it. Where the list
is too short the block keeps running and `pres` reads 1. -/
def Claim.QuietBlocksAreSaved : Prop :=
  ∀ (s : State) (b : Nat) (x : Block) (l : Launch), s.blockAt b = some x → s.launchAt x.launch = some l →
    s.sys.saving = [] → s.sys.cancel = none → s.waits = [] → s.late = [] → (∀ c ∈ s.cmds, c.blk ≠ b) →
    (∀ k w, s.warpAt k = some w → w.blk = b → Claim.atRest w) → risingFrom 0 s.warps = true →
    let read := s.areaList 65536 s.sys.parea.toNat
    let areas := read.2
    let n := if s.idempotent b x then 1 else (max 1 (s.stateBytes b x) + 256 + areaBytes - 1) / areaBytes
    let t := s.preempt [(b, x)]
    (areas.length < n → t = { read.1 with sys := { s.sys with pbusy := false, pcount := 0, pres := 1 } }) ∧
    (n ≤ areas.length → t.blockAt b = none ∧ t.sys.pbusy = false ∧ t.sys.pcount = 1 ∧ t.sys.pres = 0 ∧ t.sys.saving = [] ∧
      (∀ k w, s.warpAt k = some w → w.blk = b → t.warpAt k = none) ∧
      ∃ y, t.saved = Claim.retire (areas.take n) s.saved ++ [y] ∧ y.blkId = b ∧ y.blk = { x with tiles := [] } ∧ y.areas = areas.take n ∧
        y.idem = s.idempotent b x ∧ y.lost = s.losesMatrix b x ∧ y.core = x.core ∧ y.alive = true ∧ y.cmds = [] ∧
        ∀ k w, s.warpAt k = some w → w.blk = b → ∃ w', (k, w') ∈ y.warps ∧ Claim.savedAs w w')

/-- R309, R283: a pre-emption of a block with a copy in flight leaves the block resident and the copy running, and is busy; the
block's queued copies are handed to its context, and it keeps no tile. Once the block is quiet it is saved, and the
pre-emption is done with the last. -/
def Claim.CopiesInFlightComplete : Prop :=
  (∀ (s : State) (b : Nat) (x : Block) (l : Launch) (c : Cmd), s.blockAt b = some x → s.launchAt x.launch = some l →
    s.sys.saving = [] → s.sys.cancel = none → c ∈ s.cmds → c.blk = b → c.port = .cp → c.started = true →
    (∀ y z, y ∈ s.cmds → z ∈ s.cmds → y.id = z.id → y = z) → (∀ y ∈ s.cmds, y.id < s.nextUid) →
    let areas := (s.areaList 65536 s.sys.parea.toNat).2
    let n := if s.idempotent b x then 1 else (max 1 (s.stateBytes b x) + 256 + areaBytes - 1) / areaBytes
    let t := s.preempt [(b, x)]
    n ≤ areas.length →
      (∃ y, t.blockAt b = some y ∧ y.tiles = []) ∧ t.sys.pbusy = true ∧ t.sys.pcount = 0 ∧ t.sys.pres = 0 ∧
      (∃ y, y ∈ t.cmds ∧ y.id = c.id ∧ y.port = .cp ∧ y.started = true) ∧
      ∃ v, t.sys.saving = [v] ∧ v.blk = b ∧ v.areas = areas.take n ∧ v.idem = s.idempotent b x ∧
        ∀ q ∈ s.cmds, q.blk = b → q.port = .cp → q.started = false →
          (∀ y ∈ t.cmds, y.id ≠ q.id) ∧ ∃ y ∈ v.cmds, y.id = q.id) ∧
  (∀ (s : State) (v : Saving) (x : Block) (l : Launch), s.sys.pbusy = true → s.sys.cancel = none → s.sys.saving = [v] →
    s.blockAt v.blk = some x → s.launchAt x.launch = some l →
    (s.quiet v.blk = false → s.saveTurn = s) ∧
    (s.quiet v.blk = true →
      s.saveTurn = { s.saveBlock v x l with sys := { (s.saveBlock v x l).sys with pbusy := false } }))

/-- R308, R309, R312, R315: while none is under way, a pre-emption of a core or of the named launch takes its blocks off; a
block that is saved is no longer resident, stands whole in a saved context, counts in `pcount` and posts SAVED (0x30). A
cancellation of the named launch ends it once the copies its blocks have in flight have completed. Where a context keeps its
registers until it is restored, all of them with the restore clearing those that are not live (log entries 76 and 39), that
an idempotent block takes one area and no release (38), when matrix state is kept (114), and that a context whose first area
is taken again is in no area (121), are the model's choices. -/
def Obligations.PreemptionSavesBlocksAndCancels : Prop :=
  (∀ s : State, s.ident.state = 1 → s.sys.pbusy = false →
    (∀ core, exec (.preEmptCore core) s = .next (s.preempt (s.coreBlocks core.toNat)) ∧
      (s.coreBlocks core.toNat = [] → s.sys.saving = [] → s.sys.cancel = none →
        s.preempt (s.coreBlocks core.toNat) = { (s.areaList 65536 s.sys.parea.toNat).1 with
          sys := { s.sys with pbusy := false, pcount := 0, pres := 0 } })) ∧
    (s.namedLaunch = none →
      exec .preEmptLaunch s = .next { s with sys := { s.sys with pcount := 0, pres := 0 } } ∧
      exec .cancelLaunch s = .next { s with sys := { s.sys with pcount := 0, pres := 0 } }) ∧
    (∀ lid l, s.namedLaunch = some (lid, l) →
      exec .preEmptLaunch s = .next (s.preempt (s.launchBlocks lid)) ∧
      (s.late = [] → (∀ c ∈ s.cmds, ∀ e ∈ s.launchBlocks lid, c.blk ≠ e.1) → (∀ k w, s.warpAt k = some w → Claim.atRest w) →
        ∃ t : State, exec .cancelLaunch s = .next t ∧ t.launchAt lid = none ∧ t.sys.pbusy = false ∧
          t.sys.pcount = BitVec.ofNat 16 (s.launchBlocks lid).length ∧ t.sys.pres = 0) ∧
      (∀ c e, c ∈ s.cmds → (∀ y ∈ s.cmds, y.id = c.id → y = c) → c.id < s.nextUid → e ∈ s.launchBlocks lid → c.blk = e.1 → c.port = .cp →
        c.started = true →
        ∃ t : State, exec .cancelLaunch s = .next t ∧ t.launchAt lid = some { l with toAdmit := [] } ∧ t.sys.pbusy = true ∧
          t.sys.cancel = some (lid, (s.launchBlocks lid).length)))) ∧
  Claim.QuietBlocksAreSaved ∧ Claim.CopiesInFlightComplete ∧
  (∀ s : State, s.ident.state ≠ 1 ∨ s.sys.pbusy = true →
    (∀ core, exec (.preEmptCore core) s = .next s) ∧ exec .preEmptLaunch s = .next s ∧ exec .cancelLaunch s = .next s) ∧
  (∀ (s : State) (v : Saving) (x : Block) (l : Launch), s.blockAt v.blk = some x → s.launchAt x.launch = some l →
    let t := s.saveBlock v x l
    t.blockAt v.blk = none ∧ t.sys.pcount = s.sys.pcount + 1 ∧
    (∃ y, t.saved = Claim.retire v.areas s.saved ++ [y] ∧ y.blk = x ∧ y.blkId = v.blk ∧ y.areas = v.areas ∧ y.idem = v.idem ∧ y.lost = v.lost ∧
      y.alive = true ∧ y.warps.map (fun e => (e.1, e.2.wid)) = (s.blockWarps v.blk).map (fun e => (e.1, e.2.wid))) ∧
    (∃ f, t.sys.posts = s.sys.posts ++ [f] ∧ f.r.fcause = 0x30 ∧ f.r.fbid = x.bid ∧ f.r.fcore = x.core ∧
      f.r.faddr = v.areas.headD 0))

/-- The headers of the blocks that a saved warp stands in: those of its splits, live and stacked, and of its parked joins
(R146). -/
def Claim.standsIn (w : Warp) (hw : Word128) : Prop :=
  (∃ p, (p ∈ w.splits ∨ p ∈ w.stacked) ∧ p.hw = hw) ∨ (∃ r ∈ w.recs, r.parked ≠ 0 ∧ r.join.isSome = true ∧ r.hw = hw)

/-- The registers of a restored warp (R146, R313): those its blocks' headers keep live hold what they held, the others read 0,
and everything that no header speaks of is as it was. -/
def Claim.liveKept (w w' : Warp) : Prop :=
  (∀ i t, t < 32 →
    ((∃ hw, Claim.standsIn w hw ∧ i < (Header.ofSlot hw).dlive.toNat) → w'.dGet i t = w.dGet i t) ∧
    ((∀ hw, Claim.standsIn w hw → (Header.ofSlot hw).dlive.toNat ≤ i) → w'.dGet i t = 0)) ∧
  (∀ i, ((∃ hw, Claim.standsIn w hw ∧ i < (Header.ofSlot hw).wcount) → w'.wGet i = w.wGet i) ∧
    ((∀ hw, Claim.standsIn w hw → (Header.ofSlot hw).wcount ≤ i) → w'.wGet i = 0)) ∧
  w'.p = w.p ∧ w'.q = w.q ∧ w'.n = w.n ∧ w'.m = w.m ∧ w'.status = w.status ∧ w'.rnd = w.rnd ∧ w'.weight = w.weight ∧
  w'.slim = w.slim ∧ w'.restart = w.restart ∧ w'.wid = w.wid ∧ w'.exited = w.exited

/-- R311, R313: a restored warp goes on where its splits stood, with its stack pointers moved with its stack. One of a block
that has lost matrix state, and whose `$restart` names a header, stands there as one split of all its threads, with the
stack of that header; it still waits for the reply where it had halted its block. -/
def Claim.restored (s : State) (v : Saved) (e : Nat × Warp) (k : Nat) (w' : Warp) : Prop :=
  let w := e.2
  let move := (s.shiftOf v e k).move
  Claim.liveKept w w' ∧
  (v.lost = false ∨ w.restart = 0 → w'.splits = w.splits ∧ w'.stacked = w.stacked ∧ w'.recs = w.recs ∧ w'.sp = w.sp + move ∧
    w'.calls.map (fun c => (c.ret, c.sp)) = w.calls.map (fun c => (c.ret, c.sp + move))) ∧
  (v.lost = true → w.restart ≠ 0 → w'.stacked = [] ∧ w'.calls = [] ∧ ∃ p, w'.splits = [p] ∧ p.mask = ~~~ w.exited ∧
    p.hdr = w.restart ∧ p.stop = w.splits.findSome? haltStop ∧ (p.idx = 0 ∨ (p.idx = 1 ∧
      w'.sp = BitVec.ofNat 64 (s.stackHi k - 16 * (Header.ofSlot p.hw).frame.toNat))))

/-- R310, R311, R313: a restore is queued where its context is intact, its place is right and it can fit; otherwise RESTORE
refused (0x32) is posted with DAMAGED (3), PLACE (2) or CAPACITY (1). A queued one waits for its core and for room, posts
one record (0x33) when it has waited too long, and then puts the block back on its core, its warps where they stood,
posting RESTORED (0x31). An idempotent block is admitted afresh, and one that has lost matrix state and names no restart is
UNRECOVERABLE (0x26). What it needs room for, beside an admission's resources, is a reading of the model (log entry 36). -/
def Obligations.RestoresAreCheckedQueuedAndPerformed : Prop :=
  (∀ (s : State) (core : Byte), s.ident.state = 1 →
    (s.saved.find? (fun v => v.alive && v.areas.head? = some s.sys.rarea) = none →
      ∃ (t : State) (f : FPost), exec (.restoreQueue core) s = .next t ∧ t.sys.posts = s.sys.posts ++ [f] ∧
        f.r.fcause = 0x32 ∧ f.r.fdet = 3 ∧ f.r.faddr = s.sys.rarea ∧ t.rests = s.rests) ∧
    (∀ v l, s.saved.find? (fun v => v.alive && v.areas.head? = some s.sys.rarea) = some v →
      s.launchAt v.blk.launch = some l →
      let target := if core = 0xFF then v.core else core.toNat
      let code := if s.areaImage v.areas ≠ v.image then 3
        else if s.coreOn target = false ∨ (target ≠ v.core ∧ (l.kind ≠ 1 ∨ l.reloc = true)) then 2
        else if 192 < partG l.part ∨ 64 < partRegg l.part ∨ 128 < partSp2 l.part ∨ 256 < l.warps ∨ 2304 < v.nbars ∨
          s.ctl.stksize.toNat < v.stk then 1 else 0
      (code ≠ 0 → ∃ (t : State) (f : FPost), exec (.restoreQueue core) s = .next t ∧ t.sys.posts = s.sys.posts ++ [f] ∧
        f.r.fcause = 0x32 ∧ f.r.fdet = code ∧ t.rests = s.rests) ∧
      (code = 0 → ∃ r : Rest, exec (.restoreQueue core) s = .next { s with rests := s.rests ++ [r] } ∧
        r.target = target ∧ r.ctx = some v.id ∧ r.since = s.time))) ∧
  (∀ (s : State) (k i : Nat) (r : Rest) (v : Saved) (l : Launch), s.rests[k]? = some r → r.ctx = some i →
    s.saved.find? (fun v => v.id = i && v.alive && v.areas ≠ []) = some v → s.launchAt v.blk.launch = some l →
    (r.copying = true ∨ s.power.ckst = 3 ∨ s.coreOn r.target = false ∨ s.fits v l r.target = false →
      exec (.restore k) s = .next s) ∧
    (r.copying = false → s.power.ckst ≠ 3 → s.coreOn r.target = true → s.fits v l r.target = true → v.idem = true →
      ∃ (t : State) (f : FPost), exec (.restore k) s = .next t ∧
        t.blockAt v.blkId = some (newBlock v.blk.launch r.target v.blk.pos v.blk.k v.blk.bid v.blk.ehw) ∧
        (∀ y, y ∈ t.saved → y.id ≠ v.id) ∧ r ∉ t.rests ∧ f ∈ t.sys.posts ∧ f.r.fcause = 0x31 ∧ f.r.fcore = r.target) ∧
    (r.copying = false → s.power.ckst ≠ 3 → s.coreOn r.target = true → s.fits v l r.target = true → v.idem = false →
      v.lost = true → (∀ e ∈ v.warps, e.2.restart = 0) →
      ∃ (t : State) (f : FPost), exec (.restore k) s = .next t ∧ t.sys.posts = s.sys.posts ++ [f] ∧ f.r.fcause = 0x26 ∧
        r ∉ t.rests ∧ t.blocks = s.blocks) ∧
    (r.copying = false → s.power.ckst ≠ 3 → s.coreOn r.target = true → s.fits v l r.target = true → v.idem = false →
      (v.lost = false ∨ ∃ e ∈ v.warps, e.2.restart ≠ 0) → (∀ c ∈ v.cmds, ∀ i u t kd gone, c.k ≠ .unread i u t kd gone) →
      let slots := s.placeWarps r.target ((List.range 256).filterMap (fun i => v.warps.find? (fun e => e.2.wid = i)))
      ∀ s1, s.moveStacks r.target (slots.map (fun y => s.shiftOf v y.1 y.2)) = (s1, .ok ()) →
      ∃ (t : State) (f : FPost), exec (.restore k) s = .next t ∧
        t.blockAt v.blkId = some { v.blk with core := r.target, tiles := [], bankUsed := false } ∧
        (∀ y, y ∈ t.saved → y.id ≠ v.id) ∧ r ∉ t.rests ∧ f ∈ t.sys.posts ∧ f.r.fcause = 0x31 ∧ f.r.fcore = r.target ∧
        ∀ y ∈ slots, ∃ w', t.warpAt y.2 = some w' ∧ Claim.restored s v y.1 y.2 w')) ∧
  (∀ (s : State) (k i : Nat) (r : Rest) (v : Saved), s.rests[k]? = some r → r.ctx = some i →
    s.saved.find? (fun v => v.id = i) = some v → r.capped = false →
    (s.time.toNat < r.since.toNat + s.ctl.restorewait.toNat → exec (.restcap k) s = .next s) ∧
    (r.since.toNat + s.ctl.restorewait.toNat ≤ s.time.toNat →
      ∃ (t : State) (f : FPost), exec (.restcap k) s = .next t ∧ t.rests = s.rests.set k { r with capped := true } ∧
        t.sys.posts = s.sys.posts ++ [f] ∧ f.r.fcause = 0x33))

/-! ## The control window, the host, and what runs by itself -/

/-- R155, R302, R308, R313, R342, R344, R356, R357, R359, R287: writes of the control window. A control register takes a
value its check accepts, else `ctlerr` is set; the other registers take theirs, read-only and reserved ranges take none; the
power cap is brought into 1,000 to 4,200; writing a counter's selection clears it. A window that is not open ignores all, and
an access that is misaligned, not of 8 bytes or past the window is answered with Unsupported Request. A read answers the
register. What a write of a queue's place resets, and the reserved bits dropped, are readings of the model (log entry 42). -/
def Obligations.ControlWindowWritesAreCheckedAndStored : Prop :=
  ∀ s : State,
    (s.ident.state = 1 →
      (∀ sel v, exec (.ctlHostWrite sel v) s = .next
        (if ctlOk sel v (s.blocks.any (fun e => e.2.isSome)) then s.ctlStore sel v
         else { s with sys := { s.sys with ctlerr := true } })) ∧
      exec .ctlerrClear s = .next { s with sys := { s.sys with ctlerr := false } } ∧
      (∀ off v, off % 8 ≠ 0 ∨ s.ident.bar0 < off + 8 → exec (.controlWindowWrite off v) s =
        .next { s with hostRead := s.hostRead ++ [{ bar := 0, off := off, value := none }] }) ∧
      (∀ v : Word, 2 ^ 16 ≤ s.ident.bar0 →
        exec (.controlWindowWrite 0x1000 v) s = .next (if s.sys.fqhead = s.sys.fqtail
          then { s with sys := { s.sys with fqbase := v &&& ~~~ 0xFFF } } else s) ∧
        exec (.controlWindowWrite 0x1008 v) s = .next { s with sys := { s.sys with fqsize := v &&& 0xF } } ∧
        exec (.controlWindowWrite 0x1018 v) s = .next (if v.toNat ≤ s.sys.fqhead.toNat
          then { s with sys := { s.sys with fqtail := v } } else s) ∧
        exec (.controlWindowWrite 0x1040 v) s = .next { s with sys := { s.sys with plaunch := v } } ∧
        exec (.controlWindowWrite 0x1048 v) s = .next { s with sys := { s.sys with parea := v } } ∧
        exec (.controlWindowWrite 0x1050 v) s = .next { s with sys := { s.sys with rarea := v } } ∧
        (∀ off, off < 0x1000 → off % 8 = 0 → exec (.controlWindowWrite off v) s = .next s) ∧
        (∀ p, p < 768 → exec (.controlWindowWrite (0x4000 + 8 * p) v) s =
          .next { s with peers := Sparse.set 0 s.peers p (v &&& 0x800FFFFFFFFFFFFF) }) ∧
        (∀ q, q < 8 → (s.hostq.getD q HostQ.reset).qhead = (s.hostq.getD q HostQ.reset).qtail → v.toNat % 64 = 0 →
          exec (.controlWindowWrite (0x3000 + 64 * q) v) s = .next { s with
            hostq := s.hostq.set q { (s.hostq.getD q HostQ.reset) with qbase := v, qtail := 0, qhead := 0 } })) ∧
      (∀ v, ∃ n, exec (.pcap v) s = .next { s with power := { s.power with pcap := n } } ∧ 1000 ≤ n ∧ n ≤ 4200 ∧
        (1000 ≤ v.toNat → v.toNat ≤ 4200 → n = v.toNat)) ∧
      (∀ u unit i v, unit < unitCount u → ∃ t : State, exec (.counterSelectWrite u unit i v) s = .next t ∧
        Sparse.get { sel := 0, val := 0 } t.counters (counterKey u unit i.val) = { sel := v.setWidth 32 &&& 0xBFFFFFFF, val := 0 } ∧
        t = { s with counters := t.counters } ∧
        ∀ k, k ≠ counterKey u unit i.val →
          Sparse.get { sel := 0, val := 0 } t.counters k = Sparse.get { sel := 0, val := 0 } s.counters k) ∧
      (∀ v, exec (.snextArm v) s = .next { s with ring := { s.ring with snext := v } }) ∧
      exec .snextDisarm s = .next { s with ring := { s.ring with snext := 0 } } ∧
      exec .rstatClear s = .next { s with ring := { s.ring with refused := false, reason := 0 } }) ∧
    (s.ident.state ≠ 1 → ∀ sel v off,
      exec (.ctlHostWrite sel v) s = .next s ∧ exec .ctlerrClear s = .next s ∧
      (0x1000 ≤ off → exec (.controlWindowWrite off v) s =
        .next { s with hostRead := s.hostRead ++ [{ bar := 0, off := off, value := none }] }) ∧
      exec (.pcap v) s = .next s ∧ exec (.snextArm v) s = .next s) ∧
    (∀ off n, s.windowRead off n = { s with hostRead := s.hostRead ++ [{
      bar := 0, off := off
      value := if n = 8 ∧ off % 8 = 0 ∧ off + 8 ≤ s.ident.bar0 ∧ (s.ident.state = 1 ∨ off < 0x1000) then some (s.controlWord off)
        else none }] }) ∧
    s.controlWord 0x0000 = BitVec.ofNat 64 s.ident.state ∧ s.controlWord 0x1010 = s.sys.fqhead ∧
    s.controlWord 0x7FF8 = (if s.sys.ctlerr then 1 else 0) ∧ s.controlWord 0x6000 = BitVec.ofNat 64 s.power.pnow ∧
    (∀ n sel, n < 32 → CtlReg.ofCode n = some sel → s.controlWord (0x7000 + 8 * n) = s.ctl.read sel)

/-- R357: draining the slices writes home what each replica alone holds, and leaves no replica with unwritten bytes. -/
def Claim.SlicesDrain : Prop :=
  ∀ s : State, s.waits = [] →
    (∀ d, (s.drainSlices.domeAt d).dirty = []) ∧
    ∀ d key b, Sparse.get none (s.domeAt d).dirty key = some b →
      (∀ d', d' ≠ d → Sparse.get none (s.domeAt d').dirty key = none) → farKey key = false →
      readMem s.drainSlices.mem key = b

/-- R342, R343, R357: a host write of the memory window stores the bytes it enables at home, and a read of sound lines returns
them; an offset that names no vault in service is answered with Unsupported Request. A checkpoint is refused while a block
is resident; a save drains the slices first, and one that has been taken has copied every byte of every vault to host
memory, or back. That the copy is made in the step that ends it is the model's choice (log entry 45). -/
def Obligations.HostReachesMemoryAndCheckpointsCopyIt : Prop :=
  (∀ (s : State) (off : Nat) (bytes : BitVec 8) (v : Word), s.ident.state = 1 →
    let on := (List.range 8).filter bytes.getLsbD
    let keys := on.filterMap (fun i => s.windowKey (off + i))
    let no : HostAns := { bar := 2, off := off, value := none }
    (keys.length = on.length → exec (.hostMemoryWrite off { enables := bytes, value := v }) s =
      .next (s.syncWriteAt keys (on.map (fun i => v.extractLsb' (8 * i) 8)))) ∧
    (keys.length ≠ on.length →
      exec (.hostMemoryWrite off { enables := bytes, value := v }) s = .next { s with hostRead := s.hostRead ++ [no] })) ∧
  (∀ (s : State) (off : Nat), s.ident.state = 1 → s.power.inReset = [] →
    let keys := (List.range 8).filterMap (fun i => s.windowKey (off + i))
    (keys.length = 8 → ∃ r : Word, exec (.hostMemoryRead off) s =
        .next { s with hostRead := s.hostRead ++ [{ bar := 2, off := off, value := some r }] } ∧
      ((∀ k, k ∈ keys → s.lineBad k = false) → ∀ i, i < 8 → r.extractLsb' (8 * i) 8 = readMem s.mem (keys.getD i 0))) ∧
    (keys.length ≠ 8 → exec (.hostMemoryRead off) s =
      .next { s with hostRead := s.hostRead ++ [{ bar := 2, off := off, value := none }] })) ∧
  (∀ (s : State) (a : Word), s.ident.state = 1 → s.power.ckst ≠ 3 →
    let at_ : Word := a &&& ~~~ 0xFFF
    ((∃ e ∈ s.blocks, e.2.isSome = true) →
      exec (.checkpointSave a) s = .next { s with power := { s.power with ckaddr := at_, ckst := 5 } } ∧
      exec (.checkpointRestore a) s = .next { s with power := { s.power with ckaddr := at_, ckst := 5 } }) ∧
    ((∀ e ∈ s.blocks, e.2.isSome = false) →
      exec (.checkpointSave a) s = .next { s.drainSlices with power := { s.power with ckaddr := at_, ckcmd := 1, ckst := 3 } } ∧
      exec (.checkpointRestore a) s = .next { s with power := { s.power with ckaddr := at_, ckcmd := 2, ckst := 3 } })) ∧
  Claim.SlicesDrain ∧
  (∀ (s : State), s.power.ckst = 3 → Memory.wf s.mem = true →
    let a := s.power.ckaddr
    ∃ t : State, exec .checkpointDone s = .next t ∧ t.power = { s.power with ckst := 4 } ∧ Memory.wf t.mem = true ∧
      (∀ k h, s.ckOf a k = some h → s.ckFrom a h = some k →
        (s.power.ckcmd = 1 → (∀ c ∈ s.mem, s.ckOf a c.1 = some h → c.1 = k) → readMem t.mem h = readMem s.mem k) ∧
        (s.power.ckcmd ≠ 1 → (∀ c ∈ s.mem, s.ckFrom a c.1 = some k → c.1 = h) → readMem t.mem k = readMem s.mem h)))

/-- R101, R102: what the end of an epoch does with a page. A core that made more than half of the requests for it, and at
least `ctl.fmin`, gets the page where the pool has a frame for it. A page that something pending at its slice holds up, or a tower in
reset, keeps its counts; for every other page counting begins anew. -/
def Claim.EpochsFollowTheMajority : Prop :=
  ∀ (s : State) (leaf : Nat),
    let all := ((s.follow.filter (fun e => e.1 = leaf)).map (fun e => e.2.2)).sum
    let anew (u : State) : State := { u with follow := u.follow.map (fun e => if e.1 = leaf then (e.1, e.2.1, 0) else e) }
    ((∀ e ∈ s.follow, e.1 = leaf → 2 * e.2.2 ≤ all ∨ e.2.2 < s.ctl.fmin.toNat) → s.followPage leaf = anew s) ∧
    (∀ core n, (leaf, core, n) ∈ s.follow → all < 2 * n → s.ctl.fmin.toNat ≤ n →
      (s.mayFollow leaf core = false → s.followPage leaf = anew s) ∧
      (s.mayFollow leaf core = true →
        s.pagePending (leafFrame (s.homeWord leaf)) = true ∨ s.migrateHeld leaf core = true → s.followPage leaf = s) ∧
      (s.mayFollow leaf core = true → s.pagePending (leafFrame (s.homeWord leaf)) = false → s.migrateHeld leaf core = false →
        s.migrate leaf core = none → s.followPage leaf = anew s) ∧
      (s.mayFollow leaf core = true → ∀ u, s.migrate leaf core = some u → s.followPage leaf = anew u))

/-- R101, R102, Table 8.10: a page that migrates takes the frame on top of the new vault's list. Its bytes stand in that frame,
its leaf names the frame and keeps its other bits, and its old frame is on the list of its old vault. -/
def Claim.MigratedPages : Prop :=
  ∀ (s u : State) (leaf core kc flc capc topc ko flo capo topo kf kn : Nat), s.migrate leaf core = some u →
    let e := s.homeWord leaf
    let old := leafFrame e
    (leafV e = true ∧ leafPlace e = 1 ∧ paVault old ≠ core ∧ s.vaultOn core = true ∧ s.pagePending old = false ∧
      s.migrateHeld leaf core = false) ∧
    (s.poolEntry core = some (kc, flc, capc, topc) → s.poolEntry (paVault old) = some (ko, flo, capo, topo) →
      s.key (flc + 4 * (topc - 1)) = some kf → s.key (flo + 4 * topo) = some kn → s.waits = [] → core < 144 →
      Memory.wf s.mem = true →
      let n := leNat (readBytes s.mem kf 4)
      let new := core * 2 ^ 33 + n * 65536
      let places := [(leaf, 8), (kn, 4), (ko + 12, 4), (kc + 12, 4)]
      (∀ r ∈ places, r.1 + r.2 ≤ 2 ^ 42 ∧ ∀ i, i < r.2 → inFrame new (r.1 + i) = false) →
      places.Pairwise (fun a b => a.1 + a.2 ≤ b.1 ∨ b.1 + b.2 ≤ a.1) →
      n < 98304 ∧ 0 < topc ∧ topo < capo ∧
      (∀ i, i < 65536 → readMem u.mem (new + i) = readMem s.mem (old + i)) ∧
      (let y : Word := BitVec.ofNat 64 (leNat (readBytes u.mem leaf 8))
       leafFrame y = new ∧ y &&& ~~~ 0xFFFFFFFFF0000 = e &&& ~~~ 0xFFFFFFFFF0000) ∧
      leNat (readBytes u.mem kn 4) = paOff old / 65536 % 2 ^ 32 ∧ leNat (readBytes u.mem (ko + 12) 4) = (topo + 1) % 2 ^ 32 ∧
      leNat (readBytes u.mem (kc + 12) 4) = (topc - 1) % 2 ^ 32)

/-- R101, R102, R354-R356, R358, R41: a tower reset is refused while a block is resident on the tower unless it is forced,
and then ends the launches of those blocks; it empties the tower's cores, caches and slices, and its end puts the tower
back. Sampling marks cores and slices; a marked core with no block retires. A forward time offset above 1 ms is stepped. An
epoch that is over moves each followed page or leaves it. Which accesses count as requests is the model's choice (log entry
46). -/
def Obligations.TowersCoresTimeAndPages : Prop :=
  (∀ (s : State) (d : Fin 16) (force : Bool), s.ident.state = 1 → d.val < 9 →
    let here := ∃ e b, (e, some b) ∈ s.blocks ∧ domeOf b.core = d.val
    (here → force = false →
      exec (.towerReset d force) s = .next { s with power := { s.power with trefused := true } }) ∧
    (¬ here ∨ force = true → ∃ t : State, exec (.towerReset d force) s = .next t ∧ d.val ∈ t.power.inReset ∧
      t.power.trefused = false ∧ (∀ c, c < 144 → domeOf c = d.val → t.coreAt c = {}) ∧ t.domeAt d.val = {} ∧
      (∀ y ∈ t.llc, domeOf (y.1 / 2 ^ 14) ≠ d.val) ∧
      ((∀ e b, (e, some b) ∈ s.blocks → (s.launchAt b.launch).isSome = true) →
        ∀ e b, t.blockAt e = some b → domeOf b.core ≠ d.val) ∧
      (∀ y ∈ t.waits, ∀ e ∈ y.ents, domeOf e.slice ≠ d.val))) ∧
  (∀ (s : State),
    (∀ d, ∃ t : State, exec (.towerResetEnd d) s = .next t ∧ d ∉ t.power.inReset ∧ t = { s with power := t.power } ∧
      ∀ e, e ≠ d → (e ∈ t.power.inReset ↔ e ∈ s.power.inReset)) ∧
    (∀ v, exec (.pstateChange v) s = .next { s with power := { s.power with pstate := v.val } }) ∧
    (∀ off : Int, exec (.timeCorrection off) s =
      .next (if 1000000 < off then { s with time := s.time + BitVec.ofInt 64 off } else s)) ∧
    (∀ cs ss, ∃ t : State, exec (.ageingSample { cores := cs, slices := ss }) s = .next t ∧
      t = { s with marked := t.marked, flash := { s.flash with worn := t.flash.worn } } ∧
      (∀ c, c ∈ t.marked ↔ c ∈ s.marked ∨ (c ∈ cs ∧ c < 144 ∧ c ∉ s.retired)) ∧
      ∀ c, c ∈ t.flash.worn ↔ c ∈ s.flash.worn ∨ (c ∈ ss ∧ c < 144)) ∧
    (∀ core, (core ∈ s.marked → s.coreBlocks core = [] →
        ∃ t : State, exec (.coreRetirement core) s = .next t ∧ core ∈ t.retired ∧ core ∉ t.marked ∧ t.blocks = s.blocks) ∧
      (core ∉ s.marked ∨ s.coreBlocks core ≠ [] → exec (.coreRetirement core) s = .next s)) ∧
    (s.ctl.fepoch = 0 ∨ s.ctl.fpool = 0 → exec .followEpoch s = .next { s with follow := [], epoch := s.time }) ∧
    (s.ctl.fepoch ≠ 0 → s.ctl.fpool ≠ 0 →
      (s.time.toNat < s.epoch.toNat + s.ctl.fepoch.toNat → exec .followEpoch s = .next s) ∧
      (s.epoch.toNat + s.ctl.fepoch.toNat ≤ s.time.toNat → exec .followEpoch s =
        .next { (s.follow.map Prod.fst).eraseDups.foldl State.followPage s with epoch := s.time }))) ∧
  Claim.EpochsFollowTheMajority ∧ Claim.MigratedPages

/-- R291, R292: the board at the head of its queue registers against the active schedule: NOTSCHED (0x0B) where the schedule
does not have its layer, RANGE (0x05) where the layer has fewer tiles than it names. One whose first tile has passed in
this lap waits for the next, and has missed one. A board waits while the schedule cannot be read (R14). -/
def Claim.BoardsRegister : Prop :=
  ∀ (s : State) (core : Nat) (c : Cmd) (b : Board), s.queue core .bd = [c] → c.core = core → c.k = .board b →
    b.reg = false → c.started = false → s.free c = true →
    (s.schedHeld = true → s.registerBoards core = s) ∧
    (∀ st, s.schedHeld = false → c.status = some st →
      s.registerBoards core = s.putCmd { c with started := true, decl := s.boardDecl b }) ∧
    (s.schedHeld = false → c.status = none →
      (s.layerOf b.layer = none →
        s.registerBoards core = s.putCmd { c with started := true, status := some 0x0B, decl := none }) ∧
      (∀ i n, s.layerOf b.layer = some (i, n) →
        (n < b.f + b.n → s.registerBoards core = s.putCmd { c with started := true, status := some 0x05, decl := none }) ∧
        (b.f + b.n ≤ n →
          let lap := Sparse.get 0 s.ring.domeLap (domeOf core)
          let sizes := (List.range b.n).map (fun k => (s.schedEnt s.ring.sact (i + b.f + k)).size)
          let past := (domeOf core, lap, 65536 * b.layer + b.f) ∈ s.ring.seen
          ∃ (t : State) (late : Bool), (late = true ↔ past) ∧ t = { s with counters := t.counters } ∧
            s.registerBoards core = t.putCmd { c with
              started := true, decl := some (sizes.foldl (· + ·) 0)
              k := .board { b with
                reg := true, sizes := sizes, lap := if late then lap + 1 else lap, missed := if late then 1 else 0 } })))

/-- R290, R293-R295: a tile that a working tap passes to the one board due it, whose bank range is free, lands there. Where the
range is busy the step is held for the board, or the board misses the tile when `ctl.dwell` is 0. A corrupted tile is
counted against the board and takes no place. -/
def Claim.TapsDeliver : Prop :=
  ∀ (s : State) (c : Cmd) (b : Board) (x : RTile), s.ringOn (x.domeAt s.ring.t) = true →
    s.dueBoards (x.domeAt s.ring.t) x = [c] → c.k = .board b →
    (x.corrupt = false → s.boardBusy c b x = false →
      ∃ g : Ring, s.deliverTile x = { s with ring := g }.boardLand c b x ∧ g.tiles = s.ring.tiles ∧ g.t = s.ring.t ∧
        (x.domeAt s.ring.t, x.lap, x.entry) ∈ g.seen) ∧
    (x.corrupt = false → s.boardBusy c b x = true →
      ∃ g : Ring, g.tiles = s.ring.tiles ∧ g.t = s.ring.t ∧ (x.domeAt s.ring.t, x.lap, x.entry) ∈ g.seen ∧
        (s.ctl.dwell = 0 → g.held = s.ring.held ∧ s.deliverTile x = { s with ring := g }.boardMiss c b x) ∧
        (s.ctl.dwell ≠ 0 → g.held = s.ring.held ++ [(c.id, x)] ∧ s.deliverTile x = { s with ring := g })) ∧
    (x.corrupt = true → ∃ (u : State), s.deliverTile x = u.boardCorrupt c b x ∧ u.cmds = s.cmds ∧ u.mem = s.mem) ∧
    (∀ u : State, u.boardCorrupt c b x = ((match c.arr with | some a => u.markErr c.blk a arrCorr | none => u).dropFollow c.blk
      b.fol arrCorr).boardStep c { b with k := b.k + 1, lap := x.lap, bad := b.bad ++ [b.k] })

/-- R293: the tile that lands fills its place in the bank and is signalled. With an arrival word and a follow-on, a WLD of
the tile and the follow-on are pushed, in this order, once the matrix queue has room for both (R250). The board goes on at its
next tile, and ends after its last and its last push, with DONE (0x00) or CORRUPT (0x0C), or with the status that a new
schedule has given it (R296). That the pushes wait for room together is a reading of the model (log entry 62). -/
def Claim.TilesLand : Prop :=
  ∀ (s : State) (c : Cmd) (b : Board) (x : RTile),
    let t := s.boardLand c b x
    (∀ j, j < x.body.length → (t.coreAt c.core).matrix.bankByte b.bank (65536 * (b.slot + b.k) + j) = x.body.getD j 0) ∧
    (c.arr = none ∨ b.fol = none → b.owed = [] →
      t = (Claim.signals ((s.putBankBytes c.core b.bank (65536 * (b.slot + b.k)) x.body).markBank c.blk) c x.size).1.boardStep
        { c with signalled := c.signalled + x.size } { b with k := b.k + 1, lap := x.lap }) ∧
    (∀ a f, c.arr = some a → b.fol = some f → b.owed = [] → s.holdsEngine c.blk = true → s.roomIn c.core .mx 2 = false →
      t = (Claim.signals ((s.putBankBytes c.core b.bank (65536 * (b.slot + b.k)) x.body).markBank c.blk) c x.size).1.putCmd
        { c with signalled := c.signalled + x.size, k := .board { b with
          k := b.k + 1, lap := x.lap, owed := [(b.k, fld x.hdr 0x08 1, fld x.hdr 0x09 1, fld x.hdr 0x0A 2)] } }) ∧
    (∀ a f, c.arr = some a → b.fol = some f → b.owed = [] → s.holdsEngine c.blk = true → s.roomIn c.core .mx 2 = true →
      c.id < s.nextUid →
      ∃ y ∈ t.cmds, ∃ z ∈ t.cmds, y.id = s.nextUid ∧ y.op = 0x04 ∧ y.port = .mx ∧ z.id = s.nextUid + 1 ∧ z.port = .mx ∧
        z.op = (if f.kind = 1 then 0x04 else if f.kind = 2 then 0x06 else 0x08)) ∧
    (∀ (u : State) (b' : Board),
      (b'.owed ≠ [] → u.boardStep c b' = u.putCmd { c with k := .board b' }) ∧
      (b'.owed = [] → ∀ st, c.status = some st → u.boardStep c b' = u.boardEnd c b' st) ∧
      (b'.owed = [] → c.status = none →
        u.boardStep c b' = if b'.n ≤ b'.k then u.boardEnd c b' (if b'.bad = [] then 0x00 else 0x0C)
          else u.putCmd { c with k := .board b' }))

/-- R285, R287-R295: a ring that neither runs nor carries a tile stays. A new step advances the step number, and a tile stays
in flight for nine steps. At a lap boundary an armed schedule becomes active, or is refused with its reason; one whose records
cannot be read stays armed (R14). Boards register, and tiles land in them. When `snext` reads 0, and the order in which
entries are checked, are readings of the model (log entry 64), and so are when a read of a body and a hold end, and that a
board's pushes wait for room (75, 62). -/
def Obligations.RingStepsAndSchedules : Prop :=
  (∀ s : State, s.ring.held = [] →
    (s.ctl.ringrate.getLsbD 16 = false → s.ring.injecting = false → s.ring.tiles = [] → exec .ringStep s = .next s) ∧
    (s.ctl.ringrate.getLsbD 16 = true ∨ s.ring.injecting = true ∨ s.ring.tiles ≠ [] →
      ∃ t : State, exec .ringStep s = .next t ∧ t.ring.t = s.ring.t + 1 ∧ t.mem = s.mem ∧
        ∀ x ∈ t.ring.tiles, t.ring.t < x.t + 9)) ∧
  (∀ s : State, s.ring.held ≠ [] → ∃ t : State, exec .ringStep s = .next t ∧ t.ring.t = s.ring.t ∧
    t.ring.tiles = s.ring.tiles ∧ t.mem = s.mem) ∧
  (∀ (s : State), s.ring.snext ≠ 0 → s.armHeld = true → s.lapBoundary.ring.snext = s.ring.snext) ∧
  (∀ (s : State), s.ring.snext ≠ 0 → s.armHeld = false →
    (∀ n, s.checkSched s.ring.snext = .ok n → s.lapBoundary.ring.sact = s.ring.snext ∧ s.lapBoundary.ring.nent = n ∧
      s.lapBoundary.ring.snext = 0 ∧ s.lapBoundary.ring.next = 0) ∧
    (∀ e, s.checkSched s.ring.snext = .error e → s.lapBoundary.ring.sact = s.ring.sact ∧ s.lapBoundary.ring.snext = 0 ∧
      s.lapBoundary.ring.refused = true ∧ s.lapBoundary.ring.reason = e)) ∧
  Claim.BoardsRegister ∧ Claim.TapsDeliver ∧ Claim.TilesLand

/-- R350-R353, R358, R97, Table 10.14: a module reset leaves the control registers at their reset values and the module ready
(1) where every image is signed and no older than the highest version accepted, and its transit domains are sound, else failed
(2). It comes up without the towers that failed and those with a worn slice, and without the cores that failed. A ready
module answers an SPDM request, naming the lowest dome in service where it signs; one that is not ready answers none. That
the lowest dome signs, that memory outlives the reset, and what a boot keeps in flash are the model's choices (log entries
78, 16 and 97). -/
def Obligations.ModuleResetAndAttestation : Prop :=
  (∀ (s : State) (images : List (Bool × Word)) (transit : Bool) (tower : Option (Fin 9)) (bad : List Nat),
    let ok := images.all (fun x => x.1 && decide (s.flash.secver.toNat ≤ x.2.toNat))
    ∃ t : State, exec (.moduleReset images tower transit bad) s = .next t ∧ t.ctl = State.reset.ctl ∧
      t.ring = State.reset.ring ∧ t.blocks = [] ∧ t.warps = [] ∧ t.launches = [] ∧ t.cmds = [] ∧ t.mem = s.mem ∧
      t.retired = bad.filter (· < 144) ∧ t.ident.state = (if ok && transit then 1 else 2) ∧
      (ok = false → t.flash.secver = s.flash.secver) ∧ s.flash.secver.toNat ≤ t.flash.secver.toNat ∧
      (ok = true → ∀ x ∈ images, x.2.toNat ≤ t.flash.secver.toNat) ∧ t.ident.fwver = t.flash.secver ∧
      ∀ d, d < 9 → t.towerOn d = decide (tower.map (·.val) ≠ some d ∧ d ∉ s.flash.worn.map domeOf)) ∧
  (∀ (s : State) (port : Bool),
    (s.ident.state = 1 → ∃ a b c d e f : List Word,
      exec (.getVersion port) s = .next { s with spdm := s.spdm ++ [{ port := port, what := 0, body := [0x13] }] } ∧
      exec (.getCapabilities port) s = .next { s with spdm := s.spdm ++ [{ port := port, what := 1, body := a }] } ∧
      exec (.negotiateAlgorithms port) s = .next { s with spdm := s.spdm ++ [{ port := port, what := 2, body := b }] } ∧
      exec (.getDigests port) s = .next { s with spdm := s.spdm ++ [{ port := port, what := 3, body := c }] } ∧
      exec (.getCertificate port) s = .next { s with spdm := s.spdm ++ [{ port := port, what := 4, body := d }] } ∧
      exec (.challenge port) s = .next { s with spdm := s.spdm ++ [{ port := port, what := 5, body := e }] } ∧
      exec (.getMeasurements port) s = .next { s with spdm := s.spdm ++ [{ port := port, what := 6, body := f }] } ∧
      f.headD 0 = s.ident.towers.setWidth 64 ∧
      ∀ dome, dome < 9 → s.towerOn dome = true → (∀ y, y < dome → s.towerOn y = false) →
        c.headD 0 = BitVec.ofNat 64 dome ∧ d.headD 0 = BitVec.ofNat 64 dome ∧ e.headD 0 = BitVec.ofNat 64 dome) ∧
    (s.ident.state ≠ 1 → exec (.getVersion port) s = .next s ∧ exec (.challenge port) s = .next s ∧
      exec (.getMeasurements port) s = .next s))

/-- R304, R346-R349: a Bexset request that the replay filter does not hold is performed once and its result recorded; one it
holds, or that finds it full or a module that is not ready, changes nothing; an acknowledgement frees the entry. A response
ends an outgoing request, and its result is kept for the access that waits for it; a retransmission after eight ends it
without a result. A link retry is only counted. That a result is kept until its access is performed (log entries 17 and
100), how the ninth retransmission counts, and a request to an address the module does not have (48), are readings of the
model. -/
def Obligations.BexsetRequestsArePerformedOnce : Prop :=
  (∀ (s : State) (dome : Fin 9) (source tag : BitVec 16) (seq : BitVec 32) (addr : Nat) (op : BexOp),
    let mine (e : BexIn) : Prop := e.dome = dome ∧ e.source = source ∧ e.tag = tag ∧ e.seq = seq
    (s.ident.state ≠ 1 → exec (.bexsetRequest dome source tag seq addr op) s = .next s) ∧
    (s.ident.state = 1 → s.towerOn dome.val = true → (∀ e ∈ s.bexIn, ¬ mine e) → (s.bexIn.filter (fun e => e.dome = dome)).length < 16384 →
      ∃ (t : State) (e : BexIn), exec (.bexsetRequest dome source tag seq addr op) s =
          .next { t with bexIn := t.bexIn ++ [e] } ∧ mine e ∧ t.bexIn = s.bexIn ∧
        (∀ k, paApt addr = 0 → paIl addr = true ∨ s.localOk addr 8 = true → s.key addr = some k →
          -- what a slice had accepted for the line comes first (R116)
          let u := (s.gate [k]).applyReds (k / 64)
          (s.power.inReset = [] → s.reds = [] → u = s) ∧
          (op = .read → t = u ∧ e.result = u.homeWord k) ∧
          (∀ bytes v, op = .write bytes v →
            let on := (List.range 8).filter bytes.getLsbD
            t = u.syncWriteAt (on.map (k + ·)) (on.map (fun i => v.extractLsb' (8 * i) 8))) ∧
          (∀ ty o c d, op = .atomic ty o c d →
            let n := Sys2Proof.ATy.bytes ty
            let old := leNat (readBytes u.mem k n)
            e.result = BitVec.ofNat 64 old ∧ t = u.syncWrite k (leBytes n (atomNew ty o old c.toNat d.toNat).1)) ∧
          (∀ o xs, op = .reduce o xs →
            let old := leNat (readBytes u.mem k 4)
            e.result = BitVec.ofNat 64 old ∧ t = u.syncWrite k (leBytes 4 (relabelNew o old xs.length xs))))) ∧
    ((∃ e ∈ s.bexIn, mine e) ∨ 16384 ≤ (s.bexIn.filter (fun e => e.dome = dome)).length →
      exec (.bexsetRequest dome source tag seq addr op) s = .next s) ∧
    (∃ t : State, exec (.bexsetAck dome source tag seq) s = .next t ∧ t = { s with bexIn := t.bexIn } ∧
      ∀ e, e ∈ t.bexIn ↔ e ∈ s.bexIn ∧ ¬ mine e)) ∧
  (∀ (s : State) (tag : BitVec 16) (r : BexOut), s.bexOut.find? (fun y => y.tag = tag) = some r →
    let ended (v : Option Word) (t : State) : Prop :=
      (∀ y, y ∈ t.bexOut ↔ y ∈ s.bexOut ∧ y.tag ≠ tag) ∧
      (∀ z, r.who = some z → t.bexDone = s.bexDone ++ [{ addr := r.addr, op := r.op, who := z, result := v }]) ∧
      (r.who = none → t.bexDone = s.bexDone) ∧
      -- an atomic ends the hoisted loads of its core that it meets (R202)
      (∀ ty o c d, r.op = .atomic ty o c d →
        t = { s.endPeerHoists r (Sys2Proof.ATy.bytes ty) with bexOut := t.bexOut, bexDone := t.bexDone }) ∧
      (∀ o xs, r.op = .reduce o xs → t = { s.endPeerHoists r 4 with bexOut := t.bexOut, bexDone := t.bexDone }) ∧
      (r.op = .read ∨ (∃ bytes w, r.op = .write bytes w) → t = { s with bexOut := t.bexOut, bexDone := t.bexDone })
    (r.retries < 8 → exec (.bexsetRetransmit tag.toNat) s = .next { s with
      bexOut := s.bexOut.map (fun y => if y.tag = tag then { y with retries := y.retries + 1 } else y) }) ∧
    (8 ≤ r.retries → ∃ t : State, exec (.bexsetRetransmit tag.toNat) s = .next t ∧ ended none t) ∧
    (∀ v, ∃ t : State, exec (.bexsetResponse tag.toNat v) s = .next t ∧ ended (some v) t)) ∧
  (∀ (s : State) (dome : Fin 9), ∃ t : State, exec (.ucieLinkRetry dome) s = .next t ∧ t = { s with counters := t.counters })

/-! ## The machine as a whole -/

/-- R97, R102, R288, R302, R313, Table 10.14: the machine stands in a safe state after reset, with its control registers at
the values the spec gives for reset. -/
def Obligations.ResetIsSafe : Prop :=
  State.reset.safe = true ∧ State.reset.ctl.tvec = 0 ∧ State.reset.ctl.ptroot = 0 ∧ State.reset.ctl.stkbase = 0 ∧
  State.reset.ctl.stksize = 0 ∧ State.reset.ctl.restorewait = 1000000000 ∧ State.reset.ctl.repways = 0x000F ∧
  State.reset.ctl.fmin = 64 ∧ State.reset.ctl.fepoch = 0 ∧ State.reset.ctl.ringrate = 81 ∧
  State.reset.ctl.rclass = List.replicate 8 { ways := 0xFFFF, wpol := 0, age := 3 } ∧ State.reset.sys.fqbase = 0 ∧
  State.reset.ring.sact = 0 ∧ State.reset.mem = []

/-- What a step answers once its turn has given a state: that state, unless something outside the core has to happen first, or
a word under way in a warp that the turn has put in handler mode; then the step is held (log entries 100 and 115). -/
def Claim.stepEnds (s r : State) : Prop :=
  let done := r.wants = [] ∧ ∀ k w, (k, some w) ∈ r.warps → w.underwayOk = true
  (done → step s = .next (s.nextTurn.1.taken r)) ∧ (¬ done → step s = .next (s.nextTurn.1.hold s.nextTurn.2 r.wants))

/-- What a step answers where its turn gives a state: a warp that it puts in handler mode first has its accesses under way
performed (log entry 21). -/
def Claim.stepGives (s r : State) : Prop :=
  let s0 := { s.nextTurn.1 with asker := s.nextTurn.2 }
  let ks := s0.newHandlers r
  (ks = [] → Claim.stepEnds s r) ∧
  (ks ≠ [] → ∀ y, (s0.landAll (fun x => ks.contains x.key)).act s.nextTurn.2 = .next y → Claim.stepEnds s y)

/-- R131, R132, R135, R141, R157, R298: a lane that issues a split runs the word at the split's PC: where the word decodes and
fits its block, the step is the word's meaning between the lane's bookkeeping; otherwise the split takes UNDEFINED (0x01). A
split whose word pops an empty port is not ready. Where the lane issues a word whose accesses are performed later (R380), a
word that has none of these is executed all the same. That the accesses a word has to wait for are performed before it (log
entry 21), that what a word asks of outside the core holds its whole step (100), and that a word under way is ended first
(115), are the model's. A ring tile that is held and has found room lands in a step of its own. -/
def Obligations.StepRunsTheDecodedWord : Prop :=
  (∀ (s s1 : State) (core lane slot : Nat) (w : Warp) (p : Split) (wd : Word128), s.heldDue = false →
    let s0 := { s.nextTurn.1 with asker := s.nextTurn.2 }
    let k := warpKey core lane slot
    let r : Ref := { core := core, lane := lane, slot := slot, split := p.id }
    let trap := s1.takeTrap k p.id { cause := 0x01, mask := p.mask, addr := 0 }
    s0.pickSplit core lane = some (slot, p) → s0.warpAt k = some w → p.idx ≠ 0 → w.badFrame = false →
    { s0 with asker := .resume r }.fetchSlot core p.hdr p.idx = (s1, .ok wd) →
    ((s.nextTurn.2 = .issue core lane ∨ s.nextTurn.2 = .issueLate core lane) →
      (∀ i, decode wd = .ok i → wordFits (Header.ofSlot p.hw) p.idx i = false → Claim.stepGives s trap) ∧
      (∀ e, decode wd = .error e → Claim.stepGives s trap)) ∧
    (∀ i, decode wd = .ok i → wordFits (Header.ofSlot p.hw) p.idx i = true →
      let v := s1.forWord r w p i
      (s.nextTurn.2 = .issue core lane → ∀ t, exec i (v.settleWhole i) = .next t → Claim.stepGives s (t.afterWord r)) ∧
      (s.nextTurn.2 = .issueLate core lane →
        (∀ t, (v.settle i).startLate i = some t → Claim.stepGives s (t.afterWord r)) ∧
        ((v.settle i).startLate i = none → ∀ t, exec i (v.settleWhole i) = .next t → Claim.stepGives s (t.afterWord r))))) ∧
  (∀ (s : State) (i : Instr), s.late = [] → s.settleWhole i = s.settle i ∧ (s.reds = [] → s.settle i = s)) ∧
  (∀ (s : State) (core : Nat) (w : Warp) (p : Split) (wd : Word128) (i : Instr), p.idx ≠ 0 →
    (s.fetchSlot core p.hdr p.idx).2 = .ok wd → decode wd = .ok i → portBlocked w p i = true → s.ready core w p = false) ∧
  (∀ s : State, s.heldDue = true → step s = .next s.landHeld)

/-- R132, R138, R317: a word with no active thread, RFT and RSTL apart, which have no active threads to look at, does nothing
but its sequencing act. -/
def Obligations.InactiveWordsOnlySequence : Prop :=
  ∀ (i : Instr) (n : Entry) (s : State) (c : WCtx) (w : Warp) (p : Split), i.entry = some n →
    (∀ x op o, i ≠ .rft x op o) → (∀ x o, i ≠ .rstl x o) → s.context = some (c, w, p) → activeMask w p n.x = 0 →
    exec i s = .next (s.seqAct c.key p.id n.x.seq)

/-- R131, R134-R140, R156, R157, R325, Tables 10.1 to 10.9: every well-formed word decodes from its encoding to itself, with
every operand, modifier and field. -/
def Obligations.DecodeInvertsEncode : Prop :=
  ∀ (i : Instr) (w : Word128), i.wf = true → encode i = some w → decode w = .ok i

/-- R97, R155, R288: from every safe state a step that answers leaves a safe state: memory keeps its canonical form and every
control register a legal value. -/
def Obligations.EveryStepKeepsTheStateSafe : Prop :=
  ∀ s t : State, s.safe = true → step s = .next t → t.safe = true

/-! ## Words written out -/

/-- The fields a word carries besides its operation and operands when it has no guard, no hint and no scheduling. -/
def Claim.bare (q : Seq) : Ctl := {
  g1 := { neg := false, pred := .p 7 }, g2 := { neg := false, pred := .p 7 }, hint := .normal,
  sched := { yield := false, stall := 0, boost := false }, seq := q }

/-- A word, its upper 64 bits and its lower ones, decodes to an instruction. -/
def Claim.decodes (hi lo : Nat) (i : Instr) : Prop := decodeTableWord 128 (hi * 2 ^ 64 + lo) = some i

/-- R134-R140, R149, R156: words that the spec works out bit by bit, one or more of each class, decode to the instructions
they stand for: Tables 11.1, 14.4, 18.4, 20.10, 21.2, 22.8 and 23.3, and the EPI of chapter 17. The words of classes 001, 010
and 011 are written from Tables 10.1, 10.12 and 12.1. -/
def Obligations.WrittenOutWordsDecode : Prop :=
  -- IADD.i64 d0, $tid, w0
  Claim.decodes 0x0058008040FFFF39 0xC000000000000000
    (.iadd (Claim.bare .seq) { ty := .i64, sat := false, var := false }
      { a := .d 0, b := .special .tid, c := .w 0, d := .none, e := .none, imm := 0 }) ∧
  -- AND.i64 p1, d0, 1 -> IF p1, six units on
  Claim.decodes 0x03586100B1FFFF39 0xC004200600000000
    (.andL (Claim.bare (.ifT (.p 1) 6)) { ty := .i64, sat := false, var := false }
      { a := .p 1, b := .d 0, c := .small 17, d := .none, e := .none, imm := 0 }) ∧
  -- MOV.i64 d1, 0 -> GO w1
  Claim.decodes 0x071801B0FFFF4139 0xC003E00000000000
    (.mov (Claim.bare (.goInd 1)) { ty := .i64, sat := false, var := false }
      { a := .d 1, b := .small 16, c := .none, d := .none, e := .none, imm := 0 }) ∧
  -- FMA.f32x2.rz d1, d2, d3, d4
  Claim.decodes 0x242201020304FF39 0xC000000000000000
    (.fma (Claim.bare .seq) { fty := .f32x2, rm := .rz }
      { a := .d 1, b := .d 2, c := .d 3, d := .d 4, e := .none, imm := 0 }) ∧
  -- CVT.e4m3x8.f32x2.rne.p1 d2, d0
  Claim.decodes 0x42700200FFFFFF39 0xC00000000000008A
    (.cvt (Claim.bare .seq) { dty := .e4m3x8, sty := .f32x2, rm := .rne, part := 1, sat := false }
      { a := .d 2, b := .d 0, c := .none, d := .none, e := .none, imm := 0 }) ∧
  -- SHFL.flip.i64 d1, d0, 1, w2
  Claim.decodes 0x601B0100B142FF39 0xC000000000000000
    (.shfl (Claim.bare .seq) { ty := .i64, mode := .flip }
      { a := .d 1, b := .d 0, c := .small 17, d := .w 2, e := .none, imm := 0 }) ∧
  -- LD.g.i64 d3, [d2]
  Claim.decodes 0x800C0302FFFFFF39 0xC000000000000000
    (.ld (Claim.bare .seq) { sp := .g, mt := .i64, off := 0 }
      { a := .d 3, b := .d 2, c := .none, d := .none, e := .none, imm := 0 }) ∧
  -- WAIT.ge.n64.all d6, [w4], 3, w5
  Claim.decodes 0xA1280644B345FF39 0xC000000000000000
    (.wait (Claim.bare .seq) { cond := .ge, sgn := false, any := false, acq := false }
      { a := .d 6, b := .w 4, c := .small 19, d := .w 5, e := .none, imm := 0 }) ∧
  -- TBAR 0x100, 0 -> IF q1, 48 units on
  Claim.decodes 0xA0C0FFC2B0FFFF39 0xC005203000000100
    (.tbar (Claim.bare (.ifT (.q 1) 48)) false false
      { a := .none, b := .imm .zext, c := .small 16, d := .none, e := .none, imm := 0x100 }) ∧
  -- CPY.g2s buf, w1, w3, a_in, with buf at 16 (Table 18.4)
  Claim.decodes 0xC004C24143B0FF39 0xC000000000000010
    (.cpy (Claim.bare .seq) { ssp := .g, dsp := .s, cw := false, rcd := false }
      { a := .imm .zext, b := .w 1, c := .w 3, d := .small 16, e := .none, imm := 16 }) ∧
  -- CPY.g2b0 0, w5, w3, a_wt, with a_wt at 64
  Claim.decodes 0xC008B04543C2FF39 0xC000000000000040
    (.cpy (Claim.bare .seq) { ssp := .g, dsp := .b0, cw := false, rcd := false }
      { a := .small 16, b := .w 5, c := .w 3, d := .imm .zext, e := .none, imm := 64 }) ∧
  -- BOARD 1, 0, w6, 0, w7, 0
  Claim.decodes 0xC14046B047B0FF39 0xC000000001000000
    (.board (Claim.bare .seq) { cw := false, rcd := false, bank := true, slot := 0 }
      { a := .w 6, b := .small 16, c := .w 7, d := .small 16, e := .none, imm := 0 }) ∧
  -- @p1 ARRV.init w8, w10, w12 (Table 21.2)
  Claim.decodes 0xA180484A4CFFFF09 0xC000000000000000
    (.arrv { Claim.bare .seq with g1 := { neg := false, pred := .p 1 } } .init
      { a := .w 8, b := .w 10, c := .w 12, d := .none, e := .none, imm := 0 }) ∧
  -- BOARD 0, 0, w4, 0, w14, w10
  Claim.decodes 0xC14044B04E4AFF39 0xC000000000000000
    (.board (Claim.bare .seq) { cw := false, rcd := false, bank := false, slot := 0 }
      { a := .w 4, b := .small 16, c := .w 14, d := .w 10, e := .none, imm := 0 }) ∧
  -- MMA.bf16 0, 32, w5, w16
  Claim.decodes 0xC1804550FFFFFF39 0xC000000000010000
    (.mma (Claim.bare .seq) { fmt := 0, cw := false, g := 0, rcd := false, stride := 32 }
      { a := .w 5, b := .w 16, c := .none, d := .none, e := .none, imm := 0 }) ∧
  -- AWAIT w10, w8
  Claim.decodes 0xA140FF4A48FFFF39 0xC000000000000000
    (.await (Claim.bare .seq) { a := .none, b := .w 10, c := .w 8, d := .none, e := .none, imm := 0 }) ∧
  -- IADD.i64 w2, w2, 1 -> LOOP n0, its own header
  Claim.decodes 0x00584242B1FFFF39 0xC00C000000000000
    (.iadd (Claim.bare (.loop 0 0)) { ty := .i64, sat := false, var := false }
      { a := .w 2, b := .w 2, c := .small 17, d := .none, e := .none, imm := 0 }) ∧
  -- EPI.rec 0, 0, w2, w4
  Claim.decodes 0xC280B04244FFFF39 0xC000000000800000
    (.epi (Claim.bare .seq) { cw := false, g := 0, rcd := true }
      { a := .small 16, b := .w 2, c := .w 4, d := .none, e := .none, imm := 0 }) ∧
  -- UNITE d2, [w1], d0, d1
  Claim.decodes 0xC38002410001FF39 0xC000000000000000
    (.unite (Claim.bare .seq) false { a := .d 2, b := .w 1, c := .d 0, d := .d 1, e := .none, imm := 0 }) ∧
  -- RFT.next
  Claim.decodes 0xE081FFFFFFFFFF39 0xC000000000000000
    (.rft (Claim.bare .seq) .next { a := .none, b := .none, c := .none, d := .none, e := .none, imm := 0 }) ∧
  -- SWR ctl.dwell, w2
  Claim.decodes 0xE100FF42FFFFFF39 0xC000000000000021
    (.swr (Claim.bare .seq) .dwell { a := .none, b := .w 2, c := .none, d := .none, e := .none, imm := 0 })
end

