-- ==== Sys2Proof/Laws/Word.lean ====
section
/-! SUPPORT. Laws/Word.lean: laws of sparse tables and of masks. -/

namespace Sys2Proof

namespace Sparse

variable {α : Type}

@[simp] theorem get_nil (d : α) (a : Nat) : get d [] a = d := rfl

theorem get_cons (d v : α) (k a : Nat) (l : Sparse α) :
    get d ((k, v) :: l) a = if a = k then v else get d l a := rfl

@[simp] theorem get_put_same (d x : α) (s : Sparse α) (a : Nat) : get d (put s a x) a = x := by
  induction s with
  | nil => simp [put, get]
  | cons e rest ih =>
    obtain ⟨k, v⟩ := e
    by_cases h : a = k
    · simp [put, get, h]
    · by_cases h2 : a < k <;> simp [put, get, h, h2, ih]

theorem get_put_other (d x : α) (s : Sparse α) (a b : Nat) (hne : b ≠ a) : get d (put s a x) b = get d s b := by
  induction s with
  | nil => simp [put, get, hne]
  | cons e rest ih =>
    obtain ⟨k, v⟩ := e
    by_cases h : a = k
    · subst h; simp [put, get, hne]
    · by_cases h2 : a < k <;> simp [put, get, h, h2, ih, hne]

@[simp] theorem get_erase_same (d : α) (s : Sparse α) (a : Nat) : get d (erase s a) a = d := by
  induction s with
  | nil => rfl
  | cons e rest ih =>
    obtain ⟨k, v⟩ := e
    by_cases h : a = k <;> simp [erase, get, h, ih]
    simpa [h] using ih

theorem get_erase_other (d : α) (s : Sparse α) (a b : Nat) (hne : b ≠ a) : get d (erase s a) b = get d s b := by
  induction s with
  | nil => rfl
  | cons e rest ih =>
    obtain ⟨k, v⟩ := e
    by_cases h : a = k
    · subst h; simp [erase, get, hne, ih]
    · simp [erase, get, h, ih]

/-- A table read after a put: the one law of `get` over `put`. -/
theorem get_put (d x : α) (s : Sparse α) (a b : Nat) :
    get d (put s a x) b = if b = a then x else get d s b := by
  by_cases h : b = a
  · subst h; simp
  · simp [h, get_put_other]

theorem get_erase (d : α) (s : Sparse α) (a b : Nat) :
    get d (erase s a) b = if b = a then d else get d s b := by
  by_cases h : b = a
  · subst h; simp
  · simp [h, get_erase_other]

/-- A table read after a set: the one law of `get` over `set`. -/
theorem get_set [DecidableEq α] (d x : α) (s : Sparse α) (a b : Nat) :
    get d (set d s a x) b = if b = a then x else get d s b := by
  unfold set
  split
  · rename_i hx; rw [get_erase]; split <;> simp_all
  · exact get_put d x s a b

end Sparse

namespace Mask

theorem has_zero (t : Nat) : Mask.has 0 t = false := by simp [Mask.has]

theorem has_eq (m : Mask) (t : Nat) : m.has t = m.getLsbD t := rfl

theorem mem_threads (m : Mask) (t : Nat) : t ∈ m.threads ↔ m.getLsbD t = true := by
  constructor
  · intro h; simpa [threads] using (List.mem_filter.mp h).2
  · intro h
    have ht : t < 32 := by
      refine Decidable.byContradiction fun hc => ?_
      simp [BitVec.getLsbD_of_ge m t (by omega)] at h
    simp [threads, h, ht]

theorem nodup_threads (m : Mask) : m.threads.Nodup :=
  List.Pairwise.filter _ List.nodup_range

theorem threads_ne_nil (m : Mask) (h : m ≠ 0) : m.threads ≠ [] := by
  intro hn
  apply h
  apply BitVec.eq_of_getLsbD_eq
  intro i hi
  have : ¬ (i ∈ m.threads) := by simp [hn]
  rw [mem_threads] at this
  simpa using this

theorem lowest_isSome (m : Mask) (h : m ≠ 0) : ∃ t, m.lowest = some t ∧ m.getLsbD t = true := by
  unfold lowest
  cases hl : m.threads with
  | nil => exact absurd hl (threads_ne_nil m h)
  | cons t rest => exact ⟨t, rfl, (mem_threads m t).mp (by simp [hl])⟩

end Mask

end Sys2Proof
end

