-- ==== Sys2Proof/Laws/State.lean ====
section
/-! SUPPORT. Laws/State.lean: what each update of the state and of a warp does to each field. -/

namespace Sys2Proof.Machine

section putWarp
variable (s : State) (k : Nat) (x : Warp)
@[simp] theorem putWarp_ctl : (s.putWarp k x).ctl = s.ctl := rfl
@[simp] theorem putWarp_sys : (s.putWarp k x).sys = s.sys := rfl
@[simp] theorem putWarp_ident : (s.putWarp k x).ident = s.ident := rfl
@[simp] theorem putWarp_ring : (s.putWarp k x).ring = s.ring := rfl
@[simp] theorem putWarp_hostq : (s.putWarp k x).hostq = s.hostq := rfl
@[simp] theorem putWarp_lastq : (s.putWarp k x).lastq = s.lastq := rfl
@[simp] theorem putWarp_peers : (s.putWarp k x).peers = s.peers := rfl
@[simp] theorem putWarp_power : (s.putWarp k x).power = s.power := rfl
@[simp] theorem putWarp_time : (s.putWarp k x).time = s.time := rfl
@[simp] theorem putWarp_counters : (s.putWarp k x).counters = s.counters := rfl
@[simp] theorem putWarp_retired : (s.putWarp k x).retired = s.retired := rfl
@[simp] theorem putWarp_marked : (s.putWarp k x).marked = s.marked := rfl
@[simp] theorem putWarp_mem : (s.putWarp k x).mem = s.mem := rfl
@[simp] theorem putWarp_bad : (s.putWarp k x).bad = s.bad := rfl
@[simp] theorem putWarp_badS : (s.putWarp k x).badS = s.badS := rfl
@[simp] theorem putWarp_cores : (s.putWarp k x).cores = s.cores := rfl
@[simp] theorem putWarp_domes : (s.putWarp k x).domes = s.domes := rfl
@[simp] theorem putWarp_follow : (s.putWarp k x).follow = s.follow := rfl
@[simp] theorem putWarp_epoch : (s.putWarp k x).epoch = s.epoch := rfl
@[simp] theorem putWarp_subs : (s.putWarp k x).subs = s.subs := rfl
@[simp] theorem putWarp_launches : (s.putWarp k x).launches = s.launches := rfl
@[simp] theorem putWarp_blocks : (s.putWarp k x).blocks = s.blocks := rfl
@[simp] theorem putWarp_cmds : (s.putWarp k x).cmds = s.cmds := rfl
@[simp] theorem putWarp_waits : (s.putWarp k x).waits = s.waits := rfl
@[simp] theorem putWarp_saved : (s.putWarp k x).saved = s.saved := rfl
@[simp] theorem putWarp_rests : (s.putWarp k x).rests = s.rests := rfl
@[simp] theorem putWarp_views : (s.putWarp k x).views = s.views := rfl
@[simp] theorem putWarp_llc : (s.putWarp k x).llc = s.llc := rfl
@[simp] theorem putWarp_proxy : (s.putWarp k x).proxy = s.proxy := rfl
@[simp] theorem putWarp_hostClean : (s.putWarp k x).hostClean = s.hostClean := rfl
@[simp] theorem putWarp_flash : (s.putWarp k x).flash = s.flash := rfl
@[simp] theorem putWarp_late : (s.putWarp k x).late = s.late := rfl
@[simp] theorem putWarp_reds : (s.putWarp k x).reds = s.reds := rfl
@[simp] theorem putWarp_asker : (s.putWarp k x).asker = s.asker := rfl
@[simp] theorem putWarp_wants : (s.putWarp k x).wants = s.wants := rfl
@[simp] theorem putWarp_bexOut : (s.putWarp k x).bexOut = s.bexOut := rfl
@[simp] theorem putWarp_bexDone : (s.putWarp k x).bexDone = s.bexDone := rfl
@[simp] theorem putWarp_bexIn : (s.putWarp k x).bexIn = s.bexIn := rfl
@[simp] theorem putWarp_bexSeq : (s.putWarp k x).bexSeq = s.bexSeq := rfl
@[simp] theorem putWarp_spdm : (s.putWarp k x).spdm = s.spdm := rfl
@[simp] theorem putWarp_hostRead : (s.putWarp k x).hostRead = s.hostRead := rfl
@[simp] theorem putWarp_turns : (s.putWarp k x).turns = s.turns := rfl
@[simp] theorem putWarp_freeCtr : (s.putWarp k x).freeCtr = s.freeCtr := rfl
@[simp] theorem putWarp_nextUid : (s.putWarp k x).nextUid = s.nextUid := rfl
@[simp] theorem putWarp_issuer : (s.putWarp k x).issuer = s.issuer := rfl
end putWarp

section dropWarp
variable (s : State) (k : Nat)
@[simp] theorem dropWarp_ctl : (s.dropWarp k).ctl = s.ctl := rfl
@[simp] theorem dropWarp_sys : (s.dropWarp k).sys = s.sys := rfl
@[simp] theorem dropWarp_ident : (s.dropWarp k).ident = s.ident := rfl
@[simp] theorem dropWarp_ring : (s.dropWarp k).ring = s.ring := rfl
@[simp] theorem dropWarp_hostq : (s.dropWarp k).hostq = s.hostq := rfl
@[simp] theorem dropWarp_lastq : (s.dropWarp k).lastq = s.lastq := rfl
@[simp] theorem dropWarp_peers : (s.dropWarp k).peers = s.peers := rfl
@[simp] theorem dropWarp_power : (s.dropWarp k).power = s.power := rfl
@[simp] theorem dropWarp_time : (s.dropWarp k).time = s.time := rfl
@[simp] theorem dropWarp_counters : (s.dropWarp k).counters = s.counters := rfl
@[simp] theorem dropWarp_retired : (s.dropWarp k).retired = s.retired := rfl
@[simp] theorem dropWarp_marked : (s.dropWarp k).marked = s.marked := rfl
@[simp] theorem dropWarp_mem : (s.dropWarp k).mem = s.mem := rfl
@[simp] theorem dropWarp_bad : (s.dropWarp k).bad = s.bad := rfl
@[simp] theorem dropWarp_badS : (s.dropWarp k).badS = s.badS := rfl
@[simp] theorem dropWarp_cores : (s.dropWarp k).cores = s.cores := rfl
@[simp] theorem dropWarp_domes : (s.dropWarp k).domes = s.domes := rfl
@[simp] theorem dropWarp_follow : (s.dropWarp k).follow = s.follow := rfl
@[simp] theorem dropWarp_epoch : (s.dropWarp k).epoch = s.epoch := rfl
@[simp] theorem dropWarp_subs : (s.dropWarp k).subs = s.subs := rfl
@[simp] theorem dropWarp_launches : (s.dropWarp k).launches = s.launches := rfl
@[simp] theorem dropWarp_blocks : (s.dropWarp k).blocks = s.blocks := rfl
@[simp] theorem dropWarp_cmds : (s.dropWarp k).cmds = s.cmds := rfl
@[simp] theorem dropWarp_waits : (s.dropWarp k).waits = s.waits := rfl
@[simp] theorem dropWarp_saved : (s.dropWarp k).saved = s.saved := rfl
@[simp] theorem dropWarp_rests : (s.dropWarp k).rests = s.rests := rfl
@[simp] theorem dropWarp_views : (s.dropWarp k).views = s.views := rfl
@[simp] theorem dropWarp_llc : (s.dropWarp k).llc = s.llc := rfl
@[simp] theorem dropWarp_proxy : (s.dropWarp k).proxy = s.proxy := rfl
@[simp] theorem dropWarp_hostClean : (s.dropWarp k).hostClean = s.hostClean := rfl
@[simp] theorem dropWarp_flash : (s.dropWarp k).flash = s.flash := rfl
@[simp] theorem dropWarp_reds : (s.dropWarp k).reds = s.reds := rfl
@[simp] theorem dropWarp_asker : (s.dropWarp k).asker = s.asker := rfl
@[simp] theorem dropWarp_wants : (s.dropWarp k).wants = s.wants := rfl
@[simp] theorem dropWarp_bexIn : (s.dropWarp k).bexIn = s.bexIn := rfl
@[simp] theorem dropWarp_bexSeq : (s.dropWarp k).bexSeq = s.bexSeq := rfl
@[simp] theorem dropWarp_spdm : (s.dropWarp k).spdm = s.spdm := rfl
@[simp] theorem dropWarp_hostRead : (s.dropWarp k).hostRead = s.hostRead := rfl
@[simp] theorem dropWarp_turns : (s.dropWarp k).turns = s.turns := rfl
@[simp] theorem dropWarp_freeCtr : (s.dropWarp k).freeCtr = s.freeCtr := rfl
@[simp] theorem dropWarp_nextUid : (s.dropWarp k).nextUid = s.nextUid := rfl
@[simp] theorem dropWarp_issuer : (s.dropWarp k).issuer = s.issuer := rfl
end dropWarp

section putBlock
variable (s : State) (k : Nat) (x : Block)
@[simp] theorem putBlock_ctl : (s.putBlock k x).ctl = s.ctl := rfl
@[simp] theorem putBlock_sys : (s.putBlock k x).sys = s.sys := rfl
@[simp] theorem putBlock_ident : (s.putBlock k x).ident = s.ident := rfl
@[simp] theorem putBlock_ring : (s.putBlock k x).ring = s.ring := rfl
@[simp] theorem putBlock_hostq : (s.putBlock k x).hostq = s.hostq := rfl
@[simp] theorem putBlock_lastq : (s.putBlock k x).lastq = s.lastq := rfl
@[simp] theorem putBlock_peers : (s.putBlock k x).peers = s.peers := rfl
@[simp] theorem putBlock_power : (s.putBlock k x).power = s.power := rfl
@[simp] theorem putBlock_time : (s.putBlock k x).time = s.time := rfl
@[simp] theorem putBlock_counters : (s.putBlock k x).counters = s.counters := rfl
@[simp] theorem putBlock_retired : (s.putBlock k x).retired = s.retired := rfl
@[simp] theorem putBlock_marked : (s.putBlock k x).marked = s.marked := rfl
@[simp] theorem putBlock_mem : (s.putBlock k x).mem = s.mem := rfl
@[simp] theorem putBlock_bad : (s.putBlock k x).bad = s.bad := rfl
@[simp] theorem putBlock_badS : (s.putBlock k x).badS = s.badS := rfl
@[simp] theorem putBlock_cores : (s.putBlock k x).cores = s.cores := rfl
@[simp] theorem putBlock_domes : (s.putBlock k x).domes = s.domes := rfl
@[simp] theorem putBlock_follow : (s.putBlock k x).follow = s.follow := rfl
@[simp] theorem putBlock_epoch : (s.putBlock k x).epoch = s.epoch := rfl
@[simp] theorem putBlock_subs : (s.putBlock k x).subs = s.subs := rfl
@[simp] theorem putBlock_launches : (s.putBlock k x).launches = s.launches := rfl
@[simp] theorem putBlock_warps : (s.putBlock k x).warps = s.warps := rfl
@[simp] theorem putBlock_cmds : (s.putBlock k x).cmds = s.cmds := rfl
@[simp] theorem putBlock_waits : (s.putBlock k x).waits = s.waits := rfl
@[simp] theorem putBlock_saved : (s.putBlock k x).saved = s.saved := rfl
@[simp] theorem putBlock_rests : (s.putBlock k x).rests = s.rests := rfl
@[simp] theorem putBlock_views : (s.putBlock k x).views = s.views := rfl
@[simp] theorem putBlock_llc : (s.putBlock k x).llc = s.llc := rfl
@[simp] theorem putBlock_proxy : (s.putBlock k x).proxy = s.proxy := rfl
@[simp] theorem putBlock_hostClean : (s.putBlock k x).hostClean = s.hostClean := rfl
@[simp] theorem putBlock_flash : (s.putBlock k x).flash = s.flash := rfl
@[simp] theorem putBlock_late : (s.putBlock k x).late = s.late := rfl
@[simp] theorem putBlock_reds : (s.putBlock k x).reds = s.reds := rfl
@[simp] theorem putBlock_asker : (s.putBlock k x).asker = s.asker := rfl
@[simp] theorem putBlock_wants : (s.putBlock k x).wants = s.wants := rfl
@[simp] theorem putBlock_bexOut : (s.putBlock k x).bexOut = s.bexOut := rfl
@[simp] theorem putBlock_bexDone : (s.putBlock k x).bexDone = s.bexDone := rfl
@[simp] theorem putBlock_bexIn : (s.putBlock k x).bexIn = s.bexIn := rfl
@[simp] theorem putBlock_bexSeq : (s.putBlock k x).bexSeq = s.bexSeq := rfl
@[simp] theorem putBlock_spdm : (s.putBlock k x).spdm = s.spdm := rfl
@[simp] theorem putBlock_hostRead : (s.putBlock k x).hostRead = s.hostRead := rfl
@[simp] theorem putBlock_turns : (s.putBlock k x).turns = s.turns := rfl
@[simp] theorem putBlock_freeCtr : (s.putBlock k x).freeCtr = s.freeCtr := rfl
@[simp] theorem putBlock_nextUid : (s.putBlock k x).nextUid = s.nextUid := rfl
@[simp] theorem putBlock_issuer : (s.putBlock k x).issuer = s.issuer := rfl
end putBlock

section dropBlock
variable (s : State) (k : Nat)
@[simp] theorem dropBlock_ctl : (s.dropBlock k).ctl = s.ctl := rfl
@[simp] theorem dropBlock_sys : (s.dropBlock k).sys = s.sys := rfl
@[simp] theorem dropBlock_ident : (s.dropBlock k).ident = s.ident := rfl
@[simp] theorem dropBlock_ring : (s.dropBlock k).ring = s.ring := rfl
@[simp] theorem dropBlock_hostq : (s.dropBlock k).hostq = s.hostq := rfl
@[simp] theorem dropBlock_lastq : (s.dropBlock k).lastq = s.lastq := rfl
@[simp] theorem dropBlock_peers : (s.dropBlock k).peers = s.peers := rfl
@[simp] theorem dropBlock_power : (s.dropBlock k).power = s.power := rfl
@[simp] theorem dropBlock_time : (s.dropBlock k).time = s.time := rfl
@[simp] theorem dropBlock_counters : (s.dropBlock k).counters = s.counters := rfl
@[simp] theorem dropBlock_retired : (s.dropBlock k).retired = s.retired := rfl
@[simp] theorem dropBlock_marked : (s.dropBlock k).marked = s.marked := rfl
@[simp] theorem dropBlock_mem : (s.dropBlock k).mem = s.mem := rfl
@[simp] theorem dropBlock_bad : (s.dropBlock k).bad = s.bad := rfl
@[simp] theorem dropBlock_badS : (s.dropBlock k).badS = s.badS := rfl
@[simp] theorem dropBlock_cores : (s.dropBlock k).cores = s.cores := rfl
@[simp] theorem dropBlock_domes : (s.dropBlock k).domes = s.domes := rfl
@[simp] theorem dropBlock_follow : (s.dropBlock k).follow = s.follow := rfl
@[simp] theorem dropBlock_epoch : (s.dropBlock k).epoch = s.epoch := rfl
@[simp] theorem dropBlock_subs : (s.dropBlock k).subs = s.subs := rfl
@[simp] theorem dropBlock_launches : (s.dropBlock k).launches = s.launches := rfl
@[simp] theorem dropBlock_warps : (s.dropBlock k).warps = s.warps := rfl
@[simp] theorem dropBlock_cmds : (s.dropBlock k).cmds = s.cmds := rfl
@[simp] theorem dropBlock_waits : (s.dropBlock k).waits = s.waits := rfl
@[simp] theorem dropBlock_saved : (s.dropBlock k).saved = s.saved := rfl
@[simp] theorem dropBlock_rests : (s.dropBlock k).rests = s.rests := rfl
@[simp] theorem dropBlock_views : (s.dropBlock k).views = s.views := rfl
@[simp] theorem dropBlock_llc : (s.dropBlock k).llc = s.llc := rfl
@[simp] theorem dropBlock_proxy : (s.dropBlock k).proxy = s.proxy := rfl
@[simp] theorem dropBlock_hostClean : (s.dropBlock k).hostClean = s.hostClean := rfl
@[simp] theorem dropBlock_flash : (s.dropBlock k).flash = s.flash := rfl
@[simp] theorem dropBlock_late : (s.dropBlock k).late = s.late := rfl
@[simp] theorem dropBlock_reds : (s.dropBlock k).reds = s.reds := rfl
@[simp] theorem dropBlock_asker : (s.dropBlock k).asker = s.asker := rfl
@[simp] theorem dropBlock_wants : (s.dropBlock k).wants = s.wants := rfl
@[simp] theorem dropBlock_bexOut : (s.dropBlock k).bexOut = s.bexOut := rfl
@[simp] theorem dropBlock_bexDone : (s.dropBlock k).bexDone = s.bexDone := rfl
@[simp] theorem dropBlock_bexIn : (s.dropBlock k).bexIn = s.bexIn := rfl
@[simp] theorem dropBlock_bexSeq : (s.dropBlock k).bexSeq = s.bexSeq := rfl
@[simp] theorem dropBlock_spdm : (s.dropBlock k).spdm = s.spdm := rfl
@[simp] theorem dropBlock_hostRead : (s.dropBlock k).hostRead = s.hostRead := rfl
@[simp] theorem dropBlock_turns : (s.dropBlock k).turns = s.turns := rfl
@[simp] theorem dropBlock_freeCtr : (s.dropBlock k).freeCtr = s.freeCtr := rfl
@[simp] theorem dropBlock_nextUid : (s.dropBlock k).nextUid = s.nextUid := rfl
@[simp] theorem dropBlock_issuer : (s.dropBlock k).issuer = s.issuer := rfl
end dropBlock

section putLaunch
variable (s : State) (k : Nat) (x : Launch)
@[simp] theorem putLaunch_ctl : (s.putLaunch k x).ctl = s.ctl := rfl
@[simp] theorem putLaunch_sys : (s.putLaunch k x).sys = s.sys := rfl
@[simp] theorem putLaunch_ident : (s.putLaunch k x).ident = s.ident := rfl
@[simp] theorem putLaunch_ring : (s.putLaunch k x).ring = s.ring := rfl
@[simp] theorem putLaunch_hostq : (s.putLaunch k x).hostq = s.hostq := rfl
@[simp] theorem putLaunch_lastq : (s.putLaunch k x).lastq = s.lastq := rfl
@[simp] theorem putLaunch_peers : (s.putLaunch k x).peers = s.peers := rfl
@[simp] theorem putLaunch_power : (s.putLaunch k x).power = s.power := rfl
@[simp] theorem putLaunch_time : (s.putLaunch k x).time = s.time := rfl
@[simp] theorem putLaunch_counters : (s.putLaunch k x).counters = s.counters := rfl
@[simp] theorem putLaunch_retired : (s.putLaunch k x).retired = s.retired := rfl
@[simp] theorem putLaunch_marked : (s.putLaunch k x).marked = s.marked := rfl
@[simp] theorem putLaunch_mem : (s.putLaunch k x).mem = s.mem := rfl
@[simp] theorem putLaunch_bad : (s.putLaunch k x).bad = s.bad := rfl
@[simp] theorem putLaunch_badS : (s.putLaunch k x).badS = s.badS := rfl
@[simp] theorem putLaunch_cores : (s.putLaunch k x).cores = s.cores := rfl
@[simp] theorem putLaunch_domes : (s.putLaunch k x).domes = s.domes := rfl
@[simp] theorem putLaunch_follow : (s.putLaunch k x).follow = s.follow := rfl
@[simp] theorem putLaunch_epoch : (s.putLaunch k x).epoch = s.epoch := rfl
@[simp] theorem putLaunch_subs : (s.putLaunch k x).subs = s.subs := rfl
@[simp] theorem putLaunch_blocks : (s.putLaunch k x).blocks = s.blocks := rfl
@[simp] theorem putLaunch_warps : (s.putLaunch k x).warps = s.warps := rfl
@[simp] theorem putLaunch_cmds : (s.putLaunch k x).cmds = s.cmds := rfl
@[simp] theorem putLaunch_waits : (s.putLaunch k x).waits = s.waits := rfl
@[simp] theorem putLaunch_saved : (s.putLaunch k x).saved = s.saved := rfl
@[simp] theorem putLaunch_rests : (s.putLaunch k x).rests = s.rests := rfl
@[simp] theorem putLaunch_views : (s.putLaunch k x).views = s.views := rfl
@[simp] theorem putLaunch_llc : (s.putLaunch k x).llc = s.llc := rfl
@[simp] theorem putLaunch_proxy : (s.putLaunch k x).proxy = s.proxy := rfl
@[simp] theorem putLaunch_hostClean : (s.putLaunch k x).hostClean = s.hostClean := rfl
@[simp] theorem putLaunch_flash : (s.putLaunch k x).flash = s.flash := rfl
@[simp] theorem putLaunch_late : (s.putLaunch k x).late = s.late := rfl
@[simp] theorem putLaunch_reds : (s.putLaunch k x).reds = s.reds := rfl
@[simp] theorem putLaunch_asker : (s.putLaunch k x).asker = s.asker := rfl
@[simp] theorem putLaunch_wants : (s.putLaunch k x).wants = s.wants := rfl
@[simp] theorem putLaunch_bexOut : (s.putLaunch k x).bexOut = s.bexOut := rfl
@[simp] theorem putLaunch_bexDone : (s.putLaunch k x).bexDone = s.bexDone := rfl
@[simp] theorem putLaunch_bexIn : (s.putLaunch k x).bexIn = s.bexIn := rfl
@[simp] theorem putLaunch_bexSeq : (s.putLaunch k x).bexSeq = s.bexSeq := rfl
@[simp] theorem putLaunch_spdm : (s.putLaunch k x).spdm = s.spdm := rfl
@[simp] theorem putLaunch_hostRead : (s.putLaunch k x).hostRead = s.hostRead := rfl
@[simp] theorem putLaunch_turns : (s.putLaunch k x).turns = s.turns := rfl
@[simp] theorem putLaunch_freeCtr : (s.putLaunch k x).freeCtr = s.freeCtr := rfl
@[simp] theorem putLaunch_nextUid : (s.putLaunch k x).nextUid = s.nextUid := rfl
@[simp] theorem putLaunch_issuer : (s.putLaunch k x).issuer = s.issuer := rfl
end putLaunch

section dropLaunch
variable (s : State) (k : Nat)
@[simp] theorem dropLaunch_ctl : (s.dropLaunch k).ctl = s.ctl := rfl
@[simp] theorem dropLaunch_sys : (s.dropLaunch k).sys = s.sys := rfl
@[simp] theorem dropLaunch_ident : (s.dropLaunch k).ident = s.ident := rfl
@[simp] theorem dropLaunch_ring : (s.dropLaunch k).ring = s.ring := rfl
@[simp] theorem dropLaunch_hostq : (s.dropLaunch k).hostq = s.hostq := rfl
@[simp] theorem dropLaunch_lastq : (s.dropLaunch k).lastq = s.lastq := rfl
@[simp] theorem dropLaunch_peers : (s.dropLaunch k).peers = s.peers := rfl
@[simp] theorem dropLaunch_power : (s.dropLaunch k).power = s.power := rfl
@[simp] theorem dropLaunch_time : (s.dropLaunch k).time = s.time := rfl
@[simp] theorem dropLaunch_counters : (s.dropLaunch k).counters = s.counters := rfl
@[simp] theorem dropLaunch_retired : (s.dropLaunch k).retired = s.retired := rfl
@[simp] theorem dropLaunch_marked : (s.dropLaunch k).marked = s.marked := rfl
@[simp] theorem dropLaunch_mem : (s.dropLaunch k).mem = s.mem := rfl
@[simp] theorem dropLaunch_bad : (s.dropLaunch k).bad = s.bad := rfl
@[simp] theorem dropLaunch_badS : (s.dropLaunch k).badS = s.badS := rfl
@[simp] theorem dropLaunch_cores : (s.dropLaunch k).cores = s.cores := rfl
@[simp] theorem dropLaunch_domes : (s.dropLaunch k).domes = s.domes := rfl
@[simp] theorem dropLaunch_follow : (s.dropLaunch k).follow = s.follow := rfl
@[simp] theorem dropLaunch_epoch : (s.dropLaunch k).epoch = s.epoch := rfl
@[simp] theorem dropLaunch_subs : (s.dropLaunch k).subs = s.subs := rfl
@[simp] theorem dropLaunch_blocks : (s.dropLaunch k).blocks = s.blocks := rfl
@[simp] theorem dropLaunch_warps : (s.dropLaunch k).warps = s.warps := rfl
@[simp] theorem dropLaunch_cmds : (s.dropLaunch k).cmds = s.cmds := rfl
@[simp] theorem dropLaunch_waits : (s.dropLaunch k).waits = s.waits := rfl
@[simp] theorem dropLaunch_saved : (s.dropLaunch k).saved = s.saved := rfl
@[simp] theorem dropLaunch_rests : (s.dropLaunch k).rests = s.rests := rfl
@[simp] theorem dropLaunch_views : (s.dropLaunch k).views = s.views := rfl
@[simp] theorem dropLaunch_llc : (s.dropLaunch k).llc = s.llc := rfl
@[simp] theorem dropLaunch_proxy : (s.dropLaunch k).proxy = s.proxy := rfl
@[simp] theorem dropLaunch_hostClean : (s.dropLaunch k).hostClean = s.hostClean := rfl
@[simp] theorem dropLaunch_flash : (s.dropLaunch k).flash = s.flash := rfl
@[simp] theorem dropLaunch_late : (s.dropLaunch k).late = s.late := rfl
@[simp] theorem dropLaunch_reds : (s.dropLaunch k).reds = s.reds := rfl
@[simp] theorem dropLaunch_asker : (s.dropLaunch k).asker = s.asker := rfl
@[simp] theorem dropLaunch_wants : (s.dropLaunch k).wants = s.wants := rfl
@[simp] theorem dropLaunch_bexOut : (s.dropLaunch k).bexOut = s.bexOut := rfl
@[simp] theorem dropLaunch_bexDone : (s.dropLaunch k).bexDone = s.bexDone := rfl
@[simp] theorem dropLaunch_bexIn : (s.dropLaunch k).bexIn = s.bexIn := rfl
@[simp] theorem dropLaunch_bexSeq : (s.dropLaunch k).bexSeq = s.bexSeq := rfl
@[simp] theorem dropLaunch_spdm : (s.dropLaunch k).spdm = s.spdm := rfl
@[simp] theorem dropLaunch_hostRead : (s.dropLaunch k).hostRead = s.hostRead := rfl
@[simp] theorem dropLaunch_turns : (s.dropLaunch k).turns = s.turns := rfl
@[simp] theorem dropLaunch_freeCtr : (s.dropLaunch k).freeCtr = s.freeCtr := rfl
@[simp] theorem dropLaunch_nextUid : (s.dropLaunch k).nextUid = s.nextUid := rfl
@[simp] theorem dropLaunch_issuer : (s.dropLaunch k).issuer = s.issuer := rfl
end dropLaunch

section putCore
variable (s : State) (k : Nat) (x : Core)
@[simp] theorem putCore_ctl : (s.putCore k x).ctl = s.ctl := rfl
@[simp] theorem putCore_sys : (s.putCore k x).sys = s.sys := rfl
@[simp] theorem putCore_ident : (s.putCore k x).ident = s.ident := rfl
@[simp] theorem putCore_ring : (s.putCore k x).ring = s.ring := rfl
@[simp] theorem putCore_hostq : (s.putCore k x).hostq = s.hostq := rfl
@[simp] theorem putCore_lastq : (s.putCore k x).lastq = s.lastq := rfl
@[simp] theorem putCore_peers : (s.putCore k x).peers = s.peers := rfl
@[simp] theorem putCore_power : (s.putCore k x).power = s.power := rfl
@[simp] theorem putCore_time : (s.putCore k x).time = s.time := rfl
@[simp] theorem putCore_counters : (s.putCore k x).counters = s.counters := rfl
@[simp] theorem putCore_retired : (s.putCore k x).retired = s.retired := rfl
@[simp] theorem putCore_marked : (s.putCore k x).marked = s.marked := rfl
@[simp] theorem putCore_mem : (s.putCore k x).mem = s.mem := rfl
@[simp] theorem putCore_bad : (s.putCore k x).bad = s.bad := rfl
@[simp] theorem putCore_badS : (s.putCore k x).badS = s.badS := rfl
@[simp] theorem putCore_domes : (s.putCore k x).domes = s.domes := rfl
@[simp] theorem putCore_follow : (s.putCore k x).follow = s.follow := rfl
@[simp] theorem putCore_epoch : (s.putCore k x).epoch = s.epoch := rfl
@[simp] theorem putCore_subs : (s.putCore k x).subs = s.subs := rfl
@[simp] theorem putCore_launches : (s.putCore k x).launches = s.launches := rfl
@[simp] theorem putCore_blocks : (s.putCore k x).blocks = s.blocks := rfl
@[simp] theorem putCore_warps : (s.putCore k x).warps = s.warps := rfl
@[simp] theorem putCore_cmds : (s.putCore k x).cmds = s.cmds := rfl
@[simp] theorem putCore_waits : (s.putCore k x).waits = s.waits := rfl
@[simp] theorem putCore_saved : (s.putCore k x).saved = s.saved := rfl
@[simp] theorem putCore_rests : (s.putCore k x).rests = s.rests := rfl
@[simp] theorem putCore_views : (s.putCore k x).views = s.views := rfl
@[simp] theorem putCore_llc : (s.putCore k x).llc = s.llc := rfl
@[simp] theorem putCore_proxy : (s.putCore k x).proxy = s.proxy := rfl
@[simp] theorem putCore_hostClean : (s.putCore k x).hostClean = s.hostClean := rfl
@[simp] theorem putCore_flash : (s.putCore k x).flash = s.flash := rfl
@[simp] theorem putCore_late : (s.putCore k x).late = s.late := rfl
@[simp] theorem putCore_reds : (s.putCore k x).reds = s.reds := rfl
@[simp] theorem putCore_asker : (s.putCore k x).asker = s.asker := rfl
@[simp] theorem putCore_wants : (s.putCore k x).wants = s.wants := rfl
@[simp] theorem putCore_bexOut : (s.putCore k x).bexOut = s.bexOut := rfl
@[simp] theorem putCore_bexDone : (s.putCore k x).bexDone = s.bexDone := rfl
@[simp] theorem putCore_bexIn : (s.putCore k x).bexIn = s.bexIn := rfl
@[simp] theorem putCore_bexSeq : (s.putCore k x).bexSeq = s.bexSeq := rfl
@[simp] theorem putCore_spdm : (s.putCore k x).spdm = s.spdm := rfl
@[simp] theorem putCore_hostRead : (s.putCore k x).hostRead = s.hostRead := rfl
@[simp] theorem putCore_turns : (s.putCore k x).turns = s.turns := rfl
@[simp] theorem putCore_freeCtr : (s.putCore k x).freeCtr = s.freeCtr := rfl
@[simp] theorem putCore_nextUid : (s.putCore k x).nextUid = s.nextUid := rfl
@[simp] theorem putCore_issuer : (s.putCore k x).issuer = s.issuer := rfl
end putCore

section putDome
variable (s : State) (k : Nat) (x : Dome)
@[simp] theorem putDome_ctl : (s.putDome k x).ctl = s.ctl := rfl
@[simp] theorem putDome_sys : (s.putDome k x).sys = s.sys := rfl
@[simp] theorem putDome_ident : (s.putDome k x).ident = s.ident := rfl
@[simp] theorem putDome_ring : (s.putDome k x).ring = s.ring := rfl
@[simp] theorem putDome_hostq : (s.putDome k x).hostq = s.hostq := rfl
@[simp] theorem putDome_lastq : (s.putDome k x).lastq = s.lastq := rfl
@[simp] theorem putDome_peers : (s.putDome k x).peers = s.peers := rfl
@[simp] theorem putDome_power : (s.putDome k x).power = s.power := rfl
@[simp] theorem putDome_time : (s.putDome k x).time = s.time := rfl
@[simp] theorem putDome_counters : (s.putDome k x).counters = s.counters := rfl
@[simp] theorem putDome_retired : (s.putDome k x).retired = s.retired := rfl
@[simp] theorem putDome_marked : (s.putDome k x).marked = s.marked := rfl
@[simp] theorem putDome_mem : (s.putDome k x).mem = s.mem := rfl
@[simp] theorem putDome_bad : (s.putDome k x).bad = s.bad := rfl
@[simp] theorem putDome_badS : (s.putDome k x).badS = s.badS := rfl
@[simp] theorem putDome_cores : (s.putDome k x).cores = s.cores := rfl
@[simp] theorem putDome_follow : (s.putDome k x).follow = s.follow := rfl
@[simp] theorem putDome_epoch : (s.putDome k x).epoch = s.epoch := rfl
@[simp] theorem putDome_subs : (s.putDome k x).subs = s.subs := rfl
@[simp] theorem putDome_launches : (s.putDome k x).launches = s.launches := rfl
@[simp] theorem putDome_blocks : (s.putDome k x).blocks = s.blocks := rfl
@[simp] theorem putDome_warps : (s.putDome k x).warps = s.warps := rfl
@[simp] theorem putDome_cmds : (s.putDome k x).cmds = s.cmds := rfl
@[simp] theorem putDome_waits : (s.putDome k x).waits = s.waits := rfl
@[simp] theorem putDome_saved : (s.putDome k x).saved = s.saved := rfl
@[simp] theorem putDome_rests : (s.putDome k x).rests = s.rests := rfl
@[simp] theorem putDome_views : (s.putDome k x).views = s.views := rfl
@[simp] theorem putDome_llc : (s.putDome k x).llc = s.llc := rfl
@[simp] theorem putDome_proxy : (s.putDome k x).proxy = s.proxy := rfl
@[simp] theorem putDome_hostClean : (s.putDome k x).hostClean = s.hostClean := rfl
@[simp] theorem putDome_flash : (s.putDome k x).flash = s.flash := rfl
@[simp] theorem putDome_late : (s.putDome k x).late = s.late := rfl
@[simp] theorem putDome_reds : (s.putDome k x).reds = s.reds := rfl
@[simp] theorem putDome_asker : (s.putDome k x).asker = s.asker := rfl
@[simp] theorem putDome_wants : (s.putDome k x).wants = s.wants := rfl
@[simp] theorem putDome_bexOut : (s.putDome k x).bexOut = s.bexOut := rfl
@[simp] theorem putDome_bexDone : (s.putDome k x).bexDone = s.bexDone := rfl
@[simp] theorem putDome_bexIn : (s.putDome k x).bexIn = s.bexIn := rfl
@[simp] theorem putDome_bexSeq : (s.putDome k x).bexSeq = s.bexSeq := rfl
@[simp] theorem putDome_spdm : (s.putDome k x).spdm = s.spdm := rfl
@[simp] theorem putDome_hostRead : (s.putDome k x).hostRead = s.hostRead := rfl
@[simp] theorem putDome_turns : (s.putDome k x).turns = s.turns := rfl
@[simp] theorem putDome_freeCtr : (s.putDome k x).freeCtr = s.freeCtr := rfl
@[simp] theorem putDome_nextUid : (s.putDome k x).nextUid = s.nextUid := rfl
@[simp] theorem putDome_issuer : (s.putDome k x).issuer = s.issuer := rfl
end putDome

section dSet
variable (w : Warp) (i t : Nat) (v : Word)
@[simp] theorem dSet_blk : (w.dSet i t v).blk = w.blk := rfl
@[simp] theorem dSet_wid : (w.dSet i t v).wid = w.wid := rfl
@[simp] theorem dSet_exited : (w.dSet i t v).exited = w.exited := rfl
@[simp] theorem dSet_tags : (w.dSet i t v).tags = w.tags := rfl
@[simp] theorem dSet_w : (w.dSet i t v).w = w.w := rfl
@[simp] theorem dSet_p : (w.dSet i t v).p = w.p := rfl
@[simp] theorem dSet_q : (w.dSet i t v).q = w.q := rfl
@[simp] theorem dSet_n : (w.dSet i t v).n = w.n := rfl
@[simp] theorem dSet_m : (w.dSet i t v).m = w.m := rfl
@[simp] theorem dSet_status : (w.dSet i t v).status = w.status := rfl
@[simp] theorem dSet_rnd : (w.dSet i t v).rnd = w.rnd := rfl
@[simp] theorem dSet_weight : (w.dSet i t v).weight = w.weight := rfl
@[simp] theorem dSet_slim : (w.dSet i t v).slim = w.slim := rfl
@[simp] theorem dSet_sp : (w.dSet i t v).sp = w.sp := rfl
@[simp] theorem dSet_restart : (w.dSet i t v).restart = w.restart := rfl
@[simp] theorem dSet_fault : (w.dSet i t v).fault = w.fault := rfl
@[simp] theorem dSet_handler : (w.dSet i t v).handler = w.handler := rfl
@[simp] theorem dSet_held : (w.dSet i t v).held = w.held := rfl
@[simp] theorem dSet_trapBlk : (w.dSet i t v).trapBlk = w.trapBlk := rfl
@[simp] theorem dSet_splits : (w.dSet i t v).splits = w.splits := rfl
@[simp] theorem dSet_stacked : (w.dSet i t v).stacked = w.stacked := rfl
@[simp] theorem dSet_recs : (w.dSet i t v).recs = w.recs := rfl
@[simp] theorem dSet_calls : (w.dSet i t v).calls = w.calls := rfl
@[simp] theorem dSet_nextId : (w.dSet i t v).nextId = w.nextId := rfl
@[simp] theorem dSet_ports : (w.dSet i t v).ports = w.ports := rfl
@[simp] theorem dSet_lostSp : (w.dSet i t v).lostSp = w.lostSp := rfl
@[simp] theorem dSet_lostXs : (w.dSet i t v).lostXs = w.lostXs := rfl
@[simp] theorem dSet_hoist : (w.dSet i t v).hoist = w.hoist := rfl
@[simp] theorem dSet_txn : (w.dSet i t v).txn = w.txn := rfl
@[simp] theorem dSet_windows : (w.dSet i t v).windows = w.windows := rfl
@[simp] theorem dSet_frames : (w.dSet i t v).frames = w.frames := rfl
@[simp] theorem dSet_fences : (w.dSet i t v).fences = w.fences := rfl
@[simp] theorem dSet_regions : (w.dSet i t v).regions = w.regions := rfl
@[simp] theorem dSet_damaged : (w.dSet i t v).damaged = w.damaged := rfl
@[simp] theorem dSet_badFrame : (w.dSet i t v).badFrame = w.badFrame := rfl
@[simp] theorem dSet_noFrame : (w.dSet i t v).noFrame = w.noFrame := rfl
end dSet

section wSet
variable (w : Warp) (i : Nat) (v : Word)
@[simp] theorem wSet_blk : (w.wSet i v).blk = w.blk := rfl
@[simp] theorem wSet_wid : (w.wSet i v).wid = w.wid := rfl
@[simp] theorem wSet_exited : (w.wSet i v).exited = w.exited := rfl
@[simp] theorem wSet_d : (w.wSet i v).d = w.d := rfl
@[simp] theorem wSet_tags : (w.wSet i v).tags = w.tags := rfl
@[simp] theorem wSet_p : (w.wSet i v).p = w.p := rfl
@[simp] theorem wSet_q : (w.wSet i v).q = w.q := rfl
@[simp] theorem wSet_n : (w.wSet i v).n = w.n := rfl
@[simp] theorem wSet_m : (w.wSet i v).m = w.m := rfl
@[simp] theorem wSet_status : (w.wSet i v).status = w.status := rfl
@[simp] theorem wSet_rnd : (w.wSet i v).rnd = w.rnd := rfl
@[simp] theorem wSet_weight : (w.wSet i v).weight = w.weight := rfl
@[simp] theorem wSet_slim : (w.wSet i v).slim = w.slim := rfl
@[simp] theorem wSet_sp : (w.wSet i v).sp = w.sp := rfl
@[simp] theorem wSet_restart : (w.wSet i v).restart = w.restart := rfl
@[simp] theorem wSet_fault : (w.wSet i v).fault = w.fault := rfl
@[simp] theorem wSet_handler : (w.wSet i v).handler = w.handler := rfl
@[simp] theorem wSet_held : (w.wSet i v).held = w.held := rfl
@[simp] theorem wSet_trapBlk : (w.wSet i v).trapBlk = w.trapBlk := rfl
@[simp] theorem wSet_splits : (w.wSet i v).splits = w.splits := rfl
@[simp] theorem wSet_stacked : (w.wSet i v).stacked = w.stacked := rfl
@[simp] theorem wSet_recs : (w.wSet i v).recs = w.recs := rfl
@[simp] theorem wSet_calls : (w.wSet i v).calls = w.calls := rfl
@[simp] theorem wSet_nextId : (w.wSet i v).nextId = w.nextId := rfl
@[simp] theorem wSet_ports : (w.wSet i v).ports = w.ports := rfl
@[simp] theorem wSet_lostSp : (w.wSet i v).lostSp = w.lostSp := rfl
@[simp] theorem wSet_lostXs : (w.wSet i v).lostXs = w.lostXs := rfl
@[simp] theorem wSet_hoist : (w.wSet i v).hoist = w.hoist := rfl
@[simp] theorem wSet_txn : (w.wSet i v).txn = w.txn := rfl
@[simp] theorem wSet_windows : (w.wSet i v).windows = w.windows := rfl
@[simp] theorem wSet_frames : (w.wSet i v).frames = w.frames := rfl
@[simp] theorem wSet_fences : (w.wSet i v).fences = w.fences := rfl
@[simp] theorem wSet_regions : (w.wSet i v).regions = w.regions := rfl
@[simp] theorem wSet_damaged : (w.wSet i v).damaged = w.damaged := rfl
@[simp] theorem wSet_badFrame : (w.wSet i v).badFrame = w.badFrame := rfl
@[simp] theorem wSet_noFrame : (w.wSet i v).noFrame = w.noFrame := rfl
end wSet

section nSet
variable (w : Warp) (i : Nat) (v : BitVec 32)
@[simp] theorem nSet_blk : (w.nSet i v).blk = w.blk := rfl
@[simp] theorem nSet_wid : (w.nSet i v).wid = w.wid := rfl
@[simp] theorem nSet_exited : (w.nSet i v).exited = w.exited := rfl
@[simp] theorem nSet_d : (w.nSet i v).d = w.d := rfl
@[simp] theorem nSet_tags : (w.nSet i v).tags = w.tags := rfl
@[simp] theorem nSet_w : (w.nSet i v).w = w.w := rfl
@[simp] theorem nSet_p : (w.nSet i v).p = w.p := rfl
@[simp] theorem nSet_q : (w.nSet i v).q = w.q := rfl
@[simp] theorem nSet_m : (w.nSet i v).m = w.m := rfl
@[simp] theorem nSet_status : (w.nSet i v).status = w.status := rfl
@[simp] theorem nSet_rnd : (w.nSet i v).rnd = w.rnd := rfl
@[simp] theorem nSet_weight : (w.nSet i v).weight = w.weight := rfl
@[simp] theorem nSet_slim : (w.nSet i v).slim = w.slim := rfl
@[simp] theorem nSet_sp : (w.nSet i v).sp = w.sp := rfl
@[simp] theorem nSet_restart : (w.nSet i v).restart = w.restart := rfl
@[simp] theorem nSet_fault : (w.nSet i v).fault = w.fault := rfl
@[simp] theorem nSet_handler : (w.nSet i v).handler = w.handler := rfl
@[simp] theorem nSet_held : (w.nSet i v).held = w.held := rfl
@[simp] theorem nSet_trapBlk : (w.nSet i v).trapBlk = w.trapBlk := rfl
@[simp] theorem nSet_splits : (w.nSet i v).splits = w.splits := rfl
@[simp] theorem nSet_stacked : (w.nSet i v).stacked = w.stacked := rfl
@[simp] theorem nSet_recs : (w.nSet i v).recs = w.recs := rfl
@[simp] theorem nSet_calls : (w.nSet i v).calls = w.calls := rfl
@[simp] theorem nSet_nextId : (w.nSet i v).nextId = w.nextId := rfl
@[simp] theorem nSet_ports : (w.nSet i v).ports = w.ports := rfl
@[simp] theorem nSet_lostSp : (w.nSet i v).lostSp = w.lostSp := rfl
@[simp] theorem nSet_lostXs : (w.nSet i v).lostXs = w.lostXs := rfl
@[simp] theorem nSet_hoist : (w.nSet i v).hoist = w.hoist := rfl
@[simp] theorem nSet_txn : (w.nSet i v).txn = w.txn := rfl
@[simp] theorem nSet_windows : (w.nSet i v).windows = w.windows := rfl
@[simp] theorem nSet_frames : (w.nSet i v).frames = w.frames := rfl
@[simp] theorem nSet_fences : (w.nSet i v).fences = w.fences := rfl
@[simp] theorem nSet_regions : (w.nSet i v).regions = w.regions := rfl
@[simp] theorem nSet_damaged : (w.nSet i v).damaged = w.damaged := rfl
@[simp] theorem nSet_badFrame : (w.nSet i v).badFrame = w.badFrame := rfl
@[simp] theorem nSet_noFrame : (w.nSet i v).noFrame = w.noFrame := rfl
end nSet

section mSet
variable (w : Warp) (i : Nat) (v : Word)
@[simp] theorem mSet_blk : (w.mSet i v).blk = w.blk := rfl
@[simp] theorem mSet_wid : (w.mSet i v).wid = w.wid := rfl
@[simp] theorem mSet_exited : (w.mSet i v).exited = w.exited := rfl
@[simp] theorem mSet_d : (w.mSet i v).d = w.d := rfl
@[simp] theorem mSet_tags : (w.mSet i v).tags = w.tags := rfl
@[simp] theorem mSet_w : (w.mSet i v).w = w.w := rfl
@[simp] theorem mSet_p : (w.mSet i v).p = w.p := rfl
@[simp] theorem mSet_q : (w.mSet i v).q = w.q := rfl
@[simp] theorem mSet_n : (w.mSet i v).n = w.n := rfl
@[simp] theorem mSet_status : (w.mSet i v).status = w.status := rfl
@[simp] theorem mSet_rnd : (w.mSet i v).rnd = w.rnd := rfl
@[simp] theorem mSet_weight : (w.mSet i v).weight = w.weight := rfl
@[simp] theorem mSet_slim : (w.mSet i v).slim = w.slim := rfl
@[simp] theorem mSet_sp : (w.mSet i v).sp = w.sp := rfl
@[simp] theorem mSet_restart : (w.mSet i v).restart = w.restart := rfl
@[simp] theorem mSet_fault : (w.mSet i v).fault = w.fault := rfl
@[simp] theorem mSet_handler : (w.mSet i v).handler = w.handler := rfl
@[simp] theorem mSet_held : (w.mSet i v).held = w.held := rfl
@[simp] theorem mSet_trapBlk : (w.mSet i v).trapBlk = w.trapBlk := rfl
@[simp] theorem mSet_splits : (w.mSet i v).splits = w.splits := rfl
@[simp] theorem mSet_stacked : (w.mSet i v).stacked = w.stacked := rfl
@[simp] theorem mSet_recs : (w.mSet i v).recs = w.recs := rfl
@[simp] theorem mSet_calls : (w.mSet i v).calls = w.calls := rfl
@[simp] theorem mSet_nextId : (w.mSet i v).nextId = w.nextId := rfl
@[simp] theorem mSet_ports : (w.mSet i v).ports = w.ports := rfl
@[simp] theorem mSet_lostSp : (w.mSet i v).lostSp = w.lostSp := rfl
@[simp] theorem mSet_lostXs : (w.mSet i v).lostXs = w.lostXs := rfl
@[simp] theorem mSet_hoist : (w.mSet i v).hoist = w.hoist := rfl
@[simp] theorem mSet_txn : (w.mSet i v).txn = w.txn := rfl
@[simp] theorem mSet_windows : (w.mSet i v).windows = w.windows := rfl
@[simp] theorem mSet_frames : (w.mSet i v).frames = w.frames := rfl
@[simp] theorem mSet_fences : (w.mSet i v).fences = w.fences := rfl
@[simp] theorem mSet_regions : (w.mSet i v).regions = w.regions := rfl
@[simp] theorem mSet_damaged : (w.mSet i v).damaged = w.damaged := rfl
@[simp] theorem mSet_badFrame : (w.mSet i v).badFrame = w.badFrame := rfl
@[simp] theorem mSet_noFrame : (w.mSet i v).noFrame = w.noFrame := rfl
end mSet

section rndSet
variable (w : Warp) (t : Nat) (v : Word)
@[simp] theorem rndSet_blk : (w.rndSet t v).blk = w.blk := rfl
@[simp] theorem rndSet_wid : (w.rndSet t v).wid = w.wid := rfl
@[simp] theorem rndSet_exited : (w.rndSet t v).exited = w.exited := rfl
@[simp] theorem rndSet_d : (w.rndSet t v).d = w.d := rfl
@[simp] theorem rndSet_tags : (w.rndSet t v).tags = w.tags := rfl
@[simp] theorem rndSet_w : (w.rndSet t v).w = w.w := rfl
@[simp] theorem rndSet_p : (w.rndSet t v).p = w.p := rfl
@[simp] theorem rndSet_q : (w.rndSet t v).q = w.q := rfl
@[simp] theorem rndSet_n : (w.rndSet t v).n = w.n := rfl
@[simp] theorem rndSet_m : (w.rndSet t v).m = w.m := rfl
@[simp] theorem rndSet_status : (w.rndSet t v).status = w.status := rfl
@[simp] theorem rndSet_weight : (w.rndSet t v).weight = w.weight := rfl
@[simp] theorem rndSet_slim : (w.rndSet t v).slim = w.slim := rfl
@[simp] theorem rndSet_sp : (w.rndSet t v).sp = w.sp := rfl
@[simp] theorem rndSet_restart : (w.rndSet t v).restart = w.restart := rfl
@[simp] theorem rndSet_fault : (w.rndSet t v).fault = w.fault := rfl
@[simp] theorem rndSet_handler : (w.rndSet t v).handler = w.handler := rfl
@[simp] theorem rndSet_held : (w.rndSet t v).held = w.held := rfl
@[simp] theorem rndSet_trapBlk : (w.rndSet t v).trapBlk = w.trapBlk := rfl
@[simp] theorem rndSet_splits : (w.rndSet t v).splits = w.splits := rfl
@[simp] theorem rndSet_stacked : (w.rndSet t v).stacked = w.stacked := rfl
@[simp] theorem rndSet_recs : (w.rndSet t v).recs = w.recs := rfl
@[simp] theorem rndSet_calls : (w.rndSet t v).calls = w.calls := rfl
@[simp] theorem rndSet_nextId : (w.rndSet t v).nextId = w.nextId := rfl
@[simp] theorem rndSet_ports : (w.rndSet t v).ports = w.ports := rfl
@[simp] theorem rndSet_lostSp : (w.rndSet t v).lostSp = w.lostSp := rfl
@[simp] theorem rndSet_lostXs : (w.rndSet t v).lostXs = w.lostXs := rfl
@[simp] theorem rndSet_hoist : (w.rndSet t v).hoist = w.hoist := rfl
@[simp] theorem rndSet_txn : (w.rndSet t v).txn = w.txn := rfl
@[simp] theorem rndSet_windows : (w.rndSet t v).windows = w.windows := rfl
@[simp] theorem rndSet_frames : (w.rndSet t v).frames = w.frames := rfl
@[simp] theorem rndSet_fences : (w.rndSet t v).fences = w.fences := rfl
@[simp] theorem rndSet_regions : (w.rndSet t v).regions = w.regions := rfl
@[simp] theorem rndSet_damaged : (w.rndSet t v).damaged = w.damaged := rfl
@[simp] theorem rndSet_badFrame : (w.rndSet t v).badFrame = w.badFrame := rfl
@[simp] theorem rndSet_noFrame : (w.rndSet t v).noFrame = w.noFrame := rfl
end rndSet

section weightSet
variable (w : Warp) (t : Nat) (v : Word)
@[simp] theorem weightSet_blk : (w.weightSet t v).blk = w.blk := rfl
@[simp] theorem weightSet_wid : (w.weightSet t v).wid = w.wid := rfl
@[simp] theorem weightSet_exited : (w.weightSet t v).exited = w.exited := rfl
@[simp] theorem weightSet_d : (w.weightSet t v).d = w.d := rfl
@[simp] theorem weightSet_tags : (w.weightSet t v).tags = w.tags := rfl
@[simp] theorem weightSet_w : (w.weightSet t v).w = w.w := rfl
@[simp] theorem weightSet_p : (w.weightSet t v).p = w.p := rfl
@[simp] theorem weightSet_q : (w.weightSet t v).q = w.q := rfl
@[simp] theorem weightSet_n : (w.weightSet t v).n = w.n := rfl
@[simp] theorem weightSet_m : (w.weightSet t v).m = w.m := rfl
@[simp] theorem weightSet_status : (w.weightSet t v).status = w.status := rfl
@[simp] theorem weightSet_rnd : (w.weightSet t v).rnd = w.rnd := rfl
@[simp] theorem weightSet_slim : (w.weightSet t v).slim = w.slim := rfl
@[simp] theorem weightSet_sp : (w.weightSet t v).sp = w.sp := rfl
@[simp] theorem weightSet_restart : (w.weightSet t v).restart = w.restart := rfl
@[simp] theorem weightSet_fault : (w.weightSet t v).fault = w.fault := rfl
@[simp] theorem weightSet_handler : (w.weightSet t v).handler = w.handler := rfl
@[simp] theorem weightSet_held : (w.weightSet t v).held = w.held := rfl
@[simp] theorem weightSet_trapBlk : (w.weightSet t v).trapBlk = w.trapBlk := rfl
@[simp] theorem weightSet_splits : (w.weightSet t v).splits = w.splits := rfl
@[simp] theorem weightSet_stacked : (w.weightSet t v).stacked = w.stacked := rfl
@[simp] theorem weightSet_recs : (w.weightSet t v).recs = w.recs := rfl
@[simp] theorem weightSet_calls : (w.weightSet t v).calls = w.calls := rfl
@[simp] theorem weightSet_nextId : (w.weightSet t v).nextId = w.nextId := rfl
@[simp] theorem weightSet_ports : (w.weightSet t v).ports = w.ports := rfl
@[simp] theorem weightSet_lostSp : (w.weightSet t v).lostSp = w.lostSp := rfl
@[simp] theorem weightSet_lostXs : (w.weightSet t v).lostXs = w.lostXs := rfl
@[simp] theorem weightSet_hoist : (w.weightSet t v).hoist = w.hoist := rfl
@[simp] theorem weightSet_txn : (w.weightSet t v).txn = w.txn := rfl
@[simp] theorem weightSet_windows : (w.weightSet t v).windows = w.windows := rfl
@[simp] theorem weightSet_frames : (w.weightSet t v).frames = w.frames := rfl
@[simp] theorem weightSet_fences : (w.weightSet t v).fences = w.fences := rfl
@[simp] theorem weightSet_regions : (w.weightSet t v).regions = w.regions := rfl
@[simp] theorem weightSet_damaged : (w.weightSet t v).damaged = w.damaged := rfl
@[simp] theorem weightSet_badFrame : (w.weightSet t v).badFrame = w.badFrame := rfl
@[simp] theorem weightSet_noFrame : (w.weightSet t v).noFrame = w.noFrame := rfl
end weightSet

section setFlags
variable (w : Warp) (t : Nat) (f : Flags)
@[simp] theorem setFlags_blk : (w.setFlags t f).blk = w.blk := rfl
@[simp] theorem setFlags_wid : (w.setFlags t f).wid = w.wid := rfl
@[simp] theorem setFlags_exited : (w.setFlags t f).exited = w.exited := rfl
@[simp] theorem setFlags_d : (w.setFlags t f).d = w.d := rfl
@[simp] theorem setFlags_tags : (w.setFlags t f).tags = w.tags := rfl
@[simp] theorem setFlags_w : (w.setFlags t f).w = w.w := rfl
@[simp] theorem setFlags_p : (w.setFlags t f).p = w.p := rfl
@[simp] theorem setFlags_q : (w.setFlags t f).q = w.q := rfl
@[simp] theorem setFlags_n : (w.setFlags t f).n = w.n := rfl
@[simp] theorem setFlags_m : (w.setFlags t f).m = w.m := rfl
@[simp] theorem setFlags_rnd : (w.setFlags t f).rnd = w.rnd := rfl
@[simp] theorem setFlags_weight : (w.setFlags t f).weight = w.weight := rfl
@[simp] theorem setFlags_slim : (w.setFlags t f).slim = w.slim := rfl
@[simp] theorem setFlags_sp : (w.setFlags t f).sp = w.sp := rfl
@[simp] theorem setFlags_restart : (w.setFlags t f).restart = w.restart := rfl
@[simp] theorem setFlags_fault : (w.setFlags t f).fault = w.fault := rfl
@[simp] theorem setFlags_handler : (w.setFlags t f).handler = w.handler := rfl
@[simp] theorem setFlags_held : (w.setFlags t f).held = w.held := rfl
@[simp] theorem setFlags_trapBlk : (w.setFlags t f).trapBlk = w.trapBlk := rfl
@[simp] theorem setFlags_splits : (w.setFlags t f).splits = w.splits := rfl
@[simp] theorem setFlags_stacked : (w.setFlags t f).stacked = w.stacked := rfl
@[simp] theorem setFlags_recs : (w.setFlags t f).recs = w.recs := rfl
@[simp] theorem setFlags_calls : (w.setFlags t f).calls = w.calls := rfl
@[simp] theorem setFlags_nextId : (w.setFlags t f).nextId = w.nextId := rfl
@[simp] theorem setFlags_ports : (w.setFlags t f).ports = w.ports := rfl
@[simp] theorem setFlags_lostSp : (w.setFlags t f).lostSp = w.lostSp := rfl
@[simp] theorem setFlags_lostXs : (w.setFlags t f).lostXs = w.lostXs := rfl
@[simp] theorem setFlags_hoist : (w.setFlags t f).hoist = w.hoist := rfl
@[simp] theorem setFlags_txn : (w.setFlags t f).txn = w.txn := rfl
@[simp] theorem setFlags_windows : (w.setFlags t f).windows = w.windows := rfl
@[simp] theorem setFlags_frames : (w.setFlags t f).frames = w.frames := rfl
@[simp] theorem setFlags_fences : (w.setFlags t f).fences = w.fences := rfl
@[simp] theorem setFlags_regions : (w.setFlags t f).regions = w.regions := rfl
@[simp] theorem setFlags_damaged : (w.setFlags t f).damaged = w.damaged := rfl
@[simp] theorem setFlags_badFrame : (w.setFlags t f).badFrame = w.badFrame := rfl
@[simp] theorem setFlags_noFrame : (w.setFlags t f).noFrame = w.noFrame := rfl
end setFlags

section writeStatus
variable (w : Warp) (t : Nat) (v : Word)
@[simp] theorem writeStatus_blk : (w.writeStatus t v).blk = w.blk := rfl
@[simp] theorem writeStatus_wid : (w.writeStatus t v).wid = w.wid := rfl
@[simp] theorem writeStatus_exited : (w.writeStatus t v).exited = w.exited := rfl
@[simp] theorem writeStatus_d : (w.writeStatus t v).d = w.d := rfl
@[simp] theorem writeStatus_tags : (w.writeStatus t v).tags = w.tags := rfl
@[simp] theorem writeStatus_w : (w.writeStatus t v).w = w.w := rfl
@[simp] theorem writeStatus_p : (w.writeStatus t v).p = w.p := rfl
@[simp] theorem writeStatus_q : (w.writeStatus t v).q = w.q := rfl
@[simp] theorem writeStatus_n : (w.writeStatus t v).n = w.n := rfl
@[simp] theorem writeStatus_m : (w.writeStatus t v).m = w.m := rfl
@[simp] theorem writeStatus_rnd : (w.writeStatus t v).rnd = w.rnd := rfl
@[simp] theorem writeStatus_weight : (w.writeStatus t v).weight = w.weight := rfl
@[simp] theorem writeStatus_slim : (w.writeStatus t v).slim = w.slim := rfl
@[simp] theorem writeStatus_sp : (w.writeStatus t v).sp = w.sp := rfl
@[simp] theorem writeStatus_restart : (w.writeStatus t v).restart = w.restart := rfl
@[simp] theorem writeStatus_fault : (w.writeStatus t v).fault = w.fault := rfl
@[simp] theorem writeStatus_handler : (w.writeStatus t v).handler = w.handler := rfl
@[simp] theorem writeStatus_held : (w.writeStatus t v).held = w.held := rfl
@[simp] theorem writeStatus_trapBlk : (w.writeStatus t v).trapBlk = w.trapBlk := rfl
@[simp] theorem writeStatus_splits : (w.writeStatus t v).splits = w.splits := rfl
@[simp] theorem writeStatus_stacked : (w.writeStatus t v).stacked = w.stacked := rfl
@[simp] theorem writeStatus_recs : (w.writeStatus t v).recs = w.recs := rfl
@[simp] theorem writeStatus_calls : (w.writeStatus t v).calls = w.calls := rfl
@[simp] theorem writeStatus_nextId : (w.writeStatus t v).nextId = w.nextId := rfl
@[simp] theorem writeStatus_ports : (w.writeStatus t v).ports = w.ports := rfl
@[simp] theorem writeStatus_lostSp : (w.writeStatus t v).lostSp = w.lostSp := rfl
@[simp] theorem writeStatus_lostXs : (w.writeStatus t v).lostXs = w.lostXs := rfl
@[simp] theorem writeStatus_hoist : (w.writeStatus t v).hoist = w.hoist := rfl
@[simp] theorem writeStatus_txn : (w.writeStatus t v).txn = w.txn := rfl
@[simp] theorem writeStatus_windows : (w.writeStatus t v).windows = w.windows := rfl
@[simp] theorem writeStatus_frames : (w.writeStatus t v).frames = w.frames := rfl
@[simp] theorem writeStatus_fences : (w.writeStatus t v).fences = w.fences := rfl
@[simp] theorem writeStatus_regions : (w.writeStatus t v).regions = w.regions := rfl
@[simp] theorem writeStatus_damaged : (w.writeStatus t v).damaged = w.damaged := rfl
@[simp] theorem writeStatus_badFrame : (w.writeStatus t v).badFrame = w.badFrame := rfl
@[simp] theorem writeStatus_noFrame : (w.writeStatus t v).noFrame = w.noFrame := rfl
end writeStatus

section mend
variable (w : Warp) (r : Nat)
@[simp] theorem mend_blk : (w.mend r).blk = w.blk := rfl
@[simp] theorem mend_wid : (w.mend r).wid = w.wid := rfl
@[simp] theorem mend_exited : (w.mend r).exited = w.exited := rfl
@[simp] theorem mend_d : (w.mend r).d = w.d := rfl
@[simp] theorem mend_tags : (w.mend r).tags = w.tags := rfl
@[simp] theorem mend_w : (w.mend r).w = w.w := rfl
@[simp] theorem mend_p : (w.mend r).p = w.p := rfl
@[simp] theorem mend_q : (w.mend r).q = w.q := rfl
@[simp] theorem mend_n : (w.mend r).n = w.n := rfl
@[simp] theorem mend_m : (w.mend r).m = w.m := rfl
@[simp] theorem mend_status : (w.mend r).status = w.status := rfl
@[simp] theorem mend_rnd : (w.mend r).rnd = w.rnd := rfl
@[simp] theorem mend_weight : (w.mend r).weight = w.weight := rfl
@[simp] theorem mend_slim : (w.mend r).slim = w.slim := rfl
@[simp] theorem mend_sp : (w.mend r).sp = w.sp := rfl
@[simp] theorem mend_restart : (w.mend r).restart = w.restart := rfl
@[simp] theorem mend_fault : (w.mend r).fault = w.fault := rfl
@[simp] theorem mend_handler : (w.mend r).handler = w.handler := rfl
@[simp] theorem mend_held : (w.mend r).held = w.held := rfl
@[simp] theorem mend_trapBlk : (w.mend r).trapBlk = w.trapBlk := rfl
@[simp] theorem mend_splits : (w.mend r).splits = w.splits := rfl
@[simp] theorem mend_stacked : (w.mend r).stacked = w.stacked := rfl
@[simp] theorem mend_recs : (w.mend r).recs = w.recs := rfl
@[simp] theorem mend_calls : (w.mend r).calls = w.calls := rfl
@[simp] theorem mend_nextId : (w.mend r).nextId = w.nextId := rfl
@[simp] theorem mend_ports : (w.mend r).ports = w.ports := rfl
@[simp] theorem mend_lostSp : (w.mend r).lostSp = w.lostSp := rfl
@[simp] theorem mend_lostXs : (w.mend r).lostXs = w.lostXs := rfl
@[simp] theorem mend_hoist : (w.mend r).hoist = w.hoist := rfl
@[simp] theorem mend_txn : (w.mend r).txn = w.txn := rfl
@[simp] theorem mend_windows : (w.mend r).windows = w.windows := rfl
@[simp] theorem mend_frames : (w.mend r).frames = w.frames := rfl
@[simp] theorem mend_fences : (w.mend r).fences = w.fences := rfl
@[simp] theorem mend_regions : (w.mend r).regions = w.regions := rfl
@[simp] theorem mend_badFrame : (w.mend r).badFrame = w.badFrame := rfl
@[simp] theorem mend_noFrame : (w.mend r).noFrame = w.noFrame := rfl
end mend

section putSplit
variable (w : Warp) (p : Split)
@[simp] theorem putSplit_blk : (w.putSplit p).blk = w.blk := rfl
@[simp] theorem putSplit_wid : (w.putSplit p).wid = w.wid := rfl
@[simp] theorem putSplit_exited : (w.putSplit p).exited = w.exited := rfl
@[simp] theorem putSplit_d : (w.putSplit p).d = w.d := rfl
@[simp] theorem putSplit_tags : (w.putSplit p).tags = w.tags := rfl
@[simp] theorem putSplit_w : (w.putSplit p).w = w.w := rfl
@[simp] theorem putSplit_p : (w.putSplit p).p = w.p := rfl
@[simp] theorem putSplit_q : (w.putSplit p).q = w.q := rfl
@[simp] theorem putSplit_n : (w.putSplit p).n = w.n := rfl
@[simp] theorem putSplit_m : (w.putSplit p).m = w.m := rfl
@[simp] theorem putSplit_status : (w.putSplit p).status = w.status := rfl
@[simp] theorem putSplit_rnd : (w.putSplit p).rnd = w.rnd := rfl
@[simp] theorem putSplit_weight : (w.putSplit p).weight = w.weight := rfl
@[simp] theorem putSplit_slim : (w.putSplit p).slim = w.slim := rfl
@[simp] theorem putSplit_sp : (w.putSplit p).sp = w.sp := rfl
@[simp] theorem putSplit_restart : (w.putSplit p).restart = w.restart := rfl
@[simp] theorem putSplit_fault : (w.putSplit p).fault = w.fault := rfl
@[simp] theorem putSplit_handler : (w.putSplit p).handler = w.handler := rfl
@[simp] theorem putSplit_held : (w.putSplit p).held = w.held := rfl
@[simp] theorem putSplit_trapBlk : (w.putSplit p).trapBlk = w.trapBlk := rfl
@[simp] theorem putSplit_stacked : (w.putSplit p).stacked = w.stacked := rfl
@[simp] theorem putSplit_recs : (w.putSplit p).recs = w.recs := rfl
@[simp] theorem putSplit_calls : (w.putSplit p).calls = w.calls := rfl
@[simp] theorem putSplit_nextId : (w.putSplit p).nextId = w.nextId := rfl
@[simp] theorem putSplit_ports : (w.putSplit p).ports = w.ports := rfl
@[simp] theorem putSplit_lostSp : (w.putSplit p).lostSp = w.lostSp := rfl
@[simp] theorem putSplit_lostXs : (w.putSplit p).lostXs = w.lostXs := rfl
@[simp] theorem putSplit_hoist : (w.putSplit p).hoist = w.hoist := rfl
@[simp] theorem putSplit_txn : (w.putSplit p).txn = w.txn := rfl
@[simp] theorem putSplit_windows : (w.putSplit p).windows = w.windows := rfl
@[simp] theorem putSplit_frames : (w.putSplit p).frames = w.frames := rfl
@[simp] theorem putSplit_fences : (w.putSplit p).fences = w.fences := rfl
@[simp] theorem putSplit_regions : (w.putSplit p).regions = w.regions := rfl
@[simp] theorem putSplit_damaged : (w.putSplit p).damaged = w.damaged := rfl
@[simp] theorem putSplit_badFrame : (w.putSplit p).badFrame = w.badFrame := rfl
@[simp] theorem putSplit_noFrame : (w.putSplit p).noFrame = w.noFrame := rfl
end putSplit

section pSet
variable (w : Warp) (i t : Nat) (b : Bool)
@[simp] theorem pSet_blk : (w.pSet i t b).blk = w.blk := by unfold Warp.pSet; split <;> rfl
@[simp] theorem pSet_wid : (w.pSet i t b).wid = w.wid := by unfold Warp.pSet; split <;> rfl
@[simp] theorem pSet_exited : (w.pSet i t b).exited = w.exited := by unfold Warp.pSet; split <;> rfl
@[simp] theorem pSet_d : (w.pSet i t b).d = w.d := by unfold Warp.pSet; split <;> rfl
@[simp] theorem pSet_tags : (w.pSet i t b).tags = w.tags := by unfold Warp.pSet; split <;> rfl
@[simp] theorem pSet_w : (w.pSet i t b).w = w.w := by unfold Warp.pSet; split <;> rfl
@[simp] theorem pSet_q : (w.pSet i t b).q = w.q := by unfold Warp.pSet; split <;> rfl
@[simp] theorem pSet_n : (w.pSet i t b).n = w.n := by unfold Warp.pSet; split <;> rfl
@[simp] theorem pSet_m : (w.pSet i t b).m = w.m := by unfold Warp.pSet; split <;> rfl
@[simp] theorem pSet_status : (w.pSet i t b).status = w.status := by unfold Warp.pSet; split <;> rfl
@[simp] theorem pSet_rnd : (w.pSet i t b).rnd = w.rnd := by unfold Warp.pSet; split <;> rfl
@[simp] theorem pSet_weight : (w.pSet i t b).weight = w.weight := by unfold Warp.pSet; split <;> rfl
@[simp] theorem pSet_slim : (w.pSet i t b).slim = w.slim := by unfold Warp.pSet; split <;> rfl
@[simp] theorem pSet_sp : (w.pSet i t b).sp = w.sp := by unfold Warp.pSet; split <;> rfl
@[simp] theorem pSet_restart : (w.pSet i t b).restart = w.restart := by unfold Warp.pSet; split <;> rfl
@[simp] theorem pSet_fault : (w.pSet i t b).fault = w.fault := by unfold Warp.pSet; split <;> rfl
@[simp] theorem pSet_handler : (w.pSet i t b).handler = w.handler := by unfold Warp.pSet; split <;> rfl
@[simp] theorem pSet_held : (w.pSet i t b).held = w.held := by unfold Warp.pSet; split <;> rfl
@[simp] theorem pSet_trapBlk : (w.pSet i t b).trapBlk = w.trapBlk := by unfold Warp.pSet; split <;> rfl
@[simp] theorem pSet_splits : (w.pSet i t b).splits = w.splits := by unfold Warp.pSet; split <;> rfl
@[simp] theorem pSet_stacked : (w.pSet i t b).stacked = w.stacked := by unfold Warp.pSet; split <;> rfl
@[simp] theorem pSet_recs : (w.pSet i t b).recs = w.recs := by unfold Warp.pSet; split <;> rfl
@[simp] theorem pSet_calls : (w.pSet i t b).calls = w.calls := by unfold Warp.pSet; split <;> rfl
@[simp] theorem pSet_nextId : (w.pSet i t b).nextId = w.nextId := by unfold Warp.pSet; split <;> rfl
@[simp] theorem pSet_ports : (w.pSet i t b).ports = w.ports := by unfold Warp.pSet; split <;> rfl
@[simp] theorem pSet_lostSp : (w.pSet i t b).lostSp = w.lostSp := by unfold Warp.pSet; split <;> rfl
@[simp] theorem pSet_lostXs : (w.pSet i t b).lostXs = w.lostXs := by unfold Warp.pSet; split <;> rfl
@[simp] theorem pSet_hoist : (w.pSet i t b).hoist = w.hoist := by unfold Warp.pSet; split <;> rfl
@[simp] theorem pSet_txn : (w.pSet i t b).txn = w.txn := by unfold Warp.pSet; split <;> rfl
@[simp] theorem pSet_windows : (w.pSet i t b).windows = w.windows := by unfold Warp.pSet; split <;> rfl
@[simp] theorem pSet_frames : (w.pSet i t b).frames = w.frames := by unfold Warp.pSet; split <;> rfl
@[simp] theorem pSet_fences : (w.pSet i t b).fences = w.fences := by unfold Warp.pSet; split <;> rfl
@[simp] theorem pSet_regions : (w.pSet i t b).regions = w.regions := by unfold Warp.pSet; split <;> rfl
@[simp] theorem pSet_damaged : (w.pSet i t b).damaged = w.damaged := by unfold Warp.pSet; split <;> rfl
@[simp] theorem pSet_badFrame : (w.pSet i t b).badFrame = w.badFrame := by unfold Warp.pSet; split <;> rfl
@[simp] theorem pSet_noFrame : (w.pSet i t b).noFrame = w.noFrame := by unfold Warp.pSet; split <;> rfl
end pSet

section qSet
variable (w : Warp) (i : Nat) (b : Bool)
@[simp] theorem qSet_blk : (w.qSet i b).blk = w.blk := by unfold Warp.qSet; split <;> rfl
@[simp] theorem qSet_wid : (w.qSet i b).wid = w.wid := by unfold Warp.qSet; split <;> rfl
@[simp] theorem qSet_exited : (w.qSet i b).exited = w.exited := by unfold Warp.qSet; split <;> rfl
@[simp] theorem qSet_d : (w.qSet i b).d = w.d := by unfold Warp.qSet; split <;> rfl
@[simp] theorem qSet_tags : (w.qSet i b).tags = w.tags := by unfold Warp.qSet; split <;> rfl
@[simp] theorem qSet_w : (w.qSet i b).w = w.w := by unfold Warp.qSet; split <;> rfl
@[simp] theorem qSet_p : (w.qSet i b).p = w.p := by unfold Warp.qSet; split <;> rfl
@[simp] theorem qSet_n : (w.qSet i b).n = w.n := by unfold Warp.qSet; split <;> rfl
@[simp] theorem qSet_m : (w.qSet i b).m = w.m := by unfold Warp.qSet; split <;> rfl
@[simp] theorem qSet_status : (w.qSet i b).status = w.status := by unfold Warp.qSet; split <;> rfl
@[simp] theorem qSet_rnd : (w.qSet i b).rnd = w.rnd := by unfold Warp.qSet; split <;> rfl
@[simp] theorem qSet_weight : (w.qSet i b).weight = w.weight := by unfold Warp.qSet; split <;> rfl
@[simp] theorem qSet_slim : (w.qSet i b).slim = w.slim := by unfold Warp.qSet; split <;> rfl
@[simp] theorem qSet_sp : (w.qSet i b).sp = w.sp := by unfold Warp.qSet; split <;> rfl
@[simp] theorem qSet_restart : (w.qSet i b).restart = w.restart := by unfold Warp.qSet; split <;> rfl
@[simp] theorem qSet_fault : (w.qSet i b).fault = w.fault := by unfold Warp.qSet; split <;> rfl
@[simp] theorem qSet_handler : (w.qSet i b).handler = w.handler := by unfold Warp.qSet; split <;> rfl
@[simp] theorem qSet_held : (w.qSet i b).held = w.held := by unfold Warp.qSet; split <;> rfl
@[simp] theorem qSet_trapBlk : (w.qSet i b).trapBlk = w.trapBlk := by unfold Warp.qSet; split <;> rfl
@[simp] theorem qSet_splits : (w.qSet i b).splits = w.splits := by unfold Warp.qSet; split <;> rfl
@[simp] theorem qSet_stacked : (w.qSet i b).stacked = w.stacked := by unfold Warp.qSet; split <;> rfl
@[simp] theorem qSet_recs : (w.qSet i b).recs = w.recs := by unfold Warp.qSet; split <;> rfl
@[simp] theorem qSet_calls : (w.qSet i b).calls = w.calls := by unfold Warp.qSet; split <;> rfl
@[simp] theorem qSet_nextId : (w.qSet i b).nextId = w.nextId := by unfold Warp.qSet; split <;> rfl
@[simp] theorem qSet_ports : (w.qSet i b).ports = w.ports := by unfold Warp.qSet; split <;> rfl
@[simp] theorem qSet_lostSp : (w.qSet i b).lostSp = w.lostSp := by unfold Warp.qSet; split <;> rfl
@[simp] theorem qSet_lostXs : (w.qSet i b).lostXs = w.lostXs := by unfold Warp.qSet; split <;> rfl
@[simp] theorem qSet_hoist : (w.qSet i b).hoist = w.hoist := by unfold Warp.qSet; split <;> rfl
@[simp] theorem qSet_txn : (w.qSet i b).txn = w.txn := by unfold Warp.qSet; split <;> rfl
@[simp] theorem qSet_windows : (w.qSet i b).windows = w.windows := by unfold Warp.qSet; split <;> rfl
@[simp] theorem qSet_frames : (w.qSet i b).frames = w.frames := by unfold Warp.qSet; split <;> rfl
@[simp] theorem qSet_fences : (w.qSet i b).fences = w.fences := by unfold Warp.qSet; split <;> rfl
@[simp] theorem qSet_regions : (w.qSet i b).regions = w.regions := by unfold Warp.qSet; split <;> rfl
@[simp] theorem qSet_damaged : (w.qSet i b).damaged = w.damaged := by unfold Warp.qSet; split <;> rfl
@[simp] theorem qSet_badFrame : (w.qSet i b).badFrame = w.badFrame := by unfold Warp.qSet; split <;> rfl
@[simp] theorem qSet_noFrame : (w.qSet i b).noFrame = w.noFrame := by unfold Warp.qSet; split <;> rfl
end qSet

/-! ## What a lookup finds after an update -/

@[simp] theorem warpAt_putWarp_same (s : State) (k : Nat) (x : Warp) : (s.putWarp k x).warpAt k = some x := by
  simp [State.warpAt, State.putWarp]

theorem warpAt_putWarp_other (s : State) (k j : Nat) (x : Warp) (h : j ≠ k) :
    (s.putWarp k x).warpAt j = s.warpAt j := by
  simp [State.warpAt, State.putWarp, Sparse.get_put, h]

@[simp] theorem warpAt_dropWarp_same (s : State) (k : Nat) : (s.dropWarp k).warpAt k = none := by
  simp [State.warpAt, State.dropWarp]

@[simp] theorem blockAt_putBlock_same (s : State) (k : Nat) (x : Block) : (s.putBlock k x).blockAt k = some x := by
  simp [State.blockAt, State.putBlock]

@[simp] theorem blockAt_dropBlock_same (s : State) (k : Nat) : (s.dropBlock k).blockAt k = none := by
  simp [State.blockAt, State.dropBlock]

@[simp] theorem launchAt_putLaunch_same (s : State) (k : Nat) (x : Launch) :
    (s.putLaunch k x).launchAt k = some x := by
  simp [State.launchAt, State.putLaunch]

@[simp] theorem launchAt_dropLaunch_same (s : State) (k : Nat) : (s.dropLaunch k).launchAt k = none := by
  simp [State.launchAt, State.dropLaunch]

@[simp] theorem coreAt_putCore_same (s : State) (k : Nat) (x : Core) : (s.putCore k x).coreAt k = x := by
  simp [State.coreAt, State.putCore]

theorem coreAt_putCore_other (s : State) (k j : Nat) (x : Core) (h : j ≠ k) :
    (s.putCore k x).coreAt j = s.coreAt j := by
  simp [State.coreAt, State.putCore, Sparse.get_put, h]

@[simp] theorem domeAt_putDome_same (s : State) (k : Nat) (x : Dome) : (s.putDome k x).domeAt k = x := by
  simp [State.domeAt, State.putDome]

/-- Lookups see the tables alone. -/
theorem blockAt_of_blocks {s t : State} (h : t.blocks = s.blocks) (b : Nat) : t.blockAt b = s.blockAt b := by
  simp [State.blockAt, h]

theorem launchAt_of_launches {s t : State} (h : t.launches = s.launches) (l : Nat) : t.launchAt l = s.launchAt l := by
  simp [State.launchAt, h]

@[simp] theorem blockAt_putWarp (s : State) (k b : Nat) (x : Warp) : (s.putWarp k x).blockAt b = s.blockAt b := rfl
@[simp] theorem launchAt_putWarp (s : State) (k l : Nat) (x : Warp) : (s.putWarp k x).launchAt l = s.launchAt l := rfl
@[simp] theorem coreAt_putWarp (s : State) (k c : Nat) (x : Warp) : (s.putWarp k x).coreAt c = s.coreAt c := rfl
@[simp] theorem domeAt_putWarp (s : State) (k d : Nat) (x : Warp) : (s.putWarp k x).domeAt d = s.domeAt d := rfl
@[simp] theorem warpAt_putCore (s : State) (k c : Nat) (x : Core) : (s.putCore c x).warpAt k = s.warpAt k := rfl
@[simp] theorem warpAt_putBlock (s : State) (k b : Nat) (x : Block) : (s.putBlock b x).warpAt k = s.warpAt k := rfl
@[simp] theorem domeAt_putCore (s : State) (d c : Nat) (x : Core) : (s.putCore c x).domeAt d = s.domeAt d := rfl

end Sys2Proof.Machine
end

