-- ==== Sys2Proof/Laws/Memory.lean ====
section
/-! SUPPORT. Laws/Memory.lean: memory at home is read as it was last written, and every operation on it keeps the canonical
form. -/

namespace Sys2Proof.Machine

/-! ## One byte -/

theorem readMem_writeMem (m : List Host.Cell) (a b : Nat) (v : Byte) :
    readMem (writeMem m a v) b = if b = a then v else readMem m b :=
  Sparse.get_set memUnlisted v m a b

theorem risingFrom_mono {α : Type} {lo lo' : Nat} {l : Sparse α} (h : risingFrom lo l = true) (hl : lo' ≤ lo) :
    risingFrom lo' l = true := by
  cases l with
  | nil => rfl
  | cons e r =>
    simp only [risingFrom, Bool.and_eq_true, decide_eq_true_eq] at h ⊢
    exact ⟨Nat.le_trans hl h.1, h.2⟩

theorem risingFrom_put {α : Type} (x : α) (a : Nat) : ∀ {lo : Nat} {l : Sparse α}, risingFrom lo l = true → lo ≤ a →
    risingFrom lo (Sparse.put l a x) = true
  | lo, [], _, ha => by simp [Sparse.put, risingFrom, ha]
  | lo, (k, v) :: r, h, ha => by
    simp only [risingFrom, Bool.and_eq_true, decide_eq_true_eq] at h
    unfold Sparse.put
    by_cases h1 : a = k
    · subst h1; simp [risingFrom, ha, h.2]
    · by_cases h2 : a < k
      · simp only [h1, h2, if_true, if_false, risingFrom, Bool.and_eq_true, decide_eq_true_eq]
        exact ⟨ha, h2, h.2⟩
      · simp only [h1, h2, if_false, risingFrom, Bool.and_eq_true, decide_eq_true_eq]
        exact ⟨h.1, risingFrom_put x a h.2 (by omega)⟩

theorem risingFrom_erase {α : Type} (a : Nat) : ∀ {lo : Nat} {l : Sparse α}, risingFrom lo l = true →
    risingFrom lo (Sparse.erase l a) = true
  | _, [], _ => rfl
  | lo, (k, v) :: r, h => by
    simp only [risingFrom, Bool.and_eq_true, decide_eq_true_eq] at h
    unfold Sparse.erase
    by_cases h1 : a = k
    · simp only [h1, if_true]
      exact risingFrom_erase k (risingFrom_mono h.2 (by omega))
    · simp only [h1, if_false, risingFrom, Bool.and_eq_true, decide_eq_true_eq]
      exact ⟨h.1, risingFrom_erase a h.2⟩

theorem all_put {α : Type} (q : Nat × α → Bool) (x : α) (a : Nat) (hx : q (a, x) = true) : ∀ l : Sparse α,
    l.all q = true → (Sparse.put l a x).all q = true
  | [], _ => by simp [Sparse.put, hx]
  | (k, v) :: r, h => by
    simp only [List.all_cons, Bool.and_eq_true] at h
    unfold Sparse.put
    split
    · simp [hx, h.2]
    · split
      · simp [hx, h.1, h.2]
      · simp [h.1, all_put q x a hx r h.2]

theorem all_erase {α : Type} (q : Nat × α → Bool) (a : Nat) : ∀ l : Sparse α, l.all q = true → (Sparse.erase l a).all q = true
  | [], _ => rfl
  | (k, v) :: r, h => by
    simp only [List.all_cons, Bool.and_eq_true] at h
    unfold Sparse.erase
    split
    · exact all_erase q a r h.2
    · simp [h.1, all_erase q a r h.2]

/-- A write of a byte keeps the canonical form. -/
@[simp] theorem writeMem_wf {m : List Host.Cell} (a : Nat) (v : Byte) (h : Memory.wf m = true) :
    Memory.wf (writeMem m a v) = true := by
  simp only [Memory.wf, Bool.and_eq_true] at h ⊢
  unfold writeMem Sparse.set
  split
  · exact ⟨risingFrom_erase a h.1, all_erase _ a m h.2⟩
  · rename_i hv
    exact ⟨risingFrom_put v a h.1 (Nat.zero_le _), all_put _ v a (by simpa using hv) m h.2⟩

theorem reset_mem_wf : Memory.wf State.reset.mem = true := rfl

/-- A fold of steps that keep the canonical form keeps it. -/
theorem foldl_wf {α : Type} (f : List Host.Cell → α → List Host.Cell)
    (hf : ∀ m x, Memory.wf m = true → Memory.wf (f m x) = true) : ∀ (l : List α) (m : List Host.Cell),
    Memory.wf m = true → Memory.wf (l.foldl f m) = true
  | [], _, h => h
  | x :: l, m, h => foldl_wf f hf l (f m x) (hf m x h)

/-- In canonical form, memories that read alike are the same data. -/
theorem get_of_lt {α : Type} (d : α) (a : Nat) : ∀ {lo : Nat} {l : Sparse α}, risingFrom lo l = true → a < lo →
    Sparse.get d l a = d
  | _, [], _, _ => rfl
  | lo, (k, v) :: r, h, ha => by
    simp only [risingFrom, Bool.and_eq_true, decide_eq_true_eq] at h
    simp only [Sparse.get_cons, show a ≠ k by omega, if_false]
    exact get_of_lt d a h.2 (by omega)

theorem eq_of_get {α : Type} (d : α) (q : Nat × α → Bool) (hq : ∀ k v, q (k, v) = true → v ≠ d) :
    ∀ {lo : Nat} {l l' : Sparse α}, risingFrom lo l = true → risingFrom lo l' = true → l.all q = true → l'.all q = true →
    (∀ a, Sparse.get d l a = Sparse.get d l' a) → l = l'
  | _, [], [], _, _, _, _, _ => rfl
  | _, [], (k, v) :: r, _, _, _, h', hg => by
    have := hg k
    simp only [Sparse.get_nil, Sparse.get_cons, if_true] at this
    simp only [List.all_cons, Bool.and_eq_true] at h'
    exact absurd this.symm (hq k v h'.1)
  | _, (k, v) :: r, [], _, _, h', _, hg => by
    have := hg k
    simp only [Sparse.get_nil, Sparse.get_cons, if_true] at this
    simp only [List.all_cons, Bool.and_eq_true] at h'
    exact absurd this (hq k v h'.1)
  | lo, (k, v) :: r, (k', v') :: r', h1, h2, a1, a2, hg => by
    simp only [risingFrom, Bool.and_eq_true, decide_eq_true_eq] at h1 h2
    simp only [List.all_cons, Bool.and_eq_true] at a1 a2
    have hk : k = k' := by
      rcases Nat.lt_trichotomy k k' with h | h | h
      · have := hg k
        simp only [Sparse.get_cons, if_true, show k ≠ k' by omega, if_false] at this
        rw [get_of_lt d k (risingFrom_mono h2.2 (Nat.le_refl _)) (by omega)] at this
        exact absurd this (hq k v a1.1)
      · exact h
      · have := hg k'
        simp only [Sparse.get_cons, if_true, show k' ≠ k by omega, if_false] at this
        rw [get_of_lt d k' (risingFrom_mono h1.2 (Nat.le_refl _)) (by omega)] at this
        exact absurd this.symm (hq k' v' a2.1)
    subst hk
    have hv : v = v' := by simpa [Sparse.get_cons] using hg k
    subst hv
    have hr : ∀ a, Sparse.get d r a = Sparse.get d r' a := by
      intro a
      by_cases ha : a = k
      · subst ha
        rw [get_of_lt d a h1.2 (by omega), get_of_lt d a h2.2 (by omega)]
      · simpa [Sparse.get_cons, ha] using hg a
    rw [eq_of_get d q hq h1.2 h2.2 a1.2 a2.2 hr]

theorem mem_ext {m m' : List Host.Cell} (h : Memory.wf m = true) (h' : Memory.wf m' = true)
    (hr : ∀ a, readMem m a = readMem m' a) : m = m' := by
  simp only [Memory.wf, Bool.and_eq_true] at h h'
  exact eq_of_get memUnlisted _ (fun k v hv => by simpa using hv) h.1 h'.1 h.2 h'.2 hr

/-! ## Safe states -/

theorem reset_safe_mem : Memory.wf State.reset.mem = true := rfl

/-- A state with the memory and the control registers of a safe state is safe. -/
theorem safe_of_eq {s t : State} (h : s.safe = true) (hm : t.mem = s.mem) (hc : t.ctl = s.ctl) : t.safe = true := by
  unfold State.safe at h ⊢
  rw [hm, hc]; exact h

theorem safe_mk {s : State} (hm : Memory.wf s.mem = true) (hc : s.ctl.legal = true) : s.safe = true := by
  simp [State.safe, hm, hc]

theorem safe_mem {s : State} (h : s.safe = true) : Memory.wf s.mem = true := by
  simp only [State.safe, Bool.and_eq_true] at h; exact h.1

theorem safe_ctl {s : State} (h : s.safe = true) : s.ctl.legal = true := by
  simp only [State.safe, Bool.and_eq_true] at h; exact h.2

/-- A fold of steps that keep states safe keeps them safe. -/
theorem foldl_safe {α : Type} (f : State → α → State) (hf : ∀ s x, s.safe = true → (f s x).safe = true) :
    ∀ (l : List α) (s : State), s.safe = true → (l.foldl f s).safe = true
  | [], _, h => h
  | x :: l, s, h => foldl_safe f hf l (f s x) (hf s x h)

end Sys2Proof.Machine
end

