-- ==== Sys2Proof/Laws/Registers.lean ====
section
/-! SUPPORT. Laws/Registers.lean: reading a register after it is written, destinations, flags, and the one law of the
words that work on registers. -/

namespace Sys2Proof.Machine

/-! ## One register after one write -/

theorem dGet_dSet (w : Warp) (i j t u : Nat) (v : Word) :
    (w.dSet i t v).dGet j u = if 32 * j + u = 32 * i + t then v else w.dGet j u := by
  simp [Warp.dGet, Warp.dSet, Sparse.get_set]

theorem wGet_wSet (w : Warp) (i j : Nat) (v : Word) : (w.wSet i v).wGet j = if j = i then v else w.wGet j := by
  simp [Warp.wGet, Warp.wSet, Sparse.get_set]

theorem nGet_nSet (w : Warp) (i j : Nat) (v : BitVec 32) : (w.nSet i v).nGet j = if j = i then v else w.nGet j := by
  simp [Warp.nGet, Warp.nSet, Sparse.get_set]

theorem mGet_mSet (w : Warp) (i j : Nat) (v : Word) : (w.mSet i v).mGet j = if j = i then v else w.mGet j := by
  simp [Warp.mGet, Warp.mSet, Sparse.get_set]

theorem getLsbD_pow (n t u : Nat) : (BitVec.ofNat n (2 ^ t)).getLsbD u = (decide (u < n) && decide (u = t)) := by
  rw [BitVec.getLsbD_ofNat, Nat.testBit_two_pow]; simp [eq_comm]

theorem pGet_pSet (w : Warp) (i j t u : Nat) (b : Bool) (ht : t < 32) :
    (w.pSet i t b).pGet j u = if j = i ∧ u = t then (decide (i = 7) || b) else w.pGet j u := by
  unfold Warp.pSet Warp.pGet
  by_cases hi : i = 7
  · by_cases hj : j = i
    · simp [hi, hj]
    · have h7 : ¬ j = 7 := fun h => hj (h.trans hi.symm)
      simp [hi, h7]
  · by_cases hj : j = i
    · subst hj
      by_cases hu : u = t
      · subst hu
        cases b <;>
          simp only [hi, Sparse.get_set, ↓reduceIte, BitVec.getLsbD_or, BitVec.getLsbD_and, BitVec.getLsbD_not,
            getLsbD_pow, Bool.false_eq_true] <;> simp [ht]
      · cases b <;>
          simp only [hi, Sparse.get_set, ↓reduceIte, BitVec.getLsbD_or, BitVec.getLsbD_and, BitVec.getLsbD_not,
            getLsbD_pow, Bool.false_eq_true] <;> simp [hu]
        intro h
        exact BitVec.lt_of_getLsbD h
    · simp [hi, hj, Sparse.get_set]

theorem qGet_qSet (w : Warp) (i j : Nat) (b : Bool) (h4 : i < 4) :
    (w.qSet i b).qGet j = if j = i then (decide (i = 3) || b) else w.qGet j := by
  unfold Warp.qSet Warp.qGet
  by_cases hi : i = 3
  · by_cases hj : j = i <;> simp [hi, hj]
  · by_cases hj : j = i
    · subst hj
      cases b <;>
        simp only [hi, ↓reduceIte, BitVec.getLsbD_or, BitVec.getLsbD_and, BitVec.getLsbD_not, getLsbD_pow,
          Bool.false_eq_true] <;> simp [h4]
    · cases b <;>
        simp only [hi, ↓reduceIte, BitVec.getLsbD_or, BitVec.getLsbD_and, BitVec.getLsbD_not, getLsbD_pow,
          Bool.false_eq_true] <;> simp [hj]
      cases h : w.q.getLsbD j
      · simp
      · simp [BitVec.lt_of_getLsbD h]

theorem rndOf_rndSet (w : Warp) (t u : Nat) (v : Word) :
    (w.rndSet t v).rndOf u = if u = t then (if v = 0 then Config.rndSeed else v) else w.rndOf u := by
  simp [Warp.rndOf, Warp.rndSet, Sparse.get_put]

theorem statusOf_setFlags (w : Warp) (t u : Nat) (f : Flags) :
    (w.setFlags t f).statusOf u = if u = t then w.statusOf t ||| f else w.statusOf u := by
  simp [Warp.statusOf, Warp.setFlags, Sparse.get_set]

theorem statusOf_writeStatus (w : Warp) (t u : Nat) (v : Word) :
    (w.writeStatus t v).statusOf u = if u = t then v.setWidth 9 else w.statusOf u := by
  simp [Warp.statusOf, Warp.writeStatus, Sparse.get_set]

/-! ## One destination -/

theorem holds_of_dst_mend (w : Warp) (r : Nat) (x : Spec) (T : Mask) (v : Nat → Word) :
    Holds (w.mend r) x T v = Holds w x T v := rfl

/-- A register destination per thread, written for one thread. -/
theorem writeThread_regs (w : Warp) (x : Spec) (t : Nat) (v : Word) (ht : t < 32) :
    (∀ (i : Fin 64) u, u < 32 → (writeThread w x t v).dGet i u = if x = .d i ∧ u = t then v else w.dGet i u) ∧
    (∀ (i : Fin 8) u, (writeThread w x t v).pGet i u =
      if x = .p i ∧ u = t then (decide (i.val = 7) || v.getLsbD 0) else w.pGet i u) ∧
    (∀ u, (writeThread w x t v).statusOf u =
      if x = .special .status ∧ u = t then v.setWidth 9 else w.statusOf u) ∧
    (∀ u, (writeThread w x t v).rndOf u =
      if x = .special .rnd ∧ u = t then (if v = 0 then Config.rndSeed else v) else w.rndOf u) := by
  refine ⟨fun i u hu => ?_, fun i u => ?_, fun u => ?_, fun u => ?_⟩
  · cases x <;> try rfl
    · rename_i j
      show ((w.dSet j t v).mend _).dGet i u = _
      have : ((w.dSet j t v).mend (regD j t)).dGet i u = (w.dSet j t v).dGet i u := rfl
      rw [this, dGet_dSet]
      by_cases h : j = i
      · subst h; by_cases h2 : u = t <;> simp [h2]
      · have : ¬ (32 * i.val + u = 32 * j.val + t) := by
          intro hh; apply h; apply Fin.ext; omega
        simp [this, h]
    · rename_i j
      show ((w.pSet j t _).mend _).dGet i u = _
      simp only [Warp.dGet, mend_d, pSet_d]; simp
    · rename_i r; cases r <;> simp [writeThread, Warp.dGet, Warp.writeStatus, Warp.rndSet]
  · cases x <;> try rfl
    · rename_i j
      show ((w.pSet j t _).mend _).pGet i u = _
      have : ((w.pSet j t (v.getLsbD 0)).mend (regP j t)).pGet i u = (w.pSet j t (v.getLsbD 0)).pGet i u := rfl
      rw [this, pGet_pSet _ _ _ _ _ _ ht]
      by_cases h : j = i
      · subst h; by_cases h2 : u = t <;> simp [h2]
      · have : ¬ (i.val = j.val) := fun hh => h (Fin.ext hh.symm)
        simp [this, h]
    · rename_i r; cases r <;> simp [writeThread, Warp.pGet, Warp.writeStatus, Warp.rndSet]
  · cases x <;> try rfl
    · rename_i j
      show ((w.pSet j t _).mend _).statusOf u = _
      simp only [Warp.statusOf, mend_status, pSet_status]; simp
    · rename_i r
      cases r <;> try rfl
      simp only [writeThread, statusOf_writeStatus, true_and]
  · cases x <;> try rfl
    · rename_i j
      show ((w.pSet j t _).mend _).rndOf u = _
      simp only [Warp.rndOf, mend_rnd, pSet_rnd]; simp
    · rename_i r
      cases r <;> try rfl
      simp only [writeThread, rndOf_rndSet, true_and]

/-- Nothing else of a warp changes when a destination per thread is written. -/
theorem writeThread_rest (w : Warp) (x : Spec) (t : Nat) (v : Word) :
    (writeThread w x t v).w = w.w ∧ (writeThread w x t v).q = w.q ∧ (writeThread w x t v).n = w.n ∧
    (writeThread w x t v).m = w.m ∧ (writeThread w x t v).slim = w.slim ∧ (writeThread w x t v).sp = w.sp ∧
    (writeThread w x t v).tags = w.tags ∧ (writeThread w x t v).ports = w.ports ∧
    (writeThread w x t v).exited = w.exited ∧
    w = { writeThread w x t v with d := w.d, p := w.p, status := w.status, rnd := w.rnd, damaged := w.damaged } := by
  cases x <;> try (exact ⟨rfl, rfl, rfl, rfl, rfl, rfl, rfl, rfl, rfl, rfl⟩)
  · rename_i j
    simp only [writeThread, Warp.pSet, Warp.mend]
    split <;> exact ⟨rfl, rfl, rfl, rfl, rfl, rfl, rfl, rfl, rfl, rfl⟩
  · rename_i r
    cases r <;> exact ⟨rfl, rfl, rfl, rfl, rfl, rfl, rfl, rfl, rfl, rfl⟩

/-- The writes of a destination per thread, thread by thread. -/
def writeThreads (w : Warp) (x : Spec) (val : Nat → Word) (ts : List Nat) : Warp :=
  ts.foldl (fun acc t => writeThread acc x t (val t)) w

theorem writeThreads_regs (x : Spec) (val : Nat → Word) (ts : List Nat) (hts : ∀ t ∈ ts, t < 32) (w : Warp) :
    (∀ (i : Fin 64) u, u < 32 → (writeThreads w x val ts).dGet i u =
      if x = .d i ∧ u ∈ ts then val u else w.dGet i u) ∧
    (∀ (i : Fin 8) u, (writeThreads w x val ts).pGet i u =
      if x = .p i ∧ u ∈ ts then (decide (i.val = 7) || (val u).getLsbD 0) else w.pGet i u) ∧
    (∀ u, (writeThreads w x val ts).statusOf u =
      if x = .special .status ∧ u ∈ ts then (val u).setWidth 9 else w.statusOf u) ∧
    (∀ u, (writeThreads w x val ts).rndOf u =
      if x = .special .rnd ∧ u ∈ ts then (if val u = 0 then Config.rndSeed else val u) else w.rndOf u) := by
  induction ts generalizing w with
  | nil => simp [writeThreads]
  | cons t rest ih =>
    have hr := ih (fun u hu => hts u (List.mem_cons_of_mem _ hu)) (writeThread w x t (val t))
    have h1 := writeThread_regs w x t (val t) (hts t List.mem_cons_self)
    have e : writeThreads w x val (t :: rest) = writeThreads (writeThread w x t (val t)) x val rest := rfl
    rw [e]
    refine ⟨fun i u hu => ?_, fun i u => ?_, fun u => ?_, fun u => ?_⟩
    · rw [hr.1 i u hu, h1.1 i u hu]
      by_cases hx : x = .d i <;> by_cases h2 : u ∈ rest <;> by_cases h3 : u = t <;> simp [hx, h2, h3]
    · rw [hr.2.1 i u, h1.2.1 i u]
      by_cases hx : x = .p i <;> by_cases h2 : u ∈ rest <;> by_cases h3 : u = t <;> simp [hx, h2, h3]
    · rw [hr.2.2.1 u, h1.2.2.1 u]
      by_cases hx : x = .special .status <;> by_cases h2 : u ∈ rest <;> by_cases h3 : u = t <;> simp [hx, h2, h3]
    · rw [hr.2.2.2 u, h1.2.2.2 u]
      by_cases hx : x = .special .rnd <;> by_cases h2 : u ∈ rest <;> by_cases h3 : u = t <;> simp [hx, h2, h3]

theorem writeThreads_rest (x : Spec) (val : Nat → Word) (ts : List Nat) (w : Warp) :
    (writeThreads w x val ts).w = w.w ∧ (writeThreads w x val ts).q = w.q ∧ (writeThreads w x val ts).n = w.n ∧
    (writeThreads w x val ts).m = w.m ∧ (writeThreads w x val ts).slim = w.slim ∧
    (writeThreads w x val ts).sp = w.sp ∧ (writeThreads w x val ts).tags = w.tags ∧
    (writeThreads w x val ts).ports = w.ports ∧ (writeThreads w x val ts).exited = w.exited ∧
    w = { writeThreads w x val ts with
      d := w.d, p := w.p, status := w.status, rnd := w.rnd, damaged := w.damaged } := by
  induction ts generalizing w with
  | nil => exact ⟨rfl, rfl, rfl, rfl, rfl, rfl, rfl, rfl, rfl, rfl⟩
  | cons t rest ih =>
    have e : writeThreads w x val (t :: rest) = writeThreads (writeThread w x t (val t)) x val rest := rfl
    obtain ⟨h1, h2, h3, h4, h5, h6, h7, h8, h9, h10⟩ := ih (writeThread w x t (val t))
    obtain ⟨g1, g2, g3, g4, g5, g6, g7, g8, g9, g10⟩ := writeThread_rest w x t (val t)
    rw [e]
    refine ⟨h1.trans g1, h2.trans g2, h3.trans g3, h4.trans g4, h5.trans g5, h6.trans g6, h7.trans g7, h8.trans g8,
      h9.trans g9, ?_⟩
    generalize writeThreads (writeThread w x t (val t)) x val rest = b at *
    generalize writeThread w x t (val t) = a at *
    rw [h10] at g10
    exact g10

/-- Flags of the threads of a list. -/
theorem flagAll_spec (w : Warp) (T : Mask) (f : Nat → Flags) :
    (∀ u, (w.flagAll T f).statusOf u = if T.has u then w.statusOf u ||| f u else w.statusOf u) ∧
    w = { w.flagAll T f with status := w.status } := by
  unfold Warp.flagAll
  have key : ∀ (ts : List Nat), ts.Nodup → ∀ w : Warp,
      (∀ u, (ts.foldl (fun acc t => acc.setFlags t (f t)) w).statusOf u =
        if u ∈ ts then w.statusOf u ||| f u else w.statusOf u) ∧
      w = { ts.foldl (fun acc t => acc.setFlags t (f t)) w with status := w.status } := by
    intro ts
    induction ts with
    | nil => intro _ w; simp
    | cons t rest ih =>
      intro hn w
      obtain ⟨hnot, hn'⟩ := List.nodup_cons.mp hn
      obtain ⟨h1, h2⟩ := ih hn' (w.setFlags t (f t))
      simp only [List.foldl_cons]
      constructor
      · intro u
        rw [h1, statusOf_setFlags]
        by_cases hu : u = t
        · subst hu; simp [hnot]
        · simp [hu]
      · generalize rest.foldl (fun acc t => acc.setFlags t (f t)) (w.setFlags t (f t)) = b at *
        have g : w = { w.setFlags t (f t) with status := w.status } := rfl
        rw [h2] at g
        exact g
  obtain ⟨h1, h2⟩ := key T.threads (Mask.nodup_threads T) w
  refine ⟨fun u => ?_, h2⟩
  rw [h1 u]
  by_cases h : T.getLsbD u = true <;> simp [Mask.mem_threads, Mask.has, h]

/-- A register per warp, written. -/
theorem writeWarp_holds (w : Warp) (x : Spec) (v : Word) (hx : isWarpDst x = true) :
    (∀ i : Fin 32, (writeWarp w x v).wGet i = if x = .w i then v else w.wGet i) ∧
    (∀ i : Fin 4, (writeWarp w x v).qGet i = if x = .q i then (decide (i.val = 3) || v.getLsbD 0) else w.qGet i) ∧
    (∀ i : Fin 4, (writeWarp w x v).nGet i = if x = .n i then v.setWidth 32 else w.nGet i) ∧
    (∀ i : Fin 8, (writeWarp w x v).mGet i = if x = .m i then v else w.mGet i) ∧
    (writeWarp w x v).slim = (if x = .special .slim then v.toNat else w.slim) ∧
    (writeWarp w x v).sp = (if x = .special .sp then v else w.sp) ∧
    (writeWarp w x v).d = w.d ∧ (writeWarp w x v).p = w.p ∧ (writeWarp w x v).status = w.status ∧
    (writeWarp w x v).rnd = w.rnd ∧ (writeWarp w x v).tags = w.tags ∧ (writeWarp w x v).ports = w.ports ∧
    (writeWarp w x v).exited = w.exited ∧
    w = { writeWarp w x v with w := w.w, q := w.q, n := w.n, m := w.m, slim := w.slim, sp := w.sp, damaged := w.damaged } := by
  have mw : ∀ (a : Warp) (r : Nat) (i : Nat), (a.mend r).wGet i = a.wGet i := fun _ _ _ => rfl
  have mq : ∀ (a : Warp) (r : Nat) (i : Nat), (a.mend r).qGet i = a.qGet i := fun _ _ _ => rfl
  have mn : ∀ (a : Warp) (r : Nat) (i : Nat), (a.mend r).nGet i = a.nGet i := fun _ _ _ => rfl
  have mm : ∀ (a : Warp) (r : Nat) (i : Nat), (a.mend r).mGet i = a.mGet i := fun _ _ _ => rfl
  have fe : ∀ {n : Nat} (a b : Fin n), (a.val = b.val) = (b = a) := fun a b => by
    simp [Fin.ext_iff, eq_comm]
  cases x <;> simp [isWarpDst] at hx
  · rename_i j
    refine ⟨fun i => ?_, fun i => ?_, fun i => rfl, fun i => rfl, rfl, rfl, rfl, rfl, rfl, rfl, rfl, rfl, rfl, rfl⟩
    · simp [writeWarp, mw, wGet_wSet, fe]
    · simp [writeWarp, Warp.qGet]
  · rename_i j
    refine ⟨fun i => ?_, fun i => ?_, fun i => ?_, fun i => ?_, ?_, ?_, ?_, ?_, ?_, ?_, ?_, ?_, ?_, ?_⟩
    · simp [writeWarp, Warp.wGet]
    · simp only [writeWarp, mq, qGet_qSet _ _ _ _ j.isLt, fe, Spec.q.injEq]
      by_cases h : j = i <;> simp [h]
    · simp [writeWarp, Warp.nGet]
    · simp [writeWarp, Warp.mGet]
    all_goals simp [writeWarp]
  · rename_i j
    refine ⟨fun i => rfl, fun i => ?_, fun i => ?_, fun i => rfl, rfl, rfl, rfl, rfl, rfl, rfl, rfl, rfl, rfl, rfl⟩
    · simp [writeWarp, Warp.qGet]
    · simp [writeWarp, mn, nGet_nSet, fe]
  · rename_i j
    refine ⟨fun i => rfl, fun i => ?_, fun i => rfl, fun i => ?_, rfl, rfl, rfl, rfl, rfl, rfl, rfl, rfl, rfl, rfl⟩
    · simp [writeWarp, Warp.qGet]
    · simp [writeWarp, mm, mGet_mSet, fe]
  · rename_i r
    cases r <;> simp at hx
    · refine ⟨fun i => rfl, fun i => ?_, fun i => rfl, fun i => rfl, rfl, rfl, rfl, rfl, rfl, rfl, rfl, rfl, rfl, rfl⟩
      simp [writeWarp, Warp.qGet]
    · refine ⟨fun i => rfl, fun i => ?_, fun i => rfl, fun i => rfl, rfl, rfl, rfl, rfl, rfl, rfl, rfl, rfl, rfl, rfl⟩
      simp [writeWarp, Warp.qGet]

theorem writeDst_warp (w : Warp) (x : Spec) (T : Mask) (tag : Tag) (val : Nat → Word) (t : Nat)
    (hx : isWarpDst x = true) (hT : T ≠ 0) (hl : T.lowest = some t) : writeDst w x T tag val = writeWarp w x (val t) := by
  simp only [writeDst, hT, hx, hl, ↓reduceIte]

theorem writeDst_threads (w : Warp) (x : Spec) (T : Mask) (tag : Tag) (val : Nat → Word)
    (hx : isWarpDst x = false) (hT : T ≠ 0) :
    writeDst w x T tag val = (writeThreads w x val T.threads).setTag x T tag := by
  simp only [writeDst, hT, hx, writeThreads, ↓reduceIte, Bool.false_eq_true]

/-- Nothing but the tags changes with a tag. -/
theorem setTag_rest (w : Warp) (x : Spec) (T : Mask) (tag : Tag) :
    ∃ g, w.setTag x T tag = { w with tags := g } := by
  cases x <;> exact ⟨_, rfl⟩

/-- WRITING A DESTINATION, all that it can do: the destination holds the values, and the rest of the warp is kept,
`$status` and `$rnd` included where they are not the destination. -/
theorem writeDst_effect (w : Warp) (x : Spec) (T : Mask) (tag : Tag) (val : Nat → Word) (hT : T ≠ 0) :
    Holds (writeDst w x T tag val) x T val ∧ Kept w (writeDst w x T tag val) [x] T ∧
    (writeDst w x T tag val).ports = w.ports ∧
    (∀ u, x ≠ .special .status ∨ T.has u = false → (writeDst w x T tag val).statusOf u = w.statusOf u) ∧
    (∀ u, x ≠ .special .rnd ∨ T.has u = false → (writeDst w x T tag val).rndOf u = w.rndOf u) := by
  obtain ⟨t, hl, ht⟩ := Mask.lowest_isSome T hT
  by_cases hx : isWarpDst x = true
  · rw [writeDst_warp w x T tag val t hx hT hl]
    obtain ⟨aw, aq, an, am, aslim, asp, ad, ap, ast, arnd, atags, aports, aex, arest⟩ := writeWarp_holds w x (val t) hx
    refine ⟨?_, ⟨?_, ?_, ?_, ?_, ?_, ?_, ?_, ?_, ?_⟩, aports, ?_, ?_⟩
    · cases x <;> simp [isWarpDst] at hx
      · intro u hu; rw [hl] at hu; cases hu; rw [aw]; simp
      · intro u hu; rw [hl] at hu; cases hu; rw [aq]; simp
      · intro u hu; rw [hl] at hu; cases hu; rw [an]; simp
      · intro u hu; rw [hl] at hu; cases hu; rw [am]; simp
      · rename_i r
        cases r <;> simp at hx
        · intro u hu; rw [hl] at hu; cases hu; rw [aslim]; simp
        · intro u hu; rw [hl] at hu; cases hu; rw [asp]; simp
    · intro i u _ _; simp only [Warp.dGet, ad]
    · intro i u _ _; simp only [Warp.pGet, ap]
    · intro i h; rw [aw]; simp at h; simp [Ne.symm h]
    · intro i h; rw [aq]; simp at h; simp [Ne.symm h]
    · intro i h; rw [an]; simp at h; simp [Ne.symm h]
    · intro i h; rw [am]; simp at h; simp [Ne.symm h]
    · intro h; rw [aslim]; simp at h; simp [Ne.symm h]
    · intro h; rw [asp]; simp at h; simp [Ne.symm h]
    · generalize writeWarp w x (val t) = b at *
      rw [arest]
    · intro u _; simp only [Warp.statusOf, ast]
    · intro u _; simp only [Warp.rndOf, arnd]
  · have hx' : isWarpDst x = false := by simpa using hx
    rw [writeDst_threads w x T tag val hx' hT]
    have hts : ∀ t ∈ T.threads, t < 32 := fun t ht => BitVec.lt_of_getLsbD ((Mask.mem_threads T t).mp ht)
    obtain ⟨rd, rp, rs, rr⟩ := writeThreads_regs x val T.threads hts w
    obtain ⟨g1, g2, g3, g4, g5, g6, g7, g8, g9, g10⟩ := writeThreads_rest x val T.threads w
    obtain ⟨tg, htg⟩ := setTag_rest (writeThreads w x val T.threads) x T tag
    rw [htg]
    generalize writeThreads w x val T.threads = b at *
    have mem : ∀ u, u ∈ T.threads ↔ T.has u = true := fun u => Mask.mem_threads T u
    refine ⟨?_, ⟨?_, ?_, ?_, ?_, ?_, ?_, ?_, ?_, ?_⟩, g8, ?_, ?_⟩
    · cases x <;> simp [isWarpDst] at hx' <;> try trivial
      · rename_i j
        intro u hu
        have := rd j u (BitVec.lt_of_getLsbD hu)
        simp [mem, hu] at this
        exact this
      · rename_i j
        intro u hu
        have := rp j u
        simp [mem, hu] at this
        exact this
      · rename_i r
        cases r <;> simp at hx' <;> try trivial
        · intro u hu
          have := rs u
          simp [mem, hu] at this
          exact this
        · intro u hu
          have := rr u
          simp [mem, hu] at this
          exact this
    · intro i u h32 h
      have := rd i u h32
      rcases h with h | ⟨h, _⟩
      · simp at h; simp [Ne.symm h] at this; exact this
      · simp [mem, h] at this; exact this
    · intro i u h32 h
      have := rp i u
      rcases h with h | ⟨h, _⟩
      · simp at h; simp [Ne.symm h] at this; exact this
      · simp [mem, h] at this; exact this
    · intro i _; simp only [Warp.wGet, g1]
    · intro i _; simp only [Warp.qGet, g2]
    · intro i _; simp only [Warp.nGet, g3]
    · intro i _; simp only [Warp.mGet, g4]
    · intro _; exact g5
    · intro _; exact g6
    · rw [g10]
    · intro u h
      have := rs u
      rcases h with h | h
      · simp [h] at this; exact this
      · simp [mem, h] at this; exact this
    · intro u h
      have := rr u
      rcases h with h | h
      · simp [h] at this; exact this
      · simp [mem, h] at this; exact this

/-- The check of a destination sees the stack region and the depth of the divergence stack alone. -/
theorem dstTrap_congr (c c' : WCtx) (w w' : Warp) (T : Mask) (x : Spec) (v : Word) (h1 : c'.stackLo = c.stackLo)
    (h2 : c'.stackHi = c.stackHi) (h3 : w'.depth = w.depth) : dstTrap c' w' T x v = dstTrap c w T x v := by
  cases x <;> try rfl
  rename_i r
  cases r <;> try rfl
  · simp only [dstTrap, h3]
  · simp only [dstTrap, spOk, h1, h2]; rfl

/-- A DESTINATION PUT where the word's lowest active thread takes part and the destination takes the value. -/
theorem putDst_ok (c : WCtx) (w0 w : Warp) (x : Spec) (T : Mask) (tag : Tag) (val : Nat → Word) (hT : T ≠ 0)
    (hl : c.lead = T.lowest) (hd : dstOk c w T x val) :
    putDst c w0 w x T tag val = (writeDst w x T tag val, []) := by
  obtain ⟨t, ht, _⟩ := Mask.lowest_isSome T hT
  simp only [putDst, ht, hl, hd t ht]
  simp

theorem rest_trans {w a b : Warp} (h1 : w = { a with status := w.status, rnd := w.rnd })
    (h2 : a = { b with
      d := a.d, tags := a.tags, p := a.p, w := a.w, q := a.q, n := a.n, m := a.m, slim := a.slim, sp := a.sp,
      status := a.status, rnd := a.rnd, ports := a.ports, damaged := a.damaged }) :
    w = { b with
      d := w.d, tags := w.tags, p := w.p, w := w.w, q := w.q, n := w.n, m := w.m, slim := w.slim, sp := w.sp,
      status := w.status, rnd := w.rnd, ports := w.ports, damaged := w.damaged } := by
  rw [h2] at h1
  rw [h1]

/-- A CALCULATION WITHOUT DRAWS, all that it can do. -/
theorem runCalc_effect (dst : Spec) (tag : Tag) (f : Calc) (c : WCtx) (w : Warp) (T : Mask) (hT : T ≠ 0)
    (hl : c.lead = T.lowest) (hd : dstOk c w T dst (fun t => (f t).1)) :
    ∃ w', runCalc dst tag f c w T = (w', []) ∧ w'.ports = w.ports ∧
      RegEffect w w' dst T (fun t => (f t).1) (fun t => (f t).2) w.rndOf := by
  obtain ⟨hs, hr⟩ := flagAll_spec w T (fun t => (f t).2)
  have hd' : dstOk c (w.flagAll T (fun t => (f t).2)) T dst (fun t => (f t).1) := by
    intro t ht
    rw [dstTrap_congr c c w _ T dst _ rfl rfl]
    · exact hd t ht
    · generalize w.flagAll T (fun t => (f t).2) = b at *
      rw [hr]
      simp [Warp.depth]
  refine ⟨_, putDst_ok c w _ dst T tag _ hT hl hd', ?_⟩
  obtain ⟨e1, e2, e3, e4, e5⟩ := writeDst_effect (w.flagAll T (fun t => (f t).2)) dst T tag (fun t => (f t).1) hT
  generalize writeDst (w.flagAll T (fun t => (f t).2)) dst T tag (fun t => (f t).1) = b at *
  generalize w.flagAll T (fun t => (f t).2) = a at *
  have k : ∀ {β} (g : Warp → β), (∀ y : Sparse (BitVec 9), g { a with status := y } = g a) → g a = g w := by
    intro β g hg
    rw [hr]
    exact (hg _).symm
  refine ⟨e3.trans (k _ fun _ => rfl), e1, ?_, ?_, ?_, ?_, ⟨?_, ?_, ?_, ?_, ?_, ?_, ?_, ?_, ?_⟩⟩
  · intro h t; rw [e4 t (.inl h), hs]
  · intro t h; rw [e4 t (.inr h), hs]; simp [h]
  · intro h t
    rw [e5 t (.inl h), k (fun y => y.rndOf t) fun _ => rfl]
    simp
  · intro t h; rw [e5 t (.inr h), k (fun y => y.rndOf t) fun _ => rfl]
  · intro i u h32 h; rw [e2.regD i u h32 h, k (fun y => y.dGet i u) fun _ => rfl]
  · intro i u h32 h; rw [e2.regP i u h32 h, k (fun y => y.pGet i u) fun _ => rfl]
  · intro i h; rw [e2.regW i h, k (fun y => y.wGet i) fun _ => rfl]
  · intro i h; rw [e2.regQ i h, k (fun y => y.qGet i) fun _ => rfl]
  · intro i h; rw [e2.regN i h, k (fun y => y.nGet i) fun _ => rfl]
  · intro i h; rw [e2.regM i h, k (fun y => y.mGet i) fun _ => rfl]
  · intro h; rw [e2.slim h, k (fun y => y.slim) fun _ => rfl]
  · intro h; rw [e2.sp h, k (fun y => y.sp) fun _ => rfl]
  · exact rest_trans (by rw [hr]) e2.rest

/-! ## Draws (R67, R68) -/

/-- A shift to the left by a positive amount fixes only zero. -/
theorem eq_shiftLeft_zero (s : Word) (k : Nat) (hk : 0 < k) (h : s = s <<< k) : s = 0 := by
  have key : ∀ n i, i < n → s.getLsbD i = false := by
    intro n
    induction n with
    | zero => intro i hi; omega
    | succ n ih =>
      intro i hi
      rw [h, BitVec.getLsbD_shiftLeft]
      by_cases hik : i < k
      · simp [hik]
      · rw [ih (i - k) (by omega)]; simp
  apply BitVec.eq_of_getLsbD_eq
  intro i hi
  simpa using key 64 i hi

/-- A shift to the right by a positive amount fixes only zero. -/
theorem eq_shiftRight_zero (s : Word) (k : Nat) (hk : 0 < k) (h : s = s >>> k) : s = 0 := by
  have key : ∀ n i, 64 - n ≤ i → s.getLsbD i = false := by
    intro n
    induction n with
    | zero => intro i hi; exact BitVec.getLsbD_of_ge s i (by omega)
    | succ n ih =>
      intro i hi
      rw [h, BitVec.getLsbD_ushiftRight]
      exact ih (k + i) (by omega)
  apply BitVec.eq_of_getLsbD_eq
  intro i hi
  simpa using key 64 i (by omega)

/-- The step of `$rnd` keeps it off zero (R68). -/
theorem rndStep_ne_zero (s : Word) (h : s ≠ 0) : rndStep s ≠ 0 := by
  intro h0
  unfold rndStep at h0
  have x0 : ∀ a b : Word, a ^^^ b = 0 → a = b := fun a b hab => by
    have := congrArg (· ^^^ b) hab
    simpa [BitVec.xor_assoc] using this
  have h1 := eq_shiftLeft_zero _ 17 (by decide) (x0 _ _ h0)
  have h2 := eq_shiftRight_zero _ 7 (by decide) (x0 _ _ h1)
  exact h (eq_shiftLeft_zero _ 13 (by decide) (x0 _ _ h2))

theorem rndStep_zero : rndStep 0 = 0 := by decide

theorem rndSteps_ne_zero (n : Nat) (s : Word) (h : s ≠ 0) : rndSteps n s ≠ 0 := by
  induction n generalizing s with
  | zero => exact h
  | succ n ih => exact ih _ (rndStep_ne_zero s h)

theorem rndSteps_zero (n : Nat) : rndSteps n 0 = 0 := by
  induction n with
  | zero => rfl
  | succ n ih => show rndSteps n (rndStep 0) = 0; rw [rndStep_zero]; exact ih

/-- The draws of every thread of a list. -/
theorem drawAll_spec (w : Warp) (T : Mask) (g : Nat → Word)
    (hz : ∀ t, g t = 0 → w.rndOf t = 0) :
    (∀ u, (T.threads.foldl (fun (acc : Warp) t => if g t = w.rndOf t then acc else acc.rndSet t (g t)) w).rndOf u =
      if T.has u then g u else w.rndOf u) ∧
    w = { T.threads.foldl (fun (acc : Warp) t => if g t = w.rndOf t then acc else acc.rndSet t (g t)) w with
      rnd := w.rnd } := by
  have key : ∀ (ts : List Nat), ts.Nodup → ∀ a : Warp,
      (∀ u ∈ ts, a.rndOf u = w.rndOf u) →
      (∀ u, (ts.foldl (fun (acc : Warp) t => if g t = w.rndOf t then acc else acc.rndSet t (g t)) a).rndOf u =
        if u ∈ ts then g u else a.rndOf u) ∧
      a = { ts.foldl (fun (acc : Warp) t => if g t = w.rndOf t then acc else acc.rndSet t (g t)) a with
        rnd := a.rnd } := by
    intro ts
    induction ts with
    | nil => intro _ a _; simp
    | cons t rest ih =>
      intro hn a ha
      obtain ⟨hnot, hn'⟩ := List.nodup_cons.mp hn
      simp only [List.foldl_cons]
      by_cases hg : g t = w.rndOf t
      · simp only [hg, ↓reduceIte]
        obtain ⟨h1, h2⟩ := ih hn' a (fun u hu => ha u (List.mem_cons_of_mem _ hu))
        refine ⟨fun u => ?_, h2⟩
        rw [h1 u]
        by_cases hu : u = t
        · subst hu; simp [hnot, hg, ha u List.mem_cons_self]
        · simp [hu]
      · simp only [hg, ↓reduceIte]
        obtain ⟨h1, h2⟩ := ih hn' (a.rndSet t (g t)) (fun u hu => by
          rw [rndOf_rndSet]
          have : u ≠ t := fun he => hnot (he ▸ hu)
          simp [this, ha u (List.mem_cons_of_mem _ hu)])
        constructor
        · intro u
          rw [h1 u, rndOf_rndSet]
          by_cases hu : u = t
          · subst hu
            have : g u ≠ 0 := fun h0 => hg (by rw [h0, hz u h0])
            rw [if_neg hnot, if_pos rfl, if_neg this, if_pos List.mem_cons_self]
          · simp [hu]
        · generalize rest.foldl _ (a.rndSet t (g t)) = b at *
          have e : a = { a.rndSet t (g t) with rnd := a.rnd } := rfl
          rw [h2] at e
          exact e
  obtain ⟨h1, h2⟩ := key T.threads (Mask.nodup_threads T) w (fun _ _ => rfl)
  refine ⟨fun u => ?_, h2⟩
  rw [h1 u]
  by_cases h : T.getLsbD u = true <;> simp [Mask.mem_threads, Mask.has, h]

/-- A CALCULATION THAT DRAWS, all that it can do. `hz` says that it draws by steps of `$rnd`, which never reach zero. -/
theorem runDraw_effect (dst : Spec) (tag : Tag) (f : DrawCalc) (c : WCtx) (w : Warp) (T : Mask) (hT : T ≠ 0)
    (hl : c.lead = T.lowest) (hz : ∀ t, (f t (w.rndOf t)).2.2 = 0 → w.rndOf t = 0)
    (hd : dstOk c w T dst (fun t => (f t (w.rndOf t)).1)) :
    ∃ w', runDraw dst tag f c w T = (w', []) ∧ w'.ports = w.ports ∧
      RegEffect w w' dst T (fun t => (f t (w.rndOf t)).1) (fun t => (f t (w.rndOf t)).2.1)
        (fun t => (f t (w.rndOf t)).2.2) := by
  obtain ⟨rn, rr⟩ := drawAll_spec w T (fun t => (f t (w.rndOf t)).2.2) hz
  have e : runDraw dst tag f c w T = putDst c w ((T.threads.foldl (fun (acc : Warp) t =>
      if (f t (w.rndOf t)).2.2 = w.rndOf t then acc else acc.rndSet t (f t (w.rndOf t)).2.2) w).flagAll T
      (fun t => (f t (w.rndOf t)).2.1)) dst T tag (fun t => (f t (w.rndOf t)).1) := rfl
  rw [e]
  generalize T.threads.foldl (fun (acc : Warp) t =>
    if (f t (w.rndOf t)).2.2 = w.rndOf t then acc else acc.rndSet t (f t (w.rndOf t)).2.2) w = a0 at *
  obtain ⟨hs, hr⟩ := flagAll_spec a0 T (fun t => (f t (w.rndOf t)).2.1)
  generalize a0.flagAll T (fun t => (f t (w.rndOf t)).2.1) = a at *
  have hwa : w = { a with status := w.status, rnd := w.rnd } := by
    have e : a0.status = w.status := (congrArg Warp.status rr).symm
    rw [hr] at rr
    rw [← e]
    exact rr
  have k : ∀ {β} (g : Warp → β), (∀ (y : Sparse (BitVec 9)) (z : Sparse Word),
      g { a with status := y, rnd := z } = g a) → g a = g w := by
    intro β g hg
    rw [hwa]
    exact (hg _ _).symm
  have hd' : dstOk c a T dst (fun t => (f t (w.rndOf t)).1) := by
    intro t ht
    rw [dstTrap_congr c c w _ T dst _ rfl rfl]
    · exact hd t ht
    · exact k (fun y => y.depth) fun _ _ => rfl
  refine ⟨_, putDst_ok c w _ dst T tag _ hT hl hd', ?_⟩
  obtain ⟨e1, e2, e3, e4, e5⟩ := writeDst_effect a dst T tag (fun t => (f t (w.rndOf t)).1) hT
  have hst : ∀ u, a0.statusOf u = w.statusOf u := by
    intro u
    rw [rr]
    rfl
  have hrn : ∀ u, a.rndOf u = a0.rndOf u := by
    intro u
    rw [hr]
    rfl
  generalize writeDst a dst T tag (fun t => (f t (w.rndOf t)).1) = b at *
  refine ⟨e3.trans (k _ fun _ _ => rfl), e1, ?_, ?_, ?_, ?_, ⟨?_, ?_, ?_, ?_, ?_, ?_, ?_, ?_, ?_⟩⟩
  · intro h t; rw [e4 t (.inl h), hs, hst]
  · intro t h; rw [e4 t (.inr h), hs, hst]; simp [h]
  · intro h t; rw [e5 t (.inl h), hrn, rn]
  · intro t h; rw [e5 t (.inr h), hrn, rn]; simp [h]
  · intro i u h32 h; rw [e2.regD i u h32 h, k (fun y => y.dGet i u) fun _ _ => rfl]
  · intro i u h32 h; rw [e2.regP i u h32 h, k (fun y => y.pGet i u) fun _ _ => rfl]
  · intro i h; rw [e2.regW i h, k (fun y => y.wGet i) fun _ _ => rfl]
  · intro i h; rw [e2.regQ i h, k (fun y => y.qGet i) fun _ _ => rfl]
  · intro i h; rw [e2.regN i h, k (fun y => y.nGet i) fun _ _ => rfl]
  · intro i h; rw [e2.regM i h, k (fun y => y.mGet i) fun _ _ => rfl]
  · intro h; rw [e2.slim h, k (fun y => y.slim) fun _ _ => rfl]
  · intro h; rw [e2.sp h, k (fun y => y.sp) fun _ _ => rfl]
  · exact rest_trans hwa e2.rest

/-! ## The words that work on registers -/

/-- A REGISTER WORD that stands ready: what `regWord` does, all of it. -/
theorem regWord_next {s : State} {c : WCtx} {w : Warp} {p : Split} {x : Ctl} {o : Slots} {srcs : List Spec}
    {ports : List (Port × Word)} {pv : Pops} (h : Ready s c w p x o srcs ports pv) (ty : OTys) (f : RegFn) :
    regWord x ty srcs o f s =
      .next ((s.putWarp c.key (f { c with lead := (activeMask w p x).lowest } { w with ports := ports }
        (activeMask w p x) (readOps c w ty o pv)).1).finish c.key p.id x.seq
        (f { c with lead := (activeMask w p x).lowest } { w with ports := ports }
          (activeMask w p x) (readOps c w ty o pv)).2) := by
  unfold regWord
  have e : activeMask w p x &&& ~~~(0 : Mask) = activeMask w p x := by
    rw [show (~~~(0 : Mask)) = BitVec.allOnes 32 from by decide, BitVec.and_allOnes]
  rw [h.issuer]
  simp only [h.active, h.ports, h.sound, ↓reduceIte, List.append_nil, e]

/-- With no trap raised a word ends in its sequencing act. -/
@[simp] theorem finish_nil (s : State) (k pid : Nat) (q : Seq) : s.finish k pid q [] = s.seqAct k pid q := rfl

/-- How a result statement follows for a word whose effect is one calculation without draws. -/
theorem yields_of_calc (i : Instr) (x : Ctl) (o : Slots) (ty : OTys) (srcs : List Spec)
    (tag : WCtx → Warp → Mask → Opnds → Tag) (g : WCtx → Warp → Mask → Opnds → Calc)
    (he : ∀ s, exec i s = regWord x ty srcs o (fun c w T v => runCalc o.a (tag c w T v) (g c w T v) c w T) s)
    (hg : ∀ c w T v l ports, g { c with lead := l } { w with ports := ports } T v = g c w T v) :
    Yields i x o ty srcs always (fun c w T v t => (g c w T v t).1) (fun c w T v t => (g c w T v t).2) keepRnd := by
  intro s c w p ports pv h T v _ hd
  obtain ⟨w', h1, h2, h3⟩ := runCalc_effect o.a
    (tag { c with lead := T.lowest } { w with ports := ports } T v)
    (g { c with lead := T.lowest } { w with ports := ports } T v)
    { c with lead := T.lowest } { w with ports := ports } T h.active rfl (by
      intro t ht
      rw [hg, dstTrap_congr c { c with lead := T.lowest } w { w with ports := ports } T o.a _ rfl rfl rfl]
      exact hd t ht)
  rw [hg] at h3
  refine ⟨w', ?_, h2, ⟨h3.dst, h3.status, h3.statusOther, h3.rnd, h3.rndOther, ?_⟩⟩
  · rw [he, regWord_next h]
    show Host.Outcome.next _ = _
    rw [h1]
    rfl
  · exact ⟨h3.kept.regD, h3.kept.regP, h3.kept.regW, h3.kept.regQ, h3.kept.regN, h3.kept.regM, h3.kept.slim,
      h3.kept.sp, by
        have := h3.kept.rest
        simp only [Warp.mk.injEq] at this
        cases w; simp_all⟩

/-- How a result statement follows for a word whose effect is one calculation that may draw. -/
theorem yields_of_draw (i : Instr) (x : Ctl) (o : Slots) (ty : OTys) (srcs : List Spec)
    (tag : WCtx → Warp → Mask → Opnds → Tag) (g : WCtx → Warp → Mask → Opnds → DrawCalc)
    (he : ∀ s, exec i s = regWord x ty srcs o (fun c w T v => runDraw o.a (tag c w T v) (g c w T v) c w T) s)
    (hg : ∀ c w T v l ports, g { c with lead := l } { w with ports := ports } T v = g c w T v)
    (hz : ∀ c w T v t r, (g c w T v t r).2.2 = 0 → r = 0) :
    Yields i x o ty srcs always (fun c w T v t => (g c w T v t (w.rndOf t)).1)
      (fun c w T v t => (g c w T v t (w.rndOf t)).2.1) (fun c w T v t => (g c w T v t (w.rndOf t)).2.2) := by
  intro s c w p ports pv h T v _ hd
  obtain ⟨w', h1, h2, h3⟩ := runDraw_effect o.a
    (tag { c with lead := T.lowest } { w with ports := ports } T v)
    (g { c with lead := T.lowest } { w with ports := ports } T v)
    { c with lead := T.lowest } { w with ports := ports } T h.active rfl
    (fun t => hz _ _ _ _ t _) (by
      intro t ht
      rw [hg, dstTrap_congr c { c with lead := T.lowest } w { w with ports := ports } T o.a _ rfl rfl rfl]
      exact hd t ht)
  rw [hg] at h3
  refine ⟨w', ?_, h2, ⟨h3.dst, h3.status, h3.statusOther, h3.rnd, h3.rndOther, ?_⟩⟩
  · rw [he, regWord_next h]
    show Host.Outcome.next _ = _
    rw [h1]
    rfl
  · exact ⟨h3.kept.regD, h3.kept.regP, h3.kept.regW, h3.kept.regQ, h3.kept.regN, h3.kept.regM, h3.kept.slim,
      h3.kept.sp, by
        have := h3.kept.rest
        simp only [Warp.mk.injEq] at this
        cases w; simp_all⟩

end Sys2Proof.Machine
end

