-- ==== Sys2Proof/Laws/Numbers.lean ====
section
/-! SUPPORT. Laws/Numbers.lean: laws of sub-elements and integers. -/

namespace Sys2Proof.Machine

/-- The number that packed sub-elements denote, before it is cut to 64 bits. -/
def packNat (w : Nat) (xs : List Nat) : Nat := xs.foldr (fun x acc => x % 2 ^ w + 2 ^ w * acc) 0

theorem packNat_lt (w : Nat) (xs : List Nat) : packNat w xs < 2 ^ (w * xs.length) := by
  induction xs with
  | nil => simp [packNat]
  | cons x rest ih =>
    have h1 : x % 2 ^ w < 2 ^ w := Nat.mod_lt _ (Nat.two_pow_pos w)
    have e : packNat w (x :: rest) = x % 2 ^ w + 2 ^ w * packNat w rest := rfl
    rw [e, List.length_cons, Nat.mul_add, Nat.mul_one, Nat.add_comm (w * rest.length), Nat.pow_add]
    calc x % 2 ^ w + 2 ^ w * packNat w rest
        < 2 ^ w + 2 ^ w * packNat w rest := by omega
      _ = 2 ^ w * (packNat w rest + 1) := by rw [Nat.mul_add, Nat.mul_one, Nat.add_comm]
      _ ≤ 2 ^ w * 2 ^ (w * rest.length) := Nat.mul_le_mul_left _ ih

theorem packNat_elem (w : Nat) (xs : List Nat) (k : Nat) : packNat w xs / 2 ^ (w * k) % 2 ^ w = xs.getD k 0 % 2 ^ w := by
  induction xs generalizing k with
  | nil => simp [packNat]
  | cons x rest ih =>
    have e : packNat w (x :: rest) = x % 2 ^ w + 2 ^ w * packNat w rest := rfl
    rw [e]
    cases k with
    | zero => simp [Nat.add_mul_mod_self_left]
    | succ k =>
      rw [Nat.mul_add, Nat.mul_one, Nat.add_comm (w * k), Nat.pow_add, ← Nat.div_div_eq_div_mul,
        Nat.add_mul_div_left _ _ (Nat.two_pow_pos w), Nat.div_eq_of_lt (Nat.mod_lt _ (Nat.two_pow_pos w)), Nat.zero_add, ih]
      simp

/-- A sub-element of a packed value (R56). -/
theorem elemBits_packElems (w : Nat) (xs : List Nat) (k : Nat) (h : w * xs.length ≤ 64) :
    elemBits w (packElems w xs) k = xs.getD k 0 % 2 ^ w := by
  have e : packElems w xs = BitVec.ofNat 64 (packNat w xs) := rfl
  have hlt : packNat w xs < 2 ^ 64 :=
    Nat.lt_of_lt_of_le (packNat_lt w xs) (Nat.pow_le_pow_right (by decide) h)
  rw [elemBits, e, BitVec.toNat_ofNat, Nat.mod_eq_of_lt hlt, packNat_elem]

theorem elemBits_lt (w : Nat) (v : Word) (k : Nat) : elemBits w v k < 2 ^ w := Nat.mod_lt _ (Nat.two_pow_pos w)

/-- The sub-elements of a type fill the register. -/
theorem width_mul_count (t : ETy) : t.width * t.count = 64 := by cases t <;> decide

theorem width_pos (t : ETy) : 0 < t.width := by cases t <;> decide

theorem ofInt_lt (w : Nat) (x : Int) : ofInt w x < 2 ^ w := by
  unfold ofInt
  have h : (0 : Int) < (2 ^ w : Nat) := by exact_mod_cast Nat.two_pow_pos w
  have h1 := Int.emod_lt_of_pos x h
  have h2 := Int.emod_nonneg x (by omega : ((2 ^ w : Nat) : Int) ≠ 0)
  omega

/-- The values and flags of an element-wise result. -/
theorem packFlags_elem (w n : Nat) (f : Nat → Nat × Flags) (k : Nat) (hn : w * n ≤ 64) (hk : k < n) :
    elemBits w (packFlags w n f).1 k = (f k).1 % 2 ^ w := by
  unfold packFlags
  rw [elemBits_packElems _ _ _ (by simpa using hn)]
  simp [List.getD, hk]

/-- The narrowing of R58 and R161 in one formula. -/
theorem narrowInt_fst (signed : Bool) (w : Nat) (sat : Bool) (x : Int) :
    (narrowInt signed w sat x).1 =
      ofInt w (if sat then max (intLo signed w) (min (intHi signed w) x) else x) := by
  have hp : (1 : Int) ≤ (2 ^ (w - 1) : Nat) := by exact_mod_cast Nat.two_pow_pos (w - 1)
  have hp2 : (1 : Int) ≤ (2 ^ w : Nat) := by exact_mod_cast Nat.two_pow_pos w
  have hle : intLo signed w ≤ intHi signed w := by
    cases signed <;> simp only [intLo, intHi, ↓reduceIte, Bool.false_eq_true] <;> omega
  unfold narrowInt
  cases sat with
  | false => simp
  | true =>
    by_cases h1 : x < intLo signed w
    · have : max (intLo signed w) (min (intHi signed w) x) = intLo signed w := by omega
      simp [h1, this]
    · by_cases h2 : intHi signed w < x
      · have : max (intLo signed w) (min (intHi signed w) x) = intHi signed w := by omega
        simp [h1, h2, this]
      · have : max (intLo signed w) (min (intHi signed w) x) = x := by omega
        simp [h1, h2, this]

theorem narrowInt_snd (signed : Bool) (w : Nat) (sat : Bool) (x : Int) :
    (narrowInt signed w sat x).2 =
      flagIf (sat && (decide (x < intLo signed w) || decide (intHi signed w < x))) fSaturate := by
  unfold narrowInt flagIf
  cases sat <;> by_cases h1 : x < intLo signed w <;> by_cases h2 : intHi signed w < x <;> simp [h1, h2]

/-- The join of one flag over a list. -/
theorem foldl_flag (ks : List Nat) (b : Nat → Bool) (f a : Flags) :
    ks.foldl (fun (acc : Flags) k => acc ||| flagIf (b k) f) a = a ||| flagIf (ks.any b) f := by
  induction ks generalizing a with
  | nil => simp [flagIf]
  | cons k rest ih =>
    rw [List.foldl_cons, ih, List.any_cons]
    cases h : b k <;> cases h2 : rest.any b <;> simp [flagIf, BitVec.or_assoc]

end Sys2Proof.Machine
end

