-- ==== Sys2Proof/Laws/SafeBase.lean ====
section
/-! SUPPORT. Laws/SafeBase.lean: when a state is safe, for the shapes in which the machine answers a state. -/

namespace Sys2Proof.Machine

/-- A written-out state is safe when its memory and its control registers are. -/
theorem safe_mk_iff (
    a1 a2 a3 a4 a5 a6 a7 a8 a9 a10 a11 a12 a13 a14 a15 a16 a17 a18 a19 a20 a21 a22 a23 a24 a25 a26 a27 a28 a29 a30
    a31 a32 a33 a34 a35 a36 a37 a38 a39 a40 a41 a42 a43 a44 a45 a46) :
    (State.mk
      a1 a2 a3 a4 a5 a6 a7 a8 a9 a10 a11 a12 a13 a14 a15 a16 a17 a18 a19 a20 a21 a22 a23 a24 a25 a26 a27 a28 a29 a30
      a31 a32 a33 a34 a35 a36 a37 a38 a39 a40 a41 a42 a43 a44 a45 a46).safe = (Memory.wf a13 && a1.legal) := rfl

/-- The state of a pair that a call answers. -/
theorem of_fst {α : Type} {p : State × α} {s : State} {r : α} (e : p = (s, r)) (h : p.1.safe = true) : s.safe = true := by
  subst e; exact h

theorem of_snd {α : Type} {p : α × State} {s : State} {r : α} (e : p = (r, s)) (h : p.2.safe = true) : s.safe = true := by
  subst e; exact h

theorem of_some {x : Option State} {t : State} (e : x = some t) (h : ∀ t, x = some t → t.safe = true) : t.safe = true :=
  h t e

/-- A fold over pairs keeps the state of the pair safe. -/
theorem foldl_fst_safe {α β : Type} (f : State × β → α → State × β)
    (hf : ∀ s x, s.1.safe = true → (f s x).1.safe = true) :
    ∀ (l : List α) (s : State × β), s.1.safe = true → (l.foldl f s).1.safe = true
  | [], _, h => h
  | x :: l, s, h => foldl_fst_safe f hf l (f s x) (hf s x h)

/-- An outcome whose next state, if it has one, is safe. -/
def SafeOut (o : Host.Outcome State Fault Refusal) : Prop := ∀ t, o = .next t → t.safe = true

theorem safeOut_next {t : State} (h : t.safe = true) : SafeOut (.next t) := by
  intro u e; cases e; exact h

theorem safeOut_fault (r : Fault) : SafeOut (.fault r) := by intro u e; cases e

/-- An access that keeps states safe. -/
def KeepsAccess (f : Access) : Prop := ∀ (s : State) k p t, s.safe = true → (f s k p t).1.safe = true

/-- A push that keeps states safe. -/
def KeepsPush (f : State → Cmd → Opnds → Nat → State) : Prop :=
  ∀ (s : State) c v t, s.safe = true → (f s c v t).safe = true

end Sys2Proof.Machine
end

