-- ==== Sys2Proof/Laws/SafeOps.lean ====
section
/-! SUPPORT. Laws/SafeOps.lean: the operations on memory, registers,
    splits and blocks keep a state safe: memory stays in its canonical form and the control registers stay legal. -/

namespace Sys2Proof.Machine

set_option Elab.async false

/-! ## Ops -/

theorem putWarp_safe {s : State} (k : Nat) (w : Warp) (hs : s.safe = true) :
    (State.putWarp s k w).safe = true := by
  unfold State.putWarp
  grind -ring -linarith -lia -order [safe_mk_iff, safe_mem, safe_ctl]

theorem forgetAsker_safe {s : State} (f : Turn → Bool) (hs : s.safe = true) :
    (State.forgetAsker s f).safe = true := by
  unfold State.forgetAsker
  grind -ring -linarith -lia -order [safe_mk_iff, safe_mem, safe_ctl]

theorem dropWarp_safe {s : State} (k : Nat) (hs : s.safe = true) :
    (State.dropWarp s k).safe = true := by
  unfold State.dropWarp
  grind -ring -linarith -lia -order [safe_mk_iff, safe_mem, safe_ctl, forgetAsker_safe]

theorem putBlock_safe {s : State} (b : Nat) (x : Block) (hs : s.safe = true) :
    (State.putBlock s b x).safe = true := by
  unfold State.putBlock
  grind -ring -linarith -lia -order [safe_mk_iff, safe_mem, safe_ctl]

theorem dropBlock_safe {s : State} (b : Nat) (hs : s.safe = true) :
    (State.dropBlock s b).safe = true := by
  unfold State.dropBlock
  grind -ring -linarith -lia -order [safe_mk_iff, safe_mem, safe_ctl]

theorem putLaunch_safe {s : State} (l : Nat) (x : Launch) (hs : s.safe = true) :
    (State.putLaunch s l x).safe = true := by
  unfold State.putLaunch
  grind -ring -linarith -lia -order [safe_mk_iff, safe_mem, safe_ctl]

theorem dropLaunch_safe {s : State} (l : Nat) (hs : s.safe = true) :
    (State.dropLaunch s l).safe = true := by
  unfold State.dropLaunch
  grind -ring -linarith -lia -order [safe_mk_iff, safe_mem, safe_ctl]

theorem putCore_safe {s : State} (c : Nat) (x : Core) (hs : s.safe = true) :
    (State.putCore s c x).safe = true := by
  unfold State.putCore
  grind -ring -linarith -lia -order [safe_mk_iff, safe_mem, safe_ctl]

theorem putDome_safe {s : State} (d : Nat) (x : Dome) (hs : s.safe = true) :
    (State.putDome s d x).safe = true := by
  unfold State.putDome
  grind -ring -linarith -lia -order [safe_mk_iff, safe_mem, safe_ctl]

theorem fresh_safe {s : State} (hs : s.safe = true) :
    (State.fresh s).2.safe = true := by
  unfold State.fresh
  grind -ring -linarith -lia -order [safe_mk_iff, safe_mem, safe_ctl]

theorem mapCoreWarps_safe {s : State} (c : Nat) (f : Warp → Warp) (hs : s.safe = true) :
    (State.mapCoreWarps s c f).safe = true := by
  unfold State.mapCoreWarps
  grind -ring -linarith -lia -order [safe_mk_iff, safe_mem, safe_ctl]

theorem dropHoists_safe {s : State} (core : Nat) (f : Hoist → Bool) (hs : s.safe = true) :
    (State.dropHoists s core f).safe = true := by
  unfold State.dropHoists
  grind -ring -linarith -lia -order [safe_mk_iff, safe_mem, safe_ctl, mapCoreWarps_safe]

theorem endHoists_safe {s : State} (lines : List Nat) (hs : s.safe = true) :
    (State.endHoists s lines).safe = true := by
  unfold State.endHoists
  grind -ring -linarith -lia -order [safe_mk_iff, safe_mem, safe_ctl]

theorem fillView_safe {s : State} (line : Nat) (hs : s.safe = true) :
    (State.fillView s line).safe = true := by
  unfold State.fillView
  grind -ring -linarith -lia -order [safe_mk_iff, safe_mem, safe_ctl]

theorem mendByte_safe {s : State} (a : Nat) (hs : s.safe = true) :
    (State.mendByte s a).safe = true := by
  unfold State.mendByte
  grind -ring -linarith -lia -order [safe_mk_iff, safe_mem, safe_ctl]

theorem want_safe {s : State} (x : Want) (hs : s.safe = true) :
    (State.want s x).safe = true := by
  unfold State.want
  grind -ring -linarith -lia -order [safe_mk_iff, safe_mem, safe_ctl]

theorem peerAsk_safe {s : State} (n : Nat) (a : Nat) (op : BexOp) (hs : s.safe = true) :
    (State.peerAsk s n a op).1.safe = true := by
  unfold State.peerAsk
  grind -ring -linarith -lia -order [want_safe]

theorem bexSend_safe {s : State} (who : Option (Turn × Nat)) (addr : Nat) (op : BexOp) (hs : s.safe = true) :
    (State.bexSend s who addr op).safe = true := by
  unfold State.bexSend
  grind -ring -linarith -lia -order [safe_mk_iff, safe_mem, safe_ctl]

theorem farWrite_safe {s : State} (cells : List (Nat × Byte)) (g : Nat) (hs : s.safe = true) :
    (State.farWrite s cells g).safe = true := by
  unfold State.farWrite
  grind -ring -linarith -lia -order [safe_mk_iff, safe_mem, safe_ctl, writeMem_wf, foldl_safe, foldl_fst_safe,
    bexSend_safe]

theorem proxyGo_safe {s : State} (g : Nat) (hs : s.safe = true) :
    (State.proxyGo s g).safe = true := by
  unfold State.proxyGo
  grind -ring -linarith -lia -order [safe_mk_iff, safe_mem, safe_ctl, farWrite_safe]

theorem proxyFlush_safe {s : State} (f : Nat → Bool) (hs : s.safe = true) :
    (State.proxyFlush s f).safe = true := by
  unfold State.proxyFlush
  grind -ring -linarith -lia -order [foldl_safe, foldl_fst_safe, proxyGo_safe]

theorem atHome_safe {s : State} (g : Nat) (hs : s.safe = true) :
    (State.atHome s g).safe = true := by
  unfold State.atHome
  grind -ring -linarith -lia -order [safe_mk_iff, safe_mem, safe_ctl, proxyFlush_safe]

theorem gate_safe {s : State} (keys : List Nat) (hs : s.safe = true) :
    (State.gate s keys).safe = true := by
  unfold State.gate
  grind -ring -linarith -lia -order [foldl_safe, foldl_fst_safe, want_safe]

theorem putCells_safe {s : State} (cells : List (Nat × Byte)) (g : Nat) (hs : s.safe = true) :
    (State.putCells s cells g).safe = true := by
  unfold State.putCells
  grind -ring -linarith -lia -order [safe_mk_iff, safe_mem, safe_ctl, writeMem_wf, foldl_safe, foldl_fst_safe,
    gate_safe, atHome_safe, farWrite_safe, mendByte_safe]

theorem evalWord_safe {s : State} (a : Nat) (v : Word) (hs : s.safe = true) :
    (State.evalWord s a v).1.safe = true := by
  unfold State.evalWord
  grind -ring -linarith -lia -order [safe_mk_iff, safe_mem, safe_ctl]

theorem readyAll_safe (n0 : Nat) {s1 : State} (n2 : List Nat) (hs : s1.safe = true) :
    (State.readyAll n0 s1 n2).safe = true := by
  fun_induction State.readyAll n0 s1 n2 <;> grind -ring -linarith -lia -order [putCells_safe, evalWord_safe]

theorem markReady_safe {s : State} (ctx : Nat) (hs : s.safe = true) :
    (State.markReady s ctx).safe = true := by
  unfold State.markReady
  grind -ring -linarith -lia -order [readyAll_safe]

theorem evalWaits_safe {s : State} (a : Nat) (v : Word) (hs : s.safe = true) :
    (State.evalWaits s a v).safe = true := by
  unfold State.evalWaits
  grind -ring -linarith -lia -order [evalWord_safe, readyAll_safe]

theorem writeCells_safe {s : State} (cells : List (Nat × Byte)) (g : Nat) (hs : s.safe = true) :
    (State.writeCells s cells g).safe = true := by
  unfold State.writeCells
  grind -ring -linarith -lia -order [putCells_safe, evalWaits_safe]

theorem applyRed_safe {s : State} (x : Pending) (hs : s.safe = true) :
    (State.applyRed s x).safe = true := by
  unfold State.applyRed
  grind -ring -linarith -lia -order [writeCells_safe, dropHoists_safe]

theorem applyReds_safe {s : State} (line : Nat) (hs : s.safe = true) :
    (State.applyReds s line).safe = true := by
  unfold State.applyReds
  grind -ring -linarith -lia -order [safe_mk_iff, safe_mem, safe_ctl, foldl_safe, foldl_fst_safe, applyRed_safe]

theorem writeGroup_safe {s : State} (cells : List (Nat × Byte)) (g : Nat) (hs : s.safe = true) :
    (State.writeGroup s cells g).safe = true := by
  unfold State.writeGroup
  grind -ring -linarith -lia -order [applyReds_safe, writeCells_safe]

theorem homeWrite_safe {s : State} (a : Nat) (bs : List Byte) (hs : s.safe = true) :
    (State.homeWrite s a bs).safe = true := by
  unfold State.homeWrite
  grind -ring -linarith -lia -order [writeGroup_safe]

theorem syncWrite_safe {s : State} (a : Nat) (bs : List Byte) (hs : s.safe = true) :
    (State.syncWrite s a bs).safe = true := by
  unfold State.syncWrite
  grind -ring -linarith -lia -order [foldl_safe, foldl_fst_safe, homeWrite_safe]

theorem syncWriteAt_safe {s : State} (keys : List Nat) (bs : List Byte) (hs : s.safe = true) :
    (State.syncWriteAt s keys bs).safe = true := by
  unfold State.syncWriteAt
  grind -ring -linarith -lia -order [foldl_safe, foldl_fst_safe, writeGroup_safe]

theorem publishAt_safe {s : State} (keys : List Nat) (bs : List Byte) (hs : s.safe = true) :
    (State.publishAt s keys bs).safe = true := by
  unfold State.publishAt
  grind -ring -linarith -lia -order [safe_mk_iff, safe_mem, safe_ctl, foldl_safe, foldl_fst_safe, gate_safe,
    evalWaits_safe, writeGroup_safe]

theorem count_safe {s : State} (u : CUnit) (unit : Nat) (event : Nat) (lane : Option Nat) (prio : Option Nat)
    (port : Option Nat) (hs : s.safe = true) :
    (State.count s u unit event lane prio port).safe = true := by
  unfold State.count
  grind -ring -linarith -lia -order [safe_mk_iff, safe_mem, safe_ctl]

theorem llcTouch_safe {s : State} (line : Nat) (cls : Nat) (h : Hint) (hs : s.safe = true) :
    (State.llcTouch s line cls h).safe = true := by
  unfold State.llcTouch
  grind -ring -linarith -lia -order [safe_mk_iff, safe_mem, safe_ctl, count_safe]

theorem readEntry_safe {s : State} (dome : Nat) (a : Nat) (hs : s.safe = true) :
    (State.readEntry s dome a).1.safe = true := by
  unfold State.readEntry
  grind -ring -linarith -lia -order [safe_mk_iff, safe_mem, safe_ctl, gate_safe, putDome_safe]

theorem forget_safe {s : State} (dome : Nat) (a : Nat) (hs : s.safe = true) :
    (State.forget s dome a).safe = true := by
  unfold State.forget
  grind -ring -linarith -lia -order [safe_mk_iff, safe_mem, safe_ctl, putDome_safe]

theorem walkFrom_safe {s : State} (dome : Nat) (va : Word) (n0 : Nat) (n1 : Nat) (n2 : Nat) (hs : s.safe = true) :
    (State.walkFrom s dome va n0 n1 n2).1.safe = true := by
  fun_induction State.walkFrom s dome va n0 n1 n2 <;> grind -ring -linarith -lia -order [readEntry_safe, forget_safe]

theorem walk_safe {s : State} (dome : Nat) (va : Word) (hs : s.safe = true) :
    (State.walk s dome va).1.safe = true := by
  unfold State.walk
  grind -ring -linarith -lia -order [count_safe, walkFrom_safe]

theorem setEntry_safe {s0 : State} (a : Nat) (bits : Word) (hs : s0.safe = true) :
    (State.setEntry s0 a bits).safe = true := by
  unfold State.setEntry
  grind -ring -linarith -lia -order [applyReds_safe, homeWrite_safe]

theorem noteAccess_safe {s : State} (core : Nat) (e : Word) (leaf : Nat) (hs : s.safe = true) :
    (State.noteAccess s core e leaf).safe = true := by
  unfold State.noteAccess
  grind -ring -linarith -lia -order [safe_mk_iff, safe_mem, safe_ctl]

theorem noteRequest_safe {s : State} (core : Nat) (line : Nat) (hs : s.safe = true) :
    (State.noteRequest s core line).safe = true := by
  unfold State.noteRequest
  grind -ring -linarith -lia -order [safe_mk_iff, safe_mem, safe_ctl]

theorem reach_safe {s : State} (core : Nat) (line : Nat) (cls : Nat) (h : Hint) (hs : s.safe = true) :
    (State.reach s core line cls h).safe = true := by
  unfold State.reach
  grind -ring -linarith -lia -order [llcTouch_safe, noteRequest_safe]

theorem translate_safe {s : State} (core : Nat) (acc : Acc) (va : Word) (hs : s.safe = true) :
    (State.translate s core acc va).1.safe = true := by
  unfold State.translate
  grind -ring -linarith -lia -order [safe_mk_iff, safe_mem, safe_ctl, forget_safe, setEntry_safe, putCore_safe,
    noteAccess_safe, walk_safe]

theorem translateRun_safe {s : State} (core : Nat) (acc : Acc) (va : Word) (n : Nat) (hs : s.safe = true) :
    (State.translateRun s core acc va n).1.safe = true := by
  unfold State.translateRun
  grind -ring -linarith -lia -order [translate_safe, gate_safe]

theorem askPeers_safe {s : State} (core : Nat) (keys : List Nat) (own : Bool) (hs : s.safe = true) :
    (State.askPeers s core keys own).safe = true := by
  unfold State.askPeers
  grind -ring -linarith -lia -order [foldl_safe, foldl_fst_safe, want_safe]

theorem fillLine_safe {s : State} (core : Nat) (line : Nat) (hs : s.safe = true) :
    (State.fillLine s core line).safe = true := by
  unfold State.fillLine
  grind -ring -linarith -lia -order [safe_mk_iff, safe_mem, safe_ctl, fillView_safe, putDome_safe, putCore_safe]

theorem loadByte_safe {s : State} (core : Nat) (key : Nat) (alloc : Bool) (hs : s.safe = true) :
    (State.loadByte s core key alloc).1.safe = true := by
  unfold State.loadByte
  grind -ring -linarith -lia -order [fillView_safe, fillLine_safe]

theorem loadKeys_safe {s : State} (core : Nat) (alloc : Bool) (n0 : List Nat) (hs : s.safe = true) :
    (State.loadKeys s core alloc n0).1.safe = true := by
  fun_induction State.loadKeys s core alloc n0 <;> grind -ring -linarith -lia -order [loadByte_safe]

theorem dropCleanLine_safe {s : State} (core : Nat) (line : Nat) (hs : s.safe = true) :
    (State.dropCleanLine s core line).safe = true := by
  unfold State.dropCleanLine
  grind -ring -linarith -lia -order [safe_mk_iff, safe_mem, safe_ctl, putCore_safe]

theorem storeKeys_safe {s : State} (k : Nat) (keys : List Nat) (bs : List Byte) (hs : s.safe = true) :
    (State.storeKeys s k keys bs).safe = true := by
  unfold State.storeKeys
  grind -ring -linarith -lia -order [safe_mk_iff, safe_mem, safe_ctl, foldl_safe, foldl_fst_safe, putCore_safe,
    dropHoists_safe]

theorem noteFrame_safe {s : State} (k : Nat) (keys : List Nat) (hs : s.safe = true) :
    (State.noteFrame s k keys).safe = true := by
  unfold State.noteFrame
  grind -ring -linarith -lia -order [safe_mk_iff, safe_mem, safe_ctl, putWarp_safe]

theorem drain_safe {s : State} (dome : Nat) (f : Nat → Bool) (hs : s.safe = true) :
    (State.drain s dome f).safe = true := by
  unfold State.drain
  grind -ring -linarith -lia -order [safe_mk_iff, safe_mem, safe_ctl, foldl_safe, foldl_fst_safe, putDome_safe,
    publishAt_safe]

theorem publish_safe {s : State} (core : Nat) (f : Nat → Bool) (hs : s.safe = true) :
    (State.publish s core f).safe = true := by
  unfold State.publish
  grind -ring -linarith -lia -order [safe_mk_iff, safe_mem, safe_ctl, foldl_safe, foldl_fst_safe, drain_safe,
    noteRequest_safe, putCore_safe, putDome_safe, publishAt_safe]

theorem publishReplica_safe {s : State} (core : Nat) (f : Nat → Bool) (hs : s.safe = true) :
    (State.publishReplica s core f).safe = true := by
  unfold State.publishReplica
  grind -ring -linarith -lia -order [safe_mk_iff, safe_mem, safe_ctl, foldl_safe, foldl_fst_safe, putCore_safe,
    putDome_safe]

theorem awaitAcks_safe {s : State} (core : Nat) (hs : s.safe = true) :
    (State.awaitAcks s core).safe = true := by
  unfold State.awaitAcks
  grind -ring -linarith -lia -order [want_safe]

theorem release_safe {s : State} (core : Nat) (l : Option Launch) (sc : Scope) (hs : s.safe = true) :
    (State.release s core l sc).safe = true := by
  unfold State.release
  grind -ring -linarith -lia -order [publish_safe, drain_safe, publishReplica_safe, proxyFlush_safe, awaitAcks_safe]

theorem dropAnswers_safe {s : State} (core : Nat) (hs : s.safe = true) :
    (State.dropAnswers s core).safe = true := by
  unfold State.dropAnswers
  grind -ring -linarith -lia -order [safe_mk_iff, safe_mem, safe_ctl]

theorem acquire_safe {s : State} (core : Nat) (l : Option Launch) (sc : Scope) (hs : s.safe = true) :
    (State.acquire s core l sc).safe = true := by
  unfold State.acquire
  grind -ring -linarith -lia -order [safe_mk_iff, safe_mem, safe_ctl, dropHoists_safe, putCore_safe,
    dropAnswers_safe, putDome_safe]

theorem post_safe {s : State} (r : FRec) (owner : Owner) (launch : Option Nat) (hs : s.safe = true) :
    (State.post s r owner launch).2.safe = true := by
  unfold State.post
  grind -ring -linarith -lia -order [safe_mk_iff, safe_mem, safe_ctl, fresh_safe]

theorem codeKey_safe {s : State} (core : Nat) (va : Word) (hs : s.safe = true) :
    (State.codeKey s core va).1.safe = true := by
  unfold State.codeKey
  grind -ring -linarith -lia -order [translateRun_safe]

theorem slotKeys_safe {s : State} (core : Nat) (va : Word) (n : Nat) (hs : s.safe = true) :
    (State.slotKeys s core va n).1.safe = true := by
  unfold State.slotKeys
  grind -ring -linarith -lia -order [translate_safe, gate_safe, askPeers_safe]

theorem blockSlots_safe {s : State} (core : Nat) (va : Word) (k : Nat) (hs : s.safe = true) :
    (State.blockSlots s core va k).1.safe = true := by
  unfold State.blockSlots
  grind -ring -linarith -lia -order [slotKeys_safe]

theorem cacheBlock_safe {s : State} (core : Nat) (k : Nat) (l : List (Option Word128)) (hs : s.safe = true) :
    (State.cacheBlock s core k l).safe = true := by
  unfold State.cacheBlock
  grind -ring -linarith -lia -order [safe_mk_iff, safe_mem, safe_ctl, putCore_safe]

theorem fetchSlot_safe {s : State} (core : Nat) (va : Word) (i : Nat) (hs : s.safe = true) :
    (State.fetchSlot s core va i).1.safe = true := by
  unfold State.fetchSlot
  grind -ring -linarith -lia -order [codeKey_safe, askPeers_safe, blockSlots_safe, cacheBlock_safe]

theorem fetchHeader_safe {s : State} (core : Nat) (va : Word) (entering : Bool) (hs : s.safe = true) :
    (State.fetchHeader s core va entering).1.safe = true := by
  unfold State.fetchHeader
  grind -ring -linarith -lia -order [fetchSlot_safe]

theorem nested_safe {s : State} (k : Nat) (w : Warp) (p : Split) (hs : s.safe = true) :
    (State.nested s k w p).safe = true := by
  unfold State.nested
  grind -ring -linarith -lia -order [safe_mk_iff, safe_mem, safe_ctl, putWarp_safe, post_safe]

theorem takeTrap_safe {s : State} (k : Nat) (pid : Nat) (tr : Trap) (hs : s.safe = true) :
    (State.takeTrap s k pid tr).safe = true := by
  unfold State.takeTrap
  repeat' split
  all_goals grind -ring -linarith -lia -order [safe_mk_iff, safe_mem, safe_ctl, nested_safe, fetchHeader_safe,
    translateRun_safe, putWarp_safe, storeKeys_safe, noteFrame_safe, post_safe]

/-! ## Barriers -/

theorem barUpdate_safe {s : State} (blk : Nat) (id : Nat) (hs : s.safe = true) :
    (State.barUpdate s blk id).safe = true := by
  unfold State.barUpdate
  grind -ring -linarith -lia -order [safe_mk_iff, safe_mem, safe_ctl, foldl_safe, foldl_fst_safe, putBlock_safe]

theorem swapBanks_safe {s : State} (l : Nat) (x : TBar) (hs : s.safe = true) :
    (State.swapBanks s l x).safe = true := by
  unfold State.swapBanks
  grind -ring -linarith -lia -order [safe_mk_iff, safe_mem, safe_ctl, foldl_safe, foldl_fst_safe, putBlock_safe]

theorem putTBar_safe {s : State} (l : Nat) (x : TBar) (hs : s.safe = true) :
    (State.putTBar s l x).safe = true := by
  unfold State.putTBar
  grind -ring -linarith -lia -order [safe_mk_iff, safe_mem, safe_ctl, putLaunch_safe]

theorem tbarUpdate_safe {s : State} (l : Nat) (x : TBar) (hs : s.safe = true) :
    (State.tbarUpdate s l x).safe = true := by
  unfold State.tbarUpdate
  grind -ring -linarith -lia -order [safe_mk_iff, safe_mem, safe_ctl, foldl_safe, foldl_fst_safe, release_safe,
    swapBanks_safe, putTBar_safe]

theorem leaveBarriers_safe {s : State} (blk : Nat) (wid : Nat) (hs : s.safe = true) :
    (State.leaveBarriers s blk wid).safe = true := by
  unfold State.leaveBarriers
  grind -ring -linarith -lia -order [safe_mk_iff, safe_mem, safe_ctl, foldl_safe, foldl_fst_safe, putBlock_safe,
    barUpdate_safe, putLaunch_safe, tbarUpdate_safe]

/-! ## Sequence -/

theorem returnWeight_safe {s : State} (k : Nat) (w : Warp) (hs : s.safe = true) :
    (State.returnWeight s k w).safe = true := by
  unfold State.returnWeight
  grind -ring -linarith -lia -order [foldl_safe, foldl_fst_safe, release_safe, translateRun_safe, peerAsk_safe,
    applyReds_safe, homeWrite_safe]

theorem orphan_safe {s : State} (k : Nat) (hs : s.safe = true) :
    (State.orphan s k).safe = true := by
  unfold State.orphan
  grind -ring -linarith -lia -order [safe_mk_iff, safe_mem, safe_ctl]

theorem settleWarp_safe {s : State} (k : Nat) (w : Warp) (hs : s.safe = true) :
    (State.settleWarp s k w).safe = true := by
  unfold State.settleWarp
  grind -ring -linarith -lia -order [safe_mk_iff, safe_mem, safe_ctl, putBlock_safe, returnWeight_safe, orphan_safe,
    dropWarp_safe, leaveBarriers_safe, putWarp_safe]

theorem seqTrap_safe {s : State} (k : Nat) (pid : Nat) (p : Split) (cause : Nat) (va : Word) (hs : s.safe = true) :
    (State.seqTrap s k pid p cause va).safe = true := by
  unfold State.seqTrap
  grind -ring -linarith -lia -order [takeTrap_safe]

theorem fetchEntry_safe {s : State} (k : Nat) (w : Warp) (va : Word) (hs : s.safe = true) :
    (State.fetchEntry s k w va).1.safe = true := by
  unfold State.fetchEntry
  grind -ring -linarith -lia -order [safe_mk_iff, safe_mem, safe_ctl, fetchHeader_safe]

theorem fetchErr_safe {s : State} (k : Nat) (w : Warp) (p : Split) (q : Seq) (va : Word) (e : MemErr)
    (hs : s.safe = true) :
    (State.fetchErr s k w p q va e).safe = true := by
  unfold State.fetchErr
  grind -ring -linarith -lia -order [safe_mk_iff, safe_mem, safe_ctl, post_safe, putWarp_safe, takeTrap_safe,
    seqTrap_safe]

theorem transfer_safe {s : State} (k : Nat) (w : Warp) (p : Split) (q : Seq) (va : Word)
    (f : Warp → Split → Warp × Split) (hs : s.safe = true) :
    (State.transfer s k w p q va f).safe = true := by
  unfold State.transfer
  grind -ring -linarith -lia -order [fetchEntry_safe, seqTrap_safe, fetchErr_safe, settleWarp_safe]

theorem branch_safe {s : State} (k : Nat) (w : Warp) (p : Split) (q : Seq) (taken : Mask) (tgt : Word)
    (hs : s.safe = true) :
    (State.branch s k w p q taken tgt).safe = true := by
  unfold State.branch
  grind -ring -linarith -lia -order [transfer_safe, fetchEntry_safe, seqTrap_safe, fetchErr_safe, settleWarp_safe]

theorem callTo_safe {s : State} (k : Nat) (w : Warp) (p : Split) (q : Seq) (tgt : Word) (hs : s.safe = true) :
    (State.callTo s k w p q tgt).safe = true := by
  unfold State.callTo
  grind -ring -linarith -lia -order [safe_mk_iff, safe_mem, safe_ctl, fetchEntry_safe, seqTrap_safe, fetchErr_safe,
    settleWarp_safe]

theorem retFrom_safe {s : State} (k : Nat) (w : Warp) (p : Split) (q : Seq) (hs : s.safe = true) :
    (State.retFrom s k w p q).safe = true := by
  unfold State.retFrom
  grind -ring -linarith -lia -order [safe_mk_iff, safe_mem, safe_ctl, seqTrap_safe, transfer_safe]

theorem seqAct_safe {s : State} (k : Nat) (pid : Nat) (q : Seq) (hs : s.safe = true) :
    (State.seqAct s k pid q).safe = true := by
  unfold State.seqAct
  grind -ring -linarith -lia -order [safe_mk_iff, safe_mem, safe_ctl, takeTrap_safe, putWarp_safe, transfer_safe,
    branch_safe, callTo_safe, retFrom_safe, settleWarp_safe]

theorem finish_safe {s : State} (k : Nat) (pid : Nat) (q : Seq) (ts : List Trap) (hs : s.safe = true) :
    (State.finish s k pid q ts).safe = true := by
  unfold State.finish
  grind -ring -linarith -lia -order [takeTrap_safe, seqAct_safe]

theorem regWord_safe (x : Ctl) (ty : OTys) (srcs : List Spec) (o : Slots) (f : RegFn) {s : State} (hs : s.safe = true) :
    SafeOut (regWord x ty srcs o f s) := by
  unfold regWord
  grind -ring -linarith -lia -order [safe_mk_iff, safe_mem, safe_ctl, SafeOut, seqAct_safe, putWarp_safe, finish_safe]

/-! ## Elements -/

theorem intWord_safe (x : Ctl) (m : IMod) (o : Slots) (srcs : List Spec) (f : Int → Int → Int → Int) {s0 : State}
    (hs : s0.safe = true) :
    SafeOut (intWord x m o srcs f s0) := by
  unfold intWord
  grind -ring -linarith -lia -order [SafeOut, regWord_safe]

theorem bitWord_safe (x : Ctl) (m : IMod) (o : Slots) (srcs : List Spec) (f : Nat → Nat → Nat → Nat → Nat → Nat)
    {s0 : State} (hs : s0.safe = true) :
    SafeOut (bitWord x m o srcs f s0) := by
  unfold bitWord
  grind -ring -linarith -lia -order [SafeOut, regWord_safe]

theorem cmpWord_safe (x : Ctl) (m : CMod) (o : Slots) {s0 : State} (hs : s0.safe = true) :
    SafeOut (cmpWord x m o s0) := by
  unfold cmpWord
  grind -ring -linarith -lia -order [SafeOut, regWord_safe]

theorem fltWord_safe (x : Ctl) (m : FMod) (ty : OTys) (o : Slots) (srcs : List Spec) (draws : Nat → Nat → Bool)
    (f : Nat → Nat → Nat → Nat → Nat × Flags) {s0 : State} (hs : s0.safe = true) :
    SafeOut (fltWord x m ty o srcs draws f s0) := by
  unfold fltWord
  grind -ring -linarith -lia -order [SafeOut, regWord_safe, count_safe]

/-! ## MemWords -/

theorem noteLines_safe {s : State} (k : Nat) (h : Hint) (cls : Nat) (keys : List Nat) (write : Bool)
    (hs : s.safe = true) :
    (State.noteLines s k h cls keys write).safe = true := by
  unfold State.noteLines
  grind -ring -linarith -lia -order [foldl_safe, foldl_fst_safe, count_safe, reach_safe]

theorem lastUse_safe {s : State} (core : Nat) (h : Hint) (keys : List Nat) (hs : s.safe = true) :
    (State.lastUse s core h keys).safe = true := by
  unfold State.lastUse
  grind -ring -linarith -lia -order [foldl_safe, foldl_fst_safe, dropCleanLine_safe]

theorem touchHome_safe {s : State} (core : Nat) (va : Word) (h : Hint) (keys : List Nat) (hs : s.safe = true) :
    (State.touchHome s core va h keys).safe = true := by
  unfold State.touchHome
  grind -ring -linarith -lia -order [foldl_safe, foldl_fst_safe, reach_safe]

theorem loadG_safe {s : State} (k : Nat) (h : Hint) (va : Word) (n : Nat) (hs : s.safe = true) :
    (State.loadG s k h va n).1.safe = true := by
  unfold State.loadG
  grind -ring -linarith -lia -order [translateRun_safe, askPeers_safe, noteLines_safe, loadKeys_safe, lastUse_safe]

theorem storeG_safe {s : State} (k : Nat) (h : Hint) (va : Word) (bs : List Byte) (hs : s.safe = true) :
    (State.storeG s k h va bs).1.safe = true := by
  unfold State.storeG
  grind -ring -linarith -lia -order [translateRun_safe, noteLines_safe, storeKeys_safe, lastUse_safe]

theorem putLive_safe {s : State} (blk : Nat) (off : Nat) (bs : List Byte) (hs : s.safe = true) :
    (State.putLive s blk off bs).safe = true := by
  unfold State.putLive
  grind -ring -linarith -lia -order [safe_mk_iff, safe_mem, safe_ctl, putBlock_safe]

theorem storeS_safe {s : State} (blk : Nat) (off : Int) (bs : List Byte) (hs : s.safe = true) :
    (State.storeS s blk off bs).1.safe = true := by
  unfold State.storeS
  grind -ring -linarith -lia -order [putLive_safe]

theorem window_safe {s : State} (k : Nat) (lines : List Nat) (store : Bool) (hs : s.safe = true) :
    (State.window s k lines store).safe = true := by
  unfold State.window
  grind -ring -linarith -lia -order [safe_mk_iff, safe_mem, safe_ctl, putWarp_safe]

theorem abortTxn_safe {s : State} (k : Nat) (t : Nat) (code : Nat) (hs : s.safe = true) :
    (State.abortTxn s k t code).safe = true := by
  unfold State.abortTxn
  grind -ring -linarith -lia -order [putWarp_safe]

theorem holdTxn_safe {s : State} (k : Nat) (t : Nat) (x : Txn) (hs : s.safe = true) :
    (State.holdTxn s k t x).1.safe = true := by
  unfold State.holdTxn
  grind -ring -linarith -lia -order [abortTxn_safe, putWarp_safe]

theorem freshenAll_safe {s : State} (core : Nat) (keys : List Nat) (hs : s.safe = true) :
    (State.freshenAll s core keys).safe = true := by
  unfold State.freshenAll
  grind -ring -linarith -lia -order [safe_mk_iff, safe_mem, safe_ctl, foldl_safe, foldl_fst_safe, putCore_safe,
    putDome_safe]

theorem loadTxn_safe {s : State} (k : Nat) (t : Nat) (h : Hint) (x : Txn) (va : Word) (n : Nat) (hs : s.safe = true) :
    (State.loadTxn s k t h x va n).1.safe = true := by
  unfold State.loadTxn
  grind -ring -linarith -lia -order [safe_mk_iff, safe_mem, safe_ctl, foldl_safe, foldl_fst_safe, translateRun_safe,
    abortTxn_safe, askPeers_safe, fillView_safe, touchHome_safe, freshenAll_safe, lastUse_safe, holdTxn_safe]

theorem storeTxn_safe {s : State} (k : Nat) (t : Nat) (h : Hint) (x : Txn) (va : Word) (bs : List Byte)
    (hs : s.safe = true) :
    (State.storeTxn s k t h x va bs).safe = true := by
  unfold State.storeTxn
  grind -ring -linarith -lia -order [safe_mk_iff, safe_mem, safe_ctl, foldl_safe, foldl_fst_safe, translateRun_safe,
    abortTxn_safe, lastUse_safe, holdTxn_safe]

theorem load_safe {s : State} (k : Nat) (t : Nat) (tx : Bool) (h : Hint) (a : Place) (n : Nat) (hs : s.safe = true) :
    (State.load s k t tx h a n).1.safe = true := by
  unfold State.load
  grind -ring -linarith -lia -order [loadG_safe, noteFrame_safe, loadTxn_safe]

theorem store_safe {s : State} (k : Nat) (t : Nat) (h : Hint) (a : Place) (bs : List Byte) (hs : s.safe = true) :
    (State.store s k t h a bs).1.safe = true := by
  unfold State.store
  grind -ring -linarith -lia -order [storeS_safe, storeG_safe, noteFrame_safe, storeTxn_safe]

theorem performAll_safe (f : Access) (k : Nat) (p : Pend) {s0 : State} (n1 : List Nat) (hp : KeepsAccess f)
    (hs : s0.safe = true) :
    (performAll f k p s0 n1).1.safe = true := by
  fun_induction performAll f k p s0 n1 <;> grind -ring -linarith -lia -order [KeepsAccess, KeepsPush]

theorem perform_safe {s : State} (k : Nat) (pid : Nat) (q : Seq) (pl : Plan) (p : Pend) (hs : s.safe = true)
    (hp : KeepsAccess pl.access) :
    (State.perform s k pid q pl p).safe = true := by
  unfold State.perform
  grind -ring -linarith -lia -order [safe_mk_iff, safe_mem, safe_ctl, KeepsAccess, KeepsPush, performAll_safe,
    putWarp_safe, finish_safe, post_safe]

theorem memWord_safe (i : Instr) (x : Ctl) (ty : OTys) (srcs : List Spec) (o : Slots) (pl : Plan) {s : State}
    (hp : KeepsAccess pl.access) (hs : s.safe = true) :
    SafeOut (memWord i x ty srcs o pl s) := by
  unfold memWord
  grind -ring -linarith -lia -order [safe_mk_iff, safe_mem, safe_ctl, SafeOut, KeepsAccess, KeepsPush, seqAct_safe,
    putWarp_safe, perform_safe]

theorem threadWord_safe (x : Ctl) (ty : OTys) (srcs : List Spec) (o : Slots)
    (f : State → Nat → Split → Mask → Opnds → List Trap → State)
    (hf : ∀ s k p T v us, s.safe = true → (f s k p T v us).safe = true) {s : State} (hs : s.safe = true) :
    SafeOut (threadWord x ty srcs o f s) := by
  unfold threadWord
  grind -ring -linarith -lia -order [SafeOut, putWarp_safe, seqAct_safe, finish_safe]

theorem splitWord_safe (x : Ctl) (ty : OTys) (srcs : List Spec) (o : Slots)
    (f : State → Nat → Split → Mask → Opnds → State)
    (hf : ∀ s k p T v, s.safe = true → (f s k p T v).safe = true) {s : State} (hs : s.safe = true) :
    SafeOut (splitWord x ty srcs o f s) := by
  unfold splitWord
  grind -ring -linarith -lia -order [SafeOut, putWarp_safe, seqAct_safe, takeTrap_safe]

theorem illegalOp_safe {s : State} (k : Nat) (T : Mask) (hs : s.safe = true) :
    (State.illegalOp s k T).1.safe = true := by
  unfold State.illegalOp
  grind -ring -linarith -lia -order [putWarp_safe]

end Sys2Proof.Machine
end

