-- ==== Sys2Proof/Laws/SafeWords.lean ====
section
/-! SUPPORT. Laws/SafeWords.lean: the words of the lanes, of memory,
    of synchronization and of the system keep a state safe. -/

namespace Sys2Proof.Machine

set_option Elab.async false

/-! ## IntLogic -/

theorem execIll_safe {s : State} (hs : s.safe = true) :
    SafeOut (execIll s) := by
  unfold execIll
  grind -ring -linarith -lia -order [SafeOut, takeTrap_safe]

theorem affWord_safe (x : Ctl) (m : IMod) (o : Slots) (f : Int → Int → Int) (g : Word → Word → Word) {s0 : State}
    (hs : s0.safe = true) :
    SafeOut (affWord x m o f g s0) := by
  unfold affWord
  grind -ring -linarith -lia -order [SafeOut, regWord_safe]

theorem execIadd_safe (x : Ctl) (m : IMod) (o : Slots) {s : State} (hs : s.safe = true) :
    SafeOut (execIadd x m o s) := by
  unfold execIadd
  grind -ring -linarith -lia -order [SafeOut, affWord_safe]

theorem execIsub_safe (x : Ctl) (m : IMod) (o : Slots) {s : State} (hs : s.safe = true) :
    SafeOut (execIsub x m o s) := by
  unfold execIsub
  grind -ring -linarith -lia -order [SafeOut, affWord_safe]

theorem execIaddc_safe (x : Ctl) (o : Slots) {s : State} (hs : s.safe = true) :
    SafeOut (execIaddc x o s) := by
  unfold execIaddc
  grind -ring -linarith -lia -order [SafeOut, regWord_safe]

theorem execImul_safe (x : Ctl) (m : IMod) (o : Slots) {s : State} (hs : s.safe = true) :
    SafeOut (execImul x m o s) := by
  unfold execImul
  grind -ring -linarith -lia -order [SafeOut, intWord_safe]

theorem execImulh_safe (x : Ctl) (m : IMod) (o : Slots) {s : State} (hs : s.safe = true) :
    SafeOut (execImulh x m o s) := by
  unfold execImulh
  grind -ring -linarith -lia -order [SafeOut, intWord_safe]

theorem execImad_safe (x : Ctl) (m : IMod) (o : Slots) {s : State} (hs : s.safe = true) :
    SafeOut (execImad x m o s) := by
  unfold execImad
  grind -ring -linarith -lia -order [SafeOut, intWord_safe]

theorem divWord_safe (x : Ctl) (m : IMod) (o : Slots) (f : Int → Int → Int × Flags) {s0 : State} (hs : s0.safe = true) :
    SafeOut (divWord x m o f s0) := by
  unfold divWord
  grind -ring -linarith -lia -order [SafeOut, regWord_safe]

theorem execIdiv_safe (x : Ctl) (m : IMod) (o : Slots) {s : State} (hs : s.safe = true) :
    SafeOut (execIdiv x m o s) := by
  unfold execIdiv
  grind -ring -linarith -lia -order [SafeOut, divWord_safe]

theorem execIrem_safe (x : Ctl) (m : IMod) (o : Slots) {s : State} (hs : s.safe = true) :
    SafeOut (execIrem x m o s) := by
  unfold execIrem
  grind -ring -linarith -lia -order [SafeOut, divWord_safe]

theorem execIneg_safe (x : Ctl) (m : IMod) (o : Slots) {s : State} (hs : s.safe = true) :
    SafeOut (execIneg x m o s) := by
  unfold execIneg
  grind -ring -linarith -lia -order [SafeOut, intWord_safe]

theorem execIabs_safe (x : Ctl) (m : IMod) (o : Slots) {s : State} (hs : s.safe = true) :
    SafeOut (execIabs x m o s) := by
  unfold execIabs
  grind -ring -linarith -lia -order [SafeOut, intWord_safe]

theorem execImin_safe (x : Ctl) (m : IMod) (o : Slots) {s : State} (hs : s.safe = true) :
    SafeOut (execImin x m o s) := by
  unfold execImin
  grind -ring -linarith -lia -order [SafeOut, intWord_safe]

theorem execImax_safe (x : Ctl) (m : IMod) (o : Slots) {s : State} (hs : s.safe = true) :
    SafeOut (execImax x m o s) := by
  unfold execImax
  grind -ring -linarith -lia -order [SafeOut, intWord_safe]

theorem execAnd_safe (x : Ctl) (m : IMod) (o : Slots) {s : State} (hs : s.safe = true) :
    SafeOut (execAnd x m o s) := by
  unfold execAnd
  grind -ring -linarith -lia -order [SafeOut, bitWord_safe]

theorem execOr_safe (x : Ctl) (m : IMod) (o : Slots) {s : State} (hs : s.safe = true) :
    SafeOut (execOr x m o s) := by
  unfold execOr
  grind -ring -linarith -lia -order [SafeOut, bitWord_safe]

theorem execXor_safe (x : Ctl) (m : IMod) (o : Slots) {s : State} (hs : s.safe = true) :
    SafeOut (execXor x m o s) := by
  unfold execXor
  grind -ring -linarith -lia -order [SafeOut, bitWord_safe]

theorem execAndn_safe (x : Ctl) (m : IMod) (o : Slots) {s : State} (hs : s.safe = true) :
    SafeOut (execAndn x m o s) := by
  unfold execAndn
  grind -ring -linarith -lia -order [SafeOut, bitWord_safe]

theorem execShl_safe (x : Ctl) (m : IMod) (o : Slots) {s : State} (hs : s.safe = true) :
    SafeOut (execShl x m o s) := by
  unfold execShl
  grind -ring -linarith -lia -order [SafeOut, regWord_safe]

theorem execShr_safe (x : Ctl) (m : IMod) (o : Slots) {s : State} (hs : s.safe = true) :
    SafeOut (execShr x m o s) := by
  unfold execShr
  grind -ring -linarith -lia -order [SafeOut, bitWord_safe]

theorem execSar_safe (x : Ctl) (m : IMod) (o : Slots) {s : State} (hs : s.safe = true) :
    SafeOut (execSar x m o s) := by
  unfold execSar
  grind -ring -linarith -lia -order [SafeOut, bitWord_safe]

theorem execRol_safe (x : Ctl) (m : IMod) (o : Slots) {s : State} (hs : s.safe = true) :
    SafeOut (execRol x m o s) := by
  unfold execRol
  grind -ring -linarith -lia -order [SafeOut, bitWord_safe]

theorem execClz_safe (x : Ctl) (m : IMod) (o : Slots) {s : State} (hs : s.safe = true) :
    SafeOut (execClz x m o s) := by
  unfold execClz
  grind -ring -linarith -lia -order [SafeOut, bitWord_safe]

theorem execCtz_safe (x : Ctl) (m : IMod) (o : Slots) {s : State} (hs : s.safe = true) :
    SafeOut (execCtz x m o s) := by
  unfold execCtz
  grind -ring -linarith -lia -order [SafeOut, bitWord_safe]

theorem execPopc_safe (x : Ctl) (m : IMod) (o : Slots) {s : State} (hs : s.safe = true) :
    SafeOut (execPopc x m o s) := by
  unfold execPopc
  grind -ring -linarith -lia -order [foldl_safe, foldl_fst_safe, SafeOut, bitWord_safe]

theorem execBrev_safe (x : Ctl) (m : IMod) (o : Slots) {s : State} (hs : s.safe = true) :
    SafeOut (execBrev x m o s) := by
  unfold execBrev
  grind -ring -linarith -lia -order [foldl_safe, foldl_fst_safe, SafeOut, bitWord_safe]

theorem execBfx_safe (x : Ctl) (m : IMod) (o : Slots) {s : State} (hs : s.safe = true) :
    SafeOut (execBfx x m o s) := by
  unfold execBfx
  grind -ring -linarith -lia -order [SafeOut, bitWord_safe]

theorem execBfi_safe (x : Ctl) (m : IMod) (o : Slots) {s : State} (hs : s.safe = true) :
    SafeOut (execBfi x m o s) := by
  unfold execBfi
  grind -ring -linarith -lia -order [SafeOut, bitWord_safe]

theorem execSel_safe (x : Ctl) (m : IMod) (o : Slots) {s : State} (hs : s.safe = true) :
    SafeOut (execSel x m o s) := by
  unfold execSel
  grind -ring -linarith -lia -order [SafeOut, regWord_safe]

theorem execMov_safe (x : Ctl) (m : IMod) (o : Slots) {s : State} (hs : s.safe = true) :
    SafeOut (execMov x m o s) := by
  unfold execMov
  grind -ring -linarith -lia -order [SafeOut, regWord_safe]

theorem execLea_safe (x : Ctl) (m : IMod) (o : Slots) {s : State} (hs : s.safe = true) :
    SafeOut (execLea x m o s) := by
  unfold execLea
  grind -ring -linarith -lia -order [SafeOut, regWord_safe]

theorem execIcmp_safe (x : Ctl) (m : CMod) (o : Slots) {s : State} (hs : s.safe = true) :
    SafeOut (execIcmp x m o s) := by
  unfold execIcmp
  grind -ring -linarith -lia -order [SafeOut, cmpWord_safe]

/-! ## Packed -/

theorem execPadd_safe (x : Ctl) (m : IMod) (o : Slots) {s : State} (hs : s.safe = true) :
    SafeOut (execPadd x m o s) := by
  unfold execPadd
  grind -ring -linarith -lia -order [SafeOut, intWord_safe]

theorem execPsub_safe (x : Ctl) (m : IMod) (o : Slots) {s : State} (hs : s.safe = true) :
    SafeOut (execPsub x m o s) := by
  unfold execPsub
  grind -ring -linarith -lia -order [SafeOut, intWord_safe]

theorem execPmul_safe (x : Ctl) (m : IMod) (o : Slots) {s : State} (hs : s.safe = true) :
    SafeOut (execPmul x m o s) := by
  unfold execPmul
  grind -ring -linarith -lia -order [SafeOut, intWord_safe]

theorem execPmad_safe (x : Ctl) (m : IMod) (o : Slots) {s : State} (hs : s.safe = true) :
    SafeOut (execPmad x m o s) := by
  unfold execPmad
  grind -ring -linarith -lia -order [SafeOut, intWord_safe]

theorem execPmin_safe (x : Ctl) (m : IMod) (o : Slots) {s : State} (hs : s.safe = true) :
    SafeOut (execPmin x m o s) := by
  unfold execPmin
  grind -ring -linarith -lia -order [SafeOut, intWord_safe]

theorem execPmax_safe (x : Ctl) (m : IMod) (o : Slots) {s : State} (hs : s.safe = true) :
    SafeOut (execPmax x m o s) := by
  unfold execPmax
  grind -ring -linarith -lia -order [SafeOut, intWord_safe]

theorem execPabs_safe (x : Ctl) (m : IMod) (o : Slots) {s : State} (hs : s.safe = true) :
    SafeOut (execPabs x m o s) := by
  unfold execPabs
  grind -ring -linarith -lia -order [SafeOut, intWord_safe]

theorem execPavg_safe (x : Ctl) (m : IMod) (o : Slots) {s : State} (hs : s.safe = true) :
    SafeOut (execPavg x m o s) := by
  unfold execPavg
  grind -ring -linarith -lia -order [SafeOut, intWord_safe]

theorem reduceWord_safe (x : Ctl) (m : IMod) (o : Slots) (f : Int → Int → Int) {s0 : State} (hs : s0.safe = true) :
    SafeOut (reduceWord x m o f s0) := by
  unfold reduceWord
  grind -ring -linarith -lia -order [foldl_safe, foldl_fst_safe, SafeOut, regWord_safe, count_safe]

theorem execPsad_safe (x : Ctl) (m : IMod) (o : Slots) {s : State} (hs : s.safe = true) :
    SafeOut (execPsad x m o s) := by
  unfold execPsad
  grind -ring -linarith -lia -order [SafeOut, reduceWord_safe]

theorem execPdot_safe (x : Ctl) (m : IMod) (o : Slots) {s : State} (hs : s.safe = true) :
    SafeOut (execPdot x m o s) := by
  unfold execPdot
  grind -ring -linarith -lia -order [SafeOut, reduceWord_safe]

theorem execPcmp_safe (x : Ctl) (m : CMod) (o : Slots) {s : State} (hs : s.safe = true) :
    SafeOut (execPcmp x m o s) := by
  unfold execPcmp
  grind -ring -linarith -lia -order [SafeOut, cmpWord_safe]

theorem execPshl_safe (x : Ctl) (m : IMod) (o : Slots) {s : State} (hs : s.safe = true) :
    SafeOut (execPshl x m o s) := by
  unfold execPshl
  grind -ring -linarith -lia -order [SafeOut, bitWord_safe]

theorem execPshr_safe (x : Ctl) (m : IMod) (o : Slots) {s : State} (hs : s.safe = true) :
    SafeOut (execPshr x m o s) := by
  unfold execPshr
  grind -ring -linarith -lia -order [SafeOut, bitWord_safe]

/-! ## FloatOps -/

theorem sumWord_safe (x : Ctl) (m : FMod) (o : Slots) (f : FVal → FVal) {s0 : State} (hs : s0.safe = true) :
    SafeOut (sumWord x m o f s0) := by
  unfold sumWord
  grind -ring -linarith -lia -order [SafeOut, fltWord_safe]

theorem execFadd_safe (x : Ctl) (m : FMod) (o : Slots) {s : State} (hs : s.safe = true) :
    SafeOut (execFadd x m o s) := by
  unfold execFadd
  grind -ring -linarith -lia -order [SafeOut, sumWord_safe]

theorem execFsub_safe (x : Ctl) (m : FMod) (o : Slots) {s : State} (hs : s.safe = true) :
    SafeOut (execFsub x m o s) := by
  unfold execFsub
  grind -ring -linarith -lia -order [SafeOut, sumWord_safe]

theorem execFmul_safe (x : Ctl) (m : FMod) (o : Slots) {s : State} (hs : s.safe = true) :
    SafeOut (execFmul x m o s) := by
  unfold execFmul
  grind -ring -linarith -lia -order [SafeOut, fltWord_safe]

theorem execFma_safe (x : Ctl) (m : FMod) (o : Slots) {s : State} (hs : s.safe = true) :
    SafeOut (execFma x m o s) := by
  unfold execFma
  grind -ring -linarith -lia -order [SafeOut, fltWord_safe]

theorem plainF_safe (x : Ctl) (m : FMod) (o : Slots) (srcs : List Spec) (f : Nat → Nat → Nat × Flags) {s0 : State}
    (hs : s0.safe = true) :
    SafeOut (plainF x m o srcs f s0) := by
  unfold plainF
  grind -ring -linarith -lia -order [SafeOut, regWord_safe, count_safe]

theorem execFmin_safe (x : Ctl) (m : FMod) (o : Slots) {s : State} (hs : s.safe = true) :
    SafeOut (execFmin x m o s) := by
  unfold execFmin
  grind -ring -linarith -lia -order [SafeOut, plainF_safe]

theorem execFmax_safe (x : Ctl) (m : FMod) (o : Slots) {s : State} (hs : s.safe = true) :
    SafeOut (execFmax x m o s) := by
  unfold execFmax
  grind -ring -linarith -lia -order [SafeOut, plainF_safe]

theorem execFabs_safe (x : Ctl) (m : FMod) (o : Slots) {s : State} (hs : s.safe = true) :
    SafeOut (execFabs x m o s) := by
  unfold execFabs
  grind -ring -linarith -lia -order [SafeOut, plainF_safe]

theorem execFneg_safe (x : Ctl) (m : FMod) (o : Slots) {s : State} (hs : s.safe = true) :
    SafeOut (execFneg x m o s) := by
  unfold execFneg
  grind -ring -linarith -lia -order [SafeOut, plainF_safe]

theorem execFcmp_safe (x : Ctl) (m : FCMod) (o : Slots) {s : State} (hs : s.safe = true) :
    SafeOut (execFcmp x m o s) := by
  unfold execFcmp
  grind -ring -linarith -lia -order [SafeOut, regWord_safe, count_safe]

theorem execFclass_safe (x : Ctl) (m : FMod) (o : Slots) {s : State} (hs : s.safe = true) :
    SafeOut (execFclass x m o s) := by
  unfold execFclass
  grind -ring -linarith -lia -order [SafeOut, plainF_safe]

theorem execFdot2_safe (x : Ctl) (m : FMod) (o : Slots) {s : State} (hs : s.safe = true) :
    SafeOut (execFdot2 x m o s) := by
  unfold execFdot2
  grind -ring -linarith -lia -order [SafeOut, regWord_safe]

theorem execFscale_safe (x : Ctl) (m : FMod) (o : Slots) {s : State} (hs : s.safe = true) :
    SafeOut (execFscale x m o s) := by
  unfold execFscale
  grind -ring -linarith -lia -order [SafeOut, fltWord_safe]

/-! ## SpecialFns -/

theorem roundedFn_safe (x : Ctl) (m : FMod) (o : Slots) (f : FVal → Nat → Nat × Flags) {s0 : State}
    (hs : s0.safe = true) :
    SafeOut (roundedFn x m o f s0) := by
  unfold roundedFn
  grind -ring -linarith -lia -order [SafeOut, fltWord_safe]

theorem execFrcp_safe (x : Ctl) (m : FMod) (o : Slots) {s : State} (hs : s.safe = true) :
    SafeOut (execFrcp x m o s) := by
  unfold execFrcp
  grind -ring -linarith -lia -order [SafeOut, roundedFn_safe]

theorem execFsqrt_safe (x : Ctl) (m : FMod) (o : Slots) {s : State} (hs : s.safe = true) :
    SafeOut (execFsqrt x m o s) := by
  unfold execFsqrt
  grind -ring -linarith -lia -order [SafeOut, roundedFn_safe]

theorem execFrsq_safe (x : Ctl) (m : FMod) (o : Slots) {s : State} (hs : s.safe = true) :
    SafeOut (execFrsq x m o s) := by
  unfold execFrsq
  grind -ring -linarith -lia -order [SafeOut, roundedFn_safe]

theorem execFdiv_safe (x : Ctl) (m : FMod) (o : Slots) {s : State} (hs : s.safe = true) :
    SafeOut (execFdiv x m o s) := by
  unfold execFdiv
  grind -ring -linarith -lia -order [SafeOut, fltWord_safe]

theorem freeFn_safe (tag : Nat) (x : Ctl) (m : FMod) (o : Slots) (f : FVal → Nat → Nat × Flags) {s0 : State}
    (hs : s0.safe = true) :
    SafeOut (freeFn tag x m o f s0) := by
  unfold freeFn
  grind -ring -linarith -lia -order [SafeOut, plainF_safe]

theorem execFexp2_safe (x : Ctl) (m : FMod) (o : Slots) {s : State} (hs : s.safe = true) :
    SafeOut (execFexp2 x m o s) := by
  unfold execFexp2
  grind -ring -linarith -lia -order [SafeOut, freeFn_safe]

theorem execFlog2_safe (x : Ctl) (m : FMod) (o : Slots) {s : State} (hs : s.safe = true) :
    SafeOut (execFlog2 x m o s) := by
  unfold execFlog2
  grind -ring -linarith -lia -order [SafeOut, freeFn_safe]

theorem execFsin_safe (x : Ctl) (m : FMod) (o : Slots) {s : State} (hs : s.safe = true) :
    SafeOut (execFsin x m o s) := by
  unfold execFsin
  grind -ring -linarith -lia -order [SafeOut, freeFn_safe]

theorem execFcos_safe (x : Ctl) (m : FMod) (o : Slots) {s : State} (hs : s.safe = true) :
    SafeOut (execFcos x m o s) := by
  unfold execFcos
  grind -ring -linarith -lia -order [SafeOut, freeFn_safe]

theorem execFtanh_safe (x : Ctl) (m : FMod) (o : Slots) {s : State} (hs : s.safe = true) :
    SafeOut (execFtanh x m o s) := by
  unfold execFtanh
  grind -ring -linarith -lia -order [SafeOut, freeFn_safe]

/-! ## Convert -/

theorem execCvt_safe (x : Ctl) (m : CvtMod) (o : Slots) {s : State} (hs : s.safe = true) :
    SafeOut (execCvt x m o s) := by
  unfold execCvt
  grind -ring -linarith -lia -order [SafeOut, count_safe, regWord_safe]

theorem moveWord_safe (x : Ctl) (m : IMod) (o : Slots) (ty : OTys) (f : Word → Word → Nat → Nat) {s0 : State}
    (hs : s0.safe = true) :
    SafeOut (moveWord x m o ty f s0) := by
  unfold moveWord
  grind -ring -linarith -lia -order [SafeOut, regWord_safe]

theorem execPack_safe (x : Ctl) (m : IMod) (o : Slots) {s : State} (hs : s.safe = true) :
    SafeOut (execPack x m o s) := by
  unfold execPack
  grind -ring -linarith -lia -order [SafeOut, count_safe, moveWord_safe]

theorem execUnpack_safe (x : Ctl) (m : IMod) (o : Slots) {s : State} (hs : s.safe = true) :
    SafeOut (execUnpack x m o s) := by
  unfold execUnpack
  grind -ring -linarith -lia -order [SafeOut, count_safe, moveWord_safe]

theorem execSwz_safe (x : Ctl) (m : IMod) (o : Slots) {s : State} (hs : s.safe = true) :
    SafeOut (execSwz x m o s) := by
  unfold execSwz
  grind -ring -linarith -lia -order [SafeOut, moveWord_safe, count_safe]

/-! ## CrossThread -/

theorem crossWord_safe (x : Ctl) (ty : OTys) (srcs : List Spec) (o : Slots) (msk : Opnds → Nat → Mask)
    (reads : Warp → Opnds → Nat → Mask) (f : Warp → Opnds → Nat → Word × Flags) {s0 : State} (hs : s0.safe = true) :
    SafeOut (crossWord x ty srcs o msk reads f s0) := by
  unfold crossWord
  grind -ring -linarith -lia -order [SafeOut, regWord_safe]

theorem execShfl_safe (x : Ctl) (m : ShMod) (o : Slots) {s : State} (hs : s.safe = true) :
    SafeOut (execShfl x m o s) := by
  unfold execShfl
  grind -ring -linarith -lia -order [SafeOut, count_safe, crossWord_safe]

theorem execBcast_safe (x : Ctl) (m : IMod) (o : Slots) {s : State} (hs : s.safe = true) :
    SafeOut (execBcast x m o s) := by
  unfold execBcast
  grind -ring -linarith -lia -order [SafeOut, count_safe, crossWord_safe]

theorem reduceOver_safe (x : Ctl) (m : YMod) (o : Slots) (covers : Nat → Nat → Bool) {s0 : State}
    (hs : s0.safe = true) :
    SafeOut (reduceOver x m o covers s0) := by
  unfold reduceOver
  grind -ring -linarith -lia -order [SafeOut, crossWord_safe, count_safe]

theorem execWred_safe (x : Ctl) (m : YMod) (o : Slots) {s : State} (hs : s.safe = true) :
    SafeOut (execWred x m o s) := by
  unfold execWred
  grind -ring -linarith -lia -order [SafeOut, reduceOver_safe]

theorem execWscan_safe (x : Ctl) (m : YMod) (o : Slots) {s : State} (hs : s.safe = true) :
    SafeOut (execWscan x m o s) := by
  unfold execWscan
  grind -ring -linarith -lia -order [SafeOut, reduceOver_safe]

theorem execVote_safe (x : Ctl) (m : VOp) (o : Slots) {s : State} (hs : s.safe = true) :
    SafeOut (execVote x m o s) := by
  unfold execVote
  grind -ring -linarith -lia -order [SafeOut, crossWord_safe]

theorem execMatch_safe (x : Ctl) (o : Slots) {s : State} (hs : s.safe = true) :
    SafeOut (execMatch x o s) := by
  unfold execMatch
  grind -ring -linarith -lia -order [SafeOut, crossWord_safe]

theorem execWset_safe (x : Ctl) (o : Slots) {s : State} (hs : s.safe = true) :
    SafeOut (execWset x o s) := by
  unfold execWset
  grind -ring -linarith -lia -order [SafeOut, regWord_safe]

theorem execFirst_safe (x : Ctl) (o : Slots) {s : State} (hs : s.safe = true) :
    SafeOut (execFirst x o s) := by
  unfold execFirst
  grind -ring -linarith -lia -order [SafeOut, regWord_safe]

theorem execPset_safe (x : Ctl) (o : Slots) {s : State} (hs : s.safe = true) :
    SafeOut (execPset x o s) := by
  unfold execPset
  grind -ring -linarith -lia -order [SafeOut, regWord_safe]

theorem execPlop_safe (x : Ctl) (m : PLogic) (inv : Bool) (o : Slots) {s : State} (hs : s.safe = true) :
    SafeOut (execPlop x m inv o s) := by
  unfold execPlop
  grind -ring -linarith -lia -order [SafeOut, regWord_safe]

theorem execPmov_safe (x : Ctl) (o : Slots) {s : State} (hs : s.safe = true) :
    SafeOut (execPmov x o s) := by
  unfold execPmov
  grind -ring -linarith -lia -order [foldl_safe, foldl_fst_safe, SafeOut, regWord_safe]

theorem execPmovScatter_safe (x : Ctl) (o : Slots) {s : State} (hs : s.safe = true) :
    SafeOut (execPmovScatter x o s) := by
  unfold execPmovScatter
  grind -ring -linarith -lia -order [foldl_safe, foldl_fst_safe, SafeOut, regWord_safe]

/-! ## LoadStore -/

theorem ldAccess_safe (m : MMod) (tx : Bool) (h : Hint) :
    KeepsAccess (ldAccess m tx h) := by
  unfold ldAccess
  intro s k p t hs
  grind -ring -linarith -lia -order [KeepsAccess, KeepsPush, load_safe, window_safe]

theorem stAccess_safe (m : MMod) (h : Hint) :
    KeepsAccess (stAccess m h) := by
  unfold stAccess
  intro s k p t hs
  grind -ring -linarith -lia -order [KeepsAccess, KeepsPush, store_safe, window_safe]

theorem planLd_safe (x : Ctl) (m : MMod) (o : Slots) :
    KeepsAccess (planLd x m o).access := by
  unfold planLd
  intro s k p t hs
  grind -ring -linarith -lia -order [KeepsAccess, KeepsPush, ldAccess_safe]

theorem planSt_safe (x : Ctl) (m : MMod) :
    KeepsAccess (planSt x m).access := by
  unfold planSt
  intro s k p t hs
  grind -ring -linarith -lia -order [KeepsAccess, KeepsPush, stAccess_safe]

theorem planLdu_safe (x : Ctl) (m : MMod) (o : Slots) :
    KeepsAccess (planLdu x m o).access := by
  unfold planLdu
  intro s k p t hs
  grind -ring -linarith -lia -order [KeepsAccess, KeepsPush, ldAccess_safe]

theorem planStu_safe (x : Ctl) (m : MMod) :
    KeepsAccess (planStu x m).access := by
  unfold planStu
  intro s k p t hs
  grind -ring -linarith -lia -order [KeepsAccess, KeepsPush, stAccess_safe]

theorem execLd_safe (x : Ctl) (m : MMod) (o : Slots) {s : State} (hs : s.safe = true) :
    SafeOut (execLd x m o s) := by
  unfold execLd
  grind -ring -linarith -lia -order [SafeOut, memWord_safe, planLd_safe]

theorem execSt_safe (x : Ctl) (m : MMod) (o : Slots) {s : State} (hs : s.safe = true) :
    SafeOut (execSt x m o s) := by
  unfold execSt
  grind -ring -linarith -lia -order [SafeOut, memWord_safe, planSt_safe]

theorem execLdu_safe (x : Ctl) (m : MMod) (o : Slots) {s : State} (hs : s.safe = true) :
    SafeOut (execLdu x m o s) := by
  unfold execLdu
  grind -ring -linarith -lia -order [SafeOut, memWord_safe, planLdu_safe]

theorem execStu_safe (x : Ctl) (m : MMod) (o : Slots) {s : State} (hs : s.safe = true) :
    SafeOut (execStu x m o s) := by
  unfold execStu
  grind -ring -linarith -lia -order [SafeOut, memWord_safe, planStu_safe]

theorem ldmAccess_safe (x : Ctl) (m : MMod) (o : Slots) :
    KeepsAccess (ldmAccess x m o) := by
  unfold ldmAccess
  intro s k p t hs
  grind -ring -linarith -lia -order [foldl_safe, foldl_fst_safe, KeepsAccess, KeepsPush, load_safe, window_safe,
    putWarp_safe]

theorem planLdm_safe (x : Ctl) (m : MMod) (o : Slots) :
    KeepsAccess (planLdm x m o).access := by
  unfold planLdm
  intro s k p t hs
  grind -ring -linarith -lia -order [KeepsAccess, KeepsPush, ldmAccess_safe]

theorem execLdm_safe (x : Ctl) (m : MMod) (o : Slots) {s : State} (hs : s.safe = true) :
    SafeOut (execLdm x m o s) := by
  unfold execLdm
  grind -ring -linarith -lia -order [SafeOut, memWord_safe, planLdm_safe]

theorem execLdh_safe (x : Ctl) (m : HMod) (o : Slots) {s : State} (hs : s.safe = true) :
    SafeOut (execLdh x m o s) := by
  unfold execLdh
  grind -ring -linarith -lia -order [foldl_safe, foldl_fst_safe, SafeOut, threadWord_safe, loadG_safe, window_safe,
    translateRun_safe, putWarp_safe, finish_safe]

theorem chkAccess_safe (x : Ctl) (m : HMod) :
    KeepsAccess (chkAccess x m) := by
  unfold chkAccess
  intro s k p t hs
  grind -ring -linarith -lia -order [KeepsAccess, KeepsPush, load_safe, window_safe]

theorem planChk_safe (x : Ctl) (m : HMod) (o : Slots) :
    KeepsAccess (planChk x m o).access := by
  unfold planChk
  intro s k p t hs
  grind -ring -linarith -lia -order [KeepsAccess, KeepsPush, chkAccess_safe]

theorem execChk_safe (x : Ctl) (m : HMod) (o : Slots) {s : State} (hs : s.safe = true) :
    SafeOut (execChk x m o s) := by
  unfold execChk
  grind -ring -linarith -lia -order [safe_mk_iff, safe_mem, safe_ctl, SafeOut, putWarp_safe, seqAct_safe,
    memWord_safe, planChk_safe]

theorem execPref_safe (x : Ctl) (_llc : Bool) (off : BitVec 32) (o : Slots) {s : State} (hs : s.safe = true) :
    SafeOut (execPref x _llc off o s) := by
  unfold execPref
  grind -ring -linarith -lia -order [foldl_safe, foldl_fst_safe, SafeOut, threadWord_safe, translate_safe,
    touchHome_safe, finish_safe]

theorem locqAccess_safe   :
    KeepsAccess (locqAccess ) := by
  unfold locqAccess
  intro s k p t hs
  grind -ring -linarith -lia -order [KeepsAccess, KeepsPush, translate_safe]

theorem planLocq_safe (o : Slots) :
    KeepsAccess (planLocq o).access := by
  unfold planLocq
  intro s k p t hs
  grind -ring -linarith -lia -order [KeepsAccess, KeepsPush, locqAccess_safe]

theorem execLocq_safe (x : Ctl) (o : Slots) {s : State} (hs : s.safe = true) :
    SafeOut (execLocq x o s) := by
  unfold execLocq
  grind -ring -linarith -lia -order [SafeOut, memWord_safe, planLocq_safe]

theorem dropViews_safe {s : State} (line : Nat) (hs : s.safe = true) :
    (State.dropViews s line).safe = true := by
  unfold State.dropViews
  grind -ring -linarith -lia -order [safe_mk_iff, safe_mem, safe_ctl]

theorem publishLine_safe {s : State} (core : Nat) (va : Word) (h : Hint) (a : Nat) (hs : s.safe = true) :
    (State.publishLine s core va h a).safe = true := by
  unfold State.publishLine
  grind -ring -linarith -lia -order [llcTouch_safe, publish_safe]

theorem execDcf_safe (x : Ctl) (o : Slots) {s : State} (hs : s.safe = true) :
    SafeOut (execDcf x o s) := by
  unfold execDcf
  refine splitWord_safe _ _ _ _ _ (fun s k p T v hs => ?_) hs
  grind -ring -linarith -lia -order [foldl_safe, foldl_fst_safe, SafeOut, splitWord_safe, translate_safe,
    publishLine_safe, dropViews_safe, lastUse_safe, seqAct_safe]

theorem cflushAccess_safe (h : Hint) (op : FlushOp) (off : BitVec 32) :
    KeepsAccess (cflushAccess h op off) := by
  unfold cflushAccess
  intro s k p t hs
  grind -ring -linarith -lia -order [KeepsAccess, KeepsPush, translateRun_safe, publishLine_safe, dropCleanLine_safe,
    touchHome_safe, lastUse_safe]

theorem planCflush_safe (h : Hint) (op : FlushOp) (off : BitVec 32) :
    KeepsAccess (planCflush h op off).access := by
  unfold planCflush
  intro s k p t hs
  grind -ring -linarith -lia -order [KeepsAccess, KeepsPush, cflushAccess_safe]

theorem execCflush_safe (x : Ctl) (op : FlushOp) (off : BitVec 32) (o : Slots) {s : State} (hs : s.safe = true) :
    SafeOut (execCflush x op off o s) := by
  unfold execCflush
  grind -ring -linarith -lia -order [SafeOut, memWord_safe, planCflush_safe]

/-! ## Atomics -/

theorem atomicPeer_safe {s : State} (t : Nat) (keys : List Nat) (m : AMod) (c : Word) (d : Word) (va : Word)
    (hs : s.safe = true) :
    (State.atomicPeer s t keys m c d va).1.safe = true := by
  unfold State.atomicPeer
  grind -ring -linarith -lia -order [peerAsk_safe]

theorem atomHome_safe {s0 : State} (core : Nat) (keys : List Nat) (m : AMod) (c : Word) (d : Word)
    (hs : s0.safe = true) :
    (State.atomHome s0 core keys m c d).1.safe = true := by
  unfold State.atomHome
  grind -ring -linarith -lia -order [applyReds_safe, homeWrite_safe, dropHoists_safe]

theorem acceptRed_safe {s : State} (k : Nat) (t : Nat) (keys : List Nat) (m : AMod) (c : Word) (hs : s.safe = true) :
    (State.acceptRed s k t keys m c).safe = true := by
  unfold State.acceptRed
  grind -ring -linarith -lia -order [safe_mk_iff, safe_mem, safe_ctl]

theorem atomic_safe {s : State} (k : Nat) (t : Nat) (red : Bool) (h : Hint) (m : AMod) (b : Word) (c : Word)
    (d : Word) (hs : s.safe = true) :
    (State.atomic s k t red h m b c d).1.safe = true := by
  unfold State.atomic
  grind -ring -linarith -lia -order [putLive_safe, translateRun_safe, atomicPeer_safe, atHome_safe, touchHome_safe,
    acceptRed_safe, lastUse_safe, atomHome_safe]

theorem outsideTxn_safe (f : Access) (hp : KeepsAccess f) :
    KeepsAccess (outsideTxn f) := by
  unfold outsideTxn
  intro s k p t hs
  grind -ring -linarith -lia -order [KeepsAccess, KeepsPush, abortTxn_safe]

theorem atomAccess_safe (h : Hint) (m : AMod) :
    KeepsAccess (atomAccess h m) := by
  unfold atomAccess
  intro s k p t hs
  grind -ring -linarith -lia -order [KeepsAccess, KeepsPush, outsideTxn_safe, release_safe, atomic_safe, acquire_safe]

theorem redAccess_safe (h : Hint) (m : AMod) :
    KeepsAccess (redAccess h m) := by
  unfold redAccess
  intro s k p t hs
  grind -ring -linarith -lia -order [KeepsAccess, KeepsPush, outsideTxn_safe, atomic_safe]

theorem planAtom_safe (x : Ctl) (m : AMod) (o : Slots) :
    KeepsAccess (planAtom x m o).access := by
  unfold planAtom
  intro s k p t hs
  grind -ring -linarith -lia -order [KeepsAccess, KeepsPush, atomAccess_safe]

theorem planRed_safe (x : Ctl) (m : AMod) :
    KeepsAccess (planRed x m).access := by
  unfold planRed
  intro s k p t hs
  grind -ring -linarith -lia -order [KeepsAccess, KeepsPush, redAccess_safe]

theorem execAtom_safe (x : Ctl) (m : AMod) (o : Slots) {s : State} (hs : s.safe = true) :
    SafeOut (execAtom x m o s) := by
  unfold execAtom
  grind -ring -linarith -lia -order [SafeOut, memWord_safe, planAtom_safe]

theorem execAtomc_safe (x : Ctl) (m : AMod) (o : Slots) {s : State} (hs : s.safe = true) :
    SafeOut (execAtomc x m o s) := by
  unfold execAtomc
  grind -ring -linarith -lia -order [SafeOut, memWord_safe, planAtom_safe]

theorem execRed_safe (x : Ctl) (m : AMod) (o : Slots) {s : State} (hs : s.safe = true) :
    SafeOut (execRed x m o s) := by
  unfold execRed
  grind -ring -linarith -lia -order [SafeOut, memWord_safe, planRed_safe]

theorem xstAccess_safe (m : XMod) :
    KeepsAccess (xstAccess m) := by
  unfold xstAccess
  refine outsideTxn_safe _ (fun s k p t hs => ?_)
  grind -ring -linarith -lia -order [safe_mk_iff, safe_mem, safe_ctl, KeepsAccess, KeepsPush, outsideTxn_safe,
    putBlock_safe]

theorem planXst_safe (m : XMod) :
    KeepsAccess (planXst m).access := by
  unfold planXst
  intro s k p t hs
  grind -ring -linarith -lia -order [KeepsAccess, KeepsPush, xstAccess_safe]

theorem execXst_safe (x : Ctl) (m : XMod) (o : Slots) {s : State} (hs : s.safe = true) :
    SafeOut (execXst x m o s) := by
  unfold execXst
  grind -ring -linarith -lia -order [safe_mk_iff, safe_mem, safe_ctl, SafeOut, putWarp_safe, memWord_safe, planXst_safe]

theorem execXstReceiverResident_safe (r : Ref) {s : State} (hs : s.safe = true) :
    SafeOut (execXstReceiverResident r s) := by
  unfold execXstReceiverResident
  repeat' split
  all_goals grind -ring -linarith -lia -order [safe_mk_iff, safe_mem, safe_ctl, SafeOut, putWarp_safe, perform_safe,
    planXst_safe]

/-! ## Arrival -/

theorem signal_safe {s : State} (blk : Nat) (off : Nat) (n : Nat) (errs : Nat) (hs : s.safe = true) :
    (State.signal s blk off n errs).safe = true := by
  unfold State.signal
  grind -ring -linarith -lia -order [safe_mk_iff, safe_mem, safe_ctl, putLive_safe]

theorem markErr_safe {s : State} (blk : Nat) (off : Nat) (errs : Nat) (hs : s.safe = true) :
    (State.markErr s blk off errs).safe = true := by
  unfold State.markErr
  grind -ring -linarith -lia -order [safe_mk_iff, safe_mem, safe_ctl, putLive_safe]

theorem arrvAccess_safe (op : ArrvOp) :
    KeepsAccess (arrvAccess op) := by
  unfold arrvAccess
  intro s k p t hs
  grind -ring -linarith -lia -order [safe_mk_iff, safe_mem, safe_ctl, KeepsAccess, KeepsPush, outsideTxn_safe,
    signal_safe, release_safe, putLive_safe]

theorem planArrv_safe (op : ArrvOp) (o : Slots) :
    KeepsAccess (planArrv op o).access := by
  unfold planArrv
  intro s k p t hs
  grind -ring -linarith -lia -order [KeepsAccess, KeepsPush, arrvAccess_safe]

theorem execArrv_safe (x : Ctl) (op : ArrvOp) (o : Slots) {s : State} (hs : s.safe = true) :
    SafeOut (execArrv x op o s) := by
  unfold execArrv
  grind -ring -linarith -lia -order [SafeOut, memWord_safe, planArrv_safe]

theorem awaitDone_safe {s : State} (k : Nat) (pid : Nat) (x : Ctl) (o : Slots) (T : Mask) (a : Arr)
    (hs : s.safe = true) :
    (State.awaitDone s k pid x o T a).safe = true := by
  unfold State.awaitDone
  grind -ring -linarith -lia -order [putWarp_safe, finish_safe]

theorem awaitEval_safe {s : State} (k : Nat) (pid : Nat) (x : Ctl) (o : Slots) (pend : Pend) (hs : s.safe = true) :
    (State.awaitEval s k pid x o pend).safe = true := by
  unfold State.awaitEval
  grind -ring -linarith -lia -order [safe_mk_iff, safe_mem, safe_ctl, takeTrap_safe, awaitDone_safe, putWarp_safe]

theorem execAwait_safe (x : Ctl) (o : Slots) {s : State} (hs : s.safe = true) :
    SafeOut (execAwait x o s) := by
  unfold execAwait
  refine splitWord_safe _ _ _ _ _ (fun s k p T v hs => ?_) hs
  grind -ring -linarith -lia -order [SafeOut, splitWord_safe, illegalOp_safe, seqAct_safe, awaitEval_safe]

/-! ## Sync -/

theorem boundary_safe {s : State} (k : Nat) (m : SMod) (hs : s.safe = true) :
    (State.boundary s k m).safe = true := by
  unfold State.boundary
  grind -ring -linarith -lia -order [release_safe, acquire_safe]

theorem execPhase_safe (x : Ctl) (m : SMod) (o : Slots) {s : State} (hs : s.safe = true) :
    SafeOut (execPhase x m o s) := by
  unfold execPhase
  refine splitWord_safe _ _ _ _ _ (fun s k p T v hs => ?_) hs
  grind -ring -linarith -lia -order [SafeOut, splitWord_safe, illegalOp_safe, boundary_safe, seqAct_safe]

theorem execFence_safe (x : Ctl) (m : SMod) (o : Slots) {s : State} (hs : s.safe = true) :
    SafeOut (execFence x m o s) := by
  unfold execFence
  refine splitWord_safe _ _ _ _ _ (fun s k p T v hs => ?_) hs
  grind -ring -linarith -lia -order [SafeOut, splitWord_safe, illegalOp_safe, boundary_safe, seqAct_safe]

theorem stopSplit_safe {s : State} (k : Nat) (pid : Nat) (st : Stop) (hs : s.safe = true) :
    (State.stopSplit s k pid st).safe = true := by
  unfold State.stopSplit
  grind -ring -linarith -lia -order [safe_mk_iff, safe_mem, safe_ctl, putWarp_safe]

theorem barPoll_safe {s0 : State} (k : Nat) (pid : Nat) (id : Nat) (gen : Nat) (hold : Bool) (pend : Pend) (x : Ctl)
    (op : BarOp) (hs : s0.safe = true) :
    (State.barPoll s0 k pid id gen hold pend x op).safe = true := by
  unfold State.barPoll
  grind -ring -linarith -lia -order [barUpdate_safe, stopSplit_safe, seqAct_safe, acquire_safe]

theorem execBar_safe (x : Ctl) (op : BarOp) (o : Slots) {s : State} (hs : s.safe = true) :
    SafeOut (execBar x op o s) := by
  unfold execBar
  refine splitWord_safe _ _ _ _ _ (fun s k p T v hs => ?_) hs
  grind -ring -linarith -lia -order [safe_mk_iff, safe_mem, safe_ctl, SafeOut, splitWord_safe, illegalOp_safe,
    seqAct_safe, takeTrap_safe, barUpdate_safe, want_safe, putBlock_safe, stopSplit_safe, barPoll_safe]

theorem tbarPoll_safe {s0 : State} (k : Nat) (pid : Nat) (lid : Nat) (g : TBar) (gen : Nat) (pend : Pend) (x : Ctl)
    (pass : Bool) (hs : s0.safe = true) :
    (State.tbarPoll s0 k pid lid g gen pend x pass).safe = true := by
  unfold State.tbarPoll
  grind -ring -linarith -lia -order [tbarUpdate_safe, stopSplit_safe, seqAct_safe, acquire_safe]

theorem execTbar_safe (x : Ctl) (pass : Bool) (swap : Bool) (o : Slots) {s : State} (hs : s.safe = true) :
    SafeOut (execTbar x pass swap o s) := by
  unfold execTbar
  refine splitWord_safe _ _ _ _ _ (fun s k p T v hs => ?_) hs
  dsimp only
  repeat' split
  all_goals grind -ring -linarith -lia -order [safe_mk_iff, safe_mem, safe_ctl, SafeOut, splitWord_safe,
    illegalOp_safe, takeTrap_safe, seqAct_safe, putLaunch_safe, putTBar_safe, stopSplit_safe, tbarPoll_safe]

theorem waitDone_safe {s : State} (k : Nat) (pid : Nat) (x : Ctl) (m : WMod) (o : Slots) (pend : Pend) (y : Wait)
    (code : Nat) (hs : s.safe = true) :
    (State.waitDone s k pid x m o pend y code).safe = true := by
  unfold State.waitDone
  grind -ring -linarith -lia -order [safe_mk_iff, safe_mem, safe_ctl, putWarp_safe, acquire_safe, finish_safe]

theorem waitIssue_safe {s : State} (k : Nat) (pid : Nat) (x : Ctl) (m : WMod) (o : Slots) (pend : Pend)
    (hs : s.safe = true) :
    (State.waitIssue s k pid x m o pend).safe = true := by
  unfold State.waitIssue
  grind -ring -linarith -lia -order [safe_mk_iff, safe_mem, safe_ctl, foldl_safe, foldl_fst_safe, translateRun_safe,
    askPeers_safe, applyReds_safe, touchHome_safe, lastUse_safe, post_safe, putWarp_safe, finish_safe, fresh_safe,
    count_safe, waitDone_safe]

theorem execWait_safe (x : Ctl) (m : WMod) (o : Slots) {s : State} (hs : s.safe = true) :
    SafeOut (execWait x m o s) := by
  unfold execWait
  grind -ring -linarith -lia -order [safe_mk_iff, safe_mem, safe_ctl, SafeOut, seqAct_safe, putWarp_safe,
    illegalOp_safe, finish_safe, waitIssue_safe]

theorem execWaitTimeout_safe (id : Nat) {s : State} (hs : s.safe = true) :
    SafeOut (execWaitTimeout id s) := by
  unfold execWaitTimeout
  grind -ring -linarith -lia -order [safe_mk_iff, safe_mem, safe_ctl, SafeOut, markReady_safe]

theorem execWakeUp_safe (id : Nat) {s : State} (hs : s.safe = true) :
    SafeOut (execWakeUp id s) := by
  unfold execWakeUp
  repeat' split
  all_goals grind -ring -linarith -lia -order [safe_mk_iff, safe_mem, safe_ctl, SafeOut, waitDone_safe]

theorem cancelWaits_safe {s : State} (ctx : Nat) (hs : s.safe = true) :
    (State.cancelWaits s ctx).safe = true := by
  unfold State.cancelWaits
  grind -ring -linarith -lia -order [safe_mk_iff, safe_mem, safe_ctl]

theorem applyYield_safe {s : State} (k : Nat) (pid : Nat) (hs : s.safe = true) :
    (State.applyYield s k pid).safe = true := by
  unfold State.applyYield
  grind -ring -linarith -lia -order [safe_mk_iff, safe_mem, safe_ctl, putWarp_safe]

theorem execYield_safe (x : Ctl) (o : Slots) {s : State} (hs : s.safe = true) :
    SafeOut (execYield x o s) := by
  unfold execYield
  refine splitWord_safe _ _ _ _ _ (fun s k p T v hs => ?_) hs
  grind -ring -linarith -lia -order [SafeOut, splitWord_safe, applyYield_safe, seqAct_safe]

theorem execCoalescingWindowClose_safe (core : Nat) (lane : Nat) (slot : Nat) (line : Nat) (store : Bool)
    {s : State} (hs : s.safe = true) :
    SafeOut (execCoalescingWindowClose core lane slot line store s) := by
  unfold execCoalescingWindowClose
  grind -ring -linarith -lia -order [safe_mk_iff, safe_mem, safe_ctl, SafeOut, putWarp_safe]

/-! ## Txns -/

theorem execTxb_safe (x : Ctl) (o : Slots) {s : State} (hs : s.safe = true) :
    SafeOut (execTxb x o s) := by
  unfold execTxb
  grind -ring -linarith -lia -order [foldl_safe, foldl_fst_safe, SafeOut, threadWord_safe, release_safe,
    putWarp_safe, finish_safe]

theorem atReadSet_safe {s : State} (core : Nat) (y : Txn) (hs : s.safe = true) :
    (State.atReadSet s core y).safe = true := by
  unfold State.atReadSet
  grind -ring -linarith -lia -order [foldl_safe, foldl_fst_safe, applyReds_safe, gate_safe, askPeers_safe]

theorem commit_safe {s0 : State} (k : Nat) (t : Nat) (y : Txn) (hs : s0.safe = true) :
    (State.commit s0 k t y).1.safe = true := by
  unfold State.commit
  grind -ring -linarith -lia -order [safe_mk_iff, safe_mem, safe_ctl, foldl_safe, foldl_fst_safe, atReadSet_safe,
    abortTxn_safe, syncWriteAt_safe, dropHoists_safe]

theorem startCommits_safe {s : State} (k : Nat) (T : Mask) (hs : s.safe = true) :
    (State.startCommits s k T).safe = true := by
  unfold State.startCommits
  grind -ring -linarith -lia -order [safe_mk_iff, safe_mem, safe_ctl, putWarp_safe]

theorem txc1_safe (k : Nat) (acc : State × List (Nat × Nat)) (t : Nat) (hs : acc.1.safe = true) :
    (State.txc1 k acc t).1.safe = true := by
  unfold State.txc1
  grind -ring -linarith -lia -order [commit_safe, putWarp_safe]

theorem execTxc_safe (x : Ctl) (o : Slots) {s : State} (hs : s.safe = true) : SafeOut (execTxc x o s) := by
  refine threadWord_safe _ _ _ _ _ (fun s k p T v us hs => ?_) hs
  dsimp only
  generalize hr : List.foldl _ (s.startCommits k T, []) _ = r
  have h1 : r.1.safe = true := by
    rw [← hr]
    exact foldl_fst_safe _ (fun a t ha => txc1_safe k a t ha) _ _ (startCommits_safe _ _ hs)
  grind -ring -linarith -lia -order [putWarp_safe, finish_safe]

theorem execTxa_safe (x : Ctl) (o : Slots) {s : State} (hs : s.safe = true) :
    SafeOut (execTxa x o s) := by
  unfold execTxa
  grind -ring -linarith -lia -order [foldl_safe, foldl_fst_safe, SafeOut, threadWord_safe, putWarp_safe, finish_safe]

theorem execTxs_safe (x : Ctl) (o : Slots) {s : State} (hs : s.safe = true) :
    SafeOut (execTxs x o s) := by
  unfold execTxs
  grind -ring -linarith -lia -order [SafeOut, regWord_safe]

/-! ## CtlRegs -/

theorem dropTranslations_safe {s : State} (hs : s.safe = true) :
    (State.dropTranslations s).safe = true := by
  unfold State.dropTranslations
  grind -ring -linarith -lia -order [safe_mk_iff, safe_mem, safe_ctl]

theorem emptyReplicas_safe {s : State} (hs : s.safe = true) :
    (State.emptyReplicas s).safe = true := by
  unfold State.emptyReplicas
  grind -ring -linarith -lia -order [safe_mk_iff, safe_mem, safe_ctl, foldl_safe, foldl_fst_safe, drain_safe]

theorem ringrateOf_legal {v : Word} (h : v.toNat < 2 ^ 17) :
    81 ≤ (ringrateOf v).toNat % 65536 ∧ (ringrateOf v).toNat < 2 ^ 17 := by
  unfold ringrateOf
  split
  · rw [BitVec.toNat_ofNat]; omega
  · omega

/-- A control register takes only values that keep the registers legal (R319). -/
theorem write_legal {r : Regs} {c : CtlReg} {v : Word} {b : Bool} (hv : ctlOk c v b = true) (hr : r.legal = true) :
    (r.write c v).legal = true := by
  have hq := fun (h : v.toNat < 2 ^ 17) => ringrateOf_legal h
  simp only [Regs.legal, Bool.and_eq_true, decide_eq_true_eq] at hr
  cases c <;> simp only [ctlOk, Bool.and_eq_true, decide_eq_true_eq] at hv <;>
    simp only [Regs.legal, Regs.write, Bool.and_eq_true, decide_eq_true_eq,
    List.length_set] <;> grind -ring -linarith -lia -order [List.all_eq_true, List.mem_or_eq_of_mem_set]

theorem ctlStore_safe {s : State} {c : CtlReg} {v : Word} {b : Bool} (hv : ctlOk c v b = true) (hs : s.safe = true) :
    (s.ctlStore c v).safe = true := by
  have h1 : (if c = .ptroot then s.dropTranslations else if c = .repways then s.emptyReplicas
      else if c = .fepoch then { s with epoch := s.time } else s).safe = true := by
    have h0 : State.safe { s with epoch := s.time } = true := safe_of_eq hs rfl rfl
    grind -ring -linarith -lia -order [dropTranslations_safe, emptyReplicas_safe]
  have hm := safe_mem h1
  have hc := write_legal hv (safe_ctl h1)
  exact safe_mk (s := s.ctlStore c v) hm hc

/-! ## System -/

theorem trapWord_safe (cause : Nat) (x : Ctl) (code : BitVec 16) (o : Slots) {s : State} (hs : s.safe = true) :
    SafeOut (trapWord cause x code o s) := by
  unfold trapWord
  refine splitWord_safe _ _ _ _ _ (fun s k p T v hs => ?_) hs
  grind -ring -linarith -lia -order [SafeOut, splitWord_safe, takeTrap_safe]

theorem execTrap_safe (x : Ctl) (code : BitVec 16) (o : Slots) {s : State} (hs : s.safe = true) :
    SafeOut (execTrap x code o s) := by
  unfold execTrap
  grind -ring -linarith -lia -order [SafeOut, trapWord_safe]

theorem execSysc_safe (x : Ctl) (code : BitVec 16) (o : Slots) {s : State} (hs : s.safe = true) :
    SafeOut (execSysc x code o s) := by
  unfold execSysc
  grind -ring -linarith -lia -order [SafeOut, trapWord_safe]

theorem execBrk_safe (x : Ctl) (code : BitVec 16) (o : Slots) {s : State} (hs : s.safe = true) :
    SafeOut (execBrk x code o s) := by
  unfold execBrk
  grind -ring -linarith -lia -order [SafeOut, trapWord_safe]

theorem blockHolding_safe {s : State} (core : Nat) (va : Word) (n0 : Nat) (n1 : Nat) (hs : s.safe = true) :
    (State.blockHolding s core va n0 n1).1.safe = true := by
  fun_induction State.blockHolding s core va n0 n1 <;> grind -ring -linarith -lia -order [codeKey_safe, askPeers_safe]

theorem placeAt_safe {s : State} (core : Nat) (w : Warp) (p : Split) (va : Word) (hs : s.safe = true) :
    (State.placeAt s core w p va).1.safe = true := by
  unfold State.placeAt
  grind -ring -linarith -lia -order [safe_mk_iff, safe_mem, safe_ctl, codeKey_safe, blockHolding_safe]

theorem rftErr_safe {s : State} (k : Nat) (w : Warp) (at_ : Split) (i : Instr) (facc : Nat) (e : MemErr)
    (hs : s.safe = true) :
    (State.rftErr s k w at_ i facc e).safe = true := by
  unfold State.rftErr
  grind -ring -linarith -lia -order [safe_mk_iff, safe_mem, safe_ctl, post_safe, putWarp_safe, nested_safe]

theorem rftLeave_safe {s : State} (k : Nat) (w : Warp) (p : Split) (i : Instr) (hs : s.safe = true) :
    (State.rftLeave s k w p i).safe = true := by
  unfold State.rftLeave
  grind -ring -linarith -lia -order [safe_mk_iff, safe_mem, safe_ctl, putWarp_safe, nested_safe]

theorem rft_safe {s : State} (k : Nat) (pid : Nat) (i : Instr) (op : RftOp) (a : Word) (hs : s.safe = true) :
    (State.rft s k pid i op a).safe = true := by
  unfold State.rft
  repeat' split
  all_goals grind -ring -linarith -lia -order [safe_mk_iff, safe_mem, safe_ctl, loadG_safe, rftErr_safe,
    placeAt_safe, putWarp_safe, fetchSlot_safe, seqAct_safe, rftLeave_safe, fetchEntry_safe, settleWarp_safe,
    nested_safe]

theorem execRft_safe (x : Ctl) (op : RftOp) (o : Slots) {s : State} (hs : s.safe = true) :
    SafeOut (execRft x op o s) := by
  unfold execRft
  grind -ring -linarith -lia -order [SafeOut, takeTrap_safe, rft_safe]

theorem execSrd_safe (x : Ctl) (sel : CtlReg) (o : Slots) {s : State} (hs : s.safe = true) :
    SafeOut (execSrd x sel o s) := by
  unfold execSrd
  grind -ring -linarith -lia -order [SafeOut, regWord_safe]

theorem execSwr_safe (x : Ctl) (sel : CtlReg) (o : Slots) {s : State} (hs : s.safe = true) :
    SafeOut (execSwr x sel o s) := by
  unfold execSwr
  refine splitWord_safe _ _ _ _ _ (fun s k p T v hs => ?_) hs
  grind -ring -linarith -lia -order [SafeOut, splitWord_safe, takeTrap_safe, ctlStore_safe, putWarp_safe, seqAct_safe]

theorem rstl_safe {s : State} (k : Nat) (pid : Nat) (i : Instr) (q : Seq) (a : Word) (hs : s.safe = true) :
    (State.rstl s k pid i q a).safe = true := by
  unfold State.rstl
  repeat' split
  all_goals grind -ring -linarith -lia -order [safe_mk_iff, safe_mem, safe_ctl, takeTrap_safe, putWarp_safe,
    seqAct_safe, fetchEntry_safe, post_safe]

theorem execRstl_safe (x : Ctl) (o : Slots) {s : State} (hs : s.safe = true) :
    SafeOut (execRstl x o s) := by
  unfold execRstl
  grind -ring -linarith -lia -order [SafeOut, takeTrap_safe, rstl_safe]

theorem execPerf_safe (x : Ctl) (slice : Bool) (o : Slots) {s : State} (hs : s.safe = true) :
    SafeOut (execPerf x slice o s) := by
  unfold execPerf
  grind -ring -linarith -lia -order [SafeOut, regWord_safe]

theorem execHalt_safe (x : Ctl) (code : BitVec 16) (o : Slots) {s : State} (hs : s.safe = true) :
    SafeOut (execHalt x code o s) := by
  unfold execHalt
  refine splitWord_safe _ _ _ _ _ (fun s k p T v hs => ?_) hs
  grind -ring -linarith -lia -order [safe_mk_iff, safe_mem, safe_ctl, SafeOut, splitWord_safe, post_safe,
    putBlock_safe, putWarp_safe]

theorem execNop_safe (x : Ctl) (o : Slots) {s : State} (hs : s.safe = true) :
    SafeOut (execNop x o s) := by
  unfold execNop
  grind -ring -linarith -lia -order [SafeOut, regWord_safe]

end Sys2Proof.Machine
end

