-- ==== Sys2Proof/Laws/SafeEngines.lean ====
section
/-! SUPPORT. Laws/SafeEngines.lean: launches, the engines and the ring keep a state safe. -/

namespace Sys2Proof.Machine

set_option Elab.async false

/-! ## Launches -/

theorem devRead_safe {s : State} (acc : Acc) (va : Word) (n : Nat) (hs : s.safe = true) :
    (State.devRead s acc va n).1.safe = true := by
  unfold State.devRead
  grind -ring -linarith -lia -order [translateRun_safe, askPeers_safe]

theorem devWrite_safe {s : State} (va : Word) (bs : List Byte) (hs : s.safe = true) :
    (State.devWrite s va bs).1.safe = true := by
  unfold State.devWrite
  grind -ring -linarith -lia -order [translateRun_safe, syncWriteAt_safe]

theorem writeStatus_safe {s : State} (lstat : Word) (code : Nat) (detail : Nat) (hs : s.safe = true) :
    (State.writeStatus s lstat code detail).safe = true := by
  unfold State.writeStatus
  grind -ring -linarith -lia -order [devWrite_safe]

theorem entryHeader_safe {s : State} (va : Word) (stage : Bool) (hs : s.safe = true) :
    (State.entryHeader s va stage).1.safe = true := by
  unfold State.entryHeader
  grind -ring -linarith -lia -order [devRead_safe]

theorem stageHeaders_safe {s : State} (n0 : Nat) (n1 : List Stage) (hs : s.safe = true) :
    (State.stageHeaders s n0 n1).1.safe = true := by
  fun_induction State.stageHeaders s n0 n1 <;> grind -ring -linarith -lia -order [safe_mk_iff, safe_mem, safe_ctl,
    entryHeader_safe]

theorem ite_safe {c : Prop} [Decidable c] {a b : State} (ha : a.safe = true) (hb : b.safe = true) :
    (if c then a else b).safe = true := by
  split <;> assumption

theorem ite_fst_safe {α : Type} {c : Prop} [Decidable c] {a b : State × α} (ha : a.1.safe = true)
    (hb : b.1.safe = true) :
    (if c then a else b).1.safe = true := by
  split <;> assumption

theorem checkRecord_safe {s : State} (addr : Word) (hs : s.safe = true) : (s.checkRecord addr).1.safe = true := by
  unfold State.checkRecord
  refine ite_fst_safe hs ?_
  split
  · grind -ring -linarith -lia -order [devRead_safe]
  · rename_i s1 r hr
    have h1 : s1.safe = true := by grind -ring -linarith -lia -order [devRead_safe]
    extract_lets l nstage lst s2 no tab
    have h2 : lst.1.safe = true := by grind -ring -linarith -lia -order [translateRun_safe]
    have h3 : tab.1.safe = true := by
      have : s2.safe = true := h2
      grind -ring -linarith -lia -order [devRead_safe]
    have hno : ∀ st c d, (no st c d).1 = st := fun _ _ _ => rfl
    clear_value tab no
    clear_value s2
    clear_value lst
    refine ite_fst_safe h2 ?_
    obtain ⟨s3, _ | tb⟩ := tab
    · rw [hno]; exact h3
    · have h4 : s3.safe = true := h3
      have hn : ∀ c d, (no s3 c d).1.safe = true := fun c d => by rw [hno]; exact h4
      dsimp -zeta only
      extract_lets gs bad placed ent
      have h5 : ent.1.safe = true := by
        have := stageHeaders_safe 0 gs h4
        have := entryHeader_safe l.entry false h4
        grind -ring -linarith -lia -order
      clear_value ent
      refine ite_fst_safe (hn _ _) (ite_fst_safe (hn _ _) (ite_fst_safe (hn _ _) (ite_fst_safe (hn _ _) ?_)))
      clear_value placed gs bad
      rcases placed with _ | og
      · exact hn _ _
      · refine ite_fst_safe (hn _ _) ?_
        obtain ⟨s4, i | ⟨hw, hs'⟩⟩ := ent
        · rw [hno]; exact h5
        · dsimp -zeta only
          split
          · rw [hno]; exact h5
          · refine ite_fst_safe ?_ h5
            rw [hno]; exact h5

theorem answerMoved_safe {s : State} (put : Split → Split) (hs : s.safe = true) :
    (State.answerMoved s put).safe = true := by
  unfold State.answerMoved
  grind -ring -linarith -lia -order [safe_mk_iff, safe_mem, safe_ctl]

theorem deliver_safe {s : State} (b : Sub) (code : Nat) (hs : s.safe = true) :
    (State.deliver s b code).safe = true := by
  unfold State.deliver
  repeat' split
  all_goals grind -ring -linarith -lia -order [safe_mk_iff, safe_mem, safe_ctl, syncWrite_safe, putWarp_safe,
    seqAct_safe, answerMoved_safe]

theorem takeEntry_safe {s : State} (hs : s.safe = true) :
    (State.takeEntry s).safe = true := by
  unfold State.takeEntry
  grind -ring -linarith -lia -order [safe_mk_iff, safe_mem, safe_ctl, fresh_safe]

theorem execLaunchQueueDoorbell_safe (q : Fin 8) (tail : Word) {s : State} (hs : s.safe = true) :
    SafeOut (execLaunchQueueDoorbell q tail s) := by
  unfold execLaunchQueueDoorbell
  grind -ring -linarith -lia -order [safe_mk_iff, safe_mem, safe_ctl, SafeOut]

theorem execLaunchAcceptance_safe {s0 : State} (hs : s0.safe = true) :
    SafeOut (execLaunchAcceptance s0) := by
  unfold execLaunchAcceptance
  grind -ring -linarith -lia -order [safe_mk_iff, safe_mem, safe_ctl, SafeOut, takeEntry_safe, checkRecord_safe,
    writeStatus_safe, deliver_safe, fresh_safe, putLaunch_safe]

theorem publishAll_safe {s : State} (lid : Nat) (hs : s.safe = true) :
    (State.publishAll s lid).safe = true := by
  unfold State.publishAll
  grind -ring -linarith -lia -order [foldl_safe, foldl_fst_safe, publish_safe, drain_safe]

theorem releaseEngine_safe {s : State} (c : Nat) (lid : Nat) (hs : s.safe = true) :
    (State.releaseEngine s c lid).safe = true := by
  unfold State.releaseEngine
  grind -ring -linarith -lia -order [safe_mk_iff, safe_mem, safe_ctl, putCore_safe]

theorem removeBlock_safe {s : State} (b : Nat) (hs : s.safe = true) :
    (State.removeBlock s b).safe = true := by
  unfold State.removeBlock
  grind -ring -linarith -lia -order [safe_mk_iff, safe_mem, safe_ctl, foldl_safe, foldl_fst_safe, dropWarp_safe,
    dropBlock_safe, releaseEngine_safe]

theorem endLaunch_safe {s : State} (lid : Nat) (code : Nat) (hs : s.safe = true) :
    (State.endLaunch s lid code).safe = true := by
  unfold State.endLaunch
  grind -ring -linarith -lia -order [safe_mk_iff, safe_mem, safe_ctl, foldl_safe, foldl_fst_safe, removeBlock_safe,
    publishAll_safe, writeStatus_safe, dropLaunch_safe]

theorem dropUnstarted_safe {s : State} (lid : Nat) (code : Nat) (hs : s.safe = true) :
    (State.dropUnstarted s lid code).safe = true := by
  unfold State.dropUnstarted
  grind -ring -linarith -lia -order [writeStatus_safe, dropLaunch_safe]

theorem affinityCore_safe {s : State} (l : Launch) (b : Nat) (hs : s.safe = true) :
    (State.affinityCore s l b).1.safe = true := by
  unfold State.affinityCore
  grind -ring -linarith -lia -order [foldl_safe, foldl_fst_safe, devRead_safe, translateRun_safe]

theorem dispatch_safe {s : State} (l : Launch) (n0 : List Nat) (hs : s.safe = true) :
    (State.dispatch s l n0).1.safe = true := by
  fun_induction State.dispatch s l n0 <;> grind -ring -linarith -lia -order [affinityCore_safe, count_safe]

theorem execGuardRead_safe (lid : Nat) {s : State} (hs : s.safe = true) :
    SafeOut (execGuardRead lid s) := by
  unfold execGuardRead
  grind -ring -linarith -lia -order [safe_mk_iff, safe_mem, safe_ctl, SafeOut, devRead_safe, dropUnstarted_safe,
    dispatch_safe, putLaunch_safe]

theorem startWarps_safe {s : State} (c : Nat) (blk : Nat) (bid : BitVec 32) (l : Launch) (n0 : List Nat)
    (hs : s.safe = true) :
    (State.startWarps s c blk bid l n0).safe = true := by
  fun_induction State.startWarps s c blk bid l n0 <;> grind -ring -linarith -lia -order [putWarp_safe, acquire_safe]

theorem admitBlock_safe {s : State} (lid : Nat) (l : Launch) (b : Nat × Nat) (hs : s.safe = true) :
    (State.admitBlock s lid l b).safe = true := by
  unfold State.admitBlock
  grind -ring -linarith -lia -order [safe_mk_iff, safe_mem, safe_ctl, fresh_safe, putBlock_safe, putCore_safe,
    startWarps_safe]

theorem copyInit_safe {s : State} (g : Stage) (n : Nat) (n0 : List Nat) (hs : s.safe = true) :
    (State.copyInit s g n n0).1.safe = true := by
  fun_induction State.copyInit s g n n0 <;> grind -ring -linarith -lia -order [safe_mk_iff, safe_mem, safe_ctl,
    devRead_safe, devWrite_safe]

theorem startStages_safe {s : State} (lid : Nat) (l : Launch) (hs : s.safe = true) :
    (State.startStages s lid l).1.safe = true := by
  unfold State.startStages
  grind -ring -linarith -lia -order [safe_mk_iff, safe_mem, safe_ctl, devWrite_safe, copyInit_safe, putLaunch_safe]

theorem execBlockAdmission_safe (lid : Nat) (core : Nat) {s : State} (hs : s.safe = true) :
    SafeOut (execBlockAdmission lid core s) := by
  unfold execBlockAdmission
  grind -ring -linarith -lia -order [safe_mk_iff, safe_mem, safe_ctl, foldl_safe, foldl_fst_safe, SafeOut,
    putLaunch_safe, admitBlock_safe, startStages_safe]

theorem execBlockEnd_safe (b : Nat) {s : State} (hs : s.safe = true) :
    SafeOut (execBlockEnd b s) := by
  unfold execBlockEnd
  grind -ring -linarith -lia -order [SafeOut, removeBlock_safe, endLaunch_safe]

theorem execPackerTimeout_safe (lid : Nat) (stage : Nat) {s : State} (hs : s.safe = true) :
    SafeOut (execPackerTimeout lid stage s) := by
  unfold execPackerTimeout
  grind -ring -linarith -lia -order [safe_mk_iff, safe_mem, safe_ctl, foldl_safe, foldl_fst_safe, SafeOut,
    putLaunch_safe]

theorem readItems_safe {s : State} (g : Stage) (n0 : List Nat) (hs : s.safe = true) :
    (State.readItems s g n0).1.safe = true := by
  fun_induction State.readItems s g n0 <;> grind -ring -linarith -lia -order [devRead_safe]

theorem execFormedWarpStart_safe (lid : Nat) (b : Nat) {s : State} (hs : s.safe = true) :
    SafeOut (execFormedWarpStart lid b s) := by
  unfold execFormedWarpStart
  dsimp only
  repeat' split
  all_goals grind -ring -linarith -lia -order [safe_mk_iff, safe_mem, safe_ctl, foldl_safe, foldl_fst_safe, SafeOut,
    readItems_safe, putLaunch_safe, putWarp_safe, acquire_safe]

theorem execTerminationRound_safe (lid : Nat) {s : State} (hs : s.safe = true) :
    SafeOut (execTerminationRound lid s) := by
  unfold execTerminationRound
  grind -ring -linarith -lia -order [safe_mk_iff, safe_mem, safe_ctl, SafeOut, devRead_safe, endLaunch_safe,
    putLaunch_safe]

theorem spawnGo_safe (k lid stage reg : Nat) (h : Hint) (ts : List Nat) (r : SpawnRun) (hs : r.s.safe = true) :
    (spawnGo k lid stage reg h ts r).s.safe = true := by
  fun_induction spawnGo k lid stage reg h ts r <;> grind -ring -linarith -lia -order [putWarp_safe,
    translateRun_safe, syncWriteAt_safe, putLaunch_safe,
    touchHome_safe, lastUse_safe]

theorem spawnRun_safe {s : State} (k pid : Nat) (x : Ctl) (isRec : Bool) (o : Slots) (pend : Pend)
    (hs : s.safe = true) :
    (s.spawnRun k pid x isRec o pend).safe = true := by
  unfold State.spawnRun
  repeat' split
  all_goals grind -ring -linarith -lia -order [finish_safe, spawnGo_safe, post_safe, putWarp_safe, endLaunch_safe]

theorem execSpawn_safe (x : Ctl) (isRec : Bool) (o : Slots) {s : State} (hs : s.safe = true) :
    SafeOut (execSpawn x isRec o s) := by
  unfold execSpawn
  dsimp only
  repeat' split
  all_goals grind -ring -linarith -lia -order [safe_mk_iff, safe_mem, safe_ctl, SafeOut, seqAct_safe, putWarp_safe,
    illegalOp_safe, finish_safe, spawnRun_safe]

theorem execLaunch_safe (x : Ctl) (o : Slots) {s : State} (hs : s.safe = true) :
    SafeOut (execLaunch x o s) := by
  unfold execLaunch
  refine splitWord_safe _ _ _ _ _ (fun s k p T v hs => ?_) hs
  grind -ring -linarith -lia -order [safe_mk_iff, safe_mem, safe_ctl, SafeOut, splitWord_safe, illegalOp_safe,
    seqAct_safe, release_safe, fresh_safe, stopSplit_safe]

/-! ## Engines -/

theorem putCmd_safe {s : State} (c : Cmd) (hs : s.safe = true) :
    (State.putCmd s c).safe = true := by
  unfold State.putCmd
  grind -ring -linarith -lia -order [safe_mk_iff, safe_mem, safe_ctl]

theorem dropCmd_safe {s : State} (i : Nat) (hs : s.safe = true) :
    (State.dropCmd s i).safe = true := by
  unfold State.dropCmd
  grind -ring -linarith -lia -order [safe_mk_iff, safe_mem, safe_ctl]

theorem pushCmd_safe {s : State} (c : Cmd) (hs : s.safe = true) :
    (State.pushCmd s c).safe = true := by
  unfold State.pushCmd
  grind -ring -linarith -lia -order [safe_mk_iff, safe_mem, safe_ctl, fresh_safe]

theorem land_safe {s : State} (c : Cmd) (n : Nat) (hs : s.safe = true) :
    (State.land s c n).1.safe = true := by
  unfold State.land
  grind -ring -linarith -lia -order [safe_mk_iff, safe_mem, safe_ctl, signal_safe]

theorem readerDone_safe {s : State} (c : Cmd) (hs : s.safe = true) :
    (State.readerDone s c).safe = true := by
  unfold State.readerDone
  grind -ring -linarith -lia -order [safe_mk_iff, safe_mem, safe_ctl, putCmd_safe, signal_safe]

theorem postRecord_safe {s : State} (k : Nat) (p : Port) (v : Word) (hs : s.safe = true) :
    (State.postRecord s k p v).safe = true := by
  unfold State.postRecord
  grind -ring -linarith -lia -order [safe_mk_iff, safe_mem, safe_ctl, putWarp_safe]

theorem endCmd_safe {s : State} (c : Cmd) (st : Nat) (n : Nat) (sig : Bool) (hs : s.safe = true) :
    (State.endCmd s c st n sig).safe = true := by
  unfold State.endCmd
  grind -ring -linarith -lia -order [signal_safe, readerDone_safe, dropCmd_safe, postRecord_safe]

theorem engKeys_safe {s : State} (core : Nat) (acc : Acc) (va : Word) (n : Nat) (hs : s.safe = true) :
    (State.engKeys s core acc va n).1.safe = true := by
  unfold State.engKeys
  grind -ring -linarith -lia -order [translateRun_safe]

theorem engRead_safe {s : State} (core : Nat) (va : Word) (n : Nat) (pub : Bool) (h : Hint) (hs : s.safe = true) :
    (State.engRead s core va n pub h).1.safe = true := by
  unfold State.engRead
  grind -ring -linarith -lia -order [foldl_safe, foldl_fst_safe, engKeys_safe, publish_safe, askPeers_safe,
    fillView_safe, touchHome_safe]

theorem engLand_safe {s : State} (core : Nat) (keys : List Nat) (bs : List Byte) (hs : s.safe = true) :
    (State.engLand s core keys bs).safe = true := by
  unfold State.engLand
  grind -ring -linarith -lia -order [foldl_safe, foldl_fst_safe, dropCleanLine_safe, syncWriteAt_safe, endHoists_safe]

theorem engWrite_safe {s : State} (core : Nat) (va : Word) (bs : List Byte) (h : Hint) (hs : s.safe = true) :
    (State.engWrite s core va bs h).1.safe = true := by
  unfold State.engWrite
  grind -ring -linarith -lia -order [engKeys_safe, touchHome_safe, engLand_safe]

theorem putBankBytes_safe {s : State} (core : Nat) (bank : Nat) (off : Nat) (bs : List Byte) (hs : s.safe = true) :
    (State.putBankBytes s core bank off bs).safe = true := by
  unfold State.putBankBytes
  grind -ring -linarith -lia -order [safe_mk_iff, safe_mem, safe_ctl, putCore_safe]

theorem markBank_safe {s : State} (blk : Nat) (hs : s.safe = true) :
    (State.markBank s blk).safe = true := by
  unfold State.markBank
  grind -ring -linarith -lia -order [safe_mk_iff, safe_mem, safe_ctl, putBlock_safe]

theorem engLoad_safe {s : State} (c : Cmd) (sp : Nat) (a : Int) (n : Nat) (pub : Bool) (hs : s.safe = true) :
    (State.engLoad s c sp a n pub).1.safe = true := by
  unfold State.engLoad
  grind -ring -linarith -lia -order [engRead_safe]

theorem engStore_safe {s : State} (c : Cmd) (sp : Nat) (a : Int) (bs : List Byte) (hs : s.safe = true) :
    (State.engStore s c sp a bs).1.safe = true := by
  unfold State.engStore
  grind -ring -linarith -lia -order [engWrite_safe, storeS_safe, putBankBytes_safe, markBank_safe]

theorem engStoreLine_safe {s : State} (c : Cmd) (sp : Nat) (l : List (Nat × Byte)) (hs : s.safe = true) :
    (State.engStoreLine s c sp l).1.safe = true := by
  unfold State.engStoreLine
  grind -ring -linarith -lia -order [foldl_safe, foldl_fst_safe, engKeys_safe, touchHome_safe, engLand_safe,
    engStore_safe]

theorem engStoreRun_safe {s : State} (c : Cmd) (sp : Nat) (n0 : Nat) (n1 : Int) (n2 : List Byte) (n3 : Nat)
    (hs : s.safe = true) :
    (State.engStoreRun s c sp n0 n1 n2 n3).1.safe = true := by
  fun_induction State.engStoreRun s c sp n0 n1 n2 n3 <;> grind -ring -linarith -lia -order [engStore_safe]

theorem engFault_safe {s : State} (c : Cmd) (e : EngErr) (hs : s.safe = true) :
    (State.engFault s c e).safe = true := by
  unfold State.engFault
  grind -ring -linarith -lia -order [safe_mk_iff, safe_mem, safe_ctl, putCmd_safe, post_safe]

theorem publishRange_safe {s : State} (core : Nat) (va : Word) (n : Nat) (hs : s.safe = true) :
    (State.publishRange s core va n).safe = true := by
  unfold State.publishRange
  grind -ring -linarith -lia -order [publish_safe]

theorem pushOne_safe {s : State} (pl : PushPlan) (i : Instr) (c0 : Cmd) (v : Opnds) (t : Nat) (hs : s.safe = true)
    (hp : KeepsPush pl.push) :
    (State.pushOne s pl i c0 v t).safe = true := by
  unfold State.pushOne
  grind -ring -linarith -lia -order [safe_mk_iff, safe_mem, safe_ctl, KeepsAccess, KeepsPush, pushCmd_safe,
    engFault_safe]

theorem pushGo_safe (pl : PushPlan) (k : Nat) (pid : Nat) (q : Seq) (pend : Pend) (n0 : List Nat) (n1 : Nat)
    {s2 : State} (hp : KeepsPush pl.push) (hs : s2.safe = true) :
    (pushGo pl k pid q pend n0 n1 s2).safe = true := by
  fun_induction pushGo pl k pid q pend n0 n1 s2 <;> grind -ring -linarith -lia -order [safe_mk_iff, safe_mem,
    safe_ctl, KeepsAccess, KeepsPush, finish_safe, stopSplit_safe, pushOne_safe]

theorem runPush_safe {s : State} (k : Nat) (pid : Nat) (q : Seq) (pl : PushPlan) (pend : Pend) (hs : s.safe = true)
    (hp : KeepsPush pl.push) :
    (State.runPush s k pid q pl pend).safe = true := by
  unfold State.runPush
  grind -ring -linarith -lia -order [KeepsAccess, KeepsPush, pushGo_safe]

theorem pushWord_safe (i : Instr) (x : Ctl) (srcs : List Spec) (o : Slots) (pl : PushPlan) {s : State}
    (hp : KeepsPush pl.push) (hs : s.safe = true) :
    SafeOut (pushWord i x srcs o pl s) := by
  unfold pushWord
  grind -ring -linarith -lia -order [safe_mk_iff, safe_mem, safe_ctl, SafeOut, KeepsAccess, KeepsPush, seqAct_safe,
    putWarp_safe, illegalOp_safe, finish_safe, runPush_safe]

theorem execQfence_safe (x : Ctl) (qset : BitVec 6) (o : Slots) {s : State} (hs : s.safe = true) :
    SafeOut (execQfence x qset o s) := by
  unfold execQfence
  refine splitWord_safe _ _ _ _ _ (fun s k p T v hs => ?_) hs
  grind -ring -linarith -lia -order [safe_mk_iff, safe_mem, safe_ctl, SafeOut, splitWord_safe, illegalOp_safe,
    seqAct_safe, putWarp_safe]

/-! ## Tiles -/

theorem tileDone_safe {s : State} (c : Cmd) (hs : s.safe = true) :
    (State.tileDone s c).safe = true := by
  unfold State.tileDone
  grind -ring -linarith -lia -order [safe_mk_iff, safe_mem, safe_ctl, putBlock_safe]

theorem pushMatrix_safe {s : State} (c : Cmd) (ev : Option TileEv) (hs : s.safe = true) :
    (State.pushMatrix s c ev).safe = true := by
  unfold State.pushMatrix
  grind -ring -linarith -lia -order [safe_mk_iff, safe_mem, safe_ctl, pushCmd_safe, endCmd_safe, putBlock_safe]

theorem pushWld_safe {s : State} (c0 : Cmd) (wordsOk : Bool) (fmt : Nat) (ck : Nat) (bank : Nat) (off : Word)
    (kw : Option Nat) (hs : s.safe = true) :
    (State.pushWld s c0 wordsOk fmt ck bank off kw).safe = true := by
  unfold State.pushWld
  grind -ring -linarith -lia -order [safe_mk_iff, safe_mem, safe_ctl, pushMatrix_safe]

theorem pushMma_safe {s : State} (c0 : Cmd) (wordsOk : Bool) (sparse : Bool) (fmt : Nat) (stride : Nat) (off : Word)
    (cnt : Option Nat) (mets : List Word) (hs : s.safe = true) :
    (State.pushMma s c0 wordsOk sparse fmt stride off cnt mets).safe = true := by
  unfold State.pushMma
  grind -ring -linarith -lia -order [safe_mk_iff, safe_mem, safe_ctl, pushMatrix_safe]

theorem planWld_safe (m : WldMod) (o : Slots) :
    KeepsPush (planWld m o).push := by
  unfold planWld
  intro s c v t hs
  grind -ring -linarith -lia -order [safe_mk_iff, safe_mem, safe_ctl, KeepsAccess, KeepsPush, pushWld_safe]

theorem planMul_safe (sparse : Bool) (m : MmaMod) (o : Slots) :
    KeepsPush (planMul sparse m o).push := by
  unfold planMul
  intro s c v t hs
  grind -ring -linarith -lia -order [safe_mk_iff, safe_mem, safe_ctl, KeepsAccess, KeepsPush, pushMma_safe]

theorem planAclr_safe (m : AclrMod) :
    KeepsPush (planAclr m).push := by
  unfold planAclr
  intro s c v t hs
  grind -ring -linarith -lia -order [safe_mk_iff, safe_mem, safe_ctl, KeepsAccess, KeepsPush, pushMatrix_safe]

theorem execWld_safe (x : Ctl) (m : WldMod) (o : Slots) {s : State} (hs : s.safe = true) :
    SafeOut (execWld x m o s) := by
  unfold execWld
  grind -ring -linarith -lia -order [SafeOut, pushWord_safe, planWld_safe]

theorem execMma_safe (x : Ctl) (m : MmaMod) (o : Slots) {s : State} (hs : s.safe = true) :
    SafeOut (execMma x m o s) := by
  unfold execMma
  grind -ring -linarith -lia -order [SafeOut, pushWord_safe, planMul_safe]

theorem execMms_safe (x : Ctl) (m : MmaMod) (o : Slots) {s : State} (hs : s.safe = true) :
    SafeOut (execMms x m o s) := by
  unfold execMms
  grind -ring -linarith -lia -order [SafeOut, pushWord_safe, planMul_safe]

theorem execAclr_safe (x : Ctl) (m : AclrMod) (o : Slots) {s : State} (hs : s.safe = true) :
    SafeOut (execAclr x m o s) := by
  unfold execAclr
  grind -ring -linarith -lia -order [SafeOut, pushWord_safe, planAclr_safe]

/-! ## MatrixOps -/

theorem setMatrix_safe {s : State} (core : Nat) (f : Matrix → Matrix) (hs : s.safe = true) :
    (State.setMatrix s core f).safe = true := by
  unfold State.setMatrix
  grind -ring -linarith -lia -order [safe_mk_iff, safe_mem, safe_ctl, putCore_safe]

theorem execWldFillStart_safe (core : Nat) {s : State} (hs : s.safe = true) :
    SafeOut (execWldFillStart core s) := by
  unfold execWldFillStart
  grind -ring -linarith -lia -order [safe_mk_iff, safe_mem, safe_ctl, SafeOut, putCmd_safe, setMatrix_safe]

theorem execWldFillComplete_safe (core : Nat) {s : State} (hs : s.safe = true) :
    SafeOut (execWldFillComplete core s) := by
  unfold execWldFillComplete
  grind -ring -linarith -lia -order [safe_mk_iff, safe_mem, safe_ctl, SafeOut, setMatrix_safe, endCmd_safe]

theorem execWeightExchange_safe (core : Nat) {s : State} (hs : s.safe = true) :
    SafeOut (execWeightExchange core s) := by
  unfold execWeightExchange
  grind -ring -linarith -lia -order [safe_mk_iff, safe_mem, safe_ctl, SafeOut, setMatrix_safe]

theorem execMatrixCommandStart_safe (core : Nat) {s : State} (hs : s.safe = true) :
    SafeOut (execMatrixCommandStart core s) := by
  unfold execMatrixCommandStart
  grind -ring -linarith -lia -order [safe_mk_iff, safe_mem, safe_ctl, SafeOut, putCmd_safe]

theorem execRowRetire_safe (core : Nat) (cmd : Nat) {s : State} (hs : s.safe = true) :
    SafeOut (execRowRetire core cmd s) := by
  unfold execRowRetire
  grind -ring -linarith -lia -order [safe_mk_iff, safe_mem, safe_ctl, SafeOut, engFault_safe, putBlock_safe,
    putCmd_safe, readerDone_safe]

theorem freeParts_safe {s : State} (c : Cmd) (hs : s.safe = true) :
    (State.freeParts s c).safe = true := by
  unfold State.freeParts
  repeat' split
  all_goals grind -ring -linarith -lia -order [foldl_safe, foldl_fst_safe, seqAct_safe]

theorem execMatrixCommandComplete_safe (core : Nat) (cmd : Nat) {s : State} (hs : s.safe = true) :
    SafeOut (execMatrixCommandComplete core cmd s) := by
  unfold execMatrixCommandComplete
  grind -ring -linarith -lia -order [safe_mk_iff, safe_mem, safe_ctl, SafeOut, tileDone_safe, endCmd_safe,
    freeParts_safe]

theorem execAclrStart_safe (core : Nat) {s : State} (hs : s.safe = true) :
    SafeOut (execAclrStart core s) := by
  unfold execAclrStart
  grind -ring -linarith -lia -order [safe_mk_iff, safe_mem, safe_ctl, SafeOut, putBlock_safe, putCmd_safe]

theorem execAclrClearComplete_safe (core : Nat) (cmd : Nat) {s : State} (hs : s.safe = true) :
    SafeOut (execAclrClearComplete core cmd s) := by
  unfold execAclrClearComplete
  grind -ring -linarith -lia -order [SafeOut, tileDone_safe, endCmd_safe]

theorem pushForm_safe {s : State} (core : Nat) (hs : s.safe = true) :
    (State.pushForm s core).safe = true := by
  unfold State.pushForm
  grind -ring -linarith -lia -order [safe_mk_iff, safe_mem, safe_ctl, setMatrix_safe, pushMatrix_safe]

theorem execMmr_safe (x : Ctl) (m : MmrMod) (o : Slots) {s : State} (hs : s.safe = true) :
    SafeOut (execMmr x m o s) := by
  unfold execMmr
  refine splitWord_safe _ _ _ _ _ (fun s k p T v hs => ?_) hs
  grind -ring -linarith -lia -order [safe_mk_iff, safe_mem, safe_ctl, SafeOut, splitWord_safe, illegalOp_safe,
    pushCmd_safe, endCmd_safe, seqAct_safe, takeTrap_safe, setMatrix_safe, stopSplit_safe, pushForm_safe]

theorem execCollectorDelivery_safe (core : Nat) (lane : Nat) {s : State} (hs : s.safe = true) :
    SafeOut (execCollectorDelivery core lane s) := by
  unfold execCollectorDelivery
  dsimp only
  repeat' split
  all_goals grind -ring -linarith -lia -order [safe_mk_iff, safe_mem, safe_ctl, SafeOut, putCmd_safe, seqAct_safe]

/-! ## Epilogue -/

theorem planEpi_safe (m : EpiMod) (o : Slots) :
    KeepsPush (planEpi m o).push := by
  unfold planEpi
  intro s c v t hs
  grind -ring -linarith -lia -order [safe_mk_iff, safe_mem, safe_ctl, KeepsAccess, KeepsPush, pushCmd_safe,
    endCmd_safe, putBlock_safe]

theorem execEpi_safe (x : Ctl) (m : EpiMod) (o : Slots) {s : State} (hs : s.safe = true) :
    SafeOut (execEpi x m o s) := by
  unfold execEpi
  grind -ring -linarith -lia -order [SafeOut, pushWord_safe, planEpi_safe]

theorem epiEnd_safe {s : State} (c : Cmd) (st : Nat) (n : Nat) (hs : s.safe = true) :
    (State.epiEnd s c st n).safe = true := by
  unfold State.epiEnd
  grind -ring -linarith -lia -order [putBlock_safe, endCmd_safe]

theorem execEpiDrain_safe (core : Nat) {s : State} (hs : s.safe = true) :
    SafeOut (execEpiDrain core s) := by
  unfold execEpiDrain
  repeat' split
  all_goals grind -ring -linarith -lia -order [safe_mk_iff, safe_mem, safe_ctl, SafeOut, epiEnd_safe, engFault_safe,
    engStore_safe, putCmd_safe]

/-! ## Copies -/

theorem publishMoves_safe {s : State} (core : Nat) (ssp : Nat) (m : Moves) (hs : s.safe = true) :
    (State.publishMoves s core ssp m).safe = true := by
  unfold State.publishMoves
  grind -ring -linarith -lia -order [foldl_safe, foldl_fst_safe, publishRange_safe]

theorem pushCopy_safe {s : State} (c : Cmd) (ssp : Nat) (dsp : Nat) (m : Moves) (cnt : Option Nat)
    (st0 : Option Nat) (decl : Option Nat) (fol : Option Follow) (hs : s.safe = true) :
    (State.pushCopy s c ssp dsp m cnt st0 decl fol).safe = true := by
  unfold State.pushCopy
  grind -ring -linarith -lia -order [safe_mk_iff, safe_mem, safe_ctl, publishMoves_safe, pushCmd_safe]

theorem planCpy_safe (m : CpyMod) (o : Slots) :
    KeepsPush (planCpy m o).push := by
  unfold planCpy
  intro s c v t hs
  grind -ring -linarith -lia -order [KeepsAccess, KeepsPush, pushCopy_safe]

theorem planCpyt_safe (m : CpyMod) (o : Slots) :
    KeepsPush (planCpyt m o).push := by
  unfold planCpyt
  intro s c v t hs
  grind -ring -linarith -lia -order [KeepsAccess, KeepsPush, pushCopy_safe]

theorem planCpym_safe (m : CpyMod) (o : Slots) :
    KeepsPush (planCpym m o).push := by
  unfold planCpym
  intro s c v t hs
  grind -ring -linarith -lia -order [KeepsAccess, KeepsPush, pushCopy_safe]

theorem planCpyg_safe (m : CpygMod) (o : Slots) :
    KeepsPush (planCpyg m o).push := by
  unfold planCpyg
  intro s c v t hs
  grind -ring -linarith -lia -order [safe_mk_iff, safe_mem, safe_ctl, KeepsAccess, KeepsPush, pushCmd_safe]

theorem planGather_safe (sct : Bool) (m : GthMod) (o : Slots) :
    KeepsPush (planGather sct m o).push := by
  unfold planGather
  intro s c v t hs
  grind -ring -linarith -lia -order [safe_mk_iff, safe_mem, safe_ctl, KeepsAccess, KeepsPush, pushCmd_safe]

theorem execCpy_safe (x : Ctl) (m : CpyMod) (o : Slots) {s : State} (hs : s.safe = true) :
    SafeOut (execCpy x m o s) := by
  unfold execCpy
  grind -ring -linarith -lia -order [SafeOut, pushWord_safe, planCpy_safe]

theorem execCpyt_safe (x : Ctl) (m : CpyMod) (o : Slots) {s : State} (hs : s.safe = true) :
    SafeOut (execCpyt x m o s) := by
  unfold execCpyt
  grind -ring -linarith -lia -order [SafeOut, pushWord_safe, planCpyt_safe]

theorem execCpym_safe (x : Ctl) (m : CpyMod) (o : Slots) {s : State} (hs : s.safe = true) :
    SafeOut (execCpym x m o s) := by
  unfold execCpym
  grind -ring -linarith -lia -order [SafeOut, pushWord_safe, planCpym_safe]

theorem execCpyg_safe (x : Ctl) (m : CpygMod) (o : Slots) {s : State} (hs : s.safe = true) :
    SafeOut (execCpyg x m o s) := by
  unfold execCpyg
  grind -ring -linarith -lia -order [SafeOut, pushWord_safe, planCpyg_safe]

theorem execGth_safe (x : Ctl) (m : GthMod) (o : Slots) {s : State} (hs : s.safe = true) :
    SafeOut (execGth x m o s) := by
  unfold execGth
  grind -ring -linarith -lia -order [SafeOut, pushWord_safe, planGather_safe]

theorem execSct_safe (x : Ctl) (m : GthMod) (o : Slots) {s : State} (hs : s.safe = true) :
    SafeOut (execSct x m o s) := by
  unfold execSct
  grind -ring -linarith -lia -order [SafeOut, pushWord_safe, planGather_safe]

theorem startCopies_safe {s : State} (core : Nat) (hs : s.safe = true) :
    (State.startCopies s core).safe = true := by
  unfold State.startCopies
  grind -ring -linarith -lia -order [safe_mk_iff, safe_mem, safe_ctl, foldl_safe, foldl_fst_safe, putCmd_safe]

theorem lineBytes_safe {s : State} (c : Cmd) (ssp : Nat) (pre : Sparse Byte) (unpub : List Nat) (n0 : List
    (Nat × Int)) (hs : s.safe = true) :
    (State.lineBytes s c ssp pre unpub n0).1.safe = true := by
  fun_induction State.lineBytes s c ssp pre unpub n0 <;> grind -ring -linarith -lia -order [publishRange_safe,
    engLoad_safe]

theorem readLine_safe {s : State} (c : Cmd) (ssp : Nat) (dsp : Nat) (line : Nat) (m : Moves) (pre : Sparse Byte)
    (unpub : List Nat) (hs : s.safe = true) :
    (State.readLine s c ssp dsp line m pre unpub).1.safe = true := by
  unfold State.readLine
  grind -ring -linarith -lia -order [foldl_safe, foldl_fst_safe, lineBytes_safe]

theorem saveSources_safe {s : State} (c : Cmd) (ssp : Nat) (dsp : Nat) (line : Nat) (m : Moves) (pre : Sparse Byte)
    (hs : s.safe = true) :
    (State.saveSources s c ssp dsp line m pre).1.safe = true := by
  unfold State.saveSources
  grind -ring -linarith -lia -order [foldl_safe, foldl_fst_safe, translate_safe, engLoad_safe]

theorem execCopyLanding_safe (cmd : Nat) (line : Nat) {s0 : State} (hs : s0.safe = true) :
    SafeOut (execCopyLanding cmd line s0) := by
  unfold execCopyLanding
  dsimp only
  repeat' split
  all_goals grind -ring -linarith -lia -order [safe_mk_iff, safe_mem, safe_ctl, SafeOut, startCopies_safe,
    readLine_safe, engFault_safe, saveSources_safe, engStoreLine_safe, land_safe, putCmd_safe]

theorem readAhead_safe {s0 : State} (cmd : Nat) (line : Nat) (hs : s0.safe = true) :
    (State.readAhead s0 cmd line).safe = true := by
  unfold State.readAhead
  repeat' split
  all_goals grind -ring -linarith -lia -order [safe_mk_iff, safe_mem, safe_ctl, foldl_safe, foldl_fst_safe,
    startCopies_safe, readLine_safe, putCmd_safe]

theorem pushFollow_safe {s : State} (c : Cmd) (f : Follow) (aoff : Int) (g : Int) (hs : s.safe = true) :
    (State.pushFollow s c f aoff g).safe = true := by
  unfold State.pushFollow
  grind -ring -linarith -lia -order [safe_mk_iff, safe_mem, safe_ctl, pushWld_safe, pushMma_safe]

theorem dropFollow_safe {s : State} (blk : Nat) (f : Option Follow) (errs : Nat) (hs : s.safe = true) :
    (State.dropFollow s blk f errs).safe = true := by
  unfold State.dropFollow
  grind -ring -linarith -lia -order [signal_safe]

theorem copyEnd_safe {s : State} (c : Cmd) (dsp : Nat) (m : Moves) (fol : Option Follow) (hs : s.safe = true) :
    ∀ t, State.copyEnd s c dsp m fol = some t → t.safe = true := by
  unfold State.copyEnd
  grind -ring -linarith -lia -order [endCmd_safe, dropFollow_safe, engFault_safe, pushFollow_safe]

theorem readRow_safe {s : State} (c : Cmd) (sp : Nat) (a : Int) (n : Nat) (hs : s.safe = true) :
    (State.readRow s c sp a n).1.safe = true := by
  unfold State.readRow
  grind -ring -linarith -lia -order [engLoad_safe]

theorem landLines_safe {s : State} (c : Cmd) (n0 : Nat) (n1 : Nat) (n2 : Nat) (hs : s.safe = true) :
    (State.landLines s c n0 n1 n2).1.safe = true := by
  fun_induction State.landLines s c n0 n1 n2 <;> grind -ring -linarith -lia -order [safe_mk_iff, safe_mem, safe_ctl,
    land_safe]

theorem patchRead_safe {s : State} (c : Cmd) (e : Nat) (pw : Nat) (ph : Nat) (list : Word) (pitch : Word)
    (dk : List Nat) (hi : Nat) (n0 : Nat) (n1 : Nat) (n2 : Option (Nat × Nat)) (n3 : List (Nat × Byte)) (hs : s.safe = true) :
    (State.patchRead s c e pw ph list pitch dk hi n0 n1 n2 n3).1.safe = true := by
  fun_induction State.patchRead s c e pw ph list pitch dk hi n0 n1 n2 n3 <;> grind -ring -linarith -lia -order [engRead_safe, engKeys_safe]

theorem execPatchGather_safe (cmd : Nat) {s : State} (hs : s.safe = true) :
    SafeOut (execPatchGather cmd s) := by
  unfold execPatchGather
  repeat' split
  all_goals grind -ring -linarith -lia -order [safe_mk_iff, safe_mem, safe_ctl, SafeOut, engKeys_safe, engFault_safe,
    patchRead_safe, engStoreLine_safe, land_safe, putCmd_safe]

theorem readRows_safe {s : State} (c : Cmd) (ix : Index) (n0 : List Nat) (n1 : Sparse (List Byte))
    (hs : s.safe = true) :
    (State.readRows s c ix n0 n1).1.safe = true := by
  fun_induction State.readRows s c ix n0 n1 <;> grind -ring -linarith -lia -order [engRead_safe]

theorem indexAt_safe {s : State} (c : Cmd) (ix : Index) (j : Nat) (hs : s.safe = true) :
    (State.indexAt s c ix j).1.safe = true := by
  unfold State.indexAt
  grind -ring -linarith -lia -order [engRead_safe]

theorem indexes_safe {s : State} (c : Cmd) (ix : Index) (n0 : List Nat) (hs : s.safe = true) :
    (State.indexes s c ix n0).1.safe = true := by
  fun_induction State.indexes s c ix n0 <;> grind -ring -linarith -lia -order [indexAt_safe]

theorem windowBytes_safe {s : State} (c : Cmd) (ix : Index) (n : Nat) (hs : s.safe = true) :
    (State.windowBytes s c ix n).1.safe = true := by
  unfold State.windowBytes
  dsimp only
  split
  · grind -ring -linarith -lia -order [indexes_safe]
  · split <;> grind -ring -linarith -lia -order [indexes_safe, readRows_safe]

theorem runOn_safe {s : State} (c : Cmd) (sp : Nat) (a : Int) (bs : List Byte) (done : Nat) (hs : s.safe = true) :
    (State.runOn s c sp a bs done).1.safe = true := by
  unfold State.runOn
  grind -ring -linarith -lia -order [engStoreRun_safe, landLines_safe]

theorem execGatherWindow_safe (cmd : Nat) {s : State} (hs : s.safe = true) :
    SafeOut (execGatherWindow cmd s) := by
  unfold execGatherWindow
  refine safeOut_next ?_
  split
  · exact hs
  · rename_i c _
    split
    · rename_i dsp dst ix n part _
      refine ite_safe hs ?_
      extract_lets c1 w
      have hw : w.1.safe = true := by
        show (State.safe (Prod.fst (match part with | some p => _ | none => _))) = true
        split
        · exact hs
        · have := windowBytes_safe c1 ix n hs
          split <;> grind -ring -linarith -lia -order
      clear_value w c1
      split
      · grind -ring -linarith -lia -order [engFault_safe]
      · grind -ring -linarith -lia -order [engFault_safe, putCmd_safe, runOn_safe]
    · exact hs

theorem reduceElem_safe {s : State} (c : Cmd) (who : Nat) (op : Nat) (t : ATy) (a : Word) (bs : List Byte)
    (hs : s.safe = true) :
    (State.reduceElem s c who op t a bs).1.safe = true := by
  unfold State.reduceElem
  grind -ring -linarith -lia -order [engKeys_safe, peerAsk_safe, atomic_safe, atHome_safe, applyReds_safe,
    touchHome_safe, engLand_safe]

theorem reduceRow_safe {s : State} (c : Cmd) (j : Nat) (op : Nat) (t : ATy) (n0 : List (Word × List Byte))
    (n1 : Nat) (hs : s.safe = true) :
    (State.reduceRow s c j op t n0 n1).1.safe = true := by
  fun_induction State.reduceRow s c j op t n0 n1 <;> grind -ring -linarith -lia -order [reduceElem_safe]

theorem applyRow_safe {s : State} (c : Cmd) (ix : Index) (j : Nat) (x : Nat) (m : Nat) (bs : List Byte)
    (hs : s.safe = true) :
    (State.applyRow s c ix j x m bs).1.safe = true := by
  unfold State.applyRow
  grind -ring -linarith -lia -order [engStoreRun_safe, reduceRow_safe]

theorem posDone_safe {s : State} (c : Cmd) (j : Nat) (rowb : Nat) (hs : s.safe = true) :
    (State.posDone s c j rowb).safe = true := by
  unfold State.posDone
  grind -ring -linarith -lia -order [safe_mk_iff, safe_mem, safe_ctl, putCmd_safe, land_safe]

theorem journal_safe {s : State} (c : Cmd) (ix : Index) (j : Nat) (hs : s.safe = true) :
    (State.journal s c ix j).1.safe = true := by
  unfold State.journal
  grind -ring -linarith -lia -order [engRead_safe]

theorem setJournal_safe {s : State} (c : Cmd) (ix : Index) (j : Nat) (hs : s.safe = true) :
    (State.setJournal s c ix j).1.safe = true := by
  unfold State.setJournal
  grind -ring -linarith -lia -order [journal_safe, engWrite_safe]

theorem posGo_safe {s : State} (c : Cmd) (ssp : Nat) (src : Int) (ix : Index) (n : Nat) (j : Nat) (x : Nat)
    (m : Nat) (bs : List Byte) (hs : s.safe = true) :
    (State.posGo s c ssp src ix n j x m bs).safe = true := by
  unfold State.posGo
  grind -ring -linarith -lia -order [safe_mk_iff, safe_mem, safe_ctl, applyRow_safe, engFault_safe, setJournal_safe,
    posDone_safe]

theorem execScatterPosition_safe (cmd : Nat) (j : Nat) {s : State} (hs : s.safe = true) :
    SafeOut (execScatterPosition cmd j s) := by
  unfold execScatterPosition
  refine safeOut_next ?_
  split
  · exact hs
  · rename_i c _
    split
    · rename_i ssp src ix n part _
      refine ite_safe hs ?_
      extract_lets c1
      split
      · exact ite_safe (posGo_safe _ _ _ _ _ _ _ _ _ hs) hs
      · split
        · grind -ring -linarith -lia -order [indexes_safe, engFault_safe]
        · rename_i s1 xs h1
          have h : s1.safe = true := by grind -ring -linarith -lia -order [indexes_safe]
          extract_lets x
          refine ite_safe hs ?_
          split
          · grind -ring -linarith -lia -order [journal_safe, engFault_safe]
          · rename_i s2 jb h2
            have h3 : s2.safe = true := by grind -ring -linarith -lia -order [journal_safe]
            refine ite_safe (posDone_safe _ _ _ h3) ?_
            split
            · grind -ring -linarith -lia -order [readRow_safe, engFault_safe]
            · rename_i s3 bs h4
              exact posGo_safe _ _ _ _ _ _ _ _ _ (by grind -ring -linarith -lia -order [readRow_safe])
    · exact hs

/-! ## Ring -/

theorem registerBoards_safe {s : State} (core : Nat) (hs : s.safe = true) :
    (State.registerBoards s core).safe = true := by
  unfold State.registerBoards
  grind -ring -linarith -lia -order [safe_mk_iff, safe_mem, safe_ctl, foldl_safe, foldl_fst_safe, putCmd_safe,
    count_safe]

theorem planBoard_safe (m : BoardMod) (o : Slots) :
    KeepsPush (planBoard m o).push := by
  unfold planBoard
  intro s c v t hs
  grind -ring -linarith -lia -order [safe_mk_iff, safe_mem, safe_ctl, KeepsAccess, KeepsPush, pushCmd_safe,
    registerBoards_safe]

theorem execBoard_safe (x : Ctl) (m : BoardMod) (o : Slots) {s : State} (hs : s.safe = true) :
    SafeOut (execBoard x m o s) := by
  unfold execBoard
  grind -ring -linarith -lia -order [safe_mk_iff, safe_mem, safe_ctl, SafeOut, pushWord_safe, planBoard_safe]

theorem boardEnd_safe {s : State} (c : Cmd) (b : Board) (st : Nat) (hs : s.safe = true) :
    (State.boardEnd s c b st).safe = true := by
  unfold State.boardEnd
  grind -ring -linarith -lia -order [safe_mk_iff, safe_mem, safe_ctl, endCmd_safe, dropFollow_safe]

theorem boardStep_safe {s : State} (c : Cmd) (b : Board) (hs : s.safe = true) :
    (State.boardStep s c b).safe = true := by
  unfold State.boardStep
  grind -ring -linarith -lia -order [putCmd_safe, boardEnd_safe]

theorem boardPushes_safe {s : State} (c : Cmd) (b : Board) (n0 : List (Nat × Nat × Nat × Nat)) (hs : s.safe = true) :
    (State.boardPushes s c b n0).1.safe = true := by
  fun_induction State.boardPushes s c b n0 <;> grind -ring -linarith -lia -order [safe_mk_iff, safe_mem, safe_ctl,
    pushWld_safe, pushFollow_safe]

theorem boardGo_safe {s : State} (c : Cmd) (b : Board) (hs : s.safe = true) :
    (State.boardGo s c b).safe = true := by
  unfold State.boardGo
  grind -ring -linarith -lia -order [safe_mk_iff, safe_mem, safe_ctl, boardPushes_safe, boardStep_safe]

theorem boardMiss_safe {s : State} (c : Cmd) (b : Board) (x : RTile) (hs : s.safe = true) :
    (State.boardMiss s c b x).safe = true := by
  unfold State.boardMiss
  grind -ring -linarith -lia -order [safe_mk_iff, safe_mem, safe_ctl, count_safe, putCmd_safe]

theorem boardLand_safe {s : State} (c : Cmd) (b : Board) (x : RTile) (hs : s.safe = true) :
    (State.boardLand s c b x).safe = true := by
  unfold State.boardLand
  grind -ring -linarith -lia -order [safe_mk_iff, safe_mem, safe_ctl, putBankBytes_safe, markBank_safe, land_safe,
    boardGo_safe]

theorem boardCorrupt_safe {s : State} (c : Cmd) (b : Board) (x : RTile) (hs : s.safe = true) :
    (State.boardCorrupt s c b x).safe = true := by
  unfold State.boardCorrupt
  grind -ring -linarith -lia -order [safe_mk_iff, safe_mem, safe_ctl, markErr_safe, dropFollow_safe, boardStep_safe]

theorem deliverTile_safe {s : State} (x : RTile) (hs : s.safe = true) :
    (State.deliverTile s x).safe = true := by
  unfold State.deliverTile
  grind -ring -linarith -lia -order [safe_mk_iff, safe_mem, safe_ctl, foldl_safe, foldl_fst_safe, boardCorrupt_safe,
    count_safe, boardMiss_safe, boardLand_safe]

theorem landHeld_safe {s : State} (hs : s.safe = true) :
    (State.landHeld s).safe = true := by
  unfold State.landHeld
  grind -ring -linarith -lia -order [safe_mk_iff, safe_mem, safe_ctl, foldl_safe, foldl_fst_safe, boardLand_safe]

theorem holdStep_safe {s : State} (hs : s.safe = true) :
    (State.holdStep s).safe = true := by
  unfold State.holdStep
  grind -ring -linarith -lia -order [safe_mk_iff, safe_mem, safe_ctl, foldl_safe, foldl_fst_safe, landHeld_safe,
    boardMiss_safe]

theorem recheckBoards_safe {s : State} (hs : s.safe = true) :
    (State.recheckBoards s).safe = true := by
  unfold State.recheckBoards
  grind -ring -linarith -lia -order [safe_mk_iff, safe_mem, safe_ctl, foldl_safe, foldl_fst_safe, boardStep_safe]

theorem lapBoundary_safe {s : State} (hs : s.safe = true) :
    (State.lapBoundary s).safe = true := by
  unfold State.lapBoundary
  grind -ring -linarith -lia -order [safe_mk_iff, safe_mem, safe_ctl, recheckBoards_safe]

theorem inject_safe {s : State} (hs : s.safe = true) :
    (State.inject s).safe = true := by
  unfold State.inject
  grind -ring -linarith -lia -order [safe_mk_iff, safe_mem, safe_ctl, lapBoundary_safe]

theorem readBodies_safe {s : State} (hs : s.safe = true) :
    (State.readBodies s).safe = true := by
  unfold State.readBodies
  grind -ring -linarith -lia -order [safe_mk_iff, safe_mem, safe_ctl, foldl_safe, foldl_fst_safe]

theorem endReads_safe {s : State} (hs : s.safe = true) :
    (State.endReads s).safe = true := by
  unfold State.endReads
  grind -ring -linarith -lia -order [safe_mk_iff, safe_mem, safe_ctl]

theorem newStep_safe {s : State} (hs : s.safe = true) :
    (State.newStep s).safe = true := by
  unfold State.newStep
  grind -ring -linarith -lia -order [safe_mk_iff, safe_mem, safe_ctl, foldl_safe, foldl_fst_safe, endReads_safe,
    lapBoundary_safe, inject_safe, readBodies_safe, deliverTile_safe, registerBoards_safe]

theorem execRingStep_safe {s : State} (hs : s.safe = true) :
    SafeOut (execRingStep s) := by
  unfold execRingStep
  grind -ring -linarith -lia -order [SafeOut, holdStep_safe, newStep_safe]

theorem execSnextArm_safe (v : Word) {s : State} (hs : s.safe = true) :
    SafeOut (execSnextArm v s) := by
  unfold execSnextArm
  grind -ring -linarith -lia -order [safe_mk_iff, safe_mem, safe_ctl, SafeOut]

theorem execSnextDisarm_safe {s : State} (hs : s.safe = true) :
    SafeOut (execSnextDisarm s) := by
  unfold execSnextDisarm
  grind -ring -linarith -lia -order [safe_mk_iff, safe_mem, safe_ctl, SafeOut]

theorem execRstatClear_safe {s : State} (hs : s.safe = true) :
    SafeOut (execRstatClear s) := by
  unfold execRstatClear
  grind -ring -linarith -lia -order [safe_mk_iff, safe_mem, safe_ctl, SafeOut]

theorem corruptTile_safe {s : State} (index : Nat) (b : Nat) (hs : s.safe = true) :
    (State.corruptTile s index b).safe = true := by
  unfold State.corruptTile
  grind -ring -linarith -lia -order [safe_mk_iff, safe_mem, safe_ctl]

theorem copyEndD_safe {s s0 : State} (c : Cmd) (dsp : Nat) (m : Moves) (fol : Option Follow) (hs : s.safe = true)
    (h0 : s0.safe = true) : ((s.copyEnd c dsp m fol).getD s0).safe = true := by
  cases h : s.copyEnd c dsp m fol with
  | none => exact h0
  | some t => exact copyEnd_safe c dsp m fol hs t h

theorem execCommandCompletion_safe (cmd : Nat) {s0 : State} (hs : s0.safe = true) :
    SafeOut (execCommandCompletion cmd s0) := by
  unfold execCommandCompletion
  dsimp only
  repeat' split
  all_goals grind -ring -linarith -lia -order [SafeOut, startCopies_safe, registerBoards_safe, copyEnd_safe,
    endCmd_safe, boardGo_safe, copyEndD_safe]

/-! ## Conj -/

theorem elemGet_safe {s : State} (c : Cmd) (f : Forest) (size : Bool) (x : Nat) (hs : s.safe = true) :
    (State.elemGet s c f size x).1.safe = true := by
  unfold State.elemGet
  grind -ring -linarith -lia -order [engRead_safe]

theorem keysAll_safe {s : State} (core : Nat) (n0 : List (Acc × Word × Nat)) (hs : s.safe = true) :
    (State.keysAll s core n0).1.safe = true := by
  fun_induction State.keysAll s core n0 <;> grind -ring -linarith -lia -order [engKeys_safe]

theorem elemSet_safe {s : State} (c : Cmd) (f : Forest) (size : Bool) (x : Nat) (v : Nat) (hs : s.safe = true) :
    (State.elemSet s c f size x v).1.safe = true := by
  unfold State.elemSet
  grind -ring -linarith -lia -order [safe_mk_iff, safe_mem, safe_ctl, keysAll_safe, elemGet_safe, engWrite_safe]

theorem forestNow_safe {s : State} (c : Cmd) (frec : Word) (hs : s.safe = true) :
    (State.forestNow s c frec).1.safe = true := by
  unfold State.forestNow
  grind -ring -linarith -lia -order [safe_mk_iff, safe_mem, safe_ctl, engRead_safe]

theorem elemMin_safe {s : State} (c : Cmd) (f : Forest) (x : Nat) (v : Nat) (key : Nat) (hs : s.safe = true) :
    (State.elemMin s c f x v key).1.safe = true := by
  unfold State.elemMin
  grind -ring -linarith -lia -order [safe_mk_iff, safe_mem, safe_ctl, keysAll_safe, peerAsk_safe, atomic_safe,
    engWrite_safe]

theorem compress_safe {s : State} (c : Cmd) (f : Forest) (y : Nat) (z : Nat) (hs : s.safe = true) :
    (State.compress s c f y z).1.safe = true := by
  unfold State.compress
  grind -ring -linarith -lia -order [elemGet_safe, engKeys_safe, elemMin_safe, elemSet_safe]

theorem walkStep_safe {s : State} (c : Cmd) (f : Forest) (nc : Bool) (w : Walk) (hs : s.safe = true) :
    (State.walkStep s c f nc w).1.safe = true := by
  unfold State.walkStep
  grind -ring -linarith -lia -order [safe_mk_iff, safe_mem, safe_ctl, compress_safe, elemGet_safe]

theorem linkStep_safe {s : State} (c : Cmd) (f : Forest) (lo : Nat) (hi : Nat) (hs : s.safe = true) :
    (State.linkStep s c f lo hi).1.safe = true := by
  unfold State.linkStep
  dsimp only
  split
  · grind -ring -linarith -lia -order [elemGet_safe]
  · split
    · grind -ring -linarith -lia -order [elemGet_safe]
    · rename_i sa pl h1 _ s0 ph h2
      have h0 : s0.safe = true := by grind -ring -linarith -lia -order [elemGet_safe]
      refine ite_fst_safe h0 (ite_fst_safe h0 ?_)
      split
      · grind -ring -linarith -lia -order [keysAll_safe]
      · rename_i s1 _ h3
        have hk : s1.safe = true := by grind -ring -linarith -lia -order [keysAll_safe]
        split
        · rename_i h4
          split at h4 <;> grind -ring -linarith -lia -order [elemGet_safe]
        · rename_i s4 n h4
          have h4' : s4.safe = true := by split at h4 <;> grind -ring -linarith -lia -order [elemGet_safe]
          grind -ring -linarith -lia -order [elemSet_safe]

theorem conjThread_safe {s : State} (c : Cmd) (f : Forest) (op : Nat) (nc : Bool) (x : Nat) (y : Nat)
    (hs : s.safe = true) :
    (State.conjThread s c f op nc x y).1.safe = true := by
  unfold State.conjThread
  grind -ring -linarith -lia -order [safe_mk_iff, safe_mem, safe_ctl, walk_safe, walkStep_safe, elemGet_safe,
    linkStep_safe]

theorem endsWith_safe (n : Nat) (r : State × Except EngErr Unit) (hr : r.1.safe = true) :
    (endsWith n r).1.safe = true := by
  unfold endsWith
  split <;> exact hr

theorem goesOn_safe (n : Nat) (r : State × Except EngErr Unit) (hr : r.1.safe = true) :
    (goesOn n r).1.safe = true := by
  unfold goesOn
  split <;> exact hr

theorem putForest_safe {s : State} (c : Cmd) (frec : Word) (lhead : Nat) (mark : Nat) (snap : Nat)
    (hs : s.safe = true) :
    (State.putForest s c frec lhead mark snap).1.safe = true := by
  unfold State.putForest
  grind -ring -linarith -lia -order [engWrite_safe]

theorem snapStep_safe {s : State} (c : Cmd) (f : Forest) (op : Nat) (row : Nat) (hs : s.safe = true) :
    (State.snapStep s c f op row).1.safe = true := by
  unfold State.snapStep
  grind -ring -linarith -lia -order [endsWith_safe, engWrite_safe, putForest_safe, goesOn_safe]

theorem logEntry_safe {s : State} (c : Cmd) (f : Forest) (i : Nat) (hs : s.safe = true) :
    (State.logEntry s c f i).1.safe = true := by
  unfold State.logEntry
  grind -ring -linarith -lia -order [engRead_safe]

theorem undoStep_safe {s : State} (c : Cmd) (f : Forest) (row : Nat) (hs : s.safe = true) :
    (State.undoStep s c f row).1.safe = true := by
  unfold State.undoStep
  grind -ring -linarith -lia -order [endsWith_safe, engWrite_safe, logEntry_safe, goesOn_safe]

theorem reduceRoot_safe {s : State} (c : Cmd) (op : Nat) (out : Word) (q : Nat) (n : Nat) (xs : List Nat)
    (hs : s.safe = true) :
    (State.reduceRoot s c op out q n xs).1.safe = true := by
  unfold State.reduceRoot
  grind -ring -linarith -lia -order [engKeys_safe, peerAsk_safe, atHome_safe, applyReds_safe, engRead_safe,
    engWrite_safe]

theorem relabelStep_safe {s : State} (c : Cmd) (f : Forest) (op : Nat) (inp : Word) (out : Word) (first : Nat)
    (n : Nat) (hs : s.safe = true) :
    (State.relabelStep s c f op inp out first n).1.safe = true := by
  unfold State.relabelStep
  grind -ring -linarith -lia -order [safe_mk_iff, safe_mem, safe_ctl, engRead_safe, reduceRoot_safe, walkStep_safe,
    walk_safe]

theorem endForest_safe {s : State} (c : Cmd) (n : Nat) (hs : s.safe = true) :
    (State.endForest s c n).safe = true := by
  unfold State.endForest
  grind -ring -linarith -lia -order [signal_safe, dropCmd_safe, postRecord_safe]

theorem conjReturn_safe {s : State} (c : Cmd) (thread : Nat) (v : Word) (hs : s.safe = true) :
    (State.conjReturn s c thread v).safe = true := by
  unfold State.conjReturn
  have h1 := dropCmd_safe c.id hs
  generalize s.dropCmd c.id = s1 at h1
  dsimp only
  repeat' split
  all_goals first | exact h1 | exact putWarp_safe _ _ h1 | exact finish_safe _ _ _ _ (putWarp_safe _ _ h1)

theorem conjFail_safe {s : State} (c : Cmd) (st : Nat) (hs : s.safe = true) :
    (State.conjFail s c st).safe = true := by
  unfold State.conjFail
  grind -ring -linarith -lia -order [conjReturn_safe, endCmd_safe]

theorem conjErr_safe {s : State} (c : Cmd) (n0 : EngErr) (hs : s.safe = true) :
    (State.conjErr s c n0).safe = true := by
  unfold State.conjErr
  grind -ring -linarith -lia -order [conjFail_safe, engFault_safe]

theorem conjStart_safe {s : State} (c : Cmd) (r : List Byte) (hs : s.safe = true) :
    (State.conjStart s c r).safe = true := by
  unfold State.conjStart
  grind -ring -linarith -lia -order [safe_mk_iff, safe_mem, safe_ctl, conjFail_safe, putCmd_safe]

theorem conjRow_safe {s : State} (c : Cmd) (r : Except EngErr (Nat ⊕ Nat)) (hs : s.safe = true) :
    (State.conjRow s c r).safe = true := by
  unfold State.conjRow
  grind -ring -linarith -lia -order [safe_mk_iff, safe_mem, safe_ctl, conjErr_safe, putCmd_safe, endForest_safe]

theorem conjRun_safe {s : State} (c : Cmd) (hs : s.safe = true) :
    (State.conjRun s c).safe = true := by
  unfold State.conjRun
  split
  · grind -ring -linarith -lia -order [forestNow_safe, conjErr_safe]
  · rename_i s0 f h
    have h0 : s0.safe = true := by grind -ring -linarith -lia -order [forestNow_safe]
    split
    · grind -ring -linarith -lia -order [conjThread_safe, conjErr_safe, putCmd_safe, conjReturn_safe]
    · exact conjRow_safe _ _ (snapStep_safe _ _ _ _ h0)
    · exact conjRow_safe _ _ (undoStep_safe _ _ _ h0)
    · split
      · grind -ring -linarith -lia -order [relabelStep_safe, conjErr_safe]
      · grind -ring -linarith -lia -order [relabelStep_safe, putCmd_safe]
      · have : ∀ st : State, st.safe = true → ∀ a b c d,
    (st.endCmd a b c d).safe = true := fun st h a b c d => endCmd_safe _ _ _ _ h
        grind -ring -linarith -lia -order [relabelStep_safe, putCmd_safe]
    · exact h0

theorem execConjunctionOperation_safe (slice : Nat) (op : Nat) {s : State} (hs : s.safe = true) :
    SafeOut (execConjunctionOperation slice op s) := by
  unfold execConjunctionOperation
  repeat' split
  all_goals grind -ring -linarith -lia -order [safe_mk_iff, safe_mem, safe_ctl, SafeOut, endCmd_safe, engRead_safe,
    conjErr_safe, conjStart_safe, conjRun_safe, engKeys_safe, count_safe, putCmd_safe]

theorem conjPush_safe {s : State} (k : Nat) (pid : Nat) (pend : Pend) (op : Nat) (nc : Bool) (hs : s.safe = true) :
    (State.conjPush s k pid pend op nc).safe = true := by
  unfold State.conjPush
  grind -ring -linarith -lia -order [safe_mk_iff, safe_mem, safe_ctl, foldl_safe, foldl_fst_safe, pushCmd_safe,
    stopSplit_safe]

theorem conjWord_safe (i : Instr) (x : Ctl) (op : Nat) (nc : Bool) (srcs : List Spec) (o : Slots) {s : State}
    (hs : s.safe = true) :
    SafeOut (conjWord i x op nc srcs o s) := by
  unfold conjWord
  grind -ring -linarith -lia -order [safe_mk_iff, safe_mem, safe_ctl, SafeOut, seqAct_safe, putWarp_safe,
    illegalOp_safe, finish_safe, conjPush_safe]

theorem execUnite_safe (x : Ctl) (nc : Bool) (o : Slots) {s : State} (hs : s.safe = true) :
    SafeOut (execUnite x nc o s) := by
  unfold execUnite
  grind -ring -linarith -lia -order [SafeOut, conjWord_safe]

theorem execFind_safe (x : Ctl) (nc : Bool) (o : Slots) {s : State} (hs : s.safe = true) :
    SafeOut (execFind x nc o s) := by
  unfold execFind
  grind -ring -linarith -lia -order [SafeOut, conjWord_safe]

theorem execFsize_safe (x : Ctl) (nc : Bool) (o : Slots) {s : State} (hs : s.safe = true) :
    SafeOut (execFsize x nc o s) := by
  unfold execFsize
  grind -ring -linarith -lia -order [SafeOut, conjWord_safe]

theorem planRelabel_safe (m : RelMod) (o : Slots) :
    KeepsPush (planRelabel m o).push := by
  unfold planRelabel
  intro s c v t hs
  grind -ring -linarith -lia -order [safe_mk_iff, safe_mem, safe_ctl, KeepsAccess, KeepsPush, pushCmd_safe]

theorem planForest_safe (op : Nat) (rcd : Bool) (o : Slots) (kd : Word → CmdK) :
    KeepsPush (planForest op rcd o kd).push := by
  unfold planForest
  intro s c v t hs
  grind -ring -linarith -lia -order [safe_mk_iff, safe_mem, safe_ctl, KeepsAccess, KeepsPush, pushCmd_safe]

theorem execRelabel_safe (x : Ctl) (m : RelMod) (o : Slots) {s : State} (hs : s.safe = true) :
    SafeOut (execRelabel x m o s) := by
  unfold execRelabel
  grind -ring -linarith -lia -order [SafeOut, pushWord_safe, planRelabel_safe]

theorem execFsnap_safe (x : Ctl) (op : SnapOp) (rcd : Bool) (o : Slots) {s : State} (hs : s.safe = true) :
    SafeOut (execFsnap x op rcd o s) := by
  unfold execFsnap
  grind -ring -linarith -lia -order [SafeOut, pushWord_safe, planForest_safe]

theorem execFundo_safe (x : Ctl) (rcd : Bool) (o : Slots) {s : State} (hs : s.safe = true) :
    SafeOut (execFundo x rcd o s) := by
  unfold execFundo
  grind -ring -linarith -lia -order [SafeOut, pushWord_safe, planForest_safe]

theorem pushPlanOf_safe {i : Instr} {q : Seq} {pl : PushPlan} (h : pushPlanOf i = some
    (q, pl)) : KeepsPush pl.push := by
  cases i <;> simp only [pushPlanOf, Option.some.injEq, Prod.mk.injEq, reduceCtorEq] at h <;> obtain ⟨_, rfl⟩ := h <;>
    grind -ring -linarith -lia -order [planCpy_safe, planCpyt_safe, planCpym_safe, planCpyg_safe, planGather_safe,
    planWld_safe, planMul_safe,
      planAclr_safe, planEpi_safe, planBoard_safe, planRelabel_safe, planForest_safe]

theorem rereadCmd_safe {s : State} (c : Cmd) (hs : s.safe = true) :
    (State.rereadCmd s c).safe = true := by
  unfold State.rereadCmd
  split
  · split
    · exact hs
    · rename_i q pl hp
      split
      · exact engFault_safe _ _ hs
      · extract_lets s1
        have h1 : s1.safe = true := pushPlanOf_safe hp _ _ _ _ hs
        clear_value s1
        split
        · dsimp only
          split
          · exact safe_of_eq h1 rfl rfl
          · exact putBlock_safe _ _ (safe_of_eq h1 rfl rfl)
        · exact dropCmd_safe _ h1
  · exact hs

theorem execEngineQueuePush_safe (r : Ref) {s : State} (hs : s.safe = true) :
    SafeOut (execEngineQueuePush r s) := by
  unfold execEngineQueuePush
  repeat' split
  all_goals grind -ring -linarith -lia -order [SafeOut, runPush_safe, conjPush_safe, pushForm_safe, pushPlanOf_safe]

end Sys2Proof.Machine
end

