-- ==== Sys2Proof/Laws/SafeSystem.lean ====
section
/-! SUPPORT. Laws/SafeSystem.lean: the fault queue, preemption, migration,
    the world outside and issue keep a state safe. -/

namespace Sys2Proof.Machine

set_option Elab.async false

/-! ## FaultQueue -/

theorem execFaultRecordPost_safe (k : Nat) {s : State} (hs : s.safe = true) :
    SafeOut (execFaultRecordPost k s) := by
  unfold execFaultRecordPost
  grind -ring -linarith -lia -order [safe_mk_iff, safe_mem, safe_ctl, SafeOut, syncWrite_safe]

theorem unhalt_safe {s : State} (k : Nat) (pid : Nat) (q : Seq) (anew : Bool) (hs : s.safe = true) :
    (State.unhalt s k pid q anew).safe = true := by
  unfold State.unhalt
  dsimp only
  split
  · exact hs
  · split
    · exact hs
    · rename_i b _
      have h2 := fun l j v => foldl_safe (fun (st : State) (e : Nat × Warp) =>
        st.putWarp e.1 (e.2.portRecord .xs (qxsRecord 4 false b.core 0)))
        (fun a b ha => putWarp_safe _ _ ha) l _ (putBlock_safe j v hs)
      split
      · exact seqAct_safe _ _ _ (h2 _ _ _)
      · grind -ring -linarith -lia -order [putWarp_safe]

theorem memPlanOf_safe {i : Instr} {q : Seq} {pl : Plan} (h : memPlanOf i = some (q, pl)) : KeepsAccess pl.access := by
  cases i <;> simp only [memPlanOf, Option.some.injEq, Prod.mk.injEq, reduceCtorEq] at h <;> obtain ⟨_, rfl⟩ := h <;>
    grind -ring -linarith -lia -order [planLd_safe, planSt_safe, planLdu_safe, planStu_safe, planLdm_safe,
    planChk_safe, planLocq_safe, planCflush_safe, planAtom_safe, planRed_safe, planXst_safe, planArrv_safe]

theorem replaySplit_safe {s : State} (k : Nat) (pid : Nat) (pend : Pend) (hs : s.safe = true) :
    (State.replaySplit s k pid pend).safe = true := by
  unfold State.replaySplit
  dsimp only
  repeat' split
  all_goals grind -ring -linarith -lia -order [waitIssue_safe, spawnRun_safe, rft_safe, rstl_safe, unhalt_safe,
    takeTrap_safe, perform_safe, memPlanOf_safe]

theorem afterReply_safe {s : State} (k : Nat) (pid : Nat) (hs : s.safe = true) :
    (State.afterReply s k pid).safe = true := by
  unfold State.afterReply
  grind -ring -linarith -lia -order [safe_mk_iff, safe_mem, safe_ctl, replaySplit_safe, seqAct_safe, putWarp_safe]

theorem closeRecord_safe {s : State} (u : Nat) (hs : s.safe = true) :
    (State.closeRecord s u).safe = true := by
  unfold State.closeRecord
  grind -ring -linarith -lia -order [safe_mk_iff, safe_mem, safe_ctl]

theorem release1_safe {s : State} (f : FPost) (hs : s.safe = true) :
    (State.release1 s f).safe = true := by
  unfold State.release1
  grind -ring -linarith -lia -order [safe_mk_iff, safe_mem, safe_ctl, putCmd_safe, rereadCmd_safe, afterReply_safe]

theorem execFqReplyReplay_safe (seq : BitVec 32) {s : State} (hs : s.safe = true) :
    SafeOut (execFqReplyReplay seq s) := by
  unfold execFqReplyReplay
  grind -ring -linarith -lia -order [SafeOut, closeRecord_safe, release1_safe]

theorem failCmd_safe {s : State} (c : Cmd) (hs : s.safe = true) :
    (State.failCmd s c).safe = true := by
  unfold State.failCmd
  grind -ring -linarith -lia -order [safe_mk_iff, safe_mem, safe_ctl, dropCmd_safe, endCmd_safe, dropFollow_safe]

theorem execFqReplyFatal_safe (seq : BitVec 32) {s : State} (hs : s.safe = true) :
    SafeOut (execFqReplyFatal seq s) := by
  unfold execFqReplyFatal
  repeat' split
  all_goals grind -ring -linarith -lia -order [SafeOut, closeRecord_safe, failCmd_safe, endLaunch_safe]

theorem execFqReplyResume_safe (seq : BitVec 32) {s : State} (hs : s.safe = true) :
    SafeOut (execFqReplyResume seq s) := by
  unfold execFqReplyResume
  grind -ring -linarith -lia -order [SafeOut, closeRecord_safe, release1_safe]

theorem execTinv_safe (v : Word) {s : State} (hs : s.safe = true) :
    SafeOut (execTinv v s) := by
  unfold execTinv
  grind -ring -linarith -lia -order [safe_mk_iff, safe_mem, safe_ctl, SafeOut, dropTranslations_safe]

theorem execTinvComplete_safe {s : State} (hs : s.safe = true) :
    SafeOut (execTinvComplete s) := by
  unfold execTinvComplete
  grind -ring -linarith -lia -order [safe_mk_iff, safe_mem, safe_ctl, SafeOut, dropTranslations_safe]

theorem execIcinv_safe {s : State} (hs : s.safe = true) :
    SafeOut (execIcinv s) := by
  unfold execIcinv
  grind -ring -linarith -lia -order [safe_mk_iff, safe_mem, safe_ctl, SafeOut]

theorem execIcinvComplete_safe {s : State} (hs : s.safe = true) :
    SafeOut (execIcinvComplete s) := by
  unfold execIcinvComplete
  grind -ring -linarith -lia -order [safe_mk_iff, safe_mem, safe_ctl, SafeOut]

/-! ## Preempt -/

theorem areaList_safe {s : State} (n0 : Nat) (n1 : Nat) (hs : s.safe = true) :
    (State.areaList s n0 n1).1.safe = true := by
  fun_induction State.areaList s n0 n1 <;> grind -ring -linarith -lia -order [gate_safe, askPeers_safe]

theorem cancelBoard_safe {s : State} (c : Cmd) (hs : s.safe = true) :
    (State.cancelBoard s c).safe = true := by
  unfold State.cancelBoard
  grind -ring -linarith -lia -order [safe_mk_iff, safe_mem, safe_ctl, boardEnd_safe, endCmd_safe]

theorem haltBlock_safe {s : State} (b : Nat) (x : Block) (areas : List Word) (hs : s.safe = true) :
    (State.haltBlock s b x areas).safe = true := by
  unfold State.haltBlock
  grind -ring -linarith -lia -order [safe_mk_iff, safe_mem, safe_ctl, foldl_safe, foldl_fst_safe, putWarp_safe,
    cancelBoard_safe, putBlock_safe, setMatrix_safe]

theorem saveBlock_safe {s : State} (v : Saving) (x : Block) (l : Launch) (hs : s.safe = true) :
    (State.saveBlock s v x l).safe = true := by
  unfold State.saveBlock
  grind -ring -linarith -lia -order [safe_mk_iff, safe_mem, safe_ctl, foldl_safe, foldl_fst_safe, fresh_safe,
    release_safe, syncWriteAt_safe, removeBlock_safe, post_safe]

theorem saveReady_safe {s : State} (hs : s.safe = true) :
    (State.saveReady s).safe = true := by
  unfold State.saveReady
  grind -ring -linarith -lia -order [safe_mk_iff, safe_mem, safe_ctl, foldl_safe, foldl_fst_safe, saveBlock_safe]

theorem cancelReady_safe {s : State} (lid : Nat) (n : Nat) (hs : s.safe = true) :
    (State.cancelReady s lid n).safe = true := by
  unfold State.cancelReady
  grind -ring -linarith -lia -order [safe_mk_iff, safe_mem, safe_ctl, endLaunch_safe]

theorem saveGo_safe {s : State} (hs : s.safe = true) :
    (State.saveGo s).safe = true := by
  unfold State.saveGo
  grind -ring -linarith -lia -order [cancelReady_safe, saveReady_safe]

theorem saveTurn_safe {s : State} (hs : s.safe = true) :
    (State.saveTurn s).safe = true := by
  unfold State.saveTurn
  grind -ring -linarith -lia -order [saveGo_safe]

theorem preempt_safe {s : State} (blks : List (Nat × Block)) (hs : s.safe = true) :
    (State.preempt s blks).safe = true := by
  unfold State.preempt
  grind -ring -linarith -lia -order [safe_mk_iff, safe_mem, safe_ctl, foldl_safe, foldl_fst_safe, areaList_safe,
    haltBlock_safe, saveGo_safe]

theorem execPreEmptCore_safe (core : Byte) {s : State} (hs : s.safe = true) :
    SafeOut (execPreEmptCore core s) := by
  unfold execPreEmptCore
  grind -ring -linarith -lia -order [SafeOut, preempt_safe]

theorem execPreEmptLaunch_safe {s : State} (hs : s.safe = true) :
    SafeOut (execPreEmptLaunch s) := by
  unfold execPreEmptLaunch
  grind -ring -linarith -lia -order [safe_mk_iff, safe_mem, safe_ctl, SafeOut, preempt_safe]

theorem execCancelLaunch_safe {s : State} (hs : s.safe = true) :
    SafeOut (execCancelLaunch s) := by
  unfold execCancelLaunch
  grind -ring -linarith -lia -order [safe_mk_iff, safe_mem, safe_ctl, foldl_safe, foldl_fst_safe, SafeOut,
    haltBlock_safe, putLaunch_safe, saveGo_safe]

theorem useUp_safe {s : State} (id : Nat) (hs : s.safe = true) :
    (State.useUp s id).safe = true := by
  unfold State.useUp
  grind -ring -linarith -lia -order [safe_mk_iff, safe_mem, safe_ctl]

theorem execRestoreQueue_safe (core : Byte) {s : State} (hs : s.safe = true) :
    SafeOut (execRestoreQueue core s) := by
  unfold execRestoreQueue
  grind -ring -linarith -lia -order [safe_mk_iff, safe_mem, safe_ctl, SafeOut, post_safe, useUp_safe]

theorem execRestcap_safe (k : Nat) {s : State} (hs : s.safe = true) :
    SafeOut (execRestcap k s) := by
  unfold execRestcap
  grind -ring -linarith -lia -order [safe_mk_iff, safe_mem, safe_ctl, SafeOut, post_safe]

theorem spillRead_safe {s : State} (core : Nat) (n0 : Nat) (n1 : Word) (n2 : Nat) (hs : s.safe = true) :
    (State.spillRead s core n0 n1 n2).1.safe = true := by
  fun_induction State.spillRead s core n0 n1 n2 <;> grind -ring -linarith -lia -order [engRead_safe]

theorem spillWrite_safe {s : State} (core : Nat) (n0 : Nat) (n1 : Word) (n2 : List Byte) (hs : s.safe = true) :
    (State.spillWrite s core n0 n1 n2).1.safe = true := by
  fun_induction State.spillWrite s core n0 n1 n2 <;> grind -ring -linarith -lia -order [engWrite_safe]

theorem moveStacks_safe {s : State} (core : Nat) (l : List Shift) (hs : s.safe = true) :
    (State.moveStacks s core l).1.safe = true := by
  unfold State.moveStacks
  grind -ring -linarith -lia -order [foldl_safe, foldl_fst_safe, spillRead_safe, spillWrite_safe]

theorem resumeWarp_safe {s : State} (v : Saved) (core : Nat) (e : Nat × Warp) (k : Nat) (hs : s.safe = true) :
    (State.resumeWarp s v core e k).safe = true := by
  unfold State.resumeWarp
  grind -ring -linarith -lia -order [safe_mk_iff, safe_mem, safe_ctl, forget_safe, fetchHeader_safe, putWarp_safe,
    acquire_safe]

theorem readmit_safe {s : State} (v : Saved) (l : Launch) (core : Nat) (hs : s.safe = true) :
    (State.readmit s v l core).safe = true := by
  unfold State.readmit
  grind -ring -linarith -lia -order [safe_mk_iff, safe_mem, safe_ctl, foldl_safe, foldl_fst_safe, putBlock_safe,
    putLaunch_safe, setMatrix_safe, startWarps_safe, putWarp_safe]

theorem resumeBlock_safe {s : State} (v : Saved) (l : Launch) (core : Nat) (slots : List ((Nat × Warp) × Nat))
    (hs : s.safe = true) :
    (State.resumeBlock s v l core slots).safe = true := by
  unfold State.resumeBlock
  grind -ring -linarith -lia -order [safe_mk_iff, safe_mem, safe_ctl, foldl_safe, foldl_fst_safe, putBlock_safe,
    setMatrix_safe, resumeWarp_safe, rereadCmd_safe]

theorem execRestore_safe (k : Nat) {s : State} (hs : s.safe = true) :
    SafeOut (execRestore k s) := by
  unfold execRestore
  repeat' split
  all_goals grind -ring -linarith -lia -order [safe_mk_iff, safe_mem, safe_ctl, SafeOut, post_safe, readmit_safe,
    useUp_safe, moveStacks_safe, resumeBlock_safe]

/-! ## Migrate -/

theorem retag_safe {s : State} (old : Nat) (new : Nat) (hs : s.safe = true) :
    (State.retag s old new).safe = true := by
  unfold State.retag
  grind -ring -linarith -lia -order [safe_mk_iff, safe_mem, safe_ctl]

theorem risingFrom_filter {α : Type} (q : Nat × α → Bool) : ∀ {lo : Nat} {l : Sparse α}, risingFrom lo l = true →
    risingFrom lo (l.filter q) = true
  | _, [], _ => rfl
  | lo, (k, v) :: r, h => by
    simp only [risingFrom, Bool.and_eq_true, decide_eq_true_eq] at h
    have ih := risingFrom_filter q h.2
    by_cases hq : q (k, v) = true
    · rw [List.filter_cons_of_pos hq]
      simp [risingFrom, h.1, ih]
    · rw [List.filter_cons_of_neg hq]
      exact risingFrom_mono ih (by omega)

/-- Part of a memory in canonical form is in canonical form. -/
theorem filter_wf {m : List Host.Cell} (q : Host.Cell → Bool) (h : Memory.wf m = true) : Memory.wf
    (m.filter q) = true := by
  simp only [Memory.wf, Bool.and_eq_true] at h ⊢
  refine ⟨risingFrom_filter q h.1, ?_⟩
  simp only [List.all_eq_true, List.mem_filter] at h ⊢
  exact fun x hx => h.2 x hx.1

theorem copyFrame_safe {s : State} (old new : Nat) (hs : s.safe = true) : (s.copyFrame old new).safe = true := by
  have hc := safe_ctl hs
  exact safe_mk (s := s.copyFrame old new) (foldl_wf _ (fun _ x h => writeMem_wf _ x.2 h) _ _ (filter_wf _ (safe_mem hs))) hc

theorem dropLeaf_safe {s : State} (leaf : Nat) (hs : s.safe = true) :
    (State.dropLeaf s leaf).safe = true := by
  unfold State.dropLeaf
  grind -ring -linarith -lia -order [safe_mk_iff, safe_mem, safe_ctl]

theorem write4_safe {s : State} (pa : Nat) (v : Nat) (hs : s.safe = true) :
    (State.write4 s pa v).safe = true := by
  unfold State.write4
  grind -ring -linarith -lia -order [syncWrite_safe]

theorem migrate_safe {s : State} (leaf : Nat) (core : Nat) (hs : s.safe = true) :
    ∀ t, State.migrate s leaf core = some t → t.safe = true := by
  unfold State.migrate
  grind -ring -linarith -lia -order [copyFrame_safe, syncWrite_safe, dropLeaf_safe, write4_safe, retag_safe]

theorem followPage_safe {s : State} (leaf : Nat) (hs : s.safe = true) :
    (State.followPage s leaf).safe = true := by
  unfold State.followPage
  grind -ring -linarith -lia -order [safe_mk_iff, safe_mem, safe_ctl, migrate_safe]

theorem execFollowEpoch_safe {s : State} (hs : s.safe = true) :
    SafeOut (execFollowEpoch s) := by
  unfold execFollowEpoch
  grind -ring -linarith -lia -order [safe_mk_iff, safe_mem, safe_ctl, foldl_safe, foldl_fst_safe, SafeOut,
    followPage_safe]

/-! ## Outside -/

theorem execCtlHostWrite_safe (sel : CtlReg) (v : Word) {s : State} (hs : s.safe = true) :
    SafeOut (execCtlHostWrite sel v s) := by
  unfold execCtlHostWrite
  grind -ring -linarith -lia -order [safe_mk_iff, safe_mem, safe_ctl, SafeOut, ctlStore_safe]

theorem execCtlerrClear_safe {s : State} (hs : s.safe = true) :
    SafeOut (execCtlerrClear s) := by
  unfold execCtlerrClear
  grind -ring -linarith -lia -order [safe_mk_iff, safe_mem, safe_ctl, SafeOut]

theorem answer_safe {s : State} (bar : Nat) (off : Nat) (v : Option Word) (hs : s.safe = true) :
    (State.answer s bar off v).safe = true := by
  unfold State.answer
  grind -ring -linarith -lia -order [safe_mk_iff, safe_mem, safe_ctl]

theorem windowRead_safe {s : State} (off : Nat) (bytes : Nat) (hs : s.safe = true) :
    (State.windowRead s off bytes).safe = true := by
  unfold State.windowRead
  grind -ring -linarith -lia -order [answer_safe]

theorem resizeBar_safe {s : State} (memory : Bool) (log : Nat) (hs : s.safe = true) :
    (State.resizeBar s memory log).safe = true := by
  unfold State.resizeBar
  grind -ring -linarith -lia -order [safe_mk_iff, safe_mem, safe_ctl]

theorem execControlWindowWrite_safe (off : Nat) (v : Word) {s : State} (hs : s.safe = true) :
    SafeOut (execControlWindowWrite off v s) := by
  refine safeOut_next ?_
  repeat' first | with_reducible refine ite_safe ?_ ?_ | exact safe_of_eq hs rfl rfl

theorem execHostMemoryWrite_safe (off : Nat) (v : HostBytes) {s : State} (hs : s.safe = true) :
    SafeOut (execHostMemoryWrite off v s) := by
  unfold execHostMemoryWrite
  grind -ring -linarith -lia -order [SafeOut, syncWriteAt_safe, answer_safe]

theorem execHostMemoryRead_safe (off : Nat) {s : State} (hs : s.safe = true) :
    SafeOut (execHostMemoryRead off s) := by
  unfold execHostMemoryRead
  grind -ring -linarith -lia -order [SafeOut, gate_safe, answer_safe]

theorem freeLantern_safe {s : State} (d : Nat) (hs : s.safe = true) :
    (State.freeLantern s d).safe = true := by
  unfold State.freeLantern
  grind -ring -linarith -lia -order [safe_mk_iff, safe_mem, safe_ctl]

theorem emptySlices_safe {s : State} (d : Nat) (hs : s.safe = true) :
    (State.emptySlices s d).safe = true := by
  unfold State.emptySlices
  grind -ring -linarith -lia -order [safe_mk_iff, safe_mem, safe_ctl, proxyFlush_safe]

theorem execTowerReset_safe (d : Fin 16) (force : Bool) {s : State} (hs : s.safe = true) :
    SafeOut (execTowerReset d force s) := by
  unfold execTowerReset
  grind -ring -linarith -lia -order [safe_mk_iff, safe_mem, safe_ctl, foldl_safe, foldl_fst_safe, SafeOut,
    endLaunch_safe, publish_safe, putCore_safe, drain_safe, putDome_safe, emptySlices_safe, freeLantern_safe]

theorem execTowerResetEnd_safe (d : Nat) {s : State} (hs : s.safe = true) :
    SafeOut (execTowerResetEnd d s) := by
  unfold execTowerResetEnd
  grind -ring -linarith -lia -order [safe_mk_iff, safe_mem, safe_ctl, SafeOut]

theorem powerSample_safe {s : State} (hs : s.safe = true) :
    (State.powerSample s).safe = true := by
  unfold State.powerSample
  grind -ring -linarith -lia -order [safe_mk_iff, safe_mem, safe_ctl]

theorem execPcap_safe (v : Word) {s : State} (hs : s.safe = true) :
    SafeOut (execPcap v s) := by
  unfold execPcap
  grind -ring -linarith -lia -order [safe_mk_iff, safe_mem, safe_ctl, SafeOut]

theorem execPstateChange_safe (v : Fin 3) {s : State} (hs : s.safe = true) :
    SafeOut (execPstateChange v s) := by
  unfold execPstateChange
  grind -ring -linarith -lia -order [safe_mk_iff, safe_mem, safe_ctl, SafeOut]

theorem execTimeCorrection_safe (offset : Int) {s : State} (hs : s.safe = true) :
    SafeOut (execTimeCorrection offset s) := by
  unfold execTimeCorrection
  grind -ring -linarith -lia -order [safe_mk_iff, safe_mem, safe_ctl, SafeOut]

theorem drainSlices_safe {s : State} (hs : s.safe = true) :
    (State.drainSlices s).safe = true := by
  unfold State.drainSlices
  grind -ring -linarith -lia -order [foldl_safe, foldl_fst_safe, drain_safe, proxyFlush_safe]

theorem checkpoint_safe {s : State} (cmd : Nat) (a0 : Word) (hs : s.safe = true) :
    (State.checkpoint s cmd a0).safe = true := by
  unfold State.checkpoint
  grind -ring -linarith -lia -order [safe_mk_iff, safe_mem, safe_ctl, drainSlices_safe]

theorem execCheckpointSave_safe (a : Word) {s : State} (hs : s.safe = true) :
    SafeOut (execCheckpointSave a s) := by
  unfold execCheckpointSave
  grind -ring -linarith -lia -order [SafeOut, checkpoint_safe]

theorem execCheckpointRestore_safe (a : Word) {s : State} (hs : s.safe = true) :
    SafeOut (execCheckpointRestore a s) := by
  unfold execCheckpointRestore
  grind -ring -linarith -lia -order [SafeOut, checkpoint_safe]

theorem execCheckpointDone_safe {s : State} (hs : s.safe = true) : SafeOut (execCheckpointDone s) := by
  have hf : ∀ (q : Host.Cell → Bool) (g : Nat → Option Nat), Memory.wf (s.mem.foldl
      (fun m c => match g c.1 with | some k => writeMem m k c.2 | none => m) (s.mem.filter q)) = true := by
    intro q g
    refine foldl_wf _ (fun m c h => ?_) _ _ (filter_wf q (safe_mem hs))
    split
    · exact writeMem_wf _ _ h
    · exact h
  have hc := safe_ctl hs
  refine safeOut_next (ite_safe hs (ite_safe ?_ ?_))
  · exact safe_mk (hf _ _) hc
  · exact safe_mk (hf _ _) hc

theorem execCounterSelectWrite_safe (u : CUnit) (unit : Nat) (i : Fin 8) (v : Word) {s : State} (hs : s.safe = true) :
    SafeOut (execCounterSelectWrite u unit i v s) := by
  unfold execCounterSelectWrite
  grind -ring -linarith -lia -order [safe_mk_iff, safe_mem, safe_ctl, SafeOut]

theorem execModuleReset_safe (images : List (Bool × Word)) (failedTower : Option (Fin 9)) (transitOk : Bool)
    (badCores : List Nat)
    {s : State} (hs : s.safe = true) : SafeOut (execModuleReset images failedTower transitOk badCores s) := by
  have hm := safe_mem hs
  refine safeOut_next (safe_mk ?_ ?_)
  · exact hm
  · exact show Regs.reset.legal = true by decide

theorem spdmAnswer_safe {s : State} (port : Bool) (what : Nat) (body : List Word) (hs : s.safe = true) :
    (State.spdmAnswer s port what body).safe = true := by
  unfold State.spdmAnswer
  grind -ring -linarith -lia -order [safe_mk_iff, safe_mem, safe_ctl]

theorem execGetVersion_safe (port : Bool) {s : State} (hs : s.safe = true) :
    SafeOut (execGetVersion port s) := by
  unfold execGetVersion
  grind -ring -linarith -lia -order [SafeOut, spdmAnswer_safe]

theorem execGetCapabilities_safe (port : Bool) {s : State} (hs : s.safe = true) :
    SafeOut (execGetCapabilities port s) := by
  unfold execGetCapabilities
  grind -ring -linarith -lia -order [SafeOut, spdmAnswer_safe]

theorem execNegotiateAlgorithms_safe (port : Bool) {s : State} (hs : s.safe = true) :
    SafeOut (execNegotiateAlgorithms port s) := by
  unfold execNegotiateAlgorithms
  grind -ring -linarith -lia -order [SafeOut, spdmAnswer_safe]

theorem execGetDigests_safe (port : Bool) {s : State} (hs : s.safe = true) :
    SafeOut (execGetDigests port s) := by
  unfold execGetDigests
  grind -ring -linarith -lia -order [SafeOut, spdmAnswer_safe]

theorem execGetCertificate_safe (port : Bool) {s : State} (hs : s.safe = true) :
    SafeOut (execGetCertificate port s) := by
  unfold execGetCertificate
  grind -ring -linarith -lia -order [SafeOut, spdmAnswer_safe]

theorem execChallenge_safe (port : Bool) {s : State} (hs : s.safe = true) :
    SafeOut (execChallenge port s) := by
  unfold execChallenge
  grind -ring -linarith -lia -order [SafeOut, spdmAnswer_safe]

theorem execGetMeasurements_safe (port : Bool) {s : State} (hs : s.safe = true) :
    SafeOut (execGetMeasurements port s) := by
  unfold execGetMeasurements
  grind -ring -linarith -lia -order [SafeOut, spdmAnswer_safe]

theorem bexPerform_safe {s : State} (addr : Nat) (op : BexOp) (hs : s.safe = true) :
    (State.bexPerform s addr op).1.safe = true := by
  unfold State.bexPerform
  grind -ring -linarith -lia -order [gate_safe, applyReds_safe, syncWriteAt_safe, atomic_safe, syncWrite_safe]

theorem execBexsetRequest_safe (dome : Fin 9) (source : BitVec 16) (tag : BitVec 16) (seq : BitVec 32) (addr : Nat)
    (op : BexOp) {s : State} (hs : s.safe = true) :
    SafeOut (execBexsetRequest dome source tag seq addr op s) := by
  unfold execBexsetRequest
  grind -ring -linarith -lia -order [safe_mk_iff, safe_mem, safe_ctl, SafeOut, bexPerform_safe]

theorem execBexsetAck_safe (dome : Fin 9) (source : BitVec 16) (tag : BitVec 16) (seq : BitVec 32) {s : State}
    (hs : s.safe = true) :
    SafeOut (execBexsetAck dome source tag seq s) := by
  unfold execBexsetAck
  grind -ring -linarith -lia -order [safe_mk_iff, safe_mem, safe_ctl, SafeOut]

theorem endPeerHoists_safe {s : State} (r : BexOut) (n : Nat) (hs : s.safe = true) :
    (State.endPeerHoists s r n).safe = true := by
  unfold State.endPeerHoists
  grind -ring -linarith -lia -order [dropHoists_safe, endHoists_safe]

theorem bexEnd_safe {s : State} (r : BexOut) (v : Option Word) (hs : s.safe = true) :
    (State.bexEnd s r v).safe = true := by
  unfold State.bexEnd
  grind -ring -linarith -lia -order [safe_mk_iff, safe_mem, safe_ctl, atomic_safe, endPeerHoists_safe]

theorem execBexsetRetransmit_safe (tag : Nat) {s : State} (hs : s.safe = true) :
    SafeOut (execBexsetRetransmit tag s) := by
  unfold execBexsetRetransmit
  grind -ring -linarith -lia -order [safe_mk_iff, safe_mem, safe_ctl, SafeOut, bexEnd_safe]

theorem execBexsetResponse_safe (tag : Nat) (v : Word) {s : State} (hs : s.safe = true) :
    SafeOut (execBexsetResponse tag v s) := by
  unfold execBexsetResponse
  grind -ring -linarith -lia -order [SafeOut, bexEnd_safe]

theorem execUcieLinkRetry_safe (dome : Fin 9) {s : State} (hs : s.safe = true) :
    SafeOut (execUcieLinkRetry dome s) := by
  unfold execUcieLinkRetry
  grind -ring -linarith -lia -order [SafeOut, count_safe]

theorem execAgeingSample_safe (marked : Margins) {s : State} (hs : s.safe = true) :
    SafeOut (execAgeingSample marked s) := by
  unfold execAgeingSample
  grind -ring -linarith -lia -order [safe_mk_iff, safe_mem, safe_ctl, SafeOut]

theorem replaceLaunch_safe {s : State} (lid : Nat) (core : Nat) (hs : s.safe = true) :
    (State.replaceLaunch s lid core).safe = true := by
  unfold State.replaceLaunch
  grind -ring -linarith -lia -order [safe_mk_iff, safe_mem, safe_ctl, dropUnstarted_safe, putLaunch_safe]

theorem redispatch_safe {s : State} (lid : Nat) (core : Nat) (hs : s.safe = true) :
    (State.redispatch s lid core).safe = true := by
  unfold State.redispatch
  grind -ring -linarith -lia -order [safe_mk_iff, safe_mem, safe_ctl, dispatch_safe, putLaunch_safe]

theorem execCoreRetirement_safe (core : Nat) {s : State} (hs : s.safe = true) :
    SafeOut (execCoreRetirement core s) := by
  unfold execCoreRetirement
  grind -ring -linarith -lia -order [safe_mk_iff, safe_mem, safe_ctl, foldl_safe, foldl_fst_safe, SafeOut,
    replaceLaunch_safe, redispatch_safe]

/-! ## Issue -/

theorem mapLane_safe {s : State} (core : Nat) (lane : Nat) (f : Nat → Split → Split) (hs : s.safe = true) :
    (State.mapLane s core lane f).safe = true := by
  unfold State.mapLane
  grind -ring -linarith -lia -order [safe_mk_iff, safe_mem, safe_ctl, foldl_safe, foldl_fst_safe, putWarp_safe]

theorem noteIssue_safe {s : State} (core : Nat) (lane : Nat) (slot : Nat) (p : Split) (boost : Bool)
    (hs : s.safe = true) :
    (State.noteIssue s core lane slot p boost).safe = true := by
  unfold State.noteIssue
  grind -ring -linarith -lia -order [safe_mk_iff, safe_mem, safe_ctl, mapLane_safe]

theorem issued_safe {s : State} (core : Nat) (lane : Nat) (slot : Nat) (id : Nat) (hs : s.safe = true) :
    (State.issued s core lane slot id).safe = true := by
  unfold State.issued
  grind -ring -linarith -lia -order [safe_mk_iff, safe_mem, safe_ctl, putWarp_safe]

theorem fetchFault_safe {s : State} (k : Nat) (w : Warp) (p : Split) (e : MemErr) (hs : s.safe = true) :
    (State.fetchFault s k w p e).safe = true := by
  unfold State.fetchFault
  grind -ring -linarith -lia -order [safe_mk_iff, safe_mem, safe_ctl, post_safe, putWarp_safe, takeTrap_safe]

theorem enterBlock_safe {s : State} (k : Nat) (w : Warp) (p : Split) (hs : s.safe = true) :
    (State.enterBlock s k w p).safe = true := by
  unfold State.enterBlock
  grind -ring -linarith -lia -order [safe_mk_iff, safe_mem, safe_ctl, fetchEntry_safe, settleWarp_safe, seqTrap_safe,
    fetchFault_safe]

theorem forWord_safe {s : State} (r : Ref) (w : Warp) (p : Split) (i : Instr) (hs : s.safe = true) :
    (State.forWord s r w p i).safe = true := by
  unfold State.forWord
  grind -ring -linarith -lia -order [safe_mk_iff, safe_mem, safe_ctl, noteIssue_safe, count_safe, applyYield_safe]

theorem afterWord_safe {s : State} (r : Ref) (hs : s.safe = true) :
    (State.afterWord s r).safe = true := by
  unfold State.afterWord
  grind -ring -linarith -lia -order [safe_mk_iff, safe_mem, safe_ctl, issued_safe]

theorem afterEx_safe (r : Ref) {y : Host.Outcome State Fault Refusal} (hy : SafeOut y) : SafeOut (afterEx r y) := by
  unfold afterEx
  cases y with
  | next t => exact safeOut_next (afterWord_safe r (hy t rfl))
  | fault f => exact safeOut_fault f
  | refused f => intro u e; cases e

theorem issueWord_safe {s0 : State} (r : Ref) (w : Warp) (p : Split) (hs : s0.safe = true) :
    (State.issueWord s0 r w p).1.safe = true := by
  unfold State.issueWord
  grind -ring -linarith -lia -order [safe_mk_iff, safe_mem, safe_ctl, enterBlock_safe, putWarp_safe, takeTrap_safe,
    fetchSlot_safe, fetchFault_safe]

theorem runWord_safe {s : State} (r : Ref) (w : Warp) (p : Split)
    (ex : Instr → State → Host.Outcome State Fault Refusal)
    (hx : ∀ i (s : State), s.safe = true → SafeOut (ex i s)) (hs : s.safe = true) : SafeOut (s.runWord r w p ex) := by
  have h := issueWord_safe r w p hs
  unfold State.runWord
  split
  · rename_i s1 e; rw [e] at h; exact safeOut_next h
  · rename_i s1 i e; rw [e] at h; exact afterEx_safe r (hx _ _ (forWord_safe r w p i h))

theorem issue_safe {s : State} (core : Nat) (lane : Nat) (ex : Instr → State → Host.Outcome State Fault Refusal)
    (hx : ∀ i (s : State), s.safe = true → SafeOut (ex i s)) (hs : s.safe = true) : SafeOut (s.issue core lane ex) := by
  unfold State.issue
  grind -ring -linarith -lia -order [SafeOut, runWord_safe]

theorem finishWord_safe {s : State} (r : Ref) (i : Instr) (ex : Instr → State → Host.Outcome State Fault Refusal)
    (hx : ∀ i (s : State), s.safe = true → SafeOut (ex i s)) (hs : s.safe = true) : SafeOut (s.finishWord r i ex) := by
  unfold State.finishWord
  split
  · exact safeOut_next hs
  · exact afterEx_safe r (hx _ _ (safe_of_eq hs rfl rfl))

theorem begin_safe {s : State} (r : Ref) (hs : s.safe = true) :
    ∀ u i, s.begin r = some (u, i) → u.safe = true := by
  intro u i h
  unfold State.begin at h
  dsimp only at h
  split at h
  · cases h; exact hs
  · split at h
    · split at h
      · cases h
      · split at h
        · cases h
        · rename_i s1 j e
          have h1 : s1.safe = true := of_fst e (issueWord_safe _ _ _ hs)
          split at h
          · cases h
          · have hw : ∀ w p k v, ((s1.forWord r w p j).putWarp k v).safe = true := fun w p k v =>
              putWarp_safe k v (forWord_safe r w p j h1)
            cases h
            grind -ring -linarith -lia -order [safe_mk_iff, safe_mem, safe_ctl]
    · cases h

theorem publishPart_safe {s : State} (ex : Instr → State → Host.Outcome State Fault Refusal) (r : Ref) (g : Nat)
    (hs : s.safe = true) : (State.publishPart s ex r g).safe = true := by
  unfold State.publishPart
  grind -ring -linarith -lia -order [publish_safe, begin_safe]

theorem savePart_safe {s : State} (core : Nat) (g : Nat) (hs : s.safe = true) :
    (State.savePart s core g).safe = true := by
  unfold State.savePart
  grind -ring -linarith -lia -order [saveTurn_safe, publish_safe]

theorem commitStart_safe {s : State} (r : Ref) (hs : s.safe = true) : (State.commitStart s r).safe = true := by
  unfold State.commitStart
  grind -ring -linarith -lia -order [startCommits_safe, begin_safe]

theorem resumeStop_safe {s : State} (k : Nat) (p : Split) (st : Stop) (hs : s.safe = true) :
    (State.resumeStop s k p st).safe = true := by
  unfold State.resumeStop
  repeat' split
  all_goals grind -ring -linarith -lia -order [safe_mk_iff, safe_mem, safe_ctl, awaitEval_safe, barPoll_safe,
    tbarPoll_safe, spawnRun_safe, afterReply_safe, putWarp_safe, seqAct_safe, perform_safe, planXst_safe, nested_safe]

theorem resumed_safe {s : State} (r : Ref) (hs : s.safe = true) :
    (State.resumed s r).safe = true := by
  unfold State.resumed
  grind -ring -linarith -lia -order [safe_mk_iff, safe_mem, safe_ctl, putWarp_safe]

theorem resume_safe {s : State} (r : Ref) (hs : s.safe = true) :
    (State.resume s r).safe = true := by
  unfold State.resume
  grind -ring -linarith -lia -order [resumeStop_safe, resumed_safe]

theorem resumeWith_safe {s : State} (ex : Instr → State → Host.Outcome State Fault Refusal) (r : Ref)
    (hx : ∀ i (s : State), s.safe = true → SafeOut (ex i s)) (hs : s.safe = true) : SafeOut (s.resumeWith ex r) := by
  unfold State.resumeWith
  split
  · exact finishWord_safe _ _ _ hx hs
  · exact safeOut_next (resume_safe _ hs)

theorem drainGroup_safe {s : State} (dome : Nat) (g : Nat) (hs : s.safe = true) :
    (State.drainGroup s dome g).safe = true := by
  unfold State.drainGroup
  grind -ring -linarith -lia -order [drain_safe]

theorem dropReplicaLine_safe {s : State} (dome : Nat) (line : Nat) (hs : s.safe = true) :
    (State.dropReplicaLine s dome line).safe = true := by
  unfold State.dropReplicaLine
  grind -ring -linarith -lia -order [safe_mk_iff, safe_mem, safe_ctl, putDome_safe]

theorem dropView_safe {s : State} (line : Nat) (hs : s.safe = true) :
    (State.dropView s line).safe = true := by
  unfold State.dropView
  grind -ring -linarith -lia -order [safe_mk_iff, safe_mem, safe_ctl]

theorem dropHost_safe {s : State} (line : Nat) (hs : s.safe = true) :
    (State.dropHost s line).safe = true := by
  unfold State.dropHost
  grind -ring -linarith -lia -order [safe_mk_iff, safe_mem, safe_ctl]

theorem fillEarly_safe {s : State} (core : Nat) (line : Nat) (hs : s.safe = true) :
    (State.fillEarly s core line).safe = true := by
  unfold State.fillEarly
  grind -ring -linarith -lia -order [gate_safe, reach_safe, fillLine_safe]

theorem dropTlbEntry_safe {s : State} (core : Nat) (i : Nat) (hs : s.safe = true) :
    (State.dropTlbEntry s core i).safe = true := by
  unfold State.dropTlbEntry
  grind -ring -linarith -lia -order [safe_mk_iff, safe_mem, safe_ctl, putCore_safe]

theorem dropCode_safe {s : State} (core : Nat) (a : Nat) (hs : s.safe = true) :
    (State.dropCode s core a).safe = true := by
  unfold State.dropCode
  grind -ring -linarith -lia -order [safe_mk_iff, safe_mem, safe_ctl, putCore_safe]

theorem bump_safe {s : State} (u : CUnit) (unit : Nat) (event : Nat) (lane : Nat) (prio : Nat) (hs : s.safe = true) :
    (State.bump s u unit event lane prio).safe = true := by
  unfold State.bump
  grind -ring -linarith -lia -order [count_safe]

theorem damageLine_safe {s : State} (line : Nat) (hs : s.safe = true) :
    (State.damageLine s line).safe = true := by
  unfold State.damageLine
  grind -ring -linarith -lia -order [safe_mk_iff, safe_mem, safe_ctl]

theorem damageScratch_safe {s : State} (blk : Nat) (off : Nat) (hs : s.safe = true) :
    (State.damageScratch s blk off).safe = true := by
  unfold State.damageScratch
  grind -ring -linarith -lia -order [safe_mk_iff, safe_mem, safe_ctl]

theorem damageReg_safe {s : State} (k : Nat) (r : Nat) (hs : s.safe = true) :
    (State.damageReg s k r).safe = true := by
  unfold State.damageReg
  grind -ring -linarith -lia -order [safe_mk_iff, safe_mem, safe_ctl, putWarp_safe]

theorem outsideWrite_safe {s : State} (a : Nat) (v : Byte) (hs : s.safe = true) :
    (State.outsideWrite s a v).safe = true := by
  unfold State.outsideWrite
  grind -ring -linarith -lia -order [safe_mk_iff, safe_mem, safe_ctl, writeMem_wf]

theorem nextTurn_safe {s : State} (hs : s.safe = true) :
    (State.nextTurn s).1.safe = true := by
  unfold State.nextTurn
  grind -ring -linarith -lia -order [safe_mk_iff, safe_mem, safe_ctl]

/-! ## Late -/

theorem lateResult_safe {s : State} (y : Late) (v : Nat → Word) (fl : Flags) (hs : s.safe = true) :
    (State.lateResult s y v fl).safe = true := by
  unfold State.lateResult
  grind -ring -linarith -lia -order [foldl_safe, foldl_fst_safe, putWarp_safe]

theorem dropLate_safe {s : State} (y : Late) (hs : s.safe = true) :
    (State.dropLate s y).safe = true := by
  unfold State.dropLate
  grind -ring -linarith -lia -order [safe_mk_iff, safe_mem, safe_ctl]

theorem latePart_safe {s : State} (y : Late) (done : State → State) (hd : ∀ t : State, t.safe = true →
    (done t).safe = true)
    (hs : s.safe = true) : (State.latePart s y done).safe = true := by
  unfold State.latePart
  split
  · exact hd _ (dropLate_safe y hs)
  · exact safe_of_eq hs rfl rfl

theorem lateRead_safe {s : State} (core : Nat) (alloc : Bool) (ks : List Nat) (hs : s.safe = true) :
    (State.lateRead s core alloc ks).1.safe = true := by
  unfold State.lateRead
  grind -ring -linarith -lia -order [gate_safe, loadKeys_safe]

theorem lateWrite_safe {s : State} (y : Late) (ks : List Nat) (bs : List Byte) (hs : s.safe = true) :
    (State.lateWrite s y ks bs).safe = true := by
  unfold State.lateWrite
  grind -ring -linarith -lia -order [safe_mk_iff, safe_mem, safe_ctl, storeKeys_safe, putBlock_safe, putLive_safe]

theorem latePiece_safe {s : State} (y : Late) (g : Nat) (hs : s.safe = true) :
    (State.latePiece s y g).safe = true := by
  unfold State.latePiece
  dsimp only
  split
  · exact dropLate_safe _ hs
  · split
    · exact latePart_safe _ _ (fun t h => lateResult_safe _ _ _ (lastUse_safe _ _ _ h)) (lateRead_safe _ _ _ hs)
    · exact latePart_safe _ _ (fun t h => lateResult_safe _ _ _ (lastUse_safe _ _ _ h))
        (atomHome_safe _ _ _ _ _ (atHome_safe _ (gate_safe _ hs)))
    · exact latePart_safe _ _ (fun t h => lateResult_safe _ _ _ (lastUse_safe _ _ _ h))
        (atomHome_safe _ _ _ _ _ (atHome_safe _ (gate_safe _ hs)))
    · exact latePart_safe _ _ (fun t h => lastUse_safe _ _ _ h) (lateWrite_safe _ _ _ hs)

theorem land1_safe {s : State} (id : Nat) (t : Nat) (g : Nat) (hs : s.safe = true) :
    (State.land1 s id t g).safe = true := by
  unfold State.land1
  grind -ring -linarith -lia -order [latePiece_safe]

theorem landPiece_safe {s : State} (id : Nat) (t : Nat) (g : Nat) (hs : s.safe = true) :
    (State.landPiece s id t g).safe = true := by
  unfold State.landPiece
  grind -ring -linarith -lia -order [latePiece_safe]

theorem landAll_safe {s : State} (f : Late → Bool) (hs : s.safe = true) :
    (State.landAll s f).safe = true := by
  unfold State.landAll
  grind -ring -linarith -lia -order [foldl_safe, foldl_fst_safe, landPiece_safe]

theorem applyRedsOf_safe {s : State} (f : Pending → Bool) (hs : s.safe = true) :
    (State.applyRedsOf s f).safe = true := by
  unfold State.applyRedsOf
  grind -ring -linarith -lia -order [foldl_safe, foldl_fst_safe, applyReds_safe]

theorem formKeys_safe {s : State} (k : Nat) (i : Instr) (f : MemForm) (base : Word) (hs : s.safe = true) :
    (State.formKeys s k i f base).1.safe = true := by
  unfold State.formKeys
  grind -ring -linarith -lia -order [load_safe, translateRun_safe]

theorem settle_safe {s : State} (i : Instr) (hs : s.safe = true) :
    (State.settle s i).safe = true := by
  unfold State.settle
  grind -ring -linarith -lia -order [landAll_safe, applyRedsOf_safe]

theorem settleWhole_safe {s : State} (i : Instr) (hs : s.safe = true) :
    (State.settleWhole s i).safe = true := by
  unfold State.settleWhole
  grind -ring -linarith -lia -order [settle_safe, landAll_safe]

theorem lateKeys_safe {s : State} (k : Nat) (i : Instr) (f : MemForm) (ops : Opnds) (n0 : List Nat)
    (hs : s.safe = true) :
    (State.lateKeys s k i f ops n0).1.safe = true := by
  fun_induction State.lateKeys s k i f ops n0 <;> grind -ring -linarith -lia -order [formKeys_safe]

theorem addLate_safe {s : State} (k : Nat) (id : Nat) (f : MemForm) (pend : Pend) (e : Nat × List Nat)
    (hs : s.safe = true) :
    (State.addLate s k id f pend e).safe = true := by
  unfold State.addLate
  have hfold : ∀ (l : List Nat) c cls h, (l.foldl (fun (z : State) n => z.reach c n cls h) s).safe = true :=
    fun l c cls h => foldl_safe _ (fun a b ha => reach_safe _ _ _ _ ha) l s hs
  have hw : ∀ h cls st l st2, ((s.noteLines k h cls e.2 st).window k l st2).safe = true :=
    fun h cls st l st2 => window_safe _ _ _ (noteLines_safe _ _ _ _ _ hs)
  have fin : ∀ {u : State} (y : Late), u.safe = true →
      (if e.2 = [] then u.lateResult y (fun _ => 0) 0 else { u with late := u.late ++ [y] }).safe = true := by
    intro u y hu
    split
    · exact lateResult_safe _ _ _ hu
    · exact safe_of_eq hu rfl rfl
  dsimp only
  refine fin _ ?_
  split
  · exact hs
  · split
    · exact hfold _ _ _ _
    · split
      · exact noteFrame_safe _ _ (hw _ _ _ _ _)
      · exact hw _ _ _ _ _

theorem lateRelease_safe {s : State} (c : WCtx) (i : Instr) (hs : s.safe = true) :
    (State.lateRelease s c i).safe = true := by
  unfold State.lateRelease
  grind -ring -linarith -lia -order [release_safe]

theorem lateHoist_safe {s : State} (k : Nat) (i : Instr) (T : Mask) (ops : Opnds) (l : List (Nat × List Nat))
    (hs : s.safe = true) :
    (State.lateHoist s k i T ops l).safe = true := by
  unfold State.lateHoist
  grind -ring -linarith -lia -order [putWarp_safe]

theorem startLate_safe {s : State} (i : Instr) (hs : s.safe = true) :
    ∀ t, State.startLate s i = some t → t.safe = true := by
  intro t h
  unfold State.startLate at h
  dsimp only at h
  split at h
  · split at h
    · cases h
    · split at h
      · cases h
      · split at h
        · cases h
        · split at h
          · cases h
          · rename_i s2 l hl
            have h1 : s2.safe = true := by
              exact of_fst hl (lateKeys_safe _ _ _ _ _ (lateRelease_safe _ _ (putWarp_safe _ _ hs)))
            have h4 : ∀ k id f pend,
    (l.foldl (fun (st : State) e => st.addLate k id f pend e) s2.fresh.2).safe = true :=
              fun k id f pend => foldl_safe _ (fun a b ha => addLate_safe _ _ _ _ _ ha) _ _ (fresh_safe h1)
            rw [Option.some.injEq] at h
            rw [← h]
            exact seqAct_safe _ _ _ (lateHoist_safe _ _ _ _ _ (h4 _ _ _ _))
  · cases h

theorem lateOr_safe {ex : Instr → State → Host.Outcome State Fault Refusal}
    (hx : ∀ i (s : State), s.safe = true → SafeOut (ex i s)) (i : Instr) {s : State} (hs : s.safe = true) :
    SafeOut (lateOr ex i s) := by
  unfold lateOr
  split
  · rename_i t ht
    exact safeOut_next (startLate_safe i (settle_safe i hs) _ ht)
  · exact hx _ _ (settleWhole_safe i hs)

theorem settleEvent_safe {s : State} (e : Instr) (hs : s.safe = true) :
    (State.settleEvent s e).safe = true := by
  unfold State.settleEvent
  grind -ring -linarith -lia -order [landAll_safe, applyRedsOf_safe]

theorem damageLanded_safe {s : State} (line : Nat) (hs : s.safe = true) :
    (State.damageLanded s line).safe = true := by
  unfold State.damageLanded
  grind -ring -linarith -lia -order [landAll_safe, applyRedsOf_safe, damageLine_safe]

theorem damageScratchLanded_safe {s : State} (blk : Nat) (off : Nat) (hs : s.safe = true) :
    (State.damageScratchLanded s blk off).safe = true := by
  unfold State.damageScratchLanded
  grind -ring -linarith -lia -order [landAll_safe, damageScratch_safe]

theorem serve_safe {s : State} (x : Want) (hs : s.safe = true) :
    (State.serve s x).safe = true := by
  unfold State.serve
  grind -ring -linarith -lia -order [bexSend_safe, atomic_safe, proxyFlush_safe, publish_safe, drain_safe]

theorem hold_safe {s : State} (t : Turn) (ws : List Want) (hs : s.safe = true) :
    (State.hold s t ws).safe = true := by
  have h1 := foldl_safe State.serve (fun a b ha => serve_safe b ha) ws s hs
  unfold State.hold
  grind -ring -linarith -lia -order [begin_safe]

theorem taken_safe {s r : State} (hs : s.safe = true) (hr : r.safe = true) : (State.taken s r).safe = true := by
  unfold State.taken
  split
  · exact safe_of_eq hr rfl rfl
  · split
    · exact hs
    · exact safe_of_eq hr rfl rfl

/-! ## Placing a word -/

theorem withFetchWord_safe {s : State} (nbits w : Nat) (hs : s.safe = true) : (s.withFetchWord nbits w).safe = true := by
  have h := safe_ctl hs
  have hc : (s.withFetchWord nbits w).ctl.legal = true := h
  refine safe_mk ?_ hc
  refine foldl_wf _ (fun m e h => ?_) _ _ (safe_mem hs)
  exact foldl_wf _ (fun n i h => writeMem_wf _ _ h) _ _ h

end Sys2Proof.Machine
end

