-- ==== Sys2Proof/Laws/Words.lean ====
section
/-! SUPPORT. Laws/Words.lean: what the shared shapes of words do where a word stands ready. -/

namespace Sys2Proof.Machine

/-! ## Tables -/

theorem put_put {α : Type} (a : Nat) (x y : α) : ∀ l : Sparse α, Sparse.put (Sparse.put l a x) a y = Sparse.put l a y
  | [] => by simp [Sparse.put]
  | (k, v) :: r => by
    by_cases h1 : a = k
    · simp [Sparse.put, h1]
    · by_cases h2 : a < k
      · simp [Sparse.put, h1, h2]
      · simp [Sparse.put, h1, h2, put_put a x y r]

@[simp] theorem putWarp_putWarp (s : State) (k : Nat) (x y : Warp) : (s.putWarp k x).putWarp k y = s.putWarp k y := by
  simp [State.putWarp, put_put]

@[simp] theorem putBlock_putBlock (s : State) (b : Nat) (x y : Block) : (s.putBlock b x).putBlock b y = s.putBlock b y := by
  simp [State.putBlock, put_put]

@[simp] theorem putCore_putCore (s : State) (c : Nat) (x y : Core) : (s.putCore c x).putCore c y = s.putCore c y := by
  simp [State.putCore, put_put]

/-! ## Masks -/

theorem foldl_bits (f : Nat → Bool) (i : Nat) (hi : i < 32) : ∀ (l : List Nat) (m : Mask),
    (l.foldl (fun (m : Mask) t => if f t then m ||| BitVec.ofNat 32 (2 ^ t) else m) m).getLsbD i =
      (m.getLsbD i || (l.contains i && f i))
  | [], m => by simp
  | t :: l, m => by
    rw [List.foldl_cons, foldl_bits f i hi l]
    by_cases e : i = t
    · subst e
      by_cases h : f i
      · rw [if_pos h, BitVec.getLsbD_or, getLsbD_pow, h]
        simp only [hi, decide_true, Bool.and_true, Bool.or_true, Bool.true_or, List.contains_cons, BEq.rfl]
      · simp [h]
    · by_cases h : f t
      · rw [if_pos h, BitVec.getLsbD_or, getLsbD_pow]
        have e' : (i == t) = false := by simpa using e
        simp only [e, e', decide_false, Bool.and_false, Bool.or_false, Bool.false_or, List.contains_cons]
      · simp [h, e]

/-- The bits of a mask made from a test. -/
theorem has_ofPred (f : Nat → Bool) (i : Nat) : (Mask.ofPred f).has i = (decide (i < 32) && f i) := by
  by_cases hi : i < 32
  · rw [Mask.has, Mask.ofPred, foldl_bits f i hi]
    simp [hi]
  · simp only [Mask.has, hi, decide_false, Bool.false_and]
    exact BitVec.getLsbD_of_ge _ _ (by omega)

/-- Masks with the same threads are the same. -/
theorem mask_ext {m n : Mask} (h : ∀ i, i < 32 → m.has i = n.has i) : m = n :=
  BitVec.eq_of_getLsbD_eq h

theorem ofPred_has {f : Nat → Bool} {T : Mask} (h : ∀ i, i < 32 → f i = T.has i) : Mask.ofPred f = T :=
  mask_ext fun i hi => by simp [has_ofPred, hi, h i hi]

/-! ## The issuing split -/

theorem context_spec {s : State} {c : WCtx} {w : Warp} {p : Split} (h : s.context = some (c, w, p)) :
    s.warpAt c.key = some w ∧ w.splitAt p.id = some p ∧ c.split = p ∧ c.blk = w.blk ∧ c.block = s.blockAt w.blk ∧
      c.launch = s.launchOf w.blk ∧ c.time = s.time ∧ c.stackLo = s.stackLo c.key ∧ c.stackHi = s.stackHi c.key ∧
      c.lead = none := by
  unfold State.context at h
  split at h
  · cases h
  · rename_i r _
    dsimp only at h
    split at h
    · cases h
    · rename_i w' hw
      split at h
      · cases h
      · rename_i p' hp
        cases h
        have e : p.id = r.split := by
          simpa using List.find?_some hp
        exact ⟨hw, by rw [e]; exact hp, rfl, rfl, rfl, rfl, rfl, rfl, rfl, rfl⟩

theorem mask_and_not_zero (T : Mask) : T &&& ~~~(0 : Mask) = T := by
  rw [show (~~~(0 : Mask)) = BitVec.allOnes 32 from by decide, BitVec.and_allOnes]

/-- A word that acts on its split at once. -/
theorem splitWord_next {s : State} {c : WCtx} {w : Warp} {p : Split} {x : Ctl} {o : Slots} {srcs : List Spec}
    {ports : List (Port × Word)} {pv : Pops} (h : Ready s c w p x o srcs ports pv) (ty : OTys)
    (f : State → Nat → Split → Mask → Opnds → State) :
    splitWord x ty srcs o f s =
      .next (f (s.putWarp c.key { w with ports := ports }) c.key p (activeMask w p x) (readOps c w ty o pv)) := by
  unfold splitWord
  rw [h.issuer]
  simp only [h.active, h.ports, h.sound, ↓reduceIte, ne_eq, not_true_eq_false]

/-- A word that accesses memory. -/
theorem memWord_next {s : State} {c : WCtx} {w : Warp} {p : Split} {x : Ctl} {o : Slots} {srcs : List Spec}
    {ports : List (Port × Word)} {pv : Pops} (h : Ready s c w p x o srcs ports pv) (i : Instr) (ty : OTys) (pl : Plan) :
    memWord i x ty srcs o pl s =
      .next ((s.putWarp c.key { w with ports := ports }).perform c.key p.id x.seq pl
        { i := i, T := activeMask w p x, todo := activeMask w p x, ops := readOps c w ty o pv }) := by
  unfold memWord
  rw [h.issuer]
  simp only [h.active, h.ports, h.sound, mask_and_not_zero, ↓reduceIte]

/-! ## Open transactions -/

/-- Outside transactions nothing is refused. -/
theorem illegalOp_none {s : State} {k : Nat} {w : Warp} {T : Mask} (hw : s.warpAt k = some w)
    (h : ∀ t, T.has t = true → w.openTxn t = none) : s.illegalOp k T = (s, T) := by
  have e : Mask.ofPred (fun t => T.has t && (w.openTxn t).isSome) = 0 := by
    refine ofPred_has fun i _ => ?_
    rw [Mask.has_zero]
    cases ht : T.has i
    · rfl
    · simp [h i ht]
  simp [State.illegalOp, hw, e]

/-- A word of open transactions alone aborts them, and does nothing else. -/
theorem illegalOp_all {s : State} {k : Nat} {w : Warp} {T : Mask} (hw : s.warpAt k = some w) (hT : T ≠ 0)
    (h : ∀ t, T.has t = true → (w.openTxn t).isSome = true) : s.illegalOp k T = (s.putWarp k (w.abortTxns T 4), 0) := by
  have e : Mask.ofPred (fun t => T.has t && (w.openTxn t).isSome) = T := by
    refine ofPred_has fun i _ => ?_
    cases ht : T.has i
    · simp
    · simp [h i ht]
  have z : T &&& ~~~T = 0 := by
    refine mask_ext fun i hi => ?_
    simp [Mask.has, hi]
  simp only [State.illegalOp, hw, e, hT, ↓reduceIte, z]

end Sys2Proof.Machine
end

