-- ==== Sys2Proof/Tests/Slice0.lean ====
section
/-! SUPPORT. Tests/Slice0.lean: the model's own tests: words the spec writes out, ill-formed terms, single steps on worked
examples of the spec, and for every statement with hypotheses a state that meets them. -/

open Sys2Proof Sys2Proof.Machine

namespace Sys2Proof.Tests

set_option Elab.async false

/-! ## Words written out from Tables 10.1 and 10.12 and the entries' own layouts -/

/-- A word, its upper and its lower half, decodes to an instruction. -/
def ok (hi lo : Nat) (i : Instr) : Bool := decodeTableWord 128 (hi * 2 ^ 64 + lo) = some i
def bare : Ctl := {
  g1 := ⟨false, .p 7⟩, g2 := ⟨false, .p 7⟩, hint := .normal, sched := ⟨false, 0, false⟩, seq := .seq }
def sl (a b c d e : Spec) : Slots := { a := a, b := b, c := c, d := d, e := e, imm := 0 }

theorem test_decode_integer :
    (decodeTableWord 128 0 = some .ill && decodeTableWord 128 (2 ^ 128 - 1) = some .ill &&
  ok 0x0058008040FFFF39 0xC000000000000000 (.iadd bare ⟨.i64, false, false⟩ (sl (.d 0) (.special .tid) (.w 0) .none .none)) &&
  ok 0x0092020441FFFF39 0xC000000000000000 (.isub bare ⟨.i32x2, true, false⟩ (sl (.d 2) (.d 4) (.w 1) .none .none)) &&
  ok 0x00DC020406616239 0xC000000000000000 (.iaddc bare (sl (.d 2) (.d 4) (.d 6) (.p 1) (.p 2))) &&
  ok 0x011C020441FFFF39 0xC000000000000000 (.imul bare ⟨.n64, false, false⟩ (sl (.d 2) (.d 4) (.w 1) .none .none)) &&
  ok 0x0154020441FFFF39 0xC000000000000000 (.imulh bare ⟨.n32x2, false, false⟩ (sl (.d 2) (.d 4) (.w 1) .none .none)) &&
  ok 0x019802044106FF39 0xC000000000000000 (.imad bare ⟨.i64, false, false⟩ (sl (.d 2) (.d 4) (.w 1) (.d 6) .none)) &&
  ok 0x01DA020441FFFF39 0xC000000000000000 (.idiv bare ⟨.i64, true, false⟩ (sl (.d 2) (.d 4) (.w 1) .none .none)) &&
  ok 0x0210020441FFFF39 0xC000000000000000 (.irem bare ⟨.i32x2, false, false⟩ (sl (.d 2) (.d 4) (.w 1) .none .none)) &&
  ok 0x02580204FFFFFF39 0xC000000000000000 (.ineg bare ⟨.i64, false, false⟩ (sl (.d 2) (.d 4) .none .none .none)) &&
  ok 0x029A0204FFFFFF39 0xC000000000000000 (.iabs bare ⟨.i64, true, false⟩ (sl (.d 2) (.d 4) .none .none .none)) &&
  ok 0x02D8020441FFFF39 0xC000000000000000 (.imin bare ⟨.i64, false, false⟩ (sl (.d 2) (.d 4) (.w 1) .none .none)) &&
  ok 0x031C020441FFFF39 0xC000000000000000 (.imax bare ⟨.n64, false, false⟩ (sl (.d 2) (.d 4) (.w 1) .none .none)) &&
  ok 0x03586100B1FFFF39 0xC004200600000000 (.andL { bare with seq := .ifT (.p 1) 6 } ⟨.i64, false, false⟩ (sl (.p 1) (.d 0) (.small 17) .none .none)) &&
  ok 0x0380020441FFFF39 0xC000000000000000 (.orL bare ⟨.i8x8, false, false⟩ (sl (.d 2) (.d 4) (.w 1) .none .none)) &&
  ok 0x03CC020441FFFF39 0xC000000000000000 (.xorL bare ⟨.n16x4, false, false⟩ (sl (.d 2) (.d 4) (.w 1) .none .none)) &&
  ok 0x0418020441FFFF39 0xC000000000000000 (.andn bare ⟨.i64, false, false⟩ (sl (.d 2) (.d 4) (.w 1) .none .none)) &&
  ok 0x04580100B3FFFF39 0xC000000000000000 (.shl bare ⟨.i64, false, false⟩ (sl (.d 1) (.d 0) (.small 19) .none .none)) &&
  ok 0x0490020441FFFF39 0xC000000000000000 (.shr bare ⟨.i32x2, false, false⟩ (sl (.d 2) (.d 4) (.w 1) .none .none)) &&
  ok 0x04D8020441FFFF39 0xC000000000000000 (.sar bare ⟨.i64, false, false⟩ (sl (.d 2) (.d 4) (.w 1) .none .none)) &&
  ok 0x051C020441FFFF39 0xC000000000000000 (.rol bare ⟨.n64, false, false⟩ (sl (.d 2) (.d 4) (.w 1) .none .none)) &&
  ok 0x05580204FFFFFF39 0xC000000000000000 (.clz bare ⟨.i64, false, false⟩ (sl (.d 2) (.d 4) .none .none .none)) &&
  ok 0x05900204FFFFFF39 0xC000000000000000 (.ctz bare ⟨.i32x2, false, false⟩ (sl (.d 2) (.d 4) .none .none .none)) &&
  ok 0x05DC0204FFFFFF39 0xC000000000000000 (.popc bare ⟨.n64, false, false⟩ (sl (.d 2) (.d 4) .none .none .none)) &&
  ok 0x06140204FFFFFF39 0xC000000000000000 (.brev bare ⟨.n32x2, false, false⟩ (sl (.d 2) (.d 4) .none .none .none)) &&
  ok 0x065802044106FF39 0xC000000000000000 (.bfx bare ⟨.i64, false, false⟩ (sl (.d 2) (.d 4) (.w 1) (.d 6) .none)) &&
  ok 0x069C00011AC1C139 0xC000000000000020 (.bfi bare ⟨.n64, false, false⟩ { sl (.d 0) (.d 1) (.d 26) (.imm .sext) (.imm .sext) with imm := 0x20 }) &&
  ok 0x06F002044161FF39 0xC000000000000000 (.sel bare ⟨.e4m3x8, false, false⟩ (sl (.d 2) (.d 4) (.w 1) (.p 1) .none)) &&
  ok 0x071801B0FFFF4139 0xC003E00000000000 (.mov { bare with seq := .goInd 1 } ⟨.i64, false, false⟩ (sl (.d 1) (.small 16) .none .none .none)) &&
  ok 0x075802044106FF39 0xC000000000000000 (.lea bare ⟨.i64, false, false⟩ (sl (.d 2) (.d 4) (.w 1) (.d 6) .none)) &&
  ok 0x07B06985B0FFFF39 0xC005200D00000000 (.icmp { bare with seq := .ifT (.q 1) 13 } ⟨.i64, .eq⟩ (sl (.q 1) (.special .lane) (.small 16) .none .none)) &&
  ok 0x00584242B1FFFF39 0xC00C1FCD00000000 (.iadd { bare with seq := .loop 0 0x1FCD } ⟨.i64, false, false⟩ (sl (.w 2) (.w 2) (.small 17) .none .none))) = true := by decide +kernel

theorem test_decode_packed_and_floating :
    (ok 0x2006020441FFFF39 0xC000000000000000 (.padd bare ⟨.n8x8, true, false⟩ (sl (.d 2) (.d 4) (.w 1) .none .none)) &&
  ok 0x2048020441FFFF39 0xC000000000000000 (.psub bare ⟨.i16x4, false, false⟩ (sl (.d 2) (.d 4) (.w 1) .none .none)) &&
  ok 0x2089020441FFFF39 0xC000000000000000 (.pmul bare ⟨.i16x4, false, true⟩ (sl (.d 2) (.d 4) (.w 1) .none .none)) &&
  ok 0x20CC02044106FF39 0xC000000000000000 (.pmad bare ⟨.n16x4, false, false⟩ (sl (.d 2) (.d 4) (.w 1) (.d 6) .none)) &&
  ok 0x2100020441FFFF39 0xC000000000000000 (.pmin bare ⟨.i8x8, false, false⟩ (sl (.d 2) (.d 4) (.w 1) .none .none)) &&
  ok 0x2154020441FFFF39 0xC000000000000000 (.pmax bare ⟨.n32x2, false, false⟩ (sl (.d 2) (.d 4) (.w 1) .none .none)) &&
  ok 0x21820204FFFFFF39 0xC000000000000000 (.pabs bare ⟨.i8x8, true, false⟩ (sl (.d 2) (.d 4) .none .none .none)) &&
  ok 0x21C4020441FFFF39 0xC000000000000000 (.pavg bare ⟨.n8x8, false, false⟩ (sl (.d 2) (.d 4) (.w 1) .none .none)) &&
  ok 0x220402044106FF39 0xC000000000000000 (.psad bare ⟨.n8x8, false, false⟩ (sl (.d 2) (.d 4) (.w 1) (.d 6) .none)) &&
  ok 0x224202044106FF39 0xC000000000000000 (.pdot bare ⟨.i8x8, true, false⟩ (sl (.d 2) (.d 4) (.w 1) (.d 6) .none)) &&
  ok 0x2282020406FFFF39 0xC000000000000000 (.pcmp bare ⟨.i8x8, .lt⟩ (sl (.d 2) (.d 4) (.d 6) .none .none)) &&
  ok 0x22C8020441FFFF39 0xC000000000000000 (.pshl bare ⟨.i16x4, false, false⟩ (sl (.d 2) (.d 4) (.w 1) .none .none)) &&
  ok 0x230C020441FFFF39 0xC000000000000000 (.pshr bare ⟨.n16x4, false, false⟩ (sl (.d 2) (.d 4) (.w 1) .none .none)) &&
  ok 0x2362020406FFFF39 0xC000000000000000 (.fadd bare ⟨.f32x2, .rz⟩ (sl (.d 2) (.d 4) (.d 6) .none .none)) &&
  ok 0x23B4020406FFFF39 0xC000000000000000 (.fsub bare ⟨.f64, .ru⟩ (sl (.d 2) (.d 4) (.d 6) .none .none)) &&
  ok 0x23D6020406FFFF39 0xC000000000000000 (.fmul bare ⟨.f16x4, .rd⟩ (sl (.d 2) (.d 4) (.d 6) .none .none)) &&
  ok 0x242A02040608FF39 0xC000000000000000 (.fma bare ⟨.f32x2, .rs⟩ (sl (.d 2) (.d 4) (.d 6) (.d 8) .none)) &&
  ok 0x2440020406FFFF39 0xC000000000000000 (.fmin bare ⟨.bf16x4, .rne⟩ (sl (.d 2) (.d 4) (.d 6) .none .none)) &&
  ok 0x2490020406FFFF39 0xC000000000000000 (.fmax bare ⟨.f16x4, .rne⟩ (sl (.d 2) (.d 4) (.d 6) .none .none)) &&
  ok 0x24E00204FFFFFF39 0xC000000000000000 (.fabs bare ⟨.f32x2, .rne⟩ (sl (.d 2) (.d 4) .none .none .none)) &&
  ok 0x25300204FFFFFF39 0xC000000000000000 (.fneg bare ⟨.f64, .rne⟩ (sl (.d 2) (.d 4) .none .none .none)) &&
  ok 0x256C020406FFFF39 0xC000000000000000 (.fcmp bare ⟨.f32x2, .un⟩ (sl (.d 2) (.d 4) (.d 6) .none .none)) &&
  ok 0x25A00204FFFFFF39 0xC000000000000000 (.fclass bare ⟨.f32x2, .rne⟩ (sl (.d 2) (.d 4) .none .none .none)) &&
  ok 0x25C802040608FF39 0xC000000000000000 (.fdot2 bare ⟨.bf16x4, .rna⟩ (sl (.d 2) (.d 4) (.d 6) (.d 8) .none)) &&
  ok 0x2630020406FFFF39 0xC000000000000000 (.fscale bare ⟨.f64, .rne⟩ (sl (.d 2) (.d 4) (.d 6) .none .none))) = true := by decide +kernel

theorem test_decode_special_functions_and_conversion :
    (ok 0x40220204FFFFFF39 0xC000000000000000 (.frcp bare ⟨.f32x2, .rz⟩ (sl (.d 2) (.d 4) .none .none .none)) &&
  ok 0x40700204FFFFFF39 0xC000000000000000 (.frsq bare ⟨.f64, .rne⟩ (sl (.d 2) (.d 4) .none .none .none)) &&
  ok 0x40A40204FFFFFF39 0xC000000000000000 (.fsqrt bare ⟨.f32x2, .ru⟩ (sl (.d 2) (.d 4) .none .none .none)) &&
  ok 0x40E00204FFFFFF39 0xC000000000000000 (.fexp2 bare ⟨.f32x2, .rne⟩ (sl (.d 2) (.d 4) .none .none .none)) &&
  ok 0x41100204FFFFFF39 0xC000000000000000 (.flog2 bare ⟨.f16x4, .rne⟩ (sl (.d 2) (.d 4) .none .none .none)) &&
  ok 0x41600204FFFFFF39 0xC000000000000000 (.fsin bare ⟨.f32x2, .rne⟩ (sl (.d 2) (.d 4) .none .none .none)) &&
  ok 0x41800204FFFFFF39 0xC000000000000000 (.fcos bare ⟨.bf16x4, .rne⟩ (sl (.d 2) (.d 4) .none .none .none)) &&
  ok 0x41E00204FFFFFF39 0xC000000000000000 (.ftanh bare ⟨.f32x2, .rne⟩ (sl (.d 2) (.d 4) .none .none .none)) &&
  ok 0x423A020406FFFF39 0xC000000000000000 (.fdiv bare ⟨.f64, .rs⟩ (sl (.d 2) (.d 4) (.d 6) .none .none)) &&
  ok 0x42700200FFFFFF39 0xC00000000000008A (.cvt bare ⟨.e4m3x8, .f32x2, .rne, 1, false⟩ (sl (.d 2) (.d 0) .none .none .none)) &&
  ok 0x4289020441FFFF39 0xC000000000000000 (.pack bare ⟨.i16x4, false, true⟩ (sl (.d 2) (.d 4) (.w 1) .none .none)) &&
  ok 0x42C0020441FFFF39 0xC000000000000000 (.unpack bare ⟨.i8x8, false, false⟩ (sl (.d 2) (.d 4) (.w 1) .none .none)) &&
  ok 0x4338020441FFFF39 0xC000000000000000 (.swz bare ⟨.e2m1x16, false, false⟩ (sl (.d 2) (.d 4) (.w 1) .none .none))) = true := by decide +kernel

theorem test_decode_cross_thread :
    (ok 0x60130204B142FF39 0xC000000000000000 (.shfl bare ⟨.i32x2, .flip⟩ (sl (.d 2) (.d 4) (.small 17) (.w 2) .none)) &&
  ok 0x606002044142FF39 0xC000000000000000 (.bcast bare ⟨.bf16x4, false, false⟩ (sl (.d 2) (.d 4) (.w 1) (.w 2) .none)) &&
  ok 0x609A020442FFFF39 0xC000000000000000 (.wred bare ⟨.n64, .max⟩ (sl (.d 2) (.d 4) (.w 2) .none .none)) &&
  ok 0x60C0020442FFFF39 0xC000000000000000 (.wscan bare ⟨.i32x2, .add⟩ (sl (.d 2) (.d 4) (.w 2) .none .none)) &&
  ok 0x6104020442FFFF39 0xC000000000000000 (.vote bare .cnt (sl (.d 2) (.d 4) (.w 2) .none .none)) &&
  ok 0x6140020442FFFF39 0xC000000000000000 (.matchW bare (sl (.d 2) (.d 4) (.w 2) .none .none)) &&
  ok 0x61804304B1FFFF39 0xC000000000000000 (.wset bare (sl (.w 3) (.d 4) (.small 17) .none .none)) &&
  ok 0x61C00204FFFFFF39 0xC000000000000000 (.first bare (sl (.d 2) (.d 4) .none .none .none)) &&
  ok 0x62006144FFFFFF39 0xC000000000000000 (.pset bare (sl (.p 1) (.w 4) .none .none .none)) &&
  ok 0x6247616269FFFF39 0xC000000000000000 (.plop bare .andn true (sl (.p 1) (.p 2) (.q 1) .none .none)) &&
  ok 0x628002FFFFFFFF39 0xC000000000000000 (.pmov bare (sl (.d 2) .none .none .none .none)) &&
  ok 0x6281FF04FFFFFF39 0xC000000000000000 (.pmovScatter bare (sl .none (.d 4) .none .none .none))) = true := by decide +kernel

theorem test_decode_memory :
    (ok 0x800C0302FFFFFF39 0xC000000000000000 (.ld bare ⟨.g, .i64, 0⟩ (sl (.d 3) (.d 2) .none .none .none)) &&
  ok 0x805AFF0204FFFF39 0xC000000000000040 (.st bare ⟨.s, .n32, 0x40⟩ (sl .none (.d 2) (.d 4) .none .none)) &&
  ok 0x80A04342FFFFFF39 0xC0000000FFFFFFF8 (.ldu bare ⟨.k, .i8, 0xFFFFFFF8⟩ (sl (.w 3) (.w 2) .none .none .none)) &&
  ok 0x80C6FF4243FFFF39 0xC000000000000002 (.stu bare ⟨.g, .n16, 2⟩ (sl .none (.w 2) (.w 3) .none .none)) &&
  ok 0x81080204FFFFFF39 0xC00000003FFFFFFC (.ldh bare ⟨.i32, 3, 0xFFFFFFC⟩ (sl (.d 2) (.d 4) .none .none .none)) &&
  ok 0x814E0204FFFFFF39 0xC0000000F0000008 (.chk bare ⟨.n64, 15, 8⟩ (sl (.d 2) (.d 4) .none .none .none)) &&
  ok 0x81807042B2FFFF39 0xC000000000000010 (.ldm bare ⟨.g, .i8, 16⟩ (sl (.m 0) (.w 2) (.small 18) .none .none)) &&
  ok 0x81C1FF02FFFFFF39 0xC000000000000080 (.pref bare true 0x80 (sl .none (.d 2) .none .none .none)) &&
  ok 0x82000204FFFFFF39 0xC000000000000000 (.locq bare (sl (.d 2) (.d 4) .none .none .none)) &&
  ok 0x8240FF4243FFFF39 0xC000000000000000 (.dcf bare (sl .none (.w 2) (.w 3) .none .none)) &&
  ok 0x8283FF02FFFFFF39 0xC000000000000000 (.cflush bare .vault 0 (sl .none (.d 2) .none .none .none)) &&
  ok 0x82C30048B1FFFF09 0xC00000000000060A (.atom { bare with g1 := ⟨false, .p 1⟩ } ⟨.g, .n64, .exch, .rel, .package⟩ (sl (.d 0) (.w 8) (.small 17) .none .none)) &&
  ok 0x830002040608FF39 0xC00000000000071C (.atomc bare ⟨.g, .i32, .cas, .acqrel, .system⟩ (sl (.d 2) (.d 4) (.d 6) (.d 8) .none)) &&
  ok 0x8354FF0406FFFF39 0xC000000000000200 (.red bare ⟨.s, .f32, .max, .none, .core⟩ (sl .none (.d 4) (.d 6) .none .none)) &&
  ok 0x838CFF4200FFFF39 0xC000000000000001 (.xst bare ⟨.i64, 1, 0⟩ (sl .none (.w 2) (.d 0) .none .none)) &&
  ok 0x80020302FFFFFF39 0xD000000000000000 (.ld { bare with hint := .keep } ⟨.g, .n8, 0⟩ (sl (.d 3) (.d 2) .none .none .none))) = true := by decide +kernel

theorem test_decode_synchronisation_and_transactions :
    (ok 0xA031FFFFFFFFFF39 0xC000000000000000 (.phase bare ⟨.acqrel, .team⟩ (sl .none .none .none .none .none)) &&
  ok 0xA054FFFFFFFFFF39 0xC000000000000000 (.fence bare ⟨.rel, .system⟩ (sl .none .none .none .none .none)) &&
  ok 0xA081FFB142FFFF39 0xC000000000000000 (.bar bare .pass (sl .none (.small 17) (.w 2) .none .none)) &&
  ok 0xA0C0FFC2B0FFFF39 0xC005203000000100 (.tbar { bare with seq := .ifT (.q 1) 48 } false false { sl .none (.imm .zext) (.small 16) .none .none with imm := 0x100 }) &&
  ok 0xA1280644B345FF39 0xC000000000000000 (.wait bare ⟨.ge, false, false, false⟩ (sl (.d 6) (.w 4) (.small 19) (.w 5) .none)) &&
  ok 0xA1010049B1B0FF39 0xC000000000000000 (.wait bare ⟨.eq, false, false, true⟩ (sl (.d 0) (.w 9) (.small 17) (.small 16) .none)) &&
  ok 0xA140FF4A48FFFF39 0xC000000000000000 (.await bare (sl .none (.w 10) (.w 8) .none .none)) &&
  ok 0xA180484A4CFFFF09 0xC000000000000000 (.arrv { bare with g1 := ⟨false, .p 1⟩ } .init (sl (.w 8) (.w 10) (.w 12) .none .none)) &&
  ok 0xA1C0FFFFFFFFFF39 0xC000000000000000 (.txb bare (sl .none .none .none .none .none)) &&
  ok 0xA20002FFFFFFFF39 0xC000000000000000 (.txc bare (sl (.d 2) .none .none .none .none)) &&
  ok 0xA240FFFFFFFFFF39 0xC000000000000000 (.txa bare (sl .none .none .none .none .none)) &&
  ok 0xA28002FFFFFFFF39 0xC000000000000000 (.txs bare (sl (.d 2) .none .none .none .none)) &&
  ok 0xA2C0FFFFFFFFFF39 0xC000000000000000 (.yieldW bare (sl .none .none .none .none .none))) = true := by decide +kernel

theorem test_decode_engine_commands :
    (ok 0xC004C24143B0FF39 0xC000000000000010 (.cpy bare ⟨.g, .s, false, false⟩ { sl (.imm .zext) (.w 1) (.w 3) (.small 16) .none with imm := 0x10 }) &&
  ok 0xC008B04543C2FF39 0xC000000000000040 (.cpy bare ⟨.g, .b0, false, false⟩ { sl (.small 16) (.w 5) (.w 3) (.imm .zext) .none with imm := 0x40 }) &&
  ok 0xC05341424344B039 0xC000000000000000 (.cpyt bare ⟨.s, .g, true, true⟩ (sl (.w 1) (.w 2) (.w 3) (.w 4) (.small 16))) &&
  ok 0xC08043424C4DB039 0xC000000080108000 (.cpyg bare ⟨.g, false, false, 2, 1, 32⟩ (sl (.w 3) (.w 2) (.w 12) (.w 13) (.small 16))) &&
  ok 0xC0CD414243B04539 0xC000000000000000 (.cpym bare ⟨.g, .b1, false, true⟩ (sl (.w 1) (.w 2) (.w 3) (.small 16) (.w 5))) &&
  ok 0xC1094142B0FFFF39 0xC000000001800002 (.wld bare ⟨4, true, true, true, 2⟩ (sl (.w 1) (.w 2) (.small 16) .none .none)) &&
  ok 0xC14046B047B0FF39 0xC000000001000000 (.board bare ⟨false, false, true, 0⟩ (sl (.w 6) (.small 16) (.w 7) (.small 16) .none)) &&
  ok 0xC1804550FFFFFF39 0xC000000000010000 (.mma bare ⟨0, false, 0, false, 32⟩ (sl (.w 5) (.w 16) .none .none .none)) &&
  ok 0xC1C00244FFFFFF39 0xC00E000000000000 (.mmr { bare with seq := .fin } ⟨0, false, 0, false, 0⟩ (sl (.d 2) (.w 4) .none .none .none)) &&
  ok 0xC20541424344FF39 0xC000000010820000 (.mms bare ⟨2, true, 16, true, 64⟩ (sl (.w 1) (.w 2) (.w 3) (.w 4) .none)) &&
  ok 0xC241FFFFFFFFFF39 0xC000000014000000 (.aclr bare ⟨true, 20⟩ (sl .none .none .none .none .none)) &&
  ok 0xC280B04244FFFF39 0xC000000000800000 (.epi bare ⟨false, 0, true⟩ (sl (.small 16) (.w 2) (.w 4) .none .none)) &&
  ok 0xC2E4FFFFFFFFFF39 0xC000000000000000 (.qfence bare 0x24 (sl .none .none .none .none .none)) &&
  ok 0xC305414243FFFF39 0xC000000000000000 (.gth bare ⟨.s, false, true⟩ (sl (.w 1) (.w 2) (.w 3) .none .none)) &&
  ok 0xC34241424344FF39 0xC000000000000000 (.sct bare ⟨.g, true, false⟩ (sl (.w 1) (.w 2) (.w 3) (.w 4) .none)) &&
  ok 0xC38002410001FF39 0xC000000000000000 (.unite bare false (sl (.d 2) (.w 1) (.d 0) (.d 1) .none)) &&
  ok 0xC3C1034100FFFF39 0xC000000000000000 (.find bare true (sl (.d 3) (.w 1) (.d 0) .none .none)) &&
  ok 0xC409414243444539 0xC000000000000000 (.relabel bare ⟨.addF, false, true, 0⟩ (sl (.w 1) (.w 2) (.w 3) (.w 4) (.w 5))) &&
  ok 0xC4454142FFFFFF39 0xC000000000000000 (.fsnap bare .initS true (sl (.w 1) (.w 2) .none .none .none)) &&
  ok 0xC4814145FFFFFF39 0xC000000000000000 (.fundo bare true (sl (.w 1) (.w 5) .none .none .none)) &&
  ok 0xC4C0034100FFFF39 0xC000000000000000 (.fsize bare false (sl (.d 3) (.w 1) (.d 0) .none .none)) &&
  ok 0xC500B104FFFFFF39 0xC000000000000000 (.spawn bare false (sl (.small 17) (.d 4) .none .none .none))) = true := by decide +kernel

theorem test_decode_system :
    (ok 0xE000FFFFFFFFFF39 0xC000000000000007 (.trap bare 7 (sl .none .none .none .none .none)) &&
  ok 0xE040FFFFFFFFFF39 0xC00000000000FFFF (.sysc bare 0xFFFF (sl .none .none .none .none .none)) &&
  ok 0xE081FFFFFFFFFF39 0xC000000000000000 (.rft bare .next (sl .none .none .none .none .none)) &&
  ok 0xE08243FFFFFFFF39 0xC000000000000000 (.rft bare .to (sl (.w 3) .none .none .none .none)) &&
  ok 0xE0C002FFFFFFFF39 0xC000000000000012 (.srd bare .rclass (sl (.d 2) .none .none .none .none)) &&
  ok 0xE100FF42FFFFFF39 0xC000000000000021 (.swr bare .dwell (sl .none (.w 2) .none .none .none)) &&
  ok 0xE14043FFFFFFFF39 0xC000000000000000 (.rstl bare (sl (.w 3) .none .none .none .none)) &&
  ok 0xE1804243FFFFFF39 0xC000000000000000 (.launch bare (sl (.w 2) (.w 3) .none .none .none)) &&
  ok 0xE1C142B3FFFFFF39 0xC000000000000000 (.perf bare true (sl (.w 2) (.small 19) .none .none .none)) &&
  ok 0xE200FFFFFFFFFF39 0xC000000000000001 (.brk bare 1 (sl .none .none .none .none .none)) &&
  ok 0xE240FFFFFFFFFF39 0xC000000000000002 (.halt bare 2 (sl .none .none .none .none .none)) &&
  ok 0xE280FFFFFFFFFF39 0xC00A000000000000 (.nop { bare with seq := .ret } (sl .none .none .none .none .none))) = true := by decide +kernel

/-! ## Small states -/

/-- A state with one block of one warp on lane 0 of core 0, whose split is issuing. Its header has three words. -/
def base : State :=
  let s := State.reset.withFetchWord 128 0
  { s with
    issuer := some { core := 0, lane := 0, slot := 0, split := 0 }
    turns := [] }
def theWarp (s : State) : Warp := (s.warpAt 0).getD (s.newWarp 0 0 0 0 0 0 0 [] [])
/-- `base` with its warp changed; only the threads of `T` are left. -/
def only (T : Mask) (f : Warp → Warp) : State :=
  let w := theWarp base
  base.putWarp 0 (f { w with
    exited := ~~~ T
    splits := w.splits.map (fun p => { p with mask := T, hw := 0xB0E07C00000000F3 }) })
def at1 : State := only 1 id
/-- Thread 0 holds `b`, `c` and `d` in `d1`, `d2` and `d3`. -/
def holding (b c d : Word) : State := only 1 (fun w => { w with d := [(32, b), (64, c), (96, d)] })
def frame (s : State) : WCtx × Warp × Split :=
  let w := theWarp s
  let p : Split := {
    id := 0, mask := 0, hdr := 0, hw := 0, idx := 0, rcd := 0, calls := [], stop := none, readyAt := 0, overtaken := 0,
    boosted := false, yieldFor := [] }
  s.context.getD ({
    key := 0, split := p, blk := 0, block := none, launch := none, time := 0, stackLo := 0, stackHi := 0 }, w, p)
abbrev C (s : State) : WCtx := (frame s).1
abbrev W (s : State) : Warp := (frame s).2.1
abbrev P (s : State) : Split := (frame s).2.2
abbrev T (s : State) : Mask := activeMask (W s) (P s) bare
def regs : Slots := sl (.d 0) (.d 1) (.d 2) (.d 3) .none
/-- The next state. -/
def after (i : Instr) (s : State) : State :=
  match exec i s with
  | .next t => t
  | .fault _ => s
  | .refused _ => s
def completes (i : Instr) (s : State) : Bool :=
  match exec i s with
  | .next _ => true
  | .fault _ => false
  | .refused _ => false
/-- `d0` and `$status` of thread 0 after a word on `d1`, `d2` and `d3`. -/
def result (i : Instr) (b c d : Word) : Word × BitVec 9 :=
  let w := theWarp (after i (holding b c d))
  (w.dGet 0 0, w.statusOf 0)

/-- What a word must find to stand ready, as one test. -/
def readyB (s : State) (x : Ctl) (o : Slots) : Bool :=
  s.context.isSome && decide (activeMask (W s) (P s) x ≠ 0) && decide ((W s).damaged = []) &&
  decide (popAll (W s).ports o = some ((W s).ports, {}))
theorem context_eq {s : State} (h : s.context.isSome = true) : s.context = some (C s, W s, P s) := by
  unfold C W P frame
  cases h' : s.context <;> simp_all
theorem ready_of (s : State) (x : Ctl) (o : Slots) (srcs : List Spec) (h : readyB s x o = true) :
    Ready s (C s) (W s) (P s) x o srcs (W s).ports {} := by
  unfold readyB at h
  simp only [Bool.and_eq_true, decide_eq_true_eq] at h
  exact ⟨context_eq h.1.1.1, h.1.1.2, if_pos h.1.2, h.2⟩
theorem runs_to {σ ε α : Type} [DecidableEq α] (x : σ × Except ε α) (a : α)
    (h : (match x.2 with | .ok b => decide (b = a) | .error _ => false) = true) : ∃ s1, x = (s1, .ok a) := by
  obtain ⟨s1, r⟩ := x
  cases r <;> simp_all
theorem has_one {t : Nat} (h : Mask.has 1 t = true) : t = 0 := by
  simpa [Mask.has] using h
/-- A destination d register takes any value. -/
theorem d_takes (s : State) (T : Mask) (i : Fin 64) (f : Nat → Word) : dstOk (C s) (W s) T (.d i) f := fun _ _ => rfl

/-! ## The hypotheses of the statements can be met -/

/-- The register words: their operands stand ready and `d0` takes any value. -/
theorem met (srcs : List Spec) : Ready at1 (C at1) (W at1) (P at1) bare regs srcs (W at1).ports {} ∧
    ∀ f, dstOk (C at1) (W at1) (T at1) regs.a f :=
  ⟨ready_of _ _ _ _ (by decide +kernel), d_takes _ _ _⟩
theorem witness_IntegerArithmeticWords :
    (Ready at1 (C at1) (W at1) (P at1) bare regs [.d 1, .d 2, .d 3] (W at1).ports {} ∧
      ∀ f, dstOk (C at1) (W at1) (T at1) regs.a f) ∧
    (Ready at1 (C at1) (W at1) (P at1) bare { regs with e := .d 0 } [.d 1, .d 2, .d 3] (W at1).ports {} ∧
      ∀ f, dstOk (C at1) (W at1) (T at1) (.d 0) f) ∧
    Ready at1 (C at1) (W at1) (P at1) bare { regs with e := .p 1 } [.d 1, .d 2, .d 3] (W at1).ports {} :=
  ⟨met _, ⟨ready_of _ _ _ _ (by decide +kernel), d_takes _ _ _⟩, ready_of _ _ _ _ (by decide +kernel)⟩
theorem witness_BitwiseWords : Ready at1 (C at1) (W at1) (P at1) bare regs [.d 1, .d 2, .d 3, .none] (W at1).ports {} ∧
    ∀ f, dstOk (C at1) (W at1) (T at1) regs.a f := met _
theorem witness_PackedSumsAccumulateInto64Bits :
    Ready at1 (C at1) (W at1) (P at1) bare regs [.d 1, .d 2, .d 3] (W at1).ports {} ∧
    ∀ f, dstOk (C at1) (W at1) (T at1) regs.a f := met _
theorem witness_FloatSumsAndProductsRoundOnce :
    Ready at1 (C at1) (W at1) (P at1) bare regs [.d 1, .d 2, .d 3] (W at1).ports {} ∧
    ∀ f, dstOk (C at1) (W at1) (T at1) regs.a f := met _
theorem witness_FloatWordsThatRoundNothing : Ready at1 (C at1) (W at1) (P at1) bare regs [.d 1, .d 2] (W at1).ports {} ∧
    ∀ f, dstOk (C at1) (W at1) (T at1) regs.a f := met _
theorem witness_SpecialFunctionWords : Ready at1 (C at1) (W at1) (P at1) bare regs [.d 1, .d 2] (W at1).ports {} ∧
    ∀ f, dstOk (C at1) (W at1) (T at1) regs.a f := met _
theorem witness_ConversionFillsItsPart : Ready at1 (C at1) (W at1) (P at1) bare regs [.d 0, .d 1] (W at1).ports {} ∧
    ∀ f, dstOk (C at1) (W at1) (T at1) regs.a f := met _
/-- Thread 0 names itself in `d2` and `d3`. -/
def self : State := holding 5 1 1
theorem T_self : T self = 1 := by decide +kernel
theorem T_at1 : T at1 = 1 := by decide +kernel
theorem witness_ElementMovingWords : Ready self (C self) (W self) (P self) bare regs [.d 1, .d 2, .d 3] (W self).ports {} ∧
    Claim.members maskD (C self) (W self) (T self) (readOps (C self) (W self) (tysB .i64) regs {}) ∧
    Claim.consumers (fun _ _ _ _ => true) regs.b (W self) (T self) (readOps (C self) (W self) (tysB .i64) regs {}) = 0 ∧
    ∀ f, dstOk (C self) (W self) (T self) regs.a f := by
  refine ⟨ready_of _ _ _ _ (by decide +kernel), fun t h => ?_, by decide +kernel, d_takes _ _ _⟩
  rw [T_self] at h
  cases has_one h
  decide +kernel
theorem witness_WarpAndPredicateWords : Ready self (C self) (W self) (P self) bare regs [.d 1, .d 2] (W self).ports {} ∧
    Claim.members maskC (C self) (W self) (T self) (readOps (C self) (W self) {} regs {}) ∧
    Claim.consumers (fun _ _ _ _ => true) regs.b (W self) (T self) (readOps (C self) (W self) {} regs {}) = 0 ∧
    ∀ f, dstOk (C self) (W self) (T self) regs.a f := by
  refine ⟨ready_of _ _ _ _ (by decide +kernel), fun t h => ?_, by decide +kernel, d_takes _ _ _⟩
  rw [T_self] at h
  cases has_one h
  decide +kernel
theorem witness_ForeignThreadsRaiseMember :
    Ready at1 (C at1) (W at1) (P at1) bare regs [.d 1, .d 2, .d 3] (W at1).ports {} ∧ isWarpDst regs.a = false ∧
    Mask.ofPred (fun t => (T at1).has t && !(maskD (readOps (C at1) (W at1) (tysB .i64) regs {}) t).has t) ≠ 0 ∧
    Mask.ofPred (fun t => (T at1).has t && !(maskC (readOps (C at1) (W at1) {} regs {}) t).has t) ≠ 0 :=
  ⟨ready_of _ _ _ _ (by decide +kernel), rfl, by decide +kernel, by decide +kernel⟩
/-- A destination per warp whose lowest active thread is no member. -/
theorem witness_ForeignThreadsRaiseMember_warp :
    Ready at1 (C at1) (W at1) (P at1) bare { regs with a := .w 0 } [.d 1, .d 2, .d 3] (W at1).ports {} ∧
    isWarpDst (.w 0) = true ∧
    (T at1).lowest ≠ (T at1 &&& ~~~ Mask.ofPred (fun t => (T at1).has t &&
      !(maskC (readOps (C at1) (W at1) {} regs {}) t).has t)).lowest :=
  ⟨ready_of _ _ _ _ (by decide +kernel), rfl, by decide +kernel⟩

/-- Thread 0 reads `d1` of thread 1, which is damaged and not active: the index `d2` names it, the mask `d3` takes it in, and no
thread has exited. -/
def spoiltS : State := only 1 (fun w => { w with d := [(64, 1), (96, 3)], exited := 0, damaged := [regD 1 1] })
theorem witness_ForeignThreadsRaiseMember_spoilt :
    Ready spoiltS (C spoiltS) (W spoiltS) (P spoiltS) bare regs [.d 2, .d 3] (W spoiltS).ports {} ∧
    Claim.members maskD (C spoiltS) (W spoiltS) (T spoiltS) (readOps (C spoiltS) (W spoiltS) (tysB .i64) regs {}) ∧
    Claim.consumers (fun w v t i => i = Claim.shuffleFrom .at t ((v.gc t).toNat % 32) (maskD v t) && !w.exited.has i) regs.b
      (W spoiltS) (T spoiltS) (readOps (C spoiltS) (W spoiltS) (tysB .i64) regs {}) ≠ 0 ∧
    Claim.consumers (fun w v t i => (maskC v t).has i && !w.exited.has i) regs.b
      (W spoiltS) (T spoiltS) (readOps (C spoiltS) (W spoiltS) {} { regs with c := .d 3 } {}) ≠ 0 ∧
    ∀ f, dstOk (C spoiltS) (W spoiltS) (T spoiltS) regs.a f := by
  have hT : T spoiltS = 1 := by decide +kernel
  refine ⟨⟨context_eq (by decide +kernel), by decide +kernel, by decide +kernel, by decide +kernel⟩, fun t h => ?_,
    by decide +kernel, by decide +kernel, d_takes _ _ _⟩
  rw [hT] at h
  cases has_one h
  decide +kernel

def ldS : MMod := { sp := .s, mt := .i64, off := 0 }
def pend0 (i : Instr) (s : State) : Pend := { i := i, T := 1, todo := 1, ops := readOps (C s) (W s) {} regs {} }
/-- A scratchpad load by thread 0 of the last eight bytes of the bank. -/
def last8 : State := holding 65528 7 0
theorem witness_MemoryWordsEndOnceEveryAccessAnswers :
    Ready last8 (C last8) (W last8) (P last8) bare regs [.d 1] (W last8).ports {} ∧
    (∃ s1 w1, Claim.performed (planLd bare ldS regs).access 0 (pend0 (.ld bare ldS regs) last8) (fun _ => some 0) (fun _ => 0)
      (last8.putWarp 0 { W last8 with ports := (W last8).ports }) [0] s1 ∧ s1.warpAt 0 = some w1 ∧
      (w1.splitAt 0).isSome = true) ∧
    (planLd bare ldS regs).dst = .d 0 ∧ (∀ h, (W last8).hoistAt 3 = some h → h.width = 0) ∧
    last8.xstWaits 0 { mt := .i8, col := 0, row := 0 } 1 = false := by
  refine ⟨ready_of _ _ _ _ (by decide +kernel), ?_, rfl, fun h e => ?_, by decide +kernel⟩
  · obtain ⟨s1, h⟩ := runs_to ((planLd bare ldS regs).access (last8.putWarp 0 { W last8 with ports := (W last8).ports }) 0
      (pend0 (.ld bare ldS regs) last8) 0) (some (0 : Word), (0 : Flags)) (by decide +kernel)
    have e : s1 = ((planLd bare ldS regs).access (last8.putWarp 0 { W last8 with ports := (W last8).ports }) 0
      (pend0 (.ld bare ldS regs) last8) 0).1 := by rw [h]
    refine ⟨s1, theWarp s1, ⟨s1, h, rfl⟩, ?_, ?_⟩
    · rw [e]; decide +kernel
    · rw [e]; decide +kernel
  · have : (W last8).hoistAt 3 = none := by decide +kernel
    rw [this] at e; cases e
theorem witness_ScratchpadLoadsAndStores :
    (∃ w b, last8.warpAt 0 = some w ∧ last8.blockAt w.blk = some b ∧ ldS.sp = .s ∧
      (0 : Int) ≤ 65528 ∧ 65528 + ldS.mt.bytes ≤ last8.bankBytes b) ∧
    (∃ b, last8.blockAt 1 = some b ∧ ¬ ((0 : Int) ≤ 65529 ∧ 65529 + ldS.mt.bytes ≤ last8.bankBytes b)) ∧
    last8.badS = [] ∧ ((1, 65528) ∈ { last8 with badS := [(1, 65528)] }.badS) := by
  refine ⟨⟨theWarp last8, (last8.blockAt 1).getD (newBlock 0 0 (0, 0) 0 0 0), ?_⟩,
    ⟨(last8.blockAt 1).getD (newBlock 0 0 (0, 0) 0 0 0), ?_⟩, ?_, ?_⟩ <;> decide +kernel

def ldG : MMod := { sp := .g, mt := .i32, off := 0 }
/-- Thread 0 names the mapped page at 0x100000. -/
def paged : State := holding 0x100010 0xAABBCCDD 0
def keys4 : List Nat := [placeCode + 16, placeCode + 17, placeCode + 18, placeCode + 19]
def cached : State := paged.putCore 0 {
  dirty := [(9, some 7)], clean := [(1, List.replicate 64 (some 3))], tlb := [], code := [], matrix := {} }
theorem witness_LoadsSeeOwnStoresThenCachesThenHome :
    (Sparse.get none (cached.coreAt 0).dirty 9 = some 7 ∧ Sparse.get none (cached.coreAt 0).dirty 64 = none ∧
      (Sparse.get [] (cached.coreAt 0).clean 1).getD 0 none = some 3 ∧
      (Sparse.get [] (cached.coreAt 0).clean 3).getD 8 none = none ∧ cached.replicated 0 200 = false ∧
      cached.replicated 0 (2 ^ 42) = false) ∧
    (∃ s1, paged.translateRun 0 .read 0x100010 4 = (s1, .ok keys4) ∧ (∀ key ∈ keys4, peerKey key = false) ∧ s1.readErr 0 0x100010 keys4 true = none) ∧
    Claim.goesTo paged 0 0 4 (W paged) ldG 0x100010 true 0x100010 := by
  refine ⟨by decide +kernel, ?_, .inl ⟨rfl, by decide, fun _ => by decide +kernel⟩⟩
  obtain ⟨s1, h⟩ := runs_to (paged.translateRun 0 .read 0x100010 4) keys4 (by decide +kernel)
  have e : s1 = (paged.translateRun 0 .read 0x100010 4).1 := by rw [h]
  exact ⟨s1, h, by decide, by rw [e]; decide +kernel⟩
theorem witness_StoresStayInTheirCoreUntilPublished :
    (∃ s1, paged.translateRun 0 .write 0x100010 4 = (s1, .ok keys4)) ∧
    Claim.goesTo paged 0 0 4 (W paged) ldG 0x100010 true 0x100010 ∧
    (∀ j, 3 < j → j < 4 → keys4.getD j 0 ≠ keys4.getD 3 0) :=
  ⟨runs_to _ _ (by decide +kernel), .inl ⟨rfl, by decide, fun _ => by decide +kernel⟩, by omega⟩
/-- The first translation of a thread's page has filled the TLB. -/
def filled : State := (paged.translate 0 .read 0x100010).1
def readOnly : State := filled.putCore 0 { filled.coreAt 0 with
  tlb := (filled.coreAt 0).tlb.map (fun x => { x with entry := x.entry &&& ~~~ 6 }) }
theorem witness_AddressesAreCheckedBeforeAccess :
    (at1.inStack 0 0 1 = false ∧ canonical 0x0200000000000000 = false ∧ (W at1).openTxn 0 = none) ∧
    ((tlbFind (filled.coreAt 0).tlb 0x100010).any (fun x => x.entry.getLsbD 1 && !x.wrote) = true ∧ filled.waits = [] ∧
      canonical 0x100010 = true) ∧
    (tlbFind (readOnly.coreAt 0).tlb 0x100010).any (fun x => !x.entry.getLsbD 1 && !x.entry.getLsbD 2) = true ∧
    (tlbFind (State.reset.coreAt 0).tlb 0x100010).isNone = true ∧ State.reset.ctl.ptroot = 0 ∧
    (canonical 0x100010 = true ∧ (tlbFind (paged.coreAt 0).tlb 0x100010).isNone = true ∧ paged.ctl.ptroot ≠ 0 ∧
      (paged.domeAt 0).walks = [] ∧ paged.bad = [] ∧ paged.power.inReset = [] ∧ paged.waits = []) := by
  decide +kernel
/-- The walk's two outcomes: a page the table maps, and one it does not. -/
theorem witness_TranslationWalksTheTable :
    (match (paged.translate 0 .write 0x100010).2 with | .ok x => decide (x.2 = 16) | .error _ => false) = true ∧
    (match (paged.translate 0 .write 0x7000000).2 with | .ok _ => false | .error e => decide (e = .page 0x20 0x7000000 false)) = true := by
  decide +kernel
/-- Every active thread has an open transaction. -/
def inTxn : State := only 1 (fun w => { w with txn := [(0, some {
  isOpen := true, code := 0, age := some 0, rset := [], wset := [], rlines := [], wlines := [], started := true })] })
theorem T_inTxn : T inTxn = 1 := by decide +kernel
theorem noTxn_of {s : State} (h : T s = 1) (h0 : (W s).openTxn 0 = none) : Claim.noTxn (W s) (T s) := by
  intro t ht
  rw [h] at ht
  cases has_one ht
  exact h0
theorem witness_FencesPublishAndDrop :
    (Scope.package ≠ .core ∧ Scope.package ≠ .team ∧ cached.waits = [] ∧
      Sparse.get none (cached.coreAt 0).dirty 9 = some 7 ∧ farKey 9 = false ∧ farKey (2 ^ 42) = true ∧ peerKey (2 ^ 42) = false ∧
      cached.teamLocal (cached.launchAt 0) = true ∧ cached.teamLocal none = false ∧ cached.homedIn 0 9 = true) ∧
    (Ready at1 (C at1) (W at1) (P at1) bare regs [] (W at1).ports {} ∧ Claim.noTxn (W at1) (T at1)) ∧
    Ready inTxn (C inTxn) (W inTxn) (P inTxn) bare regs [] (W inTxn).ports {} ∧
    ∀ t, (T inTxn).has t = true → ((W inTxn).openTxn t).isSome = true := by
  refine ⟨by decide +kernel, ⟨ready_of _ _ _ _ (by decide +kernel), noTxn_of T_at1 (by decide +kernel)⟩,
    ready_of _ _ _ _ (by decide +kernel), fun t ht => ?_⟩
  rw [T_inTxn] at ht
  cases has_one ht
  decide +kernel

/-- The same translation, to a line of a peer module's memory. -/
def peerTlb : State := filled.putCore 0 { filled.coreAt 0 with
  tlb := (filled.coreAt 0).tlb.map (fun x => { x with entry := x.entry ||| 2 ^ 50, wrote := true }) }
def keysPeer : List Nat := keys4.map (· + 2 ^ 50)
def atS : AMod := { sp := .s, aty := .i64, op := .add, ord := .none, scope := .core }
def atG : AMod := { sp := .g, aty := .i32, op := .add, ord := .acqrel, scope := .package }
theorem witness_AtomicsAreOneReadAndWrite :
    ((1 : Word).toNat % atS.aty.bytes ≠ 0) ∧
    ((65528 : Word).toNat % atS.aty.bytes = 0 ∧ (last8.blockAt 1).any (fun b => 65528 + 8 ≤ last8.bankBytes b) = true ∧
      last8.badS = []) ∧
    (∃ s1, paged.translateRun 0 .write 0x100010 4 = (s1, .ok keys4) ∧ s1.waits = [] ∧ s1.reds = [] ∧
      s1.lineBad (placeCode + 16) = false ∧ placeCode + 16 + 4 ≤ 2 ^ 42) ∧
    (∃ s1, peerTlb.translateRun 0 .write 0x100010 4 = (s1, .ok keysPeer) ∧ s1.lineBad (2 ^ 50 + placeCode + 16) = false ∧
      peerKey (2 ^ 50 + placeCode + 16) = true ∧ s1.proxy = [] ∧ s1.bexDone = []) ∧
    (∃ s2 old fl, (paged.release 0 (paged.launchOfWarp 0) .package).atomic 0 0 false .normal atG 0x100010 5 0 = (s2, .ok (old, fl))) ∧
    (∃ s2 old fl, paged.atomic 0 0 true .normal atG 0x100010 5 0 = (s2, .ok (old, fl))) ∧
    (W paged).openTxn 0 = none ∧ ((W inTxn).openTxn 0).isSome = true := by
  refine ⟨by decide, by decide +kernel, ?_, ?_, ?_, ?_, by decide +kernel, by decide +kernel⟩
  · obtain ⟨s1, h⟩ := runs_to (paged.translateRun 0 .write 0x100010 4) keys4 (by decide +kernel)
    have e : s1 = (paged.translateRun 0 .write 0x100010 4).1 := by rw [h]
    exact ⟨s1, h, by rw [e]; decide +kernel, by rw [e]; decide +kernel, by rw [e]; decide +kernel, by decide⟩
  · obtain ⟨s1, h⟩ := runs_to (peerTlb.translateRun 0 .write 0x100010 4) keysPeer (by decide +kernel)
    have e : s1 = (peerTlb.translateRun 0 .write 0x100010 4).1 := by rw [h]
    exact ⟨s1, h, by rw [e]; decide +kernel, by decide, by rw [e]; decide +kernel, by rw [e]; decide +kernel⟩
  · obtain ⟨s2, h⟩ := runs_to ((paged.release 0 (paged.launchOfWarp 0) .package).atomic 0 0 false .normal atG 0x100010 5 0)
      (0, 0) (by decide +kernel)
    exact ⟨s2, _, _, h⟩
  · obtain ⟨s2, h⟩ := runs_to (paged.atomic 0 0 true .normal atG 0x100010 5 0) (0, 0) (by decide +kernel)
    exact ⟨s2, _, _, h⟩

/-- The peer has answered thread 0's atomic with 7. -/
def answeredTlb : State := { peerTlb with
  bexDone := [{ addr := keysPeer.headD 0, op := .atomic .i32 .add 5 0, who := (peerTlb.asker, 0), result := some 7 }] }
theorem witness_AtomicsAreOneReadAndWrite_answered :
    ∃ s1, answeredTlb.translateRun 0 .write 0x100010 4 = (s1, .ok keysPeer) ∧ s1.lineBad (keysPeer.headD 0) = false ∧
      peerKey (keysPeer.headD 0) = true ∧
      s1.bexDone = [{ addr := keysPeer.headD 0, op := .atomic atG.aty atG.op 5 0, who := (s1.asker, 0), result := some 7 }] := by
  obtain ⟨s1, h⟩ := runs_to (answeredTlb.translateRun 0 .write 0x100010 4) keysPeer (by decide +kernel)
  have e : s1 = (answeredTlb.translateRun 0 .write 0x100010 4).1 := by rw [h]
  exact ⟨s1, h, by rw [e]; decide +kernel, by decide +kernel, by rw [e]; decide +kernel⟩

/-- The launch has an exchange bank; its one block stands at (0, 0) of core 0. -/
def xbank (s : State) : State :=
  match s.launchAt 0 with
  | some l => s.putLaunch 0 { l with part := l.part ||| 0x1000000 }
  | none => s
def savedOf (s : State) : Saved := {
  id := 9, blk := { (s.blockAt 1).getD (newBlock 0 0 (0, 0) 0 0 0) with core := 1 }, blkId := 8, warps := [], cmds := [],
  areas := [0], image := [], idem := false, lost := false, core := 1, lrec := 0, stk := 0, nbars := 0, base := 0, size := 0,
  time := 0, alive := true }
def xst0 : XMod := { mt := .i64, col := 0, row := 0 }
def xst1 : XMod := { mt := .i64, col := 1, row := 0 }
def xsaved : State := { xbank last8 with saved := [savedOf (xbank last8)] }
def stopped (s : State) (st : Stop) : State := s.putWarp 0 ((W s).putSplit { P s with stop := some st })
theorem witness_ExchangeStoresFillTheShadowBank :
    ((W (xbank last8)).openTxn 0 = none ∧ (xbank last8).receiver 1 xst0 = .block 1 ∧
      ((xbank last8).blockAt 1).any (fun b => 65528 + xst0.mt.bytes ≤ (xbank last8).bankBytes b) = true ∧
      ((xbank last8).blockAt 1).any (fun b => ! decide (65529 + xst0.mt.bytes ≤ (xbank last8).bankBytes b)) = true ∧
      last8.receiver 1 xst0 = .nobody) ∧
    (Ready xsaved (C xsaved) (W xsaved) (P xsaved) bare regs [.d 1, .d 2] (W xsaved).ports {} ∧
      xsaved.xstWaits (C xsaved).key xst1 (T xsaved) = true) ∧
    ((theWarp (stopped xsaved (.xst (pend0 (.xst bare xst1 regs) xsaved)))).splitAt 0).bind (·.stop) =
      some (.xst (pend0 (.xst bare xst1 regs) xsaved)) :=
  ⟨by decide +kernel, ⟨ready_of _ _ _ _ (by decide +kernel), by decide +kernel⟩, by decide +kernel⟩
theorem witness_ArrivalWords :
    ((65520 : Word).toNat % 16 = 0 ∧ (8 : Word).toNat % 16 ≠ 0 ∧ (W at1).openTxn 0 = none ∧
      (at1.blockAt 1).any (fun b => 65520 + 16 ≤ at1.bankBytes b) = true ∧ at1.badS = []) ∧
    (Ready at1 (C at1) (W at1) (P at1) bare regs [.d 1, .d 2] (W at1).ports {} ∧ Claim.noTxn (W at1) (T at1)) ∧
    (let v := readOps (C at1) (W at1) {} regs {}
     (v.gb 0).toNat % 16 = 0 ∧ (v.gc 0).getLsbD 0 = false) ∧
    (let v := readOps (C (holding 0 1 0)) (W (holding 0 1 0)) {} regs {}
     (v.gc 0).getLsbD 0 = true) :=
  ⟨by decide +kernel, ⟨ready_of _ _ _ _ (by decide +kernel), noTxn_of T_at1 (by decide +kernel)⟩, by decide +kernel,
    by decide +kernel⟩

/-! ### Synchronisation and transactions -/

theorem noTxn_holding (b c d : Word) (h : T (holding b c d) = 1) (h0 : (W (holding b c d)).openTxn 0 = none) :
    Claim.noTxn (W (holding b c d)) (T (holding b c d)) := noTxn_of h h0
/-- The one warp of its block holds every thread that has not exited. -/
def alone (s : State) : Bool :=
  decide ((s.putWarp 0 { W s with ports := (W s).ports }).blockWarps 1 = [(0, { W s with ports := (W s).ports })]) &&
  (List.range 32).all (fun t => (W s).exited.has t || (P s).mask.has t)
/-- The barrier id and the count that the word names. -/
def barArgs (s : State) : Nat × Nat :=
  let v := readOps (C s) (W s) {} regs {}
  ((v.gb ((T s).lowest.getD 0)).toNat, (v.gc ((T s).lowest.getD 0)).toNat)
def flat (s : State) : State :=
  match s.launchAt 0 with
  | some l => s.putLaunch 0 { l with tbars := [] }
  | none => s
theorem witness_BarriersCompleteAtTheirCount :
    (Ready (holding 31 1 0) (C (holding 31 1 0)) (W (holding 31 1 0)) (P (holding 31 1 0)) bare regs [.d 1, .d 2]
      (W (holding 31 1 0)).ports {} ∧ Claim.noTxn (W (holding 31 1 0)) (T (holding 31 1 0))) ∧
    (barArgs (holding 31 1 0) = (31, 1) ∧ alone (holding 31 1 0) = true ∧
      ((holding 31 1 0).blockAt 1).any (fun b => decide (b.barAt 31 = {})) = true) ∧
    (barArgs (holding 0 256 0) = (0, 256) ∧ alone (holding 0 256 0) = true) ∧
    barArgs (holding 32 0 0) = (32, 0) ∧ barArgs (holding 31 257 0) = (31, 257) ∧
    -- TBAR: the group of one core, the whole rectangle, no group, and the ids where the clauses meet
    ((at1.launchAt 0).any (fun l => decide (l.tbars = []) && decide (tbarGroup l (0, 0) 0 = some ((0, 0), (1, 1))) &&
      decide (tbarGroup l (0, 0) 256 = some ((0, 0), (1, 1))) && decide (tbarGroup l (0, 0) 257 = none) &&
      !l.part.getLsbD 24) = true ∧
      ((xbank at1).launchAt 0).any (fun l => l.part.getLsbD 24) = true ∧
      at1.saved = [] ∧ alone at1 = true ∧ (at1.launchBlocks 0).map Prod.fst = [1] ∧
      (at1.blockAt 1).any (fun b => decide (b.pos = (0, 0))) = true ∧
      barArgs (holding 0 3 0) = (0, 3) ∧ barArgs (holding 0 4 0) = (0, 4)) := by
  refine ⟨⟨ready_of _ _ _ _ (by decide +kernel), noTxn_of (by decide +kernel) (by decide +kernel)⟩, ?_⟩
  decide +kernel

/-- Thread 0 waits on the first doubleword of the code page, which holds the header. -/
def waiting (c : Word) : State := holding 0x100000 c 0
def keys8 : List Nat := (List.range 8).map (· + placeCode)
theorem witness_WaitsEndAtOnceOrRegister :
    (Ready (waiting 0) (C (waiting 0)) (W (waiting 0)) (P (waiting 0)) bare regs [.d 1, .d 2, .d 3] (W (waiting 0)).ports {} ∧
      Claim.noTxn (W (waiting 0)) (T (waiting 0)) ∧ (0x100000 : Word).toNat % 8 = 0) ∧
    (waiting 0).reds = [] ∧
    (∃ s1, Claim.probed 0 .normal (fun _ => 0x100000) (fun _ => placeCode)
        ((waiting 0).putWarp 0 { W (waiting 0) with ports := (W (waiting 0)).ports }) [0] s1 ∧
      condHolds .ne false (s1.homeWord placeCode) 0 = true ∧ condHolds .eq false (s1.homeWord placeCode) 0 = false ∧
      s1.lantern (s1.homeSlice placeCode) false < 4096) := by
  refine ⟨⟨ready_of _ _ _ _ (by decide +kernel), noTxn_of (by decide +kernel) (by decide +kernel), by decide⟩, by decide +kernel, ?_⟩
  obtain ⟨s1, h⟩ := runs_to (((waiting 0).putWarp 0 { W (waiting 0) with ports := (W (waiting 0)).ports }).translateRun 0 .read
    0x100000 8) keys8 (by decide +kernel)
  have e : s1 = (((waiting 0).putWarp 0 { W (waiting 0) with ports := (W (waiting 0)).ports }).translateRun 0 .read
    0x100000 8).1 := by rw [h]
  refine ⟨(s1.touchHome 0 0x100000 .normal keys8).lastUse 0 .normal keys8, ⟨s1, keys8, h, by decide, by decide, ?_, rfl⟩, ?_, ?_, ?_⟩ <;>
    rw [e] <;> decide +kernel

def entry0 : WEnt := { slice := 0, addr := 64, threads := 1, spilled := false }
def wait0 (result : Option Nat) : Wait := {
  id := 7, warp := 0, split := 0, ctx := none, cond := .eq, sgn := false, any := false, T := 1, vals := [5], sat := 0,
  ents := [entry0], deadline := 100, result := result }
def eqWait : WMod := { cond := .eq, sgn := false, any := false, acq := false }
def woken : State := { stopped at1 (.wait 7 (pend0 (.wait bare eqWait regs) at1)) with waits := [wait0 (some 0)] }
theorem witness_WaitsAreDecidedAndEnd :
    ((wait0 none).result = none ∧ (wait0 none).ents = [entry0] ∧ entry0.addr = 64 ∧ entry0.threads = (wait0 none).T) ∧
    ({ at1 with waits := [wait0 none], time := 100 }.waits.find? (fun z => z.id = 7) = some (wait0 none) ∧
      (wait0 none).deadline ≤ (100 : Word).toNat ∧ (99 : Word).toNat < (wait0 none).deadline) ∧
    (woken.waits.find? (fun z => z.id = 7) = some (wait0 (some 0)) ∧ (wait0 (some 0)).ctx = none ∧
      ((theWarp woken).splitAt 0).bind (·.stop) = some (.wait 7 (pend0 (.wait bare eqWait regs) at1)) ∧
      (pend0 (.wait bare eqWait regs) at1).held = []) := by
  decide +kernel
def windowed : State := only 1 (fun w => { w with windows := [(3, true)] })
theorem witness_YieldAndWindowClose :
    Ready at1 (C at1) (W at1) (P at1) bare regs [] (W at1).ports {} ∧
    (windowed.warpAt (warpKey 0 0 0)).any (fun w => decide ((3, true) ∈ w.windows) && decide ((3, false) ∉ w.windows)) = true :=
  ⟨ready_of _ _ _ _ (by decide +kernel), by decide +kernel⟩
theorem witness_TransactionsOpenAbortAndReport :
    Ready at1 (C at1) (W at1) (P at1) bare regs [] (W at1).ports {} ∧
    Ready inTxn (C inTxn) (W inTxn) (P inTxn) bare regs [] (W inTxn).ports {} ∧ ∀ f, dstOk (C at1) (W at1) (T at1) regs.a f :=
  ⟨ready_of _ _ _ _ (by decide +kernel), ready_of _ _ _ _ (by decide +kernel), d_takes _ _ _⟩
def txn0 (code : Nat) (v : Byte) : Txn := {
  isOpen := true, code := code, age := some 0, rset := [(placeCode, v)], wset := [(placeCode + 1, 9)],
  rlines := [placeCode / 64], wlines := [placeCode / 64], started := true }
theorem witness_CommitsValidateAndStoreTheWriteSet :
    ((txn0 4 0).code ≠ 0 ∧ (txn0 0 1).code = 0 ∧ at1.homeByte (placeCode % 2 ^ 60) ≠ 1 ∧
      at1.homeByte (placeCode % 2 ^ 60) = 0x73 ∧ at1.olderMeets 0 0 (txn0 0 0x73) = false ∧ at1.waits = [] ∧
      (∀ e ∈ (txn0 0 0x73).wset, e.1 < 2 ^ 42)) ∧
    (at1.warpAt 0 = some (W at1) ∧ (txn0 0 0).age = some 0) ∧
    Ready inTxn (C inTxn) (W inTxn) (P inTxn) bare regs [] (W inTxn).ports {} ∧
    ∀ f, dstOk (C inTxn) (W inTxn) (T inTxn) regs.a f :=
  ⟨by decide +kernel, by decide +kernel, ready_of _ _ _ _ (by decide +kernel), d_takes _ _ _⟩
/-- An older transaction's commit, on its way, meets a younger one. -/
theorem witness_CommitsOfOneTransaction_older :
    ({ inTxn with cores := inTxn.cores }.goesFirst 0 1 (txn0 0 0) 0 0 { txn0 0 0 with age := some 1 } = true) ∧
    (at1.goesFirst 0 1 (txn0 0 0) 0 0 (txn0 0 0) = false) ∧ at1.goesFirst 0 0 (txn0 0 0) 0 1 (txn0 0 0) = true := by
  decide +kernel

/-! ### Sequencing and traps -/

/-- A 16-byte slot put at an offset of the code page. -/
def putSlot (s : State) (off : Nat) (hw : Nat) : State :=
  { s with mem := (List.range 16).foldl (fun m i => writeMem m (placeCode + off + i) (BitVec.ofNat 8 (hw / 256 ^ i))) s.mem }
/-- Headers at 0x100000 + 0x40 (a function with a frame of 16 bytes), + 0x60 (the join), and + 0x20 (past the first word);
a trap header at + 0x80; the stack region is the page. -/
def laid (f : Warp → Warp) (g : Split → Split) : State :=
  let s := putSlot (putSlot (putSlot (putSlot (only 3 (fun w => f { w with splits := w.splits.map g }))
    0x40 0x0000000100000000B0607C000000046F) 0x60 0xB0607C0000000073) 0x20 0xB0607C0000000073) 0x80 0xB0607C0000000271
  { s with ctl := { s.ctl with tvec := 0x100080, stkbase := 0x100000, stksize := 0x10000 } }
def hdrF : Word128 := 0x0000000100000000B0607C000000046F
def hdrP : Word128 := 0xB0607C0000000073
def goes (s : State) (va : Word) (e : Bool) (hw : Word128) : Prop := ∃ s1, s.fetchHeader 0 va e = (s1, .ok hw)
theorem goes_of (s : State) (va : Word) (e : Bool) (hw : Word128) (h : (s.fetchHeader 0 va e).2 = .ok hw) : goes s va e hw :=
  ⟨(s.fetchHeader 0 va e).1, by rw [← h]⟩
def plainS : State := laid id id
/-- The split stands at the first of its block's three words; its record is the base record, which joins nowhere. -/
def firstRec (w : Warp) : RRec := w.recs.headD { id := 0, join := none, hw := 0, parent := none, members := 0, parked := 0, calls := [] }
theorem witness_TransfersMoveTheSplitToTheHeader :
    ((P plainS).stop = none ∧ (P plainS).idx < (((P plainS).hw.extractLsb' 54 6 : BitVec 6)).toNat) ∧
    (Claim.target (W plainS) (P plainS) (.go 4) = some 0x100040 ∧ Claim.target (W plainS) (P plainS) (.ifT (.p 7) 4) = some 0x100040 ∧
      Claim.target (W plainS) (P plainS) (.ifT (.p 1) 4) = some 0x100020 ∧
      Claim.target (W plainS) (P plainS) (.loop 0 6) = some 0x100060) ∧
    goes plainS 0x100040 false hdrF ∧ (plainS.fetchHeader 0 0x100030 false).2 = .invalid ∧
    (W plainS).stacked = [] ∧ (W plainS).recAt (P plainS).rcd = some (firstRec (W plainS)) ∧
    (firstRec (W plainS)).join = none :=
  ⟨by decide +kernel, by decide +kernel, goes_of _ _ _ _ (by decide +kernel), by decide +kernel, by decide +kernel,
    by decide +kernel, by decide +kernel⟩
/-- An IF reads the damaged `p1` of thread 0; in the other state nothing is damaged. -/
def spoiltIf : State := laid (fun w => { w with damaged := [regP 1 0] }) id
theorem witness_TransfersMoveTheSplitToTheHeader_damaged :
    Claim.seqSound (W plainS) (P plainS).mask (.ifT (.p 1) 4) ∧ ¬ Claim.seqSound (W spoiltIf) (P spoiltIf).mask (.ifT (.p 1) 4) := by
  have h : (W plainS).damaged = [] := by decide +kernel
  refine ⟨fun t _ => ?_, fun hs => ?_⟩
  · simp [Claim.seqReads, predSpec, damagedBy, h]
  · exact absurd (hs 0 (by decide +kernel)) (by decide +kernel)
/-- A stage header stands at 0x1000A0. -/
def hdrS : Word128 := 0xB0607C000000086B
def staging : State := putSlot plainS 0xA0 0xB0607C000000086B
theorem witness_TransfersMoveTheSplitToTheHeader_stage :
    goes staging 0x1000A0 false hdrS ∧ hdrS.getLsbD 11 = true ∧ staging.packed (W staging) = false ∧
    Claim.target (W staging) (P staging) (.go 10) = some 0x1000A0 :=
  ⟨goes_of _ _ _ _ (by decide +kernel), by decide, by decide +kernel, by decide +kernel⟩
/-- The split's record, of `n` members, joins at 0x100060; its parent is record `up`, and thread 1 is parked there if `n` is
1. Record 6 joins there too and has two members. -/
def joinOf (n : Nat) (up : Nat) : State := laid (fun w => { w with
  recs := w.recs ++ [{ id := 5, join := some 0x100060, hw := hdrP, parent := some up, members := n, parked := if n = 1 then 2 else 0, calls := [] },
    { id := 6, join := some 0x100060, hw := hdrP, parent := some 0, members := 2, parked := 0, calls := [] }] })
  (fun p => { p with rcd := 5, mask := 1 })
def joining : State := joinOf 2 0
theorem witness_SplitsParkAndMergeAtTheirJoin_last :
    ((P (joinOf 1 0)).stop = none ∧ (W (joinOf 1 0)).stacked = [] ∧
      ((W (joinOf 1 0)).recAt 5).any (fun r => decide (r.join = some 0x100060) && decide (r.members = 1) &&
        decide (r.parent = some 0) && decide (r.parked ||| (P (joinOf 1 0)).mask ≠ 0) && decide (r.parked ≠ 0)) = true ∧
      (P (joinOf 1 0)).rcd = 5 ∧ ((W (joinOf 1 0)).recAt 0).any (fun r => r.join.isNone) = true) ∧
    (goes (joinOf 1 0) 0x100060 false hdrP ∧ goes (joinOf 1 6) 0x100060 false hdrP) ∧
    ((W (joinOf 1 6)).recAt 5).any (fun r => decide (r.parent = some 6) && decide (r.members = 1)) = true ∧
    ((W (joinOf 1 6)).recAt 6).any (fun r => decide (r.join = some 0x100060) && decide (2 ≤ r.members)) = true :=
  ⟨by decide +kernel, ⟨goes_of _ _ _ _ (by decide +kernel), goes_of _ _ _ _ (by decide +kernel)⟩, by decide +kernel,
    by decide +kernel⟩
theorem witness_SplitsRejoinOrEnd :
    (Claim.target (W joining) (P joining) (.go 6) = some 0x100060 ∧ (P joining).stop = none ∧ (W joining).stacked = [] ∧
      ((W joining).recAt 5).any (fun r => decide (r.join = some 0x100060) && decide (2 ≤ r.members)) = true ∧
      (P joining).rcd = 5) ∧
    goes joining 0x100060 false hdrP ∧
    ((W plainS).recAt (P plainS).rcd).any (fun r => decide (r.members ≤ 1) && r.parent.isNone) = true :=
  ⟨by decide +kernel, goes_of _ _ _ _ (by decide +kernel), by decide +kernel⟩
/-- Threads 0 and 1, of which thread 1 alone has `p1`; the block joins six slots on. -/
def split2 (slim : Nat) : State := laid (fun w => { w with p := [(1, 2)], slim := slim })
  (fun p => { p with hw := p.hw ||| (6 : Word128) <<< 22 })
def taken (s : State) : Mask := Mask.ofPred (fun u => (P s).mask.has u && (W s).pGet 1 u)
theorem witness_DivergenceMakesTwoSplits :
    ((P (split2 16)).stop = none ∧ (W (split2 16)).stacked = [] ∧ (W (split2 16)).splits.length < 4 ∧
      taken (split2 16) ≠ 0 ∧ taken (split2 16) ≠ (P (split2 16)).mask ∧
      ((P (split2 16)).hw.extractLsb' 22 20 : BitVec 20) ≠ 0 ∧ (W (split2 16)).depth + 1 ≤ (W (split2 16)).slim ∧
      (W (split2 0)).slim < (W (split2 0)).depth + 1) ∧
    (∃ s1 s2 s3, (split2 16).fetchHeader 0 0x100060 false = (s1, .ok hdrP) ∧ s1.fetchHeader 0 0x100040 false = (s2, .ok hdrF) ∧
      s2.fetchHeader 0 0x100020 false = (s3, .ok hdrP)) := by
  refine ⟨by decide +kernel, ?_⟩
  refine ⟨((split2 16).fetchHeader 0 0x100060 false).1, (((split2 16).fetchHeader 0 0x100060 false).1.fetchHeader 0 0x100040 false).1,
    ((((split2 16).fetchHeader 0 0x100060 false).1.fetchHeader 0 0x100040 false).1.fetchHeader 0 0x100020 false).1, ?_, ?_, ?_⟩
  · have h : ((split2 16).fetchHeader 0 0x100060 false).2 = .ok hdrP := by decide +kernel
    rw [← h]
  · have h : (((split2 16).fetchHeader 0 0x100060 false).1.fetchHeader 0 0x100040 false).2 = .ok hdrF := by decide +kernel
    rw [← h]
  · have h : ((((split2 16).fetchHeader 0 0x100060 false).1.fetchHeader 0 0x100040 false).1.fetchHeader 0 0x100020 false).2 =
      .ok hdrP := by decide +kernel
    rw [← h]
def callE : CallE := { id := 8, ret := 0x100020, rcd := 0, sp := 0x110000 }
def calling : State := laid (fun w => { w with sp := 0x110000, calls := [callE] }) (fun p => { p with calls := [8] })
/-- `$sp` stands at the bottom of the warp's stack region. -/
def cramped : State := laid (fun w => { w with sp := 0x100000 }) id
theorem witness_CallsAndReturns :
    ((P calling).stop = none ∧ (W calling).stacked = [] ∧ (W calling).depth + 1 ≤ (W calling).slim ∧
      hdrF.getLsbD 10 = true ∧ ((hdrF.extractLsb' 96 16 : BitVec 16)).toNat = 1 ∧
      calling.stackLo 0 + 16 ≤ (W calling).sp.toNat ∧ hdrP.getLsbD 10 = false ∧
      (W (split2 0)).slim < (W (split2 0)).depth + 1 ∧
      (W cramped).depth + 1 ≤ (W cramped).slim ∧ (W cramped).sp.toNat < cramped.stackLo 0 + 16) ∧
    goes cramped 0x100040 false hdrF ∧ goes calling 0x100040 false hdrF ∧ goes calling 0x100060 false hdrP ∧
    ((P calling).calls = [callE.id] ∧ (W calling).calls.find? (fun y => y.id = callE.id) = some callE ∧
      (W calling).below ((W calling).recs.length + 1) (P calling).rcd callE.rcd = false) ∧
    goes calling callE.ret false hdrP ∧ (P plainS).calls = [] :=
  ⟨by decide +kernel, goes_of _ _ _ _ (by decide +kernel), goes_of _ _ _ _ (by decide +kernel), goes_of _ _ _ _ (by decide +kernel), by decide +kernel,
    goes_of _ _ _ _ (by decide +kernel), by decide +kernel⟩
def trapping : State := laid (fun w => { w with sp := 0x110000, txn := [(0, some (txn0 0 0x73))] }) id
def handling : State := laid (fun w => { w with sp := 0x10FFC0, handler := some 0, w := [(3, 0x100040)] }) id
theorem witness_TrapsSaveTheFrameAndEnterTheHandler :
    ((W trapping).handler = none ∧ trapping.ctl.tvec ≠ 0 ∧ at1.ctl.tvec = 0 ∧ trapping.stackLo 0 + 64 ≤ (W trapping).sp.toNat ∧ (W trapping).sp.toNat ≤ trapping.stackHi 0 ∧
      ((W trapping).openTxn 0).any (fun y => y.code = 0) = true) ∧
    (∃ s1 s2, trapping.fetchHeader 0 trapping.ctl.tvec true = (s1, .ok 0xB0607C0000000271) ∧
      s1.translateRun 0 .write ((W trapping).sp - 64) 64 = (s2, .ok ((List.range 64).map (· + (placeCode + 0xFFC0))))) ∧
    (W handling).handler.isSome = true := by
  refine ⟨by decide +kernel, ?_, by decide +kernel⟩
  obtain ⟨s2, h⟩ := runs_to ((trapping.fetchHeader 0 trapping.ctl.tvec true).1.translateRun 0 .write ((W trapping).sp - 64) 64)
    ((List.range 64).map (· + (placeCode + 0xFFC0))) (by decide +kernel)
  refine ⟨(trapping.fetchHeader 0 trapping.ctl.tvec true).1, s2, ?_, h⟩
  have h : (trapping.fetchHeader 0 trapping.ctl.tvec true).2 = .ok 0xB0607C0000000271 := by decide +kernel
  rw [← h]
theorem witness_ReturnFromTrapRestores :
    (plainS.context = some (C plainS, W plainS, P plainS) ∧ (W plainS).handler = none) ∧
    (handling.context = some (C handling, W handling, P handling) ∧ (W handling).handler.isSome = true ∧
      uceMask (W handling) [.w 3] (P handling).mask = 0) ∧
    (∃ s1 s2, handling.loadG 0 .normal (W handling).sp 64 = (s1, .ok (List.replicate 64 0)) ∧
      s1.fetchHeader 0 (readSrc (C handling) (W handling) .bits 0 0 (.w 3) 0) false = (s2, .ok hdrF)) ∧
    (W handling).stacked = [] ∧ ((W handling).recAt (P handling).rcd).any (fun r => r.join.isNone) = true := by
  refine ⟨⟨context_eq (by decide +kernel), by decide +kernel⟩, ⟨context_eq (by decide +kernel), by decide +kernel, by decide +kernel⟩, ?_,
    by decide +kernel, by decide +kernel⟩
  obtain ⟨s1, h⟩ := runs_to (handling.loadG 0 .normal (W handling).sp 64) (List.replicate 64 (0 : Byte)) (by decide +kernel)
  have e : s1 = (handling.loadG 0 .normal (W handling).sp 64).1 := by rw [h]
  refine ⟨s1, (s1.fetchHeader 0 (readSrc (C handling) (W handling) .bits 0 0 (.w 3) 0) false).1, h, ?_⟩
  have h : (s1.fetchHeader 0 (readSrc (C handling) (W handling) .bits 0 0 (.w 3) 0) false).2 = .ok hdrF := by
    rw [e]; decide +kernel
  rw [← h]
/-- The frame names the first word of the block that trapped. -/
def returning : State := putSlot (laid (fun w => { w with
  sp := 0x10FFC0, handler := some 0, trapBlk := (0x100000, 0xB0E07C00000000F3) }) id) 0xFFC0 0x100010
theorem witness_ReturnFromTrapRestores_place :
    ∃ s1 s2 slot, returning.loadG 0 .normal (W returning).sp 64 = (s1, .ok (leBytes 8 0x100010 ++ List.replicate 56 0)) ∧
      (1 ≤ (((W returning).trapBlk.2.extractLsb' 54 6 : BitVec 6)).toNat ∧
        (0x100010 : Word) = (W returning).trapBlk.1 + BitVec.ofNat 64 (16 * 1)) ∧
      s1.fetchSlot 0 0x100000 1 = (s2, .ok slot) := by
  obtain ⟨s1, h⟩ := runs_to (returning.loadG 0 .normal (W returning).sp 64) (leBytes 8 0x100010 ++ List.replicate 56 (0 : Byte))
    (by decide +kernel)
  have e : s1 = (returning.loadG 0 .normal (W returning).sp 64).1 := by rw [h]
  obtain ⟨s2, h2⟩ := runs_to (s1.fetchSlot 0 0x100000 1) (0 : Word128) (by rw [e]; decide +kernel)
  exact ⟨s1, s2, _, h, by decide +kernel, h2⟩
theorem witness_ControlRegisterWordsNeedHandlerMode :
    (Ready plainS (C plainS) (W plainS) (P plainS) bare regs [.d 1] (W plainS).ports {} ∧ (W plainS).handler = none) ∧
    (Ready handling (C handling) (W handling) (P handling) bare regs [.d 1] (W handling).ports {} ∧
      (W handling).handler.isSome = true ∧ ∀ f, dstOk (C handling) (W handling) (T handling) regs.a f) ∧
    (ctlOk .dwell 0xFFFF false = true ∧ ctlOk .dwell 0x10000 false = false ∧ handling.othersResident 1 = false) :=
  ⟨⟨ready_of _ _ _ _ (by decide +kernel), by decide +kernel⟩,
    ⟨ready_of _ _ _ _ (by decide +kernel), by decide +kernel, d_takes _ _ _⟩, by decide +kernel⟩
/-- A restart header stands at 0x100060. -/
def restarting : State := putSlot handling 0x60 0xB0607C0000001063
theorem witness_TrapHaltAndRestartWords :
    (plainS.context = some (C plainS, W plainS, P plainS) ∧ Ready plainS (C plainS) (W plainS) (P plainS) bare regs []
      (W plainS).ports {} ∧ (plainS.blockAt (W plainS).blk).isSome = true) ∧
    (uceMask (W plainS) [.small 16] (P plainS).mask = 0 ∧
      readSrc (C plainS) (W plainS) .bits 0 0 (.small 16) 0 = 0 ∧
      readSrc (C handling) (W handling) .bits 0 0 (.w 3) 0 ≠ 0) ∧
    goes handling 0x100040 false hdrF ∧ hdrF.getLsbD 12 = false ∧ goes restarting 0x100060 false 0xB0607C0000001063 ∧
    (0xB0607C0000001063 : Word128).getLsbD 12 = true :=
  ⟨⟨context_eq (by decide +kernel), ready_of _ _ _ _ (by decide +kernel), by decide +kernel⟩, by decide +kernel,
    goes_of _ _ _ _ (by decide +kernel), by decide, goes_of _ _ _ _ (by decide +kernel), by decide⟩

/-! ### Engines -/

theorem oks {σ ε α : Type} (x : σ × Except ε α) (h : x.2.toOption.isSome = true) : ∃ a, x = (x.1, .ok a) := by
  obtain ⟨s1, r⟩ := x
  cases r with
  | error e => cases h
  | ok a => exact ⟨a, rfl⟩
theorem ok_of {ε α : Type} (x : Except ε α) (h : x.toOption.isSome = true) : ∃ a, x = .ok a := by
  cases x with
  | error e => cases h
  | ok a => exact ⟨a, rfl⟩
def cmd (id : Nat) (port : Port) (op : Nat) (k : CmdK) : Cmd := {
  id := id, core := 0, blk := 1, warp := 0, split := 0, port := port, op := op, rcd := false, arr := none, rel := none,
  unit := 0, g := 0, writes := false, decl := none, k := k, status := none, started := false, row := 0, landed := [],
  signalled := 0, flags := 0, fault := none, after := [], wset := none, hint := .normal, cj := {}, fences := [] }
def queued (s : State) (cs : List Cmd) : State := { s with cmds := cs }
/-- The `qcj` queue of core 0 is full. -/
def fullCj (s : State) : State := queued s ((List.range 64).map (fun i => cmd (100 + i) .cj 0x12 (.fundo 0)))
/-- The launch holds the matrix engine of core 0, and the block has the short tile 0. -/
def tile0 (st : TileSt) : Tile := { g := 0, long := false, st := st, writers := [], elems := [] }
def wset0 : WSet := { wld := 1, fmt := 0, kw := 32, elems := [], scales := [] }
def engine (st : TileSt) (m : Matrix) (cs : List Cmd) (s : State) : State :=
  let b := (s.blockAt 1).getD (newBlock 0 0 (0, 0) 0 0 0)
  let l : State := match s.launchAt 0 with
    | some l => s.putLaunch 0 { l with part := l.part ||| 0x2000000 }
    | none => s
  queued ((l.putBlock 1 { b with tiles := [tile0 st] }).putCore 0 { l.coreAt 0 with matrix := { m with owner := some 0 } }) cs
def cpyW : Instr := .cpy bare { ssp := .g, dsp := .s, cw := false, rcd := true } regs
def cpytPlan : PushPlan := planCpyt { ssp := .g, dsp := .s, cw := false, rcd := true } regs
/-- The first bytes of the bank are damaged; a tensor record there cannot be read. -/
def badBank : State := { at1 with badS := [(1, 0)] }
theorem witness_EngineWordsPushTheirCommands :
    (Ready at1 (C at1) (W at1) (P at1) bare regs [.d 0, .d 1, .d 2, .d 3] (W at1).ports {} ∧ Claim.noTxn (W at1) (T at1) ∧
      at1.badS = []) ∧
    Claim.pushedAll (planCpy { ssp := .g, dsp := .s, cw := false, rcd := true } regs) cpyW 0 0 (readOps (C at1) (W at1) {} regs {})
      (at1.putWarp 0 { W at1 with ports := (W at1).ports }) [0]
      (Claim.pushOf (at1.putWarp 0 { W at1 with ports := (W at1).ports }) (planCpy { ssp := .g, dsp := .s, cw := false, rcd := true } regs)
        cpyW 0 0 (readOps (C at1) (W at1) {} regs {}) 0) ∧
    ((fullCj at1).roomIn 0 .cj 1 = false ∧ (planForest 0x12 true regs .fundo).roomy (fullCj at1) 0 = true ∧
      (planForest 0x12 true regs .fundo).port = .cj) ∧
    (engine .isOpen {} [] at1).holdsEngine ((engine .isOpen {} [] at1).blkOf 0) = true ∧
    (badBank.cmdAt badBank.nextUid = none ∧
      badBank.badRead 1 (cpytPlan.reads badBank 1 (readOps (C badBank) (W badBank) {} { regs with d := .small 17 } {}) 0) = some 0) :=
  ⟨⟨ready_of _ _ _ _ (by decide +kernel), noTxn_of T_at1 (by decide +kernel), by decide +kernel⟩,
    ⟨fun _ => by decide +kernel, rfl⟩, by decide +kernel, by decide +kernel, by decide +kernel⟩
/-- The same warp on lane 1. -/
def onLane1 : State :=
  let s := engine .isOpen {} [] (holding 1 0 0)
  { s.putWarp 4 (theWarp s) with issuer := some { core := 0, lane := 1, slot := 0, split := 0 } }
def lane0 (n : Word) : State := engine .isOpen {} [] (holding n 0 0)
theorem witness_FenceConjunctionCollectorAndLaunchWords :
    (Ready at1 (C at1) (W at1) (P at1) bare regs [.d 1, .d 2, .d 3] (W at1).ports {} ∧ Claim.noTxn (W at1) (T at1)) ∧
    (at1.roomIn 0 .cj (T at1).threads.length = true ∧ (fullCj at1).roomIn 0 .cj (T (fullCj at1)).threads.length = false) ∧
    (Ready onLane1 (C onLane1) (W onLane1) (P onLane1) bare regs [.d 0, .d 1, .d 2, .d 3] (W onLane1).ports {} ∧
      onLane1.holdsEngine (W onLane1).blk = true ∧ onLane1.badS = [] ∧ keyLane (C onLane1).key = 1 ∧
      onLane1.countOf 1 false true ((readOps (C onLane1) (W onLane1) {} regs {}).gb 0) = some 1) ∧
    ((lane0 64).holdsEngine 1 = true ∧ keyLane (C (lane0 64)).key = 0 ∧
      (lane0 64).countOf 1 false true ((readOps (C (lane0 64)) (W (lane0 64)) {} regs {}).gb 0) = some 64 ∧
      (lane0 64).roomIn 0 .mx 1 = true) ∧
    ((lane0 0).holdsEngine 1 = true ∧
      (lane0 0).countOf 1 false true ((readOps (C (lane0 0)) (W (lane0 0)) {} regs {}).gb 0) = some 0) :=
  ⟨⟨ready_of _ _ _ _ (by decide +kernel), noTxn_of T_at1 (by decide +kernel)⟩, by decide +kernel,
    ⟨ready_of _ _ _ _ (by decide +kernel), by decide +kernel⟩, by decide +kernel, by decide +kernel⟩
/-- A part that completes a command of one lane, with the lane's own command, and one that does not. -/
theorem witness_joins :
    ((joinForms 1 0 { lane := 0, warp := 0, split := 0, reg := 0, mask := 1, g := 0, fmt := 0, c := 1, row := none }
      (some (cmd 5 .mx 0x07 (.mmr 0 1 0 []))) []).find? Form.complete).isSome = true ∧
    (joinForms 1 0 { lane := 0, warp := 0, split := 0, reg := 0, mask := 1, g := 0, fmt := 0, c := 2, row := none }
      (some (cmd 5 .mx 0x07 (.mmr 0 2 0 []))) []).find? Form.complete = none := by
  decide +kernel
def stage0 : Stage := {
  sentry := 0x100000, ehw := hdrP, qbase := 0x101000, init := 0, ninit := 0, qlog := 6, isize := 8, ptime := 100, head := 0,
  items := [], formed := [] }
def staged (g : Stage) (s : State) : State :=
  match s.launchAt 0 with
  | some l => s.putLaunch 0 { l with lctl := 2, stages := [g], wword := 0x101000 }
  | none => s
def launch0 : Launch := (at1.launchAt 0).getD {
  addr := 0, lctl := 0, part := 0, warps := 0, bpc := 0, tw := 0, th := 0, ox := 0, oy := 0, entry := 0, ehw := 0, params := 0,
  abase := 0, astride := 0, afield := 0, nblocks := 0, start := 0, guard := 0, lstat := 0, wword := 0, stab := 0,
  st := .running, bound := none, origin := (0, 0), toAdmit := [], stages := [], term := { cur := 0, streak := 0, dirty := [] },
  tbars := [] }
def spawnL : Launch := { launch0 with lctl := 2, stages := [stage0], wword := 0x101000 }
def spawnRegs : Slots := { regs with a := .small 16, b := .d 63 }
def spawnS : State := (staged stage0 at1).putWarp 0 { W at1 with ports := (W at1).ports }
def spawnW : Word × Word := splitWeight ((theWarp spawnS).weightOf 0) 0
def spawnT : State × Except MemErr (List Nat) :=
  (spawnS.putWarp 0 ((theWarp spawnS).weightSet 0 spawnW.2)).translateRun 0 .write 0x101000 16
def keysQ : List Nat := (List.range 16).map (· + (placeCode + 0x1000))
def pushing : State := stopped at1 (.push (pend0 (.fundo bare true regs) at1))
theorem spawned : spawnT = (spawnT.1, .ok keysQ) := by
  obtain ⟨s1, h⟩ := runs_to spawnT keysQ (by decide +kernel)
  rw [h]
def spawnEnd : State :=
  let s3 := ((spawnT.1.touchHome 0 0x101000 .normal keysQ).syncWriteAt keysQ
    (leBytes 8 spawnW.1.toNat ++ leBytes 8 ((theWarp spawnS).dGet 63 0).toNat)).lastUse 0 .normal keysQ
  s3.putLaunch 0 { spawnL with
    stages := [({ stage0 with items := [(s3.time, spawnW.1)] }).pack]
    term := match tagOf spawnW.1 with | some x => spawnL.term.soil [x] | none => spawnL.term }
/-- A stage whose queue of one entry is full. -/
def fullStage : Stage := { stage0 with qlog := 0, items := [(0, 0x200000001)] }
theorem witness_SpawnQueuesItemsAndPushesGoOn :
    (Ready (staged stage0 at1) (C (staged stage0 at1)) (W (staged stage0 at1)) (P (staged stage0 at1)) bare spawnRegs
      [.small 16, .d 63] (W (staged stage0 at1)).ports {} ∧ Claim.noTxn (W (staged stage0 at1)) (T (staged stage0 at1))) ∧
    ((staged stage0 at1).launchAt 0).any (fun l => decide (l.kind = 2) && decide (l.stages[0]? = some stage0) &&
      decide (l.stages.length ≤ 1)) = true ∧
    (at1.launchAt 0).any (fun l => decide (l.kind ≠ 2)) = true ∧ 63 + stage0.isize / 8 ≤ 64 ∧
    64 < 63 + ({ stage0 with isize := 16 } : Stage).isize / 8 ∧
    -- a queue that is full at the first thread
    ((staged fullStage at1).launchAt 0).any (fun l => decide (l.stages[0]? = some fullStage)) = true ∧
    2 ^ fullStage.qlog ≤ fullStage.items.length ∧ (T (staged fullStage at1)).threads = [] ++ 0 :: [] ∧
    Claim.queued .normal 0 0 0 63 (staged fullStage at1) [] (staged fullStage at1) ∧
    (∃ s' w1, Claim.queued .normal 0 0 0 63 spawnS [0] s' ∧ s'.warpAt 0 = some w1 ∧ (w1.splitAt 0).isSome = true) ∧
    (((theWarp pushing).splitAt 0).bind (·.stop) = some (.push (pend0 (.fundo bare true regs) at1)) ∧
      (pushPlanOf (.fundo bare true regs)).isSome = true ∧ (pend0 (.fundo bare true regs) at1).held = [] ∧
      pushing.roomIn 0 .cj 1 = true) := by
  refine ⟨⟨ready_of _ _ _ _ (by decide +kernel), noTxn_of (by decide +kernel) (by decide +kernel)⟩, by decide +kernel, by decide +kernel,
    by decide, by decide, by decide +kernel, by decide, by decide +kernel, rfl, ?_, by decide +kernel⟩
  refine ⟨spawnEnd, theWarp spawnEnd, ⟨spawnL, theWarp spawnS, stage0, spawnT.1, keysQ, by decide +kernel, by decide +kernel, rfl,
    by decide, spawned, rfl⟩, by decide +kernel, by decide +kernel⟩
def wld0 : Cmd := cmd 1 .mx 0x04 (.wld 0 0 0 (2 ^ 20 - 16384) 32)
def aclr0 (b : Bool) : Cmd := { cmd 2 .mx 0x09 (.aclr false) with started := b }
theorem witness_WeightFillsExchangesAndClears :
    (let s := engine .isOpen {} [wld0] at1
     s.mxHead 0 = some wld0 ∧ wld0.status = none ∧ s.free wld0 = true ∧ (s.coreAt 0).matrix.filling = none ∧
      (s.coreAt 0).matrix.standby = none) ∧
    (let s := engine .isOpen { filling := some 1 } [{ wld0 with started := true }] at1
     (s.coreAt 0).matrix.filling = some 1 ∧ s.cmdAt 1 = some { wld0 with started := true } ∧
      2 ^ 20 - 16384 + tileSize ((s.coreAt 0).matrix.tileByte 0 (2 ^ 20 - 16384)) 0 0 32 = 2 ^ 20) ∧
    (let s := engine .isOpen { standby := some wset0 } [{ wld0 with started := true }] at1
     (s.coreAt 0).matrix.standby = some wset0 ∧ (s.queue 0 .mx).all (fun d => decide (wset0.wld < d.id) || d.started) = true) ∧
    (let s := engine .isOpen {} [aclr0 false] at1
     s.mxHead 0 = some (aclr0 false) ∧ s.free (aclr0 false) = true ∧
      (s.blockAt 1).bind (fun b => b.tileAt 0) = some (tile0 .isOpen)) ∧
    (let s := engine .isOpen {} [aclr0 true] at1
     (s.queue 0 .mx).find? (fun y => y.id = 2) = some (aclr0 true)) := by
  decide +kernel
def mma0 (n row : Nat) : Cmd := { cmd 3 .mx 0x06 (.mma false 0 64 0 n []) with
  started := true, row := row, wset := some wset0, writes := true }
def epi0 (fmt row : Nat) : Cmd := { cmd 4 .ep 0x0A (.epi ([BitVec.ofNat 8 (8 * fmt), 0x80] ++ List.replicate 62 0) 0 1) with row := row, writes := true }
def part0 : Part := { lane := 63, warp := 0, split := 0, reg := 0, mask := 1, g := 0, fmt := 0, c := 64, row := none }
def mmr0 : Cmd := { cmd 5 .mx 0x07 (.mmr 0 64 0 [part0]) with started := true, wset := some wset0 }
def mmrMod : MmrMod := { fmt := 0, cw := false, g := 0, rcd := false, grp := 0 }
theorem witness_MultipliesEnterTheirTileAndDrain :
    (let s := engine .isOpen {} [{ mma0 2 0 with started := false }] at1
     s.mxHead 0 = some { mma0 2 0 with started := false } ∧ (mulFmt (mma0 2 0).k).isSome = true ∧
      s.free { mma0 2 0 with started := false } = true ∧ (s.coreAt 0).matrix.filling = none ∧
      (s.coreAt 0).matrix.standby = none ∧ (s.coreAt 0).matrix.active = none ∧
      ((engine .isOpen { active := some wset0 } [] at1).coreAt 0).matrix.active = some wset0) ∧
    (let s := engine .isOpen {} [mma0 2 0] at1
     (s.queue 0 .mx).find? (fun y => y.id = 3) = some (mma0 2 0) ∧ s.cmdAt 3 = some (mma0 2 0) ∧
      (s.blockAt 1).bind (fun b => b.tileAt 0) = some (tile0 .isOpen) ∧ (mma0 2 0).rowsDone = false ∧ (mma0 2 0).rowReady = true ∧
      (mma0 2 0).fault = none ∧
      s.earlier (mma0 2 0) (fun y => (mulFmt y.k).isNone || y.status.isSome || y.rowsDone) = true ∧
      s.earlier (mma0 2 0) (fun y => match y.k with | .aclr _ => y.blk ≠ 1 || y.g ≠ 0 | _ => true) = true ∧
      (s.rowOfA (mma0 2 0) wset0 0).toOption.isSome = true ∧ ({ mma0 2 0 with row := 1 } : Cmd).rowsDone = false) ∧
    (mma0 2 2).rowsDone = true ∧
    (let s := engine .draining {} [epi0 0 1] at1
     (s.queue 0 .ep).head? = some (epi0 0 1) ∧ s.free (epi0 0 1) = true ∧
      (s.blockAt 1).bind (fun b => b.tileAt 0) = some (tile0 .draining) ∧ 1 ≤ (epi0 0 1).row) ∧
    (let s := engine .isOpen {} [mmr0] (stopped at1 (.mmr (pend0 (.mmr bare mmrMod regs) at1)))
     s.queue 0 .mx = [mmr0] ∧ [part0].find? (fun z => z.lane = 63 && z.row.isNone) = some part0 ∧
      ((s.warpAt 0).bind (fun w => w.splitAt 0)).bind (·.stop) = some (.mmr (pend0 (.mmr bare mmrMod regs) at1))) := by
  decide +kernel
/-- The last row of a multiply of two. -/
theorem witness_MultipliesEnterTheirTileAndDrain_last :
    (let s := engine .isOpen {} [mma0 2 1] at1
     (s.queue 0 .mx).find? (fun y => y.id = 3) = some (mma0 2 1) ∧ s.cmdAt 3 = some (mma0 2 1) ∧
      (s.blockAt 1).bind (fun b => b.tileAt 0) = some (tile0 .isOpen) ∧ (mma0 2 1).rowsDone = false ∧ (mma0 2 1).rowReady = true ∧
      s.earlier (mma0 2 1) (fun y => (mulFmt y.k).isNone || y.status.isSome || y.rowsDone) = true ∧
      s.earlier (mma0 2 1) (fun y => match y.k with | .aclr _ => y.blk ≠ 1 || y.g ≠ 0 | _ => true) = true ∧
      (s.rowOfA (mma0 2 1) wset0 1).toOption.isSome = true ∧ ({ mma0 2 1 with row := 2 } : Cmd).rowsDone = true) := by
  decide +kernel
/-- A row of FP32, and one of MXINT8, is stored to the scratchpad. -/
def epiS (fmt : Nat) : State := engine .draining {} [epi0 fmt 0] at1
def epiD (fmt : Nat) : List Byte := [BitVec.ofNat 8 (8 * fmt), 0x80] ++ List.replicate 62 0
def epiOut (fmt : Nat) : List Byte × List Byte × Flags :=
  epiBytes (((epiS fmt).blockAt 1).getD (newBlock 0 0 (0, 0) 0 0 0)) (tile0 .draining) (epiD fmt) 0
theorem witness_MultipliesEnterTheirTileAndDrain_row :
    ((epiS 0).arraysUce 1 (epiD 0) = none ∧ edOfmt (epiD 0) ≠ 6 ∧ (epi0 0 0).k = .epi (epiD 0) 0 1 ∧
      ∃ s1, (epiS 0).engStore (epi0 0 0) 1 0 (epiOut 0).1 = (s1, .ok ())) ∧
    (edOfmt (epiD 6) = 6 ∧ ∃ s1 s2, (epiS 6).engStore (epi0 6 0) 1 0 (epiOut 6).1 = (s1, .ok ()) ∧
      s1.engStore (epi0 6 0) 1 0 (epiOut 6).2.1 = (s2, .ok ())) := by
  refine ⟨⟨by decide +kernel, by decide, rfl, runs_to _ () (by decide +kernel)⟩, by decide, ?_⟩
  obtain ⟨s1, h⟩ := runs_to ((epiS 6).engStore (epi0 6 0) 1 0 (epiOut 6).1) () (by decide +kernel)
  have e : s1 = ((epiS 6).engStore (epi0 6 0) 1 0 (epiOut 6).1).1 := by rw [h]
  obtain ⟨s2, h2⟩ := runs_to (s1.engStore (epi0 6 0) 1 0 (epiOut 6).2.1) () (by rw [e]; decide +kernel)
  exact ⟨s1, s2, h, h2⟩
def putBytes (s : State) (off : Nat) (bs : List Byte) : State :=
  { s with mem := (List.range bs.length).foldl (fun m i => writeMem m (placeCode + off + i) (bs.getD i 0)) s.mem }
def copy0 (landed : List Nat) : Cmd := { cmd 6 .cp 0x00 (.copy 1 1 (.run 60 1000 8) none [] []) with started := true, landed := landed }
def copying (landed : List Nat) : State := queued at1 [copy0 landed]
def follow0 : Follow := { kind := 1, cw := false, rcd := false, fmt := 0, ck := 0, bank := 0, cnt := 1, arr := none, rel := none, aoff := 0, g := 0, da := 0, dg := 0, stride := 0 }
/-- A position list that names 0x102000, in global memory. -/
def listed : State := putBytes at1 0x1000 (leBytes 8 0x102000)
def patch0 : Cmd := cmd 7 .ga 0x02 (.patch 1 2 1 1 0 0x101000 1 16 none [])
def index0 (imax : Nat) : Index := {
  tbase := 0x102000, ilist := 0x103000, jrnl := 0, tstride := 4, rowb := 4, op := 0, aty := 0, imax := imax }
def gather0 (row : Nat) (part : Option (Nat × List Byte)) : Cmd := { cmd 8 .ga 0x0C (.gather 1 0 (index0 1) 2 part) with row := row }
def scatter0 (imax : Nat) (part : Option (Nat × Nat × Nat × List Byte)) : Cmd := cmd 9 .ga 0x0D (.scatter 1 0 (index0 imax) 1 part)
theorem witness_copyLanding :
    (copying []).cmdAt 6 = some (copy0 []) ∧ (copying []).startCopies 0 = copying [] ∧
      (lineMoves 1 1 (.run 60 1000 8)).1 = [(64, 1004), (65, 1005), (66, 1006), (67, 1007)] ∧
      ∃ s1 r s2, (copying []).readLine (copy0 []) 1 1 1 (.run 60 1000 8) [] [] = (s1, .ok r) ∧
        s1.engStoreLine (copy0 []) 1 r.1 = (s2, .ok ()) := by
  refine ⟨by decide +kernel, by decide +kernel, by decide +kernel, ?_⟩
  obtain ⟨r, h⟩ := oks ((copying []).readLine (copy0 []) 1 1 1 (.run 60 1000 8) [] []) (by decide +kernel)
  have e : r.1 = [(64, 0), (65, 0), (66, 0), (67, 0)] := by
    have : (match ((copying []).readLine (copy0 []) 1 1 1 (.run 60 1000 8) [] []).2 with
      | .ok y => decide (y.1 = [(64, 0), (65, 0), (66, 0), (67, 0)]) | .error _ => false) = true := by decide +kernel
    rw [h] at this
    simpa using this
  obtain ⟨s2, h2⟩ := runs_to (((copying []).readLine (copy0 []) 1 1 1 (.run 60 1000 8) [] []).1.engStoreLine (copy0 []) 1
    [(64, 0), (65, 0), (66, 0), (67, 0)]) () (by decide +kernel)
  exact ⟨_, r, s2, h, by rw [e, h2]⟩
theorem witness_commandCompletion :
    ((copying [0, 1]).startCopies 0 = copying [0, 1] ∧ (copying [0, 1]).registerBoards 0 = copying [0, 1] ∧
      moveLines 1 (.run 60 1000 8) = [0, 1]) ∧
    ((copying [0, 1]).badRead 1 (countRead follow0.cw (BitVec.ofNat 64 follow0.cnt)) = none ∧ (copying [0, 1]).roomIn 0 .mx 1 = true) ∧
    (let s := queued at1 [gather0 2 none]
     s.startCopies 0 = s ∧ s.registerBoards 0 = s ∧ s.gaHead (gather0 2 none) = true ∧ (gather0 2 none).gatherDone = true) := by
  decide +kernel
/-- A read at home, a write there, and the reduction of one element. -/
theorem witness_EngineReads :
    (∃ s1, at1.engKeys 0 .read 0x101000 8 = (s1, .ok (keysQ.take 8)) ∧ (∀ k ∈ keysQ.take 8, k < 2 ^ 42) ∧ s1.waits = [] ∧
      s1.readErr 0 0x101000 (keysQ.take 8) false = none ∧
      (s1.publish 0 (fun k => (keysQ.take 8).any (fun y => y / 64 = k / 64))).readErr 0 0x101000 (keysQ.take 8) false = none) ∧
    (∃ s1, at1.engKeys 0 .write 0x101000 4 = (s1, .ok ((List.range 4).map (placeCode + 0x1000 + ·))) ∧
      ((List.range 4).map (placeCode + 0x1000 + ·)).Nodup ∧ s1.waits = [] ∧ s1.lineBad (placeCode + 0x1000) = false ∧
      (placeCode + 0x1000) % 4 = 0 ∧ placeCode + 0x1000 + 4 ≤ 2 ^ 42) := by
  constructor
  · obtain ⟨s1, h⟩ := runs_to (at1.engKeys 0 .read 0x101000 8) (keysQ.take 8) (by decide +kernel)
    have e : s1 = (at1.engKeys 0 .read 0x101000 8).1 := by rw [h]
    exact ⟨s1, h, by decide, by rw [e]; decide +kernel, by rw [e]; decide +kernel, by rw [e]; decide +kernel⟩
  · obtain ⟨s1, h⟩ := runs_to (at1.engKeys 0 .write 0x101000 4) ((List.range 4).map (placeCode + 0x1000 + ·)) (by decide +kernel)
    have e : s1 = (at1.engKeys 0 .write 0x101000 4).1 := by rw [h]
    exact ⟨s1, h, by decide, by rw [e]; decide +kernel, by rw [e]; decide +kernel, by decide, by decide⟩
def patchS : State := queued listed [patch0]
def patchC : Cmd := { patch0 with started := true }
theorem witness_PatchLinesLand :
    patchS.cmdAt 7 = some patch0 ∧ patchS.gaHead patch0 = true ∧ min (64 - spaceAddr 1 0 % 64) (1 * (1 * 1 * 2 ^ 2) - 0) = 4 ∧
    ∃ s2 r s3, patchS.patchRead patchC 4 1 1 0x101000 16 [] 4 5 0 none [] = (s2, .ok r) ∧
      s2.engStoreLine patchC 1 ((List.range 4).map (fun i => (spaceAddr 1 ((0 : Int) + (i : Nat)), ((r.2.take 4).map Prod.snd).getD i 0))) =
        (s3, .ok ()) := by
  refine ⟨by decide +kernel, by decide +kernel, by decide, ?_⟩
  obtain ⟨r, h⟩ := oks (patchS.patchRead patchC 4 1 1 0x101000 16 [] 4 5 0 none []) (by decide +kernel)
  have e : (r.2.take 4).map Prod.snd = [0, 0, 0, 0] := by
    have : (match (patchS.patchRead patchC 4 1 1 0x101000 16 [] 4 5 0 none []).2 with
      | .ok y => decide ((y.2.take 4).map Prod.snd = [0, 0, 0, 0]) | .error _ => false) = true := by decide +kernel
    rw [h] at this
    simpa using this
  obtain ⟨s3, h3⟩ := runs_to ((patchS.patchRead patchC 4 1 1 0x101000 16 [] 4 5 0 none []).1.engStoreLine patchC 1
    ((List.range 4).map (fun i => (spaceAddr 1 ((0 : Int) + (i : Nat)), [(0 : Byte), 0, 0, 0].getD i 0)))) () (by decide +kernel)
  exact ⟨_, r, s3, h, by rw [e, h3]⟩
def gatherS (dsp : Nat) (dst : Int) : State := queued at1 [cmd 8 .ga 0x0C (.gather dsp dst (index0 1) 2 none)]
theorem witness_WindowsLand :
    ((queued at1 [gather0 0 none]).cmdAt 8 = some (gather0 0 none) ∧ (queued at1 [gather0 0 none]).gaHead (gather0 0 none) = true) ∧
    (∃ s1, (queued at1 [gather0 0 none]).indexes (gather0 0 none) (index0 1) [0, 1] = (s1, .ok [0, 0])) ∧
    (∃ s1, (queued at1 [gather0 0 none]).windowBytes { gather0 0 none with started := true } (index0 1) 2 =
      (s1, .ok (List.replicate 8 0))) ∧
    (match ((queued at1 [gather0 0 none]).runOn { gather0 0 none with started := true } 1 0 (List.replicate 8 0) 0).2.2.2 with
      | .ok _ => true | .error _ => false) = true ∧
    (match ((queued at1 [gather0 0 none]).runOn { gather0 0 none with started := true } 0 0x7000000 (List.replicate 8 0) 0).2.2.2 with
      | .ok _ => false | .error _ => true) = true :=
  ⟨by decide +kernel, runs_to _ _ (by decide +kernel), runs_to _ _ (by decide +kernel), by decide +kernel, by decide +kernel⟩
def scatterS (imax : Nat) (part : Option (Nat × Nat × Nat × List Byte)) : State := queued at1 [scatter0 imax part]
def scatterC (imax : Nat) : Cmd := { scatter0 imax none with started := true }
theorem witness_PositionsLand :
    ((scatterS 1 none).cmdAt 9 = some (scatter0 1 none) ∧ (scatterS 1 none).gaHead (scatter0 1 none) = true ∧
      0 ∉ (scatter0 1 none).landed) ∧
    (∃ s1 s2 s3, (scatterS 1 none).indexes (scatterC 1) (index0 1) (List.range 1) = (s1, .ok [0]) ∧
      s1.journal (scatterC 1) (index0 1) 0 = (s2, .ok 0) ∧ ¬ (index0 1).imax ≤ 0 ∧
      s2.readRow (scatterC 1) 1 (0 + (0 * 4 : Nat)) 4 = (s3, .ok [0, 0, 0, 0])) ∧
    (∃ s1, (scatterS 0 none).indexes (scatterC 0) (index0 0) (List.range 1) = (s1, .ok [0]) ∧ (index0 0).imax ≤ 0) ∧
    ((scatterS 1 (some (0, 0, 0, [0, 0, 0, 0]))).cmdAt 9 = some (scatter0 1 (some (0, 0, 0, [0, 0, 0, 0])))) ∧
    (match ((scatterS 1 none).applyRow (scatterC 1) (index0 1) 0 0 0 [0, 0, 0, 0]).2.2 with | .ok _ => true | .error _ => false) = true ∧
    (match ((scatterS 1 none).applyRow (scatterC 1) { index0 1 with tbase := 0x7000000 } 0 0 0 [0, 0, 0, 0]).2.2 with
      | .ok _ => false | .error _ => true) = true := by
  refine ⟨by decide +kernel, ?_, ?_, by decide +kernel, by decide +kernel, by decide +kernel⟩
  · obtain ⟨s1, h⟩ := runs_to ((scatterS 1 none).indexes (scatterC 1) (index0 1) (List.range 1)) [0] (by decide +kernel)
    have e : s1 = ((scatterS 1 none).indexes (scatterC 1) (index0 1) (List.range 1)).1 := by rw [h]
    obtain ⟨s3, h3⟩ := runs_to (s1.readRow (scatterC 1) 1 (0 + (0 * 4 : Nat)) 4) [0, 0, 0, 0] (by rw [e]; decide +kernel)
    exact ⟨s1, s1, s3, h, rfl, by decide, h3⟩
  · obtain ⟨s1, h⟩ := runs_to ((scatterS 0 none).indexes (scatterC 0) (index0 0) (List.range 1)) [0] (by decide +kernel)
    exact ⟨s1, h, by decide⟩

/-! ### The conjunction engine -/

/-- A forest of four elements with the classes {0, 1} and {2, 3}: its record at 0x103000, parents at 0x102000, sizes at
0x102100 and log at 0x102200, whose entry 0 says that element 3's parent was 2. -/
def forestR (snap : Nat) : List Byte :=
  leBytes 8 0x102000 ++ leBytes 8 0x102100 ++ leBytes 8 0x102200 ++ leBytes 4 4 ++ leBytes 4 8 ++ leBytes 4 0 ++ leBytes 4 0 ++
    leBytes 4 snap ++ List.replicate 20 0
def undo0 : Cmd := cmd 10 .cj 0x12 (.fundo 0x103000)
def forestS (snap : Nat) : State := queued (putBytes (putBytes (putBytes (putBytes at1 0x3000 (forestR snap))
  0x2000 ([0, 0, 2, 2].flatMap (leBytes 4))) 0x2100 ([2, 1, 2, 1].flatMap (leBytes 4))) 0x2200 (leBytes 4 3 ++ leBytes 4 0 ++ leBytes 4 2)) [undo0]
def fo (snap : Nat) : Forest := Forest.ofBytes 0x103000 (forestR snap)
def gs (s : State) (va : Word) (n : Nat) : State := (s.engRead 0 va n false .normal).1
def ps (s : State) (va : Word) (bs : List Byte) : State := (s.engWrite 0 va bs .normal).1
theorem gets_of {s : State} {c : Cmd} {va : Word} {n v : Nat} (hc : c.core = 0 ∧ c.hint = .normal)
    (h : (match (s.engRead 0 va n false .normal).2 with | .ok bs => decide (leNat bs = v) | .error _ => false) = true) :
    Claim.gets s c va n v (gs s va n) := by
  unfold Claim.gets gs
  rw [hc.1, hc.2]
  generalize hg : s.engRead 0 va n false .normal = r at *
  obtain ⟨s1, r⟩ := r
  cases r <;> simp_all
theorem writes_of {s : State} {va : Word} {bs : List Byte}
    (h : (match (s.engWrite 0 va bs .normal).2 with | .ok _ => true | .error _ => false) = true) :
    s.engWrite 0 va bs .normal = (ps s va bs, .ok ()) := by
  unfold ps
  generalize hg : s.engWrite 0 va bs .normal = r at *
  obtain ⟨s1, r⟩ := r
  cases r <;> simp_all
/-- What a step leaves when it goes well. -/
def good {α : Type} (x : State × Except EngErr α) : Bool := x.2.toOption.isSome
theorem witness_ElementWrites :
    (∃ s1, (forestS 0).keysAll 0 ((fo 0).touch false 3 0) = (s1, .ok ()) ∧
      Claim.gets s1 undo0 0x10200C 4 2 (gs s1 0x10200C 4) ∧ Claim.puts (gs s1 0x10200C 4) undo0 0x10200C 4 0 (ps (gs s1 0x10200C 4) 0x10200C (leBytes 4 0))) ∧
    (∃ s1, (forestS 1).keysAll 0 ((fo 1).touch false 3 0) = (s1, .ok ()) ∧
      let s2 := gs s1 0x10200C 4
      let s3 := ps s2 0x102200 (leBytes 16 (3 + 0 + 2 * 2 ^ 64))
      let s4 := ps s3 0x103020 (leBytes 4 1)
      Claim.gets s1 undo0 0x10200C 4 2 s2 ∧ Claim.puts s2 undo0 0x102200 16 (3 + 0 + 2 * 2 ^ 64) s3 ∧
      Claim.puts s3 undo0 0x103020 4 1 s4 ∧ Claim.puts s4 undo0 0x10200C 4 0 (ps s4 0x10200C (leBytes 4 0))) ∧
    (fo 0).snap = false ∧ (fo 1).snap = true := by
  refine ⟨?_, ?_, by decide, by decide⟩
  · obtain ⟨s1, h⟩ := runs_to ((forestS 0).keysAll 0 ((fo 0).touch false 3 0)) () (by decide +kernel)
    have e : s1 = ((forestS 0).keysAll 0 ((fo 0).touch false 3 0)).1 := by rw [h]
    exact ⟨s1, h, gets_of ⟨rfl, rfl⟩ (by rw [e]; decide +kernel), writes_of (by rw [e]; decide +kernel)⟩
  · obtain ⟨s1, h⟩ := runs_to ((forestS 1).keysAll 0 ((fo 1).touch false 3 0)) () (by decide +kernel)
    have e : s1 = ((forestS 1).keysAll 0 ((fo 1).touch false 3 0)).1 := by rw [h]
    exact ⟨s1, h, gets_of ⟨rfl, rfl⟩ (by rw [e]; decide +kernel), writes_of (by rw [e]; decide +kernel),
      writes_of (by rw [e]; decide +kernel), writes_of (by rw [e]; decide +kernel)⟩
/-- A root, a child, and a path to compress or to leave. -/
theorem witness_WalksFindTheRoot :
    Claim.gets (forestS 0) undo0 0x102008 4 2 (gs (forestS 0) 0x102008 4) ∧
    Claim.gets (forestS 0) undo0 0x10200C 4 2 (gs (forestS 0) 0x10200C 4) ∧
    (2 < 3 ∧ 2 < (fo 0).nelem ∧ ¬ 2 < (fo 0).nelem - 2 ∧ ¬ ((2 : Nat) ≤ 0)) ∧
    (∃ s2 keys, (gs (forestS 0) 0x10200C 4).engKeys 0 .write 0x10200C 4 = (s2, .ok keys) ∧ peerKey (keys.headD 0) = false ∧
      good (s2.elemSet undo0 (fo 0) false 3 0) = true) := by
  refine ⟨gets_of ⟨rfl, rfl⟩ (by decide +kernel), gets_of ⟨rfl, rfl⟩ (by decide +kernel), by decide, ?_⟩
  obtain ⟨s2, h⟩ := runs_to ((gs (forestS 0) 0x10200C 4).engKeys 0 .write 0x10200C 4) ((List.range 4).map (placeCode + 0x200C + ·))
    (by decide +kernel)
  have e : s2 = ((gs (forestS 0) 0x10200C 4).engKeys 0 .write 0x10200C 4).1 := by rw [h]
  exact ⟨s2, _, h, by decide, by rw [e]; decide +kernel⟩
theorem witness_LinksJoinTwoClasses :
    (∀ n, n = 0 ∨ n = 1 → let s1 := gs (forestS n) 0x102000 4
      Claim.gets (forestS n) undo0 0x102000 4 0 s1 ∧ Claim.gets s1 undo0 0x102008 4 2 (gs s1 0x102008 4)) ∧
    ((fo 1).snap = true ∧ ({ fo 1 with lcap := 1 } : Forest).lcap - (fo 1).lhead < 2 ∧ (fo 0).sbase ≠ 0) ∧
    (let s2 := gs (gs (forestS 0) 0x102000 4) 0x102008 4
     let f := { fo 0 with sbase := 0 }
     good (s2.keysAll 0 (f.touch false 2 0)) = true ∧ good ((s2.keysAll 0 (f.touch false 2 0)).1.elemSet undo0 f false 2 0) = true ∧
     let s3 := (s2.keysAll 0 ((fo 0).touch false 2 0 ++ ((fo 0).touch true 0 1 ++ [(.read, (fo 0).va true 2, 4)]))).1
     let s4 := gs s3 0x102100 4
     let s5 := gs s4 0x102108 4
     good (s2.keysAll 0 ((fo 0).touch false 2 0 ++ ((fo 0).touch true 0 1 ++ [(.read, (fo 0).va true 2, 4)]))) = true ∧
     Claim.gets s3 undo0 0x102100 4 2 s4 ∧ Claim.gets s4 undo0 0x102108 4 2 s5 ∧
     good (s5.elemSet undo0 (fo 0) false 2 0) = true ∧
     good ((s5.elemSet undo0 (fo 0) false 2 0).1.elemSet undo0 (fo 0) true 0 4) = true) := by
  refine ⟨fun n h => ?_, by decide, by decide +kernel, by decide +kernel, by decide +kernel, gets_of ⟨rfl, rfl⟩ (by decide +kernel),
    gets_of ⟨rfl, rfl⟩ (by decide +kernel), by decide +kernel, by decide +kernel⟩
  rcases h with rfl | rfl <;> exact ⟨gets_of ⟨rfl, rfl⟩ (by decide +kernel), gets_of ⟨rfl, rfl⟩ (by decide +kernel)⟩
theorem witness_OperationsAnswerTheirRoot :
    (match ((forestS 0).walkStep undo0 (fo 0) false { y := 3, path := [], found := false }).2 with
      | .ok (.inl _) => true | .ok (.inr _) => false | .error _ => false) = true ∧
    (match ((forestS 0).walkStep undo0 (fo 0) false { y := 2, path := [], found := false }).2 with
      | .ok (.inl _) => false | .ok (.inr r) => decide (r = 2) | .error _ => false) = true ∧
    (match ((forestS 0).linkStep undo0 (fo 0) 0 2).2 with | .ok (some _) => true | .ok none => false | .error _ => false) = true ∧
    (match ((forestS 0).linkStep undo0 (fo 0) 0 3).2 with | .ok (some _) => false | .ok none => true | .error _ => false) = true ∧
    Claim.gets (forestS 0) undo0 0x102008 4 2 (gs (forestS 0) 0x102008 4) ∧
    Claim.gets (gs (forestS 0) 0x102008 4) undo0 0x102108 4 2 (gs (gs (forestS 0) 0x102008 4) 0x102108 4) :=
  ⟨by decide +kernel, by decide +kernel, by decide +kernel, by decide +kernel, gets_of ⟨rfl, rfl⟩ (by decide +kernel),
    gets_of ⟨rfl, rfl⟩ (by decide +kernel)⟩
theorem witness_SnapshotsOpenCloseAndBegin :
    (∀ v ∈ [0, 1], (forestS 0).engWrite 0 0x103020 (leBytes 4 0 ++ leBytes 4 0 ++ leBytes 4 v) .normal =
      (ps (forestS 0) 0x103020 (leBytes 4 0 ++ leBytes 4 0 ++ leBytes 4 v), .ok ())) ∧
    Claim.puts (forestS 1) undo0 0x103024 4 0 (ps (forestS 1) 0x103024 (leBytes 4 0)) ∧
    (3 < (fo 0).nelem ∧ Claim.puts (forestS 0) undo0 0x10200C 4 3 (ps (forestS 0) 0x10200C (leBytes 4 3))) ∧
    ((fo 0).nelem ≤ 7 ∧ 7 < 2 * (fo 0).nelem ∧ (fo 0).sbase ≠ 0 ∧
      Claim.puts (forestS 0) undo0 0x10210C 4 1 (ps (forestS 0) 0x10210C (leBytes 4 1))) ∧
    ((fo 0).nelem ≤ 8 ∧ ¬ 8 < 2 * (fo 0).nelem) := by
  refine ⟨fun v hv => ?_, writes_of (by decide +kernel), ⟨by decide, writes_of (by decide +kernel)⟩,
    ⟨by decide, by decide, by decide, writes_of (by decide +kernel)⟩, by decide⟩
  rcases List.mem_cons.mp hv with rfl | hv
  · exact writes_of (by decide +kernel)
  · rcases List.mem_singleton.mp hv with rfl
    exact writes_of (by decide +kernel)
theorem witness_UndoRevertsTheLog :
    (fo 0).snap = false ∧ (let f := { fo 1 with lhead := 1 }
     f.snap = true ∧ f.lhead - f.mark = 1 ∧
     (∃ s1, (forestS 1).engRead 0 0x102200 16 false .normal = (s1, .ok (leBytes 4 3 ++ leBytes 4 0 ++ leBytes 8 2)) ∧
      Claim.puts s1 undo0 0x10200C 4 2 (ps s1 0x10200C (leBytes 4 2))) ∧ 3 < f.nelem ∧ ¬ 3 < f.nelem - 1) ∧
    Claim.puts (forestS 1) undo0 0x103020 4 0 (ps (forestS 1) 0x103020 (leBytes 4 0)) := by
  refine ⟨by decide, ⟨by decide, by decide, ?_, by decide, by decide⟩, writes_of (by decide +kernel)⟩
  obtain ⟨s1, h⟩ := runs_to ((forestS 1).engRead 0 0x102200 16 false .normal) (leBytes 4 3 ++ leBytes 4 0 ++ leBytes 8 2)
    (by decide +kernel)
  have e : s1 = ((forestS 1).engRead 0 0x102200 16 false .normal).1 := by rw [h]
  exact ⟨s1, h, writes_of (by rw [e]; decide +kernel)⟩
/-- RELABEL with `.add` over the whole forest; its inputs are the parents, its outputs the sizes. -/
def relabel0 (p : CjPos) : Cmd := { cmd 11 .cj 0x10 (.relabel 0 0x103000 0x102000 0x102100 0 4) with started := true, cj := p }
def keysOut : List Nat := (List.range 4).map (placeCode + 0x2108 + ·)
theorem witness_RelabelReducesByRoot :
    (match ((forestS 0).walkStep (relabel0 {}) (fo 0) false { y := 0, path := [], found := false }).2 with
      | .ok (.inl _) => false | .ok (.inr r) => decide (r = 0) | .error _ => false) = true ∧
    (match ((forestS 0).walkStep (relabel0 {}) (fo 0) false { y := 1, path := [], found := false }).2 with
      | .ok (.inl _) => true | .ok (.inr _) => false | .error _ => false) = true ∧
    windowEls 0 4 0 = [0, 1, 2, 3] ∧
    (relabel0 {}).cj.todo = none ∧ Claim.gets (forestS 0) (relabel0 {}) 0x102008 4 2 (gs (forestS 0) 0x102008 4) ∧
    (∃ s1, (forestS 0).engKeys 0 .write 0x102108 4 = (s1, .ok keysOut) ∧ peerKey (keysOut.headD 0) = false ∧
      let s2 := (s1.atHome (keysOut.headD 0 / 8)).applyReds (keysOut.headD 0 / 64)
      Claim.gets s2 (relabel0 {}) 0x102108 4 2 (gs s2 0x102108 4) ∧
      Claim.puts (gs s2 0x102108 4) (relabel0 {}) 0x102108 4 6 (ps (gs s2 0x102108 4) 0x102108 (leBytes 4 6))) ∧
    good ((forestS 0).reduceRoot (relabel0 {}) 0 0x102100 2 2 [2, 2]) = true := by
  refine ⟨by decide +kernel, by decide +kernel, by decide, rfl, gets_of ⟨rfl, rfl⟩ (by decide +kernel), ?_, by decide +kernel⟩
  obtain ⟨s1, h⟩ := runs_to ((forestS 0).engKeys 0 .write 0x102108 4) keysOut (by decide +kernel)
  have e : s1 = ((forestS 0).engKeys 0 .write 0x102108 4).1 := by rw [h]
  exact ⟨s1, h, by decide, gets_of ⟨rfl, rfl⟩ (by rw [e]; decide +kernel), writes_of (by rw [e]; decide +kernel)⟩
def find0 : Instr := .find bare false regs
def finding : State := stopped at1 (.conj (pend0 find0 at1))
theorem witness_ResultsReturn :
    finding.warpAt 0 = some (theWarp finding) ∧
    ((theWarp finding).splitAt 0).bind (·.stop) = some (.conj (pend0 find0 at1)) ∧ (pend0 find0 at1).held = [] ∧
    (pend0 find0 at1).todo &&& ~~~ BitVec.ofNat 32 (2 ^ 0) = 0 ∧ regs.a = .d 0 := by
  decide +kernel
theorem witness_ConjunctionOperationsRunAtTheirSlice :
    (forestOk 0x103000 (List.replicate 64 0) = false ∧ forestOk 0x103000 (forestR 0) = true ∧ fld (forestR 0) 24 4 = 4 ∧
      fld (forestR 0) 8 8 ≠ 0 ∧ fld (forestR 0) 8 8 < 2 ^ 64 ∧
      forestOk 0x103000 (leBytes 8 0x102000 ++ leBytes 16 0 ++ leBytes 4 4 ++ List.replicate 36 0) = true) ∧
    ((forestS 0).cmdAt 10 = some undo0 ∧ undo0.k.frec = some 0x103000 ∧ undo0.status = none ∧ (forestS 0).free undo0 = true ∧
      (forestS 0).earlier undo0 (fun y => y.started) = true) ∧
    (∃ s1 keys s2 r, (forestS 0).engKeys 0 .read 0x103000 64 = (s1, .ok keys) ∧ (forestS 0).homeSlice (keys.headD 0) = 0 ∧
      s1.conjMay undo0 (keys.headD 0) = true ∧
      ((s1.count .slice 0 0x120 none none (some 4)).putCmd { undo0 with started := true, g := keys.headD 0 }).engRead 0 0x103000 64
        false = (s2, .ok r)) ∧
    ((forestS 0).homeSlice (placeCode + 0x3000) = 0 ∧ (forestS 0).forestAsks undo0 = false ∧
      Claim.gets (forestS 0) { undo0 with started := true, g := placeCode + 0x3000, cj := { rcd := forestR 0 } } 0x103020 4 0
        (gs (forestS 0) 0x103020 4)) := by
  refine ⟨by decide +kernel, by decide +kernel, ?_, by decide +kernel, by decide +kernel, gets_of ⟨rfl, rfl⟩ (by decide +kernel)⟩
  obtain ⟨s1, h⟩ := runs_to ((forestS 0).engKeys 0 .read 0x103000 64) ((List.range 64).map (· + (placeCode + 0x3000))) (by decide +kernel)
  have e : s1 = ((forestS 0).engKeys 0 .read 0x103000 64).1 := by rw [h]
  obtain ⟨r, h2⟩ := oks (((s1.count .slice 0 0x120 none none (some 4)).putCmd { undo0 with started := true, g := placeCode + 0x3000 }).engRead
    0 0x103000 64 false) (by rw [e]; decide +kernel)
  exact ⟨s1, _, _, r, h, by decide +kernel, by rw [e]; decide +kernel, h2⟩

/-! ### Cache words, launches and the outside world -/

def hmod : HMod := { mt := .i32, idx := 3, off := 0 }
/-- The table entry 3 holds the load of `paged`. -/
def hoisted : State := only 1 (fun w => { w with
  d := [(32, 0x100010)], hoist := [(3, some { width := 4, dst := 0, addrs := [(0, 0x100010)], lines := [] })] })
theorem witness_HoistedLoadsPrefetchAndDcf :
    (Ready paged (C paged) (W paged) (P paged) bare regs [.d 1] (W paged).ports {} ∧
      ∃ s1, Claim.hoists 0 .normal hmod (readOps (C paged) (W paged) {} regs {}) (fun _ => some [0, 0, 0, 0])
        (paged.putWarp 0 { W paged with ports := (W paged).ports }) [0] s1 ∧ (s1.warpAt 0).isSome = true) ∧
    (∃ s1, Claim.hoists 0 .normal hmod (readOps (C at1) (W at1) {} regs {}) (fun _ => none)
        (at1.putWarp 0 { W at1 with ports := (W at1).ports }) [0] s1) ∧
    ((W hoisted).hoistAt 3).any (fun h => h.fits hmod (.d 0) 1 (readOps (C hoisted) (W hoisted) {} regs {})) = true ∧
    (Ready (holding 0x100020 32 0) (C (holding 0x100020 32 0)) (W (holding 0x100020 32 0)) (P (holding 0x100020 32 0)) bare regs
      [.d 1, .d 2] (W (holding 0x100020 32 0)).ports {} ∧ (0x100020 : Word).toNat % 64 + 32 ≤ 64 ∧
      ((holding 0x100020 32 0).translate 0 .read 0x100000).2.toOption.isSome = true) ∧
    ((holding 0 64 0).translate 0 .read 0).2.toOption.isSome = false := by
  refine ⟨⟨ready_of _ _ _ _ (by decide +kernel), ?_⟩, ?_, by decide +kernel,
    ⟨ready_of _ _ _ _ (by decide +kernel), by decide, by decide +kernel⟩, by decide +kernel⟩
  · obtain ⟨s1, h⟩ := runs_to ((paged.putWarp 0 { W paged with ports := (W paged).ports }).loadG 0 .normal 0x100010 4)
      [0, 0, 0, 0] (by decide +kernel)
    have e : s1 = ((paged.putWarp 0 { W paged with ports := (W paged).ports }).loadG 0 .normal 0x100010 4).1 := by rw [h]
    obtain ⟨s2, h2⟩ := runs_to ((s1.window 0 (s1.placeLines 0 (.g 0x100010) 4) false).translateRun 0 .read 0x100010 4) keys4
      (by rw [e]; decide +kernel)
    have e2 : s2 = ((s1.window 0 (s1.placeLines 0 (.g 0x100010) 4) false).translateRun 0 .read 0x100010 4).1 := by rw [h2]
    exact ⟨s2, .inl ⟨s1, s2, _, _, h, rfl, h2, rfl⟩, by rw [e2, e]; decide +kernel⟩
  · have h : ((at1.putWarp 0 { W at1 with ports := (W at1).ports }).loadG 0 .normal 0 4).2.toOption.isSome = false := by
      decide +kernel
    cases h2 : (at1.putWarp 0 { W at1 with ports := (W at1).ports }).loadG 0 .normal 0 4 with
    | mk s1 r =>
      rw [h2] at h
      cases r with
      | ok bs => cases h
      | error e => exact ⟨s1, .inr ⟨s1, e, h2, rfl, rfl⟩⟩
/-- A launch record: RECT, one warp, one block of the partition `part`, entry 0x100000, status word at 0x105000. -/
def record (part : Nat) : List Byte :=
  leBytes 4 0 ++ leBytes 4 part ++ leBytes 2 1 ++ leBytes 2 1 ++ leBytes 4 0xFFFF0101 ++ leBytes 8 0x100000 ++ leBytes 48 0 ++
  leBytes 8 0x105000 ++ leBytes 48 0
def recorded (part : Nat) : State := putBytes at1 0x4000 (record part)
def submitted (part : Nat) (addr : Word) : State :=
  { recorded part with subs := [{ id := 3, addr := addr, src := .queue 0 }] }
def launching : State := stopped at1 (.launch 3 (pend0 (.launch bare regs) at1))
theorem witness_SubmissionsAreCheckedAndAccepted :
    (at1.ident.state = 1 ∧ ((4 : Word) - (at1.hostq.getD 0 HostQ.reset).qhead).toNat ≤ ringLen 2 ∧
      ¬ ((5 : Word) - (at1.hostq.getD 0 HostQ.reset).qhead).toNat ≤ ringLen 2) ∧
    (∃ t l, (recorded 0x010101).checkRecord 0x104000 = (t, .ok l)) ∧
    ((submitted 0 0x104001).takeEntry.subs = [{ id := 3, addr := 0x104001, src := .queue 0 }] ∧
      (submitted 0 0x104001).launchCount < 256 ∧ (0x104001 : Word).toNat % 64 ≠ 0) ∧
    (match ({ (submitted 0 0x104000).takeEntry with subs := [] }.checkRecord 0x104000).2 with
      | .error (0x12, 0, some 0x105000) => true
      | _ => false) = true ∧
    ({ (submitted 0x010101 0x104000).takeEntry with subs := [] }.checkRecord 0x104000).2.toOption.isSome = true ∧
    ((theWarp launching).splitAt 0).bind (·.stop) = some (.launch 3 (pend0 (.launch bare regs) at1)) := by
  refine ⟨by decide +kernel, ?_, by decide +kernel, by decide +kernel, by decide +kernel, by decide +kernel⟩
  obtain ⟨l, h⟩ := oks ((recorded 0x010101).checkRecord 0x104000) (by decide +kernel)
  exact ⟨_, l, h⟩
/-- A second launch, numbered 9. -/
def launched (l : Launch) : State := at1.putLaunch 9 l
def accepted (lctl : BitVec 32) (guard : Word) : Launch :=
  { launch0 with st := .accepted, lctl := lctl, guard := guard, nblocks := 1 }
def admitting (lctl : BitVec 32) : State := launched { launch0 with lctl := lctl, toAdmit := [(0, 0)] }
def ended : State := { at1 with warps := [] }
theorem witness_LaunchesAreGuardedAdmittedAndEnd :
    ((launched (accepted 0 0)).launchAt 9 = some (accepted 0 0) ∧ (accepted 0 0).kind = 0 ∧ (accepted 1 0).kind = 1 ∧
      (accepted 0 0).start.toNat ≤ (launched (accepted 0 0)).time.toNat ∧
      ({ accepted 0 0 with start := 1 } : Launch).start.toNat > at1.time.toNat ∧
      (0x101002 : Word).toNat % 4 ≠ 0) ∧
    ((launched (accepted 0 0x101000)).devRead .read 0x101000 4).2 = some [0, 0, 0, 0] ∧
    ((launched (accepted 0 0x100000)).devRead .read 0x100000 4).2 = some [0x73, 0, 0, 0] ∧
    (let s := admitting 1
     (s.launchAt 9).any (fun l => decide (l.st = .running) && decide (l.kind = 1) &&
       decide (l.toAdmit.find? (fun y => y.2 = 0) = some (0, 0)) && s.waitsOn 9 l 0 && s.firstOn 9 l 0 &&
       s.roomFor 0 l.part l.warps 1 9) = true ∧ s.coreOn 0 = true) ∧
    (let s := admitting 0
     (s.launchAt 9).any (fun l => decide (l.kind = 0) && (rectCores l.origin.1 l.origin.2 l.tw l.th).all (fun y =>
       s.coreOn y && s.firstOn 9 l y && s.roomFor y l.part l.warps l.bpc 9)) = true) ∧
    (ended.blockWarps 1 = [] ∧ ended.cmds = [] ∧ (ended.coreAt 0).matrix.forms = [] ∧ (ended.blockAt 1).isSome = true) ∧
    (at1.blocks.map Prod.fst).Nodup := by
  decide +kernel
/-- One item waits since time 0, with a share of the weight on tag 0. -/
def stage1 (formed : List Nat) : Stage := { stage0 with items := [(0, 0x200000010)], formed := formed }
def inStage (formed : List Nat) (warps : Nat) : State :=
  let s := staged (stage1 formed) at1
  match s.launchAt 0 with
  | some l => s.putLaunch 0 { l with warps := warps }
  | none => s
theorem witness_StagesFormWarpsAndTerminate :
    ((stage1 []).items.drop (([] : List Nat).foldl (· + ·) 0) = [(0, 0x200000010)] ∧
      (0 : Word).toNat + stage0.ptime ≤ ({ inStage [] 1 with time := 100 } : State).time.toNat ∧
      ¬ (0 : Word).toNat + stage0.ptime ≤ ({ inStage [] 1 with time := 99 } : State).time.toNat) ∧
    (let s := inStage [1] 2
     s.stopping 1 = false ∧
     (List.range 2).find? (fun j => !((s.blockWarps 1).map (fun e => e.2.wid)).contains j) = some 1 ∧
     nextStage [stage1 [1]] = some 0 ∧ (s.freeSlot 0).isSome = true ∧ (s.readItems (stage1 [1]) (List.range 1)).2.isSome = true) ∧
    (let s := inStage [] 1
     (s.launchAt 0).any (fun l => decide (l.kind = 2) && decide (l.st = .running) && decide (l.toAdmit = [])) = true ∧
     (s.devRead .read 0x101000 8).2.isSome = true) ∧
    ((staged stage0 ended).launchAt 0).any (fun l => decide ((staged stage0 ended).tagCount 0 l 0 = 0)) = true ∧
    ((staged { stage0 with items := [(0, 0x200000001)] } ended).launchAt 0).any (fun l =>
      decide ((staged { stage0 with items := [(0, 0x200000001)] } ended).tagCount 0 l 0 ≠ 0)) = true := by
  decide +kernel
def post0 (seq : Option (BitVec 32)) (cause : Nat) (o : Owner) : FPost := {
  id := 5, owner := o, launch := some 0, seq := seq,
  r := { faddr := 0, fpc := 0, flrec := 0, fcore := 0, floc := 0, fcause := cause, facc := 0, ftmask := 1, fbid := 0, fdet := 0 } }
def posted (f : FPost) (head : Word) : State :=
  { at1 with sys := { at1.sys with posts := [f], fqbase := 0x700000, fqsize := 6, fqhead := head } }
/-- A command whose record was damaged when it was pushed, and an operation of a FIND. -/
def cpytW : Instr := .cpyt bare { ssp := .g, dsp := .s, cw := false, rcd := true } regs
def unreadV : Opnds := readOps (C at1) (W at1) {} { regs with d := .small 17 } {}
def unread0 : Cmd := { cmd 12 .cp 0x01 (.unread cpytW unreadV 0 (.copy 0 1 (.run 0 0 8) none [] []) false) with fault := some 5 }
def find1 : Cmd := { cmd 13 .cj 0 (.conjOp 1 false 0 0x103000 3 0) with started := true, fault := some 5 }
theorem witness_FaultQueueRepliesAndInvalidations :
    (let s := posted (post0 none 0x20 (.split 0 0)) 63
     s.sys.posts.find? (fun g => g.seq.isNone) = some (post0 none 0x20 (.split 0 0)) ∧
      s.key (s.sys.fqbase.toNat + 64 * (s.sys.fqhead.toNat % ringLen s.sys.fqsize)) = some (0x700000 + 64 * 63) ∧
      (s.sys.fqhead - s.sys.fqtail).toNat < ringLen s.sys.fqsize) ∧
    (let s := posted (post0 none 0x20 (.split 0 0)) 64
     ¬ (s.sys.fqhead - s.sys.fqtail).toNat < ringLen s.sys.fqsize) ∧
    (posted (post0 (some 7) 0x20 (.split 0 0)) 0).recordOf 7 = some (post0 (some 7) 0x20 (.split 0 0)) ∧
    (let s := queued (posted (post0 (some 7) 0x20 (.cmd 10)) 0) [undo0]
     s.recordOf 7 = some (post0 (some 7) 0x20 (.cmd 10)) ∧ s.cmdAt 10 = some undo0) ∧
    (let s := { posted (post0 (some 7) 0x20 (.split 0 0)) 0 with
       warps := [(0, some ((W at1).putSplit { P at1 with stop := some (.replay 5 (pend0 (.ld bare ldS regs) at1)) }))] }
     (s.closeRecord 5).waiterOf 5 = some (0, 0) ∧ (s.closeRecord 5).stopping 1 = false) ∧
    at1.ident.state = 1 ∧ at1.late = [] ∧ ({ at1.sys with tinv := some 0, icinv := true } : Sys).tinv.isSome = true ∧
    (let s := { queued (posted (post0 (some 7) 0x23 (.cmd 12)) 0) [unread0] with badS := [(1, 0)] }
     s.recordOf 7 = some (post0 (some 7) 0x23 (.cmd 12)) ∧ s.cmdAt 12 = some unread0 ∧
      (pushPlanOf cpytW).isSome = true ∧ s.badRead 1 (cpytPlan.reads s 1 unreadV 0) = some 0 ∧
      ({ s with badS := [] } : State).badRead 1 (cpytPlan.reads s 1 unreadV 0) = none ∧
      unread0.follow = none ∧ (post0 (some 7) 0x23 (.cmd 12)).launch = some 0) ∧
    (let s := queued (posted (post0 (some 7) 0x20 (.cmd 13)) 0) [find1]
     s.recordOf 7 = some (post0 (some 7) 0x20 (.cmd 13)) ∧ s.cmdAt 13 = some find1) := by
  decide +kernel
theorem witness_PreemptionSavesBlocksAndCancels :
    (at1.ident.state = 1 ∧ at1.sys.pbusy = false ∧ at1.coreBlocks 1 = [] ∧ at1.sys.saving = []) ∧
    (at1.namedLaunch.isSome = true ∧ { at1 with sys := { at1.sys with plaunch := 64 } }.namedLaunch = none) ∧
    (at1.blockAt 1).isSome = true ∧ (at1.launchAt 0).isSome = true ∧ at1.late = [] ∧ at1.reds = [] ∧ at1.cmds = [] ∧ (theWarp at1).splits.all (fun p => p.stop.isNone) = true ∧
    (let s := { copying [] with nextUid := 100 }
     copy0 [] ∈ s.cmds ∧ (s.cmds.all (fun y => decide (y.id ≠ 6) || decide (y = copy0 []))) = true ∧ (copy0 []).id < s.nextUid ∧
      (copy0 []).port = .cp ∧ (copy0 []).started = true ∧ (s.launchBlocks 0).map Prod.fst = [1]) := by
  decide +kernel
/-- A list of two save areas; the block is idempotent, so that one is enough for it. -/
def areas2 : State :=
  let b := (at1.blockAt 1).getD (newBlock 0 0 (0, 0) 0 0 0)
  { ((putBytes at1 0x1000 (leBytes 8 0x700000 ++ leBytes 8 0x710000)).putBlock 1 { b with ehw := 5 * 2 ^ 112 + 2 ^ 13, regions := [] }).putWarp
      0 { theWarp at1 with regions := [] } with
    sys := { at1.sys with parea := BitVec.ofNat 64 (placeCode + 0x1000) } }
theorem areaList_go (s : State) (n a k : Nat) (h : s.key a = some k)
    (hk : s.power.inReset = [] ∧ peerKey k = false ∧ s.homeBad k = false ∧ s.peerFailed [k] = false) (h0 : s.homeWord k ≠ 0) :
    s.areaList (n + 1) a = ((s.areaList n (a + 8)).1, s.homeWord k :: (s.areaList n (a + 8)).2) := by
  obtain ⟨h1, h2, h3, h4⟩ := hk
  simp only [State.areaList, State.gate, State.askPeers, h, h1, h2, List.all_cons, List.all_nil, Bool.not_false, Bool.and_true, if_true,
    h3, h4, h0, decide_false, Bool.or_self, Bool.false_eq_true, if_false]
theorem areaList_end (s : State) (n a k : Nat) (h : s.key a = some k)
    (hk : s.power.inReset = [] ∧ peerKey k = false ∧ s.homeBad k = false ∧ s.peerFailed [k] = false) (h0 : s.homeWord k = 0) :
    s.areaList (n + 1) a = (s, []) := by
  obtain ⟨h1, h2, h3, h4⟩ := hk
  simp [State.areaList, State.gate, State.askPeers, h, h1, h2, h3, h4, h0]
/-- The same with a copy in flight and one queued. -/
def queued7 : Cmd := { copy0 [] with id := 7, started := false }
def areasCopy : State := { queued areas2 [copy0 [], queued7] with nextUid := 100 }
theorem areas2_list : (areas2.areaList 65536 areas2.sys.parea.toNat).2 = [0x700000, 0x710000] := by
  have h : areas2.sys.parea.toNat = 0x601000 := by decide
  rw [h, areaList_go areas2 65535 0x601000 0x601000 (by decide +kernel) (by decide +kernel) (by decide +kernel),
    areaList_go areas2 65534 _ 0x601008 (by decide +kernel) (by decide +kernel) (by decide +kernel),
    areaList_end areas2 65533 _ 0x601010 (by decide +kernel) (by decide +kernel) (by decide +kernel)]
  decide +kernel
theorem areasCopy_list : (areasCopy.areaList 65536 areasCopy.sys.parea.toNat).2 = [0x700000, 0x710000] := by
  have h : areasCopy.sys.parea.toNat = 0x601000 := by decide
  rw [h, areaList_go areasCopy 65535 0x601000 0x601000 (by decide +kernel) (by decide +kernel) (by decide +kernel),
    areaList_go areasCopy 65534 _ 0x601008 (by decide +kernel) (by decide +kernel) (by decide +kernel),
    areaList_end areasCopy 65533 _ 0x601010 (by decide +kernel) (by decide +kernel) (by decide +kernel)]
  decide +kernel
theorem witness_QuietBlocksAreSaved :
    ((areas2.blockAt 1).isSome = true ∧ areas2.sys.saving = [] ∧ areas2.sys.cancel = none ∧ areas2.waits = [] ∧ areas2.late = [] ∧
      areas2.cmds = [] ∧ risingFrom 0 areas2.warps = true ∧ (theWarp areas2).underwayOk = true ∧
      (theWarp areas2).splits.all (fun p => p.stop.isNone) = true ∧
      (areas2.blockAt 1).any (fun x => areas2.idempotent 1 x) = true) ∧
    (areas2.areaList 65536 areas2.sys.parea.toNat).2.length = 2 ∧ (at1.areaList 65536 at1.sys.parea.toNat).2.length < 1 := by
  refine ⟨by decide +kernel, by rw [areas2_list]; rfl, ?_⟩
  rw [areaList_end at1 65535 _ 0 (by decide +kernel) (by decide +kernel) (by decide +kernel)]
  decide
def savingOf (s : State) : State :=
  { s with sys := { s.sys with pbusy := true, saving := [{ blk := 1, areas := [0x700000], idem := false, lost := false, cmds := [] }] } }
theorem witness_CopiesInFlightComplete :
    (areasCopy.blockAt 1).any (fun x => areasCopy.idempotent 1 x && (areasCopy.launchAt x.launch).isSome) = true ∧
    areasCopy.sys.saving = [] ∧ areasCopy.sys.cancel = none ∧ areasCopy.cmds = [copy0 [], queued7] ∧
    (copy0 []).started = true ∧ queued7.started = false ∧ (copy0 []).id ≠ queued7.id ∧ (copy0 []).id < areasCopy.nextUid ∧
    1 ≤ (areasCopy.areaList 65536 areasCopy.sys.parea.toNat).2.length ∧
    ((savingOf areasCopy).quiet 1 = false ∧ (savingOf at1).quiet 1 = true ∧ ((savingOf at1).blockAt 1).isSome = true) := by
  refine ⟨by decide +kernel, by decide +kernel, by decide +kernel, rfl, rfl, rfl, by decide, by decide +kernel, ?_, by decide +kernel⟩
  rw [areasCopy_list]; decide
/-- While the block is being saved: a CPYG at a position boundary and inside a position, a GTH without and with a window under
way, an SCT position that waits for a peer and one that does not. -/
def midPatch : Cmd := { patch0 with row := 2 }
def askedS : State := { savingOf (scatterS 1 none) with bexDone := [{ addr := 0, op := .read, who := (.event (.scatterPosition 9 0), 0), result := some 0 }] }
theorem witness_EnginesStopAtPositions :
    ((savingOf patchS).cmdAt 7 = some patch0 ∧ (savingOf patchS).gaHead patch0 = true ∧ (savingOf patchS).stopping patch0.blk = true ∧
      patch0.row % (1 * 1 * 2 ^ 2) = 0 ∧ (savingOf (queued listed [midPatch])).gaHead midPatch = true ∧ midPatch.row % (1 * 1 * 2 ^ 2) ≠ 0 ∧
      midPatch.row < 1 * (1 * 1 * 2 ^ 2)) ∧
    (let s := savingOf (queued at1 [gather0 0 none])
     s.cmdAt 8 = some (gather0 0 none) ∧ s.gaHead (gather0 0 none) = true ∧ s.stopping (gather0 0 none).blk = true) ∧
    (let c := gather0 0 (some (0, List.replicate 8 0))
     let s := savingOf (queued at1 [c])
     s.cmdAt 8 = some c ∧ s.gaHead c = true ∧ s.stopping c.blk = true) ∧
    ((savingOf (scatterS 1 none)).gaHead (scatter0 1 none) = true ∧ (savingOf (scatterS 1 none)).stopping (scatter0 1 none).blk = true ∧
      (savingOf (scatterS 1 none)).asked (.event (.scatterPosition 9 0)) = false ∧ askedS.asked (.event (.scatterPosition 9 0)) = true) := by
  decide +kernel
/-- A context of the block, saved in the area at 0x700000 and moved to core 1, which is free. -/
def context9 : Saved := { savedOf at1 with warps := [(0, theWarp at1)], areas := [0x700000], image := at1.areaImage [0x700000] }
def saved9 : State := { ended with saved := [context9], sys := { at1.sys with rarea := 0x700000 }, blocks := [] }
def rest9 : Rest := { rarea := 0x700000, target := 1, ctx := some 9, since := 0, capped := false, copying := false }
theorem witness_RestoresAreCheckedQueuedAndPerformed :
    (({ saved9 with saved := [] } : State).saved.find? (fun v => v.alive && v.areas.head? = some 0x700000) = none) ∧
    (saved9.saved.find? (fun v : Saved => v.alive && v.areas.head? = some saved9.sys.rarea) = some context9 ∧
      saved9.areaImage context9.areas = context9.image ∧ saved9.coreOn 1 = true ∧
      (saved9.launchAt context9.blk.launch).any (fun l => decide (partG l.part ≤ 192) && decide (l.warps ≤ 256)) = true ∧
      context9.stk ≤ saved9.ctl.stksize.toNat ∧ saved9.coreOn 144 = false) ∧
    (let s := { saved9 with rests := [rest9] }
     s.saved.find? (fun v => v.id = 9 && v.alive && v.areas ≠ []) = some context9 ∧
      (s.launchAt 0).any (fun l => s.fits context9 l 1) = true ∧ context9.idem = false ∧ context9.lost = false ∧
      context9.cmds = [] ∧ rest9.copying = false ∧ s.power.ckst ≠ 3 ∧ s.coreOn 1 = true ∧
      (s.placeWarps 1 ((List.range 256).filterMap (fun i => context9.warps.find? (fun e => e.2.wid = i)))).map Prod.snd = [256] ∧
      (s.moveStacks 1 ((s.placeWarps 1 ((List.range 256).filterMap (fun i => context9.warps.find? (fun e => e.2.wid = i)))).map
        (fun y => s.shiftOf context9 y.1 y.2))).2.toOption.isSome = true) ∧
    ((theWarp at1).restart = 0 ∧ { context9 with idem := true }.idem = true ∧
      ({ saved9 with saved := [{ context9 with idem := true }] }.launchAt 0).any (fun l =>
        { saved9 with saved := [{ context9 with idem := true }] }.fits { context9 with idem := true } l 1) = true ∧
      ({ saved9 with saved := [{ context9 with lost := true }] }.launchAt 0).any (fun l =>
        { saved9 with saved := [{ context9 with lost := true }] }.fits { context9 with lost := true } l 1) = true) ∧
    (let s := { saved9 with rests := [rest9], time := 1000000000 }
     rest9.since.toNat + s.ctl.restorewait.toNat ≤ s.time.toNat ∧
      saved9.time.toNat < rest9.since.toNat + saved9.ctl.restorewait.toNat) := by
  decide +kernel
theorem witness_ControlWindowWritesAreCheckedAndStored :
    (at1.ident.state = 1 ∧ (at1.hostq.getD 7 HostQ.reset).qhead = (at1.hostq.getD 7 HostQ.reset).qtail ∧
      143 < unitCount .slice ∧ 8 < unitCount .dome ∧ 2 ^ 16 ≤ at1.ident.bar0 ∧
      at1.ident.bar0 < at1.ident.bar0 + 8 ∧ CtlReg.ofCode 1 = some .tvec) ∧
    { at1.ident with state := 2 }.state ≠ 1 := by
  decide +kernel
/-- A checkpoint of the code page is under way to host address 0x10000. -/
def checkpointing : State := { ended with blocks := [], power := { at1.power with ckaddr := 0x10000, ckcmd := 1, ckst := 3 } }
theorem witness_HostReachesMemoryAndCheckpointsCopyIt :
    (at1.ident.state = 1 ∧ at1.power.inReset = [] ∧ at1.waits = [] ∧
      ((List.range 8).filterMap (fun i => at1.windowKey (placeCode + i))).length = 8 ∧
      ((List.range 8).filterMap (fun i => at1.windowKey (placeCode + i))).all (fun k => !at1.lineBad k) = true ∧
      ((List.range 8).filterMap (fun i => at1.windowKey (6442450940 + i))).length = 4) ∧
    (at1.power.ckst ≠ 3 ∧ at1.blocks.any (fun e => e.2.isSome) = true ∧ ended.warps = [] ∧ checkpointing.blocks = []) ∧
    (let s := at1.putDome 3 { at1.domeAt 3 with dirty := [(placeCode, some 7)] }
     Sparse.get none (s.domeAt 3).dirty placeCode = some 7 ∧ farKey placeCode = false ∧
      (s.domes.all (fun e => decide (e.1 = 3) || decide (Sparse.get none e.2.dirty placeCode = none))) = true) ∧
    (checkpointing.power.ckst = 3 ∧ Memory.wf checkpointing.mem = true ∧
      checkpointing.ckOf 0x10000 placeCode = some (2 ^ 42 + 0x10000 + placeCode) ∧
      checkpointing.ckFrom 0x10000 (2 ^ 42 + 0x10000 + placeCode) = some placeCode ∧
      checkpointing.mem.all (fun c => decide (checkpointing.ckOf 0x10000 c.1 ≠ some (2 ^ 42 + 0x10000 + placeCode)) ||
        decide (c.1 = placeCode)) = true) := by
  decide +kernel
/-- The code page follows its users; the pools of vaults 0 and 1 stand at 0x700000. -/
def leaf0 : Nat := 0x402080
def followed : State :=
  let s := (((at1.syncWrite leaf0 (leBytes 8 (placeCode + 7 + 2 ^ 59))).syncWrite 0x700000
    (leBytes 8 0x720000 ++ leBytes 4 8 ++ leBytes 4 0)).syncWrite 0x700010 (leBytes 8 0x710000 ++ leBytes 4 8 ++ leBytes 4 1)).syncWrite
    0x710000 (leBytes 4 3)
  { s with ctl := { s.ctl with fepoch := 1, fpool := 0x700000 }, follow := [(leaf0, 1, 64)] }
theorem witness_TowersCoresTimeAndPages :
    (at1.ident.state = 1 ∧ (at1.blockAt 1).any (fun b => domeOf b.core = 0) = true ∧ ended.blocks.length = 1) ∧
    (1 ∈ { at1 with marked := [1] }.marked ∧ at1.coreBlocks 1 = [] ∧ at1.coreBlocks 0 ≠ []) ∧
    (at1.ctl.fepoch = 0 ∧ followed.ctl.fepoch ≠ 0 ∧ followed.ctl.fpool ≠ 0 ∧ followed.follow = [(leaf0, 1, 64)]) ∧
    (followed.mayFollow leaf0 1 = true ∧ ((followed.follow.filter (fun e => e.1 = leaf0)).map (fun e => e.2.2)).sum < 2 * 64 ∧
      followed.ctl.fmin.toNat ≤ 64 ∧ followed.mayFollow leaf0 0 = false) ∧
    ({ followed with follow := [(leaf0, 1, 63)] }.ctl.fmin.toNat > 63) ∧
    ({ followed with power := { followed.power with inReset := [0] } }.migrateHeld leaf0 1 = true ∧ followed.migrateHeld leaf0 1 = false) := by
  decide +kernel
/-- The migration of that page, and where its four words lie. -/
theorem witness_MigratedPages :
    (followed.migrate leaf0 1).isSome = true ∧
    followed.poolEntry 1 = some (0x700010, 0x710000, 8, 1) ∧ followed.poolEntry 0 = some (0x700000, 0x720000, 8, 0) ∧
    paVault (leafFrame (followed.homeWord leaf0)) = 0 ∧ followed.key 0x710000 = some 0x710000 ∧ followed.key 0x720000 = some 0x720000 ∧
    followed.waits = [] ∧ Memory.wf followed.mem = true ∧ leNat (readBytes followed.mem 0x710000 4) = 3 ∧
    (let places := [(leaf0, 8), (0x720000, 4), (0x700000 + 12, 4), (0x700010 + 12, 4)]
     (places.all (fun r => decide (r.1 + r.2 ≤ 2 ^ 42) && (List.range r.2).all (fun i => !inFrame (2 ^ 33 + 3 * 65536) (r.1 + i)))) = true ∧
     places.Pairwise (fun a b => a.1 + a.2 ≤ b.1 ∨ b.1 + b.2 ≤ a.1)) := by
  decide +kernel
/-- The pool's list is missing, or a forest operation on the page is in progress: the page does not move. -/
theorem witness_EpochsFollowTheMajority_held :
    (let u := { followed with ctl := { followed.ctl with fpool := 0x730000 } }
     u.mayFollow leaf0 1 = true ∧ u.pagePending (leafFrame (u.homeWord leaf0)) = false ∧ (u.migrate leaf0 1).isNone = true) ∧
    (let c : Cmd := { cmd 14 .cj 0x10 (.aclr false) with started := true, g := leafFrame (followed.homeWord leaf0) }
     let u := { followed with cmds := [c] }
     u.mayFollow leaf0 1 = true ∧ u.pagePending (leafFrame (u.homeWord leaf0)) = true) := by
  decide +kernel
/-- A schedule of one tile of one byte at 0x700000. -/
def scheduled (n : Nat) : State :=
  let s := at1.syncWrite 0x700000 (leBytes 64 n ++ leBytes 8 0x720000 ++ leBytes 4 0 ++ leBytes 4 1 ++ leBytes 4 (32 * 65536) ++
    leBytes 12 0)
  { s with ring := { s.ring with snext := 0x700000 }, ctl := { s.ctl with ringrate := 0x10051 } }
theorem witness_RingStepsAndSchedules :
    (at1.ring.held = [] ∧ at1.ctl.ringrate.getLsbD 16 = false ∧ at1.ring.injecting = false ∧ at1.ring.tiles = [] ∧
      (scheduled 1).ctl.ringrate.getLsbD 16 = true) ∧
    ((scheduled 1).armHeld = false ∧ { scheduled 1 with power := { at1.power with inReset := [0] } }.armHeld = true) ∧
    ((scheduled 1).ring.snext ≠ 0 ∧ ((scheduled 1).checkSched 0x700000).toOption = some 1 ∧
      (match (scheduled 0).checkSched 0x700000 with | .error e => decide (e = 1) | .ok _ => false) = true) := by
  decide +kernel
/-- That schedule is active; a board of its one tile waits at the head of its queue, or is registered. -/
def boardB (layer : Nat) (reg : Bool) (fol : Option Follow) : Board := {
  bank := 0, slot := 0, layer := layer, f := 0, n := 1, fol := fol, reg := reg, lap := 0, k := 0, missed := 0, bad := [], sizes := [1],
  owed := [], unread := false }
def board0 (layer : Nat) (reg : Bool) : Cmd := cmd 14 .bd 0x0B (.board (boardB layer reg none))
def boarding (cs : List Cmd) : State := { queued (scheduled 1) cs with
  ring := { (scheduled 1).ring with sact := 0x700000, nent := 1, snext := 0 } }
def tileOf (bad : Byte) : RTile :=
  let h : List Byte := List.replicate 14 0 ++ [bad, 0] ++ List.replicate 44 0
  { home := 0, t := 0, lap := 0, entry := 0, hdr := h ++ leBytes 4 (crc32c (h ++ List.replicate 4 (0 : Byte) ++ [0x5A])).toNat, body := [0x5A] }
theorem witness_BoardsRegister :
    ((boarding [board0 0 false]).queue 0 .bd = [board0 0 false] ∧ (boarding [board0 0 false]).free (board0 0 false) = true ∧
      (boarding [board0 0 false]).layerOf 0 = some (0, 1) ∧ (boardB 0 false none).f + (boardB 0 false none).n ≤ 1 ∧
      ¬ (boardB 0 false none).f + 2 ≤ 1) ∧
    ((boarding [board0 1 false]).queue 0 .bd = [board0 1 false] ∧ (boarding [board0 1 false]).layerOf 1 = none) ∧
    (boarding [board0 0 false]).schedHeld = false ∧ ({ boarding [board0 0 false] with power := { at1.power with inReset := [0] } } : State).schedHeld = true ∧
    (let c := { board0 0 false with status := some 5 }
     (boarding [c]).queue 0 .bd = [c] ∧ (boarding [c]).schedHeld = false ∧ (boarding [c]).free c = true) := by
  decide +kernel
theorem witness_TapsDeliver :
    (boarding [board0 0 true]).ringOn ((tileOf 0).domeAt (boarding [board0 0 true]).ring.t) = true ∧
    (boarding [board0 0 true]).dueBoards ((tileOf 0).domeAt (boarding [board0 0 true]).ring.t) (tileOf 0) = [board0 0 true] ∧
    (tileOf 0).corrupt = false ∧ (boarding [board0 0 true]).boardBusy (board0 0 true) (boardB 0 true none) (tileOf 0) = false ∧
    (boarding [board0 0 true]).dueBoards ((tileOf 1).domeAt (boarding [board0 0 true]).ring.t) (tileOf 1) = [board0 0 true] ∧
    (tileOf 1).corrupt = true ∧
    -- a WLD of the range makes it busy, with and without a dwell
    (let s := boarding [board0 0 true, { wld0 with k := .wld 0 0 0 0 32, core := 0 }]
     s.ringOn ((tileOf 0).domeAt s.ring.t) = true ∧ s.dueBoards ((tileOf 0).domeAt s.ring.t) (tileOf 0) = [board0 0 true] ∧
      s.boardBusy (board0 0 true) (boardB 0 true none) (tileOf 0) = true ∧
      s.ctl.dwell = 0 ∧ ({ s.ctl with dwell := 1 } : Regs).dwell ≠ 0) := by
  decide +kernel
theorem witness_TilesLand :
    (board0 0 true).arr = none ∧
    (let c : Cmd := { cmd 1 .bd 0x0B (.board (boardB 0 true (some follow0))) with arr := some 0 }
     let s := { engine .isOpen {} [c] at1 with nextUid := 100 }
     s.holdsEngine c.blk = true ∧ c.id < s.nextUid ∧ c.arr = some 0 ∧ (boardB 0 true (some follow0)).owed = [] ∧
      s.roomIn c.core .mx 2 = true ∧
      (queued s (c :: (List.range 31).map (fun i => { wld0 with id := 20 + i }))).roomIn c.core .mx 2 = false) ∧
    ({ boardB 0 true none with owed := [(0, 0, 0, 0)] } : Board).owed ≠ [] := by
  decide +kernel
theorem witness_ModuleResetAndAttestation :
    at1.ident.state = 1 ∧ at1.towerOn 0 = true ∧ { at1.ident with state := 2 }.state ≠ 1 ∧
    [(true, (5 : Word))].all (fun x => x.1 && decide (at1.flash.secver.toNat ≤ x.2.toNat)) = true ∧
    [(false, (5 : Word))].all (fun x => x.1 && decide (at1.flash.secver.toNat ≤ x.2.toNat)) = false := by
  decide +kernel
def out0 (n : Nat) : BexOut := { tag := 4, source := 0, node := 1, seq := 2, addr := 64, op := .read, who := some (.idle, 0), retries := n }
theorem witness_BexsetRequestsArePerformedOnce :
    (at1.ident.state = 1 ∧ at1.power.inReset = [] ∧ { at1.ident with state := 2 }.state ≠ 1 ∧ at1.towerOn 0 = true ∧ at1.bexIn = [] ∧ at1.localOk 0x700000 8 = true ∧ at1.key 0x700000 = some 0x700000) ∧
    ([out0 7].find? (fun y => y.tag = 4) = some (out0 7) ∧ (out0 7).retries < 8 ∧ 8 ≤ (out0 8).retries) := by
  decide +kernel
/-- A lane about to issue the word `w` as the first word of the block of `at1`. -/
def about (w : Nat) : State := { (putSlot at1 16 w) with issuer := none, turns := [.issue 0 0] }
theorem picks (w : Nat) (h : ((about w).pickSplit 0 0).isSome = true) (e : (about w).nextTurn.2 = .issue 0 0) :
    (about w).nextTurn.2 = .issue 0 0 ∧ ((about w).pickSplit 0 0).isSome = true := ⟨e, h⟩
theorem witness_StepRunsTheDecodedWord :
    ((about 0).nextTurn.2 = .issue 0 0 ∧ (({ (about 0).nextTurn.1 with asker := .issue 0 0 } : State).pickSplit 0 0).any (fun (e : Nat × Split) =>
        decide (e.1 = 0) && decide (e.2.idx = 1) && decide (e.2.pc = 0x100010)) = true ∧ (W at1).badFrame = false) ∧
    -- NOP; NOP -> RET inside the block; an opcode that is not assigned
    (let i := Instr.nop bare (sl .none .none .none .none .none)
     (decode 0xE280FFFFFFFFFF39C000000000000000).toOption = some i ∧
      ((about 0xE280FFFFFFFFFF39C000000000000000).nextTurn.1.fetchSlot 0 0x100000 1).2.toOption =
        some 0xE280FFFFFFFFFF39C000000000000000 ∧
      wordFits (Header.ofSlot 0xB0E07C00000000F3) 1 i = true ∧ (about 0).heldDue = false ∧
      completes i (((about 0xE280FFFFFFFFFF39C000000000000000).nextTurn.1.fetchSlot 0 0x100000 1).1.forWord
        { core := 0, lane := 0, slot := 0, split := 0 } (W at1) (P at1) i) = true) ∧
    (let i := Instr.nop { bare with seq := .ret } (sl .none .none .none .none .none)
     (decode 0xE280FFFFFFFFFF39C00A000000000000).toOption = some i ∧ wordFits (Header.ofSlot 0xB0E07C00000000F3) 1 i = false) ∧
    (match decode 0x07C0FFFFFFFFFF39C000000000000000 with | .error e => decide (e = .opcode) | .ok _ => false) = true := by
  decide +kernel
/-- A word that pops an empty port; a word of a lane that issues words whose accesses come later: a load, and a NOP. -/
def popping : Instr := .iadd bare ⟨.i64, false, false⟩ (sl (.d 0) (.port .cp) (.w 0) .none .none)
def popWord : Word128 := (encode popping).getD 0
theorem witness_StepRunsTheDecodedWord_more :
    portBlocked (W at1) (P at1) popping = true ∧ (decode popWord).toOption = some popping ∧
    (match ((about popWord.toNat).fetchSlot 0 (P at1).hdr 1).2 with | .ok wd => decide (wd = popWord) | .error _ => false) = true ∧
    { boarding [board0 0 true] with ring := { (boarding []).ring with held := [(14, tileOf 0)] } }.heldDue = true ∧
    at1.late = [] ∧ at1.reds = [] ∧
    { about 0 with turns := [.issueLate 0 0] }.nextTurn.2 = .issueLate 0 0 ∧ (about 0).late = [] ∧
    (at1.startLate (.nop bare (sl .none .none .none .none .none))).isNone = true ∧
    (paged.startLate (.ld bare ldG regs)).isSome = true := by
  decide +kernel
def never : Ctl := { bare with g1 := { neg := true, pred := .p 7 } }
theorem witness_InactiveWordsOnlySequence :
    at1.context = some (C at1, W at1, P at1) ∧ activeMask (W at1) (P at1) never = 0 ∧
    (Instr.entry (.iadd never ⟨.i64, false, false⟩ (sl (.d 0) (.d 1) (.d 2) .none .none))).isSome = true :=
  ⟨context_eq (by decide +kernel), by decide +kernel, by decide⟩
theorem witness_DecodeInvertsEncode :
    let i := Instr.iadd bare ⟨.i64, false, false⟩ (sl (.d 0) (.special .tid) (.w 0) .none .none)
    i.wf = true ∧ encode i = some 0x0058008040FFFF39C000000000000000 := by
  decide +kernel
theorem witness_EveryStepKeepsTheStateSafe :
    { at1 with turns := [.event .ringStep] }.safe = true ∧
    (match step { at1 with turns := [.event .ringStep] } with | .next _ => true | _ => false) = true := by
  decide +kernel

/-! ## Words the entries refuse: one ill-formed term for each check of WellFormed.lean -/

def dd : Slots := sl (.d 0) (.d 1) (.d 2) .none .none
theorem smoke_modifier :
    (Instr.pmul bare ⟨.i8x8, true, true⟩ dd).check = some .modifier ∧
    (Instr.fmin bare ⟨.f32x2, .rz⟩ dd).check = some .modifier ∧
    (Instr.iadd bare ⟨.f64, false, false⟩ dd).check = some .modifier ∧
    (Instr.cvt bare ⟨.e4m3x8, .f32x2, .rne, 4, false⟩ (sl (.d 2) (.d 0) .none .none .none)).check = some .modifier := by
  decide +kernel
theorem smoke_field :
    (Instr.ld bare ⟨.g, .i64, 0⟩ { sl (.d 0) (.d 1) .none .none .none with imm := 1 }).check = some .field := by decide +kernel
theorem smoke_hint : (Instr.iadd { bare with hint := .keep } ⟨.i64, false, false⟩ dd).check = some .hint := by decide +kernel
theorem smoke_indirect :
    (Instr.iaddc { bare with seq := .goInd 1 } (sl (.d 0) (.d 1) (.d 2) (.p 1) .none)).check = some .indirect := by decide +kernel
theorem smoke_slot :
    (Instr.iadd bare ⟨.i64, false, false⟩ (sl (.small 16) (.d 1) (.d 2) .none .none)).check = some .slot ∧
    (Instr.iadd bare ⟨.i64, false, false⟩ (sl (.d 0) (.d 1) (.d 2) (.d 3) .none)).check = some .slot ∧
    (Instr.iadd bare ⟨.i64, false, false⟩ (sl (.d 0) (.d 1) .none .none .none)).check = some .slot ∧
    (Instr.iadd bare ⟨.i64, false, false⟩ (sl (.special .tid) (.d 1) (.d 2) .none .none)).check = some .slot ∧
    (Instr.ldm bare ⟨.g, .i8, 0⟩ (sl (.m 7) (.w 0) (.small 18) .none .none)).check = some .slot ∧
    (Instr.ldm bare ⟨.g, .i8, 0⟩ (sl (.m 6) (.w 0) (.small 18) .none .none)).check = none := by decide +kernel
theorem smoke_two_destinations :
    (Instr.iaddc bare (sl (.p 1) (.d 1) (.d 2) (.p 2) (.p 1))).check = some .twoDestinations := by decide +kernel
/-- Why the decoder refuses a word, an accepted word giving none. -/
def refusal (hi lo : Nat) : Option Reject :=
  match decode (BitVec.ofNat 128 (hi * 2 ^ 64 + lo)) with
  | .ok _ => none
  | .error r => some r
/-- Tables 10.1 to 10.6 and 10.13; the second word is SHL with slot C naming 0xC5. -/
theorem smoke_decoder :
    refusal 0x0800000000FFFF39 0xC000000000000000 = some .opcode ∧
    refusal 0x04580100C5FFFF39 0xC000000000000000 = some .specifier ∧
    refusal 0x0058000101FFFF61 0xC000000000000000 = some .guard ∧
    refusal 0x0058008040FFFF39 0xC030000000000000 = some .sched := by decide +kernel

/-! ## Header words the chapters write out (R142, R143) -/

def headed (hw : Nat) (entering : Bool) : Bool := (Header.ofSlot (BitVec.ofNat 128 hw)).valid entering
theorem test_headers :
    headed 0xB0C1080002000084 false = true ∧ headed 0xB041080000000006 false = true ∧
    headed 0xB081000001C0000D false = true ∧ headed 0xB0419C0000000072 false = true ∧
    headed 0xB0419C0000000073 false = false ∧ headed 0xA0419C0000000082 false = false := by decide +kernel
theorem test_header_fields :
    let h := Header.ofSlot 0xB0C1080002000084
    h.length = 3 ∧ h.dlive = 2 ∧ h.wlive = 2 ∧ h.reconv = 8 := by decide +kernel

/-! ## Single steps on examples the spec works out; the flags are Table 6.12's bits -/

/-- Table 7.1. -/
def cvtOf (dty sty : ETy) (rm : RMode) (v : Word) : Word × BitVec 9 := result (.cvt bare ⟨dty, sty, rm, 0, false⟩ (sl (.d 0) (.d 1) .none .none .none)) v 0 0
theorem test_conversions_at_the_edges :
    (cvtOf .f16x4 .f32x2 .rne 0x477FF000).1 &&& 0xFFFF = 0x7C00 ∧
    (cvtOf .f16x4 .f32x2 .rz 0x477FF000).1 &&& 0xFFFF = 0x7BFF ∧
    (cvtOf .e4m3x8 .f32x2 .rne 0x43E80000).1 &&& 0xFF = 0x7E ∧
    (cvtOf .e4m3x8 .f32x2 .rne 0x43EB0000).1 &&& 0xFF = 0x7E ∧
    (cvtOf .f16x4 .e5m2x8 .rne 0x01).1 &&& 0xFFFF = 0x0100 ∧
    (cvtOf .e2m1x16 .f32x2 .rne 0x7F800000).1 &&& 0xF = 0x7 := by decide +kernel
theorem test_conversion_flags :
    (cvtOf .f16x4 .f32x2 .rne 0x477FF000).2 = 0x14 ∧ (cvtOf .f16x4 .f32x2 .rz 0x477FF000).2 = 0x10 ∧
    (cvtOf .e4m3x8 .f32x2 .rne 0x43E80000).2 = 0x10 ∧ (cvtOf .e4m3x8 .f32x2 .rne 0x43EB0000).2 = 0x14 ∧
    (cvtOf .f16x4 .e5m2x8 .rne 0x01).2 = 0 ∧ (cvtOf .e2m1x16 .f32x2 .rne 0x7F800000).2 = 4 := by decide +kernel
/-- The example below R179: the other bytes of the destination stay. -/
theorem test_conversion_fills_its_part :
    (let w := theWarp (after (.cvt bare ⟨.e4m3x8, .f32x2, .rne, 1, false⟩ (sl (.d 2) (.d 1) .none .none .none))
      (holding 0x43EB00003F800000 0x1111111111111111 0))
     w.dGet 2 0 = 0x111111117E381111 ∧ w.statusOf 0 = 0x14) := by decide +kernel
/-- Table 13.4. -/
theorem test_division_at_its_edges :
    let div (sat : Bool) (b c : Word) := result (.idiv bare ⟨.i32x2, sat, false⟩ dd) b c 0
    let rem (b c : Word) := result (.irem bare ⟨.i32x2, false, false⟩ dd) b c 0
    div false 0xFFFFFFF9 0x100000000 = (0x0000000080000000, 2) ∧
    div false 0x64 0x100000000 = (0x000000007FFFFFFF, 2) ∧
    div false 0x80000000 0x1FFFFFFFF = (0x80000000, 0) ∧ div true 0x80000000 0x1FFFFFFFF = (0x7FFFFFFF, 0x20) ∧
    div false 0xFFFFFFF9 0x100000002 = (0xFFFFFFFD, 0) ∧ rem 0xFFFFFFF9 0x100000002 = (0xFFFFFFFF, 0) ∧
    (rem 0xFFFFFFF9 0x100000000).1 = 0xFFFFFFF9 := by decide +kernel
/-- Table 13.3. -/
theorem test_stochastic_draws :
    (let s := only 1 (fun w => { w with d := [(0, 0x3F8008003F808000), (64, 0x2222222222222222)], rnd := [(0, 1)] })
     let w := theWarp (after (.cvt bare ⟨.bf16x4, .f32x2, .rs, 0, false⟩ (sl (.d 2) (.d 0) .none .none .none)) s)
     w.dGet 2 0 = 0x222222223F803F81 ∧ w.rndOf 0 = 0x100041060C011441 ∧ w.statusOf 0 = 0x10) := by decide +kernel
/-- FDIV against a reciprocal and a multiply (chapter 13). -/
theorem test_quotient_and_reciprocal :
    (result (.fdiv bare ⟨.bf16x4, .rne⟩ dd) 0x3F803F803F804042 0x3F803F803F804040 0).1 &&& 0xFFFF = 0x3F81 ∧
    (result (.frcp bare ⟨.bf16x4, .rne⟩ (sl (.d 0) (.d 1) .none .none .none)) 0x3F803F803F804040 0 0).1 &&& 0xFFFF = 0x3EAB ∧
    (result (.fmul bare ⟨.bf16x4, .rne⟩ dd) 0x4042 0x3EAB 0).1 &&& 0xFFFF = 0x3F82 := by decide +kernel
/-- A sine out of range (chapter 7). -/
theorem test_sine_out_of_range :
    result (.fsin bare ⟨.f32x2, .rne⟩ (sl (.d 0) (.d 1) .none .none .none)) 0x4980000049800000 0 0 =
      (0x7FC000007FC00000, 0x80) := by decide +kernel
/-- R162: an addition wraps, or saturates with `.sat`. -/
theorem test_addition :
    result (.iadd bare ⟨.n64, false, false⟩ dd) 0xFFFFFFFFFFFFFFFF 1 0 = (0, 0) ∧
    result (.iadd bare ⟨.n64, true, false⟩ dd) 0xFFFFFFFFFFFFFFFF 1 0 = (0xFFFFFFFFFFFFFFFF, 0x20) := by decide +kernel

end Sys2Proof.Tests
end

section
/-! PROOFS. Submissions: the doorbell, the checks of a launch record in the order of Table 4.3, and the delivery of a
submission's code (R23, R30-R32, R344). -/

namespace Sys2Proof.Machine

/-- One refusal of a check: a check that answered a launch did not refuse, and what follows it answered that launch. -/
theorem ok_of_ite_refusal {c : Prop} [Decidable c] {a t : State} {e : Nat × Nat × Option Word} {l : Launch}
    {x : State × Except (Nat × Nat × Option Word) Launch} (h : (if c then (a, .error e) else x) = (t, .ok l)) :
    ¬ c ∧ x = (t, .ok l) := by
  split at h
  · cases h
  · exact ⟨‹_›, h⟩

/-- What a record holds that acceptance does not refuse: it has an aligned status word, a kind, a partition, a warp count and a
shape (R30, Table 4.3). -/
def Launch.sound (l : Launch) (nstage : Nat) : Prop :=
  l.lstat.toNat % 8 = 0 ∧ l.kind ≠ 3 ∧ partitionOk l.part l.bpc = true ∧
    ¬ (l.warps = 0 ∨ 256 < l.warps ∨ 4 * partRegg l.part < l.warps) ∧ shapeOk l nstage = true

/-- An accepted record is aligned, passed every check on its fields, and gives a launch that adds to it the entry headers
read and the place found. -/
theorem checkRecord_ok {s t : State} {addr : Word} {l : Launch} (h : s.checkRecord addr = (t, .ok l)) :
    addr.toNat % 64 = 0 ∧ ∃ r nstage ehw stages origin, (Launch.ofRecord addr r).sound nstage ∧
      l = { Launch.ofRecord addr r with ehw := ehw, stages := stages, origin := origin } := by
  unfold State.checkRecord at h
  obtain ⟨haddr, h⟩ := ok_of_ite_refusal h
  refine ⟨by omega, ?_⟩
  split at h
  · cases h
  · rename_i s1 r _
    extract_lets l0 nstage lst s2 no tab at h
    obtain ⟨hlst, h⟩ := ok_of_ite_refusal h
    have hal : l0.lstat.toNat % 8 = 0 := by
      refine Decidable.byContradiction fun hc => hlst ?_
      simp only [lst, hc, ne_eq, not_false_eq_true, ↓reduceIte, Bool.not_false]
    clear_value tab s2
    obtain ⟨s3, _ | tb⟩ := tab
    · cases h
    · dsimp -zeta only at h
      extract_lets gs bad placed ent at h
      obtain ⟨hres, h⟩ := ok_of_ite_refusal h
      obtain ⟨hpart, h⟩ := ok_of_ite_refusal h
      obtain ⟨hwarps, h⟩ := ok_of_ite_refusal h
      obtain ⟨hshape, h⟩ := ok_of_ite_refusal h
      clear_value placed ent bad
      obtain _ | og := placed
      · cases h
      · obtain ⟨-, h⟩ := ok_of_ite_refusal h
        obtain ⟨s4, i | ⟨hw, hs⟩⟩ := ent
        · cases h
        · obtain _ | i := bad
          · obtain ⟨-, h⟩ := ok_of_ite_refusal h
            cases h
            refine ⟨r, nstage, hw, hs, og, ⟨hal, ?_, ?_, ?_, ?_⟩, rfl⟩
            · intro hk
              exact hres (by simp [l0, hk])
            · simpa using hpart
            · simpa [l0, or_assoc] using hwarps
            · simpa using hshape
          · cases h

/-- The kind of a launch is two bits of its control word. -/
theorem Launch.kind_lt (l : Launch) : l.kind < 4 := (l.lctl.extractLsb' 0 2).isLt

theorem bpc_of_shapeOk {l : Launch} {nstage : Nat} (h : shapeOk l nstage = true) : 1 ≤ l.bpc ∧ l.bpc ≤ 64 := by
  simp only [shapeOk, Bool.and_eq_true, decide_eq_true_eq] at h
  obtain ⟨⟨⟨⟨⟨⟨⟨-, hlo⟩, hhi⟩, -⟩, -⟩, -⟩, -⟩, -⟩ := h
  exact ⟨hlo, hhi⟩

/-! ## The doorbell, acceptance and delivery -/

theorem exec_launchQueueDoorbell (q : Fin 8) (tail : Word) (s : State) :
    exec (.launchQueueDoorbell q tail) s = execLaunchQueueDoorbell q tail s := rfl

theorem exec_launchAcceptance (s : State) : exec .launchAcceptance s = execLaunchAcceptance s := rfl

/-- A doorbell of a ready module moves the tail of its queue unless it runs too far ahead (R344). -/
theorem execLaunchQueueDoorbell_of_ready {s : State} (q : Fin 8) (tail : Word) (hready : s.ident.state = 1) :
    execLaunchQueueDoorbell q tail s = .next
      (if (tail - (s.hostq.getD q.val HostQ.reset).qhead).toNat ≤ ringLen (s.hostq.getD q.val HostQ.reset).qlog then
        { s with hostq := s.hostq.set q.val { s.hostq.getD q.val HostQ.reset with qtail := tail } } else s) := by
  unfold execLaunchQueueDoorbell
  by_cases hle : (tail - (s.hostq.getD q.val HostQ.reset).qhead).toNat ≤ ringLen (s.hostq.getD q.val HostQ.reset).qlog
  · simp only [hready, hle, Nat.not_lt.mpr hle, ne_eq, not_true_eq_false, decide_false, Bool.or_self, Bool.false_eq_true,
      ↓reduceIte]
  · simp only [hle, Nat.lt_of_not_le hle, decide_true, Bool.or_true, ↓reduceIte]

section acceptance
variable {s t : State} {b : Sub} {rest : List Sub} (hready : s.ident.state = 1) (hroom : s.launchCount < 256)
  (hsubs : s.takeEntry.subs = b :: rest)
include hready hroom hsubs

/-- The next submission is refused: its code goes to its status word, where the record gives one, and to its source. -/
theorem execLaunchAcceptance_of_refused {code det : Nat} {lst : Option Word}
    (hcheck : { s.takeEntry with subs := rest }.checkRecord b.addr = (t, .error (code, det, lst))) :
    execLaunchAcceptance s = .next ((lst.elim t (fun a => t.writeStatus a code det)).deliver b code) := by
  simp only [execLaunchAcceptance, hready, Nat.not_le.mpr hroom, hsubs, hcheck, ne_eq, not_true_eq_false, decide_false,
    Bool.or_self, Bool.false_eq_true, ↓reduceIte]
  cases lst <;> rfl

/-- The next submission is accepted: the launch takes the next number, and ACCEPTED goes to its status word and its source. -/
theorem execLaunchAcceptance_of_accepted {l : Launch}
    (hcheck : { s.takeEntry with subs := rest }.checkRecord b.addr = (t, .ok l)) :
    execLaunchAcceptance s = .next
      (((({ t with nextUid := t.nextUid + 1 }).putLaunch t.nextUid l).writeStatus l.lstat lACCEPTED 0).deliver b
        lACCEPTED) := by
  simp only [execLaunchAcceptance, hready, Nat.not_le.mpr hroom, hsubs, hcheck, State.fresh, ne_eq, not_true_eq_false,
    decide_false, Bool.or_self, Bool.false_eq_true, ↓reduceIte]

end acceptance

/-- A misaligned record is refused with ADDRESS and gives no status word (log entry 88). -/
theorem checkRecord_of_misaligned (s : State) {addr : Word} (h : addr.toNat % 64 ≠ 0) :
    s.checkRecord addr = (s, .error (0x10, 0, none)) := by
  unfold State.checkRecord
  rw [if_pos h]

/-- The code of a LAUNCH whose split still waits for it goes to the word's destination, and the split goes on (R322). -/
theorem deliver_of_waiting {s : State} {wk sp : Nat} {w : Warp} {p : Split} {id : Nat} {pend : Pend} {x : Ctl} {o : Slots}
    (addr : Word) (code : Nat) (hw : s.warpAt wk = some w) (hp : w.splitAt sp = some p)
    (hstop : p.stop = some (.launch id pend)) (hi : pend.i = .launch x o) :
    s.deliver { id := id, addr := addr, src := .word wk sp } code =
      (s.putWarp wk (writeDst w o.a pend.T .general (fun _ => BitVec.ofNat 64 code))).seqAct wk sp x.seq := by
  simp only [State.deliver, hw, hp, Option.bind_some, hstop, hi, ↓reduceIte]

/-- An accepted record's launch meets the limits that its claim names (R23, R30). -/
theorem accepted_limits {s t : State} {addr : Word} {l : Launch} (h : s.checkRecord addr = (t, .ok l)) :
    l.addr = addr ∧ addr.toNat % 64 = 0 ∧ l.st = .accepted ∧ l.toAdmit = [] ∧ l.kind < 3 ∧ 1 ≤ l.warps ∧ l.warps ≤ 256 ∧
    l.warps ≤ 4 * ((l.part.extractLsb' 0 8 : BitVec 8)).toNat ∧ 1 ≤ l.bpc ∧ l.bpc ≤ 64 ∧ partitionOk l.part l.bpc = true ∧
    l.lstat.toNat % 8 = 0 := by
  obtain ⟨haddr, r, nstage, ehw, stages, origin, ⟨hlstat, hkind, hpart, hwarps, hshape⟩, rfl⟩ := checkRecord_ok h
  obtain ⟨hlo, hhi⟩ := bpc_of_shapeOk hshape
  have hlt := (Launch.ofRecord addr r).kind_lt
  unfold partRegg at hwarps
  exact ⟨rfl, haddr, rfl, rfl, show (Launch.ofRecord addr r).kind < 3 by omega, by dsimp only; omega, by dsimp only; omega,
    by dsimp only; omega, hlo, hhi, hpart, hlstat⟩

/-- Settles O42: the doorbell, the checks of a record and the answer to its source, clause by clause. -/
theorem submissionsAreCheckedAndAccepted : Obligations.SubmissionsAreCheckedAndAccepted := by
  unfold Obligations.SubmissionsAreCheckedAndAccepted
  refine ⟨fun s q tail hready => ?_, fun s t addr l h => accepted_limits h, fun s b rest hready hroom hsubs => ?_,
    fun s wk sp w p id code addr pend x o hw hp hstop hi => deliver_of_waiting addr code hw hp hstop hi⟩
  · rw [exec_launchQueueDoorbell]
    exact execLaunchQueueDoorbell_of_ready q tail hready
  · rw [exec_launchAcceptance]
    refine ⟨fun hmis => ?_, fun t1 code det lst hcheck => ?_, fun t1 l hcheck => ?_⟩
    · rw [execLaunchAcceptance_of_refused hready hroom hsubs (checkRecord_of_misaligned _ hmis), Option.elim_none]
    · rw [execLaunchAcceptance_of_refused hready hroom hsubs hcheck, Option.elim_some]
    · exact execLaunchAcceptance_of_accepted hready hroom hsubs hcheck

end Sys2Proof.Machine
end

section
/-! PROOFS. Resident tables: launches, blocks and warps stay when memory, caches, translations and counters change. -/

namespace Sys2Proof.Machine

/-- A warp apart from its hoisted loads, which accesses of its core may end (R202). -/
def Warp.unhoisted (w : Warp) : Warp := { w with hoist := [] }

/-- The warp slots with what they hold, apart from hoisted loads. -/
def State.slots (s : State) : Sparse (Option Warp) := s.warps.map (fun e => (e.1, e.2.map Warp.unhoisted))

/-- What is resident, apart from hoisted loads. -/
def State.tables (s : State) : Sparse (Option Block) × Sparse (Option Launch) × Sparse (Option Warp) :=
  (s.blocks, s.launches, s.slots)

theorem get_map_option {α β : Type} (f : α → β) (l : Sparse (Option α)) (k : Nat) :
    Sparse.get none (l.map (fun e => (e.1, e.2.map f))) k = (Sparse.get none l k).map f := by
  induction l with
  | nil => rfl
  | cons e l ih =>
    obtain ⟨j, v⟩ := e
    simp only [List.map_cons, Sparse.get_cons, ih]
    split <;> rfl

theorem get_slots (s : State) (k : Nat) : Sparse.get none s.slots k = (s.warpAt k).map Warp.unhoisted :=
  get_map_option ..

section lookups
variable {s t : State} (h : t.tables = s.tables)
include h

theorem blocks_of_tables : t.blocks = s.blocks := congrArg (·.1) h
theorem launches_of_tables : t.launches = s.launches := congrArg (·.2.1) h
theorem slots_of_tables : t.slots = s.slots := congrArg (·.2.2) h

theorem blockAt_of_tables (b : Nat) : t.blockAt b = s.blockAt b := blockAt_of_blocks (blocks_of_tables h) b
theorem launchAt_of_tables (l : Nat) : t.launchAt l = s.launchAt l := launchAt_of_launches (launches_of_tables h) l

theorem launchOf_of_tables (b : Nat) : t.launchOf b = s.launchOf b := by
  simp only [State.launchOf, blockAt_of_tables h, launchAt_of_tables h]

theorem packed_of_tables (w : Warp) : t.packed w = s.packed w := by
  simp only [State.packed, launchOf_of_tables h]

end lookups

/-- The same warp stands in a slot, apart from its hoisted loads. -/
theorem warpAt_of_slots {s t : State} (h : t.slots = s.slots) {k : Nat} {w : Warp} (hw : s.warpAt k = some w) :
    ∃ x : Sparse (Option Hoist), t.warpAt k = some { w with hoist := x } := by
  have e := get_slots t k
  rw [h, get_slots, hw] at e
  cases ht : t.warpAt k with
  | none => rw [ht] at e; cases e
  | some v =>
    rw [ht] at e
    refine ⟨v.hoist, congrArg some ?_⟩
    have e' : w.unhoisted = v.unhoisted := Option.some.inj e
    calc v = { v.unhoisted with hoist := v.hoist } := rfl
      _ = { w.unhoisted with hoist := v.hoist } := by rw [e']

theorem warpAt_none_of_slots {s t : State} (h : t.slots = s.slots) {k : Nat} (hw : s.warpAt k = none) :
    t.warpAt k = none := by
  have e := get_slots t k
  rw [h, get_slots, hw] at e
  exact Option.map_eq_none_iff.mp e.symm

/-- A fold of steps that keep a part of the state keeps it. -/
theorem foldl_keeps {α β : Type} (part : State → β) {f : State → α → State} (hf : ∀ s a, part (f s a) = part s) :
    ∀ (l : List α) (s : State), part (l.foldl f s) = part s
  | [], _ => rfl
  | a :: l, s => (foldl_keeps part hf l (f s a)).trans (hf s a)

theorem foldl_tables {α : Type} {f : State → α → State} (hf : ∀ s a, (f s a).tables = s.tables) (l : List α)
    (s : State) : (l.foldl f s).tables = s.tables :=
  foldl_keeps State.tables hf l s

theorem ite_keeps {β : Type} (part : State → β) {c : Prop} [Decidable c] {s t u : State} (ht : part t = part s)
    (hu : part u = part s) : part (if c then t else u) = part s := by
  split
  · exact ht
  · exact hu

theorem ite_tables {c : Prop} [Decidable c] {s t u : State} (ht : t.tables = s.tables) (hu : u.tables = s.tables) :
    (if c then t else u).tables = s.tables :=
  ite_keeps State.tables ht hu

/-! ## Waiting, hoisted loads and counters -/

@[simp] theorem want_tables (s : State) (x : Want) : (s.want x).tables = s.tables := by
  unfold State.want; split <;> rfl

@[simp] theorem gate_tables (s : State) (keys : List Nat) : (s.gate keys).tables = s.tables := by
  unfold State.gate
  split
  · rfl
  · refine foldl_tables (fun t d => ?_) _ s
    split
    · exact want_tables ..
    · rfl

@[simp] theorem askPeers_tables (s : State) (core : Nat) (keys : List Nat) (own : Bool) :
    (s.askPeers core keys own).tables = s.tables := by
  unfold State.askPeers
  split
  · rfl
  · exact foldl_tables (fun t g => want_tables t _) _ s

@[simp] theorem dropHoists_tables (s : State) (core : Nat) (f : Hoist → Bool) :
    (s.dropHoists core f).tables = s.tables := by
  have e : (s.dropHoists core f).slots = s.slots := by
    simp only [State.slots, State.dropHoists, State.mapCoreWarps, List.map_map]
    refine List.map_congr_left fun e _ => ?_
    simp only [Function.comp_apply]
    split
    · simp only [Option.map_map]; rfl
    · rfl
  exact congrArg (fun x => (s.blocks, s.launches, x)) e

@[simp] theorem count_tables (s : State) (u : CUnit) (unit event : Nat) (lane prio port : Option Nat) :
    (s.count u unit event lane prio port).tables = s.tables := rfl

@[simp] theorem putCore_tables (s : State) (c : Nat) (x : Core) : (s.putCore c x).tables = s.tables := rfl
@[simp] theorem putDome_tables (s : State) (d : Nat) (x : Dome) : (s.putDome d x).tables = s.tables := rfl

/-! ## Writes at home -/

theorem farWrite_tables (s : State) (cells : List (Nat × Byte)) (g : Nat) : (s.farWrite cells g).tables = s.tables := by
  unfold State.farWrite
  split
  · rfl
  · refine foldl_tables ?_ _ s
    intros
    rfl

theorem proxyGo_tables (s : State) (g : Nat) : (s.proxyGo g).tables = s.tables := by
  unfold State.proxyGo
  split
  · rfl
  · exact farWrite_tables ..

@[simp] theorem proxyFlush_tables (s : State) (f : Nat → Bool) : (s.proxyFlush f).tables = s.tables :=
  foldl_tables proxyGo_tables _ s

theorem atHome_tables (s : State) (g : Nat) : (s.atHome g).tables = s.tables := by
  unfold State.atHome
  split
  · exact proxyFlush_tables ..
  · rfl

theorem mendByte_tables (s : State) (a : Nat) : (s.mendByte a).tables = s.tables := by
  unfold State.mendByte; split <;> rfl

theorem putCells_tables (s : State) (cells : List (Nat × Byte)) (g : Nat) : (s.putCells cells g).tables = s.tables := by
  have e : ((s.gate [8 * g]).atHome g).tables = s.tables := (atHome_tables ..).trans (gate_tables ..)
  unfold State.putCells
  split
  · exact (farWrite_tables ..).trans e
  · refine (foldl_tables ?_ _ _).trans e
    intro t c
    exact mendByte_tables ..

theorem evalWord_tables (s : State) (a : Nat) (v : Word) : (s.evalWord a v).1.tables = s.tables := by
  unfold State.evalWord; split <;> rfl

theorem readyAll_tables (n : Nat) (s : State) (l : List Nat) : (State.readyAll n s l).tables = s.tables := by
  fun_induction State.readyAll n s l with
  | case1 => rfl
  | case2 => rfl
  | case3 _ _ _ _ _ ih => exact ih
  | case4 _ _ _ _ _ _ _ _ _ ih => exact ih.trans (putCells_tables ..)
  | case5 _ _ _ _ _ _ _ _ _ _ _ ih => exact ih.trans ((evalWord_tables ..).trans (putCells_tables ..))

theorem evalWaits_tables (s : State) (a : Nat) (v : Word) : (s.evalWaits a v).tables = s.tables :=
  (readyAll_tables ..).trans (evalWord_tables ..)

theorem writeCells_tables (s : State) (cells : List (Nat × Byte)) (g : Nat) :
    (s.writeCells cells g).tables = s.tables := by
  unfold State.writeCells
  dsimp only
  split
  · exact (evalWaits_tables ..).trans (putCells_tables ..)
  · exact putCells_tables ..

@[simp] theorem applyReds_tables (s : State) (line : Nat) : (s.applyReds line).tables = s.tables := by
  unfold State.applyReds
  exact foldl_tables (fun t x => (dropHoists_tables ..).trans (writeCells_tables ..)) _ _

theorem writeGroup_tables (s : State) (cells : List (Nat × Byte)) (g : Nat) :
    (s.writeGroup cells g).tables = s.tables :=
  (writeCells_tables ..).trans (applyReds_tables ..)

@[simp] theorem homeWrite_tables (s : State) (a : Nat) (bs : List Byte) : (s.homeWrite a bs).tables = s.tables :=
  writeGroup_tables ..

@[simp] theorem syncWriteAt_tables (s : State) (keys : List Nat) (bs : List Byte) :
    (s.syncWriteAt keys bs).tables = s.tables :=
  foldl_tables (fun t g => writeGroup_tables t _ g) _ s

theorem publishAt_tables (s : State) (keys : List Nat) (bs : List Byte) : (s.publishAt keys bs).tables = s.tables := by
  unfold State.publishAt
  refine foldl_tables (fun t g => ?_) _ s
  dsimp only
  split
  · split
    · exact (evalWaits_tables ..).trans (gate_tables ..)
    · exact gate_tables ..
  · exact writeGroup_tables ..

/-! ## Translation and fetches -/

theorem readEntry_tables (s : State) (dome a : Nat) : (s.readEntry dome a).1.tables = s.tables := by
  unfold State.readEntry
  split
  · rfl
  · dsimp only
    split
    · exact gate_tables ..
    · split
      · exact gate_tables ..
      · exact gate_tables ..

theorem forget_tables (s : State) (dome a : Nat) : (s.forget dome a).tables = s.tables := rfl

theorem walkFrom_tables (dome : Nat) (va : Word) (fuel : Nat) : ∀ (s : State) (lv table : Nat),
    (s.walkFrom dome va fuel lv table).1.tables = s.tables := by
  induction fuel with
  | zero => intros; rfl
  | succ fuel ih =>
    intro s lv table
    have e := readEntry_tables s dome (table + 8 * levelIndex lv va)
    unfold State.walkFrom
    split
    · rfl
    · dsimp only
      split
      · next h => rw [h] at e; exact e
      · next h =>
        rw [h] at e
        split
        · exact e
        · split
          · split
            · exact (forget_tables ..).trans e
            · exact (ih ..).trans e
          · split
            · exact (forget_tables ..).trans e
            · exact e

theorem walk_tables (s : State) (dome : Nat) (va : Word) : (s.walk dome va).1.tables = s.tables := by
  unfold State.walk
  split
  · rfl
  · exact walkFrom_tables ..

theorem setEntry_tables (s : State) (a : Nat) (bits : Word) : (s.setEntry a bits).tables = s.tables := by
  unfold State.setEntry
  dsimp only
  split
  · exact applyReds_tables ..
  · exact (homeWrite_tables ..).trans (applyReds_tables ..)

theorem noteAccess_tables (s : State) (core : Nat) (e : Word) (leaf : Nat) :
    (s.noteAccess core e leaf).tables = s.tables := by
  unfold State.noteAccess; split <;> rfl

theorem noteRequest_tables (s : State) (core line : Nat) : (s.noteRequest core line).tables = s.tables := by
  unfold State.noteRequest; split <;> rfl

@[simp] theorem translate_tables (s : State) (core : Nat) (acc : Acc) (va : Word) :
    (s.translate core acc va).1.tables = s.tables := by
  have e := walk_tables s (domeOf core) va
  unfold State.translate
  split
  · rfl
  · extract_lets dome perm
    have hperm : ∀ t x fill, (perm t x fill).1.tables = t.tables := by
      intro t x fill
      dsimp only [perm]
      split
      · exact ite_tables (forget_tables ..) rfl
      · exact (noteAccess_tables ..).trans ((putCore_tables ..).trans (ite_tables
          ((setEntry_tables ..).trans (ite_tables (setEntry_tables ..) rfl)) (ite_tables (setEntry_tables ..) rfl)))
    split
    · exact hperm ..
    · split
      · next h => rw [h] at e; exact e
      · next h => rw [h] at e; exact (hperm ..).trans e

@[simp] theorem translateRun_tables (s : State) (core : Nat) (acc : Acc) (va : Word) (n : Nat) :
    (s.translateRun core acc va n).1.tables = s.tables := by
  have e := translate_tables s core acc va
  unfold State.translateRun
  split
  · next h => rw [h] at e; exact e
  · next s1 _ _ h =>
    rw [h] at e
    dsimp only
    split
    · exact (gate_tables ..).trans e
    · have e2 := translate_tables s1 core acc (va + BitVec.ofNat 64 (2 ^ 16 - va.toNat % 2 ^ 16))
      split
      · next h2 => rw [h2] at e2; exact e2.trans e
      · next h2 => rw [h2] at e2; exact (gate_tables ..).trans (e2.trans e)

theorem codeKey_tables (s : State) (core : Nat) (va : Word) : (s.codeKey core va).1.tables = s.tables := by
  have e := translateRun_tables s core .fetch va 16
  unfold State.codeKey
  split <;> next h => rw [h] at e; exact e

theorem slotKeys_tables (s : State) (core : Nat) (va : Word) (n : Nat) : (s.slotKeys core va n).1.tables = s.tables := by
  have e := translate_tables s core .fetch va
  unfold State.slotKeys
  split
  · next h => rw [h] at e; exact (askPeers_tables ..).trans ((gate_tables ..).trans e)
  · next h => rw [h] at e; exact e

theorem blockSlots_tables (s : State) (core : Nat) (va : Word) (k : Nat) :
    (s.blockSlots core va k).1.tables = s.tables := by
  unfold State.blockSlots
  dsimp only
  split
  · exact slotKeys_tables ..
  · exact (slotKeys_tables ..).trans (slotKeys_tables ..)

theorem cacheBlock_tables (s : State) (core k : Nat) (l : List (Option Word128)) :
    (s.cacheBlock core k l).tables = s.tables := rfl

theorem fetchSlot_tables (s : State) (core : Nat) (va : Word) (i : Nat) : (s.fetchSlot core va i).1.tables = s.tables := by
  have e := codeKey_tables s core (va + BitVec.ofNat 64 (16 * i))
  unfold State.fetchSlot
  dsimp only
  split
  · next h => rw [h] at e; exact e
  · next s1 _ h =>
    rw [h] at e
    have e2 := (codeKey_tables s1 core va).trans e
    split
    · next h2 => rw [h2] at e2; exact (askPeers_tables ..).trans e2
    · next h2 =>
      rw [h2] at e2
      split
      · exact e2
      · split
        · exact (askPeers_tables ..).trans e2
        · exact (cacheBlock_tables ..).trans ((blockSlots_tables ..).trans ((askPeers_tables ..).trans e2))

@[simp] theorem fetchHeader_tables (s : State) (core : Nat) (va : Word) (entering : Bool) :
    (s.fetchHeader core va entering).1.tables = s.tables := by
  have e := fetchSlot_tables s core va 0
  unfold State.fetchHeader
  split
  · rfl
  · split
    · next h => rw [h] at e; exact e
    · next h => rw [h] at e; dsimp only; split <;> exact e

/-! ## Releases and acquires -/

@[simp] theorem drain_tables (s : State) (dome : Nat) (f : Nat → Bool) : (s.drain dome f).tables = s.tables :=
  publishAt_tables ..

@[simp] theorem publish_tables (s : State) (core : Nat) (f : Nat → Bool) : (s.publish core f).tables = s.tables := by
  unfold State.publish
  extract_lets c out rest clean s1 d seen seen2
  have e : s1.tables = s.tables := drain_tables ..
  clear_value s1 seen2
  calc _ = _ := publishAt_tables ..
    _ = ((s1.putCore core { c with dirty := rest, clean := clean }).putDome (domeOf core) { d with clean := seen2 }).tables :=
      foldl_tables (fun t l => noteRequest_tables t core l) _ _
    _ = s.tables := e

@[simp] theorem release_tables (s : State) (core : Nat) (l : Option Launch) (sc : Scope) :
    (s.release core l sc).tables = s.tables := by
  have ack : ∀ t : State, (t.awaitAcks core).tables = t.tables := fun t => by
    unfold State.awaitAcks
    exact ite_tables (want_tables ..) rfl
  have all : ((s.publish core (fun _ => true)).drain (domeOf core) (fun _ => true)).tables = s.tables :=
    (drain_tables ..).trans (publish_tables ..)
  cases sc with
  | core => rfl
  | team => exact ite_tables (publish_tables ..) all
  | package => exact all
  | domain => exact (ack _).trans ((proxyFlush_tables ..).trans all)
  | system => exact (ack _).trans ((proxyFlush_tables ..).trans all)

@[simp] theorem acquire_tables (s : State) (core : Nat) (l : Option Launch) (sc : Scope) :
    (s.acquire core l sc).tables = s.tables := by
  have e := dropHoists_tables s core (fun _ => true)
  unfold State.acquire
  generalize s.dropHoists core (fun _ => true) = s1 at e ⊢
  cases sc with
  | team =>
    refine ite_tables ?_ ?_
    · exact e
    · exact e
  | core | package | domain | system => exact e

/-! ## Barriers change no warp -/

@[simp] theorem barUpdate_slots (s : State) (blk id : Nat) : (s.barUpdate blk id).slots = s.slots := by
  unfold State.barUpdate
  split
  · rfl
  · extract_lets ws x x1
    clear_value x1
    split <;> rfl

theorem putTBar_slots (s : State) (l : Nat) (x : TBar) : (s.putTBar l x).slots = s.slots := by
  unfold State.putTBar
  split <;> rfl

theorem swapBanks_slots (s : State) (l : Nat) (x : TBar) : (s.swapBanks l x).slots = s.slots := by
  unfold State.swapBanks
  refine foldl_keeps State.slots ?_ _ s
  intro t b
  split <;> rfl

theorem tbarUpdate_slots (s : State) (l : Nat) (x : TBar) : (s.tbarUpdate l x).slots = s.slots := by
  unfold State.tbarUpdate
  extract_lets ws new keys x1 s1
  have e : s1.slots = s.slots := by
    refine foldl_keeps State.slots ?_ _ s
    intro t b
    split
    · exact slots_of_tables (release_tables ..)
    · rfl
  split
  · exact (putTBar_slots ..).trans (ite_keeps State.slots ((swapBanks_slots ..).trans e) e)
  · exact (putTBar_slots ..).trans e

/-- An exit brings barriers up to date, and leaves the slots as they are (R226). -/
theorem leaveBarriers_slots (s : State) (blk wid : Nat) : (s.leaveBarriers blk wid).slots = s.slots := by
  unfold State.leaveBarriers
  split
  · rfl
  · next b _ =>
    extract_lets ren s1 s2
    have e : s2.slots = s.slots := foldl_keeps State.slots (fun t e => barUpdate_slots t blk e.1) b.bars s1
    clear_value s2
    split
    · exact e
    · extract_lets tb s3
      have e3 : s3.slots = s.slots := ite_keeps State.slots e e
      exact (foldl_keeps State.slots (fun t z => tbarUpdate_slots t b.launch z) tb s3).trans e3

end Sys2Proof.Machine
end

section
/-! PROOFS. Splits and records of a warp: what a lookup finds after each update, and what leaving, merging and entering do
(R45, R141). -/

namespace Sys2Proof.Machine

/-! ## Lists looked up by a key -/

section keyed
variable {α : Type} (key : α → Nat)

theorem find?_replace_same {l : List α} {x y : α} (h : l.find? (fun z => key z = key x) = some y) :
    (l.map (fun z => if key z = key x then x else z)).find? (fun z => key z = key x) = some x := by
  induction l with
  | nil => cases h
  | cons z l ih =>
    by_cases e : key z = key x
    · simp [e]
    · simp only [List.find?_cons, e, decide_false] at h
      simp only [List.map_cons, List.find?_cons, e, ↓reduceIte, decide_false, ih h]

theorem find?_replace_other {x : α} {i : Nat} (hne : i ≠ key x) (l : List α) :
    (l.map (fun z => if key z = key x then x else z)).find? (fun z => key z = i) = l.find? (fun z => key z = i) := by
  induction l with
  | nil => rfl
  | cons z l ih =>
    by_cases e : key z = key x
    · have e' : key z ≠ i := fun h => hne (h.symm.trans e)
      simp only [List.map_cons, List.find?_cons, e, ↓reduceIte, hne.symm, decide_false, ih]
    · simp only [List.map_cons, List.find?_cons, e, ↓reduceIte, ih]

theorem find?_remove_same (i : Nat) (l : List α) :
    (l.filter (fun z => key z ≠ i)).find? (fun z => key z = i) = none := by
  simp

theorem find?_remove_other {i j : Nat} (hne : j ≠ i) (l : List α) :
    (l.filter (fun z => key z ≠ i)).find? (fun z => key z = j) = l.find? (fun z => key z = j) := by
  rw [List.find?_filter]
  refine congrArg (fun f => List.find? f l) (funext fun z => ?_)
  by_cases e : key z = j
  · simp [e, hne]
  · simp [e]

theorem remove_replace (x : α) (l : List α) :
    (l.map (fun z => if key z = key x then x else z)).filter (fun z => key z ≠ key x) =
      l.filter (fun z => key z ≠ key x) := by
  induction l with
  | nil => rfl
  | cons z l ih =>
    by_cases e : key z = key x
    · simpa [e] using ih
    · simpa [e] using ih

end keyed

/-! ## Splits -/

theorem splitAt_id {w : Warp} {i : Nat} {p : Split} (h : w.splitAt i = some p) : p.id = i := by
  simpa using List.find?_some h

theorem splitAt_putSplit_same {w : Warp} {x y : Split} (h : w.splitAt x.id = some y) :
    (w.putSplit x).splitAt x.id = some x :=
  find?_replace_same Split.id h

theorem splitAt_putSplit_other {w : Warp} {x : Split} {i : Nat} (h : i ≠ x.id) :
    (w.putSplit x).splitAt i = w.splitAt i :=
  find?_replace_other Split.id h w.splits

@[simp] theorem splitAt_dropSplit_same (w : Warp) (i : Nat) : (w.dropSplit i).splitAt i = none :=
  find?_remove_same Split.id i w.splits

theorem splitAt_dropSplit_other (w : Warp) {i j : Nat} (h : j ≠ i) : (w.dropSplit i).splitAt j = w.splitAt j :=
  find?_remove_other Split.id h w.splits

/-- A split that goes leaves the warp as it stood before the split changed. -/
theorem dropSplit_putSplit (w : Warp) {x : Split} {i : Nat} (h : x.id = i) :
    (w.putSplit x).dropSplit i = w.dropSplit i := by
  subst h
  exact congrArg (fun l => { w with splits := l }) (remove_replace Split.id x w.splits)

theorem any_splits_of_splitAt {w : Warp} {i : Nat} {p : Split} (h : w.splitAt i = some p) :
    w.splits.any (fun y => y.id = i) = true := by
  rw [List.any_eq_true]
  exact ⟨p, List.mem_of_find?_eq_some h, by simpa using splitAt_id h⟩

theorem splits_length_putSplit (w : Warp) (x : Split) : (w.putSplit x).splits.length = w.splits.length :=
  List.length_map ..

theorem putSplit_splits_ne_nil {w : Warp} (x : Split) {i : Nat} {p : Split} (h : w.splitAt i = some p) :
    (w.putSplit x).splits ≠ [] := by
  have hmem : p ∈ w.splits := List.mem_of_find?_eq_some h
  intro e
  rw [List.map_eq_nil_iff.mp e] at hmem
  cases hmem

/-! ## Records -/

theorem recAt_id {w : Warp} {i : Nat} {r : RRec} (h : w.recAt i = some r) : r.id = i := by
  simpa using List.find?_some h

theorem recAt_putRec_same {w : Warp} {r y : RRec} (h : w.recAt r.id = some y) : (w.putRec r).recAt r.id = some r :=
  find?_replace_same RRec.id h

theorem recAt_putRec_other {w : Warp} {r : RRec} {i : Nat} (h : i ≠ r.id) : (w.putRec r).recAt i = w.recAt i :=
  find?_replace_other RRec.id h w.recs

@[simp] theorem recAt_dropRec_same (w : Warp) (i : Nat) : (w.dropRec i).recAt i = none :=
  find?_remove_same RRec.id i w.recs

theorem recAt_dropRec_other (w : Warp) {i j : Nat} (h : j ≠ i) : (w.dropRec i).recAt j = w.recAt j :=
  find?_remove_other RRec.id h w.recs

@[simp] theorem recAt_dropSplit (w : Warp) (i j : Nat) : (w.dropSplit i).recAt j = w.recAt j := rfl

/-! ## Fresh numbers -/

theorem foldl_max_ge (l : List Nat) : ∀ a, a ≤ l.foldl (fun a i => Nat.max a (i + 1)) a := by
  induction l with
  | nil => exact Nat.le_refl
  | cons i l ih => exact fun a => (Nat.le_max_left a (i + 1)).trans (ih _)

theorem lt_foldl_max {l : List Nat} {i : Nat} (h : i ∈ l) : ∀ a, i < l.foldl (fun a i => Nat.max a (i + 1)) a := by
  induction l with
  | nil => cases h
  | cons j l ih =>
    intro a
    rcases List.mem_cons.mp h with rfl | h
    · exact Nat.lt_of_lt_of_le (Nat.le_max_right a (i + 1)) (foldl_max_ge l _)
    · exact ih h _

theorem split_lt_freshId {w : Warp} {x : Split} (h : x ∈ w.splits) : x.id < w.freshId :=
  lt_foldl_max (by simp only [List.mem_append, List.mem_map]; exact .inl (.inl (.inl ⟨x, h, rfl⟩))) _

theorem rec_lt_freshId {w : Warp} {r : RRec} (h : r ∈ w.recs) : r.id < w.freshId :=
  lt_foldl_max (by simp only [List.mem_append, List.mem_map]; exact .inl (.inr ⟨r, h, rfl⟩)) _

/-! ## What a sequencing act leaves of a warp -/

/-- A warp apart from its splits, its records, its call entries and the regions it has entered. -/
def Warp.unsequenced (w : Warp) : Warp :=
  { w with splits := [], stacked := [], recs := [], calls := [], nextId := 0, regions := [] }

@[simp] theorem putSplit_unsequenced (w : Warp) (x : Split) : (w.putSplit x).unsequenced = w.unsequenced := rfl
@[simp] theorem dropSplit_unsequenced (w : Warp) (i : Nat) : (w.dropSplit i).unsequenced = w.unsequenced := rfl
@[simp] theorem putRec_unsequenced (w : Warp) (r : RRec) : (w.putRec r).unsequenced = w.unsequenced := rfl
@[simp] theorem dropRec_unsequenced (w : Warp) (i : Nat) : (w.dropRec i).unsequenced = w.unsequenced := rfl
@[simp] theorem pruneCalls_unsequenced (w : Warp) : w.pruneCalls.unsequenced = w.unsequenced := rfl

@[simp] theorem noteRegion_unsequenced (w : Warp) (hw : Word128) : (w.noteRegion hw).unsequenced = w.unsequenced := by
  unfold Warp.noteRegion
  dsimp only
  split <;> rfl

/-- Whatever a sequencing act does to splits and records, the registers stay. -/
theorem sameRegs_of_unsequenced {w w' : Warp} (h : w'.unsequenced = w.unsequenced) :
    Claim.sameRegs w w' ∧ w'.exited = w.exited ∧ w'.sp = w.sp ∧ w'.blk = w.blk := by
  simp only [Warp.unsequenced, Warp.mk.injEq] at h
  simp only [Claim.sameRegs, h, and_self]

/-! ## Entering a block -/

section noteRegion
variable (w : Warp) (hw : Word128)

@[simp] theorem noteRegion_splits : (w.noteRegion hw).splits = w.splits := by
  unfold Warp.noteRegion; dsimp only; split <;> rfl
@[simp] theorem noteRegion_stacked : (w.noteRegion hw).stacked = w.stacked := by
  unfold Warp.noteRegion; dsimp only; split <;> rfl
@[simp] theorem noteRegion_recs : (w.noteRegion hw).recs = w.recs := by
  unfold Warp.noteRegion; dsimp only; split <;> rfl
@[simp] theorem noteRegion_calls : (w.noteRegion hw).calls = w.calls := by
  unfold Warp.noteRegion; dsimp only; split <;> rfl

end noteRegion

/-- A split at the first word of its block. -/
def Split.entered (x : Split) : Split := { x with idx := 1, stop := none }

/-- A split that is live enters by its place. -/
theorem enter_of_live {w : Warp} {x : Split} (h : w.splits.any (fun y => y.id = x.id) = true) :
    w.enter x = (w.putSplit x.entered).noteRegion x.hw := by
  unfold Warp.enter
  simp only [h, ↓reduceIte, Split.entered]

/-- A split that is not live yet enters after those that are. -/
theorem enter_of_new {w : Warp} {x : Split} (h : ∀ y ∈ w.splits, y.id ≠ x.id) :
    w.enter x = ({ w with splits := w.splits ++ [x.entered] } : Warp).noteRegion x.hw := by
  have e : w.splits.any (fun y => y.id = x.id) = false := by
    rw [List.any_eq_false]
    exact fun y hy => by simpa using h y hy
  unfold Warp.enter
  simp only [e, Bool.false_eq_true, ↓reduceIte, Split.entered]

@[simp] theorem enter_unsequenced (w : Warp) (x : Split) : (w.enter x).unsequenced = w.unsequenced := by
  unfold Warp.enter
  rw [noteRegion_unsequenced]
  split <;> rfl

@[simp] theorem enter_stacked (w : Warp) (x : Split) : (w.enter x).stacked = w.stacked := by
  unfold Warp.enter
  rw [noteRegion_stacked]
  split <;> rfl

@[simp] theorem enter_recs (w : Warp) (x : Split) : (w.enter x).recs = w.recs := by
  unfold Warp.enter
  rw [noteRegion_recs]
  split <;> rfl

/-- A split whose record does not join at its header enters. -/
theorem reach_of_elsewhere {w : Warp} {x : Split} (h : ∀ r, w.recAt x.rcd = some r → r.join ≠ some x.hdr) :
    w.reach x = w.enter x := by
  unfold Warp.reach
  split
  · rfl
  · next r hr => exact if_neg (h r hr)

/-- A split whose record joins at its header parks. -/
theorem reach_of_join {w : Warp} {x : Split} {r : RRec} (hr : w.recAt x.rcd = some r) (hj : r.join = some x.hdr) :
    w.reach x = w.leave x true := by
  simp only [Warp.reach, hr, hj, ↓reduceIte]

/-! ## Leaving a record, and merging -/

/-- A record that a split has left, parking its threads or not. -/
def RRec.without (r : RRec) (m : Mask) (park : Bool) : RRec :=
  { r with members := r.members - 1, parked := if park then r.parked ||| m else r.parked }

/-- A warp whose split leaves a record, before the record merges. -/
def Warp.parted (w : Warp) (x : Split) (r : RRec) (park : Bool) : Warp :=
  (w.dropSplit x.id).putRec (r.without x.mask park)

theorem leave_of_members {w : Warp} {x : Split} {r : RRec} (park : Bool) (hr : w.recAt x.rcd = some r)
    (hm : 2 ≤ r.members) : w.leave x park = w.parted x r park := by
  have h0 : r.members - 1 ≠ 0 := by omega
  simp only [Warp.leave, recAt_dropSplit, hr, h0, ↓reduceIte]
  rfl

theorem leave_of_last {w : Warp} {x : Split} {r : RRec} (park : Bool) (hr : w.recAt x.rcd = some r)
    (hm : r.members ≤ 1) :
    w.leave x park = (w.parted x r park).merge ((w.parted x r park).recs.length + 1) x.rcd := by
  have h0 : r.members - 1 = 0 := by omega
  unfold Warp.leave
  simp only [recAt_dropSplit, hr]
  exact if_pos h0

theorem leave_putSplit (w : Warp) {x y : Split} (h : y.id = x.id) (park : Bool) :
    (w.putSplit y).leave x park = w.leave x park := by
  unfold Warp.leave
  rw [dropSplit_putSplit w h]

section parted
variable {w : Warp} {x : Split} {r : RRec} {park : Bool} (hr : w.recAt x.rcd = some r)
include hr

theorem recAt_parted_same : (w.parted x r park).recAt x.rcd = some (r.without x.mask park) := by
  have e : (r.without x.mask park).id = x.rcd := show r.id = x.rcd from recAt_id hr
  rw [← e]
  exact recAt_putRec_same (w := w.dropSplit x.id) (y := r) (by rw [recAt_dropSplit, e, hr])

theorem recAt_parted_other {i : Nat} (h : i ≠ x.rcd) : (w.parted x r park).recAt i = w.recAt i := by
  have e : i ≠ (r.without x.mask park).id := fun h' => h (h'.trans (show r.id = x.rcd from recAt_id hr))
  exact (recAt_putRec_other e).trans (recAt_dropSplit ..)

end parted

theorem splitAt_parted_same (w : Warp) {x : Split} (r : RRec) (park : Bool) {i : Nat} (h : x.id = i) :
    (w.parted x r park).splitAt i = none := by
  subst h
  exact splitAt_dropSplit_same ..

theorem splitAt_parted_other (w : Warp) {x : Split} (r : RRec) (park : Bool) {j : Nat} (h : j ≠ x.id) :
    (w.parted x r park).splitAt j = w.splitAt j :=
  splitAt_dropSplit_other w h

/-- The split in which the threads of a merged record go on at its join, in the record `pr`. -/
def RRec.rejoined (r : RRec) (id pr : Nat) (j : Word) : Split :=
  { id := id, mask := r.parked, hdr := j, hw := r.hw, idx := 1, rcd := pr, calls := r.calls, stop := none, readyAt := 0,
    overtaken := 0, boosted := false, yieldFor := [] }

/-- A warp that has given out its fresh number. -/
def Warp.renumbered (w : Warp) : Warp := { w with nextId := w.freshId + 1 }

/-- A record none of whose members is left ends its warp when it has no parent. -/
theorem merge_of_outermost {w : Warp} {n : Nat} {r : RRec} (fuel : Nat) (hr : w.recAt n = some r) (hp : r.parent = none) :
    w.merge (fuel + 1) n = { w with splits := [], stacked := [], recs := [] } := by
  simp only [Warp.merge, hr, hp]

section merge
variable {w : Warp} {n pr : Nat} {r q : RRec} {j : Word} (fuel : Nat) (hr : w.recAt n = some r) (hp : r.parent = some pr)
  (hne : pr ≠ n) (hq : w.recAt pr = some q) (hparked : r.parked ≠ 0) (hj : r.join = some j)
include hr hp hne hq hparked hj

/-- The parked threads of a record go on as one split at its join. -/
theorem merge_of_rejoin (hqj : q.join ≠ some j) :
    w.merge (fuel + 1) n =
      (w.dropRec n).renumbered.enter (r.rejoined (w.dropRec n).freshId pr j) := by
  simp only [Warp.merge, hr, hp, recAt_dropRec_other w hne, hq, hparked, hj, hqj, ↓reduceIte]
  rfl

/-- Where the parent joins at the same header, they park there. -/
theorem merge_of_same_join (hqj : q.join = some j) (hm : 2 ≤ q.members) :
    w.merge (fuel + 1) n = (w.dropRec n).putRec (q.without r.parked true) := by
  have h0 : q.members - 1 ≠ 0 := by omega
  simp only [Warp.merge, hr, hp, recAt_dropRec_other w hne, hq, hparked, hj, hqj, h0, ↓reduceIte, RRec.without]

end merge

/-! ## Settling -/

/-- Without stacked splits nothing is popped. -/
theorem settle_of_unstacked {w : Warp} (h : w.stacked = []) : w.settle = w.pruneCalls := by
  have e : w.refill (w.stacked.length + 1) = w := by
    simp only [h, Warp.refill]
    split <;> rfl
  unfold Warp.settle
  rw [e]

@[simp] theorem recAt_pruneCalls (w : Warp) (i : Nat) : w.pruneCalls.recAt i = w.recAt i := rfl
@[simp] theorem splitAt_pruneCalls (w : Warp) (i : Nat) : w.pruneCalls.splitAt i = w.splitAt i := rfl

/-- A split that is not the last member leaves its record with one member fewer. -/
theorem leave_settle_of_members {w : Warp} {x : Split} {r : RRec} (park : Bool) (hst : w.stacked = [])
    (hr : w.recAt x.rcd = some r) (hm : 2 ≤ r.members) :
    (w.leave x park).settle = (w.parted x r park).pruneCalls := by
  rw [leave_of_members park hr hm]
  exact settle_of_unstacked hst

section last
variable {w : Warp} {x : Split} {r q : RRec} {pr : Nat} {j : Word} {park : Bool} (hst : w.stacked = [])
  (hr : w.recAt x.rcd = some r) (hm : r.members = 1) (hp : r.parent = some pr) (hne : pr ≠ x.rcd)
  (hq : w.recAt pr = some q) (hparked : (r.without x.mask park).parked ≠ 0) (hj : r.join = some j)
include hst hr hm hp hne hq hparked hj

/-- The last member leaves the record: what has parked there goes on as one split at the join, in the parent (R45). -/
theorem leave_settle_of_rejoin (hqj : q.join ≠ some j) :
    Claim.merged w (w.leave x park).settle x.id r pr (r.without x.mask park).parked j ∧
      (w.leave x park).settle.recAt pr = some q ∧ (w.leave x park).settle.unsequenced = w.unsequenced ∧
      (w.leave x park).settle.splits ≠ [] := by
  have hpq : (w.parted x r park).recAt pr = some q := (recAt_parted_other hr hne).trans hq
  let v := (w.parted x r park).dropRec x.rcd
  let y := (r.without x.mask park).rejoined v.freshId pr j
  have hnew : ∀ z ∈ v.splits, z.id ≠ y.id := fun z hz => Nat.ne_of_lt (split_lt_freshId (w := v) hz)
  have e : w.leave x park = v.renumbered.enter y := by
    rw [leave_of_last park hr (by omega)]
    exact merge_of_rejoin _ (recAt_parted_same hr) hp hne hpq hparked hj hqj
  have hsplits : (w.leave x park).splits = v.splits ++ [y] := by
    rw [e]
    exact (congrArg Warp.splits (enter_of_new (w := v.renumbered) hnew)).trans (noteRegion_splits ..)
  have hrec (i : Nat) : (w.leave x park).recAt i = v.recAt i := by
    rw [e]
    exact congrArg (List.find? (fun z => decide (z.id = i))) (enter_recs ..)
  have hunseq : (w.leave x park).unsequenced = w.unsequenced := by
    rw [e, enter_unsequenced]
    rfl
  rw [settle_of_unstacked (by rw [e, enter_stacked]; exact hst)]
  refine ⟨⟨?_, y, fun z => ?_, rfl, rfl, rfl, rfl, rfl, rfl, rfl⟩, ?_, hunseq, ?_⟩
  · rw [recAt_pruneCalls, hrec, recAt_id hr]
    exact recAt_dropRec_same ..
  · show z ∈ (w.leave x park).splits ↔ _
    rw [hsplits, List.mem_append, List.mem_singleton]
    have hv : z ∈ v.splits ↔ z ∈ w.splits ∧ z.id ≠ x.id := by
      simp [v, Warp.parted, Warp.dropRec, Warp.putRec, Warp.dropSplit]
    rw [hv]
  · rw [recAt_pruneCalls, hrec]
    exact (recAt_dropRec_other _ hne).trans hpq
  · show (w.leave x park).splits ≠ []
    simp [hsplits]

/-- The last member leaves the record, and the parent joins at the same header: all of them park there (R45). -/
theorem leave_settle_of_same_join (hqj : q.join = some j) (hqm : 2 ≤ q.members) :
    (w.leave x park).settle =
      (((w.parted x r park).dropRec x.rcd).putRec (q.without (r.without x.mask park).parked true)).pruneCalls := by
  rw [leave_of_last park hr (by omega), merge_of_same_join _ (recAt_parted_same hr) hp hne
    ((recAt_parted_other hr hne).trans hq) hparked hj hqj hqm]
  exact settle_of_unstacked hst

end last

/-- The last member of the outermost record leaves nothing. -/
theorem leave_settle_of_outermost {w : Warp} {x : Split} {r : RRec} (park : Bool) (hr : w.recAt x.rcd = some r)
    (hm : r.members ≤ 1) (hp : r.parent = none) :
    (w.leave x park).settle.splits = [] ∧ (w.leave x park).settle.stacked = [] := by
  rw [leave_of_last park hr hm, merge_of_outermost _ (recAt_parted_same hr) hp, settle_of_unstacked rfl]
  exact ⟨rfl, rfl⟩

/-- A warp with a live split stays in its slot. -/
theorem settleWarp_of_live (s : State) (k : Nat) {w : Warp} (h : w.splits ≠ []) : s.settleWarp k w = s.putWarp k w := by
  simp [State.settleWarp, h]

/-- A warp with no split left frees its slot (R43). -/
theorem settleWarp_of_gone (s : State) (k : Nat) {w : Warp} (hsp : w.splits = []) (hst : w.stacked = []) :
    (s.settleWarp k w).warpAt k = none := by
  unfold State.settleWarp
  rw [if_pos (by simp [hsp, hst])]
  exact warpAt_none_of_slots (leaveBarriers_slots ..) (warpAt_dropWarp_same ..)

end Sys2Proof.Machine
end

section
/-! PROOFS. Sequencing acts: transfers of a whole split, divergence, reconvergence and END (R43, R45, R46, R139-R141). -/

namespace Sys2Proof.Machine

/-! ## Fetching the header of a transfer -/

theorem fetchEntry_of_admits {s s1 : State} {k : Nat} {w : Warp} {va : Word} {hw : Word128}
    (hf : s.fetchHeader (keyCore k) va false = (s1, .ok hw)) (ha : Claim.admits s w hw) :
    s.fetchEntry k w va = (s1, .ok hw) := by
  have e : ((Header.ofSlot hw).stage && !s.packed w) = false := by
    cases hb : (Header.ofSlot hw).stage
    · rfl
    · simp [ha hb]
  simp only [State.fetchEntry, hf, e, Bool.false_eq_true, ↓reduceIte]

/-- A warp that has changed its splits alone enters the headers it entered before. -/
theorem admits_putSplit {s : State} {w : Warp} {hw : Word128} (h : Claim.admits s w hw) (p : Split) :
    Claim.admits s (w.putSplit p) hw := h

/-- A fetch does not change what a warp may enter. -/
theorem admits_of_tables {s t : State} (ht : t.tables = s.tables) {w : Warp} {hw : Word128} (h : Claim.admits s w hw) :
    Claim.admits t w hw := fun hb => (packed_of_tables ht w).trans (h hb)

theorem fetched_tables {s s1 : State} {core : Nat} {va : Word} {r : HdrRes}
    (hf : s.fetchHeader core va false = (s1, r)) : s1.tables = s.tables := by
  have e := fetchHeader_tables s core va false
  rw [hf] at e
  exact e

theorem transfer_of_admits {s s1 : State} {k : Nat} {w : Warp} {va : Word} {hw : Word128} (p : Split) (q : Seq)
    (f : Warp → Split → Warp × Split) (hf : s.fetchHeader (keyCore k) va false = (s1, .ok hw))
    (ha : Claim.admits s w hw) :
    s.transfer k w p q va f = s1.settleWarp k ((f w p).1.goTo (f w p).2 va hw) := by
  simp only [State.transfer, fetchEntry_of_admits hf ha]

/-! ## The acts, one by one -/

/-- A condition as a thread reads it. -/
def Warp.condition (w : Warp) (i : Pred) (t : Nat) : Bool :=
  match i with
  | .p j => w.pGet j t
  | .q j => w.qGet j

/-- The threads of a split that an IF (`neg` false) or an IFN takes (R140). -/
def Warp.takes (w : Warp) (p : Split) (i : Pred) (neg : Bool) : Mask :=
  Mask.ofPred (fun t => p.mask.has t && (w.condition i t != neg))

theorem has_takes (w : Warp) (p : Split) (i : Pred) (neg : Bool) {t : Nat} (ht : t < 32) :
    (w.takes p i neg).has t = (p.mask.has t && (w.condition i t != neg)) := by
  simp [Warp.takes, has_ofPred, ht]

/-- A condition per warp takes every thread of a split or none. -/
theorem takes_q (w : Warp) (p : Split) (j : Fin 4) (neg : Bool) :
    w.takes p (.q j) neg = if w.qGet j != neg then p.mask else 0 := by
  refine mask_ext fun t ht => ?_
  rw [has_takes _ _ _ _ ht]
  simp only [Warp.condition]
  split
  · next h => rw [h, Bool.and_true]
  · next h => rw [Bool.eq_false_of_not_eq_true h, Bool.and_false, Mask.has_zero]

theorem takes_eq_mask_iff (w : Warp) (p : Split) (i : Pred) (neg : Bool) :
    w.takes p i neg = p.mask ↔
      (List.range 32).all (fun t => (p.mask.has t && (w.condition i t != neg)) || !p.mask.has t) = true := by
  rw [List.all_eq_true]
  constructor
  · intro e t ht
    rw [← has_takes _ _ _ _ (List.mem_range.mp ht), e, Bool.or_not_self]
  · intro h
    refine mask_ext fun t ht => ?_
    have h' := h t (List.mem_range.mpr ht)
    rw [has_takes _ _ _ _ ht]
    cases hm : p.mask.has t
    · rfl
    · simpa [hm] using h'

theorem takes_eq_zero_iff (w : Warp) (p : Split) (i : Pred) (neg : Bool) :
    w.takes p i neg = 0 ↔ (List.range 32).any (fun t => p.mask.has t && (w.condition i t != neg)) = false := by
  rw [List.any_eq_false]
  constructor
  · intro e t ht
    rw [← has_takes _ _ _ _ (List.mem_range.mp ht), e, Mask.has_zero]
    exact Bool.false_ne_true
  · intro h
    refine mask_ext fun t ht => ?_
    rw [has_takes _ _ _ _ ht, Mask.has_zero]
    exact Bool.eq_false_of_not_eq_true (h t (List.mem_range.mpr ht))

theorem target_eq (p : Split) (t : BitVec 13) : p.target t = p.hdr + 16 * t.signExtend 64 := by
  rw [Split.target, BitVec.mul_comm]

theorem nextVa_eq (p : Split) : p.nextVa = p.hdr + 16 * BitVec.ofNat 64 (p.idx + 1) := by
  rw [Split.nextVa, BitVec.ofNat_mul]
  rfl

/-- Sequencing acts read nothing damaged (R304). -/
theorem seqUce_of_sound {w : Warp} {m : Mask} {q : Seq} (h : Claim.seqSound w m q) (p : Split) :
    seqUce (w.putSplit p) m q = 0 := by
  have none_reads (x : Spec) (hx : ∀ t, m.has t = true → damagedBy w x t = false) :
      (if w.damaged.isEmpty then 0 else Mask.ofPred (fun t => m.has t && damagedBy (w.putSplit p) x t)) = (0 : Mask) := by
    split
    · rfl
    · refine ofPred_has fun t _ => ?_
      rw [Mask.has_zero]
      cases hm : m.has t
      · rfl
      · exact (Bool.true_and _).trans (hx t hm)
  cases q with
  | ifT i _ | ifN i _ => exact none_reads (predSpec i) h
  | goInd i | callInd i => exact none_reads (.w i) h
  | loop n _ => exact none_reads (.n n) h
  | seq | go _ | call _ | ret | fin => rfl

theorem unstopped {p : Split} (h : p.stop = none) :
    ({ p with stop := none, readyAt := if p.stop.isSome then 0 else p.readyAt } : Split) = p := by
  simp only [h, Option.isSome_none, Bool.false_eq_true, ↓reduceIte]
  rw [← h]

section acts
variable {s : State} {k pid : Nat} {w : Warp} {p : Split} (hw : s.warpAt k = some w) (hp : w.splitAt pid = some p)
  (hstop : p.stop = none)
include hw hp hstop

/-- SEQ goes on past the last word of its block. -/
theorem seqAct_seq_last (h : ¬ p.idx < (Header.ofSlot p.hw).length.toNat) :
    s.seqAct k pid .seq = s.transfer k (w.putSplit p) p .seq p.nextVa Prod.mk := by
  simp only [State.seqAct, hw, hp, unstopped hstop, seqUce, ne_eq, not_true_eq_false, h, ↓reduceIte]

theorem seqAct_go (t : BitVec 13) :
    s.seqAct k pid (.go t) = s.transfer k (w.putSplit p) p (.go t) (p.target t) Prod.mk := by
  simp only [State.seqAct, hw, hp, unstopped hstop, seqUce, ne_eq, not_true_eq_false, ↓reduceIte]

theorem seqAct_fin : s.seqAct k pid .fin = s.settleWarp k ((w.putSplit p).endSplit p) := by
  simp only [State.seqAct, hw, hp, unstopped hstop, seqUce, ne_eq, not_true_eq_false, ↓reduceIte]

theorem seqAct_goInd {i : Fin 32} (h : Claim.seqSound w p.mask (.goInd i)) :
    s.seqAct k pid (.goInd i) = s.transfer k (w.putSplit p) p (.goInd i) (w.wGet i) Prod.mk := by
  simp only [State.seqAct, hw, hp, unstopped hstop, seqUce_of_sound h, ne_eq, not_true_eq_false, ↓reduceIte]
  rfl

theorem seqAct_loop {n : Fin 4} {t : BitVec 13} (h : Claim.seqSound w p.mask (.loop n t)) :
    s.seqAct k pid (.loop n t) = s.transfer k (w.putSplit p) p (.loop n t)
      (if w.nGet n - 1 ≠ 0 then p.target t else p.nextVa) (fun w1 p1 => (w1.nSet n (w.nGet n - 1), p1)) := by
  simp only [State.seqAct, hw, hp, unstopped hstop, seqUce_of_sound h, ne_eq, not_true_eq_false, ↓reduceIte]
  rfl

theorem seqAct_ifT {i : Pred} {t : BitVec 13} (h : Claim.seqSound w p.mask (.ifT i t)) :
    s.seqAct k pid (.ifT i t) = s.branch k (w.putSplit p) p (.ifT i t) (w.takes p i false) (p.target t) := by
  simp only [State.seqAct, hw, hp, unstopped hstop, seqUce_of_sound h, ne_eq, not_true_eq_false, ↓reduceIte]
  cases i with
  | p j => rfl
  | q j => rw [takes_q]; rfl

theorem seqAct_ifN {i : Pred} {t : BitVec 13} (h : Claim.seqSound w p.mask (.ifN i t)) :
    s.seqAct k pid (.ifN i t) = s.branch k (w.putSplit p) p (.ifN i t) (w.takes p i true) (p.target t) := by
  simp only [State.seqAct, hw, hp, unstopped hstop, seqUce_of_sound h, ne_eq, not_true_eq_false, ↓reduceIte]
  cases i with
  | p j => rfl
  | q j => rw [takes_q]; rfl

end acts

/-! ## Transfers of a whole split -/

/-- A branch that takes all of a split's threads, or none, transfers the split. -/
theorem branch_of_whole (s : State) (k : Nat) (w v : Warp) (p : Split) (q : Seq) (i : Pred) (neg : Bool) {tgt va : Word}
    (h : (if (List.range 32).all (fun t => (p.mask.has t && (w.condition i t != neg)) || !p.mask.has t) then some tgt
      else if (List.range 32).any (fun t => p.mask.has t && (w.condition i t != neg)) then none
      else some p.nextVa) = some va) :
    s.branch k v p q (w.takes p i neg) tgt = s.transfer k v p q va Prod.mk := by
  unfold State.branch
  split at h
  · next hall =>
    cases h
    rw [if_pos ((takes_eq_mask_iff ..).mpr hall)]
  · next hall =>
    rw [if_neg (fun e => hall ((takes_eq_mask_iff ..).mp e))]
    split at h
    · cases h
    · next hany =>
      cases h
      rw [if_pos ((takes_eq_zero_iff ..).mpr (Bool.eq_false_of_not_eq_true hany))]

/-- The warp after the count of a LOOP (R140). -/
def Warp.counted (w : Warp) (q : Seq) : Warp :=
  match q with
  | .loop n _ => w.nSet n (w.nGet n - 1)
  | _ => w

/-- An act that takes a whole split to a target is a transfer there, with a LOOP's count. -/
theorem seqAct_eq_transfer {s : State} {k pid : Nat} {q : Seq} {w : Warp} {p : Split} {va : Word}
    (hw : s.warpAt k = some w) (hp : w.splitAt pid = some p) (hstop : p.stop = none)
    (hva : Claim.target w p q = some va) (hsound : Claim.seqSound w p.mask q) :
    ∃ f : Warp → Split → Warp × Split, f (w.putSplit p) p = ((w.counted q).putSplit p, p) ∧
      s.seqAct k pid q = s.transfer k (w.putSplit p) p q va f := by
  have hpast := nextVa_eq p
  cases q with
  | seq =>
    refine ⟨Prod.mk, rfl, ?_⟩
    dsimp only [Claim.target] at hva
    split at hva
    · cases hva
    · next h =>
      cases hva
      rw [seqAct_seq_last hw hp hstop h, hpast]
  | go t =>
    cases hva
    exact ⟨Prod.mk, rfl, by rw [seqAct_go hw hp hstop, target_eq]⟩
  | goInd i =>
    cases hva
    exact ⟨Prod.mk, rfl, seqAct_goInd hw hp hstop hsound⟩
  | ifT i t =>
    refine ⟨Prod.mk, rfl, (seqAct_ifT hw hp hstop hsound).trans (branch_of_whole s k w _ p _ i false ?_)⟩
    rw [target_eq, hpast]
    exact hva
  | ifN i t =>
    refine ⟨Prod.mk, rfl, (seqAct_ifN hw hp hstop hsound).trans (branch_of_whole s k w _ p _ i true ?_)⟩
    rw [target_eq, hpast]
    exact hva
  | loop n t =>
    cases hva
    exact ⟨_, rfl, by rw [seqAct_loop hw hp hstop hsound, target_eq, hpast]⟩
  | call _ | callInd _ | ret | fin => cases hva

/-- A transfer to a valid header puts the split there (R141). -/
theorem seqAct_of_target {s s1 : State} {k pid : Nat} {q : Seq} {w : Warp} {p : Split} {va : Word} {hd : Word128}
    (hw : s.warpAt k = some w) (hp : w.splitAt pid = some p) (hstop : p.stop = none)
    (hva : Claim.target w p q = some va) (hsound : Claim.seqSound w p.mask q)
    (hf : s.fetchHeader (keyCore k) va false = (s1, .ok hd)) (ha : Claim.admits s w hd) :
    s.seqAct k pid q = s1.settleWarp k (((w.counted q).putSplit p).goTo p va hd) := by
  obtain ⟨f, hfw, e⟩ := seqAct_eq_transfer hw hp hstop hva hsound
  rw [e, transfer_of_admits p q f hf (admits_putSplit ha p), hfw]

end Sys2Proof.Machine
end

section
/-! PROOFS. Divergence, reconvergence and END (R43, R45, R46, R140). -/

namespace Sys2Proof.Machine

/-! ## Parking at the join -/

/-- A LOOP's count changes `n` registers alone. -/
theorem counted_eq (w : Warp) (q : Seq) : ∃ n, w.counted q = { w with n := n } := by
  cases q with
  | loop n _ => exact ⟨_, rfl⟩
  | _ => exact ⟨w.n, rfl⟩

/-- A split that stands at another header. -/
def Split.headed (p : Split) (va : Word) (hd : Word128) : Split := { p with hdr := va, hw := hd }

/-- A split that goes to the header where its record joins leaves its place and parks. -/
theorem goTo_of_join {w : Warp} {p : Split} {va : Word} {r : RRec} (hd : Word128) (hr : w.recAt p.rcd = some r)
    (hj : r.join = some va) :
    (w.putSplit p).goTo p va hd = (w.leave (p.headed va hd) true).settle :=
  congrArg Warp.settle ((reach_of_join (w := w.putSplit p) (x := p.headed va hd) hr hj).trans
    (leave_putSplit w (x := p.headed va hd) (y := p) rfl true))

/-- What a split does that reaches its join: it depends on how many members its record has. -/
theorem splitsParkAndMergeAtTheirJoin : Claim.SplitsParkAndMergeAtTheirJoin := by
  intro s s1 k pid q w p va hd r hw hp hstop hva hsound hf ha hr hj hst
  obtain ⟨n, hn⟩ := counted_eq w q
  let v : Warp := { w with n := n }
  let x : Split := p.headed va hd
  have hid : x.id = pid := show p.id = pid from splitAt_id hp
  have hact : s.seqAct k pid q = s1.settleWarp k (v.leave x true).settle := by
    rw [seqAct_of_target hw hp hstop hva hsound hf ha, hn]
    exact congrArg _ (goTo_of_join (w := v) hd hr hj)
  have hrx : v.recAt x.rcd = some r := hr
  constructor
  · intro hm
    rw [leave_settle_of_members (w := v) true hst hrx hm] at hact
    exact ⟨_, hact, splitAt_parted_same v r true hid, fun j hne => splitAt_parted_other v r true (hid ▸ hne),
      (sameRegs_of_unsequenced (w := v) rfl).1, rfl, recAt_parted_same hrx⟩
  · intro pr pq hm hpr hne hq hparked
    constructor
    · intro hqj
      obtain ⟨hmerged, hrec, hun, hlive⟩ :=
        leave_settle_of_rejoin (w := v) hst hrx hm hpr hne (park := true) hq hparked hj hqj
      obtain ⟨hregs, hex, -, -⟩ := sameRegs_of_unsequenced hun
      rw [settleWarp_of_live s1 k hlive] at hact
      exact ⟨_, hact, hid ▸ hmerged, hrec, hregs, hex⟩
    · intro hqj hqm
      rw [leave_settle_of_same_join (w := v) hst hrx hm hpr hne (park := true) hq hparked hj hqj hqm] at hact
      have hpq : ((v.parted x r true).dropRec x.rcd).recAt pr = some pq :=
        (recAt_dropRec_other _ hne).trans ((recAt_parted_other hrx hne).trans hq)
      have hqid : (pq.without (r.without x.mask true).parked true).id = pr := recAt_id (r := pq) hq
      refine ⟨_, hact, splitAt_parted_same v r true hid, ?_, fun j hne => splitAt_parted_other v r true (hid ▸ hne),
        (sameRegs_of_unsequenced (w := v) rfl).1, ?_⟩
      · refine (recAt_putRec_other ?_).trans (recAt_dropRec_same ..)
        rw [hqid]
        exact hne.symm
      · rw [← hqid] at hpq ⊢
        exact recAt_putRec_same hpq

/-! ## END -/

/-- END takes a split out of its record, with its threads marked as exited. -/
theorem endSplit_putSplit (w : Warp) (p : Split) :
    (w.putSplit p).endSplit p = (({ w with exited := w.exited ||| p.mask } : Warp).leave p false).settle :=
  congrArg Warp.settle (leave_putSplit { w with exited := w.exited ||| p.mask } rfl false)

/-- What END does to its split, by the members that its record has left. -/
theorem endRetiresTheSplit : Claim.EndRetiresTheSplit := by
  intro s k pid w p r hw hp hstop hst hr
  let v : Warp := { w with exited := w.exited ||| p.mask }
  have hid : p.id = pid := splitAt_id hp
  have hact : s.seqAct k pid .fin = s.settleWarp k (v.leave p false).settle := by
    rw [seqAct_fin hw hp hstop, endSplit_putSplit]
  have hrv : v.recAt p.rcd = some r := hr
  refine ⟨fun hm => ?_, fun pr pq j hm hpr hne hq hparked hj hqj => ?_, fun hm hpr => ?_⟩
  · rw [leave_settle_of_members (w := v) false hst hrv hm] at hact
    exact ⟨_, hact, splitAt_parted_same v r false hid, fun j hne => splitAt_parted_other v r false (hid ▸ hne), rfl,
      (sameRegs_of_unsequenced (w := v) rfl).1, recAt_parted_same hrv⟩
  · obtain ⟨hmerged, -, hun, hlive⟩ := leave_settle_of_rejoin (w := v) hst hrv hm hpr hne (park := false) hq hparked hj hqj
    obtain ⟨hregs, hex, -, -⟩ := sameRegs_of_unsequenced hun
    rw [settleWarp_of_live s k hlive] at hact
    exact ⟨_, hact, hid ▸ hmerged, hex, hregs⟩
  · obtain ⟨hsp, hst'⟩ := leave_settle_of_outermost (w := v) false hrv hm hpr
    rw [hact]
    exact settleWarp_of_gone s k hsp hst'

/-- Settles O29: parking, merging and END, from what leaving a record does (R43, R45). -/
theorem splitsRejoinOrEnd : Obligations.SplitsRejoinOrEnd :=
  ⟨splitsParkAndMergeAtTheirJoin, endRetiresTheSplit⟩

/-! ## Divergence -/

/-- The record of a divergence, numbered `u` (R45). -/
def Split.forkRec (x : Split) (u : Nat) (join : Word) (jhw : Word128) : RRec :=
  { id := u, join := some join, hw := jhw, parent := some x.rcd, members := 2, parked := 0, calls := x.calls }

/-- The part of a split that takes a branch, in the record `u`. -/
def Split.forkTaken (x : Split) (u : Nat) (taken : Mask) (tgt : Word) (thw : Word128) : Split :=
  { x with mask := taken, hdr := tgt, hw := thw, rcd := u }

/-- The part of a split that goes on past a branch, in the record `u`. -/
def Split.forkOther (x : Split) (u : Nat) (taken : Mask) (nxt : Word) (nhw : Word128) : Split :=
  { x with
    id := u + 1, mask := x.mask &&& ~~~ taken, hdr := nxt, hw := nhw, idx := 1, rcd := u, stop := none, readyAt := 0,
    overtaken := 0, yieldFor := [] }

/-- A warp that has the record and the new split of a divergence. -/
def Warp.forked (w : Warp) (n : RRec) (f : Split) : Warp :=
  { w with nextId := f.id + 1, recs := w.recs ++ [n], splits := w.splits ++ [f] }

section forked
variable {w : Warp} {n : RRec} {f x : Split} {pid : Nat}

theorem recAt_forked (hn : ∀ r ∈ w.recs, r.id ≠ n.id) : (w.forked n f).recAt n.id = some n := by
  have e : w.recs.find? (fun r => r.id = n.id) = none := by simpa using hn
  show (w.recs ++ [n]).find? (fun r => r.id = n.id) = some n
  simp [List.find?_append, e]

theorem splitAt_forked_old (hx : w.splitAt pid = some x) : (w.forked n f).splitAt pid = some x := by
  show (w.splits ++ [f]).find? (fun r => r.id = pid) = some x
  rw [List.find?_append, show w.splits.find? (fun r => r.id = pid) = some x from hx]
  rfl

theorem splitAt_forked_new (hf : ∀ y ∈ w.splits, y.id ≠ f.id) : (w.forked n f).splitAt f.id = some f := by
  have e : w.splits.find? (fun r => r.id = f.id) = none := by simpa using hf
  show (w.splits ++ [f]).find? (fun r => r.id = f.id) = some f
  simp [List.find?_append, e]

end forked

section diverge
variable {w : Warp} {x : Split} {taken : Mask} {join tgt nxt : Word} {jhw thw nhw : Word128} (hx : w.splitAt x.id = some x)
  (hst : w.stacked = []) (hroom : w.splits.length < 4) (htgt : join ≠ tgt) (hnxt : join ≠ nxt)

section
include hroom htgt hnxt

/-- A divergence for whose new split a live place is free: both parts enter their blocks. -/
theorem diverge_of_room :
    w.diverge x taken (some (join, jhw)) tgt thw nxt nhw =
      (((w.forked (x.forkRec w.freshId join jhw) (x.forkOther w.freshId taken nxt nhw)).enter
        (x.forkTaken w.freshId taken tgt thw)).enter (x.forkOther w.freshId taken nxt nhw)).settle := by
  let n := x.forkRec w.freshId join jhw
  let f := x.forkOther w.freshId taken nxt nhw
  have hrec : (w.forked n f).recAt w.freshId = some n := recAt_forked fun r hr => Nat.ne_of_lt (rec_lt_freshId hr)
  have hreach1 : (w.forked n f).reach (x.forkTaken w.freshId taken tgt thw) =
      (w.forked n f).enter (x.forkTaken w.freshId taken tgt thw) :=
    reach_of_elsewhere fun r hr => by
      rw [show r = n from Option.some.inj (hr.symm.trans hrec)]
      exact fun e => htgt (Option.some.inj e)
  have hreach2 : ((w.forked n f).enter (x.forkTaken w.freshId taken tgt thw)).reach f =
      ((w.forked n f).enter (x.forkTaken w.freshId taken tgt thw)).enter f :=
    reach_of_elsewhere fun r hr => by
      rw [Warp.recAt, enter_recs] at hr
      rw [show r = n from Option.some.inj (hr.symm.trans hrec)]
      exact fun e => hnxt (Option.some.inj e)
  unfold Warp.diverge
  simp only [hroom, ↓reduceIte]
  exact congrArg Warp.settle ((congrArg (fun v => Warp.reach v f) hreach1).trans hreach2)

end

include hx hst hroom htgt hnxt in
/-- What a warp holds after such a divergence. -/
theorem diverge_parts :
    let v := w.diverge x taken (some (join, jhw)) tgt thw nxt nhw
    let f := x.forkOther w.freshId taken nxt nhw
    v.unsequenced = w.unsequenced ∧ x.forkRec w.freshId join jhw ∈ v.recs ∧
      v.splitAt x.id = some (x.forkTaken w.freshId taken tgt thw).entered ∧ f ∈ v.splits := by
  intro v f
  let g := x.forkTaken w.freshId taken tgt thw
  let w2 := w.forked (x.forkRec w.freshId join jhw) f
  have hlt : x.id < w.freshId := split_lt_freshId (List.mem_of_find?_eq_some hx)
  have hne : x.id ≠ f.id := fun e => by
    have e' : x.id = w.freshId + 1 := e
    omega
  have hold : w2.splitAt x.id = some x := splitAt_forked_old hx
  have hnew : w2.splitAt f.id = some f := splitAt_forked_new fun y hy e => by
    have e' : y.id = w.freshId + 1 := e
    have := split_lt_freshId hy
    omega
  have henter1 : w2.enter g = (w2.putSplit g.entered).noteRegion thw :=
    enter_of_live (any_splits_of_splitAt hold)
  have hnew1 : (w2.enter g).splitAt f.id = some f := by
    rw [henter1, Warp.splitAt, noteRegion_splits]
    exact (splitAt_putSplit_other (x := g.entered) hne.symm).trans hnew
  have henter2 : ((w2.enter g).enter f).splits = ((w2.putSplit g.entered).putSplit f.entered).splits := by
    rw [enter_of_live (any_splits_of_splitAt hnew1), noteRegion_splits, henter1]
    exact congrArg (fun l => putSplit l f.entered) (noteRegion_splits ..)
  have hv : v = ((w2.enter g).enter f).pruneCalls :=
    (diverge_of_room hroom htgt hnxt).trans (settle_of_unstacked (by rw [enter_stacked, enter_stacked]; exact hst))
  have hsplits : v.splits = ((w2.putSplit g.entered).putSplit f.entered).splits := by
    rw [hv]
    exact henter2
  have hold1 : (w2.putSplit g.entered).splitAt g.entered.id = some g.entered := splitAt_putSplit_same (y := x) hold
  have hnew2 : (w2.putSplit g.entered).splitAt f.entered.id = some f :=
    (splitAt_putSplit_other (x := g.entered) hne.symm).trans hnew
  refine ⟨?_, ?_, ?_, ?_⟩
  · rw [hv, pruneCalls_unsequenced, enter_unsequenced, enter_unsequenced]
    rfl
  · rw [hv]
    show _ ∈ ((w2.enter g).enter f).recs
    rw [enter_recs, enter_recs]
    exact List.mem_append_right _ (List.mem_singleton_self _)
  · rw [Warp.splitAt, hsplits]
    exact (splitAt_putSplit_other (x := f.entered) hne).trans hold1
  · rw [hsplits]
    exact List.mem_of_find?_eq_some (splitAt_putSplit_same hnew2)

end diverge

section branch
variable {s s1 : State} {k : Nat} {w : Warp} {p : Split} {q : Seq} {taken : Mask} {tgt : Word} {jhw : Word128}
  (hall : taken ≠ p.mask) (hnone : taken ≠ 0) (hrec : (Header.ofSlot p.hw).reconv ≠ 0) (hroom : w.splits.length < 4)
  (hf : s.fetchHeader (keyCore k) (p.hdr + (Header.ofSlot p.hw).reconv.signExtend 64 * 16) false = (s1, .ok jhw))
  (ha : Claim.admits s w jhw)
include hall hnone hrec hroom hf ha

/-- A divergence for which the divergence stack has no room (R45, R46). -/
theorem branch_of_full (hfull : w.slim < w.depth + 1) :
    s.branch k w p q taken tgt = s1.takeTrap k p.id { cause := 0x04, mask := p.mask, addr := 0 } := by
  simp only [State.branch, hall, hnone, hrec, fetchEntry_of_admits hf ha, hroom, hfull, ↓reduceIte]
  rfl

/-- A divergence whose three headers are valid (R45, R140). -/
theorem branch_of_divided (hfits : w.depth + 1 ≤ w.slim) {s2 s3 : State} {thw nhw : Word128}
    (hf2 : s1.fetchHeader (keyCore k) tgt false = (s2, .ok thw)) (ha2 : Claim.admits s1 w thw)
    (hf3 : s2.fetchHeader (keyCore k) p.nextVa false = (s3, .ok nhw)) (ha3 : Claim.admits s2 w nhw) :
    s.branch k w p q taken tgt = s3.settleWarp k
      (w.diverge p taken (some (p.hdr + (Header.ofSlot p.hw).reconv.signExtend 64 * 16, jhw)) tgt thw p.nextVa nhw) := by
  simp only [State.branch, hall, hnone, hrec, fetchEntry_of_admits hf ha, hroom, Nat.not_lt.mpr hfits,
    fetchEntry_of_admits hf2 ha2, fetchEntry_of_admits hf3 ha3, ↓reduceIte]

end branch

/-- Settles O27: the record, the two splits and the trap of an IF that divides its split. -/
theorem divergenceMakesTwoSplits : Obligations.DivergenceMakesTwoSplits := by
  intro s s1 s2 s3 k pid i t w p jhw thw nhw hw hp hstop hst hroom hsound R join tgt past taken hnone hall hR hf ha
  have htaken : w.takes p i false = taken := by
    refine congrArg Mask.ofPred (funext fun u => ?_)
    rw [Bool.bne_false]
    rfl
  have hid : p.id = pid := splitAt_id hp
  have hjoin : p.hdr + (Header.ofSlot p.hw).reconv.signExtend 64 * 16 = join := by
    rw [BitVec.mul_comm]
    rfl
  have hact : s.seqAct k pid (.ifT i t) = s.branch k (w.putSplit p) p (.ifT i t) taken tgt := by
    rw [seqAct_ifT hw hp hstop hsound, htaken, target_eq]
  have hroom' : (w.putSplit p).splits.length < 4 := by rwa [splits_length_putSplit]
  rw [← hjoin] at hf
  refine ⟨fun hfull => ?_, fun hfits hf2 ha2 hf3 ha3 htgt hpast => ?_⟩
  · rw [hact, branch_of_full hall hnone hR hroom' hf ha hfull, hid]
  · have h1 : s1.tables = s.tables := fetched_tables hf
    have h2 : s2.tables = s.tables := (fetched_tables hf2).trans h1
    have hp' : (w.putSplit p).splitAt p.id = some p := splitAt_putSplit_same (by rw [hid]; exact hp)
    rw [branch_of_divided hall hnone hR hroom' hf ha hfits hf2 (admits_of_tables h1 ha2) (by rw [nextVa_eq]; exact hf3)
      (admits_of_tables h2 ha3), hjoin, nextVa_eq] at hact
    obtain ⟨hun, hn, hg, hf'⟩ :=
      diverge_parts (taken := taken) (jhw := jhw) (thw := thw) (nhw := nhw) hp' hst hroom' htgt hpast
    obtain ⟨hregs, hex, -, -⟩ := sameRegs_of_unsequenced hun
    rw [settleWarp_of_live s3 k (List.ne_nil_of_mem hf')] at hact
    refine ⟨_, _, _, hact, hregs, hex, hn, rfl, rfl, rfl, rfl, ?_, hf', rfl, rfl, rfl, rfl, rfl, rfl⟩
    rw [← hid, hg]
    simp only [Split.entered, Split.forkTaken, hstop]
    rfl

end Sys2Proof.Machine
end

section
/-! PROOFS. YIELD and the coalescing window (R48, R195, R237). -/

namespace Sys2Proof.Machine

theorem exec_yieldW (x : Ctl) (o : Slots) (s : State) : exec (.yieldW x o) s = execYield x o s := rfl

theorem exec_coalescingWindowClose (core lane slot line : Nat) (store : Bool) (s : State) :
    exec (.coalescingWindowClose core lane slot line store) s = execCoalescingWindowClose core lane slot line store s := rfl

/-- The ready splits of a split's lane that have not yielded, without the split itself (R48). -/
def State.yieldsTo (s : State) (k pid : Nat) : List (Nat × Split) :=
  (s.laneReady (keyCore k) (keyLane k)).filter (fun e => !(e.1 = keySlot k && e.2.id = pid) && e.2.yieldFor.isEmpty)

theorem mem_yieldsTo {s : State} {k pid slot : Nat} {q : Split} :
    (slot, q) ∈ s.yieldsTo k pid ↔ (slot, q) ∈ s.laneReady (keyCore k) (keyLane k) ∧
      ¬ (slot = keySlot k ∧ q.id = pid) ∧ q.yieldFor = [] := by
  simp only [State.yieldsTo, List.mem_filter, Bool.and_eq_true, Bool.not_eq_true', Bool.and_eq_false_imp,
    decide_eq_true_eq, decide_eq_false_iff_not, List.isEmpty_iff, not_and]

theorem applyYield_of_split {s : State} {k pid : Nat} {w : Warp} {p : Split} (hw : s.warpAt k = some w)
    (hp : w.splitAt pid = some p) :
    s.applyYield k pid = s.putWarp k (w.putSplit { p with
      yieldFor := (s.yieldsTo k pid).map (fun e => splitName e.1 e.2.id) }) := by
  simp only [State.applyYield, hw, hp]
  rfl

/-- YIELD of a split that stands ready (R237). -/
theorem execYield_of_ready {s : State} {c : WCtx} {w : Warp} {p : Split} {x : Ctl} {o : Slots}
    {ports : List (Port × Word)} {pv : Pops} (h : Ready s c w p x o [] ports pv) :
    let w0 : Warp := { w with ports := ports }
    let s0 := s.putWarp c.key w0
    execYield x o s = .next ((s0.putWarp c.key (w0.putSplit { p with
      yieldFor := (s0.yieldsTo c.key p.id).map (fun e => splitName e.1 e.2.id) })).seqAct c.key p.id x.seq) := by
  intro w0 s0
  obtain ⟨-, hp, -⟩ := context_spec h.issuer
  have hp0 : w0.splitAt p.id = some p := hp
  exact (splitWord_next h {} _).trans
    (congrArg (fun t => Host.Outcome.next (State.seqAct t c.key p.id x.seq))
      (applyYield_of_split (s := s0) (warpAt_putWarp_same ..) hp0))

theorem execCoalescingWindowClose_of_open {s : State} {core lane slot line : Nat} {store : Bool} {w : Warp}
    (hw : s.warpAt (warpKey core lane slot) = some w) (h : (line, store) ∈ w.windows) :
    execCoalescingWindowClose core lane slot line store s = .next (s.putWarp (warpKey core lane slot)
      { w with windows := w.windows.filter (fun e => e ≠ (line, store)) }) := by
  simp only [execCoalescingWindowClose, hw, List.contains_iff_mem.mpr h, ↓reduceIte]

theorem execCoalescingWindowClose_of_closed {s : State} {core lane slot line : Nat} {store : Bool} {w : Warp}
    (hw : s.warpAt (warpKey core lane slot) = some w) (h : (line, store) ∉ w.windows) :
    execCoalescingWindowClose core lane slot line store s = .next s := by
  have e : w.windows.contains (line, store) = false := by simpa using h
  simp only [execCoalescingWindowClose, hw, e, Bool.false_eq_true, ↓reduceIte]

/-- Settles O23: what YIELD notes, and what the close of a window removes. -/
theorem yieldAndWindowClose : Obligations.YieldAndWindowClose := by
  constructor
  · intro s c w p x o ports pv h w0 s0
    refine ⟨(s0.yieldsTo c.key p.id).map (fun e => splitName e.1 e.2.id),
      (exec_yieldW x o s).trans (execYield_of_ready h), fun n => ?_⟩
    rw [List.mem_map]
    constructor
    · rintro ⟨⟨slot, q⟩, hmem, hname⟩
      obtain ⟨hready, hother, hnot⟩ := mem_yieldsTo.mp hmem
      exact ⟨slot, q, hready, hother, hnot, hname.symm⟩
    · rintro ⟨slot, q, hready, hother, hnot, hname⟩
      exact ⟨(slot, q), mem_yieldsTo.mpr ⟨hready, hother, hnot⟩, hname.symm⟩
  · intro s core lane slot line store w hw
    rw [exec_coalescingWindowClose]
    refine ⟨execCoalescingWindowClose_of_closed hw, fun h => ⟨_, execCoalescingWindowClose_of_open hw h, fun e => ?_⟩⟩
    simp

end Sys2Proof.Machine
end

section
/-! PROOFS. Launches: guard, admission, the end of a block and of a launch (R33, R36, R39, R42, R43, R356). -/

namespace Sys2Proof.Machine

theorem exec_guardRead (lid : Nat) (s : State) : exec (.guardRead lid) s = execGuardRead lid s := rfl

theorem exec_blockAdmission (lid core : Nat) (s : State) :
    exec (.blockAdmission lid core) s = execBlockAdmission lid core s := rfl

theorem exec_blockEnd (b : Nat) (s : State) : exec (.blockEnd b) s = execBlockEnd b s := rfl

/-! ## Accesses of the device leave what is resident -/

theorem devWrite_tables (s : State) (va : Word) (bs : List Byte) : (s.devWrite va bs).1.tables = s.tables := by
  have e := translateRun_tables s s.devCore .write va bs.length
  unfold State.devWrite
  split
  · next h => rw [h] at e; exact e
  · next h => rw [h] at e; exact (syncWriteAt_tables ..).trans e

theorem writeStatus_tables (s : State) (lstat : Word) (code detail : Nat) :
    (s.writeStatus lstat code detail).tables = s.tables := by
  unfold State.writeStatus
  exact ite_tables rfl (devWrite_tables ..)

theorem publishAll_tables (s : State) (lid : Nat) : (s.publishAll lid).tables = s.tables := by
  unfold State.publishAll
  refine (foldl_tables ?_ _ _).trans (foldl_tables ?_ _ s)
  · exact fun t d => drain_tables ..
  · exact fun t c => publish_tables ..

/-! ## A warp at its start (R42, R145, R150) -/

/-- A table made of a list of keys. -/
theorem get_map_keys {α : Type} (d : α) (f : Nat → α) (a : Nat) (l : List Nat) :
    Sparse.get d (l.map (fun t => (t, f t))) a = if a ∈ l then f a else d := by
  induction l with
  | nil => rfl
  | cons t l ih =>
    rw [List.map_cons, Sparse.get_cons, ih]
    by_cases e : a = t
    · simp [e]
    · simp [e]

theorem newWarp_startsClean (s : State) (k blk wid : Nat) (bid : BitVec 32) (entry : Word) (hw : Word128) (exited : Mask)
    (d weight : Sparse Word) : Claim.startsClean s k blk wid bid entry hw exited d weight := by
  unfold Claim.startsClean
  extract_lets w frame
  refine ⟨rfl, rfl, rfl, rfl, rfl, rfl, fun i t => ⟨rfl, rfl, rfl, ?_, ?_, rfl, rfl⟩, fun hfits => ⟨?_, ?_⟩, fun t ht => ?_,
    _, rfl, rfl, rfl, rfl, rfl, rfl, rfl⟩
  · simp [w, State.newWarp, Warp.pGet]
  · simp [w, State.newWarp, Warp.qGet]
  · exact congrArg (BitVec.ofNat 64) (if_pos hfits)
  · exact congrArg (!·) (decide_eq_true hfits)
  · refine (get_map_keys 0 _ t (List.range 32)).trans ?_
    rw [if_pos (List.mem_range.mpr ht)]
    rfl

/-! ## The guard (R33) -/

/-- The blocks of an AFFINITY launch are dispatched in the order of their numbers (R39). -/
theorem dispatch_fst (l : Launch) : ∀ (bs : List Nat) (s : State), (s.dispatch l bs).2.map Prod.fst = bs
  | [], _ => rfl
  | b :: bs, _ => congrArg (b :: ·) (dispatch_fst l bs _)

section guard
variable {s : State} {lid : Nat} {l : Launch} (hl : s.launchAt lid = some l)
include hl

theorem execGuardRead_of_early (h : s.time.toNat < l.start.toNat) : execGuardRead lid s = .next s := by
  simp only [execGuardRead, hl, h, decide_true, Bool.or_true, ↓reduceIte]

variable (hst : l.st = .accepted) (hdue : l.start.toNat ≤ s.time.toNat)
include hst hdue

theorem execGuardRead_of_none (hg : l.guard = 0) (hk : l.kind ≠ 1) :
    execGuardRead lid s = .next (s.putLaunch lid { l with st := .running, bound := none, toAdmit := rectBlocks l }) := by
  simp only [execGuardRead, hl, hst, Nat.not_lt.mpr hdue, hg, hk, ne_eq, not_true_eq_false, decide_false, Bool.or_self,
    Bool.false_eq_true, ↓reduceIte]
  rfl

theorem execGuardRead_of_affinity (hg : l.guard = 0) (hk : l.kind = 1) :
    let l1 : Launch := { l with st := .running, bound := none }
    let r := s.dispatch l1 (List.range l.nblocks)
    execGuardRead lid s = .next (r.1.putLaunch lid { l1 with toAdmit := r.2 }) := by
  simp only [execGuardRead, hl, hst, Nat.not_lt.mpr hdue, hg, hk, ne_eq, not_true_eq_false, decide_false, Bool.or_self,
    Bool.false_eq_true, ↓reduceIte]

theorem execGuardRead_of_misaligned (hg : l.guard.toNat % 4 ≠ 0) :
    execGuardRead lid s = .next (s.dropUnstarted lid 0x04) := by
  have hg0 : l.guard ≠ 0 := fun e => hg (by rw [e]; rfl)
  simp only [execGuardRead, hl, hst, Nat.not_lt.mpr hdue, hg0, hg, ne_eq, not_true_eq_false, not_false_eq_true, decide_false,
    Bool.or_self, Bool.false_eq_true, ↓reduceIte]
  rfl

section word
variable {s1 : State} {bs : List Byte} (hg : l.guard ≠ 0) (ha : l.guard.toNat % 4 = 0)
  (hread : s.devRead .read l.guard 4 = (s1, some bs))
include hg ha hread

theorem execGuardRead_of_zero (hz : leNat bs = 0) : execGuardRead lid s = .next (s1.dropUnstarted lid 0x03) := by
  simp only [execGuardRead, hl, hst, Nat.not_lt.mpr hdue, hg, ha, hread, hz, ne_eq, not_true_eq_false, decide_false,
    Bool.or_self, Bool.false_eq_true, ↓reduceIte]
  rfl

theorem execGuardRead_of_bound (hz : leNat bs ≠ 0) (hk : l.kind ≠ 1) :
    execGuardRead lid s = .next
      (s1.putLaunch lid { l with st := .running, bound := some (leNat bs), toAdmit := rectBlocks l }) := by
  obtain ⟨n, hn⟩ := Nat.exists_eq_succ_of_ne_zero hz
  rw [hn]
  simp only [execGuardRead, hl, hst, Nat.not_lt.mpr hdue, hg, ha, hread, hn, hk, ne_eq, not_true_eq_false, decide_false,
    Bool.or_self, Bool.false_eq_true, ↓reduceIte]
  rfl

end word

end guard

/-! ## Admission (R34, R36, R39, R42) -/

theorem startWarps_blocks (c blk : Nat) (bid : BitVec 32) (l : Launch) (wids : List Nat) :
    ∀ s : State, (s.startWarps c blk bid l wids).blocks = s.blocks := by
  induction wids with
  | nil => exact fun _ => rfl
  | cons wid wids ih =>
    intro s
    unfold State.startWarps
    split
    · rfl
    · exact (ih _).trans ((blocks_of_tables (acquire_tables ..)).trans rfl)

/-- The block that an admission makes. -/
def Launch.admitted (lid : Nat) (l : Launch) (b : Nat × Nat) : Block :=
  newBlock lid b.2 (if l.kind = 1 then (0, 0) else (b.1 / l.bpc % l.tw, b.1 / l.bpc / l.tw))
    (if l.kind = 1 then 0 else b.1 % l.bpc) (BitVec.ofNat 32 b.1) l.ehw

theorem admitBlock_blocks (s : State) (lid : Nat) (l : Launch) (b : Nat × Nat) :
    (s.admitBlock lid l b).blocks = Sparse.put s.blocks s.nextUid (some (Launch.admitted lid l b)) := by
  unfold State.admitBlock
  dsimp only [State.fresh]
  split
  · split <;> rfl
  · rw [startWarps_blocks]
    split <;> rfl

theorem blockAt_admitBlock (s : State) (lid : Nat) (l : Launch) (b : Nat × Nat) :
    (s.admitBlock lid l b).blockAt s.nextUid = some (Launch.admitted lid l b) := by
  rw [State.blockAt, admitBlock_blocks, Sparse.get_put_same]

theorem execBlockAdmission_of_checkpoint {s : State} (lid core : Nat) (h : s.power.ckst = 3) :
    execBlockAdmission lid core s = .next s := by
  unfold execBlockAdmission
  split
  · rfl
  · simp only [h, decide_true, Bool.or_true, ↓reduceIte]

section admission
variable {s : State} {lid core : Nat} {l : Launch} (hl : s.launchAt lid = some l) (hst : l.st = .running)
  (hck : s.power.ckst ≠ 3)
include hl hst hck

theorem execBlockAdmission_of_affinity (hk : l.kind = 1) {b : Nat × Nat}
    (hb : l.toAdmit.find? (fun y => y.2 = core) = some b) (hon : s.coreOn core = true)
    (hwaits : s.waitsOn lid l core = true) (hfirst : s.firstOn lid l core = true)
    (hroom : s.roomFor core l.part l.warps 1 lid = true) :
    execBlockAdmission lid core s =
      .next ((s.putLaunch lid { l with toAdmit := l.toAdmit.filter (fun z => z ≠ b) }).admitBlock lid l b) := by
  have hne : l.toAdmit ≠ [] := List.ne_nil_of_mem (List.mem_of_find?_eq_some hb)
  simp only [execBlockAdmission, hl, hst, hck, hk, hne, hb, hon, hwaits, hfirst, hroom, ne_eq, not_true_eq_false, decide_false,
    Bool.or_self, Bool.and_self, Bool.false_eq_true, ↓reduceIte]

theorem execBlockAdmission_of_rect (hk : l.kind = 0) (hne : l.toAdmit ≠ [])
    (hcores : ∀ y, y ∈ rectCores l.origin.1 l.origin.2 l.tw l.th →
      s.coreOn y = true ∧ s.firstOn lid l y = true ∧ s.roomFor y l.part l.warps l.bpc lid = true) :
    execBlockAdmission lid core s =
      .next (l.toAdmit.foldl (fun st b => st.admitBlock lid l b) (s.putLaunch lid { l with toAdmit := [] })) := by
  have hall : (rectCores l.origin.1 l.origin.2 l.tw l.th).all
      (fun c => s.coreOn c && s.firstOn lid l c && s.roomFor c l.part l.warps l.bpc lid) = true := by
    rw [List.all_eq_true]
    intro y hy
    obtain ⟨hon, hfirst, hroom⟩ := hcores y hy
    rw [hon, hfirst, hroom]
    rfl
  simp only [execBlockAdmission, hl, hst, hck, hk, hne, hall, ne_eq, not_true_eq_false, decide_false, Bool.or_self,
    Bool.false_eq_true, zero_ne_one, OfNat.zero_ne_ofNat, ↓reduceIte]

end admission

/-! ## The end of a block, and of a launch (R43) -/

theorem releaseEngine_tables (s : State) (c lid : Nat) : (s.releaseEngine c lid).tables = s.tables := by
  unfold State.releaseEngine
  exact ite_tables rfl rfl

theorem blockAt_removeBlock (s : State) (b i : Nat) :
    (s.removeBlock b).blockAt i = if i = b then none else s.blockAt i := by
  unfold State.removeBlock
  split
  · next h =>
    by_cases e : i = b
    · rw [if_pos e, e, h]
    · rw [if_neg e]
  · extract_lets s1 keys ws
    have e : s1.blocks = s.blocks := by
      refine foldl_keeps State.blocks ?_ _ s
      intros
      rfl
    rw [blockAt_of_tables (releaseEngine_tables ..)]
    show Sparse.get none (Sparse.erase s1.blocks b) i = _
    rw [e, Sparse.get_erase]
    rfl

theorem blockAt_removeBlocks (i : Nat) (bs : List Nat) :
    ∀ s : State, (bs.foldl (fun st b => st.removeBlock b) s).blockAt i = if i ∈ bs then none else s.blockAt i := by
  induction bs with
  | nil => exact fun _ => rfl
  | cons b bs ih =>
    intro s
    rw [List.foldl_cons, ih, blockAt_removeBlock]
    by_cases e : i = b
    · simp [e]
    · simp [e]

section ended
variable {s : State} {lid : Nat} {l : Launch} (hl : s.launchAt lid = some l) (code : Nat)
include hl

theorem launchAt_endLaunch : (s.endLaunch lid code).launchAt lid = none := by
  simp only [State.endLaunch, hl, launchAt_dropLaunch_same]

/-- The end of a launch takes its blocks, and no other (R43, R55). -/
theorem blockAt_endLaunch (b : Nat) :
    (s.endLaunch lid code).blockAt b = if b ∈ (s.launchBlocks lid).map Prod.fst then none else s.blockAt b := by
  simp only [State.endLaunch, hl]
  refine Eq.trans ?_ (blockAt_removeBlocks b ((s.launchBlocks lid).map Prod.fst) { s with
    cmds := s.cmds.filter (fun c => !((s.launchBlocks lid).map Prod.fst).contains c.blk) })
  exact blockAt_of_tables ((writeStatus_tables ..).trans (publishAll_tables ..)) b

end ended

theorem mem_launchBlocks {s : State} {lid b : Nat} :
    b ∈ (s.launchBlocks lid).map Prod.fst ↔ ∃ x : Block, (b, some x) ∈ s.blocks ∧ x.launch = lid := by
  simp only [State.launchBlocks, List.mem_map, List.mem_filterMap, Prod.exists]
  constructor
  · rintro ⟨b', x, ⟨i, y, hmem, hy⟩, rfl⟩
    cases y with
    | none => cases hy
    | some y =>
      dsimp only at hy
      split at hy
      · next h =>
        cases hy
        exact ⟨x, hmem, h⟩
      · cases hy
  · rintro ⟨x, hmem, hx⟩
    exact ⟨b, x, ⟨b, some x, hmem, by simp [hx]⟩, rfl⟩

theorem mem_of_get {α : Type} {l : Sparse (Option α)} {a : Nat} {x : α} (h : Sparse.get none l a = some x) :
    (a, some x) ∈ l := by
  induction l with
  | nil => cases h
  | cons e l ih =>
    obtain ⟨k, v⟩ := e
    rw [Sparse.get_cons] at h
    split at h
    · next e =>
      rw [e, h]
      exact List.mem_cons_self
    · exact List.mem_cons_of_mem _ (ih h)

theorem launch_ne_of_blockAt_endLaunch {s : State} {lid : Nat} {l : Launch} (hl : s.launchAt lid = some l) {code b : Nat}
    {x : Block} (h : (s.endLaunch lid code).blockAt b = some x) : x.launch ≠ lid := by
  rw [blockAt_endLaunch hl] at h
  split at h
  · cases h
  · next hb => exact fun e => hb (mem_launchBlocks.mpr ⟨x, mem_of_get h, e⟩)

theorem blockAt_endLaunch_of_other {s : State} {lid : Nat} {l : Launch} (hl : s.launchAt lid = some l) (code : Nat)
    (hnodup : (s.blocks.map Prod.fst).Nodup) {b : Nat} {x : Block} (hb : s.blockAt b = some x) (hx : x.launch ≠ lid) :
    (s.endLaunch lid code).blockAt b = some x := by
  rw [blockAt_endLaunch hl, if_neg, hb]
  intro hmem
  obtain ⟨y, hy, hlid⟩ := mem_launchBlocks.mp hmem
  have e : (b, some x) = (b, some y) := List.inj_on_of_nodup_map hnodup (mem_of_get hb) hy rfl
  cases e
  exact hx hlid

/-- A block that nothing holds any more ends, and the last one of a launch that has none to admit ends the launch (R43). -/
theorem execBlockEnd_of_idle {s : State} {b : Nat} {x : Block} {l : Launch} (hb : s.blockAt b = some x)
    (hl : s.launchAt x.launch = some l) (hk : l.kind ≠ 2) (hws : s.blockWarps b = []) (hcmds : ∀ c ∈ s.cmds, c.blk ≠ b)
    (hforms : ∀ f ∈ (s.coreAt x.core).matrix.forms, f.blk ≠ b) :
    let t := s.removeBlock b
    execBlockEnd b s = .next
      (if l.toAdmit = [] ∧ t.launchBlocks x.launch = [] ∧ (∀ v ∈ t.saved, v.alive = true → v.blk.launch ≠ x.launch)
        then t.endLaunch x.launch 0x02 else t) := by
  intro t
  have hc : s.cmds.any (fun c => decide (c.blk = b)) = false := by simpa using hcmds
  have hf : (s.coreAt x.core).matrix.forms.any (fun f => decide (f.blk = b)) = false := by simpa using hforms
  have hsaved : (!t.saved.any (fun v => v.alive && decide (v.blk.launch = x.launch))) =
      decide (∀ v ∈ t.saved, v.alive = true → v.blk.launch ≠ x.launch) := by
    rw [Bool.eq_iff_iff]
    simp
  simp only [execBlockEnd, hb, hl, hk, hws, hc, hf, ne_eq, not_true_eq_false, decide_false, Bool.or_self,
    Bool.false_eq_true, ↓reduceIte]
  rw [hsaved]
  simp only [Bool.and_eq_true, decide_eq_true_eq, and_assoc]
  rfl

/-- Settles O43, clause by clause. -/
theorem launchesAreGuardedAdmittedAndEnd : Obligations.LaunchesAreGuardedAdmittedAndEnd := by
  unfold Obligations.LaunchesAreGuardedAdmittedAndEnd
  simp only [exec_guardRead, exec_blockAdmission, exec_blockEnd]
  refine ⟨newWarp_startsClean, fun s lid l hl hst => ⟨execGuardRead_of_early hl, fun hdue => ⟨?_, ?_, ?_, ?_⟩⟩,
    fun s lid core => execBlockAdmission_of_checkpoint lid core, fun s lid core l hl hst hck => ⟨?_, ?_⟩,
    fun s b x l hb hl hk hws hcmds hforms => ⟨?_, execBlockEnd_of_idle hb hl hk hws hcmds hforms⟩,
    fun s lid code l hl => ⟨launchAt_endLaunch hl code, fun b x => launch_ne_of_blockAt_endLaunch hl,
      fun hnodup b x => blockAt_endLaunch_of_other hl code hnodup⟩⟩
  · exact execGuardRead_of_none hl hst hdue
  · exact fun hg hk => ⟨_, _, execGuardRead_of_affinity hl hst hdue hg hk, launchAt_putLaunch_same .., rfl, dispatch_fst ..⟩
  · exact fun hg ha s1 bs hread =>
      ⟨execGuardRead_of_zero hl hst hdue hg ha hread, execGuardRead_of_bound hl hst hdue hg ha hread⟩
  · exact execGuardRead_of_misaligned hl hst hdue
  · intro hk b hb hon hwaits hfirst hroom
    have hcore : b.2 = core := by simpa using List.find?_some hb
    exact ⟨_, _, execBlockAdmission_of_affinity hl hst hck hk hb hon hwaits hfirst hroom, rfl, blockAt_admitBlock .., rfl,
      hcore, rfl, rfl⟩
  · exact execBlockAdmission_of_rect hl hst hck
  · rw [blockAt_removeBlock, if_pos rfl]

end Sys2Proof.Machine
end

section
/-! PROOFS. Stages: the packer, the start of a formed warp, and termination (R52-R55). -/

namespace Sys2Proof.Machine

theorem exec_packerTimeout (lid stage : Nat) (s : State) :
    exec (.packerTimeout lid stage) s = execPackerTimeout lid stage s := rfl

theorem exec_formedWarpStart (lid b : Nat) (s : State) :
    exec (.formedWarpStart lid b) s = execFormedWarpStart lid b s := rfl

theorem exec_terminationRound (lid : Nat) (s : State) : exec (.terminationRound lid) s = execTerminationRound lid s := rfl

/-! ## The packer (R52) -/

theorem execPackerTimeout_of_loose {s : State} {lid stage : Nat} {l : Launch} {g : Stage} {at_ hdr : Word}
    {rest : List (Word × Word)} (hl : s.launchAt lid = some l) (hg : l.stages[stage]? = some g)
    (hloose : g.items.drop (g.formed.foldl (· + ·) 0) = (at_, hdr) :: rest) :
    execPackerTimeout lid stage s = .next
      (if at_.toNat + g.ptime ≤ s.time.toNat then
        s.putLaunch lid { l with stages := l.stages.set stage { g with formed := g.formed ++ [rest.length + 1] } } else s) := by
  simp only [execPackerTimeout, hl, hg, hloose, List.length_cons]

/-! ## Tables filled by a fold -/

/-- A table after a fold whose every step writes `x` at `a` or leaves the value there. -/
theorem get_foldl_writes {α ι : Type} {d x : α} {a : Nat} {f : Sparse α → ι → Sparse α} {hits : ι → Bool} :
    ∀ {l : List ι} (acc : Sparse α),
      (∀ i ∈ l, ∀ acc, Sparse.get d (f acc i) a = if hits i then x else Sparse.get d acc a) →
      Sparse.get d (l.foldl f acc) a = if l.any hits then x else Sparse.get d acc a
  | [], _, _ => rfl
  | i :: l, acc, h => by
    rw [List.foldl_cons, get_foldl_writes (f acc i) (fun j hj => h j (List.mem_cons_of_mem _ hj)), List.any_cons,
      h i List.mem_cons_self]
    cases hits i <;> cases l.any hits <;> rfl

/-- The registers that items fill: word `j` of thread `t`'s item in register `j` of the thread (R52). -/
theorem get_itemRegs (v : Nat → Nat → Word) {m n i u : Nat} (hn : n ≤ 32) (hi : i < m) (hu : u < n) :
    Sparse.get 0 ((List.range m).foldl (fun acc j =>
      (List.range n).foldl (fun a t => Sparse.set 0 a (32 * j + t) (v j t)) acc) []) (32 * i + u) = v i u := by
  have hrow : ∀ j acc, Sparse.get 0 ((List.range n).foldl (fun a t => Sparse.set 0 a (32 * j + t) (v j t)) acc) (32 * i + u) =
      if (List.range n).any (fun t => 32 * j + t = 32 * i + u) then v i u else Sparse.get 0 acc (32 * i + u) := by
    intro j acc
    refine get_foldl_writes acc fun t ht a => ?_
    rw [Sparse.get_set]
    have ht' : t < n := List.mem_range.mp ht
    by_cases e : 32 * j + t = 32 * i + u
    · obtain ⟨rfl, rfl⟩ : j = i ∧ t = u := by omega
      simp
    · simp [e, Ne.symm e]
  rw [get_foldl_writes (hits := fun j => (List.range n).any (fun t => 32 * j + t = 32 * i + u)) [] (fun j _ acc => hrow j acc),
    if_pos]
  exact List.any_eq_true.mpr ⟨i, List.mem_range.mpr hi, List.any_eq_true.mpr ⟨u, List.mem_range.mpr hu, by simp⟩⟩

/-- A table that gives each thread a value. -/
theorem get_threadTable (v : Nat → Word) {u : Nat} (hu : u < 32) :
    Sparse.get 0 ((List.range 32).foldl (fun a t => Sparse.set 0 a t (v t)) []) u = v u := by
  rw [get_foldl_writes (x := v u) (hits := fun t => t = u) [] fun t _ a => ?_, if_pos]
  · exact List.any_eq_true.mpr ⟨u, List.mem_range.mpr hu, by simp⟩
  · rw [Sparse.get_set]
    by_cases e : u = t
    · simp [e]
    · simp [e, Ne.symm e]

/-! ## The start of a formed warp (R52) -/

/-- As many items are read as were asked for. -/
theorem readItems_length {g : Stage} : ∀ {is : List Nat} {s s1 : State} {items : List (List Word × Word)},
    s.readItems g is = (s1, some items) → items.length = is.length
  | [], _, _, _, h => by
    cases h
    rfl
  | i :: is, s, s1, items, h => by
    unfold State.readItems at h
    split at h
    · cases h
    · split at h
      · cases h
      · next hrest =>
        cases h
        rw [List.length_cons, readItems_length hrest, List.length_cons]

/-- The registers of a formed warp's items of `m` words each. -/
def itemRegs (items : List (List Word × Word)) (m n : Nat) : Sparse Word :=
  (List.range m).foldl (fun acc j =>
    (List.range n).foldl (fun a t => Sparse.set 0 a (32 * j + t) ((items.getD t ([], 0)).1.getD j 0)) acc) []

/-- The weights of a formed warp's threads: those of the items, and none that counts past them. -/
def itemWeights (items : List (List Word × Word)) : Sparse Word :=
  (List.range 32).foldl (fun a t =>
    Sparse.set 0 a t (match items[t]? with | some it => it.2 | none => BitVec.ofNat 64 (2 ^ 33))) []

theorem get_itemWeights {items : List (List Word × Word)} {u : Nat} (hu : u < items.length) (h32 : u < 32) :
    Sparse.get 0 (itemWeights items) u = (items.getD u ([], 0)).2 := by
  unfold itemWeights
  rw [get_threadTable _ h32, List.getD_eq_getElem?_getD, List.getElem?_eq_getElem hu]
  rfl

/-- The stage once a formed warp of `n` items has started. -/
def Stage.started (g : Stage) (n : Nat) (rest : List Nat) : Stage :=
  { g with head := g.head + n, items := g.items.drop n, formed := rest }

/-- The launch once a formed warp of stage `i` has started: the tags of its items are dirty (R54). -/
def Launch.started (l : Launch) (i : Nat) (g : Stage) (items : List (List Word × Word)) : Launch :=
  { l with stages := l.stages.set i g, term := l.term.soil (items.filterMap (fun it => tagOf it.2)) }

theorem execFormedWarpStart_of_formed {s s1 : State} {lid b wid i k n : Nat} {l : Launch} {x : Block} {g : Stage}
    {rest : List Nat} {items : List (List Word × Word)} (hl : s.launchAt lid = some l) (hb : s.blockAt b = some x)
    (hlid : x.launch = lid) (hk : l.kind = 2) (hgo : s.stopping b = false)
    (hwid : (List.range l.warps).find? (fun j => !((s.blockWarps b).map (fun e => e.2.wid)).contains j) = some wid)
    (hstage : nextStage l.stages = some i) (hslot : s.freeSlot x.core = some k) (hg : l.stages[i]? = some g)
    (hformed : g.formed = n :: rest) (hread : s.readItems g (List.range n) = (s1, some items)) :
    let s2 := s1.putLaunch lid (l.started i (g.started n rest) items)
    execFormedWarpStart lid b s = .next ((s2.putWarp k (s2.newWarp k b wid x.bid g.sentry g.ehw (Mask.ofPred (fun t => n ≤ t))
      (itemRegs items (g.isize / 8) n) (itemWeights items))).acquire x.core (some l) .package) := by
  simp only [execFormedWarpStart, hl, hb, hlid, hk, hgo, hwid, hstage, hslot, hg, hformed, hread, ne_eq, not_true_eq_false,
    decide_false, Bool.or_self, Bool.false_eq_true, ↓reduceIte]
  rfl

/-! ## Termination (R54, R55) -/

section termination
variable {s : State} {lid : Nat} {l : Launch} (hl : s.launchAt lid = some l)
include hl

theorem execTerminationRound_of_held (hheld : s.tagCount lid l l.term.cur ≠ 0) : execTerminationRound lid s = .next s := by
  simp only [execTerminationRound, hl, hheld, ne_eq, not_false_eq_true, decide_true, Bool.or_true, ↓reduceIte]

theorem execTerminationRound_of_zero (hk : l.kind = 2) (hst : l.st = .running) (hadm : l.toAdmit = [])
    (hzero : s.tagCount lid l l.term.cur = 0) {s1 : State} {bs : List Byte}
    (hread : s.devRead .read l.wword 8 = (s1, some bs)) :
    let clean := decide (l.term.cur ∉ l.term.dirty)
    let streak := if clean then l.term.streak + 1 else 0
    execTerminationRound lid s = .next
      (if 2 ≤ streak ∧ leNat bs = 2 ^ 32 then s1.endLaunch lid 0x02
       else s1.putLaunch lid { l with
         term := { cur := 1 - l.term.cur, streak := streak, dirty := l.term.dirty.filter (· ≠ l.term.cur) } }) := by
  have hclean : (!l.term.dirty.contains l.term.cur) = decide (l.term.cur ∉ l.term.dirty) := by
    rw [List.contains_eq_mem, decide_not]
  simp only [execTerminationRound, hl, hk, hst, hadm, hzero, hread, hclean, ne_eq, not_true_eq_false, decide_false,
    Bool.or_self, Bool.false_eq_true, ↓reduceIte, Bool.and_eq_true, decide_eq_true_eq]
  rfl

end termination

/-- Settles O44, clause by clause. -/
theorem stagesFormWarpsAndTerminate : Obligations.StagesFormWarpsAndTerminate := by
  unfold Obligations.StagesFormWarpsAndTerminate
  simp only [exec_packerTimeout, exec_formedWarpStart, exec_terminationRound]
  refine ⟨fun s lid stage l g at_ hdr rest => execPackerTimeout_of_loose, ?_,
    fun s s1 lid l bs hl hk hst hadm => ⟨execTerminationRound_of_held hl,
      fun hzero hread => execTerminationRound_of_zero hl hk hst hadm hzero hread⟩⟩
  intro s s1 lid b wid i k n l x g rest items hl hb hlid hk hgo hwid hstage hslot hg hformed hn hread
  let l' := l.started i (g.started n rest) items
  let s2 := s1.putLaunch lid l'
  let w0 := s2.newWarp k b wid x.bid g.sentry g.ehw (Mask.ofPred (fun t => n ≤ t)) (itemRegs items (g.isize / 8) n)
    (itemWeights items)
  have ht : ((s2.putWarp k w0).acquire x.core (some l) .package).tables = (s2.putWarp k w0).tables := acquire_tables ..
  obtain ⟨hoist, hw⟩ := warpAt_of_slots (slots_of_tables ht) (warpAt_putWarp_same s2 k w0)
  have hlen : items.length = n := by rw [readItems_length hread, List.length_range]
  refine ⟨_, _, execFormedWarpStart_of_formed hl hb hlid hk hgo hwid hstage hslot hg hformed hread, hw, rfl, rfl, rfl,
    fun j u hj hu _ => get_itemRegs _ hn hj hu, fun u hu => get_itemWeights (by omega) (by omega), l', ?_, rfl⟩
  rw [launchAt_of_tables ht]
  exact launchAt_putLaunch_same ..

end Sys2Proof.Machine
end

section
/-! PROOFS. Barriers: BAR of a block of one warp, TBAR of a team of one block (R119, R224, R225). -/

namespace Sys2Proof.Machine

theorem exec_bar (x : Ctl) (op : BarOp) (o : Slots) (s : State) : exec (.bar x op o) s = execBar x op o s := rfl

theorem exec_tbar (x : Ctl) (pass swap : Bool) (o : Slots) (s : State) :
    exec (.tbar x pass swap o) s = execTbar x pass swap o s := rfl

/-! ## The one warp of a block -/

/-- Where a table takes a key does not depend on the value. -/
theorem put_eq_append {α : Type} (k : Nat) : ∀ l : Sparse α,
    ∃ pre post : Sparse α, ∀ v, Sparse.put l k v = pre ++ (k, v) :: post
  | [] => ⟨[], [], fun _ => rfl⟩
  | (j, u) :: l => by
    by_cases e : k = j
    · exact ⟨[], l, fun v => by simp [Sparse.put, e]⟩
    · by_cases hlt : k < j
      · exact ⟨[], (j, u) :: l, fun v => by simp [Sparse.put, e, hlt]⟩
      · obtain ⟨pre, post, h⟩ := put_eq_append k l
        exact ⟨(j, u) :: pre, post, fun v => by simp [Sparse.put, e, hlt, h]⟩

/-- The one warp of a block stays its one warp when it changes. -/
theorem blockWarps_putWarp_of_one {s : State} {k : Nat} {w w' : Warp} (h : (s.putWarp k w).blockWarps w.blk = [(k, w)])
    (hblk : w'.blk = w.blk) : (s.putWarp k w').blockWarps w.blk = [(k, w')] := by
  obtain ⟨pre, post, hput⟩ := put_eq_append k s.warps
  simp only [State.blockWarps, State.putWarp, hput, List.filterMap_append, List.filterMap_cons, ↓reduceIte] at h ⊢
  simp only [hblk, ↓reduceIte]
  have hlen := congrArg List.length h
  simp only [List.length_append, List.length_cons, List.length_nil] at hlen
  rw [List.eq_nil_of_length_eq_zero (l := List.filterMap _ pre) (by omega),
    List.eq_nil_of_length_eq_zero (l := List.filterMap _ post) (by omega)]
  rfl

/-- A split that has been stopped. -/
def Split.stopped (p : Split) (st : Stop) : Split := { p with stop := some st }

theorem putSplit_putSplit (w : Warp) {x y : Split} (h : x.id = y.id) : (w.putSplit x).putSplit y = w.putSplit y := by
  refine congrArg (fun l => { w with splits := l }) ?_
  simp only [Warp.putSplit, putSplit, List.map_map]
  refine List.map_congr_left fun z _ => ?_
  by_cases e : z.id = y.id
  · simp [h, e]
  · simp [h, e]

theorem stopSplit_of_split {s : State} {k pid : Nat} {w : Warp} {p : Split} (hw : s.warpAt k = some w)
    (hp : w.splitAt pid = some p) (st : Stop) :
    s.stopSplit k pid st = s.putWarp k (w.putSplit (p.stopped st)) := by
  simp only [State.stopSplit, hw, hp]
  rfl

theorem blockWarps_of_warps {s t : State} (h : t.warps = s.warps) (blk : Nat) : t.blockWarps blk = s.blockWarps blk := by
  simp only [State.blockWarps, h]

/-- A word that acts has a split with threads. -/
theorem mask_ne_zero_of_active {w : Warp} {p : Split} {x : Ctl} (h : activeMask w p x ≠ 0) : p.mask ≠ 0 := by
  intro e
  refine h (ofPred_has fun t _ => ?_)
  rw [e, Mask.has_zero, Bool.false_and]

/-- A split that holds every thread that has not exited leaves none out. -/
theorem all_arrived {w : Warp} {m : Mask} (h : ∀ t, t < 32 → w.exited.has t = false → m.has t = true) :
    (~~~ w.exited) &&& ~~~ m = 0 := by
  refine mask_ext fun t ht => ?_
  rw [Mask.has_zero, Mask.has, BitVec.getLsbD_and, BitVec.getLsbD_not, BitVec.getLsbD_not]
  cases he : w.exited.getLsbD t with
  | true => simp
  | false =>
    have hm : m.getLsbD t = true := h t ht he
    simp [hm]

/-! ## Arrival and completion at a block barrier (R224) -/

@[simp] theorem barAt_putBar_same (b : Block) (id : Nat) (x : Bar) : (b.putBar id x).barAt id = x :=
  Sparse.get_put_same ..

@[simp] theorem putBar_putBar (b : Block) (id : Nat) (x y : Bar) : (b.putBar id x).putBar id y = b.putBar id y :=
  congrArg (fun l => { b with bars := l }) (put_put ..)

/-- A barrier at which threads of a warp have executed BAR with a count. -/
def Bar.joined (y : Bar) (wid : Nat) (m : Mask) (cnt : Nat) : Bar :=
  { y with parts := Sparse.put y.parts wid (Sparse.get 0 y.parts wid ||| m), want := Sparse.put y.want wid cnt }

/-- Nothing is under way at a barrier. -/
structure Bar.Idle (y : Bar) : Prop where
  count : y.count = none
  arrived : y.arrived = []
  parts : y.parts = []
  want : y.want = []

/-- A barrier at which one warp has arrived. -/
def Bar.first (y : Bar) (wid cnt : Nat) : Bar := { gen := y.gen, count := some cnt, arrived := [wid] }

/-- The next generation of a barrier. -/
def Bar.next (y : Bar) : Bar := { gen := y.gen + 1 }

theorem barArrive_of_idle {y : Bar} (h : y.Idle) (w : Warp) : barArrive y w = y := by
  simp [barArrive, h.parts]

/-- The whole of a warp arrives first. -/
theorem barArrive_joined {y : Bar} (h : y.Idle) {w : Warp} {m : Mask} (hm : m ≠ 0)
    (hall : (~~~ w.exited) &&& ~~~ m = 0) (cnt : Nat) : barArrive (y.joined w.wid m cnt) w = y.first w.wid cnt := by
  have hm' : ¬ m = 0#32 := hm
  simp [barArrive, Bar.joined, h.parts, h.want, h.arrived, h.count, Sparse.put, Sparse.get, Sparse.erase, hm', hall, Bar.first]

section update
variable {s : State} {blk id k : Nat} {w : Warp} {b : Block} (hb : s.blockAt blk = some b)
  (hone : s.blockWarps blk = [(k, w)])
include hb hone

theorem barUpdate_of_idle (h : (b.barAt id).Idle) : s.barUpdate blk id = s := by
  have hc : barComplete (b.barAt id) id [w] = false := by
    unfold barComplete
    rw [h.count]
  simp only [State.barUpdate, hb, hone, List.map_cons, List.map_nil, List.foldl_cons, List.foldl_nil, barArrive_of_idle h,
    hc, Bool.false_eq_true, ↓reduceIte]

variable {y : Bar} (hy : y.Idle) {m : Mask} (hm : m ≠ 0) (hall : (~~~ w.exited) &&& ~~~ m = 0) {cnt : Nat}
  (hbar : b.barAt id = y.joined w.wid m cnt)
include hy hm hall hbar

/-- The last warp that a count asks for completes the generation. -/
theorem barUpdate_of_complete (hcnt : cnt ≤ 1) : s.barUpdate blk id = s.putBlock blk (b.putBar id y.next) := by
  have hc : barComplete (y.first w.wid cnt) id [w] = true := by
    obtain rfl | rfl : cnt = 0 ∨ cnt = 1 := by omega
    · simp [barComplete, Bar.first]
    · simp [barComplete, Bar.first]
  have hne : y.next ≠ y.joined w.wid m cnt := fun e => by
    have hg : y.gen + 1 = y.gen := congrArg Bar.gen e
    omega
  simp only [State.barUpdate, hb, hone, List.map_cons, List.map_nil, List.foldl_cons, List.foldl_nil, hbar,
    barArrive_joined hy hm hall, hc, ↓reduceIte]
  exact if_neg hne

/-- A warp that is not the last one that a count asks for has arrived. -/
theorem barUpdate_of_first (hcnt : 1 < cnt) : s.barUpdate blk id = s.putBlock blk (b.putBar id (y.first w.wid cnt)) := by
  have hc : barComplete (y.first w.wid cnt) id [w] = false := by
    obtain ⟨n, rfl⟩ : ∃ n, cnt = n + 2 := ⟨cnt - 2, by omega⟩
    simp [barComplete, Bar.first]
  have hne : y.first w.wid cnt ≠ y.joined w.wid m cnt := fun e => by
    have ha : [w.wid] = y.arrived := congrArg Bar.arrived e
    rw [hy.arrived] at ha
    cases ha
  simp only [State.barUpdate, hb, hone, List.map_cons, List.map_nil, List.foldl_cons, List.foldl_nil, hbar,
    barArrive_joined hy hm hall, hc, Bool.false_eq_true, ↓reduceIte]
  exact if_neg hne

end update

/-! ## BAR -/

section poll
variable {s0 s : State} {k pid id gen : Nat} {hold : Bool} {pend : Pend} {x : Ctl} {op : BarOp} {w : Warp} {b : Block}
  (hw : s0.warpAt k = some w) (hupd : s0.barUpdate w.blk id = s) (hb : s.blockAt w.blk = some b)
  (hparts : (b.barAt id).parts = [])
include hw hupd hb hparts

theorem barPoll_of_pass (hop : op = .pass) : s0.barPoll k pid id gen hold pend x op = s.seqAct k pid x.seq := by
  simp [State.barPoll, hw, hupd, hb, hparts, hop]

theorem barPoll_of_completed (hop : op = .join) (harr : (b.barAt id).arrived = []) :
    s0.barPoll k pid id gen false pend x op = (s.acquire (keyCore k) (s.launchOfWarp k) .core).seqAct k pid x.seq := by
  simp [State.barPoll, hw, hupd, hb, hparts, hop, harr]

theorem barPoll_of_arrived (hop : op = .join) (harr : w.wid ∈ (b.barAt id).arrived) :
    s0.barPoll k pid id gen false pend x op = s.stopSplit k pid (.bar id gen false pend) := by
  simp [State.barPoll, hw, hupd, hb, hparts, hop, harr]

omit hparts in
theorem barPoll_of_hold (hop : op = .hold) (hgen : (b.barAt id).gen = gen) :
    s0.barPoll k pid id gen true pend x op = s.stopSplit k pid (.bar id gen true pend) := by
  simp [State.barPoll, hw, hupd, hb, hop, hgen]

end poll

/-- A block whose BAR id stands at `y`, with the split that executes BAR stopped. -/
def State.barEntered (s : State) (k : Nat) (w : Warp) (p : Split) (b : Block) (id : Nat) (y : Bar) (st : Stop) : State :=
  (s.putBlock w.blk (b.putBar id y)).putWarp k (w.putSplit (p.stopped st))

section entered
variable {s : State} {k id : Nat} {w : Warp} {p : Split} {b : Block} {y : Bar} {st : Stop}

@[simp] theorem warpAt_barEntered : (s.barEntered k w p b id y st).warpAt k = some (w.putSplit (p.stopped st)) :=
  warpAt_putWarp_same ..

@[simp] theorem blockAt_barEntered : (s.barEntered k w p b id y st).blockAt w.blk = some (b.putBar id y) :=
  blockAt_putBlock_same ..

/-- The barrier of the block moves on. -/
theorem putBlock_barEntered (z : Bar) :
    (s.barEntered k w p b id y st).putBlock w.blk ((b.putBar id y).putBar id z) = s.barEntered k w p b id z st := by
  rw [putBar_putBar]
  show ((s.putBlock w.blk (b.putBar id y)).putBlock w.blk (b.putBar id z)).putWarp k _ = _
  rw [putBlock_putBlock]
  rfl

theorem stopSplit_putBar (hw : s.warpAt k = some w) (hp : w.splitAt p.id = some p) :
    (s.putBlock w.blk (b.putBar id y)).stopSplit k p.id st = s.barEntered k w p b id y st :=
  stopSplit_of_split (s := s.putBlock w.blk (b.putBar id y)) hw hp st

variable (hp : w.splitAt p.id = some p)
include hp

theorem splitAt_barEntered : (w.putSplit (p.stopped st)).splitAt p.id = some (p.stopped st) :=
  splitAt_putSplit_same (x := p.stopped st) hp

/-- A split that looks again and stops is stopped for what it last saw. -/
theorem stopSplit_barEntered (st' : Stop) :
    (s.barEntered k w p b id y st).stopSplit k p.id st' = s.barEntered k w p b id y st' := by
  have e : (w.putSplit (p.stopped st)).putSplit ((p.stopped st).stopped st') = w.putSplit (p.stopped st') :=
    putSplit_putSplit w (x := p.stopped st) (y := p.stopped st') rfl
  rw [stopSplit_of_split warpAt_barEntered (splitAt_barEntered hp), e]
  exact putWarp_putWarp ..

end entered

section oneWarp
variable {s : State} {k id : Nat} {w : Warp} {p : Split} {b : Block} {y : Bar} {st : Stop}
  (hone : (s.putWarp k w).blockWarps w.blk = [(k, w)]) (hidle : y.Idle)
include hone

theorem blockWarps_barEntered (z : Bar) :
    ((s.putWarp k w).barEntered k w p b id z st).blockWarps w.blk = [(k, w.putSplit (p.stopped st))] := by
  rw [← blockWarps_putWarp_of_one hone (w' := w.putSplit (p.stopped st)) rfl]
  exact blockWarps_of_warps (put_put ..) w.blk

include hidle

theorem barUpdate_entered_idle :
    ((s.putWarp k w).barEntered k w p b id y st).barUpdate w.blk id = (s.putWarp k w).barEntered k w p b id y st :=
  barUpdate_of_idle blockAt_barEntered (blockWarps_barEntered hone y) (by rwa [barAt_putBar_same])

variable (hm : p.mask ≠ 0) (hall : (~~~ w.exited) &&& ~~~ p.mask = 0) {cnt : Nat}
include hm hall

theorem barUpdate_entered_complete (hcnt : cnt ≤ 1) :
    ((s.putWarp k w).barEntered k w p b id (y.joined w.wid p.mask cnt) st).barUpdate w.blk id =
      (s.putWarp k w).barEntered k w p b id y.next st :=
  (barUpdate_of_complete blockAt_barEntered (blockWarps_barEntered hone _) hidle hm hall (barAt_putBar_same ..) hcnt).trans
    (putBlock_barEntered ..)

theorem barUpdate_entered_first (hcnt : 1 < cnt) :
    ((s.putWarp k w).barEntered k w p b id (y.joined w.wid p.mask cnt) st).barUpdate w.blk id =
      (s.putWarp k w).barEntered k w p b id (y.first w.wid cnt) st :=
  (barUpdate_of_first blockAt_barEntered (blockWarps_barEntered hone _) hidle hm hall (barAt_putBar_same ..) hcnt).trans
    (putBlock_barEntered ..)

end oneWarp

section bar
variable {s : State} {c : WCtx} {w : Warp} {p : Split} {x : Ctl} {op : BarOp} {o : Slots} {ports : List (Port × Word)}
  {pv : Pops} (h : Ready s c w p x o [o.b, o.c] ports pv) (htx : Claim.noTxn w (activeMask w p x))
include h htx

theorem execBar_of_bad {id cnt : Nat}
    (hid : ((readOps c w {} o pv).gb ((activeMask w p x).lowest.getD 0)).toNat = id)
    (hcnt : ((readOps c w {} o pv).gc ((activeMask w p x).lowest.getD 0)).toNat = cnt) (hbad : 31 < id ∨ 256 < cnt) :
    execBar x op o s = .next ((s.putWarp c.key { w with ports := ports }).takeTrap c.key p.id
      { cause := 0x0B, mask := activeMask w p x, addr := 0 }) := by
  have hbad' : (decide (31 < id) || decide (256 < cnt)) = true := by simpa using hbad
  unfold execBar
  rw [splitWord_next h, illegalOp_none (w := { w with ports := ports }) (warpAt_putWarp_same ..) htx]
  simp only [h.active, hid, hcnt, hbad', ↓reduceIte]
  rfl

theorem execBar_of_idle {id cnt : Nat} {b : Block}
    (hid : ((readOps c w {} o pv).gb ((activeMask w p x).lowest.getD 0)).toNat = id)
    (hcnt : ((readOps c w {} o pv).gc ((activeMask w p x).lowest.getD 0)).toNat = cnt) (hid31 : id ≤ 31)
    (hcnt256 : cnt ≤ 256) (hb : s.blockAt w.blk = some b)
    (hone : (s.putWarp c.key { w with ports := ports }).blockWarps w.blk = [(c.key, { w with ports := ports })])
    (hidle : (b.barAt id).Idle) :
    let y := b.barAt id
    let pend : Pend := { i := .bar x op o, T := activeMask w p x, ops := readOps c w {} o pv }
    execBar x op o s = .next (((s.putWarp c.key { w with ports := ports }).barEntered c.key { w with ports := ports } p b id
      (if op = .hold then y else y.joined w.wid p.mask cnt) (.bar id y.gen (decide (op = .hold)) pend)).barPoll
        c.key p.id id y.gen (decide (op = .hold)) pend x op) := by
  intro y pend
  obtain ⟨-, hp, -⟩ := context_spec h.issuer
  have hgood : (decide (31 < id) || decide (256 < cnt)) = false := by
    simp only [Bool.or_eq_false_iff, decide_eq_false_iff_not]
    omega
  have hw0 : (s.putWarp c.key { w with ports := ports }).warpAt c.key = some { w with ports := ports } :=
    warpAt_putWarp_same ..
  have hb0 : (s.putWarp c.key { w with ports := ports }).blockAt w.blk = some b := hb
  unfold execBar
  rw [splitWord_next h, illegalOp_none (w := { w with ports := ports }) hw0 htx]
  simp only [h.active, hid, hcnt, hgood, Bool.false_eq_true, ↓reduceIte, hw0]
  rw [barUpdate_of_idle hb0 hone hidle]
  simp only [hb0]
  exact congrArg (fun t => Host.Outcome.next (State.barPoll t c.key p.id id y.gen (decide (op = .hold)) pend x op))
    (stopSplit_putBar (w := { w with ports := ports }) hw0 hp)

end bar

/-- BAR, by its three outcomes: the generation completes, the warp has arrived, a holder stops. -/
theorem blockBarriersCompleteAtTheirCount : Claim.BlockBarriersCompleteAtTheirCount := by
  intro s c w p x op o ports pv b h T v id cnt y s0 htx hb
  refine ⟨execBar_of_bad h htx rfl rfl, fun hid hcnt hone hall hc ha hpa hwa => ?_⟩
  have hidle : y.Idle := ⟨hc, ha, hpa, hwa⟩
  let w0 : Warp := { w with ports := ports }
  let pend : Pend := { i := .bar x op o, T := T, ops := v }
  have hact : execBar x op o s = .next ((s0.barEntered c.key w0 p b id
      (if op = .hold then y else y.joined w.wid p.mask cnt) (.bar id y.gen (decide (op = .hold)) pend)).barPoll
        c.key p.id id y.gen (decide (op = .hold)) pend x op) := execBar_of_idle h htx rfl rfl hid hcnt hb hone hidle
  have hp : w0.splitAt p.id = some p := (context_spec h.issuer).2.1
  have hm : p.mask ≠ 0 := mask_ne_zero_of_active h.active
  have hall' : (~~~ w.exited) &&& ~~~ p.mask = 0 := all_arrived hall
  let E (z : Bar) (hold : Bool) : State := s0.barEntered c.key w0 p b id z (.bar id y.gen hold pend)
  have hbar (z : Bar) : (b.putBar id z).barAt id = z := barAt_putBar_same ..
  rw [exec_bar]
  refine ⟨fun hop hle => ?_, fun hop hlt => ?_, fun hop => ?_⟩
  · -- the generation completes
    have hupd : (E (y.joined w.wid p.mask cnt) false).barUpdate w.blk id = E y.next false :=
      barUpdate_entered_complete hone hidle hm hall' hle
    rw [if_neg hop, decide_eq_false hop] at hact
    cases op with
    | hold => exact absurd rfl hop
    | pass =>
      refine ⟨E y.next false, hact.trans (congrArg Host.Outcome.next ?_), blockAt_barEntered⟩
      exact barPoll_of_pass warpAt_barEntered hupd blockAt_barEntered (by rw [hbar]; rfl) rfl
    | join =>
      refine ⟨_, hact.trans (congrArg Host.Outcome.next (barPoll_of_completed warpAt_barEntered hupd blockAt_barEntered
        (by rw [hbar]; rfl) rfl (by rw [hbar]; rfl))), ?_⟩
      rw [blockAt_of_tables (acquire_tables ..)]
      exact blockAt_barEntered
  · -- the warp has arrived
    have hupd : (E (y.joined w.wid p.mask cnt) false).barUpdate w.blk id = E (y.first w.wid cnt) false :=
      barUpdate_entered_first hone hidle hm hall' hlt
    rw [if_neg hop, decide_eq_false hop] at hact
    refine ⟨E (y.first w.wid cnt) false, b.putBar id (y.first w.wid cnt), blockAt_barEntered, rfl, by rw [hbar]; rfl,
      by rw [hbar]; rfl, by rw [hbar]; rfl, fun hop' => ?_, fun hop' => ⟨?_, _, p.stopped (.bar id y.gen false pend), pend,
        warpAt_barEntered, splitAt_barEntered hp, rfl⟩⟩
    · exact hact.trans (congrArg Host.Outcome.next
        (barPoll_of_pass warpAt_barEntered hupd blockAt_barEntered (by rw [hbar]; rfl) hop'))
    · refine hact.trans (congrArg Host.Outcome.next ?_)
      exact (barPoll_of_arrived warpAt_barEntered hupd blockAt_barEntered (by rw [hbar]; rfl) hop'
        (by rw [hbar]; exact List.mem_singleton_self _)).trans (stopSplit_barEntered hp _)
  · -- a holder stops
    have hupd : (E y true).barUpdate w.blk id = E y true := barUpdate_entered_idle hone hidle
    rw [if_pos hop, decide_eq_true hop] at hact
    refine ⟨E y true, _, p.stopped (.bar id y.gen true pend), pend, hact.trans (congrArg Host.Outcome.next ?_),
      warpAt_barEntered, splitAt_barEntered hp, rfl⟩
    exact (barPoll_of_hold warpAt_barEntered hupd blockAt_barEntered hop (by rw [hbar])).trans (stopSplit_barEntered hp _)

/-! ## Arrival and completion at a team barrier (R225) -/

/-- A team barrier at which nothing is under way. -/
def TBar.idle (id spec : Nat) (og sz : Nat × Nat) (gen : Nat) : TBar :=
  { id := id, spec := spec, origin := og, size := sz, gen := gen, swap := false, swaps := [], arrived := [], parts := [] }

/-- A team barrier that threads of one warp have executed. -/
def TBar.joined (id spec : Nat) (og sz : Nat × Nat) (key : Nat × Nat) (m : Mask) (swap : Bool) : TBar :=
  { id := id, spec := spec, origin := og, size := sz, gen := 0, swap := false, swaps := if swap then [key] else [],
    arrived := [], parts := [(key, m)] }

section fields
variable (id spec : Nat) (og sz : Nat × Nat) (key : Nat × Nat) (m : Mask) (swap : Bool)

@[simp] theorem joined_arrived : (TBar.joined id spec og sz key m swap).arrived = [] := rfl
@[simp] theorem joined_swap : (TBar.joined id spec og sz key m swap).swap = false := rfl
@[simp] theorem joined_parts : (TBar.joined id spec og sz key m swap).parts = [(key, m)] := rfl
@[simp] theorem joined_swaps : (TBar.joined id spec og sz key m swap).swaps = if swap then [key] else [] := rfl
@[simp] theorem joined_part : (TBar.joined id spec og sz key m swap).part key = m := by simp [TBar.part]

end fields

/-- A block with its banks exchanged (R119). -/
def Block.swapped (b : Block) (swap : Bool) : Block := if swap then { b with live := b.shadow, shadow := b.live } else b

theorem addPart_idle (id spec : Nat) (og sz : Nat × Nat) (key : Nat × Nat) (m : Mask) (swap : Bool) :
    (TBar.idle id spec og sz 0).addPart key m swap = .joined id spec og sz key m swap := by
  cases swap with
  | false => simp [TBar.addPart, TBar.idle, TBar.joined, TBar.part]
  | true => simp [TBar.addPart, TBar.idle, TBar.joined, TBar.part]

/-- A launch whose only team barrier is `g`. -/
def Launch.withTBar (l : Launch) (g : TBar) : Launch := { l with tbars := [g] }

theorem tbarAt_withTBar (l : Launch) (g : TBar) : (l.withTBar g).tbarAt g.id g.spec g.origin = some g := by
  simp [Launch.tbarAt, Launch.withTBar]

theorem putTBar_withTBar {s : State} {lid : Nat} {l : Launch} {g z : TBar} (h : s.launchAt lid = some (l.withTBar g))
    (hid : g.id = z.id) (hspec : g.spec = z.spec) (hog : g.origin = z.origin) :
    s.putTBar lid z = s.putLaunch lid (l.withTBar z) := by
  simp [State.putTBar, h, Launch.withTBar, hid, hspec, hog]

section team
variable {s : State} {lid blk k : Nat} {b : Block} {w : Warp}
  (hblocks : s.launchBlocks lid = [(blk, b)])
include hblocks

theorem tbarWarps_of_one {g : TBar} (hin : g.inside b.pos = true) (hsaved : s.saved = [])
    (hwarps : s.blockWarps blk = [(k, w)]) : s.tbarWarps lid g = [(blk, w)] := by
  simp [State.tbarWarps, hblocks, hin, hsaved, hwarps]

/-- The one block of a group exchanges its banks. -/
theorem blockAt_swapBanks_of_one {g : TBar} (hin : g.inside b.pos = true) :
    (s.swapBanks lid g).blockAt blk = some (b.swapped true) := by
  simp only [State.swapBanks, hblocks, List.foldl_cons, List.foldl_nil, hin, ↓reduceIte]
  exact blockAt_putBlock_same ..

theorem launchAt_swapBanks_of_one (g : TBar) (i : Nat) : (s.swapBanks lid g).launchAt i = s.launchAt i := by
  simp only [State.swapBanks, hblocks, List.foldl_cons, List.foldl_nil]
  split <;> rfl

end team

section lone
variable {s : State} {lid k id spec : Nat} {og sz : Nat × Nat} {swap : Bool} {b : Block} {w : Warp} {l : Launch} {m : Mask}
  (hb : s.blockAt w.blk = some b) (hblocks : s.launchBlocks lid = [(w.blk, b)]) (hsaved : s.saved = [])
  (hwarps : s.blockWarps w.blk = [(k, w)])
  (hin : ∀ g : TBar, g.origin = og → g.size = sz → g.inside b.pos = true)
  (hl : s.launchAt lid = some (l.withTBar (.joined id spec og sz (w.blk, w.wid) m swap)))
  (hm : m ≠ 0) (hall : (~~~ w.exited) &&& ~~~ m = 0)
include hb hblocks hsaved hwarps hin hl hm hall

/-- The one warp of a group completes the generation of its team barrier, and its `.swap` exchanges the banks. -/
theorem tbarUpdate_of_lone :
    let t := s.tbarUpdate lid (.joined id spec og sz (w.blk, w.wid) m swap)
    t.blockAt w.blk = some (b.swapped swap) ∧ t.launchAt lid = some (l.withTBar (.idle id spec og sz 1)) := by
  have hr : (s.release b.core (s.launchAt lid) .team).tables = s.tables := release_tables ..
  have hrb : (s.release b.core (s.launchAt lid) .team).launchBlocks lid = [(w.blk, b)] := by
    rw [← hblocks]
    simp only [State.launchBlocks, blocks_of_tables hr]
  have hrl := (launchAt_of_tables hr lid).trans hl
  have hws := tbarWarps_of_one hblocks (g := .joined id spec og sz (w.blk, w.wid) m swap) (hin _ rfl rfl) hsaved hwarps
  have hm' : ¬ m = 0#32 := hm
  cases swap with
  | false =>
    have hupd : s.tbarUpdate lid (.joined id spec og sz (w.blk, w.wid) m false) =
        (s.release b.core (s.launchAt lid) .team).putTBar lid (.idle id spec og sz 1) := by
      simp [State.tbarUpdate, hws, hm', hall, hb]
      rfl
    rw [hupd, putTBar_withTBar (z := .idle id spec og sz 1) hrl rfl rfl rfl]
    exact ⟨(blockAt_of_tables hr _).trans hb, launchAt_putLaunch_same ..⟩
  | true =>
    have hupd : ∃ g : TBar, g.origin = og ∧ g.size = sz ∧ s.tbarUpdate lid (.joined id spec og sz (w.blk, w.wid) m true) =
        ((s.release b.core (s.launchAt lid) .team).swapBanks lid g).putTBar lid (.idle id spec og sz 1) := by
      refine ⟨{ TBar.idle id spec og sz 0 with arrived := [(w.blk, w.wid)], swap := true }, rfl, rfl, ?_⟩
      simp [State.tbarUpdate, hws, hm', hall, hb]
      rfl
    obtain ⟨g, hog, hsz, hupd⟩ := hupd
    rw [hupd, putTBar_withTBar (z := .idle id spec og sz 1) ((launchAt_swapBanks_of_one hrb g lid).trans hrl) rfl rfl rfl]
    exact ⟨blockAt_swapBanks_of_one hrb (hin g hog hsz), launchAt_putLaunch_same ..⟩

end lone

/-! ## TBAR -/

/-- A split that finds its generation complete goes on. -/
theorem tbarPoll_of_completed {s t : State} {k pid lid gen : Nat} {g : TBar} {pend : Pend} {x : Ctl} {pass : Bool} {w : Warp}
    {l l' : Launch} {z : TBar} (hl : s.launchAt lid = some l) (hg : l.tbarAt g.id g.spec g.origin = some g)
    (hupd : s.tbarUpdate lid g = t) (hw : t.warpAt k = some w) (hl' : t.launchAt lid = some l')
    (hz : l'.tbarAt g.id g.spec g.origin = some z) (harr : z.arrived = []) (hparts : z.parts = []) :
    ∃ u : State, u.tables = t.tables ∧ s.tbarPoll k pid lid g gen pend x pass = u.seqAct k pid x.seq := by
  have hpart (key : Nat × Nat) : z.part key = 0 := by simp [TBar.part, hparts]
  cases pass with
  | true =>
    refine ⟨t, rfl, ?_⟩
    simp [State.tbarPoll, hl, hg, hupd, hw, hl', hz, hpart]
  | false =>
    refine ⟨t.acquire (keyCore k) (some l') .team, acquire_tables .., ?_⟩
    simp [State.tbarPoll, hl, hg, hupd, hw, hl', hz, hpart, harr]

section tbar
variable {s : State} {c : WCtx} {w : Warp} {p : Split} {x : Ctl} {pass swap : Bool} {o : Slots} {ports : List (Port × Word)}
  {pv : Pops} {b : Block} {l : Launch} (h : Ready s c w p x o [o.b, o.c] ports pv) (htx : Claim.noTxn w (activeMask w p x))
  (hb : s.blockAt w.blk = some b) (hl : s.launchAt b.launch = some l) (htbars : l.tbars = []) {spec id : Nat}
  (hspec : ((readOps c w {} o pv).gb ((activeMask w p x).lowest.getD 0)).toNat % 2 ^ 32 = spec)
  (hid : ((readOps c w {} o pv).gc ((activeMask w p x).lowest.getD 0)).toNat = id)
include h htx hb hl htbars hspec hid

omit htbars in
theorem execTbar_of_bad (hbad : tbarGroup l b.pos spec = none ∨ 3 < id) :
    execTbar x pass swap o s = .next ((s.putWarp c.key { w with ports := ports }).takeTrap c.key p.id
      { cause := 0x0B, mask := activeMask w p x, addr := 0 }) := by
  have hw0 : (s.putWarp c.key { w with ports := ports }).warpAt c.key = some { w with ports := ports } :=
    warpAt_putWarp_same ..
  have hb0 : (s.putWarp c.key { w with ports := ports }).blockAt w.blk = some b := hb
  have hl0 : (s.putWarp c.key { w with ports := ports }).launchAt b.launch = some l := hl
  unfold execTbar
  rw [splitWord_next h, illegalOp_none (w := { w with ports := ports }) hw0 htx]
  simp only [h.active, ↓reduceIte, hw0, hb0, hl0, hspec, hid]
  cases hg : tbarGroup l b.pos spec with
  | none => rfl
  | some g =>
    obtain ⟨og, sz⟩ := g
    have h3 : 3 < id := hbad.resolve_left (by simp [hg])
    simp only [decide_eq_true h3, Bool.true_or, ↓reduceIte]
    rfl

variable {og sz : Nat × Nat} (hg : tbarGroup l b.pos spec = some (og, sz)) (hid3 : id ≤ 3)
include hg hid3

theorem execTbar_of_noxbank (hswap : swap = true) (hpart : l.part.getLsbD 24 = false) :
    execTbar x pass swap o s = .next ((s.putWarp c.key { w with ports := ports }).takeTrap c.key p.id
      { cause := 0x0C, mask := activeMask w p x, addr := 0 }) := by
  have hw0 : (s.putWarp c.key { w with ports := ports }).warpAt c.key = some { w with ports := ports } :=
    warpAt_putWarp_same ..
  have hb0 : (s.putWarp c.key { w with ports := ports }).blockAt w.blk = some b := hb
  have hl0 : (s.putWarp c.key { w with ports := ports }).launchAt b.launch = some l := hl
  unfold execTbar
  rw [splitWord_next h, illegalOp_none (w := { w with ports := ports }) hw0 htx]
  simp only [h.active, ↓reduceIte, hw0, hb0, hl0, hspec, hid, hg, State.tbarClash, htbars, List.any_nil, Bool.or_false,
    decide_eq_false (Nat.not_lt.mpr hid3), Bool.false_eq_true, hswap, hpart, Bool.not_false, Bool.and_true]
  rfl

/-- TBAR joins the team barrier, stops its split and looks at the barrier. -/
theorem execTbar_of_group (hswap : swap = true → l.part.getLsbD 24 = true) :
    let pend : Pend := { i := .tbar x pass swap o, T := activeMask w p x, ops := readOps c w {} o pv }
    let g : TBar := .joined id spec og sz (w.blk, w.wid) p.mask swap
    execTbar x pass swap o s = .next (((s.putLaunch b.launch (l.withTBar g)).putWarp c.key
      ({ w with ports := ports }.putSplit (p.stopped (.tbar (id + 4 * spec) 0 pend)))).tbarPoll c.key p.id b.launch g 0 pend x
        pass) := by
  intro pend g
  let s0 := s.putWarp c.key { w with ports := ports }
  have hw0 : s0.warpAt c.key = some { w with ports := ports } := warpAt_putWarp_same ..
  have hb0 : s0.blockAt w.blk = some b := hb
  have hl0 : s0.launchAt b.launch = some l := hl
  have hp : ({ w with ports := ports } : Warp).splitAt p.id = some p := (context_spec h.issuer).2.1
  have hbank : (swap && !l.part.getLsbD 24) = false := by
    cases swap with
    | false => rfl
    | true => rw [hswap rfl]; rfl
  have hnone : l.tbarAt id spec og = none := by simp [Launch.tbarAt, htbars]
  have hadd : (TBar.idle id spec og sz 0).addPart (w.blk, w.wid) p.mask swap = g := addPart_idle ..
  have hput : (s0.putLaunch b.launch (l.withTBar (.idle id spec og sz 0))).putTBar b.launch g =
      s0.putLaunch b.launch (l.withTBar g) := by
    rw [putTBar_withTBar (g := .idle id spec og sz 0) (z := g) (launchAt_putLaunch_same s0 b.launch _) rfl rfl rfl]
    exact congrArg (fun t => { s0 with launches := t }) (put_put ..)
  have hstop : (s0.putLaunch b.launch (l.withTBar g)).stopSplit c.key p.id (.tbar (id + 4 * spec) 0 pend) =
      (s.putLaunch b.launch (l.withTBar g)).putWarp c.key
        ({ w with ports := ports }.putSplit (p.stopped (.tbar (id + 4 * spec) 0 pend))) :=
    (stopSplit_of_split (s := s0.putLaunch b.launch (l.withTBar g)) hw0 hp _).trans
      (congrArg (fun t => { s.putLaunch b.launch (l.withTBar g) with warps := t }) (put_put ..))
  unfold execTbar
  rw [splitWord_next h, illegalOp_none (w := { w with ports := ports }) hw0 htx]
  simp only [h.active, ↓reduceIte, hw0, hb0, hl0, hspec, hid, hg, State.tbarClash, htbars, List.any_nil, Bool.or_false,
    decide_eq_false (Nat.not_lt.mpr hid3), Bool.false_eq_true, hbank, hnone, Option.getD_none, Option.isSome_none,
    List.nil_append]
  rw [← hstop, ← hput, ← hadd]
  rfl

end tbar

/-- TBAR: the one warp of the group completes the generation its word joins, and the look after it lets the split go on. -/
theorem teamBarriersCompleteAndSwapBanks : Claim.TeamBarriersCompleteAndSwapBanks := by
  intro s c w p x pass swap o ports pv b l h T v spec id s0 htx hb hl htbars
  rw [exec_tbar]
  refine ⟨execTbar_of_bad h htx hb hl rfl rfl, fun og sz hg hid3 =>
    ⟨execTbar_of_noxbank h htx hb hl htbars rfl rfl hg hid3, fun hswap hsaved hblocks hone hall hx hx' hy hy' => ?_⟩⟩
  let pend : Pend := { i := .tbar x pass swap o, T := T, ops := v }
  let w' : Warp := { w with ports := ports }.putSplit (p.stopped (.tbar (id + 4 * spec) 0 pend))
  let g : TBar := .joined id spec og sz (w.blk, w.wid) p.mask swap
  let s1 : State := (s.putLaunch b.launch (l.withTBar g)).putWarp c.key w'
  have hw1 : s1.warpAt c.key = some w' := warpAt_putWarp_same ..
  have hl1 : s1.launchAt b.launch = some (l.withTBar g) := launchAt_putLaunch_same ..
  have hwarps : s1.blockWarps w.blk = [(c.key, w')] :=
    blockWarps_putWarp_of_one (s := s) (w := { w with ports := ports }) (w' := w') hone rfl
  have hin (z : TBar) (ho : z.origin = og) (hs : z.size = sz) : z.inside b.pos = true := by
    simp [TBar.inside, ho, hs, hx, hx', hy, hy']
  obtain ⟨hb2, hl2⟩ := tbarUpdate_of_lone (s := s1) (w := w') hb hblocks hsaved hwarps hin hl1
    (mask_ne_zero_of_active h.active) (all_arrived hall)
  obtain ⟨hoist, hw2⟩ := warpAt_of_slots (tbarUpdate_slots s1 b.launch g) hw1
  obtain ⟨u, hu, hpoll⟩ := tbarPoll_of_completed (pid := p.id) (gen := 0) (pend := pend) (x := x) (pass := pass) hl1
    (tbarAt_withTBar l g) rfl hw2 hl2 (tbarAt_withTBar l (.idle id spec og sz 1)) rfl rfl
  refine ⟨u, (execTbar_of_group h htx hb hl htbars rfl rfl hg hid3 hswap).trans (congrArg Host.Outcome.next hpoll),
    (blockAt_of_tables hu _).trans hb2, .idle id spec og sz 1, (launchAt_of_tables hu _).trans hl2, rfl, rfl⟩

/-- Settles O20, from BAR and TBAR. -/
theorem barriersCompleteAtTheirCount : Obligations.BarriersCompleteAtTheirCount :=
  ⟨blockBarriersCompleteAtTheirCount, teamBarriersCompleteAndSwapBanks⟩

end Sys2Proof.Machine
end

section
/-! PROOFS. Integer words: element-wise results brought into their type, division, and IADDC (R58, R59, R161, R164, R165,
R169). -/

namespace Sys2Proof.Machine

/-! ## Flags joined over sub-elements -/

@[simp] theorem flags_zero_or (f : Flags) : 0 ||| f = f := BitVec.zero_or
@[simp] theorem flags_or_zero (f : Flags) : f ||| 0 = f := BitVec.or_zero

/-- Flags joined from the left are flags joined from the right. -/
theorem foldl_or_eq_foldr (f : Nat → Flags) (ks : List Nat) (a : Flags) :
    ks.foldl (fun a k => a ||| f k) a = a ||| ks.foldr (fun k a => f k ||| a) 0 := by
  induction ks generalizing a with
  | nil => simp
  | cons k rest ih => rw [List.foldl_cons, ih, List.foldr_cons, BitVec.or_assoc]

theorem packFlags_flags (w n : Nat) (f : Nat → Nat × Flags) : (packFlags w n f).2 = Claim.join n (fun k => (f k).2) :=
  (foldl_or_eq_foldr _ _ 0).trans (flags_zero_or _)

theorem join_flagIf (n : Nat) (b : Nat → Bool) (f : Flags) :
    Claim.join n (fun k => flagIf (b k) f) = flagIf ((List.range n).any b) f := by
  have h := foldl_flag (List.range n) b f 0
  rwa [foldl_or_eq_foldr, flags_zero_or, flags_zero_or] at h

theorem join_or (n : Nat) (f g : Nat → Flags) :
    Claim.join n (fun k => f k ||| g k) = Claim.join n f ||| Claim.join n g := by
  unfold Claim.join
  induction List.range n with
  | nil => simp
  | cons k rest ih =>
    simp only [List.foldr_cons, ih]
    ac_rfl

@[simp] theorem join_zero (n : Nat) : Claim.join n (fun _ => 0) = 0 := by
  unfold Claim.join
  induction List.range n with
  | nil => rfl
  | cons k rest ih => rw [List.foldr_cons, ih, flags_or_zero]

/-! ## Results brought into their type (R58, R161) -/

theorem intMap_elem (ty : ETy) (sat : Bool) (f : Nat → Int × Flags) {k : Nat} (hk : k < ty.count) :
    elemBits ty.width (intMap ty sat f).1 k = Claim.bits ty sat (f k).1 := by
  rw [intMap, packFlags_elem _ _ _ _ (width_mul_count ty).le hk, narrowInt_fst, Nat.mod_eq_of_lt (ofInt_lt _ _)]
  rfl

theorem intMap_flags (ty : ETy) (sat : Bool) (f : Nat → Int × Flags) :
    (intMap ty sat f).2 = flagIf (sat && (List.range ty.count).any (fun k => Claim.outside ty (f k).1)) fSaturate |||
      Claim.join ty.count (fun k => (f k).2) := by
  have hany : (List.range ty.count).any (fun k => sat && Claim.outside ty (f k).1) =
      (sat && (List.range ty.count).any (fun k => Claim.outside ty (f k).1)) := by
    cases sat <;> simp
  rw [intMap, packFlags_flags, join_or, ← hany, ← join_flagIf]
  simp only [narrowInt_snd]
  rfl

/-! ## Element-wise words -/

/-- What an element-wise calculation yields is what an integer word claims of it. -/
theorem intMap_claim (m : IMod) (r : Nat → Int) :
    (∀ k, k < m.ty.count → elemBits m.ty.width (intMap m.ty m.sat (fun k => (r k, 0))).1 k = Claim.bits m.ty m.sat (r k)) ∧
    (intMap m.ty m.sat (fun k => (r k, 0))).2 =
      flagIf (m.sat && (List.range m.ty.count).any (fun k => Claim.outside m.ty (r k))) fSaturate :=
  ⟨fun _ hk => intMap_elem _ _ _ hk, by rw [intMap_flags, join_zero, flags_or_zero]⟩

theorem claim_intWord_of_intWord {ctor : Ctl → IMod → Slots → Instr} {srcs : Slots → List Spec}
    {f : IMod → Int → Int → Int → Int}
    (he : ∀ x m o s, exec (ctor x m o) s = intWord x m o (srcs o) (f m) s) : Claim.intWord ctor srcs f := fun x m o =>
  ⟨_, _, yields_of_calc _ x o (tys m.ty) (srcs o) _ _ (he x m o) (fun _ _ _ _ _ _ => rfl),
    fun _ _ _ _ _ => intMap_claim m _⟩

/-- The words whose result may be affine (R163). -/
theorem claim_intWord_of_affWord {ctor : Ctl → IMod → Slots → Instr} {f : Int → Int → Int} (g : Word → Word → Word)
    (he : ∀ x m o s, exec (ctor x m o) s = affWord x m o f g s) :
    Claim.intWord ctor (fun o => [o.b, o.c]) (fun _ b c _ => f b c) := fun x m o =>
  ⟨_, _, yields_of_calc _ x o (tys m.ty) [o.b, o.c] _ _ (he x m o) (fun _ _ _ _ _ _ => rfl),
    fun _ _ _ _ _ => intMap_claim m _⟩

theorem claim_intWord_congr {ctor : Ctl → IMod → Slots → Instr} {srcs : Slots → List Spec}
    {f g : IMod → Int → Int → Int → Int} (hg : ∀ m b c d, g m b c d = f m b c d) (h : Claim.intWord ctor srcs g) :
    Claim.intWord ctor srcs f := by
  have e : g = f := by
    funext m b c d
    exact hg m b c d
  exact e ▸ h

section extrema
variable {ctor : Ctl → IMod → Slots → Instr} {srcs : Slots → List Spec}

theorem claim_minimum (he : ∀ x m o s, exec (ctor x m o) s = intWord x m o (srcs o) (fun b c _ => if b ≤ c then b else c) s) :
    Claim.intWord ctor srcs (fun _ b c _ => min b c) :=
  claim_intWord_congr (fun _ b c _ => (min_def b c).symm) (claim_intWord_of_intWord he)

theorem claim_maximum (he : ∀ x m o s, exec (ctor x m o) s = intWord x m o (srcs o) (fun b c _ => if b ≤ c then c else b) s) :
    Claim.intWord ctor srcs (fun _ b c _ => max b c) :=
  claim_intWord_congr (fun _ b c _ => (max_def b c).symm) (claim_intWord_of_intWord he)

theorem claim_absolute (he : ∀ x m o s, exec (ctor x m o) s = intWord x m o (srcs o) (fun b _ _ => b.natAbs) s) :
    Claim.intWord ctor srcs (fun _ b _ _ => if b < 0 then -b else b) :=
  claim_intWord_congr (fun _ b _ _ => by split <;> omega) (claim_intWord_of_intWord he)

end extrema

/-- The integer words of Tables 12.4 and 12.5, each by what it computes of its sub-elements. -/
theorem integerWordsComputeExactlyThenNarrow : Claim.IntegerWordsComputeExactlyThenNarrow := by
  refine ⟨?iadd, ?isub, ?imul, ?imulh, ?imad, ?ineg, ?iabs, ?imin, ?imax, ?padd, ?psub, ?pmul, ?pmad, ?pmin, ?pmax, ?pabs,
    ?pavg⟩
  case iadd => exact claim_intWord_of_affWord (· + ·) fun _ _ _ _ => rfl
  case isub => exact claim_intWord_of_affWord (· - ·) fun _ _ _ _ => rfl
  case imul | imad | ineg | padd | psub | pmad | pavg => exact claim_intWord_of_intWord fun _ _ _ _ => rfl
  case imulh =>
    exact claim_intWord_congr (g := fun m b c _ => b * c / (2 ^ m.ty.width : Nat)) (fun _ _ _ _ => by push_cast; rfl)
      (claim_intWord_of_intWord fun _ _ _ _ => rfl)
  case pmul =>
    exact claim_intWord_congr (g := fun m b c _ => if m.var then b * c / (2 ^ m.ty.width : Nat) else b * c)
      (fun _ _ _ _ => by push_cast; rfl) (claim_intWord_of_intWord fun _ _ _ _ => rfl)
  case imin | pmin => exact claim_minimum fun _ _ _ _ => rfl
  case imax | pmax => exact claim_maximum fun _ _ _ _ => rfl
  case iabs | pabs => exact claim_absolute fun _ _ _ _ => rfl

/-! ## Division (R59, Table 6.2) -/

theorem claim_divWord_of_divWord {ctor : Ctl → IMod → Slots → Instr} {f : ETy → Int → Int → Int}
    (g : ETy → Int → Int → Int × Flags) (he : ∀ x m o s, exec (ctor x m o) s = divWord x m o (g m.ty) s)
    (hval : ∀ ty b c, (g ty b c).1 = f ty b c) (hflag : ∀ ty b c, (g ty b c).2 = flagIf (decide (c = 0)) fDivZero) :
    Claim.divWord ctor f := by
  intro x m o
  refine ⟨_, _, yields_of_calc _ x o (tys m.ty) [o.b, o.c] _ _ (he x m o) (fun _ _ _ _ _ _ => rfl), fun c w T v t => ?_⟩
  refine ⟨fun k hk => by rw [intMap_elem _ _ _ hk, hval], ?_⟩
  rw [intMap_flags]
  simp only [hval, hflag, join_flagIf]

theorem intDiv_eq (ty : ETy) (b c : Int) :
    intDiv ty.signed ty.width b c = (Claim.quotient ty b c, flagIf (decide (c = 0)) fDivZero) := by
  unfold intDiv Claim.quotient flagIf
  by_cases hc : c = 0 <;> simp [hc]

theorem intRem_eq (b c : Int) : intRem b c = (if c = 0 then b else b.tmod c, flagIf (decide (c = 0)) fDivZero) := by
  unfold intRem flagIf
  by_cases hc : c = 0 <;> simp [hc]

theorem divisionTruncatesAndFlagsZeroDivisors : Claim.DivisionTruncatesAndFlagsZeroDivisors :=
  ⟨claim_divWord_of_divWord (fun ty => intDiv ty.signed ty.width) (fun _ _ _ _ => rfl)
      (fun ty b c => by rw [intDiv_eq]) (fun ty b c => by rw [intDiv_eq]),
    claim_divWord_of_divWord (fun _ => intRem) (fun _ _ _ _ => rfl)
      (fun _ b c => by rw [intRem_eq]) (fun _ b c => by rw [intRem_eq])⟩

/-! ## Two destinations written one after the other -/

theorem kept_trans {w w1 w2 : Warp} {ds es : List Spec} {T : Mask} (h : Kept w w1 ds T) (g : Kept w1 w2 es T) :
    Kept w w2 (ds ++ es) T := by
  have split : ∀ {x t}, apart (ds ++ es) T x t → apart ds T x t ∧ apart es T x t := by
    rintro x t (hn | hT)
    · exact ⟨.inl fun hx => hn (List.mem_append_left _ hx), .inl fun hx => hn (List.mem_append_right _ hx)⟩
    · exact ⟨.inr hT, .inr hT⟩
  have outside : ∀ {x}, x ∉ ds ++ es → x ∉ ds ∧ x ∉ es := by
    intro x hx
    simpa only [List.mem_append, not_or] using hx
  refine ⟨?_, ?_, ?_, ?_, ?_, ?_, ?_, ?_, ?_⟩
  · intro i t ht ha
    rw [g.regD i t ht (split ha).2, h.regD i t ht (split ha).1]
  · intro i t ht ha
    rw [g.regP i t ht (split ha).2, h.regP i t ht (split ha).1]
  · intro i ha
    rw [g.regW i (outside ha).2, h.regW i (outside ha).1]
  · intro i ha
    rw [g.regQ i (outside ha).2, h.regQ i (outside ha).1]
  · intro i ha
    rw [g.regN i (outside ha).2, h.regN i (outside ha).1]
  · intro i ha
    rw [g.regM i (outside ha).2, h.regM i (outside ha).1]
  · intro ha
    rw [g.slim (outside ha).2, h.slim (outside ha).1]
  · intro ha
    rw [g.sp (outside ha).2, h.sp (outside ha).1]
  · have hr := h.rest
    rw [g.rest] at hr
    exact hr

/-- Taking records from the queue ports changes no register. -/
theorem kept_ports (w : Warp) (ports : List (Port × Word)) (T : Mask) : Kept w { w with ports := ports } [] T :=
  ⟨fun _ _ _ _ => rfl, fun _ _ _ _ => rfl, fun _ _ => rfl, fun _ _ => rfl, fun _ _ => rfl, fun _ _ => rfl, fun _ => rfl,
    fun _ => rfl, rfl⟩

theorem kept_depth {w w' : Warp} {ds : List Spec} {T : Mask} (h : Kept w w' ds T) : w'.depth = w.depth := by
  rw [h.rest]
  rfl

/-- A destination still holds what it was given when another one is written. -/
theorem holds_of_kept {w w' : Warp} {x e : Spec} {T : Mask} {val : Nat → Word} (hx : Holds w x T val) (hne : x ≠ e)
    (hk : Kept w w' [e] T)
    (hstatus : ∀ u, e ≠ .special .status ∨ T.has u = false → w'.statusOf u = w.statusOf u)
    (hrnd : ∀ u, e ≠ .special .rnd ∨ T.has u = false → w'.rndOf u = w.rndOf u) : Holds w' x T val := by
  have hmem : x ∉ [e] := by simpa using hne
  cases x with
  | d i => exact fun t ht => (hk.regD i t (BitVec.lt_of_getLsbD ht) (.inl hmem)).trans (hx t ht)
  | p i => exact fun t ht => (hk.regP i t (BitVec.lt_of_getLsbD ht) (.inl hmem)).trans (hx t ht)
  | w i => exact fun t ht => (hk.regW i hmem).trans (hx t ht)
  | q i => exact fun t ht => (hk.regQ i hmem).trans (hx t ht)
  | n i => exact fun t ht => (hk.regN i hmem).trans (hx t ht)
  | m i => exact fun t ht => (hk.regM i hmem).trans (hx t ht)
  | special r =>
    cases r with
    | slim => exact fun t ht => (hk.slim hmem).trans (hx t ht)
    | sp => exact fun t ht => (hk.sp hmem).trans (hx t ht)
    | status => exact fun t ht => (hstatus t (.inl hne.symm)).trans (hx t ht)
    | rnd => exact fun t ht => (hrnd t (.inl hne.symm)).trans (hx t ht)
    | _ => trivial
  | _ => trivial

/-! ## IADDC (R165) -/

/-- What IADDC does to its warp: the sum into slot A, then the carry into slot E. -/
def addCarry (o : Slots) : RegFn := fun c w T v =>
  let sum (t : Nat) : Nat := (v.gb t).toNat + (v.gc t).toNat + (v.gd t).toNat % 2
  let tag := uniTag w [o.b, o.c, o.d]
  let r1 := putDst c w w o.a T tag (fun t => BitVec.ofNat 64 (sum t))
  if r1.2 ≠ [] then (w, r1.2)
  else putDst c r1.1 r1.1 o.e T tag (fun t => if 2 ^ 64 ≤ sum t then 1 else 0)

theorem exec_iaddc (x : Ctl) (o : Slots) (s : State) :
    exec (.iaddc x o) s = regWord x {} [o.b, o.c, o.d] o (addCarry o) s := rfl

theorem addCarry_of_ok {o : Slots} {c : WCtx} {w : Warp} {T : Mask} {v : Opnds} (hT : T ≠ 0) (hl : c.lead = T.lowest)
    {sum : Nat → Nat} (hsum : ∀ t, sum t = (v.gb t).toNat + (v.gc t).toNat + (v.gd t).toNat % 2)
    (ha : dstOk c w T o.a (fun t => BitVec.ofNat 64 (sum t)))
    (he : dstOk c w T o.e (fun t => if 2 ^ 64 ≤ sum t then 1 else 0)) :
    ∃ tag, addCarry o c w T v = (writeDst (writeDst w o.a T tag (fun t => BitVec.ofNat 64 (sum t))) o.e T tag
      (fun t => if 2 ^ 64 ≤ sum t then 1 else 0), []) := by
  obtain rfl : sum = fun t => (v.gb t).toNat + (v.gc t).toNat + (v.gd t).toNat % 2 := funext hsum
  refine ⟨uniTag w [o.b, o.c, o.d], ?_⟩
  simp only [addCarry, putDst_ok c w w o.a T _ _ hT hl ha, ne_eq, not_true_eq_false, ↓reduceIte]
  refine putDst_ok c _ _ o.e T _ _ hT hl fun t ht => ?_
  rw [dstTrap_congr c c w _ T o.e _ rfl rfl (kept_depth (writeDst_effect w o.a T _ _ hT).2.1)]
  exact he t ht

theorem addWithCarryWritesSumAndCarry : Claim.AddWithCarryWritesSumAndCarry := by
  intro s c w p x o ports pv h T v sum carry ha he
  let c1 : WCtx := { c with lead := T.lowest }
  let w0 : Warp := { w with ports := ports }
  have lift {y : Spec} {val : Nat → Word} (hy : dstOk c w T y val) : dstOk c1 w0 T y val := fun t ht =>
    (dstTrap_congr c c1 w w0 T y _ rfl rfl rfl).trans (hy t ht)
  obtain ⟨tag, hrun⟩ := addCarry_of_ok (c := c1) (w := w0) h.active rfl (fun _ => rfl) (lift ha) (lift he)
  let w1 : Warp := writeDst w0 o.a T tag (fun t => BitVec.ofNat 64 (sum t))
  obtain ⟨hdst1, hkept1, hports1, hstatus1, hrnd1⟩ :=
    writeDst_effect w0 o.a T tag (fun t => BitVec.ofNat 64 (sum t)) h.active
  obtain ⟨hdst2, hkept2, hports2, hstatus2, hrnd2⟩ := writeDst_effect w1 o.e T tag carry h.active
  refine ⟨writeDst w1 o.e T tag carry, ?_, hports2.trans hports1,
    fun hne => holds_of_kept hdst1 hne hkept2 hstatus2 hrnd2, hdst2, kept_trans (kept_ports w ports T) (kept_trans hkept1 hkept2),
    fun hA hE t => (hstatus2 t (.inl hE)).trans (hstatus1 t (.inl hA)),
    fun hA hE t => (hrnd2 t (.inl hE)).trans (hrnd1 t (.inl hA))⟩
  rw [exec_iaddc, regWord_next h, hrun, finish_nil]

/-- Settles O1, from the element-wise words, the divisions and IADDC. -/
theorem integerArithmeticWords : Obligations.IntegerArithmeticWords :=
  ⟨integerWordsComputeExactlyThenNarrow, divisionTruncatesAndFlagsZeroDivisors, addWithCarryWritesSumAndCarry⟩

end Sys2Proof.Machine
end

section
/-! PROOFS. Words that round: draws by sub-element, and FRCP, FSQRT, FRSQ and FDIV (R65-R68, R171, R175-R177). -/

namespace Sys2Proof.Machine

/-! ## Draws of the sub-elements (R67, R68) -/

theorem rndSteps_succ (n : Nat) (r : Word) : rndSteps (n + 1) r = rndStep (rndSteps n r) := by
  induction n generalizing r with
  | zero => rfl
  | succ n ih => exact ih (rndStep r)

/-- The state of `$rnd` after the first `n` sub-elements: under RS each that rounds has drawn once. -/
def drawn (rm : RMode) (draws : Nat → Bool) (r : Word) (n : Nat) : Word :=
  if rm = .rs then rndSteps ((List.range n).filter draws).length r else r

@[simp] theorem drawn_zero (rm : RMode) (draws : Nat → Bool) (r : Word) : drawn rm draws r 0 = r := by
  simp [drawn, rndSteps]

theorem drawn_succ (rm : RMode) (draws : Nat → Bool) (r : Word) (n : Nat) :
    drawn rm draws r (n + 1) =
      if decide (rm = .rs) && draws n then rndStep (drawn rm draws r n) else drawn rm draws r n := by
  unfold drawn
  by_cases hrs : rm = .rs
  · cases hn : draws n <;> simp [hrs, hn, List.range_succ, rndSteps_succ]
  · simp [hrs]

theorem drawn_eq_zero {rm : RMode} {draws : Nat → Bool} {r : Word} {n : Nat} (h : drawn rm draws r n = 0) : r = 0 := by
  unfold drawn at h
  split at h
  · exact Decidable.byContradiction fun hr => rndSteps_ne_zero _ r hr h
  · exact h

theorem draw_eq_drawn (rm : RMode) (draws : Nat → Bool) (r : Word) (k : Nat) :
    Claim.draw rm draws r k =
      if decide (rm = .rs) && draws k then (drawn rm draws r (k + 1)).toNat / 2 ^ 32 else 0 := by
  unfold Claim.draw drawn
  by_cases hrs : rm = .rs <;> simp [hrs]

/-- THE FOLD OVER DRAWING SUB-ELEMENTS from the `s`-th on: each takes the draw that is its own. -/
theorem drawFold_eq (rm : RMode) (draws : Nat → Bool) (f : Nat → Nat → Nat × Flags) (r : Word) : ∀ n s,
    drawFold (decide (rm = .rs)) draws f (List.range' s n) (drawn rm draws r s) =
      ((List.range' s n).map (fun k => (f k (Claim.draw rm draws r k)).1),
        (List.range' s n).foldr (fun k a => (f k (Claim.draw rm draws r k)).2 ||| a) 0, drawn rm draws r (s + n))
  | 0, s => rfl
  | n + 1, s => by
    have hnext := drawFold_eq rm draws f r n (s + 1)
    rw [show s + 1 + n = s + (n + 1) by omega] at hnext
    rw [List.range'_succ, List.map_cons, List.foldr_cons, drawFold, ← drawn_succ, hnext, draw_eq_drawn]

section fltMap
variable (w n : Nat) (rm : RMode) (draws : Nat → Bool) (f : Nat → Nat → Nat × Flags) (r : Word)

theorem fltMap_eq :
    fltMap w n (decide (rm = .rs)) draws f r =
      (packElems w ((List.range n).map (fun k => (f k (Claim.draw rm draws r k)).1)),
        Claim.join n (fun k => (f k (Claim.draw rm draws r k)).2), drawn rm draws r n) := by
  have h := drawFold_eq rm draws f r n 0
  rw [drawn_zero, ← List.range_eq_range', Nat.zero_add] at h
  rw [fltMap, h]
  rfl

theorem fltMap_elem {k : Nat} (hn : w * n ≤ 64) (hk : k < n) :
    elemBits w (fltMap w n (decide (rm = .rs)) draws f r).1 k = (f k (Claim.draw rm draws r k)).1 % 2 ^ w := by
  rw [fltMap_eq, elemBits_packElems _ _ _ (by simpa using hn)]
  simp [List.getD, hk]

end fltMap

/-! ## Words that round in the word's mode -/

theorem claim_fltWord_of_fltWord {ctor : Ctl → FMod → Slots → Instr} {ty : FMod → OTys} {srcs : Slots → List Spec}
    {draws : FMod → Nat → Bool} {f : FMod → Nat → Nat → Nat → Nat → Nat × Flags}
    (he : ∀ x m o s, exec (ctor x m o) s = fltWord x m (ty m) o (srcs o) (fun b _ => draws m b) (f m) s) :
    Claim.fltWord ctor ty srcs draws f := by
  intro x m o
  have hx := he x m o
  unfold fltWord at hx
  dsimp only at hx
  refine ⟨_, _, _, yields_of_draw _ x o (ty m) (srcs o) _ _ hx (fun _ _ _ _ _ _ => rfl) ?_, fun c w T v t => ⟨?_, ?_, ?_⟩⟩
  · intro c w T v t r h
    rw [fltMap_eq] at h
    exact drawn_eq_zero h
  · exact fun k hk => fltMap_elem _ _ _ _ _ _ (width_mul_count _).le hk
  · rw [fltMap_eq]
  · rw [fltMap_eq]
    rfl

/-- A function of one operand, correctly rounded. -/
theorem claim_roundedFn_of_roundedFn {ctor : Ctl → FMod → Slots → Instr} {f : FMod → Nat → FVal → Nat × Flags}
    (he : ∀ x m o s, exec (ctor x m o) s = roundedFn x m o (fun v r => f m r v) s) : Claim.roundedFn ctor f :=
  claim_fltWord_of_fltWord he

theorem exec_frcp (x : Ctl) (m : FMod) (o : Slots) (s : State) : exec (.frcp x m o) s = execFrcp x m o s := rfl
theorem exec_fsqrt (x : Ctl) (m : FMod) (o : Slots) (s : State) : exec (.fsqrt x m o) s = execFsqrt x m o s := rfl
theorem exec_frsq (x : Ctl) (m : FMod) (o : Slots) (s : State) : exec (.frsq x m o) s = execFrsq x m o s := rfl
theorem exec_fdiv (x : Ctl) (m : FMod) (o : Slots) (s : State) : exec (.fdiv x m o) s = execFdiv x m o s := rfl

theorem reciprocalRootAndQuotientWords : Claim.ReciprocalRootAndQuotientWords := by
  refine ⟨claim_roundedFn_of_roundedFn fun x m o s => ?frcp, claim_roundedFn_of_roundedFn fun x m o s => ?fsqrt,
    claim_roundedFn_of_roundedFn fun x m o s => ?frsq, claim_fltWord_of_fltWord fun x m o s => ?fdiv⟩
  case frcp =>
    rw [exec_frcp, execFrcp]
    congr 1
    funext v r
    rcases v with _ | n | ⟨n, _ | k, e⟩ <;> rfl
  case fsqrt =>
    rw [exec_fsqrt, execFsqrt]
    congr 1
    funext v r
    rcases v with _ | ⟨_ | _⟩ | ⟨_ | _, _ | k, e⟩ <;> rfl
  case frsq =>
    rw [exec_frsq, execFrsq]
    congr 1
    funext v r
    rcases v with _ | ⟨_ | _⟩ | ⟨_ | _, _ | k, e⟩ <;> rfl
  case fdiv =>
    rw [exec_fdiv, execFdiv]
    congr 1
    funext r b c _
    dsimp only
    generalize FTy.opnd m.fty b = u
    generalize FTy.opnd m.fty c = v
    rcases u with ⟨_ | n | ⟨n, _ | i, e⟩, u⟩ <;> rcases v with ⟨_ | k | ⟨k, _ | j, g⟩, v⟩ <;> rfl

end Sys2Proof.Machine
end

section
/-! PROOFS. Quotients and roots: the truncated magnitudes that FRCP, FDIV, FSQRT and FRSQ round (R175-R177). -/

namespace Sys2Proof.Machine

/-! ## Products with powers of two compared -/

theorem dyLe_of_le {a b : Nat} {s t : Int} (h : s ≤ t) : Claim.dyLe a s b t ↔ a ≤ b * 2 ^ (t - s).toNat := by
  simp [Claim.dyLe, min_eq_left h]

theorem dyLe_of_ge {a b : Nat} {s t : Int} (h : t ≤ s) : Claim.dyLe a s b t ↔ a * 2 ^ (s - t).toNat ≤ b := by
  simp [Claim.dyLe, min_eq_right h]

theorem dyEq_of_le {a b : Nat} {s t : Int} (h : s ≤ t) : Claim.dyEq a s b t ↔ a = b * 2 ^ (t - s).toNat := by
  rw [Claim.dyEq, dyLe_of_le h, dyLe_of_ge h]
  exact le_antisymm_iff.symm

theorem dyEq_of_ge {a b : Nat} {s t : Int} (h : t ≤ s) : Claim.dyEq a s b t ↔ a * 2 ^ (s - t).toNat = b := by
  rw [Claim.dyEq, dyLe_of_ge h, dyLe_of_le h]
  exact le_antisymm_iff.symm

/-- A magnitude cut off to units of `2^g` is brought where its count `q` of units is the greatest with `val q ≤ bound`,
and the mark says whether `bound` is missed. -/
theorem brings_of_greatest {below exactly : Nat → Int → Prop} {val : Nat → Nat} {bound : Nat} {q : Nat × Int × Bool}
    (hbelow : ∀ n, below n q.2.1 ↔ val n ≤ bound) (hexactly : ∀ n, exactly n q.2.1 ↔ val n = bound)
    (hle : val q.1 ≤ bound) (hlt : bound < val (q.1 + 1)) (hmark : q.2.2 = decide (val q.1 ≠ bound)) :
    Claim.brings q below exactly := by
  refine ⟨(hbelow _).mpr hle, fun h => ?_, ?_⟩
  · exact absurd ((hbelow _).mp h) (by omega)
  · rw [hexactly, hmark]
    simp

/-! ## Quotients -/

theorem divMag_brings (m n : Nat) (e g : Int) (hn : n ≠ 0) :
    Claim.brings (divMag m e n g) (fun q h => Claim.dyLe (q * n) (h + g) m e)
      (fun q h => Claim.dyEq (q * n) (h + g) m e) := by
  let sh := guardBits + Nat.log2 n + 1
  have hexp : (divMag m e n g).2.1 + g ≤ e ∧ (e - ((divMag m e n g).2.1 + g)).toNat = sh := by
    simp only [divMag, sh]
    omega
  obtain ⟨hle, hsh⟩ := hexp
  have hdiv : m * 2 ^ sh / n * n + m * 2 ^ sh % n = m * 2 ^ sh := Nat.div_add_mod' _ _
  have hmod : m * 2 ^ sh % n < n := Nat.mod_lt _ (by omega)
  refine brings_of_greatest (val := fun q => q * n) (bound := m * 2 ^ sh) (fun q => ?_) (fun q => ?_) ?_ ?_ ?_
  · rw [dyLe_of_le hle, hsh]
  · rw [dyEq_of_le hle, hsh]
  · exact Nat.div_mul_le_self _ _
  · show m * 2 ^ sh < (m * 2 ^ sh / n + 1) * n
    rw [Nat.add_mul, Nat.one_mul]
    omega
  · show decide (m * 2 ^ sh % n ≠ 0) = decide (m * 2 ^ sh / n * n ≠ m * 2 ^ sh)
    exact decide_eq_decide.mpr (by omega)

/-! ## Square roots -/

/-- The search for a root by bits keeps the root between its bounds. -/
theorem isqrtGo_spec (n : Nat) : ∀ k r, r * r ≤ n → n < (r + 2 ^ k) * (r + 2 ^ k) →
    isqrtGo n k r * isqrtGo n k r ≤ n ∧ n < (isqrtGo n k r + 1) * (isqrtGo n k r + 1)
  | 0, _, hle, hlt => ⟨hle, hlt⟩
  | k + 1, r, hle, hlt => by
    rw [isqrtGo]
    split
    · next hbit =>
      refine isqrtGo_spec n k _ hbit ?_
      rwa [Nat.add_assoc, ← Nat.two_mul, ← Nat.pow_succ']
    · next hbit => exact isqrtGo_spec n k r hle (by omega)

theorem isqrt_spec (n : Nat) : isqrt n * isqrt n ≤ n ∧ n < (isqrt n + 1) * (isqrt n + 1) := by
  refine isqrtGo_spec n _ 0 (Nat.zero_le _) ?_
  rw [Nat.zero_add, ← Nat.pow_add]
  calc n < 2 ^ (Nat.log2 n + 1) := Nat.lt_log2_self
    _ ≤ 2 ^ (Nat.log2 n / 2 + 1 + (Nat.log2 n / 2 + 1)) := Nat.pow_le_pow_right (by decide) (by omega)

theorem sqrtMag_brings (m : Nat) (e : Int) :
    Claim.brings (sqrtMag m e) (fun q h => Claim.dyLe (q * q) (2 * h) m e)
      (fun q h => Claim.dyEq (q * q) (2 * h) m e) := by
  let sh := 2 * guardBits + (if e % 2 = 0 then 0 else 1)
  have hexp : 2 * (sqrtMag m e).2.1 ≤ e ∧ (e - 2 * (sqrtMag m e).2.1).toNat = sh := by
    simp only [sqrtMag, sh, guardBits]
    split <;> omega
  obtain ⟨hle, hsh⟩ := hexp
  obtain ⟨hroot, hnext⟩ := isqrt_spec (m * 2 ^ sh)
  refine brings_of_greatest (val := fun q => q * q) (bound := m * 2 ^ sh) (fun q => ?_) (fun q => ?_) hroot hnext rfl
  · rw [dyLe_of_le hle, hsh]
  · rw [dyEq_of_le hle, hsh]

/-- The root of a quotient cut off is the quotient's root cut off. -/
theorem isqrt_div_spec (n k : Nat) (hk : 0 < k) :
    isqrt (n / k) * isqrt (n / k) * k ≤ n ∧ n < (isqrt (n / k) + 1) * (isqrt (n / k) + 1) * k := by
  obtain ⟨hle, hlt⟩ := isqrt_spec (n / k)
  exact ⟨(Nat.le_div_iff_mul_le hk).mp hle, (Nat.div_lt_iff_lt_mul hk).mp hlt⟩

theorem rsqrtMag_brings (m : Nat) (e : Int) (hm : m ≠ 0) :
    Claim.brings (rsqrtMag m e) (fun q h => Claim.dyLe (q * q * m) (2 * h + e) 1 0)
      (fun q h => Claim.dyEq (q * q * m) (2 * h + e) 1 0) := by
  let k := if e % 2 = 0 then m else 2 * m
  let p := guardBits + Nat.log2 k
  -- an odd exponent moves one bit into the significand, which leaves an even one to halve
  obtain ⟨odd, hodd, hk, hexp⟩ :
      ∃ odd : Nat, odd ≤ 2 * p ∧ k = m * 2 ^ odd ∧ 2 * (rsqrtMag m e).2.1 + e = odd - (2 * p : Nat) := by
    by_cases he : e % 2 = 0
    · refine ⟨0, Nat.zero_le _, by simp [k, he], ?_⟩
      simp only [rsqrtMag, p, k, he, ↓reduceIte]
      omega
    · refine ⟨1, by simp only [p, guardBits]; omega, by simp [k, he, Nat.mul_comm], ?_⟩
      simp only [rsqrtMag, p, k, he, ↓reduceIte]
      omega
  have hle : 2 * (rsqrtMag m e).2.1 + e ≤ 0 := by omega
  have hsh : (0 - (2 * (rsqrtMag m e).2.1 + e)).toNat = 2 * p - odd := by omega
  have hpow : 2 ^ (2 * p) = 2 ^ (2 * p - odd) * 2 ^ odd := by rw [← Nat.pow_add, Nat.sub_add_cancel hodd]
  have hval (q : Nat) : q * q * k = q * q * m * 2 ^ odd := by rw [hk, ← Nat.mul_assoc]
  have hkpos : 0 < k := by
    rw [hk]
    exact Nat.mul_pos (by omega) (Nat.two_pow_pos odd)
  obtain ⟨hroot, hnext⟩ := isqrt_div_spec (2 ^ (2 * p)) k hkpos
  refine brings_of_greatest (val := fun q => q * q * k) (bound := 2 ^ (2 * p)) (fun q => ?_) (fun q => ?_) hroot hnext rfl
  · rw [dyLe_of_le hle, hsh, hval, hpow, Nat.one_mul, Nat.mul_le_mul_right_iff (Nat.two_pow_pos odd)]
  · rw [dyEq_of_le hle, hsh, hval, hpow, Nat.one_mul, Nat.mul_left_inj (Nat.two_pow_pos odd).ne']

/-- The magnitudes that are rounded: quotients, roots and reciprocal roots. -/
theorem quotientsAndRootsAreBroughtExactly : Claim.QuotientsAndRootsAreBroughtExactly :=
  ⟨fun m n e g _ hn => divMag_brings m n e g hn, fun m e _ => sqrtMag_brings m e, rsqrtMag_brings⟩

end Sys2Proof.Machine
end

section
/-! PROOFS. Exact results of rounding: a magnitude that fits a format's significand and exponent range is encoded
unchanged and sets no flag, and what lies between two units sets INEXACT (R60, R61, R65, R66, R69). -/

namespace Sys2Proof.Machine

/-! ## The four arithmetic formats (Tables 6.3 and 6.4) -/

/-- What the formats of the form-F types share: an infinity above the exponents, exponents laid evenly about the bias, the
greatest finite value with a full significand, a significand wide enough for every exponent as an integer, exponents wide
enough for every unit of it, and none that FEXP2 clamps. -/
structure FFmt.Arithmetic (f : FFmt) : Prop where
  hasInf : f.hasInf = true
  biasPos : 0 < f.bias
  exponents : 2 ^ f.ew = 2 * f.bias + 2
  greatest : f.value f.maxB = .fin false (2 ^ (f.pw + 1) - 1) ((f.bias : Int) - f.pw)
  roomy : f.bias + f.pw < 2 ^ (f.pw + 1)
  units : f.pw ≤ f.bias
  unclamped : f.bias < 6000

theorem arithmetic_fmt (t : FTy) : (FTy.fmt t).Arithmetic := by
  cases t <;> constructor <;> decide

theorem width_fmt (t : FTy) : (FTy.fmt t).width = t.ety.width := by cases t <;> rfl

/-- The special encodings fit the format's width. -/
theorem special_lt (t : FTy) (n : Bool) :
    (FTy.fmt t).nan < 2 ^ t.ety.width ∧ (FTy.fmt t).inf n < 2 ^ t.ety.width ∧ (FTy.fmt t).zero n < 2 ^ t.ety.width := by
  cases t <;> cases n <;> decide

/-! ## Fields of an encoding (R60) -/

/-- An encoding from its sign, exponent field and fraction. -/
def FFmt.assemble (f : FFmt) (neg : Bool) (E frac : Nat) : Nat := f.zero neg + (E * 2 ^ f.pw + frac)

section fields
variable (f : FFmt) (neg : Bool) {E frac : Nat} (hE : E < 2 ^ f.ew) (hfrac : frac < 2 ^ f.pw)
include hE hfrac

theorem magnitude_lt : E * 2 ^ f.pw + frac < 2 ^ (f.ew + f.pw) :=
  calc E * 2 ^ f.pw + frac < (E + 1) * 2 ^ f.pw := by rw [Nat.add_mul, Nat.one_mul]; omega
    _ ≤ 2 ^ (f.ew + f.pw) := by rw [Nat.pow_add]; exact Nat.mul_le_mul_right _ hE

theorem assemble_lt : f.assemble neg E frac < 2 ^ f.width := by
  have hlt := magnitude_lt f hE hfrac
  have hzero : f.zero neg ≤ 2 ^ (f.ew + f.pw) := by
    unfold FFmt.zero
    split <;> omega
  rw [FFmt.assemble, FFmt.width, Nat.add_assoc, Nat.pow_add 2 1]
  omega

theorem sign_assemble : f.sign (f.assemble neg E frac) = neg := by
  have hlt := magnitude_lt f hE hfrac
  cases neg with
  | true => simp [FFmt.sign, FFmt.assemble, FFmt.zero, Nat.add_div_left, Nat.div_eq_of_lt hlt]
  | false => simp [FFmt.sign, FFmt.assemble, FFmt.zero, Nat.div_eq_of_lt hlt]

omit hE in
theorem fraction_assemble : f.assemble neg E frac % 2 ^ f.pw = frac := by
  have hzero : 2 ^ f.pw ∣ f.zero neg + E * 2 ^ f.pw := by
    refine Nat.dvd_add ?_ (Nat.dvd_mul_left ..)
    unfold FFmt.zero
    split
    · exact Nat.pow_dvd_pow 2 (Nat.le_add_left ..)
    · exact Nat.dvd_zero _
  obtain ⟨c, hc⟩ := hzero
  rw [FFmt.assemble, ← Nat.add_assoc, hc, Nat.mul_add_mod, Nat.mod_eq_of_lt hfrac]

theorem exponent_assemble : f.assemble neg E frac / 2 ^ f.pw % 2 ^ f.ew = E := by
  have hdiv : (E * 2 ^ f.pw + frac) / 2 ^ f.pw = E := by
    rw [Nat.mul_comm, Nat.mul_add_div (Nat.two_pow_pos _), Nat.div_eq_of_lt hfrac, Nat.add_zero]
  cases neg with
  | true =>
    rw [FFmt.assemble, FFmt.zero, if_pos rfl, Nat.pow_add, Nat.mul_comm (2 ^ f.ew), Nat.mul_add_div (Nat.two_pow_pos _), hdiv,
      Nat.add_mod_left, Nat.mod_eq_of_lt hE]
  | false => rw [FFmt.assemble, FFmt.zero, if_neg Bool.false_ne_true, Nat.zero_add, hdiv, Nat.mod_eq_of_lt hE]

end fields

section arithmetic
variable {f : FFmt} (hf : f.Arithmetic)
include hf

/-- The value of a normal encoding (R60). -/
theorem value_assemble (neg : Bool) {E frac : Nat} (hE : 1 ≤ E) (hE' : E ≤ 2 * f.bias) (hfrac : frac < 2 ^ f.pw) :
    f.value (f.assemble neg E frac) = .fin neg (2 ^ f.pw + frac) ((E : Int) - f.bias - f.pw) := by
  have hexp := hf.exponents
  have hlt : E < 2 ^ f.ew := by omega
  have hne : E ≠ 2 ^ f.ew - 1 := by omega
  have hpos : E ≠ 0 := by omega
  unfold FFmt.value
  simp only [sign_assemble f neg hlt hfrac, exponent_assemble f neg hlt hfrac, fraction_assemble f neg hfrac]
  simp [hne, hpos]

/-- A finite value other than zero lies within the exponents of its format, subnormal ones included. -/
theorem value_range {x k : Nat} {n : Bool} {e : Int} (h : f.value x = .fin n k e) (hk : k ≠ 0) :
    -((f.bias : Int) + f.pw) ≤ e + Nat.log2 k ∧ e + Nat.log2 k ≤ f.bias := by
  have hexp := hf.exponents
  have hfield : x / 2 ^ f.pw % 2 ^ f.ew < 2 ^ f.ew := Nat.mod_lt _ (Nat.two_pow_pos _)
  have hfrac : x % 2 ^ f.pw < 2 ^ f.pw := Nat.mod_lt _ (Nat.two_pow_pos _)
  unfold FFmt.value at h
  simp only [hf.hasInf, Bool.and_true, decide_eq_true_eq] at h
  split at h
  · split at h <;> cases h
  · next hne =>
    simp only [hne, decide_false, Bool.false_and, Bool.false_eq_true, ↓reduceIte] at h
    split at h
    · cases h
      have hlog : Nat.log2 (x % 2 ^ f.pw) < f.pw := (Nat.log2_lt hk).mpr hfrac
      have := hf.biasPos
      omega
    · next hfield0 =>
      cases h
      have hlog : Nat.log2 (2 ^ f.pw + x % 2 ^ f.pw) = f.pw := by
        refine (Nat.log2_eq_iff hk).mpr ⟨Nat.le_add_right .., ?_⟩
        rw [Nat.pow_succ']
        omega
      rw [hlog]
      omega

end arithmetic

/-! ## Rounding what is exact -/

section full
variable {f : FFmt} {n : Nat} {q : Int}

/-- A significand of full length within the exponents is encoded as its fields. -/
theorem encode_full (neg : Bool) (hn : 2 ^ f.pw ≤ n) (hn' : n < 2 ^ (f.pw + 1)) (hq : 1 - (f.bias : Int) ≤ q + f.pw) :
    f.encode neg n q = f.assemble neg (q + f.pw + f.bias).toNat (n - 2 ^ f.pw) := by
  have hpos : n ≠ 0 := by
    have := Nat.two_pow_pos f.pw
    omega
  have hlog : Nat.log2 n = f.pw := (Nat.log2_eq_iff hpos).mpr ⟨hn, hn'⟩
  have hlift : Nat.min 0 (q - (1 - (f.bias : Int) - f.pw)).toNat = 0 := Nat.zero_min _
  have hfield : (q - (1 - (f.bias : Int) - f.pw) + 1).toNat = (q + f.pw + f.bias).toNat := by omega
  simp only [FFmt.encode, hpos, hlog, lt_irrefl, ↓reduceIte, Nat.sub_self, hlift, Nat.pow_zero, Nat.mul_one,
    Nat.not_lt.mpr hn, Nat.cast_zero, Int.sub_zero, hfield]
  rw [FFmt.assemble, Nat.add_assoc]

theorem tiny_full (hn : 2 ^ f.pw ≤ n) (hq : 1 - (f.bias : Int) ≤ q + f.pw) : f.tiny n q = false := by
  unfold FFmt.tiny
  dsimp only
  split
  · have := Nat.two_pow_pos f.pw
    exact decide_eq_false (by omega)
  · have hle : 2 ^ (1 - (f.bias : Int) - q).toNat ≤ 2 ^ f.pw := Nat.pow_le_pow_right (by decide) (by omega)
    exact decide_eq_false (by omega)

theorem exceeds_full (hf : f.Arithmetic) (hn' : n < 2 ^ (f.pw + 1)) (hq : q + f.pw ≤ f.bias) : f.exceeds n q = false := by
  unfold FFmt.exceeds
  rw [hf.greatest]
  dsimp only
  split
  · next hge =>
    have hshift : (q - ((f.bias : Int) - f.pw)).toNat = 0 := by omega
    rw [hshift, Nat.pow_zero, Nat.mul_one]
    exact decide_eq_false (by omega)
  · have hle : 2 ^ (f.pw + 1) - 1 ≤ (2 ^ (f.pw + 1) - 1) * 2 ^ ((f.bias : Int) - f.pw - q).toNat :=
      Nat.le_mul_of_pos_right _ (Nat.two_pow_pos _)
    exact decide_eq_false (by omega)

end full

/-- Nothing is added to a significand that is exact; only the free choice within 2 ulp may step off it. -/
theorem inc_exact {d : Dec} (hd : ∀ k, d ≠ .near k) (neg : Bool) (n sh : Nat) : d.inc neg n 0 sh false = 0 := by
  cases d with
  | near k => exact absurd rfl (hd k)
  | _ => rfl

/-- A significand of at most `pw + 1` bits, widened to full length. -/
theorem widened_bounds {m p : Nat} (hm : m ≠ 0) (hlen : Nat.log2 m ≤ p) :
    2 ^ p ≤ m * 2 ^ (p - Nat.log2 m) ∧ m * 2 ^ (p - Nat.log2 m) < 2 ^ (p + 1) := by
  have hp : p = Nat.log2 m + (p - Nat.log2 m) := by omega
  have hp1 : p + 1 = Nat.log2 m + 1 + (p - Nat.log2 m) := by omega
  constructor
  · calc 2 ^ p = 2 ^ Nat.log2 m * 2 ^ (p - Nat.log2 m) := by rw [← Nat.pow_add, ← hp]
      _ ≤ m * 2 ^ (p - Nat.log2 m) := Nat.mul_le_mul_right _ (Nat.log2_self_le hm)
  · calc m * 2 ^ (p - Nat.log2 m) < 2 ^ (Nat.log2 m + 1) * 2 ^ (p - Nat.log2 m) :=
          Nat.mul_lt_mul_of_pos_right Nat.lt_log2_self (Nat.two_pow_pos _)
      _ = 2 ^ (p + 1) := by rw [← Nat.pow_add, ← hp1]

/-- A magnitude of at most `pw + 1` bits within the exponents is rounded to its widened significand, with no flag. -/
theorem round_eq_encode {f : FFmt} (hf : f.Arithmetic) (flush neg : Bool) {d : Dec} (hd : ∀ k, d ≠ .near k) {m : Nat}
    {e : Int} (hm : m ≠ 0) (hlen : Nat.log2 m ≤ f.pw) (hlo : 1 - (f.bias : Int) ≤ e + Nat.log2 m)
    (hhi : e + Nat.log2 m ≤ f.bias) :
    f.round flush d neg m e false = (f.encode neg (m * 2 ^ (f.pw - Nat.log2 m)) (e + Nat.log2 m - f.pw), 0) := by
  let q : Int := e + Nat.log2 m - f.pw
  have hq : (if flush then q else max q (1 - (f.bias : Int) - f.pw)) = q := by
    split <;> omega
  have hn : (if e ≤ q then m / 2 ^ (q - e).toNat else m * 2 ^ (e - q).toNat) = m * 2 ^ (f.pw - Nat.log2 m) := by
    split
    · have hs : (q - e).toNat = 0 ∧ f.pw - Nat.log2 m = 0 := by omega
      rw [hs.1, hs.2, Nat.pow_zero, Nat.div_one, Nat.mul_one]
    · rw [show (e - q).toNat = f.pw - Nat.log2 m by omega]
  have hrem : (if e ≤ q then m % 2 ^ (q - e).toNat else 0) = 0 := by
    split
    · rw [show (q - e).toNat = 0 by omega, Nat.pow_zero, Nat.mod_one]
    · rfl
  obtain ⟨hfull, hfull'⟩ := widened_bounds hm hlen
  have hexceeds := exceeds_full hf (q := q) hfull' (by omega)
  have htiny := tiny_full (f := f) (q := q) hfull (by omega)
  unfold FFmt.round
  simp only [hm, decide_false, Bool.false_and, Bool.false_eq_true, ↓reduceIte]
  rw [hq, hn, hrem, inc_exact hd, Int.add_zero, Int.toNat_natCast, hexceeds, htiny]
  simp [flagIf, q]

/-- ROUNDING WHAT IS EXACT keeps the value. -/
theorem round_exact {f : FFmt} (hf : f.Arithmetic) (flush neg : Bool) {d : Dec} (hd : ∀ k, d ≠ .near k) {m : Nat} {e : Int}
    (hm : m ≠ 0) (hlen : Nat.log2 m ≤ f.pw) (hlo : 1 - (f.bias : Int) ≤ e + Nat.log2 m) (hhi : e + Nat.log2 m ≤ f.bias) :
    ∃ x, f.round flush d neg m e false = (x, 0) ∧ x < 2 ^ f.width ∧
      f.value x = .fin neg (m * 2 ^ (f.pw - Nat.log2 m)) (e - (f.pw - Nat.log2 m : Nat)) := by
  let q : Int := e + Nat.log2 m - f.pw
  obtain ⟨hfull, hfull'⟩ := widened_bounds hm hlen
  have hexp := hf.exponents
  have hbias := hf.biasPos
  have hfrac : m * 2 ^ (f.pw - Nat.log2 m) - 2 ^ f.pw < 2 ^ f.pw := by
    rw [Nat.pow_succ'] at hfull'
    omega
  refine ⟨_, round_eq_encode hf flush neg hd hm hlen hlo hhi, ?_, ?_⟩
  · rw [encode_full neg hfull hfull' (by omega)]
    exact assemble_lt f neg (by omega) hfrac
  · rw [encode_full neg hfull hfull' (by omega), value_assemble hf neg (by omega) (by omega) hfrac, Nat.add_sub_cancel' hfull]
    congr 1
    omega

/-- What lies between two units sets INEXACT, whether the result overflows, is flushed, or is encoded. -/
theorem round_sticky_inexact (f : FFmt) (flush : Bool) (d : Dec) (neg : Bool) (m : Nat) (e : Int) :
    (f.round flush d neg m e true).2 &&& fInexact = fInexact := by
  have outcome (beyond flushed under : Bool) (x y z : Nat) :
      (if beyond then (x, fOverflow ||| fInexact) else if flushed then (y, fFlush ||| fUnderflow ||| fInexact)
        else (z, flagIf true fInexact ||| flagIf under fUnderflow)).2 &&& fInexact = fInexact := by
    cases beyond with
    | true => exact (by decide : (fOverflow ||| fInexact) &&& fInexact = fInexact)
    | false =>
      cases flushed with
      | true => exact (by decide : (fFlush ||| fUnderflow ||| fInexact) &&& fInexact = fInexact)
      | false =>
        show (fInexact ||| flagIf under fUnderflow) &&& fInexact = fInexact
        cases under <;> decide
  unfold FFmt.round
  simp only [Bool.not_true, Bool.and_false, Bool.false_eq_true, ↓reduceIte, Bool.or_true, Bool.true_or]
  exact outcome ..

end Sys2Proof.Machine
end

section
/-! PROOFS. Special functions that are not correctly rounded: the special rows of FEXP2, FLOG2, FSIN, FCOS and FTANH, and
their exact results (R87, R175, R176, Table 12.9). -/

namespace Sys2Proof.Machine

/-! ## Words whose result the hardware chooses (R175) -/

/-- A word whose result for an operand, whatever the hardware's choice, satisfies `R`. -/
theorem claim_faithfulFn_of_freeFn {ctor : Ctl → FMod → Slots → Instr} {R : FFmt → FVal → Nat → Flags → Prop} (tag : Nat)
    (f : FMod → FVal → Nat → Nat × Flags) (he : ∀ x m o s, exec (ctor x m o) s = freeFn tag x m o (f m) s)
    (hR : ∀ m b pick, R (FTy.fmt m.fty) (FTy.opnd m.fty b).1 ((f m (FTy.opnd m.fty b).1 pick).1 % 2 ^ m.fty.ety.width)
      (f m (FTy.opnd m.fty b).1 pick).2) : Claim.faithfulFn ctor R := by
  intro x m o
  have hx := he x m o
  unfold freeFn plainF at hx
  dsimp only at hx
  refine ⟨_, _, yields_of_calc _ x o (tys m.fty.ety) [o.b] _ _ hx (fun _ _ _ _ _ _ => rfl), fun c w T v t => ?_⟩
  refine ⟨_, fun k hk => ?_, packFlags_flags _ _ _⟩
  dsimp only
  rw [packFlags_elem _ _ _ _ (width_mul_count _).le hk]
  exact hR m _ _

/-- A finite operand other than zero lies within the exponents of its format. -/
theorem opnd_range {t : FTy} {b k : Nat} {n : Bool} {e : Int} (h : (FTy.opnd t b).1 = .fin n k e) (hk : k ≠ 0) :
    -(((FTy.fmt t).bias : Int) + (FTy.fmt t).pw) ≤ e + Nat.log2 k ∧ e + Nat.log2 k ≤ (FTy.fmt t).bias := by
  unfold FTy.opnd FFmt.operand at h
  split at h
  · cases h
    exact absurd rfl hk
  · exact value_range (arithmetic_fmt t) h hk

section special
variable (t : FTy)

theorem nan_mod : (FTy.fmt t).nan % 2 ^ t.ety.width = (FTy.fmt t).nan := Nat.mod_eq_of_lt (special_lt t false).1
theorem inf_mod (n : Bool) : (FTy.fmt t).inf n % 2 ^ t.ety.width = (FTy.fmt t).inf n := Nat.mod_eq_of_lt (special_lt t n).2.1
theorem zero_mod (n : Bool) : (FTy.fmt t).zero n % 2 ^ t.ety.width = (FTy.fmt t).zero n :=
  Nat.mod_eq_of_lt (special_lt t n).2.2

theorem value_zero : ∃ e, (FTy.fmt t).value ((FTy.fmt t).zero false) = .fin false 0 e := by
  cases t <;> exact ⟨_, rfl⟩

end special

/-! ## Exact results -/

/-- A widened significand denotes what it denoted. -/
theorem dyEq_widened (m s : Nat) (e : Int) : Claim.dyEq (m * 2 ^ s) (e - s) m e := by
  rw [dyEq_of_le (by omega), show (e - (e - (s : Int))).toNat = s by omega]

theorem round_zero (f : FFmt) (flush neg : Bool) (d : Dec) (e : Int) : f.round flush d neg 0 e false = (f.zero neg, 0) := by
  simp [FFmt.round]

theorem mode_ne_near (rm : RMode) (r : Nat) : ∀ k, Dec.mode rm r ≠ .near k := nofun
theorem pick_ne_near (up : Bool) : ∀ k, Dec.pick up ≠ .near k := nofun

section exact
variable (t : FTy) (flush : Bool) {d : Dec} (hd : ∀ k, d ≠ .near k)
include hd

/-- A power of two within the exponents is exact. -/
theorem round_power {j : Int} (hlo : 1 - ((FTy.fmt t).bias : Int) ≤ j) (hhi : j ≤ (FTy.fmt t).bias) :
    Claim.denotesPow (FTy.fmt t) (((FTy.fmt t).round flush d false 1 j false).1 % 2 ^ t.ety.width) j ∧
      ((FTy.fmt t).round flush d false 1 j false).2 = 0 := by
  have hlog : Nat.log2 1 = 0 := by decide
  obtain ⟨x, hround, hlt, hval⟩ := round_exact (arithmetic_fmt t) flush false hd (m := 1) (e := j) (by decide) (by omega)
    (by omega) (by omega)
  rw [width_fmt] at hlt
  rw [hround, Nat.mod_eq_of_lt hlt]
  exact ⟨⟨_, _, hval, dyEq_widened ..⟩, rfl⟩

/-- An integer no greater than an exponent can be is exact. -/
theorem round_integer {j : Int} {neg : Bool} (hneg : neg = decide (j < 0))
    (hj : j.natAbs ≤ (FTy.fmt t).bias + (FTy.fmt t).pw) :
    Claim.denotes (FTy.fmt t) (((FTy.fmt t).round flush d neg j.natAbs 0 false).1 % 2 ^ t.ety.width) j ∧
      ((FTy.fmt t).round flush d neg j.natAbs 0 false).2 = 0 := by
  by_cases h0 : j = 0
  · subst h0
    subst hneg
    obtain ⟨e, hval⟩ := value_zero t
    rw [Int.natAbs_zero, round_zero]
    exact ⟨⟨false, 0, e, by rw [zero_mod]; exact hval, by simp [Claim.dyEq, Claim.dyLe], fun h => absurd rfl h⟩, rfl⟩
  · have hf := arithmetic_fmt t
    have hroomy := hf.roomy
    have hunits := hf.units
    have hbias := hf.biasPos
    have hlog : Nat.log2 j.natAbs < (FTy.fmt t).pw + 1 := (Nat.log2_lt (by omega)).mpr (by omega)
    obtain ⟨x, hround, hlt, hval⟩ := round_exact hf flush neg hd (m := j.natAbs) (e := 0) (by omega) (by omega)
      (by omega) (by omega)
    rw [width_fmt] at hlt
    rw [hround, Nat.mod_eq_of_lt hlt]
    exact ⟨⟨_, _, _, hval, dyEq_widened .., fun _ => hneg⟩, rfl⟩

end exact

/-- The limits of FTANH and the cosine of zero. -/
theorem round_unit (t : FTy) (neg : Bool) :
    Claim.denotes (FTy.fmt t) (((FTy.fmt t).round false (.mode .rne 0) neg 1 0 false).1 % 2 ^ t.ety.width)
        (if neg then -1 else 1) ∧
      ((FTy.fmt t).round false (.mode .rne 0) neg 1 0 false).2 = 0 := by
  have hbias := (arithmetic_fmt t).biasPos
  cases neg with
  | true => simpa using round_integer t false (mode_ne_near .rne 0) (j := -1) (neg := true) rfl (by omega)
  | false => simpa using round_integer t false (mode_ne_near .rne 0) (j := 1) (neg := false) rfl (by omega)

/-! ## Magnitudes that are integers -/

/-- A magnitude is an integer where no bit of it lies below the point. -/
theorem dyEq_integer_iff {k j : Nat} {e : Int} :
    Claim.dyEq k e j 0 ↔
      (0 ≤ e ∨ k % 2 ^ (-e).toNat = 0) ∧ (if 0 ≤ e then k * 2 ^ e.toNat else k / 2 ^ (-e).toNat) = j := by
  by_cases he : 0 ≤ e
  · simp [dyEq_of_ge he, he]
  · rw [dyEq_of_le (by omega), Int.zero_sub, if_neg he]
    have hpos := Nat.two_pow_pos (-e).toNat
    constructor
    · rintro rfl
      exact ⟨.inr (Nat.mul_mod_left ..), Nat.mul_div_cancel _ hpos⟩
    · rintro ⟨hge | hmod, rfl⟩
      · exact absurd hge he
      · exact (Nat.div_mul_cancel (Nat.dvd_of_mod_eq_zero hmod)).symm

theorem le_of_dyEq_integer {k j p : Nat} {e : Int} (h : Claim.dyEq k e j 0) (hk : k ≠ 0)
    (hp : (p : Int) ≤ Nat.log2 k + e) : 2 ^ p ≤ j := by
  have hself := Nat.log2_self_le hk
  by_cases he : 0 ≤ e
  · rw [dyEq_of_ge he, Int.sub_zero] at h
    calc 2 ^ p ≤ 2 ^ (Nat.log2 k + e.toNat) := Nat.pow_le_pow_right (by decide) (by omega)
      _ = 2 ^ Nat.log2 k * 2 ^ e.toNat := Nat.pow_add ..
      _ ≤ k * 2 ^ e.toNat := Nat.mul_le_mul_right _ hself
      _ = j := h
  · rw [dyEq_of_le (by omega)] at h
    refine Nat.le_of_mul_le_mul_right ?_ (Nat.two_pow_pos (0 - e).toNat)
    calc 2 ^ p * 2 ^ (0 - e).toNat = 2 ^ (p + (0 - e).toNat) := (Nat.pow_add ..).symm
      _ ≤ 2 ^ Nat.log2 k := Nat.pow_le_pow_right (by decide) (by omega)
      _ ≤ k := hself
      _ = j * 2 ^ (0 - e).toNat := h

theorem expClamp_eq {k : Int} (h : k.natAbs ≤ 6000) : expClamp k = k := by
  unfold expClamp
  rw [if_neg (by omega), if_neg (by omega)]

/-- FEXP2 of an integer whose power is in range is that power (Table 12.9). -/
theorem round_exp2_integer (t : FTy) (flush : Bool) {d : Dec} (hd : ∀ k, d ≠ .near k) {n : Bool} {k j : Nat} {e : Int}
    (hj : Claim.dyEq k e j 0) (hlo : 1 - ((FTy.fmt t).bias : Int) ≤ if n then -(j : Int) else j)
    (hhi : (if n then -(j : Int) else j) ≤ (FTy.fmt t).bias) :
    let b : Nat := if 0 ≤ e then k * 2 ^ e.toNat else k / 2 ^ (-e).toNat
    let y := (FTy.fmt t).round flush d false 1 (expClamp (if n then -(b : Int) else b)) false
    Claim.denotesPow (FTy.fmt t) (y.1 % 2 ^ t.ety.width) (if n then -(j : Int) else j) ∧ y.2 = 0 := by
  have hclamp := (arithmetic_fmt t).unclamped
  have hbias := (arithmetic_fmt t).biasPos
  dsimp only
  rw [(dyEq_integer_iff.mp hj).2]
  generalize (if n then -(j : Int) else j) = b at hlo hhi ⊢
  rw [expClamp_eq (by omega)]
  exact round_power t flush hd hlo hhi

/-- From 2^16 on an integer's power is out of range. -/
theorem exp2_out_of_range (t : FTy) {n : Bool} {k j : Nat} {e : Int} (hj : Claim.dyEq k e j 0) (hk : k ≠ 0)
    (hbig : 16 ≤ (Nat.log2 k : Int) + e) (hlo : 1 - ((FTy.fmt t).bias : Int) ≤ if n then -(j : Int) else j) :
    ¬ (if n then -(j : Int) else j) ≤ (FTy.fmt t).bias := by
  have hclamp := (arithmetic_fmt t).unclamped
  have hle : 2 ^ 16 ≤ j := le_of_dyEq_integer hj hk hbig
  cases n <;> simp only [Bool.false_eq_true, ↓reduceIte] at hlo ⊢ <;> omega

/-! ## The functions -/

theorem exec_fexp2 (x : Ctl) (m : FMod) (o : Slots) (s : State) : exec (.fexp2 x m o) s = execFexp2 x m o s := rfl
theorem exec_flog2 (x : Ctl) (m : FMod) (o : Slots) (s : State) : exec (.flog2 x m o) s = execFlog2 x m o s := rfl
theorem exec_fsin (x : Ctl) (m : FMod) (o : Slots) (s : State) : exec (.fsin x m o) s = execFsin x m o s := rfl
theorem exec_fcos (x : Ctl) (m : FMod) (o : Slots) (s : State) : exec (.fcos x m o) s = execFcos x m o s := rfl
theorem exec_ftanh (x : Ctl) (m : FMod) (o : Slots) (s : State) : exec (.ftanh x m o) s = execFtanh x m o s := rfl

/-- Each function by the class of its operand, and its finite operands by the rows of Table 12.9. -/
theorem faithfulFunctionsKeepTheirSpecialRows : Claim.FaithfulFunctionsKeepTheirSpecialRows := by
  refine ⟨claim_faithfulFn_of_freeFn 0x103 _ (fun x m o s => by rw [exec_fexp2, execFexp2]) fun m b pick => ?fexp2,
    claim_faithfulFn_of_freeFn 0x104 _ (fun x m o s => by rw [exec_flog2, execFlog2]) fun m b pick => ?flog2,
    claim_faithfulFn_of_freeFn 0x105 (trigFn false) exec_fsin fun m b pick => ?fsin,
    claim_faithfulFn_of_freeFn 0x106 (trigFn true) exec_fcos fun m b pick => ?fcos,
    claim_faithfulFn_of_freeFn 0x107 _ (fun x m o s => by rw [exec_ftanh, execFtanh]) fun m b pick => ?ftanh⟩
  case fexp2 =>
    rcases (FTy.opnd m.fty b).1 with _ | n | ⟨n, k, e⟩ <;> dsimp only
    case nan => exact ⟨nan_mod m.fty, rfl⟩
    case inf =>
      cases n with
      | true => exact ⟨zero_mod m.fty false, rfl⟩
      | false => exact ⟨inf_mod m.fty false, rfl⟩
    case fin =>
      by_cases hk : k = 0
      · subst hk
        refine ⟨fun j hj _ _ => ?_, fun hnone => absurd (dyEq_integer_iff.mpr ⟨.inr (Nat.zero_mod _), rfl⟩) (hnone _)⟩
        obtain rfl : j = 0 := by simpa using (dyEq_integer_iff.mp hj).2.symm
        have hbias := (arithmetic_fmt m.fty).biasPos
        simp only [↓reduceIte, Nat.cast_zero, Int.neg_zero, ite_self]
        exact round_power m.fty _ (mode_ne_near _ _) (by omega) (by omega)
      · by_cases hbig : 16 ≤ (Nat.log2 k : Int) + e
        · simp only [hk, hbig, ↓reduceIte]
          exact ⟨fun j hj hlo hhi => absurd hhi (exp2_out_of_range m.fty hj hk hbig hlo), fun _ => round_sticky_inexact ..⟩
        · simp only [hk, hbig, ↓reduceIte, Bool.or_eq_true, decide_eq_true_eq]
          by_cases hint : 0 ≤ e ∨ k % 2 ^ (-e).toNat = 0
          · rw [if_pos hint]
            exact ⟨fun j hj hlo hhi => round_exp2_integer m.fty _ (pick_ne_near _) hj hlo hhi,
              fun hnone => absurd (dyEq_integer_iff.mpr ⟨hint, rfl⟩) (hnone _)⟩
          · rw [if_neg hint]
            exact ⟨fun j hj => absurd (dyEq_integer_iff.mp hj).1 hint, fun _ => round_sticky_inexact ..⟩
  case flog2 =>
    generalize hv : (FTy.opnd m.fty b).1 = v
    rcases v with _ | n | ⟨n, k, e⟩ <;> dsimp only
    case nan => exact ⟨nan_mod m.fty, rfl⟩
    case inf =>
      cases n with
      | true => exact ⟨nan_mod m.fty, rfl⟩
      | false => exact ⟨inf_mod m.fty false, rfl⟩
    case fin =>
      by_cases hk : k = 0
      · rw [if_pos hk, if_pos hk]
        exact ⟨inf_mod m.fty true, rfl⟩
      · rw [if_neg hk, if_neg hk]
        cases n with
        | true => exact ⟨nan_mod m.fty, rfl⟩
        | false =>
          rw [if_neg Bool.false_ne_true, if_neg Bool.false_ne_true]
          by_cases hpow : k = 2 ^ Nat.log2 k
          · rw [if_pos hpow, if_pos hpow]
            have hrange := opnd_range hv hk
            exact round_integer m.fty _ (mode_ne_near _ _) rfl (by omega)
          · rw [if_neg hpow, if_neg hpow]
            exact round_sticky_inexact ..
  case fsin =>
    rcases (FTy.opnd m.fty b).1 with _ | n | ⟨n, k, e⟩ <;> dsimp only [trigFn]
    case nan => exact ⟨nan_mod m.fty, rfl⟩
    case inf => exact ⟨nan_mod m.fty, rfl⟩
    case fin =>
      split
      · exact ⟨zero_mod m.fty n, rfl⟩
      · split
        · exact ⟨nan_mod m.fty, rfl⟩
        · exact round_sticky_inexact ..
  case fcos =>
    rcases (FTy.opnd m.fty b).1 with _ | n | ⟨n, k, e⟩ <;> dsimp only [trigFn]
    case nan => exact ⟨nan_mod m.fty, rfl⟩
    case inf => exact ⟨nan_mod m.fty, rfl⟩
    case fin =>
      split
      · exact round_unit m.fty false
      · split
        · exact ⟨nan_mod m.fty, rfl⟩
        · exact round_sticky_inexact ..
  case ftanh =>
    rcases (FTy.opnd m.fty b).1 with _ | n | ⟨n, k, e⟩ <;> dsimp only
    case nan => exact ⟨nan_mod m.fty, rfl⟩
    case inf => exact round_unit m.fty n
    case fin =>
      split
      · exact ⟨zero_mod m.fty n, rfl⟩
      · exact round_sticky_inexact ..

/-- Settles O6, from the words that round correctly, the magnitudes that they round, and the special rows of the others. -/
theorem specialFunctionWords : Obligations.SpecialFunctionWords :=
  ⟨reciprocalRootAndQuotientWords, quotientsAndRootsAreBroughtExactly, faithfulFunctionsKeepTheirSpecialRows⟩

end Sys2Proof.Machine
end

section
/-! PROOFS. Safe states: the machine starts in one, and every turn, and so every step, leads from one to another (R97, R155,
R288). -/

namespace Sys2Proof.Machine

/-- Every row of the table keeps safe states safe: row by row, what the laws of its meaning say. -/
theorem exec_safe (i : Instr) {s : State} (hs : s.safe = true) : SafeOut (exec i s) :=
  match i with
  | .ill => execIll_safe hs
  | .iadd x m o => execIadd_safe x m o hs
  | .isub x m o => execIsub_safe x m o hs
  | .iaddc x o => execIaddc_safe x o hs
  | .imul x m o => execImul_safe x m o hs
  | .imulh x m o => execImulh_safe x m o hs
  | .imad x m o => execImad_safe x m o hs
  | .idiv x m o => execIdiv_safe x m o hs
  | .irem x m o => execIrem_safe x m o hs
  | .ineg x m o => execIneg_safe x m o hs
  | .iabs x m o => execIabs_safe x m o hs
  | .imin x m o => execImin_safe x m o hs
  | .imax x m o => execImax_safe x m o hs
  | .andL x m o => execAnd_safe x m o hs
  | .orL x m o => execOr_safe x m o hs
  | .xorL x m o => execXor_safe x m o hs
  | .andn x m o => execAndn_safe x m o hs
  | .shl x m o => execShl_safe x m o hs
  | .shr x m o => execShr_safe x m o hs
  | .sar x m o => execSar_safe x m o hs
  | .rol x m o => execRol_safe x m o hs
  | .clz x m o => execClz_safe x m o hs
  | .ctz x m o => execCtz_safe x m o hs
  | .popc x m o => execPopc_safe x m o hs
  | .brev x m o => execBrev_safe x m o hs
  | .bfx x m o => execBfx_safe x m o hs
  | .bfi x m o => execBfi_safe x m o hs
  | .sel x m o => execSel_safe x m o hs
  | .mov x m o => execMov_safe x m o hs
  | .lea x m o => execLea_safe x m o hs
  | .icmp x m o => execIcmp_safe x m o hs
  | .padd x m o => execPadd_safe x m o hs
  | .psub x m o => execPsub_safe x m o hs
  | .pmul x m o => execPmul_safe x m o hs
  | .pmad x m o => execPmad_safe x m o hs
  | .pmin x m o => execPmin_safe x m o hs
  | .pmax x m o => execPmax_safe x m o hs
  | .pabs x m o => execPabs_safe x m o hs
  | .pavg x m o => execPavg_safe x m o hs
  | .psad x m o => execPsad_safe x m o hs
  | .pdot x m o => execPdot_safe x m o hs
  | .pcmp x m o => execPcmp_safe x m o hs
  | .pshl x m o => execPshl_safe x m o hs
  | .pshr x m o => execPshr_safe x m o hs
  | .fadd x m o => execFadd_safe x m o hs
  | .fsub x m o => execFsub_safe x m o hs
  | .fmul x m o => execFmul_safe x m o hs
  | .fma x m o => execFma_safe x m o hs
  | .fmin x m o => execFmin_safe x m o hs
  | .fmax x m o => execFmax_safe x m o hs
  | .fabs x m o => execFabs_safe x m o hs
  | .fneg x m o => execFneg_safe x m o hs
  | .fcmp x m o => execFcmp_safe x m o hs
  | .fclass x m o => execFclass_safe x m o hs
  | .fdot2 x m o => execFdot2_safe x m o hs
  | .fscale x m o => execFscale_safe x m o hs
  | .frcp x m o => execFrcp_safe x m o hs
  | .frsq x m o => execFrsq_safe x m o hs
  | .fsqrt x m o => execFsqrt_safe x m o hs
  | .fexp2 x m o => execFexp2_safe x m o hs
  | .flog2 x m o => execFlog2_safe x m o hs
  | .fsin x m o => execFsin_safe x m o hs
  | .fcos x m o => execFcos_safe x m o hs
  | .ftanh x m o => execFtanh_safe x m o hs
  | .fdiv x m o => execFdiv_safe x m o hs
  | .cvt x m o => execCvt_safe x m o hs
  | .pack x m o => execPack_safe x m o hs
  | .unpack x m o => execUnpack_safe x m o hs
  | .swz x m o => execSwz_safe x m o hs
  | .shfl x m o => execShfl_safe x m o hs
  | .bcast x m o => execBcast_safe x m o hs
  | .wred x m o => execWred_safe x m o hs
  | .wscan x m o => execWscan_safe x m o hs
  | .vote x m o => execVote_safe x m o hs
  | .matchW x o => execMatch_safe x o hs
  | .wset x o => execWset_safe x o hs
  | .first x o => execFirst_safe x o hs
  | .pset x o => execPset_safe x o hs
  | .plop x m inv o => execPlop_safe x m inv o hs
  | .pmov x o => execPmov_safe x o hs
  | .pmovScatter x o => execPmovScatter_safe x o hs
  | .ld x m o => execLd_safe x m o hs
  | .st x m o => execSt_safe x m o hs
  | .ldu x m o => execLdu_safe x m o hs
  | .stu x m o => execStu_safe x m o hs
  | .ldh x m o => execLdh_safe x m o hs
  | .chk x m o => execChk_safe x m o hs
  | .ldm x m o => execLdm_safe x m o hs
  | .pref x llc off o => execPref_safe x llc off o hs
  | .locq x o => execLocq_safe x o hs
  | .dcf x o => execDcf_safe x o hs
  | .cflush x op off o => execCflush_safe x op off o hs
  | .atom x m o => execAtom_safe x m o hs
  | .atomc x m o => execAtomc_safe x m o hs
  | .red x m o => execRed_safe x m o hs
  | .xst x m o => execXst_safe x m o hs
  | .xstReceiverResident r => execXstReceiverResident_safe r hs
  | .phase x m o => execPhase_safe x m o hs
  | .fence x m o => execFence_safe x m o hs
  | .bar x op o => execBar_safe x op o hs
  | .tbar x pass swap o => execTbar_safe x pass swap o hs
  | .wait x m o => execWait_safe x m o hs
  | .waitTimeout id => execWaitTimeout_safe id hs
  | .wakeUp id => execWakeUp_safe id hs
  | .await x o => execAwait_safe x o hs
  | .arrv x op o => execArrv_safe x op o hs
  | .txb x o => execTxb_safe x o hs
  | .txc x o => execTxc_safe x o hs
  | .txa x o => execTxa_safe x o hs
  | .txs x o => execTxs_safe x o hs
  | .yieldW x o => execYield_safe x o hs
  | .coalescingWindowClose core lane slot line store => execCoalescingWindowClose_safe core lane slot line store hs
  | .cpy x m o => execCpy_safe x m o hs
  | .cpyt x m o => execCpyt_safe x m o hs
  | .cpym x m o => execCpym_safe x m o hs
  | .cpyg x m o => execCpyg_safe x m o hs
  | .gth x m o => execGth_safe x m o hs
  | .sct x m o => execSct_safe x m o hs
  | .qfence x qset o => execQfence_safe x qset o hs
  | .engineQueuePush r => execEngineQueuePush_safe r hs
  | .copyLanding cmd line => execCopyLanding_safe cmd line hs
  | .commandCompletion cmd => execCommandCompletion_safe cmd hs
  | .gatherWindow cmd => execGatherWindow_safe cmd hs
  | .scatterPosition cmd j => execScatterPosition_safe cmd j hs
  | .wld x m o => execWld_safe x m o hs
  | .wldFillStart core => execWldFillStart_safe core hs
  | .weightExchange core => execWeightExchange_safe core hs
  | .mma x m o => execMma_safe x m o hs
  | .mms x m o => execMms_safe x m o hs
  | .mmr x m o => execMmr_safe x m o hs
  | .collectorDelivery core lane => execCollectorDelivery_safe core lane hs
  | .aclr x m o => execAclr_safe x m o hs
  | .matrixCommandStart core => execMatrixCommandStart_safe core hs
  | .rowRetire core cmd => execRowRetire_safe core cmd hs
  | .matrixCommandComplete core cmd => execMatrixCommandComplete_safe core cmd hs
  | .epi x m o => execEpi_safe x m o hs
  | .epiDrain core => execEpiDrain_safe core hs
  | .board x m o => execBoard_safe x m o hs
  | .unite x nc o => execUnite_safe x nc o hs
  | .find x nc o => execFind_safe x nc o hs
  | .fsize x nc o => execFsize_safe x nc o hs
  | .relabel x m o => execRelabel_safe x m o hs
  | .fsnap x op rcd o => execFsnap_safe x op rcd o hs
  | .fundo x rcd o => execFundo_safe x rcd o hs
  | .spawn x rcd o => execSpawn_safe x rcd o hs
  | .trap x code o => execTrap_safe x code o hs
  | .sysc x code o => execSysc_safe x code o hs
  | .brk x code o => execBrk_safe x code o hs
  | .rft x op o => execRft_safe x op o hs
  | .srd x sel o => execSrd_safe x sel o hs
  | .swr x sel o => execSwr_safe x sel o hs
  | .rstl x o => execRstl_safe x o hs
  | .launch x o => execLaunch_safe x o hs
  | .perf x slice o => execPerf_safe x slice o hs
  | .halt x code o => execHalt_safe x code o hs
  | .nop x o => execNop_safe x o hs
  | .launchQueueDoorbell q tail => execLaunchQueueDoorbell_safe q tail hs
  | .launchAcceptance => execLaunchAcceptance_safe hs
  | .guardRead l => execGuardRead_safe l hs
  | .blockAdmission l core => execBlockAdmission_safe l core hs
  | .blockEnd b => execBlockEnd_safe b hs
  | .packerTimeout l stage => execPackerTimeout_safe l stage hs
  | .formedWarpStart l b => execFormedWarpStart_safe l b hs
  | .terminationRound l => execTerminationRound_safe l hs
  | .faultRecordPost k => execFaultRecordPost_safe k hs
  | .fqReplyReplay seq => execFqReplyReplay_safe seq hs
  | .fqReplyFatal seq => execFqReplyFatal_safe seq hs
  | .fqReplyResume seq => execFqReplyResume_safe seq hs
  | .tinv v => execTinv_safe v hs
  | .icinv => execIcinv_safe hs
  | .preEmptCore core => execPreEmptCore_safe core hs
  | .preEmptLaunch => execPreEmptLaunch_safe hs
  | .cancelLaunch => execCancelLaunch_safe hs
  | .restoreQueue core => execRestoreQueue_safe core hs
  | .restore k => execRestore_safe k hs
  | .restcap k => execRestcap_safe k hs
  | .ctlHostWrite sel v => execCtlHostWrite_safe sel v hs
  | .ctlerrClear => execCtlerrClear_safe hs
  | .controlWindowWrite off v => execControlWindowWrite_safe off v hs
  | .hostMemoryWrite off v => execHostMemoryWrite_safe off v hs
  | .hostMemoryRead off => execHostMemoryRead_safe off hs
  | .snextArm v => execSnextArm_safe v hs
  | .snextDisarm => execSnextDisarm_safe hs
  | .rstatClear => execRstatClear_safe hs
  | .ringStep => execRingStep_safe hs
  | .followEpoch => execFollowEpoch_safe hs
  | .towerReset d force => execTowerReset_safe d force hs
  | .towerResetEnd d => execTowerResetEnd_safe d hs
  | .pcap v => execPcap_safe v hs
  | .checkpointSave a => execCheckpointSave_safe a hs
  | .checkpointRestore a => execCheckpointRestore_safe a hs
  | .checkpointDone => execCheckpointDone_safe hs
  | .counterSelectWrite u unit n v => execCounterSelectWrite_safe u unit n v hs
  | .moduleReset images failedTower transitOk badCores => execModuleReset_safe images failedTower transitOk badCores hs
  | .getVersion port => execGetVersion_safe port hs
  | .getCapabilities port => execGetCapabilities_safe port hs
  | .negotiateAlgorithms port => execNegotiateAlgorithms_safe port hs
  | .getDigests port => execGetDigests_safe port hs
  | .getCertificate port => execGetCertificate_safe port hs
  | .challenge port => execChallenge_safe port hs
  | .getMeasurements port => execGetMeasurements_safe port hs
  | .bexsetRequest dome source tag seq addr op => execBexsetRequest_safe dome source tag seq addr op hs
  | .bexsetRetransmit tag => execBexsetRetransmit_safe tag hs
  | .bexsetResponse tag v => execBexsetResponse_safe tag v hs
  | .bexsetAck dome source tag seq => execBexsetAck_safe dome source tag seq hs
  | .ucieLinkRetry dome => execUcieLinkRetry_safe dome hs
  | .timeCorrection offset => execTimeCorrection_safe offset hs
  | .ageingSample marked => execAgeingSample_safe marked hs
  | .coreRetirement core => execCoreRetirement_safe core hs
  | .wldFillComplete core => execWldFillComplete_safe core hs
  | .aclrStart core => execAclrStart_safe core hs
  | .aclrClearComplete core cmd => execAclrClearComplete_safe core cmd hs
  | .patchGather cmd => execPatchGather_safe cmd hs
  | .conjunctionOperation slice op => execConjunctionOperation_safe slice op hs
  | .tinvComplete => execTinvComplete_safe hs
  | .icinvComplete => execIcinvComplete_safe hs
  | .pstateChange v => execPstateChange_safe v hs

theorem whole_safe (i : Instr) {s : State} (hs : s.safe = true) : SafeOut (whole i s) :=
  exec_safe i (settleWhole_safe i hs)

/-- Every turn keeps safe states safe. -/
theorem act_safe (t : Turn) {s : State} (hs : s.safe = true) : SafeOut (s.act t) := by
  cases t with
  | issue core lane => exact issue_safe core lane whole (fun i _ => whole_safe i) hs
  | issueLate core lane => exact issue_safe core lane _ (fun i _ => lateOr_safe (fun j _ => exec_safe j) i) hs
  | resume r => exact resumeWith_safe whole r (fun i _ => whole_safe i) hs
  | event e =>
    show SafeOut (if e.isWord then .next s else exec e (s.settleEvent e))
    split
    · exact safeOut_next hs
    · exact exec_safe e (settleEvent_safe e hs)
  | land id t g => exact safeOut_next (land1_safe id t g hs)
  | dropClean core line => exact safeOut_next (dropCleanLine_safe core line hs)
  | publishPart r g => exact safeOut_next (publishPart_safe whole r g hs)
  | savePart core g => exact safeOut_next (savePart_safe core g hs)
  | applyReds line => exact safeOut_next (applyReds_safe line (gate_safe [64 * line] hs))
  | drainReplica dome g => exact safeOut_next (drainGroup_safe dome g hs)
  | dropReplica dome line => exact safeOut_next (dropReplicaLine_safe dome line hs)
  | dropView line => exact safeOut_next (dropView_safe line hs)
  | dropHost line => exact safeOut_next (dropHost_safe line hs)
  | proxyDrain g => exact safeOut_next (proxyGo_safe g hs)
  | fillLine core line => exact safeOut_next (fillEarly_safe core line hs)
  | dropTlb core i => exact safeOut_next (dropTlbEntry_safe core i hs)
  | dropWalk dome a => exact safeOut_next (forget_safe dome a hs)
  | dropCode core a => exact safeOut_next (dropCode_safe core a hs)
  | fillTlb core va => exact safeOut_next (translate_safe core .read va hs)
  | commitStart r => exact safeOut_next (commitStart_safe r hs)
  | bump u unit event lane prio => exact safeOut_next (bump_safe u unit event lane prio hs)
  | cancelWaits ctx => exact safeOut_next (cancelWaits_safe ctx hs)
  | windowRead off n => exact safeOut_next (windowRead_safe off n hs)
  | resizeBar memory log => exact safeOut_next (resizeBar_safe memory log hs)
  | powerSample => exact safeOut_next (powerSample_safe hs)
  | damageLine line => exact safeOut_next (damageLanded_safe line hs)
  | damageScratch blk off => exact safeOut_next (damageScratchLanded_safe blk off hs)
  | damageReg k r => exact safeOut_next (damageReg_safe k r hs)
  | corruptTile i b => exact safeOut_next (corruptTile_safe i b hs)
  | readAhead c line => exact safeOut_next (readAhead_safe c line hs)
  | saveGo => exact safeOut_next (saveTurn_safe hs)
  | outsideWrite a v => exact safeOut_next (outsideWrite_safe a v hs)
  | idle => exact safeOut_next hs

/-- A turn that enters a trap is taken after the accesses its warp has under way: both runs keep safe states safe. -/
theorem tryTurn_safe (t : Turn) {s : State} (hs : s.safe = true) : SafeOut (s.tryTurn t) := by
  have hasker : ({ s with asker := t } : State).safe = true := safe_of_eq hs rfl rfl
  have hact := act_safe t hasker
  unfold State.tryTurn
  dsimp only
  split
  · rename_i r hr
    split
    · exact safeOut_next (hact r hr)
    · exact act_safe t (landAll_safe _ hasker)
  · exact safeOut_fault _
  · rintro u ⟨⟩

theorem turn_safe (t : Turn) {s : State} (hs : s.safe = true) : SafeOut (s.turn t) := by
  have htry := tryTurn_safe t hs
  unfold State.turn
  split
  · rename_i r hr
    split
    · exact safeOut_next (taken_safe hs (htry r hr))
    · exact safeOut_next (hold_safe t r.wants hs)
  · exact safeOut_fault _
  · rintro u ⟨⟩

/-- Settles O58: a step lands the held ring tile or takes a turn, and each keeps safe states safe. -/
theorem everyStepKeepsTheStateSafe : Obligations.EveryStepKeepsTheStateSafe := by
  intro s t hs hstep
  unfold step at hstep
  split at hstep
  · exact safeOut_next (landHeld_safe hs) t hstep
  · exact turn_safe _ (nextTurn_safe hs) t hstep

theorem reset_ctl_legal : State.reset.ctl.legal = true := by decide

/-- Settles O54: memory and the control registers after reset are legal, and the registers are the literals of the reset state. -/
theorem resetIsSafe : Obligations.ResetIsSafe :=
  ⟨safe_mk reset_mem_wf reset_ctl_legal, rfl, rfl, rfl, rfl, rfl, rfl, rfl, rfl, rfl, rfl, rfl, rfl, rfl⟩

end Sys2Proof.Machine
end

section
/-! PROOFS. Bytes: numbers and their bytes, banks of scratchpad, loaded values, and the accesses of scratchpad (R7, R88, R192,
R194). -/

namespace Sys2Proof.Machine

/-! ## Numbers and their bytes (R7) -/

theorem leNat_cons (b : Byte) (bs : List Byte) : leNat (b :: bs) = b.toNat + 256 * leNat bs := rfl

theorem leNat_lt (bs : List Byte) : leNat bs < 256 ^ bs.length := by
  induction bs with
  | nil => exact Nat.one_pos
  | cons b bs ih =>
    have hb := b.isLt
    rw [leNat_cons, List.length_cons, Nat.pow_succ]
    omega

/-- Byte `i` of a number read from bytes is byte `i` of them. -/
theorem leNat_byte (bs : List Byte) : ∀ i, BitVec.ofNat 8 (leNat bs / 256 ^ i) = bs.getD i 0 := by
  induction bs with
  | nil => intro i; simp [leNat]
  | cons b bs ih =>
    have hb := b.isLt
    rintro (_ | i)
    · refine BitVec.eq_of_toNat_eq ?_
      simp [leNat_cons]
      omega
    · rw [leNat_cons, Nat.pow_succ', ← Nat.div_div_eq_div_mul, show (b.toNat + 256 * leNat bs) / 256 = leNat bs by omega]
      exact ih i

@[simp] theorem leBytes_length (n v : Nat) : (leBytes n v).length = n := by simp [leBytes]

theorem leBytes_getD (n v : Nat) {i : Nat} (hi : i < n) : (leBytes n v).getD i 0 = BitVec.ofNat 8 (v / 256 ^ i) := by
  simp [leBytes, hi]

theorem extract_byte (v : Word) (i : Nat) : v.extractLsb' (8 * i) 8 = BitVec.ofNat 8 (v.toNat / 256 ^ i) := by
  rw [BitVec.extractLsb', Nat.shiftRight_eq_div_pow, Nat.pow_mul]

/-- The bytes of a word are its bits in eights. -/
theorem leBytes_word (n : Nat) (v : Word) {i : Nat} (hi : i < n) : (leBytes n v.toNat).getD i 0 = v.extractLsb' (8 * i) 8 := by
  rw [leBytes_getD n _ hi, extract_byte]

/-! ## Loaded values (R192) -/

theorem bytes_pos (m : MTy) : 0 < m.bytes := by cases m <;> decide
theorem bytes_le (m : MTy) : 8 * m.bytes ≤ 64 := by cases m <;> decide

theorem toInt_ofNat (w v : Nat) (h : v < 2 ^ w) (hw : 0 < w) : (BitVec.ofNat w v).toInt = toInt true w v := by
  obtain ⟨u, rfl⟩ : ∃ u, w = u + 1 := ⟨w - 1, by omega⟩
  rw [BitVec.toInt, BitVec.toNat_ofNat, Nat.mod_eq_of_lt h, toInt, Nat.mod_eq_of_lt h, Nat.add_sub_cancel]
  rw [Nat.pow_succ] at h ⊢
  split <;> split <;> simp_all <;> omega

/-- An extended value is its bytes as a bit vector, extended by its type's sign. -/
theorem extendBytes_eq (m : MTy) {bs : List Byte} (h : bs.length = m.bytes) :
    extendBytes m bs = if m.signed then (BitVec.ofNat (8 * m.bytes) (leNat bs)).signExtend 64
      else (BitVec.ofNat (8 * m.bytes) (leNat bs)).setWidth 64 := by
  have hlt : leNat bs < 2 ^ (8 * m.bytes) := by
    rw [Nat.pow_mul, ← h]; exact leNat_lt bs
  have hpos := bytes_pos m
  unfold extendBytes
  split
  · rw [BitVec.signExtend, toInt_ofNat _ _ hlt (by omega)]
  · refine BitVec.eq_of_toNat_eq ?_
    simp [Nat.mod_eq_of_lt hlt]

theorem getLsbD_leNat {n : Nat} (bs : List Byte) {i j : Nat} (hi : i < n) (hj : j < 8) :
    (BitVec.ofNat (8 * n) (leNat bs)).getLsbD (8 * i + j) = (bs.getD i 0).getLsbD j := by
  rw [← leNat_byte, BitVec.getLsbD_ofNat, BitVec.getLsbD_ofNat, show (256 : Nat) = 2 ^ 8 from rfl, ← Nat.pow_mul,
    Nat.testBit_div_two_pow]
  rw [Nat.add_comm j, decide_eq_true (show 8 * i + j < 8 * n by omega), decide_eq_true hj]

/-- An extended value is loaded: its bytes in order, and above them zeros or copies of the sign. -/
theorem extendBytes_loaded (m : MTy) {bs : List Byte} (h : bs.length = m.bytes) :
    Claim.loaded m (extendBytes m bs) (fun i => bs.getD i 0) := by
  have hle := bytes_le m
  have hpos := bytes_pos m
  have hbit : ∀ j, j < 64 → (extendBytes m bs).getLsbD j =
      if j < 8 * m.bytes then (BitVec.ofNat (8 * m.bytes) (leNat bs)).getLsbD j
      else m.signed && (BitVec.ofNat (8 * m.bytes) (leNat bs)).getLsbD (8 * m.bytes - 1) := by
    intro j hj
    rw [extendBytes_eq m h]
    cases hs : m.signed
    · rw [if_neg Bool.false_ne_true, BitVec.getLsbD_setWidth]
      split
      · simp [hj]
      · rw [BitVec.getLsbD_of_ge _ _ (by omega)]; simp
    · rw [if_pos rfl, BitVec.getLsbD_signExtend, BitVec.msb_eq_getLsbD_last]
      simp [hj]
  constructor
  · intro i hi
    refine BitVec.eq_of_getLsbD_eq fun j hj => ?_
    rw [BitVec.getLsbD_extractLsb', hbit _ (by omega), if_pos (by omega), getLsbD_leNat bs hi hj]
    simp [hj]
  · intro j hlo hhi
    rw [hbit j hhi, if_neg (by omega), hbit _ (by omega), if_pos (by omega)]

/-! ## Banks (R88) -/

/-- A bank after a write: the bytes written, and elsewhere what it held. -/
theorem get_putBank (b : Sparse Byte) (off : Nat) (bs : List Byte) (a : Nat) :
    Sparse.get 0 (putBank b off bs) a =
      if off ≤ a ∧ a < off + bs.length then bs.getD (a - off) 0 else Sparse.get 0 b a := by
  have hpre : ∀ n, Sparse.get 0 ((List.range n).foldl (fun acc i => Sparse.set 0 acc (off + i) (bs.getD i 0)) b) a =
      if off ≤ a ∧ a < off + n then bs.getD (a - off) 0 else Sparse.get 0 b a := by
    intro n
    induction n with
    | zero => rw [if_neg (by omega)]; rfl
    | succ n ih =>
      rw [List.range_succ, List.foldl_append, List.foldl_cons, List.foldl_nil, Sparse.get_set, ih]
      by_cases ha : a = off + n
      · rw [if_pos ha, if_pos (by omega), ha, Nat.add_sub_cancel_left]
      · rw [if_neg ha]
        exact if_congr (by omega) rfl rfl
  exact hpre bs.length

/-- A bank after the store of the low bytes of a word. -/
theorem get_putBank_word (b : Sparse Byte) (off n : Nat) (v : Word) (a : Nat) :
    Sparse.get 0 (putBank b off (leBytes n v.toNat)) a =
      if off ≤ a ∧ a < off + n then v.extractLsb' (8 * (a - off)) 8 else Sparse.get 0 b a := by
  rw [get_putBank, leBytes_length]
  split
  · exact leBytes_word n v (by omega)
  · rfl

@[simp] theorem liveBytes_length (b : Block) (off n : Nat) : (b.liveBytes off n).length = n := by simp [Block.liveBytes]

theorem liveBytes_getD (b : Block) (off n : Nat) {i : Nat} (hi : i < n) :
    (b.liveBytes off n).getD i 0 = Sparse.get 0 b.live (off + i) := by
  simp [Block.liveBytes, hi]

theorem bankOk_iff (s : State) (b : Block) (off : Int) (n : Nat) :
    s.bankOk b off n = true ↔ 0 ≤ off ∧ off + n ≤ s.bankBytes b := by
  simp [State.bankOk]

/-- No byte of a run of scratchpad is damaged. -/
def State.soundRun (s : State) (blk lo n : Nat) : Prop := ∀ a, lo ≤ a → a < lo + n → (blk, a) ∉ s.badS

theorem badRun_iff (s : State) (blk lo n : Nat) :
    s.badS.any (fun e => e.1 = blk && lo ≤ e.2 && e.2 < lo + n) = true ↔ ∃ a, lo ≤ a ∧ a < lo + n ∧ (blk, a) ∈ s.badS := by
  rw [List.any_eq_true]
  constructor
  · rintro ⟨⟨b, a⟩, hmem, h⟩
    simp only [Bool.and_eq_true, decide_eq_true_eq] at h
    obtain ⟨⟨rfl, hlo⟩, hhi⟩ := h
    exact ⟨a, hlo, hhi, hmem⟩
  · rintro ⟨a, hlo, hhi, hmem⟩
    exact ⟨(blk, a), hmem, by simp [hlo, hhi]⟩

theorem badRun_of_sound {s : State} {blk lo n : Nat} (h : s.soundRun blk lo n) :
    s.badS.any (fun e => e.1 = blk && lo ≤ e.2 && e.2 < lo + n) = false := by
  rw [Bool.eq_false_iff, Ne, badRun_iff]
  rintro ⟨a, hlo, hhi, hmem⟩
  exact h a hlo hhi hmem

section scratch
variable {s : State} {blk : Nat} {b : Block} (hb : s.blockAt blk = some b) {off : Int} {n : Nat}
include hb

theorem loadS_of_outside (h : ¬ (0 ≤ off ∧ off + n ≤ s.bankBytes b)) :
    s.loadS blk off n = .error (.trap tSCRATCH (offWord off)) := by
  simp only [State.loadS, hb, Bool.eq_false_iff.mpr (mt (bankOk_iff s b off n).mp h), Bool.not_false, ↓reduceIte]

theorem loadS_of_damaged (h : 0 ≤ off ∧ off + n ≤ s.bankBytes b)
    (hbad : ∃ a, off.toNat ≤ a ∧ a < off.toNat + n ∧ (blk, a) ∈ s.badS) :
    s.loadS blk off n = .error (.uce (offWord off)) := by
  simp only [State.loadS, hb, (bankOk_iff s b off n).mpr h, (badRun_iff s blk off.toNat n).mpr hbad, Bool.not_true,
    Bool.false_eq_true, ↓reduceIte]

theorem loadS_of_sound (h : 0 ≤ off ∧ off + n ≤ s.bankBytes b) (hsound : s.soundRun blk off.toNat n) :
    s.loadS blk off n = .ok (b.liveBytes off.toNat n) := by
  simp only [State.loadS, hb, (bankOk_iff s b off n).mpr h, badRun_of_sound hsound, Bool.not_true,
    Bool.false_eq_true, ↓reduceIte]

theorem storeS_of_outside {bs : List Byte} (h : ¬ (0 ≤ off ∧ off + bs.length ≤ s.bankBytes b)) :
    s.storeS blk off bs = (s, .error (.trap tSCRATCH (offWord off))) := by
  simp only [State.storeS, hb, Bool.eq_false_iff.mpr (mt (bankOk_iff s b off _).mp h), Bool.not_false, ↓reduceIte]

theorem storeS_of_inside {bs : List Byte} (h : 0 ≤ off ∧ off + bs.length ≤ s.bankBytes b) :
    s.storeS blk off bs = (s.putLive blk off.toNat bs, .ok ()) := by
  simp only [State.storeS, hb, (bankOk_iff s b off _).mpr h, Bool.not_true, Bool.false_eq_true, ↓reduceIte]

end scratch

/-! ## LD and ST of scratchpad -/

theorem window_nil (s : State) (k : Nat) (store : Bool) : s.window k [] store = s := by
  unfold State.window
  split <;> rfl

/-- The place of a scratchpad access. -/
theorem placeOf_scratch {s : State} {k : Nat} {m : MMod} (h : m.sp = .s) (base : Word) :
    s.placeOf k m base = .s (base.toNat + m.off.toInt) := by
  simp only [State.placeOf, h, effective]

section scratchAccess
variable {s : State} {k t : Nat} {w : Warp} (hw : s.warpAt k = some w) {m : MMod} (hm : m.sp = .s) {pd : Pend} {off : Int}
  (hoff : off = (pd.ops.gb t).toNat + m.off.toInt) {h : Hint}
include hw hm hoff

theorem ldAccess_scratch {tx : Bool} {bs : List Byte} (hload : s.loadS w.blk off m.mt.bytes = .ok bs) :
    ldAccess m tx h s k pd t = (s, .ok (some (extendBytes m.mt bs), 0)) := by
  subst hoff
  simp only [ldAccess, placeOf_scratch hm, State.load, hw, hload, State.placeLines, window_nil]

theorem ldAccess_scratch_error {tx : Bool} {e : MemErr} (hload : s.loadS w.blk off m.mt.bytes = .error e) :
    ldAccess m tx h s k pd t = (s, .error e) := by
  subst hoff
  simp only [ldAccess, placeOf_scratch hm, State.load, hw, hload]

theorem stAccess_scratch {s' : State}
    (hstore : s.storeS w.blk off (leBytes m.mt.bytes (pd.ops.gc t).toNat) = (s', .ok ())) :
    stAccess m h s k pd t = (s', .ok (none, 0)) := by
  subst hoff
  simp only [stAccess, placeOf_scratch hm, State.store, hw, hstore, State.placeLines, window_nil]

theorem stAccess_scratch_error {s' : State} {e : MemErr}
    (hstore : s.storeS w.blk off (leBytes m.mt.bytes (pd.ops.gc t).toNat) = (s', .error e)) :
    stAccess m h s k pd t = (s', .error e) := by
  subst hoff
  simp only [stAccess, placeOf_scratch hm, State.store, hw, hstore]

end scratchAccess

/-- Settles O12: inside the bank the access is the bank's bytes, outside it is the trap. -/
theorem scratchpadLoadsAndStores : Obligations.ScratchpadLoadsAndStores := by
  intro s k t w b m pd tx h hw hb hm off lo n
  have hlen : (leBytes n (pd.ops.gc t).toNat).length = n := leBytes_length _ _
  refine ⟨fun hin => ⟨fun hsound => ?_, fun hbad => ?_, ?_⟩, fun hout => ⟨?_, ?_⟩⟩
  · refine ⟨_, ldAccess_scratch hw hm rfl (loadS_of_sound hb hin hsound), ?_⟩
    obtain ⟨hbytes, hsign⟩ := extendBytes_loaded m.mt (liveBytes_length b off.toNat m.mt.bytes)
    exact ⟨fun i hi => (hbytes i hi).trans (liveBytes_getD b _ _ hi), hsign⟩
  · exact ldAccess_scratch_error hw hm rfl (loadS_of_damaged hb hin hbad)
  · refine ⟨putBank b.live lo (leBytes n (pd.ops.gc t).toNat),
      s.badS.filter (fun e => !(e.1 = w.blk && lo ≤ e.2 && e.2 < lo + (leBytes n (pd.ops.gc t).toNat).length)), ?_,
      get_putBank_word b.live lo n _, fun e => ?_⟩
    · refine (stAccess_scratch hw hm rfl (storeS_of_inside hb (by rwa [hlen]))).trans ?_
      simp only [State.putLive, hb]
      rfl
    · simp only [List.mem_filter, hlen, Bool.not_eq_true', Bool.and_eq_false_iff, decide_eq_false_iff_not]
      tauto
  · exact ldAccess_scratch_error hw hm rfl (loadS_of_outside hb hout)
  · exact stAccess_scratch_error hw hm rfl (storeS_of_outside hb (by rwa [hlen]))

end Sys2Proof.Machine
end

section
/-! PROOFS. Exchange stores: one thread's store into its receiver's shadow bank, and the words that wait for a saved receiver
(R118, R213, R314). -/

namespace Sys2Proof.Machine

/-! ## Accesses that an open transaction refuses (R212, R214) -/

section outsideTxn
variable {s : State} {k t : Nat} {w : Warp} (hw : s.warpAt k = some w) (f : Access) (pd : Pend)
include hw

theorem outsideTxn_of_none (h : w.openTxn t = none) : outsideTxn f s k pd t = f s k pd t := by
  simp only [outsideTxn, hw, h, Option.isSome_none, Bool.false_eq_true, ↓reduceIte]

theorem outsideTxn_of_open (h : (w.openTxn t).isSome = true) :
    outsideTxn f s k pd t = (s.putWarp k (w.abortTxns (BitVec.ofNat 32 (2 ^ t)) 4), .ok (none, 0)) := by
  simp only [outsideTxn, hw, h, ↓reduceIte, State.abortTxn]

end outsideTxn

/-! ## One thread's exchange store -/

section xst
variable {s : State} {k t : Nat} {w : Warp} (hw : s.warpAt k = some w) (hopen : w.openTxn t = none) {m : XMod} {pd : Pend}
include hw hopen

theorem xstAccess_of_nobody (h : s.receiver w.blk m = .nobody) :
    xstAccess m s k pd t = (s, .error (.trap tNORECV (pd.ops.gb t))) := by
  rw [xstAccess, outsideTxn_of_none hw _ _ hopen]
  simp only [hw, h]

section block
variable {r : Nat} {y : Block} (h : s.receiver w.blk m = .block r) (hy : s.blockAt r = some y)
include h hy

theorem xstAccess_of_inside (hin : (pd.ops.gb t).toNat + m.mt.bytes ≤ s.bankBytes y) :
    xstAccess m s k pd t = (s.putBlock r { y with
      shadow := putBank y.shadow (pd.ops.gb t).toNat (leBytes m.mt.bytes (pd.ops.gc t).toNat) }, .ok (none, 0)) := by
  have hok : s.bankOk y (pd.ops.gb t).toNat m.mt.bytes = true :=
    (bankOk_iff s y _ _).mpr ⟨Int.natCast_nonneg _, by exact_mod_cast hin⟩
  rw [xstAccess, outsideTxn_of_none hw _ _ hopen]
  simp only [hw, h, hy, hok, Bool.not_true, Bool.false_eq_true, ↓reduceIte]

theorem xstAccess_of_outside (hout : ¬ (pd.ops.gb t).toNat + m.mt.bytes ≤ s.bankBytes y) :
    xstAccess m s k pd t = (s, .error (.trap tSCRATCH (pd.ops.gb t))) := by
  have hno : s.bankOk y (pd.ops.gb t).toNat m.mt.bytes = false :=
    Bool.eq_false_iff.mpr fun hok => hout (by exact_mod_cast ((bankOk_iff s y _ _).mp hok).2)
  rw [xstAccess, outsideTxn_of_none hw _ _ hopen]
  simp only [hw, h, hy, hno, Bool.not_false, ↓reduceIte]

end block
end xst

/-! ## XST and the return of its receiver -/

theorem exec_xst (x : Ctl) (m : XMod) (o : Slots) (s : State) : exec (.xst x m o) s = execXst x m o s := rfl
theorem exec_xstReceiverResident (r : Ref) (s : State) :
    exec (.xstReceiverResident r) s = execXstReceiverResident r s := rfl

/-- An XST whose receiver is saved stops its split and does nothing else. -/
theorem execXst_of_saved {s : State} {c : WCtx} {w : Warp} {p : Split} {x : Ctl} {m : XMod} {o : Slots}
    {ports : List (Port × Word)} {pv : Pops} (h : Ready s c w p x o [o.b, o.c] ports pv)
    (hwaits : s.xstWaits c.key m (activeMask w p x) = true) :
    execXst x m o s = .next (s.putWarp c.key ({ w with ports := ports }.putSplit { p with stop := some (.xst
      { i := .xst x m o, T := activeMask w p x, todo := activeMask w p x, ops := readOps c w {} o pv }) })) := by
  unfold execXst
  rw [h.issuer]
  simp only [h.active, hwaits, h.ports, h.sound, mask_and_not_zero, ne_eq, not_false_eq_true, decide_true, Bool.and_true,
    ↓reduceIte]

/-- A split stopped on an XST goes on once its receiver is not saved any more. -/
theorem execXstReceiverResident_of_stopped {s : State} {r : Ref} {w : Warp} {p : Split} {x : Ctl} {m : XMod} {o : Slots}
    {pend : Pend} (hw : s.warpAt (refKey r) = some w) (hp : w.splitAt r.split = some p) (hstop : p.stop = some (.xst pend))
    (hi : pend.i = .xst x m o) :
    execXstReceiverResident r s = .next (if s.xstWaits (refKey r) m pend.T then s
      else (s.putWarp (refKey r) (w.putSplit { p with stop := none })).perform (refKey r) r.split x.seq (planXst m) pend) := by
  simp only [execXstReceiverResident, hw, hp, hstop, hi, splitAt_id hp]
  split <;> rfl

/-- Settles O18: what one thread's store does, the stop of the word, and its going on. -/
theorem exchangeStoresFillTheShadowBank : Obligations.ExchangeStoresFillTheShadowBank := by
  refine ⟨fun s k t w m pd hw hopen => ⟨fun r y hr hy => ⟨fun hin => ?_, xstAccess_of_outside hw hopen hr hy⟩,
    xstAccess_of_nobody hw hopen⟩, fun s c w p x m o ports pv hready hwaits => ?_, fun s r w p x m o pend hw hp hstop hi => ?_⟩
  · exact ⟨_, xstAccess_of_inside hw hopen hr hy hin, get_putBank_word y.shadow _ _ _⟩
  · exact ⟨_, (exec_xst x m o s).trans (execXst_of_saved hready hwaits), rfl, rfl⟩
  · exact (exec_xstReceiverResident r s).trans (execXstReceiverResident_of_stopped hw hp hstop hi)

end Sys2Proof.Machine
end

section
/-! PROOFS. Writes at home: what they leave unchanged, and the bytes that memory holds after them where no WAIT is registered
and no reduction waits in a slice's queue (R106, R109, R126, R130). -/

namespace Sys2Proof.Machine

/-! ## Tables filled entry by entry -/

section fill
variable {τ β γ : Type} {get : τ → Nat → γ} {put : τ → Nat × β → τ} {val : β → γ}
  (law : ∀ t c a, get (put t c) a = if a = c.1 then val c.2 else get t a)
include law

theorem foldl_put_other {a : Nat} (l : List (Nat × β)) : ∀ t, (∀ c ∈ l, c.1 ≠ a) → get (l.foldl put t) a = get t a := by
  induction l with
  | nil => intro t _; rfl
  | cons c l ih =>
    intro t h
    rw [List.foldl_cons, ih _ fun d hd => h d (List.mem_cons_of_mem _ hd), law, if_neg (h c (List.mem_cons_self ..)).symm]

/-- Entries of one key count only as far as they name it. -/
theorem foldl_put_filter (a : Nat) (l : List (Nat × β)) :
    ∀ t u, get t a = get u a → get (l.foldl put t) a = get ((l.filter (fun c => c.1 = a)).foldl put u) a := by
  induction l with
  | nil => intro t u h; exact h
  | cons c l ih =>
    intro t u h
    by_cases hc : c.1 = a
    · rw [List.filter_cons_of_pos (by simpa using hc)]
      refine ih _ _ ?_
      rw [law, law, if_pos hc.symm, if_pos hc.symm]
    · rw [List.filter_cons_of_neg (by simpa using hc)]
      refine ih _ _ ?_
      rw [law, if_neg (Ne.symm hc), h]

/-- An entry whose key has one value in the list is found with it. -/
theorem foldl_put_mem {c : Nat × β} {l : List (Nat × β)} (hc : c ∈ l) (hu : ∀ d ∈ l, d.1 = c.1 → d.2 = c.2) :
    ∀ t, get (l.foldl put t) c.1 = val c.2 := by
  induction l with
  | nil => cases hc
  | cons d l ih =>
    intro t
    rw [List.foldl_cons]
    by_cases h : c ∈ l
    · exact ih h (fun e he => hu e (List.mem_cons_of_mem _ he)) _
    · obtain rfl : c = d := (List.mem_cons.mp hc).resolve_right h
      by_cases hl : ∀ e ∈ l, e.1 ≠ c.1
      · rw [foldl_put_other law _ _ hl, law, if_pos rfl]
      · obtain ⟨e, he, hk⟩ : ∃ e ∈ l, e.1 = c.1 := by simpa using hl
        have hv := hu e (List.mem_cons_of_mem _ he) hk
        exact absurd (Prod.ext hk hv ▸ he) h

end fill

/-! ## What a write at home leaves unchanged -/

/-- A state apart from memory at home and what waits there or travels from there. -/
def State.offHome (s : State) : State :=
  { s with mem := [], bad := [], waits := [], wants := [], proxy := [], hostClean := [], bexOut := [], bexSeq := [], nextUid := 0 }

theorem want_offHome (s : State) (x : Want) : (s.want x).offHome = s.offHome := by
  unfold State.want; split <;> rfl

/-- Holding a step changes only what it waits for. -/
theorem gate_eq (s : State) (keys : List Nat) : ∃ ws, s.gate keys = { s with wants := ws } := by
  unfold State.gate
  split
  · exact ⟨s.wants, rfl⟩
  · generalize keys.map (fun k => domeOf (s.homeSlice k)) = ds
    have hgo : ∀ (ds : List Nat) (t : State), (∃ ws, t = { s with wants := ws }) →
        ∃ ws, ds.foldl (fun (x : State) d => if x.power.inReset.contains d then x.want (.tower d) else x) t =
          { s with wants := ws } := by
      intro ds
      induction ds with
      | nil => exact fun t h => h
      | cons d ds ih =>
        rintro t ⟨ws, rfl⟩
        refine ih _ ?_
        dsimp only
        split
        · unfold State.want
          split
          · exact ⟨ws, rfl⟩
          · exact ⟨_, rfl⟩
        · exact ⟨ws, rfl⟩
    exact hgo ds s ⟨s.wants, rfl⟩

theorem gate_of_no_reset {s : State} (h : s.power.inReset = []) (keys : List Nat) : s.gate keys = s := by
  simp only [State.gate, h, ↓reduceIte]

theorem gate_offHome (s : State) (keys : List Nat) : (s.gate keys).offHome = s.offHome := by
  obtain ⟨ws, h⟩ := gate_eq s keys
  rw [h]; rfl

theorem farWrite_offHome (s : State) (cells : List (Nat × Byte)) (g : Nat) : (s.farWrite cells g).offHome = s.offHome := by
  unfold State.farWrite
  split
  · rfl
  · refine foldl_keeps State.offHome ?_ _ s
    intros; rfl

theorem proxyGo_offHome (s : State) (g : Nat) : (s.proxyGo g).offHome = s.offHome := by
  unfold State.proxyGo
  split
  · rfl
  · exact farWrite_offHome ..

theorem proxyFlush_offHome (s : State) (f : Nat → Bool) : (s.proxyFlush f).offHome = s.offHome :=
  foldl_keeps State.offHome proxyGo_offHome _ s

theorem atHome_offHome (s : State) (g : Nat) : (s.atHome g).offHome = s.offHome := by
  unfold State.atHome
  split
  · exact proxyFlush_offHome s _
  · rfl

theorem mendByte_eq (s : State) (a : Nat) : ∃ b, s.mendByte a = { s with bad := b } := by
  unfold State.mendByte
  split
  · exact ⟨s.bad, rfl⟩
  · exact ⟨_, rfl⟩

theorem putCells_offHome (s : State) (cells : List (Nat × Byte)) (g : Nat) : (s.putCells cells g).offHome = s.offHome := by
  have h : ((s.gate [8 * g]).atHome g).offHome = s.offHome := (atHome_offHome ..).trans (gate_offHome ..)
  unfold State.putCells
  split
  · exact (farWrite_offHome ..).trans h
  · refine (foldl_keeps State.offHome (fun t c => ?_) _ _).trans h
    obtain ⟨b, hb⟩ := mendByte_eq { t with mem := writeMem t.mem c.1 c.2 } c.1
    rw [hb]; rfl

theorem evalWord_eq (s : State) (a : Nat) (v : Word) : ∃ ws, (s.evalWord a v).1 = { s with waits := ws } := by
  unfold State.evalWord
  split
  · exact ⟨_, rfl⟩
  · exact ⟨s.waits, rfl⟩

theorem evalWord_offHome (s : State) (a : Nat) (v : Word) : (s.evalWord a v).1.offHome = s.offHome := by
  obtain ⟨ws, h⟩ := evalWord_eq s a v
  rw [h]; rfl

theorem readyAll_offHome (n : Nat) (s : State) (l : List Nat) : (State.readyAll n s l).offHome = s.offHome := by
  fun_induction State.readyAll n s l with
  | case1 => rfl
  | case2 => rfl
  | case3 _ _ _ _ _ ih => exact ih
  | case4 _ _ _ _ _ _ _ _ _ ih => exact ih.trans (putCells_offHome ..)
  | case5 _ _ _ _ _ _ _ _ _ _ _ ih => exact ih.trans ((evalWord_offHome ..).trans (putCells_offHome ..))

theorem evalWaits_offHome (s : State) (a : Nat) (v : Word) : (s.evalWaits a v).offHome = s.offHome :=
  (readyAll_offHome ..).trans (evalWord_offHome ..)

theorem writeCells_offHome (s : State) (cells : List (Nat × Byte)) (g : Nat) :
    (s.writeCells cells g).offHome = s.offHome := by
  unfold State.writeCells
  dsimp only
  split
  · exact (evalWaits_offHome ..).trans (putCells_offHome ..)
  · exact putCells_offHome ..

section offHome
variable {s t : State} (h : t.offHome = s.offHome)
include h

theorem cores_of_offHome : t.cores = s.cores := (congrArg State.cores h :)
theorem domes_of_offHome : t.domes = s.domes := (congrArg State.domes h :)
theorem warps_of_offHome : t.warps = s.warps := (congrArg State.warps h :)
theorem reds_of_offHome : t.reds = s.reds := (congrArg State.reds h :)
theorem ctl_of_offHome : t.ctl = s.ctl := (congrArg State.ctl h :)
theorem ident_of_offHome : t.ident = s.ident := (congrArg State.ident h :)

theorem coreAt_of_offHome (c : Nat) : t.coreAt c = s.coreAt c := by simp only [State.coreAt, cores_of_offHome h]
theorem domeAt_of_offHome (d : Nat) : t.domeAt d = s.domeAt d := by simp only [State.domeAt, domes_of_offHome h]
theorem warpAt_of_offHome (k : Nat) : t.warpAt k = s.warpAt k := by simp only [State.warpAt, warps_of_offHome h]

end offHome

/-! ## Slices whose queues hold no reduction (R116) -/

theorem applyReds_of_no_reds {s : State} (h : s.reds = []) (line : Nat) : s.applyReds line = s := by
  have e : ({ s with reds := [] } : State) = s := by rw [← h]
  simp only [State.applyReds, h, List.filter_nil, List.foldl_nil]
  exact e

theorem writeGroup_of_no_reds {s : State} (h : s.reds = []) (cells : List (Nat × Byte)) (g : Nat) :
    s.writeGroup cells g = s.writeCells cells g := by
  rw [State.writeGroup, applyReds_of_no_reds h]

/-- Steps that leave the rest of the machine alone while no reduction waits leave it alone one after another. -/
theorem foldl_offHome {α : Type} {f : State → α → State} (hf : ∀ s a, s.reds = [] → (f s a).offHome = s.offHome)
    (l : List α) : ∀ s : State, s.reds = [] → (l.foldl f s).offHome = s.offHome := by
  induction l with
  | nil => intro s _; rfl
  | cons a l ih =>
    intro s h
    have e := hf s a h
    exact (ih (f s a) ((reds_of_offHome e).trans h)).trans e

theorem writeGroup_offHome {s : State} (h : s.reds = []) (cells : List (Nat × Byte)) (g : Nat) :
    (s.writeGroup cells g).offHome = s.offHome := by
  rw [writeGroup_of_no_reds h]
  exact writeCells_offHome ..

theorem homeWrite_offHome {s : State} (h : s.reds = []) (a : Nat) (bs : List Byte) :
    (s.homeWrite a bs).offHome = s.offHome :=
  writeGroup_offHome h ..

theorem syncWriteAt_offHome {s : State} (h : s.reds = []) (keys : List Nat) (bs : List Byte) :
    (s.syncWriteAt keys bs).offHome = s.offHome :=
  foldl_offHome (fun _ _ h => writeGroup_offHome h ..) _ s h

theorem publishAt_offHome {s : State} (h : s.reds = []) (keys : List Nat) (bs : List Byte) :
    (s.publishAt keys bs).offHome = s.offHome := by
  unfold State.publishAt
  refine foldl_offHome (fun t g ht => ?_) _ s h
  dsimp only
  split
  · obtain ⟨ws, hg⟩ := gate_eq t [8 * g]
    rw [hg]
    split
    · exact evalWaits_offHome ..
    · rfl
  · exact writeGroup_offHome ht ..

/-! ## Writes that no WAIT sees (R126) -/

theorem evalWaits_of_no_waits {s : State} (h : s.waits = []) (a : Nat) (v : Word) : s.evalWaits a v = s := by
  simp only [State.evalWaits, State.evalWord, State.waitEnts, h, List.any_nil, Bool.false_eq_true, ↓reduceIte, List.map_nil,
    List.sum_nil, Nat.zero_add, State.readyAll]

/-- A group of module memory: not of the host's or a peer's. -/
theorem farKey_of_lt {k : Nat} (h : k < 2 ^ 42) : farKey k = false := by
  simp only [farKey, Bool.and_eq_false_iff, decide_eq_false_iff_not]
  exact .inl (by omega)

/-- The two apertures are made of whole 8-byte groups. -/
theorem farKey_group (k : Nat) : farKey (8 * (k / 8)) = farKey k := by
  rw [Bool.eq_iff_iff]
  simp only [farKey, Bool.and_eq_true, decide_eq_true_eq]
  omega

theorem peerKey_group (k : Nat) : peerKey (8 * (k / 8)) = peerKey k := by
  rw [Bool.eq_iff_iff]
  simp only [peerKey, Bool.and_eq_true, decide_eq_true_eq]
  omega

/-- A list of bytes written at home one after another. -/
def written (m : List Host.Cell) (cells : List (Nat × Byte)) : List Host.Cell :=
  cells.foldl (fun m c => writeMem m c.1 c.2) m

theorem written_law (m : List Host.Cell) (c : Nat × Byte) (a : Nat) :
    readMem (writeMem m c.1 c.2) a = if a = c.1 then id c.2 else readMem m a := readMem_writeMem ..

theorem readMem_written_other {m : List Host.Cell} {cells : List (Nat × Byte)} {a : Nat} (h : ∀ c ∈ cells, c.1 ≠ a) :
    readMem (written m cells) a = readMem m a :=
  foldl_put_other written_law cells m h

theorem readMem_written_mem {m : List Host.Cell} {cells : List (Nat × Byte)} {c : Nat × Byte} (hc : c ∈ cells)
    (hu : ∀ d ∈ cells, d.1 = c.1 → d.2 = c.2) : readMem (written m cells) c.1 = c.2 :=
  foldl_put_mem written_law hc hu m

/-- What memory holds of a byte after writes depends on the writes of that byte alone. -/
theorem readMem_written_congr {m m' : List Host.Cell} {cells cells' : List (Nat × Byte)} {a : Nat}
    (hm : readMem m a = readMem m' a) (h : cells.filter (fun c => c.1 = a) = cells'.filter (fun c => c.1 = a)) :
    readMem (written m cells) a = readMem (written m' cells') a := by
  unfold written
  rw [foldl_put_filter written_law a cells m m' hm, h]
  exact (foldl_put_filter written_law a cells' m' m' rfl).symm

section near
variable {s : State} {g : Nat} (hfar : farKey (8 * g) = false)
include hfar

theorem atHome_near : s.atHome g = s := by
  simp only [State.atHome, hfar, Bool.false_eq_true, ↓reduceIte]

theorem putCells_mem (cells : List (Nat × Byte)) : (s.putCells cells g).mem = written s.mem cells := by
  obtain ⟨ws, hg⟩ := gate_eq s [8 * g]
  simp only [State.putCells, hfar, Bool.false_eq_true, ↓reduceIte, hg, atHome_near hfar]
  refine (List.foldl_hom State.mem fun t c => ?_).symm
  obtain ⟨b, hb⟩ := mendByte_eq { t with mem := writeMem t.mem c.1 c.2 } c.1
  rw [hb]

/-- A near write touches memory, the error marks and what the step waits for. -/
theorem putCells_near (cells : List (Nat × Byte)) :
    ∃ m b ws, s.putCells cells g = { s with mem := m, bad := b, wants := ws } := by
  obtain ⟨ws, hg⟩ := gate_eq s [8 * g]
  simp only [State.putCells, hfar, Bool.false_eq_true, ↓reduceIte, hg, atHome_near hfar]
  have hgo : ∀ (cells : List (Nat × Byte)) (t : State), (∃ m b, t = { s with mem := m, bad := b, wants := ws }) →
      ∃ m b, cells.foldl (fun (x : State) c => ({ x with mem := writeMem x.mem c.1 c.2 }).mendByte c.1) t =
        { s with mem := m, bad := b, wants := ws } := by
    intro cells
    induction cells with
    | nil => exact fun t h => h
    | cons c cells ih =>
      rintro t ⟨m, b, rfl⟩
      refine ih _ ?_
      obtain ⟨b', hb⟩ := mendByte_eq { s with mem := writeMem m c.1 c.2, bad := b, wants := ws } c.1
      exact ⟨_, b', hb⟩
  obtain ⟨m, b, h⟩ := hgo cells { s with wants := ws } ⟨s.mem, s.bad, rfl⟩
  exact ⟨m, b, ws, h⟩

theorem writeCells_near (hwaits : s.waits = []) (cells : List (Nat × Byte)) : s.writeCells cells g = s.putCells cells g := by
  have h : (s.putCells cells g).waits = [] := by
    obtain ⟨m, b, ws, h⟩ := putCells_near (s := s) hfar cells
    rw [h]; exact hwaits
  unfold State.writeCells
  dsimp only
  split
  · exact evalWaits_of_no_waits h ..
  · rfl

end near

/-- A synchronising write near home that no WAIT sees and no reduction precedes. -/
theorem writeGroup_near {s : State} {g : Nat} (hfar : farKey (8 * g) = false) (hwaits : s.waits = []) (hreds : s.reds = [])
    (cells : List (Nat × Byte)) : s.writeGroup cells g = s.putCells cells g :=
  (writeGroup_of_no_reds hreds cells g).trans (writeCells_near hfar hwaits cells)

/-- The cells of a run of bytes. -/
def runCells (a : Nat) (bs : List Byte) : List (Nat × Byte) := (List.range bs.length).map (fun i => (a + i, bs.getD i 0))

theorem homeWrite_near {s : State} {a : Nat} (hfar : farKey a = false) (hwaits : s.waits = []) (hreds : s.reds = [])
    (bs : List Byte) : s.homeWrite a bs = s.putCells (runCells a bs) (a / 8) :=
  writeGroup_near ((farKey_group a).trans hfar) hwaits hreds _

theorem mem_runCells {a : Nat} {bs : List Byte} {c : Nat × Byte} :
    c ∈ runCells a bs ↔ ∃ i, i < bs.length ∧ c = (a + i, bs.getD i 0) := by
  simp [runCells, eq_comm]

/-- Memory after a run of bytes was written: the run, and elsewhere what it held. -/
theorem readMem_written_run (m : List Host.Cell) (a : Nat) (bs : List Byte) (b : Nat) :
    readMem (written m (runCells a bs)) b =
      if a ≤ b ∧ b < a + bs.length then bs.getD (b - a) 0 else readMem m b := by
  split
  · next h =>
    have hmem : (b, bs.getD (b - a) 0) ∈ runCells a bs :=
      mem_runCells.mpr ⟨b - a, by omega, by rw [Nat.add_sub_cancel' h.1]⟩
    refine readMem_written_mem hmem fun d hd hk => ?_
    obtain ⟨i, _, rfl⟩ := mem_runCells.mp hd
    obtain rfl : b = a + i := hk.symm
    simp
  · next h =>
    refine readMem_written_other fun c hc => ?_
    obtain ⟨i, hi, rfl⟩ := mem_runCells.mp hc
    dsimp only
    omega

theorem readMem_homeWrite {s : State} {a : Nat} (hfar : farKey a = false) (hwaits : s.waits = []) (hreds : s.reds = [])
    (bs : List Byte) (b : Nat) : readMem (s.homeWrite a bs).mem b =
      if a ≤ b ∧ b < a + bs.length then bs.getD (b - a) 0 else readMem s.mem b := by
  rw [homeWrite_near hfar hwaits hreds, putCells_mem ((farKey_group a).trans hfar), readMem_written_run]

/-! ## Reads at home -/

/-- A byte of the module's own memory is read from memory itself. -/
theorem homeByte_near (s : State) {k : Nat} (h : k < 2 ^ 42) : s.homeByte k = readMem s.mem k := by
  simp only [State.homeByte, farKey_of_lt h, show ¬ 2 ^ 52 ≤ k by omega, Bool.false_eq_true, ↓reduceIte]

theorem homeBytes_near (s : State) {a n : Nat} (h : a + n ≤ 2 ^ 42) :
    s.homeBytes a n = (List.range n).map (fun i => readMem s.mem (a + i)) := by
  refine List.map_congr_left fun i hi => homeByte_near s ?_
  have := List.mem_range.mp hi
  omega

theorem homeWord_near (s : State) {a : Nat} (h : a + 8 ≤ 2 ^ 42) :
    s.homeWord a = BitVec.ofNat 64 (leNat ((List.range 8).map (fun i => readMem s.mem (a + i)))) := by
  rw [State.homeWord, homeBytes_near s h]

theorem homeWord_congr {s t : State} {a : Nat} (h : a + 8 ≤ 2 ^ 42)
    (hm : ∀ i, i < 8 → readMem t.mem (a + i) = readMem s.mem (a + i)) : t.homeWord a = s.homeWord a := by
  rw [homeWord_near s h, homeWord_near t h]
  exact congrArg (fun l => BitVec.ofNat 64 (leNat l)) (List.map_congr_left fun i hi => hm i (List.mem_range.mp hi))

theorem leNat_leBytes (n v : Nat) : leNat (leBytes n v) = v % 256 ^ n := by
  induction n generalizing v with
  | zero => simp [leBytes, leNat, Nat.mod_one]
  | succ n ih =>
    have e : leBytes (n + 1) v = BitVec.ofNat 8 v :: leBytes n (v / 256) := by
      simp only [leBytes, List.range_succ_eq_map, List.map_cons, List.map_map, Nat.pow_zero, Nat.div_one]
      refine congrArg _ (List.map_congr_left fun i _ => ?_)
      simp only [Function.comp_apply, Nat.succ_eq_add_one, Nat.pow_succ', Nat.div_div_eq_div_mul]
    rw [e, leNat_cons, ih, BitVec.toNat_ofNat, show 2 ^ 8 = 256 from rfl, Nat.pow_succ', Nat.mod_mul]

/-- A word written at home is read back. -/
theorem homeWord_homeWrite {s : State} {a : Nat} (h : a + 8 ≤ 2 ^ 42) (hwaits : s.waits = []) (hreds : s.reds = [])
    (v : Word) : (s.homeWrite a (leBytes 8 v.toNat)).homeWord a = v := by
  have e : (List.range 8).map (fun i => readMem (s.homeWrite a (leBytes 8 v.toNat)).mem (a + i)) = leBytes 8 v.toNat := by
    refine List.map_congr_left fun i hi => ?_
    have hi := List.mem_range.mp hi
    rw [readMem_homeWrite (farKey_of_lt (by omega)) hwaits hreds, leBytes_length, if_pos (by omega),
      Nat.add_sub_cancel_left, leBytes_getD 8 _ hi]
  rw [homeWord_near _ h, e, leNat_leBytes, Nat.mod_eq_of_lt (by have := v.isLt; omega), BitVec.ofNat_toNat,
    BitVec.setWidth_eq]

end Sys2Proof.Machine
end

section
/-! PROOFS. Caches: what an access that reaches a slice leaves unchanged, the last-use hint, and the keys of a translated run
(R97-R99, R101, R193, Table 8.4). -/

namespace Sys2Proof.Machine

/-! ## Accesses that reach a slice (R98, R101, R359) -/

/-- A state apart from the last-level cache, the counters, the requests counted for pages, and what a step waits for. -/
def State.unnoted (s : State) : State := { s with llc := [], counters := [], follow := [], wants := [] }

/-- States alike apart from these differ in nothing else. -/
theorem eq_of_unnoted {s t : State} (h : t.unnoted = s.unnoted) :
    t = { s with llc := t.llc, counters := t.counters, follow := t.follow, wants := t.wants } :=
  calc t = { t.unnoted with llc := t.llc, counters := t.counters, follow := t.follow, wants := t.wants } := rfl
    _ = _ := by rw [h]; rfl

section unnoted
variable {s t : State} (h : t.unnoted = s.unnoted)
include h

theorem mem_of_unnoted : t.mem = s.mem := (congrArg State.mem h :)
theorem waits_of_unnoted : t.waits = s.waits := (congrArg State.waits h :)
theorem reds_of_unnoted : t.reds = s.reds := (congrArg State.reds h :)
theorem cores_of_unnoted : t.cores = s.cores := (congrArg State.cores h :)
theorem domes_of_unnoted : t.domes = s.domes := (congrArg State.domes h :)
theorem warps_of_unnoted : t.warps = s.warps := (congrArg State.warps h :)

theorem coreAt_of_unnoted (c : Nat) : t.coreAt c = s.coreAt c := by simp only [State.coreAt, cores_of_unnoted h]
theorem domeAt_of_unnoted (d : Nat) : t.domeAt d = s.domeAt d := by simp only [State.domeAt, domes_of_unnoted h]
theorem warpAt_of_unnoted (k : Nat) : t.warpAt k = s.warpAt k := by simp only [State.warpAt, warps_of_unnoted h]

theorem lineBad_of_unnoted (a : Nat) : t.lineBad a = s.lineBad a := by
  have e : t.bad = s.bad := (congrArg State.bad h :)
  simp only [State.lineBad, e]

theorem homeByte_of_unnoted (k : Nat) : t.homeByte k = s.homeByte k := by
  rw [eq_of_unnoted h]; rfl

theorem homeWord_of_unnoted (a : Nat) : t.homeWord a = s.homeWord a := by
  rw [eq_of_unnoted h]; rfl

end unnoted

theorem want_unnoted (s : State) (x : Want) : (s.want x).unnoted = s.unnoted := by
  unfold State.want; split <;> rfl

theorem gate_unnoted (s : State) (keys : List Nat) : (s.gate keys).unnoted = s.unnoted := by
  obtain ⟨ws, h⟩ := gate_eq s keys
  rw [h]; rfl

theorem askPeers_unnoted (s : State) (core : Nat) (keys : List Nat) (own : Bool) :
    (s.askPeers core keys own).unnoted = s.unnoted := by
  unfold State.askPeers
  split
  · rfl
  · exact foldl_keeps State.unnoted (fun t g => want_unnoted t _) _ s

theorem askPeers_of_none {s : State} {keys : List Nat} (h : ∀ k ∈ keys, peerKey k = false) (core : Nat) (own : Bool) :
    s.askPeers core keys own = s := by
  unfold State.askPeers
  rw [if_pos]
  exact List.all_eq_true.mpr fun k hk => by rw [h k hk]; rfl

theorem noteRequest_unnoted (s : State) (core line : Nat) : (s.noteRequest core line).unnoted = s.unnoted := by
  unfold State.noteRequest; split <;> rfl

theorem reach_unnoted (s : State) (core line cls : Nat) (h : Hint) : (s.reach core line cls h).unnoted = s.unnoted :=
  noteRequest_unnoted ..

theorem touchHome_unnoted (s : State) (core : Nat) (va : Word) (h : Hint) (keys : List Nat) :
    (s.touchHome core va h keys).unnoted = s.unnoted :=
  foldl_keeps State.unnoted (fun t l => reach_unnoted t core l _ h) _ s

theorem noteLines_unnoted (s : State) (k : Nat) (h : Hint) (cls : Nat) (keys : List Nat) (write : Bool) :
    (s.noteLines k h cls keys write).unnoted = s.unnoted := by
  refine foldl_keeps State.unnoted (fun t l => ?_) _ s
  dsimp only
  split
  · rfl
  · exact reach_unnoted ..

/-! ## The last-use hint (Table 8.4) -/

/-- A state apart from what its cores hold. -/
def State.coreless (s : State) : State := { s with cores := [] }

theorem mem_of_coreless {s t : State} (h : t.coreless = s.coreless) : t.mem = s.mem := (congrArg State.mem h :)
theorem domes_of_coreless {s t : State} (h : t.coreless = s.coreless) : t.domes = s.domes := (congrArg State.domes h :)
theorem warps_of_coreless {s t : State} (h : t.coreless = s.coreless) : t.warps = s.warps := (congrArg State.warps h :)

theorem coreAt_putCore (s : State) (c d : Nat) (x : Core) : (s.putCore c x).coreAt d = if d = c then x else s.coreAt d :=
  Sparse.get_put ..

/-- The last-use hint drops the clean bytes of the lines it names, in one core, and nothing else. -/
theorem dropCleanLines_spec (core : Nat) (ls : List Nat) : ∀ s : State,
    let t := ls.foldl (fun (x : State) l => x.dropCleanLine core l) s
    t.coreless = s.coreless ∧ (∀ c, c ≠ core → t.coreAt c = s.coreAt c) ∧
    t.coreAt core = { s.coreAt core with clean := (t.coreAt core).clean } ∧
    ∀ l, Sparse.get [] (t.coreAt core).clean l = if l ∈ ls then [] else Sparse.get [] (s.coreAt core).clean l := by
  induction ls with
  | nil => exact fun s => ⟨rfl, fun _ _ => rfl, rfl, fun l => (if_neg List.not_mem_nil).symm⟩
  | cons l ls ih =>
    intro s
    obtain ⟨hrest, hother, hcore, hclean⟩ := ih (s.dropCleanLine core l)
    have hdrop : (s.dropCleanLine core l).coreAt core =
        { s.coreAt core with clean := Sparse.erase (s.coreAt core).clean l } := coreAt_putCore_same ..
    refine ⟨hrest.trans rfl, fun c hc => (hother c hc).trans (coreAt_putCore_other _ _ _ _ hc), ?_, fun i => ?_⟩
    · rw [hdrop] at hcore
      exact hcore
    · rw [List.foldl_cons, hclean, hdrop, Sparse.get_erase]
      by_cases h : i = l
      · simp [h]
      · simp [h]

section lastUse
variable (s : State) (core : Nat) (h : Hint) (keys : List Nat)

theorem lastUse_of_ne (hne : h ≠ .lastuse) : s.lastUse core h keys = s := if_neg hne

theorem lastUse_spec :
    (s.lastUse core h keys).coreless = s.coreless ∧
    (∀ c, c ≠ core → (s.lastUse core h keys).coreAt c = s.coreAt c) ∧
    (s.lastUse core h keys).coreAt core =
      { s.coreAt core with clean := ((s.lastUse core h keys).coreAt core).clean } ∧
    ∀ l, Sparse.get [] ((s.lastUse core h keys).coreAt core).clean l =
      if h = .lastuse ∧ l ∈ keys.map (· / 64) then [] else Sparse.get [] (s.coreAt core).clean l := by
  by_cases hh : h = .lastuse
  · have e : s.lastUse core h keys =
        ((keys.map (· / 64)).eraseDups).foldl (fun x l => x.dropCleanLine core l) s := if_pos hh
    rw [e]
    obtain ⟨hrest, hother, hcore, hclean⟩ := dropCleanLines_spec core (keys.map (· / 64)).eraseDups s
    exact ⟨hrest, hother, hcore, fun l => (hclean l).trans (if_congr (by simp [hh]) rfl rfl)⟩
  · rw [lastUse_of_ne s core h keys hh]
    exact ⟨rfl, fun _ _ => rfl, rfl, fun l => (if_neg fun hl => hh hl.1).symm⟩

theorem lastUse_coreless : (s.lastUse core h keys).coreless = s.coreless := (lastUse_spec s core h keys).1

theorem coreAt_lastUse_other {c : Nat} (hc : c ≠ core) : (s.lastUse core h keys).coreAt c = s.coreAt c :=
  (lastUse_spec s core h keys).2.1 c hc

theorem dirty_lastUse (c : Nat) : ((s.lastUse core h keys).coreAt c).dirty = (s.coreAt c).dirty := by
  by_cases hc : c = core
  · rw [hc, (lastUse_spec s core h keys).2.2.1]
  · rw [coreAt_lastUse_other s core h keys hc]

theorem clean_lastUse (l : Nat) : Sparse.get [] ((s.lastUse core h keys).coreAt core).clean l =
    if h = .lastuse ∧ l ∈ keys.map (· / 64) then [] else Sparse.get [] (s.coreAt core).clean l :=
  (lastUse_spec s core h keys).2.2.2 l

end lastUse

/-! ## Translated runs (R193) -/

/-- A run of bytes that translates has a key for each byte. -/
theorem translateRun_length {s s1 : State} {core : Nat} {acc : Acc} {va : Word} {n : Nat} {keys : List Nat}
    (h : s.translateRun core acc va n = (s1, .ok keys)) : keys.length = n := by
  unfold State.translateRun at h
  split at h
  · cases h
  · dsimp only at h
    split at h
    · cases h; simp
    · split at h
      · cases h
      · cases h; simp

/-- What the translation of a noncanonical address gives. -/
theorem translateRun_of_noncanonical {s : State} {core : Nat} {acc : Acc} {va : Word} (h : canonical va = false) (n : Nat) :
    s.translateRun core acc va n = (s, .error (.trap tNONCANONICAL va)) := by
  simp only [State.translateRun, State.translate, h, Bool.not_false, ↓reduceIte, tNONCANONICAL]

end Sys2Proof.Machine
end

section
/-! PROOFS. Atomics: what an atomic stores, in scratchpad, at home behind the reductions of its slice, and at a peer, and the
words ATOM, ATOMC and RED (R99, R115, R116, R210-R212, R346, R347). -/

namespace Sys2Proof.Machine

/-! ## The value an atomic stores (Table 14.6) -/

theorem atomBytes_pos (a : ATy) : 0 < a.bytes := by cases a <;> decide

theorem atomNew_fst (a : ATy) (op : AOp) (old c d : Nat) : (atomNew a op old c d).1 = Claim.updated a op old c d := by
  cases op with
  | exch => rfl
  | cas => rfl
  | and => rfl
  | or => rfl
  | xor => rfl
  | add =>
    simp only [atomNew, Claim.updated]
    cases ATy.fmt a <;> simp only [Bool.decide_or]
  | min =>
    simp only [atomNew, Claim.updated]
    cases ATy.fmt a with
    | some f => simp only [Bool.decide_or]
    | none =>
      dsimp only
      split
      · exact (if_neg (by omega)).symm
      · exact (if_pos (by omega)).symm
  | max =>
    simp only [atomNew, Claim.updated]
    cases ATy.fmt a <;> simp only [Bool.decide_or]

/-- Integer types set no flag. -/
theorem atomNew_flags_of_int {a : ATy} (h : ATy.fmt a = none) (op : AOp) (old c d : Nat) :
    (atomNew a op old c d).2 = 0 := by
  cases op <;> simp only [atomNew, h]

/-! ## Atomics of scratchpad -/

theorem atomic_of_misaligned {s : State} {k t : Nat} {red : Bool} {h : Hint} {m : AMod} {b : Word} (c d : Word)
    (hb : b.toNat % m.aty.bytes ≠ 0) : s.atomic k t red h m b c d = (s, .error (.trap tMISALIGN b)) := by
  simp only [State.atomic, hb, ne_eq, not_false_eq_true, ↓reduceIte]

/-- A store to sound bytes of a bank mends none. -/
theorem putLive_of_sound {s : State} {blk off : Nat} {y : Block} {bs : List Byte} (hy : s.blockAt blk = some y)
    (h : s.soundRun blk off bs.length) :
    s.putLive blk off bs = s.putBlock blk { y with live := putBank y.live off bs } := by
  have e : s.badS.filter (fun e => !(e.1 = blk && off ≤ e.2 && e.2 < off + bs.length)) = s.badS := by
    refine List.filter_eq_self.mpr fun e he => ?_
    rw [Bool.not_eq_true']
    exact Bool.eq_false_iff.mpr fun hin =>
      Bool.eq_false_iff.mp (badRun_of_sound h) (List.any_eq_true.mpr ⟨e, he, hin⟩)
  have e' : (s.putBlock blk { y with live := putBank y.live off bs }).badS = s.badS := rfl
  simp only [State.putLive, hy, e', e]
  rfl

section aligned
variable {s : State} {k t : Nat} {red : Bool} {h : Hint} {w : Warp} {m : AMod} {b : Word} (hw : s.warpAt k = some w)
  (hb : b.toNat % m.aty.bytes = 0)
include hw hb

theorem atomic_scratch {y : Block} (hsp : m.sp = .s) (hy : s.blockAt w.blk = some y)
    (hin : b.toNat + m.aty.bytes ≤ s.bankBytes y) (hsound : s.soundRun w.blk b.toNat m.aty.bytes) (c d : Word) :
    s.atomic k t red h m b c d =
      (let old := leNat (y.liveBytes b.toNat m.aty.bytes)
       let r := atomNew m.aty m.op old c.toNat d.toNat
       (s.putBlock w.blk { y with live := putBank y.live b.toNat (leBytes m.aty.bytes r.1) }, .ok (old, r.2))) := by
  have hload : s.loadS w.blk b.toNat m.aty.bytes = .ok (y.liveBytes b.toNat m.aty.bytes) :=
    loadS_of_sound hy ⟨Int.natCast_nonneg _, by exact_mod_cast hin⟩ hsound
  simp only [State.atomic, hb, ne_eq, not_true_eq_false, ↓reduceIte, hw, hsp, hload]
  rw [putLive_of_sound hy (by rwa [leBytes_length])]

/-! ## Atomics of memory -/

section global
variable {s1 : State} {keys : List Nat} (hsp : m.sp ≠ .s)
  (hrun : s.translateRun (keyCore k) .write b m.aty.bytes = (s1, .ok keys)) (hbad : s1.lineBad (keys.headD 0) = false)
include hsp hrun hbad

theorem atomic_of_peer (hpeer : peerKey (keys.headD 0) = true) (c d : Word) :
    s.atomic k t red h m b c d = s1.atomicPeer t keys m c d b := by
  cases hs : m.sp with
  | s => exact absurd hs hsp
  | g => simp only [State.atomic, hb, ne_eq, not_true_eq_false, ↓reduceIte, hw, hs, hrun, hbad, hpeer, Bool.false_eq_true]
  | k => simp only [State.atomic, hb, ne_eq, not_true_eq_false, ↓reduceIte, hw, hs, hrun, hbad, hpeer, Bool.false_eq_true]

theorem atomic_of_home (hpeer : peerKey (keys.headD 0) = false) (hfar : farKey (keys.headD 0) = false) (c d : Word) :
    s.atomic k t red h m b c d =
      (let s2 := s1.touchHome (keyCore k) b h keys
       if red then ((s2.acceptRed k t keys m c).lastUse (keyCore k) h keys, .ok (0, 0))
       else
        let r := s2.atomHome (keyCore k) keys m c d
        (r.1.lastUse (keyCore k) h keys, .ok (r.2.1, r.2.2))) := by
  have hat : s1.atHome (keys.headD 0 / 8) = s1 := atHome_near ((farKey_group _).trans hfar)
  cases hs : m.sp with
  | s => exact absurd hs hsp
  | g =>
    simp only [State.atomic, hb, ne_eq, not_true_eq_false, ↓reduceIte, hw, hs, hrun, hbad, hpeer, hfar, hat, Bool.not_false,
      Bool.and_true, Bool.false_eq_true]
  | k =>
    simp only [State.atomic, hb, ne_eq, not_true_eq_false, ↓reduceIte, hw, hs, hrun, hbad, hpeer, hfar, hat, Bool.not_false,
      Bool.and_true, Bool.false_eq_true]

end global
end aligned

/-! ## An atomic at home -/

/-- The caches after an access of a core that passes its L1 by under a hint. -/
def State.cachesPass (s1 s' : State) (core line : Nat) (h : Hint) : Prop :=
  s'.domes = s1.domes ∧ (h ≠ .lastuse → s'.cores = s1.cores) ∧ (∀ c, c ≠ core → s'.coreAt c = s1.coreAt c) ∧
  (s'.coreAt core).dirty = (s1.coreAt core).dirty ∧ (h = .lastuse → Sparse.get [] (s'.coreAt core).clean line = [])

theorem cachesPass_lastUse {s1 s2 : State} (hdomes : s2.domes = s1.domes) (hcores : s2.cores = s1.cores) (core : Nat)
    (h : Hint) {keys : List Nat} (hkeys : keys ≠ []) :
    s1.cachesPass (s2.lastUse core h keys) core (keys.headD 0 / 64) h := by
  have hat : ∀ c, s2.coreAt c = s1.coreAt c := fun c => by simp only [State.coreAt, hcores]
  have hmem : keys.headD 0 / 64 ∈ keys.map (· / 64) := by
    cases keys with
    | nil => exact absurd rfl hkeys
    | cons a l => exact List.mem_cons_self ..
  refine ⟨(domes_of_coreless (lastUse_coreless ..)).trans hdomes, fun hne => ?_,
    fun c hc => (coreAt_lastUse_other s2 core h keys hc).trans (hat c), ?_, fun hh => ?_⟩
  · rw [lastUse_of_ne s2 core h keys hne, hcores]
  · rw [dirty_lastUse, hat]
  · rw [clean_lastUse, if_pos ⟨hh, hmem⟩]

/-- The value an atomic finds at home. -/
def State.oldAt (s : State) (a n : Nat) : Nat := leNat ((List.range n).map (fun i => readMem s.mem (a + i)))

/-- The value an atomic leaves at home. -/
def State.newAt (s : State) (m : AMod) (a : Nat) (c d : Word) : Nat :=
  Claim.updated m.aty m.op (s.oldAt a m.aty.bytes) c.toNat d.toNat

/-- Memory holds the value of an atomic in its bytes, and elsewhere what it held. -/
def State.atomWritten (s s' : State) (m : AMod) (a : Nat) (c d : Word) : Prop := ∀ i, readMem s'.mem i =
  if a ≤ i ∧ i < a + m.aty.bytes then BitVec.ofNat 8 (s.newAt m a c d / 256 ^ (i - a)) else readMem s.mem i

section home
variable {s1 : State} {a : Nat} (hwaits : s1.waits = []) (hreds : s1.reds = []) {m : AMod} (ha : a + m.aty.bytes ≤ 2 ^ 42)
  (c d : Word)
include ha

/-- The bytes that a slice writes for an atomic. -/
theorem readMem_written_atom (i : Nat) :
    readMem (written s1.mem (runCells a (leBytes m.aty.bytes (atomNew m.aty m.op
      (leNat (s1.homeBytes a m.aty.bytes)) c.toNat d.toNat).1))) i =
    if a ≤ i ∧ i < a + m.aty.bytes then BitVec.ofNat 8 (s1.newAt m a c d / 256 ^ (i - a)) else readMem s1.mem i := by
  rw [readMem_written_run, leBytes_length, atomNew_fst, homeBytes_near s1 ha]
  split
  · exact leBytes_getD _ _ (by omega)
  · rfl

include hwaits hreds

theorem atomHome_spec {keys : List Nat} (hk : keys.headD 0 = a) (core : Nat) :
    ∃ s', s1.atomHome core keys m c d = (s', s1.oldAt a m.aty.bytes,
        (atomNew m.aty m.op (s1.oldAt a m.aty.bytes) c.toNat d.toNat).2) ∧
      s1.atomWritten s' m a c d ∧ s'.cores = s1.cores ∧ s'.domes = s1.domes := by
  have hpos := atomBytes_pos m.aty
  have hfar : farKey a = false := farKey_of_lt (by omega)
  have hoff := homeWrite_offHome hreds a
    (leBytes m.aty.bytes (atomNew m.aty m.op (leNat (s1.homeBytes a m.aty.bytes)) c.toNat d.toNat).1)
  have hcores := cores_of_offHome hoff
  have hdomes := domes_of_offHome hoff
  simp only [State.atomHome, hk, applyReds_of_no_reds hreds]
  refine ⟨(s1.homeWrite a (leBytes m.aty.bytes (atomNew m.aty m.op (leNat (s1.homeBytes a m.aty.bytes)) c.toNat
      d.toNat).1)).dropHoists core (fun h => keys.any h.covers),
    by rw [homeBytes_near s1 ha]; rfl, fun i => ?_, hcores, hdomes⟩
  show readMem (s1.homeWrite a _).mem i = _
  rw [homeWrite_near hfar hwaits hreds, putCells_mem ((farKey_group a).trans hfar)]
  exact readMem_written_atom ha c d i

end home

/-- A reduction that passes to the array writes its value and leaves the queue of its slice. -/
theorem applyRed_spec {s : State} {x : Pending} (hwaits : s.waits = []) (hreds : s.reds = []) {m : AMod}
    (hty : x.aty = m.aty) (hop : x.op = m.op) (ha : x.a + m.aty.bytes ≤ 2 ^ 42) :
    (s.applyRed x).reds = [] ∧ s.atomWritten (s.applyRed x) m x.a x.c 0 := by
  have hpos := atomBytes_pos m.aty
  have hgroup : farKey (8 * (x.a / 8)) = false := (farKey_group x.a).trans (farKey_of_lt (by omega))
  refine ⟨(reds_of_offHome (writeCells_offHome ..)).trans hreds, fun i => ?_⟩
  show readMem (s.writeCells _ (x.a / 8)).mem i = _
  rw [writeCells_near hgroup hwaits, putCells_mem hgroup, hty, hop, ← readMem_written_atom ha, runCells, leBytes_length]
  rfl

/-- The one reduction that a slice has accepted passes to the array, which empties its queue. -/
theorem applyReds_one {s : State} {m : AMod} {k t a : Nat} {c : Word} (hwaits : s.waits = [])
    (hred : s.reds = [{ key := k, t := t, a := a, aty := m.aty, op := m.op, c := c }]) (ha : a + m.aty.bytes ≤ 2 ^ 42) :
    (s.applyReds (a / 64)).reds = [] ∧ s.atomWritten (s.applyReds (a / 64)) m a c 0 := by
  have e : s.applyReds (a / 64) =
      ({ s with reds := [] } : State).applyRed { key := k, t := t, a := a, aty := m.aty, op := m.op, c := c } := by
    simp only [State.applyReds, hred, decide_true, ne_eq, not_true_eq_false, decide_false, List.filter_cons_of_pos,
      Bool.false_eq_true, not_false_eq_true, List.filter_cons_of_neg, List.filter_nil, List.foldl_cons, List.foldl_nil]
  obtain ⟨hempty, hwritten⟩ := applyRed_spec (s := { s with reds := [] }) (m := m)
    (x := { key := k, t := t, a := a, aty := m.aty, op := m.op, c := c }) hwaits rfl rfl rfl ha
  exact ⟨by rw [e, hempty], fun i => by rw [e]; exact hwritten i⟩

/-! ## An atomic at a peer (R346, R347) -/

/-- The answer that a step has been given to its request. -/
def BexAns.answers (x : BexAns) (a : Nat) (op : BexOp) (who : Turn × Nat) : Prop := x.addr = a ∧ x.op = op ∧ x.who = who

theorem want_mem (s : State) (x : Want) : x ∈ (s.want x).wants := by
  unfold State.want
  split
  · next h => simpa using h
  · simp

section peer
variable {s : State} {n a : Nat} {op : BexOp}

theorem peerAsk_of_unanswered (h : ∀ x ∈ s.bexDone, ¬ x.answers a op (s.asker, n)) :
    s.peerAsk n a op = (s.want (.peer (s.asker, n) a op), none) := by
  have e : s.bexDone.find? (fun x => x.addr = a && x.op = op && x.who = (s.asker, n)) = none := by
    refine List.find?_eq_none.mpr fun x hx hq => h x hx ?_
    simpa [BexAns.answers, and_assoc] using hq
  simp only [State.peerAsk, e]

theorem peerAsk_of_answered {r : Option Word} (hr : ∀ x ∈ s.bexDone, x.answers a op (s.asker, n) → x.result = r)
    (h : ∃ x ∈ s.bexDone, x.answers a op (s.asker, n)) : s.peerAsk n a op = (s, some r) := by
  cases e : s.bexDone.find? (fun x => x.addr = a && x.op = op && x.who = (s.asker, n)) with
  | none =>
    obtain ⟨x, hx, hans⟩ := h
    have := List.find?_eq_none.mp e x hx
    exact absurd (by simpa [BexAns.answers, and_assoc] using hans) this
  | some x =>
    have hans : x.answers a op (s.asker, n) := by
      simpa [BexAns.answers, and_assoc] using List.find?_some e
    simp only [State.peerAsk, e, hr x (List.mem_of_find?_eq_some e) hans]

end peer

/-! ## The statement's clauses -/

theorem atomicsReadAndWriteInOneStep : Claim.AtomicsReadAndWriteInOneStep := by
  intro s k t red h w m b c d hw n
  refine ⟨atomic_of_misaligned c d, fun hb hsp y hy hin hsound => ?_,
    fun hb hsp s1 keys hrun hwaits hreds hbad ha => ?_, fun hb hsp s1 keys hrun hbad hpeer => ?_⟩
  · refine ⟨_, _, atomic_scratch hw hb hsp hy hin hsound c d, fun hint => atomNew_flags_of_int hint .., fun a => ?_⟩
    rw [get_putBank, leBytes_length, atomNew_fst]
    split
    · exact leBytes_getD _ _ (by omega)
    · rfl
  · have hpos := atomBytes_pos m.aty
    have hlt : keys.headD 0 < 2 ^ 42 := by omega
    have hkeys : keys ≠ [] := by
      rintro rfl
      have := translateRun_length hrun
      simp at this
      omega
    have hfar := farKey_of_lt hlt
    have hpeer : peerKey (keys.headD 0) = false := by
      simp only [peerKey, Bool.and_eq_false_iff, decide_eq_false_iff_not]
      omega
    have htouch := touchHome_unnoted s1 (keyCore k) b h keys
    have hmem := mem_of_unnoted htouch
    have hat := atomic_of_home (t := t) (red := red) (h := h) hw hb hsp hrun hbad hpeer hfar c d
    refine ⟨?_, ?_⟩
    · rintro rfl
      obtain ⟨s', hhome, hwritten, hcores, hdomes⟩ := atomHome_spec ((waits_of_unnoted htouch).trans hwaits)
        ((reds_of_unnoted htouch).trans hreds) (m := m) ha c d rfl (keyCore k)
      simp only [Bool.false_eq_true, ↓reduceIte, hhome] at hat
      have hold : (s1.touchHome (keyCore k) b h keys).oldAt (keys.headD 0) m.aty.bytes =
          s1.oldAt (keys.headD 0) m.aty.bytes := by simp only [State.oldAt, hmem]
      refine ⟨_, _, hat.trans (by rw [hold]; rfl), fun hint => atomNew_flags_of_int hint .., fun i => ?_, ?_⟩
      · rw [mem_of_coreless (lastUse_coreless ..), hwritten i]
        simp only [State.newAt, hold, hmem]
        rfl
      · exact cachesPass_lastUse (hdomes.trans (domes_of_unnoted htouch)) (hcores.trans (cores_of_unnoted htouch)) _ _ hkeys
    · rintro rfl
      simp only [↓reduceIte] at hat
      have hoff := lastUse_coreless ((s1.touchHome (keyCore k) b h keys).acceptRed k t keys m c) (keyCore k) h keys
      have hmem' := (mem_of_coreless hoff).trans hmem
      have hred : (((s1.touchHome (keyCore k) b h keys).acceptRed k t keys m c).lastUse (keyCore k) h keys).reds =
          [{ key := k, t := t, a := keys.headD 0, aty := m.aty, op := m.op, c := c }] := (congrArg State.reds hoff).trans
        (congrArg (· ++ [_]) ((reds_of_unnoted htouch).trans hreds))
      have hwaits' : (((s1.touchHome (keyCore k) b h keys).acceptRed k t keys m c).lastUse (keyCore k) h keys).waits = [] :=
        (congrArg State.waits hoff).trans ((waits_of_unnoted htouch).trans hwaits)
      have hdomes := domes_of_unnoted htouch
      have hcores := cores_of_unnoted htouch
      have hcaches := cachesPass_lastUse (s2 := (s1.touchHome (keyCore k) b h keys).acceptRed k t keys m c) hdomes hcores
        (keyCore k) h hkeys
      obtain ⟨hempty, hwritten⟩ := applyReds_one hwaits' hred ha
      refine ⟨_, hat, hmem', hcaches, hred, hempty, ?_⟩
      rintro rfl i
      rw [hwritten i]
      simp only [State.newAt, State.oldAt, hmem']
      rfl
  · rw [atomic_of_peer hw hb hsp hrun hbad hpeer c d]
    refine ⟨fun hnone => ?_, fun r hall hsome => ?_⟩
    · simp only [State.atomicPeer, peerAsk_of_unanswered hnone]
      exact want_mem ..
    · simp only [State.atomicPeer, peerAsk_of_answered hall hsome]
      cases r with
      | none => rfl
      | some v => exact ⟨_, rfl⟩

theorem atomicWordsAnswerTheOldValue : Claim.AtomicWordsAnswerTheOldValue := by
  intro s k t h w m pd hw
  refine ⟨fun hopen s2 old fl => ⟨fun hat => ?_, fun hat => ?_⟩, fun hopen => ⟨?_, ?_⟩⟩
  · rw [atomAccess, outsideTxn_of_none hw _ _ hopen]
    simp only [Bool.or_eq_true, decide_eq_true_eq, hat]
  · rw [redAccess, outsideTxn_of_none hw _ _ hopen]
    simp only [hat]
  · rw [atomAccess, outsideTxn_of_open hw _ _ hopen]
  · rw [redAccess, outsideTxn_of_open hw _ _ hopen]

/-- Settles O17: a home slice applies what it has accepted and then reads and writes the bytes once; scratchpad and a peer's
slice each by the equation of their accesses. -/
theorem atomicsAreOneReadAndWrite : Obligations.AtomicsAreOneReadAndWrite :=
  ⟨atomicsReadAndWriteInOneStep, atomicWordsAnswerTheOldValue⟩

end Sys2Proof.Machine
end

section
/-! PROOFS. Plain loads and stores: the byte a core sees, what a miss fills and leaves unchanged, and the bytes a store leaves
dirty (R105, R107, R108, R191, R193, R345). -/

namespace Sys2Proof.Machine

/-! ## Tables that lose an entry -/

theorem ne_of_mem_erase {α : Type} {a : Nat} {e : Nat × α} :
    ∀ {l : Sparse α}, e ∈ Sparse.erase l a → e.1 ≠ a
  | [], h => absurd h List.not_mem_nil
  | (k, v) :: l, h => by
    unfold Sparse.erase at h
    split at h
    · exact ne_of_mem_erase h
    · next hne =>
      cases h with
      | head => exact Ne.symm hne
      | tail _ h => exact ne_of_mem_erase h

/-- The entry just made stays where another leaves. -/
theorem get_evictOne_keep {α : Type} (d : α) (l : Sparse α) (cap keep n : Nat) :
    Sparse.get d (evictOne l cap keep n) keep = Sparse.get d l keep := by
  unfold evictOne
  split
  · rfl
  · dsimp only
    split
    · next e he => exact Sparse.get_erase_other _ _ _ _ (ne_of_mem_erase (List.mem_of_getElem? he)).symm
    · rfl

/-! ## Bytes of the host (R345) -/

theorem homeByte_host {s : State} {key : Nat} (hfar : farKey key = true) (hpeer : peerKey key = false) :
    s.homeByte key = (Sparse.get none s.proxy key).getD
      (((Sparse.get [] s.hostClean (key / 64)).getD (key % 64) none).getD (readMem s.mem key)) := by
  have hlt : ¬ 2 ^ 52 ≤ key := by
    simp only [farKey, Bool.and_eq_true, decide_eq_true_eq] at hfar
    omega
  simp only [State.homeByte, if_neg hlt, hfar, ↓reduceIte, hpeer, Bool.false_eq_true]
  cases Sparse.get none s.proxy key with
  | some b => rfl
  | none => cases (Sparse.get [] s.hostClean (key / 64)).getD (key % 64) none <;> rfl

/-- The bytes of a line of the host are bytes of the host. -/
theorem hostKey_of_line {key : Nat} (h : (farKey (64 * (key / 64)) && !peerKey (64 * (key / 64))) = true) :
    farKey key = true ∧ peerKey key = false := by
  simp only [farKey, peerKey, Bool.and_eq_true, Bool.not_eq_true', Bool.and_eq_false_iff, decide_eq_true_eq,
    decide_eq_false_iff_not] at h ⊢
  omega

/-! ## The byte a core sees (R105, R107) -/

/-- The byte at a key as a core sees it: its own dirty byte, else the clean byte it holds, else what a miss fills. -/
def State.seen (s : State) (core key : Nat) : Byte :=
  match Sparse.get none (s.coreAt core).dirty key with
  | some b => b
  | none =>
    match (Sparse.get [] (s.coreAt core).clean (key / 64)).getD (key % 64) none with
    | some b => b
    | none => s.fillByte (domeOf core) key

theorem seen_of_dirty {s : State} {core key : Nat} {b : Byte} (h : Sparse.get none (s.coreAt core).dirty key = some b) :
    s.seen core key = b := by simp only [State.seen, h]

theorem seen_of_unnoted {s t : State} (h : t.unnoted = s.unnoted) (core key : Nat) : t.seen core key = s.seen core key := by
  rw [eq_of_unnoted h]; rfl

theorem fillView_eq (s : State) (line : Nat) : ∃ vs, s.fillView line = { s with views := vs } := by
  unfold State.fillView
  split
  · exact ⟨_, rfl⟩
  · exact ⟨_, rfl⟩

/-- Bytes by their line and their place in it. -/
theorem getD_line {α : Type} (f : Nat → α) (d : α) (key : Nat) :
    ((List.range 64).map (fun i => f (64 * (key / 64) + i))).getD (key % 64) d = f key := by
  have hlt : key % 64 < 64 := Nat.mod_lt _ (by decide)
  simp [hlt, Nat.div_add_mod]

/-- A slice that keeps the line of a view answers with the bytes the view had. -/
theorem homeByte_fillView (s : State) (line key : Nat) : (s.fillView line).homeByte key = s.homeByte key := by
  unfold State.fillView
  split
  next h =>
    obtain ⟨hline, hempty⟩ : 2 ^ 52 ≤ 64 * line ∧ Sparse.get [] s.views line = [] := by simpa using h
    by_cases hkey : 2 ^ 52 ≤ key
    · by_cases hl : key / 64 = line
      · subst hl
        have hne : s.homeBytes (64 * (key / 64)) 64 ≠ [] := by simp [State.homeBytes]
        have hget := getD_line s.homeByte 0 key
        generalize hbs : s.homeBytes (64 * (key / 64)) 64 = bs at hne
        have hbs' : (List.range 64).map (fun i => s.homeByte (64 * (key / 64) + i)) = bs := hbs
        rw [State.homeByte, if_pos hkey]
        dsimp only
        rw [Sparse.get_put_same]
        cases bs with
        | nil => exact absurd rfl hne
        | cons b bs => rw [← hget, hbs']
      · simp only [State.homeByte, if_pos hkey, Sparse.get_put_other _ _ _ _ _ hl]
        rfl
    · simp only [State.homeByte, if_neg hkey]
      rfl
  · rfl

theorem fillByte_fillView (s : State) (line dome key : Nat) : (s.fillView line).fillByte dome key = s.fillByte dome key := by
  obtain ⟨vs, h⟩ := fillView_eq s line
  have hhome := homeByte_fillView s line key
  rw [h] at hhome ⊢
  simp only [State.fillByte, hhome]
  rfl

/-! ## Loads of one byte -/

section loadByte
variable {s : State} {core key : Nat}

theorem loadByte_of_dirty {b : Byte} (h : Sparse.get none (s.coreAt core).dirty key = some b) (alloc : Bool) :
    s.loadByte core key alloc = (s, b) := by
  simp only [State.loadByte, h]

theorem loadByte_of_clean (hd : Sparse.get none (s.coreAt core).dirty key = none) {b : Byte}
    (h : (Sparse.get [] (s.coreAt core).clean (key / 64)).getD (key % 64) none = some b) (alloc : Bool) :
    s.loadByte core key alloc = (s, b) := by
  simp only [State.loadByte, hd, h]

theorem loadByte_of_miss (hd : Sparse.get none (s.coreAt core).dirty key = none)
    (hc : (Sparse.get [] (s.coreAt core).clean (key / 64)).getD (key % 64) none = none) (alloc : Bool) :
    s.loadByte core key alloc =
      (if alloc then (s.fillView (key / 64)).fillLine core (key / 64) else s.fillView (key / 64),
        s.fillByte (domeOf core) key) := by
  simp only [State.loadByte, hd, hc, fillByte_fillView]

theorem loadByte_snd (alloc : Bool) : (s.loadByte core key alloc).2 = s.seen core key := by
  unfold State.seen
  split
  · next b h => rw [loadByte_of_dirty h]
  · next hd =>
    split
    · next b h => rw [loadByte_of_clean hd h]
    · next hc => rw [loadByte_of_miss hd hc]

/-- A byte load leaves the state, or fills the line of its byte. -/
theorem loadByte_fst (alloc : Bool) : (s.loadByte core key alloc).1 = s ∨
    (s.loadByte core key alloc).1 =
      if alloc then (s.fillView (key / 64)).fillLine core (key / 64) else s.fillView (key / 64) := by
  cases hd : Sparse.get none (s.coreAt core).dirty key with
  | some b => exact .inl (congrArg Prod.fst (loadByte_of_dirty hd alloc))
  | none =>
    cases hc : (Sparse.get [] (s.coreAt core).clean (key / 64)).getD (key % 64) none with
    | some b => exact .inl (congrArg Prod.fst (loadByte_of_clean hd hc alloc))
    | none => exact .inr (congrArg Prod.fst (loadByte_of_miss hd hc alloc))

end loadByte

/-! ## What a fill changes -/

/-- The slice's part of a fill: it keeps the line of a view or of host memory. -/
def State.fillSlice (s : State) (line : Nat) : State :=
  let s0 := s.fillView line
  if farKey (64 * line) && !peerKey (64 * line) then
    { s0 with hostClean := Sparse.put s0.hostClean line ((List.range 64).map (fun i => some (s0.homeByte (64 * line + i)))) }
  else s0

/-- The bytes of a line after a fill: those held stay, and the others that have a value become it. -/
def filled (old : List (Option Byte)) (known : Nat → Bool) (val : Nat → Byte) (line : Nat) : List (Option Byte) :=
  (List.range 64).map (fun i =>
    match old.getD i none with
    | some b => some b
    | none => if known (64 * line + i) then some (val (64 * line + i)) else none)

theorem getD_filled (old : List (Option Byte)) (known : Nat → Bool) (val : Nat → Byte) (key : Nat) :
    (filled old known val (key / 64)).getD (key % 64) none =
      match old.getD (key % 64) none with
      | some b => some b
      | none => if known key then some (val key) else none := by
  have hlt : key % 64 < 64 := Nat.mod_lt _ (by decide)
  simp only [filled, List.getD_eq_getElem?_getD, List.getElem?_map, List.getElem?_range hlt, Option.map_some,
    Option.getD_some, Nat.div_add_mod]

/-- The replica's part of a fill. -/
def State.fillDome (s s1 : State) (dome line : Nat) : State :=
  if s1.replicated dome (64 * line) then
    let d := s1.domeAt dome
    let bytes := filled (Sparse.get [] d.clean line) s1.known s1.homeByte line
    s1.putDome dome { d with clean := evictOne (Sparse.put d.clean line bytes) s.replicaLines line (s.freeCtr + 2 ^ 62 + line) }
  else s1

theorem fillLine_eq (s : State) (core line : Nat) :
    s.fillLine core line =
      (let s1 := s.fillSlice line
       let c := s1.coreAt core
       let bytes := filled (Sparse.get [] c.clean line) s1.known (s1.fillByte (domeOf core)) line
       let clean := evictOne (Sparse.put c.clean line bytes) l1Lines line (s.freeCtr + 2 ^ 63 + line)
       (s.fillDome s1 (domeOf core) line).putCore core { c with clean := clean }) := rfl

theorem fillSlice_eq (s : State) (line : Nat) : ∃ vs hc, s.fillSlice line = { s with views := vs, hostClean := hc } := by
  obtain ⟨vs, h⟩ := fillView_eq s line
  simp only [State.fillSlice, h]
  split
  · exact ⟨_, _, rfl⟩
  · exact ⟨_, _, rfl⟩

/-- What a slice keeps of a line has the value it had at home. -/
theorem homeByte_fillSlice (s : State) (line key : Nat) : (s.fillSlice line).homeByte key = s.homeByte key := by
  rw [← homeByte_fillView s line key]
  generalize hs : s.fillView line = s0
  simp only [State.fillSlice, hs]
  split
  next h =>
    by_cases hl : key / 64 = line
    · subst hl
      obtain ⟨hfar, hpeer⟩ := hostKey_of_line h
      have hget := getD_line (fun a => some (s0.homeByte a)) none key
      rw [homeByte_host hfar hpeer]
      dsimp only
      rw [Sparse.get_put_same, hget, homeByte_host hfar hpeer]
      cases Sparse.get none s0.proxy key with
      | none => rfl
      | some b => rfl
    · simp only [State.homeByte, Sparse.get_put_other _ _ _ _ _ hl]
      rfl
  next => rfl

theorem fillByte_fillSlice (s : State) (line dome key : Nat) :
    (s.fillSlice line).fillByte dome key = s.fillByte dome key := by
  obtain ⟨vs, hc, h⟩ := fillSlice_eq s line
  have hhome := homeByte_fillSlice s line key
  rw [h] at hhome ⊢
  simp only [State.fillByte, hhome]
  rfl

section fillDome
variable (s s1 : State) (dome line : Nat)

theorem fillDome_eq : ∃ ds, s.fillDome s1 dome line = { s1 with domes := ds } := by
  unfold State.fillDome
  split
  · exact ⟨_, rfl⟩
  · exact ⟨_, rfl⟩

/-- A replica that keeps a line's bytes fills with the bytes it and the home had. -/
theorem fillByte_fillDome (key : Nat) (hl : key / 64 = line) :
    (s.fillDome s1 dome line).fillByte dome key = s1.fillByte dome key := by
  subst hl
  obtain ⟨ds, hds⟩ := fillDome_eq s s1 dome (key / 64)
  have hhome : (s.fillDome s1 dome (key / 64)).homeByte key = s1.homeByte key := by rw [hds]; rfl
  have hrep : (s.fillDome s1 dome (key / 64)).replicated dome key = s1.replicated dome key := by rw [hds]; rfl
  by_cases h : s1.replicated dome (64 * (key / 64)) = true
  · have hdome : (s.fillDome s1 dome (key / 64)).domeAt dome = { s1.domeAt dome with
        clean := ((s.fillDome s1 dome (key / 64)).domeAt dome).clean } := by
      simp only [State.fillDome, h, ↓reduceIte, domeAt_putDome_same]
    have hclean : (Sparse.get [] ((s.fillDome s1 dome (key / 64)).domeAt dome).clean (key / 64)).getD (key % 64) none =
        match (Sparse.get [] (s1.domeAt dome).clean (key / 64)).getD (key % 64) none with
        | some b => some b
        | none => if s1.known key then some (s1.homeByte key) else none := by
      simp only [State.fillDome, h, ↓reduceIte, domeAt_putDome_same, get_evictOne_keep, Sparse.get_put_same, getD_filled]
    have hdirty : ((s.fillDome s1 dome (key / 64)).domeAt dome).dirty = (s1.domeAt dome).dirty := by rw [hdome]
    simp only [State.fillByte, hdirty, hclean, hhome, hrep]
    cases Sparse.get none (s1.domeAt dome).dirty key with
    | some b => rfl
    | none =>
      cases (Sparse.get [] (s1.domeAt dome).clean (key / 64)).getD (key % 64) none with
      | some b => rfl
      | none => cases s1.known key <;> rfl
  · rw [show s.fillDome s1 dome (key / 64) = s1 from if_neg h]

end fillDome

/-! ## Fills change what a core sees of their line in nothing -/

/-- Nothing changes but the views and lines of host memory that slices keep, the replicas, and the clean bytes of a core. -/
def State.filledOnly (s t : State) (core : Nat) : Prop :=
  ∃ vs hc ds, t = { s with views := vs, hostClean := hc, domes := ds, cores := t.cores } ∧
    (∀ c, c ≠ core → t.coreAt c = s.coreAt c) ∧ t.coreAt core = { s.coreAt core with clean := (t.coreAt core).clean }

section
variable {s t u : State} {core : Nat}

theorem filledOnly_refl : s.filledOnly s core := ⟨_, _, _, rfl, fun _ _ => rfl, rfl⟩

theorem State.filledOnly.trans (h : s.filledOnly t core) (h' : t.filledOnly u core) : s.filledOnly u core := by
  obtain ⟨vs, hc, ds, heq, hother, hcore⟩ := h
  obtain ⟨vs', hc', ds', heq', hother', hcore'⟩ := h'
  refine ⟨vs', hc', ds', heq'.trans ?_, fun c hc => (hother' c hc).trans (hother c hc), ?_⟩
  · rw [heq]
  · rw [hcore', hcore]

theorem State.filledOnly.mem (h : s.filledOnly t core) : t.mem = s.mem := by
  obtain ⟨vs, hc, ds, heq, -⟩ := h
  rw [heq]

theorem State.filledOnly.coreAt (h : s.filledOnly t core) {c : Nat} (hc : c ≠ core) : t.coreAt c = s.coreAt c := by
  obtain ⟨vs, hc', ds, -, hother, -⟩ := h
  exact hother c hc

theorem State.filledOnly.dirty (h : s.filledOnly t core) (c : Nat) : (t.coreAt c).dirty = (s.coreAt c).dirty := by
  by_cases hc : c = core
  · subst hc
    obtain ⟨vs, hc', ds, -, -, hcore⟩ := h
    rw [hcore]
  · rw [h.coreAt hc]

end

theorem fillView_filledOnly (s : State) (core line : Nat) : s.filledOnly (s.fillView line) core := by
  obtain ⟨vs, h⟩ := fillView_eq s line
  rw [h]
  exact ⟨_, _, _, rfl, fun _ _ => rfl, rfl⟩

theorem fillLine_filledOnly (s : State) (core line : Nat) : s.filledOnly (s.fillLine core line) core := by
  rw [fillLine_eq]
  dsimp only
  obtain ⟨ds, hds⟩ := fillDome_eq s (s.fillSlice line) (domeOf core) line
  obtain ⟨vs, hc, hs⟩ := fillSlice_eq s line
  rw [hds, hs]
  exact ⟨_, _, _, rfl, fun c hne => coreAt_putCore_other _ _ _ _ hne, by rw [coreAt_putCore_same]; rfl⟩

theorem loadByte_filledOnly (s : State) (core key : Nat) (alloc : Bool) :
    s.filledOnly (s.loadByte core key alloc).1 core := by
  rcases loadByte_fst (s := s) (core := core) (key := key) alloc with h | h
  · rw [h]
    exact filledOnly_refl
  · rw [h]
    split
    · exact (fillView_filledOnly s core _).trans (fillLine_filledOnly _ core _)
    · exact fillView_filledOnly s core _

theorem seen_fillView (s : State) (core line key : Nat) : (s.fillView line).seen core key = s.seen core key := by
  have hfill := fillByte_fillView s line (domeOf core) key
  obtain ⟨vs, h⟩ := fillView_eq s line
  rw [h] at hfill ⊢
  simp only [State.seen, hfill]
  rfl

theorem seen_fillLine (s : State) (core key : Nat) : (s.fillLine core (key / 64)).seen core key = s.seen core key := by
  have hfill : (s.fillDome (s.fillSlice (key / 64)) (domeOf core) (key / 64)).fillByte (domeOf core) key =
      s.fillByte (domeOf core) key := (fillByte_fillDome _ _ _ _ _ rfl).trans (fillByte_fillSlice ..)
  have hslice := fillByte_fillSlice s (key / 64) (domeOf core) key
  have hcore : (s.fillSlice (key / 64)).coreAt core = s.coreAt core := by
    obtain ⟨vs, hc, hs⟩ := fillSlice_eq s (key / 64)
    rw [hs]; rfl
  rw [fillLine_eq]
  dsimp only
  simp only [State.seen, coreAt_putCore_same, get_evictOne_keep, Sparse.get_put_same, getD_filled, hcore, hslice]
  cases Sparse.get none (s.coreAt core).dirty key with
  | some b => rfl
  | none =>
    cases (Sparse.get [] (s.coreAt core).clean (key / 64)).getD (key % 64) none with
    | some b => rfl
    | none =>
      cases (s.fillSlice (key / 64)).known key with
      | true => rfl
      | false => exact hfill

/-- A core sees a line's bytes after a load from it as before. -/
theorem seen_loadByte (s : State) (core key key' : Nat) (alloc : Bool) (hl : key / 64 = key' / 64) :
    (s.loadByte core key' alloc).1.seen core key = s.seen core key := by
  rcases loadByte_fst (s := s) (core := core) (key := key') alloc with h | h
  · rw [h]
  · rw [h, ← hl]
    split
    · exact (seen_fillLine ..).trans (seen_fillView ..)
    · exact seen_fillView ..

/-! ## Loads of several bytes -/

section loadKeys
variable (core : Nat) (alloc : Bool)

theorem loadKeys_cons (s : State) (key : Nat) (keys : List Nat) :
    s.loadKeys core alloc (key :: keys) =
      (((s.loadByte core key alloc).1.loadKeys core alloc keys).1,
        (s.loadByte core key alloc).2 :: ((s.loadByte core key alloc).1.loadKeys core alloc keys).2) := rfl

theorem loadKeys_filledOnly (keys : List Nat) : ∀ s : State, s.filledOnly (s.loadKeys core alloc keys).1 core := by
  induction keys with
  | nil => exact fun s => filledOnly_refl
  | cons key keys ih =>
    intro s
    rw [loadKeys_cons]
    exact (loadByte_filledOnly s core key alloc).trans (ih _)

theorem loadKeys_length (keys : List Nat) : ∀ s : State, (s.loadKeys core alloc keys).2.length = keys.length := by
  induction keys with
  | nil => exact fun s => rfl
  | cons key keys ih =>
    intro s
    rw [loadKeys_cons, List.length_cons, ih, List.length_cons]

/-- Under the bypass hint nothing of the core changes. -/
theorem coreAt_loadKeys_bypass (keys : List Nat) : ∀ s : State,
    (s.loadKeys core false keys).1.coreAt core = s.coreAt core := by
  induction keys with
  | nil => exact fun s => rfl
  | cons key keys ih =>
    intro s
    rw [loadKeys_cons, ih]
    rcases loadByte_fst (s := s) (core := core) (key := key) false with h | h
    · rw [h]
    · obtain ⟨vs, hv⟩ := fillView_eq s (key / 64)
      rw [h, if_neg Bool.false_ne_true, hv]
      rfl

theorem loadKeys_dirty (keys : List Nat) : ∀ (s : State) (i : Nat) (b : Byte), i < keys.length →
    Sparse.get none (s.coreAt core).dirty (keys.getD i 0) = some b → (s.loadKeys core alloc keys).2.getD i 0 = b := by
  induction keys with
  | nil => exact fun s i b hi => absurd hi (Nat.not_lt_zero i)
  | cons key keys ih =>
    intro s i b hi hb
    rw [loadKeys_cons]
    cases i with
    | zero => exact (loadByte_snd alloc).trans (seen_of_dirty hb)
    | succ i =>
      refine ih _ i b (Nat.lt_of_succ_lt_succ hi) ?_
      rw [(loadByte_filledOnly s core key alloc).dirty]
      exact hb

theorem loadKeys_line {line : Nat} (keys : List Nat) : ∀ (s : State), (∀ key ∈ keys, key / 64 = line) →
    ∀ i, i < keys.length → (s.loadKeys core alloc keys).2.getD i 0 = s.seen core (keys.getD i 0) := by
  induction keys with
  | nil => exact fun s _ i hi => absurd hi (Nat.not_lt_zero i)
  | cons key keys ih =>
    intro s hl i hi
    rw [loadKeys_cons]
    cases i with
    | zero => exact loadByte_snd alloc
    | succ i =>
      have hi' := Nat.lt_of_succ_lt_succ hi
      have hmem : keys.getD i 0 ∈ keys := by simp [hi']
      refine (ih _ (fun a ha => hl a (List.mem_cons_of_mem _ ha)) i hi').trans (seen_loadByte s core _ key alloc ?_)
      rw [hl _ (List.mem_cons_of_mem _ hmem), hl key (List.mem_cons_self ..)]

end loadKeys

end Sys2Proof.Machine
end

section
/-! PROOFS. LD and ST of global memory and of the stack: where an access goes, what it reads, and what it leaves dirty
(R105, R107, R191, R193). -/

namespace Sys2Proof.Machine

/-! ## Places (R88, R191) -/

theorem window_eq (s : State) (k : Nat) (ls : List Nat) (store : Bool) : ∃ ws, s.window k ls store = { s with warps := ws } := by
  unfold State.window
  split
  · exact ⟨_, rfl⟩
  · dsimp only
    split
    · exact ⟨_, rfl⟩
    · exact ⟨_, rfl⟩

theorem noteFrame_eq (s : State) (k : Nat) (keys : List Nat) : ∃ ws, s.noteFrame k keys = { s with warps := ws } := by
  unfold State.noteFrame
  split
  · exact ⟨_, rfl⟩
  · exact ⟨_, rfl⟩

section goesTo
variable {s : State} {k t n : Nat} {w : Warp} (hw : s.warpAt k = some w) {m : MMod} {base va : Word}
include hw

/-- A load that goes to an address is a load of global memory there, with its warp's bookkeeping. -/
theorem load_goesTo {tx : Bool} (hgo : Claim.goesTo s k t n w m base tx va) {h : Hint} {s1 : State} {bs : List Byte}
    (hload : s.loadG k h va n = (s1, .ok bs)) :
    ∃ ws, s.load k t tx h (s.placeOf k m base) n = ({ s1 with warps := ws }, .ok bs) := by
  rcases hgo with ⟨hsp, rfl, hopen⟩ | ⟨hsp, rfl, hin⟩
  · have hplace : s.placeOf k m base = .g (base + m.off.signExtend 64) := by
      simp only [State.placeOf, hsp, effective]; rfl
    have hnone : (if tx then w.openTxn t else none) = none := by
      cases tx with
      | false => rfl
      | true => exact hopen rfl
    exact ⟨s1.warps, by rw [hplace]; simp only [State.load, hw, hnone, hload]⟩
  · have hplace : s.placeOf k m base = .k (w.sp + base + m.off.signExtend 64) := by
      simp only [State.placeOf, hsp, hw, effective]; rfl
    obtain ⟨ws, hws⟩ := noteFrame_eq s1 k (s1.runKeys k (w.sp + base + m.off.signExtend 64) n)
    refine ⟨ws, ?_⟩
    rw [hplace]
    simp only [State.load, hw, hin, Bool.not_true, Bool.false_eq_true, ↓reduceIte, hload, hws]

/-- A store that goes to an address is a store to global memory there, with its warp's bookkeeping. -/
theorem store_goesTo {bs : List Byte} (hgo : Claim.goesTo s k t bs.length w m base true va) {h : Hint} {s1 : State}
    (hstore : s.storeG k h va bs = (s1, .ok ())) :
    ∃ ws, s.store k t h (s.placeOf k m base) bs = ({ s1 with warps := ws }, .ok ()) := by
  rcases hgo with ⟨hsp, rfl, hopen⟩ | ⟨hsp, rfl, hin⟩
  · have hplace : s.placeOf k m base = .g (base + m.off.signExtend 64) := by
      simp only [State.placeOf, hsp, effective]; rfl
    exact ⟨s1.warps, by rw [hplace]; simp only [State.store, hw, hopen rfl, hstore]⟩
  · have hplace : s.placeOf k m base = .k (w.sp + base + m.off.signExtend 64) := by
      simp only [State.placeOf, hsp, hw, effective]; rfl
    obtain ⟨ws, hws⟩ := noteFrame_eq s1 k (s1.runKeys k (w.sp + base + m.off.signExtend 64) bs.length)
    refine ⟨ws, ?_⟩
    rw [hplace]
    simp only [State.store, hw, hin, Bool.not_true, Bool.false_eq_true, ↓reduceIte, hstore, hws]

theorem ldAccess_goesTo {pd : Pend} {tx : Bool} (hgo : Claim.goesTo s k t m.mt.bytes w m (pd.ops.gb t) tx va) {h : Hint}
    {s1 : State} {bs : List Byte} (hload : s.loadG k h va m.mt.bytes = (s1, .ok bs)) :
    ∃ ws, ldAccess m tx h s k pd t = ({ s1 with warps := ws }, .ok (some (extendBytes m.mt bs), 0)) := by
  obtain ⟨ws, hws⟩ := load_goesTo hw hgo hload
  obtain ⟨ws', hws'⟩ := window_eq { s1 with warps := ws } k
    (State.placeLines { s1 with warps := ws } k (s.placeOf k m (pd.ops.gb t)) m.mt.bytes) false
  exact ⟨ws', by simp only [ldAccess, hws, hws']⟩

theorem stAccess_goesTo {pd : Pend} (hgo : Claim.goesTo s k t m.mt.bytes w m (pd.ops.gb t) true va) {h : Hint}
    {s1 : State} (hstore : s.storeG k h va (leBytes m.mt.bytes (pd.ops.gc t).toNat) = (s1, .ok ())) :
    ∃ ws, stAccess m h s k pd t = ({ s1 with warps := ws }, .ok (none, 0)) := by
  rw [← leBytes_length m.mt.bytes (pd.ops.gc t).toNat] at hgo
  obtain ⟨ws, hws⟩ := store_goesTo hw hgo hstore
  obtain ⟨ws', hws'⟩ := window_eq { s1 with warps := ws } k
    (State.placeLines { s1 with warps := ws } k (s.placeOf k m (pd.ops.gb t)) m.mt.bytes) true
  exact ⟨ws', by simp only [stAccess, hws, hws']⟩

end goesTo

/-! ## Loads -/

/-- What a load of global memory reads and changes, where its bytes need no peer. -/
theorem loadG_spec {s s1 : State} {k : Nat} {va : Word} {n : Nat} {keys : List Nat}
    (hrun : s.translateRun (keyCore k) .read va n = (s1, .ok keys)) (hnear : ∀ key ∈ keys, peerKey key = false)
    (hread : s1.readErr (keyCore k) va keys true = none) (h : Hint) :
    ∃ s2 bs, s.loadG k h va n = (s2, .ok bs) ∧ bs.length = n ∧ s2.mem = s1.mem ∧
      (∀ c, (s2.coreAt c).dirty = (s1.coreAt c).dirty) ∧ (∀ c, c ≠ keyCore k → s2.coreAt c = s1.coreAt c) ∧
      (h = .bypass → (s2.coreAt (keyCore k)).clean = (s1.coreAt (keyCore k)).clean) ∧
      (∀ i b, i < n → Sparse.get none (s1.coreAt (keyCore k)).dirty (keys.getD i 0) = some b → bs.getD i 0 = b) ∧
      ((∀ key ∈ keys, key / 64 = keys.headD 0 / 64) → ∀ i, i < n → bs.getD i 0 = s1.seen (keyCore k) (keys.getD i 0)) := by
  have hlen := translateRun_length hrun
  have hnote := noteLines_unnoted s1 k h (s1.classOf (keyCore k) va) keys false
  have hg : s.loadG k h va n =
      (let r := (s1.noteLines k h (s1.classOf (keyCore k) va) keys false).loadKeys (keyCore k) (decide (h ≠ .bypass)) keys
       (r.1.lastUse (keyCore k) h keys, .ok r.2)) := by
    simp only [State.loadG, hrun, askPeers_of_none hnear, hread]
  generalize s1.noteLines k h (s1.classOf (keyCore k) va) keys false = sn at hnote hg
  have hfill := loadKeys_filledOnly (keyCore k) (decide (h ≠ .bypass)) keys sn
  refine ⟨_, _, hg, (loadKeys_length ..).trans hlen, ?_, fun c => ?_, fun c hc => ?_, ?_, fun i b hi hb => ?_,
    fun hl i hi => ?_⟩
  · exact (mem_of_coreless (lastUse_coreless ..)).trans (hfill.mem.trans (mem_of_unnoted hnote))
  · rw [dirty_lastUse, hfill.dirty, coreAt_of_unnoted hnote]
  · rw [coreAt_lastUse_other _ _ _ _ hc, hfill.coreAt hc, coreAt_of_unnoted hnote]
  · rintro rfl
    rw [lastUse_of_ne _ _ _ _ (by decide), show decide (Hint.bypass ≠ .bypass) = false from rfl, coreAt_loadKeys_bypass,
      coreAt_of_unnoted hnote]
  · exact loadKeys_dirty _ _ keys sn i b (hlen ▸ hi) (by rwa [coreAt_of_unnoted hnote])
  · exact (loadKeys_line _ _ keys sn hl i (hlen ▸ hi)).trans (seen_of_unnoted hnote ..)

/-- Settles O13: what a byte load sees, by its cases, and for a load of several bytes that filling the line of one leaves
what its core sees of the others. -/
theorem loadsSeeOwnStoresThenCachesThenHome : Obligations.LoadsSeeOwnStoresThenCachesThenHome := by
  refine ⟨fun s core key alloc => ⟨fun b hb => loadByte_of_dirty hb alloc, fun hd => ⟨fun b hb => loadByte_of_clean hd hb alloc,
    fun hc => ?_⟩⟩, fun s s1 k t w m pd tx h va keys hw hgo hrun hnear hread => ?_⟩
  · rw [loadByte_of_miss hd hc]
    refine ⟨rfl, fun b hb => ?_, fun hdome hrep => ?_⟩
    · simp only [State.fillByte, hb]
    · have hfill : s.fillByte (domeOf core) key = s.homeByte key := by
        simp only [State.fillByte, hdome, hrep, Bool.false_eq_true, ↓reduceIte]
      refine ⟨fun hlt => hfill.trans (homeByte_near s hlt), fun hlo hhi => hfill.trans (homeByte_host ?_ ?_)⟩
      · simp only [farKey, Bool.and_eq_true, decide_eq_true_eq]
        omega
      · simp only [peerKey, Bool.and_eq_false_iff, decide_eq_false_iff_not]
        omega
  · obtain ⟨s2, bs, hload, hlen, hmem, hdirty, hother, hbypass, hown, hline⟩ := loadG_spec hrun hnear hread h
    obtain ⟨ws, hld⟩ := ldAccess_goesTo hw hgo hload
    exact ⟨_, _, bs, hld, extendBytes_loaded m.mt hlen, hmem, hdirty, hother, hbypass, hown,
      fun hl i hi => (hline hl i hi).trans (loadByte_snd true).symm⟩

/-! ## Stores -/

/-- The table of dirty bytes after stores of bytes to keys. -/
def dirtied (dirty : Sparse (Option Byte)) (keys : List Nat) (bs : List Byte) : Sparse (Option Byte) :=
  (keys.zip bs).foldl (fun acc kb => Sparse.put acc kb.1 (some kb.2)) dirty

theorem dirtied_law (dirty : Sparse (Option Byte)) (c : Nat × Byte) (a : Nat) :
    Sparse.get none (Sparse.put dirty c.1 (some c.2)) a = if a = c.1 then some c.2 else Sparse.get none dirty a :=
  Sparse.get_put ..

theorem get_dirtied_other (dirty : Sparse (Option Byte)) {keys : List Nat} (bs : List Byte) {key : Nat} (h : key ∉ keys) :
    Sparse.get none (dirtied dirty keys bs) key = Sparse.get none dirty key := by
  refine foldl_put_other (val := some) dirtied_law _ _ fun c hc => ?_
  rintro rfl
  exact h (List.of_mem_zip hc).1

/-- The last byte stored to a key is its dirty byte. -/
theorem get_dirtied_last (keys : List Nat) : ∀ (dirty : Sparse (Option Byte)) (bs : List Byte) (i : Nat),
    keys.length = bs.length → i < keys.length → (∀ j, i < j → j < keys.length → keys.getD j 0 ≠ keys.getD i 0) →
    Sparse.get none (dirtied dirty keys bs) (keys.getD i 0) = some (bs.getD i 0) := by
  induction keys with
  | nil => exact fun _ _ i _ hi => absurd hi (Nat.not_lt_zero i)
  | cons key keys ih =>
    intro dirty bs i hlen hi hlast
    cases bs with
    | nil => cases hlen
    | cons b bs =>
      cases i with
      | zero =>
        have hnot : key ∉ keys := fun hmem => by
          obtain ⟨j, hj, hkey⟩ := List.mem_iff_getElem.mp hmem
          exact hlast (j + 1) (Nat.succ_pos j) (Nat.succ_lt_succ hj) (by simp [hj, hkey])
        exact (get_dirtied_other _ bs hnot).trans (Sparse.get_put_same ..)
      | succ i =>
        exact ih _ bs i (Nat.succ.inj hlen) (Nat.lt_of_succ_lt_succ hi) fun j hij hj =>
          hlast (j + 1) (Nat.succ_lt_succ hij) (Nat.succ_lt_succ hj)

/-- What a store of bytes changes: its core's dirty bytes and their owners. -/
theorem storeKeys_spec (s : State) (k : Nat) (keys : List Nat) (bs : List Byte) :
    (s.storeKeys k keys bs).mem = s.mem ∧ (s.storeKeys k keys bs).domes = s.domes ∧
    (∀ c, c ≠ keyCore k → (s.storeKeys k keys bs).coreAt c = s.coreAt c) ∧
    ((s.storeKeys k keys bs).coreAt (keyCore k)).clean = (s.coreAt (keyCore k)).clean ∧
    ((s.storeKeys k keys bs).coreAt (keyCore k)).dirty = dirtied (s.coreAt (keyCore k)).dirty keys bs := by
  have hat : ∀ c, (s.storeKeys k keys bs).coreAt c = (s.putCore (keyCore k) { s.coreAt (keyCore k) with
      dirty := dirtied (s.coreAt (keyCore k)).dirty keys bs,
      owner := keys.foldl (fun acc a => Sparse.put acc a (s.ownerOf k)) (s.coreAt (keyCore k)).owner }).coreAt c :=
    fun c => rfl
  refine ⟨rfl, rfl, fun c hc => (hat c).trans (coreAt_putCore_other _ _ _ _ hc), ?_, ?_⟩
  · rw [hat, coreAt_putCore_same]
  · rw [hat, coreAt_putCore_same]

/-- Settles O14: the bytes enter the storing core's dirty table, whose last entry for a key counts. -/
theorem storesStayInTheirCoreUntilPublished : Obligations.StoresStayInTheirCoreUntilPublished := by
  intro s s1 k t w m h pd va keys hw hgo hrun
  have hlen : keys.length = m.mt.bytes := translateRun_length hrun
  have hrun' : s.translateRun (keyCore k) .write va (leBytes m.mt.bytes (pd.ops.gc t).toNat).length = (s1, .ok keys) := by
    rwa [leBytes_length]
  have hnote := noteLines_unnoted s1 k h 0 keys true
  generalize hbs : leBytes m.mt.bytes (pd.ops.gc t).toNat = bs at hrun'
  have hlen' : keys.length = bs.length := translateRun_length hrun'
  generalize hsn : s1.noteLines k h 0 keys true = sn at hnote
  obtain ⟨hmem, hdomes, hother, hclean, hdirty⟩ := storeKeys_spec sn k keys bs
  have hstore : s.storeG k h va (leBytes m.mt.bytes (pd.ops.gc t).toNat) =
      ((sn.storeKeys k keys bs).lastUse (keyCore k) h keys, .ok ()) := by
    simp only [hbs, State.storeG, hrun', hsn]
  obtain ⟨ws, hst⟩ := stAccess_goesTo hw hgo hstore
  have hat := coreAt_of_unnoted hnote
  have hcoreless := lastUse_coreless (sn.storeKeys k keys bs) (keyCore k) h keys
  have hdirty' : (((sn.storeKeys k keys bs).lastUse (keyCore k) h keys).coreAt (keyCore k)).dirty =
      dirtied (s1.coreAt (keyCore k)).dirty keys bs := by rw [dirty_lastUse, hdirty, hat]
  refine ⟨_, hst, (mem_of_coreless hcoreless).trans (hmem.trans (mem_of_unnoted hnote)),
    (domes_of_coreless hcoreless).trans (hdomes.trans (domes_of_unnoted hnote)),
    fun c hc => (coreAt_lastUse_other _ _ _ _ hc).trans ((hother c hc).trans (hat c)), fun line => ?_, fun key hkey => ?_,
    fun i hi hlast => ?_⟩
  · exact (clean_lastUse ..).trans (by rw [hclean, hat])
  · exact (congrArg (fun d => Sparse.get none d key) hdirty').trans (get_dirtied_other _ bs hkey)
  · refine (congrArg (fun d => Sparse.get none d (keys.getD i 0)) hdirty').trans ?_
    rw [get_dirtied_last keys _ bs i hlen' (hlen ▸ hi) (hlen ▸ hlast), ← hbs, leBytes_word _ _ hi]

end Sys2Proof.Machine
end

section
/-! PROOFS. Addresses: accesses outside their space, what a cached translation permits, and the walk of the page table
(R88, R95, R96, R305, R306, Tables 20.5 and 20.6). -/

namespace Sys2Proof.Machine

/-! ## Accesses outside their space (R88, R194) -/

section outside
variable {s : State} {k t : Nat} {w : Warp} (hw : s.warpAt k = some w) {m : MMod} {pd : Pend} {h : Hint}
theorem ldAccess_error {tx : Bool} {e : MemErr}
    (hload : s.load k t tx h (s.placeOf k m (pd.ops.gb t)) m.mt.bytes = (s, .error e)) :
    ldAccess m tx h s k pd t = (s, .error e) := by
  simp only [ldAccess, hload]

theorem stAccess_error {e : MemErr}
    (hstore : s.store k t h (s.placeOf k m (pd.ops.gb t)) (leBytes m.mt.bytes (pd.ops.gc t).toNat) = (s, .error e)) :
    stAccess m h s k pd t = (s, .error e) := by
  simp only [stAccess, hstore]

theorem placeOf_global (hsp : m.sp = .g) (base : Word) : s.placeOf k m base = .g (base + m.off.signExtend 64) := by
  simp only [State.placeOf, hsp, effective]; rfl

include hw

theorem placeOf_stack (hsp : m.sp = .k) (base : Word) :
    s.placeOf k m base = .k (w.sp + base + m.off.signExtend 64) := by
  simp only [State.placeOf, hsp, hw, effective]; rfl

theorem load_outsideStack {va : Word} {n : Nat} (hin : s.inStack k va n = false) (tx : Bool) :
    s.load k t tx h (.k va) n = (s, .error (.trap tSTACK va)) := by
  simp only [State.load, hw, hin, Bool.not_false, ↓reduceIte]

theorem store_outsideStack {va : Word} {bs : List Byte} (hin : s.inStack k va bs.length = false) :
    s.store k t h (.k va) bs = (s, .error (.trap tSTACK va)) := by
  simp only [State.store, hw, hin, Bool.not_false, ↓reduceIte]

theorem load_noncanonical {va : Word} (hva : canonical va = false) (hopen : w.openTxn t = none) (tx : Bool) (n : Nat) :
    s.load k t tx h (.g va) n = (s, .error (.trap tNONCANONICAL va)) := by
  have hnone : (if tx then w.openTxn t else none) = none := by
    rw [hopen, ite_self]
  simp only [State.load, hw, hnone, State.loadG, translateRun_of_noncanonical hva]

theorem store_noncanonical {va : Word} (hva : canonical va = false) (hopen : w.openTxn t = none) (bs : List Byte) :
    s.store k t h (.g va) bs = (s, .error (.trap tNONCANONICAL va)) := by
  simp only [State.store, hw, hopen, State.storeG, translateRun_of_noncanonical hva]

end outside

theorem accessesOutsideTheirSpaceTrap : Claim.AccessesOutsideTheirSpaceTrap := by
  intro s k t w m pd tx h hw
  constructor
  · intro hsp va hin
    have hplace := placeOf_stack hw hsp (pd.ops.gb t)
    refine ⟨ldAccess_error ?_, stAccess_error ?_⟩
    · rw [hplace]
      exact load_outsideStack hw hin tx
    · rw [hplace]
      exact store_outsideStack hw (by rwa [leBytes_length])
  · intro hsp va hva hopen
    have hplace := placeOf_global (s := s) (k := k) hsp (pd.ops.gb t)
    refine ⟨ldAccess_error ?_, stAccess_error ?_⟩
    · rw [hplace]
      exact load_noncanonical hw hva hopen tx _
    · rw [hplace]
      exact store_noncanonical hw hva hopen _

/-! ## Marking a leaf as used (R96) -/

/-- Marking sets bits of an entry at its home and changes nothing else there. -/
theorem setEntry_spec {s : State} {a : Nat} (ha : a + 8 ≤ 2 ^ 42) (hwaits : s.waits = []) (hreds : s.reds = []) (v : Word) :
    (s.setEntry a v).homeWord a = s.homeWord a ||| v ∧
    (∀ i, ¬ (a ≤ i ∧ i < a + 8) → readMem (s.setEntry a v).mem i = readMem s.mem i) ∧
    (s.setEntry a v).waits = [] ∧ (s.setEntry a v).offHome = s.offHome := by
  have hfar := farKey_of_lt (k := a) (by omega)
  have e : s.setEntry a v =
      if s.homeWord a ||| v = s.homeWord a then s else s.homeWrite a (leBytes 8 (s.homeWord a ||| v).toNat) := by
    simp only [State.setEntry, applyReds_of_no_reds hreds]
  rw [e]
  split
  · next h => exact ⟨h.symm, fun _ _ => rfl, hwaits, rfl⟩
  · refine ⟨homeWord_homeWrite ha hwaits hreds _, fun i hi => ?_, ?_, homeWrite_offHome hreds ..⟩
    · rw [readMem_homeWrite hfar hwaits hreds, leBytes_length, if_neg hi]
    · obtain ⟨m, b, ws, h⟩ := putCells_near (s := s) ((farKey_group a).trans hfar)
        (runCells a (leBytes 8 (s.homeWord a ||| v).toNat))
      rw [homeWrite_near hfar hwaits hreds, h]
      exact hwaits

/-! ## What a translation permits (R95) -/

/-- A leaf permits reads, and writes and fetches where it says so. -/
def permits (acc : Acc) (e : Word) : Bool :=
  match acc with
  | .read => true
  | .write => e.getLsbD 1
  | .fetch => e.getLsbD 2

theorem permits_eq (acc : Acc) (e : Word) : permits acc e = !((acc = .write && !leafW e) || (acc = .fetch && !leafX e)) := by
  cases acc with
  | read => rfl
  | write =>
    simp only [permits, leafW, decide_true, Bool.true_and, reduceCtorEq, decide_false, Bool.false_and, Bool.or_false,
      Bool.not_not]
  | fetch =>
    simp only [permits, leafX, decide_true, Bool.true_and, reduceCtorEq, decide_false, Bool.false_and, Bool.false_or,
      Bool.not_not]

/-- The entry of an access at home after it is marked: `a` at the first use, `d` at the first write. -/
def State.markLeaf (s : State) (acc : Acc) (x : Tlb) (fill : Bool) : State :=
  let s1 := if fill then s.setEntry x.addr 0x40 else s
  if acc = .write && !x.wrote then s1.setEntry x.addr 0x80 else s1

/-- The TLB of a core after an access through a translation. -/
def tlbAfter (tlb : List Tlb) (acc : Acc) (x : Tlb) (fill : Bool) : List Tlb :=
  let x' := { x with wrote := x.wrote || acc = .write }
  if fill then (tlb ++ [x']).drop (tlb.length + 1 - 256)
  else tlb.map (fun y => if y.page = x.page && y.bits = x.bits then x' else y)

/-- An access through a translation that the core's TLB holds, or that a walk has just found (`fill`). -/
def State.through (s : State) (core : Nat) (acc : Acc) (va : Word) (x : Tlb) (fill : Bool) :
    State × Except MemErr (Word × Nat) :=
  if permits acc x.entry then
    let s2 := s.markLeaf acc x fill
    let c := s2.coreAt core
    ((s2.putCore core { c with tlb := tlbAfter c.tlb acc x fill }).noteAccess core x.entry x.addr, .ok (x.entry, x.bits))
  else (if fill then s.forget (domeOf core) x.addr else s, .error (.page causePROTECTION va false))

/-- The translation that a walk for an address makes of a leaf. -/
def Leaf.translation (lf : Leaf) (va : Word) : Tlb :=
  { page := va.toNat % 2 ^ 57 / 2 ^ lf.bits, bits := lf.bits, entry := lf.entry, addr := lf.addr, wrote := lf.entry.getLsbD 7 }

section translate
variable {s : State} {core : Nat} (acc : Acc) {va : Word} (hva : canonical va = true)
include hva

theorem translate_of_hit {x : Tlb} (h : tlbFind (s.coreAt core).tlb va = some x) :
    s.translate core acc va = s.through core acc va x false := by
  simp only [State.translate, hva, Bool.not_true, Bool.false_eq_true, ↓reduceIte, h, State.through, permits_eq]
  cases hp : ((acc = .write && !leafW x.entry) || (acc = .fetch && !leafX x.entry)) <;> rfl

theorem translate_of_no_table (h : tlbFind (s.coreAt core).tlb va = none) (hroot : s.ctl.ptroot = 0) :
    s.translate core acc va = (s, .error (.page causeNOTMAPPED va false)) := by
  simp only [State.translate, hva, Bool.not_true, Bool.false_eq_true, ↓reduceIte, h, State.walk, hroot]
  rfl

theorem translate_of_walk (h : tlbFind (s.coreAt core).tlb va = none) {s1 : State} {lf : Leaf}
    (hwalk : s.walk (domeOf core) va = (s1, .ok lf)) :
    s.translate core acc va = s1.through core acc va (lf.translation va) true := by
  simp only [State.translate, hva, Bool.not_true, Bool.false_eq_true, ↓reduceIte, h, hwalk, State.through, permits_eq,
    Leaf.translation, State.markLeaf, tlbAfter]
  cases (decide (acc = .write) && !leafW lf.entry || decide (acc = .fetch) && !leafX lf.entry) with
  | false => simp only [Bool.not_false, Bool.false_eq_true, ↓reduceIte]
  | true => simp only [Bool.not_true, Bool.false_eq_true, ↓reduceIte]

theorem translate_of_walk_error (h : tlbFind (s.coreAt core).tlb va = none) {s1 : State} {c : Nat} {w : Bool}
    (hwalk : s.walk (domeOf core) va = (s1, .error (c, w))) :
    s.translate core acc va = (s1, .error (.page c va w)) := by
  simp only [State.translate, hva, Bool.not_true, Bool.false_eq_true, ↓reduceIte, h, hwalk]
  split
  · next hc => rw [hc]
  · rfl

end translate

theorem noteAccess_eq (s : State) (core : Nat) (e : Word) (leaf : Nat) :
    ∃ f, s.noteAccess core e leaf = { s with follow := f } := by
  unfold State.noteAccess
  split
  · exact ⟨_, rfl⟩
  · exact ⟨_, rfl⟩

section through
variable {s : State} {core : Nat} {acc : Acc} {va : Word} {x : Tlb} {fill : Bool}

theorem through_of_denied (h : permits acc x.entry = false) : s.through core acc va x fill =
    (if fill then s.forget (domeOf core) x.addr else s, .error (.page causePROTECTION va false)) := by
  simp only [State.through, h, Bool.false_eq_true, ↓reduceIte]

/-- A permitted access marks its leaf and notes it, and changes nothing else at home or in other cores. -/
theorem through_of_permitted (h : permits acc x.entry = true) :
    (s.through core acc va x fill).2 = .ok (x.entry, x.bits) ∧
    (s.through core acc va x fill).1.mem = (s.markLeaf acc x fill).mem ∧
    ((s.through core acc va x fill).1.coreAt core).tlb =
      tlbAfter ((s.markLeaf acc x fill).coreAt core).tlb acc x fill := by
  obtain ⟨f, hf⟩ := noteAccess_eq ((s.markLeaf acc x fill).putCore core { (s.markLeaf acc x fill).coreAt core with
    tlb := tlbAfter ((s.markLeaf acc x fill).coreAt core).tlb acc x fill }) core x.entry x.addr
  simp only [State.through, h, ↓reduceIte, hf]
  refine ⟨trivial, rfl, ?_⟩
  exact congrArg Core.tlb (coreAt_putCore_same (s.markLeaf acc x fill) core _)

end through

theorem markLeaf_of_written {s : State} {acc : Acc} {x : Tlb} (h : acc ≠ .write ∨ x.wrote = true) :
    s.markLeaf acc x false = s := by
  simp only [State.markLeaf, Bool.false_eq_true, ↓reduceIte]
  refine if_neg ?_
  simpa [imp_iff_not_or] using h

theorem translationChecksPermissions : Claim.TranslationChecksPermissions := by
  intro s core acc va
  refine ⟨fun hva => by simp only [State.translate, hva, Bool.not_false, ↓reduceIte], fun hva => ⟨fun x hx => ?_,
    fun hmiss hroot => translate_of_no_table acc hva hmiss hroot⟩⟩
  show let allowed := permits acc x.entry; _
  rw [translate_of_hit acc hva hx]
  refine ⟨fun hp => (through_of_permitted hp).1, fun hp hwaits hreds ha hacc hwrote => ?_, fun hp hacc hwrote => ?_,
    fun hp hacc => ?_, fun hp => by rw [through_of_denied hp]; rfl⟩
  · obtain ⟨-, hmem, -⟩ := through_of_permitted (s := s) (core := core) (va := va) (fill := false) hp
    have hmark : s.markLeaf acc x false = s.setEntry x.addr 0x80 := by
      simp only [State.markLeaf, hacc, hwrote, decide_true, Bool.not_false, Bool.and_self, Bool.false_eq_true, ↓reduceIte]
    obtain ⟨hword, hother, -⟩ := setEntry_spec ha hwaits hreds 0x80
    rw [hmem, hmark]
    exact ⟨hother, (homeWord_congr ha fun i _ => by rw [hmem, hmark]).trans hword⟩
  · rw [(through_of_permitted hp).2.1, markLeaf_of_written (.inr hwrote)]
  · rw [(through_of_permitted hp).2.1, markLeaf_of_written (.inl hacc)]

end Sys2Proof.Machine
end

section
/-! PROOFS. The walk of the page table: tables, pointers and leaves as Tables 20.5 and 20.6 lay them out, and translations
that a walk finds (R95, R96, R305, R306). -/

namespace Sys2Proof.Machine

/-! ## Tables and leaves -/

theorem levelBytes_getD {lv : Nat} (h : lv ≤ 3) : [2 ^ 21, 4096, 4096, 256].getD lv 0 = levelBytes lv := by
  interval_cases lv <;> rfl

theorem levelIndex_getD {lv : Nat} (h : lv ≤ 3) (va : Word) :
    [va.toNat / 2 ^ 39 % 2 ^ 18, va.toNat / 2 ^ 30 % 2 ^ 9, va.toNat / 2 ^ 21 % 2 ^ 9, va.toNat / 2 ^ 16 % 2 ^ 5].getD lv 0 =
      levelIndex lv va := by
  interval_cases lv <;> simp [levelIndex, Nat.shiftRight_eq_div_pow]

theorem levelIndex_lt {lv : Nat} (h : lv ≤ 3) (va : Word) : 8 * levelIndex lv va + 8 ≤ levelBytes lv := by
  interval_cases lv <;> simp only [levelIndex, levelBytes] <;> bv_omega

/-- A direct local address, by its fields (R91). -/
theorem localOk_iff (s : State) (pa n : Nat) : s.localOk pa n = true ↔
    pa < 2 ^ 52 ∧ paApt pa = 0 ∧ paIl pa = false ∧ s.vaultOn (paVault pa) = true ∧ paOff pa + n ≤ 6 * 2 ^ 30 := by
  simp only [State.localOk, Bool.and_eq_true, decide_eq_true_eq, Bool.not_eq_true', and_assoc]
  exact Iff.rfl

theorem paIl_eq_false_iff (pa : Nat) : paIl pa = false ↔ pa / 2 ^ 41 % 2 = 0 := by
  rw [paIl, decide_eq_false_iff_not]
  omega

theorem paIl_eq_true_iff (pa : Nat) : paIl pa = true ↔ pa / 2 ^ 41 % 2 = 1 := decide_eq_true_iff

theorem tableOk_iff (s : State) (lv t : Nat) : s.tableOk lv t = true ↔
    t < 2 ^ 41 ∧ t % levelBytes lv = 0 ∧ s.vaultOn (t / 2 ^ 33) = true ∧ t % 2 ^ 33 + levelBytes lv ≤ 6 * 2 ^ 30 := by
  rw [State.tableOk, Bool.and_eq_true, decide_eq_true_eq, localOk_iff, paIl_eq_false_iff, paApt, paVault, paOff]
  constructor
  · rintro ⟨hmod, hlt, hapt, hil, hon, hroom⟩
    rw [Nat.mod_eq_of_lt (by omega)] at hon
    exact ⟨by omega, hmod, hon, hroom⟩
  · rintro ⟨hlt, hmod, hon, hroom⟩
    refine ⟨hmod, by omega, by omega, by omega, ?_, hroom⟩
    rwa [Nat.mod_eq_of_lt (by omega)]

/-- The entries of a usable table lie in the module's own memory. -/
theorem entry_near {s : State} {lv t : Nat} (hlv : lv ≤ 3) (h : s.tableOk lv t = true) (va : Word) :
    t + 8 * levelIndex lv va + 8 ≤ 2 ^ 42 := by
  obtain ⟨hlt, -, -, -⟩ := (tableOk_iff s lv t).mp h
  have hix := levelIndex_lt hlv va
  have hb : levelBytes lv ≤ 2 ^ 21 := by interval_cases lv <;> decide
  omega

theorem leafFrame_lt (e : Word) : leafFrame e < 2 ^ 52 := by
  have := (e.extractLsb' 16 36).isLt
  simp only [leafFrame]
  omega

theorem leafSize_lt (e : Word) : leafSize e < 4 := (e.extractLsb' 4 2).isLt
theorem leafPlace_lt (e : Word) : leafPlace e < 4 := (e.extractLsb' 59 2).isLt

theorem leafLegal_iff (s : State) (lv : Nat) (e : Word) : Claim.leafLegal s lv e ↔ s.leafBad lv e = false := by
  have hfr := leafFrame_lt e
  have hsz := leafSize_lt e
  have hpl := leafPlace_lt e
  have hlocal : s.localOk (leafFrame e) (2 ^ 16) = true ↔ paApt (leafFrame e) = 0 ∧ paIl (leafFrame e) = false ∧
      s.vaultOn (leafFrame e / 2 ^ 33 % 256) = true ∧ leafFrame e % 2 ^ 33 + 65536 ≤ 6 * 2 ^ 30 :=
    (localOk_iff s _ _).trans (and_iff_right hfr)
  have hdirect := paIl_eq_false_iff (leafFrame e)
  have hinter := paIl_eq_true_iff (leafFrame e)
  rw [Claim.leafLegal, State.leafBad]
  simp only [show leafFrame e / 2 ^ 42 % 1024 = paApt (leafFrame e) from rfl, ← hdirect, ← hinter]
  generalize leafFrame e = fr at *
  generalize leafSize e = sz at *
  generalize leafPlace e = pl at *
  generalize leafVkind e = vk at *
  generalize paApt fr = apt at *
  simp only [Bool.or_eq_false_iff, Bool.and_eq_false_iff, decide_eq_false_iff_not, Bool.and_eq_true, Bool.not_eq_false',
    decide_eq_true_eq, ne_eq, Decidable.not_not, leafW, Bool.not_eq_true', hlocal]
  grind

/-! ## What a walk finds, in the model's terms -/

/-- A pointer entry is well formed (Table 20.6). -/
def goodPointer (lv : Nat) (e : Word) : Prop :=
  lv < 3 ∧ e.extractLsb' 1 2 = 0 ∧ e.extractLsb' 4 4 = 0 ∧ e.extractLsb' 52 12 = 0

/-- The entry of a table that a walk for an address reads. -/
def entryAt (lv t : Nat) (va : Word) : Nat := t + 8 * levelIndex lv va

section walks
variable {s : State} {va : Word} {n lv t : Nat} (hlv : lv ≤ 3) {r : Except Nat (Word × Nat × Nat)}
include hlv

theorem walks_succ : Claim.walks s va (n + 1) lv t r ↔
    (s.tableOk lv t = false → r = .error 0x22) ∧
    (s.tableOk lv t = true → (s.homeWord (entryAt lv t va)).getLsbD 0 = false → r = .error 0x20) ∧
    (s.tableOk lv t = true → (s.homeWord (entryAt lv t va)).getLsbD 0 = true →
      (s.homeWord (entryAt lv t va)).getLsbD 3 = true →
      (goodPointer lv (s.homeWord (entryAt lv t va)) →
        Claim.walks s va n (lv + 1) (((s.homeWord (entryAt lv t va)).extractLsb' 8 44).toNat * 256) r) ∧
      (¬ goodPointer lv (s.homeWord (entryAt lv t va)) → r = .error 0x22)) ∧
    (s.tableOk lv t = true → (s.homeWord (entryAt lv t va)).getLsbD 0 = true →
      (s.homeWord (entryAt lv t va)).getLsbD 3 = false →
      (1 ≤ lv ∧ s.leafBad (3 - lv) (s.homeWord (entryAt lv t va)) = false →
        r = .ok (s.homeWord (entryAt lv t va), entryAt lv t va, [0, 30, 21, 16].getD lv 0)) ∧
      (¬ (1 ≤ lv ∧ s.leafBad (3 - lv) (s.homeWord (entryAt lv t va)) = false) → r = .error 0x22)) := by
  rw [Claim.walks]
  simp only [levelBytes_getD hlv, levelIndex_getD hlv, ← tableOk_iff, leafLegal_iff, Bool.not_eq_true]
  exact Iff.rfl

/-- The page of a leaf that a level accepts. -/
theorem pageBits_level {e : Word} (h1 : 1 ≤ lv) (hleaf : s.leafBad (3 - lv) e = false) :
    [0, 30, 21, 16].getD lv 0 = pageBits (leafSize e) := by
  have hsize := ((leafLegal_iff s (3 - lv) e).mpr hleaf).2.2.2.2.2.2.1
  rw [hsize]
  interval_cases lv <;> rfl

end walks

/-! ## Walks -/

/-- A state in which a walk stands: besides the counters only the walk entries of domes differ, and those of its dome are what
their homes hold. -/
def State.walking (s0 s : State) (dome : Nat) : Prop :=
  (∃ ds cs, s = { s0 with domes := ds, counters := cs }) ∧
  ∀ a e, Sparse.get none (s.domeAt dome).walks a = some e → e = s0.homeWord a

theorem get_evictOne {α : Type} (d : α) (l : Sparse α) (cap keep n a : Nat) :
    Sparse.get d (evictOne l cap keep n) a = Sparse.get d l a ∨ Sparse.get d (evictOne l cap keep n) a = d := by
  unfold evictOne
  split
  · exact .inl rfl
  · dsimp only
    split
    · next e _ =>
      rw [Sparse.get_erase]
      split
      · exact .inr rfl
      · exact .inl rfl
    · exact .inl rfl

/-- Walk entries stay what their homes hold when one that its home holds is added and others leave. -/
theorem walks_put {s0 : State} {l : Sparse (Option Word)} (h : ∀ a e, Sparse.get none l a = some e → e = s0.homeWord a)
    (a cap keep n : Nat) : ∀ b e,
      Sparse.get none (evictOne (Sparse.put l a (some (s0.homeWord a))) cap keep n) b = some e → e = s0.homeWord b := by
  intro b e he
  rcases get_evictOne none (Sparse.put l a (some (s0.homeWord a))) cap keep n b with hb | hb
  · rw [hb, Sparse.get_put] at he
    split at he
    · next hba => rw [hba, Option.some.inj he]
    · exact h b e he
  · rw [hb] at he
    cases he

section walking
variable {s0 s : State} {dome : Nat} (h : s0.walking s dome)
include h

theorem walking_putDome (d : Dome) (hd : ∀ a e, Sparse.get none d.walks a = some e → e = s0.homeWord a) :
    s0.walking (s.putDome dome d) dome := by
  obtain ⟨⟨ds, cs, rfl⟩, -⟩ := h
  exact ⟨⟨_, cs, rfl⟩, fun a e he => hd a e (by rwa [domeAt_putDome_same] at he)⟩

theorem walking_forget (a : Nat) : s0.walking (s.forget dome a) dome := by
  refine walking_putDome h _ fun b e he => ?_
  dsimp only at he
  rw [Sparse.get_erase] at he
  split at he
  · cases he
  · exact h.2 b e he

theorem homeWord_walking (a : Nat) : s.homeWord a = s0.homeWord a := by
  obtain ⟨⟨ds, cs, rfl⟩, -⟩ := h
  rfl

theorem tableOk_walking (lv t : Nat) : s.tableOk lv t = s0.tableOk lv t := by
  obtain ⟨⟨ds, cs, rfl⟩, -⟩ := h
  rfl

theorem leafBad_walking (lv : Nat) (e : Word) : s.leafBad lv e = s0.leafBad lv e := by
  obtain ⟨⟨ds, cs, rfl⟩, -⟩ := h
  rfl

/-- Where no line is damaged and no tower is in reset, a walk reads an entry as its home holds it. -/
theorem readEntry_walking (hbad : s0.bad = []) (hreset : s0.power.inReset = []) (a : Nat) :
    ∃ s1, s.readEntry dome a = (s1, some (s0.homeWord a)) ∧ s0.walking s1 dome := by
  unfold State.readEntry
  split
  · next e he => exact ⟨s, by rw [h.2 a e he], h⟩
  · have hgate : s.gate [a] = s := gate_of_no_reset (by obtain ⟨⟨ds, cs, rfl⟩, -⟩ := h; exact hreset) _
    have hsound : s.lineBad a = false := by
      obtain ⟨⟨ds, cs, rfl⟩, -⟩ := h
      simp only [State.lineBad, hbad]
      rfl
    simp only [hgate, hsound, Bool.false_eq_true, ↓reduceIte, homeWord_walking h]
    split
    · exact ⟨_, rfl, walking_putDome h _ (walks_put h.2 a _ _ _)⟩
    · exact ⟨s, rfl, h⟩

end walking

/-- A walk of the model gives what the table says: a cause, or a leaf with its address and its page's bits. -/
def walkGives (s0 : State) (out : Except (Nat × Bool) Leaf) : Except Nat (Word × Nat × Nat) → Prop
  | .error c => out = .error (c, false)
  | .ok (e, a, bits) => out = .ok { entry := e, addr := a, bits := bits } ∧ e = s0.homeWord a ∧ a + 8 ≤ 2 ^ 42

/-- A walk whose continuation from a lower table finds what that holds finds what its table holds. -/
theorem walkFrom_step {s0 s : State} {dome : Nat} (hbad : s0.bad = []) (hreset : s0.power.inReset = []) {va : Word}
    {n lv t : Nat} (hlv : lv ≤ 3) (h : s0.walking s dome)
    (hnext : lv < 3 → ∀ t s, s0.walking s dome → ∃ r, Claim.walks s0 va n (lv + 1) t r ∧
      walkGives s0 (s.walkFrom dome va n (lv + 1) t).2 r ∧ s0.walking (s.walkFrom dome va n (lv + 1) t).1 dome) :
    ∃ r, Claim.walks s0 va (n + 1) lv t r ∧ walkGives s0 (s.walkFrom dome va (n + 1) lv t).2 r ∧
      s0.walking (s.walkFrom dome va (n + 1) lv t).1 dome := by
  simp only [walks_succ hlv]
  cases htab : s0.tableOk lv t with
  | false =>
    have e : s.walkFrom dome va (n + 1) lv t = (s, .error (causeBADPTE, false)) := by
      simp only [State.walkFrom, tableOk_walking h, htab, Bool.not_false, ↓reduceIte]
    rw [e]
    exact ⟨.error 0x22, by simp, rfl, h⟩
  | true =>
    obtain ⟨s1, hread, h1⟩ := readEntry_walking h hbad hreset (entryAt lv t va)
    have hnear : entryAt lv t va + 8 ≤ 2 ^ 42 := entry_near hlv htab va
    have hforget := walking_forget h1 (entryAt lv t va)
    simp only [State.walkFrom, tableOk_walking h, htab, Bool.not_true, Bool.false_eq_true, ↓reduceIte,
      show t + 8 * levelIndex lv va = entryAt lv t va from rfl, hread, leafBad_walking h1]
    generalize he : s0.homeWord (entryAt lv t va) = e
    cases hvalid : e.getLsbD 0 with
    | false => exact ⟨.error 0x20, by simp, rfl, h1⟩
    | true =>
      cases hptr : e.getLsbD 3 with
      | true =>
        by_cases hgood : goodPointer lv e
        · obtain ⟨r, hwalks, hgives, hwalking⟩ := hnext hgood.1 ((e.extractLsb' 8 44).toNat * 256) s1 h1
          have hmodel : (lv = 3 || e.extractLsb' 52 12 ≠ 0 || e.extractLsb' 4 4 ≠ 0 || e.extractLsb' 1 2 ≠ 0) = false := by
            obtain ⟨h3, hs, hz, hf⟩ := hgood
            simp [hs, hz, hf]
            omega
          simp only [hmodel]
          exact ⟨r, by simpa [hgood] using hwalks, hgives, hwalking⟩
        · have hmodel : (lv = 3 || e.extractLsb' 52 12 ≠ 0 || e.extractLsb' 4 4 ≠ 0 || e.extractLsb' 1 2 ≠ 0) = true := by
            simp only [goodPointer] at hgood
            simp
            grind
          simp only [hmodel]
          exact ⟨.error 0x22, by simp [hgood], rfl, hforget⟩
      | false =>
        by_cases hleaf : 1 ≤ lv ∧ s0.leafBad (3 - lv) e = false
        · obtain ⟨h1lv, hok⟩ := hleaf
          have hbits := pageBits_level hlv h1lv hok
          have hne : lv ≠ 0 := by omega
          simp only [hok, hne]
          exact ⟨.ok (e, entryAt lv t va, [0, 30, 21, 16].getD lv 0), by simp [h1lv],
            ⟨by simpa using hbits.symm, he.symm, hnear⟩, h1⟩
        · have hmodel : (lv = 0 || s0.leafBad (3 - lv) e) = true := by
            simp
            grind
          simp only [hmodel]
          exact ⟨.error 0x22, by simp [hleaf], rfl, hforget⟩

/-- A walk from a table finds what the table holds at home. -/
theorem walkFrom_spec {s0 : State} {dome : Nat} (hbad : s0.bad = []) (hreset : s0.power.inReset = []) (va : Word) (n : Nat) :
    ∀ (lv t : Nat) (s : State), lv + n = 3 → s0.walking s dome →
      ∃ r, Claim.walks s0 va (n + 1) lv t r ∧ walkGives s0 (s.walkFrom dome va (n + 1) lv t).2 r ∧
        s0.walking (s.walkFrom dome va (n + 1) lv t).1 dome := by
  induction n with
  | zero => exact fun lv t s hlv h => walkFrom_step hbad hreset (by omega) h fun hlt => by omega
  | succ n ih =>
    exact fun lv t s hlv h => walkFrom_step hbad hreset (by omega) h fun _ t s h => ih (lv + 1) t s (by omega) h

theorem walk_spec {s : State} {dome : Nat} (hroot : s.ctl.ptroot ≠ 0) (hwalks : (s.domeAt dome).walks = [])
    (hbad : s.bad = []) (hreset : s.power.inReset = []) (va : Word) :
    ∃ r, Claim.walks s va 4 0 s.ctl.ptroot.toNat r ∧ walkGives s (s.walk dome va).2 r ∧ s.walking (s.walk dome va).1 dome := by
  have e : s.walk dome va = (s.count .dome dome 0x205 none none none).walkFrom dome va 4 0 s.ctl.ptroot.toNat :=
    if_neg hroot
  have hempty : ((s.count .dome dome 0x205 none none none).domeAt dome).walks = [] := hwalks
  rw [e]
  refine walkFrom_spec hbad hreset va 3 0 _ _ rfl ⟨⟨s.domes, _, rfl⟩, fun a x hx => ?_⟩
  rw [hempty] at hx
  cases hx

/-! ## Translations that a walk finds -/

/-- The leaf of a walk after its first use: `a` is set, and `d` by a write. -/
theorem markLeaf_fill_spec {s : State} {x : Tlb} (hx : x.entry = s.homeWord x.addr) (hwrote : x.wrote = x.entry.getLsbD 7)
    (ha : x.addr + 8 ≤ 2 ^ 42) (hwaits : s.waits = []) (hreds : s.reds = []) (acc : Acc) :
    (s.markLeaf acc x true).homeWord x.addr = x.entry ||| 0x40 ||| (if acc = .write then 0x80 else 0) ∧
    (∀ i, ¬ (x.addr ≤ i ∧ i < x.addr + 8) → readMem (s.markLeaf acc x true).mem i = readMem s.mem i) ∧
    (s.markLeaf acc x true).offHome = s.offHome := by
  obtain ⟨hword, hother, hwaits', hoff⟩ := setEntry_spec ha hwaits hreds 0x40
  rw [← hx] at hword
  by_cases hwrite : acc = .write
  · cases hw : x.wrote with
    | true =>
      have e : s.markLeaf acc x true = s.setEntry x.addr 0x40 := by
        simp only [State.markLeaf, ↓reduceIte, hw, Bool.not_true, Bool.and_false, Bool.false_eq_true]
      have hbit : x.entry ||| 0x40 ||| 0x80 = x.entry ||| 0x40 := by
        have h7 : x.entry.getLsbD 7 = true := hwrote.symm.trans hw
        refine BitVec.eq_of_getLsbD_eq fun i hi => ?_
        have h80 : (0x80 : Word).getLsbD i = decide (i = 7) := by
          simp only [show (0x80 : Word) = BitVec.twoPow 64 7 from rfl, BitVec.getLsbD_twoPow, show 7 < 64 by decide,
            decide_true, Bool.true_and, eq_comm]
        rw [BitVec.getLsbD_or (x := x.entry ||| 0x40), h80]
        by_cases h : i = 7
        · subst h
          simp [h7]
        · simp [h]
      rw [e, hword, if_pos hwrite, hbit]
      exact ⟨rfl, hother, hoff⟩
    | false =>
      have e : s.markLeaf acc x true = (s.setEntry x.addr 0x40).setEntry x.addr 0x80 := by
        simp only [State.markLeaf, ↓reduceIte, hw, hwrite, decide_true, Bool.not_false, Bool.and_self]
      obtain ⟨hword', hother', -, hoff'⟩ := setEntry_spec ha hwaits' ((reds_of_offHome hoff).trans hreds) 0x80
      rw [e, hword', hword, if_pos hwrite]
      exact ⟨rfl, fun i hi => (hother' i hi).trans (hother i hi), hoff'.trans hoff⟩
  · have e : s.markLeaf acc x true = s.setEntry x.addr 0x40 := by
      simp only [State.markLeaf, ↓reduceIte, hwrite, decide_false, Bool.false_and, Bool.false_eq_true]
    rw [e, hword, if_neg hwrite]
    exact ⟨BitVec.or_zero.symm, hother, hoff⟩

/-- A TLB finds the translation it has just taken in, where it found none before. -/
theorem tlbFind_tlbAfter {tlb : List Tlb} {va : Word} (h : tlbFind tlb va = none) (acc : Acc) {x : Tlb}
    (hx : va.toNat % 2 ^ 57 / 2 ^ x.bits = x.page) :
    tlbFind (tlbAfter tlb acc x true) va = some { x with wrote := x.wrote || decide (acc = .write) } := by
  have hnone : (tlb.drop (tlb.length + 1 - 256)).find? (fun x => va.toNat % 2 ^ 57 / 2 ^ x.bits = x.page) = none :=
    List.find?_eq_none.mpr fun y hy => List.find?_eq_none.mp h y (List.mem_of_mem_drop hy)
  simp only [tlbFind, tlbAfter, ↓reduceIte]
  rw [List.drop_append_of_le_length (by omega), List.find?_append, hnone, Option.none_or,
    List.find?_cons_of_pos (by simpa using hx)]

theorem translationWalksTheTable : Claim.TranslationWalksTheTable := by
  intro s core acc va hva hmiss hroot hwalks hbad hreset hwaits hreds out
  obtain ⟨r, hr, hgives, hwalking⟩ := walk_spec hroot hwalks hbad hreset va
  have hmem : (s.walk (domeOf core) va).1.mem = s.mem := by
    obtain ⟨⟨ds, cs, h⟩, -⟩ := hwalking
    rw [h]
  refine ⟨r, hr, ?_⟩
  cases r with
  | error c =>
    have hout : out = ((s.walk (domeOf core) va).1, .error (.page c va false)) :=
      translate_of_walk_error acc hva hmiss (Prod.ext rfl hgives)
    exact ⟨congrArg Prod.snd hout, (congrArg (fun o => o.1.mem) hout).trans hmem⟩
  | ok r =>
    obtain ⟨e, a, bits⟩ := r
    obtain ⟨hleaf, he, hnear⟩ := hgives
    have hout : out = (s.walk (domeOf core) va).1.through core acc va
        (Leaf.translation { entry := e, addr := a, bits := bits } va) true :=
      translate_of_walk acc hva hmiss (Prod.ext rfl hleaf)
    have hword := homeWord_walking hwalking a
    have hcore : (s.walk (domeOf core) va).1.coreAt core = s.coreAt core := by
      obtain ⟨⟨ds, cs, h⟩, -⟩ := hwalking
      rw [h]; rfl
    have hwaits' : (s.walk (domeOf core) va).1.waits = [] := by
      obtain ⟨⟨ds, cs, h⟩, -⟩ := hwalking
      rw [h]; exact hwaits
    have hreds' : (s.walk (domeOf core) va).1.reds = [] := by
      obtain ⟨⟨ds, cs, h⟩, -⟩ := hwalking
      rw [h]; exact hreds
    generalize (s.walk (domeOf core) va).1 = s1 at *
    show let allowed := permits acc e; _
    refine ⟨fun hdenied => ?_, fun hallowed => ?_⟩
    · have hout' := hout.trans (through_of_denied hdenied)
      rw [hout']
      refine ⟨rfl, hmem, (congrArg (fun c => tlbFind c.tlb va) hcore).trans hmiss, ?_⟩
      show Sparse.get none ((s1.putDome (domeOf core) _).domeAt (domeOf core)).walks a = none
      rw [domeAt_putDome_same]
      exact Sparse.get_erase_same ..
    · obtain ⟨hanswer, hmem', htlb⟩ := through_of_permitted (s := s1) (core := core) (va := va) (fill := true)
        (x := Leaf.translation { entry := e, addr := a, bits := bits } va) hallowed
      obtain ⟨hmark, hother, hoff⟩ := markLeaf_fill_spec (s := s1)
        (x := Leaf.translation { entry := e, addr := a, bits := bits } va) (he.trans hword.symm) rfl hnear hwaits' hreds' acc
      rw [← hout] at hanswer hmem' htlb
      have hfind := tlbFind_tlbAfter hmiss acc
        (x := Leaf.translation { entry := e, addr := a, bits := bits } va) rfl
      refine ⟨hanswer, ?_, fun i hi => ?_, _, Eq.trans ?_ hfind, rfl, rfl, rfl, rfl⟩
      · exact (homeWord_congr hnear fun i _ => by rw [hmem']).trans hmark
      · rw [hmem', hother i hi, hmem]
      · rw [htlb, coreAt_of_offHome hoff, hcore]

/-- Settles O15: an access outside its space traps before anything else; a translation goes through a cached entry, or through
the leaf that a walk of the table finds. -/
theorem addressesAreCheckedBeforeAccess : Obligations.AddressesAreCheckedBeforeAccess :=
  ⟨accessesOutsideTheirSpaceTrap, translationChecksPermissions, translationWalksTheTable⟩

end Sys2Proof.Machine
end

section
/-! PROOFS. Releases and acquires: what publishing writes at home and at proxy slices, what draining a replica writes, and what
an acquire drops (R106, R107, R110, R113, R114, R202, R346). -/

namespace Sys2Proof.Machine

/-! ## Tables of dirty bytes -/

theorem get_filter {α : Type} (d : α) (p : Nat → Bool) (a : Nat) :
    ∀ l : Sparse α, Sparse.get d (l.filter (fun e => p e.1)) a = if p a then Sparse.get d l a else d
  | [] => by simp [Sparse.get]
  | (k, v) :: l => by
    have ih := get_filter d p a l
    by_cases hk : p k = true
    · rw [List.filter_cons_of_pos (by exact hk), Sparse.get, Sparse.get, ih]
      by_cases ha : a = k
      · rw [if_pos ha, if_pos ha, if_pos (ha ▸ hk)]
      · rw [if_neg ha, if_neg ha]
    · rw [List.filter_cons_of_neg (by exact hk), ih, Sparse.get]
      by_cases ha : a = k
      · rw [if_neg (ha ▸ hk), if_neg (ha ▸ hk)]
      · rw [if_neg ha]

theorem mem_keys_of_get {α : Type} {a : Nat} {x : α} :
    ∀ {l : Sparse (Option α)}, Sparse.get none l a = some x → a ∈ l.map Prod.fst
  | [], h => by cases h
  | (k, v) :: l, h => by
    rw [Sparse.get] at h
    split at h
    · next ha => exact ha ▸ List.mem_cons_self ..
    · exact List.mem_cons_of_mem _ (mem_keys_of_get h)

/-- The dirty bytes that a test selects. -/
theorem mem_dirtyBytes {d : Sparse (Option Byte)} {f : Nat → Bool} {c : Nat × Byte} :
    c ∈ dirtyBytes d f ↔ f c.1 = true ∧ Sparse.get none d c.1 = some c.2 := by
  obtain ⟨k, b⟩ := c
  simp only [dirtyBytes, List.mem_filterMap, List.mem_eraseDups]
  constructor
  · rintro ⟨a, -, ha⟩
    split at ha
    · next hf =>
      obtain ⟨x, hx, hpair⟩ := Option.map_eq_some_iff.mp ha
      cases hpair
      exact ⟨hf, hx⟩
    · cases ha
  · rintro ⟨hf, hget⟩
    exact ⟨k, mem_keys_of_get hget, by simp only [hf, ↓reduceIte, hget, Option.map_some]⟩

theorem dirtyBytes_unique {d : Sparse (Option Byte)} {f : Nat → Bool} {b : Byte} {key : Nat}
    (h : (key, b) ∈ dirtyBytes d f) : ∀ c ∈ dirtyBytes d f, c.1 = key → c.2 = b := by
  rintro c hc rfl
  have hb := (mem_dirtyBytes.mp h).2
  rw [(mem_dirtyBytes.mp hc).2] at hb
  exact Option.some.inj hb

theorem zip_fst_snd {α β : Type} (l : List (α × β)) : (l.map Prod.fst).zip (l.map Prod.snd) = l := by
  rw [List.zip_map', List.map_id']

/-! ## Bytes that are published (R107, R345, R346) -/

/-- A byte as publishing it leaves it: in memory, or, of host and peer memory, at its proxy slice. -/
def State.published (s : State) (key : Nat) : Option Byte :=
  if farKey key then Sparse.get none s.proxy key else some (readMem s.mem key)

/-- The writes of a list of cells to one group. -/
def State.publishGroup (cells : List (Nat × Byte)) (s : State) (g : Nat) : State :=
  let cs := cells.filter (fun c => c.1 / 8 = g)
  if farKey (8 * g) then
    let x1 : State := { s.gate [8 * g] with proxy := cs.foldl (fun acc c => Sparse.put acc c.1 (some c.2)) s.proxy }
    match x1.groupWord cs g with
    | some v => x1.evalWaits (8 * g) v
    | none => x1
  else s.writeGroup cs g

theorem publishAt_eq (s : State) (keys : List Nat) (bs : List Byte) : s.publishAt keys bs =
    (((keys.zip bs).map (fun c => c.1 / 8)).eraseDups).foldl (State.publishGroup (keys.zip bs)) s := rfl

/-- No WAIT is registered and no reduction waits in a slice's queue. -/
def State.settled (s : State) : Prop := s.waits = [] ∧ s.reds = []

section publishGroup
variable {s : State} (hq : s.settled) (cells : List (Nat × Byte)) (g : Nat)
include hq

theorem publishGroup_far (hfar : farKey (8 * g) = true) : ∃ ws, s.publishGroup cells g = { s with
    wants := ws,
    proxy := (cells.filter (fun c => c.1 / 8 = g)).foldl (fun acc c => Sparse.put acc c.1 (some c.2)) s.proxy } := by
  obtain ⟨hwaits, -⟩ := hq
  obtain ⟨ws, hg⟩ := gate_eq s [8 * g]
  refine ⟨ws, ?_⟩
  simp only [State.publishGroup, hfar, ↓reduceIte, hg]
  split
  · refine evalWaits_of_no_waits ?_ ..
    exact hwaits
  · rfl

theorem publishGroup_near (hfar : farKey (8 * g) = false) : ∃ b ws, s.publishGroup cells g = { s with
    wants := ws, bad := b, mem := written s.mem (cells.filter (fun c => c.1 / 8 = g)) } := by
  obtain ⟨hwaits, hreds⟩ := hq
  have e : s.publishGroup cells g = s.putCells (cells.filter (fun c => c.1 / 8 = g)) g := by
    simp only [State.publishGroup, hfar, Bool.false_eq_true, ↓reduceIte]
    exact writeGroup_near hfar hwaits hreds _
  obtain ⟨m, b, ws, h⟩ := putCells_near (s := s) hfar (cells.filter (fun c => c.1 / 8 = g))
  have hm := putCells_mem (s := s) hfar (cells.filter (fun c => c.1 / 8 = g))
  rw [h] at hm
  exact ⟨b, ws, by rw [e, h, ← hm]⟩

theorem publishGroup_settled : (s.publishGroup cells g).settled := by
  cases hfar : farKey (8 * g) with
  | true =>
    obtain ⟨ws, h⟩ := publishGroup_far hq cells g hfar
    rw [h]
    exact hq
  | false =>
    obtain ⟨b, ws, h⟩ := publishGroup_near hq cells g hfar
    rw [h]
    exact hq

/-- A byte that the cells of the group do not name stays. -/
theorem published_publishGroup_other {key : Nat} (h : ∀ c ∈ cells, c.1 = key → key / 8 ≠ g) :
    (s.publishGroup cells g).published key = s.published key := by
  have hne : ∀ c ∈ cells.filter (fun c => c.1 / 8 = g), c.1 ≠ key := by
    rintro c hc rfl
    obtain ⟨hmem, hgrp⟩ := List.mem_filter.mp hc
    exact h c hmem rfl (by simpa using hgrp)
  cases hfar : farKey (8 * g) with
  | true =>
    obtain ⟨ws, e⟩ := publishGroup_far hq cells g hfar
    rw [e]
    simp only [State.published]
    split
    · exact foldl_put_other (val := some) dirtied_law _ _ hne
    · rfl
  | false =>
    obtain ⟨b, ws, e⟩ := publishGroup_near hq cells g hfar
    rw [e]
    simp only [State.published, readMem_written_other hne]

/-- A byte that the cells name with one value has it once its group is written. -/
theorem published_publishGroup_mem {key : Nat} {b : Byte} (hmem : (key, b) ∈ cells) (hu : ∀ c ∈ cells, c.1 = key → c.2 = b)
    (hg : key / 8 = g) : (s.publishGroup cells g).published key = some b := by
  subst hg
  have hin : (key, b) ∈ cells.filter (fun c => c.1 / 8 = key / 8) := List.mem_filter.mpr ⟨hmem, by simp⟩
  have huniq : ∀ c ∈ cells.filter (fun c => c.1 / 8 = key / 8), c.1 = (key, b).1 → c.2 = (key, b).2 :=
    fun c hc => hu c (List.mem_filter.mp hc).1
  have hgroup := farKey_group key
  cases hfar : farKey key with
  | true =>
    obtain ⟨ws, e⟩ := publishGroup_far hq cells (key / 8) (hgroup.trans hfar)
    rw [e]
    simp only [State.published, hfar, ↓reduceIte]
    exact foldl_put_mem (val := some) dirtied_law hin huniq _
  | false =>
    obtain ⟨bad, ws, e⟩ := publishGroup_near hq cells (key / 8) (hgroup.trans hfar)
    rw [e]
    simp only [State.published, hfar, Bool.false_eq_true, ↓reduceIte]
    exact congrArg some (readMem_written_mem hin huniq)

end publishGroup

section publishCells
variable {cells : List (Nat × Byte)}

theorem publishGroups_settled (gs : List Nat) : ∀ s : State, s.settled → (gs.foldl (State.publishGroup cells) s).settled := by
  induction gs with
  | nil => exact fun s hq => hq
  | cons g gs ih => exact fun s hq => ih _ (publishGroup_settled hq cells g)

theorem published_publishGroups_other {key : Nat} (h : ∀ c ∈ cells, c.1 ≠ key) (gs : List Nat) :
    ∀ s : State, s.settled → (gs.foldl (State.publishGroup cells) s).published key = s.published key := by
  induction gs with
  | nil => exact fun s hq => rfl
  | cons g gs ih =>
    exact fun s hq => (ih _ (publishGroup_settled hq cells g)).trans
      (published_publishGroup_other hq cells g fun c hc hk => absurd hk (h c hc))

section mem
variable {key : Nat} {b : Byte} (hmem : (key, b) ∈ cells) (hu : ∀ c ∈ cells, c.1 = key → c.2 = b)
include hmem hu

/-- A byte that has its value keeps it while further groups are written. -/
theorem published_publishGroups_keep (gs : List Nat) : ∀ s : State, s.settled → s.published key = some b →
    (gs.foldl (State.publishGroup cells) s).published key = some b := by
  induction gs with
  | nil => exact fun s hq hb => hb
  | cons g gs ih =>
    intro s hq hb
    refine ih _ (publishGroup_settled hq cells g) ?_
    by_cases hg : key / 8 = g
    · exact published_publishGroup_mem hq cells g hmem hu hg
    · exact (published_publishGroup_other hq cells g fun _ _ _ => hg).trans hb

theorem published_publishGroups_mem (gs : List Nat) : ∀ s : State, s.settled → key / 8 ∈ gs →
    (gs.foldl (State.publishGroup cells) s).published key = some b := by
  induction gs with
  | nil => exact fun s hq hin => absurd hin List.not_mem_nil
  | cons g gs ih =>
    intro s hq hin
    have hq' := publishGroup_settled hq cells g
    rcases List.mem_cons.mp hin with hg | hg
    · exact published_publishGroups_keep hmem hu gs _ hq' (published_publishGroup_mem hq cells g hmem hu hg)
    · exact ih _ hq' hg

end mem
end publishCells

/-- The dirty bytes that a test selects, published. -/
def State.publishDirty (s : State) (d : Sparse (Option Byte)) (f : Nat → Bool) : State :=
  s.publishAt ((dirtyBytes d f).map Prod.fst) ((dirtyBytes d f).map Prod.snd)

section publishDirty
variable {s : State} (hq : s.settled) (d : Sparse (Option Byte)) (f : Nat → Bool)
include hq

theorem publishDirty_settled : (s.publishDirty d f).settled := by
  rw [State.publishDirty, publishAt_eq]
  exact publishGroups_settled _ s hq

theorem publishDirty_offHome : (s.publishDirty d f).offHome = s.offHome := publishAt_offHome hq.2 ..

theorem published_publishDirty_mem {key : Nat} {b : Byte} (hf : f key = true) (hb : Sparse.get none d key = some b) :
    (s.publishDirty d f).published key = some b := by
  have hmem : (key, b) ∈ dirtyBytes d f := mem_dirtyBytes.mpr ⟨hf, hb⟩
  rw [State.publishDirty, publishAt_eq, zip_fst_snd]
  refine published_publishGroups_mem hmem (dirtyBytes_unique hmem) _ s hq ?_
  exact List.mem_eraseDups.mpr (List.mem_map.mpr ⟨_, hmem, rfl⟩)

theorem published_publishDirty_other {key : Nat} (h : f key = true → Sparse.get none d key = none) :
    (s.publishDirty d f).published key = s.published key := by
  rw [State.publishDirty, publishAt_eq, zip_fst_snd]
  refine published_publishGroups_other (fun c hc hk => ?_) _ s hq
  obtain ⟨hf, hb⟩ := mem_dirtyBytes.mp hc
  rw [hk] at hf hb
  rw [h hf] at hb
  cases hb

end publishDirty

/-! ## Draining a replica, and publishing a core (R107, R114) -/

theorem putDome_settled {s : State} (hq : s.settled) (dome : Nat) (d : Dome) : (s.putDome dome d).settled := hq

section drain
variable {s : State} (hq : s.settled) (dome : Nat) (f : Nat → Bool)

theorem drain_eq : ∃ clean, s.drain dome f = (s.putDome dome { s.domeAt dome with
    dirty := (s.domeAt dome).dirty.filter (fun e => !f e.1), clean := clean }).publishDirty (s.domeAt dome).dirty f :=
  ⟨_, rfl⟩

include hq

theorem drain_settled : (s.drain dome f).settled := by
  obtain ⟨clean, h⟩ := drain_eq (s := s) dome f
  rw [h]
  exact publishDirty_settled (putDome_settled hq dome _) ..

theorem drain_cores : (s.drain dome f).cores = s.cores := by
  obtain ⟨clean, h⟩ := drain_eq (s := s) dome f
  rw [h]
  exact (cores_of_offHome (publishDirty_offHome (putDome_settled hq dome _) ..)).trans rfl

theorem drain_dirty : ((s.drain dome f).domeAt dome).dirty = (s.domeAt dome).dirty.filter (fun e => !f e.1) := by
  obtain ⟨clean, h⟩ := drain_eq (s := s) dome f
  rw [h, domeAt_of_offHome (publishDirty_offHome (putDome_settled hq dome _) ..), domeAt_putDome_same]

theorem published_drain_mem {key : Nat} {b : Byte} (hf : f key = true)
    (hb : Sparse.get none (s.domeAt dome).dirty key = some b) : (s.drain dome f).published key = some b := by
  obtain ⟨clean, h⟩ := drain_eq (s := s) dome f
  rw [h]
  exact published_publishDirty_mem (putDome_settled hq dome _) _ _ hf hb

theorem published_drain_other {key : Nat} (hb : f key = true → Sparse.get none (s.domeAt dome).dirty key = none) :
    (s.drain dome f).published key = s.published key := by
  obtain ⟨clean, h⟩ := drain_eq (s := s) dome f
  rw [h]
  exact published_publishDirty_other (putDome_settled hq dome _) _ _ hb

end drain

theorem noteRequests_eq (core : Nat) (ls : List Nat) : ∀ s : State,
    ∃ fl, ls.foldl (fun (x : State) l => x.noteRequest core l) s = { s with follow := fl } := by
  induction ls with
  | nil => exact fun s => ⟨_, rfl⟩
  | cons l ls ih =>
    intro s
    have h : ∃ fl, s.noteRequest core l = { s with follow := fl } := by
      unfold State.noteRequest
      split
      · exact ⟨_, rfl⟩
      · exact ⟨_, rfl⟩
    obtain ⟨fl, h⟩ := h
    obtain ⟨fl', h'⟩ := ih (s.noteRequest core l)
    exact ⟨fl', by rw [List.foldl_cons, h', h]⟩

/-- A key is one of the dirty bytes that a test selects. -/
theorem any_dirtyBytes {d : Sparse (Option Byte)} {f : Nat → Bool} {key : Nat} :
    (dirtyBytes d f).any (fun e => e.1 = key) = true ↔ f key = true ∧ ∃ b, Sparse.get none d key = some b := by
  rw [List.any_eq_true]
  constructor
  · rintro ⟨c, hc, hk⟩
    obtain ⟨hf, hb⟩ := mem_dirtyBytes.mp hc
    obtain rfl : c.1 = key := by simpa using hk
    exact ⟨hf, _, hb⟩
  · rintro ⟨hf, b, hb⟩
    exact ⟨(key, b), mem_dirtyBytes.mpr ⟨hf, hb⟩, by simp⟩

section publish
variable {s : State} (core : Nat) (f : Nat → Bool)

/-- The replica's older bytes that publishing a core overwrites drain first. -/
def State.drainOlder (s : State) (core : Nat) (f : Nat → Bool) : State :=
  s.drain (domeOf core) (fun k => (dirtyBytes (s.coreAt core).dirty f).any (fun e => e.1 = k))

/-- A state whose core holds other bytes, whose dome holds other clean bytes, and whose requests are counted. -/
def State.holding (s : State) (core : Nat) (c : Core) (seen : Sparse (List (Option Byte))) (fl : List (Nat × Nat × Nat)) :
    State :=
  { (s.putCore core c).putDome (domeOf core) { s.domeAt (domeOf core) with clean := seen } with follow := fl }

section holding
variable (x : State) (c : Core) (seen : Sparse (List (Option Byte))) (fl : List (Nat × Nat × Nat))

theorem holding_settled {x : State} (hq : x.settled) : (x.holding core c seen fl).settled := hq

theorem published_holding (key : Nat) : (x.holding core c seen fl).published key = x.published key := rfl

theorem coreAt_holding_same : (x.holding core c seen fl).coreAt core = c := coreAt_putCore_same x core c

theorem coreAt_holding_other {d : Nat} (hd : d ≠ core) : (x.holding core c seen fl).coreAt d = x.coreAt d :=
  coreAt_putCore_other x core d c hd

theorem domeDirty_holding : ((x.holding core c seen fl).domeAt (domeOf core)).dirty = (x.domeAt (domeOf core)).dirty :=
  (congrArg Dome.dirty (domeAt_putDome_same x (domeOf core) { x.domeAt (domeOf core) with clean := seen })).trans rfl

end holding

/-- Publishing drains from the replica what it overwrites, and then writes the core's bytes. -/
theorem publish_eq (s : State) : ∃ clean seen fl, s.publish core f =
    ((s.drainOlder core f).holding core
      { s.coreAt core with dirty := (s.coreAt core).dirty.filter (fun e => !f e.1), clean := clean } seen fl).publishDirty
        (s.coreAt core).dirty f := by
  unfold State.publish
  dsimp only
  obtain ⟨fl, h⟩ := noteRequests_eq core (((dirtyBytes (s.coreAt core).dirty f).map (fun e => e.1 / 64)).eraseDups) _
  rw [h]
  exact ⟨_, _, fl, rfl⟩

variable (hq : s.settled)
include hq

theorem drainOlder_settled : (s.drainOlder core f).settled := drain_settled hq ..

theorem publish_settled : (s.publish core f).settled := by
  obtain ⟨clean, seen, fl, h⟩ := publish_eq core f s
  rw [h]
  exact publishDirty_settled (holding_settled core _ seen fl (drainOlder_settled core f hq)) ..

theorem publish_dirty : ((s.publish core f).coreAt core).dirty = (s.coreAt core).dirty.filter (fun e => !f e.1) := by
  obtain ⟨clean, seen, fl, h⟩ := publish_eq core f s
  rw [h, coreAt_of_offHome (publishDirty_offHome (holding_settled core _ seen fl (drainOlder_settled core f hq)) ..),
    coreAt_holding_same]

theorem coreAt_publish_other {c : Nat} (hc : c ≠ core) : (s.publish core f).coreAt c = s.coreAt c := by
  obtain ⟨clean, seen, fl, h⟩ := publish_eq core f s
  have hcores : (s.drainOlder core f).cores = s.cores := drain_cores hq ..
  rw [h, coreAt_of_offHome (publishDirty_offHome (holding_settled core _ seen fl (drainOlder_settled core f hq)) ..),
    coreAt_holding_other _ _ _ _ _ hc]
  simp only [State.coreAt, hcores]

theorem publish_domeDirty (key : Nat) : Sparse.get none ((s.publish core f).domeAt (domeOf core)).dirty key =
    if !(dirtyBytes (s.coreAt core).dirty f).any (fun e => e.1 = key) then
      Sparse.get none (s.domeAt (domeOf core)).dirty key else none := by
  obtain ⟨clean, seen, fl, h⟩ := publish_eq core f s
  have hdrain : ((s.drainOlder core f).domeAt (domeOf core)).dirty = _ := drain_dirty hq ..
  rw [h, domeAt_of_offHome (publishDirty_offHome (holding_settled core _ seen fl (drainOlder_settled core f hq)) ..),
    domeDirty_holding, hdrain]
  exact get_filter none (fun k => !(dirtyBytes (s.coreAt core).dirty f).any (fun e => e.1 = k)) key _

section kept
variable {key : Nat} (hkey : f key = true → Sparse.get none (s.coreAt core).dirty key = none)
include hkey

omit hq in
theorem any_dirtyBytes_none : (dirtyBytes (s.coreAt core).dirty f).any (fun e => e.1 = key) = false := by
  refine Bool.eq_false_iff.mpr fun hany => ?_
  obtain ⟨hf, b, hb⟩ := any_dirtyBytes.mp hany
  rw [hkey hf] at hb
  cases hb

/-- The replica keeps what publishing does not overwrite. -/
theorem publish_domeDirty_kept : Sparse.get none ((s.publish core f).domeAt (domeOf core)).dirty key =
    Sparse.get none (s.domeAt (domeOf core)).dirty key := by
  rw [publish_domeDirty core f hq, any_dirtyBytes_none core f hkey]
  rfl

theorem published_publish_other : (s.publish core f).published key = s.published key := by
  obtain ⟨clean, seen, fl, h⟩ := publish_eq core f s
  rw [h, published_publishDirty_other (holding_settled core _ seen fl (drainOlder_settled core f hq)) _ _ hkey,
    published_holding]
  refine published_drain_other hq _ _ fun hany => ?_
  rw [any_dirtyBytes_none core f hkey] at hany
  cases hany

end kept

section own
variable {key : Nat} {b : Byte} (hf : f key = true) (hb : Sparse.get none (s.coreAt core).dirty key = some b)
include hf hb

theorem publish_domeDirty_own : Sparse.get none ((s.publish core f).domeAt (domeOf core)).dirty key = none := by
  rw [publish_domeDirty core f hq, any_dirtyBytes.mpr ⟨hf, b, hb⟩]
  rfl

theorem published_publish_own : (s.publish core f).published key = some b := by
  obtain ⟨clean, seen, fl, h⟩ := publish_eq core f s
  rw [h]
  exact published_publishDirty_mem (holding_settled core _ seen fl (drainOlder_settled core f hq)) _ _ hf hb

end own

end publish

/-- What a release beyond the team publishes: the bytes of its core and of its dome's replica. -/
def State.releaseAll (s : State) (core : Nat) : State := (s.publish core (fun _ => true)).drain (domeOf core) (fun _ => true)

theorem filter_none {α : Type} (l : List (Nat × α)) : l.filter (fun e => !(fun _ => true : Nat → Bool) e.1) = [] :=
  List.filter_eq_nil_iff.mpr fun _ _ h => by cases h

section releaseAll
variable {s : State} (hq : s.settled) (core : Nat)
include hq

theorem releaseAll_settled : (s.releaseAll core).settled := drain_settled (publish_settled core _ hq) ..

theorem coreAt_releaseAll (c : Nat) : (s.releaseAll core).coreAt c = (s.publish core (fun _ => true)).coreAt c := by
  have hcores : (s.releaseAll core).cores = (s.publish core (fun _ => true)).cores :=
    drain_cores (publish_settled core _ hq) ..
  simp only [State.coreAt, hcores]

theorem releaseAll_dirty : ((s.releaseAll core).coreAt core).dirty = [] := by
  rw [coreAt_releaseAll hq, publish_dirty core _ hq]
  exact filter_none _

theorem coreAt_releaseAll_other {c : Nat} (hc : c ≠ core) : (s.releaseAll core).coreAt c = s.coreAt c :=
  (coreAt_releaseAll hq core c).trans (coreAt_publish_other core _ hq hc)

theorem published_releaseAll_own {key : Nat} {b : Byte} (hb : Sparse.get none (s.coreAt core).dirty key = some b) :
    (s.releaseAll core).published key = some b :=
  (published_drain_other (publish_settled core _ hq) _ _ fun _ => publish_domeDirty_own core _ hq rfl hb).trans
    (published_publish_own core _ hq rfl hb)

section clean
variable {key : Nat} (hnone : Sparse.get none (s.coreAt core).dirty key = none)
include hnone

theorem published_releaseAll_replica {b : Byte} (hb : Sparse.get none (s.domeAt (domeOf core)).dirty key = some b) :
    (s.releaseAll core).published key = some b :=
  published_drain_mem (publish_settled core _ hq) _ _ rfl
    ((publish_domeDirty_kept core _ hq fun _ => hnone).trans hb)

theorem published_releaseAll_other (hb : Sparse.get none (s.domeAt (domeOf core)).dirty key = none) :
    (s.releaseAll core).published key = s.published key :=
  (published_drain_other (publish_settled core _ hq) _ _ fun _ =>
    (publish_domeDirty_kept core _ hq fun _ => hnone).trans hb).trans (published_publish_other core _ hq fun _ => hnone)

end clean
end releaseAll

/-! ## Proxy slices that send what they hold (R113, R345) -/

theorem farWrite_proxy (s : State) (cells : List (Nat × Byte)) (g : Nat) : (s.farWrite cells g).proxy = s.proxy := by
  unfold State.farWrite
  split
  · rfl
  · refine foldl_keeps State.proxy (fun t c => ?_) _ s
    rfl

theorem farWrite_mem_peer {g : Nat} (hpeer : peerKey (8 * g) = true) (s : State) (cells : List (Nat × Byte)) :
    (s.farWrite cells g).mem = s.mem := by
  simp only [State.farWrite, hpeer, ↓reduceIte]
  rfl

theorem farWrite_mem_host {g : Nat} (hpeer : peerKey (8 * g) = false) (s : State) (cells : List (Nat × Byte)) :
    (s.farWrite cells g).mem = written s.mem cells := by
  simp only [State.farWrite, hpeer, Bool.false_eq_true, ↓reduceIte]
  exact (List.foldl_hom State.mem fun t c => rfl).symm

theorem mem_proxyCells {s : State} {g : Nat} {c : Nat × Byte} :
    c ∈ s.proxyCells g ↔ c.1 / 8 = g ∧ Sparse.get none s.proxy c.1 = some c.2 := by
  obtain ⟨k, b⟩ := c
  simp only [State.proxyCells, List.mem_filterMap, List.mem_range, Option.map_eq_some_iff, Prod.mk.injEq]
  constructor
  · rintro ⟨i, hi, x, hx, rfl, rfl⟩
    exact ⟨by omega, hx⟩
  · rintro ⟨hg, hx⟩
    exact ⟨k % 8, by omega, b, by rw [show 8 * g + k % 8 = k by omega]; exact hx, by omega, rfl⟩

section proxyGo
variable (s : State) (g : Nat)

theorem proxyGo_of_empty (h : s.proxyCells g = []) : s.proxyGo g = s := by
  simp only [State.proxyGo, h]

theorem proxyGo_of_cells (h : s.proxyCells g ≠ []) :
    s.proxyGo g = ({ s with proxy := s.proxy.filter (fun e => e.1 / 8 ≠ g) } : State).farWrite (s.proxyCells g) g := by
  unfold State.proxyGo
  split
  · next h' => exact absurd h' h
  · next h' => rfl

/-- A group that is sent writes no byte that its proxy slice does not hold. -/
theorem readMem_proxyGo_other {key : Nat} (h : key / 8 = g → Sparse.get none s.proxy key = none) :
    readMem (s.proxyGo g).mem key = readMem s.mem key := by
  by_cases hcells : s.proxyCells g = []
  · rw [proxyGo_of_empty s g hcells]
  · rw [proxyGo_of_cells s g hcells]
    cases hpeer : peerKey (8 * g) with
    | true => rw [farWrite_mem_peer hpeer]
    | false =>
      rw [farWrite_mem_host hpeer]
      refine readMem_written_other fun c hc => ?_
      rintro rfl
      obtain ⟨hg, hb⟩ := mem_proxyCells.mp hc
      rw [h hg] at hb
      cases hb

theorem proxy_proxyGo_other {key : Nat} (h : key / 8 ≠ g) :
    Sparse.get none (s.proxyGo g).proxy key = Sparse.get none s.proxy key := by
  by_cases hcells : s.proxyCells g = []
  · rw [proxyGo_of_empty s g hcells]
  · rw [proxyGo_of_cells s g hcells, farWrite_proxy]
    have hf := get_filter none (fun k => decide (k / 8 ≠ g)) key s.proxy
    rw [if_pos (by simpa using h)] at hf
    exact hf

/-- A byte that a proxy slice holds of the host is written to the host's memory when its group is sent. -/
theorem proxyGo_host {key : Nat} {b : Byte} (hpeer : peerKey key = false) (hb : Sparse.get none s.proxy key = some b) :
    readMem (s.proxyGo (key / 8)).mem key = b ∧ Sparse.get none (s.proxyGo (key / 8)).proxy key = none := by
  have hmem : (key, b) ∈ s.proxyCells (key / 8) := mem_proxyCells.mpr ⟨rfl, hb⟩
  rw [proxyGo_of_cells s _ (List.ne_nil_of_mem hmem), farWrite_proxy, farWrite_mem_host ((peerKey_group key).trans hpeer)]
  refine ⟨readMem_written_mem hmem fun c hc hk => ?_, ?_⟩
  · have hc := (mem_proxyCells.mp hc).2
    rw [hk, hb] at hc
    exact (Option.some.inj hc).symm
  · have hf := get_filter none (fun k => decide (k / 8 ≠ key / 8)) key s.proxy
    rw [if_neg (by simp)] at hf
    exact hf

end proxyGo

/-- Sending groups of far memory writes no byte of the module's own. -/
theorem readMem_proxyGos_near {key : Nat} (hnear : farKey key = false) (gs : List Nat) : ∀ s : State,
    (∀ g ∈ gs, farKey (8 * g) = true) → readMem (gs.foldl State.proxyGo s).mem key = readMem s.mem key := by
  induction gs with
  | nil => exact fun s _ => rfl
  | cons g gs ih =>
    intro s h
    refine (ih _ fun x hx => h x (List.mem_cons_of_mem _ hx)).trans (readMem_proxyGo_other s g fun hg => ?_)
    have hfar := h g (List.mem_cons_self ..)
    rw [← hg, farKey_group, hnear] at hfar
    cases hfar

theorem readMem_proxyFlush_near (s : State) (f : Nat → Bool) {key : Nat} (hnear : farKey key = false) :
    readMem (s.proxyFlush f).mem key = readMem s.mem key := by
  refine readMem_proxyGos_near hnear _ s fun g hg => ?_
  obtain ⟨k, hk, rfl⟩ := List.mem_map.mp (List.mem_eraseDups.mp hg)
  rw [farKey_group]
  exact (Bool.and_eq_true _ _ ▸ (List.mem_filter.mp hk).2 : farKey k = true ∧ f k = true).1

/-- A byte that the proxies no longer hold stays while groups are sent. -/
theorem readMem_proxyGos_done {key : Nat} (gs : List Nat) : ∀ s : State, Sparse.get none s.proxy key = none →
    readMem (gs.foldl State.proxyGo s).mem key = readMem s.mem key := by
  induction gs with
  | nil => exact fun s _ => rfl
  | cons g gs ih =>
    intro s h
    refine (ih _ ?_).trans (readMem_proxyGo_other s g fun _ => h)
    by_cases hcells : s.proxyCells g = []
    · rwa [proxyGo_of_empty s g hcells]
    · rw [proxyGo_of_cells s g hcells, farWrite_proxy]
      have hf := get_filter none (fun k => decide (k / 8 ≠ g)) key s.proxy
      rw [h, ite_self] at hf
      exact hf

theorem readMem_proxyGos_host {key : Nat} {b : Byte} (hpeer : peerKey key = false) (gs : List Nat) : ∀ s : State,
    Sparse.get none s.proxy key = some b → key / 8 ∈ gs → readMem (gs.foldl State.proxyGo s).mem key = b := by
  induction gs with
  | nil => exact fun s _ hin => absurd hin List.not_mem_nil
  | cons g gs ih =>
    intro s hb hin
    by_cases hg : key / 8 = g
    · subst hg
      obtain ⟨hmem, hgone⟩ := proxyGo_host s hpeer hb
      exact (readMem_proxyGos_done gs _ hgone).trans hmem
    · exact ih _ ((proxy_proxyGo_other s g hg).trans hb) ((List.mem_cons.mp hin).resolve_left hg)

/-- What the proxies hold of the host reaches its memory when everything is sent. -/
theorem readMem_proxyFlush_host {s : State} {key : Nat} {b : Byte} (hfar : farKey key = true) (hpeer : peerKey key = false)
    (hb : Sparse.get none s.proxy key = some b) : readMem (s.proxyFlush (fun _ => true)).mem key = b := by
  refine readMem_proxyGos_host hpeer _ s hb (List.mem_eraseDups.mpr (List.mem_map.mpr ⟨key, ?_, rfl⟩))
  exact List.mem_filter.mpr ⟨mem_keys_of_get hb, by rw [hfar]; rfl⟩

theorem awaitAcks_eq (s : State) (core : Nat) : ∃ ws, s.awaitAcks core = { s with wants := ws } := by
  unfold State.awaitAcks
  split
  · unfold State.want
    split
    · exact ⟨_, rfl⟩
    · exact ⟨_, rfl⟩
  · exact ⟨_, rfl⟩

/-! ## Releases (R110, R113) -/

/-- How the proxies send after a release at a scope. -/
def State.flushed (s : State) (core : Nat) (sc : Scope) : State :=
  match sc with
  | .domain => (s.proxyFlush peerKey).awaitAcks core
  | .system => (s.proxyFlush (fun _ => true)).awaitAcks core
  | _ => s

theorem release_eq (s : State) (core : Nat) (l : Option Launch) {sc : Scope} (hcore : sc ≠ .core) (hteam : sc ≠ .team) :
    s.release core l sc = (s.releaseAll core).flushed core sc := by
  cases sc with
  | core => exact absurd rfl hcore
  | team => exact absurd rfl hteam
  | package => rfl
  | domain => rfl
  | system => rfl

theorem flushed_package (s : State) (core : Nat) : s.flushed core .package = s := rfl

theorem coreAt_flushed (s : State) (core : Nat) (sc : Scope) (c : Nat) : (s.flushed core sc).coreAt c = s.coreAt c := by
  cases sc with
  | core => rfl
  | team => rfl
  | package => rfl
  | domain =>
    obtain ⟨ws, h⟩ := awaitAcks_eq (s.proxyFlush peerKey) core
    rw [State.flushed, h]
    exact coreAt_of_offHome (proxyFlush_offHome s peerKey) c
  | system =>
    obtain ⟨ws, h⟩ := awaitAcks_eq (s.proxyFlush (fun _ => true)) core
    rw [State.flushed, h]
    exact coreAt_of_offHome (proxyFlush_offHome s (fun _ => true)) c

theorem readMem_flushed_near (s : State) (core : Nat) (sc : Scope) {key : Nat} (hnear : farKey key = false) :
    readMem (s.flushed core sc).mem key = readMem s.mem key := by
  cases sc with
  | core => rfl
  | team => rfl
  | package => rfl
  | domain =>
    obtain ⟨ws, h⟩ := awaitAcks_eq (s.proxyFlush peerKey) core
    rw [State.flushed, h]
    exact readMem_proxyFlush_near s peerKey hnear
  | system =>
    obtain ⟨ws, h⟩ := awaitAcks_eq (s.proxyFlush (fun _ => true)) core
    rw [State.flushed, h]
    exact readMem_proxyFlush_near s _ hnear

theorem readMem_flushed_host (s : State) (core : Nat) {key : Nat} {b : Byte} (hfar : farKey key = true)
    (hpeer : peerKey key = false) (hb : Sparse.get none s.proxy key = some b) :
    readMem (s.flushed core .system).mem key = b := by
  obtain ⟨ws, h⟩ := awaitAcks_eq (s.proxyFlush (fun _ => true)) core
  rw [State.flushed, h]
  exact readMem_proxyFlush_host hfar hpeer hb

theorem published_near {s : State} {key : Nat} (hnear : farKey key = false) : s.published key = some (readMem s.mem key) := by
  simp only [State.published, hnear, Bool.false_eq_true, ↓reduceIte]

theorem published_far {s : State} {key : Nat} (hfar : farKey key = true) :
    s.published key = Sparse.get none s.proxy key := by
  simp only [State.published, hfar, ↓reduceIte]

/-- A release beyond the team. -/
theorem release_beyond_team {s : State} (hq : s.settled) (core : Nat) (l : Option Launch) {sc : Scope} (hcore : sc ≠ .core)
    (hteam : sc ≠ .team) :
    ((s.release core l sc).coreAt core).dirty = [] ∧ (∀ c, c ≠ core → (s.release core l sc).coreAt c = s.coreAt c) ∧
    (∀ key b, Sparse.get none (s.coreAt core).dirty key = some b →
      (farKey key = false → readMem (s.release core l sc).mem key = b) ∧
      (farKey key = true → sc = .package → Sparse.get none (s.release core l sc).proxy key = some b) ∧
      (farKey key = true → peerKey key = false → sc = .system → readMem (s.release core l sc).mem key = b)) ∧
    (∀ key b, Sparse.get none (s.coreAt core).dirty key = none →
      Sparse.get none (s.domeAt (domeOf core)).dirty key = some b → farKey key = false →
      readMem (s.release core l sc).mem key = b) ∧
    (∀ key, Sparse.get none (s.coreAt core).dirty key = none →
      Sparse.get none (s.domeAt (domeOf core)).dirty key = none → farKey key = false →
      readMem (s.release core l sc).mem key = readMem s.mem key) := by
  rw [release_eq s core l hcore hteam]
  have hnear : ∀ {key}, farKey key = false →
      some (readMem ((s.releaseAll core).flushed core sc).mem key) = (s.releaseAll core).published key := fun h => by
    rw [readMem_flushed_near _ _ _ h, published_near h]
  refine ⟨?_, fun c hc => (coreAt_flushed ..).trans (coreAt_releaseAll_other hq core hc), fun key b hb => ⟨fun h => ?_,
    fun h hsc => ?_, fun h hpeer hsc => ?_⟩, fun key b hnone hb h => ?_, fun key hnone hb h => ?_⟩
  · rw [coreAt_flushed]
    exact releaseAll_dirty hq core
  · exact Option.some.inj ((hnear h).trans (published_releaseAll_own hq core hb))
  · subst hsc
    rw [flushed_package, ← published_far h]
    exact published_releaseAll_own hq core hb
  · subst hsc
    refine readMem_flushed_host _ core h hpeer ?_
    rw [← published_far h]
    exact published_releaseAll_own hq core hb
  · exact Option.some.inj ((hnear h).trans (published_releaseAll_replica hq core hnone hb))
  · exact Option.some.inj ((hnear h).trans ((published_releaseAll_other hq core hnone hb).trans (published_near h)))

/-- A release of a team of one dome. -/
theorem release_team_local {s : State} (hq : s.settled) (core : Nat) {l : Option Launch} (hl : s.teamLocal l = true) :
    ((s.release core l .team).coreAt core).dirty = [] ∧
    ∀ key b, Sparse.get none (s.coreAt core).dirty key = some b → farKey key = false →
      (s.homedIn (domeOf core) key = true → readMem (s.release core l .team).mem key = b) ∧
      (s.homedIn (domeOf core) key = false →
        Sparse.get none ((s.release core l .team).domeAt (domeOf core)).dirty key = some b) := by
  have e : s.release core l .team =
      (s.publish core (fun k => s.homedIn (domeOf core) k)).publishReplica core (fun _ => true) := by
    simp only [State.release, hl, ↓reduceIte]
  rw [e]
  refine ⟨?_, fun key b hb hnear => ⟨fun hhome => ?_, fun haway => ?_⟩⟩
  · show ((((s.publish core _).putCore core _).putDome (domeOf core) _).coreAt core).dirty = []
    exact (congrArg Core.dirty (coreAt_putCore_same ..)).trans (filter_none _)
  · show readMem (s.publish core _).mem key = b
    exact Option.some.inj ((published_near hnear).symm.trans (published_publish_own core _ hq hhome hb))
  · have hleft : Sparse.get none ((s.publish core (fun k => s.homedIn (domeOf core) k)).coreAt core).dirty key = some b := by
      rw [publish_dirty core _ hq]
      exact (get_filter none (fun k => !s.homedIn (domeOf core) k) key _).trans (by rw [haway]; exact hb)
    generalize s.publish core (fun k => s.homedIn (domeOf core) k) = s1 at hleft
    show Sparse.get none (((s1.putCore core _).putDome (domeOf core) _).domeAt (domeOf core)).dirty key = some b
    rw [domeAt_putDome_same]
    have hmem : (key, b) ∈ dirtyBytes (s1.coreAt core).dirty (fun _ => true) := mem_dirtyBytes.mpr ⟨rfl, hleft⟩
    exact foldl_put_mem (val := some) dirtied_law hmem (dirtyBytes_unique hmem) _

end Sys2Proof.Machine
end

section
/-! PROOFS. Acquires, and the words PHASE and FENCE (R110, R113, R202, R215, R216). -/

namespace Sys2Proof.Machine

/-! ## Acquires -/

theorem get_map_keyed {α : Type} (p : Nat → Bool) (f : α → α) (a : Nat) : ∀ l : Sparse (Option α),
    Sparse.get none (l.map (fun e => if p e.1 then (e.1, e.2.map f) else e)) a =
      if p a then (Sparse.get none l a).map f else Sparse.get none l a
  | [] => by simp [Sparse.get]
  | (k, v) :: l => by
    have ih := get_map_keyed p f a l
    rw [List.map_cons]
    by_cases ha : a = k
    · subst ha
      cases p a <;> simp [Sparse.get]
    · cases hp : p k <;> simp [Sparse.get, ha, ih]

theorem warpAt_mapCoreWarps (s : State) (core : Nat) (f : Warp → Warp) (k : Nat) :
    (s.mapCoreWarps core f).warpAt k = if keyCore k = core then (s.warpAt k).map f else s.warpAt k := by
  have h := get_map_keyed (fun k => decide (keyCore k = core)) f k s.warps
  simp only [decide_eq_true_eq] at h
  exact h

/-- An acquire ends every hoisted load of its core. -/
theorem hoistAt_dropAll {s : State} {core k : Nat} {w : Warp} (h : (s.dropHoists core (fun _ => true)).warpAt k = some w)
    (hk : keyCore k = core) (i : Nat) : w.hoistAt i = none := by
  rw [State.dropHoists, warpAt_mapCoreWarps, if_pos hk] at h
  obtain ⟨w', -, rfl⟩ := Option.map_eq_some_iff.mp h
  refine (congrArg (fun l : Sparse (Option Hoist) => Sparse.get none l i) (List.filter_eq_nil_iff.mpr fun e _ he => ?_)).trans
    (rfl : Sparse.get none [] i = none)
  cases hx : e.2 <;> simp [hx] at he

/-- A core's L1 after an acquire. -/
def State.dropL1 (s : State) (core : Nat) : State :=
  ((s.dropHoists core (fun _ => true)).putCore core { s.coreAt core with clean := [] }).dropAnswers core

/-- A dome's replica after an acquire beyond the team. -/
def State.dropReplica (s : State) (core : Nat) : State :=
  s.putDome (domeOf core) { s.domeAt (domeOf core) with clean := [] }

/-- The lines of host memory that slices keep, after an acquire at system scope. -/
def State.dropHostLines (s : State) : State := { s with hostClean := [] }

theorem dropHostLines_mem (s : State) : s.dropHostLines.mem = s.mem := rfl
theorem dropReplica_mem (s : State) (core : Nat) : (s.dropReplica core).mem = s.mem := rfl
theorem dropL1_mem (s : State) (core : Nat) : (s.dropL1 core).mem = s.mem := rfl

theorem acquire_team (s : State) (core : Nat) (l : Option Launch) : s.acquire core l .team =
    if s.teamLocal l then s.dropL1 core else (s.dropL1 core).dropReplica core := rfl
theorem acquire_package (s : State) (core : Nat) (l : Option Launch) :
    s.acquire core l .package = (s.dropL1 core).dropReplica core := rfl
theorem acquire_domain (s : State) (core : Nat) (l : Option Launch) :
    s.acquire core l .domain = (s.dropL1 core).dropReplica core := rfl
theorem acquire_system (s : State) (core : Nat) (l : Option Launch) :
    s.acquire core l .system = ((s.dropL1 core).dropReplica core).dropHostLines := rfl

section dropL1
variable (s : State) (core : Nat)

theorem coreAt_dropL1 (c : Nat) :
    (s.dropL1 core).coreAt c = if c = core then { s.coreAt core with clean := [] } else s.coreAt c := coreAt_putCore ..

theorem domeAt_dropReplica : ((s.dropReplica core).domeAt (domeOf core)).clean = [] :=
  congrArg Dome.clean (domeAt_putDome_same ..)

theorem hoistAt_dropL1 {k : Nat} {w : Warp} (h : (s.dropL1 core).warpAt k = some w) (hk : keyCore k = core) (i : Nat) :
    w.hoistAt i = none := hoistAt_dropAll (s := s) h hk i

/-- What an acquire that drops a core's L1 does to the cores. -/
theorem dropL1_cores {t : State} (h : t.cores = (s.dropL1 core).cores) : (t.coreAt core).clean = [] ∧
    (∀ c, (t.coreAt c).dirty = (s.coreAt c).dirty) ∧ (∀ c, c ≠ core → t.coreAt c = s.coreAt c) := by
  have hat : ∀ c, t.coreAt c = if c = core then { s.coreAt core with clean := [] } else s.coreAt c := fun c => by
    rw [← coreAt_dropL1]
    simp only [State.coreAt, h]
  refine ⟨?_, fun c => ?_, fun c hc => ?_⟩
  · rw [hat, if_pos rfl]
  · rw [hat]
    split
    · next hc => rw [hc]
    · rfl
  · rw [hat, if_neg hc]

end dropL1

theorem acquire_spec (s : State) (core : Nat) (l : Option Launch) (sc : Scope) (hsc : sc ≠ .core) :
    ((s.acquire core l sc).coreAt core).clean = [] ∧ (s.acquire core l sc).mem = s.mem ∧
    (sc ≠ .team ∨ s.teamLocal l = false → ((s.acquire core l sc).domeAt (domeOf core)).clean = []) ∧
    (sc = .team → s.teamLocal l = true → (s.acquire core l sc).domes = s.domes) ∧
    (sc = .system → (s.acquire core l sc).hostClean = []) ∧ (sc ≠ .system → (s.acquire core l sc).hostClean = s.hostClean) ∧
    (∀ k w, (s.acquire core l sc).warpAt k = some w → keyCore k = core → ∀ i, w.hoistAt i = none) ∧
    (∀ c, ((s.acquire core l sc).coreAt c).dirty = (s.coreAt c).dirty) ∧
    (∀ c, c ≠ core → (s.acquire core l sc).coreAt c = s.coreAt c) := by
  have hcores : (s.acquire core l sc).cores = (s.dropL1 core).cores := by
    cases sc with
    | core => exact absurd rfl hsc
    | team => rw [acquire_team]; split <;> rfl
    | package => rfl
    | domain => rfl
    | system => rfl
  have hwarps : (s.acquire core l sc).warps = (s.dropL1 core).warps := by
    cases sc with
    | core => exact absurd rfl hsc
    | team => rw [acquire_team]; split <;> rfl
    | package => rfl
    | domain => rfl
    | system => rfl
  obtain ⟨hclean, hdirty, hother⟩ := dropL1_cores s core hcores
  have hhoist : ∀ k w, (s.acquire core l sc).warpAt k = some w → keyCore k = core → ∀ i, w.hoistAt i = none := by
    intro k w hw
    rw [State.warpAt, hwarps] at hw
    exact hoistAt_dropL1 s core hw
  have hreplica := domeAt_dropReplica (s.dropL1 core) core
  cases sc with
  | core => exact absurd rfl hsc
  | team =>
    cases hl : s.teamLocal l with
    | true =>
      have e : s.acquire core l .team = s.dropL1 core := by rw [acquire_team, hl, if_pos rfl]
      rw [e] at hclean hhoist hdirty hother ⊢
      exact ⟨hclean, rfl, nofun, fun _ _ => rfl, nofun, fun _ => rfl, hhoist, hdirty, hother⟩
    | false =>
      have e : s.acquire core l .team = (s.dropL1 core).dropReplica core := by rw [acquire_team, hl, if_neg Bool.false_ne_true]
      rw [e] at hclean hhoist hdirty hother ⊢
      exact ⟨hclean, rfl, fun _ => hreplica, fun _ => nofun, nofun, fun _ => rfl, hhoist, hdirty, hother⟩
  | package =>
    rw [acquire_package] at hclean hhoist hdirty hother ⊢
    exact ⟨hclean, rfl, fun _ => hreplica, nofun, nofun, fun _ => rfl, hhoist, hdirty, hother⟩
  | domain =>
    rw [acquire_domain] at hclean hhoist hdirty hother ⊢
    exact ⟨hclean, rfl, fun _ => hreplica, nofun, nofun, fun _ => rfl, hhoist, hdirty, hother⟩
  | system =>
    rw [acquire_system] at hclean hhoist hdirty hother ⊢
    exact ⟨hclean, by rw [dropHostLines_mem, dropReplica_mem, dropL1_mem], fun _ => hreplica, nofun, fun _ => rfl, fun h => absurd rfl h, hhoist, hdirty, hother⟩

theorem releasesPublishAndAcquiresDrop : Claim.ReleasesPublishAndAcquiresDrop :=
  ⟨fun _ core l _ hcore hteam hwaits hreds => release_beyond_team ⟨hwaits, hreds⟩ core l hcore hteam,
    fun _ core _ hwaits hreds hl => release_team_local ⟨hwaits, hreds⟩ core hl, acquire_spec⟩

/-! ## PHASE and FENCE (R215, R216) -/

theorem exec_phase (x : Ctl) (m : SMod) (o : Slots) (s : State) : exec (.phase x m o) s = execPhase x m o s := rfl
theorem exec_fence (x : Ctl) (m : SMod) (o : Slots) (s : State) : exec (.fence x m o) s = execPhase x m o s := rfl

/-- A boundary releases and acquires as its form says. -/
theorem boundary_eq (s : State) (k : Nat) (m : SMod) : s.boundary k m =
    match m.ord with
    | .none => s
    | .rel => s.release (keyCore k) (s.launchOfWarp k) m.scope
    | .acq => s.acquire (keyCore k) (s.launchOfWarp k) m.scope
    | .acqrel => (s.release (keyCore k) (s.launchOfWarp k) m.scope).acquire (keyCore k) (s.launchOfWarp k) m.scope := by
  cases h : m.ord <;> simp [State.boundary, h]

section phase
variable {s : State} {c : WCtx} {w : Warp} {p : Split} {x : Ctl} {m : SMod} {o : Slots} {ports : List (Port × Word)} {pv : Pops}
  (h : Ready s c w p x o [] ports pv)
include h

theorem execPhase_outside (hout : Claim.noTxn w (activeMask w p x)) : execPhase x m o s =
    .next (((s.putWarp c.key { w with ports := ports }).boundary c.key m).seqAct c.key p.id x.seq) := by
  have hill : (s.putWarp c.key { w with ports := ports }).illegalOp c.key (activeMask w p x) = (_, activeMask w p x) :=
    illegalOp_none (warpAt_putWarp_same ..) hout
  rw [execPhase, splitWord_next h]
  simp only [hill, h.active, ↓reduceIte]

theorem execPhase_inside (hin : ∀ t, (activeMask w p x).has t = true → (w.openTxn t).isSome = true) : execPhase x m o s =
    .next ((s.putWarp c.key { w.abortTxns (activeMask w p x) 4 with ports := ports }).seqAct c.key p.id x.seq) := by
  have hill : (s.putWarp c.key { w with ports := ports }).illegalOp c.key (activeMask w p x) = (_, 0) :=
    illegalOp_all (warpAt_putWarp_same ..) h.active hin
  rw [execPhase, splitWord_next h]
  simp only [hill, ↓reduceIte, putWarp_putWarp]
  rfl

end phase

theorem phaseAndFenceWords : Claim.PhaseAndFenceWords := by
  intro s c w p x m o ports pv h
  refine ⟨fun hout => ?_, fun hin => ⟨execPhase_inside h hin, execPhase_inside h hin⟩⟩
  have e := (execPhase_outside (m := m) h hout).trans (by rw [boundary_eq])
  exact ⟨e, e⟩

/-- Settles O16: a release writes the dirty bytes of its core and dome group by group; an acquire drops what it names; PHASE
and FENCE do both at their scope, or abort the transactions their threads stand in. -/
theorem fencesPublishAndDrop : Obligations.FencesPublishAndDrop := ⟨releasesPublishAndAcquiresDrop, phaseAndFenceWords⟩

end Sys2Proof.Machine
end

section
/-! PROOFS. Registered WAITs: the write that fires one, its deadline, and the return of its split (R126, R229, R230, R314,
Tables 8.8 and 20.8). -/

namespace Sys2Proof.Machine

/-! ## A write evaluates a WAIT of one entry -/

/-- The threads that a write satisfies newly. -/
def Wait.hitBy (y : Wait) (a : Nat) (v : Word) : Mask :=
  Mask.ofPred (fun t => !y.sat.has t && y.ents.any (fun e => e.addr = a && e.threads.has t) &&
    condHolds y.cond y.sgn v (y.vals.getD t 0))

theorem evaluate_of_none {y : Wait} {a : Nat} {v : Word} (h : y.hitBy a v = 0) : y.evaluate a v = y := if_pos h

theorem evaluate_of_some {y : Wait} {a : Nat} {v : Word} (h : y.hitBy a v ≠ 0) : y.evaluate a v =
    if y.any then { y with
      sat := y.sat ||| y.hitBy a v,
      ents := y.ents.filter (fun e => !((y.ents.filter (fun e => e.addr = a && (e.threads &&& y.hitBy a v) ≠ 0)).map
        (·.slice)).contains e.slice),
      result := some (y.result.getD 0) }
    else { y with
      sat := y.sat ||| y.hitBy a v,
      ents := y.ents.filter (fun e => !(e.addr = a && (e.threads &&& ~~~ (y.sat ||| y.hitBy a v)) = 0)),
      result := if (y.T &&& ~~~ (y.sat ||| y.hitBy a v)) = 0 then some (y.result.getD 0) else y.result } := if_neg h

theorem mask_has_or (m n : Mask) (t : Nat) : (m ||| n).has t = (m.has t || n.has t) := BitVec.getLsbD_or ..

/-- A mask is empty where no thread is in it. -/
theorem mask_eq_zero_iff {m : Mask} : m = 0 ↔ ∀ t, m.has t = false :=
  ⟨fun h t => by rw [h, Mask.has_zero], fun h => mask_ext fun t _ => by rw [h, Mask.has_zero]⟩

theorem mask_ne_zero_iff {m : Mask} : m ≠ 0 ↔ ∃ t, m.has t = true := by
  rw [ne_eq, mask_eq_zero_iff, not_forall]
  exact exists_congr fun t => iff_of_eq (Bool.not_eq_false _)

/-- Every thread of one mask is in another. -/
theorem mask_subset_iff {m n : Mask} : m &&& ~~~ n = 0 ↔ ∀ t, m.has t = true → n.has t = true := by
  rw [mask_eq_zero_iff]
  refine forall_congr' fun t => ?_
  by_cases ht : t < 32
  · rw [Mask.has, BitVec.getLsbD_and, BitVec.getLsbD_not]
    simp only [ht, decide_true, Bool.true_and, Mask.has]
    cases BitVec.getLsbD m t <;> cases BitVec.getLsbD n t <;> simp
  · have hm : m.has t = false := BitVec.getLsbD_of_ge m t (by omega)
    rw [hm, Mask.has, BitVec.getLsbD_of_ge _ t (by omega)]
    simp

section oneEntry
variable {y : Wait} {a : Nat} {v : Word} {e : WEnt} (hres : y.result = none) (hents : y.ents = [e]) (haddr : e.addr = a)
  (hT : e.threads = y.T)
include hents haddr

theorem has_hitBy (t : Nat) : (y.hitBy a v).has t =
    (!y.sat.has t && (e.threads.has t && condHolds y.cond y.sgn v (y.vals.getD t 0))) := by
  rw [Wait.hitBy, has_ofPred, hents]
  simp only [List.any_cons, List.any_nil, Bool.or_false, haddr, decide_true, Bool.true_and, Bool.and_assoc]
  by_cases ht : t < 32
  · simp [ht]
  · simp [ht, show e.threads.has t = false from BitVec.getLsbD_of_ge _ t (by omega)]

include hT

/-- The one entry leaves a WAIT of `any` that fires. -/
theorem fired_slices (hne : y.hitBy a v ≠ 0) :
    (y.ents.filter (fun e => e.addr = a && (e.threads &&& y.hitBy a v) ≠ 0)).map (·.slice) = [e.slice] := by
  have hin : e.threads &&& y.hitBy a v ≠ 0 := by
    obtain ⟨t, ht⟩ := mask_ne_zero_iff.mp hne
    refine mask_ne_zero_iff.mpr ⟨t, ?_⟩
    have h := has_hitBy (v := v) hents haddr t
    rw [ht, hT] at h
    rw [hT, Mask.has, BitVec.getLsbD_and]
    show (y.T.has t && (y.hitBy a v).has t) = true
    rw [ht]
    cases hyt : y.T.has t with
    | true => rfl
    | false => rw [hyt] at h; simp at h
  rw [hents, List.filter_cons_of_pos (by simpa [haddr] using hin), List.filter_nil]
  rfl

include hres

theorem evaluate_oneEntry :
    (∀ t, (y.evaluate a v).sat.has t = (y.sat.has t || (y.hitBy a v).has t)) ∧
    ((y.evaluate a v).result = some 0 ↔
      y.hitBy a v ≠ 0 ∧ (y.any = true ∨ ∀ t, y.T.has t = true → (y.sat.has t || (y.hitBy a v).has t) = true)) ∧
    ((y.evaluate a v).result = some 0 ∨ (y.evaluate a v).result = none) ∧
    ((y.evaluate a v).result = some 0 → (y.evaluate a v).ents = []) := by
  by_cases hz : y.hitBy a v = 0
  · rw [evaluate_of_none hz, hres, hz]
    exact ⟨fun t => by rw [Mask.has_zero, Bool.or_false], by simp, .inr rfl, nofun⟩
  · rw [evaluate_of_some hz, fired_slices hents haddr hT hz]
    cases hany : y.any with
    | true =>
      simp only [↓reduceIte, hres, Option.getD_none]
      exact ⟨fun t => mask_has_or .., ⟨fun _ => ⟨hz, .inl trivial⟩, fun _ => trivial⟩, .inl trivial, fun _ => by simp [hents]⟩
    | false =>
      have hall : (y.T &&& ~~~ (y.sat ||| y.hitBy a v) = 0) ↔
          ∀ t, y.T.has t = true → (y.sat.has t || (y.hitBy a v).has t) = true := by
        rw [mask_subset_iff]
        simp only [mask_has_or]
      simp only [Bool.false_eq_true, ↓reduceIte, hres, Option.getD_none, false_or]
      by_cases hd : y.T &&& ~~~ (y.sat ||| y.hitBy a v) = 0
      · simp only [hd, ↓reduceIte]
        exact ⟨fun t => mask_has_or .., ⟨fun _ => ⟨hz, hall.mp hd⟩, fun _ => trivial⟩, .inl trivial, fun _ => by simp [hents, haddr, hT, hd]⟩
      · simp only [hd, ↓reduceIte]
        refine ⟨fun t => mask_has_or .., ⟨nofun, fun h => absurd (hall.mpr h.2) hd⟩, .inr trivial, nofun⟩

end oneEntry

theorem writesFireWaitingThreads : Claim.WritesFireWaitingThreads := by
  intro y a v e hres hents haddr hT hit new
  obtain ⟨hsat, hmet, hcode, hfree⟩ := evaluate_oneEntry (v := v) hres hents haddr hT
  have hhas := has_hitBy (v := v) hents haddr
  rw [hT] at hhas
  have hor : ∀ t, (y.sat.has t || (y.hitBy a v).has t) = (y.sat.has t || hit t) := fun t => by
    rw [hhas]
    cases y.sat.has t <;> rfl
  have hnew : y.hitBy a v ≠ 0 ↔ new := by
    rw [mask_ne_zero_iff]
    refine exists_congr fun t => ?_
    rw [hhas]
    simp only [hit, Bool.and_eq_true, Bool.not_eq_true']
    exact and_comm
  simp only [hor] at hsat hmet
  exact ⟨hsat, hmet.trans (and_congr_left' hnew), hcode, hfree⟩

/-! ## Places that become free in a slice's table (R230) -/

/-- A change of waiters that moves entries between a slice's table and its overflow list. -/
def moves (f : Wait → Wait) : Prop :=
  ∀ y, f y = { y with ents := (f y).ents } ∧ (f y).ents.map WEnt.addr = y.ents.map WEnt.addr

theorem moves_id : moves id := fun _ => ⟨rfl, rfl⟩

theorem moves_comp {f g : Wait → Wait} (hf : moves f) (hg : moves g) : moves (g ∘ f) := fun y => by
  obtain ⟨hf1, hf2⟩ := hf y
  obtain ⟨hg1, hg2⟩ := hg (f y)
  refine ⟨?_, hg2.trans hf2⟩
  show g (f y) = { y with ents := (g (f y)).ents }
  rw [hg1, hf1]

/-- Moving the first spilled entry of a slice keeps the entries' words. -/
theorem moveFirst_addr (slice : Nat) (l : List WEnt) : ∀ acc : List WEnt × Bool,
    ((l.foldl (fun (acc : List WEnt × Bool) e =>
      if !acc.2 && e.slice = slice && e.spilled then (acc.1 ++ [{ e with spilled := false }], true)
      else (acc.1 ++ [e], acc.2)) acc).1).map WEnt.addr = acc.1.map WEnt.addr ++ l.map WEnt.addr := by
  induction l with
  | nil => simp
  | cons e l ih =>
    intro acc
    rw [List.foldl_cons, ih]
    split <;> simp

theorem refillOne_moves (ws : List Wait) (slice : Nat) : ∃ f, moves f ∧ refillOne ws slice = ws.map f := by
  unfold refillOne
  dsimp only
  split
  · split
    · exact ⟨id, moves_id, (List.map_id _).symm⟩
    · next x hx =>
      refine ⟨_, fun y => ?_, rfl⟩
      split
      · exact ⟨rfl, by simpa using moveFirst_addr slice y.ents ([], false)⟩
      · exact ⟨rfl, rfl⟩
  · exact ⟨id, moves_id, (List.map_id _).symm⟩

theorem foldl_moves {α : Type} {g : List Wait → α → List Wait} (hg : ∀ ws a, ∃ f, moves f ∧ g ws a = ws.map f) (l : List α) :
    ∀ ws, ∃ f, moves f ∧ l.foldl g ws = ws.map f := by
  induction l with
  | nil => exact fun ws => ⟨id, moves_id, (List.map_id _).symm⟩
  | cons a l ih =>
    intro ws
    obtain ⟨f, hf, h⟩ := hg ws a
    obtain ⟨f', hf', h'⟩ := ih (g ws a)
    exact ⟨f' ∘ f, moves_comp hf hf', by rw [List.foldl_cons, h', h, List.map_map]⟩

theorem refillLantern_moves (ws : List Wait) (slice : Nat) : ∃ f, moves f ∧ refillLantern ws slice = ws.map f :=
  foldl_moves (fun ws _ => refillOne_moves ws slice) _ ws

theorem refillAll_moves (ws : List Wait) : ∃ f, moves f ∧ refillAll ws = ws.map f := foldl_moves refillLantern_moves _ ws

/-- A WAIT without entries stays as it is. -/
theorem moves_noEnts {f : Wait → Wait} (hf : moves f) {y : Wait} (h : y.ents = []) : f y = y := by
  obtain ⟨h1, h2⟩ := hf y
  rw [h, List.map_nil, List.map_eq_nil_iff] at h2
  rw [h1, h2, ← h]

/-- The waiter of a number, in a list whose waiters keep their numbers. -/
theorem find_map_id {f : Wait → Wait} (hf : ∀ y, (f y).id = y.id) (ws : List Wait) (id : Nat) :
    (ws.map f).find? (fun z => z.id = id) = (ws.find? (fun z => z.id = id)).map f := by
  rw [List.find?_map]
  refine congrArg (fun p => (ws.find? p).map f) (funext fun z => ?_)
  simp only [Function.comp_apply, hf]

theorem moves_keep_id {f : Wait → Wait} (hf : moves f) (y : Wait) : (f y).id = y.id := by rw [(hf y).1]

/-! ## Writes that mark a saved context (R314) -/

/-- The decided WAIT of a number, which waits for no further write. -/
def State.ended (s : State) (id : Nat) (z : Wait) : Prop := s.waits.find? (fun u => u.id = id) = some z ∧ z.ents = []

theorem evaluate_keep_id (y : Wait) (a : Nat) (v : Word) : (y.evaluate a v).id = y.id := by
  by_cases h : y.hitBy a v = 0
  · rw [evaluate_of_none h]
  · rw [evaluate_of_some h]
    split <;> rfl

theorem evalWord_ended {s : State} {id : Nat} {z : Wait} (h : s.ended id z) (a : Nat) (v : Word) :
    (s.evalWord a v).1.ended id z := by
  obtain ⟨hfind, hents⟩ := h
  unfold State.evalWord
  split
  · obtain ⟨f, hf, hrefill⟩ := refillLantern_moves
      (s.waits.map (fun x => if x.ents.any (fun e => e.addr = a) then x.evaluate a v else x)) (s.homeSlice a)
    refine ⟨?_, hents⟩
    dsimp only
    rw [hrefill, find_map_id (moves_keep_id hf), find_map_id (fun y => ?_), hfind]
    · simp [hents, moves_noEnts hf hents]
    · split
      · exact evaluate_keep_id ..
      · rfl
  · exact ⟨hfind, hents⟩

theorem farWrite_waits (s : State) (cells : List (Nat × Byte)) (g : Nat) : (s.farWrite cells g).waits = s.waits := by
  unfold State.farWrite
  split
  · rfl
  · refine foldl_keeps State.waits (fun t c => ?_) _ s
    rfl

theorem proxyGo_waits (s : State) (g : Nat) : (s.proxyGo g).waits = s.waits := by
  by_cases h : s.proxyCells g = []
  · rw [proxyGo_of_empty s g h]
  · rw [proxyGo_of_cells s g h, farWrite_waits]

theorem atHome_waits (s : State) (g : Nat) : (s.atHome g).waits = s.waits := by
  unfold State.atHome
  split
  · exact foldl_keeps State.waits (fun t g => proxyGo_waits t g) _ s
  · rfl

theorem putCells_waits (s : State) (cells : List (Nat × Byte)) (g : Nat) : (s.putCells cells g).waits = s.waits := by
  obtain ⟨ws, h⟩ := gate_eq s [8 * g]
  have hhome : ((s.gate [8 * g]).atHome g).waits = s.waits := by rw [atHome_waits, h]
  unfold State.putCells
  dsimp only
  split
  · rw [farWrite_waits, hhome]
  · refine (foldl_keeps State.waits (fun t c => ?_) _ _).trans hhome
    obtain ⟨b, hb⟩ := mendByte_eq { t with mem := writeMem t.mem c.1 c.2 } c.1
    rw [hb]

theorem readyAll_ended {id : Nat} {z : Wait} (n : Nat) : ∀ (s : State) (l : List Nat), s.ended id z →
    (State.readyAll n s l).ended id z := by
  induction n with
  | zero => exact fun s l h => h
  | succ n ih =>
    intro s l h
    cases l with
    | nil => exact h
    | cons c cs =>
      unfold State.readyAll
      split
      · exact ih s cs h
      · next k hk =>
        have hput : (s.putCells ((List.range 4).map (fun i => (k + i, if i = 0 then (1 : Byte) else 0))) (k / 8)).ended id z := by
          unfold State.ended
          rw [putCells_waits]
          exact h
        dsimp only
        split
        · exact ih _ _ hput
        · exact ih _ _ (evalWord_ended hput ..)

/-- The four bytes of `ready` of a context whose word no WAIT is registered on. -/
theorem readMem_markReady {s : State} {ctx k : Nat} (hkey : s.readyKey ctx = some k) (hk : k + 4 ≤ 2 ^ 42)
    (hnone : ∀ u ∈ s.waits, ∀ e ∈ u.ents, e.addr ≠ k / 8 * 8) (a : Nat) :
    readMem (s.markReady ctx).mem a = if a = k then 1 else if k < a ∧ a < k + 4 then 0 else readMem s.mem a := by
  have hfar : farKey (8 * (k / 8)) = false := (farKey_group k).trans (farKey_of_lt (by omega))
  have hpeer : peerKey (8 * (k / 8)) = false := by
    simp only [peerKey, Bool.and_eq_false_iff, decide_eq_false_iff_not]
    omega
  have hcells : (List.range 4).map (fun i => (k + i, if i = 0 then (1 : Byte) else 0)) = runCells k [1, 0, 0, 0] := rfl
  have hwait : (s.putCells (runCells k [1, 0, 0, 0]) (k / 8)).waits.any
      (fun x => x.ents.any (fun e => e.addr = k / 8 * 8)) = false := by
    rw [putCells_waits]
    refine List.any_eq_false.mpr fun u hu hany => ?_
    obtain ⟨e, he, haddr⟩ := List.any_eq_true.mp hany
    exact hnone u hu e he (by simpa using haddr)
  have e : s.markReady ctx = s.putCells (runCells k [1, 0, 0, 0]) (k / 8) := by
    unfold State.markReady State.readyAll
    simp only [hkey, hcells, State.groupWord, hpeer, Bool.false_eq_true, ↓reduceIte, State.evalWord, hwait, List.append_nil]
    cases s.waitEnts <;> rfl
  rw [e, putCells_mem hfar, readMem_written_run]
  by_cases h0 : a = k
  · subst h0
    rw [if_pos (by simp), if_pos rfl, Nat.sub_self]
    rfl
  · rw [if_neg h0]
    by_cases h1 : k < a ∧ a < k + 4
    · rw [if_pos h1, if_pos (by simp; omega)]
      obtain ⟨i, rfl⟩ : ∃ i, a = k + (i + 1) := ⟨a - k - 1, by omega⟩
      rw [Nat.add_sub_cancel_left]
      have hi : i < 3 := by omega
      interval_cases i <;> rfl
    · rw [if_neg h1, if_neg (by simp; omega)]

/-! ## WAIT_TIMEOUT (R229, R230) -/

theorem exec_waitTimeout (id : Nat) (s : State) : exec (.waitTimeout id) s = execWaitTimeout id s := rfl
theorem exec_wakeUp (id : Nat) (s : State) : exec (.wakeUp id) s = execWakeUp id s := rfl

/-- The waiters once the deadline of one has decided it. -/
def timedOut (ws : List Wait) (id : Nat) : List Wait :=
  refillAll (ws.map (fun z => if z.id = id then { z with result := some 1, ents := [] } else z))

theorem timedOut_eq (ws : List Wait) (id : Nat) : ∃ f, moves f ∧
    timedOut ws id = ws.map (fun z => f (if z.id = id then { z with result := some 1, ents := [] } else z)) := by
  obtain ⟨f, hf, h⟩ := refillAll_moves (ws.map (fun z => if z.id = id then { z with result := some 1, ents := [] } else z))
  exact ⟨f, hf, by rw [timedOut, h, List.map_map]; rfl⟩

section timeout
variable {s : State} {id : Nat} {y : Wait} (hy : s.waits.find? (fun z => z.id = id) = some y)
include hy

theorem execWaitTimeout_decided (h : y.result ≠ none ∨ s.time.toNat < y.deadline) : execWaitTimeout id s = .next s := by
  have hc : (y.result.isNone && decide (y.deadline ≤ s.time.toNat)) = false := by
    rcases h with h | h
    · rw [Option.isNone_eq_false_iff.mpr (Option.isSome_iff_ne_none.mpr h), Bool.false_and]
    · rw [decide_eq_false (by omega), Bool.and_false]
  simp only [execWaitTimeout, hy, hc, Bool.false_eq_true, ↓reduceIte]

theorem execWaitTimeout_due (hres : y.result = none) (hdue : y.deadline ≤ s.time.toNat) : execWaitTimeout id s = .next
    (match y.ctx with
     | some c => ({ s with waits := timedOut s.waits id } : State).markReady c
     | none => { s with waits := timedOut s.waits id }) := by
  simp only [execWaitTimeout, hy, hres, hdue, Option.isNone_none, decide_true, Bool.and_self, ↓reduceIte]
  rfl

theorem timedOut_ended : ({ s with waits := timedOut s.waits id } : State).ended id { y with result := some 1, ents := [] } := by
  obtain ⟨f, hf, h⟩ := timedOut_eq s.waits id
  have hid : y.id = id := by simpa using List.find?_some hy
  refine ⟨?_, rfl⟩
  dsimp only
  rw [h, find_map_id (fun z => ?_), hy]
  · rw [Option.map_some, if_pos hid, moves_noEnts hf rfl]
  · rw [moves_keep_id hf]
    split <;> rfl

end timeout

/-- No entry names a word that none named before the deadline. -/
theorem timedOut_noEnts {ws : List Wait} {id a : Nat} (h : ∀ u ∈ ws, ∀ e ∈ u.ents, e.addr ≠ a) :
    ∀ u ∈ timedOut ws id, ∀ e ∈ u.ents, e.addr ≠ a := by
  obtain ⟨f, hf, heq⟩ := timedOut_eq ws id
  rw [heq]
  intro u hu e he
  obtain ⟨z, hz, rfl⟩ := List.mem_map.mp hu
  have haddr : e.addr ∈ (if z.id = id then { z with result := some 1, ents := [] } else z : Wait).ents.map WEnt.addr :=
    (hf _).2 ▸ List.mem_map.mpr ⟨e, he, rfl⟩
  split at haddr
  · cases haddr
  · obtain ⟨e', he', haddr'⟩ := List.mem_map.mp haddr
    exact haddr' ▸ h z hz e' he'

theorem timeoutDecides {s : State} {id : Nat} {y : Wait} (hy : s.waits.find? (fun z => z.id = id) = some y)
    (hres : y.result = none) (hdue : y.deadline ≤ s.time.toNat) :
    ∃ (t : State) (z : Wait), exec (.waitTimeout id) s = .next t ∧ t.waits.find? (fun u => u.id = id) = some z ∧
      z.result = some 1 ∧ z.ents = [] ∧ z.sat = y.sat ∧ z.T = y.T ∧ t.warps = s.warps ∧ t.cores = s.cores ∧
      (y.ctx = none → t = { s with waits := t.waits }) ∧
      (∀ ctx v area k, y.ctx = some ctx → s.saved.find? (fun u => u.id = ctx) = some v → v.areas.head? = some area →
        s.key (area.toNat + 0x24) = some k → k + 4 ≤ 2 ^ 42 → (∀ u ∈ s.waits, ∀ e ∈ u.ents, e.addr ≠ k / 8 * 8) →
        ∀ a, readMem t.mem a = if a = k then 1 else if k < a ∧ a < k + 4 then 0 else readMem s.mem a) := by
  have hended := timedOut_ended hy
  have hexec := execWaitTimeout_due hy hres hdue
  rw [exec_waitTimeout, hexec]
  cases hctx : y.ctx with
  | none =>
    exact ⟨_, _, rfl, hended.1, rfl, rfl, rfl, rfl, rfl, rfl, fun _ => rfl, fun ctx v area k h => by cases h⟩
  | some c =>
    have hoff := readyAll_offHome (({ s with waits := timedOut s.waits id } : State).waitEnts + 1)
      { s with waits := timedOut s.waits id } [c]
    refine ⟨_, _, rfl, (readyAll_ended _ _ _ hended).1, rfl, rfl, rfl, rfl, warps_of_offHome hoff, cores_of_offHome hoff,
      nofun, fun ctx v area k h hsaved harea hkey hk hnone a => ?_⟩
    cases h
    have hready : ({ s with waits := timedOut s.waits id } : State).readyKey c = some k := by
      simp only [State.readyKey, hsaved, Option.bind_some, harea]
      exact hkey
    exact readMem_markReady hready hk (timedOut_noEnts hnone) a

/-! ## WAKE_UP (R230) -/

/-- Of no thread a destination holds anything. -/
theorem holds_no_thread (w : Warp) (x : Spec) (val : Nat → Word) : Holds w x 0 val := by
  have hlow : ∀ t, Mask.lowest 0 ≠ some t := fun t => nofun
  unfold Holds
  split
  case h_11 => trivial
  all_goals
    intro t ht
    simp only [hlow, Mask.has_zero, Bool.false_eq_true] at ht

/-- A destination put for a whole word, also of no thread. -/
theorem putDst_whole {c : WCtx} (hc : c.lead = none) (w : Warp) (x : Spec) (T : Mask) (val : Nat → Word)
    (hd : dstOk c w T x val) :
    ∃ w', putDst c w w x T .general val = (w', []) ∧ w'.ports = w.ports ∧ RegEffect w w' x T val (fun _ => 0) w.rndOf := by
  by_cases hT : T = 0
  · subst hT
    have hlow : Mask.lowest 0 = none := rfl
    refine ⟨w, by simp only [putDst, hlow], rfl, holds_no_thread w x val, fun _ t => ?_, fun _ _ => rfl, fun _ t => ?_,
      fun _ _ => rfl, fun _ _ _ _ => rfl, fun _ _ _ _ => rfl, fun _ _ => rfl, fun _ _ => rfl, fun _ _ => rfl, fun _ _ => rfl,
      fun _ => rfl, fun _ => rfl, rfl⟩
    · simp
    · simp
  · obtain ⟨t, ht, _⟩ := Mask.lowest_isSome T hT
    obtain ⟨hholds, hkept, hports, hstatus, hrnd⟩ := writeDst_effect w x T .general val hT
    refine ⟨writeDst w x T .general val, ?_, hports, hholds, fun hx t => ?_, fun t h => hstatus t (.inr h), fun hx t => ?_,
      fun t h => hrnd t (.inr h), hkept⟩
    · simp only [putDst, ht, hc, hd t ht, Bool.and_false, Bool.false_eq_true, ↓reduceIte]
    · rw [hstatus t (.inl hx)]
      simp
    · rw [hrnd t (.inl hx)]
      simp

/-- The result that each thread of a WAIT receives: its code, and 256 where its condition held (R229). -/
def Wait.answer (y : Wait) (code t : Nat) : Word := BitVec.ofNat 64 (code + if y.sat.has t then 256 else 0)

/-- The state in which a finished WAIT's split goes on. -/
def State.afterWait (s : State) (k : Nat) (m : WMod) (w' : Warp) (id : Nat) : State :=
  let s1 : State := { s.putWarp k w' with waits := s.waits.filter (fun z => z.id ≠ id) }
  if m.acq then s1.acquire (keyCore k) (s1.launchOfWarp k) .package else s1

/-- A finished WAIT of which no thread trapped writes its results, acquires, and sequences. -/
theorem waitDone_spec {s : State} {k pid : Nat} {w : Warp} {p : Split} (hw : s.warpAt k = some w) (hp : w.splitAt pid = some p)
    (x : Ctl) (m : WMod) (o : Slots) {pend : Pend} (hheld : pend.held = []) (y : Wait) (code : Nat)
    (hd : ∀ c : WCtx, c.stackLo = s.stackLo k → c.stackHi = s.stackHi k → dstOk c w y.T o.a (y.answer code)) :
    ∃ w', s.waitDone k pid x m o pend y code = (s.afterWait k m w' y.id).seqAct k pid x.seq ∧ w'.ports = w.ports ∧
      RegEffect w w' o.a y.T (y.answer code) (fun _ => 0) w.rndOf := by
  obtain ⟨w', hput, hports, heffect⟩ := putDst_whole (c := {
    key := k, split := p, blk := w.blk, block := none, launch := none, time := 0,
    stackLo := s.stackLo k, stackHi := s.stackHi k }) rfl w o.a y.T (y.answer code) (hd _ rfl rfl)
  refine ⟨w', ?_, hports, heffect⟩
  rw [show y.answer code = fun t => BitVec.ofNat 64 (code + if y.sat.has t then 256 else 0) from rfl] at hput
  simp only [State.waitDone, hw, hp, hput, hheld, List.append_nil, finish_nil]
  rfl

theorem wakeUpEnds {s : State} {id : Nat} {y : Wait} {code : Nat} {w : Warp} {p : Split} {x : Ctl} {m : WMod} {o : Slots}
    {pend : Pend} (hy : s.waits.find? (fun z => z.id = id) = some y) (hres : y.result = some code) (hctx : y.ctx = none)
    (hw : s.warpAt y.warp = some w) (hp : w.splitAt y.split = some p) (hstop : p.stop = some (.wait id pend))
    (hi : pend.i = .wait x m o) (hheld : pend.held = [])
    (hd : ∀ c : WCtx, c.stackLo = s.stackLo y.warp → c.stackHi = s.stackHi y.warp → dstOk c w y.T o.a (y.answer code)) :
    ∃ (w' : Warp) (ws : List Wait),
      exec (.wakeUp id) s = .next { (s.afterWait y.warp m w' id).seqAct y.warp y.split x.seq with waits := ws } ∧
      RegEffect w w' o.a y.T (y.answer code) (fun _ => 0) w.rndOf := by
  obtain ⟨w', hdone, -, heffect⟩ := waitDone_spec hw hp x m o hheld y code hd
  have hid : y.id = id := by simpa using List.find?_some hy
  rw [hid] at hdone
  refine ⟨w', refillAll ((s.afterWait y.warp m w' id).seqAct y.warp y.split x.seq).waits, ?_, heffect⟩
  rw [exec_wakeUp]
  simp only [execWakeUp, hy, hres, hctx, hw, hp, hstop, hi, ↓reduceIte, hdone]

theorem timeoutsAndWakeUpsEndWaits : Claim.TimeoutsAndWakeUpsEndWaits := by
  refine ⟨fun s id y hy => ⟨timeoutDecides hy, execWaitTimeout_decided hy⟩, ?_⟩
  intro s id y code w p x m o pend hy hres hctx hw hp hstop hi hheld res hd
  exact (wakeUpEnds hy hres hctx hw hp hstop hi hheld hd).imp fun w' ⟨ws, h⟩ => ⟨ws, h⟩

/-- Settles O22: the threads a write satisfies are those of its mask; a deadline frees the entries, and the write of `ready`
that may follow leaves the decided WAIT alone; the wake-up writes the results and sequences. -/
theorem waitsAreDecidedAndEnd : Obligations.WaitsAreDecidedAndEnd := ⟨writesFireWaitingThreads, timeoutsAndWakeUpsEndWaits⟩

end Sys2Proof.Machine
end

section
/-! PROOFS. WAIT: what translating and probing its words leaves unchanged, the registration of its entries, and its two
outcomes (R99, R125, R228, R229). -/

namespace Sys2Proof.Machine

/-! ## What a translation leaves unchanged where no reduction waits -/

/-- A state apart from memory and everything that keeps copies of it, counts accesses to it, or waits for it. -/
def State.unfetched (s : State) : State :=
  { s.offHome with cores := [], domes := [], counters := [], follow := [], llc := [] }

section unfetched
variable {s t : State}

theorem unfetched_of_offHome (h : t.offHome = s.offHome) : t.unfetched = s.unfetched :=
  congrArg (fun x : State => { x with cores := [], domes := [], counters := [], follow := [], llc := [] }) h

theorem unfetched_of_unnoted (h : t.unnoted = s.unnoted) : t.unfetched = s.unfetched := (congrArg State.unfetched h :)

theorem unfetched_of_coreless (h : t.coreless = s.coreless) : t.unfetched = s.unfetched := (congrArg State.unfetched h :)

variable (h : t.unfetched = s.unfetched)
include h

theorem reds_of_unfetched : t.reds = s.reds := (congrArg State.reds h :)
theorem warps_of_unfetched : t.warps = s.warps := (congrArg State.warps h :)
theorem ctl_of_unfetched : t.ctl = s.ctl := (congrArg State.ctl h :)
theorem time_of_unfetched : t.time = s.time := (congrArg State.time h :)

theorem warpAt_of_unfetched (k : Nat) : t.warpAt k = s.warpAt k := by simp only [State.warpAt, warps_of_unfetched h]

end unfetched

theorem readEntry_unfetched (s : State) (dome a : Nat) : (s.readEntry dome a).1.unfetched = s.unfetched := by
  unfold State.readEntry
  split
  · rfl
  · have hgate : (s.gate [a]).unfetched = s.unfetched := unfetched_of_offHome (gate_offHome s [a])
    dsimp only
    split
    · exact hgate
    · split
      · exact hgate
      · exact hgate

theorem forget_unfetched (s : State) (dome a : Nat) : (s.forget dome a).unfetched = s.unfetched := rfl

theorem walkFrom_unfetched (dome : Nat) (va : Word) (n : Nat) : ∀ (s : State) (lv t : Nat),
    (s.walkFrom dome va n lv t).1.unfetched = s.unfetched := by
  induction n with
  | zero => exact fun s lv t => rfl
  | succ n ih =>
    intro s lv t
    have hread := readEntry_unfetched s dome (t + 8 * levelIndex lv va)
    unfold State.walkFrom
    split
    · rfl
    · dsimp only
      split
      · next s1 h => rw [h] at hread; exact hread
      · next s1 e h =>
        rw [h] at hread
        split
        · exact hread
        · split
          · split
            · exact (forget_unfetched ..).trans hread
            · exact (ih ..).trans hread
          · split
            · exact (forget_unfetched ..).trans hread
            · exact hread

theorem walk_unfetched (s : State) (dome : Nat) (va : Word) : (s.walk dome va).1.unfetched = s.unfetched := by
  unfold State.walk
  split
  · rfl
  · exact walkFrom_unfetched ..

section settledReds
variable {s : State} (hreds : s.reds = [])
include hreds

theorem setEntry_offHome (a : Nat) (v : Word) : (s.setEntry a v).offHome = s.offHome := by
  unfold State.setEntry
  rw [applyReds_of_no_reds hreds]
  dsimp only
  split
  · rfl
  · exact homeWrite_offHome hreds ..

theorem markLeaf_offHome (acc : Acc) (x : Tlb) (fill : Bool) : (s.markLeaf acc x fill).offHome = s.offHome := by
  have h1 : (if fill then s.setEntry x.addr 0x40 else s).offHome = s.offHome := by
    split
    · exact setEntry_offHome hreds ..
    · rfl
  unfold State.markLeaf
  dsimp only
  split
  · exact (setEntry_offHome ((reds_of_offHome h1).trans hreds) ..).trans h1
  · exact h1

theorem through_unfetched (core : Nat) (acc : Acc) (va : Word) (x : Tlb) (fill : Bool) :
    (s.through core acc va x fill).1.unfetched = s.unfetched := by
  unfold State.through
  split
  · have hmark := unfetched_of_offHome (markLeaf_offHome hreds acc x fill)
    dsimp only
    generalize s.markLeaf acc x fill = s2 at hmark ⊢
    obtain ⟨f, hf⟩ := noteAccess_eq (s2.putCore core { s2.coreAt core with tlb := tlbAfter (s2.coreAt core).tlb acc x fill })
      core x.entry x.addr
    rw [hf]
    exact hmark
  · split
    · exact forget_unfetched ..
    · rfl

theorem translate_unfetched (core : Nat) (acc : Acc) (va : Word) : (s.translate core acc va).1.unfetched = s.unfetched := by
  cases hva : canonical va with
  | false => simp only [State.translate, hva, Bool.not_false, ↓reduceIte]
  | true =>
    cases hhit : tlbFind (s.coreAt core).tlb va with
    | some x =>
      rw [translate_of_hit acc hva hhit]
      exact through_unfetched hreds ..
    | none =>
      have hwalk := walk_unfetched s (domeOf core) va
      cases hr : s.walk (domeOf core) va with
      | mk s1 r =>
        rw [hr] at hwalk
        cases r with
        | error e =>
          obtain ⟨c, wk⟩ := e
          rw [translate_of_walk_error acc hva hhit hr]
          exact hwalk
        | ok lf =>
          rw [translate_of_walk acc hva hhit hr]
          exact (through_unfetched ((reds_of_unfetched hwalk).trans hreds) ..).trans hwalk

theorem translateRun_unfetched (core : Nat) (acc : Acc) (va : Word) (n : Nat) :
    (s.translateRun core acc va n).1.unfetched = s.unfetched := by
  have hfirst := translate_unfetched hreds core acc va
  unfold State.translateRun
  split
  · next s1 e h => rw [h] at hfirst; exact hfirst
  · next s1 e b h =>
    rw [h] at hfirst
    dsimp only
    split
    · exact (unfetched_of_offHome (gate_offHome ..)).trans hfirst
    · have hnext := translate_unfetched ((reds_of_unfetched hfirst).trans hreds) core acc
        (va + BitVec.ofNat 64 (2 ^ 16 - va.toNat % 2 ^ 16))
      split
      · next s2 e2 h2 => rw [h2] at hnext; exact hnext.trans hfirst
      · next s2 e2 b2 h2 =>
        rw [h2] at hnext
        exact (unfetched_of_offHome (gate_offHome ..)).trans (hnext.trans hfirst)

end settledReds

/-! ## The words of a WAIT's threads (R116, R228) -/

/-- The access of one thread of a WAIT to its word. -/
def State.probe (k : Nat) (h : Hint) (b : Nat → Word) (acc : State × List (Nat × Except MemErr Nat)) (t : Nat) :
    State × List (Nat × Except MemErr Nat) :=
  if (b t).toNat % 8 ≠ 0 then (acc.1, acc.2 ++ [(t, .error (.trap tMISALIGN (b t)))])
  else
    match acc.1.translateRun (keyCore k) .read (b t) 8 with
    | (s1, .error e) => (s1, acc.2 ++ [(t, .error e)])
    | (s1, .ok keys) =>
      let a := keys.headD 0
      let s1 := (s1.askPeers (keyCore k) keys false).applyReds (a / 64)
      if s1.lineBad a || s1.peerFailed keys then (s1, acc.2 ++ [(t, .error (.uce (b t)))])
      else ((s1.touchHome (keyCore k) (b t) h keys).lastUse (keyCore k) h keys, acc.2 ++ [(t, .ok a)])

theorem peerFailed_of_none {s : State} {keys : List Nat} (h : ∀ k ∈ keys, peerKey k = false) : s.peerFailed keys = false :=
  List.any_eq_false.mpr fun k hk => by simp [h k hk]

/-- The words of threads that translate are found, and nothing changes but memory's copies. -/
theorem probes_of_probed {k : Nat} {h : Hint} {b : Nat → Word} {key : Nat → Nat} {s1 : State} (ts : List Nat) :
    ∀ (s : State) (l : List (Nat × Except MemErr Nat)), s.reds = [] → (∀ t ∈ ts, (b t).toNat % 8 = 0) →
      Claim.probed (keyCore k) h b key s ts s1 →
      ts.foldl (State.probe k h b) (s, l) = (s1, l ++ ts.map (fun t => (t, .ok (key t)))) ∧ s1.unfetched = s.unfetched := by
  induction ts with
  | nil =>
    rintro s l - - rfl
    exact ⟨by simp, rfl⟩
  | cons t ts ih =>
    rintro s l hreds halign ⟨s2, keys, hrun, hkey, hnear, hsound, hrest⟩
    have hframe := translateRun_unfetched hreds (keyCore k) .read (b t) 8
    rw [hrun] at hframe
    have hreds2 : s2.reds = [] := (reds_of_unfetched hframe).trans hreds
    have hstep : State.probe k h b (s, l) t =
        ((s2.touchHome (keyCore k) (b t) h keys).lastUse (keyCore k) h keys, l ++ [(t, .ok (key t))]) := by
      simp only [State.probe, halign t (List.mem_cons_self ..), ne_eq, not_true_eq_false, ↓reduceIte, hrun,
        askPeers_of_none hnear, applyReds_of_no_reds hreds2, hkey, hsound, peerFailed_of_none hnear, Bool.or_self,
        Bool.false_eq_true]
    have hafter : ((s2.touchHome (keyCore k) (b t) h keys).lastUse (keyCore k) h keys).unfetched = s.unfetched :=
      (unfetched_of_coreless (lastUse_coreless ..)).trans
        ((unfetched_of_unnoted (touchHome_unnoted ..)).trans hframe)
    obtain ⟨hfold, hun⟩ := ih _ (l ++ [(t, .ok (key t))]) ((reds_of_unfetched hafter).trans hreds)
      (fun u hu => halign u (List.mem_cons_of_mem _ hu)) hrest
    refine ⟨?_, hun.trans hafter⟩
    rw [List.foldl_cons, hstep, hfold]
    simp

/-! ## Registering (R125, R229, Table 8.8) -/

theorem evaluate_keeps (y : Wait) (a : Nat) (v : Word) : y.evaluate a v = { y with
    sat := (y.evaluate a v).sat, ents := (y.evaluate a v).ents, result := (y.evaluate a v).result } := by
  by_cases h : y.hitBy a v = 0
  · rw [evaluate_of_none h]
  · rw [evaluate_of_some h]
    split <;> rfl

/-- A WAIT with one entry more, as its registration evaluates it. -/
def Wait.withEnt (x : Wait) (slice a : Nat) (M : Mask) : Wait :=
  { x with ents := x.ents ++ [{ slice := slice, addr := a, threads := M, spilled := false }] }

/-- The evaluation that a registration makes. -/
def State.firstLook (s : State) (x : Wait) (a : Nat) (M : Mask) : Wait :=
  (x.withEnt (s.homeSlice a) a M).evaluate a (s.homeWord a)

section registerEnt
variable {s : State} {x : Wait} (hres : x.result = none) (hents : x.ents = []) (a : Nat) (M : Mask)
include hres

theorem registerEnt_eq : s.registerEnt x a M =
    match (s.firstLook x a M).result with
    | some _ => s.firstLook x a M
    | none =>
      if (s.firstLook x a M).ents.length = x.ents.length then s.firstLook x a M
      else if s.lantern (s.homeSlice a) false + (x.ents.filter (fun e => e.slice = s.homeSlice a && !e.spilled)).length < 4096
        then s.firstLook x a M
      else if s.lantern (s.homeSlice a) true + (x.ents.filter (fun e => e.slice = s.homeSlice a && e.spilled)).length < 65536
        then { s.firstLook x a M with ents := (s.firstLook x a M).ents.map (fun e =>
          if e.addr = a && e.threads = M then { e with spilled := true } else e) }
      else { s.firstLook x a M with ents := [], result := some 2 } := by
  unfold State.registerEnt
  split
  · next h => rw [hres] at h; cases h
  · rfl

/-- A registration that decides the WAIT at once. -/
theorem registerEnt_of_decided {code : Nat} (h : (s.firstLook x a M).result = some code) :
    s.registerEnt x a M = s.firstLook x a M := by
  rw [registerEnt_eq hres]
  simp only [h]

include hents

/-- A registration whose entry is freed at once. -/
theorem registerEnt_of_freed (h : (s.firstLook x a M).ents = []) : s.registerEnt x a M = s.firstLook x a M := by
  rw [registerEnt_eq hres]
  split
  · rfl
  · rw [if_pos (by rw [h, hents])]

/-- A registration that no condition meets, in a slice with room. -/
theorem registerEnt_of_room (h : (x.withEnt (s.homeSlice a) a M).hitBy a (s.homeWord a) = 0)
    (hroom : s.lantern (s.homeSlice a) false < 4096) : s.registerEnt x a M = x.withEnt (s.homeSlice a) a M := by
  have he : s.firstLook x a M = x.withEnt (s.homeSlice a) a M := evaluate_of_none h
  rw [registerEnt_eq hres, he]
  split
  · rfl
  · rw [if_neg (by simp [Wait.withEnt]), if_pos (by simpa [hents] using hroom)]

end registerEnt

/-- A thread's bit. -/
theorem has_bit {t : Nat} (ht : t < 32) (u : Nat) : Mask.has (BitVec.ofNat 32 (2 ^ t)) u = decide (u = t) := by
  rw [Mask.has, BitVec.getLsbD_ofNat, Nat.testBit_two_pow]
  by_cases hu : u = t
  · subst hu
    simp [ht]
  · simp [hu, Ne.symm hu]

/-- Under `.all` a thread whose condition holds when its own entry is registered is satisfied, and the entry freed. -/
theorem registerEnt_thread {s : State} {x : Wait} (hany : x.any = false) (hres : x.result = none) (hents : x.ents = [])
    {t : Nat} {M : Mask} (hM : ∀ u, M.has u = decide (u = t)) (hsat : x.sat.has t = false) {a : Nat}
    (hcond : condHolds x.cond x.sgn (s.homeWord a) (x.vals.getD t 0) = true) :
    s.registerEnt x a M = { x with sat := x.sat ||| M, result := if x.T &&& ~~~ (x.sat ||| M) = 0 then some 0 else none } := by
  have hhit : (x.withEnt (s.homeSlice a) a M).hitBy a (s.homeWord a) = M := by
    refine mask_ext fun u _ => ?_
    rw [has_hitBy (e := { slice := s.homeSlice a, addr := a, threads := M, spilled := false })
      (by simp [Wait.withEnt, hents]) rfl]
    show (!x.sat.has u && (M.has u && condHolds x.cond x.sgn (s.homeWord a) (x.vals.getD u 0))) = M.has u
    rw [hM]
    by_cases hu : u = t
    · rw [hu, hsat, hcond, decide_eq_true rfl]
      rfl
    · rw [decide_eq_false hu, Bool.false_and, Bool.and_false]
  have hne : M ≠ 0 := mask_ne_zero_iff.mpr ⟨t, by rw [hM, decide_eq_true rfl]⟩
  have hcovered : M &&& ~~~ (x.sat ||| M) = 0 := mask_subset_iff.mpr fun u hu => by rw [mask_has_or, hu, Bool.or_true]
  have heval := evaluate_of_some (y := x.withEnt (s.homeSlice a) a M) (a := a) (v := s.homeWord a) (by rw [hhit]; exact hne)
  rw [hhit] at heval
  have hfinal : s.firstLook x a M = { x with
      sat := x.sat ||| M, result := if x.T &&& ~~~ (x.sat ||| M) = 0 then some 0 else none } := by
    rw [State.firstLook, heval]
    simp [Wait.withEnt, hany, hres, hents, hcovered]
  rw [registerEnt_of_freed hres hents a _ (by rw [hfinal, hents]), hfinal]

/-- Under `.all` threads whose conditions hold, each at its own word, decide MET with the last of them. -/
theorem registerThreads_met {s : State} {key : Nat → Nat} (ts : List Nat) : ∀ x : Wait, x.any = false → x.result = none →
    x.ents = [] → ts ≠ [] → ts.Nodup → (∀ t ∈ ts, t < 32 ∧ x.T.has t = true ∧ x.sat.has t = false ∧
      condHolds x.cond x.sgn (s.homeWord (key t)) (x.vals.getD t 0) = true) →
    (∀ t, x.T.has t = true → x.sat.has t = true ∨ t ∈ ts) →
    ∃ sat, (ts.map (fun t => (t, key t))).foldl (fun acc e => s.registerEnt acc e.2 (BitVec.ofNat 32 (2 ^ e.1))) x =
      { x with sat := sat, result := some 0 } ∧ ∀ t, x.T.has t = true → sat.has t = true := by
  induction ts with
  | nil => exact fun x _ _ _ h => absurd rfl h
  | cons t ts ih =>
    intro x hany hres hents _ hnodup hts hcover
    obtain ⟨ht, hT, hsat, hcond⟩ := hts t (List.mem_cons_self ..)
    obtain ⟨hnot, hnodup'⟩ := List.nodup_cons.mp hnodup
    have hreg := registerEnt_thread hany hres hents (has_bit ht) hsat hcond
    rw [List.map_cons, List.foldl_cons, hreg]
    have hhas : ∀ u, (x.sat ||| BitVec.ofNat 32 (2 ^ t) : Mask).has u = (x.sat.has u || decide (u = t)) := fun u => by
      rw [mask_has_or, has_bit ht]
    cases ts with
    | nil =>
      have hall : ∀ u, x.T.has u = true → (x.sat ||| BitVec.ofNat 32 (2 ^ t) : Mask).has u = true := fun u hu => by
        rw [hhas]
        rcases hcover u hu with h | h
        · rw [h, Bool.true_or]
        · simp [List.mem_singleton.mp h]
      exact ⟨_, by rw [List.map_nil, List.foldl_nil, if_pos (mask_subset_iff.mpr hall)], hall⟩
    | cons t' ts =>
      have hopen : ¬ x.T &&& ~~~ (x.sat ||| BitVec.ofNat 32 (2 ^ t)) = 0 := fun h => by
        obtain ⟨-, hT', hsat', -⟩ := hts t' (by simp)
        have hin := mask_subset_iff.mp h t' hT'
        rw [hhas, hsat', Bool.false_or, decide_eq_true_eq] at hin
        exact hnot (hin ▸ List.mem_cons_self ..)
      rw [if_neg hopen]
      refine (ih { x with sat := x.sat ||| BitVec.ofNat 32 (2 ^ t), result := none } hany rfl hents (by simp) hnodup'
        (fun u hu => ?_) fun u hu => ?_)
      · obtain ⟨hu32, huT, husat, hucond⟩ := hts u (List.mem_cons_of_mem _ hu)
        refine ⟨hu32, huT, ?_, hucond⟩
        dsimp only
        rw [hhas, husat, Bool.false_or, decide_eq_false_iff_not]
        rintro rfl
        exact hnot hu
      · dsimp only
        rw [hhas]
        rcases hcover u hu with h | h
        · exact .inl (by rw [h, Bool.true_or])
        · rcases List.mem_cons.mp h with rfl | h
          · exact .inl (by simp)
          · exact .inr h

/-- Threads of one word whose condition holds for all of them, or under `.any` for one, decide MET. -/
theorem registerWord_met {s : State} {x : Wait} (hres : x.result = none) (hents : x.ents = []) (hsat : x.sat = 0) (a : Nat)
    (hmet : (∃ t, x.T.has t = true ∧ condHolds x.cond x.sgn (s.homeWord a) (x.vals.getD t 0) = true) ∧
      (x.any = true ∨ ∀ t, x.T.has t = true → condHolds x.cond x.sgn (s.homeWord a) (x.vals.getD t 0) = true)) :
    ∃ sat, s.registerEnt x a x.T = { x with sat := sat, result := some 0 } ∧
      ∀ t, x.T.has t = true → sat.has t = condHolds x.cond x.sgn (s.homeWord a) (x.vals.getD t 0) := by
  obtain ⟨⟨t, hT, hcond⟩, hdecides⟩ := hmet
  have hone : (x.withEnt (s.homeSlice a) a x.T).ents =
      [{ slice := s.homeSlice a, addr := a, threads := x.T, spilled := false }] := by simp [Wait.withEnt, hents]
  have hhit : ∀ t, ((x.withEnt (s.homeSlice a) a x.T).hitBy a (s.homeWord a)).has t =
      (x.T.has t && condHolds x.cond x.sgn (s.homeWord a) (x.vals.getD t 0)) := fun t => by
    rw [has_hitBy hone rfl]
    show (!x.sat.has t && (x.T.has t && condHolds x.cond x.sgn (s.homeWord a) (x.vals.getD t 0))) = _
    rw [hsat, Mask.has_zero]
    rfl
  obtain ⟨hsats, hmet, -, hfree⟩ := evaluate_oneEntry (y := x.withEnt (s.homeSlice a) a x.T) (v := s.homeWord a) hres hone rfl rfl
  have hsat0 : (x.withEnt (s.homeSlice a) a x.T).sat = 0 := hsat
  simp only [hhit, hsat0, Mask.has_zero, Bool.false_or] at hsats hmet
  have hresult := hmet.mpr ⟨mask_ne_zero_iff.mpr ⟨t, by rw [hhit, hT, hcond]; rfl⟩,
    hdecides.imp_right fun hall t ht => by
      have ht' : x.T.has t = true := ht
      rw [ht', hall t ht']; rfl⟩
  refine ⟨_, ?_, fun t ht => (hsats t).trans (by rw [ht, Bool.true_and])⟩
  rw [registerEnt_of_decided hres a _ hresult, State.firstLook, evaluate_keeps, hfree hresult, hresult, ← hents]
  rfl

/-! ## The word (R228) -/

/-- The WAIT of a word whose threads all found their words, before its first entry. -/
def State.newWait (s : State) (k pid : Nat) (m : WMod) (pend : Pend) : Wait :=
  let tns := (pend.ops.gd (pend.todo.lowest.getD 0)).toNat % 2 ^ 32
  { id := s.nextUid, warp := k, split := pid, ctx := none, cond := m.cond, sgn := m.sgn, any := m.any, T := pend.todo,
    vals := pend.ops.c, sat := 0, ents := [], result := none,
    deadline := s.time.toNat + if tns = 0 then 2 ^ 32 else tns }

/-- The registrations of a WAIT: one entry for one word, else one for each thread. -/
def State.registerAll (s : State) (y : Wait) (good : List (Nat × Nat)) : Wait :=
  if (good.map Prod.snd).all (fun a => a = (good.map Prod.snd).headD 0) then s.registerEnt y ((good.map Prod.snd).headD 0) y.T
  else good.foldl (fun acc e => s.registerEnt acc e.2 (BitVec.ofNat 32 (2 ^ e.1))) y

/-- A state in which a number for a WAIT has been taken. -/
def State.numbered (s : State) : State := { s with nextUid := s.nextUid + 1 }

section waitIssue
variable {s s1 : State} {k pid : Nat} {x : Ctl} {m : WMod} {o : Slots} {pend : Pend} {key : Nat → Nat} {w : Warp} {p : Split}
  (hprobes : pend.todo.threads.foldl (State.probe k x.hint pend.ops.gb) (s, []) =
    (s1, pend.todo.threads.map (fun t => (t, .ok (key t)))))
  (hw : s1.warpAt k = some w) (hp : w.splitAt pid = some p) (hT : pend.todo ≠ 0)
include hprobes hw hp hT

theorem waitIssue_eq : s.waitIssue k pid x m o pend =
    (let y := s1.numbered.registerAll (s1.newWait k pid m pend) (pend.todo.threads.map (fun t => (t, key t)))
     let s3 := (y.ents.filter (·.spilled)).foldl (fun (st : State) e =>
       st.count .slice e.slice 0x110 none (s.prioAt k) none) s1.numbered
     match y.result with
     | some code => s3.waitDone k pid x m o pend y code
     | none => ({ s3 with waits := s3.waits ++ [y] }).putWarp k (w.putSplit { p with stop := some (.wait s1.nextUid pend) })) := by
  have hgood : Mask.ofPred (fun t => (pend.todo.threads.map (fun t => (t, key t))).any (fun e => e.1 = t)) = pend.todo :=
    ofPred_has fun i _ => by
      rw [Bool.eq_iff_iff, List.any_eq_true]
      simp only [List.mem_map, decide_eq_true_eq]
      constructor
      · rintro ⟨e, ⟨t, ht, rfl⟩, rfl⟩
        exact (Mask.mem_threads pend.todo t).mp ht
      · exact fun h => ⟨_, ⟨i, (Mask.mem_threads pend.todo i).mpr h, rfl⟩, rfl⟩
  have hpend : ({ pend with held := pend.held ++ [] } : Pend) = pend := by rw [List.append_nil]
  have hok : ∀ ts : List Nat, ts.filterMap (fun t => some (t, key t)) = ts.map (fun t => (t, key t)) := fun ts =>
    congrFun (List.filterMap_eq_map (f := fun t => (t, key t))) ts
  have hnone : ∀ {β : Type} (ts : List Nat), ts.filterMap (fun _ => (none : Option β)) = [] := fun ts =>
    List.filterMap_eq_nil_iff.mpr fun _ _ => rfl
  unfold State.waitIssue
  dsimp only
  generalize hr : List.foldl _ (s, ([] : List (Nat × Except MemErr Nat))) pend.todo.threads = r
  obtain rfl : r = (s1, pend.todo.threads.map (fun t => (t, .ok (key t)))) := hr.symm.trans hprobes
  simp only [List.filterMap_map, Function.comp_def, hok, hnone, hw, hp, hgood, hT, ↓reduceIte, hpend, State.fresh]
  rfl

variable {y : Wait}
  (hreg : s1.numbered.registerAll (s1.newWait k pid m pend) (pend.todo.threads.map (fun t => (t, key t))) = y)
include hreg

theorem waitIssue_of_decided {code : Nat} (hres : y.result = some code) (hents : y.ents = []) :
    s.waitIssue k pid x m o pend = s1.numbered.waitDone k pid x m o pend y code := by
  rw [waitIssue_eq hprobes hw hp hT]
  simp only [hreg, hres, hents, List.filter_nil, List.foldl_nil]

theorem waitIssue_of_open (hres : y.result = none) (hspilled : y.ents.filter (·.spilled) = []) :
    s.waitIssue k pid x m o pend = ({ s1.numbered with waits := s1.waits ++ [y] }).putWarp k
      (w.putSplit { p with stop := some (.wait s1.nextUid pend) }) := by
  rw [waitIssue_eq hprobes hw hp hT]
  simp only [hreg, hres, hspilled, List.foldl_nil]
  rfl

end waitIssue

/-- Threads of one word register one entry. -/
theorem registerAll_word (s : State) (y : Wait) {key : Nat → Nat} {ts : List Nat} (hne : ts ≠ []) {a : Nat}
    (h : ∀ t ∈ ts, key t = a) : s.registerAll y (ts.map (fun t => (t, key t))) = s.registerEnt y a y.T := by
  have hkeys : (ts.map (fun t => (t, key t))).map Prod.snd = List.replicate ts.length a := by
    rw [List.map_map, List.eq_replicate_iff]
    refine ⟨by simp, fun b hb => ?_⟩
    obtain ⟨t, ht, rfl⟩ := List.mem_map.mp hb
    exact h t ht
  have hhead : (List.replicate ts.length a).headD 0 = a := by
    cases ts with
    | nil => exact absurd rfl hne
    | cons t ts => rfl
  rw [State.registerAll, hkeys, hhead, if_pos (by simp)]

/-- A WAIT whose condition holds when it is registered is decided MET. -/
theorem registerAll_met {s : State} {y : Wait} (hres : y.result = none) (hents : y.ents = []) (hsat : y.sat = 0) (hT : y.T ≠ 0)
    {key : Nat → Nat} {a : Nat} {holds : Nat → Bool}
    (hholds : ∀ t, holds t = condHolds y.cond y.sgn (s.homeWord (key t)) (y.vals.getD t 0))
    (hmet : (y.any = false ∧ ∀ t, y.T.has t = true → holds t = true) ∨
      (y.any = true ∧ (∀ t, y.T.has t = true → key t = a) ∧ ∃ t, y.T.has t = true ∧ holds t = true)) :
    ∃ sat, s.registerAll y (y.T.threads.map (fun t => (t, key t))) = { y with sat := sat, result := some 0 } ∧
      ∀ t, y.T.has t = true → sat.has t = (!y.any || holds t) := by
  have hne := Mask.threads_ne_nil y.T hT
  have hmem : ∀ t, t ∈ y.T.threads ↔ y.T.has t = true := Mask.mem_threads y.T
  by_cases hsame : ∃ b, ∀ t ∈ y.T.threads, key t = b
  · obtain ⟨b, hb⟩ := hsame
    have hword : ∀ t, y.T.has t = true → holds t = condHolds y.cond y.sgn (s.homeWord b) (y.vals.getD t 0) := fun t ht => by
      rw [hholds, hb t ((hmem t).mpr ht)]
    have hdecides : (∃ t, y.T.has t = true ∧ condHolds y.cond y.sgn (s.homeWord b) (y.vals.getD t 0) = true) ∧
        (y.any = true ∨ ∀ t, y.T.has t = true → condHolds y.cond y.sgn (s.homeWord b) (y.vals.getD t 0) = true) := by
      rcases hmet with ⟨-, hall⟩ | ⟨hany, -, t, ht, hh⟩
      · obtain ⟨t, ht⟩ := mask_ne_zero_iff.mp hT
        exact ⟨⟨t, ht, by rw [← hword t ht, hall t ht]⟩, .inr fun t ht => by rw [← hword t ht, hall t ht]⟩
      · exact ⟨⟨t, ht, by rw [← hword t ht, hh]⟩, .inl hany⟩
    obtain ⟨sat, hreg, hsats⟩ := registerWord_met hres hents hsat b hdecides
    refine ⟨sat, (registerAll_word s y hne hb).trans hreg, fun t ht => ?_⟩
    rw [hsats t ht, ← hword t ht]
    rcases hmet with ⟨hany, hall⟩ | ⟨hany, -⟩
    · rw [hany, hall t ht]
      rfl
    · rw [hany]
      rfl
  · rcases hmet with ⟨hany, hall⟩ | ⟨-, hkey, -⟩
    · have hno : ((y.T.threads.map (fun t => (t, key t))).map Prod.snd).all
          (fun b => b = ((y.T.threads.map (fun t => (t, key t))).map Prod.snd).headD 0) = false := by
        refine Bool.eq_false_iff.mpr fun h => hsame
          ⟨((y.T.threads.map (fun t => (t, key t))).map Prod.snd).headD 0, fun t ht => ?_⟩
        simpa using List.all_eq_true.mp h (key t) (List.mem_map.mpr ⟨(t, key t), List.mem_map.mpr ⟨t, ht, rfl⟩, rfl⟩)
      obtain ⟨sat, hfold, hsats⟩ := registerThreads_met (s := s) (key := key) y.T.threads y hany hres hents hne
        (Mask.nodup_threads y.T) (fun t ht => ⟨List.mem_range.mp (List.mem_filter.mp ht).1, (hmem t).mp ht, by rw [hsat, Mask.has_zero], by
          rw [← hholds, hall t ((hmem t).mp ht)]⟩) (fun t ht => .inr ((hmem t).mpr ht))
      refine ⟨sat, ?_, fun t ht => by rw [hsats t ht, hany]; rfl⟩
      rw [State.registerAll, hno, if_neg Bool.false_ne_true, hfold]
    · exact absurd ⟨a, fun t ht => hkey t ((hmem t).mp ht)⟩ hsame

theorem has_of_lowest {T : Mask} {t : Nat} (h : T.lowest = some t) : T.has t = true :=
  (Mask.mem_threads T t).mp (List.mem_of_head? h)

/-- What a destination holds of threads depends on their values only. -/
theorem holds_congr {w : Warp} {x : Spec} {T : Mask} {f g : Nat → Word} (h : ∀ t, T.has t = true → f t = g t) :
    Holds w x T f → Holds w x T g := by
  have hlow : ∀ t, T.lowest = some t → f t = g t := fun t ht => h t (has_of_lowest ht)
  unfold Holds
  split
  case h_11 => exact id
  all_goals
    intro hf t ht
    simpa [hlow, h, ht] using hf t ht

theorem regEffect_congr {w w' : Warp} {x : Spec} {T : Mask} {f g : Nat → Word} {fl : Nat → Flags} {rn : Nat → Word}
    (h : ∀ t, T.has t = true → f t = g t) (he : RegEffect w w' x T f fl rn) : RegEffect w w' x T g fl rn :=
  { he with dst := holds_congr h he.dst }

/-- The effect of a word on a warp whose port queues it has popped. -/
theorem regEffect_ports {w w' : Warp} {ports : List (Port × Word)} {x : Spec} {T : Mask} {f : Nat → Word} {fl : Nat → Flags}
    {rn : Nat → Word} (he : RegEffect { w with ports := ports } w' x T f fl rn) : RegEffect w w' x T f fl rn := by
  obtain ⟨hd, hs, hs', hr, hr', ⟨h1, h2, h3, h4, h5, h6, h7, h8, hrest⟩⟩ := he
  refine ⟨hd, hs, hs', hr, hr', h1, h2, h3, h4, h5, h6, h7, h8, ?_⟩
  exact (congrArg (fun z : Warp => { z with ports := w.ports }) hrest :)

theorem exec_wait (x : Ctl) (m : WMod) (o : Slots) (s : State) : exec (.wait x m o) s = execWait x m o s := rfl

section word
variable {s s1 : State} {c : WCtx} {w : Warp} {p : Split} {x : Ctl} {m : WMod} {o : Slots} {ports : List (Port × Word)}
  {pv : Pops} {key : Nat → Nat}

/-- What a WAIT issues: its threads, and its operands. -/
def waitPend (c : WCtx) (w : Warp) (p : Split) (x : Ctl) (m : WMod) (o : Slots) (pv : Pops) : Pend :=
  { i := .wait x m o, T := activeMask w p x, todo := activeMask w p x, ops := readOps c w {} o pv, held := [] }

variable (h : Ready s c w p x o [o.b, o.c, o.d] ports pv)
include h

theorem execWait_ready (hout : Claim.noTxn w (activeMask w p x)) : execWait x m o s =
    .next ((s.putWarp c.key { w with ports := ports }).waitIssue c.key p.id x m o (waitPend c w p x m o pv)) := by
  have hill : (s.putWarp c.key { w with ports := ports }).illegalOp c.key (activeMask w p x) = (_, activeMask w p x) :=
    illegalOp_none (warpAt_putWarp_same ..) hout
  unfold execWait
  rw [h.issuer]
  simp only [h.active, h.ports, h.sound, mask_and_not_zero, hill, ↓reduceIte]
  rfl

variable (hreds : s.reds = []) (halign : ∀ t, (activeMask w p x).has t = true → ((readOps c w {} o pv).gb t).toNat % 8 = 0)
  (hprobed : Claim.probed (keyCore c.key) x.hint (readOps c w {} o pv).gb key (s.putWarp c.key { w with ports := ports })
    (activeMask w p x).threads s1)
include hreds halign hprobed

omit h in
/-- After the probes the words are known, and besides memory's copies nothing has changed. -/
theorem wait_probes : (activeMask w p x).threads.foldl (State.probe c.key x.hint (readOps c w {} o pv).gb)
      (s.putWarp c.key { w with ports := ports }, []) =
        (s1, (activeMask w p x).threads.map (fun t => (t, .ok (key t)))) ∧
    s1.unfetched = (s.putWarp c.key { w with ports := ports }).unfetched := by
  have hput : (s.putWarp c.key { w with ports := ports }).reds = [] := hreds
  exact probes_of_probed _ _ [] hput (fun t ht => halign t ((Mask.mem_threads _ t).mp ht)) hprobed

theorem wait_met (hout : Claim.noTxn w (activeMask w p x)) {a : Nat} {holds : Nat → Bool}
    (hholds : ∀ t, holds t = condHolds m.cond m.sgn (s1.homeWord (key t)) ((readOps c w {} o pv).gc t))
    (hmet : (m.any = false ∧ ∀ t, (activeMask w p x).has t = true → holds t = true) ∨
      (m.any = true ∧ (∀ t, (activeMask w p x).has t = true → key t = a) ∧
        ∃ t, (activeMask w p x).has t = true ∧ holds t = true))
    (hd : dstOk c w (activeMask w p x) o.a (fun t => if !m.any || holds t then 256 else 0)) :
    ∃ w', execWait x m o s = .next ((s1.numbered.afterWait c.key m w' s1.nextUid).seqAct c.key p.id x.seq) ∧ w'.ports = ports ∧
      RegEffect w w' o.a (activeMask w p x) (fun t => if !m.any || holds t then 256 else 0) (fun _ => 0) w.rndOf := by
  obtain ⟨hprobes, hun⟩ := wait_probes hreds halign hprobed
  obtain ⟨-, hsplit, -, -, -, -, -, hlo, hhi, -⟩ := context_spec h.issuer
  have hw1 : s1.warpAt c.key = some { w with ports := ports } :=
    (warpAt_of_unfetched hun _).trans (warpAt_putWarp_same ..)
  obtain ⟨sat, hreg, hsats⟩ := registerAll_met (s := s1.numbered)
    (y := s1.newWait c.key p.id m (waitPend c w p x m o pv)) rfl rfl rfl h.active (key := key) hholds hmet
  have hans : ∀ t, (activeMask w p x).has t = true →
      ({ s1.newWait c.key p.id m (waitPend c w p x m o pv) with sat := sat, result := some 0 } : Wait).answer 0 t =
        if !m.any || holds t then 256 else 0 := fun t ht => by
    have hs : sat.has t = (!m.any || holds t) := hsats t ht
    simp only [Wait.answer, hs]
    cases !m.any || holds t <;> rfl
  have hctl := ctl_of_unfetched hun
  obtain ⟨w', hdone, hports, heffect⟩ := waitDone_spec (s := s1.numbered) (k := c.key) (pid := p.id) (p := p) hw1 hsplit x m o
    (pend := waitPend c w p x m o pv) rfl
    { s1.newWait c.key p.id m (waitPend c w p x m o pv) with sat := sat, result := some 0 } 0 fun c' hlo' hhi' t ht => by
      rw [hans t (has_of_lowest ht), dstTrap_congr c c' w]
      · exact hd t ht
      · rw [hlo', hlo]
        simp only [State.stackLo, State.numbered, hctl]
        rfl
      · rw [hhi', hhi]
        simp only [State.stackHi, State.numbered, hctl]
        rfl
      · rfl
  refine ⟨w', ?_, hports, regEffect_congr hans (regEffect_ports heffect)⟩
  rw [execWait_ready h hout]
  exact congrArg _ ((waitIssue_of_decided (pend := waitPend c w p x m o pv) hprobes hw1 hsplit h.active hreg rfl rfl).trans hdone)

theorem wait_registers (hout : Claim.noTxn w (activeMask w p x)) {a : Nat}
    (hnone : ∀ t, (activeMask w p x).has t = true →
      key t = a ∧ condHolds m.cond m.sgn (s1.homeWord (key t)) ((readOps c w {} o pv).gc t) = false)
    (hroom : s1.lantern (s1.homeSlice a) false < 4096) :
    execWait x m o s = .next ({ s1.numbered with waits := s1.waits ++
        [(s1.newWait c.key p.id m (waitPend c w p x m o pv)).withEnt (s1.homeSlice a) a (activeMask w p x)] }.putWarp c.key
      ({ w with ports := ports }.putSplit { p with stop := some (.wait s1.nextUid (waitPend c w p x m o pv)) })) := by
  obtain ⟨hprobes, hun⟩ := wait_probes hreds halign hprobed
  obtain ⟨-, hsplit, -⟩ := context_spec h.issuer
  have hw1 : s1.warpAt c.key = some { w with ports := ports } :=
    (warpAt_of_unfetched hun _).trans (warpAt_putWarp_same ..)
  have hmem : ∀ t ∈ (activeMask w p x).threads, key t = a := fun t ht => (hnone t ((Mask.mem_threads _ t).mp ht)).1
  have hmiss : ((s1.newWait c.key p.id m (waitPend c w p x m o pv)).withEnt (s1.homeSlice a) a (activeMask w p x)).hitBy a
      (s1.homeWord a) = 0 := by
    refine mask_eq_zero_iff.mpr fun t => ?_
    rw [has_hitBy (e := { slice := s1.homeSlice a, addr := a, threads := activeMask w p x, spilled := false }) rfl rfl]
    cases ht : (activeMask w p x).has t with
    | false => rw [Bool.false_and, Bool.and_false]
    | true =>
      obtain ⟨hkey, hcond⟩ := hnone t ht
      rw [hkey] at hcond
      exact (congrArg (fun b => !Mask.has 0 t && (true && b)) hcond).trans (by simp)
  have hreg : s1.numbered.registerAll (s1.newWait c.key p.id m (waitPend c w p x m o pv))
      ((activeMask w p x).threads.map (fun t => (t, key t))) =
        (s1.newWait c.key p.id m (waitPend c w p x m o pv)).withEnt (s1.homeSlice a) a (activeMask w p x) :=
    (registerAll_word s1.numbered _ (Mask.threads_ne_nil _ h.active) hmem).trans
      (registerEnt_of_room (s := s1.numbered) rfl rfl a _ hmiss hroom)
  rw [execWait_ready h hout]
  exact congrArg _ (waitIssue_of_open (pend := waitPend c w p x m o pv) hprobes hw1 hsplit h.active hreg rfl rfl)

end word

/-- Settles O21: the words of the threads translate without changing anything but memory's copies; the first evaluation, one
step with each registration, decides MET, or leaves the one entry in its slice's table. -/
theorem waitsEndAtOnceOrRegister : Obligations.WaitsEndAtOnceOrRegister := by
  intro s s1 c w p x m o ports pv key h T v a hout hreds halign hprobed holds res
  refine ⟨fun hmet hd => ?_, fun hnone hroom => ?_⟩
  · obtain ⟨w', hexec, hports, heffect⟩ := wait_met h hreds halign hprobed hout (fun _ => rfl) hmet hd
    exact ⟨w', hexec, hports, heffect⟩
  · have htime : s1.time = s.time := (time_of_unfetched (wait_probes hreds halign hprobed).2).trans rfl
    refine ⟨_, _, wait_registers h hreds halign hprobed hout (fun t ht => hnone t ht) hroom, rfl, rfl, rfl, rfl, rfl, rfl, ?_⟩
    exact congrArg (fun z : Word => z.toNat + _) htime

end Sys2Proof.Machine
end

section
/-! PROOFS. A release that applies a reduction ends a hoisted load of its own warp, which a transaction's opening must keep. -/
namespace Sys2Proof.Machine

/-- A split that is not at the last word of its block goes on to the next word, and its warp keeps its hoisted loads. -/
theorem seqAct_within_hoist {s : State} {k pid : Nat} {w : Warp} {p : Split} (hw : s.warpAt k = some w)
    (hp : w.splitAt pid = some p) (hidx : p.idx < (Header.ofSlot p.hw).length.toNat) :
    ((s.seqAct k pid .seq).warpAt k).map (·.hoist) = some w.hoist := by
  simp only [State.seqAct, hw, hp, seqUce, ne_eq, not_true_eq_false, hidx, ↓reduceIte, warpAt_putWarp_same,
    Option.map_some, putSplit_hoist]

section
open Tests

/-- Core 0 holds byte 64 dirty, a reduction that core 0 made waits for the same line, and the warp holds a hoisted load of the
byte that the reduction changes. -/
def hoistedBehindReduction : State :=
  let s := only 1 (fun w => { w with hoist := [(0, some { width := 4, dst := 0, addrs := [(0, 64)], lines := [64] })] })
  { s.putCore 0 { s.coreAt 0 with dirty := [(64, some 5)] } with
    reds := [{ key := 0, t := 0, a := 64, aty := .i32, op := .add, c := 1 }] }

/-- The release of TXB publishes byte 64, which applies the reduction before it, and that ends the hoisted load. -/
theorem txb_ends_hoist : ((after (.txb bare regs) hoistedBehindReduction).warpAt
    (C hoistedBehindReduction).key).map (·.hoist) = some [] := by
  decide +kernel

/-- What the statement says of TXB has the warp keep its hoisted loads, where TXB is not the last word of its block. -/
theorem txb_keeps_hoist_of_claim (hclaim : Obligations.TransactionsOpenAbortAndReport) {s : State} {c : WCtx} {w : Warp}
    {p : Split} {o : Slots} {ports : List (Port × Word)} {pv : Pops} (h : Ready s c w p bare o [] ports pv)
    (hsplit : w.splitAt p.id = some p) (hidx : p.idx < (Header.ofSlot p.hw).length.toNat) :
    ((after (.txb bare o) s).warpAt c.key).map (·.hoist) = some w.hoist := by
  obtain ⟨⟨txn, hexec, -⟩, -⟩ := hclaim.1 s c w p bare o ports pv h
  rw [after, hexec]
  exact seqAct_within_hoist (w := { w with ports := ports, txn := txn }) (warpAt_putWarp_same ..) hsplit hidx

/-- The hoisted load stands when TXB issues, at the first of the three words of its block. -/
theorem hoistedBehindReduction_stands : (W hoistedBehindReduction).hoist ≠ [] ∧
    (W hoistedBehindReduction).splitAt (P hoistedBehindReduction).id = some (P hoistedBehindReduction) ∧
    (P hoistedBehindReduction).idx < (Header.ofSlot (P hoistedBehindReduction).hw).length.toNat := by
  decide +kernel

/-- Refutes O24: TXB's release at package scope publishes the core's dirty bytes, which waits for the reductions that the slice
has accepted on their line; a reduction of the same core ends the hoisted loads of its bytes (R116, R202), so the warp does not
keep its hoisted loads over TXB, as the statement says it does. -/
theorem not_transactionsOpenAbortAndReport : ¬ Obligations.TransactionsOpenAbortAndReport := by
  intro hclaim
  obtain ⟨hhoist, hsplit, hidx⟩ := hoistedBehindReduction_stands
  have hkept := txb_keeps_hoist_of_claim hclaim (o := regs) (ready_of hoistedBehindReduction _ _ _ (by decide +kernel))
    hsplit hidx
  exact hhoist (Option.some.inj (hkept.symm.trans txb_ends_hoist))
end

end Sys2Proof.Machine
end

section
/-! PROOFS. The commit of one transaction: what its validation reaches, its outcomes, and what a commit that succeeds stores
(R14, R116, R121, R122, R346). -/

namespace Sys2Proof.Machine

/-! ## The validation reaches the slices of the read set (R14, R116, R346) -/

theorem foldl_applyReds_of_no_reds (ls : List Nat) : ∀ {s : State}, s.reds = [] → ls.foldl State.applyReds s = s := by
  induction ls with
  | nil => exact fun _ => rfl
  | cons l ls ih =>
    intro s h
    rw [List.foldl_cons, applyReds_of_no_reds h]
    exact ih h

theorem atReadSet_of_no_reds {s : State} (h : s.reds = []) (core : Nat) (y : Txn) :
    s.atReadSet core y = (s.gate y.rkeys).askPeers core y.rkeys false := by
  rw [State.atReadSet, foldl_applyReds_of_no_reds _ h]

theorem atReadSet_unchanged {s : State} (hreds : s.reds = []) (hreset : s.power.inReset = []) (core : Nat) {y : Txn}
    (hpeer : ∀ e ∈ y.rset, peerKey (e.1 % 2 ^ 60) = false) : s.atReadSet core y = s := by
  rw [atReadSet_of_no_reds hreds, gate_of_no_reset hreset]
  refine askPeers_of_none (fun k hk => ?_) core false
  obtain ⟨e, he, rfl⟩ := List.mem_map.mp hk
  exact hpeer e he

theorem mem_wants_want (s : State) (x : Want) : x ∈ (s.want x).wants := by
  unfold State.want
  split
  · next h => simpa using h
  · simp

theorem mem_wants_of_mem {s : State} {x : Want} (h : x ∈ s.wants) (y : Want) : x ∈ (s.want y).wants := by
  unfold State.want
  split
  · exact h
  · exact List.mem_append_left _ h

/-- Each thing that is asked for in a run is wanted after it. -/
theorem mem_wants_foldl {α : Type} (f : α → Want) {x : Want} (l : List α) :
    ∀ s : State, (x ∈ s.wants ∨ ∃ a ∈ l, f a = x) → x ∈ (l.foldl (fun (t : State) a => t.want (f a)) s).wants := by
  induction l with
  | nil =>
    rintro s (h | ⟨a, ha, -⟩)
    · exact h
    · cases ha
  | cons b l ih =>
    rintro s (h | ⟨a, ha, rfl⟩)
    · exact ih _ (.inl (mem_wants_of_mem h _))
    · rcases List.mem_cons.mp ha with rfl | ha
      · exact ih _ (.inl (mem_wants_want ..))
      · exact ih _ (.inr ⟨a, ha, rfl⟩)

/-- A byte of a peer that has not answered is asked for. -/
theorem askPeers_asks {s : State} {keys : List Nat} {k : Nat} (core : Nat) (hk : k ∈ keys) (hpeer : peerKey k = true)
    (hnone : s.peerWord (k / 8 * 8) = none) :
    Want.peer (s.asker, 0) (k / 8 * 8) .read ∈ (s.askPeers core keys false).wants := by
  have hall : keys.all (fun k => !peerKey k) = false :=
    Bool.eq_false_iff.mpr fun h => by simpa [hpeer] using List.all_eq_true.mp h k hk
  simp only [State.askPeers, hall, Bool.false_eq_true, ↓reduceIte]
  refine mem_wants_foldl _ _ _ (.inr ⟨k / 8, ?_, by rw [Nat.mul_comm]⟩)
  rw [List.mem_filter, List.mem_eraseDups, List.mem_map]
  exact ⟨⟨k, List.mem_filter.mpr ⟨hk, by simp [hpeer]⟩, rfl⟩, by rw [Nat.mul_comm, hnone]; rfl⟩

theorem atReadSet_asks {s : State} (hreds : s.reds = []) (core : Nat) {y : Txn} {e : Nat × Byte} (he : e ∈ y.rset)
    (hpeer : peerKey (e.1 % 2 ^ 60) = true) (hnone : s.peerWord (e.1 % 2 ^ 60 / 8 * 8) = none) :
    Want.peer (s.asker, 0) (e.1 % 2 ^ 60 / 8 * 8) .read ∈ (s.atReadSet core y).wants := by
  rw [atReadSet_of_no_reds hreds]
  obtain ⟨ws, hg⟩ := gate_eq s y.rkeys
  rw [hg]
  exact askPeers_asks (s := { s with wants := ws }) core (List.mem_map.mpr ⟨e, he, rfl⟩) hpeer hnone

/-! ## Outcomes (R121, R122, R233) -/

section outcomes
variable {s : State} {k : Nat} {y : Txn}

theorem commit_of_ended (t : Nat) (h : y.code ≠ 0) : s.commit k t y = (s, y.code) := by
  simp only [State.commit, h, ne_eq, not_false_eq_true, ↓reduceIte]

variable (hcode : y.code = 0)
include hcode

theorem commit_of_peerFailed (t : Nat) (h : (s.atReadSet (keyCore k) y).peerFailed y.rkeys = true) :
    s.commit k t y = (s.atReadSet (keyCore k) y, 5) := by
  simp only [State.commit, hcode, h, ne_eq, not_true_eq_false, ↓reduceIte]

variable {t : Nat} (hpeer : (s.atReadSet (keyCore k) y).peerFailed y.rkeys = false)
include hpeer

theorem commit_of_lost (h : (!(s.atReadSet (keyCore k) y).validates y || (s.atReadSet (keyCore k) y).olderMeets k t y) = true) :
    s.commit k t y = (s.atReadSet (keyCore k) y, 2) := by
  simp only [State.commit, hcode, hpeer, h, ne_eq, not_true_eq_false, Bool.false_eq_true, ↓reduceIte]

end outcomes

theorem validates_iff {s : State} {y : Txn} : s.validates y = true ↔ ∀ e ∈ y.rset, s.homeByte (e.1 % 2 ^ 60) = e.2 := by
  simp [State.validates]

/-! ## The commits that a commit goes before lose to it (R122) -/

/-- A table whose entries are changed key by key. -/
theorem get_map_entries {α : Type} {f : Nat × Option α → Nat × Option α} {g : Nat → α → α}
    (hf : ∀ k v, f (k, v) = (k, v.map (g k))) (t : Nat) :
    ∀ l : Sparse (Option α), Sparse.get none (l.map f) t = (Sparse.get none l t).map (g t)
  | [] => rfl
  | (j, v) :: l => by
    rw [List.map_cons, hf, Sparse.get_cons, Sparse.get_cons, get_map_entries hf t l]
    split
    · next h => rw [h]
    · rfl

/-- A transaction after the aborts of some of its warp's threads (Table 8.7). -/
def Txn.aborted (m : Mask) (code t : Nat) (x : Txn) : Txn :=
  if m.has t && x.isOpen && x.code = 0 then { x with code := code, wset := [], rset := [] } else x

theorem get_abortTxns (w : Warp) (m : Mask) (code t : Nat) :
    Sparse.get none (w.abortTxns m code).txn t = (Sparse.get none w.txn t).map (Txn.aborted m code t) := by
  refine get_map_entries (fun k v => ?_) t w.txn
  cases v with
  | none => rfl
  | some x =>
    simp only [Option.map_some, Txn.aborted]
    split <;> rfl

theorem openTxn_eq (w : Warp) (t : Nat) : w.openTxn t = (Sparse.get none w.txn t).filter (·.isOpen) := by
  unfold Warp.openTxn
  cases Sparse.get none w.txn t with
  | none => rfl
  | some x => cases h : x.isOpen <;> simp [Option.filter, h]

theorem openTxn_isOpen {w : Warp} {t : Nat} {x : Txn} (h : w.openTxn t = some x) : x.isOpen = true := by
  rw [openTxn_eq] at h
  exact (Option.filter_eq_some_iff.mp h).2

theorem openTxn_abortTxns (w : Warp) (m : Mask) (code t : Nat) :
    (w.abortTxns m code).openTxn t = (w.openTxn t).map (Txn.aborted m code t) := by
  rw [openTxn_eq, openTxn_eq, get_abortTxns]
  cases Sparse.get none w.txn t with
  | none => rfl
  | some x =>
    have hopen : (Txn.aborted m code t x).isOpen = x.isOpen := by unfold Txn.aborted; split <;> rfl
    cases hx : x.isOpen <;> simp [Option.filter, hx, hopen]

/-- Of a thread no transaction is open that may still commit. -/
def Warp.lost (w : Warp) (t : Nat) : Prop := ∀ x, w.openTxn t = some x → x.code ≠ 0

theorem lost_abortTxns {w : Warp} {t : Nat} {m : Mask} {code : Nat} (hcode : code ≠ 0) (h : m.has t = true ∨ w.lost t) :
    (w.abortTxns m code).lost t := by
  intro x hx
  rw [openTxn_abortTxns] at hx
  obtain ⟨z, hz, rfl⟩ := Option.map_eq_some_iff.mp hx
  unfold Txn.aborted
  split
  · exact hcode
  · next hne =>
    rcases h with h | h
    · intro h0
      simp [h, openTxn_isOpen hz, h0] at hne
    · exact h z hz

theorem abortTxn_eq (s : State) (k t code : Nat) : ∃ ws, s.abortTxn k t code = { s with warps := ws } := by
  unfold State.abortTxn
  split
  · exact ⟨s.warps, rfl⟩
  · exact ⟨_, rfl⟩

theorem warpAt_abortTxn_other (s : State) {k j : Nat} (t code : Nat) (h : j ≠ k) : (s.abortTxn k t code).warpAt j = s.warpAt j := by
  unfold State.abortTxn
  split
  · rfl
  · exact warpAt_putWarp_other _ _ _ _ h

theorem warpAt_abortTxn_same (s : State) (k t code : Nat) : (s.abortTxn k t code).warpAt k =
    (s.warpAt k).map (fun w => w.abortTxns (BitVec.ofNat 32 (2 ^ t)) code) := by
  unfold State.abortTxn
  cases h : s.warpAt k with
  | none => exact h
  | some w => exact warpAt_putWarp_same ..

theorem has_single {t : Nat} (h : t < 32) : Mask.has (BitVec.ofNat 32 (2 ^ t)) t = true := by
  rw [Mask.has, BitVec.getLsbD_ofNat, Nat.testBit_two_pow_self, decide_eq_true h, Bool.and_self]

/-- The transactions of a list abort as having met a commit that goes first. -/
def State.abortAll (s : State) (es : List (Nat × Nat × Txn)) : State := es.foldl (fun st e => st.abortTxn e.1 e.2.1 2) s

theorem abortAll_eq (es : List (Nat × Nat × Txn)) : ∀ s : State, ∃ ws, s.abortAll es = { s with warps := ws } := by
  induction es with
  | nil => exact fun s => ⟨s.warps, rfl⟩
  | cons e es ih =>
    intro s
    obtain ⟨ws, h⟩ := abortTxn_eq s e.1 e.2.1 2
    obtain ⟨ws', h'⟩ := ih (s.abortTxn e.1 e.2.1 2)
    exact ⟨ws', by rw [State.abortAll, List.foldl_cons, ← State.abortAll, h', h]⟩

theorem warpAt_abortAll_other {k : Nat} (es : List (Nat × Nat × Txn)) :
    ∀ s : State, (∀ e ∈ es, e.1 ≠ k) → (s.abortAll es).warpAt k = s.warpAt k := by
  induction es with
  | nil => exact fun _ _ => rfl
  | cons e es ih =>
    intro s h
    have hstep := warpAt_abortTxn_other s e.2.1 2 (h e (List.mem_cons_self ..)).symm
    exact (ih _ fun e' he => h e' (List.mem_cons_of_mem _ he)).trans hstep

/-- A thread whose transactions have all aborted, of a warp wherever it stands. -/
def State.lostAt (s : State) (k t : Nat) : Prop := ∀ w, s.warpAt k = some w → w.lost t

theorem lostAt_abortTxn {s : State} {k t : Nat} (e : Nat × Nat × Txn)
    (h : s.lostAt k t ∨ (e.1 = k ∧ e.2.1 = t ∧ t < 32)) : (s.abortTxn e.1 e.2.1 2).lostAt k t := by
  intro w hw
  by_cases hk : k = e.1
  · subst hk
    rw [warpAt_abortTxn_same] at hw
    obtain ⟨v, hv, rfl⟩ := Option.map_eq_some_iff.mp hw
    rcases h with h | ⟨-, rfl, ht⟩
    · exact lost_abortTxns (by decide) (.inr (h v hv))
    · exact lost_abortTxns (by decide) (.inl (has_single ht))
  · rw [warpAt_abortTxn_other s _ _ hk] at hw
    rcases h with h | ⟨rfl, -⟩
    · exact h w hw
    · exact absurd rfl hk

theorem lostAt_abortAll {k t : Nat} (ht : t < 32) (es : List (Nat × Nat × Txn)) :
    ∀ s : State, (s.lostAt k t ∨ ∃ e ∈ es, e.1 = k ∧ e.2.1 = t) → (s.abortAll es).lostAt k t := by
  induction es with
  | nil =>
    rintro s (h | ⟨e, he, -⟩)
    · exact h
    · cases he
  | cons e es ih =>
    rintro s (h | ⟨e', he, hk, ht'⟩)
    · exact ih _ (.inl (lostAt_abortTxn e (.inl h)))
    · rcases List.mem_cons.mp he with rfl | he
      · exact ih _ (.inl (lostAt_abortTxn e' (.inr ⟨hk, ht', ht⟩)))
      · exact ih _ (.inr ⟨e', he, hk, ht'⟩)

theorem meets_other {s : State} {k : Nat} {y : Txn} {e : Nat × Nat × Txn} (h : e ∈ s.meets k y) : e.1 ≠ k := by
  simp only [State.meets, List.mem_flatMap] at h
  obtain ⟨a, -, h⟩ := h
  split at h
  · cases h
  · obtain ⟨z, -, hz⟩ := List.mem_filterMap.mp h
    split at hz
    · cases hz
    · split at hz
      · next hc =>
        cases hz
        simp only [Bool.and_eq_true, decide_eq_true_eq] at hc
        exact hc.1.1.1.1
      · cases hz

/-! ## The write set is stored at home (R121) -/

/-- Near home a synchronising write of keys is a publication of them. -/
theorem syncWriteAt_near {keys : List Nat} (h : ∀ k ∈ keys, k < 2 ^ 42) (s : State) (bs : List Byte) :
    s.syncWriteAt keys bs = s.publishAt keys bs := by
  refine List.foldl_ext _ _ s fun t g hg => ?_
  obtain ⟨c, hc, rfl⟩ := List.mem_map.mp (List.mem_eraseDups.mp hg)
  have hfar : farKey (8 * (c.1 / 8)) = false := (farKey_group _).trans (farKey_of_lt (h _ (List.of_mem_zip hc).1))
  simp only [hfar, Bool.false_eq_true, ↓reduceIte]

/-- Memory after a run of groups near home: the bytes that no cell names stay. -/
theorem readMem_publishGroups_other {cells : List (Nat × Byte)} {a : Nat} (h : ∀ c ∈ cells, c.1 ≠ a) (gs : List Nat) :
    ∀ s : State, s.settled → (∀ g ∈ gs, farKey (8 * g) = false) →
      readMem (gs.foldl (State.publishGroup cells) s).mem a = readMem s.mem a := by
  induction gs with
  | nil => exact fun _ _ _ => rfl
  | cons g gs ih =>
    intro s hq hfar
    obtain ⟨b, ws, hg⟩ := publishGroup_near hq cells g (hfar g (List.mem_cons_self ..))
    have hstep : readMem (s.publishGroup cells g).mem a = readMem s.mem a := by
      rw [hg]
      exact readMem_written_other fun c hc => h c (List.mem_filter.mp hc).1
    exact (ih _ (publishGroup_settled hq cells g) fun g' hg' => hfar g' (List.mem_cons_of_mem _ hg')).trans hstep

section stores
variable {s : State} {cells : List (Nat × Byte)} (hnear : ∀ c ∈ cells, c.1 < 2 ^ 42)
include hnear

theorem syncWriteAt_cells : s.syncWriteAt (cells.map Prod.fst) (cells.map Prod.snd) =
    ((cells.map (fun c => c.1 / 8)).eraseDups).foldl (State.publishGroup cells) s := by
  rw [syncWriteAt_near (fun k hk => ?_), publishAt_eq, zip_fst_snd]
  obtain ⟨c, hc, rfl⟩ := List.mem_map.mp hk
  exact hnear c hc

variable (hq : s.settled)
include hq

theorem readMem_syncWriteAt_other {a : Nat} (h : ∀ c ∈ cells, c.1 ≠ a) :
    readMem (s.syncWriteAt (cells.map Prod.fst) (cells.map Prod.snd)).mem a = readMem s.mem a := by
  rw [syncWriteAt_cells hnear]
  refine readMem_publishGroups_other h _ s hq fun g hg => ?_
  obtain ⟨c, hc, rfl⟩ := List.mem_map.mp (List.mem_eraseDups.mp hg)
  exact (farKey_group _).trans (farKey_of_lt (hnear c hc))

theorem readMem_syncWriteAt_mem {c : Nat × Byte} (hc : c ∈ cells) (hu : ∀ d ∈ cells, d.1 = c.1 → d = c) :
    readMem (s.syncWriteAt (cells.map Prod.fst) (cells.map Prod.snd)).mem c.1 = c.2 := by
  have h := published_publishGroups_mem (key := c.1) (b := c.2) hc (fun d hd hk => congrArg Prod.snd (hu d hd hk))
    ((cells.map (fun c => c.1 / 8)).eraseDups) s hq (List.mem_eraseDups.mpr (List.mem_map.mpr ⟨c, hc, rfl⟩))
  rw [← syncWriteAt_cells hnear, State.published, farKey_of_lt (hnear c hc)] at h
  exact Option.some.inj h

end stores

/-! ## A commit that succeeds -/

/-- The state after a commit whose validation has succeeded. -/
def State.committed (z : State) (k : Nat) (y : Txn) : State :=
  ((z.abortAll (z.meets k y)).syncWriteAt (y.wset.map Prod.fst) (y.wset.map Prod.snd)).dropHoists (keyCore k)
    (fun h => (y.wset.map Prod.fst).any h.covers)

theorem commit_of_valid {s : State} {k t : Nat} {y : Txn} (hcode : y.code = 0)
    (hpeer : (s.atReadSet (keyCore k) y).peerFailed y.rkeys = false) (hvalid : (s.atReadSet (keyCore k) y).validates y = true)
    (hmeets : (s.atReadSet (keyCore k) y).olderMeets k t y = false) :
    s.commit k t y = ((s.atReadSet (keyCore k) y).committed k y, 0) := by
  simp only [State.commit, hcode, hpeer, hvalid, hmeets, ne_eq, not_true_eq_false, Bool.not_true, Bool.or_self,
    Bool.false_eq_true, ↓reduceIte]
  rfl

theorem committed_tables (z : State) (k : Nat) (y : Txn) : (z.committed k y).tables = (z.abortAll (z.meets k y)).tables :=
  (dropHoists_tables ..).trans (syncWriteAt_tables ..)

/-- The commits that a commit meets and goes before have aborted once it is done. -/
theorem committed_lostAt {z : State} {k : Nat} {y : Txn} {e : Nat × Nat × Txn} (he : e ∈ z.meets k y) (ht : e.2.1 < 32) :
    (z.committed k y).lostAt e.1 e.2.1 := by
  intro w hw
  obtain ⟨x, hx⟩ := warpAt_of_slots (slots_of_tables (committed_tables z k y)).symm hw
  have hlost := lostAt_abortAll ht _ z (.inr ⟨e, he, rfl, rfl⟩) _ hx
  exact hlost

section committed
variable {z : State} (hq : z.settled) (k : Nat) (y : Txn)
include hq

theorem abortAll_settled (es : List (Nat × Nat × Txn)) : (z.abortAll es).settled := by
  obtain ⟨ws, h⟩ := abortAll_eq es z
  rw [h]
  exact hq

theorem committed_cores : (z.committed k y).cores = z.cores := by
  obtain ⟨ws, h⟩ := abortAll_eq (z.meets k y) z
  have hoff := syncWriteAt_offHome (abortAll_settled hq (z.meets k y)).2 (y.wset.map Prod.fst) (y.wset.map Prod.snd)
  exact ((cores_of_offHome hoff).trans (congrArg State.cores h) : _)

variable (hnear : ∀ e ∈ y.wset, e.1 < 2 ^ 42)
include hnear

theorem readMem_committed_other {a : Nat} (h : ∀ e ∈ y.wset, e.1 ≠ a) : readMem (z.committed k y).mem a = readMem z.mem a := by
  obtain ⟨ws, hws⟩ := abortAll_eq (z.meets k y) z
  refine (readMem_syncWriteAt_other hnear (abortAll_settled hq _) h).trans ?_
  rw [hws]

theorem readMem_committed_mem {e : Nat × Byte} (he : e ∈ y.wset) (hu : ∀ e' ∈ y.wset, e'.1 = e.1 → e' = e) :
    readMem (z.committed k y).mem e.1 = e.2 :=
  readMem_syncWriteAt_mem hnear (abortAll_settled hq _) he hu

end committed

theorem commitsOfOneTransaction : Claim.CommitsOfOneTransaction := by
  intro s k t y z
  refine ⟨fun hreds hreset hpeer => atReadSet_unchanged hreds hreset _ hpeer,
    fun hreds e he hpeer hnone => atReadSet_asks hreds _ he hpeer hnone, fun h => commit_of_ended t h,
    fun hcode h => commit_of_peerFailed hcode t h, fun hcode hpeer => ⟨?_, ?_, ?_⟩⟩
  · rintro ⟨e, he, hne⟩
    refine commit_of_lost hcode hpeer ?_
    have hinvalid : z.validates y = false := Bool.eq_false_iff.mpr fun h => hne (validates_iff.mp h e he)
    rw [hinvalid]
    rfl
  · intro h
    refine commit_of_lost hcode hpeer ?_
    rw [h, Bool.or_true]
  · intro hvalid hmeets hwaits hreds hnear
    have hq : z.settled := ⟨hwaits, hreds⟩
    exact ⟨z.committed k y, commit_of_valid hcode hpeer (validates_iff.mpr hvalid) hmeets, committed_cores hq k y,
      fun a h => readMem_committed_other hq k y hnear h, fun e he hu => readMem_committed_mem hq k y hnear he hu,
      fun e he ht w u hw hu => committed_lostAt he ht w hw u hu⟩

end Sys2Proof.Machine
end

section
/-! PROOFS. TXC: the conflicts within its warp, and its threads' commits one after another (R121, R122, R233, R234). -/

namespace Sys2Proof.Machine

theorem theEarlierTransactionGoesFirst : Claim.TheEarlierTransactionGoesFirst := by
  intro s k t k' t' y y' w w' g g' hw hw' hg hg'
  simp only [State.goesFirst, hw, hw', hg, hg', Option.getD_some, decide_eq_true_eq, List.cons_lt_cons_iff, List.lt_irrefl,
    and_false, or_false, BitVec.toNat_inj]

/-! ## Conflicts within the warp (R122) -/

/-- A transaction's write set meets a set of another. -/
def Txn.clashes (y z : Txn) : Prop := ∃ l ∈ y.wlines, l ∈ z.rlines ∨ l ∈ z.wlines

theorem any_clashes {y : Txn} {kept : List Txn} :
    y.wlines.any (fun l => kept.any (fun z => z.lines.contains l)) = true ↔ ∃ z ∈ kept, y.clashes z := by
  simp only [List.any_eq_true, Txn.lines, List.contains_iff_mem, List.mem_append, Txn.clashes]
  exact ⟨fun ⟨l, hl, z, hz, h⟩ => ⟨z, hz, l, hl, h⟩, fun ⟨z, hz, l, hl, h⟩ => ⟨l, hl, z, hz, h⟩⟩

/-- A thread's transaction that may still commit. -/
def Warp.alive (w : Warp) (t : Nat) (y : Txn) : Prop := w.openTxn t = some y ∧ y.code = 0

theorem intraAborts_subset (w : Warp) (ts : List Nat) (kept : List Txn) : ∀ t ∈ intraAborts w ts kept, t ∈ ts := by
  fun_induction intraAborts w ts kept with
  | case1 => exact fun _ h => h
  | case2 _ _ _ _ ih => exact fun t h => List.mem_cons_of_mem _ (ih t h)
  | case3 _ _ _ _ _ _ ih => exact fun t h => List.mem_cons_of_mem _ (ih t h)
  | case4 t0 ts _ _ _ _ _ ih =>
    intro t h
    rcases List.mem_cons.mp h with rfl | h
    · exact List.mem_cons_self ..
    · exact List.mem_cons_of_mem _ (ih t h)
  | case5 _ _ _ _ _ _ _ ih => exact fun t h => List.mem_cons_of_mem _ (ih t h)

/-- What a thread's transaction loses to: one that is kept already, or that of a lower-numbered thread which is not lost. -/
def Warp.losesAmong (w : Warp) (ts lost : List Nat) (kept : List Txn) (t : Nat) (y : Txn) : Prop :=
  (∃ z ∈ kept, y.clashes z) ∨ ∃ u ∈ ts, u < t ∧ u ∉ lost ∧ ∃ z, w.alive u z ∧ y.clashes z

theorem losesAmong_cons (w : Warp) (t0 : Nat) (ts lost : List Nat) (kept : List Txn) (t : Nat) (y : Txn) :
    w.losesAmong (t0 :: ts) lost kept t y ↔
      w.losesAmong ts lost kept t y ∨ (t0 < t ∧ t0 ∉ lost ∧ ∃ z, w.alive t0 z ∧ y.clashes z) := by
  simp only [Warp.losesAmong, List.exists_mem_cons_iff]
  exact (or_congr_right or_comm).trans or_assoc.symm

/-- A thread that is itself lost, or that has no transaction which may commit, costs the others nothing. -/
theorem losesAmong_skip {w : Warp} {t0 : Nat} {ts lost : List Nat} {kept : List Txn} {t : Nat} {y : Txn}
    (h : t0 ∈ lost ∨ ∀ z, ¬ w.alive t0 z) :
    w.losesAmong (t0 :: ts) lost kept t y ↔ w.losesAmong ts lost kept t y := by
  rw [losesAmong_cons, or_iff_left]
  rintro ⟨-, hlost, z, hz, -⟩
  rcases h with h | h
  · exact hlost h
  · exact h z hz

/-- Only lower-numbered threads cost a thread its transaction. -/
theorem losesAmong_lost_cons {w : Warp} {t0 : Nat} {ts lost : List Nat} {kept : List Txn} {t : Nat} {y : Txn}
    (h : ∀ u ∈ ts, t0 < u) : w.losesAmong ts (t0 :: lost) kept t y ↔ w.losesAmong ts lost kept t y := by
  refine or_congr_right (exists_congr fun u => and_congr_right fun hu => and_congr_right fun _ => and_congr_left fun _ => ?_)
  rw [List.mem_cons, or_iff_right (h u hu).ne']

theorem not_losesAmong_of_lowest {w : Warp} {t0 : Nat} {ts lost : List Nat} {kept : List Txn} {y : Txn}
    (h : ∀ u ∈ ts, t0 < u) : w.losesAmong ts lost kept t0 y ↔ ∃ z ∈ kept, y.clashes z := by
  rw [Warp.losesAmong, or_iff_left]
  rintro ⟨u, hu, hlt, -⟩
  exact absurd (h u hu) (by omega)

/-- In ascending order the lost threads are those that lose to one which is not lost. -/
theorem mem_intraAborts (w : Warp) (ts : List Nat) (kept : List Txn) (hts : ts.Pairwise (· < ·)) (t : Nat) :
    t ∈ intraAborts w ts kept ↔
      t ∈ ts ∧ ∃ y, w.alive t y ∧ w.losesAmong ts (intraAborts w ts kept) kept t y := by
  have hskip {t0 : Nat} {ts lost : List Nat} {kept : List Txn} (hnone : ∀ z, ¬ w.alive t0 z) :
      (t ∈ t0 :: ts ∧ ∃ y, w.alive t y ∧ w.losesAmong (t0 :: ts) lost kept t y) ↔
        t ∈ ts ∧ ∃ y, w.alive t y ∧ w.losesAmong ts lost kept t y := by
    simp only [losesAmong_skip (.inr hnone), List.mem_cons]
    refine and_congr_left fun ⟨y, hy, _⟩ => or_iff_right ?_
    rintro rfl
    exact hnone y hy
  fun_induction intraAborts w ts kept with
  | case1 => simp
  | case2 t0 ts kept hopen ih =>
    exact (ih hts.of_cons).trans (hskip fun z hz => by cases hopen.symm.trans hz.1).symm
  | case3 t0 ts kept y hopen hcode ih =>
    refine (ih hts.of_cons).trans (hskip ?_).symm
    rintro z ⟨hz, hz0⟩
    cases hopen.symm.trans hz
    exact hcode hz0
  | case4 t0 ts kept y hopen hcode hclash ih =>
    have hlt : ∀ u ∈ ts, t0 < u := fun u => List.rel_of_pairwise_cons hts
    have halive : w.alive t0 y := ⟨hopen, not_not.mp hcode⟩
    simp only [losesAmong_skip (.inl (List.mem_cons_self ..)), losesAmong_lost_cons hlt]
    by_cases ht : t = t0
    · subst ht
      simp only [List.mem_cons_self, true_and, true_iff]
      exact ⟨y, halive, .inl (any_clashes.mp hclash)⟩
    · rw [List.mem_cons, List.mem_cons, or_iff_right ht, or_iff_right ht]
      exact ih hts.of_cons
  | case5 t0 ts kept y hopen hcode hclash ih =>
    have hlt : ∀ u ∈ ts, t0 < u := fun u => List.rel_of_pairwise_cons hts
    have halive : w.alive t0 y := ⟨hopen, not_not.mp hcode⟩
    have hkept : t0 ∉ intraAborts w ts (kept ++ [y]) := fun h => (hlt t0 (intraAborts_subset w ts _ t0 h)).ne rfl
    by_cases ht : t = t0
    · subst ht
      refine iff_of_false hkept ?_
      rintro ⟨-, z, hz, hloses⟩
      cases hopen.symm.trans hz.1
      rw [losesAmong_cons, not_losesAmong_of_lowest hlt] at hloses
      rcases hloses with h | h
      · exact hclash (any_clashes.mpr h)
      · exact h.1.ne rfl
    · rw [List.mem_cons, or_iff_right ht]
      refine (ih hts.of_cons).trans (and_congr_right fun hmem => exists_congr fun z => and_congr_right fun _ => ?_)
      rw [losesAmong_cons]
      have hy : (∃ x, w.alive t0 x ∧ z.clashes x) ↔ z.clashes y :=
        ⟨fun ⟨x, hx, h⟩ => by cases hopen.symm.trans hx.1; exact h, fun h => ⟨y, halive, h⟩⟩
      simp only [Warp.losesAmong, List.mem_append, List.mem_singleton, or_and_right, exists_or, exists_eq_left, hy, hkept,
        hlt t hmem, not_false_eq_true, true_and]
      exact or_right_comm

theorem threads_ascending (T : Mask) : T.threads.Pairwise (· < ·) := List.Pairwise.filter _ List.pairwise_lt_range

theorem lost_iff {w : Warp} {T : Mask} {t : Nat} : t ∈ intraAborts w T.threads [] ↔
    T.has t = true ∧ ∃ y, w.openTxn t = some y ∧ y.code = 0 ∧ ∃ u, u < t ∧ T.has u = true ∧
      ¬ u ∈ intraAborts w T.threads [] ∧ ∃ z, w.openTxn u = some z ∧ z.code = 0 ∧ ∃ l ∈ y.wlines, l ∈ z.rlines ∨ l ∈ z.wlines := by
  have hthreads : ∀ t, t ∈ T.threads ↔ T.has t = true := Mask.mem_threads T
  rw [mem_intraAborts w _ _ (threads_ascending T), hthreads]
  refine and_congr_right fun _ => exists_congr fun y => and_assoc.trans (and_congr_right fun _ => and_congr_right fun _ => ?_)
  simp only [Warp.losesAmong, List.not_mem_nil, false_and, exists_false, false_or, hthreads]
  refine exists_congr fun u => ?_
  rw [and_left_comm]
  exact and_congr_right fun _ => and_congr_right fun _ => and_congr_right fun _ => exists_congr fun z => and_assoc

/-! ## The commits set out (R122) -/

/-- The threads that lose to one of their own warp. -/
def Warp.lostMask (w : Warp) (T : Mask) : Mask := Mask.ofPred (fun t => (intraAborts w T.threads []).contains t)

/-- A warp whose commits have set out, but for those that lose to one of their own warp. -/
def Warp.setOut (w : Warp) (T : Mask) : Warp :=
  let w1 := w.abortTxns (w.lostMask T) 1
  { w1 with txn := w1.txn.map (fun e => (e.1, e.2.map (fun y =>
      if T.has e.1 && y.isOpen && y.code = 0 then { y with started := true } else y))) }

theorem startCommits_putWarp (s : State) (k : Nat) (w : Warp) (T : Mask) :
    (s.putWarp k w).startCommits k T = s.putWarp k (w.setOut T) := by
  simp only [State.startCommits, warpAt_putWarp_same, putWarp_putWarp]
  rfl

/-- A transaction as its commit sets out. -/
def Txn.setOut (T : Mask) (t : Nat) (y : Txn) : Txn :=
  if T.has t && y.isOpen && y.code = 0 then { y with started := true } else y

theorem setOut_isOpen (T : Mask) (t : Nat) (y : Txn) : (y.setOut T t).isOpen = y.isOpen := by
  unfold Txn.setOut
  split <;> rfl

section setOut
variable {w : Warp} {T : Mask} {t : Nat} {y : Txn}

theorem openTxn_setOut (w : Warp) (T : Mask) (t : Nat) : (w.setOut T).openTxn t =
    ((w.abortTxns (w.lostMask T) 1).openTxn t).map (Txn.setOut T t) := by
  rw [openTxn_eq, openTxn_eq]
  have hget : Sparse.get none (w.setOut T).txn t = (Sparse.get none _ t).map (Txn.setOut T t) :=
    get_map_entries (g := Txn.setOut T) (fun k v => rfl) t _
  rw [hget]
  cases Sparse.get none (w.abortTxns (w.lostMask T) 1).txn t with
  | none => rfl
  | some x => cases hx : x.isOpen <;> simp [Option.filter, hx, setOut_isOpen]

theorem has_lost : (w.lostMask T).has t = true ↔ t ∈ intraAborts w T.threads [] := by
  rw [Warp.lostMask, has_ofPred, Bool.and_eq_true, decide_eq_true_eq, List.contains_iff_mem, and_iff_right_iff_imp]
  intro h
  have hin := intraAborts_subset w _ _ t h
  exact List.mem_range.mp (List.mem_filter.mp hin).1

theorem openTxn_setOut_lost (hy : w.openTxn t = some y) (h : t ∈ intraAborts w T.threads []) :
    (w.setOut T).openTxn t = some { y with code := 1, rset := [], wset := [] } := by
  obtain ⟨-, z, ⟨hz, hcode⟩, -⟩ := (mem_intraAborts w _ _ (threads_ascending T) t).mp h
  cases hy.symm.trans hz
  rw [openTxn_setOut, openTxn_abortTxns, hy]
  simp [Txn.aborted, has_lost.mpr h, openTxn_isOpen hy, hcode, Txn.setOut]

theorem openTxn_setOut_kept (hy : w.openTxn t = some y) (h : t ∉ intraAborts w T.threads []) :
    (w.setOut T).openTxn t = some (y.setOut T t) := by
  rw [openTxn_setOut, openTxn_abortTxns, hy]
  simp [Txn.aborted, Bool.eq_false_iff.mpr (mt has_lost.mp h)]

end setOut

/-! ## One thread's commit -/

/-- Warps that differ in their hoisted loads and their transactions. -/
def Warp.alike (w w' : Warp) : Prop := w' = { w with hoist := w'.hoist, txn := w'.txn }

theorem alike_trans {w w' w'' : Warp} (h : w.alike w') (h' : w'.alike w'') : w.alike w'' := by
  unfold Warp.alike at *
  rw [h] at h'
  exact h'

@[simp] theorem atReadSet_tables (s : State) (core : Nat) (y : Txn) : (s.atReadSet core y).tables = s.tables := by
  unfold State.atReadSet
  rw [askPeers_tables, gate_tables]
  exact foldl_tables applyReds_tables _ s

theorem warpAt_committed {z : State} {k : Nat} {w : Warp} (hw : z.warpAt k = some w) (y : Txn) :
    ∃ x : Sparse (Option Hoist), (z.committed k y).warpAt k = some { w with hoist := x } :=
  warpAt_of_slots (slots_of_tables (committed_tables z k y)) ((warpAt_abortAll_other _ z fun _ he => meets_other he).trans hw)

/-- A commit leaves its own warp's transactions to TXC. -/
theorem warpAt_commit {s : State} {k : Nat} {w : Warp} (hw : s.warpAt k = some w) (t : Nat) (y : Txn) :
    ∃ x : Sparse (Option Hoist), (s.commit k t y).1.warpAt k = some { w with hoist := x } := by
  by_cases hcode : y.code = 0
  · obtain ⟨x, hx⟩ := warpAt_of_slots (slots_of_tables (atReadSet_tables s (keyCore k) y)) hw
    cases hpeer : (s.atReadSet (keyCore k) y).peerFailed y.rkeys with
    | true => exact ⟨x, by rw [commit_of_peerFailed hcode t hpeer]; exact hx⟩
    | false =>
      cases hlost : !(s.atReadSet (keyCore k) y).validates y || (s.atReadSet (keyCore k) y).olderMeets k t y with
      | true => exact ⟨x, by rw [commit_of_lost hcode hpeer hlost]; exact hx⟩
      | false =>
        obtain ⟨hvalid, hmeets⟩ := Bool.or_eq_false_iff.mp hlost
        rw [commit_of_valid hcode hpeer (by simpa using hvalid) hmeets]
        exact warpAt_committed hx y
  · exact ⟨w.hoist, by rw [commit_of_ended t hcode]; exact hw⟩

theorem openTxn_putTxn_closed (w : Warp) (t : Nat) {z : Txn} (h : z.isOpen = false) : (w.putTxn t z).openTxn t = none := by
  rw [openTxn_eq, Warp.putTxn, Sparse.get_put_same]
  simp [Option.filter, h]

theorem openTxn_putTxn_other (w : Warp) {t u : Nat} (z : Txn) (h : u ≠ t) : (w.putTxn t z).openTxn u = w.openTxn u := by
  rw [openTxn_eq, openTxn_eq, Warp.putTxn, Sparse.get_put_other _ _ _ _ _ h]

/-! ## The threads' commits one after another (R233) -/

/-- TXC's threads one after another from a state: the state they leave and their outcomes. -/
def State.txcRun (k : Nat) (s : State) (ts : List Nat) : State × List (Nat × Nat) := ts.foldl (State.txc1 k) (s, [])

theorem txc1_append (k : Nat) (s : State) (acc : List (Nat × Nat)) (t : Nat) :
    State.txc1 k (s, acc) t = ((State.txc1 k (s, []) t).1, acc ++ (State.txc1 k (s, []) t).2) := by
  unfold State.txc1
  dsimp only
  split
  · rfl
  · split <;> rfl

theorem txc1_foldl_append (k : Nat) (ts : List Nat) : ∀ (s : State) (acc : List (Nat × Nat)),
    ts.foldl (State.txc1 k) (s, acc) = ((s.txcRun k ts).1, acc ++ (s.txcRun k ts).2) := by
  induction ts with
  | nil => exact fun s acc => by simp [State.txcRun]
  | cons t ts ih =>
    intro s acc
    rw [State.txcRun, List.foldl_cons, List.foldl_cons, txc1_append, ih, ih _ (State.txc1 k (s, []) t).2, List.append_assoc]

theorem txcRun_cons {k : Nat} {s s' : State} {t c : Nat} (h : State.txc1 k (s, []) t = (s', [(t, c)])) (ts : List Nat) :
    s.txcRun k (t :: ts) = ((s'.txcRun k ts).1, (t, c) :: (s'.txcRun k ts).2) := by
  rw [State.txcRun, List.foldl_cons, h, txc1_foldl_append]
  rfl

/-- What one thread's TXC does to its warp, and that it is the next of the commits in turn. -/
structure Txc1Spec (k : Nat) (s : State) (w : Warp) (t : Nat) (s' : State) (c : Nat) (w1 : Warp) : Prop where
  eq : State.txc1 k (s, []) t = (s', [(t, c)])
  warp : s'.warpAt k = some w1
  alike : w.alike w1
  closed : w1.openTxn t = none
  others : ∀ u, u ≠ t → w1.openTxn u = w.openTxn u
  ended : ∀ y, w.openTxn t = some y → y.code ≠ 0 → c = y.code
  next : ∀ (code : Nat → Nat) (ts : List Nat) (s'' : State), code t = c → Claim.commits k code s' ts s'' →
    Claim.commits k code s (t :: ts) s''

theorem txc1_spec {k : Nat} {s : State} {w : Warp} (hw : s.warpAt k = some w) (t : Nat) :
    ∃ s' c w1, Txc1Spec k s w t s' c w1 := by
  cases ht : w.openTxn t with
  | none =>
    refine ⟨s, 0, w, ?_, hw, rfl, ht, fun _ _ => rfl, fun y h => (by cases ht.symm.trans h), fun code ts s'' hc h => ?_⟩
    · simp only [State.txc1, hw, Option.bind_some, ht, List.nil_append]
    · exact ⟨w, hw, fun _ => ⟨hc, h⟩, fun y hy => by cases ht.symm.trans hy⟩
  | some y =>
    obtain ⟨x, hx⟩ := warpAt_commit hw t y
    refine ⟨(s.commit k t y).1.putWarp k (({ w with hoist := x } : Warp).putTxn t (Claim.closed y (s.commit k t y).2)),
      (s.commit k t y).2, _, ?_, warpAt_putWarp_same .., rfl, openTxn_putTxn_closed _ _ rfl,
      fun u hu => openTxn_putTxn_other _ _ hu, fun z hz hcode => ?_, fun code ts s'' hc h => ?_⟩
    · simp only [State.txc1, hw, Option.bind_some, ht, hx, List.nil_append]
      rfl
    · cases ht.symm.trans hz
      rw [commit_of_ended t hcode]
    · refine ⟨w, hw, fun hn => (by cases ht.symm.trans hn), fun z hz => ?_⟩
      cases ht.symm.trans hz
      exact ⟨_, _, by rw [hc], hx, by rw [hc]; exact h⟩

/-- What a run of threads' TXC does to their warp, and that it is their commits in turn. -/
structure TxcRunSpec (k : Nat) (s : State) (w : Warp) (ts : List Nat) (w1 : Warp) : Prop where
  warp : (s.txcRun k ts).1.warpAt k = some w1
  alike : w.alike w1
  closed : ∀ t ∈ ts, w1.openTxn t = none
  others : ∀ t, t ∉ ts → w1.openTxn t = w.openTxn t
  keys : (s.txcRun k ts).2.map Prod.fst = ts
  ended : ∀ e ∈ (s.txcRun k ts).2, ∀ y, w.openTxn e.1 = some y → y.code ≠ 0 → e.2 = y.code
  commits : ∀ code : Nat → Nat, (∀ e ∈ (s.txcRun k ts).2, code e.1 = e.2) → Claim.commits k code s ts (s.txcRun k ts).1

theorem txcRun_spec (k : Nat) (ts : List Nat) (hts : ts.Nodup) : ∀ (s : State) (w : Warp), s.warpAt k = some w →
    ∃ w1, TxcRunSpec k s w ts w1 := by
  induction ts with
  | nil => exact fun s w hw => ⟨w, hw, rfl, nofun, fun _ _ => rfl, rfl, nofun, fun _ _ => rfl⟩
  | cons t ts ih =>
    intro s w hw
    obtain ⟨hnot, hts⟩ := List.nodup_cons.mp hts
    obtain ⟨s', c, w1, h1⟩ := txc1_spec hw t
    obtain ⟨w2, h2⟩ := ih hts s' w1 h1.warp
    have hrun := txcRun_cons h1.eq ts
    refine ⟨w2, ?_, alike_trans h1.alike h2.alike, fun u hu => ?_, fun u hu => ?_, ?_, fun e he y hy hcode => ?_,
      fun code hc => ?_⟩
    · rw [hrun]; exact h2.warp
    · rcases List.mem_cons.mp hu with rfl | hu
      · rw [h2.others _ hnot, h1.closed]
      · exact h2.closed u hu
    · obtain ⟨hne, hnin⟩ := not_or.mp (mt List.mem_cons.mpr hu)
      rw [h2.others u hnin, h1.others u hne]
    · rw [hrun, List.map_cons, h2.keys]
    · rw [hrun] at he
      rcases List.mem_cons.mp he with rfl | he
      · exact h1.ended y hy hcode
      · have hin : e.1 ∈ ts := h2.keys ▸ List.mem_map.mpr ⟨e, he, rfl⟩
        have hne : e.1 ≠ t := fun ht => hnot (ht ▸ hin)
        exact h2.ended e he y ((h1.others _ hne).trans hy) hcode
    · rw [hrun] at hc ⊢
      exact h1.next code ts _ (hc (t, c) (List.mem_cons_self ..))
        (h2.commits code fun e he => hc e (List.mem_cons_of_mem _ he))

/-- The outcome of a thread in a list of outcomes. -/
def outcomeOf (cs : List (Nat × Nat)) (t : Nat) : Nat :=
  match cs.find? (fun e => e.1 = t) with
  | some e => e.2
  | none => 0

theorem find?_of_mem_nodup {α : Type} {cs : List (Nat × α)} (h : (cs.map Prod.fst).Nodup) {e : Nat × α} (he : e ∈ cs) :
    cs.find? (fun x => x.1 = e.1) = some e := by
  induction cs with
  | nil => cases he
  | cons d cs ih =>
    obtain ⟨hnot, hcs⟩ := List.nodup_cons.mp h
    rcases List.mem_cons.mp he with rfl | he
    · simp
    · have hne : d.1 ≠ e.1 := fun hk => hnot (hk ▸ List.mem_map.mpr ⟨e, he, rfl⟩)
      rw [List.find?_cons, decide_eq_false hne]
      exact ih hcs he

theorem outcomeOf_mem {cs : List (Nat × Nat)} (h : (cs.map Prod.fst).Nodup) : ∀ e ∈ cs, outcomeOf cs e.1 = e.2 := by
  intro e he
  simp only [outcomeOf, find?_of_mem_nodup h he]

/-! ## TXC (R233, R234) -/

/-- A word that acts for its threads, whose guards are sound. -/
theorem threadWord_next {s : State} {c : WCtx} {w : Warp} {p : Split} {x : Ctl} {o : Slots} {srcs : List Spec}
    {ports : List (Port × Word)} {pv : Pops} (h : Ready s c w p x o srcs ports pv) (ty : OTys)
    (f : State → Nat → Split → Mask → Opnds → List Trap → State) :
    threadWord x ty srcs o f s =
      .next (f (s.putWarp c.key { w with ports := ports }) c.key p (activeMask w p x) (readOps c w ty o pv) []) := by
  unfold threadWord
  rw [h.issuer]
  simp only [h.active, h.ports, h.sound, mask_and_not_zero, uceTrap, ↓reduceIte]

/-- The state in which TXC's word ends, with its destination written. -/
theorem execTxc_of_run {s : State} {c : WCtx} {w : Warp} {p : Split} {x : Ctl} {o : Slots} {ports : List (Port × Word)}
    {pv : Pops} (h : Ready s c w p x o [] ports pv) {w1 : Warp}
    (hrun : TxcRunSpec c.key (s.putWarp c.key (({ w with ports := ports } : Warp).setOut (activeMask w p x)))
      (({ w with ports := ports } : Warp).setOut (activeMask w p x)) (activeMask w p x).threads w1) :
    let run := (s.putWarp c.key (({ w with ports := ports } : Warp).setOut (activeMask w p x))).txcRun c.key
      (activeMask w p x).threads
    let f : Nat → Word := fun t => BitVec.ofNat 64 (outcomeOf run.2 t)
    dstOk c w (activeMask w p x) o.a f →
      ∃ w' : Warp, exec (.txc x o) s = .next ((run.1.putWarp c.key w').seqAct c.key p.id x.seq) ∧ w'.ports = ports ∧
        RegEffect w1 w' o.a (activeMask w p x) f (fun _ => 0) w1.rndOf := by
  intro run f hd
  obtain ⟨-, -, -, -, -, -, -, hlo, hhi, -⟩ := context_spec h.issuer
  have halike : w1 = { w with ports := ports, hoist := w1.hoist, txn := w1.txn } := hrun.alike
  let c1 : WCtx := { key := c.key, split := p, blk := w1.blk, block := none, launch := none, time := 0,
                     stackLo := s.stackLo c.key, stackHi := s.stackHi c.key }
  have hdepth : w1.depth = w.depth := by rw [halike]; rfl
  obtain ⟨w', hput, hports, heffect⟩ := putDst_whole (c := c1) rfl w1 o.a (activeMask w p x) f fun t ht =>
    (dstTrap_congr c c1 w w1 _ o.a (f t) hlo.symm hhi.symm hdepth).trans (hd t ht)
  have hw1 : run.1.warpAt c.key = some w1 := hrun.warp
  refine ⟨w', ?_, hports.trans (by rw [halike]), heffect⟩
  rw [show exec (.txc x o) s = execTxc x o s from rfl, execTxc, threadWord_next h]
  dsimp only
  rw [startCommits_putWarp]
  change Host.Outcome.next (match run.1.warpAt c.key with | none => run.1 | some w => _) = _
  rw [hw1]
  change Host.Outcome.next ((run.1.putWarp c.key (putDst c1 w1 w1 o.a (activeMask w p x) .general f).1).finish c.key p.id x.seq
    ([] ++ (putDst c1 w1 w1 o.a (activeMask w p x) .general f).2)) = _
  rw [hput, List.append_nil, finish_nil]

/-- An aborted transaction's outcome is its code. -/
theorem TxcRunSpec.outcome_ended {k : Nat} {s : State} {w w1 : Warp} {ts : List Nat} (h : TxcRunSpec k s w ts w1)
    (hts : ts.Nodup) {t : Nat} (ht : t ∈ ts) {y : Txn} (hy : w.openTxn t = some y) (hcode : y.code ≠ 0) :
    outcomeOf (s.txcRun k ts).2 t = y.code := by
  rw [← h.keys] at ht hts
  obtain ⟨e, he, rfl⟩ := List.mem_map.mp ht
  rw [outcomeOf_mem hts e he, h.ended e he y hy hcode]

/-- Settles O25: a commit aborts, loses or stores; of two that meet the earlier in the order goes first; TXC's run over its
threads is their commits in turn. -/
theorem commitsValidateAndStoreTheWriteSet : Obligations.CommitsValidateAndStoreTheWriteSet := by
  refine ⟨commitsOfOneTransaction, theEarlierTransactionGoesFirst, ?_⟩
  intro s c w p x o ports pv h T
  let w0 : Warp := ({ w with ports := ports } : Warp).setOut T
  have hts := Mask.nodup_threads T
  obtain ⟨w1, hrun⟩ := txcRun_spec c.key T.threads hts (s.putWarp c.key w0) w0 (warpAt_putWarp_same ..)
  have hcode := outcomeOf_mem (hrun.keys.symm ▸ hts)
  have hthreads : ∀ t, t ∈ T.threads ↔ T.has t = true := Mask.mem_threads T
  have hports : w1.ports = ports := by rw [hrun.alike]; rfl
  refine ⟨fun t => t ∈ intraAborts { w with ports := ports } T.threads [], outcomeOf _, w0, _, w1,
    fun t => lost_iff (w := { w with ports := ports }), rfl,
    fun t y hy => ⟨fun hlost => ?_, fun hlost hT hy0 => ?_, fun hout => ?_⟩,
    hrun.commits _ hcode, hrun.warp, hports, fun t ht => hrun.closed t ((hthreads t).mpr ht), execTxc_of_run h hrun⟩
  · have hopen := openTxn_setOut_lost (w := { w with ports := ports }) hy hlost
    exact ⟨hopen, hrun.outcome_ended hts ((hthreads t).mpr (lost_iff.mp hlost).1) hopen Nat.one_ne_zero⟩
  · rw [openTxn_setOut_kept (w := { w with ports := ports }) hy hlost]
    simp [Txn.setOut, hT, hy0, openTxn_isOpen hy]
  · have hkept : t ∉ intraAborts { w with ports := ports } T.threads [] := by
      intro hlost
      obtain ⟨hT, z, hz, hz0, -⟩ := lost_iff.mp hlost
      cases hy.symm.trans hz
      rcases hout with hout | hout
      · rw [hT] at hout; cases hout
      · exact hout hz0
    rw [openTxn_setOut_kept (w := { w with ports := ports }) hy hkept]
    rcases hout with hout | hout <;> simp [Txn.setOut, hout]

end Sys2Proof.Machine
end

section
/-! PROOFS. Hoisted loads, CHK, PREF and DCF (R99, R201, R202, R204, R206). -/

namespace Sys2Proof.Machine

/-! ## LDH: the loads of its threads (R201) -/

section hoists
variable {k : Nat} {h : Hint} {m : HMod} {v : Opnds} {val : Nat → Option (List Byte)}
  {F : State × List (Nat × Option (Word × List Nat)) → Nat → State × List (Nat × Option (Word × List Nat))}
  (hok : ∀ s acc t s1 bs s2 keys, s.loadG k h (hoistVa m (v.gb t)) m.mt.bytes = (s1, .ok bs) →
    (s1.window k (s1.placeLines k (.g (hoistVa m (v.gb t))) m.mt.bytes) false).translateRun (keyCore k) .read
      (hoistVa m (v.gb t)) m.mt.bytes = (s2, .ok keys) →
    F (s, acc) t = (s2, acc ++ [(t, some (extendBytes m.mt bs, keys))]))
  (herr : ∀ s acc t s1 e, s.loadG k h (hoistVa m (v.gb t)) m.mt.bytes = (s1, .error e) →
    F (s, acc) t = (s1, acc ++ [(t, none)]))
include hok herr

/-- A fold that loads for one thread after another gives the state that the loads give, and of each thread its value. -/
theorem foldl_of_hoists (ts : List Nat) : ∀ (s : State) (acc : List (Nat × Option (Word × List Nat))) (s' : State),
    Claim.hoists k h m v val s ts s' → ∃ out, ts.foldl F (s, acc) = (s', acc ++ out) ∧ out.map Prod.fst = ts ∧
      ∀ e ∈ out, e.2.map Prod.fst = (val e.1).map (extendBytes m.mt) := by
  induction ts with
  | nil => exact fun s acc s' hs => ⟨[], by rw [show s' = s from hs, List.append_nil]; rfl, rfl, nofun⟩
  | cons t ts ih =>
    intro s acc s' hs
    have hstep : ∃ s1 r, F (s, acc) t = (s1, acc ++ [(t, r)]) ∧ r.map Prod.fst = (val t).map (extendBytes m.mt) ∧
        Claim.hoists k h m v val s1 ts s' := by
      rcases hs with ⟨s1, s2, bs, keys, hload, hval, hrun, hnext⟩ | ⟨s1, e, hload, hval, hnext⟩
      · exact ⟨s2, _, hok s acc t s1 bs s2 keys hload hrun, by rw [hval]; rfl, hnext⟩
      · exact ⟨s1, none, herr s acc t s1 e hload, by rw [hval]; rfl, hnext⟩
    obtain ⟨s1, r, hF, hr, hnext⟩ := hstep
    obtain ⟨out, hfold, hkeys, hout⟩ := ih s1 (acc ++ [(t, r)]) s' hnext
    refine ⟨(t, r) :: out, ?_, by rw [List.map_cons, hkeys], fun e he => ?_⟩
    · rw [List.foldl_cons, hF, hfold, List.append_assoc, List.singleton_append]
    · rcases List.mem_cons.mp he with rfl | he
      · exact hr
      · exact hout e he

/-- The result of such a fold over a word's threads. -/
theorem result_of_hoists {ts : List Nat} {s s' : State} {r : State × List (Nat × Option (Word × List Nat))}
    (hfold : ts.foldl F (s, []) = r) (hs : Claim.hoists k h m v val s ts s') :
    ∃ out, r = (s', out) ∧ out.map Prod.fst = ts ∧ ∀ e ∈ out, e.2.map Prod.fst = (val e.1).map (extendBytes m.mt) := by
  obtain ⟨out, hout, hspec⟩ := foldl_of_hoists hok herr ts s [] s' hs
  exact ⟨out, hfold.symm.trans hout, hspec⟩

end hoists

/-- The values of a list of loads, and 0 where there is none. -/
def loadedOf (out : List (Nat × Option (Word × List Nat))) (t : Nat) : Word :=
  match out.find? (fun e => e.1 = t) with
  | some (_, some (a, _)) => a
  | _ => 0

/-- The keys of a list of loads, where there is one for every thread. -/
def hoistKeys (us : List Trap) (out : List (Nat × Option (Word × List Nat))) : Option (List Nat) :=
  if us ≠ [] || out.any (fun e => e.2.isNone) then none
  else some (out.flatMap (fun e => match e.2 with | some (_, ks) => ks | none => []))

theorem loadedOf_mem {m : HMod} {val : Nat → Option (List Byte)} {out : List (Nat × Option (Word × List Nat))}
    (hnodup : (out.map Prod.fst).Nodup) (hout : ∀ e ∈ out, e.2.map Prod.fst = (val e.1).map (extendBytes m.mt)) {t : Nat}
    (ht : t ∈ out.map Prod.fst) : loadedOf out t = (match val t with | some bs => extendBytes m.mt bs | none => 0) := by
  obtain ⟨e, he, rfl⟩ := List.mem_map.mp ht
  have hval := hout e he
  obtain ⟨t, r⟩ := e
  rw [loadedOf, find?_of_mem_nodup hnodup he]
  dsimp only at hval ⊢
  cases hv : val t with
  | none =>
    rw [hv] at hval
    rw [Option.map_eq_none_iff.mp hval]
  | some bs =>
    rw [hv] at hval
    obtain ⟨a, rfl, ha⟩ := Option.map_eq_some_iff.mp hval
    exact ha

theorem hoistKeys_none {out : List (Nat × Option (Word × List Nat))} (us : List Trap) {e : Nat × Option (Word × List Nat)}
    (he : e ∈ out) (hnone : e.2 = none) : hoistKeys us out = none := by
  have hany : out.any (fun e => e.2.isNone) = true := List.any_eq_true.mpr ⟨e, he, by rw [hnone]; rfl⟩
  rw [hoistKeys, hany, Bool.or_true, if_pos rfl]

theorem hoistKeys_some {out : List (Nat × Option (Word × List Nat))} (hsome : ∀ e ∈ out, e.2.isSome = true) :
    ∃ ks, hoistKeys [] out = some ks := by
  have hany : out.any (fun e => e.2.isNone) = false := by
    refine List.any_eq_false.mpr fun e he => ?_
    rw [Option.isNone_iff_eq_none, ← Option.not_isSome_iff_eq_none, not_not]
    exact hsome e he
  exact ⟨_, if_neg (by rw [hany]; simp)⟩

/-! ## LDH: its entry (R201) -/

theorem hoistAt_putHoist_other (w : Warp) (m : HMod) (dst : Spec) (T : Mask) (v : Opnds) (ks : Option (List Nat)) {j : Nat}
    (hj : j ≠ m.idx.val) : (w.putHoist m dst T v ks).hoistAt j = w.hoistAt j := by
  unfold Warp.putHoist Warp.hoistAt
  dsimp only
  split
  · exact Sparse.get_put_other _ _ _ _ _ hj
  · exact Sparse.get_erase_other _ _ _ _ hj

theorem hoistAt_putHoist_none (w : Warp) (m : HMod) (i : Fin 64) (T : Mask) (v : Opnds) :
    (w.putHoist m (.d i) T v none).hoistAt m.idx.val = none := Sparse.get_erase_same ..

theorem hoistAt_putHoist_some (w : Warp) (m : HMod) (i : Fin 64) (T : Mask) (v : Opnds) (ks : List Nat) :
    (w.putHoist m (.d i) T v (some ks)).hoistAt m.idx.val = some {
      width := m.mt.bytes, dst := i, addrs := T.threads.map (fun t => (t, hoistVa m (v.gb t))), lines := ks.eraseDups } :=
  Sparse.get_put_same ..

theorem find_map_self {α : Type} (f : Nat → α) {t : Nat} :
    ∀ {ts : List Nat}, t ∈ ts → Sparse.find (ts.map (fun t => (t, f t))) t = some (f t)
  | u :: ts, h => by
    rw [List.map_cons, Sparse.find]
    split
    · next e => rw [e]
    · next e => exact find_map_self f ((List.mem_cons.mp h).resolve_left e)

/-- What LDH leaves in its warp: its values, and its entry. -/
theorem writeDst_putHoist_spec (w : Warp) (m : HMod) (i : Fin 64) {T : Mask} (hT : T ≠ 0) (v : Opnds) (val : Nat → Word)
    (ks : Option (List Nat)) :
    let w' := (writeDst w (.d i) T .general val).putHoist m (.d i) T v ks
    Holds w' (.d i) T val ∧ Kept w { w' with hoist := w.hoist } [.d i] T ∧
      (∀ t, w'.statusOf t = w.statusOf t ∧ w'.rndOf t = w.rndOf t) ∧ ∀ j, j ≠ m.idx.val → w'.hoistAt j = w.hoistAt j := by
  obtain ⟨hholds, hkept, -, hstatus, hrnd⟩ := writeDst_effect w (.d i) T .general val hT
  have hhoist : w.hoist = (writeDst w (.d i) T .general val).hoist :=
    (congrArg Warp.hoist hkept.rest :)
  refine ⟨hholds, ?_, fun t => ⟨hstatus t (.inl nofun), hrnd t (.inl nofun)⟩, fun j hj => ?_⟩
  · rw [hhoist]
    exact hkept
  · rw [hoistAt_putHoist_other _ _ _ _ _ _ hj, Warp.hoistAt, Warp.hoistAt, hhoist]

section ldh
variable {s : State} {c : WCtx} {w : Warp} {p : Split} {x : Ctl} {o : Slots} {ports : List (Port × Word)} {pv : Pops}
  (hr : Ready s c w p x o [o.b] ports pv)
include hr

/-- LDH's loads, its destination and its entry. -/
theorem exec_ldh {m : HMod} {val : Nat → Option (List Byte)} {s1 : State} {w1 : Warp}
    (hload : Claim.hoists c.key x.hint m (readOps c w {} o pv) val (s.putWarp c.key { w with ports := ports })
      (activeMask w p x).threads s1) (hw1 : s1.warpAt c.key = some w1) :
    ∃ out : List (Nat × Option (Word × List Nat)), out.map Prod.fst = (activeMask w p x).threads ∧
      (∀ e ∈ out, e.2.map Prod.fst = (val e.1).map (extendBytes m.mt)) ∧
      exec (.ldh x m o) s = .next ((s1.putWarp c.key ((writeDst w1 o.a (activeMask w p x) .general (loadedOf out)).putHoist m o.a
        (activeMask w p x) (readOps c w {} o pv) (hoistKeys [] out))).seqAct c.key p.id x.seq) := by
  rw [show exec (.ldh x m o) s = execLdh x m o s from rfl, execLdh, threadWord_next hr]
  generalize hfold : List.foldl _ (s.putWarp c.key { w with ports := ports }, []) (activeMask w p x).threads = r
  obtain ⟨out, rfl, hkeys, hvals⟩ := result_of_hoists (fun s acc t s1 bs s2 keys h1 h2 => by simp only [h1, h2])
    (fun s acc t s1 e h1 => by simp only [h1]) hfold hload
  refine ⟨out, hkeys, hvals, ?_⟩
  dsimp only
  rw [hw1]
  rfl

/-- CHK does nothing where its entry is valid and matches. -/
theorem exec_chk_of_fits {m : HMod} {h : Hoist} (hh : w.hoistAt m.idx.val = some h)
    (hfits : h.fits m o.a (activeMask w p x) (readOps c w {} o pv) = true) :
    exec (.chk x m o) s = .next ((s.putWarp c.key { w with ports := ports }).seqAct c.key p.id x.seq) := by
  rw [show exec (.chk x m o) s = execChk x m o s from rfl, execChk, hr.issuer]
  simp only [hh, hr.ports, hr.sound, hr.active, hfits, ne_eq, not_false_eq_true, decide_true, Bool.and_self, ↓reduceIte]

end ldh

/-! ## PREF (R204) -/

/-- One thread's prefetch. -/
def State.prefetch (core : Nat) (h : Hint) (va : Nat → Word) (s : State) (t : Nat) : State :=
  match s.translate core .read (va t) with
  | (s1, .error _) => s1
  | (s1, .ok (e, b)) =>
    if s1.cached core (s1.leafKey e b (va t)) then s1 else s1.touchHome core (va t) h [s1.leafKey e b (va t)]

section prefetch
variable (core : Nat) (h : Hint) (va : Nat → Word)

theorem prefetch_of_error {s s1 : State} {t : Nat} {e : MemErr} (hx : s.translate core .read (va t) = (s1, .error e)) :
    s.prefetch core h va t = s1 := by
  simp only [State.prefetch, hx]

theorem prefetch_of_ok {s s1 : State} {t : Nat} {e : Word} {b : Nat} (hx : s.translate core .read (va t) = (s1, .ok (e, b))) :
    s.prefetch core h va t =
      if s1.cached core (s1.leafKey e b (va t)) then s1 else s1.touchHome core (va t) h [s1.leafKey e b (va t)] := by
  simp only [State.prefetch, hx]

theorem prefetches_foldl (ts : List Nat) : ∀ s : State,
    Claim.prefetches core h va s ts (ts.foldl (State.prefetch core h va) s) := by
  induction ts with
  | nil => exact fun _ => rfl
  | cons t ts ih =>
    intro s
    have hnext := ih (s.prefetch core h va t)
    cases hx : s.translate core .read (va t) with
    | mk s1 r =>
      cases r with
      | error e =>
        rw [prefetch_of_error core h va hx] at hnext
        refine .inl ⟨s1, e, hx, ?_⟩
        rw [List.foldl_cons, prefetch_of_error core h va hx]
        exact hnext
      | ok eb =>
        rw [prefetch_of_ok core h va hx] at hnext
        refine .inr ⟨s1, eb.1, eb.2, hx, ?_⟩
        rw [List.foldl_cons, prefetch_of_ok core h va hx]
        exact hnext

theorem prefetch_unfetched {s : State} (hreds : s.reds = []) (t : Nat) : (s.prefetch core h va t).unfetched = s.unfetched := by
  have hx := translate_unfetched hreds core .read (va t)
  unfold State.prefetch
  split
  · next e => rw [e] at hx; exact hx
  · next s1 _ _ e =>
    rw [e] at hx
    split
    · exact hx
    · exact (unfetched_of_unnoted (touchHome_unnoted ..)).trans hx

/-- Prefetches of a run of threads change no register where no reduction waits. -/
theorem prefetch_foldl_unfetched (ts : List Nat) : ∀ s : State, s.reds = [] →
    (ts.foldl (State.prefetch core h va) s).unfetched = s.unfetched := by
  induction ts with
  | nil => exact fun _ _ => rfl
  | cons t ts ih =>
    intro s hreds
    have hx := prefetch_unfetched core h va hreds t
    exact (ih _ ((reds_of_unfetched hx).trans hreds)).trans hx

end prefetch

theorem exec_pref {s : State} {c : WCtx} {w : Warp} {p : Split} {x : Ctl} {o : Slots} {ports : List (Port × Word)} {pv : Pops}
    (hr : Ready s c w p x o [o.b] ports pv) (llc : Bool) (off : BitVec 32) :
    exec (.pref x llc off o) s = .next (((activeMask w p x).threads.foldl
      (State.prefetch (keyCore c.key) x.hint (fun t => (readOps c w {} o pv).gb t + off.signExtend 64))
      (s.putWarp c.key { w with ports := ports })).seqAct c.key p.id x.seq) := by
  rw [show exec (.pref x llc off o) s = execPref x llc off o s from rfl, execPref, threadWord_next hr]
  rfl

/-! ## DCF (R206) -/

theorem rangeLines_one {va : Word} {n : Nat} (hn : 0 < n) (hle : va.toNat % 64 + n ≤ 64) :
    rangeLines va n = [BitVec.ofNat 64 (64 * (va.toNat / 64))] := by
  have hcnt : (va.toNat + n - 1) / 64 - va.toNat / 64 + 1 = 1 := by omega
  simp only [rangeLines, hn.ne', ↓reduceIte, hcnt]
  rfl

/-- DCF of one line. -/
def State.dcfLine (core : Nat) (h : Hint) (s : State) (va : Word) : State :=
  match s.translate core .read va with
  | (s1, .error _) => s1
  | (s1, .ok (e, b)) =>
    if leafVkind e ≠ 0 then s1
    else ((s1.publishLine core va h (s1.leafKey e b va)).dropViews (s1.leafKey e b va / 64)).lastUse core h
      [s1.leafKey e b va]

theorem exec_dcf {s : State} {c : WCtx} {w : Warp} {p : Split} {x : Ctl} {o : Slots} {ports : List (Port × Word)} {pv : Pops}
    (hr : Ready s c w p x o [o.b, o.c] ports pv) : exec (.dcf x o) s = .next (((rangeLines
      ((readOps c w {} o pv).gb ((activeMask w p x).lowest.getD 0))
      (((readOps c w {} o pv).gc ((activeMask w p x).lowest.getD 0)).setWidth 32 : BitVec 32).toNat).foldl
        (State.dcfLine (keyCore c.key) x.hint) (s.putWarp c.key { w with ports := ports })).seqAct c.key p.id x.seq) := by
  rw [show exec (.dcf x o) s = execDcf x o s from rfl, execDcf, splitWord_next hr]
  rfl

/-- Settles O41: LDH's fold over its threads is their loads in turn, its entry follows from their values, PREF's fold is the
threads' prefetches in turn, and DCF of at most one line is that line's publication. -/
theorem hoistedLoadsPrefetchAndDcf : Obligations.HoistedLoadsPrefetchAndDcf := by
  intro s c w p x o ports pv T v s0
  refine ⟨fun hr => ⟨fun m i val s1 w1 ha hload hw1 => ?_, fun m h hh hfits => exec_chk_of_fits hr hh hfits,
    fun llc off => ⟨_, prefetches_foldl _ _ _ _ _, exec_pref hr llc off, fun hreds =>
      warps_of_unfetched (prefetch_foldl_unfetched _ _ _ _ _ hreds)⟩⟩, fun hr => ?_⟩
  · obtain ⟨out, hkeys, hvals, hexec⟩ := exec_ldh hr hload hw1
    rw [ha] at hexec ⊢
    obtain ⟨hholds, hkept, hregs, hothers⟩ := writeDst_putHoist_spec w1 m i hr.active v (loadedOf out) (hoistKeys [] out)
    have hnodup : (out.map Prod.fst).Nodup := hkeys.symm ▸ Mask.nodup_threads T
    refine ⟨_, hexec, fun t ht => ?_, hkept, hregs, hothers, ?_, fun hall => ?_⟩
    · refine (hholds t ht).trans (loadedOf_mem hnodup hvals ?_)
      rw [hkeys]
      exact (Mask.mem_threads T t).mpr ht
    · rintro ⟨t, ht, hnone⟩
      rw [← hkeys] at ht
      obtain ⟨e, he, rfl⟩ := List.mem_map.mp ht
      have hval := hvals e he
      rw [hnone] at hval
      rw [hoistKeys_none [] he (Option.map_eq_none_iff.mp hval)]
      exact hoistAt_putHoist_none ..
    · have hsome : ∀ e ∈ out, e.2.isSome = true := fun e he => by
        have hin : e.1 ∈ T.threads := hkeys ▸ List.mem_map.mpr ⟨e, he, rfl⟩
        rw [← Option.isSome_map (f := Prod.fst), hvals e he, Option.isSome_map]
        exact hall e.1 hin
      obtain ⟨ks, hks⟩ := hoistKeys_some hsome
      rw [hks]
      exact ⟨_, hoistAt_putHoist_some .., rfl, rfl, fun t ht => find_map_self _ ht⟩
  · intro va n line
    refine ⟨fun hn => ?_, fun hn hle => ⟨fun s1 e hx => ?_, fun s1 e b hx => ?_⟩⟩
    · have hnone : rangeLines va n = [] := if_pos hn
      rw [exec_dcf hr, hnone]
      rfl
    · rw [exec_dcf hr, rangeLines_one hn hle, List.foldl_cons, List.foldl_nil, State.dcfLine, hx]
    · rw [exec_dcf hr, rangeLines_one hn hle, List.foldl_cons, List.foldl_nil, State.dcfLine, hx]
      rfl

end Sys2Proof.Machine
end

section
/-! PROOFS. A page migrates while a reduction waits that lies across two lines: its second half changes the pool's list, which the
migration has already written. -/
namespace Sys2Proof.Machine
open Tests

/-- The page of `followed`, with the list of its old vault at 0x700040, one line after the pool's records. A reduction of the
eight bytes at 0x70003C waits in the queue of the records' line. -/
def followedBesideReduction : State :=
  let s := (((at1.syncWrite leaf0 (leBytes 8 (placeCode + 7 + 2 ^ 59))).syncWrite 0x700000
    (leBytes 8 0x700040 ++ leBytes 4 8 ++ leBytes 4 0)).syncWrite 0x700010 (leBytes 8 0x710000 ++ leBytes 4 8 ++ leBytes 4 1)).syncWrite
    0x710000 (leBytes 4 3)
  { s with ctl := { s.ctl with fpool := 0x700000 }
           reds := [{ key := 0, t := 0, a := 0x70003C, aty := .i64, op := .add, c := 2 ^ 32 }] }

/-- The pool's records and lists of the two vaults. -/
theorem followedBesideReduction_pool :
    followedBesideReduction.poolEntry 1 = some (0x700010, 0x710000, 8, 1) ∧
    followedBesideReduction.poolEntry (paVault (leafFrame (followedBesideReduction.homeWord leaf0))) =
      some (0x700000, 0x700040, 8, 0) ∧
    followedBesideReduction.key (0x710000 + 4 * (1 - 1)) = some 0x710000 ∧
    followedBesideReduction.key (0x700040 + 4 * 0) = some 0x700040 ∧
    followedBesideReduction.waits = [] ∧ Memory.wf followedBesideReduction.mem = true ∧
    leNat (readBytes followedBesideReduction.mem 0x710000 4) = 3 := by
  decide +kernel

/-- The four words that the migration writes. -/
def migratedPlaces : List (Nat × Nat) := [(leaf0, 8), (0x700040, 4), (0x700000 + 12, 4), (0x700010 + 12, 4)]

theorem migratedPlaces_sound : (∀ r ∈ migratedPlaces, r.1 + r.2 ≤ 2 ^ 42 ∧
      ∀ i, i < r.2 → inFrame (1 * 2 ^ 33 + 3 * 65536) (r.1 + i) = false) ∧
    migratedPlaces.Pairwise (fun a b => a.1 + a.2 ≤ b.1 ∨ b.1 + b.2 ≤ a.1) := by
  decide +kernel

/-- The old frame's number and what the list holds where it was written: the reduction has added 1 to it. -/
theorem migrated_list : (followedBesideReduction.migrate leaf0 1).map (fun u => decide (leNat (readBytes u.mem 0x700040 4) =
    paOff (leafFrame (followedBesideReduction.homeWord leaf0)) / 65536 % 2 ^ 32)) = some false := by
  decide +kernel

/-- Refutes O50: a waiting reduction may lie across two lines, as nothing in the statement excludes. The migration writes the old
frame's number in the second line first; the write of the pool's record in the first line then applies the reduction, which
changes that number, so the old vault's list does not hold it. -/
theorem not_towersCoresTimeAndPages : ¬ Obligations.TowersCoresTimeAndPages := by
  rintro ⟨-, -, -, hmigrated⟩
  obtain ⟨hnew, hold, hkf, hkn, hwaits, hwf, hn⟩ := followedBesideReduction_pool
  obtain ⟨u, hu, hlist⟩ := Option.map_eq_some_iff.mp migrated_list
  obtain ⟨-, hwords⟩ := hmigrated followedBesideReduction u leaf0 1 0x700010 0x710000 8 1 0x700000 0x700040 8 0 0x710000 0x700040
    hu
  have hplaces := hwords hnew hold hkf hkn hwaits (by decide) hwf
  dsimp only at hplaces
  rw [hn] at hplaces
  obtain ⟨-, -, -, -, -, hkept, -⟩ := hplaces migratedPlaces_sound.1 migratedPlaces_sound.2
  exact of_decide_eq_false hlist hkept

end Sys2Proof.Machine
end

section
/-! PROOFS. Engines at home: what an engine reads and writes, and the reductions of SCT (R129, R130, R279, R281). -/

namespace Sys2Proof.Machine

theorem peerKey_of_lt {k : Nat} (h : k < 2 ^ 42) : peerKey k = false := by
  simp only [peerKey, Bool.and_eq_false_iff, decide_eq_false_iff_not]
  exact .inl (by omega)

/-! ## Reads (R129, R281) -/

/-- What an engine reads once its keys are known and its publication is done. -/
theorem engRead_of_keys {s s1 s2 : State} {core n : Nat} {va : Word} {pub : Bool} {keys : List Nat}
    (hkeys : s.engKeys core .read va n = (s1, .ok keys))
    (hs2 : (if pub then s1.publish core (fun k => keys.any (fun y => y / 64 = k / 64)) else s1) = s2)
    (hnear : ∀ k ∈ keys, k < 2 ^ 42) (hread : s2.readErr core va keys false = none) (h : Hint) :
    ∃ s', s.engRead core va n pub h = (s', .ok (keys.map (readMem s2.mem))) := by
  have hask : s2.askPeers core keys false = s2 := askPeers_of_none (fun k hk => peerKey_of_lt (hnear k hk)) core false
  have hmem : ((keys.map (· / 64)).eraseDups.foldl State.fillView (s2.touchHome core va h keys)).mem = s2.mem := by
    refine (foldl_keeps State.mem (fun t l => ?_) _ _).trans (mem_of_unnoted (touchHome_unnoted ..))
    obtain ⟨vs, hvs⟩ := fillView_eq t l
    rw [hvs]
  refine ⟨(keys.map (· / 64)).eraseDups.foldl State.fillView (s2.touchHome core va h keys), ?_⟩
  simp only [State.engRead, hkeys, hs2, hask, hread]
  refine Prod.ext rfl (congrArg Except.ok (List.map_congr_left fun k hk => ?_))
  rw [homeByte_near _ (hnear k hk), hmem]

theorem engineReads : Claim.EngineReads := by
  intro s s1 core n va h keys hkeys hnear hwaits hreds
  have hq : s1.settled := ⟨hwaits, hreds⟩
  refine ⟨fun hread => engRead_of_keys hkeys (if_neg Bool.false_ne_true) hnear hread h, fun hread => ?_⟩
  obtain ⟨s', hs'⟩ := engRead_of_keys (pub := true) hkeys (if_pos rfl) hnear hread h
  refine ⟨s', hs'.trans (Prod.ext rfl (congrArg Except.ok (List.map_congr_left fun k hk => ?_)))⟩
  have hown : keys.any (fun y => y / 64 = k / 64) = true := List.any_eq_true.mpr ⟨k, hk, by simp⟩
  have hfar := farKey_of_lt (hnear k hk)
  cases hb : Sparse.get none (s1.coreAt core).dirty k with
  | none =>
    have hpub := published_publish_other core (fun k => keys.any (fun y => y / 64 = k / 64)) hq (key := k) fun _ => hb
    simp only [State.published, hfar, Bool.false_eq_true, ↓reduceIte, Option.some.injEq] at hpub
    exact hpub
  | some b =>
    have hpub := published_publish_own core (fun k => keys.any (fun y => y / 64 = k / 64)) hq hown hb
    simp only [State.published, hfar, Bool.false_eq_true, ↓reduceIte, Option.some.injEq] at hpub
    exact hpub

/-! ## Writes (R130, R202) -/

section engLand
variable {s : State} (hq : s.settled) (core : Nat) {keys : List Nat} {bs : List Byte} (hlen : keys.length = bs.length)
  (hnear : ∀ k ∈ keys, k < 2 ^ 42)

theorem engLand_mem (s : State) (core : Nat) (keys : List Nat) (bs : List Byte) :
    (s.engLand core keys bs).mem = (s.syncWriteAt keys bs).mem := by
  have h := mem_of_coreless (dropCleanLines_spec core (keys.map (· / 64)).eraseDups (s.syncWriteAt keys bs)).1
  exact h

include hq

theorem engLand_dirty (c : Nat) : ((s.engLand core keys bs).coreAt c).dirty = (s.coreAt c).dirty := by
  obtain ⟨-, hother, hcore, -⟩ := dropCleanLines_spec core (keys.map (· / 64)).eraseDups (s.syncWriteAt keys bs)
  have hsync := coreAt_of_offHome (syncWriteAt_offHome hq.2 keys bs) c
  refine Eq.trans ?_ (congrArg Core.dirty hsync)
  by_cases hc : c = core
  · subst hc
    have h := congrArg Core.dirty hcore
    exact h
  · have h := congrArg Core.dirty (hother c hc)
    exact h

omit hq in
include hnear in
theorem near_of_mem_zip : ∀ c ∈ keys.zip bs, c.1 < 2 ^ 42 := fun _ hc => hnear _ (List.of_mem_zip hc).1

include hlen hnear

theorem readMem_engLand_other {a : Nat} (ha : a ∉ keys) : readMem (s.engLand core keys bs).mem a = readMem s.mem a := by
  have h := readMem_syncWriteAt_other (near_of_mem_zip (bs := bs) hnear) hq (a := a) fun c hc hk => ha (hk ▸ (List.of_mem_zip hc).1)
  rw [List.map_fst_zip hlen.le, List.map_snd_zip hlen.ge] at h
  rw [engLand_mem, h]

theorem readMem_engLand_mem (hnodup : keys.Nodup) {i : Nat} (hi : i < bs.length) :
    readMem (s.engLand core keys bs).mem (keys.getD i 0) = bs.getD i 0 := by
  have hik : i < keys.length := hlen ▸ hi
  have hin : (keys.getD i 0, bs.getD i 0) ∈ keys.zip bs := by
    rw [List.mem_iff_getElem]
    exact ⟨i, by simp [hik, hi], by simp [hik, hi]⟩
  have hu : ∀ d ∈ keys.zip bs, d.1 = keys.getD i 0 → d = (keys.getD i 0, bs.getD i 0) := by
    intro d hd hk
    obtain ⟨j, hj, rfl⟩ := List.mem_iff_getElem.mp hd
    have hjk : j < keys.length := by simp at hj; omega
    have hij : j = i := by
      refine (List.Nodup.getElem_inj_iff hnodup (hi := hjk) (hj := hik)).mp ?_
      simpa [hik] using hk
    subst hij
    simp [hik, hi]
  have h := readMem_syncWriteAt_mem (near_of_mem_zip hnear) hq hin hu
  rw [List.map_fst_zip hlen.le, List.map_snd_zip hlen.ge] at h
  rw [engLand_mem, h]

end engLand

theorem touchHome_settled {s : State} (hq : s.settled) (core : Nat) (va : Word) (h : Hint) (keys : List Nat) :
    (s.touchHome core va h keys).settled :=
  ⟨(waits_of_unnoted (touchHome_unnoted ..)).trans hq.1, (reds_of_unnoted (touchHome_unnoted ..)).trans hq.2⟩

theorem engineWrites : Claim.EngineWrites := by
  intro s s1 core va bs h keys hkeys hnodup hlen hnear hwaits hreds
  have hnote := touchHome_unnoted s1 core va h keys
  have hq := touchHome_settled ⟨hwaits, hreds⟩ core va h keys
  refine ⟨(s1.touchHome core va h keys).engLand core keys bs, by simp only [State.engWrite, hkeys],
    fun i hi => readMem_engLand_mem hq core hlen hnear hnodup hi, fun k hk => ?_, fun c => ?_⟩
  · rw [readMem_engLand_other hq core hlen hnear hk, mem_of_unnoted hnote]
  · rw [engLand_dirty hq, coreAt_of_unnoted hnote]

/-! ## The reductions of SCT (R279) -/

theorem scatterReduces : Claim.ScatterReduces := by
  intro s s1 c who op k ty va bs n
  refine ⟨fun h => by simp only [State.reduceElem, n, h, ne_eq, not_false_eq_true, ↓reduceIte]; rfl, ?_⟩
  intro halign hkeys hk hnear hbad hwaits hreds new
  have hn : 0 < n := atomBytes_pos ty
  have hhead : ((List.range n).map (k + ·)).headD 0 = k := by
    obtain ⟨m, hm⟩ : ∃ m, n = m + 1 := ⟨n - 1, by omega⟩
    rw [hm, List.range_succ_eq_map]
    rfl
  have hlt : k < 2 ^ 42 := by omega
  have hfar := (farKey_group k).trans (farKey_of_lt hlt)
  have hkeysNear : ∀ a ∈ (List.range n).map (k + ·), a < 2 ^ 42 := by
    intro a ha
    obtain ⟨i, hi, rfl⟩ := List.mem_map.mp ha
    have := List.mem_range.mp hi
    omega
  have hnote := touchHome_unnoted s1 c.core va c.hint ((List.range n).map (k + ·))
  have hq := touchHome_settled ⟨hwaits, hreds⟩ c.core va c.hint ((List.range n).map (k + ·))
  have hold : (s1.touchHome c.core va c.hint ((List.range n).map (k + ·))).homeBytes k n =
      (List.range n).map (fun i => readMem s1.mem (k + i)) := by
    rw [homeBytes_near _ hnear, mem_of_unnoted hnote]
  have hlen : ((List.range n).map (k + ·)).length = (leBytes n new).length := by rw [leBytes_length]; simp
  refine ⟨(s1.touchHome c.core va c.hint ((List.range n).map (k + ·))).engLand c.core ((List.range n).map (k + ·))
    (leBytes n new), ?_, fun a => ?_⟩
  · simp only [State.reduceElem, n, halign, ne_eq, not_true_eq_false, ↓reduceIte, hkeys]
    rw [hhead]
    simp only [peerKey_of_lt hlt, hbad, Bool.false_eq_true, ↓reduceIte, atHome_near hfar, applyReds_of_no_reds hreds]
    rw [hold]
  · split
    · next h =>
      have hi : a - k < (leBytes n new).length := by rw [leBytes_length]; omega
      have hnodup : ((List.range n).map (k + ·)).Nodup := List.nodup_range.map fun _ _ h => Nat.add_left_cancel h
      have hget := readMem_engLand_mem hq c.core hlen hkeysNear hnodup hi
      rw [leBytes_length] at hi
      rw [List.getD_eq_getElem _ _ (by simpa using hi), List.getElem_map, List.getElem_range, Nat.add_sub_cancel' h.1] at hget
      exact hget
    · next h =>
      rw [readMem_engLand_other hq c.core hlen hkeysNear, mem_of_unnoted hnote]
      simp only [List.mem_map, List.mem_range, not_exists, not_and]
      omega

end Sys2Proof.Machine
end

section
/-! PROOFS. The windows of GTH: the rows that a window reads, and how what it writes is counted (R219, R278, R283). -/

namespace Sys2Proof.Machine

/-! ## What a window reads (R278) -/

theorem engKeys_length {s s1 : State} {core : Nat} {acc : Acc} {va : Word} {n : Nat} {keys : List Nat}
    (h : s.engKeys core acc va n = (s1, .ok keys)) : keys.length = n := by
  unfold State.engKeys at h
  split at h
  · cases h
  · split at h
    · next hrun => cases h; exact translateRun_length hrun
    · cases h
    · cases h

theorem engRead_length {s s1 : State} {core : Nat} {va : Word} {n : Nat} {pub : Bool} {h : Hint} {bs : List Byte}
    (hread : s.engRead core va n pub h = (s1, .ok bs)) : bs.length = n := by
  unfold State.engRead at hread
  split at hread
  · cases hread
  · next hkeys =>
    dsimp only at hread
    split at hread
    · cases hread
    · cases hread
    · cases hread
      rw [List.length_map, engKeys_length hkeys]

theorem indexes_length {c : Cmd} {ix : Index} : ∀ {js : List Nat} {s s1 : State} {xs : List Nat},
    s.indexes c ix js = (s1, .ok xs) → xs.length = js.length
  | [], s, s1, xs, h => by cases h; rfl
  | j :: js, s, s1, xs, h => by
    unfold State.indexes at h
    split at h
    · cases h
    · split at h
      · cases h
      · next hnext =>
        cases h
        rw [List.length_cons, List.length_cons, indexes_length hnext]

theorem find_put (x : List Byte) (a b : Nat) : ∀ l : Sparse (List Byte),
    Sparse.find (Sparse.put l a x) b = if b = a then some x else Sparse.find l b
  | [] => by simp [Sparse.put, Sparse.find]
  | (k, v) :: l => by
    have ih := find_put x a b l
    unfold Sparse.put
    split
    · next h =>
      subst h
      simp only [Sparse.find]
      split <;> rfl
    · next h =>
      split
      · simp only [Sparse.find]
      · simp only [Sparse.find, ih]
        by_cases hb : b = k
        · rw [if_pos hb, if_pos hb, if_neg (by omega)]
        · rw [if_neg hb, if_neg hb]

/-- Rows read from a table: of indexes below `imax`, each of the row's bytes. -/
def rowsSound (ix : Index) (rows : Sparse (List Byte)) : Prop :=
  ∀ x bs, Sparse.find rows x = some bs → x < ix.imax ∧ bs.length = ix.rowb

theorem readRows_sound {c : Cmd} {ix : Index} : ∀ {xs : List Nat} {s s1 : State} {acc rows : Sparse (List Byte)},
    rowsSound ix acc → s.readRows c ix xs acc = (s1, .ok rows) → rowsSound ix rows
  | [], s, s1, acc, rows, hacc, h => by cases h; exact hacc
  | x :: xs, s, s1, acc, rows, hacc, h => by
    unfold State.readRows at h
    split at h
    · exact readRows_sound hacc h
    · next hx =>
      split at h
      · cases h
      · next hread =>
        refine readRows_sound (fun y bs hy => ?_) h
        rw [find_put] at hy
        split at hy
        · next e =>
          cases hy
          subst e
          exact ⟨by simp at hx; omega, engRead_length hread⟩
        · exact hacc y bs hy

/-- The row of an index in a window. -/
def windowRow (ix : Index) (rows : Sparse (List Byte)) (x : Nat) : List Byte :=
  (Sparse.find rows x).getD (List.replicate ix.rowb (0 : Byte))

theorem windowRow_length {ix : Index} {rows : Sparse (List Byte)} (h : rowsSound ix rows) (x : Nat) :
    (windowRow ix rows x).length = ix.rowb := by
  unfold windowRow
  cases hx : Sparse.find rows x with
  | none => simp
  | some bs => exact (h x bs hx).2

theorem windowRow_beyond {ix : Index} {rows : Sparse (List Byte)} (h : rowsSound ix rows) {x : Nat} (hx : ix.imax ≤ x) :
    windowRow ix rows x = List.replicate ix.rowb 0 := by
  unfold windowRow
  cases hf : Sparse.find rows x with
  | none => rfl
  | some bs =>
    have := (h x bs hf).1
    omega

/-- Places in rows of one length that follow one another. -/
theorem getD_flatMap_rows {f : Nat → List Byte} {n : Nat} (hf : ∀ x, (f x).length = n) {i : Nat} (hi : i < n) :
    ∀ {xs : List Nat} {q : Nat}, q < xs.length → (xs.flatMap f).getD (q * n + i) 0 = (f (xs.getD q 0)).getD i 0
  | x :: xs, 0, _ => by
    rw [List.flatMap_cons, Nat.zero_mul, Nat.zero_add, List.getD_append _ _ _ _ (by rw [hf]; exact hi)]
    rfl
  | x :: xs, q + 1, h => by
    have ih := getD_flatMap_rows hf hi (xs := xs) (q := q) (by simpa using h)
    rw [List.flatMap_cons, List.getD_append_right _ _ _ _ (by rw [hf, Nat.succ_mul]; omega), hf,
      show (q + 1) * n + i - n = q * n + i from by rw [Nat.succ_mul]; omega, ih]
    rfl

theorem length_flatMap_rows {f : Nat → List Byte} {n : Nat} (hf : ∀ x, (f x).length = n) (xs : List Nat) :
    (xs.flatMap f).length = xs.length * n := by
  induction xs with
  | nil => simp
  | cons x xs ih => rw [List.flatMap_cons, List.length_append, ih, hf, List.length_cons, Nat.succ_mul, Nat.add_comm]

theorem windowRows : Claim.WindowRows := by
  intro s s1 s2 c ix n xs bs m hxs hbs
  have hlen : xs.length = m := (indexes_length hxs).trans (by simp)
  have hjs : (List.range (Nat.min n (c.row + 4096) - c.row)).map (· + c.row) = (List.range m).map (· + c.row) := rfl
  simp only [State.windowBytes, hjs, hxs] at hbs
  split at hbs
  · cases hbs
  · next rows hrows =>
    cases hbs
    have hsound : rowsSound ix rows := readRows_sound (fun _ _ h => by cases h) hrows
    have hrow := windowRow_length hsound
    refine ⟨hlen, (length_flatMap_rows hrow xs).trans (by rw [hlen]), fun q i hq hi => ?_⟩
    have hget : ∀ q, q < m → (xs.flatMap (windowRow ix rows)).getD (q * ix.rowb + i) 0 =
        (windowRow ix rows (xs.getD q 0)).getD i 0 := fun q hq => getD_flatMap_rows hrow hi (hlen.symm ▸ hq)
    refine ⟨fun hbeyond => (hget q hq).trans ?_, fun q' hq' heq => (hget q' hq').trans ?_⟩
    · rw [windowRow_beyond hsound hbeyond]
      simp [hi]
    · rw [heq]
      exact (hget q hq).symm

/-! ## What a window writes, and how it is counted (R219, R283) -/

/-- The address after the rest of a line begins a line. -/
theorem toNat_ofInt_next_line (a : Int) :
    (BitVec.ofInt 64 (a + ((64 - (BitVec.ofInt 64 a).toNat % 64 : Nat) : Int))).toNat % 64 = 0 := by
  rw [BitVec.toNat_ofInt, BitVec.toNat_ofInt]
  omega

/-- Writing a run to its end counts all of its bytes, where the steps allowed are enough for its lines. -/
theorem engStoreRun_count {c : Cmd} {sp : Nat} : ∀ {fuel : Nat} {s : State} {a : Int} {bs : List Byte} {done : Nat},
    (sp = 0 → (BitVec.ofInt 64 a).toNat % 64 + bs.length ≤ 64 * fuel) → (sp ≠ 0 → bs.length = 0 ∨ 0 < fuel) →
    (s.engStoreRun c sp fuel a bs done).2.2 = .ok () → (s.engStoreRun c sp fuel a bs done).2.1 = done + bs.length
  | 0, s, a, bs, done, h0, h1, _ => by
    have hbs : bs.length = 0 := by
      by_cases hsp : sp = 0
      · have := h0 hsp; omega
      · exact (h1 hsp).resolve_right (Nat.lt_irrefl 0)
    rw [hbs]
    rfl
  | fuel + 1, s, a, bs, done, h0, h1, hok => by
    unfold State.engStoreRun at hok ⊢
    split
    · next hbs => subst hbs; rfl
    · next hbs =>
      rw [if_neg hbs] at hok
      dsimp only at hok ⊢
      split at hok
      · cases hok
      · have hpos : 0 < bs.length := List.length_pos_iff.mpr hbs
        have hline := toNat_ofInt_next_line a
        have hcount := engStoreRun_count (fun hsp => ?_) (fun hsp => ?_) hok
        · rw [hcount, List.length_take, List.length_drop]
          omega
        · have := h0 hsp
          rw [if_pos hsp, hline, List.length_drop]
          omega
        · rw [if_neg hsp, List.length_drop]
          omega

/-- Signalling a run line by line counts its bytes, and changes nothing else of the command. -/
theorem landLines_count : ∀ (fuel : Nat) (s : State) (c : Cmd) (a n : Nat), (n ≠ 0 → a % 64 + n ≤ 64 * fuel) →
    (s.landLines c fuel a n).2 = { c with signalled := c.signalled + n }
  | 0, s, c, a, n, h => by
    have hn : n = 0 := by
      by_contra hn
      have := h hn
      omega
    subst hn
    rfl
  | fuel + 1, s, c, a, n, h => by
    unfold State.landLines
    split
    · next hn => subst hn; rfl
    · next hn =>
      have hle := h hn
      have hmin : Nat.min n (64 - a % 64) = min n (64 - a % 64) := rfl
      dsimp only
      rw [landLines_count fuel _ _ _ _ (fun hrest => by rw [hmin] at hrest ⊢; omega)]
      simp only [State.land, hmin]
      congr 1
      omega

/-- A window whose bytes are all written has counted what was left of it. -/
theorem runOn_count {s : State} {c : Cmd} {sp done : Nat} {a : Int} {bs : List Byte} (hdone : done ≤ bs.length)
    (hok : (s.runOn c sp a bs done).2.2.2 = .ok ()) :
    (s.runOn c sp a bs done).2.1 = { c with signalled := c.signalled + (bs.length - done) } := by
  have hcount := engStoreRun_count (fun _ => ?_) (fun _ => .inr (by omega)) hok
  · rw [Nat.zero_add, List.length_drop] at hcount
    refine (landLines_count _ _ c _ _ fun _ => ?_).trans ?_
    · omega
    · rw [hcount]
  · rw [List.length_drop]
    omega

end Sys2Proof.Machine
end

section
/-! PROOFS. Copies and the gather engine: the landings of a line, a patch's line, a window and a position, and completion
(R129, R219, R269-R280, R283). -/

namespace Sys2Proof.Machine

/-- Signalling landed bytes is what landing them does. -/
theorem land_eq_signals (s : State) (c : Cmd) (n : Nat) : s.land c n = Claim.signals s c n := rfl

theorem positionsCountOnce : Claim.PositionsCountOnce := by
  intro s c j rowb c2
  refine ⟨fun h => ?_, fun h => ?_⟩
  · have hmark : c.landed.contains (2 ^ 25 + j) = true := List.contains_iff_mem.mpr h
    simp only [State.posDone, hmark, ↓reduceIte, c2]
  · have hmark : c.landed.contains (2 ^ 25 + j) = false := Bool.eq_false_iff.mpr fun hc => h (List.contains_iff_mem.mp hc)
    simp only [State.posDone, hmark, Bool.false_eq_true, ↓reduceIte, land_eq_signals, c2]

/-! ## Patches (R276, R283) -/

theorem patchLinesLand : Claim.PatchLinesLand := by
  intro s s1 s2 s3 c dsp esz pw ph n dst list pitch org carry keys r hc hk hhead hstatus size total upto
  rw [show exec (.patchGather c.id) s = execPatchGather c.id s from rfl]
  simp only [execPatchGather, hc]
  split
  case h_2 _ hother => exact absurd hk (hother _ _ _ _ _ _ _ _ _ _)
  next hk' =>
  cases hk.symm.trans hk'
  refine ⟨fun hstop hrow => ?_, ?_⟩
  · have hwaits : (s.stopping c.blk && decide (c.row % (pw * ph * 2 ^ esz) = 0)) = true := by
      rw [hstop, decide_eq_true hrow, Bool.and_self]
    rw [hwaits, Bool.or_true, if_pos rfl]
  · intro hrow hgo hkeys hbank hread hstore
    have hgoes : (s.stopping c.blk && decide (c.row % (pw * ph * 2 ^ esz) = 0)) = false := by
      cases hstop : s.stopping c.blk with
      | false => rfl
      | true => exact decide_eq_false (hgo hstop)
    have hdest : (if dsp = 0 then s.engKeys c.core .write (BitVec.ofInt 64 (dst + (c.row : Nat)))
        (((c.row + min (64 - spaceAddr dsp (dst + (c.row : Nat)) % 64) (upto - c.row) - 1) / 2 ^ esz + 1) * 2 ^ esz - c.row)
        else (s, .ok [])) = (s1, .ok keys) := by
      by_cases hdsp : dsp = 0
      · rw [if_pos hdsp, hkeys hdsp]
      · obtain ⟨rfl, rfl⟩ := hbank hdsp
        exact if_neg hdsp
    have hmin : ∀ a b, Nat.min a b = min a b := fun _ _ => rfl
    have hleft : decide (n * (pw * ph * 2 ^ esz) ≤ c.row) = false := decide_eq_false (Nat.not_le.mpr hrow)
    rw [if_neg (by rw [hhead, hstatus, hgoes, hleft]; exact Bool.false_ne_true)]
    simp only [upto, total, size] at hdest hread hstore
    simp only [hmin, hdest, hread, hstore]
    rfl

/-! ## Windows (R278, R283) -/

/-- How a window goes on once its bytes are known: written to its end, or kept where an access stopped it. -/
def State.writeWindow (s : State) (c : Cmd) (dsp n : Nat) (dst : Int) (ix : Index) (bs : List Byte) (done : Nat) : State :=
  let r := s.runOn c dsp (dst + (c.row * ix.rowb : Nat)) bs done
  match r.2.2.2 with
  | .error e => r.1.engFault { r.2.1 with k := .gather dsp dst ix n (some (r.2.2.1, bs)) } e
  | .ok _ => r.1.putCmd { r.2.1 with row := Nat.min n (c.row + 4096), k := .gather dsp dst ix n none }

theorem windowsLand : Claim.WindowsLand := by
  intro s s1 c dsp n done dst ix part bs hc hk hhead hstatus hrow c1
  rw [show exec (.gatherWindow c.id) s = execGatherWindow c.id s from rfl]
  have hleft : decide (n ≤ c.row) = false := decide_eq_false (Nat.not_le.mpr hrow)
  refine ⟨fun hstop hpart => ?_, ?_⟩
  · simp only [execGatherWindow, hc]
    split
    case h_2 _ hother => exact absurd hk (hother _ _ _ _ _)
    next hk' =>
    cases hk.symm.trans hk'
    rw [hstop, hpart, Option.isNone_none, Bool.and_self, Bool.or_true, if_pos rfl]
  · intro hgo hfresh hpart hdone
    have hexec : execGatherWindow c.id s = .next (s1.writeWindow c1 dsp n dst ix bs done) := by
      have hgoes : (s.stopping c.blk && part.isNone) = false := by
        cases hstop : s.stopping c.blk with
        | false => rfl
        | true => simpa using hgo hstop
      simp only [execGatherWindow, hc]
      split
      case h_2 _ hother => exact absurd hk (hother _ _ _ _ _)
      next hk' =>
      cases hk.symm.trans hk'
      rw [if_neg (by rw [hhead, hstatus, hgoes, hleft]; exact Bool.false_ne_true)]
      cases part with
      | none =>
        obtain ⟨hread, rfl⟩ := hfresh rfl
        simp only [c1] at hread
        simp only [hread]
        rfl
      | some p =>
        obtain ⟨rfl, rfl⟩ := hpart p rfl
        rfl
    intro r
    refine ⟨fun hok => ⟨runOn_count hdone hok, ?_⟩, fun e he => ?_⟩
    · have hok' : (s1.runOn c1 dsp (dst + (c1.row * ix.rowb : Nat)) bs done).2.2.2 = .ok () := hok
      rw [hexec, State.writeWindow]
      simp only [hok']
      rfl
    · have he' : (s1.runOn c1 dsp (dst + (c1.row * ix.rowb : Nat)) bs done).2.2.2 = .error e := he
      rw [hexec, State.writeWindow]
      simp only [he']
      rfl

/-! ## Positions (R279, R280, R283) -/

/-- How a position goes on from the access that is due: its row, then its journal bit, then it counts as done. -/
theorem posGo_spec (s : State) (c : Cmd) (ssp : Nat) (src : Int) (ix : Index) (n j x m : Nat) (bs : List Byte) :
    let r := s.applyRow c ix j x m bs
    let y := { c with k := .scatter ssp src ix n (some (j, x, r.2.1, bs)) }
    (∀ e, r.2.2 = .error e → s.posGo c ssp src ix n j x m bs = r.1.engFault y e) ∧
    (r.2.2 = .ok () → (∀ s5 e, r.1.setJournal c ix j = (s5, .error e) → s.posGo c ssp src ix n j x m bs = s5.engFault y e) ∧
      (∀ s5, r.1.setJournal c ix j = (s5, .ok ()) →
        s.posGo c ssp src ix n j x m bs = s5.posDone { c with k := .scatter ssp src ix n none } j ix.rowb)) := by
  unfold State.posGo
  obtain ⟨s1, m1, r⟩ := s.applyRow c ix j x m bs
  dsimp only
  refine ⟨?_, ?_⟩
  · rintro e rfl
    rfl
  · rintro rfl
    exact ⟨fun s5 e h => by simp only [h], fun s5 h => by simp only [h]⟩

section position
variable {s : State} {c : Cmd} {ssp n j : Nat} {src : Int} {ix : Index} (hc : s.cmdAt c.id = some c)
include hc

/-- A new position waits while its block is being saved, unless it waits for a peer's answer. -/
theorem scatterPosition_held (hk : c.k = .scatter ssp src ix n none) (hstop : s.stopping c.blk = true)
    (hasked : s.asked (.event (.scatterPosition c.id j)) = false) : execScatterPosition c.id j s = .next s := by
  simp only [execScatterPosition, hc]
  split
  case h_2 _ hother => exact absurd hk (hother _ _ _ _ _)
  next hk' =>
  cases hk.symm.trans hk'
  rw [hstop, hasked, if_pos (by simp)]

variable (hhead : s.gaHead c = true) (hstatus : c.status = none) (hj : j < n) (hnew : j ∉ c.landed)
include hhead hstatus hj hnew

/-- A position that an access had stopped goes on. -/
theorem scatterPosition_goes_on {x m : Nat} {bs : List Byte} (hk : c.k = .scatter ssp src ix n (some (j, x, m, bs))) :
    execScatterPosition c.id j s = .next (s.posGo { c with started := true } ssp src ix n j x m bs) := by
  have hleft : decide (n ≤ j) = false := decide_eq_false (Nat.not_le.mpr hj)
  have hlanded : c.landed.contains j = false := Bool.eq_false_iff.mpr fun h => hnew (List.contains_iff_mem.mp h)
  simp only [execScatterPosition, hc]
  split
  case h_2 _ hother => exact absurd hk (hother _ _ _ _ _)
  next hk' =>
  cases hk.symm.trans hk'
  rw [if_neg (by rw [hhead, hstatus, hleft, hlanded]; simp)]
  exact congrArg _ (if_pos rfl)

variable (hk : c.k = .scatter ssp src ix n none)
  (hgo : s.stopping c.blk = true → s.asked (.event (.scatterPosition c.id j)) = true) {s1 s2 : State} {xs : List Nat} {jb : Nat}
  (hxs : s.indexes { c with started := true } ix (List.range (j + 1)) = (s1, .ok xs))
  (hfree : xs.getD j 0 < ix.imax → ∀ i, i < j → xs.getD i 0 = xs.getD j 0 → i ∈ c.landed)
  (hjournal : s1.journal { c with started := true } ix j = (s2, .ok jb))
include hk hgo hxs hfree hjournal

/-- A new position counts as delivered where its index or its journal says so; else its row is read and applied. -/
theorem scatterPosition_begins : execScatterPosition c.id j s = .next
    (if ix.imax ≤ xs.getD j 0 ∨ (ix.jrnl ≠ 0 ∧ jb.testBit (j % 8) = true) then
      s2.posDone { c with started := true } j ix.rowb
    else match s2.readRow { c with started := true } ssp (src + (j * ix.rowb : Nat)) ix.rowb with
      | (s3, .error e) => s3.engFault { c with started := true } e
      | (s3, .ok bs) => s3.posGo { c with started := true } ssp src ix n j (xs.getD j 0) 0 bs) := by
  have hleft : decide (n ≤ j) = false := decide_eq_false (Nat.not_le.mpr hj)
  have hlanded : c.landed.contains j = false := Bool.eq_false_iff.mpr fun h => hnew (List.contains_iff_mem.mp h)
  have hgoes : (s.stopping c.blk && (none : Option (Nat × Nat × Nat × List Byte)).isNone &&
      !s.asked (.event (.scatterPosition c.id j))) = false := by
    cases hstop : s.stopping c.blk with
    | false => rfl
    | true => rw [hgo hstop]; rfl
  have hrow : ¬ ((decide (xs.getD j 0 < ix.imax) &&
      (List.range j).any (fun i => xs.getD i 0 = xs.getD j 0 && !c.landed.contains i)) = true) := by
    simp only [Bool.and_eq_true, decide_eq_true_eq, List.any_eq_true, List.mem_range, Bool.not_eq_true', not_and, not_exists]
    intro hlt i hi heq
    rw [Bool.not_eq_false, List.contains_iff_mem]
    exact hfree hlt i hi heq
  simp only [execScatterPosition, hc]
  split
  case h_2 _ hother => exact absurd hk (hother _ _ _ _ _)
  next hk' =>
  cases hk.symm.trans hk'
  rw [if_neg (by rw [hhead, hstatus, hleft, hlanded, hgoes]; exact Bool.false_ne_true)]
  simp only [hxs]
  rw [if_neg hrow]
  simp only [hjournal]
  refine congrArg Host.Outcome.next (if_congr ?_ rfl rfl)
  simp [Nat.testBit_eq_decide_div_mod_eq]

end position

theorem positionsLand : Claim.PositionsLand := by
  intro s c ssp n j src ix hc hhead hstatus hj hnew c1 a waits
  rw [show exec (.scatterPosition c.id j) s = execScatterPosition c.id j s from rfl]
  refine ⟨fun hk hstop hwaits => scatterPosition_held hc hk hstop hwaits, fun hk hgo s1 xs s2 jb hxs => ?_, fun x m bs hk => ?_⟩
  · intro x hfree hjournal skip
    have hexec := scatterPosition_begins hc hhead hstatus hj hnew hk hgo hxs hfree hjournal
    refine ⟨fun hskip => ?_, fun hskip s3 bs hread => ?_⟩
    · rw [hexec, if_pos hskip]
    · rw [hexec, if_neg hskip]
      simp only [c1] at hread
      simp only [hread]
      exact ⟨_, rfl, posGo_spec ..⟩
  · exact ⟨_, scatterPosition_goes_on hc hhead hstatus hj hnew hk, posGo_spec ..⟩

/-! ## Copies (R219, R270, R273, R275) -/

section copies
variable {s : State} {c : Cmd} (hc : s.cmdAt c.id = some c) (hstart : s.startCopies c.core = s)
include hc hstart

theorem copyLanding_lands {ssp dsp : Nat} {m : Moves} {fol : Option Follow} {pre : Sparse Byte} {unpub : List Nat} {line : Nat}
    (hk : c.k = .copy ssp dsp m fol pre unpub) (hdsp : dsp < 2) (hstarted : c.started = true) (hstatus : c.status = none)
    (hfault : c.fault = none) (hline : line ∉ c.landed) (hmoves : (lineMoves dsp line m).1 ≠ []) {s1 s2 : State}
    {r : List (Nat × Byte) × Sparse Byte} {w : State × Sparse Byte} (hread : s.readLine c ssp dsp line m pre unpub = (s1, .ok r))
    (hsave : s1.saveSources c ssp dsp line m r.2 = w) (hstore : w.1.engStoreLine c dsp r.1 = (s2, .ok ())) :
    let y := Claim.signals s2 { c with landed := line :: c.landed, k := .copy ssp dsp m fol w.2 unpub } (lineMoves dsp line m).2
    exec (.copyLanding c.id line) s = .next (y.1.putCmd y.2) := by
  have hlanded : c.landed.contains line = false := Bool.eq_false_iff.mpr fun h => hline (List.contains_iff_mem.mp h)
  have hbank : decide (2 ≤ dsp) = false := decide_eq_false (by omega)
  rw [show exec (.copyLanding c.id line) s = execCopyLanding c.id line s from rfl]
  simp only [execCopyLanding, hc, hstart]
  split
  case h_2 _ hother => exact absurd hk (hother _ _ _ _ _ _)
  next hk' =>
  cases hk.symm.trans hk'
  rw [if_neg (by rw [hstarted, hstatus, hfault, hlanded, hbank, decide_eq_false hmoves]; simp)]
  simp only [hread, hsave, hstore]
  rfl

variable (hboards : s.registerBoards c.core = s)
include hboards

theorem commandCompletion_copy {ssp dsp : Nat} {m : Moves} {fol : Option Follow} {pre : Sparse Byte} {unpub : List Nat}
    (hk : c.k = .copy ssp dsp m fol pre unpub) :
    exec (.commandCompletion c.id) s = .next ((s.copyEnd c dsp m fol).getD s) := by
  rw [show exec (.commandCompletion c.id) s = execCommandCompletion c.id s from rfl]
  simp only [execCommandCompletion, hc, hstart, hboards, hk]

theorem commandCompletion_gather (hhead : s.gaHead c = true) (hstatus : c.status = none) (hdone : c.gatherDone = true) :
    exec (.commandCompletion c.id) s = .next (s.endCmd c 0x00 0 false) := by
  rw [show exec (.commandCompletion c.id) s = execCommandCompletion c.id s from rfl]
  simp only [execCommandCompletion, hc, hstart, hboards]
  cases hk : c.k with
  | patch | gather | scatter =>
    simp only [hhead, hstatus, hdone, Bool.not_true, Bool.false_eq_true, ↓reduceIte]
    rfl
  | _ => simp [Cmd.gatherDone, hk] at hdone

end copies

section copyEnd
variable {s : State} {c : Cmd} {dsp : Nat} {m : Moves} {fol : Option Follow} (hstarted : c.started = true) (hfault : c.fault = none)
include hstarted hfault

/-- A copy that has failed ends with its status, and its follow-on is dropped. -/
theorem copyEnd_failed {st : Nat} (hstatus : c.status = some st) (hst : st ≠ 0x01) :
    s.copyEnd c dsp m fol = some ((s.endCmd c st 0 false).dropFollow c.blk fol arrFault) := by
  have hnoop : decide (st = cNOOP) = false := decide_eq_false hst
  simp only [State.copyEnd, hstatus, hstarted, hfault, hnoop, if_neg (show ¬ st = cNOOP from hst), Option.isNone_none,
    Bool.and_self, ↓reduceIte]

variable (hstatus : c.status = none) (hlanded : ∀ l ∈ moveLines dsp m, l ∈ c.landed)
include hstatus hlanded

theorem copyEnd_landed : s.copyEnd c dsp m none = some (s.endCmd c 0x00 0 false) := by
  have hall : (moveLines dsp m).all c.landed.contains = true :=
    List.all_eq_true.mpr fun l hl => List.contains_iff_mem.mpr (hlanded l hl)
  simp only [State.copyEnd, hstatus, hstarted, hfault, hall, Option.isNone_none, Bool.and_self, ↓reduceIte]
  rfl

/-- A copy all of whose lines have landed pushes its follow-on where the matrix queue has room. -/
theorem copyEnd_follow {f : Follow} (hread : s.badRead c.blk (countRead f.cw (BitVec.ofNat 64 f.cnt)) = none)
    (hroom : s.roomIn c.core .mx 1 = true) :
    s.copyEnd c dsp m (some f) = some ((s.pushFollow c f f.aoff f.g).endCmd c 0x00 0 false) := by
  have hall : (moveLines dsp m).all c.landed.contains = true :=
    List.all_eq_true.mpr fun l hl => List.contains_iff_mem.mpr (hlanded l hl)
  simp only [State.copyEnd, hstatus, hstarted, hfault, hall, hread, hroom, Option.isNone_none, Bool.and_self, Bool.true_or,
    ↓reduceIte]
  rfl

end copyEnd

/-- Settles O39: the landing of a copy's line and its end, case by case; engines read and write home; and the gather engine's
three events, each by its equation. -/
theorem copiesAndGathersLandAndComplete : Obligations.CopiesAndGathersLandAndComplete := by
  refine ⟨fun s c => ⟨?_, ?_, fun hc hstart hboards hhead hstatus hdone =>
    commandCompletion_gather hc hstart hboards hhead hstatus hdone⟩, engineReads, engineWrites, scatterReduces, windowRows,
    patchLinesLand, windowsLand, positionsLand, positionsCountOnce⟩
  · intro ssp dsp m fol pre unpub line hc hstart hk hdsp hstarted hstatus hfault hline hmoves s1 r w s2 hread hsave hstore
    exact copyLanding_lands hc hstart hk hdsp hstarted hstatus hfault hline hmoves hread hsave hstore
  · intro ssp dsp m fol pre unpub hc hstart hboards hk hstarted hfault
    have hexec := commandCompletion_copy hc hstart hboards hk
    refine ⟨fun hstatus hlanded => ⟨?_, ?_⟩, fun st hstatus hst => ?_⟩
    · rintro rfl
      rw [hexec, copyEnd_landed hstarted hfault hstatus hlanded]
      rfl
    · rintro f rfl hread hroom
      rw [hexec, copyEnd_follow hstarted hfault hstatus hlanded hread hroom]
      rfl
    · rw [hexec, copyEnd_failed hstarted hfault hstatus hst]
      rfl

end Sys2Proof.Machine
end

section
/-! PROOFS. Instruction words: the fields of a word, the codes of every form, and decoding as the inverse of encoding
(R131, R134-R140, R156, R157, R325, Tables 10.1 to 10.9). -/

namespace Sys2Proof

theorem Fields.ofWord_word (f : Fields) : Fields.ofWord f.word = f := by
  unfold Fields.ofWord Fields.word
  congr
  all_goals repeat refine (BitVec.extractLsb'_append_eq_of_le (by decide)).trans ?_
  · exact BitVec.extractLsb'_eq_self
  all_goals exact BitVec.extractLsb'_append_eq_right

theorem toNat_ofNat_of_lt {w n : Nat} (h : n < 2 ^ w) : (BitVec.ofNat w n).toNat = n := by
  rw [BitVec.toNat_ofNat, Nat.mod_eq_of_lt h]

theorem bit_lt (b : Bool) : bit b < 2 := by cases b <;> decide

/-- A bit of a number, where the number holds a flag there. -/
theorem nbit_of_flag {n i : Nat} {b : Bool} (h : n / 2 ^ i % 2 = bit b) : nbit n i = b := by
  rw [nbit, h]
  cases b <;> rfl

/-! ### The common fields -/

theorem Spec.code_lt (s : Spec) : s.code < 2 ^ 8 := by
  cases s with
  | port r => cases r <;> decide
  | special r => cases r <;> decide
  | imm k => cases k <;> decide
  | _ => simp only [Spec.code]; omega

theorem Spec.ofCode_code : ∀ s : Spec, Spec.ofCode s.code = some s
  | .d i => by simp [Spec.code, Spec.ofCode]
  | .w i | .p i | .q i | .n i | .m i | .small i => by revert i; decide
  | .port r => by cases r <;> rfl
  | .special r => by cases r <;> rfl
  | .imm k => by cases k <;> rfl
  | .none => rfl

theorem Pred.code_lt (p : Pred) : p.code < 12 := by
  cases p <;> simp only [Pred.code] <;> omega

theorem Pred.ofCode_code : ∀ p : Pred, Pred.ofCode p.code = some p
  | .p i | .q i => by revert i; decide

theorem Guard.code_lt (g : Guard) : g.code < 2 ^ 5 := by
  have hneg := bit_lt g.neg
  have hpred := g.pred.code_lt
  simp only [Guard.code]
  omega

theorem Guard.ofCode_code (g : Guard) : Guard.ofCode g.code = some g := by
  have hpred := g.pred.code_lt
  have hlow : g.code % 16 = g.pred.code := by simp only [Guard.code]; omega
  have hhigh : g.code / 16 = bit g.neg := by simp only [Guard.code]; omega
  rw [Guard.ofCode, hlow, hhigh, Pred.ofCode_code]
  obtain ⟨neg, pred⟩ := g
  cases neg <;> rfl

theorem Hint.code_lt (h : Hint) : h.code < 2 ^ 3 := by cases h <;> decide
theorem Hint.ofCode_code (h : Hint) : Hint.ofCode h.code = some h := by cases h <;> rfl

theorem Sched.code_lt (s : Sched) : s.code < 2 ^ 7 := by
  have hyield := bit_lt s.yield
  have hboost := bit_lt s.boost
  simp only [Sched.code]
  omega

theorem Sched.ofCode_code : ∀ s : Sched, Sched.ofCode s.code = some s
  | ⟨y, stall, b⟩ => by revert y stall b; decide

theorem Seq.code_lt (q : Seq) : q.code < 2 ^ 20 := by
  cases q with
  | ifT p t => have := p.code_lt; simp only [Seq.code]; omega
  | ifN p t => have := p.code_lt; simp only [Seq.code]; omega
  | _ => simp only [Seq.code]; omega

/-- The specifier that slot E of a word holds: the register of an indirect target, or the operand (R140). -/
def Seq.slotE (q : Seq) (e : Spec) : Spec :=
  match q.indReg with
  | some w => .w w
  | none => e

/-- The three parts of the `seq` field: selector, condition and target (Table 10.4). -/
theorem seqField_parts {n sel cond : Nat} {t : BitVec 13} (hn : n = sel * 131072 + cond * 8192 + t.toNat)
    (hcond : cond < 16) : n / 131072 = sel ∧ n / 8192 % 16 = cond ∧ BitVec.ofNat 13 n = t := by
  refine ⟨by omega, by omega, BitVec.eq_of_toNat_eq ?_⟩
  rw [BitVec.toNat_ofNat]
  omega

theorem Seq.ofCode_code (q : Seq) (e : Spec) : Seq.ofCode q.code (q.slotE e) = .ok q := by
  cases q with
  | seq | ret | fin | goInd | callInd => simp [Seq.ofCode, Seq.code, Seq.slotE, Seq.indReg]
  | go t =>
    obtain ⟨hsel, hcond, ht⟩ := seqField_parts (n := (Seq.go t).code) (sel := 1) (cond := 0) (t := t)
      (by simp only [Seq.code]; omega) (by decide)
    simp [Seq.ofCode, hsel, hcond, ht]
  | call t =>
    obtain ⟨hsel, hcond, ht⟩ := seqField_parts (n := (Seq.call t).code) (sel := 4) (cond := 0) (t := t)
      (by simp only [Seq.code]; omega) (by decide)
    simp [Seq.ofCode, hsel, hcond, ht]
  | ifT p t =>
    have hp := p.code_lt
    obtain ⟨hsel, hcond, ht⟩ := seqField_parts (n := (Seq.ifT p t).code) (sel := 2) (cond := p.code) (t := t)
      (by simp only [Seq.code]; omega) (by omega)
    simp [Seq.ofCode, hsel, hcond, ht, Pred.ofCode_code]
  | ifN p t =>
    have hp := p.code_lt
    obtain ⟨hsel, hcond, ht⟩ := seqField_parts (n := (Seq.ifN p t).code) (sel := 3) (cond := p.code) (t := t)
      (by simp only [Seq.code]; omega) (by omega)
    simp [Seq.ofCode, hsel, hcond, ht, Pred.ofCode_code]
  | loop n t =>
    obtain ⟨hsel, hcond, ht⟩ := seqField_parts (n := (Seq.loop n t).code) (sel := 6) (cond := n.val) (t := t)
      (by simp only [Seq.code]; omega) (by omega)
    simp [Seq.ofCode, hsel, hcond, ht]

/-- What a word that passes the checks of Table 10.13 meets: listed modifier and field values, no immediate beside a field,
and an unused operand slot E where the sequencing form takes it (R137, R140). -/
theorem Entry.of_check {n : Entry} (h : n.check = none) :
    n.modOk = true ∧ (n.field.isSome → n.o.imm = 0) ∧ (n.x.seq.indirect = true → n.o.e = .none) := by
  unfold Entry.check at h
  split_ifs at h with hmod hfield hhint hind hslot
  refine ⟨by simpa using hmod, fun hf => by simpa [hf] using hfield, fun hq => ?_⟩
  have hrole : n.roles.e = .unused := by simpa [hq] using hind
  have hfits : n.roles.e.fits n.field.isSome n.o.e = true := by
    simp only [Bool.not_eq_true', Bool.not_eq_false, Bool.and_eq_true] at hslot
    exact hslot.2
  rw [hrole] at hfits
  by_contra hne
  simp [Role.fits, Role.accepts, hne] at hfits

/-- The common fields of an entry's word are read back (Table 10.1). -/
theorem Entry.common_fields {n : Entry} (hind : n.x.seq.indirect = true → n.o.e = .none) :
    n.fields.common = .ok (n.x, { n.o with imm := n.fields.imm }) := by
  have hE : n.fields.e.toNat = (n.x.seq.slotE n.o.e).code := by
    rw [← toNat_ofNat_of_lt (Spec.code_lt _)]
    unfold Entry.fields Seq.slotE
    cases n.x.seq.indReg <;> rfl
  have hq : (if n.x.seq.indirect = true then Spec.none else n.x.seq.slotE n.o.e) = n.o.e := by
    cases hx : n.x.seq with
    | goInd w | callInd w => exact (hind (by rw [hx]; rfl)).symm
    | _ => rfl
  unfold Fields.common
  rw [hE]
  simp only [Entry.fields, toNat_ofNat_of_lt (Spec.code_lt _), toNat_ofNat_of_lt (Guard.code_lt _),
    toNat_ofNat_of_lt (Hint.code_lt _), toNat_ofNat_of_lt (Sched.code_lt _), toNat_ofNat_of_lt (Seq.code_lt _),
    Spec.ofCode_code, Guard.ofCode_code, Hint.ofCode_code, Sched.ofCode_code, Seq.ofCode_code, hq]

/-! ### Modifiers and fields: the decoder reads what the encoder writes (Tables 10.12, 12.1, 14.1, 16.9, 18.3, 22.5) -/

theorem ETy.ofCode_code (t : ETy) : ETy.ofCode t.code = some t := by cases t <;> rfl
theorem MTy.ofCode_code (t : MTy) : MTy.ofCode t.code = some t := by cases t <;> rfl
theorem ATy.ofCode_code (t : ATy) : ATy.ofCode t.code = some t := by cases t <;> rfl
theorem AOp.ofCode_code (o : AOp) : AOp.ofCode o.code = some o := by cases o <;> rfl
theorem Ord.ofCode_code (o : Ord) : Ord.ofCode o.code = some o := by cases o <;> rfl
theorem Scope.ofCode_code (s : Scope) : Scope.ofCode s.code = some s := by cases s <;> rfl
theorem Space.ofCode_code (sp : Space) : Space.ofCode sp.code = some sp := by cases sp <;> rfl
theorem RMode.ofCode_code (r : RMode) : RMode.ofCode r.code = some r := by cases r <;> rfl
theorem SSp.ofCode_code (sp : SSp) : SSp.ofCode sp.code = some sp := by cases sp <;> rfl
theorem RelOp.ofCode_code (o : RelOp) : RelOp.ofCode o.code = some o := by cases o <;> rfl
theorem VOp.ofCode_code (o : VOp) : o.code < 64 ∧ VOp.ofCode o.code = some o := by cases o <;> decide
theorem BarOp.ofCode_code (o : BarOp) : o.code < 64 ∧ BarOp.ofCode o.code = some o := by cases o <;> decide
theorem ArrvOp.ofCode_code (o : ArrvOp) : o.code < 64 ∧ ArrvOp.ofCode o.code = some o := by cases o <;> decide
theorem FlushOp.ofCode_code (o : FlushOp) : o.code < 64 ∧ FlushOp.ofCode o.code = some o := by cases o <;> decide
theorem RftOp.ofCode_code (o : RftOp) : o.code < 64 ∧ RftOp.ofCode o.code = some o := by cases o <;> decide
theorem flagOf_bit (b : Bool) : bit b < 64 ∧ flagOf (bit b) = some b := by cases b <;> decide

theorem ETy.code_le (t : ETy) : t.code ≤ 14 := by cases t <;> decide
theorem MTy.code_le (t : MTy) : t.code ≤ 7 := by cases t <;> decide
theorem ATy.code_le (t : ATy) : t.code ≤ 7 := by cases t <;> decide
theorem AOp.code_le (o : AOp) : o.code ≤ 7 := by cases o <;> decide
theorem Ord.code_le (o : Ord) : o.code ≤ 3 := by cases o <;> decide
theorem Scope.code_le (s : Scope) : s.code ≤ 4 := by cases s <;> decide
theorem Space.code_le (sp : Space) : sp.code ≤ 2 := by cases sp <;> decide
theorem RMode.code_le (r : RMode) : r.code ≤ 5 := by cases r <;> decide
theorem SSp.code_le (sp : SSp) : sp.code ≤ 1 := by cases sp <;> decide
theorem RelOp.code_le (o : RelOp) : o.code ≤ 6 := by cases o <;> decide

/-! #### Forms that are a modifier alone -/

theorem IMod.ofCode_code : ∀ m : IMod, m.code < 64 ∧ IMod.ofCode m.code = some m
  | ⟨t, s, v⟩ => by cases t <;> cases s <;> cases v <;> decide
theorem FMod.ofCode_code : ∀ m : FMod, m.code < 64 ∧ FMod.ofCode m.code = some m
  | ⟨t, r⟩ => by cases t <;> cases r <;> decide
theorem FCMod.ofCode_code : ∀ m : FCMod, m.code < 64 ∧ FCMod.ofCode m.code = some m
  | ⟨t, c⟩ => by cases t <;> cases c <;> decide
theorem YMod.ofCode_code : ∀ m : YMod, m.code < 64 ∧ YMod.ofCode m.code = some m
  | ⟨t, o⟩ => by cases t <;> cases o <;> decide
theorem SMod.ofCode_code : ∀ m : SMod, m.code < 64 ∧ SMod.ofCode m.code = some m
  | ⟨r, s⟩ => by cases r <;> cases s <;> decide
theorem WMod.ofCode_code : ∀ m : WMod, m.code < 64 ∧ WMod.ofCode m.code = some m
  | ⟨c, s, a, q⟩ => by cases c <;> cases s <;> cases a <;> cases q <;> decide
theorem ShMod.ofCode_code : ∀ m : ShMod,
    m.ty.code * 4 + m.mode.code < 64 ∧ ShMod.ofCode (m.ty.code * 4 + m.mode.code) = some m
  | ⟨t, o⟩ => by cases t <;> cases o <;> decide
theorem CpyMod.ofCode_code : ∀ m : CpyMod, cpyCode m < 64 ∧ CpyMod.ofCode (cpyCode m) = some m
  | ⟨sp, d, c, r⟩ => by cases sp <;> cases d <;> cases c <;> cases r <;> decide
theorem GthMod.ofCode_code : ∀ m : GthMod, gthCode m < 64 ∧ GthMod.ofCode (gthCode m) = some m
  | ⟨sp, c, r⟩ => by cases sp <;> cases c <;> cases r <;> decide

/-- A comparison of an integer type fits the modifier; wider ones have no code in it (Table 12.1). -/
theorem CMod.ofCode_code : ∀ m : CMod, m.ty.inL = true → m.code < 64 ∧ CMod.ofCode m.code = some m
  | ⟨t, c⟩ => by cases t <;> cases c <;> decide

theorem ETy.inL_of_inP {t : ETy} (h : t.inP = true) : t.inL = true := by
  simp only [ETy.inP, ETy.inL, decide_eq_true_eq] at *
  omega

/-! #### Forms with a field in `imm32` -/

/-- A flag in one bit of `imm32`. -/
theorem nbit_of_extract {w : Nat} {f : BitVec w} {i : Nat} {b : Bool}
    (h : f.extractLsb' i 1 = BitVec.ofNat 1 (bit b)) : nbit f.toNat i = b := by
  have hbit := congrArg BitVec.toNat h
  rw [BitVec.extractLsb'_toNat, Nat.shiftRight_eq_div_pow, toNat_ofNat_of_lt (bit_lt b)] at hbit
  exact nbit_of_flag hbit

theorem toFin_ofNat {w : Nat} (i : Fin (2 ^ w)) : (BitVec.ofNat w i.val).toFin = i :=
  Fin.ext (toNat_ofNat_of_lt i.isLt)

theorem MMod.ofCode_code (m : MMod) : m.code false < 64 ∧ MMod.ofCode (m.code false) m.off = some m := by
  have hsp := m.sp.code_le
  have hmt := m.mt.code_le
  have hcode : m.code false = m.sp.code * 16 + m.mt.code * 2 := rfl
  refine ⟨by omega, ?_⟩
  simp only [MMod.ofCode, show m.code false / 16 = m.sp.code by omega, show m.code false / 2 % 8 = m.mt.code by omega,
    show m.code false % 2 = 0 by omega, Space.ofCode_code, MTy.ofCode_code, ↓reduceIte]

theorem RelMod.ofCode_code (m : RelMod) : m.op.code * 8 + bit m.cw * 2 + bit m.rcd < 64 ∧
    RelMod.ofCode (m.op.code * 8 + bit m.cw * 2 + bit m.rcd) m.first = some m := by
  have hop := m.op.code_le
  have hcw := bit_lt m.cw
  have hrcd := bit_lt m.rcd
  have h2 : nbit (m.op.code * 8 + bit m.cw * 2 + bit m.rcd) 2 = false :=
    nbit_of_flag (b := false) (by simp only [show bit false = 0 from rfl]; omega)
  have h1 : nbit (m.op.code * 8 + bit m.cw * 2 + bit m.rcd) 1 = m.cw := nbit_of_flag (by omega)
  have h0 : nbit (m.op.code * 8 + bit m.cw * 2 + bit m.rcd) 0 = m.rcd := nbit_of_flag (by omega)
  refine ⟨by omega, ?_⟩
  simp [RelMod.ofCode, h2, h1, h0, show (m.op.code * 8 + bit m.cw * 2 + bit m.rcd) / 8 = m.op.code by omega,
    RelOp.ofCode_code]

theorem MTy.ofCode_even (t : MTy) : t.code * 2 < 16 ∧ t.code * 2 % 2 = 0 ∧ MTy.ofCode (t.code * 2 / 2) = some t := by
  cases t <;> decide

theorem HMod.ofCode_code (m : HMod) : m.mt.code * 2 < 64 ∧ HMod.ofCode (m.mt.code * 2) m.field = some m := by
  obtain ⟨hlt, heven, hty⟩ := m.mt.ofCode_even
  have hidx : m.field.extractLsb' 28 4 = BitVec.ofNat 4 m.idx.val := BitVec.extractLsb'_append_eq_left
  have hoff : m.field.extractLsb' 0 28 = m.off := BitVec.extractLsb'_append_eq_right
  refine ⟨by omega, ?_⟩
  simp only [HMod.ofCode, hlt, heven, hty, hidx, hoff, decide_true, Bool.and_self, ↓reduceIte, Option.map_some,
    toFin_ofNat (w := 4)]

theorem XMod.ofCode_code (m : XMod) : m.mt.code * 2 < 64 ∧
    XMod.ofCode (m.mt.code * 2) ((0 : BitVec 16) ++ m.row ++ m.col) = some m := by
  obtain ⟨hlt, heven, hty⟩ := m.mt.ofCode_even
  have hcol : ((0 : BitVec 16) ++ m.row ++ m.col).extractLsb' 0 8 = m.col := BitVec.extractLsb'_append_eq_right
  have hrow : ((0 : BitVec 16) ++ m.row ++ m.col).extractLsb' 8 8 = m.row :=
    (BitVec.extractLsb'_append_eq_of_le (by decide)).trans BitVec.extractLsb'_append_eq_right
  have hzero : ((0 : BitVec 16) ++ m.row ++ m.col).extractLsb' 16 16 = 0 :=
    (BitVec.extractLsb'_append_eq_of_le (by decide)).trans BitVec.extractLsb'_append_eq_left
  refine ⟨by omega, ?_⟩
  simp only [XMod.ofCode, hlt, heven, hty, hcol, hrow, hzero, decide_true, Bool.and_self, ↓reduceIte, Option.map_some]

theorem AMod.ofCode_code (m : AMod) : m.sp.code * 16 + m.aty.code < 64 ∧
    AMod.ofCode (m.sp.code * 16 + m.aty.code) m.field = some m := by
  have hsp := m.sp.code_le
  have hty := m.aty.code_le
  have hop := m.op.code_le
  have hord := m.ord.code_le
  have hscope := m.scope.code_le
  have hf : m.field.toNat = m.op.code * 256 + m.ord.code * 8 + m.scope.code := toNat_ofNat_of_lt (by omega)
  refine ⟨by omega, ?_⟩
  unfold AMod.ofCode
  rw [hf, show (m.sp.code * 16 + m.aty.code) / 16 = m.sp.code by omega,
    show (m.sp.code * 16 + m.aty.code) % 16 = m.aty.code by omega,
    show (m.op.code * 256 + m.ord.code * 8 + m.scope.code) / 256 = m.op.code by omega,
    show (m.op.code * 256 + m.ord.code * 8 + m.scope.code) / 8 % 32 = m.ord.code by omega,
    show (m.op.code * 256 + m.ord.code * 8 + m.scope.code) % 8 = m.scope.code by omega,
    Space.ofCode_code, ATy.ofCode_code, AOp.ofCode_code, Ord.ofCode_code, Scope.ofCode_code]

theorem CvtMod.ofCode_code (m : CvtMod) : m.dty.code * 4 < 64 ∧ CvtMod.ofCode (m.dty.code * 4) m.field = some m := by
  have hdty := m.dty.code_le
  have hsty := m.sty.code_le
  have hrm := m.rm.code_le
  have hsat := bit_lt m.sat
  have hf : m.field.toNat = bit m.sat * 2048 + m.part.val * 128 + m.rm.code * 16 + m.sty.code :=
    toNat_ofNat_of_lt (by omega)
  have hbit : nbit m.field.toNat 11 = m.sat := nbit_of_flag (by omega)
  have hpart : Fin.ofNat 16 (m.field.toNat / 128) = m.part := Fin.ext (by simp only [Fin.ofNat]; omega)
  refine ⟨by omega, ?_⟩
  simp only [CvtMod.ofCode, hbit, hpart]
  rw [show m.dty.code * 4 / 4 = m.dty.code by omega, show m.field.toNat % 16 = m.sty.code by omega,
    show m.field.toNat / 16 % 8 = m.rm.code by omega, ETy.ofCode_code, ETy.ofCode_code, RMode.ofCode_code]
  have hok : m.dty.code * 4 % 4 = 0 ∧ m.field.toNat < 4096 := by omega
  simp [hok]

theorem BoardMod.ofCode_code (m : BoardMod) : bit m.cw * 2 + bit m.rcd < 64 ∧
    BoardMod.ofCode (bit m.cw * 2 + bit m.rcd) m.field = some m := by
  have hcw := bit_lt m.cw
  have hrcd := bit_lt m.rcd
  have hbank := bit_lt m.bank
  have hf : m.field.toNat = bit m.bank * 2 ^ 24 + m.slot.val := toNat_ofNat_of_lt (by omega)
  have h1 : nbit (bit m.cw * 2 + bit m.rcd) 1 = m.cw := nbit_of_flag (by omega)
  have h0 : nbit (bit m.cw * 2 + bit m.rcd) 0 = m.rcd := nbit_of_flag (by omega)
  have h24 : nbit m.field.toNat 24 = m.bank := nbit_of_flag (by omega)
  have hslot : Fin.ofNat 16 m.field.toNat = m.slot := Fin.ext (by simp only [Fin.ofNat]; omega)
  refine ⟨by omega, ?_⟩
  have hlt : bit m.cw * 2 + bit m.rcd < 4 := by omega
  simp only [BoardMod.ofCode, h1, h0, h24, hslot, hlt, decide_true, Bool.and_self, ↓reduceIte]

/-- The modifier of a matrix command: its format, and whether its count word is named (Table 16.9). -/
theorem matrixMod_parts (fmt : Fin 32) (cw : Bool) : fmt.val * 2 + bit cw < 64 ∧
    Fin.ofNat 32 ((fmt.val * 2 + bit cw) / 2) = fmt ∧ nbit (fmt.val * 2 + bit cw) 0 = cw := by
  have hcw := bit_lt cw
  refine ⟨by omega, Fin.ext (by simp only [Fin.ofNat]; omega), nbit_of_flag (by omega)⟩

theorem WldMod.ofCode_code (m : WldMod) : m.fmt.val * 2 + bit m.cw < 64 ∧
    WldMod.ofCode (m.fmt.val * 2 + bit m.cw) m.field = some m := by
  obtain ⟨hlt, hfmt, hcw⟩ := matrixMod_parts m.fmt m.cw
  have hbank := bit_lt m.bank
  have hrcd := bit_lt m.rcd
  have hf : m.field.toNat = bit m.bank * 2 ^ 24 + bit m.rcd * 2 ^ 23 + m.ck.val := toNat_ofNat_of_lt (by omega)
  have h24 : nbit m.field.toNat 24 = m.bank := nbit_of_flag (by omega)
  have h23 : nbit m.field.toNat 23 = m.rcd := nbit_of_flag (by omega)
  have hck : Fin.ofNat 3 (m.field.toNat % 4) = m.ck := Fin.ext (by simp only [Fin.ofNat]; omega)
  refine ⟨hlt, ?_⟩
  simp only [WldMod.ofCode, hfmt, hcw, h24, h23, hck, ↓reduceIte]

theorem MmaMod.ofCode_code (m : MmaMod) : m.fmt.val * 2 + bit m.cw < 64 ∧
    MmaMod.ofCode (m.fmt.val * 2 + bit m.cw) m.field = some m := by
  obtain ⟨hlt, hfmt, hcw⟩ := matrixMod_parts m.fmt m.cw
  have hzero : m.field.extractLsb' 0 11 = 0 := BitVec.extractLsb'_append_eq_right
  have hstride : m.field.extractLsb' 11 12 = m.stride :=
    (BitVec.extractLsb'_append_eq_of_le (by decide)).trans BitVec.extractLsb'_append_eq_right
  have hg : m.field.extractLsb' 24 8 = m.g := by
    refine (BitVec.extractLsb'_append_eq_of_le (by decide)).trans ?_
    exact (BitVec.extractLsb'_append_eq_of_le (by decide)).trans BitVec.extractLsb'_append_eq_left
  have hrcd : nbit m.field.toNat 23 = m.rcd := by
    refine nbit_of_extract ((BitVec.extractLsb'_append_eq_of_le (by decide)).trans ?_)
    exact (BitVec.extractLsb'_append_eq_of_le (by decide)).trans BitVec.extractLsb'_append_eq_right
  refine ⟨hlt, ?_⟩
  simp only [MmaMod.ofCode, hfmt, hcw, hzero, hstride, hg, hrcd, ↓reduceIte]

theorem MmrMod.ofCode_code (m : MmrMod) : m.fmt.val * 2 + bit m.cw < 64 ∧
    MmrMod.ofCode (m.fmt.val * 2 + bit m.cw) m.field = some m := by
  obtain ⟨hlt, hfmt, hcw⟩ := matrixMod_parts m.fmt m.cw
  have hgrp : m.field.extractLsb' 0 2 = BitVec.ofNat 2 m.grp.val := BitVec.extractLsb'_append_eq_right
  have hzero : m.field.extractLsb' 2 21 = 0 :=
    (BitVec.extractLsb'_append_eq_of_le (by decide)).trans BitVec.extractLsb'_append_eq_right
  have hg : m.field.extractLsb' 24 8 = m.g := by
    refine (BitVec.extractLsb'_append_eq_of_le (by decide)).trans ?_
    exact (BitVec.extractLsb'_append_eq_of_le (by decide)).trans BitVec.extractLsb'_append_eq_left
  have hrcd : nbit m.field.toNat 23 = m.rcd := by
    refine nbit_of_extract ((BitVec.extractLsb'_append_eq_of_le (by decide)).trans ?_)
    exact (BitVec.extractLsb'_append_eq_of_le (by decide)).trans BitVec.extractLsb'_append_eq_right
  refine ⟨hlt, ?_⟩
  simp only [MmrMod.ofCode, hfmt, hcw, hzero, hgrp, hg, hrcd, ↓reduceIte, toFin_ofNat (w := 2)]

theorem AclrMod.ofCode_code (m : AclrMod) : bit m.long < 64 ∧
    AclrMod.ofCode (bit m.long) (m.g ++ (0 : BitVec 24)) = some m := by
  have hlt := bit_lt m.long
  have hlong : nbit (bit m.long) 0 = m.long := nbit_of_flag (by omega)
  have hzero : (m.g ++ (0 : BitVec 24)).extractLsb' 0 24 = 0 := BitVec.extractLsb'_append_eq_right
  have hg : (m.g ++ (0 : BitVec 24)).extractLsb' 24 8 = m.g := BitVec.extractLsb'_append_eq_left
  refine ⟨by omega, ?_⟩
  simp only [AclrMod.ofCode, hlt, hlong, hzero, hg, decide_true, Bool.and_self, ↓reduceIte]

theorem EpiMod.ofCode_code (m : EpiMod) : bit m.cw < 64 ∧ EpiMod.ofCode (bit m.cw) m.field = some m := by
  have hlt := bit_lt m.cw
  have hcw : nbit (bit m.cw) 0 = m.cw := nbit_of_flag (by omega)
  have hzero : m.field.extractLsb' 0 23 = 0 := BitVec.extractLsb'_append_eq_right
  have hg : m.field.extractLsb' 24 8 = m.g :=
    (BitVec.extractLsb'_append_eq_of_le (by decide)).trans BitVec.extractLsb'_append_eq_left
  have hrcd : nbit m.field.toNat 23 = m.rcd :=
    nbit_of_extract ((BitVec.extractLsb'_append_eq_of_le (by decide)).trans BitVec.extractLsb'_append_eq_right)
  refine ⟨by omega, ?_⟩
  simp only [EpiMod.ofCode, hlt, hcw, hzero, hg, hrcd, decide_true, Bool.and_self, ↓reduceIte]

theorem CpygMod.ofCode_code (m : CpygMod) : m.dsp.code * 4 + bit m.cw * 2 + bit m.rcd < 64 ∧
    CpygMod.ofCode (m.dsp.code * 4 + bit m.cw * 2 + bit m.rcd) m.field = some m := by
  have hdsp := m.dsp.code_le
  have hcw := bit_lt m.cw
  have hrcd := bit_lt m.rcd
  have h1 : nbit (m.dsp.code * 4 + bit m.cw * 2 + bit m.rcd) 1 = m.cw := nbit_of_flag (by omega)
  have h0 : nbit (m.dsp.code * 4 + bit m.cw * 2 + bit m.rcd) 0 = m.rcd := nbit_of_flag (by omega)
  have hzero : m.field.extractLsb' 0 10 = 0 := BitVec.extractLsb'_append_eq_right
  have hph : m.field.extractLsb' 10 10 = m.ph :=
    (BitVec.extractLsb'_append_eq_of_le (by decide)).trans BitVec.extractLsb'_append_eq_right
  have hpw : m.field.extractLsb' 20 10 = m.pw := by
    refine (BitVec.extractLsb'_append_eq_of_le (by decide)).trans ?_
    exact (BitVec.extractLsb'_append_eq_of_le (by decide)).trans BitVec.extractLsb'_append_eq_right
  have hesz : m.field.extractLsb' 30 2 = BitVec.ofNat 2 m.esz.val := by
    refine (BitVec.extractLsb'_append_eq_of_le (by decide)).trans ?_
    exact (BitVec.extractLsb'_append_eq_of_le (by decide)).trans BitVec.extractLsb'_append_eq_left
  refine ⟨by omega, ?_⟩
  simp only [CpygMod.ofCode, h1, h0, hzero, hph, hpw, hesz, ↓reduceIte, toFin_ofNat (w := 2),
    show (m.dsp.code * 4 + bit m.cw * 2 + bit m.rcd) / 4 = m.dsp.code by omega, SSp.ofCode_code, Option.map_some]

theorem codeOf_setWidth (code : BitVec 16) : 0 < 64 ∧ codeOf 0 (code.setWidth 32) = some code := by
  have hhigh : (code.setWidth 32).extractLsb' 16 16 = 0 := by
    ext i hi
    simp only [BitVec.getElem_extractLsb', BitVec.getLsbD_setWidth]
    simp
  have hlow : (code.setWidth 32).extractLsb' 0 16 = code := by
    rw [← BitVec.setWidth_eq_extractLsb' (by decide), BitVec.setWidth_setWidth_of_le code (by decide), BitVec.setWidth_eq]
  simp [codeOf, hhigh, hlow]

theorem selOf_code (r : CtlReg) : 0 < 64 ∧ selOf 0 (BitVec.ofNat 32 r.code) = some r := by cases r <;> decide

/-! ### What `build` makes of an entry -/

/-- The word of an entry decodes to an instruction: the opcode is assigned, the modifier has a code, and the decoder makes the
instruction of them. -/
structure Entry.Builds (n : Entry) (i : Instr) : Prop where
  assigned : assigned n.op = true
  modLt : n.mod < 64
  built : build n.op n.mod n.fields.imm n.x { n.o with imm := n.fields.imm } = some i

section builds

variable {α : Type} {n : Entry} {i : Instr} {k : Nat} {dec : Option α} {m : α}

/-- An entry without a field: what the decoder reads of the modifier gives the instruction. -/
theorem Entry.Builds.plain {c : α → Instr} (h : k < 64 ∧ dec = some m) (hk : n.mod = k)
    (hop : Sys2Proof.assigned n.op = true) (hfield : n.field = none)
    (hb : build n.op n.mod n.o.imm n.x n.o = dec.map c) (hi : c m = i) : n.Builds i := by
  have himm : n.fields.imm = n.o.imm := by simp only [Entry.fields, hfield]
  refine ⟨hop, hk ▸ h.1, ?_⟩
  rw [himm, show ({ n.o with imm := n.o.imm } : Slots) = n.o from rfl, hb, h.2, Option.map_some, hi]

/-- An entry that uses `imm32` as a field: the slots of its instruction have no immediate. -/
theorem Entry.Builds.ofField {c : Slots → Instr} {f : BitVec 32} (hlt : n.mod < 64)
    (hop : Sys2Proof.assigned n.op = true) (himm : n.field.isSome → n.o.imm = 0) (hfield : n.field = some f)
    (hb : ∀ o : Slots, build n.op n.mod f n.x o = some (c o)) (hi : ∀ o : Slots, o.fld = n.o → c o = i) :
    n.Builds i := by
  have hf : n.fields.imm = f := by simp only [Entry.fields, hfield]
  have ho : ({ n.o with imm := f } : Slots).fld = n.o := by
    rw [Slots.fld, ← himm (by rw [hfield]; rfl)]
  exact ⟨hop, hlt, by rw [hf, hb, hi _ ho]⟩

/-- An entry with a field, where the decoder reads its modifier and field together. -/
theorem Entry.Builds.field {c : Slots → α → Instr} {f : BitVec 32} (h : k < 64 ∧ dec = some m) (hk : n.mod = k)
    (hop : Sys2Proof.assigned n.op = true) (himm : n.field.isSome → n.o.imm = 0) (hfield : n.field = some f)
    (hb : ∀ o : Slots, build n.op n.mod f n.x o = dec.map (c o)) (hi : ∀ o : Slots, o.fld = n.o → c o m = i) :
    n.Builds i :=
  .ofField (c := (c · m)) (hk ▸ h.1) hop himm hfield (fun o => by rw [hb, h.2, Option.map_some]) hi

end builds

theorem build_plop (m : PLogic) (inv : Bool) (x : Ctl) (o : Slots) (f : BitVec 32) :
    build 0x189 (m.code + 4 * bit inv) f x o = some (.plop x m inv o) := by
  cases m <;> cases inv <;> rfl

theorem plopMod_lt (m : PLogic) (inv : Bool) : m.code + 4 * bit inv < 64 := by
  cases m <;> cases inv <;> decide

theorem build_tbar (pass swap : Bool) (x : Ctl) (o : Slots) (f : BitVec 32) :
    build 0x283 (bit pass + 2 * bit swap) f x o = some (.tbar x pass swap o) := by
  cases pass <;> cases swap <;> rfl

theorem tbarMod_lt (pass swap : Bool) : bit pass + 2 * bit swap < 64 := by
  cases pass <;> cases swap <;> decide

theorem snapMod_lt (op : SnapOp) (rcd : Bool) : op.code * 2 + bit rcd < 64 := by
  cases op <;> cases rcd <;> decide

theorem build_fsnap (op : SnapOp) (rcd : Bool) (x : Ctl) (o : Slots) :
    build 0x311 (op.code * 2 + bit rcd) 0 x o = some (.fsnap x op rcd o.fld) := by
  cases op <;> cases rcd <;> rfl

/-- Words whose entry passes the checks are built again from their parts, form by form. -/
theorem Instr.builds_of_entry {i : Instr} {n : Entry} (h : i.entry = some n) (hc : n.check = none) : n.Builds i := by
  obtain ⟨hmod, himm, -⟩ := Entry.of_check hc
  cases i with
  | iadd x m o | isub x m o | imul x m o | imulh x m o | imad x m o | idiv x m o | irem x m o | ineg x m o
  | iabs x m o | imin x m o | imax x m o | andL x m o | orL x m o | xorL x m o | andn x m o | shl x m o | shr x m o
  | sar x m o | rol x m o | clz x m o | ctz x m o | popc x m o | brev x m o | bfx x m o | bfi x m o | sel x m o
  | mov x m o | lea x m o | padd x m o | psub x m o | pmul x m o | pmad x m o | pmin x m o | pmax x m o | pabs x m o
  | pavg x m o | psad x m o | pdot x m o | pshl x m o | pshr x m o | pack x m o | unpack x m o | swz x m o
  | bcast x m o =>
    obtain rfl := Option.some.inj h
    exact .plain m.ofCode_code rfl rfl rfl rfl rfl
  | fadd x m o | fsub x m o | fmul x m o | fma x m o | fmin x m o | fmax x m o | fabs x m o | fneg x m o
  | fclass x m o | fdot2 x m o | fscale x m o | frcp x m o | frsq x m o | fsqrt x m o | fexp2 x m o | flog2 x m o
  | fsin x m o | fcos x m o | ftanh x m o | fdiv x m o | fcmp x m o =>
    obtain rfl := Option.some.inj h
    exact .plain m.ofCode_code rfl rfl rfl rfl rfl
  | shfl x m o | wred x m o | wscan x m o | vote x m o | phase x m o | fence x m o | wait x m o | bar x m o
  | arrv x m o | cpy x m o | cpyt x m o | cpym x m o | gth x m o | sct x m o =>
    obtain rfl := Option.some.inj h
    exact .plain m.ofCode_code rfl rfl rfl rfl rfl
  | icmp x m o =>
    obtain rfl := Option.some.inj h
    exact .plain (m.ofCode_code hmod) rfl rfl rfl rfl rfl
  | pcmp x m o =>
    obtain rfl := Option.some.inj h
    exact .plain (m.ofCode_code (ETy.inL_of_inP hmod)) rfl rfl rfl rfl rfl
  | matchW x o | wset x o | first x o | pset x o | locq x o | dcf x o | await x o | txb x o | txc x o | txa x o
  | txs x o | yieldW x o | rstl x o | launch x o
  | pmov x o | pmovScatter x o | iaddc x o =>
    obtain rfl := Option.some.inj h
    exact ⟨rfl, Nat.le_of_ble_eq_true rfl, rfl⟩
  | unite x b o | find x b o | fsize x b o | spawn x b o | perf x b o =>
    obtain rfl := Option.some.inj h
    exact .plain (flagOf_bit b) rfl rfl rfl rfl rfl
  | ld x m o | st x m o | ldu x m o | stu x m o | ldm x m o | ldh x m o | chk x m o | atom x m o | atomc x m o
  | red x m o | xst x m o | cvt x m o | cpyg x m o | wld x m o | board x m o | mma x m o | mms x m o | mmr x m o
  | aclr x m o | epi x m o | relabel x m o =>
    obtain rfl := Option.some.inj h
    exact .field m.ofCode_code rfl rfl himm rfl (fun _ => rfl) (by rintro _ rfl; rfl)
  | pref x llc off o =>
    obtain rfl := Option.some.inj h
    exact .field (flagOf_bit llc) rfl rfl himm rfl (fun _ => rfl) (by rintro _ rfl; rfl)
  | cflush x op off o =>
    obtain rfl := Option.some.inj h
    exact .field op.ofCode_code rfl rfl himm rfl (fun _ => rfl) (by rintro _ rfl; rfl)
  | trap x code o | sysc x code o | brk x code o | halt x code o =>
    obtain rfl := Option.some.inj h
    exact .field (codeOf_setWidth code) rfl rfl himm rfl (fun _ => rfl) (by rintro _ rfl; rfl)
  | srd x r o | swr x r o =>
    obtain rfl := Option.some.inj h
    exact .field (selOf_code r) rfl rfl himm rfl (fun _ => rfl) (by rintro _ rfl; rfl)
  | fundo x rcd o =>
    obtain rfl := Option.some.inj h
    exact .field (flagOf_bit rcd) rfl rfl himm rfl (fun _ => rfl) (by rintro _ rfl; rfl)
  | rft x op o =>
    obtain rfl := Option.some.inj h
    exact .field op.ofCode_code rfl rfl himm rfl (fun _ => rfl) (by rintro _ rfl; rfl)
  | nop x o =>
    obtain rfl := Option.some.inj h
    exact .ofField (Nat.le_of_ble_eq_true rfl) rfl himm rfl (fun _ => rfl) (by rintro _ rfl; rfl)
  | plop x m inv o =>
    obtain rfl := Option.some.inj h
    exact ⟨rfl, plopMod_lt m inv, build_plop m inv x o _⟩
  | tbar x pass swap o =>
    obtain rfl := Option.some.inj h
    exact ⟨rfl, tbarMod_lt pass swap, build_tbar pass swap x o _⟩
  | qfence x q o =>
    obtain rfl := Option.some.inj h
    exact .ofField q.isLt rfl himm rfl (fun _ => rfl) (by rintro _ rfl; rw [BitVec.ofNat_toNat, BitVec.setWidth_eq])
  | fsnap x op rcd o =>
    obtain rfl := Option.some.inj h
    exact .ofField (snapMod_lt op rcd) rfl himm rfl (build_fsnap op rcd x) (by rintro _ rfl; rfl)
  | _ => cases h

/-! ### Decoding inverts encoding -/

theorem assigned_bounds {op : Nat} (h : assigned op = true) : op ≠ 0 ∧ op < 0x3FF := by
  simp only [assigned, Bool.or_eq_true, Bool.and_eq_true, decide_eq_true_eq] at h
  omega

theorem Instr.check_of_entry {i : Instr} {n : Entry} (h : i.entry = some n) (hc : i.check = none) : n.check = none := by
  unfold Instr.check at hc
  simp only [h] at hc
  split at hc
  · split at hc
    · exact hc
    · cases hc
  · exact hc

/-- The word of an entry that the decoder builds and that passes the checks decodes to its instruction. -/
theorem decode_word {i : Instr} {n : Entry} (hb : n.Builds i) (hi : i.check = none)
    (hind : n.x.seq.indirect = true → n.o.e = .none) : decode n.fields.word = .ok i := by
  obtain ⟨hassigned, hmod, hbuilt⟩ := hb
  obtain ⟨hop0, hop⟩ := assigned_bounds hassigned
  have hopn : n.fields.op.toNat = n.op := toNat_ofNat_of_lt (by omega)
  have hmodn : n.fields.mod.toNat = n.mod := toNat_ofNat_of_lt hmod
  unfold decode
  simp only [Fields.ofWord_word, hopn, hmodn, hassigned, Entry.common_fields hind, hbuilt, hi]
  simp [hop0, hop.ne]

theorem decode_zero : decode 0 = .ok .ill := rfl

/-- Settles O57: the word of a well-formed instruction holds the fields of its entry, each is read back, and the decoder builds
the instruction of them again. -/
theorem decodeInvertsEncode : Obligations.DecodeInvertsEncode := by
  intro i w hwf hw
  have hcheck : i.check = none := Option.isNone_iff_eq_none.mp hwf
  unfold encode at hw
  cases hentry : i.entry with
  | some n =>
    simp only [hentry] at hw
    obtain rfl := Option.some.inj hw
    have hn := Instr.check_of_entry hentry hcheck
    exact decode_word (Instr.builds_of_entry hentry hn) hcheck (Entry.of_check hn).2.2
  | none =>
    simp only [hentry] at hw
    split at hw
    · next hill =>
      obtain rfl := hill
      obtain rfl := Option.some.inj hw
      exact decode_zero
    · cases hw

/-- A word that some well-formed instruction encodes to decodes to that instruction, from the table as well. -/
theorem decodes_of_encode {hi lo : Nat} {i : Instr} (hwf : i.wf = true)
    (h : encode i = some (BitVec.ofNat 128 (hi * 2 ^ 64 + lo))) : Claim.decodes hi lo i := by
  rw [Claim.decodes, decodeTableWord, decodeInvertsEncode i _ hwf h]

/-- Settles O59: each written-out word is the encoding of its instruction, which is well formed. -/
theorem writtenOutWordsDecode : Obligations.WrittenOutWordsDecode := by
  unfold Obligations.WrittenOutWordsDecode
  repeat' apply And.intro
  all_goals exact decodes_of_encode rfl rfl

end Sys2Proof
end

section
/-! PROOFS. Words with no active thread: they do their sequencing act alone (R132, R138, R317). -/

namespace Sys2Proof.Machine

section inactive

variable {s : State} {c : WCtx} {w : Warp} {p : Split} {x : Ctl} {o : Slots} {srcs : List Spec} {ty : OTys}
variable (hctx : s.context = some (c, w, p)) (hT : activeMask w p x = 0)
include hctx hT

/-! ### The shapes of words -/

theorem regWord_inactive {f : RegFn} : regWord x ty srcs o f s = .next (s.seqAct c.key p.id x.seq) := by
  simp only [regWord, hctx, hT, ↓reduceIte]

theorem affWord_inactive {m : IMod} {f : Int → Int → Int} {g : Word → Word → Word} :
    affWord x m o f g s = .next (s.seqAct c.key p.id x.seq) := regWord_inactive hctx hT

theorem intWord_inactive {m : IMod} {f : Int → Int → Int → Int} :
    intWord x m o srcs f s = .next (s.seqAct c.key p.id x.seq) := regWord_inactive hctx hT

theorem divWord_inactive {m : IMod} {f : Int → Int → Int × Flags} :
    divWord x m o f s = .next (s.seqAct c.key p.id x.seq) := regWord_inactive hctx hT

theorem bitWord_inactive {m : IMod} {f : Nat → Nat → Nat → Nat → Nat → Nat} :
    bitWord x m o srcs f s = .next (s.seqAct c.key p.id x.seq) := regWord_inactive hctx hT

theorem cmpWord_inactive {m : CMod} : cmpWord x m o s = .next (s.seqAct c.key p.id x.seq) := regWord_inactive hctx hT

theorem reduceWord_inactive {m : IMod} {f : Int → Int → Int} :
    reduceWord x m o f s = .next (s.seqAct c.key p.id x.seq) := regWord_inactive hctx hT

theorem moveWord_inactive {m : IMod} {f : Word → Word → Nat → Nat} :
    moveWord x m o ty f s = .next (s.seqAct c.key p.id x.seq) := regWord_inactive hctx hT

theorem fltWord_inactive {m : FMod} {draws : Nat → Nat → Bool} {f : Nat → Nat → Nat → Nat → Nat × Flags} :
    fltWord x m ty o srcs draws f s = .next (s.seqAct c.key p.id x.seq) := by
  unfold fltWord
  exact regWord_inactive hctx hT

theorem sumWord_inactive {m : FMod} {f : FVal → FVal} :
    sumWord x m o f s = .next (s.seqAct c.key p.id x.seq) := fltWord_inactive hctx hT

theorem roundedFn_inactive {m : FMod} {f : FVal → Nat → Nat × Flags} :
    roundedFn x m o f s = .next (s.seqAct c.key p.id x.seq) := fltWord_inactive hctx hT

theorem plainF_inactive {m : FMod} {f : Nat → Nat → Nat × Flags} :
    plainF x m o srcs f s = .next (s.seqAct c.key p.id x.seq) := by
  unfold plainF
  exact regWord_inactive hctx hT

theorem freeFn_inactive {tag : Nat} {m : FMod} {f : FVal → Nat → Nat × Flags} :
    freeFn tag x m o f s = .next (s.seqAct c.key p.id x.seq) := plainF_inactive hctx hT

theorem crossWord_inactive {msk : Opnds → Nat → Mask} {reads : Warp → Opnds → Nat → Mask}
    {f : Warp → Opnds → Nat → Word × Flags} :
    crossWord x ty srcs o msk reads f s = .next (s.seqAct c.key p.id x.seq) := regWord_inactive hctx hT

theorem reduceOver_inactive {m : YMod} {covers : Nat → Nat → Bool} :
    reduceOver x m o covers s = .next (s.seqAct c.key p.id x.seq) := crossWord_inactive hctx hT

theorem memWord_inactive {i : Instr} {pl : Plan} : memWord i x ty srcs o pl s = .next (s.seqAct c.key p.id x.seq) := by
  simp only [memWord, hctx, hT, ↓reduceIte]

theorem threadWord_inactive {f : State → Nat → Split → Mask → Opnds → List Trap → State} :
    threadWord x ty srcs o f s = .next (s.seqAct c.key p.id x.seq) := by
  simp only [threadWord, hctx, hT, ↓reduceIte]

theorem splitWord_inactive {f : State → Nat → Split → Mask → Opnds → State} :
    splitWord x ty srcs o f s = .next (s.seqAct c.key p.id x.seq) := by
  simp only [splitWord, hctx, hT, ↓reduceIte]

theorem trapWord_inactive {cause : Nat} {code : BitVec 16} :
    trapWord cause x code o s = .next (s.seqAct c.key p.id x.seq) := splitWord_inactive hctx hT

theorem pushWord_inactive {i : Instr} {pl : PushPlan} :
    pushWord i x srcs o pl s = .next (s.seqAct c.key p.id x.seq) := by
  simp only [pushWord, hctx, hT, ↓reduceIte]

theorem conjWord_inactive {i : Instr} {op : Nat} {nc : Bool} :
    conjWord i x op nc srcs o s = .next (s.seqAct c.key p.id x.seq) := by
  simp only [conjWord, hctx, hT, ↓reduceIte]

/-! ### Words of their own shape -/

theorem execChk_inactive {m : HMod} : execChk x m o s = .next (s.seqAct c.key p.id x.seq) := by
  simp only [execChk, hctx, hT, ne_eq, not_true_eq_false, decide_false, Bool.false_and, Bool.false_eq_true, ↓reduceIte]
  exact memWord_inactive hctx hT

theorem execXst_inactive {m : XMod} : execXst x m o s = .next (s.seqAct c.key p.id x.seq) := by
  simp only [execXst, hctx, hT, ne_eq, not_true_eq_false, decide_false, Bool.false_and, Bool.false_eq_true, ↓reduceIte]
  exact memWord_inactive hctx hT

theorem execWait_inactive {m : WMod} : execWait x m o s = .next (s.seqAct c.key p.id x.seq) := by
  simp only [execWait, hctx, hT, ↓reduceIte]

theorem execSpawn_inactive {rcd : Bool} : execSpawn x rcd o s = .next (s.seqAct c.key p.id x.seq) := by
  simp only [execSpawn, hctx, hT, ↓reduceIte]

end inactive

/-- Settles O56: each word has one of the shapes that look for active threads first, or looks for them itself. -/
theorem inactiveWordsOnlySequence : Obligations.InactiveWordsOnlySequence := by
  intro i n s c w p hn hrft hrstl hctx hT
  cases i with
  | rft x op o => exact absurd rfl (hrft x op o)
  | rstl x o => exact absurd rfl (hrstl x o)
  | chk x m o =>
    obtain rfl := Option.some.inj hn
    rw [exec]
    exact execChk_inactive hctx hT
  | xst x m o =>
    obtain rfl := Option.some.inj hn
    rw [exec]
    exact execXst_inactive hctx hT
  | wait x m o =>
    obtain rfl := Option.some.inj hn
    rw [exec]
    exact execWait_inactive hctx hT
  | spawn x rcd o =>
    obtain rfl := Option.some.inj hn
    rw [exec]
    exact execSpawn_inactive hctx hT
  | iadd x m o | isub x m o =>
    obtain rfl := Option.some.inj hn
    rw [exec]
    exact affWord_inactive hctx hT
  | iaddc x o | shl x m o | sel x m o | mov x m o | lea x m o | wset x o | first x o | pset x o | plop x m inv o
  | pmov x o | pmovScatter x o | txs x o | perf x slice o | nop x o =>
    obtain rfl := Option.some.inj hn
    rw [exec]
    exact regWord_inactive hctx hT
  | fcmp x m o =>
    obtain rfl := Option.some.inj hn
    rw [exec, execFcmp]
    exact regWord_inactive hctx hT
  | fdot2 x m o =>
    obtain rfl := Option.some.inj hn
    rw [exec, execFdot2]
    exact regWord_inactive hctx hT
  | cvt x m o =>
    obtain rfl := Option.some.inj hn
    rw [exec, execCvt]
    exact regWord_inactive hctx hT
  | srd x sel o =>
    obtain rfl := Option.some.inj hn
    rw [exec, execSrd]
    exact regWord_inactive hctx hT
  | imul x m o | imulh x m o | imad x m o | ineg x m o | iabs x m o | imin x m o | imax x m o | padd x m o
  | psub x m o | pmul x m o | pmad x m o | pmin x m o | pmax x m o | pabs x m o | pavg x m o =>
    obtain rfl := Option.some.inj hn
    rw [exec]
    exact intWord_inactive hctx hT
  | idiv x m o | irem x m o =>
    obtain rfl := Option.some.inj hn
    rw [exec]
    exact divWord_inactive hctx hT
  | andL x m o | orL x m o | xorL x m o | andn x m o | shr x m o | sar x m o | rol x m o | clz x m o | ctz x m o
  | popc x m o | brev x m o | bfx x m o | bfi x m o | pshl x m o | pshr x m o =>
    obtain rfl := Option.some.inj hn
    rw [exec]
    exact bitWord_inactive hctx hT
  | icmp x m o | pcmp x m o =>
    obtain rfl := Option.some.inj hn
    rw [exec]
    exact cmpWord_inactive hctx hT
  | psad x m o | pdot x m o =>
    obtain rfl := Option.some.inj hn
    rw [exec]
    exact reduceWord_inactive hctx hT
  | fadd x m o | fsub x m o =>
    obtain rfl := Option.some.inj hn
    rw [exec]
    exact sumWord_inactive hctx hT
  | fmul x m o | fma x m o =>
    obtain rfl := Option.some.inj hn
    rw [exec]
    exact fltWord_inactive hctx hT
  | fscale x m o =>
    obtain rfl := Option.some.inj hn
    rw [exec, execFscale]
    exact fltWord_inactive hctx hT
  | fdiv x m o =>
    obtain rfl := Option.some.inj hn
    rw [exec, execFdiv]
    exact fltWord_inactive hctx hT
  | fmin x m o | fmax x m o | fabs x m o | fneg x m o | fclass x m o =>
    obtain rfl := Option.some.inj hn
    rw [exec]
    exact plainF_inactive hctx hT
  | frcp x m o =>
    obtain rfl := Option.some.inj hn
    rw [exec, execFrcp]
    exact roundedFn_inactive hctx hT
  | frsq x m o =>
    obtain rfl := Option.some.inj hn
    rw [exec, execFrsq]
    exact roundedFn_inactive hctx hT
  | fsqrt x m o =>
    obtain rfl := Option.some.inj hn
    rw [exec, execFsqrt]
    exact roundedFn_inactive hctx hT
  | fsin x m o | fcos x m o =>
    obtain rfl := Option.some.inj hn
    rw [exec]
    exact freeFn_inactive hctx hT
  | fexp2 x m o =>
    obtain rfl := Option.some.inj hn
    rw [exec, execFexp2]
    exact freeFn_inactive hctx hT
  | flog2 x m o =>
    obtain rfl := Option.some.inj hn
    rw [exec, execFlog2]
    exact freeFn_inactive hctx hT
  | ftanh x m o =>
    obtain rfl := Option.some.inj hn
    rw [exec, execFtanh]
    exact freeFn_inactive hctx hT
  | swz x m o =>
    obtain rfl := Option.some.inj hn
    rw [exec]
    exact moveWord_inactive hctx hT
  | pack x m o =>
    obtain rfl := Option.some.inj hn
    rw [exec, execPack]
    exact moveWord_inactive hctx hT
  | unpack x m o =>
    obtain rfl := Option.some.inj hn
    rw [exec, execUnpack]
    exact moveWord_inactive hctx hT
  | vote x m o | matchW x o =>
    obtain rfl := Option.some.inj hn
    rw [exec]
    exact crossWord_inactive hctx hT
  | shfl x m o =>
    obtain rfl := Option.some.inj hn
    rw [exec, execShfl]
    exact crossWord_inactive hctx hT
  | bcast x m o =>
    obtain rfl := Option.some.inj hn
    rw [exec, execBcast]
    exact crossWord_inactive hctx hT
  | dcf x o | phase x m o | fence x m o | bar x op o | tbar x pass swap o | await x o | yieldW x o | qfence x qset o
  | mmr x m o | launch x o | halt x code o =>
    obtain rfl := Option.some.inj hn
    rw [exec]
    exact splitWord_inactive hctx hT
  | swr x sel o =>
    obtain rfl := Option.some.inj hn
    rw [exec, execSwr]
    exact splitWord_inactive hctx hT
  | wred x m o | wscan x m o =>
    obtain rfl := Option.some.inj hn
    rw [exec]
    exact reduceOver_inactive hctx hT
  | ld x m o | st x m o | ldu x m o | stu x m o | ldm x m o | locq x o | cflush x op off o | atom x m o
  | atomc x m o | red x m o | arrv x op o =>
    obtain rfl := Option.some.inj hn
    rw [exec]
    exact memWord_inactive hctx hT
  | ldh x m o | pref x llc off o | txb x o | txc x o | txa x o =>
    obtain rfl := Option.some.inj hn
    rw [exec]
    exact threadWord_inactive hctx hT
  | cpy x m o | cpyt x m o | cpym x m o | cpyg x m o | gth x m o | sct x m o | wld x m o | mma x m o | mms x m o
  | aclr x m o | epi x m o | board x m o | relabel x m o | fsnap x op rcd o | fundo x rcd o =>
    obtain rfl := Option.some.inj hn
    rw [exec]
    exact pushWord_inactive hctx hT
  | unite x nc o | find x nc o | fsize x nc o =>
    obtain rfl := Option.some.inj hn
    rw [exec]
    exact conjWord_inactive hctx hT
  | trap x code o | sysc x code o | brk x code o =>
    obtain rfl := Option.some.inj hn
    rw [exec]
    exact trapWord_inactive hctx hT
  | _ => cases hn

end Sys2Proof.Machine
end

section
/-! PROOFS. Transfers of a whole split, CALL and RET (R139-R142, R144, R304). -/

namespace Sys2Proof.Machine

/-! ## Acts that read a damaged register (R304) -/

theorem damagedBy_of_undamaged {w : Warp} (h : w.damaged = []) (x : Spec) (t : Nat) : damagedBy w x t = false := by
  cases x <;> simp [damagedBy, h]

/-- The threads for which a sequencing act raises UCE: those whose condition, target or count is damaged. -/
theorem seqUce_eq (w : Warp) (m : Mask) (q : Seq) :
    seqUce w m q = Mask.ofPred (fun t => m.has t && Claim.seqReads w q t) := by
  have unread {f : Nat → Bool} (h : ∀ t, f t = false) : (0 : Mask) = Mask.ofPred (fun t => m.has t && f t) :=
    (ofPred_has fun t _ => by rw [h, Bool.and_false, Mask.has_zero]).symm
  have read (x : Spec) : (if w.damaged.isEmpty then 0 else Mask.ofPred (fun t => m.has t && damagedBy w x t)) =
      Mask.ofPred (fun t => m.has t && damagedBy w x t) := by
    split
    · next h => exact unread (damagedBy_of_undamaged (List.isEmpty_iff.mp h) x)
    · rfl
  cases q with
  | ifT i _ | ifN i _ => exact read (predSpec i)
  | goInd i | callInd i => exact read (.w i)
  | loop n _ => exact read (.n n)
  | seq | go _ | call _ | ret | fin => exact unread fun _ => rfl

theorem seqUce_ne_zero {w : Warp} {m : Mask} {q : Seq} (h : ¬ Claim.seqSound w m q) : seqUce w m q ≠ 0 := by
  simp only [Claim.seqSound, not_forall, Bool.not_eq_false] at h
  obtain ⟨t, ht, hread⟩ := h
  intro h0
  have hbit : (Mask.ofPred (fun t => m.has t && Claim.seqReads w q t)).has t = false := by
    rw [← seqUce_eq, h0, Mask.has_zero]
  have hlt : t < 32 := BitVec.lt_of_getLsbD ht
  simp [has_ofPred, ht, hread, hlt] at hbit

section acts
variable {s : State} {k pid : Nat} {w : Warp} {p : Split} (hw : s.warpAt k = some w) (hp : w.splitAt pid = some p)
  (hstop : p.stop = none)
include hw hp hstop

theorem seqAct_unsound {q : Seq} (h : ¬ Claim.seqSound w p.mask q) :
    s.seqAct k pid q = s.takeTrap k pid
      { cause := tUCE, mask := Mask.ofPred (fun t => p.mask.has t && Claim.seqReads w q t), addr := 0 } := by
  have hne : seqUce (w.putSplit p) p.mask q ≠ 0 := seqUce_ne_zero (w := w.putSplit p) h
  simp only [State.seqAct, hw, hp, unstopped hstop, if_pos hne]
  rw [seqUce_eq]
  rfl

/-- SEQ inside a block (R139). -/
theorem seqAct_seq_inside (h : p.idx < (Header.ofSlot p.hw).length.toNat) :
    s.seqAct k pid .seq = s.putWarp k ((w.putSplit p).putSplit { p with idx := p.idx + 1 }) := by
  have e : ({ p with stop := none, readyAt := if p.stop.isSome then 0 else p.readyAt, idx := p.idx + 1 } : Split) =
      { p with idx := p.idx + 1 } := congrArg (fun x : Split => { x with idx := p.idx + 1 }) (unstopped hstop)
  simp only [State.seqAct, hw, hp, unstopped hstop, seqUce, ne_eq, not_true_eq_false, h, e, ↓reduceIte]

theorem seqAct_call {t : BitVec 13} :
    s.seqAct k pid (.call t) = s.callTo k (w.putSplit p) p (.call t) (p.target t) := by
  simp only [State.seqAct, hw, hp, unstopped hstop, seqUce, ne_eq, not_true_eq_false, ↓reduceIte]

theorem seqAct_callInd {i : Fin 32} (h : Claim.seqSound w p.mask (.callInd i)) :
    s.seqAct k pid (.callInd i) = s.callTo k (w.putSplit p) p (.callInd i) (w.wGet i) := by
  simp only [State.seqAct, hw, hp, unstopped hstop, seqUce_of_sound h, ne_eq, not_true_eq_false, ↓reduceIte]
  rfl

theorem seqAct_ret : s.seqAct k pid .ret = s.retFrom k (w.putSplit p) p .ret := by
  simp only [State.seqAct, hw, hp, unstopped hstop, seqUce, ne_eq, not_true_eq_false, ↓reduceIte]

end acts

/-! ## Transfers to a header -/

theorem fetchEntry_of_refused {s s1 : State} {k : Nat} {w : Warp} {va : Word} {hw : Word128}
    (hf : s.fetchHeader (keyCore k) va false = (s1, .ok hw)) (ha : ¬ Claim.admits s w hw) :
    s.fetchEntry k w va = (s1, .invalid) := by
  simp only [Claim.admits, Classical.not_imp, Bool.not_eq_true] at ha
  obtain ⟨hstage, hpacked⟩ := ha
  have e : ((Header.ofSlot hw).stage && !s.packed w) = true := by
    rw [hpacked, Bool.not_false, Bool.and_true]
    exact hstage
  simp only [State.fetchEntry, hf, e, ↓reduceIte]

theorem fetchEntry_of_invalid {s s1 : State} {k : Nat} {w : Warp} {va : Word}
    (hf : s.fetchHeader (keyCore k) va false = (s1, .invalid)) : s.fetchEntry k w va = (s1, .invalid) := by
  simp only [State.fetchEntry, hf]

theorem transfer_of_invalid {s s1 : State} {k : Nat} {w : Warp} {va : Word} (p : Split) (q : Seq)
    (f : Warp → Split → Warp × Split) (hf : s.fetchEntry k w va = (s1, .invalid)) :
    s.transfer k w p q va f = s1.takeTrap k p.id { cause := tSEQUENCE, mask := p.mask, addr := va } := by
  simp only [State.transfer, hf]
  rfl

/-- What a warp is after a live split has gone to a header at which its record does not join (R141). -/
def Warp.moved (w : Warp) (x : Split) (va : Word) (hd : Word128) : Warp :=
  ((w.putSplit (x.headed va hd).entered).noteRegion hd).pruneCalls

section moved
variable {w : Warp} {x y : Split} {va : Word} {hd : Word128} (hy : w.splitAt x.id = some y)

include hy in
theorem goTo_of_elsewhere (hst : w.stacked = []) (hjoin : ∀ r, w.recAt x.rcd = some r → r.join ≠ some va) :
    w.goTo x va hd = w.moved x va hd := by
  have hreach : w.reach (x.headed va hd) = w.enter (x.headed va hd) := reach_of_elsewhere hjoin
  have henter : w.enter (x.headed va hd) = (w.putSplit (x.headed va hd).entered).noteRegion hd :=
    enter_of_live (any_splits_of_splitAt hy)
  show (w.reach (x.headed va hd)).settle = _
  rw [hreach, settle_of_unstacked (by rw [enter_stacked]; exact hst), henter]
  rfl

theorem moved_splits : (w.moved x va hd).splits = (w.putSplit (x.headed va hd).entered).splits :=
  noteRegion_splits ..

include hy in
theorem splitAt_moved_same : (w.moved x va hd).splitAt x.id = some (x.headed va hd).entered := by
  rw [Warp.splitAt, moved_splits]
  exact splitAt_putSplit_same (x := (x.headed va hd).entered) hy

theorem splitAt_moved_other {j : Nat} (h : j ≠ x.id) : (w.moved x va hd).splitAt j = w.splitAt j := by
  rw [Warp.splitAt, moved_splits]
  exact splitAt_putSplit_other (x := (x.headed va hd).entered) h

theorem moved_unsequenced : (w.moved x va hd).unsequenced = w.unsequenced := by
  rw [Warp.moved, pruneCalls_unsequenced, noteRegion_unsequenced, putSplit_unsequenced]

theorem moved_recs : (w.moved x va hd).recs = w.recs := noteRegion_recs ..

include hy in
theorem moved_splits_ne_nil : (w.moved x va hd).splits ≠ [] := by
  rw [moved_splits]
  exact putSplit_splits_ne_nil _ hy

include hy in
/-- A call entry that the split shares is not freed (R142). -/
theorem mem_calls_moved {e : CallE} (he : e ∈ w.calls) (hx : e.id ∈ x.calls) : e ∈ (w.moved x va hd).calls := by
  have hmem : (x.headed va hd).entered ∈ (w.putSplit (x.headed va hd).entered).splits :=
    List.mem_of_find?_eq_some (splitAt_putSplit_same (x := (x.headed va hd).entered) hy)
  simp only [Warp.moved, Warp.pruneCalls, noteRegion_calls, noteRegion_splits, List.mem_filter, Bool.or_eq_true,
    List.any_eq_true]
  exact ⟨he, .inl (.inl ⟨_, hmem, List.contains_iff_mem.mpr hx⟩)⟩

end moved

theorem counted_nGet (w : Warp) (q : Seq) (i : Fin 4) : (w.counted q).nGet i =
    match q with | .loop n _ => if i = n then w.nGet n - 1 else w.nGet i | _ => w.nGet i := by
  cases q with
  | loop n t => simp only [Warp.counted, nGet_nSet, Fin.ext_iff]
  | _ => rfl

/-- Settles O26: an act that reads nothing damaged stays in its block or is a transfer, which the target's header decides. -/
theorem transfersMoveTheSplitToTheHeader : Obligations.TransfersMoveTheSplitToTheHeader := by
  intro s k pid q w p hw hp hstop
  have hid : p.id = pid := splitAt_id hp
  refine ⟨seqAct_unsound hw hp hstop, ?_, fun va hva hsound => ?_⟩
  · rintro rfl hidx
    let x : Split := { p with idx := p.idx + 1 }
    have hp' : (w.putSplit p).splitAt x.id = some p := splitAt_putSplit_same (x := p) (hid ▸ hp)
    refine ⟨((w.putSplit p).putSplit x).splits, seqAct_seq_inside hw hp hstop hidx, ?_, fun j hj => ?_⟩
    · rw [← hid]
      exact splitAt_putSplit_same hp'
    · have hj' : j ≠ p.id := hid ▸ hj
      exact (splitAt_putSplit_other (x := x) hj').trans (splitAt_putSplit_other hj')
  · have refused {s1 : State} (hf : s.fetchEntry k (w.putSplit p) va = (s1, .invalid)) :
        s.seqAct k pid q = s1.takeTrap k pid { cause := 0x03, mask := p.mask, addr := va } := by
      obtain ⟨f, -, e⟩ := seqAct_eq_transfer hw hp hstop hva hsound
      rw [e, transfer_of_invalid p q f hf, hid]
      rfl
    refine ⟨fun s1 hd hf => ⟨fun ha hjoin hst => ?_, fun ha => refused (fetchEntry_of_refused hf ha)⟩,
      fun s1 hf => refused (fetchEntry_of_invalid hf)⟩
    obtain ⟨n, hn⟩ := counted_eq w q
    let u : Warp := { w with n := n }
    have hsplit : (u.putSplit p).splitAt p.id = some p := splitAt_putSplit_same (w := u) (hid ▸ hp)
    have hact : s.seqAct k pid q = s1.settleWarp k ((u.putSplit p).moved p va hd) := by
      rw [seqAct_of_target hw hp hstop hva hsound hf ha, hn]
      exact congrArg _ (goTo_of_elsewhere hsplit hst hjoin)
    have hun : ((u.putSplit p).moved p va hd).unsequenced = u.unsequenced := by
      rw [moved_unsequenced, putSplit_unsequenced]
    obtain ⟨hregs, hex, hsp, -⟩ := sameRegs_of_unsequenced hun
    have hn' : ((u.putSplit p).moved p va hd).n = (w.counted q).n := by
      have e := congrArg Warp.n hun
      rw [hn]
      exact e
    have hcount (i : Fin 4) : ((u.putSplit p).moved p va hd).nGet i = (w.counted q).nGet i :=
      congrArg (fun l => Sparse.get 0 l i.val) hn'
    refine ⟨_, hact.trans (settleWarp_of_live s1 k (moved_splits_ne_nil hsplit)), ?_, fun j hj => ?_, hregs,
      hsp, moved_recs, hex, fun i => (hcount i).trans (counted_nGet w q i)⟩
    · rw [← hid, splitAt_moved_same hsplit]
      simp only [Split.headed, Split.entered, hstop]
    · have hj' : j ≠ p.id := hid ▸ hj
      exact (splitAt_moved_other hj').trans (splitAt_putSplit_other (w := u) hj')

/-! ## CALL and RET (R142) -/

/-- The bytes of a function's frame. -/
def frameSize (hd : Word128) : Nat := 16 * (Header.ofSlot hd).frame.toNat

/-- The call entry of a CALL. -/
def Warp.callEntry (w : Warp) (p : Split) : CallE := { id := w.freshId, ret := p.nextVa, sp := w.sp, rcd := p.rcd }

/-- A warp whose split has called a function. -/
def Warp.called (w : Warp) (p : Split) (hd : Word128) : Warp :=
  { w with
    nextId := w.freshId + 1, calls := w.calls ++ [w.callEntry p], sp := w.sp - BitVec.ofNat 64 (frameSize hd) }

section call
variable {s s1 : State} {k : Nat} {w : Warp} {p : Split} {q : Seq} {va : Word} {hd : Word128}
  (hf : s.fetchEntry k w va = (s1, .ok hd))
include hf

theorem callTo_of_noFunction (hfunc : (Header.ofSlot hd).func = false) :
    s.callTo k w p q va = s1.takeTrap k p.id { cause := tSEQUENCE, mask := p.mask, addr := va } := by
  simp only [State.callTo, hf, hfunc, Bool.not_false, ↓reduceIte]
  rfl

variable (hfunc : (Header.ofSlot hd).func = true)
include hfunc

theorem callTo_of_full (hfull : w.slim < w.depth + 1) :
    s.callTo k w p q va = s1.takeTrap k p.id { cause := tDIVSTACK, mask := p.mask, addr := 0 } := by
  simp only [State.callTo, hf, hfunc, hfull, Bool.not_true, Bool.false_eq_true, ↓reduceIte]
  rfl

variable (hroom : w.depth + 1 ≤ w.slim)
include hroom

theorem callTo_of_overflow (hsp : w.sp.toNat < s.stackLo k + frameSize hd) :
    s.callTo k w p q va =
      s1.takeTrap k p.id { cause := tSTACK, mask := p.mask, addr := w.sp - BitVec.ofNat 64 (frameSize hd) } := by
  unfold frameSize at hsp
  simp only [State.callTo, hf, hfunc, Nat.not_lt.mpr hroom, hsp, Bool.not_true, Bool.false_eq_true, ↓reduceIte]
  rfl

theorem callTo_of_fits (hsp : s.stackLo k + frameSize hd ≤ w.sp.toNat) :
    s.callTo k w p q va =
      s1.settleWarp k ((w.called p hd).goTo { p with calls := w.freshId :: p.calls } va hd) := by
  unfold frameSize at hsp
  simp only [State.callTo, hf, hfunc, Nat.not_lt.mpr hroom, Nat.not_lt.mpr hsp, Bool.not_true, Bool.false_eq_true,
    ↓reduceIte]
  rfl

end call

/-- Where a record lies depends on the records alone. -/
theorem below_putSplit (w : Warp) (x : Split) (top : Nat) :
    ∀ fuel r, (w.putSplit x).below fuel r top = w.below fuel r top
  | 0, _ => rfl
  | fuel + 1, r => by
    have hrec : (w.putSplit x).recAt r = w.recAt r := rfl
    simp only [Warp.below, hrec, below_putSplit w x top fuel]

theorem retFrom_of_entry {s : State} {k : Nat} {w : Warp} {p : Split} (q : Seq) {e : CallE} {rest : List Nat}
    (hcalls : p.calls = e.id :: rest) (hfind : w.calls.find? (fun y => y.id = e.id) = some e)
    (hbelow : w.below (w.recs.length + 1) p.rcd e.rcd = false) :
    s.retFrom k w p q =
      s.transfer k w p q e.ret (fun w1 p1 => ({ w1 with sp := e.sp }, { p1 with calls := rest })) := by
  simp only [State.retFrom, hcalls, hfind, hbelow, Bool.false_eq_true, ↓reduceIte]

/-- Settles O28: CALL by what its header and the warp's stacks allow, and RET by its newest entry. -/
theorem callsAndReturns : Obligations.CallsAndReturns := by
  intro s s1 k pid w p hd hw hp hstop hst past
  have hid : p.id = pid := splitAt_id hp
  have hpast : p.nextVa = past := nextVa_eq p
  refine ⟨?_, fun e rest hcalls hfind hbelow hf ha hjoin => ?_, fun hcalls => ?_⟩
  · intro q va hq hsound hf ha size
    have hact : s.seqAct k pid q = s.callTo k (w.putSplit p) p q va := by
      rcases hq with ⟨t, rfl, rfl⟩ | ⟨i, rfl, rfl⟩
      · rw [seqAct_call hw hp hstop, target_eq]
      · exact seqAct_callInd hw hp hstop hsound
    have hentry : s.fetchEntry k (w.putSplit p) va = (s1, .ok hd) := fetchEntry_of_admits hf (admits_putSplit ha p)
    rw [hact, ← hid]
    refine ⟨callTo_of_noFunction hentry, fun hfunc => ⟨callTo_of_full hentry hfunc, fun hroom hsp => ?_,
      fun hroom hsp hjoin => ?_⟩⟩
    · exact callTo_of_overflow hentry hfunc hroom hsp
    · let v := w.putSplit p
      let x : Split := { p with calls := v.freshId :: p.calls }
      have hsplit : (v.called p hd).splitAt x.id = some p := splitAt_putSplit_same (x := p) (hid ▸ hp)
      have hgo : (v.called p hd).goTo x va hd = (v.called p hd).moved x va hd := goTo_of_elsewhere hsplit hst hjoin
      obtain ⟨hregs, -, hspw, -⟩ :=
        sameRegs_of_unsequenced (w := v.called p hd) (moved_unsequenced (x := x) (va := va) (hd := hd))
      refine ⟨(v.called p hd).moved x va hd, v.callEntry p, ?_, hregs, hspw, ?_, hpast, rfl, rfl, ?_⟩
      · rw [callTo_of_fits hentry hfunc hroom hsp, ← settleWarp_of_live s1 k (moved_splits_ne_nil hsplit)]
        exact congrArg _ hgo
      · exact mem_calls_moved hsplit (List.mem_append_right _ (List.mem_singleton_self _)) List.mem_cons_self
      · rw [splitAt_moved_same hsplit]
        simp only [Split.headed, Split.entered, hstop, x]
        rfl
  · let v := w.putSplit p
    let u : Warp := { v with sp := e.sp }
    let x : Split := { p with calls := rest }
    have hsplit : u.splitAt x.id = some p := splitAt_putSplit_same (x := p) (hid ▸ hp)
    have hgo : u.goTo x e.ret hd = u.moved x e.ret hd := goTo_of_elsewhere hsplit hst hjoin
    obtain ⟨hregs, -, hspw, -⟩ :=
      sameRegs_of_unsequenced (w := u) (moved_unsequenced (x := x) (va := e.ret) (hd := hd))
    have hbelow' : v.below (v.recs.length + 1) p.rcd e.rcd = false := by rwa [below_putSplit]
    refine ⟨u.moved x e.ret hd, ?_, hregs, hspw, ?_⟩
    · rw [seqAct_ret hw hp hstop, retFrom_of_entry (w := v) .ret hcalls hfind hbelow',
        transfer_of_admits p .ret _ hf (admits_putSplit ha p), ← settleWarp_of_live s1 k (moved_splits_ne_nil hsplit)]
      exact congrArg _ hgo
    · rw [← hid, splitAt_moved_same hsplit]
      simp only [Split.headed, Split.entered, hstop, x]
  · rw [seqAct_ret hw hp hstop, State.retFrom, hcalls, ← hid]
    rfl

end Sys2Proof.Machine
end

section
/-! PROOFS. A write of `ctl.repways` may end hoisted loads of the issuing warp (R116, R202, R319). -/

namespace Sys2Proof.Machine

/-- Thread 0 is in handler mode and keeps a hoisted load on line 0, on which its core has a queued reduction and its dome's
replica a dirty byte. -/
def drainsItsHoist : State :=
  { Tests.laid (fun w => { w with
      handler := some 0, hoist := [(0, some { width := 8, dst := 0, addrs := [], lines := [0] })] }) id with
    domes := [(0, { dirty := [(0, some 0)] })]
    reds := [{ key := 0, t := 0, a := 0, aty := .i64, op := .add, c := 0 }] }

/-- A word that goes on inside its block leaves the hoisted loads of its warp. -/
theorem hoist_seqAct_seq_inside {s : State} {k pid : Nat} {w : Warp} {p : Split} (hp : w.splitAt pid = some p)
    (hstop : p.stop = none) (hidx : p.idx < (Header.ofSlot p.hw).length.toNat) :
    (((s.putWarp k w).seqAct k pid .seq).warpAt k).map (·.hoist) = some w.hoist := by
  rw [seqAct_seq_inside (warpAt_putWarp_same ..) hp hstop hidx, warpAt_putWarp_same]
  rfl

/-- Refutes O32: emptying the replica for a new `ctl.repways` performs the reduction queued on the line of a dirty byte,
which ends the hoisted load that the issuing warp keeps there (R202), so that more of the warp changes than its
destination. -/
theorem not_controlRegisterWordsNeedHandlerMode : ¬ Obligations.ControlRegisterWordsNeedHandlerMode := by
  intro h
  have hready : Ready drainsItsHoist (Tests.C drainsItsHoist) (Tests.W drainsItsHoist) (Tests.P drainsItsHoist)
      Tests.bare Tests.regs [Tests.regs.b] (Tests.W drainsItsHoist).ports {} :=
    Tests.ready_of _ _ _ _ (by decide +kernel)
  obtain ⟨w', hexec, -, hkept, -⟩ := ((h _ _ _ _ _ .repways _ _ _).2 hready).2.1 (by decide +kernel) (.inl ⟨0, rfl⟩)
  have hhoist : w'.hoist = (Tests.W drainsItsHoist).hoist := (congrArg Warp.hoist hkept.rest).symm
  have hsplits : w'.splits = (Tests.W drainsItsHoist).splits := (congrArg Warp.splits hkept.rest).symm
  have hsplit : w'.splitAt (Tests.P drainsItsHoist).id = some (Tests.P drainsItsHoist) := by
    rw [Warp.splitAt, hsplits]
    decide +kernel
  have hkeeps : ((Tests.after (.swr Tests.bare .repways Tests.regs) drainsItsHoist).warpAt
      (Tests.C drainsItsHoist).key).map (·.hoist) = some w'.hoist := by
    rw [Tests.after, hexec]
    exact hoist_seqAct_seq_inside hsplit (by decide +kernel) (by decide +kernel)
  rw [hhoist] at hkeeps
  exact absurd hkeeps (by decide +kernel)

end Sys2Proof.Machine
end

section
/-! PROOFS. What a step of a lane runs (R131, R132, R135, R141, R157, R298, R380). -/

namespace Sys2Proof.Machine

/-! ## The end of a step -/

theorem step_of_not_due {s : State} (h : s.heldDue = false) : step s = s.nextTurn.1.turn s.nextTurn.2 := by
  simp [step, h]

theorem all_underwayOk_iff (l : Sparse (Option Warp)) :
    l.all (fun e => e.2.all Warp.underwayOk) = true ↔ ∀ k w, (k, some w) ∈ l → w.underwayOk = true := by
  constructor
  · intro h k w hm
    exact List.all_eq_true.mp h _ hm
  · intro h
    refine List.all_eq_true.mpr fun e he => ?_
    obtain ⟨k, w⟩ := e
    cases w with
    | none => rfl
    | some w => exact h k w he

/-- A turn that gives a state ends the step in it, or is held. -/
theorem stepEnds_of_tryTurn {s r : State} (hdue : s.heldDue = false)
    (h : s.nextTurn.1.tryTurn s.nextTurn.2 = .next r) : Claim.stepEnds s r := by
  have hstep : step s = s.nextTurn.1.turn s.nextTurn.2 := step_of_not_due hdue
  simp only [State.turn, h] at hstep
  have hiff : (r.wants = [] && r.warps.all (fun e => e.2.all Warp.underwayOk)) = true ↔
      r.wants = [] ∧ ∀ k w, (k, some w) ∈ r.warps → w.underwayOk = true := by
    rw [Bool.and_eq_true, decide_eq_true_eq, all_underwayOk_iff]
  exact ⟨fun hd => hstep.trans (if_pos (hiff.mpr hd)), fun hd => hstep.trans (if_neg (hiff.not.mpr hd))⟩

/-- What a turn's act gives, the step gives. -/
theorem stepGives_of_act {s r : State} (hdue : s.heldDue = false)
    (h : ({ s.nextTurn.1 with asker := s.nextTurn.2 } : State).act s.nextTurn.2 = .next r) : Claim.stepGives s r := by
  refine ⟨fun hk => stepEnds_of_tryTurn hdue ?_, fun hk y hy => stepEnds_of_tryTurn hdue ?_⟩
  · simp only [State.tryTurn, h]
    exact if_pos hk
  · simp only [State.tryTurn, h]
    exact (if_neg hk).trans hy

/-! ## The word at the PC -/

section lane
variable {s s1 : State} {core lane slot : Nat} {w : Warp} {p : Split} {wd : Word128}
  (hpick : s.pickSplit core lane = some (slot, p)) (hw : s.warpAt (warpKey core lane slot) = some w)
  (hidx : p.idx ≠ 0) (hframe : w.badFrame = false)
  (hfetch : ({ s with asker := .resume ⟨core, lane, slot, p.id⟩ } : State).fetchSlot core p.hdr p.idx = (s1, .ok wd))
include hpick hw hidx hframe hfetch

/-- A word that decodes and fits its block is issued: its meaning stands between the lane's bookkeeping. -/
theorem issue_of_fits {i : Instr} (hdec : decode wd = .ok i) (hfit : wordFits (Header.ofSlot p.hw) p.idx i = true)
    (ex : Instr → State → Host.Outcome State Fault Refusal) :
    s.issue core lane ex = afterEx ⟨core, lane, slot, p.id⟩ (ex i (s1.forWord ⟨core, lane, slot, p.id⟩ w p i)) := by
  simp only [State.issue, hpick, hw, State.runWord, State.issueWord, hidx, hframe, hfetch, hdec, hfit, ↓reduceIte,
    Bool.false_eq_true]

/-- A word that no rule assigns, or that does not fit its block, raises UNDEFINED. -/
theorem issue_of_undefined (hbad : (∃ e, decode wd = .error e) ∨
      ∃ i, decode wd = .ok i ∧ wordFits (Header.ofSlot p.hw) p.idx i = false)
    (ex : Instr → State → Host.Outcome State Fault Refusal) :
    s.issue core lane ex =
      .next (s1.takeTrap (warpKey core lane slot) p.id { cause := 0x01, mask := p.mask, addr := 0 }) := by
  obtain ⟨e, hdec⟩ | ⟨i, hdec, hfit⟩ := hbad
  · simp only [State.issue, hpick, hw, State.runWord, State.issueWord, hidx, hframe, hfetch, hdec, ↓reduceIte,
      Bool.false_eq_true]
    rfl
  · simp only [State.issue, hpick, hw, State.runWord, State.issueWord, hidx, hframe, hfetch, hdec, hfit, ↓reduceIte,
      Bool.false_eq_true]
    rfl

end lane

/-! ## What a word waits for -/

theorem landAll_of_none_late {s : State} (h : s.late = []) (f : Late → Bool) : s.landAll f = s := by
  simp [State.landAll, State.lateOf, h]

theorem applyReds_late (s : State) (line : Nat) : (s.applyReds line).late = s.late := by
  unfold State.applyReds
  refine (foldl_keeps State.late (fun t x => ?_) _ _).trans rfl
  exact (congrArg State.late (writeCells_offHome t _ _) :)

theorem applyRedsOf_late (s : State) (f : Pending → Bool) : (s.applyRedsOf f).late = s.late :=
  foldl_keeps State.late applyReds_late _ s

/-- With no access under way a word waits at most for reductions that slices have accepted. -/
theorem settle_of_none_late {s : State} (i : Instr) (h : s.late = []) :
    s.settle i = s ∨ ∃ f, s.settle i = s.applyRedsOf f := by
  simp only [State.settle, landAll_of_none_late h]
  split
  · exact .inl rfl
  · split
    · exact .inl rfl
    · split
      · exact .inr ⟨_, rfl⟩
      · split
        · split
          · exact .inr ⟨_, rfl⟩
          · exact .inl rfl
        · exact .inr ⟨_, if_pos rfl⟩
      · exact .inl rfl
      · split
        · split
          · exact .inr ⟨_, rfl⟩
          · exact .inl rfl
        · split
          · exact .inr ⟨_, rfl⟩
          · exact .inl rfl
        · exact .inl rfl

theorem settle_late_of_none_late {s : State} (i : Instr) (h : s.late = []) : (s.settle i).late = [] := by
  obtain e | ⟨f, e⟩ := settle_of_none_late i h
  · rw [e, h]
  · rw [e, applyRedsOf_late, h]

theorem settleWhole_of_none_late {s : State} (i : Instr) (h : s.late = []) : s.settleWhole i = s.settle i := by
  simp [State.settleWhole, settle_late_of_none_late i h]

theorem settle_of_nothing_under_way {s : State} (i : Instr) (h : s.late = []) (hr : s.reds = []) : s.settle i = s := by
  simp [State.settle, h, hr]

/-- A split whose next word pops an empty port is not ready (R135). -/
theorem ready_of_portBlocked {s : State} {core : Nat} {w : Warp} {p : Split} {wd : Word128} {i : Instr} (hidx : p.idx ≠ 0)
    (hfetch : (s.fetchSlot core p.hdr p.idx).2 = .ok wd) (hdec : decode wd = .ok i) (hport : portBlocked w p i = true) :
    s.ready core w p = false := by
  simp [State.ready, State.nextWord, hidx, hfetch, hdec, hport]

/-- Settles O55: the turn of a lane gives the meaning of the word at its split's PC, or UNDEFINED, and the step ends in what
its turn gives. -/
theorem stepRunsTheDecodedWord : Obligations.StepRunsTheDecodedWord := by
  refine ⟨?_, fun s i hl => ⟨settleWhole_of_none_late i hl, settle_of_nothing_under_way i hl⟩,
    fun s core w p wd i => ready_of_portBlocked, fun s h => by simp [step, h]⟩
  intro s s1 core lane slot w p wd hdue s0 k r trap hpick hw hidx hframe hfetch
  constructor
  · intro hturn
    have hgives (hbad : (∃ e, decode wd = .error e) ∨
        ∃ i, decode wd = .ok i ∧ wordFits (Header.ofSlot p.hw) p.idx i = false) : Claim.stepGives s trap := by
      have hissue := issue_of_undefined hpick hw hidx hframe hfetch hbad
      obtain hturn | hturn := hturn
      · exact stepGives_of_act hdue ((congrArg s0.act hturn).trans (hissue whole))
      · exact stepGives_of_act hdue ((congrArg s0.act hturn).trans (hissue (lateOr exec)))
    exact ⟨fun i hdec hfit => hgives (.inr ⟨i, hdec, hfit⟩), fun e hdec => hgives (.inl ⟨e, hdec⟩)⟩
  · intro i hdec hfit v
    have hissue := issue_of_fits hpick hw hidx hframe hfetch hdec hfit
    refine ⟨fun hturn t ht => ?_, fun hturn => ⟨fun t ht => ?_, fun hnone t ht => ?_⟩⟩
    · exact stepGives_of_act hdue ((congrArg s0.act hturn).trans ((hissue whole).trans (congrArg (afterEx r) ht)))
    · have hlate : lateOr exec i v = .next t := by rw [lateOr, ht]
      exact stepGives_of_act hdue ((congrArg s0.act hturn).trans
        ((hissue (lateOr exec)).trans (congrArg (afterEx r) hlate)))
    · have hlate : lateOr exec i v = .next t := by rw [lateOr, hnone]; exact ht
      exact stepGives_of_act hdue ((congrArg s0.act hturn).trans
        ((hissue (lateOr exec)).trans (congrArg (afterEx r) hlate)))

end Sys2Proof.Machine
end

section
/-! PROOFS. Accesses of the control window (R155, R342, R344, R350, R356, R359; log entry 42). -/

namespace Sys2Proof.Machine

/-! ## What the window answers -/

theorem open_of_ready {s : State} (h : s.ident.state = 1) : s.open_ = true := by simp [State.open_, h]

theorem open_of_not_ready {s : State} (h : s.ident.state ≠ 1) : s.open_ = false := by simp [State.open_, h]

theorem ctlAccess_iff (s : State) (off n : Nat) : s.ctlAccess off n = true ↔
    n = 8 ∧ off % 8 = 0 ∧ off + 8 ≤ s.ident.bar0 ∧ (s.ident.state = 1 ∨ off < 0x1000) := by
  simp [State.ctlAccess, State.open_, and_assoc]

/-- A write that is not accepted is answered with Unsupported Request. -/
theorem controlWindowWrite_of_refused {s : State} {off : Nat} {v : Word} (h : ¬ s.ctlAccess off 8 = true) :
    exec (.controlWindowWrite off v) s =
      .next { s with hostRead := s.hostRead ++ [{ bar := 0, off := off, value := none }] } := by
  show execControlWindowWrite off v s = _
  simp only [execControlWindowWrite, Bool.eq_false_iff.mpr h]
  rfl

/-- A read is answered with the register, or with Unsupported Request. -/
theorem windowRead_eq (s : State) (off n : Nat) : s.windowRead off n = { s with hostRead := s.hostRead ++ [{
    bar := 0, off := off
    value := if n = 8 ∧ off % 8 = 0 ∧ off + 8 ≤ s.ident.bar0 ∧ (s.ident.state = 1 ∨ off < 0x1000) then some (s.controlWord off)
      else none }] } := by
  simp only [State.windowRead, State.answer, ctlAccess_iff]

/-- The control registers stand at 0x7000, eight bytes each (R155). -/
theorem controlWord_ctl (s : State) {n : Nat} {sel : CtlReg} (hn : n < 32) (hsel : CtlReg.ofCode n = some sel) :
    s.controlWord (0x7000 + 8 * n) = s.ctl.read sel := by
  have hcode : (0x7000 + 8 * n - 0x7000) / 8 = n := by omega
  have hlt {c : Nat} (h : c ≤ 0x7000) : ¬ 0x7000 + 8 * n < c := by omega
  have hin : 0x7000 + 8 * n < 0x8000 ∧ 0x7000 + 8 * n ≠ 0x7FF8 := by omega
  simp only [State.controlWord, hlt (c := 0x1000) (by decide), hlt (c := 0x2000) (by decide), hlt (c := 0x3000) (by decide),
    hlt (c := 0x4000) (by decide), hlt (c := 0x6000) (by decide), hlt (c := 0x7000) (by decide), hin, hcode, hsel, ↓reduceIte]

/-! ## Reserved bits -/

theorem and_not_lower12 (v : Word) : v &&& ~~~ 0xFFF = BitVec.ofNat 64 (v.toNat / 4096 * 4096) := by
  have hmask : ∀ i : Fin 64, (~~~ 0xFFF : Word).getLsbD i = decide (12 ≤ i.val) := by decide
  refine BitVec.eq_of_getLsbD_eq fun i hi => ?_
  have hshift : v.toNat / 4096 * 4096 = v.toNat >>> 12 <<< 12 := by
    rw [Nat.shiftRight_eq_div_pow, Nat.shiftLeft_eq]
  rw [BitVec.getLsbD_and, hmask ⟨i, hi⟩, hshift, BitVec.getLsbD_ofNat, Nat.testBit_shiftLeft, Nat.testBit_shiftRight]
  by_cases h : 12 ≤ i
  · simp [h, hi, BitVec.getLsbD]
  · simp [h]

theorem and_lower4 (v : Word) : v &&& 0xF = BitVec.ofNat 64 (v.toNat % 16) := by
  refine BitVec.eq_of_toNat_eq ?_
  rw [BitVec.toNat_and, BitVec.toNat_ofNat]
  have h : v.toNat &&& 15 = v.toNat % 2 ^ 4 := Nat.and_two_pow_sub_one_eq_mod v.toNat 4
  have hlt := v.isLt
  show v.toNat &&& 15 = _
  omega

/-! ## The registers without a row of their own -/

section accepted
variable {s : State} (hready : s.ident.state = 1) (hbar : 2 ^ 16 ≤ s.ident.bar0) (v : Word)
include hready hbar

/-- An aligned write below 64 KiB is accepted by a module that is ready. -/
theorem ctlAccess_low {off : Nat} (halign : off % 8 = 0) (hoff : off + 8 ≤ 2 ^ 16) : s.ctlAccess off 8 = true :=
  (ctlAccess_iff ..).mpr ⟨rfl, halign, hoff.trans hbar, .inl hready⟩

/-- The system block. -/
theorem controlWindowWrite_system :
    exec (.controlWindowWrite 0x1000 v) s = .next (if s.sys.fqhead = s.sys.fqtail
      then { s with sys := { s.sys with fqbase := v &&& ~~~ 0xFFF } } else s) ∧
    exec (.controlWindowWrite 0x1008 v) s = .next { s with sys := { s.sys with fqsize := v &&& 0xF } } ∧
    exec (.controlWindowWrite 0x1018 v) s = .next (if v.toNat ≤ s.sys.fqhead.toNat
      then { s with sys := { s.sys with fqtail := v } } else s) ∧
    exec (.controlWindowWrite 0x1040 v) s = .next { s with sys := { s.sys with plaunch := v } } ∧
    exec (.controlWindowWrite 0x1048 v) s = .next { s with sys := { s.sys with parea := v } } ∧
    exec (.controlWindowWrite 0x1050 v) s = .next { s with sys := { s.sys with rarea := v } } := by
  have hexec (off : Nat) : exec (.controlWindowWrite off v) s = execControlWindowWrite off v s := rfl
  have haccess {off : Nat} := @ctlAccess_low s hready hbar off
  refine ⟨?_, ?_, ?_, ?_, ?_, ?_⟩ <;> rw [hexec]
  · rw [execControlWindowWrite, haccess (by decide) (by decide), and_not_lower12]
    rfl
  · rw [execControlWindowWrite, haccess (by decide) (by decide), and_lower4]
    rfl
  · rw [execControlWindowWrite, haccess (by decide) (by decide)]
    show Host.Outcome.next (if s.sys.fqhead.toNat < v.toNat then s else _) = _
    simp only [← Nat.not_le, ite_not]
  · rw [execControlWindowWrite, haccess (by decide) (by decide)]; rfl
  · rw [execControlWindowWrite, haccess (by decide) (by decide)]; rfl
  · rw [execControlWindowWrite, haccess (by decide) (by decide)]; rfl

/-- The identity block ignores writes. -/
theorem controlWindowWrite_identity {off : Nat} (hoff : off < 0x1000) (halign : off % 8 = 0) :
    exec (.controlWindowWrite off v) s = .next s := by
  have hne {c : Nat} (h : 0x1000 ≤ c) : off ≠ c := by omega
  have hlt {c : Nat} (h : 0x1000 ≤ c) : ¬ c ≤ off := by omega
  show execControlWindowWrite off v s = _
  simp [execControlWindowWrite, ctlAccess_low hready hbar halign (by omega), hne, hlt]

/-- A peer's entry (R342). -/
theorem controlWindowWrite_peer {p : Nat} (hp : p < 768) : exec (.controlWindowWrite (0x4000 + 8 * p) v) s =
    .next { s with peers := Sparse.set 0 s.peers p (v &&& 0x800FFFFFFFFFFFFF) } := by
  have hne {c : Nat} (h : c < 0x4000 ∨ 0x5800 ≤ c) : 0x4000 + 8 * p ≠ c := by omega
  have hq : ¬ 0x4000 + 8 * p < 0x3200 := by omega
  have hin : 0x4000 ≤ 0x4000 + 8 * p ∧ 0x4000 + 8 * p < 0x5800 := by omega
  have hidx : (0x4000 + 8 * p - 0x4000) / 8 = p := by omega
  show execControlWindowWrite _ v s = _
  simp only [execControlWindowWrite, ctlAccess_low hready hbar (off := 0x4000 + 8 * p) (by omega) (by omega), hq, hin, hidx,
    hne (c := 0x1000) (by decide), hne (c := 0x1008) (by decide), hne (c := 0x1018) (by decide),
    hne (c := 0x1040) (by decide), hne (c := 0x1048) (by decide), hne (c := 0x1050) (by decide),
    hne (c := 0x6080) (by decide), decide_true, decide_false, Bool.and_false, Bool.and_self, Bool.not_true,
    Bool.false_eq_true, ↓reduceIte]

/-- The base of an idle launch queue (R344). -/
theorem controlWindowWrite_qbase {q : Nat} (hq : q < 8)
    (hidle : (s.hostq.getD q HostQ.reset).qhead = (s.hostq.getD q HostQ.reset).qtail) (hv : v.toNat % 64 = 0) :
    exec (.controlWindowWrite (0x3000 + 64 * q) v) s = .next { s with
      hostq := s.hostq.set q { (s.hostq.getD q HostQ.reset) with qbase := v, qtail := 0, qhead := 0 } } := by
  have hne {c : Nat} (h : c < 0x3000 ∨ 0x3200 ≤ c) : 0x3000 + 64 * q ≠ c := by omega
  have hin : 0x3000 ≤ 0x3000 + 64 * q ∧ 0x3000 + 64 * q < 0x3200 := by omega
  have hidx : (0x3000 + 64 * q - 0x3000) / 64 = q := by omega
  have hoff : (0x3000 + 64 * q) % 64 = 0 := by omega
  show execControlWindowWrite _ v s = _
  simp only [execControlWindowWrite, ctlAccess_low hready hbar (off := 0x3000 + 64 * q) (by omega) (by omega), hin, hidx, hoff,
    HostQ.configure, hidle, hv,
    hne (c := 0x1000) (by decide), hne (c := 0x1008) (by decide), hne (c := 0x1018) (by decide),
    hne (c := 0x1040) (by decide), hne (c := 0x1048) (by decide), hne (c := 0x1050) (by decide),
    hne (c := 0x6080) (by decide), decide_true, ne_eq, not_true_eq_false, Bool.and_self, Bool.not_true,
    Bool.false_eq_true, ↓reduceIte]

end accepted

/-! ## Registers with a row of their own -/

/-- The power cap is brought into its range (R356). -/
theorem pcap_clamped {s : State} (hready : s.ident.state = 1) (v : Word) :
    ∃ n, exec (.pcap v) s = .next { s with power := { s.power with pcap := n } } ∧ 1000 ≤ n ∧ n ≤ 4200 ∧
      (1000 ≤ v.toNat → v.toNat ≤ 4200 → n = v.toNat) := by
  refine ⟨min 4200 (max 1000 v.toNat), ?_, by omega, by omega, by omega⟩
  show execPcap v s = _
  rw [execPcap, open_of_ready hready]
  rfl

/-- A counter with a new selection, cleared. -/
def Counter.selected (v : Word) : Counter := { sel := v.setWidth 32 &&& 0xBFFFFFFF, val := 0 }

/-- A counter's selection clears the counter, and leaves the others (R359). -/
theorem counterSelectWrite_clears {s : State} (hready : s.ident.state = 1) {u : CUnit} {unit : Nat} (i : Fin 8) (v : Word)
    (hunit : unit < unitCount u) : ∃ t : State, exec (.counterSelectWrite u unit i v) s = .next t ∧
      Sparse.get { sel := 0, val := 0 } t.counters (counterKey u unit i.val) = { sel := v.setWidth 32 &&& 0xBFFFFFFF, val := 0 } ∧
      t = { s with counters := t.counters } ∧
      ∀ k, k ≠ counterKey u unit i.val →
        Sparse.get { sel := 0, val := 0 } t.counters k = Sparse.get { sel := 0, val := 0 } s.counters k := by
  refine ⟨{ s with counters := Sparse.put s.counters (counterKey u unit i.val) (Counter.selected v) }, ?_, Sparse.get_put_same .., rfl,
    fun k hk => Sparse.get_put_other _ _ _ _ _ hk⟩
  show execCounterSelectWrite u unit i v s = _
  simp only [execCounterSelectWrite, open_of_ready hready, Nat.not_le.mpr hunit, decide_false, Bool.not_true, Bool.or_self,
    Bool.false_eq_true, ↓reduceIte, Counter.selected]

/-- Settles O48: case by case over the ranges of Table 24.1. -/
theorem controlWindowWritesAreCheckedAndStored : Obligations.ControlWindowWritesAreCheckedAndStored := by
  intro s
  refine ⟨fun hready => ?_, fun hclosed sel v off => ?_, windowRead_eq s, rfl, rfl, ?_, rfl,
    fun n sel => controlWord_ctl s⟩
  · have hopen := open_of_ready hready
    refine ⟨fun sel v => ?_, ?_, fun off v hbad => ?_, fun v hbar => ?_, pcap_clamped hready,
      fun u unit i v => counterSelectWrite_clears hready i v, fun v => ?_, ?_, ?_⟩
    · show execCtlHostWrite sel v s = _
      rw [execCtlHostWrite, hopen]
      rfl
    · show execCtlerrClear s = _
      rw [execCtlerrClear, hopen]
      rfl
    · refine controlWindowWrite_of_refused fun h => ?_
      obtain ⟨-, halign, hlen, -⟩ := (ctlAccess_iff ..).mp h
      omega
    · obtain ⟨h00, h08, h18, h40, h48, h50⟩ := controlWindowWrite_system hready hbar v
      exact ⟨h00, h08, h18, h40, h48, h50, fun off => controlWindowWrite_identity hready hbar v,
        fun p => controlWindowWrite_peer hready hbar v, fun q => controlWindowWrite_qbase hready hbar v⟩
    · show execSnextArm v s = _
      simp only [execSnextArm, hready, ne_eq, not_true_eq_false, ↓reduceIte]
    · show execSnextDisarm s = _
      simp only [execSnextDisarm, hready, ne_eq, not_true_eq_false, ↓reduceIte]
    · show execRstatClear s = _
      simp only [execRstatClear, hready, ne_eq, not_true_eq_false, ↓reduceIte]
  · have hshut := open_of_not_ready hclosed
    refine ⟨?_, ?_, fun hoff => controlWindowWrite_of_refused fun h => ?_, ?_, ?_⟩
    · show execCtlHostWrite sel v s = _
      rw [execCtlHostWrite, hshut]
      rfl
    · show execCtlerrClear s = _
      rw [execCtlerrClear, hshut]
      rfl
    · obtain ⟨-, -, -, hready | hlow⟩ := (ctlAccess_iff ..).mp h
      · exact hclosed hready
      · omega
    · show execPcap v s = _
      rw [execPcap, hshut]
      rfl
    · show execSnextArm v s = _
      simp only [execSnextArm, hclosed, ne_eq, not_false_eq_true, ↓reduceIte]
  · cases h : s.sys.ctlerr <;> simp [State.controlWord, h, bit]

end Sys2Proof.Machine
end

section
/-! PROOFS. Masked cross-thread words whose mask a thread is outside of, or that read a damaged register (R135, R182-R186,
R298, R304, R382). -/

namespace Sys2Proof.Machine

/-! ## One trap at the end of a word -/

theorem pickTrap_single (t : Trap) : pickTrap [t] = some t := by
  simp [pickTrap]

theorem finish_single (s : State) (k pid : Nat) (q : Seq) (t : Trap) : s.finish k pid q [t] = s.takeTrap k pid t := by
  rw [State.finish, pickTrap_single]

/-! ## A calculation for some of a word's active threads (R135) -/

theorem kept_self (w : Warp) (ds : List Spec) (T : Mask) : Kept w w ds T :=
  ⟨fun _ _ _ _ => rfl, fun _ _ _ _ => rfl, fun _ _ => rfl, fun _ _ => rfl, fun _ _ => rfl, fun _ _ => rfl, fun _ => rfl,
    fun _ => rfl, rfl⟩

/-- Flags alone change no register. -/
theorem kept_flagAll (w : Warp) (T U : Mask) (f : Nat → Flags) (ds : List Spec) : Kept w (w.flagAll T f) ds U := by
  have hrest := (flagAll_spec w T f).2
  generalize w.flagAll T f = a at hrest ⊢
  generalize w.status = st at hrest
  subst hrest
  exact ⟨fun _ _ _ _ => rfl, fun _ _ _ _ => rfl, fun _ _ => rfl, fun _ _ => rfl, fun _ _ => rfl, fun _ _ => rfl,
    fun _ => rfl, fun _ => rfl, rfl⟩

theorem rndOf_flagAll (w : Warp) (T : Mask) (f : Nat → Flags) (t : Nat) : (w.flagAll T f).rndOf t = w.rndOf t := by
  have hrest := (flagAll_spec w T f).2
  generalize w.flagAll T f = a at hrest ⊢
  rw [hrest]
  rfl

theorem lowest_zero : Mask.lowest 0 = none := by decide

theorem lowest_eq_none_iff {T : Mask} : T.lowest = none ↔ T = 0 := by
  refine ⟨fun h => ?_, fun h => h ▸ lowest_zero⟩
  by_contra hT
  obtain ⟨t, ht, -⟩ := Mask.lowest_isSome T hT
  rw [h] at ht
  cases ht

/-- A word for no thread has no effect. -/
theorem regEffect_none {M : Mask} (hM : M = 0) (w : Warp) (x : Spec) (val : Nat → Word) (fl : Nat → Flags) :
    RegEffect w w x M val fl w.rndOf := by
  have hhas (t : Nat) : M.has t = false := hM ▸ Mask.has_zero t
  have hlow : M.lowest = none := lowest_eq_none_iff.mpr hM
  refine ⟨?_, fun _ t => by simp [hhas], fun _ _ => rfl, fun _ t => by simp, fun _ _ => rfl, kept_self ..⟩
  unfold Holds
  split
  case h_11 => trivial
  all_goals
    intro t ht
    simp [hhas, hlow] at ht

section partialCalc
variable {dst : Spec} (tag : Tag) (f : Calc) {c : WCtx} {w : Warp} {T M : Mask} (hlead : c.lead = T.lowest)

/-- A destination that is not one per warp is written whichever thread leads. -/
theorem runCalc_lead (hdst : isWarpDst dst = false) (l : Option Nat) :
    runCalc dst tag f c w M = runCalc dst tag f { c with lead := l } w M := by
  have htrap (v : Word) (u : Warp) : dstTrap { c with lead := l } u M dst v = dstTrap c u M dst v :=
    dstTrap_congr _ _ _ _ _ _ _ rfl rfl rfl
  simp only [runCalc, putDst, hdst, htrap, Bool.false_and]

include hlead

/-- A destination per warp is not written where the lowest active thread takes no part. -/
theorem runCalc_unwritten (hT : T ≠ 0) (hdst : isWarpDst dst = true) (hlow : T.lowest ≠ M.lowest) :
    runCalc dst tag f c w M = (w.flagAll M (fun t => (f t).2), []) := by
  obtain ⟨l, hl, -⟩ := Mask.lowest_isSome T hT
  simp only [runCalc, putDst, hdst, hlead, hl]
  cases hm : M.lowest with
  | none => rfl
  | some m =>
    have hne : l ≠ m := fun h => hlow (by rw [hl, hm, h])
    simp [hne]

/-- A CALCULATION FOR SOME OF THE ACTIVE THREADS, all that it can do: these threads' flags, and the destination unless it is
one per warp whose writer is among the others. -/
theorem runCalc_partial (hT : T ≠ 0)
    (hdst : (isWarpDst dst = true → T.lowest = M.lowest) → dstOk c w M dst (fun t => (f t).1)) :
    ∃ w', runCalc dst tag f c w M = (w', []) ∧ w'.ports = w.ports ∧
      ((isWarpDst dst = true → T.lowest = M.lowest) →
        RegEffect w w' dst M (fun t => (f t).1) (fun t => (f t).2) w.rndOf) ∧
      (¬ (isWarpDst dst = true → T.lowest = M.lowest) → Kept w w' [] M ∧ ∀ t, w'.rndOf t = w.rndOf t ∧
        w'.statusOf t = if M.has t then w.statusOf t ||| (f t).2 else w.statusOf t) := by
  by_cases hwritten : isWarpDst dst = true → T.lowest = M.lowest
  · suffices h : ∃ w', runCalc dst tag f c w M = (w', []) ∧ w'.ports = w.ports ∧
        RegEffect w w' dst M (fun t => (f t).1) (fun t => (f t).2) w.rndOf by
      obtain ⟨w', hrun, hports, heff⟩ := h
      exact ⟨w', hrun, hports, fun _ => heff, fun hn => absurd hwritten hn⟩
    by_cases hM : M = 0
    · have hrun : runCalc dst tag f c w M = (w, []) := by rw [hM]; rfl
      exact ⟨w, hrun, rfl, regEffect_none hM ..⟩
    · by_cases hwarp : isWarpDst dst = true
      · exact runCalc_effect dst tag f c w M hM (hlead.trans (hwritten hwarp)) (hdst hwritten)
      · rw [runCalc_lead tag f (Bool.eq_false_iff.mpr hwarp) M.lowest]
        refine runCalc_effect dst tag f { c with lead := M.lowest } w M hM rfl fun t ht => ?_
        exact (dstTrap_congr _ _ _ _ _ _ _ rfl rfl rfl).trans (hdst hwritten t ht)
  · obtain ⟨hwarp, hlow⟩ := Classical.not_imp.mp hwritten
    have hrest := (flagAll_spec w M (fun t => (f t).2)).2
    exact ⟨_, runCalc_unwritten tag f hlead hT hwarp hlow, (congrArg Warp.ports hrest).symm, fun h => absurd h hwritten,
      fun _ => ⟨kept_flagAll .., fun t => ⟨rndOf_flagAll .., (flagAll_spec w M _).1 t⟩⟩⟩

end partialCalc

/-- What a word leaves of a warp whose port queues it has popped. -/
theorem kept_of_ports {w w' : Warp} {ports : List (Port × Word)} {ds : List Spec} {M : Mask}
    (h : Kept { w with ports := ports } w' ds M) : Kept w w' ds M :=
  { h with rest := (congrArg (fun z : Warp => { z with ports := w.ports }) h.rest :) }

/-! ## Masked cross-thread words -/

/-- A word that is a masked cross-thread word, its results and flags told from the exited threads and its operands. -/
def IsCrossWord (i : Instr) (x : Ctl) (o : Slots) (ty : OTys) (srcs : List Spec) (msk : Opnds → Nat → Mask)
    (reads : Mask → Opnds → Nat → Mask) (f : Mask → Opnds → Nat → Word × Flags) : Prop :=
  ∀ s, exec i s = crossWord x ty srcs o msk (fun w => reads w.exited) (fun w => f w.exited) s

/-- A shape of statement that every masked cross-thread word has. -/
def CrossShape (K : Claim.Shape) : Prop :=
  ∀ (i : Instr) (x : Ctl) (o : Slots) (ty : OTys) (srcs : List Spec) (msk : Opnds → Nat → Mask)
    (reads : Mask → Opnds → Nat → Mask) (f : Mask → Opnds → Nat → Word × Flags) (creads : Claim.Reads),
    IsCrossWord i x o ty srcs msk reads f → (∀ w v t u, u < 32 → (reads w.exited v t).has u = creads w v t u) →
    K i x o ty srcs msk creads (fun _ w _ v t => (f w.exited v t).1) (fun _ w _ v t => (f w.exited v t).2)

/-- A masked cross-thread word that raises one trap completes for its other threads and takes the trap. -/
theorem completes_of_one_trap {i : Instr} {x : Ctl} {o : Slots} {ty : OTys} {srcs : List Spec} {msk : Opnds → Nat → Mask}
    {reads : Mask → Opnds → Nat → Mask} {f : Mask → Opnds → Nat → Word × Flags} {cause : Nat}
    {out : Warp → Mask → Opnds → Mask} {pre : WCtx → Warp → Mask → Opnds → Prop} {addr : Word → Prop}
    (hi : IsCrossWord i x o ty srcs msk reads f)
    (htrap : ∀ (c : WCtx) (w : Warp) (T : Mask) (v : Opnds), pre c w T v → out w T v ≠ 0 →
      let g := memberOf c.free T (msk v)
      let u := crossUce w o.b g.1 (reads w.exited v)
      g.1 &&& ~~~ u = T &&& ~~~ out w T v ∧
        ∃ a, addr a ∧ g.2 ++ uceTrap u = [{ cause := cause, mask := out w T v, addr := a }]) :
    Claim.completes i x o ty srcs (fun _ w _ v t => (f w.exited v t).1) (fun _ w _ v t => (f w.exited v t).2) cause out
      pre addr := by
  intro s c w p ports pv h T v M written hpre hout hdst
  obtain ⟨hM, a, haddr, htraps⟩ := htrap c w T v hpre hout
  obtain ⟨w', hrun, hports, heff, hkept⟩ := runCalc_partial (T := T) (M := M) (dst := o.a) .general (f w.exited v)
    (c := { c with lead := T.lowest }) (w := { w with ports := ports }) rfl h.active fun hw t ht =>
      (dstTrap_congr c _ w _ M o.a _ rfl rfl rfl).trans (hdst hw t ht)
  refine ⟨w', a, ?_, hports, haddr, fun hw => regEffect_ports (heff hw), fun hw => ?_⟩
  · have hcalc : (let g := memberOf c.free T (msk v)
        let u := crossUce w o.b g.1 (reads w.exited v)
        let r := runCalc o.a .general (f w.exited v) { c with lead := T.lowest } { w with ports := ports } (g.1 &&& ~~~ u)
        (r.1, r.2 ++ g.2 ++ uceTrap u)) = (w', [{ cause := cause, mask := out w T v, addr := a }]) := by
      dsimp only
      rw [hM, hrun, List.nil_append, htraps]
    rw [hi, crossWord, regWord_next h]
    refine (congrArg (fun y : Warp × List Trap =>
      Host.Outcome.next ((s.putWarp c.key y.1).finish c.key p.id x.seq y.2)) hcalc).trans ?_
    rw [finish_single]
  · obtain ⟨hk, hflags⟩ := hkept hw
    exact ⟨kept_of_ports hk, hflags⟩

/-! ## Members, and readers of damaged registers -/

theorem has_and (a b : Mask) (t : Nat) : (a &&& b).has t = (a.has t && b.has t) := by
  simp [Mask.has]

theorem has_not (a : Mask) {t : Nat} (ht : t < 32) : (~~~ a).has t = !a.has t := by
  simp [Mask.has, ht]

theorem memberOf_of_members {n : Nat} {T : Mask} {f : Nat → Mask} (h : ∀ t, T.has t = true → (f t).has t = true) :
    memberOf n T f = (T, []) := by
  have hout : Mask.ofPred (fun t => T.has t && !(f t).has t) = 0 := by
    refine ofPred_has fun t _ => ?_
    rw [Mask.has_zero]
    cases ht : T.has t
    · rfl
    · simp [h t ht]
  simp only [memberOf, hout, mask_and_not_zero, ↓reduceIte]

/-- The readers of a damaged register, from the threads whose B each thread reads. -/
theorem crossUce_eq_consumers {creads : Claim.Reads} {w : Warp} {reads : Nat → Mask} {v : Opnds}
    (h : ∀ t u, u < 32 → (reads t).has u = creads w v t u) (b : Spec) (T : Mask) :
    crossUce w b T reads = Claim.consumers creads b w T v := by
  have hany (t : Nat) : (reads t).threads.any (damagedBy w b) =
      (List.range 32).any (fun u => creads w v t u && damagedBy w b u) := by
    rw [Bool.eq_iff_iff]
    simp only [List.any_eq_true, Bool.and_eq_true, Mask.threads, List.mem_filter, List.mem_range, and_assoc]
    refine exists_congr fun u => and_congr_right fun hu => ?_
    rw [← h t u hu]
    rfl
  unfold crossUce Claim.consumers
  split
  · next hempty =>
    refine (ofPred_has fun t _ => ?_).symm
    have hnone : ∀ u, damagedBy w b u = false := damagedBy_of_undamaged (List.isEmpty_iff.mp hempty) b
    rw [Mask.has_zero]
    simp [hnone]
  · simp only [hany]

theorem consumers_trap {creads : Claim.Reads} {b : Spec} {w : Warp} {T : Mask} {v : Opnds}
    (h : Claim.consumers creads b w T v ≠ 0) :
    uceTrap (Claim.consumers creads b w T v) = [{ cause := 0x0F, mask := Claim.consumers creads b w T v, addr := 0 }] :=
  if_neg h

/-- The threads of a mask that do not belong to the masks they read. -/
def foreign (T : Mask) (f : Nat → Mask) : Mask := Mask.ofPred (fun t => T.has t && !(f t).has t)

theorem memberOf_of_foreign {n : Nat} {T : Mask} {f : Nat → Mask} (h : foreign T f ≠ 0) :
    memberOf n T f = (T &&& ~~~ foreign T f, [{ cause := 0x06, mask := foreign T f, addr := Config.freeWord n }]) :=
  Prod.ext rfl (if_neg h)

/-- The threads outside their masks raise MEMBER, and the others complete. -/
theorem crossShape_partly : CrossShape Claim.partly := by
  intro i x o ty srcs msk reads f creads hi hreads
  unfold Claim.partly
  show Claim.completes i x o ty srcs _ _ 0x06 (fun _ T v => foreign T (msk v))
    (fun _ w T v => Claim.consumers creads o.b w (T &&& ~~~ foreign T (msk v)) v = 0) (fun _ => True)
  refine completes_of_one_trap hi fun c w T v hpre hout => ?_
  have hu := (crossUce_eq_consumers (fun t u => hreads w v t u) o.b (T &&& ~~~ foreign T (msk v))).trans hpre
  simp only [memberOf_of_foreign hout, hu, mask_and_not_zero, true_and]
  exact ⟨_, rfl⟩

/-- The members that read a damaged register raise UCE, and the others complete. -/
theorem crossShape_spoilt : CrossShape Claim.spoilt := by
  intro i x o ty srcs msk reads f creads hi hreads
  refine completes_of_one_trap hi fun c w T v hpre hout => ?_
  have hu := crossUce_eq_consumers (fun t u => hreads w v t u) o.b T
  simp only [memberOf_of_members hpre, hu, true_and]
  exact ⟨0, rfl, consumers_trap hout⟩

/-! ## SHFL and BCAST (R183, R184) -/

/-- Sub-elements of the B of thread `u`; an exited thread has none. -/
def takeFrom (ty : ETy) (ex : Mask) (v : Opnds) (u : Nat) (g : Nat → Nat) : Word × Flags :=
  if ex.has u then (0, fAbsent) else bitMap ty (fun k => elemBits ty.width (v.gb u) (g k))

/-- The one thread whose B is read, unless it has exited. -/
def onlyLive (ex : Mask) (u : Nat) : Mask := Mask.ofPred (fun i => i = u && !ex.has u)

theorem has_onlyLive (ex : Mask) (u : Nat) {i : Nat} (hi : i < 32) : (onlyLive ex u).has i = (i = u && !ex.has i) := by
  rw [onlyLive, has_ofPred, decide_eq_true hi, Bool.true_and]
  by_cases h : i = u
  · rw [h]
  · simp [h]

theorem takeFrom_elem (ty : ETy) (ex : Mask) (v : Opnds) (u : Nat) (g : Nat → Nat) {k : Nat} (hk : k < ty.count) :
    elemBits ty.width (takeFrom ty ex v u g).1 k = if ex.has u then 0 else elemBits ty.width (v.gb u) (g k) := by
  unfold takeFrom
  split
  · simp [elemBits]
  · rw [bitMap, packFlags_elem _ _ _ _ (width_mul_count ty).le hk, Nat.mod_eq_of_lt (elemBits_lt ..)]

theorem takeFrom_flags (ty : ETy) (ex : Mask) (v : Opnds) (u : Nat) (g : Nat → Nat) :
    (takeFrom ty ex v u g).2 = flagIf (ex.has u) fAbsent := by
  unfold takeFrom flagIf
  split
  · rfl
  · rw [bitMap, packFlags_flags]
    have h := join_flagIf ty.count (fun _ => false) fAbsent
    simpa [flagIf] using h

theorem index5_eq (v : Opnds) (t : Nat) : ((v.gc t).extractLsb' 0 5).toNat = (v.gc t).toNat % 32 := by
  simp [BitVec.extractLsb'_toNat]

theorem index4_eq (v : Opnds) (t : Nat) : ((v.gc t).extractLsb' 8 4).toNat = (v.gc t).toNat / 2 ^ 8 % 16 := by
  simp [BitVec.extractLsb'_toNat, Nat.shiftRight_eq_div_pow]

theorem shflFrom_eq (m : ShMod) (v : Opnds) (t : Nat) :
    shflFrom m v t = Claim.shuffleFrom m.mode t ((v.gc t).toNat % 32) (maskD v t) := by
  have hsel (u : Int) (mem : Mask) : (if u < 0 || 31 < u || !mem.has u.toNat then t else u.toNat) =
      if 0 ≤ u ∧ u ≤ 31 ∧ mem.has u.toNat = true then u.toNat else t := by
    by_cases h : 0 ≤ u ∧ u ≤ 31 ∧ mem.has u.toNat = true
    · obtain ⟨h0, h31, hm⟩ := h
      simp [h0, h31, hm]
    · rw [if_neg h, if_pos]
      simp only [Bool.or_eq_true, decide_eq_true_eq, Bool.not_eq_true']
      by_contra hn
      simp only [not_or, Bool.not_eq_false, not_lt] at hn
      exact h ⟨hn.1.1, hn.1.2, hn.2⟩
  rw [shflFrom, index5_eq]
  exact hsel _ _

theorem bcastFrom_eq (v : Opnds) (t : Nat) : bcastFrom v t =
    if (maskD v t).has ((v.gc t).toNat % 32) then (v.gc t).toNat % 32 else t := by
  rw [bcastFrom, index5_eq]

/-! ## What a result covers (R182, R185) -/

/-- A member is among those that a result covers. -/
def within (upTo : Option Nat) (u : Nat) : Bool :=
  match upTo with
  | none => true
  | some t => decide (u ≤ t)

section cover
variable {w : Warp} {cov mem : Mask} {upTo : Option Nat}
  (hcov : ∀ u, u < 32 → cov.has u = (mem.has u && within upTo u))
include hcov

theorem cover_eq_threads : Claim.cover w mem upTo = (cov &&& ~~~ w.exited).threads := by
  refine List.filter_congr fun u hu => ?_
  have hlt := List.mem_range.mp hu
  show (mem.has u && !w.exited.has u && within upTo u) = (cov &&& ~~~ w.exited).has u
  rw [has_and, has_not _ hlt, hcov u hlt, Bool.and_right_comm]

theorem has_cover (u : Nat) : (cov &&& ~~~ w.exited).has u = (Claim.cover w mem upTo).contains u := by
  rw [cover_eq_threads hcov, Bool.eq_iff_iff, List.contains_iff_mem]
  exact (Mask.mem_threads _ u).symm

theorem absent_eq : Claim.absent w mem upTo = decide (cov &&& w.exited ≠ 0) := by
  rw [Bool.eq_iff_iff, decide_eq_true_eq, mask_ne_zero_iff]
  simp only [Claim.absent, List.any_eq_true, List.mem_range]
  refine exists_congr fun u => ?_
  have hu (hlt : u < 32) : (mem.has u && w.exited.has u && within upTo u) = (cov &&& w.exited).has u := by
    rw [has_and, hcov u hlt, Bool.and_right_comm]
  constructor
  · rintro ⟨hlt, h⟩
    exact (hu hlt).symm.trans h
  · intro h
    have hlt : u < 32 := List.mem_range.mp (List.mem_filter.mp ((Mask.mem_threads _ u).mpr h)).1
    exact ⟨hlt, (hu hlt).trans h⟩

end cover

theorem within_all (mem : Mask) (u : Nat) (_ : u < 32) : mem.has u = (mem.has u && within none u) := (Bool.and_true _).symm

/-! ## Reductions (R185) -/

theorem fmt_of_isInt {e : ETy} (h : e.isInt = true) : ETy.fmt e = none := by
  revert h
  cases e <;> decide

theorem foldl_add_mod (n : Nat) (xs : List Nat) (a : Nat) :
    xs.foldl (fun acc b => (acc + b) % n) a % n = (a + xs.sum) % n := by
  induction xs generalizing a with
  | nil => simp
  | cons x xs ih => rw [List.foldl_cons, ih, List.sum_cons, Nat.mod_add_mod, Nat.add_assoc]

/-- Integer sums wrap. -/
theorem reduceElem_sum {m : YMod} (hint : m.rty.ety.isInt = true) (hop : m.op = .add) (xs : List Nat) :
    (reduceElem m xs).1 % 2 ^ m.rty.ety.width = xs.sum % 2 ^ m.rty.ety.width := by
  cases xs with
  | nil => simp [reduceElem, fmt_of_isInt hint]
  | cons x xs =>
    simp only [reduceElem, fmt_of_isInt hint, hop]
    exact foldl_add_mod _ xs x

/-- The threads that the results of WRED and WSCAN cover. -/
def coverMask (covers : Nat → Nat → Bool) (v : Opnds) (t : Nat) : Mask :=
  Mask.ofPred (fun u => (maskC v t).has u && covers t u)

/-- The result of a reduction over the live ones among the threads of a mask. -/
def reduced (m : YMod) (ex cov : Mask) (v : Opnds) : Word × Flags :=
  let y := packFlags m.rty.ety.width m.rty.ety.count
    (fun k => reduceElem m ((cov &&& ~~~ ex).threads.map (fun u => elemBits m.rty.ety.width (v.gb u) k)))
  (y.1, y.2 ||| flagIf (cov &&& ex ≠ 0) fAbsent)

/-! ## Votes (R186) -/

/-- The answer of VOTE, from the live members. -/
def voteNat (m : VOp) (v : Opnds) (alive : List Nat) : Nat :=
  let yes := alive.filter (fun u => v.gb u ≠ 0)
  match m with
  | .and => bit (yes.length = alive.length)
  | .or => bit (yes ≠ [])
  | .eq => bit (yes = [] || yes.length = alive.length)
  | .bits => (Mask.ofPred (fun u => yes.contains u)).toNat
  | .cnt => yes.length
  | .lead => yes.head?.getD 32

theorem ofNat_bit (b : Bool) : BitVec.ofNat 64 (bit b) = if b then 1 else 0 := by
  cases b <;> rfl

theorem all_eq_decide_filter (p : Nat → Bool) (l : List Nat) : l.all p = decide ((l.filter p).length = l.length) := by
  rw [Bool.eq_iff_iff, decide_eq_true_eq, List.length_filter_eq_length_iff, List.all_eq_true]

theorem any_eq_decide_filter (p : Nat → Bool) (l : List Nat) : l.any p = decide (l.filter p ≠ []) := by
  rw [Bool.eq_iff_iff, decide_eq_true_eq, ne_eq, List.filter_eq_nil_iff, List.any_eq_true]
  simp

/-- The mask of ascending threads is the sum of their bits. -/
theorem toNat_ofPred_contains {l : List Nat} (hl : l.Pairwise (· < ·)) (h32 : ∀ u ∈ l, u < 32) :
    (Mask.ofPred (fun u => l.contains u)).toNat = (l.map (fun u => 2 ^ u)).sum := by
  refine Nat.eq_of_testBit_eq fun u => ?_
  have hsum : (l.map (fun u => 2 ^ u)).sum.testBit u = l.contains u := by
    rw [Bool.eq_iff_iff, ← Nat.mem_bitIndices, Nat.bitIndices_sum_map_two_pow hl.sortedLT, List.contains_iff_mem]
  rw [hsum]
  show (Mask.ofPred (fun u => l.contains u)).has u = _
  rw [has_ofPred]
  by_cases hu : u < 32
  · simp [hu]
  · have hout : ¬ u ∈ l := fun h => hu (h32 u h)
    simp [hu, hout]

theorem voteNat_spec (m : VOp) (v : Opnds) {live : List Nat} (hl : live.Pairwise (· < ·)) (h32 : ∀ u ∈ live, u < 32) :
    BitVec.ofNat 64 (voteNat m v live) =
      let yes := live.filter (fun u => decide (v.gb u ≠ 0))
      match m with
      | .and => if live.all (fun u => decide (v.gb u ≠ 0)) then 1 else 0
      | .or => if live.any (fun u => decide (v.gb u ≠ 0)) then 1 else 0
      | .eq => if live.all (fun u => decide (v.gb u ≠ 0)) || live.all (fun u => decide (v.gb u = 0)) then 1 else 0
      | .bits => BitVec.ofNat 64 (yes.map (fun u => 2 ^ u)).sum
      | .cnt => BitVec.ofNat 64 yes.length
      | .lead => BitVec.ofNat 64 (yes.head?.getD 32) := by
  cases m with
  | and =>
    dsimp only [voteNat]
    rw [ofNat_bit, all_eq_decide_filter]
  | or =>
    dsimp only [voteNat]
    rw [ofNat_bit, any_eq_decide_filter]
  | eq =>
    have hnone : live.all (fun u => decide (v.gb u = 0)) = decide (live.filter (fun u => decide (v.gb u ≠ 0)) = []) := by
      rw [Bool.eq_iff_iff, decide_eq_true_eq, List.filter_eq_nil_iff, List.all_eq_true]
      simp
    dsimp only [voteNat]
    rw [ofNat_bit, all_eq_decide_filter, hnone, Bool.or_comm]
  | bits => exact congrArg (BitVec.ofNat 64) (toNat_ofPred_contains (hl.filter _) fun u hu => h32 u (List.mem_filter.mp hu).1)
  | cnt => rfl
  | lead => rfl

theorem cover_ascending (w : Warp) (mem : Mask) (upTo : Option Nat) : (Claim.cover w mem upTo).Pairwise (· < ·) :=
  List.Pairwise.filter _ List.pairwise_lt_range

theorem cover_lt {w : Warp} {mem : Mask} {upTo : Option Nat} {u : Nat} (h : u ∈ Claim.cover w mem upTo) : u < 32 :=
  List.mem_range.mp (List.mem_filter.mp h).1

theorem crossShape_of_eq {K : Claim.Shape} (hK : CrossShape K) {i : Instr} {x : Ctl} {o : Slots} {ty : OTys}
    {srcs : List Spec} {msk : Opnds → Nat → Mask} {reads : Mask → Opnds → Nat → Mask}
    {f : Mask → Opnds → Nat → Word × Flags} {creads : Claim.Reads} (hi : IsCrossWord i x o ty srcs msk reads f)
    (hreads : ∀ w v t u, u < 32 → (reads w.exited v t).has u = creads w v t u)
    (val : Warp → Opnds → Nat → Word) (fl : Warp → Opnds → Nat → Flags)
    (hf : ∀ w v t, f w.exited v t = (val w v t, fl w v t)) :
    K i x o ty srcs msk creads (fun _ w _ v t => val w v t) (fun _ w _ v t => fl w v t) := by
  simpa only [hf] using hK i x o ty srcs msk reads f creads hi hreads

section shapes
variable {K : Claim.Shape} (hK : CrossShape K)
include hK

theorem shuffles_of_crossShape : Claim.shuffles K := by
  constructor
  · intro x m o
    refine ⟨_, _, hK (.shfl x m o) x o (tysB m.ty) [o.c, o.d] maskD (fun ex v t => onlyLive ex (shflFrom m v t))
      (fun ex v t => takeFrom m.ty ex v (shflFrom m v t) (fun k => (k + ((v.gc t).extractLsb' 8 4).toNat) % m.ty.count)) _
      (fun _ => rfl) fun w v t i hi => ?_, fun c w T v t => ⟨fun k hk => ?_, ?_⟩⟩
    · rw [has_onlyLive _ _ hi, shflFrom_eq]
    · rw [takeFrom_elem _ _ _ _ _ hk, shflFrom_eq, index4_eq]
    · rw [takeFrom_flags, shflFrom_eq]
  · intro x m o
    refine ⟨_, _, hK (.bcast x m o) x o (tysB m.ty) [o.c, o.d] maskD (fun ex v t => onlyLive ex (bcastFrom v t))
      (fun ex v t => takeFrom m.ty ex v (bcastFrom v t) (fun _ => ((v.gc t).extractLsb' 8 4).toNat % m.ty.count)) _
      (fun _ => rfl) fun w v t i hi => ?_, fun c w T v t => ⟨fun k hk => ?_, ?_⟩⟩
    · rw [has_onlyLive _ _ hi, bcastFrom_eq]
    · rw [takeFrom_elem _ _ _ _ _ hk, bcastFrom_eq, index4_eq]
    · rw [takeFrom_flags, bcastFrom_eq]

/-- WRED and WSCAN, from the members that a thread's result covers. -/
theorem reduction_of_crossShape {ctor : Ctl → YMod → Slots → Instr} {upTo : Nat → Option Nat}
    (hctor : ∀ x m o s, exec (ctor x m o) s = reduceOver x m o (fun t u => within (upTo t) u) s) :
    Claim.reduction K ctor upTo := by
  intro x m o
  have hcov (v : Opnds) (t u : Nat) (hu : u < 32) :
      (coverMask (fun t u => within (upTo t) u) v t).has u = ((maskC v t).has u && within (upTo t) u) := by
    rw [coverMask, has_ofPred, decide_eq_true hu, Bool.true_and]
  refine ⟨_, _, hK (ctor x m o) x o (tysB m.rty.ety) [o.c] maskC
    (fun ex v t => coverMask (fun t u => within (upTo t) u) v t &&& ~~~ ex)
    (fun ex v t => reduced m ex (coverMask (fun t u => within (upTo t) u) v t) v) _ (hctor x m o)
    fun w v t u _ => has_cover (hcov v t) u, fun c w T v t => ?_⟩
  have hval {k : Nat} (hk : k < m.rty.ety.count) := packFlags_elem m.rty.ety.width m.rty.ety.count
    (fun k => reduceElem m ((Claim.cover w (maskC v t) (upTo t)).map (fun u => elemBits m.rty.ety.width (v.gb u) k))) k
    (width_mul_count _).le hk
  refine ⟨fun k hk => ?_, fun hint hop k hk => ?_, ?_⟩
  · rw [reduced, ← cover_eq_threads (hcov v t)]
    exact hval hk
  · rw [reduced, ← cover_eq_threads (hcov v t)]
    exact (hval hk).trans (reduceElem_sum hint hop _)
  · rw [reduced, ← cover_eq_threads (hcov v t), absent_eq (hcov v t), packFlags_flags]

theorem reductionAndVoteWords_of_crossShape : Claim.ReductionAndVoteWords K := by
  have hall (v : Opnds) (t : Nat) := within_all (maskC v t)
  have hlive (w : Warp) (v : Opnds) (t u : Nat) (_ : u < 32) := has_cover (w := w) (hall v t) u
  refine ⟨reduction_of_crossShape hK fun _ _ _ _ => rfl, reduction_of_crossShape hK fun _ _ _ _ => rfl, fun x m o => ?_,
    fun x o => ?_⟩
  · refine ⟨_, crossShape_of_eq hK (i := .vote x m o) (reads := fun ex v t => maskC v t &&& ~~~ ex)
      (f := fun ex v t => (BitVec.ofNat 64 (voteNat m v (maskC v t &&& ~~~ ex).threads), flagIf (maskC v t &&& ex ≠ 0) fAbsent))
      (fun _ => rfl) hlive (fun w v t => BitVec.ofNat 64 (voteNat m v (Claim.cover w (maskC v t) none)))
      (fun w v t => flagIf (Claim.absent w (maskC v t) none) fAbsent) fun w v t => ?_,
      fun c w T v t => voteNat_spec m v (cover_ascending ..) fun u => cover_lt⟩
    rw [cover_eq_threads (hall v t), absent_eq (hall v t)]
  · refine ⟨_, crossShape_of_eq hK (i := .matchW x o) (reads := fun ex v t => maskC v t &&& ~~~ ex)
      (f := fun ex v t => ((Mask.ofPred (fun u => (maskC v t).has u && !ex.has u && v.gb u = v.gb t)).setWidth 64,
        flagIf (maskC v t &&& ex ≠ 0) fAbsent))
      (fun _ => rfl) hlive
      (fun w v t => (Mask.ofPred (fun u => (maskC v t).has u && !w.exited.has u && v.gb u = v.gb t)).setWidth 64)
      (fun w v t => flagIf (Claim.absent w (maskC v t) none) fAbsent) fun w v t => ?_, fun c w T v t u hu => ?_⟩
    · rw [absent_eq (hall v t)]
    · rw [BitVec.getLsbD_setWidth, decide_eq_true hu, Bool.true_and]
      exact (has_ofPred _ u).trans (by simp only [Bool.and_assoc])

end shapes

/-- Settles O10: one lemma for every masked cross-thread word, for each of the two traps. -/
theorem foreignThreadsRaiseMember : Obligations.ForeignThreadsRaiseMember :=
  ⟨shuffles_of_crossShape crossShape_partly, reductionAndVoteWords_of_crossShape crossShape_partly,
    shuffles_of_crossShape crossShape_spoilt, reductionAndVoteWords_of_crossShape crossShape_spoilt⟩

end Sys2Proof.Machine
end

section
/-! PROOFS. Words on bit patterns: bitwise words and shifts, bit counts, bit fields and LEA, selections, moves and
comparisons, by sub-element (R166, R167, R169, Tables 12.4 and 12.5). -/

namespace Sys2Proof.Machine

/-! ## Results by sub-element -/

theorem bitMap_elem (ty : ETy) (f : Nat → Nat) {k : Nat} (hk : k < ty.count) :
    elemBits ty.width (bitMap ty f).1 k = f k % 2 ^ ty.width :=
  packFlags_elem _ _ _ _ (width_mul_count ty).le hk

theorem bitMap_flags (ty : ETy) (f : Nat → Nat) : (bitMap ty f).2 = 0 :=
  (packFlags_flags ..).trans (join_zero _)

/-- A word whose result is a pattern for each sub-element sets no flag, and its sub-elements are the patterns cut to the
width. -/
theorem yields_of_bitMap (i : Instr) (x : Ctl) (o : Slots) (ty : OTys) (srcs : List Spec) (e : ETy)
    (tag : WCtx → Warp → Mask → Opnds → Tag) (f : Opnds → Nat → Nat → Nat)
    (he : ∀ s, exec i s =
      regWord x ty srcs o (fun c w T v => runCalc o.a (tag c w T v) (fun t => bitMap e (f v t)) c w T) s) :
    Yields i x o ty srcs always (fun _ _ _ v t => (bitMap e (f v t)).1) Claim.noFlags keepRnd := by
  have h := yields_of_calc i x o ty srcs tag (fun _ _ _ v t => bitMap e (f v t)) he (fun _ _ _ _ _ _ => rfl)
  simp only [bitMap_flags] at h
  exact h

/-- The patterns of the sub-elements `k` of B, C, D and E. -/
def patterns (e : ETy) (g : Nat → Nat → Nat → Nat → Nat) (v : Opnds) (t k : Nat) : Nat :=
  g (elemBits e.width (v.gb t) k) (elemBits e.width (v.gc t) k) (elemBits e.width (v.gd t) k) (elemBits e.width (v.ge t) k)

theorem claim_bitWord_of_bitMap {ctor : Ctl → IMod → Slots → Instr} {srcs : Slots → List Spec}
    {R : IMod → Nat → Nat → Nat → Nat → Nat → Nat → Prop} (tag : IMod → Slots → WCtx → Warp → Mask → Opnds → Tag)
    (f : IMod → Nat → Nat → Nat → Nat → Nat)
    (he : ∀ x m o s, exec (ctor x m o) s = regWord x (tys m.ty) (srcs o) o
      (fun c w T v => runCalc o.a (tag m o c w T v) (fun t => bitMap m.ty (patterns m.ty (f m) v t)) c w T) s)
    (hR : ∀ {b c d e : Nat} (m : IMod), b < 2 ^ m.ty.width → c < 2 ^ m.ty.width →
      R m m.ty.width b c d e (f m b c d e % 2 ^ m.ty.width)) : Claim.bitWord ctor srcs R := by
  intro x m o
  refine ⟨_, yields_of_bitMap _ x o (tys m.ty) (srcs o) m.ty (tag m o) (patterns m.ty (f m)) (he x m o),
    fun c w T v t k hk => ?_⟩
  rw [bitMap_elem _ _ hk]
  exact hR m (elemBits_lt ..) (elemBits_lt ..)

theorem claim_bitWord_of_bitWord {ctor : Ctl → IMod → Slots → Instr} {srcs : Slots → List Spec}
    {R : IMod → Nat → Nat → Nat → Nat → Nat → Nat → Prop} (f : IMod → Nat → Nat → Nat → Nat → Nat → Nat)
    (he : ∀ x m o s, exec (ctor x m o) s = bitWord x m o (srcs o) (f m) s)
    (hR : ∀ {b c d e : Nat} (m : IMod), b < 2 ^ m.ty.width → c < 2 ^ m.ty.width →
      R m m.ty.width b c d e (f m m.ty.width b c d e % 2 ^ m.ty.width)) : Claim.bitWord ctor srcs R :=
  claim_bitWord_of_bitMap (fun _ o _ w _ _ => uniTag w (srcs o)) (fun m => f m m.ty.width) he hR

/-! ## Bitwise words and shifts -/

section shifts
variable {w b c : Nat}

theorem shlBits_mod : shlBits w b c % 2 ^ w = (b <<< c) % 2 ^ w := by
  rw [Nat.shiftLeft_eq, shlBits]
  split
  · next h => rw [Nat.zero_mod, Nat.mod_eq_zero_of_dvd ((Nat.pow_dvd_pow 2 h).mul_left b)]
  · rw [Nat.mod_mod]

theorem shrBits_eq (hb : b < 2 ^ w) : shrBits w b c = b >>> c := by
  rw [Nat.shiftRight_eq_div_pow, shrBits]
  split
  · next h => rw [Nat.div_eq_of_lt (hb.trans_le (Nat.pow_le_pow_right (by decide) h))]
  · rfl

theorem shiftRight_mod (hb : b < 2 ^ w) : shrBits w b c % 2 ^ w = b >>> c := by
  rw [shrBits_eq hb, Nat.mod_eq_of_lt]
  exact (Nat.shiftRight_le b c).trans_lt hb

/-- A pattern of width `w` as a signed integer. -/
theorem toInt_bounds (w b : Nat) : -(2 ^ w : Nat) ≤ toInt true w b ∧ toInt true w b < (2 ^ w : Nat) := by
  have hlt := Nat.mod_lt b (Nat.two_pow_pos w)
  unfold toInt
  split <;> omega

/-- At and above the width a shift leaves the sign bits alone. -/
theorem toInt_shiftRight (w b c : Nat) : toInt true w b / (2 ^ (if w ≤ c then w else c) : Nat) = toInt true w b >>> c := by
  rw [Int.shiftRight_eq_div_pow]
  split
  · next h =>
    obtain ⟨hlo, hhi⟩ := toInt_bounds w b
    have hpow : ((2 ^ w : Nat) : Int) ≤ (2 ^ c : Nat) := by exact_mod_cast Nat.pow_le_pow_right (by decide) h
    generalize toInt true w b = z at *
    rcases lt_or_ge z 0 with hneg | hpos
    · rw [Int.ediv_eq_neg_one_of_neg_of_le hneg (by omega), Int.ediv_eq_neg_one_of_neg_of_le hneg (by omega)]
    · rw [Int.ediv_eq_zero_of_lt hpos hhi, Int.ediv_eq_zero_of_lt hpos (by omega)]
  · rfl

theorem sarBits_cast : ((sarBits w b c % 2 ^ w : Nat) : Int) = (toInt true w b >>> c) % (2 ^ w : Nat) := by
  have hpos : ((2 ^ w : Nat) : Int) ≠ 0 := by exact_mod_cast (Nat.two_pow_pos w).ne'
  rw [sarBits, Nat.mod_eq_of_lt (ofInt_lt ..), toInt_shiftRight, ofInt, Int.toNat_of_nonneg (Int.emod_nonneg _ hpos)]

/-- SAR and PSHR, by the signedness of the type. -/
theorem shiftRight_signed (sg : Bool) (hb : b < 2 ^ w) :
    let r := (if sg then sarBits w b c else shrBits w b c) % 2 ^ w
    if sg then (r : Int) = (toInt true w b >>> c) % (2 ^ w : Nat) else r = b >>> c := by
  cases sg
  · exact shiftRight_mod hb
  · exact sarBits_cast

/-- The two parts of a rotated pattern have no bit in common. -/
theorem rotate_eq (hw : 0 < w) (hb : b < 2 ^ w) :
    (b * 2 ^ (c % w) % 2 ^ w + b / 2 ^ (w - c % w)) % 2 ^ w = ((BitVec.ofNat w b).rotateLeft c).toNat := by
  have hcw : c % w < w := Nat.mod_lt _ hw
  have hhigh : b / 2 ^ (w - c % w) < 2 ^ (c % w) := by
    rw [Nat.div_lt_iff_lt_mul (Nat.two_pow_pos _), ← Nat.pow_add, Nat.add_sub_cancel' hcw.le]
    exact hb
  have hlow : b * 2 ^ (c % w) % 2 ^ w = 2 ^ (c % w) * (b % 2 ^ (w - c % w)) := by
    have hpow : 2 ^ w = 2 ^ (w - c % w) * 2 ^ (c % w) := by rw [← Nat.pow_add, Nat.sub_add_cancel hcw.le]
    rw [hpow, Nat.mul_mod_mul_right, Nat.mul_comm]
  have hsum : ((BitVec.ofNat w b).rotateLeft c).toNat = b * 2 ^ (c % w) % 2 ^ w + b / 2 ^ (w - c % w) := by
    rw [BitVec.toNat_rotateLeft, BitVec.toNat_ofNat, Nat.mod_eq_of_lt hb, Nat.shiftLeft_eq, Nat.shiftRight_eq_div_pow, hlow,
      ← Nat.two_pow_add_eq_or_of_lt hhigh]
  rw [← hsum, Nat.mod_eq_of_lt (BitVec.isLt _)]

theorem testBit_andn (hc : c < 2 ^ w) (i : Nat) (hi : i < w) :
    (Nat.land b (2 ^ w - 1 - c) % 2 ^ w).testBit i = (b.testBit i && !c.testBit i) := by
  have hnot : 2 ^ w - 1 - c = 2 ^ w - (c + 1) := by omega
  show ((b &&& (2 ^ w - 1 - c)) % 2 ^ w).testBit i = _
  rw [Nat.testBit_mod_two_pow, Nat.testBit_and, hnot, Nat.testBit_two_pow_sub_succ hc, decide_eq_true hi, Bool.true_and,
    Bool.true_and]

end shifts


section meanings
variable (x : Ctl) (m : IMod) (o : Slots) (s : State)

theorem exec_andL : exec (.andL x m o) s = execAnd x m o s := rfl
theorem exec_orL : exec (.orL x m o) s = execOr x m o s := rfl
theorem exec_xorL : exec (.xorL x m o) s = execXor x m o s := rfl
theorem exec_andn : exec (.andn x m o) s = execAndn x m o s := rfl
theorem exec_shl : exec (.shl x m o) s = execShl x m o s := rfl
theorem exec_pshl : exec (.pshl x m o) s = execPshl x m o s := rfl
theorem exec_shr : exec (.shr x m o) s = execShr x m o s := rfl
theorem exec_sar : exec (.sar x m o) s = execSar x m o s := rfl
theorem exec_pshr : exec (.pshr x m o) s = execPshr x m o s := rfl
theorem exec_rol : exec (.rol x m o) s = execRol x m o s := rfl

end meanings

/-- The bitwise words and the shifts of Tables 12.4 and 12.5. -/
theorem logicAndShiftWords : Claim.LogicAndShiftWords :=
  ⟨claim_bitWord_of_bitWord _ exec_andL fun _ _ hc => Nat.mod_eq_of_lt (Nat.and_lt_two_pow _ hc),
    claim_bitWord_of_bitWord _ exec_orL fun _ hb hc => Nat.mod_eq_of_lt (Nat.or_lt_two_pow hb hc),
    claim_bitWord_of_bitWord _ exec_xorL fun _ hb hc => Nat.mod_eq_of_lt (Nat.xor_lt_two_pow hb hc),
    claim_bitWord_of_bitWord _ exec_andn fun _ _ hc => testBit_andn hc,
    claim_bitWord_of_bitMap _ (fun m b c _ _ => shlBits m.ty.width b c) exec_shl fun _ _ _ => shlBits_mod,
    claim_bitWord_of_bitWord _ exec_pshl fun _ _ _ => shlBits_mod,
    claim_bitWord_of_bitWord _ exec_shr fun _ hb _ => shiftRight_mod hb,
    claim_bitWord_of_bitWord _ exec_sar fun m hb _ => shiftRight_signed m.ty.signed hb,
    claim_bitWord_of_bitWord _ exec_pshr fun m hb _ => shiftRight_signed m.ty.signed hb,
    claim_bitWord_of_bitWord _ exec_rol fun m hb _ => rotate_eq (width_pos m.ty) hb⟩

/-! ## Bit counts -/

theorem clz_spec {w b : Nat} (hb : b < 2 ^ w) :
    let r := (if b = 0 then w else w - 1 - Nat.log2 b) % 2 ^ w
    (b = 0 → r = w) ∧ (b ≠ 0 → r < w ∧ 2 ^ (w - 1 - r) ≤ b ∧ b < 2 ^ (w - r)) := by
  have hw : w < 2 ^ w := Nat.lt_two_pow_self
  refine ⟨fun h => ?_, fun h => ?_⟩
  · rw [if_pos h, Nat.mod_eq_of_lt hw]
  · have hlog : Nat.log2 b < w := (Nat.log2_lt h).mpr hb
    rw [if_neg h, Nat.mod_eq_of_lt (by omega), show w - 1 - (w - 1 - Nat.log2 b) = Nat.log2 b by omega,
      show w - (w - 1 - Nat.log2 b) = Nat.log2 b + 1 by omega]
    exact ⟨by omega, Nat.log2_self_le h, Nat.lt_log2_self⟩

theorem two_pow_dvd_iff (i b : Nat) : 2 ^ i ∣ b ↔ ∀ j, j < i → b.testBit j = false := by
  rw [Nat.dvd_iff_mod_eq_zero]
  constructor
  · intro h j hj
    have hbit := Nat.testBit_mod_two_pow b i j
    rwa [h, Nat.zero_testBit, decide_eq_true hj, Bool.true_and, eq_comm] at hbit
  · intro h
    refine Nat.eq_of_testBit_eq fun j => ?_
    rw [Nat.testBit_mod_two_pow, Nat.zero_testBit]
    by_cases hj : j < i
    · rw [h j hj, Bool.and_false]
    · rw [decide_eq_false hj, Bool.false_and]

theorem ctz_spec {w b : Nat} (hb : b < 2 ^ w) :
    let r := ((List.range w).find? (fun i => b.testBit i)).getD w % 2 ^ w
    (b = 0 → r = w) ∧ (b ≠ 0 → 2 ^ r ∣ b ∧ ¬ 2 ^ (r + 1) ∣ b) := by
  have hw : w < 2 ^ w := Nat.lt_two_pow_self
  cases hfind : (List.range w).find? (fun i => b.testBit i) with
  | none =>
    have hzero : b = 0 := by
      rw [List.find?_range_eq_none] at hfind
      refine Nat.eq_of_testBit_eq fun i => ?_
      rw [Nat.zero_testBit]
      by_cases hi : i < w
      · simpa using hfind i hi
      · exact Nat.testBit_lt_two_pow (hb.trans_le (Nat.pow_le_pow_right (by decide) (by omega)))
    exact ⟨fun _ => Nat.mod_eq_of_lt hw, fun h => absurd hzero h⟩
  | some i =>
    obtain ⟨hbit, hmem, hbelow⟩ := List.find?_range_eq_some.mp hfind
    have hi : i % 2 ^ w = i := Nat.mod_eq_of_lt ((List.mem_range.mp hmem).trans hw)
    simp only [Option.getD_some, hi, two_pow_dvd_iff]
    refine ⟨fun h => ?_, fun _ => ⟨fun j hj => by simpa using hbelow j hj, fun h => ?_⟩⟩
    · rw [h, Nat.zero_testBit] at hbit
      cases hbit
    · rw [h i (Nat.lt_succ_self i)] at hbit
      cases hbit

theorem bit_testBit (b i : Nat) : b / 2 ^ i % 2 = bit (b.testBit i) := by
  rw [Nat.testBit_eq_decide_div_mod_eq]
  rcases Nat.mod_two_eq_zero_or_one (b / 2 ^ i) with h | h <;> simp [h, bit]

theorem foldl_count (p : Nat → Bool) (ks : List Nat) (a : Nat) :
    ks.foldl (fun a i => a + bit (p i)) a = a + (ks.filter p).length := by
  induction ks generalizing a with
  | nil => rfl
  | cons k ks ih =>
    rw [List.foldl_cons, ih]
    cases hk : p k
    · rw [List.filter_cons_of_neg (by simp [hk])]
      rfl
    · rw [List.filter_cons_of_pos hk, List.length_cons, bit, if_pos rfl, Nat.add_assoc, Nat.add_comm 1]

theorem popc_spec (w b : Nat) :
    (List.range w).foldl (fun a i => a + b / 2 ^ i % 2) 0 % 2 ^ w =
      ((List.range w).filter (fun i => b.testBit i)).length := by
  simp only [bit_testBit, foldl_count, Nat.zero_add]
  have hle := List.length_filter_le (fun i => b.testBit i) (List.range w)
  rw [List.length_range] at hle
  exact Nat.mod_eq_of_lt (hle.trans_lt Nat.lt_two_pow_self)

/-- The bits of a number written as a sum of bits in their places. -/
theorem testBit_foldl_bits (p : Nat → Bool) (n i : Nat) :
    ((List.range n).foldl (fun a j => a + bit (p j) * 2 ^ j) 0).testBit i = (decide (i < n) && p i) := by
  suffices h : (List.range n).foldl (fun a j => a + bit (p j) * 2 ^ j) 0 < 2 ^ n ∧
      ((List.range n).foldl (fun a j => a + bit (p j) * 2 ^ j) 0).testBit i = (decide (i < n) && p i) from h.2
  induction n with
  | zero => simp
  | succ n ih =>
    obtain ⟨hlt, hbits⟩ := ih
    rw [List.range_succ, List.foldl_append, List.foldl_cons, List.foldl_nil]
    generalize (List.range n).foldl (fun a j => a + bit (p j) * 2 ^ j) 0 = a at *
    constructor
    · rw [Nat.pow_succ']
      cases p n <;> simp only [bit, ↓reduceIte, Bool.false_eq_true] <;> omega
    · rw [Nat.add_comm, Nat.mul_comm, Nat.two_pow_add_eq_or_of_lt hlt, Nat.testBit_or, hbits, Nat.testBit_two_pow_mul]
      rcases Nat.lt_trichotomy i n with hi | rfl | hi
      · simp [hi, hi.not_ge, Nat.lt_succ_of_lt hi]
      · cases p i <;> simp [bit]
      · have hbit : (bit (p n)).testBit (i - n) = false := by
          obtain ⟨k, hk⟩ := Nat.exists_eq_succ_of_ne_zero (show i - n ≠ 0 by omega)
          rw [hk]
          cases p n <;> simp [bit, Nat.testBit_succ]
        simp [hbit, hi.not_gt, show ¬ i < n + 1 by omega]

/-- A sum over places counted from the top is the sum over them counted from the bottom. -/
theorem foldl_reflect (p : Nat → Bool) (w : Nat) :
    (List.range w).foldl (fun a i => a + bit (p i) * 2 ^ (w - 1 - i)) 0 =
      (List.range w).foldl (fun a i => a + bit (p (w - 1 - i)) * 2 ^ i) 0 := by
  have hsum (f : Nat → Nat) : (List.range w).foldl (fun a i => a + f i) 0 = ∑ i ∈ Finset.range w, f i := by
    rw [← List.foldl_map, ← List.sum_eq_foldl]
    rfl
  rw [hsum, hsum, ← Finset.sum_range_reflect]
  refine Finset.sum_congr rfl fun i hi => ?_
  rw [show w - 1 - (w - 1 - i) = i by have := Finset.mem_range.mp hi; omega]

theorem brev_spec (w b i : Nat) (hi : i < w) :
    ((List.range w).foldl (fun a i => a + b / 2 ^ i % 2 * 2 ^ (w - 1 - i)) 0 % 2 ^ w).testBit i =
      b.testBit (w - 1 - i) := by
  simp only [bit_testBit]
  rw [foldl_reflect, Nat.testBit_mod_two_pow, testBit_foldl_bits (fun i => b.testBit (w - 1 - i)), decide_eq_true hi,
    Bool.true_and, Bool.true_and]

/-! ## Bit fields (R166) -/

theorem fieldLen_eq (w pos len : Nat) : fieldLen w pos len = Claim.fieldLen w pos len := by
  unfold fieldLen Claim.fieldLen
  rcases Nat.eq_zero_or_pos len with rfl | hlen
  · simp
  · simp [hlen.ne']

/-- A field that takes bits lies within the width. -/
theorem field_le {w pos len : Nat} (h : Claim.fieldLen w pos len ≠ 0) : pos + Claim.fieldLen w pos len ≤ w := by
  unfold Claim.fieldLen at h ⊢
  split at h
  · exact absurd rfl h
  · next hpos =>
    rw [if_neg hpos]
    omega

theorem testBit_top {l f : Nat} (hl : 0 < l) (hf : f < 2 ^ l) : f.testBit (l - 1) = decide (2 ^ (l - 1) ≤ f) := by
  by_cases h : 2 ^ (l - 1) ≤ f
  · rw [decide_eq_true h]
    exact Nat.testBit_of_two_pow_le_and_two_pow_add_one_gt h (by rwa [Nat.sub_add_cancel hl])
  · rw [decide_eq_false h]
    exact Nat.testBit_lt_two_pow (Nat.lt_of_not_le h)

/-- A negative number's bits above the field are ones. -/
theorem ofInt_sub {w l f : Nat} (hlw : l ≤ w) (hf : f < 2 ^ l) :
    ofInt w ((f : Int) - (2 ^ l : Nat)) = 2 ^ l * (2 ^ (w - l) - 1) + f := by
  have hpow : 2 ^ w = 2 ^ l * 2 ^ (w - l) := by rw [← Nat.pow_add, Nat.add_sub_cancel' hlw]
  have hle : 2 ^ l ≤ 2 ^ w := Nat.pow_le_pow_right (by decide) hlw
  rw [ofInt, ← Int.add_emod_right, Int.emod_eq_of_lt (by omega) (by omega), Nat.mul_sub, Nat.mul_one, ← hpow]
  omega

/-- A field of `l` bits brought to width `w` with its sign. -/
theorem testBit_signExtend {w l f : Nat} (hl : 0 < l) (hlw : l ≤ w) (hf : f < 2 ^ l) (i : Nat) (hi : i < w) :
    (ofInt w (toInt true l f)).testBit i = if i < l then f.testBit i else f.testBit (l - 1) := by
  have hout (h : ¬ i < l) : f.testBit i = false :=
    Nat.testBit_lt_two_pow (hf.trans_le (Nat.pow_le_pow_right (by decide) (by omega)))
  rw [testBit_top hl hf, toInt, Nat.mod_eq_of_lt hf, Bool.true_and]
  by_cases hneg : 2 ^ (l - 1) ≤ f
  · rw [if_pos (decide_eq_true hneg), ofInt_sub hlw hf, Nat.two_pow_add_eq_or_of_lt hf, Nat.testBit_or,
      Nat.testBit_two_pow_mul, Nat.testBit_two_pow_sub_one, decide_eq_true hneg]
    by_cases h : i < l
    · simp [h]
    · simp [h, hout h, show l ≤ i by omega, show i - l < w - l by omega]
  · have hfw : f < 2 ^ w := hf.trans_le (Nat.pow_le_pow_right (by decide) hlw)
    rw [if_neg (by simpa using hneg), ofInt, Int.emod_eq_of_lt (by omega) (by exact_mod_cast hfw), Int.toNat_natCast,
      decide_eq_false hneg]
    by_cases h : i < l
    · rw [if_pos h]
    · rw [if_neg h, hout h]

theorem testBit_field (b c l i : Nat) : (b / 2 ^ c % 2 ^ l).testBit i = (decide (i < l) && b.testBit (c + i)) := by
  rw [Nat.testBit_mod_two_pow, Nat.testBit_div_two_pow, Nat.add_comm]

theorem bfx_spec (sg : Bool) (w b c d i : Nat) (hi : i < w) :
    let l := fieldLen w c d
    ((if l = 0 then 0 else
      let f := b / 2 ^ c % 2 ^ l
      if sg then ofInt w (toInt true l f) else f) % 2 ^ w).testBit i =
      let l := Claim.fieldLen w c d
      (if i < l then b.testBit (c + i) else sg && decide (0 < l) && b.testBit (c + l - 1)) := by
  dsimp only
  rw [fieldLen_eq, Nat.testBit_mod_two_pow, decide_eq_true hi, Bool.true_and]
  by_cases hl : Claim.fieldLen w c d = 0
  · simp [hl]
  · have hle := field_le hl
    have hpos : 0 < Claim.fieldLen w c d := Nat.pos_of_ne_zero hl
    rw [if_neg hl, decide_eq_true hpos, Bool.and_true]
    cases sg
    · rw [if_neg Bool.false_ne_true, testBit_field]
      split <;> simp [*]
    · rw [if_pos rfl, testBit_signExtend hpos (by omega) (Nat.mod_lt _ (Nat.two_pow_pos _)) i hi, testBit_field,
        testBit_field, Nat.add_sub_assoc hpos]
      split <;> simp [*]

theorem testBit_replaced (b c d l i : Nat) :
    (c % 2 ^ d + b % 2 ^ l * 2 ^ d + c / 2 ^ (d + l) * 2 ^ (d + l)).testBit i =
      if d ≤ i ∧ i < d + l then b.testBit (i - d) else c.testBit i := by
  have hlow : c % 2 ^ d < 2 ^ d := Nat.mod_lt _ (Nat.two_pow_pos _)
  have hmid : 2 ^ d * (b % 2 ^ l) + c % 2 ^ d < 2 ^ (d + l) := by
    have hb : b % 2 ^ l + 1 ≤ 2 ^ l := Nat.mod_lt _ (Nat.two_pow_pos _)
    calc 2 ^ d * (b % 2 ^ l) + c % 2 ^ d < 2 ^ d * (b % 2 ^ l + 1) := by rw [Nat.mul_add, Nat.mul_one]; omega
      _ ≤ 2 ^ (d + l) := by rw [Nat.pow_add]; exact Nat.mul_le_mul_left _ hb
  have hor : c % 2 ^ d + b % 2 ^ l * 2 ^ d + c / 2 ^ (d + l) * 2 ^ (d + l) =
      2 ^ (d + l) * (c / 2 ^ (d + l)) ||| (2 ^ d * (b % 2 ^ l) ||| c % 2 ^ d) := by
    rw [← Nat.two_pow_add_eq_or_of_lt hlow, ← Nat.two_pow_add_eq_or_of_lt hmid]
    ring
  rw [hor]
  simp only [Nat.testBit_or, Nat.testBit_two_pow_mul, Nat.testBit_mod_two_pow, Nat.testBit_div_two_pow]
  by_cases hd : d ≤ i
  · by_cases hl : i < d + l
    · simp [hd, hl, show ¬ i < d by omega, show i - d < l by omega, show ¬ d + l ≤ i by omega]
    · simp [hd, hl, show ¬ i < d by omega, show ¬ i - d < l by omega, show d + l ≤ i by omega]
  · simp [hd, show i < d by omega, show ¬ d + l ≤ i by omega]

theorem bfi_spec (w b c d e i : Nat) (hi : i < w) :
    let l := fieldLen w d e
    ((if l = 0 then c else c % 2 ^ d + b % 2 ^ l * 2 ^ d + c / 2 ^ (d + l) * 2 ^ (d + l)) % 2 ^ w).testBit i =
      (if d ≤ i ∧ i < d + Claim.fieldLen w d e then b.testBit (i - d) else c.testBit i) := by
  dsimp only
  rw [fieldLen_eq, Nat.testBit_mod_two_pow, decide_eq_true hi, Bool.true_and]
  split
  · next h => simp [h, show ¬ (d ≤ i ∧ i < d) by omega]
  · exact testBit_replaced ..

section meanings
variable (x : Ctl) (m : IMod) (o : Slots) (s : State)

theorem exec_clz : exec (.clz x m o) s = execClz x m o s := rfl
theorem exec_ctz : exec (.ctz x m o) s = execCtz x m o s := rfl
theorem exec_popc : exec (.popc x m o) s = execPopc x m o s := rfl
theorem exec_brev : exec (.brev x m o) s = execBrev x m o s := rfl
theorem exec_bfx : exec (.bfx x m o) s = execBfx x m o s := rfl
theorem exec_bfi : exec (.bfi x m o) s = execBfi x m o s := rfl
theorem exec_lea : exec (.lea x m o) s = execLea x m o s := rfl
theorem exec_sel : exec (.sel x m o) s = execSel x m o s := rfl
theorem exec_mov : exec (.mov x m o) s = execMov x m o s := rfl

end meanings

/-- Bit counts, bit fields and LEA. -/
theorem bitCountAndFieldWords : Claim.BitCountAndFieldWords :=
  ⟨claim_bitWord_of_bitWord _ exec_clz fun _ hb _ => clz_spec hb,
    claim_bitWord_of_bitWord _ exec_ctz fun _ hb _ => ctz_spec hb,
    claim_bitWord_of_bitWord _ exec_popc fun _ _ _ => popc_spec ..,
    claim_bitWord_of_bitWord _ exec_brev fun _ _ _ => brev_spec _ _,
    claim_bitWord_of_bitWord _ exec_bfx fun m _ _ => bfx_spec m.ty.signed _ _ _ _,
    claim_bitWord_of_bitWord _ exec_bfi fun _ _ _ => bfi_spec _ _ _ _ _,
    claim_bitWord_of_bitMap _ (fun m b c d _ => (b + c * 2 ^ (d % m.ty.width)) % 2 ^ m.ty.width) exec_lea
      fun _ _ _ => Nat.mod_mod ..⟩

/-! ## Selections, moves and comparisons (R167) -/

theorem selectAndMoveWords : Claim.SelectAndMoveWords :=
  ⟨fun x m o => yields_of_calc _ x o (tysD m.ty) _ _ _ (exec_sel x m o) fun _ _ _ _ _ _ => rfl,
    fun x m o => yields_of_calc _ x o (tys m.ty) _ _ _ (exec_mov x m o) fun _ _ _ _ _ _ => rfl⟩

theorem allOnes_mod (w : Nat) (b : Bool) : allOnes w b % 2 ^ w = if b then 2 ^ w - 1 else 0 := by
  have hpos := Nat.two_pow_pos w
  cases b
  · exact Nat.zero_mod _
  · exact Nat.mod_eq_of_lt (Nat.sub_lt hpos Nat.one_pos)

theorem condInt_eq (k : Cond) (b c : Int) : condInt k b c = Claim.cond k b c := by
  rw [Bool.eq_iff_iff]
  cases k with
  | eq | ne | lt | gt => simp [condInt, Claim.cond]
  | le => simp [condInt, Claim.cond, le_iff_lt_or_eq]
  | ge => simp [condInt, Claim.cond, le_iff_lt_or_eq, eq_comm (a := c)]

/-- The result of ICMP and PCMP, by sub-element. -/
def compared (m : CMod) (v : Opnds) (t k : Nat) : Nat :=
  allOnes m.ty.width (condInt m.cond (elemInt m.ty (v.gb t) k) (elemInt m.ty (v.gc t) k))

theorem exec_icmp (x : Ctl) (m : CMod) (o : Slots) (s : State) : exec (.icmp x m o) s = cmpWord x m o s := rfl
theorem exec_pcmp (x : Ctl) (m : CMod) (o : Slots) (s : State) : exec (.pcmp x m o) s = cmpWord x m o s := rfl

theorem compareWordsWriteMasks : Claim.CompareWordsWriteMasks := by
  intro x m o
  refine ⟨_, yields_of_bitMap _ x o (tys m.ty) [o.b, o.c] m.ty _ (compared m) (exec_icmp x m o),
    yields_of_bitMap _ x o (tys m.ty) [o.b, o.c] m.ty _ (compared m) (exec_pcmp x m o), fun c w T v t k hk => ?_⟩
  rw [bitMap_elem _ _ hk, compared, condInt_eq, allOnes_mod]

/-- Settles O2, from the shifts, the fields, the moves and the comparisons. -/
theorem bitwiseWords : Obligations.BitwiseWords :=
  ⟨logicAndShiftWords, bitCountAndFieldWords, selectAndMoveWords, compareWordsWriteMasks⟩

end Sys2Proof.Machine
end

section
/-! PROOFS. PSAD and PDOT: sums over sub-elements in 64 bits (R170). -/

namespace Sys2Proof.Machine

theorem foldl_add_eq_sum (f : Nat → Int) (ks : List Nat) (a : Int) :
    ks.foldl (fun acc k => acc + f k) a = a + (ks.map f).sum := by
  induction ks generalizing a with
  | nil => simp
  | cons k ks ih => rw [List.foldl_cons, ih, List.map_cons, List.sum_cons, Int.add_assoc]

/-- A result wrapped into a register is the register's residue of it. -/
theorem ofNat_ofInt (r : Int) : BitVec.ofNat 64 (ofInt 64 r) = BitVec.ofInt 64 r :=
  BitVec.eq_of_toNat_eq (Nat.mod_eq_of_lt (ofInt_lt 64 r))

/-- A sum of form `reduceWord` is the claimed one, its terms told as the claim tells them. -/
theorem claim_sumWord_of_reduceWord {ctor : Ctl → IMod → Slots → Instr} {f : Int → Int → Int} (g : Int → Int → Int)
    (hg : ∀ b c, g b c = f b c) (he : ∀ x m o s, exec (ctor x m o) s = reduceWord x m o g s) : Claim.sumWord ctor f := by
  intro x m o r lo hi
  obtain rfl : g = f := funext₂ hg
  have h := yields_of_calc _ x o (tysD m.ty) [o.b, o.c, o.d] _ _ (he x m o) (fun _ _ _ _ _ _ => rfl)
  simpa only [foldl_add_eq_sum, narrowInt_fst, narrowInt_snd, ofNat_ofInt] using h

/-- Settles O3: PSAD sums absolute differences, PDOT products. -/
theorem packedSumsAccumulateInto64Bits : Obligations.PackedSumsAccumulateInto64Bits :=
  ⟨claim_sumWord_of_reduceWord (fun b c => (b - c).natAbs) (fun b c => by split <;> omega) fun _ _ _ _ => rfl,
    claim_sumWord_of_reduceWord (fun b c => b * c) (fun _ _ => rfl) fun _ _ _ _ => rfl⟩

end Sys2Proof.Machine
end

section
/-! PROOFS. Floating-point sums, products, scalings and dot products: the exact result, rounded once (R171, R174). -/

namespace Sys2Proof.Machine

section meanings
variable (x : Ctl) (m : FMod) (o : Slots) (s : State)

theorem exec_fadd : exec (.fadd x m o) s = execFadd x m o s := rfl
theorem exec_fsub : exec (.fsub x m o) s = execFsub x m o s := rfl
theorem exec_fmul : exec (.fmul x m o) s = execFmul x m o s := rfl
theorem exec_fma : exec (.fma x m o) s = execFma x m o s := rfl
theorem exec_fscale : exec (.fscale x m o) s = execFscale x m o s := rfl

end meanings

/-- FADD, FSUB, FMUL, FMA and FSCALE, each by the exact value that it rounds. -/
theorem floatArithmeticRoundsTheExactResultOnce : Claim.FloatArithmeticRoundsTheExactResultOnce := by
  refine ⟨claim_fltWord_of_fltWord fun x m o s => ?fadd, claim_fltWord_of_fltWord fun x m o s => ?fsub,
    claim_fltWord_of_fltWord fun x m o s => ?fmul, claim_fltWord_of_fltWord fun x m o s => ?fma,
    claim_fltWord_of_fltWord fun x m o s => ?fscale⟩
  case fadd =>
    rw [exec_fadd, execFadd, sumWord]
    congr 1
    funext r b c _
    exact Prod.ext rfl (BitVec.or_assoc ..)
  case fsub =>
    rw [exec_fsub, execFsub, sumWord]
    congr 1
    funext r b c _
    exact Prod.ext rfl (BitVec.or_assoc ..)
  case fmul =>
    rw [exec_fmul, execFmul]
    congr 1
    funext r b c _
    exact Prod.ext rfl (BitVec.or_assoc ..)
  case fma =>
    rw [exec_fma, execFma]
    congr 1
    funext r b c d
    exact Prod.ext rfl (by simp only [Claim.sum, BitVec.or_assoc])
  case fscale =>
    rw [exec_fscale, execFscale]
    congr 1
    funext r b c _
    dsimp only
    rcases FTy.opnd m.fty b with ⟨_ | n | ⟨n, k, e⟩, g⟩ <;> rfl

theorem drawn_all (rm : RMode) (r : Word) (n : Nat) :
    drawn rm (fun _ => true) r n = if rm = .rs then rndSteps n r else r := by
  rw [drawn, List.filter_true, List.length_range]

theorem exec_fdot2 (x : Ctl) (m : FMod) (o : Slots) (s : State) : exec (.fdot2 x m o) s = execFdot2 x m o s := rfl

theorem floatDotProductRoundsOnce : Claim.FloatDotProductRoundsOnce := by
  intro x m o
  have he := exec_fdot2 x m o
  unfold execFdot2 at he
  dsimp only at he
  refine ⟨_, _, _, yields_of_draw _ x o _ _ _ _ he (fun _ _ _ _ _ _ => rfl) ?_,
    fun c w T v t => ⟨fun j hj => ?_, ?_, ?_⟩⟩
  · intro c w T v t r h
    rw [fltMap_eq] at h
    exact drawn_eq_zero h
  · exact fltMap_elem _ _ _ _ _ _ (by decide) hj
  · rw [fltMap_eq]
  · rw [fltMap_eq, drawn_all]

/-- Settles O4, from the sums, products and scalings of one format and the dot product into FP32. -/
theorem floatSumsAndProductsRoundOnce : Obligations.FloatSumsAndProductsRoundOnce :=
  ⟨floatArithmeticRoundsTheExactResultOnce, floatDotProductRoundsOnce⟩

end Sys2Proof.Machine
end

section
/-! PROOFS. Floating-point words that round nothing: the order of values, flushed operands, FMIN, FMAX, FABS, FNEG, FCMP and
FCLASS (R71, R172, R173). -/

namespace Sys2Proof.Machine

/-! ## The order of values (R172) -/

/-- The number that a dyadic denotes. -/
def Dy.val (a : Dy) : ℚ := a.m * 2 ^ a.e

theorem val_add (a b : Dy) : (Dy.add a b).val = a.val + b.val := by
  have scale {e g : Int} (h : e ≤ g) : (2 : ℚ) ^ g = 2 ^ (g - e).toNat * 2 ^ e := by
    rw [← zpow_natCast, ← zpow_add₀ two_ne_zero]
    congr 1
    omega
  unfold Dy.add Dy.val
  split
  · next h =>
    rw [scale h]
    push_cast
    ring
  · next h =>
    rw [scale (le_of_not_ge h)]
    push_cast
    ring

theorem val_neg_iff (a : Dy) : a.val < 0 ↔ a.m < 0 := by
  have hpos : (0 : ℚ) < 2 ^ a.e := zpow_pos two_pos _
  rw [Dy.val, mul_neg_iff]
  simp [hpos, hpos.not_gt]

theorem lt_iff_val (a b : Dy) : Dy.lt a b = true ↔ a.val < b.val := by
  have hneg : (⟨-b.m, b.e⟩ : Dy).val = -b.val := by simp [Dy.val]
  rw [Dy.lt, decide_eq_true_eq, ← val_neg_iff, val_add, hneg, ← sub_eq_add_neg, sub_neg]

theorem val_ofFin_zero (n : Bool) (e : Int) : (Dy.ofFin n 0 e).val = 0 := by
  cases n <;> simp [Dy.val, Dy.ofFin]

theorem dyLt_asymm {a b : Dy} (h : Dy.lt a b = true) : Dy.lt b a = false :=
  Bool.eq_false_iff.mpr fun h' => lt_asymm ((lt_iff_val a b).mp h) ((lt_iff_val b a).mp h')

theorem dyLt_congr {a a' b b' : Dy} (ha : a.val = a'.val) (hb : b.val = b'.val) : Dy.lt a b = Dy.lt a' b' := by
  rw [Bool.eq_iff_iff, lt_iff_val, lt_iff_val, ha, hb]

theorem ltZ_fin (s t : Bool) (m n : Nat) (e g : Int) :
    FVal.ltZ (.fin s m e) (.fin t n g) =
      if m = 0 ∧ n = 0 then s && !t else Dy.lt (.ofFin s m e) (.ofFin t n g) := by
  simp [FVal.ltZ]

theorem ltZ_asymm {a b : FVal} (h : FVal.ltZ a b = true) : FVal.ltZ b a = false := by
  rcases a with _ | ⟨_ | _⟩ | ⟨s, m, e⟩ <;> rcases b with _ | ⟨_ | _⟩ | ⟨t, n, g⟩
  case fin.fin =>
    rw [ltZ_fin] at h ⊢
    by_cases hz : m = 0 ∧ n = 0
    · rw [if_pos hz, Bool.and_eq_true, Bool.not_eq_true'] at h
      obtain ⟨hs, ht⟩ := h
      rw [if_pos hz.symm, ht, Bool.false_and]
    · rw [if_neg hz] at h
      rw [if_neg fun h0 => hz h0.symm]
      exact dyLt_asymm h
  all_goals simp_all [FVal.ltZ]

theorem ltZ_irrefl (a : FVal) : FVal.ltZ a a = false := by
  cases h : FVal.ltZ a a
  · rfl
  · exact h.symm.trans (ltZ_asymm h)

/-- FMIN takes the lesser of two values, FMAX the greater: `a` is taken before `b`. -/
def FVal.before (isMax : Bool) (a b : FVal) : Bool := if isMax then FVal.ltZ b a else FVal.ltZ a b

theorem before_asymm {isMax : Bool} {a b : FVal} (h : FVal.before isMax a b = true) : FVal.before isMax b a = false := by
  cases isMax <;> exact ltZ_asymm h

theorem before_irrefl (isMax : Bool) (a : FVal) : FVal.before isMax a a = false := by
  cases isMax <;> exact ltZ_irrefl a

/-- Values that are one but for the unit in which a zero is told. -/
def FVal.Agree (a b : FVal) : Prop := a = b ∨ ∃ n e g, a = .fin n 0 e ∧ b = .fin n 0 g

theorem isNan_congr {a a' : FVal} (ha : FVal.Agree a a') : a.isNan = a'.isNan := by
  obtain rfl | ⟨n, e, g, rfl, rfl⟩ := ha <;> rfl

/-- Both orders see a zero's sign alone. -/
theorem lt_zero (n : Bool) (e g : Int) (b : FVal) :
    FVal.ltZ (.fin n 0 e) b = FVal.ltZ (.fin n 0 g) b ∧ FVal.ltZ b (.fin n 0 e) = FVal.ltZ b (.fin n 0 g) ∧
      FVal.lt (.fin n 0 e) b = FVal.lt (.fin n 0 g) b ∧ FVal.lt b (.fin n 0 e) = FVal.lt b (.fin n 0 g) := by
  have hval : (Dy.ofFin n 0 e).val = (Dy.ofFin n 0 g).val := by rw [val_ofFin_zero, val_ofFin_zero]
  rcases b with _ | ⟨_ | _⟩ | ⟨t, k, i⟩
  case fin =>
    have hl := dyLt_congr hval (rfl : (Dy.ofFin t k i).val = _)
    have hr := dyLt_congr (rfl : (Dy.ofFin t k i).val = _) hval
    exact ⟨by rw [ltZ_fin, ltZ_fin, hl], by rw [ltZ_fin, ltZ_fin, hr], hl, hr⟩
  all_goals exact ⟨rfl, rfl, rfl, rfl⟩

section agree
variable {a a' b b' : FVal} (ha : FVal.Agree a a') (hb : FVal.Agree b b')
include ha hb

theorem ltZ_congr : FVal.ltZ a b = FVal.ltZ a' b' := by
  calc FVal.ltZ a b = FVal.ltZ a' b := by
        obtain rfl | ⟨n, e, g, rfl, rfl⟩ := ha
        · rfl
        · exact (lt_zero n e g b).1
    _ = FVal.ltZ a' b' := by
        obtain rfl | ⟨n, e, g, rfl, rfl⟩ := hb
        · rfl
        · exact (lt_zero n e g a').2.1

theorem lt_congr : FVal.lt a b = FVal.lt a' b' := by
  calc FVal.lt a b = FVal.lt a' b := by
        obtain rfl | ⟨n, e, g, rfl, rfl⟩ := ha
        · rfl
        · exact (lt_zero n e g b).2.2.1
    _ = FVal.lt a' b' := by
        obtain rfl | ⟨n, e, g, rfl, rfl⟩ := hb
        · rfl
        · exact (lt_zero n e g a').2.2.2

end agree

/-! ## Flushed operands (R71) -/

theorem value_zero_sign (t : FTy) (n : Bool) : ∃ e, (FTy.fmt t).value ((FTy.fmt t).zero n) = .fin n 0 e := by
  cases t <;> cases n <;> exact ⟨_, rfl⟩

section flush
variable (t : FTy) (b : Nat)

/-- An operand is the value of its encoding after the flush. -/
theorem opnd_agrees : FVal.Agree (FTy.opnd t b).1 ((FTy.fmt t).value (Claim.flushed t b)) := by
  unfold FTy.opnd FFmt.operand Claim.flushed
  split
  · obtain ⟨e, he⟩ := value_zero_sign t ((FTy.fmt t).sign b)
    exact .inr ⟨_, 0, e, rfl, he⟩
  · exact .inl rfl

theorem opnd_flags : (FTy.opnd t b).2 = Claim.flushFlag t b := by
  unfold FTy.opnd FFmt.operand Claim.flushFlag flagIf
  split <;> rfl

/-- The encoding that the words keep of an operand. -/
theorem kept_encoding :
    (if (FTy.opnd t b).2 ≠ 0 then (FTy.fmt t).zero ((FTy.fmt t).sign b) else b) = Claim.flushed t b := by
  unfold FTy.opnd FFmt.operand Claim.flushed
  split
  · exact if_pos (show fFlush ≠ 0 by decide)
  · exact if_neg (show ¬ (0 : Flags) ≠ 0 by decide)

theorem flushed_lt {b : Nat} (hb : b < 2 ^ t.ety.width) : Claim.flushed t b < 2 ^ t.ety.width := by
  unfold Claim.flushed
  split
  · exact (special_lt t _).2.2
  · exact hb

end flush

/-! ## FMIN and FMAX -/

/-- FMIN and FMAX by cases on which operand is a NaN. -/
theorem minmax_eq (t : FTy) (isMax : Bool) (b c : Nat) :
    let u := (FTy.opnd t b).1
    let v := (FTy.opnd t c).1
    (FTy.fmt t).minmax (FTy.flushes t) isMax b c =
      (if u.isNan && v.isNan then (FTy.fmt t).nan
        else if u.isNan then Claim.flushed t c
        else if v.isNan then Claim.flushed t b
        else if (if isMax then FVal.ltZ u v else FVal.ltZ v u) then Claim.flushed t c else Claim.flushed t b,
        Claim.flushFlag t b ||| Claim.flushFlag t c) := by
  rw [← kept_encoding, ← kept_encoding, ← opnd_flags, ← opnd_flags]
  unfold FFmt.minmax FTy.opnd
  dsimp only
  generalize (FTy.fmt t).operand (FTy.flushes t) b = u
  generalize (FTy.fmt t).operand (FTy.flushes t) c = v
  obtain ⟨_ | _ | _, p⟩ := u <;> obtain ⟨_ | _ | _, q⟩ := v
  case nan.nan | nan.inf | nan.fin | inf.nan | fin.nan => rfl
  all_goals exact (apply_ite (fun r => (r, p ||| q)) _ _ _).symm

theorem claim_plainWord_of_plainF {ctor : Ctl → FMod → Slots → Instr} {srcs : Slots → List Spec}
    {R : FMod → Nat → Nat → Nat → Prop} {g : FMod → Nat → Nat → Flags} (f : FMod → Nat → Nat → Nat × Flags)
    (he : ∀ x m o s, exec (ctor x m o) s = plainF x m o (srcs o) (f m) s)
    (hR : ∀ (m : FMod) b c, b < 2 ^ m.fty.ety.width → c < 2 ^ m.fty.ety.width →
      R m b c ((f m b c).1 % 2 ^ m.fty.ety.width) ∧ (f m b c).2 = g m b c) : Claim.plainWord ctor srcs R g := by
  intro x m o
  have hx := he x m o
  unfold plainF at hx
  refine ⟨_, _, yields_of_calc _ x o (tys m.fty.ety) (srcs o) _ _ hx (fun _ _ _ _ _ _ => rfl), fun c w T v t => ?_⟩
  have hk (k : Nat) := hR m _ _ (elemBits_lt m.fty.ety.width (v.gb t) k) (elemBits_lt m.fty.ety.width (v.gc t) k)
  refine ⟨fun k hlt => ?_, ?_⟩
  · rw [packFlags_elem _ _ _ _ (width_mul_count _).le hlt]
    exact (hk k).1
  · rw [packFlags_flags]
    simp only [(hk _).2]

/-- The choice between two encodings that are not NaNs: the one not chosen does not come before it. -/
theorem before_choice (isMax : Bool) (value : Nat → FVal) (x y : Nat) :
    let r := if FVal.before isMax (value y) (value x) then y else x
    (r = x ∨ r = y) ∧ FVal.before isMax (value x) (value r) = false ∧ FVal.before isMax (value y) (value r) = false := by
  cases h : FVal.before isMax (value y) (value x)
  · exact ⟨.inl rfl, before_irrefl .., h⟩
  · exact ⟨.inr rfl, before_asymm h, before_irrefl ..⟩

theorem claim_minmax (m : FMod) (isMax : Bool) {b c : Nat} (hb : b < 2 ^ m.fty.ety.width)
    (hc : c < 2 ^ m.fty.ety.width) :
    Claim.minmax isMax m b c
      (((FTy.fmt m.fty).minmax (FTy.flushes m.fty) isMax b c).1 % 2 ^ m.fty.ety.width) := by
  rw [minmax_eq]
  unfold Claim.minmax
  simp only [isNan_congr (opnd_agrees m.fty b), isNan_congr (opnd_agrees m.fty c),
    ltZ_congr (opnd_agrees m.fty b) (opnd_agrees m.fty c), ltZ_congr (opnd_agrees m.fty c) (opnd_agrees m.fty b)]
  have hx := Nat.mod_eq_of_lt (flushed_lt m.fty hb)
  have hy := Nat.mod_eq_of_lt (flushed_lt m.fty hc)
  generalize Claim.flushed m.fty b = x at *
  generalize Claim.flushed m.fty c = y at *
  cases ((FTy.fmt m.fty).value x).isNan <;> cases ((FTy.fmt m.fty).value y).isNan
  case false.false =>
    simp only [Bool.and_self, Bool.false_eq_true, ↓reduceIte]
    rw [apply_ite (· % 2 ^ m.fty.ety.width), hx, hy]
    exact before_choice isMax (FTy.fmt m.fty).value x y
  case false.true => exact hx
  case true.false => exact hy
  case true.true => exact nan_mod m.fty

section meanings
variable (x : Ctl) (m : FMod) (o : Slots) (s : State)

theorem exec_fmin : exec (.fmin x m o) s = execFmin x m o s := rfl
theorem exec_fmax : exec (.fmax x m o) s = execFmax x m o s := rfl
theorem exec_fabs : exec (.fabs x m o) s = execFabs x m o s := rfl
theorem exec_fneg : exec (.fneg x m o) s = execFneg x m o s := rfl
theorem exec_fclass : exec (.fclass x m o) s = execFclass x m o s := rfl

end meanings

theorem exec_fcmp (x : Ctl) (m : FCMod) (o : Slots) (s : State) : exec (.fcmp x m o) s = execFcmp x m o s := rfl

/-! ## FABS and FNEG -/

section sign
variable (t : FTy)

theorem zero_eq (n : Bool) : (FTy.fmt t).zero n = if n then 2 ^ (t.ety.width - 1) else 0 := by
  cases t <;> rfl

theorem sign_eq_testBit (b : Nat) : (FTy.fmt t).sign b = b.testBit (t.ety.width - 1) := by
  have hw : (FTy.fmt t).ew + (FTy.fmt t).pw = t.ety.width - 1 := by cases t <;> rfl
  rw [FFmt.sign, hw, Nat.testBit_eq_decide_div_mod_eq]

theorem sign_flushed (b : Nat) : (FTy.fmt t).sign (Claim.flushed t b) = (FTy.fmt t).sign b := by
  unfold Claim.flushed
  split
  · rw [sign_eq_testBit, zero_eq]
    cases (FTy.fmt t).sign b <;> simp
  · rfl

/-- Below its sign bit a zero has no bit. -/
theorem zero_mod_sign (n : Bool) : (FTy.fmt t).zero n % 2 ^ (t.ety.width - 1) = 0 := by
  rw [zero_eq]
  cases n <;> simp

/-- An encoding given a sign: the bits of the flushed encoding under it. -/
theorem signed_eq (b : Nat) (n : Bool) :
    signed t b n =
      (if ((FTy.fmt t).value (Claim.flushed t b)).isNan then (FTy.fmt t).nan
        else Claim.flushed t b % 2 ^ (t.ety.width - 1) + (FTy.fmt t).zero n, Claim.flushFlag t b) := by
  have hw : (FTy.fmt t).ew + (FTy.fmt t).pw = t.ety.width - 1 := by cases t <;> rfl
  have hbits : (if (FTy.opnd t b).2 ≠ 0 then (FTy.fmt t).zero n else b % 2 ^ (t.ety.width - 1) + (FTy.fmt t).zero n) =
      Claim.flushed t b % 2 ^ (t.ety.width - 1) + (FTy.fmt t).zero n := by
    rw [← kept_encoding]
    split
    · rw [zero_mod_sign, Nat.zero_add]
    · rfl
  rw [← isNan_congr (opnd_agrees t b), ← hbits, ← opnd_flags, signed, hw]
  simp only [apply_ite (fun r => (r, (FTy.opnd t b).2))]

end sign

/-- The sign bit inverted. -/
theorem mod_add_flipped {w x : Nat} (hx : x < 2 ^ (w + 1)) :
    x % 2 ^ w + (if !x.testBit w then 2 ^ w else 0) = x ^^^ 2 ^ w := by
  have hor : x % 2 ^ w + (if !x.testBit w then 2 ^ w else 0) = (if !x.testBit w then 2 ^ w else 0) ||| x % 2 ^ w := by
    have h := Nat.two_pow_add_eq_or_of_lt (Nat.mod_lt x (Nat.two_pow_pos w)) (!x.testBit w).toNat
    cases hb : x.testBit w <;> simp_all [Nat.add_comm]
  rw [hor]
  refine Nat.eq_of_testBit_eq fun i => ?_
  rw [Nat.testBit_or, Nat.testBit_mod_two_pow, Nat.testBit_xor, Nat.testBit_two_pow]
  rcases Nat.lt_trichotomy i w with hi | rfl | hi
  · cases x.testBit w <;> simp [hi, hi.ne']
  · cases x.testBit i <;> simp
  · have hout : x.testBit i = false :=
      Nat.testBit_lt_two_pow (lt_of_lt_of_le hx (Nat.pow_le_pow_right (by decide) hi))
    cases x.testBit w <;> simp [hi.ne, hi.not_gt, hout]

theorem floatSelectionAndSignWords : Claim.FloatSelectionAndSignWords := by
  refine ⟨claim_plainWord_of_plainF _ exec_fmin fun m b c hb hc => ⟨claim_minmax m false hb hc, ?fmin⟩,
    claim_plainWord_of_plainF _ exec_fmax fun m b c hb hc => ⟨claim_minmax m true hb hc, ?fmax⟩,
    claim_plainWord_of_plainF _ exec_fabs fun m b _ hb _ => ?fabs,
    claim_plainWord_of_plainF _ exec_fneg fun m b _ hb _ => ?fneg⟩
  case fmin | fmax => rw [minmax_eq]
  case fabs =>
    rw [signed_eq]
    refine ⟨?_, rfl⟩
    dsimp only
    split
    · exact nan_mod m.fty
    · have hlt : Claim.flushed m.fty b % 2 ^ (m.fty.ety.width - 1) < 2 ^ m.fty.ety.width :=
        (Nat.mod_le ..).trans_lt (flushed_lt m.fty hb)
      rw [zero_eq, if_neg Bool.false_ne_true, Nat.add_zero, Nat.mod_eq_of_lt hlt]
  case fneg =>
    have hx := flushed_lt m.fty hb
    have hw : m.fty.ety.width - 1 + 1 = m.fty.ety.width := Nat.sub_add_cancel (width_pos _)
    rw [signed_eq, ← sign_flushed, zero_eq, sign_eq_testBit, mod_add_flipped (hw.symm ▸ hx)]
    refine ⟨?_, rfl⟩
    dsimp only
    split
    · exact nan_mod m.fty
    · have hlt := Nat.xor_lt_two_pow hx
        (Nat.pow_lt_pow_right (by decide : 1 < 2) (Nat.sub_lt (width_pos m.fty.ety) Nat.one_pos))
      exact Nat.mod_eq_of_lt hlt

/-! ## FCMP and FCLASS -/

theorem condFlt_congr (c : FCond) {u u' v v' : FVal} (hu : FVal.Agree u u') (hv : FVal.Agree v v') :
    condFlt c u v = condFlt c u' v' := by
  unfold condFlt
  rw [isNan_congr hu, isNan_congr hv, lt_congr hu hv, lt_congr hv hu]

section classes
variable (f : FFmt) (b : Nat)

/-- A value that is not a NaN has the sign of its encoding. -/
theorem sign_of_value {n : Bool} :
    (f.value b = .inf n → n = f.sign b) ∧ ∀ m e, f.value b = .fin n m e → n = f.sign b := by
  unfold FFmt.value
  dsimp only
  split_ifs <;> simp [eq_comm] <;> intros <;> assumption

theorem classOf_eq : classOf f b = 2 ^ Claim.classBit f b := by
  unfold classOf Claim.classBit
  rcases hv : f.value b with _ | n | ⟨n, m, e⟩
  case nan => rfl
  case inf =>
    rw [(sign_of_value f b).1 hv]
    dsimp only
    cases f.sign b <;> rfl
  case fin =>
    rw [(sign_of_value f b).2 m e hv]
    dsimp only
    split
    · cases f.sign b <;> rfl
    · split <;> cases f.sign b <;> rfl

theorem classBit_le : Claim.classBit f b ≤ 8 := by
  unfold Claim.classBit
  dsimp only
  split
  · decide
  · split <;> decide
  · split
    · split <;> decide
    · split <;> split <;> decide

end classes

theorem floatComparisonAndClassWords : Claim.FloatComparisonAndClassWords := by
  refine ⟨fun x m o => ?fcmp, claim_plainWord_of_plainF _ exec_fclass fun m b _ _ _ => ⟨?fclass, rfl⟩⟩
  case fcmp =>
    have hx := exec_fcmp x m o
    unfold execFcmp at hx
    dsimp only at hx
    refine ⟨_, _, yields_of_calc _ x o (tys m.fty.ety) [o.b, o.c] _ _ hx (fun _ _ _ _ _ _ => rfl), fun c w T v t => ?_⟩
    refine ⟨fun k hk => ?_, ?_⟩
    · rw [packFlags_elem _ _ _ _ (width_mul_count _).le hk]
      rw [allOnes_mod, condFlt_congr m.cond (opnd_agrees ..) (opnd_agrees ..)]
      refine congrArg (fun p : Bool => if p then 2 ^ m.fty.ety.width - 1 else 0) ?_
      unfold condFlt
      exact ite_congr rfl (fun _ => (Bool.decide_or _ _).symm) fun _ => rfl
    · rw [packFlags_flags]
      simp only [opnd_flags]
  case fclass =>
    have hw : 16 ≤ m.fty.ety.width := by cases m.fty <;> decide
    have hbit := classBit_le (FTy.fmt m.fty) b
    rw [classOf_eq]
    exact Nat.mod_eq_of_lt (Nat.pow_lt_pow_right (by decide) (by omega))

/-- Settles O5, from the words that choose an operand or change its sign, and those that compare or classify. -/
theorem floatWordsThatRoundNothing : Obligations.FloatWordsThatRoundNothing :=
  ⟨floatSelectionAndSignWords, floatComparisonAndClassWords⟩

end Sys2Proof.Machine
end

section
/-! PROOFS. CVT, PACK, UNPACK and SWZ: sub-elements converted and rearranged (R67, R178-R181). -/

namespace Sys2Proof.Machine

/-! ## CVT (R178, R179) -/

/-- The fold over the first `n` sub-elements: their results, their flags joined, and `$rnd` after their draws. -/
theorem drawFold_range (rm : RMode) (draws : Nat → Bool) (f : Nat → Nat → Nat × Flags) (r : Word) (n : Nat) :
    drawFold (decide (rm = .rs)) draws f (List.range n) r =
      ((List.range n).map (fun k => (f k (Claim.draw rm draws r k)).1),
        Claim.join n (fun k => (f k (Claim.draw rm draws r k)).2), drawn rm draws r n) := by
  have h := drawFold_eq rm draws f r n 0
  rw [drawn_zero, ← List.range_eq_range', Nat.zero_add] at h
  exact h

/-- Sub-elements that all draw or none. -/
theorem drawn_const (rm : RMode) (d : Bool) (r : Word) (n : Nat) :
    drawn rm (fun _ => d) r n = if rm = .rs ∧ d = true then rndSteps n r else r := by
  cases d
  · simp [drawn, rndSteps]
  · simp [drawn]

theorem elemBits_packElems_map (f : Nat → Nat) {w n k : Nat} (hn : w * n ≤ 64) (hk : k < n) :
    elemBits w (packElems w ((List.range n).map f)) k = f k % 2 ^ w := by
  rw [elemBits_packElems _ _ _ (by simpa using hn)]
  simp [List.getD, hk]

/-- The results of a conversion, in the order of the sub-elements that it converts. -/
def cvtResults (m : CvtMod) (b r : Word) : List Nat × Flags × Word :=
  drawFold (decide (m.rm = .rs)) (fun _ => !cvtExact m.sty m.dty)
    (fun k dr => cvtElem m.sty m.dty m.rm m.sat dr
      (elemBits m.sty.width b (if m.dty.count < m.sty.count then m.part.val * m.dty.count + k else k)))
    (List.range (Nat.min m.sty.count m.dty.count)) r

/-- Sub-element `j` of the destination: from the results `ys` in the group `part`, elsewhere as `a` has it. -/
def cvtPlaced (m : CvtMod) (a : Word) (ys : List Nat) (j : Nat) : Nat :=
  if m.sty.count < m.dty.count then
    if m.part.val * m.sty.count ≤ j && j < m.part.val * m.sty.count + m.sty.count then
      ys.getD (j - m.part.val * m.sty.count) 0
    else elemBits m.dty.width a j
  else ys.getD j 0

theorem exec_cvt (x : Ctl) (m : CvtMod) (o : Slots) (s : State) :
    exec (.cvt x m o) s =
      let srcs := if m.sty.count < m.dty.count then [o.a, o.b] else [o.b]
      regWord x { b := ETy.otyCvt m.sty } srcs o (fun c w T v =>
        runDraw o.a (fltTag w m.rm srcs) (fun t r =>
          let y := cvtResults m (v.gb t) r
          (packElems m.dty.width ((List.range m.dty.count).map (cvtPlaced m (v.ga t) y.1)), y.2.1, y.2.2)) c w T) s := rfl

/-- The destination of a conversion whose results are `f`. -/
theorem cvtPlaced_map (m : CvtMod) (a : Word) (f : Nat → Nat) {j : Nat} (hj : j < m.dty.count) :
    cvtPlaced m a ((List.range (Nat.min m.sty.count m.dty.count)).map f) j % 2 ^ m.dty.width =
      if m.sty.count < m.dty.count then
        (if m.part.val * m.sty.count ≤ j ∧ j < m.part.val * m.sty.count + m.sty.count then
          f (j - m.part.val * m.sty.count) % 2 ^ m.dty.width
        else elemBits m.dty.width a j)
      else f j % 2 ^ m.dty.width := by
  have hget {k : Nat} (hs : k < m.sty.count) (hd : k < m.dty.count) :
      ((List.range (Nat.min m.sty.count m.dty.count)).map f).getD k 0 = f k := by
    have hk : k < Nat.min m.sty.count m.dty.count := Nat.lt_min.mpr ⟨hs, hd⟩
    simp [List.getD, hk]
  unfold cvtPlaced
  simp only [Bool.and_eq_true, decide_eq_true_eq]
  split
  · split
    · rw [hget (by omega) (by omega)]
    · exact Nat.mod_eq_of_lt (elemBits_lt ..)
  · rw [hget (by omega) hj]

/-- Settles O7: the fold over the converted sub-elements gives the results, the flags and the draws. -/
theorem conversionFillsItsPart : Obligations.ConversionFillsItsPart := by
  intro x m o
  refine ⟨_, _, _, yields_of_draw _ x o _ _ _ _ (exec_cvt x m o) (fun _ _ _ _ _ _ => rfl) ?_,
    fun c w T v t => ⟨fun j hj => ?_, ?_, ?_⟩⟩
  · intro c w T v t r h
    rw [cvtResults, drawFold_range] at h
    exact drawn_eq_zero h
  · rw [elemBits_packElems_map _ (width_mul_count _).le hj, cvtResults, drawFold_range]
    exact cvtPlaced_map m _ _ hj
  · rw [cvtResults, drawFold_range]
  · rw [cvtResults, drawFold_range, drawn_const]

/-! ## PACK, UNPACK and SWZ (R180, R181) -/

/-- The sub-element that PACK takes: the even or odd ones of B, then of C. -/
def packPick (m : IMod) (b c : Word) (k : Nat) : Nat :=
  let i := 2 * k + bit m.var
  if i < m.ty.count then elemBits m.ty.width b i else elemBits m.ty.width c (i - m.ty.count)

/-- The sub-element that UNPACK takes: the low or high ones of B and C by turns. -/
def unpackPick (m : IMod) (b c : Word) (k : Nat) : Nat :=
  if m.ty.count = 1 then (if m.var then elemBits m.ty.width c 0 else elemBits m.ty.width b 0)
  else
    let i := (if m.var then m.ty.count / 2 else 0) + k / 2
    if k % 2 = 0 then elemBits m.ty.width b i else elemBits m.ty.width c i

/-- The sub-element that SWZ takes: the one of B that a field of C names. -/
def swzPick (m : IMod) (b c : Word) (k : Nat) : Nat :=
  let i := elemBits 4 c k
  if i < m.ty.count then elemBits m.ty.width b i else 0

section meanings
variable (x : Ctl) (m : IMod) (o : Slots) (s : State)

theorem exec_pack : exec (.pack x m o) s = moveWord x m o (tys m.ty) (packPick m) s := rfl
theorem exec_unpack : exec (.unpack x m o) s = moveWord x m o (tys m.ty) (unpackPick m) s := rfl
theorem exec_swz : exec (.swz x m o) s = moveWord x m o (tysB m.ty) (swzPick m) s := rfl

end meanings

/-- A word that moves sub-elements: `f` picks each sub-element of the result from B and C. -/
theorem yields_of_moveWord {i : Instr} {x : Ctl} {m : IMod} {o : Slots} {ty : OTys} {f : Word → Word → Nat → Nat}
    (he : ∀ s, exec i s = moveWord x m o ty f s) :
    Yields i x o ty [o.b, o.c] always (fun _ _ _ v t => (bitMap m.ty (f (v.gb t) (v.gc t))).1) Claim.noFlags keepRnd :=
  yields_of_bitMap i x o ty [o.b, o.c] m.ty (fun _ w _ _ => uniTag w [o.b, o.c]) (fun v t => f (v.gb t) (v.gc t)) he

theorem rearrangementWords : Claim.RearrangementWords := by
  refine ⟨fun x m o => ⟨_, yields_of_moveWord (exec_pack x m o), fun c w T v t k hk => ?pack⟩,
    fun x m o => ⟨_, yields_of_moveWord (exec_unpack x m o), fun c w T v t k hk h2 => ?unpack⟩,
    fun x m o => ⟨_, yields_of_moveWord (exec_swz x m o), fun c w T v t k hk => ?swz⟩⟩
  case pack =>
    rw [bitMap_elem _ _ hk]
    refine Nat.mod_eq_of_lt ?_
    unfold packPick
    dsimp only
    split <;> exact elemBits_lt ..
  case unpack =>
    rw [bitMap_elem _ _ hk, unpackPick, if_neg (show m.ty.count ≠ 1 by omega)]
    refine Nat.mod_eq_of_lt ?_
    dsimp only
    split <;> exact elemBits_lt ..
  case swz =>
    rw [bitMap_elem _ _ hk]
    refine Nat.mod_eq_of_lt ?_
    unfold swzPick
    dsimp only
    split
    · exact elemBits_lt ..
    · exact Nat.two_pow_pos _

end Sys2Proof.Machine
end

section
/-! PROOFS. Words between threads: masked cross-thread words whose every thread is a member, WSET and FIRST
(R182-R187). -/

namespace Sys2Proof.Machine

/-! ## Words that raise no trap under a condition -/

/-- How a result statement follows for a word that is one calculation without draws wherever its condition holds. -/
theorem yields_of_calc_if {i : Instr} {x : Ctl} {o : Slots} {ty : OTys} {srcs : List Spec}
    {pre : WCtx → Warp → Mask → Opnds → Prop} {f : RegFn} (tag : Tag) (g : Warp → Mask → Opnds → Calc)
    (he : ∀ s, exec i s = regWord x ty srcs o f s)
    (hf : ∀ (c : WCtx) (w : Warp) (T : Mask) (v : Opnds) (l : Option Nat) (ports : List (Port × Word)), pre c w T v →
      f { c with lead := l } { w with ports := ports } T v =
        runCalc o.a tag (g w T v) { c with lead := l } { w with ports := ports } T) :
    Yields i x o ty srcs pre (fun _ w T v t => (g w T v t).1) (fun _ w T v t => (g w T v t).2) keepRnd := by
  intro s c w p ports pv h T v hpre hdst
  obtain ⟨w', hrun, hports, heff⟩ := runCalc_effect o.a tag (g w T v) { c with lead := T.lowest } { w with ports := ports } T
    h.active rfl fun t ht => (dstTrap_congr c _ w _ T o.a _ rfl rfl rfl).trans (hdst t ht)
  refine ⟨w', ?_, hports, regEffect_ports heff⟩
  rw [he, regWord_next h, hf c w T v T.lowest ports hpre, hrun, finish_nil]

theorem uceTrap_zero : uceTrap 0 = [] := if_pos rfl

/-- Where every thread belongs to its mask and reads no damaged register, a masked cross-thread word ends whole. -/
theorem crossShape_whole : CrossShape Claim.whole := by
  intro i x o ty srcs msk reads f creads hi hreads
  refine yields_of_calc_if .general (fun w _ v => f w.exited v) hi fun c w T v l ports ⟨hmem, hsound⟩ => ?_
  have hu : crossUce { w with ports := ports } o.b T (reads w.exited v) = 0 :=
    (crossUce_eq_consumers (w := w) (fun t u => hreads w v t u) o.b T).trans hsound
  simp only [memberOf_of_members hmem, hu, mask_and_not_zero, uceTrap_zero, List.append_nil]

/-! ## WSET and FIRST (R187) -/

theorem exec_wset (x : Ctl) (o : Slots) (s : State) : exec (.wset x o) s = execWset x o s := rfl
theorem exec_first (x : Ctl) (o : Slots) (s : State) : exec (.first x o) s = execFirst x o s := rfl

theorem wsetFrom_eq (v : Opnds) (t : Nat) : wsetFrom v t = (v.gc t).toNat % 32 := index5_eq v t

theorem wset_yields (x : Ctl) (o : Slots) : Yields (.wset x o) x o {} [o.c]
    (fun _ w T v => Claim.consumers (fun w v t i => i = (v.gc t).toNat % 32 && !w.exited.has i) o.b w T v = 0)
    (fun _ w _ v t => let u := (v.gc t).toNat % 32; if w.exited.has u then 0 else v.gb u)
    (fun _ w _ v t => flagIf (w.exited.has ((v.gc t).toNat % 32)) fAbsent) keepRnd := by
  refine yields_of_calc_if .general
    (fun w _ v t => (if w.exited.has ((v.gc t).toNat % 32) then 0 else v.gb ((v.gc t).toNat % 32),
      flagIf (w.exited.has ((v.gc t).toNat % 32)) fAbsent)) (exec_wset x o) fun c w T v l ports hsound => ?_
  have hu : crossUce { w with ports := ports } o.b T (fun t => oneLive { w with ports := ports } (wsetFrom v t)) = 0 := by
    refine Eq.trans ?_ hsound
    refine crossUce_eq_consumers (w := w) (creads := fun w v t i => i = (v.gc t).toNat % 32 && !w.exited.has i)
      (fun t u hlt => ?_) o.b T
    rw [wsetFrom_eq]
    exact has_onlyLive w.exited _ hlt
  have hcalc (t : Nat) : (if w.exited.has (wsetFrom v t) then (0, fAbsent) else (v.gb (wsetFrom v t), 0)) =
      (if w.exited.has ((v.gc t).toNat % 32) then 0 else v.gb ((v.gc t).toNat % 32),
        flagIf (w.exited.has ((v.gc t).toNat % 32)) fAbsent) := by
    rw [wsetFrom_eq, flagIf]
    split <;> rfl
  simp only [hu, hcalc, mask_and_not_zero, uceTrap_zero, List.append_nil]

/-- No active thread's B is damaged. -/
theorem crossUce_of_sound {w : Warp} {b : Spec} {T : Mask} (h : ∀ t, T.has t = true → damagedBy w b t = false) :
    crossUce w b T (fun _ => T) = 0 := by
  have hany : T.threads.any (damagedBy w b) = false := by
    rw [List.any_eq_false]
    exact fun t ht => by simp [h t ((Mask.mem_threads T t).mp ht)]
  unfold crossUce
  split
  · rfl
  · exact ofPred_has fun i _ => by rw [hany, Bool.and_false, Mask.has_zero]

/-- The first thread of a mask that passes a test. -/
theorem find_threads_eq_some {T : Mask} {p : Nat → Bool} {u : Nat} (hT : T.has u = true) (hp : p u = true)
    (hbelow : ∀ i, i < u → T.has i = true → p i = false) : T.threads.find? p = some u := by
  rw [Mask.threads, List.find?_filter, List.find?_range_eq_some]
  refine ⟨?_, List.mem_range.mpr (BitVec.lt_of_getLsbD hT), fun i hi => ?_⟩
  · exact decide_eq_true ⟨hT, hp⟩
  · have hnot : ¬ (T.getLsbD i = true ∧ p i = true) := fun ⟨hTi, hpi⟩ => by
      rw [hbelow i hi hTi] at hpi
      cases hpi
    rw [decide_eq_false hnot, Bool.not_false]

theorem firstThread_spec (T : Mask) (b : Nat → Word) :
    let r := BitVec.ofNat 64 ((T.threads.find? (fun u => b u ≠ 0)).getD 32)
    (∀ u, T.has u = true → b u ≠ 0 → (∀ i, i < u → T.has i = true → b i = 0) → r = BitVec.ofNat 64 u) ∧
      ((∀ u, T.has u = true → b u = 0) → r = 32) := by
  refine ⟨fun u hT hb hbelow => ?_, fun hall => ?_⟩
  · rw [find_threads_eq_some hT (by simpa using hb) fun i hi hTi => by simpa using hbelow i hi hTi, Option.getD_some]
  · have hnone : T.threads.find? (fun u => b u ≠ 0) = none := by
      rw [List.find?_eq_none]
      exact fun u hu => by simpa using hall u ((Mask.mem_threads T u).mp hu)
    rw [hnone]
    rfl

theorem first_yields (x : Ctl) (o : Slots) : Yields (.first x o) x o {} []
    (fun _ w T _ => ∀ t, T.has t = true → damagedBy w o.b t = false)
    (fun _ _ T v _ => BitVec.ofNat 64 ((T.threads.find? (fun u => v.gb u ≠ 0)).getD 32)) Claim.noFlags keepRnd := by
  refine yields_of_calc_if .general
    (fun _ T v _ => (BitVec.ofNat 64 ((T.threads.find? (fun u => v.gb u ≠ 0)).getD 32), 0)) (exec_first x o)
    fun c w T v l ports hsound => ?_
  have hu : crossUce { w with ports := ports } o.b T (fun _ => T) = 0 := crossUce_of_sound hsound
  simp only [hu, mask_and_not_zero, uceTrap_zero, List.append_nil]

/-- Settles O8, from the words that move sub-elements within a thread, and those that move them between threads. -/
theorem elementMovingWords : Obligations.ElementMovingWords :=
  ⟨rearrangementWords, shuffles_of_crossShape crossShape_whole, wset_yields,
    fun x o => ⟨_, first_yields x o, fun _ _ T v _ => firstThread_spec T v.gb⟩⟩

end Sys2Proof.Machine
end

section
/-! PROOFS. Predicate words: PSET, PLOP, PMOV and PMOV.scatter (R188). -/

namespace Sys2Proof.Machine

theorem exec_pset (x : Ctl) (o : Slots) (s : State) : exec (.pset x o) s = execPset x o s := rfl
theorem exec_plop (x : Ctl) (m : PLogic) (inv : Bool) (o : Slots) (s : State) :
    exec (.plop x m inv o) s = execPlop x m inv o s := rfl

/-- What PMOV gathers: the predicates of a thread, each in its place. -/
def gathered (w : Warp) (t : Nat) : Word :=
  BitVec.ofNat 64 ((List.range 8).foldl (fun a i => a + bit (w.pGet i t) * 2 ^ i) 0)

theorem exec_pmov (x : Ctl) (o : Slots) (s : State) : exec (.pmov x o) s =
    regWord x {} allPreds o (fun c w T _ => runCalc o.a .general (fun t => (gathered w t, 0)) c w T) s := rfl

theorem getLsbD_gathered (w : Warp) (t i : Nat) : (gathered w t).getLsbD i = (decide (i < 8) && w.pGet i t) := by
  rw [gathered, BitVec.getLsbD_ofNat, testBit_foldl_bits (fun i => w.pGet i t)]
  by_cases hi : i < 8
  · simp [hi, show i < 64 by omega]
  · simp [hi]

/-- A predicate as the word that writes it. -/
def predWord (b : Bool) : Word := if b then 1 else 0

theorem predWord_bit (b : Bool) : (predWord b).getLsbD 0 = b := by
  cases b <;> rfl

/-- What PMOV.scatter does for the predicates `ks`. -/
def scattered (T : Mask) (v : Opnds) (w : Warp) (ks : List (Fin 7)) : Warp :=
  ks.foldl (fun acc (i : Fin 7) => writeDst acc (.p i.castSucc) T .general (fun t => predWord ((v.gb t).getLsbD i))) w

/-- A predicate written for each thread of a mask is the predicate written as a destination. -/
theorem writeDst_pred (w : Warp) (i : Fin 7) (T : Mask) (v : Opnds) :
    writeDst w (.p i.castSucc) T .general (fun t => predWord ((v.gb t).getLsbD i)) =
      T.threads.foldl (fun a t => (a.pSet i t ((v.gb t).getLsbD i)).mend (regP i t)) w := by
  by_cases hT : T = 0
  · subst hT
    rfl
  · rw [writeDst_threads _ _ _ _ _ rfl hT]
    show T.threads.foldl (fun a t => (a.pSet i t ((predWord ((v.gb t).getLsbD i)).getLsbD 0)).mend (regP i t)) w = _
    simp only [predWord_bit]

theorem exec_pmovScatter (x : Ctl) (o : Slots) (s : State) : exec (.pmovScatter x o) s =
    regWord x {} [o.b] o (fun _ w T v => (scattered T v w (List.finRange 7), [])) s := by
  simp only [scattered, writeDst_pred]
  rfl

theorem scattered_effect {T : Mask} (hT : T ≠ 0) (v : Opnds) {ks : List (Fin 7)} (hks : ks.Nodup) (w : Warp) :
    let w' := scattered T v w ks
    (∀ i ∈ ks, ∀ t, T.has t = true → w'.pGet i t = (v.gb t).getLsbD i) ∧
      Kept w w' (ks.map (fun i => .p i.castSucc)) T ∧ w'.ports = w.ports ∧ (∀ t, w'.statusOf t = w.statusOf t) ∧
      ∀ t, w'.rndOf t = w.rndOf t := by
  induction ks generalizing w with
  | nil => exact ⟨nofun, kept_self .., rfl, fun _ => rfl, fun _ => rfl⟩
  | cons i ks ih =>
    obtain ⟨hnot, hks⟩ := List.nodup_cons.mp hks
    obtain ⟨hholds, hkept, hports, hstatus, hrnd⟩ :=
      writeDst_effect w (.p i.castSucc) T .general (fun t => predWord ((v.gb t).getLsbD i)) hT
    obtain ⟨ihpreds, ihkept, ihports, ihstatus, ihrnd⟩ :=
      ih hks (writeDst w (.p i.castSucc) T .general (fun t => predWord ((v.gb t).getLsbD i)))
    refine ⟨fun j hj t ht => ?_, kept_trans hkept ihkept, ihports.trans hports,
      fun t => (ihstatus t).trans (hstatus t (.inl nofun)), fun t => (ihrnd t).trans (hrnd t (.inl nofun))⟩
    rcases List.mem_cons.mp hj with rfl | hj
    · have hapart : apart (ks.map (fun i => .p i.castSucc)) T (.p j.castSucc) t := .inl fun hmem => by
        obtain ⟨k, hk, heq⟩ := List.mem_map.mp hmem
        exact hnot (Fin.castSucc_injective 7 (Spec.p.inj heq) ▸ hk)
      refine (ihkept.regP j.castSucc t (BitVec.lt_of_getLsbD ht) hapart).trans ((hholds t ht).trans ?_)
      rw [decide_eq_false (show j.castSucc.val ≠ 7 from (Fin.is_lt j).ne), Bool.false_or]
      exact predWord_bit _
    · exact ihpreds j hj t ht

theorem predicateWords : Claim.PredicateWords := by
  refine ⟨fun x o => ?pset, fun x m inv o => ?plop, fun x o => ?pmov, fun s c w p x o ports pv h => ?scatter⟩
  case pset => exact yields_of_calc _ x o {} [o.b] _ _ (exec_pset x o) fun _ _ _ _ _ _ => rfl
  case plop =>
    have h := yields_of_calc _ x o {} [o.b, o.c] _ _ (exec_plop x m inv o) fun _ _ _ _ _ _ => rfl
    cases m <;> exact h
  case pmov =>
    exact ⟨_, yields_of_calc _ x o {} allPreds _ _ (exec_pmov x o) fun _ _ _ _ _ _ => rfl,
      fun c w T v t i => getLsbD_gathered w t i⟩
  case scatter =>
    obtain ⟨hpreds, hkept, hports, hstatus, hrnd⟩ := scattered_effect h.active (readOps c w {} o pv)
      (List.nodup_finRange 7) { w with ports := ports }
    refine ⟨_, ?_, hports, fun i t ht => hpreds i (List.mem_finRange i) t ht, kept_of_ports hkept, hstatus, hrnd⟩
    rw [exec_pmovScatter, regWord_next h, finish_nil]

/-- Settles O9, from the masked cross-thread words where every thread is a member, and the predicate words. -/
theorem warpAndPredicateWords : Obligations.WarpAndPredicateWords :=
  ⟨reductionAndVoteWords_of_crossShape crossShape_whole, predicateWords⟩

end Sys2Proof.Machine
end

section
/-! PROOFS. Memory words whose every access answers: what their threads obtain, their destination, and their end (R132, R135,
R192-R194, R197-R199, R202, R207, R210, R213, R221). -/

namespace Sys2Proof.Machine

/-! ## What the threads obtain -/

/-- The accesses of threads that all answer, in order. -/
theorem performAll_of_performed {f : Access} {k : Nat} {pd : Pend} {val : Nat → Option Word} {fl : Nat → Flags} {ts : List Nat} :
    ∀ {s s1 : State}, Claim.performed f k pd val fl s ts s1 →
      performAll f k pd s ts = (s1, ts.map (fun t => (t, .ok (val t, fl t)))) := by
  induction ts with
  | nil =>
    rintro s s1 rfl
    rfl
  | cons t ts ih =>
    rintro s s1 ⟨s2, haccess, hrest⟩
    simp only [performAll, haccess, ih hrest, List.map_cons]

/-- The thread whose access serves a thread: itself, or the lowest active one where the word makes one access (R198, R199). -/
def Plan.source (pl : Plan) (T : Mask) (t : Nat) : Nat := if pl.single then T.lowest.getD 0 else t

theorem resVal_map (r : Nat → Option Word × Flags) {ts : List Nat} {t : Nat} (ht : t ∈ ts) :
    resVal (ts.map (fun u => (u, .ok (r u)))) t = some (r t) := by
  induction ts with
  | nil => cases ht
  | cons u ts ih =>
    by_cases hu : u = t
    · simp [resVal, hu]
    · have hmem : t ∈ ts := (List.mem_cons.mp ht).resolve_left (Ne.symm hu)
      simpa [resVal, hu] using ih hmem

theorem traps_map (r : Nat → Option Word × Flags) (ts : List Nat) :
    (ts.map (fun t => (t, (.ok (r t) : Except MemErr (Option Word × Flags))))).filterMap
      (fun e => (resErr e.2).bind (errTrap e.1)) = [] := by
  simp [resErr]

theorem faults_map (r : Nat → Option Word × Flags) (ts : List Nat) :
    (ts.map (fun t => (t, (.ok (r t) : Except MemErr (Option Word × Flags))))).filterMap
      (fun e => ((resErr e.2).bind errPage).map (fun x => (e.1, x))) = [] := by
  simp [resErr]

/-! ## The destination of a word of which some threads obtained a value (R135) -/

/-- A destination is put for the threads `M`, or for the lowest active thread `low` alone where it is one per warp. -/
def putObtained (c : WCtx) (w0 w : Warp) (x : Spec) (low : Nat) (M : Mask) (val : Nat → Word) : Warp × List Trap :=
  if M = 0 then (w, [])
  else if isWarpDst x then if M.has low then putDst c w0 w x (BitVec.ofNat 32 (2 ^ low)) .general val else (w, [])
  else putDst c w0 w x M .general val

theorem putDst_unled {c : WCtx} (hc : c.lead = none) (w0 w : Warp) (x : Spec) {T : Mask} {t : Nat} (ht : T.lowest = some t)
    {val : Nat → Word} (hd : dstTrap c w T x (val t) = none) :
    putDst c w0 w x T .general val = (writeDst w x T .general val, []) := by
  simp only [putDst, ht, hc, hd, Bool.and_false, Bool.false_eq_true, ↓reduceIte]

/-- Whether a destination takes a value does not depend on the threads it is put for. -/
theorem dstTrap_none_threads {c : WCtx} {w : Warp} {T U : Mask} {x : Spec} {v : Word} (h : dstTrap c w T x v = none) :
    dstTrap c w U x v = none := by
  unfold dstTrap at h ⊢
  split <;> simp_all

theorem lowest_bit {t : Nat} (ht : t < 32) : Mask.lowest (BitVec.ofNat 32 (2 ^ t)) = some t := by
  have hhas (u : Nat) : Mask.has (BitVec.ofNat 32 (2 ^ t)) u = (decide (u < 32) && decide (u = t)) := getLsbD_pow 32 t u
  cases hl : Mask.lowest (BitVec.ofNat 32 (2 ^ t)) with
  | none =>
    have hself := hhas t
    rw [lowest_eq_none_iff.mp hl, Mask.has_zero] at hself
    simp [ht] at hself
  | some u =>
    have hu := has_of_lowest hl
    rw [hhas, Bool.and_eq_true, decide_eq_true_eq, decide_eq_true_eq] at hu
    rw [hu.2]

/-- A mask within `T` that has the lowest thread of `T` has it as its own lowest. -/
theorem lowest_of_within {M T : Mask} {low : Nat} (hlow : T.lowest = some low) (hMT : ∀ t, M.has t = true → T.has t = true)
    (hM : M.has low = true) : M.lowest = some low := by
  have hthreads : M.threads = T.threads.filter M.has := by
    rw [Mask.threads, Mask.threads, List.filter_filter]
    refine List.filter_congr fun t _ => ?_
    cases hm : M.has t with
    | false => exact hm
    | true => exact hm.trans (by rw [show T.getLsbD t = true from hMT t hm]; rfl)
  obtain ⟨rest, hrest⟩ : ∃ rest, T.threads = low :: rest := List.head?_eq_some_iff.mp hlow
  rw [Mask.lowest, hthreads, hrest, List.filter_cons_of_pos hM, List.head?_cons]

section obtained
variable {c : WCtx} (hc : c.lead = none) {w : Warp} {x : Spec} {M T : Mask} {low : Nat} (hlow : T.lowest = some low)
  (hMT : ∀ t, M.has t = true → T.has t = true) {val : Nat → Word}
  (hd : ∀ t, M.lowest = some t → dstTrap c w M x (val t) = none)
include hc hlow hMT hd

/-- A destination put for some threads of a word is written, unless it is one per warp and the word's lowest thread is not
among them. -/
theorem putObtained_eq (w0 : Warp) : putObtained c w0 w x low M val =
    (if isWarpDst x = true → M.lowest = T.lowest then writeDst w x M .general val else w, []) := by
  unfold putObtained
  by_cases hM : M = 0
  · simp [hM, writeDst]
  obtain ⟨t, ht, -⟩ := Mask.lowest_isSome M hM
  rw [if_neg hM]
  cases hx : isWarpDst x with
  | false => simpa using putDst_unled hc w0 w x ht (hd t ht)
  | true =>
    by_cases hhas : M.has low = true
    · have hbit := lowest_bit (BitVec.lt_of_getLsbD hhas)
      have hMlow := lowest_of_within hlow hMT hhas
      have hbit0 : (BitVec.ofNat 32 (2 ^ low) : Mask) ≠ 0 := fun h0 => by rw [h0, lowest_zero] at hbit; cases hbit
      simp only [hhas, hMlow, hlow, ↓reduceIte, implies_true]
      rw [putDst_unled hc w0 w x hbit (dstTrap_none_threads (hd low hMlow)), writeDst_warp _ _ _ _ _ _ hx hbit0 hbit,
        writeDst_warp _ _ _ _ _ _ hx hM hMlow]
    · have hne : M.lowest ≠ T.lowest := fun h => hhas (has_of_lowest (h.trans hlow))
      simp [hhas, hne]

end obtained

/-- WHAT A MEMORY WORD LEAVES OF ITS WARP where every access answered: of the threads `T`, those of `M` obtained a value for
the destination, and each gains its flags. -/
structure Obtained (w w' : Warp) (x : Spec) (T M : Mask) (out : Nat → Word) (fl : Nat → Flags) : Prop where
  ports  : w'.ports = w.ports
  dst    : (isWarpDst x = true → M.lowest = T.lowest) → Holds w' x M out
  kept   : Kept w w' [x] M
  status : ∀ t, x ≠ .special .status ∨ T.has t = false →
    w'.statusOf t = if T.has t then w.statusOf t ||| fl t else w.statusOf t
  rnd    : ∀ t, x ≠ .special .rnd ∨ T.has t = false → w'.rndOf t = w.rndOf t

/-- Only the values of the threads that obtained one matter, and the flags of the word's threads. -/
theorem obtained_congr {w w' : Warp} {x : Spec} {T M : Mask} {f g : Nat → Word} {fl gl : Nat → Flags}
    (hf : ∀ t, M.has t = true → f t = g t) (hfl : ∀ t, T.has t = true → fl t = gl t) (h : Obtained w w' x T M f fl) :
    Obtained w w' x T M g gl where
  ports := h.ports
  dst hwritten := holds_congr hf (h.dst hwritten)
  kept := h.kept
  status t ht := (h.status t ht).trans (ite_congr rfl (fun hT => by rw [hfl t hT]) fun _ => rfl)
  rnd := h.rnd

/-- The flags of the threads, and no destination. -/
theorem obtained_flagAll (w : Warp) (x : Spec) (T M : Mask) (out : Nat → Word) (fl : Nat → Flags)
    (h : (isWarpDst x = true → M.lowest = T.lowest) → M = 0) : Obtained w (w.flagAll T fl) x T M out fl where
  ports := (congrArg Warp.ports (flagAll_spec w T fl).2).symm
  dst hw := h hw ▸ holds_no_thread ..
  kept := kept_flagAll ..
  status t _ := (flagAll_spec w T fl).1 t
  rnd _ _ := rndOf_flagAll ..

/-- The flags of the threads, and the destination. -/
theorem obtained_writeDst (w : Warp) (x : Spec) {T M : Mask} (hM : M ≠ 0) (hMT : ∀ t, M.has t = true → T.has t = true)
    (out : Nat → Word) (fl : Nat → Flags) : Obtained w (writeDst (w.flagAll T fl) x M .general out) x T M out fl := by
  obtain ⟨hholds, hkept, hports, hstatus, hrnd⟩ := writeDst_effect (w.flagAll T fl) x M .general out hM
  have hout (t : Nat) : T.has t = false → M.has t = false := fun ht => Bool.eq_false_iff.mpr fun hm => by
    rw [hMT t hm] at ht
    cases ht
  refine ⟨?_, fun _ => hholds, kept_trans (kept_flagAll w T M fl []) hkept, fun t ht => ?_, fun t ht => ?_⟩
  · rw [hports]
    exact (congrArg Warp.ports (flagAll_spec w T fl).2).symm
  · rw [hstatus t (ht.imp_right (hout t))]
    exact (flagAll_spec w T fl).1 t
  · rw [hrnd t (ht.imp_right (hout t))]
    exact rndOf_flagAll ..

/-- A destination put after the flags is what the word leaves. -/
theorem putObtained_effect {c : WCtx} (hc : c.lead = none) (w0 w : Warp) (x : Spec) {M T : Mask} {low : Nat}
    (hlow : T.lowest = some low) (hMT : ∀ t, M.has t = true → T.has t = true) {out : Nat → Word} (fl : Nat → Flags)
    (hd : ∀ t, M.lowest = some t → dstTrap c w M x (out t) = none) :
    ∃ w', putObtained c w0 (w.flagAll T fl) x low M out = (w', []) ∧ Obtained w w' x T M out fl := by
  refine ⟨_, putObtained_eq hc hlow hMT (fun t ht => ?_) w0, ?_⟩
  · rw [dstTrap_congr c c w _ M x _ rfl rfl]
    · exact hd t ht
    · have hrest := (flagAll_spec w T fl).2
      generalize w.flagAll T fl = a at hrest ⊢
      rw [hrest]
      rfl
  · by_cases hM : M = 0
    · have h0 : writeDst (w.flagAll T fl) x M .general out = w.flagAll T fl := by simp [writeDst, hM]
      rw [h0, ite_self]
      exact obtained_flagAll _ _ _ _ _ _ fun _ => hM
    · split
      · exact obtained_writeDst w x hM hMT out fl
      next hwritten => exact obtained_flagAll _ _ _ _ _ _ fun h => absurd h hwritten

/-! ## The end of a word whose every access answered -/

/-- The accesses of a word all answered, and `r` is what each thread obtained: from its own access, or from that of the
lowest thread `low`. -/
def Plan.answered (pl : Plan) (s : State) (k : Nat) (p : Pend) (low : Nat) (r : Nat → Option Word × Flags) (s1 : State) : Prop :=
  (pl.single = false ∧ performAll pl.access k p s p.T.threads = (s1, p.T.threads.map (fun t => (t, .ok (r t))))) ∨
  (pl.single = true ∧ ∃ a, (∀ t, r t = a) ∧ performAll pl.access k p s (p.T.threads.take 1) = (s1, [(low, .ok a)]))

theorem answered_of_performed {pl : Plan} {s s1 : State} {k low : Nat} {p : Pend} {val : Nat → Option Word}
    {fl : Nat → Flags} (hlow : p.T.lowest = some low)
    (hperf : Claim.performed pl.access k p val fl s (if pl.single then p.T.threads.take 1 else p.T.threads) s1) :
    pl.answered s k p low (fun t => (val (pl.source p.T t), fl (pl.source p.T t))) s1 := by
  have hrun := performAll_of_performed hperf
  cases hs : pl.single with
  | false =>
    simp only [hs, Bool.false_eq_true, ↓reduceIte] at hrun
    refine .inl ⟨hs, ?_⟩
    simpa only [Plan.source, hs, Bool.false_eq_true, ↓reduceIte] using hrun
  | true =>
    obtain ⟨rest, hrest⟩ : ∃ rest, p.T.threads = low :: rest := List.head?_eq_some_iff.mp hlow
    refine .inr ⟨hs, (val low, fl low), fun t => ?_, ?_⟩
    · simp only [Plan.source, hs, hlow, ↓reduceIte, Option.getD_some]
    · rw [hs] at hrun
      simpa only [hrest, ↓reduceIte, List.take_succ_cons, List.take_zero, List.map_cons, List.map_nil] using hrun

/-- The end of a word whose every access answered: flags, its destination, and no fault. -/
theorem perform_of_answered {pl : Plan} {s s1 : State} {k pid low : Nat} {q : Seq} {p : Pend} {r : Nat → Option Word × Flags}
    (htodo : p.todo = p.T) (hheld : p.held = []) (hlow : p.T.lowest = some low) (hans : pl.answered s k p low r s1)
    {w : Warp} {sp : Split} (hw : s1.warpAt k = some w) (hsp : w.splitAt pid = some sp) :
    ∃ (M T : Mask) (f : Nat → Word) (g : Nat → Flags),
      (let c : WCtx := { key := k, split := sp, blk := w.blk, block := none, launch := none, time := 0,
                         stackLo := s.stackLo k, stackHi := s.stackHi k }
       let wr := putObtained c w (w.flagAll T g) pl.dst low M f
       s.perform k pid q pl p = (s1.putWarp k wr.1).finish k pid q wr.2) ∧
      M = Mask.ofPred (fun t => p.T.has t && (r t).1.isSome) ∧ T = p.T ∧
      ∀ t, p.T.has t = true → f t = (r t).1.getD 0 ∧ g t = (r t).2 := by
  have hres (t : Nat) (ht : p.T.has t = true) : resVal (p.T.threads.map (fun u => (u, .ok (r u)))) t = some (r t) :=
    resVal_map r ((Mask.mem_threads _ _).mpr ht)
  rcases hans with ⟨hs, hrun⟩ | ⟨hs, a, hr, hrun⟩
  case' inl =>
    simp only [State.perform, htodo, hs, Bool.false_eq_true, ↓reduceIte, hrun, hw, hsp, traps_map, faults_map, hheld,
      hlow, Option.getD_some, List.nil_append, List.append_nil]
  case' inr =>
    have hmap : p.T.threads.map (fun t => (t, (.ok a : Except MemErr (Option Word × Flags)))) =
        p.T.threads.map (fun t => (t, .ok (r t))) := by simp only [hr]
    simp only [State.perform, htodo, hs, ↓reduceIte, hrun, hmap, hw, hsp, traps_map, faults_map, hheld, hlow,
      Option.getD_some, List.nil_append, List.append_nil]
  all_goals
    refine ⟨_, _, _, _, rfl, congrArg Mask.ofPred (funext fun t => ?_), ofPred_has fun t _ => ?_, fun t ht => ?_⟩
    · cases ht : p.T.has t with
      | false => rfl
      | true =>
        rw [hres t ht]
        rcases r t with ⟨_ | v, fl⟩ <;> rfl
    · cases ht : p.T.has t with
      | false => rfl
      | true => rw [hres t ht]; rfl
    · rw [hres t ht]
      rcases r t with ⟨_ | v, fl⟩ <;> exact ⟨rfl, rfl⟩

/-- A WORD WHOSE EVERY ACCESS ANSWERED writes what its threads obtained, and sequences. -/
theorem perform_of_performed {s s1 : State} {k pid : Nat} {q : Seq} {pl : Plan} {p : Pend} {val : Nat → Option Word}
    {fl : Nat → Flags} (htodo : p.todo = p.T) (hheld : p.held = []) (hT : p.T ≠ 0)
    (hperf : Claim.performed pl.access k p val fl s (if pl.single then p.T.threads.take 1 else p.T.threads) s1)
    {w : Warp} {sp : Split} (hw : s1.warpAt k = some w) (hsp : w.splitAt pid = some sp) :
    let M := Mask.ofPred (fun t => p.T.has t && (val (pl.source p.T t)).isSome)
    let out (t : Nat) : Word := (val (pl.source p.T t)).getD 0
    (∀ c : WCtx, c.stackLo = s.stackLo k → c.stackHi = s.stackHi k →
      ∀ t, M.lowest = some t → dstTrap c w M pl.dst (out t) = none) →
    ∃ w', s.perform k pid q pl p = (s1.putWarp k w').seqAct k pid q ∧
      Obtained w w' pl.dst p.T M out (fun t => fl (pl.source p.T t)) := by
  intro M out hd
  obtain ⟨low, hlow, -⟩ := Mask.lowest_isSome p.T hT
  obtain ⟨_, _, f, g, hrun, rfl, rfl, hfg⟩ :=
    perform_of_answered (pid := pid) (q := q) htodo hheld hlow (answered_of_performed hlow hperf) hw hsp
  have hMT (t : Nat) (ht : M.has t = true) : p.T.has t = true := by
    simp only [M, has_ofPred, Bool.and_eq_true] at ht
    obtain ⟨-, hmem, -⟩ := ht
    exact hmem
  obtain ⟨w', hput, hobt⟩ := putObtained_effect (c := {
    key := k, split := sp, blk := w.blk, block := none, launch := none, time := 0,
    stackLo := s.stackLo k, stackHi := s.stackHi k }) rfl w w pl.dst hlow hMT (out := f) g fun t ht => by
      rw [(hfg t (hMT t (has_of_lowest ht))).1]
      exact hd _ rfl rfl t ht
  refine ⟨w', ?_, obtained_congr (fun t ht => (hfg t (hMT t ht)).1) (fun t ht => (hfg t ht).2) hobt⟩
  dsimp only at hrun
  rw [hrun, hput, finish_nil]

theorem memoryWord_of_memWord {pre : State → WCtx → Warp → Mask → Opnds → Prop} {i : Instr} {x : Ctl} {o : Slots} {ty : OTys}
    {srcs : List Spec} {pl : Plan}
    (hi : ∀ {s : State} {c : WCtx} {w : Warp} {p : Split} {ports : List (Port × Word)} {pv : Pops},
      Ready s c w p x o srcs ports pv → pre s c w (activeMask w p x) (readOps c w ty o pv) →
        exec i s = memWord i x ty srcs o pl s) : Claim.memoryWord pre i x o ty srcs pl := by
  intro s s1 c w w1 p ports pv val fl h T v hpre hperf hw1 hsplit src done out hd
  obtain ⟨-, -, -, -, -, -, -, hlo, hhi, -⟩ := context_spec h.issuer
  obtain ⟨sp, hsp⟩ := Option.isSome_iff_exists.mp hsplit
  obtain ⟨w', hrun, hports, hdst, hkept, hstatus, hrnd⟩ := perform_of_performed (pid := p.id) (q := x.seq)
    (p := { i := i, T := T, todo := T, ops := v }) rfl rfl h.active hperf hw1 hsp fun c' hlo' hhi' t ht => by
      rw [dstTrap_congr c c' w1 w1 _ pl.dst _ (hlo'.trans hlo.symm) (hhi'.trans hhi.symm) rfl]
      exact hd t ht
  refine ⟨w', ?_, hports, hdst, hkept, hstatus, hrnd⟩
  rw [hi h hpre, memWord_next h, hrun]

/-- A CHK whose entry does not match loads. -/
theorem execChk_of_unfit {s : State} {c : WCtx} {w : Warp} {p : Split} {x : Ctl} {m : HMod} {o : Slots}
    {ports : List (Port × Word)} {pv : Pops} (h : Ready s c w p x o [o.b] ports pv)
    (hunfit : ∀ e, w.hoistAt m.idx.val = some e → e.fits m o.a (activeMask w p x) (readOps c w {} o pv) = false) :
    execChk x m o s = memWord (.chk x m o) x {} [o.b] o (planChk x m o) s := by
  unfold execChk
  rw [h.issuer]
  cases he : w.hoistAt m.idx.val with
  | none => simp only [he, Bool.and_false, Bool.false_eq_true, ↓reduceIte]
  | some e => simp only [he, h.ports, hunfit e he, Bool.and_false, Bool.false_eq_true, ↓reduceIte]

/-- An XST whose receiver is not saved stores. -/
theorem execXst_of_resident {s : State} {c : WCtx} {w : Warp} {p : Split} {x : Ctl} {m : XMod} {o : Slots}
    {ports : List (Port × Word)} {pv : Pops} (h : Ready s c w p x o [o.b, o.c] ports pv)
    (hgoes : s.xstWaits c.key m (activeMask w p x) = false) :
    execXst x m o s = memWord (.xst x m o) x {} [o.b, o.c] o (planXst m) s := by
  unfold execXst
  rw [h.issuer]
  simp only [hgoes, Bool.and_false, Bool.false_eq_true, ↓reduceIte]

/-- Settles O11: accesses that all answer fault nowhere, so the word writes what they gave and sequences. -/
theorem memoryWordsEndOnceEveryAccessAnswers : Obligations.MemoryWordsEndOnceEveryAccessAnswers :=
  ⟨fun _ _ _ => memoryWord_of_memWord fun _ _ => rfl,
    fun _ _ _ => memoryWord_of_memWord fun _ _ => rfl,
    fun _ _ _ => memoryWord_of_memWord fun _ _ => rfl,
    fun _ _ _ => memoryWord_of_memWord fun _ _ => rfl,
    fun _ _ _ => memoryWord_of_memWord fun _ _ => rfl,
    fun _ _ _ => memoryWord_of_memWord fun h hunfit => execChk_of_unfit h hunfit,
    fun _ _ => memoryWord_of_memWord fun _ _ => rfl,
    fun _ _ _ _ => memoryWord_of_memWord fun _ _ => rfl,
    fun _ _ _ => memoryWord_of_memWord fun _ _ => rfl,
    fun _ _ _ => memoryWord_of_memWord fun _ _ => rfl,
    fun _ _ _ => memoryWord_of_memWord fun _ _ => rfl,
    fun x m o => memoryWord_of_memWord fun h hgoes => (exec_xst x m o _).trans (execXst_of_resident h hgoes),
    fun _ _ _ => memoryWord_of_memWord fun _ _ => rfl⟩

end Sys2Proof.Machine
end

section
/-! PROOFS. Arrival words: their fields in bytes, the operations of ARRV, and AWAIT (R218, R219, R221, R222). -/

namespace Sys2Proof.Machine

/-! ## The fields of an arrival word (R218) -/

/-- The fields as the word has room for them (Table 14.8). -/
def Arr.narrow (a : Arr) : Arr :=
  { target := a.target % 2 ^ 32, count := a.count % 2 ^ 32, gen := a.gen % 2 ^ 15, errs := a.errs % 8 }

theorem ofBytes_bytes (a : Arr) : Arr.ofBytes a.bytes = a.narrow := by
  have htarget : a.target % 2 ^ 32 < 2 ^ 32 := Nat.mod_lt _ (by decide)
  have hcount : a.count % 2 ^ 32 < 2 ^ 32 := Nat.mod_lt _ (by decide)
  have hgen : a.gen % 2 ^ 15 < 2 ^ 15 := Nat.mod_lt _ (by decide)
  have herrs : a.errs % 8 < 8 := Nat.mod_lt _ (by decide)
  simp only [Arr.ofBytes, Arr.bytes, Arr.narrow, leNat_leBytes, Arr.mk.injEq]
  generalize a.target % 2 ^ 32 = target at *
  generalize a.count % 2 ^ 32 = count at *
  generalize a.gen % 2 ^ 15 = gen at *
  generalize a.errs % 8 = errs at *
  refine ⟨?_, ?_, ?_, ?_⟩ <;> omega

theorem narrow_eq {a : Arr} (htarget : a.target < 2 ^ 32) (hcount : a.count < 2 ^ 32) (hgen : a.gen < 2 ^ 15)
    (herrs : a.errs < 8) : a.narrow = a := by
  simp only [Arr.narrow, Nat.mod_eq_of_lt, htarget, hcount, hgen, herrs]

theorem ofBytes_bounds (bs : List Byte) :
    (Arr.ofBytes bs).target < 2 ^ 32 ∧ (Arr.ofBytes bs).count < 2 ^ 32 ∧ (Arr.ofBytes bs).gen < 2 ^ 15 ∧
      (Arr.ofBytes bs).errs < 8 :=
  ⟨Nat.mod_lt _ (by decide), Nat.mod_lt _ (by decide), Nat.mod_lt _ (by decide), Nat.mod_lt _ (by decide)⟩

@[simp] theorem bytes_length (a : Arr) : a.bytes.length = 16 := leBytes_length 16 _

/-- Bytes of a bank read back where they were written. -/
theorem map_get_putBank (y : Block) (off : Nat) (bs : List Byte) :
    (List.range bs.length).map (fun i => Sparse.get 0 (putBank y.live off bs) (off + i)) = bs := by
  refine List.ext_getElem (by simp) fun i _ hi => ?_
  rw [List.getElem_map, List.getElem_range, get_putBank, if_pos (by omega), Nat.add_sub_cancel_left, List.getD_eq_getElem _ _ hi]

/-! ## ARRV (R219, R221) -/

/-- What an operation of ARRV makes of a word's fields, before they are narrowed to their widths. -/
def Arr.apply (op : ArrvOp) (n : Nat) (a : Arr) : Arr :=
  match op with
  | .init => { a with target := n, count := 0, errs := 0 }
  | .add => a.signal n
  | .expect => { a with target := (a.target + n) % 2 ^ 32 }
  | .clrerr => { a with errs := 0 }

section arrv
variable {s : State} {k t : Nat} {w : Warp} (hw : s.warpAt k = some w) (hopen : w.openTxn t = none) {op : ArrvOp} {pd : Pend}
include hw hopen

theorem arrvAccess_of_misaligned (hb : (pd.ops.gb t).toNat % 16 ≠ 0) :
    arrvAccess op s k pd t = (s, .error (.trap tMISALIGN (pd.ops.gb t))) := by
  rw [arrvAccess, outsideTxn_of_none hw _ _ hopen]
  simp only [hw, hb, ne_eq, not_false_eq_true, ↓reduceIte]

/-- An operation whose word can be read answers the old generation and writes the word back; a release at core scope, which `.add`
makes, changes nothing. -/
theorem arrvAccess_of_sound {y : Block} (hy : s.blockAt w.blk = some y) (hb : (pd.ops.gb t).toNat % 16 = 0)
    (hin : (pd.ops.gb t).toNat + 16 ≤ s.bankBytes y) (hsound : s.soundRun w.blk (pd.ops.gb t).toNat 16) :
    arrvAccess op s k pd t =
      (let off := (pd.ops.gb t).toNat
       let old := Arr.ofBytes (y.liveBytes off 16)
       (s.putBlock w.blk { y with live := putBank y.live off (old.apply op ((pd.ops.gc t).toNat % 2 ^ 32)).bytes },
         .ok (some (BitVec.ofNat 64 old.gen), 0))) := by
  have hload : s.loadS w.blk (pd.ops.gb t).toNat 16 = .ok (y.liveBytes (pd.ops.gb t).toNat 16) :=
    loadS_of_sound hy ⟨Int.natCast_nonneg _, by exact_mod_cast hin⟩ hsound
  rw [arrvAccess, outsideTxn_of_none hw _ _ hopen]
  simp only [hw, hb, ne_eq, not_true_eq_false, ↓reduceIte, hload, State.release, ite_self]
  rw [putLive_of_sound hy (by rwa [bytes_length])]
  cases op <;> rfl

end arrv

theorem arrivalWordOperations : Claim.ArrivalWordOperations := by
  intro s k t w y op pd hw hopen hy off n
  refine ⟨fun hb => arrvAccess_of_misaligned hw hopen hb, fun hb hin hsound => ?_⟩
  intro old
  refine ⟨_, arrvAccess_of_sound hw hopen hy hb hin hsound, fun a ha => ?_, ?_⟩
  · rw [get_putBank, bytes_length, if_neg (by omega)]
  · intro new
    have hnew : new = (old.apply op n).narrow := by
      have hback := map_get_putBank y off (old.apply op n).bytes
      rw [bytes_length] at hback
      exact (congrArg Arr.ofBytes hback).trans (ofBytes_bytes _)
    have hn : n < 2 ^ 32 := Nat.mod_lt _ (by decide)
    obtain ⟨htarget, hcount, hgen, herrs⟩ : old.target < 2 ^ 32 ∧ old.count < 2 ^ 32 ∧ old.gen < 2 ^ 15 ∧ old.errs < 8 :=
      ofBytes_bounds _
    clear_value new old n
    subst hnew
    cases op with
    | init => exact narrow_eq hn (Nat.two_pow_pos 32) hgen (Nat.zero_lt_succ 7)
    | expect => exact narrow_eq (Nat.mod_lt _ (by decide)) hcount hgen herrs
    | clrerr => exact narrow_eq htarget hcount hgen (Nat.zero_lt_succ 7)
    | add =>
      simp only [Arr.apply, Arr.signal]
      split
      · simp only [Arr.narrow, Nat.mod_eq_of_lt htarget, Nat.mod_eq_of_lt herrs, Nat.mod_mod]
      · simp only [Arr.narrow, Nat.mod_eq_of_lt htarget, Nat.mod_eq_of_lt hgen, Nat.mod_eq_of_lt herrs]

/-! ## AWAIT (R222) -/

theorem exec_await (x : Ctl) (o : Slots) (s : State) : exec (.await x o) s = execAwait x o s := rfl

section await
variable {s : State} {c : WCtx} {w : Warp} {p : Split} {x : Ctl} {o : Slots} {ports : List (Port × Word)} {pv : Pops}
  (h : Ready s c w p x o [o.b, o.c] ports pv)
include h

/-- An AWAIT outside transactions evaluates its word at once. -/
theorem execAwait_outside (hout : Claim.noTxn w (activeMask w p x)) : execAwait x o s =
    .next ((s.putWarp c.key { w with ports := ports }).awaitEval c.key p.id x o
      { i := .await x o, T := activeMask w p x, ops := readOps c w {} o pv }) := by
  have hill : (s.putWarp c.key { w with ports := ports }).illegalOp c.key (activeMask w p x) = (_, activeMask w p x) :=
    illegalOp_none (warpAt_putWarp_same ..) hout
  rw [execAwait, splitWord_next h]
  simp only [hill, h.active, ↓reduceIte]

end await

section awaitEval
variable {s : State} {k pid : Nat} {w : Warp} {p : Split} (hw : s.warpAt k = some w) (hp : w.splitAt pid = some p) {pend : Pend}
  {y : Block} {off t : Nat} (hy : s.blockAt w.blk = some y) (ht : pend.T.lowest.getD 0 = t) (hoff : (pend.ops.gb t).toNat = off)
  (hb : off % 16 = 0) (hin : off + 16 ≤ s.bankBytes y) (hsound : s.soundRun w.blk off 16) (x : Ctl) (o : Slots)
include hw hp hy ht hoff hb hin hsound

/-- The evaluation of an AWAIT whose word can be read. -/
theorem awaitEval_of_sound : s.awaitEval k pid x o pend =
    (let a := Arr.ofBytes (y.liveBytes off 16)
     if decide (a.gen % 2 = 1) = (pend.ops.gc t).getLsbD 0 then s.awaitDone k pid x o pend.T a
     else s.putWarp k (w.putSplit { p with stop := some (.await pend) })) := by
  have hload : s.loadS w.blk off 16 = .ok (y.liveBytes off 16) :=
    loadS_of_sound hy ⟨Int.natCast_nonneg _, by exact_mod_cast hin⟩ hsound
  simp only [State.awaitEval, hw, hp, ht, hoff, hb, hload, ne_eq, not_true_eq_false, ↓reduceIte]

end awaitEval

/-- The end of an AWAIT: its destination receives the error bits, and its split sequences. -/
theorem awaitDone_spec {s : State} {k pid : Nat} {w : Warp} {p : Split} (hw : s.warpAt k = some w) (hp : w.splitAt pid = some p)
    (x : Ctl) (o : Slots) (T : Mask) (a : Arr)
    (hd : ∀ c : WCtx, c.stackLo = s.stackLo k → c.stackHi = s.stackHi k → dstOk c w T o.a (fun _ => BitVec.ofNat 64 a.errs)) :
    ∃ w', s.awaitDone k pid x o T a = (s.putWarp k w').seqAct k pid x.seq ∧ w'.ports = w.ports ∧
      RegEffect w w' o.a T (fun _ => BitVec.ofNat 64 a.errs) (fun _ => 0) w.rndOf := by
  obtain ⟨w', hput, hports, heffect⟩ := putDst_whole (c := {
    key := k, split := p, blk := w.blk, block := none, launch := none, time := 0,
    stackLo := s.stackLo k, stackHi := s.stackHi k }) rfl w o.a T (fun _ => BitVec.ofNat 64 a.errs) (hd _ rfl rfl)
  refine ⟨w', ?_, hports, heffect⟩
  simp only [State.awaitDone, hw, hp, hput, finish_nil]

theorem awaitEndsOnItsPhase : Claim.AwaitEndsOnItsPhase := by
  intro s c w p x o ports pv y h T v t off hout hy hb hin hsound a
  obtain ⟨-, hsplit, -, -, -, -, -, hlo, hhi, -⟩ := context_spec h.issuer
  have hw1 : (s.putWarp c.key { w with ports := ports }).warpAt c.key = some { w with ports := ports } := warpAt_putWarp_same ..
  have heval := awaitEval_of_sound (pend := { i := .await x o, T := T, ops := v }) hw1 hsplit hy rfl rfl hb hin hsound x o
  have hexec := (exec_await x o s).trans (execAwait_outside h hout)
  refine ⟨fun hphase hd => ?_, fun hphase => ?_⟩
  · obtain ⟨w', hdone, hports, heffect⟩ := awaitDone_spec hw1 hsplit x o T a fun c' hlo' hhi' u hu =>
      (dstTrap_congr c c' w _ T o.a _ (hlo'.trans hlo.symm) (hhi'.trans hhi.symm) rfl).trans (hd u hu)
    refine ⟨w', ?_, hports, regEffect_ports heffect⟩
    rw [hexec, heval.trans (if_pos hphase)]
    exact congrArg Host.Outcome.next (hdone.trans (by rw [putWarp_putWarp]))
  · rw [hexec, heval.trans (if_neg hphase), putWarp_putWarp]

/-- Settles O19: an operation changes the fields of the word alone and its bytes are written back; an AWAIT reads the word once
and ends or stops. -/
theorem arrivalWords : Obligations.ArrivalWords := ⟨arrivalWordOperations, awaitEndsOnItsPhase⟩

end Sys2Proof.Machine
end
